-- ==== Sys2Proof/Word.lean ====
section
/-!
DEFINITION. The word types of the DC12 and their plainest arithmetic (00 R8 to R10, R14, R15):
bit vectors hold exactly what the manual treats as bits.
-/

namespace Sys2Proof

/-- A byte of memory (R9). -/
abbrev Byte := BitVec 8
/-- A 32-bit register value (R26). -/
abbrev W32 := BitVec 32
/-- A d group, a clause address or an instruction word. -/
abbrev W64 := BitVec 64
/-- An x group or an FXA128 value (R90). -/
abbrev W128 := BitVec 128

/-- R15 `Sat(v, lo, hi)` on exact integers. -/
def satInt (v lo hi : Int) : Int := if v < lo then lo else if hi < v then hi else v

/-- R14 `x[hi:lo]` of a natural number, as `n` bits from bit `lo`. -/
def natBits (x lo n : Nat) : Nat := (x >>> lo) % 2 ^ n

/-- Bit `i` of a natural number. -/
def natBit (x i : Nat) : Bool := x.testBit i

/-- A list of indices 0 … n − 1 in ascending order. -/
def upTo (n : Nat) : List Nat := List.range n

end Sys2Proof
end

