-- ==== Sys2Proof/Config.lean ====
section
/-!
DEFINITION. What one implementation fixes and the manual leaves open, as constants without a body:
no proof can learn a value of them (notes/assumptions/3.md to 6.md). Where a value is drawn several
times, it is applied to a plain counter of State.
-/

namespace Sys2Proof.Config

/-- R380: the random bytes of CRYP.nonce, and of the responder's nonces; byte `i` of draw `n`. -/
opaque nonceByte : Nat → Nat → Byte

/-- R378: the private half of the device identity key, which nothing reads. -/
opaque identityKey : Nat

/-- R413: whether an image carries the vendor's signature over the digest of its bytes. -/
opaque imageVerifies : List Byte → Bool

/-- R379, R380: the slot-0 certificate chain of the device, as a list of bytes. -/
opaque certChain : List Byte

/-- R249, R399: whether byte `i` of an abandoned copy (draw `n`) was already written. -/
opaque copiedByte : Nat → Nat → Bool

/-- R413: the bytes of the SPDM responder program within a firmware image. -/
opaque responderPart : List Byte → List Byte

/-- R381: the fields of the responder's messages that neither R381 nor its standard fixes. -/
opaque spdmField : Nat → Nat

/-- R345: the final report, from the counters by view, subject and index, the ports' counters, the node
number, the reset count and pod time; no rule gives its layout. -/
opaque reportBytes : List (Nat × Nat) → List (List Nat) → Nat → Nat → Nat → List Byte

/-- R413: the bytes of a market table as the boot measures them, from its interval, units, reserves and tenants. -/
opaque tableBytes : List (List Nat) → List Byte

/-- R411: the node number that the board controller assigns at the boot after reset `n`. -/
opaque nodeNumber : Nat → Nat

/-- R379, R391: the die whose command processor runs the management queues. -/
opaque responderDie : Nat → Bool

/-- A number that an effect needs and no rule states (draw `n`). -/
opaque anyValue : Nat → Nat

/-- R229: the bank, or home slice, of another node that serves a line of the pod picture. -/
opaque bankOf : Nat → Nat

/-- R223: how the rate of copy `i` of pod time is corrected in a span (draw `n`): 0 not, 1 slower, 2 faster. -/
opaque rateStep : Nat → Nat → Nat

/-- R267: how far a stopped copy (draw `n`) has come, in bytes. -/
opaque copyProgress : Nat → Nat

/-- R410: the servo's sub-nanosecond fraction of pod time, in units of 250 ps, below 4. -/
opaque subNano : Nat → Nat

/-- R363: whether an access in cycle `cyc` to address `a`, whose translation buffer holds an old translation, takes the
new one. -/
opaque newTranslation (cyc a : Nat) : Bool

end Sys2Proof.Config
end

