-- ==== Sys2Proof/Syntax.lean ====
section
/-!
DEFINITION. The steps of the DC12: one constructor per row of spec/opcode_table.json. The first
183 rows are the instructions of the opcode map (02 R60, with their sub-operations); the others are
the indivisible events of the part's own agents and of the outside (95_what_each_step_holds).
Operands are structured: register numbers, modifier codes and plain numbers are decoded once, in
Sys2Proof/Decode.lean, and no meaning sees a raw encoding.
-/

namespace Sys2Proof

/-! ### Operands and modifiers (R52 to R62) -/

/-- R58: what an 8-bit register specifier names outside a predicate position. -/
inductive Reg where
  | g (n : Fin 128)
  | w (n : Fin 64)
  | zero
  deriving DecidableEq, Repr

/-- A predicate p0 to p7 (R58); p7 reads 1 and discards writes (R26). -/
abbrev Pred := Fin 8

/-- R52: the guard of an instruction. -/
structure Guard where
  p   : Pred
  neg : Bool
  deriving DecidableEq, Repr

/-- R62: the type codes 0x00 to 0x13, in order. -/
inductive Ty where
  | b32 | b64 | s8 | s16 | s32 | s64 | z8 | z16 | z32 | z64
  | f64 | f32 | f16 | bf16 | e4m3 | e5m2 | n4x | fxa | f16x2 | bf16x2
  deriving DecidableEq, Repr

/-- R62: rounding codes 0 to 4. -/
inductive Rm where
  | rne | rtz | rup | rdn | rna
  deriving DecidableEq, Repr

/-- R62: scope codes 0 to 5. -/
inductive Scope where
  | wg | quad | die | pkg | pod | sys
  deriving DecidableEq, Repr

/-- R62, R197: access size codes 0 to 6. -/
inductive Size where
  | z8 | s8 | z16 | s16 | b32 | b64 | b128
  deriving DecidableEq, Repr

/-- R62, R204: retention codes 0 to 3. -/
inductive Retain where
  | str | dflt | stk | byp
  deriving DecidableEq, Repr

/-- R62, R166: address spaces. -/
inductive Space where
  | glob | scratch | team
  deriving DecidableEq, Repr

/-- R62: branch hints. -/
inductive BrHint where
  | none | likely | unlikely | uniform
  deriving DecidableEq, Repr

/-- R56: atomic operations 0 to 8. -/
inductive Aop where
  | add | min | max | and | or | xor | exch | incw | decw
  deriving DecidableEq, Repr

/-- R56: atomic operand types 0 to 9. -/
inductive Aty where
  | s32 | s64 | z32 | z64 | b32 | b64 | f32 | f16x2 | bf16x2 | fxa
  deriving DecidableEq, Repr

/-- R59: a barrier register, b0 to b15 of the workgroup or bt0 to bt7 of the team. -/
inductive Bar where
  | b (n : Fin 16)
  | bt (n : Fin 8)
  deriving DecidableEq, Repr

/-- R59: a lane-mask register k0 to k11. -/
abbrev KReg := Fin 12
/-- R287: a timeout exponent. -/
abbrev TExp := Fin 16
/-- R59: a scratch tile name t0 to t255. -/
abbrev Tile := Fin 256

/-! ### Shapes of rows 0x1 to 0x5 (R99 to R131) -/

/-- D, A, B and a type: IMULH, IMIN, IMAX, AND, OR, XOR, SHL, BFE. -/
structure Bin where
  g : Guard
  d : Reg
  a : Reg
  b : Reg
  ty : Ty
  deriving DecidableEq, Repr

/-- D, A, B, type and .sat: IADD, ISUB, IMUL. -/
structure BinS where
  g : Guard
  d : Reg
  a : Reg
  b : Reg
  ty : Ty
  sat : Bool
  deriving DecidableEq, Repr

/-- D, A, B, C, type and .sat: IMAD. -/
structure TernS where
  g : Guard
  d : Reg
  a : Reg
  b : Reg
  c : Reg
  ty : Ty
  sat : Bool
  deriving DecidableEq, Repr

/-- D, A, B, C and a type: BFI. -/
structure Tern where
  g : Guard
  d : Reg
  a : Reg
  b : Reg
  c : Reg
  ty : Ty
  deriving DecidableEq, Repr

/-- D, A, type and .sat: IABS. -/
structure UnS where
  g : Guard
  d : Reg
  a : Reg
  ty : Ty
  sat : Bool
  deriving DecidableEq, Repr

/-- D, A and a type: POPC, CLZ, BREV, MOV, FCLASS. -/
structure Un where
  g : Guard
  d : Reg
  a : Reg
  ty : Ty
  deriving DecidableEq, Repr

/-- R104: SHR (alt = .arith) and ROT (alt = .right). -/
structure Shift where
  g : Guard
  d : Reg
  a : Reg
  b : Reg
  ty : Ty
  alt : Bool
  deriving DecidableEq, Repr

/-- R104: SEL. -/
structure SelArgs where
  g : Guard
  d : Reg
  a : Reg
  b : Reg
  c : Pred
  ty : Ty
  deriving DecidableEq, Repr

/-- R105: LOP3. -/
structure Lop3Args where
  g : Guard
  d : Reg
  a : Reg
  b : Reg
  c : Reg
  tbl : BitVec 8
  wide : Bool
  deriving DecidableEq, Repr

/-- R106: the saturation of IADDI and IMULI: MOD4 bits S and U. -/
inductive ImmSat where
  | wrap | signed | unsigned
  deriving DecidableEq, Repr

/-- R106: IADDI and IMULI. -/
structure ImmArgs where
  g : Guard
  d : Reg
  a : Reg
  wide : Bool
  sat : ImmSat
  imm : W32
  deriving DecidableEq, Repr

/-- R106: the operation of LOPI. -/
inductive LopOp where
  | and | or | xor | andn
  deriving DecidableEq, Repr

/-- R106: LOPI. -/
structure LopiArgs where
  g : Guard
  d : Reg
  a : Reg
  op : LopOp
  wide : Bool
  imm : W32
  deriving DecidableEq, Repr

/-- R106: MOVI. -/
structure MoviArgs where
  g : Guard
  d : Reg
  wide : Bool
  imm : W32
  deriving DecidableEq, Repr

/-- R106: MOVHI. -/
structure MovhiArgs where
  g : Guard
  d : Reg
  imm : W32
  deriving DecidableEq, Repr

/-- R107: LEA. -/
structure LeaArgs where
  g : Guard
  d : Reg
  a : Reg
  b : Reg
  ty : Ty
  sh : Fin 16
  deriving DecidableEq, Repr

/-- R108: how SUB combines the comparison with the predicate in C. -/
inductive PComb where
  | plain
  | and (c : Pred)
  | or (c : Pred)
  | xor (c : Pred)
  | andn (c : Pred)
  | orn (c : Pred)
  | not
  deriving DecidableEq, Repr

/-- R109: integer conditions. -/
inductive ICond where
  | eq | ne | lt | le | gt | ge
  deriving DecidableEq, Repr

/-- R109: ISETP. -/
structure IsetpArgs where
  g : Guard
  d : Pred
  a : Reg
  b : Reg
  ty : Ty
  cond : ICond
  comb : PComb
  deriving DecidableEq, Repr

/-- R110: floating conditions 0 to 13, in order. -/
inductive FCond where
  | eq | ne | lt | le | gt | ge | num | nan | equ | neu | ltu | leu | gtu | geu
  deriving DecidableEq, Repr

/-- R110: FSETP. -/
structure FsetpArgs where
  g : Guard
  d : Pred
  a : Reg
  b : Reg
  ty : Ty
  cond : FCond
  comb : PComb
  ftz : Bool
  deriving DecidableEq, Repr

/-- R111: PSET. -/
structure PsetArgs where
  g : Guard
  d : Pred
  a : Pred
  b : Pred
  c : Pred
  tbl : BitVec 8
  deriving DecidableEq, Repr

/-- The floating modifiers of R112: type, rounding, .sat and .ftz. -/
structure FMod where
  ty : Ty
  rm : Rm
  sat : Bool
  ftz : Bool
  deriving DecidableEq, Repr

/-- FRND and the special functions (R112, R118). -/
structure FUn where
  g : Guard
  d : Reg
  a : Reg
  m : FMod
  deriving DecidableEq, Repr

/-- FADD, FSUB, FMUL, FSCALE (R112). -/
structure FBin where
  g : Guard
  d : Reg
  a : Reg
  b : Reg
  m : FMod
  deriving DecidableEq, Repr

/-- FFMA, DOT4, DOT2 (R112, R116). -/
structure FTern where
  g : Guard
  d : Reg
  a : Reg
  b : Reg
  c : Reg
  m : FMod
  deriving DecidableEq, Repr

/-- FMIN, FMAX (R113). -/
structure FMinMax where
  g : Guard
  d : Reg
  a : Reg
  b : Reg
  ty : Ty
  ftz : Bool
  deriving DecidableEq, Repr

/-- R115: which element of b meets each element of a. -/
inductive BSel where
  | both | blo | bhi | bswp
  deriving DecidableEq, Repr

/-- HADD2, HMUL2 (R115). -/
structure HBin where
  g : Guard
  d : Reg
  a : Reg
  b : Reg
  sel : BSel
  m : FMod
  deriving DecidableEq, Repr

/-- HFMA2 (R115). -/
structure HTern where
  g : Guard
  d : Reg
  a : Reg
  b : Reg
  c : Reg
  sel : BSel
  m : FMod
  deriving DecidableEq, Repr

/-- CVT (R117): `m.ty` is the destination type. -/
structure CvtArgs where
  g : Guard
  d : Reg
  a : Reg
  src : Ty
  m : FMod
  deriving DecidableEq, Repr

/-- QSCALE (R120): `big` selects the target 448. -/
structure QscaleArgs where
  g : Guard
  d : Reg
  a : Reg
  ty : Ty
  big : Bool
  deriving DecidableEq, Repr

/-- PACK (R121): D is the lowest register of the block group, A of the 48 elements. -/
structure PackArgs where
  g : Guard
  d : Reg
  a : Reg
  b : Reg
  ty : Ty
  rm : Rm
  deriving DecidableEq, Repr

/-- UNPACK (R122). -/
structure UnpackArgs where
  g : Guard
  d : Reg
  a : Reg
  b : Reg
  part : Fin 3
  m : FMod
  deriving DecidableEq, Repr

/-- FXAADD (R123). -/
structure FxaaddArgs where
  g : Guard
  d : Reg
  a : Reg
  b : Reg
  sub : Bool
  deriving DecidableEq, Repr

/-- R124: the three directions of FXACVT. -/
inductive FxaDir where
  | out (m : FMod)
  | into (ty : Ty) (ftz : Bool)
  | anchor
  deriving DecidableEq, Repr

/-- FXACVT (R124). -/
structure FxacvtArgs where
  g : Guard
  d : Reg
  a : Reg
  b : Reg
  dir : FxaDir
  deriving DecidableEq, Repr

/-- R126: lane modes of SHFL. -/
inductive ShflMode where
  | lane | ofs | xor | rot
  deriving DecidableEq, Repr

/-- R126: field C of SHFL: the found predicate, or with .fb the fallback register. -/
inductive ShflC where
  | found (p : Pred)
  | fallback (r : Reg)
  deriving DecidableEq, Repr

/-- SHFL (R126). -/
structure ShflArgs where
  g : Guard
  d : Reg
  a : Reg
  b : Reg
  c : ShflC
  ty : Ty
  mode : ShflMode
  deriving DecidableEq, Repr

/-- R127: forms of VOTE with their destination. -/
inductive VoteForm where
  | all (d : Pred)
  | any (d : Pred)
  | same (d : Pred)
  | mask (d : Reg)
  | count (d : Reg)
  | first (d : Reg)
  deriving DecidableEq, Repr

/-- VOTE (R127). -/
structure VoteArgs where
  g : Guard
  a : Pred
  form : VoteForm
  deriving DecidableEq, Repr

/-- R128: forms of MATCH. -/
inductive MatchForm where
  | peers
  | same (c : Pred)
  | rank
  deriving DecidableEq, Repr

/-- MATCH (R128). -/
structure MatchArgs where
  g : Guard
  d : Reg
  a : Reg
  ty : Ty
  form : MatchForm
  deriving DecidableEq, Repr

/-- R129: operations of REDUX. -/
inductive ReduxOp where
  | add | min | max | and | or | xor
  deriving DecidableEq, Repr

/-- REDUX (R129). -/
structure ReduxArgs where
  g : Guard
  d : Reg
  a : Reg
  op : ReduxOp
  scan : Bool
  m : FMod
  deriving DecidableEq, Repr

/-- ACTIVE (R130). -/
structure ActiveArgs where
  g : Guard
  d : Reg
  part : Bool
  deriving DecidableEq, Repr

/-- PRMT (R131). -/
structure PrmtArgs where
  g : Guard
  d : Reg
  a : Reg
  b : Reg
  c : Reg
  deriving DecidableEq, Repr

/-! ### Shapes of rows 0x6 and 0x7 (R196 to R221) -/

/-- LD (R203). -/
structure LdArgs where
  g : Guard
  d : Reg
  base : Reg
  size : Size
  hint : Retain
  acq : Option Scope
  off : BitVec 14
  deriving DecidableEq, Repr

/-- ST (R203). -/
structure StArgs where
  g : Guard
  base : Reg
  data : Reg
  size : Size
  hint : Retain
  rel : Option Scope
  ord : Bool
  off : BitVec 14
  deriving DecidableEq, Repr

/-- LDS (R203): `team` selects team scratch. -/
structure LdsArgs where
  g : Guard
  d : Reg
  base : Reg
  team : Bool
  size : Size
  acq : Option Scope
  off : BitVec 14
  deriving DecidableEq, Repr

/-- STS (R203). -/
structure StsArgs where
  g : Guard
  base : Reg
  data : Reg
  team : Bool
  size : Size
  rel : Option Scope
  off : BitVec 14
  deriving DecidableEq, Repr

/-- LDW (R206). -/
structure LdwArgs where
  g : Guard
  d : Reg
  base : Reg
  scratch : Bool
  size : Size
  hint : Retain
  acq : Option Scope
  off : BitVec 14
  deriving DecidableEq, Repr

/-- PREF (R208). -/
structure PrefArgs where
  g : Guard
  base : Reg
  hint : Retain
  off : BitVec 14
  deriving DecidableEq, Repr

/-- CCTL.wb and CCTL.evl (R209). -/
structure CctlArgs where
  g : Guard
  base : Reg
  deriving DecidableEq, Repr

/-- CCTL.wbr (R209). -/
structure CctlRangeArgs where
  g : Guard
  base : Reg
  len : Reg
  deriving DecidableEq, Repr

/-- STBQ (R207). -/
structure StbqArgs where
  g : Guard
  d : Reg
  base : Reg
  data : Reg
  size : Size
  hint : Retain
  off : BitVec 14
  deriving DecidableEq, Repr

/-- A status destination and a timeout exponent: DRAIN (R210). -/
structure StatusWait where
  g : Guard
  d : Reg
  e : TExp
  deriving DecidableEq, Repr

/-- The ordering half of an atomic (R196, R211). -/
structure Sync where
  acq : Bool
  rel : Bool
  scope : Scope
  deriving DecidableEq, Repr

/-- ATOM (R211). -/
structure AtomArgs where
  g : Guard
  d : Reg
  base : Reg
  b : Reg
  aop : Aop
  aty : Aty
  hint : Retain
  sync : Sync
  ord : Bool
  ofs : BitVec 6
  deriving DecidableEq, Repr

/-- RED (R211). -/
structure RedArgs where
  g : Guard
  base : Reg
  b : Reg
  aop : Aop
  aty : Aty
  hint : Retain
  sync : Sync
  ord : Bool
  ofs : BitVec 6
  deriving DecidableEq, Repr

/-- CAS (R211). -/
structure CasArgs where
  g : Guard
  d : Reg
  base : Reg
  b : Reg
  aty : Aty
  hint : Retain
  sync : Sync
  ord : Bool
  ofs : BitVec 6
  deriving DecidableEq, Repr

/-- ATOMS (R211). -/
structure AtomsArgs where
  g : Guard
  d : Reg
  base : Reg
  team : Bool
  b : Reg
  aop : Aop
  aty : Aty
  sync : Sync
  ofs : BitVec 6
  deriving DecidableEq, Repr

/-- FENCE (R216). -/
structure FenceArgs where
  g : Guard
  sync : Sync
  deriving DecidableEq, Repr

/-- R217: conditions of WAIT. -/
inductive WCond where
  | eq | ne | lt | le | gt | ge | anyb
  deriving DecidableEq, Repr

/-- WAIT (R217). -/
structure WaitArgs where
  g : Guard
  d : Reg
  base : Reg
  b : Reg
  ty : Ty
  e : TExp
  scratch : Bool
  acq : Option Scope
  ext : Bool
  cond : WCond
  deriving DecidableEq, Repr

/-- PTIME (R220), and other instructions with only a destination. -/
structure DstArgs where
  g : Guard
  d : Reg
  deriving DecidableEq, Repr

/-- PTIME.until (R220); PENQ and WMARK (R221, R266); FRQ (R318); PRICE-less readers: D and A. -/
structure DA where
  g : Guard
  d : Reg
  a : Reg
  deriving DecidableEq, Repr

/-- D, A, B. -/
structure DAB where
  g : Guard
  d : Reg
  a : Reg
  b : Reg
  deriving DecidableEq, Repr

/-- D, A, B, C. -/
structure DABC where
  g : Guard
  d : Reg
  a : Reg
  b : Reg
  c : Reg
  deriving DecidableEq, Repr

/-- WMARK.wait (R221). -/
structure WmarkWaitArgs where
  g : Guard
  d : Reg
  a : Reg
  b : Reg
  e : TExp
  deriving DecidableEq, Repr

/-! ### Shapes of row 0x8 (R242 to R266) -/

/-- A run of tiles with a destination: TSTAT (R259). -/
structure TileD where
  g : Guard
  d : Reg
  t : Tile
  cnt : Fin 256
  deriving DecidableEq, Repr

/-- TALLOC and TSTAT.wait (R259). -/
structure TileDE where
  g : Guard
  d : Reg
  t : Tile
  cnt : Fin 256
  e : TExp
  deriving DecidableEq, Repr

/-- TFREE (R259). -/
structure TileRun where
  g : Guard
  t : Tile
  cnt : Fin 256
  deriving DecidableEq, Repr

/-- TSET (R259). -/
structure TileSet where
  g : Guard
  a : Reg
  t : Tile
  cnt : Fin 256
  deriving DecidableEq, Repr

/-- R245: the options common to CPY, CPYT and CPYST. -/
structure CopyOpts where
  mc : BitVec 4
  cb : Option (Fin 4)
  bar : Option Bar
  deriving DecidableEq, Repr

/-- CPY (R250). -/
structure CpyArgs where
  g : Guard
  src : Reg
  dst : Reg
  shape : Reg
  dsp : Space
  ssp : Space
  o : CopyOpts
  deriving DecidableEq, Repr

/-- R252: where CPYT's descriptor stands. -/
inductive DescAt where
  | mem (r : Reg)
  | regs (r : Reg)
  deriving DecidableEq, Repr

/-- CPYT.ld and CPYT.st (R252). -/
structure CpytArgs where
  g : Guard
  desc : DescAt
  coords : Reg
  box : Reg
  team : Bool
  mc : BitVec 4
  bar : Option Bar
  deriving DecidableEq, Repr

/-- CPYST (R260). -/
structure CpystArgs where
  g : Guard
  src : Reg
  dst : Reg
  sig : Reg
  dsp : Space
  ssp : Space
  cb : Option (Fin 4)
  bar : Option Bar
  deriving DecidableEq, Repr

/-- CBLD (R258). -/
structure CbldArgs where
  g : Guard
  slot : Fin 4
  t : Tile
  deriving DecidableEq, Repr

/-- A guard and one source register: STAGE, KMOV-less sources. -/
structure SrcArgs where
  g : Guard
  a : Reg
  deriving DecidableEq, Repr

/-- SNDA (R262). -/
structure SndaArgs where
  g : Guard
  d : Reg
  row : Reg
  pen : Reg
  alt : Reg
  scratch : Bool
  list : Fin 16
  units : Fin 64
  deriving DecidableEq, Repr

/-- SNDF (R263). -/
structure SndfArgs where
  g : Guard
  rcd : Reg
  list : Fin 16
  deriving DecidableEq, Repr

/-! ### Shapes of row 0x9 (R156 to R162) -/

/-- MLDS, MMA, MACR (R156 to R158): status, format word, control word, convergence register. -/
structure Collective where
  g : Guard
  d : Reg
  fw : Reg
  ctl : Reg
  bar : Bar
  e : TExp
  deriving DecidableEq, Repr

/-- A guard alone: NOP, EXIT, YIELD, CONT, MSWP, FRDN, … -/
structure G where
  g : Guard
  deriving DecidableEq, Repr

/-! ### Shapes of rows 0x0, 0xB (R277) and 0xC, 0xD -/

/-- BRA, CALL (R57, R278). -/
structure BrArgs where
  g : Guard
  hint : BrHint
  tgt : W32
  deriving DecidableEq, Repr

/-- BRX, CALLX. -/
structure BrxArgs where
  g : Guard
  hint : BrHint
  a : Reg
  deriving DecidableEq, Repr

/-- RET. -/
structure RetArgs where
  g : Guard
  hint : BrHint
  deriving DecidableEq, Repr

/-- JOIN, LEAVE, KMOV.clr. -/
structure KArgs where
  g : Guard
  k : KReg
  deriving DecidableEq, Repr

/-- WAITM. -/
structure WaitmArgs where
  g : Guard
  d : Reg
  k : KReg
  e : TExp
  deriving DecidableEq, Repr

/-- KMOV.mem and KMOV.arr. -/
structure KmovD where
  g : Guard
  d : Reg
  k : KReg
  deriving DecidableEq, Repr

/-- KMOV.set. -/
structure KmovA where
  g : Guard
  a : Reg
  k : KReg
  deriving DecidableEq, Repr

/-- BKPT, TRAP: a 16-bit code. -/
structure CodeArgs where
  g : Guard
  code : BitVec 16
  deriving DecidableEq, Repr

/-- WAITC (R288): thresholds. -/
structure WaitcArgs where
  g : Guard
  tl : BitVec 6
  cp : BitVec 6
  st : BitVec 6
  ld : BitVec 6
  deriving DecidableEq, Repr

/-- BARI. -/
structure BariArgs where
  g : Guard
  a : Reg
  bar : Bar
  deriving DecidableEq, Repr

/-- BARA, BARQ, BARQ.st. -/
structure BarD where
  g : Guard
  d : Reg
  bar : Bar
  deriving DecidableEq, Repr

/-- BARW. -/
structure BarwArgs where
  g : Guard
  d : Reg
  a : Reg
  bar : Bar
  e : TExp
  deriving DecidableEq, Repr

/-- BARAW. -/
structure BarawArgs where
  g : Guard
  d : Reg
  bar : Bar
  e : TExp
  deriving DecidableEq, Repr

/-- PURSE forms (R349): with .t, A names the tenant. -/
structure PurseArgs where
  g : Guard
  d : Reg
  tenant : Option Reg
  deriving DecidableEq, Repr

/-- CSRR (R393). -/
structure CsrrArgs where
  g : Guard
  d : Reg
  num : BitVec 12
  deriving DecidableEq, Repr

/-- CSRW (R393). -/
structure CsrwArgs where
  g : Guard
  a : Reg
  num : BitVec 12
  deriving DecidableEq, Repr

/-- TLBI.va (R364). -/
structure TlbiVaArgs where
  g : Guard
  a : Reg
  b : Reg
  deriving DecidableEq, Repr

/-- QPOP (R306). -/
structure QpopArgs where
  g : Guard
  d : Reg
  c : Pred
  deriving DecidableEq, Repr

/-- QPUSH.rep (R306). -/
structure QpushArgs where
  g : Guard
  a : Reg
  c : Pred
  deriving DecidableEq, Repr

/-- QPUSH.fwd (R306). -/
structure QpushFwdArgs where
  g : Guard
  a : Reg
  b : Reg
  c : Pred
  deriving DecidableEq, Repr

/-! ### Operands of the events

An event names the object it happens to, and what reaches the part from outside. Indices are plain
numbers: an event whose object does not exist, or is not in the state the rule asks, does not occur
(notes/assumptions/2.md). A `reply` is what another node, a fold or a host answered: the value, and the stamp
of the ordered operation that wrote it or 0; without one, the answer is what this package last saw there.
-/

/-- R224: the rank of an ordered operation. -/
structure Rank where
  stamp : Nat
  pkg : Nat
  idx : Nat
  seq : Nat
  deriving DecidableEq, Repr

/-- What comes back for an ordered operation or a thread's wait, by its number. -/
structure Answer where
  id : Nat
  reply : Option (W128 × Nat)
  deriving DecidableEq, Repr

/-- What comes back for a copy command, by its number: the bytes of the lines of other nodes that it reads. -/
structure CopyAnswer where
  id : Nat
  data : List Byte
  deriving DecidableEq, Repr

/-- R199, R372: how an access is lost, by its number: by time, or because its home has refused it. -/
structure Loss where
  id : Nat
  refused : Bool
  deriving DecidableEq, Repr

/-- R368, R408: what comes back for a page from a fold or a host: whether it answers, and the bytes; without bytes,
they are what this package last saw there. -/
structure PageAnswer where
  answered : Bool
  data : Option (List Byte)
  deriving DecidableEq, Repr

/-- R233: the port that a cut request names, and, in another node's answer, whether the port was only slow. -/
structure CutPort where
  port : Nat
  slow : Bool
  deriving DecidableEq, Repr

/-- What an access asks of the home of its address. -/
inductive HomeOp where
  | load (size : Nat)
  | store (size : Nat) (data : Nat)
  | atom (aop : Aop) (aty : Aty) (b : Nat)
  | cas (size : Nat) (cmp : Nat) (new : Nat)
  | pen (row : List Byte)
  deriving DecidableEq, Repr

/-- An ordered packet that another package or a fold sends to this package (R228, R232). -/
structure InPacket where
  port : Nat
  rank : Rank
  tenant : Nat
  addr : Nat
  op : HomeOp
  wm : Nat
  onode : Nat
  oport : Nat
  deriving DecidableEq, Repr

/-- ORDERED_PACKET_ARRIVAL: an operation of this package reaches its receiver, or one arrives. -/
inductive OrdArrival where
  | own (op : Nat)
  | inbound (p : InPacket)
  deriving DecidableEq, Repr

/-- R301, R408: how a launch packet came, for the reply. -/
structure QpRef where
  port : Nat
  qp : Nat
  ud : Bool
  deriving DecidableEq, Repr

/-- WORKGROUP_PLACEMENT: the dispatcher's choice (R312): one quad and, for each workgroup placed in
this step, its core in the quad and its first slot. -/
structure PlaceArgs where
  saved : Bool
  item : Nat
  quad : Nat
  spots : List (Nat × Nat)
  deriving DecidableEq, Repr

/-- PRICE_RECEIVE: a clearing of another package (R348). -/
structure PriceMsg where
  node : Nat
  pool : Nat
  price : Nat
  sold : Nat
  idx : Nat
  deriving DecidableEq, Repr

/-- R397, R399: the structures an error is detected in. -/
inductive EccStruct where
  | dram | cacheClean | cacheDirty | l1 | regFile | scratch | engine | storeQueue
  | icache | tlb | parityTable | commons
  deriving DecidableEq, Repr

/-- ECC_ERROR: where and how (R397). `loc` is a line address, thread number, quad or core as the
structure asks, `sub` a register, a tile or a place among a core's buffered stores; of a translation buffer, 0 for a
core's and else a quad's. -/
structure EccArgs where
  what : EccStruct
  correctable : Bool
  loc : Nat
  sub : Nat
  ctx : Nat
  deriving DecidableEq, Repr

/-- R414: a unit with a thermal sensor. -/
inductive ThermalUnit where
  | quad (n : Nat)
  | slice (n : Nat)
  | port (n : Nat)
  deriving DecidableEq, Repr

/-- R410: fields of a Sync or Follow_Up, times in ns since the epoch. -/
structure PtpTime where
  port : Nat
  /-- The clock that sent it. -/
  ident : Nat
  seq : Nat
  twoStep : Bool
  origin : Nat
  rx : Nat
  deriving DecidableEq, Repr

/-- R410: fields of an Announce that the best-master choice compares, in its order. -/
structure PtpMaster where
  port : Nat
  prio1 : Nat
  clockClass : Nat
  accuracy : Nat
  variance : Nat
  prio2 : Nat
  ident : Nat
  steps : Nat
  deriving DecidableEq, Repr

/-- R406: an unstarted packet of a ring that the Drover moves. -/
structure MovedPacket where
  ctx : Nat
  seq : Nat
  body : List Byte
  from_ : Option QpRef
  deriving DecidableEq, Repr

/-- R405 to R407: what the Drover goes on by: the reply to its copies, and what another package's Drover sends: the
pages that await their final copy, copied bytes with their device address, and the packets of a ring. -/
inductive DroverMsg where
  | answered (ok : Bool)
  | await (pages : List Nat)
  | copy (addr : Nat) (data : List Byte)
  | ring (queue : Nat) (packets : List MovedPacket)
  deriving DecidableEq, Repr

/-- R329: a write of the market table. -/
structure MarketTable where
  units : List (Nat × Nat × Nat × Bool)
  reserves : List (Nat × Nat)
  tenants : List (Nat × Nat × Nat)
  interval : Option Nat
  deriving DecidableEq, Repr

/-- R409: a host window. -/
structure HostWindow where
  port : Nat
  qp : Nat
  rkey : Nat
  base : Nat
  len : Nat
  deriving DecidableEq, Repr

/-- R409: a memory key. -/
structure MemKey where
  range : Nat
  off : Nat
  len : Nat
  writable : Bool
  deriving DecidableEq, Repr

/-- INBOUND_RDMA_READ, INBOUND_RDMA_WRITE: a host access under a memory key. -/
structure RdmaArgs where
  port : Nat
  qp : Nat
  vd : Nat
  key : Nat
  off : Nat
  len : Nat
  data : List Byte
  deriving DecidableEq, Repr

/-- R402: operations of HALT. -/
inductive HaltOp where
  | halt | run | step | save
  deriving DecidableEq, Repr

/-- R412: commands of the external debugger. -/
inductive DebugCmd where
  | halt (op : HaltOp) (wgid : Nat) (ctx : Nat)
  | oread (osel : W32)
  | owrite (osel : W32) (val : W64)
  deriving DecidableEq, Repr

/-- INCOMING_ACCESS: an access of another package or a fold at a fabric port (R372). -/
structure IncomingArgs where
  port : Nat
  tenant : Nat
  addr : Nat
  op : HomeOp
  deriving DecidableEq, Repr

/-- An SPDM request on a virtual device's management queue (R381): its message bytes and sequence. -/
structure SpdmArgs where
  vd : Nat
  seq : Nat
  msg : List Byte
  deriving DecidableEq, Repr

/-! ### The steps -/

/-- One constructor per row of spec/opcode_table.json: the instructions in the order of their opcodes, then
the events. -/
inductive Instr where
  -- row 0x0
  | nop (x : G) | bra (x : BrArgs) | brx (x : BrxArgs) | call (x : BrArgs) | callx (x : BrxArgs)
  | ret (x : RetArgs) | exit (x : G) | yield (x : G) | join (x : KArgs) | leave (x : KArgs)
  | waitm (x : WaitmArgs) | kmovMem (x : KmovD) | kmovArr (x : KmovD) | kmovSet (x : KmovA)
  | kmovClr (x : KArgs) | bkpt (x : CodeArgs) | trap (x : CodeArgs) | waitc (x : WaitcArgs)
  | cont (x : G)
  -- rows 0x1 and 0x2
  | iadd (x : BinS) | isub (x : BinS) | imul (x : BinS) | imulh (x : Bin) | imad (x : TernS)
  | imin (x : Bin) | imax (x : Bin) | iabs (x : UnS) | and (x : Bin) | or (x : Bin) | xor (x : Bin)
  | lop3 (x : Lop3Args) | shl (x : Bin) | shr (x : Shift) | rot (x : Shift) | sel (x : SelArgs)
  | iaddi (x : ImmArgs) | imuli (x : ImmArgs) | lopi (x : LopiArgs) | movi (x : MoviArgs)
  | movhi (x : MovhiArgs) | lea (x : LeaArgs) | bfe (x : Bin) | bfi (x : Tern) | popc (x : Un)
  | clz (x : Un) | brev (x : Un) | mov (x : Un) | isetp (x : IsetpArgs) | pset (x : PsetArgs)
  -- rows 0x3 and 0x4
  | fadd (x : FBin) | fsub (x : FBin) | fmul (x : FBin) | ffma (x : FTern) | fscale (x : FBin)
  | frnd (x : FUn) | fmin (x : FMinMax) | fmax (x : FMinMax) | fsetp (x : FsetpArgs)
  | fclass (x : Un) | hfma2 (x : HTern) | hadd2 (x : HBin) | hmul2 (x : HBin) | dot4 (x : FTern)
  | dot2 (x : FTern) | cvt (x : CvtArgs) | frcp (x : FUn) | frsq (x : FUn) | fsqrt (x : FUn)
  | fexp2 (x : FUn) | flog2 (x : FUn) | fsin (x : FUn) | fcos (x : FUn) | ftanh (x : FUn)
  | qscale (x : QscaleArgs) | pack (x : PackArgs) | unpack (x : UnpackArgs)
  | fxaadd (x : FxaaddArgs) | fxacvt (x : FxacvtArgs)
  -- row 0x5
  | shfl (x : ShflArgs) | vote (x : VoteArgs) | matchLanes (x : MatchArgs) | redux (x : ReduxArgs)
  | active (x : ActiveArgs) | prmt (x : PrmtArgs)
  -- rows 0x6 and 0x7
  | ld (x : LdArgs) | st (x : StArgs) | lds (x : LdsArgs) | sts (x : StsArgs) | ldw (x : LdwArgs)
  | pref (x : PrefArgs) | cctlWb (x : CctlArgs) | cctlWbr (x : CctlRangeArgs) | cctlWball (x : G)
  | cctlInv (x : G) | cctlEvl (x : CctlArgs) | stbq (x : StbqArgs) | drain (x : StatusWait)
  | atom (x : AtomArgs) | red (x : RedArgs) | cas (x : CasArgs) | atoms (x : AtomsArgs)
  | fence (x : FenceArgs) | wait (x : WaitArgs) | ptime (x : DstArgs) | ptimeUntil (x : DA)
  | wmark (x : DA) | wmarkWait (x : WmarkWaitArgs)
  -- row 0x8
  | talloc (x : TileDE) | tfree (x : TileRun) | tstat (x : TileD) | tstatWait (x : TileDE)
  | tset (x : TileSet) | cpy (x : CpyArgs) | cpytLd (x : CpytArgs) | cpytSt (x : CpytArgs)
  | cbld (x : CbldArgs) | stage (x : SrcArgs) | stageMax (x : SrcArgs) | snda (x : SndaArgs)
  | sndf (x : SndfArgs) | penq (x : DA) | penqAdv (x : DAB) | cpyst (x : CpystArgs)
  -- row 0x9
  | mlds (x : Collective) | mswp (x : G) | mma (x : Collective) | macr (x : Collective)
  | macw (x : DA) | macz (x : DA) | mstat (x : DstArgs) | mstatTags (x : DstArgs) | mnbr (x : DAB)
  -- row 0xB
  | bari (x : BariArgs) | bara (x : BarD) | barw (x : BarwArgs) | baraw (x : BarawArgs)
  | barq (x : BarD) | barqSt (x : BarD) | lnch (x : DA) | frpt (x : DstArgs) | frdn (x : G)
  | frq (x : DA) | frqNext (x : DA)
  -- row 0xC
  | bid (x : DABC) | price (x : DAB) | priceSold (x : DAB) | purse (x : PurseArgs)
  | purseRate (x : PurseArgs) | purseCap (x : PurseArgs) | lease (x : DA) | leaseTime (x : DA)
  | meter (x : DA) | recallReq (x : DAB) | recallT (x : DABC)
  -- row 0xD
  | csrr (x : CsrrArgs) | csrw (x : CsrwArgs) | eret (x : G) | eretSkip (x : G)
  | tlbiVa (x : TlbiVaArgs) | tlbiCtx (x : SrcArgs) | tlbiAll (x : G) | halt (x : DAB)
  | haltRun (x : DAB) | haltStep (x : DAB) | haltSave (x : DAB) | qpop (x : QpopArgs)
  | qpushRep (x : QpushArgs) | qpushFwd (x : QpushFwdArgs) | crypTh (x : DAB) | crypEmit (x : DAB)
  | crypMeas (x : DA) | crypNonce (x : DstArgs) | crypSign (x : DstArgs) | crypCert (x : DAB)
  | crypTinit (x : DstArgs) | crypTmark (x : DstArgs) | crypTrest (x : DstArgs)
  | migrOpen (x : DAB) | migrRound (x : DA) | migrStop (x : DA) | migrLand (x : DAB)
  | migrAbort (x : DA) | migrClose (x : DA)
  -- events of the cores and the memory system
  | clauseFetch (core ctx : Nat) (addr : W64) (old : BitVec 17) | issueGroup (members : List Nat)
  | handlerEntry (wg : Nat) | loadReturn (acc : Nat) (reply : Option (W128 × Nat))
  | storeAtHome (core : Nat) | spill (core : Nat) | storeBackpressure (tid : Nat)
  | dramWrite (line : Nat) | wcbSend (core n : Nat) | accessLoss (loss : Loss)
  -- events of the ordered network and the fabric
  | orderLate (op : Nat) | orderedPacketArrival (a : OrdArrival)
  | beacon (node port wm onode oport : Nat) | orderedAck (op : Answer) | stallDetect (recv : Nat)
  | cutRequest (recv node : Nat) (port : CutPort) | linkDown (node port : Nat)
  | tokenRedistribution (port : Nat) | crcRetry (port : Nat)
  -- events of the copy units and the matrix engines
  | tsetWritten (core n : Nat) | copyAccept (core : Nat) | copyComplete (core : Nat) (cmd : CopyAnswer) | sndfAlternate (core flush : Nat)
  | sndfCompletion (core flush : Nat) | requestPost (quad req : Nat) | collectiveTimeout (tid : Nat)
  | grant (quad entry : Nat) | entryComplete (quad entry : Nat)
  -- waits
  | waitTimeout (tid : Nat) | waitWake (tid : Answer) | waitHostPoll (tid : Answer)
  | ptimeReached (tid : Nat) | sheepdog (ctx : Nat)
  -- launches
  | launchPacket (vd : Nat) (qp : QpRef) (bytes : List Byte) | packetRunStart (die queue : Nat)
  | queueBudget (die : Nat) | workgroupPlacement (p : PlaceArgs) | pointFire (launch : Nat)
  -- the Commons
  | marketClose | marketBoundary | idleSlotShare (die : Nat) | quadHandover (quad : Nat) | wayHandover (unit : Nat)
  | priceReceive (p : PriceMsg)
  -- paging and scrubbing
  | pagingFetch (ctx : Nat) (va : W64) (page : PageAnswer) | scrubComplete (range : Nat)
  -- migration
  | droverStepComplete (ctx : Nat) (m : DroverMsg)
  -- errors, thermal limits and resets
  | eccError (x : EccArgs) | thermalTrip (u : ThermalUnit) | thermalResume (u : ThermalUnit)
  | packageReset | contextReset (ctx : Nat) | vdReset (vd : Nat)
  -- privileged writes
  | queueLoad (index : Nat) (qctl : W64) | queueUnload (index : Nat) (qctl : W64)
  | rangeWrite (index word : Nat) (val : W64) | launchBucketWrite (tenant : Nat) (val : W64)
  | retiredPageRemove (index : Nat) (val : W64) | fstatWrite (core ctx : Nat) (val : W32)
  | objectWrite (osel : W32) (val : W64)
  -- the outside
  | sync (m : PtpTime) | inboundRdmaRead (x : RdmaArgs) | inboundRdmaWrite (x : RdmaArgs)
  | inboundAtomic (x : RdmaArgs) | hostQpError (vd window : Nat) | marketTableWrite (t : MarketTable)
  | hostWindowWrite (vd n : Nat) (w : HostWindow) | memoryKeyWrite (vd n : Nat) (k : MemKey)
  | finalReportRead | firmwareImageWrite (image : List Byte)
  | getVersion (x : SpdmArgs) | getCapabilities (x : SpdmArgs) | negotiateAlgorithms (x : SpdmArgs)
  | getDigests (x : SpdmArgs) | getCertificate (x : SpdmArgs) | challenge (x : SpdmArgs)
  | getMeasurements (x : SpdmArgs)
  | incomingAccess (x : IncomingArgs) | linkTrained (node port : Nat)
  | walkComplete (core ctx : Nat) (va : W64) (write : Bool) | debuggerCommand (c : DebugCmd)
  | announce (m : PtpMaster) | delayResp (port seq rx : Nat)
  | followUp (m : PtpTime)
  deriving DecidableEq, Repr

end Sys2Proof
end

