-- ==== Sys2Proof/Decode.lean ====
section
/-!
DEFINITION. From words to instructions and back (02 R44 to R62, with the encoding tables of each
chapter). `decode` is total on any 64-bit word and rejects by name: every rejection is an
ILLEGAL_INSN of step 1 of R50. `encode` is written from the same tables.
-/

namespace Sys2Proof

/-- Why a word is no instruction (R50 step 1): each is raised as ILLEGAL_INSN, which is safe: no
word the spec calls an instruction is rejected. -/
inductive Reject where
  /-- R60: a reserved opcode, or a header tag at an instruction position (R48). -/
  | reservedOpcode
  /-- R53, R62: a reserved SUB, VAR, MOD4 or modifier code. -/
  | reservedCode
  /-- R11, R53: a nonzero must-be-zero or unused field. -/
  | mustBeZero
  /-- R58: a reserved specifier, or one not allowed in its position. -/
  | badSpecifier
  /-- R27, R58: a misaligned register group. -/
  | misaligned
  /-- R100: a type, condition or width that the instruction does not allow. -/
  | badType
  /-- R59: an operand number out of its encoded range. -/
  | badNumber
  deriving DecidableEq, Repr

/-! ### Fields -/

/-- The R format (R53). -/
structure RForm where
  op : BitVec 8
  pg : BitVec 3
  pn : BitVec 1
  d : BitVec 8
  a : BitVec 8
  b : BitVec 8
  c : BitVec 8
  ty : BitVec 5
  rm : BitVec 3
  var : BitVec 4
  sat : BitVec 1
  ftz : BitVec 1
  sub : BitVec 6
  deriving DecidableEq, Repr

/-- The I format (R54). -/
structure IForm where
  op : BitVec 8
  pg : BitVec 3
  pn : BitVec 1
  d : BitVec 8
  a : BitVec 8
  mod4 : BitVec 4
  imm : W32
  deriving DecidableEq, Repr

/-- The M format (R55). -/
structure MForm where
  op : BitVec 8
  pg : BitVec 3
  pn : BitVec 1
  d : BitVec 8
  a : BitVec 8
  b : BitVec 8
  sc : BitVec 3
  sz : BitVec 3
  h : BitVec 2
  ord : BitVec 1
  aq : BitVec 1
  rl : BitVec 1
  sp : BitVec 3
  off : BitVec 14
  deriving DecidableEq, Repr

/-- The B format (R57). -/
structure BForm where
  op : BitVec 8
  pg : BitVec 3
  pn : BitVec 1
  hint : BitVec 2
  a : BitVec 8
  pad : BitVec 10
  tgt : W32
  deriving DecidableEq, Repr

/-- Bits hi … lo of an instruction word, hi = lo + n − 1 (R9). -/
def fld (w : W64) (lo n : Nat) : BitVec n := w.extractLsb' lo n

def RForm.ofWord (w : W64) : RForm :=
  { op := fld w 56 8, pg := fld w 53 3, pn := fld w 52 1, d := fld w 44 8, a := fld w 36 8
    b := fld w 28 8, c := fld w 20 8, ty := fld w 15 5, rm := fld w 12 3, var := fld w 8 4
    sat := fld w 7 1, ftz := fld w 6 1, sub := fld w 0 6 }

def RForm.toWord (r : RForm) : W64 :=
  r.op ++ r.pg ++ r.pn ++ r.d ++ r.a ++ r.b ++ r.c ++ r.ty ++ r.rm ++ r.var ++ r.sat ++ r.ftz ++ r.sub

def IForm.ofWord (w : W64) : IForm :=
  { op := fld w 56 8, pg := fld w 53 3, pn := fld w 52 1, d := fld w 44 8, a := fld w 36 8
    mod4 := fld w 32 4, imm := fld w 0 32 }

def IForm.toWord (r : IForm) : W64 := r.op ++ r.pg ++ r.pn ++ r.d ++ r.a ++ r.mod4 ++ r.imm

def MForm.ofWord (w : W64) : MForm :=
  { op := fld w 56 8, pg := fld w 53 3, pn := fld w 52 1, d := fld w 44 8, a := fld w 36 8
    b := fld w 28 8, sc := fld w 25 3, sz := fld w 22 3, h := fld w 20 2, ord := fld w 19 1
    aq := fld w 18 1, rl := fld w 17 1, sp := fld w 14 3, off := fld w 0 14 }

def MForm.toWord (r : MForm) : W64 :=
  r.op ++ r.pg ++ r.pn ++ r.d ++ r.a ++ r.b ++ r.sc ++ r.sz ++ r.h ++ r.ord ++ r.aq ++ r.rl ++ r.sp ++ r.off

def BForm.ofWord (w : W64) : BForm :=
  { op := fld w 56 8, pg := fld w 53 3, pn := fld w 52 1, hint := fld w 50 2, a := fld w 42 8
    pad := fld w 32 10, tgt := fld w 0 32 }

def BForm.toWord (r : BForm) : W64 := r.op ++ r.pg ++ r.pn ++ r.hint ++ r.a ++ r.pad ++ r.tgt

/-! ### Codes (R58, R59, R62) -/

/-- R58 outside predicate positions. -/
def Reg.ofBits (x : BitVec 8) : Except Reject Reg :=
  if h : x.toNat < 128 then .ok (.g ⟨x.toNat, h⟩)
  else if h : x.toNat - 128 < 64 then .ok (.w ⟨x.toNat - 128, h⟩)
  else if x = 0xC0#8 then .ok .zero
  else .error .badSpecifier

def Reg.toBits : Reg → BitVec 8
  | .g n => BitVec.ofNat 8 n.val
  | .w n => BitVec.ofNat 8 (128 + n.val)
  | .zero => 0xC0#8

/-- R58 in a predicate position: 0xF0 to 0xF7. -/
def Pred.ofBits (x : BitVec 8) : Except Reject Pred :=
  if h : 240 ≤ x.toNat ∧ x.toNat - 240 < 8 then .ok ⟨x.toNat - 240, h.2⟩ else .error .badSpecifier

def Pred.toBits (p : Pred) : BitVec 8 := BitVec.ofNat 8 (240 + p.val)

def Guard.ofBits (pg : BitVec 3) (pn : BitVec 1) : Guard := ⟨⟨pg.toNat, pg.isLt⟩, pn = 1#1⟩

def bit1 (b : Bool) : BitVec 1 := if b then 1#1 else 0#1

def Guard.pg (g : Guard) : BitVec 3 := BitVec.ofNat 3 g.p.val
def Guard.pn (g : Guard) : BitVec 1 := bit1 g.neg

/-- R62: TY codes. -/
def Ty.ofBits (x : BitVec 5) : Except Reject Ty :=
  match x.toNat with
  | 0 => .ok .b32 | 1 => .ok .b64 | 2 => .ok .s8 | 3 => .ok .s16 | 4 => .ok .s32 | 5 => .ok .s64
  | 6 => .ok .z8 | 7 => .ok .z16 | 8 => .ok .z32 | 9 => .ok .z64 | 10 => .ok .f64 | 11 => .ok .f32
  | 12 => .ok .f16 | 13 => .ok .bf16 | 14 => .ok .e4m3 | 15 => .ok .e5m2 | 16 => .ok .n4x
  | 17 => .ok .fxa | 18 => .ok .f16x2 | 19 => .ok .bf16x2 | _ => .error .reservedCode

def Ty.toBits : Ty → BitVec 5
  | .b32 => 0 | .b64 => 1 | .s8 => 2 | .s16 => 3 | .s32 => 4 | .s64 => 5 | .z8 => 6 | .z16 => 7
  | .z32 => 8 | .z64 => 9 | .f64 => 10 | .f32 => 11 | .f16 => 12 | .bf16 => 13 | .e4m3 => 14
  | .e5m2 => 15 | .n4x => 16 | .fxa => 17 | .f16x2 => 18 | .bf16x2 => 19

def Rm.ofBits (x : BitVec 3) : Except Reject Rm :=
  match x.toNat with
  | 0 => .ok .rne | 1 => .ok .rtz | 2 => .ok .rup | 3 => .ok .rdn | 4 => .ok .rna
  | _ => .error .reservedCode

def Rm.toBits : Rm → BitVec 3
  | .rne => 0 | .rtz => 1 | .rup => 2 | .rdn => 3 | .rna => 4

def Scope.ofBits (x : BitVec 3) : Except Reject Scope :=
  match x.toNat with
  | 0 => .ok .wg | 1 => .ok .quad | 2 => .ok .die | 3 => .ok .pkg | 4 => .ok .pod | 5 => .ok .sys
  | _ => .error .reservedCode

def Scope.toBits : Scope → BitVec 3
  | .wg => 0 | .quad => 1 | .die => 2 | .pkg => 3 | .pod => 4 | .sys => 5

def Size.ofBits (x : BitVec 3) : Except Reject Size :=
  match x.toNat with
  | 0 => .ok .z8 | 1 => .ok .s8 | 2 => .ok .z16 | 3 => .ok .s16 | 4 => .ok .b32 | 5 => .ok .b64
  | 6 => .ok .b128 | _ => .error .reservedCode

def Size.toBits : Size → BitVec 3
  | .z8 => 0 | .s8 => 1 | .z16 => 2 | .s16 => 3 | .b32 => 4 | .b64 => 5 | .b128 => 6

def Retain.ofBits (x : BitVec 2) : Retain :=
  match x.toNat with
  | 0 => .str | 1 => .dflt | 2 => .stk | _ => .byp

def Retain.toBits : Retain → BitVec 2
  | .str => 0 | .dflt => 1 | .stk => 2 | .byp => 3

def BrHint.ofBits (x : BitVec 2) : BrHint :=
  match x.toNat with
  | 0 => .none | 1 => .likely | 2 => .unlikely | _ => .uniform

def BrHint.toBits : BrHint → BitVec 2
  | .none => 0 | .likely => 1 | .unlikely => 2 | .uniform => 3

def Space.ofBits (x : BitVec 3) : Except Reject Space :=
  match x.toNat with
  | 0 => .ok .glob | 1 => .ok .scratch | 2 => .ok .team | _ => .error .reservedCode

def Space.toBits : Space → BitVec 3
  | .glob => 0 | .scratch => 1 | .team => 2

def Aop.ofBits (x : BitVec 4) : Except Reject Aop :=
  match x.toNat with
  | 0 => .ok .add | 1 => .ok .min | 2 => .ok .max | 3 => .ok .and | 4 => .ok .or | 5 => .ok .xor
  | 6 => .ok .exch | 7 => .ok .incw | 8 => .ok .decw | _ => .error .reservedCode

def Aop.toBits : Aop → BitVec 4
  | .add => 0 | .min => 1 | .max => 2 | .and => 3 | .or => 4 | .xor => 5 | .exch => 6 | .incw => 7
  | .decw => 8

def Aty.ofBits (x : BitVec 4) : Except Reject Aty :=
  match x.toNat with
  | 0 => .ok .s32 | 1 => .ok .s64 | 2 => .ok .z32 | 3 => .ok .z64 | 4 => .ok .b32 | 5 => .ok .b64
  | 6 => .ok .f32 | 7 => .ok .f16x2 | 8 => .ok .bf16x2 | 9 => .ok .fxa | _ => .error .reservedCode

def Aty.toBits : Aty → BitVec 4
  | .s32 => 0 | .s64 => 1 | .z32 => 2 | .z64 => 3 | .b32 => 4 | .b64 => 5 | .f32 => 6 | .f16x2 => 7
  | .bf16x2 => 8 | .fxa => 9

/-- R59: barrier numbers. -/
def Bar.ofCode (n : Nat) : Except Reject Bar :=
  if h : n < 16 then .ok (.b ⟨n, h⟩)
  else if h : n - 16 < 8 then .ok (.bt ⟨n - 16, h⟩) else .error .badNumber

def Bar.toCode : Bar → Nat
  | .b n => n.val
  | .bt n => 16 + n.val

/-- R59: lane-mask numbers. -/
def KReg.ofBits (x : BitVec 8) : Except Reject KReg :=
  if h : x.toNat < 12 then .ok ⟨x.toNat, h⟩ else .error .badNumber

def ICond.ofCode : Nat → Except Reject ICond
  | 0 => .ok .eq | 1 => .ok .ne | 2 => .ok .lt | 3 => .ok .le | 4 => .ok .gt | 5 => .ok .ge
  | _ => .error .reservedCode

def ICond.toCode : ICond → Nat
  | .eq => 0 | .ne => 1 | .lt => 2 | .le => 3 | .gt => 4 | .ge => 5

def FCond.ofCode : Nat → Except Reject FCond
  | 0 => .ok .eq | 1 => .ok .ne | 2 => .ok .lt | 3 => .ok .le | 4 => .ok .gt | 5 => .ok .ge
  | 6 => .ok .num | 7 => .ok .nan | 8 => .ok .equ | 9 => .ok .neu | 10 => .ok .ltu | 11 => .ok .leu
  | 12 => .ok .gtu | 13 => .ok .geu | _ => .error .reservedCode

def FCond.toCode : FCond → Nat
  | .eq => 0 | .ne => 1 | .lt => 2 | .le => 3 | .gt => 4 | .ge => 5 | .num => 6 | .nan => 7
  | .equ => 8 | .neu => 9 | .ltu => 10 | .leu => 11 | .gtu => 12 | .geu => 13

def WCond.ofCode : Nat → Except Reject WCond
  | 0 => .ok .eq | 1 => .ok .ne | 2 => .ok .lt | 3 => .ok .le | 4 => .ok .gt | 5 => .ok .ge
  | 6 => .ok .anyb | _ => .error .reservedCode

def WCond.toCode : WCond → Nat
  | .eq => 0 | .ne => 1 | .lt => 2 | .le => 3 | .gt => 4 | .ge => 5 | .anyb => 6

/-! ### Operand widths (R99, R197, R212) -/

/-- R99: 32-bit registers an operand of the type takes. -/
def Ty.words : Ty → Nat
  | .b64 | .s64 | .z64 | .f64 => 2
  | .fxa => 4
  | _ => 1

/-- R197: bytes of an access. -/
def Size.bytes : Size → Nat
  | .z8 | .s8 => 1
  | .z16 | .s16 => 2
  | .b32 => 4
  | .b64 => 8
  | .b128 => 16

/-- R197: registers of an access's operand. -/
def Size.words : Size → Nat
  | .b64 => 2
  | .b128 => 4
  | _ => 1

/-- R56: operand size in bytes. -/
def Aty.bytes : Aty → Nat
  | .s64 | .z64 | .b64 => 8
  | .fxa => 16
  | _ => 4

/-- R212: registers of an atomic's operand. -/
def Aty.words (t : Aty) : Nat := t.bytes / 4

/-- Special registers an instruction may name: width in registers and whether CSRW may write it
(R33, R34, R383, R389). -/
def csrInfo (num : BitVec 12) : Option (Nat × Bool) :=
  match num.toNat with
  | 0x00E => some (1, true)
  | 0x010 | 0x011 | 0x012 => some (2, false)
  | 0x013 | 0x014 => some (1, false)
  | 0x100 => some (1, false)
  | 0x101 => some (2, true)
  | 0x102 => some (1, true)
  | 0x103 | 0x104 | 0x105 => some (2, false)
  | 0x110 => some (1, true)
  | 0x111 => some (2, true)
  | 0x112 => some (1, false)
  | n => if n ≤ 0x00F then some (1, false) else none

/-! ### What an instruction's fields must satisfy beyond their codes

`Instr.check` names the first rule of step 1 of R50 that a syntactic term breaks; it is `none` on
exactly the terms that have a word (Sys2Proof/WellFormed.lean). -/

/-- R27, R58: alignment of a register group. -/
def Reg.aligned (r : Reg) (k : Nat) : Bool :=
  match r with
  | .g n => n.val % k = 0
  | .w n => n.val % k = 0
  | .zero => true

def Reg.isG : Reg → Bool
  | .g _ => true
  | _ => false

def Reg.isW : Reg → Bool
  | .w _ => true
  | _ => false

/-- The checks of one instruction in order: each a condition and the name of its failure. -/
def firstFail : List (Bool × Reject) → Option Reject
  | [] => none
  | (ok, r) :: rest => if ok then firstFail rest else some r

/-- Operands with their group sizes must be aligned. -/
def al (l : List (Reg × Nat)) : Bool × Reject := (l.all fun p => p.1.aligned p.2, .misaligned)

/-- A type must be among those the instruction allows. -/
def tyIn (t : Ty) (l : List Ty) : Bool × Reject := (l.contains t, .badType)

def tyAdd : List Ty := [.b32, .s32, .z32, .b64, .s64, .z64]
def tySZ : List Ty := [.s32, .z32, .s64, .z64]
def tyB : List Ty := [.b32, .b64]
def tyF : List Ty := [.f64, .f32, .f16, .bf16]
def tyF3 : List Ty := [.f32, .f16, .bf16]
def tyH : List Ty := [.f16x2, .bf16x2]
/-- R117: the types CVT converts between. -/
def tyCvt : List Ty :=
  [.s8, .s16, .s32, .s64, .z8, .z16, .z32, .z64, .f64, .f32, .f16, .bf16, .e4m3, .e5m2]
/-- R124: the types FXACVT converts to and from. -/
def tyFxa : List Ty := [.f64, .f32, .f16, .bf16, .e4m3, .e5m2, .s32, .z32, .s64, .z64]

def Ty.isFloat : Ty → Bool
  | .f64 | .f32 | .f16 | .bf16 | .e4m3 | .e5m2 => true
  | _ => false

def Ty.isB : Ty → Bool
  | .b32 | .b64 => true
  | _ => false

def FMod.isPlain (m : FMod) : Bool := m.rm = .rne && !m.sat && !m.ftz

/-- R116: DOT4 and DOT2 share their modifier rule: the floating element types take all modifiers,
the integer ones .sat only. -/
def dotChecks (m : FMod) (fl it : List Ty) : List (Bool × Reject) :=
  [((fl ++ it).contains m.ty, .badType), (fl.contains m.ty || (m.rm = .rne && !m.ftz), .mustBeZero)]

/-- R211: the (AOP, ATY) pairs that exist. -/
def aopOk (o : Aop) (t : Aty) : Bool :=
  match o with
  | .add => [.s32, .z32, .s64, .z64, .f32, .f16x2, .bf16x2, .fxa].contains t
  | .min | .max => [.s32, .z32, .s64, .z64, .f32].contains t
  | .and | .or | .xor | .exch => [Aty.b32, .b64].contains t
  | .incw | .decw => [Aty.z32, .z64].contains t

/-- R196: the scope field is zero unless .acq or .rel is present. -/
def Sync.ok (s : Sync) : Bool := s.acq || s.rel || s.scope = .wg

/-- R196: scratch forms take only scopes 0 and 1. -/
def Scope.scratchOk : Scope → Bool
  | .wg | .quad => true
  | _ => false

def scratchScope : Option Scope → Bool
  | none => true
  | some s => s.scratchOk

/-- R250, R252: multicast needs a team scratch destination. -/
def mcOk (mc : BitVec 4) (team : Bool) : Bool := mc = 0 || team

/-- R217: a condition with a type it allows. -/
def WCond.tyOk (c : WCond) (t : Ty) : Bool :=
  match c with
  | .eq | .ne => true
  | .anyb => t.isB
  | _ => !t.isB

/-- The first rule of R50 step 1 that the term breaks. Events are no words: `reservedOpcode`. -/
def Instr.check : Instr → Option Reject
  | .nop _ => none
  | .exit _ | .yield _ | .cont _ | .mswp _ | .frdn _ | .eret _ | .eretSkip _ | .tlbiAll _
  | .cctlWball _ | .cctlInv _ => none
  | .bra _ | .call _ | .ret _ | .join _ | .leave _ | .kmovClr _ | .bkpt _ | .trap _ | .waitc _ => none
  | .brx x | .callx x => firstFail [al [(x.a, 2)]]
  | .waitm x => firstFail [al [(x.d, 1)]]
  | .kmovMem x | .kmovArr x => firstFail [al [(x.d, 1)]]
  | .kmovSet x => firstFail [al [(x.a, 1)]]
  | .iadd x | .isub x | .imul x =>
      firstFail [tyIn x.ty tyAdd, al [(x.d, x.ty.words), (x.a, x.ty.words), (x.b, x.ty.words)],
        (!(x.sat && x.ty.isB), .mustBeZero)]
  | .imad x =>
      firstFail [tyIn x.ty tyAdd,
        al [(x.d, x.ty.words), (x.a, x.ty.words), (x.b, x.ty.words), (x.c, x.ty.words)],
        (!(x.sat && x.ty.isB), .mustBeZero)]
  | .imulh x | .imin x | .imax x =>
      firstFail [tyIn x.ty tySZ, al [(x.d, x.ty.words), (x.a, x.ty.words), (x.b, x.ty.words)]]
  | .iabs x => firstFail [tyIn x.ty [.s32, .s64], al [(x.d, x.ty.words), (x.a, x.ty.words)]]
  | .and x | .or x | .xor x =>
      firstFail [tyIn x.ty tyB, al [(x.d, x.ty.words), (x.a, x.ty.words), (x.b, x.ty.words)]]
  | .shl x => firstFail [tyIn x.ty tyB, al [(x.d, x.ty.words), (x.a, x.ty.words)]]
  | .shr x | .rot x => firstFail [tyIn x.ty tyB, al [(x.d, x.ty.words), (x.a, x.ty.words)]]
  | .sel x => firstFail [tyIn x.ty tyB, al [(x.d, x.ty.words), (x.a, x.ty.words), (x.b, x.ty.words)]]
  | .lop3 x =>
      let k := if x.wide then 2 else 1
      firstFail [al [(x.d, k), (x.a, k), (x.b, k), (x.c, k)]]
  | .iaddi x | .imuli x =>
      let k := if x.wide then 2 else 1
      firstFail [al [(x.d, k), (x.a, k)]]
  | .lopi x =>
      let k := if x.wide then 2 else 1
      firstFail [al [(x.d, k), (x.a, k)]]
  | .movi x => firstFail [al [(x.d, if x.wide then 2 else 1)]]
  | .movhi x => firstFail [al [(x.d, 2)]]
  | .lea x => firstFail [tyIn x.ty [.s32, .z32], al [(x.d, 2), (x.a, 2)]]
  | .bfe x => firstFail [tyIn x.ty tySZ, al [(x.d, x.ty.words), (x.a, x.ty.words)]]
  | .bfi x => firstFail [tyIn x.ty tyB, al [(x.d, x.ty.words), (x.a, x.ty.words), (x.b, x.ty.words)]]
  | .popc x | .clz x => firstFail [tyIn x.ty tyB, al [(x.a, x.ty.words)]]
  | .brev x | .mov x => firstFail [tyIn x.ty tyB, al [(x.d, x.ty.words), (x.a, x.ty.words)]]
  | .isetp x =>
      firstFail [tyIn x.ty tyAdd, (!x.ty.isB || x.cond = .eq || x.cond = .ne, .badType),
        al [(x.a, x.ty.words), (x.b, x.ty.words)]]
  | .pset _ => none
  | .fadd x | .fsub x | .fmul x =>
      firstFail [tyIn x.m.ty tyF, al [(x.d, x.m.ty.words), (x.a, x.m.ty.words), (x.b, x.m.ty.words)]]
  | .fscale x => firstFail [tyIn x.m.ty tyF, al [(x.d, x.m.ty.words), (x.a, x.m.ty.words)]]
  | .ffma x =>
      firstFail [tyIn x.m.ty tyF,
        al [(x.d, x.m.ty.words), (x.a, x.m.ty.words), (x.b, x.m.ty.words), (x.c, x.m.ty.words)]]
  | .frnd x | .frcp x | .fsqrt x =>
      firstFail [tyIn x.m.ty tyF, al [(x.d, x.m.ty.words), (x.a, x.m.ty.words)]]
  | .frsq x | .fexp2 x | .flog2 x | .fsin x | .fcos x | .ftanh x => firstFail [tyIn x.m.ty tyF3]
  | .fmin x | .fmax x =>
      firstFail [tyIn x.ty tyF, al [(x.d, x.ty.words), (x.a, x.ty.words), (x.b, x.ty.words)]]
  | .fsetp x => firstFail [tyIn x.ty tyF, al [(x.a, x.ty.words), (x.b, x.ty.words)]]
  | .fclass x => firstFail [tyIn x.ty (tyF ++ [.e4m3, .e5m2]), al [(x.a, x.ty.words)]]
  | .hadd2 x | .hmul2 x => firstFail [tyIn x.m.ty tyH]
  | .hfma2 x => firstFail [tyIn x.m.ty tyH]
  | .dot4 x => firstFail (dotChecks x.m [.e4m3, .e5m2] [.s8, .z8])
  | .dot2 x => firstFail (dotChecks x.m tyH [.s16, .z16])
  | .cvt x =>
      firstFail [tyIn x.m.ty tyCvt, tyIn x.src tyCvt, al [(x.d, x.m.ty.words), (x.a, x.src.words)],
        (x.m.ty.isFloat || !x.m.sat, .mustBeZero)]
  | .qscale x => firstFail [tyIn x.ty tyF3]
  | .pack x =>
      firstFail [tyIn x.ty tyF3, (x.d.isG && x.a.isG, .badSpecifier), al [(x.d, 2), (x.a, 4)]]
  | .unpack x =>
      firstFail [tyIn x.m.ty (tyF3 ++ [.e4m3]), (x.d.isG && x.a.isG, .badSpecifier),
        al [(x.d, 4), (x.a, 2)]]
  | .fxaadd x => firstFail [al [(x.d, 4), (x.a, 4), (x.b, 4)]]
  | .fxacvt x =>
      match x.dir with
      | .out m =>
          firstFail [tyIn m.ty tyFxa, al [(x.d, m.ty.words), (x.a, 4)],
            (m.ty.isFloat || (!m.sat && !m.ftz), .mustBeZero)]
      | .into ty _ => firstFail [tyIn ty tyFxa, al [(x.d, 4), (x.a, ty.words)]]
      | .anchor => firstFail [al [(x.d, 4), (x.a, 4)]]
  | .shfl x =>
      firstFail [tyIn x.ty tyB, al [(x.d, x.ty.words), (x.a, x.ty.words)],
        (match x.c with | .found _ => true | .fallback r => r.aligned x.ty.words, .misaligned)]
  | .vote _ | .active _ | .prmt _ => none
  | .matchLanes x => firstFail [tyIn x.ty tyB, al [(x.a, x.ty.words)]]
  | .redux x =>
      match x.op with
      | .add =>
          firstFail [tyIn x.m.ty (tySZ ++ [.f32]), al [(x.d, x.m.ty.words), (x.a, x.m.ty.words)],
            (if x.m.ty = .f32 then !x.m.sat else x.m.rm = .rne && !x.m.ftz, .mustBeZero)]
      | .min | .max =>
          firstFail [tyIn x.m.ty (tySZ ++ [.f32]), al [(x.d, x.m.ty.words), (x.a, x.m.ty.words)],
            (x.m.rm = .rne && !x.m.sat && (x.m.ty = .f32 || !x.m.ftz), .mustBeZero)]
      | .and | .or | .xor =>
          firstFail [tyIn x.m.ty tyB, al [(x.d, x.m.ty.words), (x.a, x.m.ty.words)],
            (x.m.isPlain, .mustBeZero)]
  | .ld x => firstFail [al [(x.d, x.size.words), (x.base, 2)]]
  | .st x => firstFail [al [(x.data, x.size.words), (x.base, 2)]]
  | .lds x => firstFail [(scratchScope x.acq, .reservedCode), al [(x.d, x.size.words)]]
  | .sts x => firstFail [(scratchScope x.rel, .reservedCode), al [(x.data, x.size.words)]]
  | .ldw x =>
      firstFail [(!x.scratch || (scratchScope x.acq && x.hint = .dflt), .reservedCode),
        (x.d.isW, .badSpecifier), al [(x.d, x.size.words), (x.base, if x.scratch then 1 else 2)]]
  | .pref x => firstFail [al [(x.base, 2)]]
  | .cctlWb x | .cctlEvl x => firstFail [al [(x.base, 2)]]
  | .cctlWbr x => firstFail [al [(x.base, 2)]]
  | .stbq x => firstFail [al [(x.base, 2), (x.data, x.size.words)]]
  | .drain _ => none
  | .atom x =>
      firstFail [(aopOk x.aop x.aty, .reservedCode), (x.sync.ok, .mustBeZero),
        al [(x.d, x.aty.words), (x.base, 2), (x.b, x.aty.words)]]
  | .red x =>
      firstFail [(aopOk x.aop x.aty, .reservedCode), (x.sync.ok, .mustBeZero),
        al [(x.base, 2), (x.b, x.aty.words)]]
  | .cas x =>
      firstFail [([Aty.b32, .b64].contains x.aty, .reservedCode), (x.sync.ok, .mustBeZero),
        al [(x.d, x.aty.words), (x.base, 2), (x.b, 2 * x.aty.words)]]
  | .atoms x =>
      firstFail [(aopOk x.aop x.aty, .reservedCode), (x.sync.ok && x.sync.scope.scratchOk, .mustBeZero),
        al [(x.d, x.aty.words), (x.b, x.aty.words)]]
  | .fence x => firstFail [(x.sync.acq || x.sync.rel, .reservedCode)]
  | .wait x =>
      firstFail [tyIn x.ty tyAdd, (x.cond.tyOk x.ty, .badType),
        al [(x.base, if x.scratch then 1 else 2), (x.b, x.ty.words)]]
  | .ptime x => firstFail [al [(x.d, 2)]]
  | .ptimeUntil x => firstFail [al [(x.a, 2)]]
  | .wmark x => firstFail [al [(x.d, 2), (x.a, 2)]]
  | .wmarkWait x => firstFail [al [(x.a, 2), (x.b, 2)]]
  | .talloc _ | .tfree _ | .tstat _ | .tstatWait _ | .tset _ | .cbld _ | .stage _ | .stageMax _ => none
  | .cpy x =>
      firstFail [(mcOk x.o.mc (x.dsp = .team), .reservedCode),
        al [(x.src, 2), (x.dst, 2), (x.shape, 4)]]
  | .cpytLd x =>
      firstFail [(mcOk x.mc x.team, .reservedCode),
        (match x.desc with | .mem r => r.aligned 2 | .regs r => r.aligned 4, .misaligned),
        al [(x.coords, 4), (x.box, 2)]]
  | .cpytSt x =>
      firstFail [(x.mc = 0, .reservedCode),
        (match x.desc with | .mem r => r.aligned 2 | .regs r => r.aligned 4, .misaligned),
        al [(x.coords, 4), (x.box, 2)]]
  | .cpyst x => firstFail [al [(x.src, 2), (x.dst, 2), (x.sig, 4)]]
  | .snda x => firstFail [al [(x.row, 2), (x.pen, 2), (x.alt, 2)]]
  | .sndf x => firstFail [al [(x.rcd, 2)]]
  | .penq x => firstFail [al [(x.d, 2), (x.a, 2)]]
  | .penqAdv x => firstFail [al [(x.d, 2), (x.a, 2)]]
  | .mlds _ | .macr _ | .macw _ | .macz _ | .mstat _ | .mstatTags _ | .mnbr _ => none
  | .mma x => firstFail [al [(x.ctl, 2)]]
  | .bari _ | .bara _ | .barw _ | .baraw _ | .barq _ | .barqSt _ => none
  | .lnch x => firstFail [al [(x.a, 2)]]
  | .frpt x => firstFail [al [(x.d, 4)]]
  | .frq _ | .frqNext _ => none
  | .bid _ => none
  | .price x | .priceSold x => firstFail [al [(x.d, 2)]]
  | .purse _ | .purseRate _ | .purseCap _ => none
  | .lease x | .leaseTime x => firstFail [al [(x.d, 2)]]
  | .meter x => firstFail [al [(x.d, 2)]]
  | .recallReq _ | .recallT _ => none
  | .csrr x =>
      match csrInfo x.num with
      | some (k, _) => firstFail [al [(x.d, k)]]
      | none => some .badNumber
  | .csrw x =>
      match csrInfo x.num with
      | some (k, true) => firstFail [al [(x.a, k)]]
      | some (_, false) => some .badNumber
      | none => some .badNumber
  | .tlbiVa x => firstFail [al [(x.a, 2)]]
  | .tlbiCtx _ | .halt _ | .haltRun _ | .haltStep _ | .haltSave _ => none
  | .qpop x => firstFail [al [(x.d, 2)]]
  | .qpushRep x => firstFail [al [(x.a, 2)]]
  | .qpushFwd x => firstFail [al [(x.a, 2)]]
  | .crypTh x | .crypEmit x => firstFail [al [(x.a, 2)]]
  | .crypMeas _ | .crypNonce _ | .crypSign _ | .crypCert _ | .crypTinit _ | .crypTmark _
  | .crypTrest _ => none
  | .migrOpen x | .migrLand x => firstFail [al [(x.b, 2)]]
  | .migrRound _ | .migrStop _ | .migrAbort _ | .migrClose _ => none
  | .clauseFetch .. | .issueGroup .. | .handlerEntry .. | .loadReturn .. | .storeAtHome ..
  | .spill .. | .storeBackpressure .. | .dramWrite .. | .wcbSend .. | .accessLoss ..
  | .orderLate .. | .orderedPacketArrival .. | .beacon .. | .orderedAck .. | .stallDetect ..
  | .cutRequest .. | .linkDown .. | .tokenRedistribution .. | .crcRetry .. | .copyAccept ..
  | .copyComplete .. | .sndfAlternate .. | .sndfCompletion .. | .requestPost ..
  | .collectiveTimeout .. | .grant .. | .entryComplete .. | .waitTimeout .. | .waitWake ..
  | .waitHostPoll .. | .ptimeReached .. | .sheepdog .. | .launchPacket .. | .packetRunStart ..
  | .queueBudget .. | .workgroupPlacement .. | .pointFire .. | .marketClose .. | .marketBoundary ..
  | .quadHandover .. | .wayHandover .. | .priceReceive .. | .pagingFetch .. | .scrubComplete ..
  | .eccError .. | .thermalTrip .. | .thermalResume .. | .packageReset .. | .contextReset ..
  | .vdReset .. | .queueLoad .. | .queueUnload .. | .rangeWrite .. | .launchBucketWrite ..
  | .retiredPageRemove .. | .fstatWrite .. | .objectWrite .. | .sync .. | .inboundRdmaRead ..
  | .inboundRdmaWrite .. | .inboundAtomic .. | .hostQpError .. | .marketTableWrite ..
  | .hostWindowWrite .. | .memoryKeyWrite .. | .finalReportRead .. | .firmwareImageWrite ..
  | .getVersion .. | .getCapabilities .. | .negotiateAlgorithms .. | .getDigests ..
  | .getCertificate .. | .challenge .. | .getMeasurements .. | .droverStepComplete ..
  | .incomingAccess .. | .linkTrained .. | .tsetWritten .. | .walkComplete .. | .debuggerCommand ..
  | .idleSlotShare .. | .announce .. | .delayResp .. | .followUp .. => some .reservedOpcode

/-! ### Reading a word -/

/-- Go on if the condition holds, else reject by the name given. -/
def need (b : Bool) (e : Reject) : Except Reject Unit := if b then .ok () else .error e

/-- A field that must be zero (R53). -/
def mbz {n : Nat} (x : BitVec n) : Except Reject Unit := need (x = 0#n) .mustBeZero

namespace RForm

variable (r : RForm)

def g : Guard := .ofBits r.pg r.pn
def rD : Except Reject Reg := Reg.ofBits r.d
def rA : Except Reject Reg := Reg.ofBits r.a
def rB : Except Reject Reg := Reg.ofBits r.b
def rC : Except Reject Reg := Reg.ofBits r.c
def pD : Except Reject Pred := Pred.ofBits r.d
def pA : Except Reject Pred := Pred.ofBits r.a
def pB : Except Reject Pred := Pred.ofBits r.b
def pC : Except Reject Pred := Pred.ofBits r.c
def noD : Except Reject Unit := mbz r.d
def noA : Except Reject Unit := mbz r.a
def noB : Except Reject Unit := mbz r.b
def noC : Except Reject Unit := mbz r.c
def noVar : Except Reject Unit := need (r.var = 0#4) .reservedCode
def noSub : Except Reject Unit := need (r.sub = 0#6) .reservedCode
/-- TY, RM, SAT and FTZ all unused (R53). -/
def noMod : Except Reject Unit := do mbz r.ty; mbz r.rm; mbz r.sat; mbz r.ftz
/-- RM, SAT and FTZ unused. -/
def noRsf : Except Reject Unit := do mbz r.rm; mbz r.sat; mbz r.ftz
def bar : Except Reject Bar := Bar.ofCode r.c.toNat
def k : Except Reject KReg := KReg.ofBits r.c
def e : TExp := ⟨r.var.toNat, r.var.isLt⟩
def tile : Tile := ⟨r.b.toNat, r.b.isLt⟩
def cnt : Fin 256 := ⟨r.c.toNat, r.c.isLt⟩
def fmod : Except Reject FMod := do
  return ⟨← Ty.ofBits r.ty, ← Rm.ofBits r.rm, r.sat = 1#1, r.ftz = 1#1⟩
/-- Bits [19:12], the TY and RM fields together, as a truth table (R105, R111). -/
def tbl : BitVec 8 := r.ty ++ r.rm

def binS (f : BinS → Instr) : Except Reject Instr := do
  r.noVar; r.noSub; r.noC; mbz r.rm; mbz r.ftz
  return f ⟨r.g, ← r.rD, ← r.rA, ← r.rB, ← Ty.ofBits r.ty, r.sat = 1#1⟩

def bin (f : Bin → Instr) : Except Reject Instr := do
  r.noVar; r.noSub; r.noC; r.noRsf
  return f ⟨r.g, ← r.rD, ← r.rA, ← r.rB, ← Ty.ofBits r.ty⟩

def shiftV (f : Shift → Instr) : Except Reject Instr := do
  need (r.var.toNat < 2) .reservedCode; r.noSub; r.noC; r.noRsf
  return f ⟨r.g, ← r.rD, ← r.rA, ← r.rB, ← Ty.ofBits r.ty, r.var = 1#4⟩

def un (f : Un → Instr) : Except Reject Instr := do
  r.noVar; r.noSub; r.noB; r.noC; r.noRsf
  return f ⟨r.g, ← r.rD, ← r.rA, ← Ty.ofBits r.ty⟩

def fun1 (f : FUn → Instr) : Except Reject Instr := do
  r.noVar; r.noSub; r.noB; r.noC
  return f ⟨r.g, ← r.rD, ← r.rA, ← r.fmod⟩

def fbin (f : FBin → Instr) : Except Reject Instr := do
  r.noVar; r.noSub; r.noC
  return f ⟨r.g, ← r.rD, ← r.rA, ← r.rB, ← r.fmod⟩

def ftern (f : FTern → Instr) : Except Reject Instr := do
  r.noVar; r.noSub
  return f ⟨r.g, ← r.rD, ← r.rA, ← r.rB, ← r.rC, ← r.fmod⟩

def fminmax (f : FMinMax → Instr) : Except Reject Instr := do
  r.noVar; r.noSub; r.noC; mbz r.rm; mbz r.sat
  return f ⟨r.g, ← r.rD, ← r.rA, ← r.rB, ← Ty.ofBits r.ty, r.ftz = 1#1⟩

/-- R115: VAR[1:0] of the packed instructions; VAR[3:2] must be zero. -/
def bsel : Except Reject BSel :=
  match r.var.toNat with
  | 0 => .ok .both | 1 => .ok .blo | 2 => .ok .bhi | 3 => .ok .bswp | _ => .error .reservedCode

def hbin (f : HBin → Instr) : Except Reject Instr := do
  r.noSub; r.noC
  return f ⟨r.g, ← r.rD, ← r.rA, ← r.rB, ← r.bsel, ← r.fmod⟩

/-- R108: SUB and C of ISETP and FSETP. -/
def comb : Except Reject PComb :=
  match r.sub.toNat with
  | 0 => do r.noC; return .plain
  | 1 => do return .and (← r.pC)
  | 2 => do return .or (← r.pC)
  | 3 => do return .xor (← r.pC)
  | 4 => do return .andn (← r.pC)
  | 5 => do return .orn (← r.pC)
  | 6 => do r.noC; return .not
  | _ => .error .reservedCode

def guardOnly (f : G → Instr) : Except Reject Instr := do
  r.noVar; r.noSub; r.noMod; r.noD; r.noA; r.noB; r.noC
  return f ⟨r.g⟩

def karg (f : KArgs → Instr) : Except Reject Instr := do
  r.noVar; r.noSub; r.noMod; r.noD; r.noA; r.noB
  return f ⟨r.g, ← r.k⟩

/-- D and A only, VAR decided by the caller. -/
def da (f : DA → Instr) : Except Reject Instr := do
  r.noSub; r.noMod; r.noB; r.noC
  return f ⟨r.g, ← r.rD, ← r.rA⟩

def dab (f : DAB → Instr) : Except Reject Instr := do
  r.noSub; r.noMod; r.noC
  return f ⟨r.g, ← r.rD, ← r.rA, ← r.rB⟩

def dabc (f : DABC → Instr) : Except Reject Instr := do
  r.noSub; r.noMod
  return f ⟨r.g, ← r.rD, ← r.rA, ← r.rB, ← r.rC⟩

def dst (f : DstArgs → Instr) : Except Reject Instr := do
  r.noSub; r.noMod; r.noA; r.noB; r.noC
  return f ⟨r.g, ← r.rD⟩

def barD (f : BarD → Instr) : Except Reject Instr := do
  r.noSub; r.noMod; r.noA; r.noB
  return f ⟨r.g, ← r.rD, ← r.bar⟩

def coll (f : Collective → Instr) : Except Reject Instr := do
  r.noSub; r.noMod
  return f ⟨r.g, ← r.rD, ← r.rA, ← r.rB, ← r.bar, r.e⟩

/-- R349: VAR[2] selects the .t form of PURSE; VAR[3] must be zero. -/
def purse (f : PurseArgs → Instr) : Except Reject Instr := do
  r.noSub; r.noMod; r.noB; r.noC
  if r.var.getLsbD 2 then return f ⟨r.g, ← r.rD, some (← r.rA)⟩
  else do
    r.noA
    return f ⟨r.g, ← r.rD, none⟩

/-- R245: bits [19:0] of a copy instruction. -/
def copyBits : BitVec 20 := r.ty ++ r.rm ++ r.var ++ r.sat ++ r.ftz ++ r.sub

/-- R245: ARV and BAR; BAR must be zero when ARV = 0, and 0x18 to 0x1F are reserved. -/
def arvBar : Except Reject (Option Bar) := do
  let f := r.copyBits
  if f.getLsbD 7 then return some (← Bar.ofCode (f.extractLsb' 0 5).toNat)
  else do
    mbz (f.extractLsb' 0 5)
    return none

/-- R245: CBX and CBS. -/
def cbOpt : Except Reject (Option (Fin 4)) :=
  let f := r.copyBits
  let c := f.extractLsb' 12 2
  if f.getLsbD 14 then .ok (some ⟨c.toNat, c.isLt⟩)
  else do
    mbz c
    return none

def mc : BitVec 4 := r.copyBits.extractLsb' 15 4

/-- R250: spaces 0 to 2 of two bits. -/
def sp2 (x : BitVec 2) : Except Reject Space :=
  match x.toNat with
  | 0 => .ok .glob | 1 => .ok .scratch | 2 => .ok .team | _ => .error .reservedCode

def descAt : Except Reject DescAt := do
  if r.copyBits.getLsbD 6 then return .regs (← r.rA) else return .mem (← r.rA)

/-- R252: box space 1 scratch or 2 team scratch. -/
def boxTeam : Except Reject Bool :=
  match (r.copyBits.extractLsb' 9 2).toNat with
  | 1 => .ok false | 2 => .ok true | _ => .error .reservedCode

end RForm

namespace RForm

variable (r : RForm)

/-- OP 0x0A: WAITM. -/
def op0A : Except Reject Instr := do
  r.noSub; r.noMod; r.noA; r.noB
  return .waitm ⟨r.g, ← r.rD, ← r.k, r.e⟩

/-- OP 0x0B: kmovMem, kmovArr, kmovSet, kmovClr. -/
def op0B : Except Reject Instr :=
  match r.var.toNat with
  | 0 => do
      r.noSub; r.noMod; r.noA; r.noB
      return .kmovMem ⟨r.g, ← r.rD, ← r.k⟩
  | 1 => do
      r.noSub; r.noMod; r.noA; r.noB
      return .kmovArr ⟨r.g, ← r.rD, ← r.k⟩
  | 2 => do
      r.noSub; r.noMod; r.noD; r.noB
      return .kmovSet ⟨r.g, ← r.rA, ← r.k⟩
  | 3 => do
      r.noSub; r.noMod; r.noD; r.noA; r.noB
      return .kmovClr ⟨r.g, ← r.k⟩
  | _ => .error .reservedCode

/-- OP 0x14: IMAD. -/
def op14 : Except Reject Instr := do
  r.noVar; r.noSub; mbz r.rm; mbz r.ftz
  return .imad ⟨r.g, ← r.rD, ← r.rA, ← r.rB, ← r.rC, ← Ty.ofBits r.ty, r.sat = 1#1⟩

/-- OP 0x17: IABS. -/
def op17 : Except Reject Instr := do
  r.noVar; r.noSub; r.noB; r.noC; mbz r.rm; mbz r.ftz
  return .iabs ⟨r.g, ← r.rD, ← r.rA, ← Ty.ofBits r.ty, r.sat = 1#1⟩

/-- OP 0x1B: LOP3. -/
def op1B : Except Reject Instr := do
  need (r.var.toNat < 2) .reservedCode; r.noSub; mbz r.sat; mbz r.ftz
  return .lop3 ⟨r.g, ← r.rD, ← r.rA, ← r.rB, ← r.rC, r.tbl, r.var = 1#4⟩

/-- OP 0x1F: SEL. -/
def op1F : Except Reject Instr := do
  r.noVar; r.noSub; r.noRsf
  return .sel ⟨r.g, ← r.rD, ← r.rA, ← r.rB, ← r.pC, ← Ty.ofBits r.ty⟩

/-- OP 0x26: LEA. -/
def op26 : Except Reject Instr := do
  r.noSub; r.noC; r.noRsf
  return .lea ⟨r.g, ← r.rD, ← r.rA, ← r.rB, ← Ty.ofBits r.ty, r.e⟩

/-- OP 0x28: BFI. -/
def op28 : Except Reject Instr := do
  r.noVar; r.noSub; r.noRsf
  return .bfi ⟨r.g, ← r.rD, ← r.rA, ← r.rB, ← r.rC, ← Ty.ofBits r.ty⟩

/-- OP 0x2C: ISETP. -/
def op2C : Except Reject Instr := do
  r.noRsf
  return .isetp ⟨r.g, ← r.pD, ← r.rA, ← r.rB, ← Ty.ofBits r.ty, ← ICond.ofCode r.var.toNat, ← r.comb⟩

/-- OP 0x2E: PSET. -/
def op2E : Except Reject Instr := do
  r.noVar; r.noSub; mbz r.sat; mbz r.ftz
  return .pset ⟨r.g, ← r.pD, ← r.pA, ← r.pB, ← r.pC, r.tbl⟩

/-- OP 0x36: FSETP. -/
def op36 : Except Reject Instr := do
  mbz r.rm; mbz r.sat
  return .fsetp ⟨r.g, ← r.pD, ← r.rA, ← r.rB, ← Ty.ofBits r.ty, ← FCond.ofCode r.var.toNat, ← r.comb,
    r.ftz = 1#1⟩

/-- OP 0x38: HFMA2. -/
def op38 : Except Reject Instr := do
  r.noSub
  return .hfma2 ⟨r.g, ← r.rD, ← r.rA, ← r.rB, ← r.rC, ← r.bsel, ← r.fmod⟩

/-- OP 0x40: CVT. -/
def op40 : Except Reject Instr := do
  r.noVar; r.noSub; r.noB; mbz (r.c.extractLsb' 5 3)
  return .cvt ⟨r.g, ← r.rD, ← r.rA, ← Ty.ofBits (r.c.extractLsb' 0 5), ← r.fmod⟩

/-- OP 0x41: PACK. -/
def op41 : Except Reject Instr := do
  r.noVar; r.noSub; r.noC; mbz r.sat; mbz r.ftz
  return .pack ⟨r.g, ← r.rD, ← r.rA, ← r.rB, ← Ty.ofBits r.ty, ← Rm.ofBits r.rm⟩

/-- OP 0x42: unpack. -/
def op42 : Except Reject Instr := do
  r.noSub; r.noC
  if h : r.var.toNat < 3 then
    return .unpack ⟨r.g, ← r.rD, ← r.rA, ← r.rB, ⟨r.var.toNat, h⟩, ← r.fmod⟩
  else .error .reservedCode

/-- OP 0x4B: qscale. -/
def op4B : Except Reject Instr := do
  need (r.var.toNat < 2) .reservedCode; r.noSub; r.noB; r.noC; r.noRsf
  return .qscale ⟨r.g, ← r.rD, ← r.rA, ← Ty.ofBits r.ty, r.var = 1#4⟩

/-- OP 0x4C: fxaadd. -/
def op4C : Except Reject Instr := do
  need (r.var.toNat < 2) .reservedCode; r.noSub; r.noC; r.noRsf
  need (r.ty = Ty.fxa.toBits) .badType
  return .fxaadd ⟨r.g, ← r.rD, ← r.rA, ← r.rB, r.var = 1#4⟩

/-- OP 0x4D: fxacvt. -/
def op4D : Except Reject Instr := do
  r.noSub; r.noC
  match r.var.toNat with
  | 0 => do return .fxacvt ⟨r.g, ← r.rD, ← r.rA, ← r.rB, .out (← r.fmod)⟩
  | 1 => do
      mbz r.rm; mbz r.sat
      return .fxacvt ⟨r.g, ← r.rD, ← r.rA, ← r.rB, .into (← Ty.ofBits r.ty) (r.ftz = 1#1)⟩
  | 2 => do
      r.noRsf; need (r.ty = Ty.fxa.toBits) .badType
      return .fxacvt ⟨r.g, ← r.rD, ← r.rA, ← r.rB, .anchor⟩
  | _ => .error .reservedCode

/-- OP 0x50: SHFL. -/
def op50 : Except Reject Instr := do
  r.noSub; r.noRsf; need (r.var.toNat < 8) .reservedCode
  let mode : ShflMode := match (r.var.extractLsb' 0 2).toNat with
    | 0 => .lane | 1 => .ofs | 2 => .xor | _ => .rot
  let c ← if r.var.getLsbD 2 then (do return ShflC.fallback (← r.rC)) else (do return ShflC.found (← r.pC))
  return .shfl ⟨r.g, ← r.rD, ← r.rA, ← r.rB, c, ← Ty.ofBits r.ty, mode⟩

/-- OP 0x51: VOTE. -/
def op51 : Except Reject Instr := do
  r.noSub; r.noMod; r.noB; r.noC
  let a ← r.pA
  match r.var.toNat with
  | 0 => do return .vote ⟨r.g, a, .all (← r.pD)⟩
  | 1 => do return .vote ⟨r.g, a, .any (← r.pD)⟩
  | 2 => do return .vote ⟨r.g, a, .same (← r.pD)⟩
  | 3 => do return .vote ⟨r.g, a, .mask (← r.rD)⟩
  | 4 => do return .vote ⟨r.g, a, .count (← r.rD)⟩
  | 5 => do return .vote ⟨r.g, a, .first (← r.rD)⟩
  | _ => .error .reservedCode

/-- OP 0x52: matchLanes. -/
def op52 : Except Reject Instr := do
  r.noSub; r.noRsf; r.noB
  match r.var.toNat with
  | 0 => do
      r.noC
      return .matchLanes ⟨r.g, ← r.rD, ← r.rA, ← Ty.ofBits r.ty, .peers⟩
  | 1 => do return .matchLanes ⟨r.g, ← r.rD, ← r.rA, ← Ty.ofBits r.ty, .same (← r.pC)⟩
  | 2 => do
      r.noC
      return .matchLanes ⟨r.g, ← r.rD, ← r.rA, ← Ty.ofBits r.ty, .rank⟩
  | _ => .error .reservedCode

/-- OP 0x53: REDUX. -/
def op53 : Except Reject Instr := do
  need (r.sub.toNat < 2) .reservedCode; r.noB; r.noC
  let op : ReduxOp ← match r.var.toNat with
    | 0 => .ok .add | 1 => .ok .min | 2 => .ok .max | 3 => .ok .and | 4 => .ok .or | 5 => .ok .xor
    | _ => .error .reservedCode
  return .redux ⟨r.g, ← r.rD, ← r.rA, op, r.sub = 1#6, ← r.fmod⟩

/-- OP 0x54: PRMT. -/
def op54 : Except Reject Instr := do
  r.noVar; r.noSub; r.noMod
  return .prmt ⟨r.g, ← r.rD, ← r.rA, ← r.rB, ← r.rC⟩

/-- OP 0x55: active. -/
def op55 : Except Reject Instr := do
  need (r.var.toNat < 2) .reservedCode; r.noSub; r.noMod; r.noA; r.noB; r.noC
  return .active ⟨r.g, ← r.rD, r.var = 1#4⟩

/-- OP 0x68: DRAIN. -/
def op68 : Except Reject Instr := do
  r.noSub; r.noMod; r.noA; r.noB; r.noC
  return .drain ⟨r.g, ← r.rD, r.e⟩

/-- OP 0x75: WAIT. -/
def op75 : Except Reject Instr := do
  r.noRsf
  let acq : Bool := r.sub.getLsbD 4
  mbz (r.c.extractLsb' 3 5)
  let sc ← if acq then (do return some (← Scope.ofBits (r.c.extractLsb' 0 3))) else (do r.noC; return none)
  return .wait ⟨r.g, ← r.rD, ← r.rA, ← r.rB, ← Ty.ofBits r.ty, r.e, r.sub.getLsbD 5, sc, r.sub.getLsbD 3,
    ← WCond.ofCode (r.sub.extractLsb' 0 3).toNat⟩

/-- OP 0x76: PTIME, ptimeUntil. -/
def op76 : Except Reject Instr :=
  match r.var.toNat with
  | 0 => r.dst .ptime
  | 1 => r.da .ptimeUntil
  | _ => .error .reservedCode

/-- OP 0x77: WMARK, wmarkWait. -/
def op77 : Except Reject Instr :=
  match r.sub.toNat with
  | 0 => do
      r.noVar; r.noMod; r.noB; r.noC
      return .wmark ⟨r.g, ← r.rD, ← r.rA⟩
  | 1 => do
      r.noMod; r.noC
      return .wmarkWait ⟨r.g, ← r.rD, ← r.rA, ← r.rB, r.e⟩
  | _ => .error .reservedCode

/-- OP 0x80: talloc. -/
def op80 : Except Reject Instr := do
  r.noSub; r.noMod; r.noA
  return .talloc ⟨r.g, ← r.rD, r.tile, r.cnt, r.e⟩

/-- OP 0x81: TFREE. -/
def op81 : Except Reject Instr := do
  r.noVar; r.noSub; r.noMod; r.noD; r.noA
  return .tfree ⟨r.g, r.tile, r.cnt⟩

/-- OP 0x82: TSTAT, tstatWait. -/
def op82 : Except Reject Instr :=
  match r.sub.toNat with
  | 0 => do
      r.noVar; r.noMod; r.noA
      return .tstat ⟨r.g, ← r.rD, r.tile, r.cnt⟩
  | 1 => do
      r.noMod; r.noA
      return .tstatWait ⟨r.g, ← r.rD, r.tile, r.cnt, r.e⟩
  | _ => .error .reservedCode

/-- OP 0x83: TSET. -/
def op83 : Except Reject Instr := do
  r.noVar; r.noSub; r.noMod; r.noD
  return .tset ⟨r.g, ← r.rA, r.tile, r.cnt⟩

/-- OP 0x84: CPY. -/
def op84 : Except Reject Instr := do
  let f := r.copyBits
  r.noD; mbz (f.extractLsb' 19 1); mbz (f.extractLsb' 5 2)
  let dsp ← RForm.sp2 (f.extractLsb' 10 2)
  let ssp ← RForm.sp2 (f.extractLsb' 8 2)
  return .cpy ⟨r.g, ← r.rA, ← r.rB, ← r.rC, dsp, ssp, ⟨r.mc, ← r.cbOpt, ← r.arvBar⟩⟩

/-- OP 0x85: cpytSt, cpytLd. -/
def op85 : Except Reject Instr := do
  let f := r.copyBits
  r.noD; mbz (f.extractLsb' 19 1); mbz (f.extractLsb' 12 3); mbz (f.extractLsb' 11 1); mbz (f.extractLsb' 5 1)
  let x : CpytArgs := ⟨r.g, ← r.descAt, ← r.rB, ← r.rC, ← r.boxTeam, r.mc, ← r.arvBar⟩
  if f.getLsbD 8 then return .cpytSt x else return .cpytLd x

/-- OP 0x86: CBLD. -/
def op86 : Except Reject Instr := do
  r.noSub; r.noMod; r.noD; r.noA; r.noC
  if h : r.var.toNat < 4 then return .cbld ⟨r.g, ⟨r.var.toNat, h⟩, r.tile⟩ else .error .reservedCode

/-- OP 0x87: STAGE, stageMax. -/
def op87 : Except Reject Instr := do
  r.noSub; r.noMod; r.noD; r.noB; r.noC
  match r.var.toNat with
  | 0 => do return .stage ⟨r.g, ← r.rA⟩
  | 1 => do return .stageMax ⟨r.g, ← r.rA⟩
  | _ => .error .reservedCode

/-- OP 0x88: SNDA. -/
def op88 : Except Reject Instr := do
  need (r.ty.toNat < 2) .reservedCode; r.noRsf
  return .snda ⟨r.g, ← r.rD, ← r.rA, ← r.rB, ← r.rC, r.ty = 1#5, r.e, ⟨r.sub.toNat, r.sub.isLt⟩⟩

/-- OP 0x89: SNDF. -/
def op89 : Except Reject Instr := do
  r.noSub; r.noMod; r.noD; r.noB; r.noC
  return .sndf ⟨r.g, ← r.rA, r.e⟩

/-- OP 0x8A: PENQ, penqAdv. -/
def op8A : Except Reject Instr := do
  r.noVar; r.noMod; r.noC
  match r.sub.toNat with
  | 0 => do
      r.noB
      return .penq ⟨r.g, ← r.rD, ← r.rA⟩
  | 1 => do return .penqAdv ⟨r.g, ← r.rD, ← r.rA, ← r.rB⟩
  | _ => .error .reservedCode

/-- OP 0x8B: CPYST. -/
def op8B : Except Reject Instr := do
  let f := r.copyBits
  r.noD; mbz (f.extractLsb' 15 5); mbz (f.extractLsb' 5 2)
  let dsp ← RForm.sp2 (f.extractLsb' 10 2)
  let ssp ← RForm.sp2 (f.extractLsb' 8 2)
  return .cpyst ⟨r.g, ← r.rA, ← r.rB, ← r.rC, dsp, ssp, ← r.cbOpt, ← r.arvBar⟩

/-- OP 0x94: MACW. -/
def op94 : Except Reject Instr := do
  r.noVar
  r.da .macw

/-- OP 0x95: MACZ. -/
def op95 : Except Reject Instr := do
  r.noVar
  r.da .macz

/-- OP 0x96: MSTAT, mstatTags. -/
def op96 : Except Reject Instr :=
  match r.var.toNat with
  | 0 => r.dst .mstat
  | 1 => r.dst .mstatTags
  | _ => .error .reservedCode

/-- OP 0x97: MNBR. -/
def op97 : Except Reject Instr := do
  r.noVar
  r.dab .mnbr

/-- OP 0xB0: BARI. -/
def opB0 : Except Reject Instr := do
  r.noVar; r.noSub; r.noMod; r.noD; r.noB
  return .bari ⟨r.g, ← r.rA, ← r.bar⟩

/-- OP 0xB1: BARA. -/
def opB1 : Except Reject Instr := do
  r.noVar
  r.barD .bara

/-- OP 0xB2: BARW. -/
def opB2 : Except Reject Instr := do
  r.noSub; r.noMod; r.noB
  return .barw ⟨r.g, ← r.rD, ← r.rA, ← r.bar, r.e⟩

/-- OP 0xB3: BARAW. -/
def opB3 : Except Reject Instr := do
  r.noSub; r.noMod; r.noA; r.noB
  return .baraw ⟨r.g, ← r.rD, ← r.bar, r.e⟩

/-- OP 0xB4: BARQ, barqSt. -/
def opB4 : Except Reject Instr :=
  match r.var.toNat with
  | 0 => r.barD .barq
  | 1 => r.barD .barqSt
  | _ => .error .reservedCode

/-- OP 0xB5: LNCH. -/
def opB5 : Except Reject Instr := do
  r.noVar
  r.da .lnch

/-- OP 0xB6: FRPT. -/
def opB6 : Except Reject Instr := do
  r.noVar
  r.dst .frpt

/-- OP 0xB8: FRQ, frqNext. -/
def opB8 : Except Reject Instr :=
  match r.var.toNat with
  | 0 => r.da .frq
  | 1 => r.da .frqNext
  | _ => .error .reservedCode

/-- OP 0xC0: BID. -/
def opC0 : Except Reject Instr := do
  r.noVar
  r.dabc .bid

/-- OP 0xC1: PRICE, priceSold. -/
def opC1 : Except Reject Instr :=
  match r.var.toNat with
  | 0 => r.dab .price
  | 1 => r.dab .priceSold
  | _ => .error .reservedCode

/-- OP 0xC2: PURSE, purseRate, purseCap. -/
def opC2 : Except Reject Instr :=
  match r.var.toNat with
  | 0 | 4 => r.purse .purse
  | 1 | 5 => r.purse .purseRate
  | 2 | 6 => r.purse .purseCap
  | _ => .error .reservedCode

/-- OP 0xC3: LEASE, leaseTime. -/
def opC3 : Except Reject Instr :=
  match r.var.toNat with
  | 0 => r.da .lease
  | 1 => r.da .leaseTime
  | _ => .error .reservedCode

/-- OP 0xC4: METER. -/
def opC4 : Except Reject Instr := do
  r.noVar
  r.da .meter

/-- OP 0xC5: recall, recallT. -/
def opC5 : Except Reject Instr :=
  match r.var.toNat with
  | 0 => r.dab .recallReq
  | 1 => r.dabc .recallT
  | _ => .error .reservedCode

/-- OP 0xD2: ERET, eretSkip. -/
def opD2 : Except Reject Instr := do
  r.noSub; r.noMod; r.noD; r.noA; r.noB; r.noC
  match r.var.toNat with
  | 0 => return .eret ⟨r.g⟩
  | 1 => return .eretSkip ⟨r.g⟩
  | _ => .error .reservedCode

/-- OP 0xD3: tlbiVa, tlbiCtx, tlbiAll. -/
def opD3 : Except Reject Instr := do
  r.noSub; r.noMod; r.noD; r.noC
  match r.var.toNat with
  | 0 => do return .tlbiVa ⟨r.g, ← r.rA, ← r.rB⟩
  | 1 => do
      r.noA
      return .tlbiCtx ⟨r.g, ← r.rB⟩
  | 2 => do
      r.noA; r.noB
      return .tlbiAll ⟨r.g⟩
  | _ => .error .reservedCode

/-- OP 0xD4: HALT, haltRun, haltStep, haltSave. -/
def opD4 : Except Reject Instr :=
  match r.var.toNat with
  | 0 => r.dab .halt
  | 1 => r.dab .haltRun
  | 2 => r.dab .haltStep
  | 3 => r.dab .haltSave
  | _ => .error .reservedCode

/-- OP 0xD5: QPOP. -/
def opD5 : Except Reject Instr := do
  r.noVar; r.noSub; r.noMod; r.noA; r.noB
  return .qpop ⟨r.g, ← r.rD, ← r.pC⟩

/-- OP 0xD6: qpushRep, qpushFwd. -/
def opD6 : Except Reject Instr := do
  r.noSub; r.noMod; r.noD
  match r.var.toNat with
  | 0 => do
      r.noB
      return .qpushRep ⟨r.g, ← r.rA, ← r.pC⟩
  | 1 => do return .qpushFwd ⟨r.g, ← r.rA, ← r.rB, ← r.pC⟩
  | _ => .error .reservedCode

/-- OP 0xD7: crypMeas, crypTh, crypEmit, crypNonce, crypSign, crypCert, crypTinit, crypTmark, crypTrest. -/
def opD7 : Except Reject Instr :=
  match r.var.toNat with
  | 0 => r.dab .crypTh
  | 1 => r.dab .crypEmit
  | 2 => do
      r.noSub; r.noMod; r.noA; r.noC
      return .crypMeas ⟨r.g, ← r.rD, ← r.rB⟩
  | 3 => r.dst .crypNonce
  | 4 => r.dst .crypSign
  | 5 => r.dab .crypCert
  | 6 => r.dst .crypTinit
  | 7 => r.dst .crypTmark
  | 8 => r.dst .crypTrest
  | _ => .error .reservedCode

/-- OP 0xD8: migrOpen, migrRound, migrStop, migrLand, migrAbort, migrClose. -/
def opD8 : Except Reject Instr :=
  match r.var.toNat with
  | 0 => r.dab .migrOpen
  | 1 => r.da .migrRound
  | 2 => r.da .migrStop
  | 3 => r.dab .migrLand
  | 4 => r.da .migrAbort
  | 5 => r.da .migrClose
  | _ => .error .reservedCode

end RForm

/-- Rows 0x1 to 0x5 and the other R-format opcodes (R60), each by its own encoding table. -/
def parseR (r : RForm) : Except Reject Instr :=
  match r.op.toNat with
  | 0x00 => r.guardOnly .nop
  | 0x06 => r.guardOnly .exit
  | 0x07 => r.guardOnly .yield
  | 0x08 => r.karg .join
  | 0x09 => r.karg .leave
  | 0x0A => r.op0A
  | 0x0B => r.op0B
  | 0x0F => r.guardOnly .cont
  | 0x10 => r.binS .iadd
  | 0x11 => r.binS .isub
  | 0x12 => r.binS .imul
  | 0x13 => r.bin .imulh
  | 0x14 => r.op14
  | 0x15 => r.bin .imin
  | 0x16 => r.bin .imax
  | 0x17 => r.op17
  | 0x18 => r.bin .and
  | 0x19 => r.bin .or
  | 0x1A => r.bin .xor
  | 0x1B => r.op1B
  | 0x1C => r.bin .shl
  | 0x1D => r.shiftV .shr
  | 0x1E => r.shiftV .rot
  | 0x1F => r.op1F
  | 0x26 => r.op26
  | 0x27 => r.bin .bfe
  | 0x28 => r.op28
  | 0x29 => r.un .popc
  | 0x2A => r.un .clz
  | 0x2B => r.un .brev
  | 0x2C => r.op2C
  | 0x2D => r.un .mov
  | 0x2E => r.op2E
  | 0x30 => r.fbin .fadd
  | 0x31 => r.fbin .fsub
  | 0x32 => r.fbin .fmul
  | 0x33 => r.ftern .ffma
  | 0x34 => r.fminmax .fmin
  | 0x35 => r.fminmax .fmax
  | 0x36 => r.op36
  | 0x37 => r.un .fclass
  | 0x38 => r.op38
  | 0x39 => r.hbin .hadd2
  | 0x3A => r.hbin .hmul2
  | 0x3B => r.ftern .dot4
  | 0x3C => r.ftern .dot2
  | 0x3D => r.fun1 .frnd
  | 0x3E => r.fbin .fscale
  | 0x40 => r.op40
  | 0x41 => r.op41
  | 0x42 => r.op42
  | 0x43 => r.fun1 .frcp
  | 0x44 => r.fun1 .frsq
  | 0x45 => r.fun1 .fsqrt
  | 0x46 => r.fun1 .fexp2
  | 0x47 => r.fun1 .flog2
  | 0x48 => r.fun1 .fsin
  | 0x49 => r.fun1 .fcos
  | 0x4A => r.fun1 .ftanh
  | 0x4B => r.op4B
  | 0x4C => r.op4C
  | 0x4D => r.op4D
  | 0x50 => r.op50
  | 0x51 => r.op51
  | 0x52 => r.op52
  | 0x53 => r.op53
  | 0x54 => r.op54
  | 0x55 => r.op55
  | 0x68 => r.op68
  | 0x75 => r.op75
  | 0x76 => r.op76
  | 0x77 => r.op77
  | 0x80 => r.op80
  | 0x81 => r.op81
  | 0x82 => r.op82
  | 0x83 => r.op83
  | 0x84 => r.op84
  | 0x85 => r.op85
  | 0x86 => r.op86
  | 0x87 => r.op87
  | 0x88 => r.op88
  | 0x89 => r.op89
  | 0x8A => r.op8A
  | 0x8B => r.op8B
  | 0x90 => r.coll .mlds
  | 0x91 => r.guardOnly .mswp
  | 0x92 => r.coll .mma
  | 0x93 => r.coll .macr
  | 0x94 => r.op94
  | 0x95 => r.op95
  | 0x96 => r.op96
  | 0x97 => r.op97
  | 0xB0 => r.opB0
  | 0xB1 => r.opB1
  | 0xB2 => r.opB2
  | 0xB3 => r.opB3
  | 0xB4 => r.opB4
  | 0xB5 => r.opB5
  | 0xB6 => r.opB6
  | 0xB7 => r.guardOnly .frdn
  | 0xB8 => r.opB8
  | 0xC0 => r.opC0
  | 0xC1 => r.opC1
  | 0xC2 => r.opC2
  | 0xC3 => r.opC3
  | 0xC4 => r.opC4
  | 0xC5 => r.opC5
  | 0xD2 => r.opD2
  | 0xD3 => r.opD3
  | 0xD4 => r.opD4
  | 0xD5 => r.opD5
  | 0xD6 => r.opD6
  | 0xD7 => r.opD7
  | 0xD8 => r.opD8
  | _ => .error .reservedOpcode

namespace IForm

variable (r : IForm)

def g : Guard := .ofBits r.pg r.pn

/-- R106: MOD4 bits S and U; U without S is reserved and [3] must be zero. -/
def immSat : Except Reject ImmSat :=
  match (r.mod4.extractLsb' 1 3).toNat with
  | 0 => .ok .wrap
  | 1 => .ok .signed
  | 3 => .ok .unsigned
  | 2 => .error .reservedCode
  | _ => .error .mustBeZero

/-- OP 0x0C: bkpt. -/
def op0C : Except Reject Instr := do
  mbz r.d; mbz r.a; mbz r.mod4; mbz (r.imm.extractLsb' 16 16)
  return .bkpt ⟨r.g, r.imm.extractLsb' 0 16⟩

/-- OP 0x0D: trap. -/
def op0D : Except Reject Instr := do
  mbz r.d; mbz r.a; mbz r.mod4; mbz (r.imm.extractLsb' 16 16)
  return .trap ⟨r.g, r.imm.extractLsb' 0 16⟩

/-- OP 0x0E: waitc. -/
def op0E : Except Reject Instr := do
  mbz r.d; mbz r.a; mbz r.mod4; mbz (r.imm.extractLsb' 24 8)
  return .waitc ⟨r.g, r.imm.extractLsb' 18 6, r.imm.extractLsb' 12 6, r.imm.extractLsb' 6 6,
    r.imm.extractLsb' 0 6⟩

/-- OP 0x20: iaddi. -/
def op20 : Except Reject Instr := do
  let s ← r.immSat
  return .iaddi ⟨r.g, ← Reg.ofBits r.d, ← Reg.ofBits r.a, r.mod4.getLsbD 0, s, r.imm⟩

/-- OP 0x21: imuli. -/
def op21 : Except Reject Instr := do
  let s ← r.immSat
  return .imuli ⟨r.g, ← Reg.ofBits r.d, ← Reg.ofBits r.a, r.mod4.getLsbD 0, s, r.imm⟩

/-- OP 0x22: lopi. -/
def op22 : Except Reject Instr := do
  mbz (r.mod4.extractLsb' 3 1)
  let op : LopOp := match (r.mod4.extractLsb' 0 2).toNat with
    | 0 => .and | 1 => .or | 2 => .xor | _ => .andn
  return .lopi ⟨r.g, ← Reg.ofBits r.d, ← Reg.ofBits r.a, op, r.mod4.getLsbD 2, r.imm⟩

/-- OP 0x24: movi. -/
def op24 : Except Reject Instr := do
  mbz r.a; mbz (r.mod4.extractLsb' 1 3)
  return .movi ⟨r.g, ← Reg.ofBits r.d, r.mod4.getLsbD 0, r.imm⟩

/-- OP 0x25: movhi. -/
def op25 : Except Reject Instr := do
  mbz r.a; mbz r.mod4
  return .movhi ⟨r.g, ← Reg.ofBits r.d, r.imm⟩

/-- OP 0xD0: csrr. -/
def opD0 : Except Reject Instr := do
  mbz r.a; mbz r.mod4; mbz (r.imm.extractLsb' 12 20)
  return .csrr ⟨r.g, ← Reg.ofBits r.d, r.imm.extractLsb' 0 12⟩

/-- OP 0xD1: csrw. -/
def opD1 : Except Reject Instr := do
  mbz r.d; mbz r.mod4; mbz (r.imm.extractLsb' 12 20)
  return .csrw ⟨r.g, ← Reg.ofBits r.a, r.imm.extractLsb' 0 12⟩

end IForm

/-- I-format opcodes (R60, R106, R277, R393). -/
def parseI (r : IForm) : Except Reject Instr :=
  match r.op.toNat with
  | 0x0C => r.op0C
  | 0x0D => r.op0D
  | 0x0E => r.op0E
  | 0x20 => r.op20
  | 0x21 => r.op21
  | 0x22 => r.op22
  | 0x24 => r.op24
  | 0x25 => r.op25
  | 0xD0 => r.opD0
  | 0xD1 => r.opD1
  | _ => .error .reservedOpcode

namespace MForm

variable (r : MForm)

def g : Guard := .ofBits r.pg r.pn
def size : Except Reject Size := Size.ofBits r.sz
def hint : Retain := Retain.ofBits r.h
/-- A scope present exactly with its .acq or .rel (R196). -/
def opt (present : BitVec 1) : Except Reject (Option Scope) :=
  if present = 1#1 then (do return some (← Scope.ofBits r.sc)) else (do mbz r.sc; return none)
/-- R196: where a row marks H "—", H must be 1. -/
def noHint : Except Reject Unit := need (r.h = 1#2) .mustBeZero
def noSync : Except Reject Unit := do mbz r.ord; mbz r.aq; mbz r.rl; mbz r.sp
/-- SP 1 scratch or 2 team scratch. -/
def team : Except Reject Bool :=
  match r.sp.toNat with
  | 1 => .ok false | 2 => .ok true | _ => .error .reservedCode
def sync : Except Reject Sync := do return ⟨r.aq = 1#1, r.rl = 1#1, ← Scope.ofBits r.sc⟩
def aop : Except Reject Aop := Aop.ofBits (r.off.extractLsb' 10 4)
def aty : Except Reject Aty := Aty.ofBits (r.off.extractLsb' 6 4)
def ofs : BitVec 6 := r.off.extractLsb' 0 6

/-- OP 0x60: ld. -/
def op60 : Except Reject Instr := do
  mbz r.b; mbz r.ord; mbz r.rl; mbz r.sp
  return .ld ⟨r.g, ← Reg.ofBits r.d, ← Reg.ofBits r.a, ← r.size, r.hint, ← r.opt r.aq, r.off⟩

/-- OP 0x61: st. -/
def op61 : Except Reject Instr := do
  mbz r.d; mbz r.aq; mbz r.sp
  return .st ⟨r.g, ← Reg.ofBits r.a, ← Reg.ofBits r.b, ← r.size, r.hint, ← r.opt r.rl, r.ord = 1#1, r.off⟩

/-- OP 0x62: lds. -/
def op62 : Except Reject Instr := do
  mbz r.b; mbz r.ord; mbz r.rl; r.noHint
  return .lds ⟨r.g, ← Reg.ofBits r.d, ← Reg.ofBits r.a, ← r.team, ← r.size, ← r.opt r.aq, r.off⟩

/-- OP 0x63: sts. -/
def op63 : Except Reject Instr := do
  mbz r.d; mbz r.ord; mbz r.aq; r.noHint
  return .sts ⟨r.g, ← Reg.ofBits r.a, ← Reg.ofBits r.b, ← r.team, ← r.size, ← r.opt r.rl, r.off⟩

/-- OP 0x64: ldw. -/
def op64 : Except Reject Instr := do
  mbz r.b; mbz r.ord; mbz r.rl; need (r.sp.toNat < 2) .reservedCode
  return .ldw ⟨r.g, ← Reg.ofBits r.d, ← Reg.ofBits r.a, r.sp = 1#3, ← r.size, r.hint, ← r.opt r.aq, r.off⟩

/-- OP 0x65: pref. -/
def op65 : Except Reject Instr := do
  mbz r.d; mbz r.b; mbz r.sz; mbz r.sc; r.noSync
  return .pref ⟨r.g, ← Reg.ofBits r.a, r.hint, r.off⟩

/-- OP 0x66: cctlEvl, cctlInv, cctlWb, cctlWball, cctlWbr. -/
def op66 : Except Reject Instr := do
  mbz r.d; mbz r.sz; mbz r.sc; r.noSync; r.noHint; mbz (r.off.extractLsb' 0 11)
  match (r.off.extractLsb' 11 3).toNat with
  | 0 => do
      mbz r.b
      return .cctlWb ⟨r.g, ← Reg.ofBits r.a⟩
  | 1 => do return .cctlWbr ⟨r.g, ← Reg.ofBits r.a, ← Reg.ofBits r.b⟩
  | 2 => do
      mbz r.b; need (r.a = 0xC0#8) .badSpecifier
      return .cctlWball ⟨r.g⟩
  | 3 => do
      mbz r.b; need (r.a = 0xC0#8) .badSpecifier
      return .cctlInv ⟨r.g⟩
  | 4 => do
      mbz r.b
      return .cctlEvl ⟨r.g, ← Reg.ofBits r.a⟩
  | _ => .error .reservedCode

/-- OP 0x67: stbq. -/
def op67 : Except Reject Instr := do
  mbz r.sc; r.noSync
  return .stbq ⟨r.g, ← Reg.ofBits r.d, ← Reg.ofBits r.a, ← Reg.ofBits r.b, ← r.size, r.hint, r.off⟩

/-- OP 0x70: atom. -/
def op70 : Except Reject Instr := do
  mbz r.sz; mbz r.sp
  return .atom ⟨r.g, ← Reg.ofBits r.d, ← Reg.ofBits r.a, ← Reg.ofBits r.b, ← r.aop, ← r.aty, r.hint, ← r.sync,
    r.ord = 1#1, r.ofs⟩

/-- OP 0x71: red. -/
def op71 : Except Reject Instr := do
  mbz r.d; mbz r.sz; mbz r.sp
  return .red ⟨r.g, ← Reg.ofBits r.a, ← Reg.ofBits r.b, ← r.aop, ← r.aty, r.hint, ← r.sync, r.ord = 1#1, r.ofs⟩

/-- OP 0x72: cas. -/
def op72 : Except Reject Instr := do
  mbz r.sz; mbz r.sp; need (r.off.extractLsb' 10 4 = 0#4) .reservedCode
  return .cas ⟨r.g, ← Reg.ofBits r.d, ← Reg.ofBits r.a, ← Reg.ofBits r.b, ← r.aty, r.hint, ← r.sync,
    r.ord = 1#1, r.ofs⟩

/-- OP 0x73: atoms. -/
def op73 : Except Reject Instr := do
  mbz r.sz; mbz r.ord; r.noHint
  return .atoms ⟨r.g, ← Reg.ofBits r.d, ← Reg.ofBits r.a, ← r.team, ← Reg.ofBits r.b, ← r.aop, ← r.aty, ← r.sync, r.ofs⟩

/-- OP 0x74: fence. -/
def op74 : Except Reject Instr := do
  mbz r.d; mbz r.a; mbz r.b; mbz r.sz; mbz r.ord; mbz r.sp; r.noHint; mbz r.off
  return .fence ⟨r.g, ← r.sync⟩

end MForm

/-- M-format opcodes (R55, R56, R196, R209). -/
def parseM (r : MForm) : Except Reject Instr :=
  match r.op.toNat with
  | 0x60 => r.op60
  | 0x61 => r.op61
  | 0x62 => r.op62
  | 0x63 => r.op63
  | 0x64 => r.op64
  | 0x65 => r.op65
  | 0x66 => r.op66
  | 0x67 => r.op67
  | 0x70 => r.op70
  | 0x71 => r.op71
  | 0x72 => r.op72
  | 0x73 => r.op73
  | 0x74 => r.op74
  | _ => .error .reservedOpcode

namespace BForm

variable (r : BForm)

def g : Guard := .ofBits r.pg r.pn
def hintOf : BrHint := BrHint.ofBits r.hint

/-- OP 0x01: bra. -/
def op01 : Except Reject Instr := do
  mbz r.pad; mbz r.a
  return .bra ⟨r.g, r.hintOf, r.tgt⟩

/-- OP 0x02: brx. -/
def op02 : Except Reject Instr := do
  mbz r.pad; mbz r.tgt
  return .brx ⟨r.g, r.hintOf, ← Reg.ofBits r.a⟩

/-- OP 0x03: call. -/
def op03 : Except Reject Instr := do
  mbz r.pad; mbz r.a
  return .call ⟨r.g, r.hintOf, r.tgt⟩

/-- OP 0x04: callx. -/
def op04 : Except Reject Instr := do
  mbz r.pad; mbz r.tgt
  return .callx ⟨r.g, r.hintOf, ← Reg.ofBits r.a⟩

/-- OP 0x05: ret. -/
def op05 : Except Reject Instr := do
  mbz r.pad; mbz r.a; mbz r.tgt
  return .ret ⟨r.g, r.hintOf⟩

end BForm

/-- B-format opcodes (R57). -/
def parseB (r : BForm) : Except Reject Instr :=
  match r.op.toNat with
  | 0x01 => r.op01
  | 0x02 => r.op02
  | 0x03 => r.op03
  | 0x04 => r.op04
  | 0x05 => r.op05
  | _ => .error .reservedOpcode

/-- The format of an opcode (R60). -/
inductive Form where
  | r | i | m | b
  deriving DecidableEq, Repr

/-- R60: the format of every opcode; reserved opcodes fall to the R format and are rejected there. -/
def formOf (op : Nat) : Form :=
  match op with
  | 0x01 | 0x02 | 0x03 | 0x04 | 0x05 => .b
  | 0x0C | 0x0D | 0x0E | 0x20 | 0x21 | 0x22 | 0x24 | 0x25 | 0xD0 | 0xD1 => .i
  | 0x60 | 0x61 | 0x62 | 0x63 | 0x64 | 0x65 | 0x66 | 0x67 | 0x70 | 0x71 | 0x72 | 0x73 | 0x74 => .m
  | _ => .r

/-- The fields of a word read by its opcode's format and encoding table. -/
def parse (w : W64) : Except Reject Instr :=
  match formOf (fld w 56 8).toNat with
  | .b => parseB (.ofWord w)
  | .i => parseI (.ofWord w)
  | .m => parseM (.ofWord w)
  | .r => parseR (.ofWord w)

/-- Step 1 of R50 on one 64-bit instruction word: the instruction it is, or the name of the rule
it breaks. Total on every word. -/
def decode (w : W64) : Except Reject Instr := do
  let i ← parse w
  match i.check with
  | none => return i
  | some r => .error r

/-! ### Writing a word

`encode` is the inverse of `decode`, written from the same encoding tables; an event has no word. -/

/-- An R-format word with every unused field zero (R53). -/
def RForm.blank (op : BitVec 8) (g : Guard) : RForm :=
  { op, pg := g.pg, pn := g.pn, d := 0, a := 0, b := 0, c := 0, ty := 0, rm := 0, var := 0, sat := 0
    ftz := 0, sub := 0 }

def IForm.blank (op : BitVec 8) (g : Guard) : IForm :=
  { op, pg := g.pg, pn := g.pn, d := 0, a := 0, mod4 := 0, imm := 0 }

/-- An M-format word; an unused H field is 1 (R196). -/
def MForm.blank (op : BitVec 8) (g : Guard) : MForm :=
  { op, pg := g.pg, pn := g.pn, d := 0, a := 0, b := 0, sc := 0, sz := 0, h := 1, ord := 0, aq := 0
    rl := 0, sp := 0, off := 0 }

def BForm.blank (op : BitVec 8) (g : Guard) (h : BrHint) : BForm :=
  { op, pg := g.pg, pn := g.pn, hint := h.toBits, a := 0, pad := 0, tgt := 0 }

namespace RForm

def ofBinS (op : BitVec 8) (x : BinS) : RForm :=
  { blank op x.g with d := x.d.toBits, a := x.a.toBits, b := x.b.toBits, ty := x.ty.toBits, sat := bit1 x.sat }

def ofBin (op : BitVec 8) (x : Bin) : RForm :=
  { blank op x.g with d := x.d.toBits, a := x.a.toBits, b := x.b.toBits, ty := x.ty.toBits }

def ofShift (op : BitVec 8) (x : Shift) : RForm :=
  { blank op x.g with
    d := x.d.toBits, a := x.a.toBits, b := x.b.toBits, ty := x.ty.toBits, var := if x.alt then 1 else 0 }

def ofUn (op : BitVec 8) (x : Un) : RForm :=
  { blank op x.g with d := x.d.toBits, a := x.a.toBits, ty := x.ty.toBits }

def withMod (r : RForm) (m : FMod) : RForm :=
  { r with ty := m.ty.toBits, rm := m.rm.toBits, sat := bit1 m.sat, ftz := bit1 m.ftz }

def ofFUn (op : BitVec 8) (x : FUn) : RForm :=
  ({ blank op x.g with d := x.d.toBits, a := x.a.toBits } : RForm).withMod x.m

def ofFBin (op : BitVec 8) (x : FBin) : RForm :=
  ({ blank op x.g with d := x.d.toBits, a := x.a.toBits, b := x.b.toBits } : RForm).withMod x.m

def ofFTern (op : BitVec 8) (x : FTern) : RForm :=
  ({ blank op x.g with d := x.d.toBits, a := x.a.toBits, b := x.b.toBits, c := x.c.toBits } : RForm).withMod x.m

def ofFMinMax (op : BitVec 8) (x : FMinMax) : RForm :=
  { blank op x.g with
    d := x.d.toBits, a := x.a.toBits, b := x.b.toBits, ty := x.ty.toBits, ftz := bit1 x.ftz }

def selBits : BSel → BitVec 4
  | .both => 0 | .blo => 1 | .bhi => 2 | .bswp => 3

def ofHBin (op : BitVec 8) (x : HBin) : RForm :=
  ({ blank op x.g with
     d := x.d.toBits, a := x.a.toBits, b := x.b.toBits, var := selBits x.sel } : RForm).withMod x.m

/-- R108: SUB and C. -/
def withComb (r : RForm) : PComb → RForm
  | .plain => r
  | .and c => { r with sub := 1, c := c.toBits }
  | .or c => { r with sub := 2, c := c.toBits }
  | .xor c => { r with sub := 3, c := c.toBits }
  | .andn c => { r with sub := 4, c := c.toBits }
  | .orn c => { r with sub := 5, c := c.toBits }
  | .not => { r with sub := 6 }

/-- Bits [19:12] as a truth table (R105, R111). -/
def withTbl (r : RForm) (t : BitVec 8) : RForm :=
  { r with ty := t.extractLsb' 3 5, rm := t.extractLsb' 0 3 }

/-- Bits [19:0] as copy options (R245). -/
def withCopy (r : RForm) (f : BitVec 20) : RForm :=
  { r with
    ty := f.extractLsb' 15 5, rm := f.extractLsb' 12 3, var := f.extractLsb' 8 4, sat := f.extractLsb' 7 1
    ftz := f.extractLsb' 6 1, sub := f.extractLsb' 0 6 }

def ofG (op : BitVec 8) (x : G) : RForm := blank op x.g

def ofK (op : BitVec 8) (x : KArgs) : RForm := { blank op x.g with c := BitVec.ofNat 8 x.k.val }

def ofDA (op : BitVec 8) (v : BitVec 4) (x : DA) : RForm :=
  { blank op x.g with d := x.d.toBits, a := x.a.toBits, var := v }

def ofDAB (op : BitVec 8) (v : BitVec 4) (x : DAB) : RForm :=
  { blank op x.g with d := x.d.toBits, a := x.a.toBits, b := x.b.toBits, var := v }

def ofDABC (op : BitVec 8) (v : BitVec 4) (x : DABC) : RForm :=
  { blank op x.g with d := x.d.toBits, a := x.a.toBits, b := x.b.toBits, c := x.c.toBits, var := v }

def ofDst (op : BitVec 8) (v : BitVec 4) (x : DstArgs) : RForm :=
  { blank op x.g with d := x.d.toBits, var := v }

def barBits (b : Bar) : BitVec 8 := BitVec.ofNat 8 b.toCode

def eBits (e : TExp) : BitVec 4 := BitVec.ofNat 4 e.val

def ofBarD (op : BitVec 8) (v : BitVec 4) (x : BarD) : RForm :=
  { blank op x.g with d := x.d.toBits, c := barBits x.bar, var := v }

def ofColl (op : BitVec 8) (x : Collective) : RForm :=
  { blank op x.g with
    d := x.d.toBits, a := x.fw.toBits, b := x.ctl.toBits, c := barBits x.bar, var := eBits x.e }

def ofPurse (v : BitVec 4) (x : PurseArgs) : RForm :=
  match x.tenant with
  | none => { blank 0xC2 x.g with d := x.d.toBits, var := v }
  | some a => { blank 0xC2 x.g with d := x.d.toBits, a := a.toBits, var := v + 4 }

def ofTiles (op : BitVec 8) (g : Guard) (t : Tile) (cnt : Fin 256) : RForm :=
  { blank op g with b := BitVec.ofNat 8 t.val, c := BitVec.ofNat 8 cnt.val }

def sp2Bits : Space → BitVec 2
  | .glob => 0 | .scratch => 1 | .team => 2

/-- R245: CBX and CBS, bits [14:12]. -/
def cbBits : Option (Fin 4) → BitVec 3
  | none => 0
  | some s => 1#1 ++ BitVec.ofNat 2 s.val

/-- R245: ARV in bit 7 and BAR in bits [4:0], with bit 6 between them. -/
def arvBits (bar : Option Bar) (bit6 : Bool) : BitVec 8 :=
  match bar with
  | none => 0#1 ++ bit1 bit6 ++ 0#6
  | some b => 1#1 ++ bit1 bit6 ++ 0#1 ++ BitVec.ofNat 5 b.toCode

def ofCpyt (st : Bool) (x : CpytArgs) : RForm :=
  let (a, dr) : BitVec 8 × Bool := match x.desc with
    | .mem r => (r.toBits, false)
    | .regs r => (r.toBits, true)
  ({ blank 0x85 x.g with a := a, b := x.coords.toBits, c := x.box.toBits } : RForm).withCopy
    (0#1 ++ x.mc ++ 0#3 ++ 0#1 ++ (if x.team then 2#2 else 1#2) ++ bit1 st ++ arvBits x.bar dr)

end RForm

namespace IForm

def ofImm (op : BitVec 8) (x : ImmArgs) : IForm :=
  { blank op x.g with
    d := x.d.toBits, a := x.a.toBits, imm := x.imm
    mod4 := (match x.sat with | .wrap => 0#3 | .signed => 1#3 | .unsigned => 3#3) ++ bit1 x.wide }

def ofCode (op : BitVec 8) (x : CodeArgs) : IForm := { blank op x.g with imm := 0#16 ++ x.code }

end IForm

namespace MForm

def scBits : Option Scope → BitVec 3
  | none => 0
  | some s => s.toBits

def teamBits (team : Bool) : BitVec 3 := if team then 2 else 1

def withSync (r : MForm) (s : Sync) : MForm :=
  { r with sc := s.scope.toBits, aq := bit1 s.acq, rl := bit1 s.rel }

def atomOff (o : BitVec 4) (t : Aty) (ofs : BitVec 6) : BitVec 14 := o ++ t.toBits ++ ofs

end MForm

namespace BForm

def ofBr (op : BitVec 8) (x : BrArgs) : BForm := { blank op x.g x.hint with tgt := x.tgt }

def ofBrx (op : BitVec 8) (x : BrxArgs) : BForm := { blank op x.g x.hint with a := x.a.toBits }

end BForm

/-- The fields of a term's word in the format of its opcode. -/
inductive Fields where
  | r (f : RForm)
  | i (f : IForm)
  | m (f : MForm)
  | b (f : BForm)
  | event
  deriving DecidableEq, Repr

open RForm in
/-- R60 with the encoding table of each chapter: every instruction's fields. -/
def Instr.fields : Instr → Fields
  | .nop x => .r (ofG 0x00 x)
  | .bra x => .b (.ofBr 0x01 x)
  | .brx x => .b (.ofBrx 0x02 x)
  | .call x => .b (.ofBr 0x03 x)
  | .callx x => .b (.ofBrx 0x04 x)
  | .ret x => .b (.blank 0x05 x.g x.hint)
  | .exit x => .r (ofG 0x06 x)
  | .yield x => .r (ofG 0x07 x)
  | .join x => .r (ofK 0x08 x)
  | .leave x => .r (ofK 0x09 x)
  | .waitm x => .r { blank 0x0A x.g with d := x.d.toBits, c := BitVec.ofNat 8 x.k.val, var := eBits x.e }
  | .kmovMem x => .r { blank 0x0B x.g with d := x.d.toBits, c := BitVec.ofNat 8 x.k.val }
  | .kmovArr x => .r { blank 0x0B x.g with d := x.d.toBits, c := BitVec.ofNat 8 x.k.val, var := 1 }
  | .kmovSet x => .r { blank 0x0B x.g with a := x.a.toBits, c := BitVec.ofNat 8 x.k.val, var := 2 }
  | .kmovClr x => .r { blank 0x0B x.g with c := BitVec.ofNat 8 x.k.val, var := 3 }
  | .bkpt x => .i (.ofCode 0x0C x)
  | .trap x => .i (.ofCode 0x0D x)
  | .waitc x => .i { IForm.blank 0x0E x.g with imm := 0#8 ++ x.tl ++ x.cp ++ x.st ++ x.ld }
  | .cont x => .r (ofG 0x0F x)
  | .iadd x => .r (ofBinS 0x10 x)
  | .isub x => .r (ofBinS 0x11 x)
  | .imul x => .r (ofBinS 0x12 x)
  | .imulh x => .r (ofBin 0x13 x)
  | .imad x =>
      .r { blank 0x14 x.g with
           d := x.d.toBits, a := x.a.toBits, b := x.b.toBits, c := x.c.toBits, ty := x.ty.toBits
           sat := bit1 x.sat }
  | .imin x => .r (ofBin 0x15 x)
  | .imax x => .r (ofBin 0x16 x)
  | .iabs x => .r { blank 0x17 x.g with d := x.d.toBits, a := x.a.toBits, ty := x.ty.toBits, sat := bit1 x.sat }
  | .and x => .r (ofBin 0x18 x)
  | .or x => .r (ofBin 0x19 x)
  | .xor x => .r (ofBin 0x1A x)
  | .lop3 x =>
      .r (({ blank 0x1B x.g with
             d := x.d.toBits, a := x.a.toBits, b := x.b.toBits, c := x.c.toBits
             var := if x.wide then 1 else 0 } : RForm).withTbl x.tbl)
  | .shl x => .r (ofBin 0x1C x)
  | .shr x => .r (ofShift 0x1D x)
  | .rot x => .r (ofShift 0x1E x)
  | .sel x =>
      .r { blank 0x1F x.g with
           d := x.d.toBits, a := x.a.toBits, b := x.b.toBits, c := x.c.toBits, ty := x.ty.toBits }
  | .iaddi x => .i (.ofImm 0x20 x)
  | .imuli x => .i (.ofImm 0x21 x)
  | .lopi x =>
      .i { IForm.blank 0x22 x.g with
           d := x.d.toBits, a := x.a.toBits, imm := x.imm
           mod4 := 0#1 ++ bit1 x.wide ++
             (match x.op with | .and => 0#2 | .or => 1#2 | .xor => 2#2 | .andn => 3#2) }
  | .movi x => .i { IForm.blank 0x24 x.g with d := x.d.toBits, imm := x.imm, mod4 := 0#3 ++ bit1 x.wide }
  | .movhi x => .i { IForm.blank 0x25 x.g with d := x.d.toBits, imm := x.imm }
  | .lea x =>
      .r { blank 0x26 x.g with
           d := x.d.toBits, a := x.a.toBits, b := x.b.toBits, ty := x.ty.toBits, var := BitVec.ofNat 4 x.sh.val }
  | .bfe x => .r (ofBin 0x27 x)
  | .bfi x =>
      .r { blank 0x28 x.g with
           d := x.d.toBits, a := x.a.toBits, b := x.b.toBits, c := x.c.toBits, ty := x.ty.toBits }
  | .popc x => .r (ofUn 0x29 x)
  | .clz x => .r (ofUn 0x2A x)
  | .brev x => .r (ofUn 0x2B x)
  | .isetp x =>
      .r (({ blank 0x2C x.g with
             d := x.d.toBits, a := x.a.toBits, b := x.b.toBits, ty := x.ty.toBits
             var := BitVec.ofNat 4 x.cond.toCode } : RForm).withComb x.comb)
  | .mov x => .r (ofUn 0x2D x)
  | .pset x =>
      .r (({ blank 0x2E x.g with d := x.d.toBits, a := x.a.toBits, b := x.b.toBits, c := x.c.toBits } : RForm).withTbl
           x.tbl)
  | .fadd x => .r (ofFBin 0x30 x)
  | .fsub x => .r (ofFBin 0x31 x)
  | .fmul x => .r (ofFBin 0x32 x)
  | .ffma x => .r (ofFTern 0x33 x)
  | .fmin x => .r (ofFMinMax 0x34 x)
  | .fmax x => .r (ofFMinMax 0x35 x)
  | .fsetp x =>
      .r (({ blank 0x36 x.g with
             d := x.d.toBits, a := x.a.toBits, b := x.b.toBits, ty := x.ty.toBits
             var := BitVec.ofNat 4 x.cond.toCode, ftz := bit1 x.ftz } : RForm).withComb x.comb)
  | .fclass x => .r (ofUn 0x37 x)
  | .hfma2 x =>
      .r (({ blank 0x38 x.g with
             d := x.d.toBits, a := x.a.toBits, b := x.b.toBits, c := x.c.toBits
             var := selBits x.sel } : RForm).withMod x.m)
  | .hadd2 x => .r (ofHBin 0x39 x)
  | .hmul2 x => .r (ofHBin 0x3A x)
  | .dot4 x => .r (ofFTern 0x3B x)
  | .dot2 x => .r (ofFTern 0x3C x)
  | .frnd x => .r (ofFUn 0x3D x)
  | .fscale x => .r (ofFBin 0x3E x)
  | .cvt x =>
      .r (({ blank 0x40 x.g with d := x.d.toBits, a := x.a.toBits, c := 0#3 ++ x.src.toBits } : RForm).withMod x.m)
  | .pack x =>
      .r { blank 0x41 x.g with
           d := x.d.toBits, a := x.a.toBits, b := x.b.toBits, ty := x.ty.toBits, rm := x.rm.toBits }
  | .unpack x =>
      .r (({ blank 0x42 x.g with
             d := x.d.toBits, a := x.a.toBits, b := x.b.toBits, var := BitVec.ofNat 4 x.part.val } : RForm).withMod
           x.m)
  | .frcp x => .r (ofFUn 0x43 x)
  | .frsq x => .r (ofFUn 0x44 x)
  | .fsqrt x => .r (ofFUn 0x45 x)
  | .fexp2 x => .r (ofFUn 0x46 x)
  | .flog2 x => .r (ofFUn 0x47 x)
  | .fsin x => .r (ofFUn 0x48 x)
  | .fcos x => .r (ofFUn 0x49 x)
  | .ftanh x => .r (ofFUn 0x4A x)
  | .qscale x =>
      .r { blank 0x4B x.g with
           d := x.d.toBits, a := x.a.toBits, ty := x.ty.toBits, var := if x.big then 1 else 0 }
  | .fxaadd x =>
      .r { blank 0x4C x.g with
           d := x.d.toBits, a := x.a.toBits, b := x.b.toBits, ty := Ty.fxa.toBits
           var := if x.sub then 1 else 0 }
  | .fxacvt x =>
      let r : RForm := { blank 0x4D x.g with d := x.d.toBits, a := x.a.toBits, b := x.b.toBits }
      match x.dir with
      | .out m => .r (r.withMod m)
      | .into ty ftz => .r { r with ty := ty.toBits, var := 1, ftz := bit1 ftz }
      | .anchor => .r { r with ty := Ty.fxa.toBits, var := 2 }
  | .shfl x =>
      let (cb, fb) : BitVec 8 × BitVec 2 := match x.c with
        | .found p => (p.toBits, 0)
        | .fallback r => (r.toBits, 1)
      .r { blank 0x50 x.g with
           d := x.d.toBits, a := x.a.toBits, b := x.b.toBits, c := cb, ty := x.ty.toBits
           var := fb ++ (match x.mode with | .lane => 0#2 | .ofs => 1#2 | .xor => 2#2 | .rot => 3#2) }
  | .vote x =>
      let (db, v) : BitVec 8 × BitVec 4 := match x.form with
        | .all d => (d.toBits, 0)
        | .any d => (d.toBits, 1)
        | .same d => (d.toBits, 2)
        | .mask d => (d.toBits, 3)
        | .count d => (d.toBits, 4)
        | .first d => (d.toBits, 5)
      .r { blank 0x51 x.g with d := db, a := x.a.toBits, var := v }
  | .matchLanes x =>
      let (cb, v) : BitVec 8 × BitVec 4 := match x.form with
        | .peers => (0, 0)
        | .same c => (c.toBits, 1)
        | .rank => (0, 2)
      .r { blank 0x52 x.g with d := x.d.toBits, a := x.a.toBits, c := cb, ty := x.ty.toBits, var := v }
  | .redux x =>
      .r (({ blank 0x53 x.g with
             d := x.d.toBits, a := x.a.toBits, sub := if x.scan then 1 else 0
             var := (match x.op with
               | .add => 0 | .min => 1 | .max => 2 | .and => 3 | .or => 4 | .xor => 5) } : RForm).withMod x.m)
  | .active x => .r { blank 0x55 x.g with d := x.d.toBits, var := if x.part then 1 else 0 }
  | .prmt x => .r { blank 0x54 x.g with d := x.d.toBits, a := x.a.toBits, b := x.b.toBits, c := x.c.toBits }
  | .ld x =>
      .m { MForm.blank 0x60 x.g with
           d := x.d.toBits, a := x.base.toBits, sz := x.size.toBits, h := x.hint.toBits
           sc := MForm.scBits x.acq, aq := bit1 x.acq.isSome, off := x.off }
  | .st x =>
      .m { MForm.blank 0x61 x.g with
           a := x.base.toBits, b := x.data.toBits, sz := x.size.toBits, h := x.hint.toBits
           sc := MForm.scBits x.rel, rl := bit1 x.rel.isSome, ord := bit1 x.ord, off := x.off }
  | .lds x =>
      .m { MForm.blank 0x62 x.g with
           d := x.d.toBits, a := x.base.toBits, sz := x.size.toBits, sp := MForm.teamBits x.team
           sc := MForm.scBits x.acq, aq := bit1 x.acq.isSome, off := x.off }
  | .sts x =>
      .m { MForm.blank 0x63 x.g with
           a := x.base.toBits, b := x.data.toBits, sz := x.size.toBits, sp := MForm.teamBits x.team
           sc := MForm.scBits x.rel, rl := bit1 x.rel.isSome, off := x.off }
  | .ldw x =>
      .m { MForm.blank 0x64 x.g with
           d := x.d.toBits, a := x.base.toBits, sz := x.size.toBits, h := x.hint.toBits
           sp := if x.scratch then 1 else 0, sc := MForm.scBits x.acq, aq := bit1 x.acq.isSome, off := x.off }
  | .pref x => .m { MForm.blank 0x65 x.g with a := x.base.toBits, h := x.hint.toBits, off := x.off }
  | .cctlWb x => .m { MForm.blank 0x66 x.g with a := x.base.toBits }
  | .cctlWbr x => .m { MForm.blank 0x66 x.g with a := x.base.toBits, b := x.len.toBits, off := 0x0800 }
  | .cctlWball x => .m { MForm.blank 0x66 x.g with a := Reg.zero.toBits, off := 0x1000 }
  | .cctlInv x => .m { MForm.blank 0x66 x.g with a := Reg.zero.toBits, off := 0x1800 }
  | .cctlEvl x => .m { MForm.blank 0x66 x.g with a := x.base.toBits, off := 0x2000 }
  | .stbq x =>
      .m { MForm.blank 0x67 x.g with
           d := x.d.toBits, a := x.base.toBits, b := x.data.toBits, sz := x.size.toBits, h := x.hint.toBits
           off := x.off }
  | .drain x => .r { blank 0x68 x.g with d := x.d.toBits, var := eBits x.e }
  | .atom x =>
      .m (({ MForm.blank 0x70 x.g with
             d := x.d.toBits, a := x.base.toBits, b := x.b.toBits, h := x.hint.toBits, ord := bit1 x.ord
             off := MForm.atomOff x.aop.toBits x.aty x.ofs } : MForm).withSync x.sync)
  | .red x =>
      .m (({ MForm.blank 0x71 x.g with
             a := x.base.toBits, b := x.b.toBits, h := x.hint.toBits, ord := bit1 x.ord
             off := MForm.atomOff x.aop.toBits x.aty x.ofs } : MForm).withSync x.sync)
  | .cas x =>
      .m (({ MForm.blank 0x72 x.g with
             d := x.d.toBits, a := x.base.toBits, b := x.b.toBits, h := x.hint.toBits, ord := bit1 x.ord
             off := MForm.atomOff 0 x.aty x.ofs } : MForm).withSync x.sync)
  | .atoms x =>
      .m (({ MForm.blank 0x73 x.g with
             d := x.d.toBits, a := x.base.toBits, b := x.b.toBits, sp := MForm.teamBits x.team
             off := MForm.atomOff x.aop.toBits x.aty x.ofs } : MForm).withSync x.sync)
  | .fence x => .m ((MForm.blank 0x74 x.g).withSync x.sync)
  | .wait x =>
      .r { blank 0x75 x.g with
           d := x.d.toBits, a := x.base.toBits, b := x.b.toBits, ty := x.ty.toBits, var := eBits x.e
           c := 0#5 ++ MForm.scBits x.acq
           sub := bit1 x.scratch ++ bit1 x.acq.isSome ++ bit1 x.ext ++ BitVec.ofNat 3 x.cond.toCode }
  | .ptime x => .r (ofDst 0x76 0 x)
  | .ptimeUntil x => .r (ofDA 0x76 1 x)
  | .wmark x => .r (ofDA 0x77 0 x)
  | .wmarkWait x =>
      .r { blank 0x77 x.g with
           d := x.d.toBits, a := x.a.toBits, b := x.b.toBits, var := eBits x.e, sub := 1 }
  | .talloc x => .r { ofTiles 0x80 x.g x.t x.cnt with d := x.d.toBits, var := eBits x.e }
  | .tfree x => .r (ofTiles 0x81 x.g x.t x.cnt)
  | .tstat x => .r { ofTiles 0x82 x.g x.t x.cnt with d := x.d.toBits }
  | .tstatWait x => .r { ofTiles 0x82 x.g x.t x.cnt with d := x.d.toBits, var := eBits x.e, sub := 1 }
  | .tset x => .r { ofTiles 0x83 x.g x.t x.cnt with a := x.a.toBits }
  | .cpy x =>
      .r (({ blank 0x84 x.g with a := x.src.toBits, b := x.dst.toBits, c := x.shape.toBits } : RForm).withCopy
        (0#1 ++ x.o.mc ++ cbBits x.o.cb ++ sp2Bits x.dsp ++ sp2Bits x.ssp ++ arvBits x.o.bar false))
  | .cpytLd x => .r (ofCpyt false x)
  | .cpytSt x => .r (ofCpyt true x)
  | .cbld x => .r { blank 0x86 x.g with b := BitVec.ofNat 8 x.t.val, var := BitVec.ofNat 4 x.slot.val }
  | .stage x => .r { blank 0x87 x.g with a := x.a.toBits }
  | .stageMax x => .r { blank 0x87 x.g with a := x.a.toBits, var := 1 }
  | .snda x =>
      .r { blank 0x88 x.g with
           d := x.d.toBits, a := x.row.toBits, b := x.pen.toBits, c := x.alt.toBits
           ty := if x.scratch then 1 else 0, var := BitVec.ofNat 4 x.list.val
           sub := BitVec.ofNat 6 x.units.val }
  | .sndf x => .r { blank 0x89 x.g with a := x.rcd.toBits, var := BitVec.ofNat 4 x.list.val }
  | .penq x => .r (ofDA 0x8A 0 x)
  | .penqAdv x => .r { ofDAB 0x8A 0 x with sub := 1 }
  | .cpyst x =>
      .r (({ blank 0x8B x.g with a := x.src.toBits, b := x.dst.toBits, c := x.sig.toBits } : RForm).withCopy
        (0#5 ++ cbBits x.cb ++ sp2Bits x.dsp ++ sp2Bits x.ssp ++ arvBits x.bar false))
  | .mlds x => .r (ofColl 0x90 x)
  | .mswp x => .r (ofG 0x91 x)
  | .mma x => .r (ofColl 0x92 x)
  | .macr x => .r (ofColl 0x93 x)
  | .macw x => .r (ofDA 0x94 0 x)
  | .macz x => .r (ofDA 0x95 0 x)
  | .mstat x => .r (ofDst 0x96 0 x)
  | .mstatTags x => .r (ofDst 0x96 1 x)
  | .mnbr x => .r (ofDAB 0x97 0 x)
  | .bari x => .r { blank 0xB0 x.g with a := x.a.toBits, c := barBits x.bar }
  | .bara x => .r (ofBarD 0xB1 0 x)
  | .barw x =>
      .r { blank 0xB2 x.g with d := x.d.toBits, a := x.a.toBits, c := barBits x.bar, var := eBits x.e }
  | .baraw x => .r { blank 0xB3 x.g with d := x.d.toBits, c := barBits x.bar, var := eBits x.e }
  | .barq x => .r (ofBarD 0xB4 0 x)
  | .barqSt x => .r (ofBarD 0xB4 1 x)
  | .lnch x => .r (ofDA 0xB5 0 x)
  | .frpt x => .r (ofDst 0xB6 0 x)
  | .frdn x => .r (ofG 0xB7 x)
  | .frq x => .r (ofDA 0xB8 0 x)
  | .frqNext x => .r (ofDA 0xB8 1 x)
  | .bid x => .r (ofDABC 0xC0 0 x)
  | .price x => .r (ofDAB 0xC1 0 x)
  | .priceSold x => .r (ofDAB 0xC1 1 x)
  | .purse x => .r (ofPurse 0 x)
  | .purseRate x => .r (ofPurse 1 x)
  | .purseCap x => .r (ofPurse 2 x)
  | .lease x => .r (ofDA 0xC3 0 x)
  | .leaseTime x => .r (ofDA 0xC3 1 x)
  | .meter x => .r (ofDA 0xC4 0 x)
  | .recallReq x => .r (ofDAB 0xC5 0 x)
  | .recallT x => .r (ofDABC 0xC5 1 x)
  | .csrr x => .i { IForm.blank 0xD0 x.g with d := x.d.toBits, imm := 0#20 ++ x.num }
  | .csrw x => .i { IForm.blank 0xD1 x.g with a := x.a.toBits, imm := 0#20 ++ x.num }
  | .eret x => .r (ofG 0xD2 x)
  | .eretSkip x => .r { blank 0xD2 x.g with var := 1 }
  | .tlbiVa x => .r { blank 0xD3 x.g with a := x.a.toBits, b := x.b.toBits }
  | .tlbiCtx x => .r { blank 0xD3 x.g with b := x.a.toBits, var := 1 }
  | .tlbiAll x => .r { blank 0xD3 x.g with var := 2 }
  | .halt x => .r (ofDAB 0xD4 0 x)
  | .haltRun x => .r (ofDAB 0xD4 1 x)
  | .haltStep x => .r (ofDAB 0xD4 2 x)
  | .haltSave x => .r (ofDAB 0xD4 3 x)
  | .qpop x => .r { blank 0xD5 x.g with d := x.d.toBits, c := x.c.toBits }
  | .qpushRep x => .r { blank 0xD6 x.g with a := x.a.toBits, c := x.c.toBits }
  | .qpushFwd x => .r { blank 0xD6 x.g with a := x.a.toBits, b := x.b.toBits, c := x.c.toBits, var := 1 }
  | .crypTh x => .r (ofDAB 0xD7 0 x)
  | .crypEmit x => .r (ofDAB 0xD7 1 x)
  | .crypMeas x => .r { blank 0xD7 x.g with d := x.d.toBits, b := x.a.toBits, var := 2 }
  | .crypNonce x => .r (ofDst 0xD7 3 x)
  | .crypSign x => .r (ofDst 0xD7 4 x)
  | .crypCert x => .r (ofDAB 0xD7 5 x)
  | .crypTinit x => .r (ofDst 0xD7 6 x)
  | .crypTmark x => .r (ofDst 0xD7 7 x)
  | .crypTrest x => .r (ofDst 0xD7 8 x)
  | .migrOpen x => .r (ofDAB 0xD8 0 x)
  | .migrRound x => .r (ofDA 0xD8 1 x)
  | .migrStop x => .r (ofDA 0xD8 2 x)
  | .migrLand x => .r (ofDAB 0xD8 3 x)
  | .migrAbort x => .r (ofDA 0xD8 4 x)
  | .migrClose x => .r (ofDA 0xD8 5 x)
  | .clauseFetch .. | .issueGroup .. | .handlerEntry .. | .loadReturn .. | .storeAtHome ..
  | .spill .. | .storeBackpressure .. | .dramWrite .. | .wcbSend .. | .accessLoss ..
  | .orderLate .. | .orderedPacketArrival .. | .beacon .. | .orderedAck .. | .stallDetect ..
  | .cutRequest .. | .linkDown .. | .tokenRedistribution .. | .crcRetry .. | .copyAccept ..
  | .copyComplete .. | .sndfAlternate .. | .sndfCompletion .. | .requestPost ..
  | .collectiveTimeout .. | .grant .. | .entryComplete .. | .waitTimeout .. | .waitWake ..
  | .waitHostPoll .. | .ptimeReached .. | .sheepdog .. | .launchPacket .. | .packetRunStart ..
  | .queueBudget .. | .workgroupPlacement .. | .pointFire .. | .marketClose .. | .marketBoundary ..
  | .quadHandover .. | .wayHandover .. | .priceReceive .. | .pagingFetch .. | .scrubComplete ..
  | .eccError .. | .thermalTrip .. | .thermalResume .. | .packageReset .. | .contextReset ..
  | .vdReset .. | .queueLoad .. | .queueUnload .. | .rangeWrite .. | .launchBucketWrite ..
  | .retiredPageRemove .. | .fstatWrite .. | .objectWrite .. | .sync .. | .inboundRdmaRead ..
  | .inboundRdmaWrite .. | .inboundAtomic .. | .hostQpError .. | .marketTableWrite ..
  | .hostWindowWrite .. | .memoryKeyWrite .. | .finalReportRead .. | .firmwareImageWrite ..
  | .getVersion .. | .getCapabilities .. | .negotiateAlgorithms .. | .getDigests ..
  | .getCertificate .. | .challenge .. | .getMeasurements .. | .droverStepComplete ..
  | .incomingAccess .. | .linkTrained .. | .tsetWritten .. | .walkComplete .. | .debuggerCommand ..
  | .idleSlotShare .. | .announce .. | .delayResp .. | .followUp .. => .event

/-- The 64-bit word of an instruction; an event has none. -/
def encode (i : Instr) : Option W64 :=
  match i.fields with
  | .r f => some f.toWord
  | .i f => some f.toWord
  | .m f => some f.toWord
  | .b f => some f.toWord
  | .event => none

/-- The opcode-table reading of a word: an instruction of this part is one 64-bit word whose bytes
lie little-endian (R9, R44), so the table's numbering is the word's own; bits above `nbits` are
zero. -/
def decodeTableWord (nbits w : Nat) : Option Instr :=
  match decode (BitVec.ofNat 64 (w % 2 ^ nbits)) with
  | .ok i => some i
  | .error _ => none

end Sys2Proof
end

