-- ==== Sys2Proof/Machine/State.lean ====
section
/-!
DEFINITION. The state of one DC12 package, as plain data: every piece of state that spec/ gives the
machine, with the rule that names it, and the state right after reset. Numbers that the manual only
counts or indexes are natural numbers; what software can read as bits is a bit vector.

Keyed data is a `Tbl`: a list of (key, value) pairs with rising keys. Unit numbers follow R19:
core 0 to 255, quad = core / 4, die = core / 128, and a thread is named package-wide by
core × 2048 + slot × 32 + lane (R20). The thread that runs a queue program on die d has the number
524288 + d × 2048, above every kernel thread.
-/

namespace Sys2Proof.Machine

/-- Keyed data, keys strictly rising; a missing key reads as the default of its field. -/
abbrev Tbl (α : Type) := List (Nat × α)

/-- Bytes by address, addresses strictly rising, no byte equal to 0, which is what an unlisted
address reads as (notes/assumptions/1.md). -/
abbrev Memory := List Host.Cell

/-! ### How a run can stop -/

/-- Why the machine stops with no next state. -/
inductive Fault where
  /-- Raised by PACKAGE_RESET's boot and by every later step when the firmware image fails its
  verification: the part stays in reset (R413). Safe: the part itself does nothing more. -/
  | heldInReset
  deriving DecidableEq, Repr

/-- Why a step has no meaning in this model. -/
inductive Refusal where
  /-- Raised by an arm of `exec` for an instruction whose meaning is not written. Safe. -/
  | notModelled (mnemonic : String)
  deriving DecidableEq, Repr

/-! ### Threads, groups, flocks, workgroups (R20 to R43, R269 to R274) -/

/-- R269: the state of a resident thread. -/
inductive TState where
  | ready | stalled | running | blocked | parked | ended
  deriving DecidableEq, Repr

/-- R383: the trap record, as the six registers 0x100 to 0x105 hold it. -/
structure TrapRec where
  tcode : W32
  tpc : W64
  tidx : W32
  taddr : W64
  tapc : W64
  tinfo : W64
  deriving DecidableEq, Repr

/-- A read or write as it leaves its core (R203, R207, R211, R263). -/
inductive AccOp where
  | load (size : Size)
  | store (size : Size) (data : Nat)
  | stbq (size : Size) (data : Nat)
  | atom (aop : Aop) (aty : Aty) (b : Nat)
  | red (aop : Aop) (aty : Aty) (b : Nat)
  | cas (aty : Aty) (cmp new : Nat)
  /-- R266: PENQ, which advances HEAD when a count is given; it stands on no counter. -/
  | penq (adv : Option Nat)
  deriving DecidableEq, Repr

/-- An access that has left its instruction and is not complete. -/
structure Access where
  id : Nat
  /-- The threads that count it: one, or every participant of an LDW (R206). -/
  tids : List Nat
  core : Nat
  ctx : Nat
  /-- Clause address and index of its instruction (R199). -/
  pc : W64
  idx : Nat
  va : W64
  /-- Where it goes in the pod picture: the key of `State.mem`. -/
  pa : Nat
  op : AccOp
  dst : Reg
  acq : Option Scope
  rel : Option Scope
  hint : Retain
  sc : Bool
  wb : Bool
  ord : Bool
  /-- Pod time at which it was sent, and the cycle at which it issued. -/
  sent : Nat
  cycle : Nat
  /-- For each of its threads, which of the thread's operations on its counter it is (R199). -/
  nth : List Nat
  /-- R195: a thread of another workgroup of the core has read a byte of this queued store. -/
  seen : Bool
  deriving DecidableEq, Repr

/-- The counters of R38. -/
inductive Ctr where
  | ld | st | cp | tl
  deriving DecidableEq, Repr

/-- R199, R234, R249: a deferred error waiting to be raised. -/
structure DefErr where
  id : Nat
  code : Nat
  ctr : Ctr
  /-- Which of the thread's operations on that counter failed. -/
  nth : Nat
  apc : W64
  aidx : Nat
  entry : Nat
  addr : W64
  onode : Nat
  oport : Nat
  /-- R249: the report of a command whose CP count still stands. -/
  lowers : Bool
  /-- The failed access, when ERET with retry issues it again (R199). -/
  again : Option Access
  /-- The failed access, if it was one (R199). -/
  acc : Option Access
  /-- R199: the failed operation's place among all operations, by identity. -/
  age : Nat
  /-- R234: the ordered operation that must have been applied before the trap is taken. -/
  op : Option Nat
  deriving DecidableEq, Repr

/-- What an entry of the reservation table does, its operands as its threads read them (R150). -/
inductive EngOp where
  | mlds (fw : W32) (ctl : W32)
  | mswp
  | mma (fw : W32) (ctl : W64)
  | macr (fw : W32) (ctl : W32)
  | macw (ctl : W32)
  | macz (ctl : W32)
  | mnbr (fw : W32) (role : W32)
  deriving DecidableEq, Repr

/-- What a blocked thread waits for (R218, R220, R221, R143, R259, R210, R283, R292). -/
inductive WaitKind where
  | meet (k : Nat)
  | phase (bar : Nat) (p : W32)
  | mem (va : W64) (pa : Nat) (wg : Option Nat) (ty : Ty) (cmp : Nat) (cond : WCond)
      (acq : Option Scope) (ext : Bool)
  | sign (bar : Nat) (op : EngOp)
  | talloc (t cnt : Nat)
  | tstat (t cnt : Nat)
  | drain (upTo : Nat)
  | ptime (t : Nat)
  | wmark (va : W64) (recv : Nat) (stamp : Nat)
  | reply (acc : Nat)
  deriving DecidableEq, Repr

/-- A wait in progress: where its status goes and the cycle at which its time is up (R287); in the save
area, the cycles it has left. -/
structure Wait where
  kind : WaitKind
  d : Reg
  deadline : Option Nat
  /-- Pod time at which its last read was sent (R199, R202). -/
  sent : Nat
  /-- R218: its first read, of another node's or a host's memory, has not yet returned. -/
  first : Bool
  /-- R195, R218: restored, and its read of another node's or a host's memory not yet sent. -/
  idle : Bool := false
  deriving DecidableEq, Repr

/-- R284: a meeting that released a thread: its identity, the cycle of the release, the clause that follows the
thread's WAITM, and how many threads it released there. -/
structure Met where
  id : Nat
  at_ : Nat
  clause : W64
  n : Nat
  deriving DecidableEq, Repr

/-- R26: the state of one thread. -/
structure Thread where
  /-- The workgroup it belongs to. -/
  wg : Nat
  /-- g0 to g127. -/
  g : Vector W32 128
  /-- p0 to p6. -/
  p : BitVec 7
  pc : W64
  idx : Nat
  st : TState
  /-- R385: handler mode. -/
  handler : Bool
  /-- R383: a trap record stands, and its registers. -/
  trapped : Bool
  trap : TrapRec
  /-- The failed access that ERET with retry issues again (R199, RI of %tcode). -/
  retry : Option Access
  /-- R38: the four counters. -/
  ld : Nat
  stc : Nat
  cp : Nat
  tl : Nat
  /-- Operations issued on LD, ST and CP since the thread started (R199). -/
  nld : Nat
  nst : Nat
  ncp : Nat
  /-- R192: the stamp floor. -/
  floor : Nat
  /-- Cycle since which the thread has been ready at its clause (R275). -/
  age : Nat
  /-- Cycle since which the thread's instruction has been held at issue. -/
  stallFrom : Option Nat
  /-- R205: cycle since which a store of the thread has been stalled by a full queue. -/
  fullFrom : Option Nat
  /-- R195: the thread's stores up to this identity are residue, applied before any later access of it. -/
  resid : Nat
  /-- R179: later accesses wait for the outstanding loads up to this access. -/
  fence : Nat
  wait : Option Wait
  /-- A stop has withdrawn the collective at which the thread stands (R153), and the cycles its timeout had
  left, if it had one. -/
  carry : Option (Option Nat)
  /-- R284: the meeting that released the thread, until its first group has formed. -/
  met : Option Met
  /-- R364: the thread has begun a TLBI; once its entries are dropped, the accesses and commands that they had
  translated. -/
  tlbi : Option (Option (List Nat))
  errs : List DefErr
  /-- R316: the thread has executed FRDN. -/
  done : Bool
  /-- R295: the thread ended by CONT. -/
  contd : Bool
  /-- R401: the thread may run one clause while its workgroup is halted (HALT.step). -/
  stepping : Bool
  /-- R276: the cycle in which the thread's last clause ended, if it yielded. -/
  yielded : Option Nat
  /-- R389: %osel and %ostat. -/
  osel : W32
  ostat : W32
  deriving DecidableEq, Repr

/-- R281: one lane-mask register. -/
structure KSet where
  m : W32
  v : W32
  deriving DecidableEq, Repr

/-- R26, R272: the state of one flock. -/
structure Flock where
  w : Vector W32 64
  k : Vector KSet 12
  /-- The flock state: address and index of an FU clause in progress. -/
  fu : Option (W64 × Nat)
  deriving DecidableEq, Repr

/-- R270, R271: an issue group in its clause. -/
structure Group where
  id : Nat
  core : Nat
  wg : Nat
  pc : W64
  hdr : W64
  words : List W64
  idx : Nat
  members : List Nat
  /-- The instruction at `idx` has issued and some members still wait (R201, R271). -/
  blocked : Bool
  /-- The instruction at `idx` is held at issue (R269). -/
  stalled : Bool
  /-- Members that have posted their own request at `idx` while others still wait for room (R149). -/
  part : List Nat
  /-- R276: a YIELD has been executed. -/
  yielding : Bool
  /-- R276: the cycle after which the group is passed over once, in the next. -/
  passed : Option Nat
  age : Nat
  deriving DecidableEq, Repr

/-- R169: tile states. -/
inductive TileSt where
  | empty | filling | ready | draining
  deriving DecidableEq, Repr

/-- A tile: its state when no operation holds it, and how many operations fill, drain and pin it
(R170: the stricter state shows until both have finished). -/
structure TileRec where
  full : Bool
  fill : Nat
  drain : Nat
  pin : Nat
  deriving DecidableEq, Repr

/-- R21, R33: a resident workgroup, or one in the save area. -/
structure Wg where
  id : Nat
  core : Nat
  slot : Nat
  nflock : Nat
  ctx : Nat
  launch : Nat
  wgid : Nat
  point : Nat
  team : Option Nat
  regs : Nat
  bars : Nat
  tiles : Nat
  tile : Tbl TileRec
  /-- Contents of the tiles, by scratch offset (R31, R166). -/
  scr : Memory
  stage : W32
  committed : Bool
  restartable : Bool
  checked : Bool
  prio : Nat
  argp : W64
  argsz : W32
  sched : W64
  nsched : Nat
  /-- Schedule entries already released (R255). -/
  released : List Nat
  contrec : W64
  /-- R401. -/
  halted : Bool
  /-- R21: the workgroup has ended, and stays with its slots and tiles until its team has. -/
  ended : Bool := false
  deriving DecidableEq, Repr

/-- R21, R312: a team and its workgroups. -/
structure Team where
  id : Nat
  quad : Nat
  launch : Nat
  unit : Nat
  wgs : List Nat
  threads : Nat
  /-- R168: its workgroups' %wgid in the order of their slots, which every restore keeps. -/
  layout : List Nat := []
  deriving DecidableEq, Repr

/-- R289: a barrier register of a workgroup or of a team. -/
structure BarSt where
  count : Nat
  n : Nat
  /-- The current phase holds signatures. -/
  sig : Bool
  signers : List Nat
  p : W32
  /-- Copy arrivals held until a phase of signatures completes (R290). -/
  held : List (Option DefErr)
  /-- Error arrival in the current phase, and the record of the last phase completed (R249). -/
  cur : Option DefErr
  err : Option DefErr
  /-- Context that owns the entry and whether it stands in the quad's table (R396). -/
  ctx : Nat
  quad : Nat
  resident : Bool
  touched : Nat
  deriving DecidableEq, Repr

/-! ### The core (R23, R175, R184, R188, R242, R262) -/

/-- R49, R51: a clause in an instruction cache: its header and words. -/
structure Clause where
  ctx : Nat
  va : W64
  hdr : W64
  words : List W64
  deriving DecidableEq, Repr

/-- R51: a line of an instruction cache, by context and line address, as its 16 words were fetched. -/
structure CodeLine where
  ctx : Nat
  line : Nat
  words : List W64
  deriving DecidableEq, Repr

/-- R273: an entry of the PC table: the ready threads of a context at a clause address. -/
structure PcEntry where
  ctx : Nat
  va : W64
  tids : List Nat
  deriving DecidableEq, Repr

/-- R358, R362: a translation as a TLB holds it. -/
structure TlbEnt where
  ctx : Nat
  va : Nat
  size : Nat
  pa : Nat
  back : Nat
  node : Nat
  leafPa : Nat
  d : Bool
  w : Bool
  x : Bool
  sc : Bool
  wb : Bool
  ext : Bool
  deriving DecidableEq, Repr

/-- R188: an entry of the write-combining buffer: its line in the pod picture, its stores in issue
order, when it was made, and when it was sent, if its home has not yet acknowledged it. -/
structure WcbEnt where
  id : Nat
  line : Nat
  ctx : Nat
  stores : List Access
  since : Nat
  sent : Option Nat
  deriving DecidableEq, Repr

/-- R262: an entry of a send list. -/
structure SndEnt where
  row : W64
  scratch : Bool
  pen : W64
  alt : Option W64
  bytes : Nat
  deriving DecidableEq, Repr

/-- R263: the outcome of one entry of a flush. -/
inductive SndRes where
  | waiting | primary | refused | alternate | dropped | invalid
  deriving DecidableEq, Repr

/-- R263: a flush in progress. -/
structure Flush where
  id : Nat
  tid : Nat
  wg : Nat
  ctx : Nat
  recVa : W64
  pc : W64
  idx : Nat
  ents : List SndEnt
  res : List SndRes
  /-- The entries whose packet to the primary pen, and to the alternate pen, has been sent. -/
  firsts : List Nat
  alts : List Nat
  /-- Which of its thread's operations on the CP counter it is (R199). -/
  nth : Nat
  deriving DecidableEq, Repr

/-- R242: how far a command has come. -/
inductive CmdStage where
  | issued | moving | paused
  deriving DecidableEq, Repr

/-- R250, R252, R260: the work of a copy command, its operands read at issue. A tensor's descriptor is
in memory or given as a number, and `step` is what R254 adds to its base. -/
inductive CopyKind where
  | linear (src dst : Int) (len rows : Nat) (ss ds : Int) (dsp ssp : Space) (cb : Option Nat) (mc : Nat)
  | tensor (desc : Nat) (descVa : Option W64) (step : Int) (box : Nat) (coords : List Int) (team : Bool)
      (st : Bool) (mc : Nat)
  | signal (src dst : Int) (len : Nat) (dsp ssp : Space) (cb : Option Nat) (sigVal : W32) (sigVa : W64)
  deriving DecidableEq, Repr

/-- R242: a command of a copy unit. -/
structure Cmd where
  id : Nat
  stage : CmdStage
  /-- The issuing thread; none for a schedule entry, whose index plus 1 is `entry` (R383). -/
  tid : Option Nat
  entry : Nat
  wg : Nat
  ctx : Nat
  kind : CopyKind
  /-- R254, R247: why the command is refused whatever it names: a code and an address. -/
  bad : Option (Nat × W64)
  /-- The barrier register it arrives on, by its key. -/
  bar : Option Nat
  pc : W64
  idx : Nat
  nth : Nat
  /-- Tiles it fills and drains once accepted, and source tiles it found empty (R243), as (workgroup, tile). -/
  fills : List (Nat × Nat)
  drains : List (Nat × Nat)
  empties : List (Nat × Nat)
  /-- Where each of its global pages stands in the pod picture, by address / 65536, once accepted. -/
  pages : Tbl Nat
  /-- Lines of global memory it reads, and those it owns (R193). -/
  takes : List Nat
  owns : List Nat
  /-- Pod time of its acceptance (R199), and, once a stop has paused it, how many of its byte writes are done (R267). -/
  since : Nat
  done : Nat
  deriving DecidableEq, Repr

/-- R175, R192, R204: a line of an L1: its bytes, its retention, when it was last used, and, by byte offset, the
stamp of the ordered operation that wrote what it holds. -/
structure L1Line where
  bytes : List Byte
  hint : Retain
  used : Nat
  stamps : Tbl Nat
  deriving DecidableEq, Repr

/-- R257: a codebook slot. -/
structure Codebook where
  tag : Option Nat
  data : Memory
  deriving DecidableEq, Repr

/-- R259: a TSET whose tiles are filling. -/
structure TsetOp where
  id : Nat
  wg : Nat
  t : Nat
  cnt : Nat
  pat : W32
  deriving DecidableEq, Repr

/-- R23, R36: one core. -/
structure Core where
  /-- R36: the flag sets by context. -/
  fstat : Tbl (BitVec 7)
  clauses : List Clause
  code : List CodeLine
  /-- R273: the PC table, at most 64 entries, and the overflow list, oldest thread first. -/
  pcs : List PcEntry
  overflow : List Nat
  /-- R175: L1 lines by line address. -/
  l1 : Tbl L1Line
  tlb : List TlbEnt
  sq : List Access
  /-- Lines of the store queue's head refused for quota (R205, R207). -/
  sqHeld : Bool
  wcb : List WcbEnt
  /-- R224: ordered operations that have left this source. -/
  seq : Nat
  lists : Tbl (List SndEnt)
  flushes : List Flush
  cmds : List Cmd
  cb : Tbl Codebook
  tsets : List TsetOp
  /-- R257: workgroups whose codebook is still to be loaded into slot 0. -/
  loads : List Nat
  deriving DecidableEq, Repr

/-! ### The quad (R134 to R164) -/

/-- R134: a plane: its stores by byte offset and its tag. -/
structure Plane where
  elems : Memory
  scales : Memory
  maps : Memory
  fb : Nat
  spn : Nat
  deriving DecidableEq, Repr

/-- R143, R151: a formed request or a posted entry. -/
structure EngEnt where
  id : Nat
  op : EngOp
  ctx : Nat
  /-- The workgroup whose tiles it names (R145). -/
  wg : Nat
  signers : List Nat
  collective : Bool
  bar : Nat
  prio : Nat
  /-- Cycle of posting; the order of posting is the order of the list. -/
  since : Nat
  granted : Bool
  /-- Cycle since which a posted entry has been ready (R151). -/
  readyAt : Option Nat
  /-- R163: a chained request; once matched, the identity that its chain's entries share. -/
  chained : Bool
  pass : Nat
  srcs : List Nat
  dsts : List Nat
  /-- The bytes of its source tiles when it was posted (R152), by scratch offset. -/
  image : Memory
  deriving DecidableEq, Repr

/-- R23: one quad. -/
structure Quad where
  /-- The context whose workgroups are resident, or last were (R22, R26). -/
  ctx : Option Nat
  active : Plane
  shadow : Plane
  /-- acc0 to acc3, FXA128 by (tile × 64 + row) × 256 + column (R137); missing reads 0. -/
  acc : Tbl (BitVec 128)
  role : Nat
  chainFw : W32
  reqs : List EngEnt
  table : List EngEnt
  tlb : List TlbEnt
  /-- R414: the sensor has stopped the quad's issue. -/
  hot : Bool
  /-- R340, R343: the quad is being handed over to its next holder. -/
  handover : Bool
  deriving DecidableEq, Repr

/-! ### Ordered class (R223 to R237) -/

/-- An input port of a node of this package, as its watermark is known (R226, R227, R233). -/
structure PortIn where
  wm : Nat
  onode : Nat
  oport : Nat
  trained : Bool
  cut : Bool
  /-- Pod time of the last flit or beacon. -/
  heard : Nat
  /-- Highest watermark advertised on any output since the cut (R235). -/
  adv : Nat
  slow : Nat
  cuts : Nat
  late : Nat
  deriving DecidableEq, Repr

/-- What a fabric port's sending end has advertised (R226, R228): the last watermark, when it last sent an ordered
packet or a beacon, and the ordered packets lost behind it (R241): the stamp of each and the input it came by. -/
structure PortOut where
  adv : Nat
  at_ : Nat
  lost : List (Nat × Nat)
  deriving DecidableEq, Repr

/-- R240: a flit that waits at a fabric port for a token of its tenant, and the work it belongs to. -/
structure Flit where
  tenant : Nat
  id : Nat
  deriving DecidableEq, Repr

/-- Where an ordered operation stands: on its way, held, applied with the old value and the stamp that wrote it, or
rejected. -/
inductive OrdState where
  | sent | held | applied (old stamp : Nat) | rejected
  deriving DecidableEq, Repr

/-- What an ordered operation does at its receiver. -/
inductive OrdWork where
  | access (a : Access)
  | pen (core flush ent : Nat) (penPa : Nat) (row : List Byte) (ctx : Nat)
  | signal (va : W64) (pa : Nat) (val : W64) (ctx : Nat)
  | inbound (op : HomeOp) (pa : Nat) (tenant : Nat)
  deriving DecidableEq, Repr

/-- R190, R224: an ordered operation between its source and its acknowledgement. -/
structure OrdOp where
  id : Nat
  rank : Rank
  src : Nat
  /-- Its receiver: a home slice of this package, 0 to 47, or bank b of node n as 48 + n × 4096 + b. -/
  recv : Nat
  work : OrdWork
  st : OrdState
  /-- Pod time at which its packet left (R199). -/
  left : Nat
  deriving DecidableEq, Repr

/-- R229, R233: a receiver of this package, or another node's as it was last heard. -/
structure Recv where
  w : Nat
  /-- Pod time at which W last advanced. -/
  moved : Nat
  /-- A cut request has been sent for this stall. -/
  asked : Bool
  /-- R233: slow events counted. -/
  slow : Nat
  deriving DecidableEq, Repr

/-! ### Contexts, devices, ranges, queues (R354 to R375, R389 to R393) -/

/-- R390, R392: the words of a context record. -/
structure CtxWords where
  ctl : W64
  root : W64
  pool : W64
  npool : W64
  handlerPc : W64
  save : W64
  savesz : W64
  krec : W64
  storectl : W64
  brk0 : W64
  brk1 : W64
  brk2 : W64
  brk3 : W64
  mpol : W64
  deriving DecidableEq, Repr

/-- One context. -/
structure Ctx where
  words : CtxWords
  /-- R36: the context-wide flag set. -/
  fstat : BitVec 7
  /-- R366: the clock hand of the frame pool. -/
  hand : Nat
  /-- R368: backing entry of each resident descriptor, by descriptor index. -/
  backing : Tbl W64
  /-- R332: standing bids by pool code: quantity and price. -/
  bids : Tbl (Nat × Nat)
  /-- R297: pod time since which the sheepdog's condition has held. -/
  still : Option Nat
  /-- R401: a halt of the whole context keeps new workgroups out. -/
  halted : Bool
  /-- R400: a reset of the context waits for a save in progress. -/
  resetDue : Bool
  /-- R400: the cycle in which the context was last killed. -/
  killedAt : Option Nat
  deriving DecidableEq, Repr

/-- R381: the states of the responder. -/
inductive SpdmSt where
  | start | version | capabilities | negotiated
  deriving DecidableEq, Repr

/-- One virtual device, with its management queue (R354, R379, R409). -/
structure Vd where
  word : W64
  windows : Tbl HostWindow
  keys : Tbl MemKey
  errors : Nat
  /-- Packets answered with VD_RESETTING, for the reset record (R377). -/
  naks : Nat
  /-- Contexts, launches and packets of the reset in progress, for the same record. -/
  lostCtxs : Nat
  lostLaunches : Nat
  lostPackets : Nat
  spdm : SpdmSt
  /-- The transcript's bytes since it was last initialised, and its checkpoint (R379). -/
  transcript : List Byte
  checkpoint : List Byte
  /-- The virtual device's RC connections to host windows in their error state (R408). -/
  dead : List Nat
  deriving DecidableEq, Repr

/-- R369: a range entry, as its four words. -/
structure Range where
  w0 : W64
  w1 : W64
  w2 : W64
  w3 : W64
  deriving DecidableEq, Repr

/-- R300: a packet in a ring. -/
structure Packet where
  ctx : Nat
  seq : Nat
  body : List Byte
  from_ : Option QpRef
  deriving DecidableEq, Repr

/-- R302, R390, R391: a queue. -/
structure Queue where
  qctl : W64
  mask : List Bool
  prog : W64
  wbase : W64
  wsize : W64
  /-- The program as copied at load: its words from the first clause header. -/
  code : List W64
  /-- The window as taken at load. -/
  base : W64
  size : W64
  ring : List Packet
  deriving DecidableEq, Repr

/-- R405: the steps of a session. -/
inductive MStep where
  | open | round | stop | land | abort | close
  deriving DecidableEq, Repr

/-- R304: an effect held until EXIT. -/
inductive Held where
  | launch (id : Nat)
  | bid (ctx pool qty price : Nat)
  | migr (ctx : Nat) (step : MStep) (desc : W64)
  deriving DecidableEq, Repr

/-- R303 to R306: a packet's run on a die's command processor. -/
structure Run where
  vd : Nat
  queue : Nat
  owner : Nat
  packet : Packet
  code : List W64
  base : W64
  size : W64
  pos : Nat
  words : List W64
  fwdTo : Option Nat
  fwd : List W64
  held : List Held
  /-- R70: instructions executed, and where the last of them stands. -/
  count : Nat
  last : Option (W64 × Nat)
  /-- R379: the run's view of the transcript and checkpoint, and its attachment. -/
  transcript : List Byte
  checkpoint : List Byte
  attach : List Byte
  /-- R305: the quads on which the launches that it has accepted could place workgroups when they were accepted. -/
  reach : Option (List Nat) := none
  deriving DecidableEq, Repr

/-! ### Launches and the frontier (R307 to R327) -/

/-- R310, R322: a point that has fired and is not complete. -/
structure PointSt where
  lin : Nat
  col : Nat
  h : Nat
  held : Bool
  /-- Workgroup indexes within the point that are still to be placed. -/
  todo : List Nat
  /-- Workgroup indexes that have finished (R316). -/
  finished : List Nat
  deriving DecidableEq, Repr

/-- R313, R315: an accepted launch. -/
structure Launch where
  id : Nat
  ctx : Nat
  die : Nat
  /-- The record as copied at acceptance, 256 bytes. -/
  record : List Byte
  /-- R304: accepted by a run that has not reached its EXIT. -/
  reserved : Bool
  /-- R326: the continuation records that LNCH checked, by address, as they stood. -/
  chain : Tbl (List Byte)
  /-- R51: the cores on which a workgroup of the launch has started. -/
  started : List Nat
  /-- R314, R327: the cycle in which its last workgroup was first seen to have ended. -/
  ended : Option Nat
  /-- R315: H by column; missing is 0. F follows from it and the points fired. -/
  h : Tbl Nat
  /-- Points (column, height) complete above H. -/
  ahead : List (Nat × Nat)
  points : List PointSt
  /-- Points fired in a launch without a frontier: the next linear index. -/
  next : Nat
  /-- Points complete. -/
  complete : Nat
  /-- R312: where a die-level unit was first placed: (level × 2^32 + unit, die). -/
  pins : Tbl Nat
  /-- R322: a frontier save that is still to be written at FSAVE. -/
  owed : Option (List Byte)
  deriving DecidableEq, Repr

/-- R398: a place that holds poisoned data. -/
inductive Poison where
  | line (n : Nat) (cache : Bool)
  | reg (tid r : Nat)
  | scratch (wg tile : Nat)
  | engine (quad : Nat)
  /-- A store in a store queue or a write-combining buffer, by its identity. -/
  | store (id : Nat)
  deriving DecidableEq, Repr

/-- R154: the engine image: both planes with their tags, and acc0 to acc3. -/
structure EngImage where
  active : Plane
  shadow : Plane
  acc : Tbl (BitVec 128)
  deriving DecidableEq, Repr

/-- A workgroup in the save area (R394, R395). Its threads, and whatever names one of them, are numbered
within it as flock × 32 + lane, since their slots are chosen again at restore. -/
structure SavedWg where
  wg : Wg
  threads : Tbl Thread
  flocks : Tbl Flock
  /-- Issue groups that wait at an instruction (R271). -/
  groups : List Group
  lists : Tbl (List SndEnt)
  flushes : List Flush
  cmds : List Cmd
  cb : Tbl Codebook
  /-- Stores of its threads that had not left the store queue, in queue order (R195). -/
  residue : List Access
  poison : List Poison
  /-- R257: its codebook is still to be loaded. -/
  book : Bool
  deriving DecidableEq, Repr

/-- R154: workgroups saved together from one quad, with the engine image when the quad was taken. -/
structure SavedQuad where
  ctx : Nat
  quad : Nat
  wgs : List SavedWg
  image : Option EngImage
  /-- The image holds poison (R398). -/
  tainted : Bool
  /-- Saved by HALT.save: placed again only when HALT.run has resumed its workgroups (R402). -/
  halted : Bool
  deriving DecidableEq, Repr

/-! ### The Commons (R328 to R353) -/

/-- One auctioned unit. -/
structure MktUnit where
  owner : Nat
  listed : Bool
  /-- The context that holds it in this interval and the price it was bought at. -/
  holder : Option Nat
  price : Option Nat
  /-- After the close: holder and price of the coming interval. -/
  next : Option Nat
  nextPrice : Option Nat
  /-- The context from which it is still being taken (R340, R341). -/
  leaving : Option Nat
  /-- R353: its holder has been reset: it runs nothing until the boundary. -/
  idle : Bool
  deriving DecidableEq, Repr

/-- One pool: its reserve and its last clearing (R336). -/
structure Pool where
  reserve : Nat
  clears : Option (Nat × Nat × Nat)
  deriving DecidableEq, Repr

/-- R329, R330: the Commons. -/
structure Market where
  interval : Nat
  units : Tbl MktUnit
  pools : Tbl Pool
  pending : Option MarketTable
  closed : Bool
  /-- Pod time at which the current interval ends. -/
  ends : Nat
  /-- Boundaries seen since the package first took pod time. -/
  begun : Bool
  /-- R353: the cycle of the last boundary. -/
  turned : Option Nat := none
  /-- R348: clearings received from other packages, by node × 256 + pool. -/
  remote : Tbl (Nat × Nat × Nat)
  /-- R338: bytes that the write-lane slots, and the system share, may still carry in the present µs, by
  die × 256 + context, and the pod time of each die's last division. -/
  share : Tbl Nat
  topUp : Tbl Nat
  shareAt : Tbl Nat
  deriving DecidableEq, Repr

/-- R240, R329, R331, R374, R375: a tenant's entries. -/
structure Tenant where
  purse : Nat
  rate : Nat
  cap : Nat
  /-- R334: interval index at which it last won in each pool. -/
  lastWon : Tbl Nat
  /-- Launch bucket: RATE and DEPTH word, tokens in units of 1 / 4,000,000, and when they were counted. -/
  bucket : W64
  tokens : Nat
  since : Nat
  filled : Bool
  /-- Fabric entries by port: FEN and CEIL. -/
  fabric : Tbl W64
  /-- Tokens of the tenant on each port, in thirty-seconds of a flit, and flits sent since the last redistribution
  (R240). -/
  flits : Tbl Nat
  used : Tbl Nat
  deriving DecidableEq, Repr

/-! ### Home slices and DRAM (R184 to R187, R398) -/

/-- A dirty line of this package (R184, R186). -/
structure Dirty where
  ctx : Nat
  /-- Every context that has written it since it was clean, with the order of that context's first write. -/
  writers : Tbl Nat
  wb : Bool
  /-- R186, R209: while the line is held under WB again, the writers of what it handed to the lane before. -/
  lane : Tbl Nat
  /-- Order of acceptance: first write since it was clean or entered the lane, and last write. -/
  first : Nat
  last : Nat
  /-- Held in system ways by the overflow engine. -/
  spilled : Bool
  /-- R185, R186: evicted into the write lane, so that it no longer counts in the quota. -/
  out : Bool
  /-- R187: the cache-way unit of the context in which it is held, none in the floor share. -/
  way : Option Nat
  deriving DecidableEq, Repr

/-- R390 KIND 7. -/
structure ErrCounts where
  corrected : Nat
  uncorrectable : Nat
  retired : Nat
  killed : Nat
  deriving DecidableEq, Repr

/-! ### Migration, security, outside (R378 to R381, R404 to R413) -/

/-- R404, R405: a session on this package. -/
structure Session where
  ctx : Nat
  /-- Last completed step, and the step in progress. -/
  last : Option MStep
  doing : Option MStep
  desc : W64
  /-- The context in whose space the descriptor lies. -/
  owner : Nat
  /-- R406: cut-over stamp once stopped, and operations handed to the Drover (R407). -/
  cut : Option Nat
  forwarded : List OrdOp
  /-- R364: in a round, the identity below which accesses were translated before D was cleared. -/
  fence : Option Nat
  /-- R406: the folds have forwarding entries for the listed pages. -/
  entries : Bool := false
  deriving DecidableEq, Repr

/-- R378, R412, R413: the security engine and the flash. -/
structure Security where
  /-- MEAS0 to MEAS15, each 64 bytes. -/
  meas : List (List Byte)
  flash : List Byte
  image : List Byte
  /-- R345: the final report and its signature. -/
  report : List Byte
  signature : List Byte
  resets : Nat
  draws : Nat
  deriving DecidableEq, Repr

/-- R410: the PTP clock. -/
structure Ptp where
  masters : List PtpMaster
  best : Option PtpMaster
  /-- A two-step Sync waiting for its Follow_Up. -/
  pendingSync : Option PtpTime
  /-- Path delay in ns, and the master's offset in pod-time units. -/
  delay : Nat
  /-- Origin and arrival of the last Sync, in ns. -/
  lastSync : Option (Nat × Nat)
  /-- R223: units by which `now` runs ahead of the source while it stands still, having been more than 1 µs ahead. -/
  ahead : Nat
  /-- R223: the copies behind `now` that stand still too, until the source has caught up with them. -/
  stood : List Nat := []
  /-- The Delay_Req that waits for its response: port, sequence and the time at which it was sent, in ns. -/
  req : Option (Nat × Nat × Nat) := none
  deriving DecidableEq, Repr

/-- What the part has sent to the outside, newest last. -/
inductive Sent where
  | nak (q : QpRef) (seq : Nat) (status : Nat)
  | reply (q : Option QpRef) (seq : Nat) (words : List W64)
  | attachment (q : Option QpRef) (seq : Nat) (bytes : List Byte)
  | killRecord (vd : Nat) (bytes : List Byte)
  | resetRecord (vd : Nat) (bytes : List Byte)
  | clearing (pool price sold idx : Nat)
  | remoteAtomicNak (port qp : Nat)
  | rdmaNak (port qp : Nat)
  | rdmaData (port qp : Nat) (bytes : List Byte)
  | rdmaAck (port qp : Nat)
  | thermal (u : ThermalUnit) (stopped : Bool)
  | imageRejected
  | finalReport (report signature : List Byte)
  | debugStatus (code : Nat)
  | debugWord (val : W64)
  | refusedInbound (port : Nat)
  | inboundReply (port : Nat) (val : Nat)
  | ordAck (pkg idx seq : Nat) (val : Nat)
  | ordRejected (pkg idx seq : Nat)
  | cutAsk (node port : Nat)
  /-- R234: STALLED_WATERMARK for the issuer of an operation of another package. -/
  | stalled (pkg idx seq node port : Nat)
  | cutAnswer (recv port : Nat) (slow : Bool)
  | beacon (port wm onode oport : Nat)
  | packet (port : Nat) (rank : Rank) (wm onode oport : Nat)
  /-- R410: a Delay_Req. -/
  | delayReq (port seq : Nat)
  /-- R406: a fold's forwarding entries for pages of this package, with the frames they go to; removed by an empty list. -/
  | foldEntries (fold ctx : Nat) (pages : List (Nat × Nat))
  /-- R407: the frames of a destination node to which forwarded operations wait for the final copy. -/
  | awaits (node ctx : Nat) (pages : List Nat)
  /-- R407: an ordered operation, or one without a rank of its own, handed to the destination of a migrating context. -/
  | forwarded (node : Nat) (rank : Rank) (op : HomeOp) (pa tenant : Nat)
  /-- R406: the unstarted packets of a ring, for a queue of the destination context's device. -/
  | ring (node ctx queue : Nat) (packets : List MovedPacket)
  deriving DecidableEq, Repr

/-- What moves next: an issue group, by its identity, or an event (notes/assumptions/2.md). -/
inductive Move where
  | issue (group : Nat)
  | event (i : Instr)
  deriving DecidableEq, Repr

/-! ### The package -/

/-- The state of the package. -/
structure State where
  /-- The pod picture: this package's memory at node × 2^48 + offset (R411), other nodes' memory as
  this package sees it, and host memory at 2^60 + (device × 16 + window) × 2^48 + offset. -/
  mem : Memory
  /-- R223: pod time in units of 250 ps, and whether it has first been taken. -/
  now : Nat
  timed : Bool
  /-- R223: units by which the copy of a source (R224) or, at 512 + p, of fabric port p stands behind `now`. -/
  lag : Tbl Nat
  /-- R220, R224: the highest stamp that each source has given. -/
  lastStamp : Tbl Nat
  /-- Cycles since package reset (0x011). -/
  cyc : Nat
  /-- R411: this package's pod node number. -/
  node : BitVec 12
  /-- R413: held in reset by an image that failed verification. -/
  held : Bool
  /-- R413: booted, host ports open. -/
  booted : Bool
  cur : Option Group
  groups : List Group
  /-- R275: the issue paths used in this cycle, with the group that each has issued: core × 2, plus 1 for the
  path that is not the vector path. -/
  issued : List (Nat × Nat)
  /-- The moves chosen next (the model's own field). -/
  agenda : List Move
  threads : Tbl Thread
  flocks : Tbl Flock
  wgs : Tbl Wg
  teams : Tbl Team
  bars : Tbl BarSt
  cores : Tbl Core
  quads : Tbl Quad
  ctxs : Tbl Ctx
  vds : Tbl Vd
  ranges : Tbl Range
  queues : Tbl Queue
  tenants : Tbl Tenant
  runs : Tbl Run
  /-- Die's last queue served, for the round robin of R302. -/
  served : Tbl Nat
  launches : List Launch
  saved : List SavedQuad
  accs : List Access
  ords : List OrdOp
  ports : Tbl PortIn
  outs : Tbl PortOut
  /-- R240: flits waiting for tokens by fabric port, oldest first. -/
  flitq : Tbl (List Flit)
  /-- R240: replies with data that wait for a token, by the identity of their flit. -/
  replies : Tbl Sent
  recvs : Tbl Recv
  /-- R224: ordered operations that have left each command processor. -/
  cpSeq : Tbl Nat
  /-- The error counters of ports: CRC retries by port (R241, R344), refusals at 24 + port (R372). -/
  crc : Tbl Nat
  /-- R240: pod time of each port's last redistribution. -/
  shared : Tbl Nat
  /-- R192: by byte, the stamp of the ordered operation that last wrote it; missing is none. -/
  stamps : Tbl Nat
  dirty : Tbl Dirty
  /-- R204: the retention recorded with a line at its home slice, and the lines that the other die's slices hold as
  replicas. -/
  hints : Tbl Retain
  replicas : List Nat
  poison : List Poison
  retired : Tbl Nat
  errc : ErrCounts
  market : Market
  /-- R344: meters by view × 2^24 + subject × 2^8 + counter. -/
  meters : Tbl Nat
  sessions : List Session
  sec : Security
  ptp : Ptp
  /-- R397, R414: slices and ports stopped by their sensor. -/
  hotSlices : List Nat
  hotPorts : List Nat
  sent : List Sent
  /-- R368: paging fetches in flight: the context, and an address of the page. -/
  fetches : List (Nat × W64)
  /-- R396: contexts of which a barrier entry has been spilled, or changed while spilled, in this step. -/
  spills : List Nat
  /-- R407: pages, by address in the pod picture / 65536, whose final copy another package's Drover has still to write. -/
  awaiting : List Nat
  /-- R402: operations of a debugger on the management port that still wait. -/
  halts : List (HaltOp × Nat × Nat)
  /-- Contexts discarded in this step, whose abandoned copies are still to be written (R399). -/
  dying : List Nat
  /-- Fresh identities for groups, accesses and other objects (the model's own field). -/
  fresh : Nat
  /-- Draws of free values so far (the model's own field). -/
  draws : Nat
  deriving DecidableEq, Repr

/-! ### Values at workgroup start and reset -/

def TrapRec.zero : TrapRec := ⟨0, 0, 0, 0, 0, 0⟩

/-- R26: a thread at workgroup start, at its entry address. -/
def Thread.start (wg : Nat) (pc : W64) : Thread :=
  { wg, g := Vector.replicate 128 0, p := 0, pc, idx := 0, st := .ready, handler := false, trapped := false
    trap := .zero, retry := none, ld := 0, stc := 0, cp := 0, tl := 0, nld := 0, nst := 0, ncp := 0, floor := 0, age := 0
    stallFrom := none, fullFrom := none, resid := 0, fence := 0, wait := none, carry := none, met := none, tlbi := none, errs := [], done := false
    contd := false, stepping := false, yielded := none, osel := 0, ostat := 0 }

/-- R26: a flock at workgroup start. -/
def Flock.start : Flock :=
  { w := Vector.replicate 64 0, k := Vector.replicate 12 ⟨0, 0⟩, fu := none }

/-- R169: an empty tile. -/
def TileRec.empty : TileRec := ⟨false, 0, 0, 0⟩

/-- A core with nothing in it. -/
def Core.idle : Core :=
  { fstat := [], clauses := [], code := [], pcs := [], overflow := [], l1 := [], tlb := [], sq := [], sqHeld := false, wcb := [], seq := 0
    lists := [], flushes := [], cmds := [], cb := [], tsets := [], loads := [] }

/-- R134: a plane at a context's first placement on the quad. -/
def Plane.zero : Plane := ⟨[], [], [], 3, 0⟩

/-- A quad that no context has used. -/
def Quad.idle : Quad :=
  { ctx := none, active := .zero, shadow := .zero, acc := [], role := 0, chainFw := 0
    reqs := [], table := [], tlb := [], hot := false, handover := false }

/-- R382: a context record at package reset. -/
def Ctx.zero : Ctx :=
  { words := ⟨0, 0, 0, 0, 0, 0, 0, 0, 0, 0, 0, 0, 0, 0⟩, fstat := 0, hand := 0, backing := [], bids := []
    still := none, halted := false, resetDue := false, killedAt := none }

def Vd.zero : Vd :=
  { word := 0, windows := [], keys := [], errors := 0, naks := 0, lostCtxs := 0, lostLaunches := 0, lostPackets := 0, spdm := .start, transcript := []
    checkpoint := [], dead := [] }

def Range.zero : Range := ⟨0, 0, 0, 0⟩

def Queue.zero : Queue :=
  { qctl := 0, mask := [], prog := 0, wbase := 0, wsize := 0, code := [], base := 0, size := 0, ring := [] }

/-- R375: a tenant at package reset: bucket RATE 0, DEPTH 0 and no token. -/
def Tenant.zero : Tenant :=
  { purse := 0, rate := 0, cap := 0, lastWon := [], bucket := 0, tokens := 0, since := 0, filled := false
    fabric := [], flits := [], used := [] }

def MktUnit.zero : MktUnit :=
  { owner := 0, listed := false, holder := none, price := none, next := none, nextPrice := none, leaving := none, idle := false }

def Pool.zero : Pool := ⟨0, none⟩

def PortIn.zero : PortIn :=
  { wm := 0, onode := 0, oport := 0, trained := false, cut := false, heard := 0, adv := 0, slow := 0, cuts := 0
    late := 0 }

def Recv.zero : Recv := ⟨0, 0, false, 0⟩

def PortOut.zero : PortOut := ⟨0, 0, []⟩

/-- The package right after reset: every state of the part cleared (R400), the measurement registers
zero (R378), I = 500 µs (R330), no pod time yet taken (R223) and the boot of R413 still to come. -/
def State.reset : State :=
  { mem := [], now := 0, timed := false, lag := [], lastStamp := [], cyc := 0, node := 0, held := false, booted := false
    cur := none, groups := [], issued := [], agenda := []
    threads := [], flocks := [], wgs := [], teams := [], bars := [], cores := [], quads := [], ctxs := []
    vds := [], ranges := [], queues := [], tenants := [], runs := [], served := [], launches := []
    saved := [], accs := [], ords := [], ports := [], outs := [], flitq := [], replies := [], recvs := [], cpSeq := [], crc := [], shared := [], stamps := [], dirty := []
    hints := [], replicas := []
    poison := [], retired := [], errc := ⟨0, 0, 0, 0⟩
    market :=
      { interval := 2000000, units := [], pools := [], pending := none, closed := false, ends := 0
        begun := false, remote := [], share := [], topUp := [], shareAt := [] }
    meters := [], sessions := []
    sec :=
      { meas := List.replicate 16 (List.replicate 64 0), flash := [], image := [], report := [], signature := []
        resets := 0, draws := 0 }
    ptp := { masters := [], best := none, pendingSync := none, delay := 0, lastSync := none, ahead := 0 }
    hotSlices := [], hotPorts := [], sent := [], fetches := [], spills := [], awaiting := [], halts := [], dying := [], fresh := 1, draws := 0 }

end Sys2Proof.Machine
end

