-- ==== Sys2Proof/Machine/Table.lean ====
section
/-!
DEFINITION. Keyed tables and sparse byte memories: lookup, insertion and removal that keep keys
rising, and for memories the canonical form that lists no zero byte; little-endian numbers (R9).
-/

namespace Sys2Proof.Machine

/-! ### Tables -/

/-- The value at a key. -/
def tget {α : Type} : Tbl α → Nat → Option α
  | [], _ => none
  | (k, v) :: t, n => if k = n then some v else tget t n

/-- The table with a value at a key. -/
def tput {α : Type} : Tbl α → Nat → α → Tbl α
  | [], n, x => [(n, x)]
  | (k, v) :: t, n, x =>
      if n < k then (n, x) :: (k, v) :: t else if n = k then (n, x) :: t else (k, v) :: tput t n x

/-- The table without a key. -/
def tdel {α : Type} : Tbl α → Nat → Tbl α
  | [], _ => []
  | (k, v) :: t, n => if k = n then t else (k, v) :: tdel t n

/-- A change of the value at a key, starting from a default. -/
def tmod {α : Type} (t : Tbl α) (n : Nat) (d : α) (f : α → α) : Tbl α := tput t n (f ((tget t n).getD d))

/-- Every value of a table changed. -/
def tmap {α : Type} (t : Tbl α) (f : α → α) : Tbl α := t.map fun x => (x.1, f x.2)

/-- A counter in a table. -/
def tadd (t : Tbl Nat) (n k : Nat) : Tbl Nat := tmod t n 0 (· + k)

/-- An element put into its place. -/
def insertBy {α : Type} (le : α → α → Bool) (x : α) : List α → List α
  | [] => [x]
  | y :: ys => if le x y then x :: y :: ys else y :: insertBy le x ys

/-- A list in order; equal elements keep theirs. -/
def sortBy {α : Type} (le : α → α → Bool) (l : List α) : List α := l.foldr (insertBy le) []

/-- A list of numbers in ascending order, with one more. -/
def insertNat (n : Nat) : List Nat → List Nat
  | [] => [n]
  | m :: t => if n < m then n :: m :: t else if n = m then m :: t else m :: insertNat n t

/-- Keys strictly rising. -/
def tsorted {α : Type} : Tbl α → Bool
  | [] => true
  | [_] => true
  | (a, _) :: (b, y) :: t => decide (a < b) && tsorted ((b, y) :: t)

/-! ### Memories -/

/-- A byte of a memory; an unlisted address reads as 0 (notes/assumptions/1.md). -/
def mget : Memory → Nat → Byte
  | [], _ => 0
  | (k, v) :: t, a => if k = a then v else mget t a

/-- The memory with one byte written; a zero byte is not listed. -/
def mput : Memory → Nat → Byte → Memory
  | [], a, x => if x = 0 then [] else [(a, x)]
  | (k, v) :: t, a, x =>
      if a < k then (if x = 0 then (k, v) :: t else (a, x) :: (k, v) :: t)
      else if a = k then (if x = 0 then t else (a, x) :: t)
      else (k, v) :: mput t a x

/-- Consecutive bytes. -/
def mbytes (m : Memory) (a n : Nat) : List Byte := (upTo n).map fun i => mget m (a + i)

/-- Write consecutive bytes. -/
def mputs : Memory → Nat → List Byte → Memory
  | m, _, [] => m
  | m, a, b :: bs => mputs (mput m a b) (a + 1) bs

/-- Forget every byte in [lo, hi). -/
def merase (m : Memory) (lo hi : Nat) : Memory := m.filter fun c => decide (c.1 < lo) || decide (hi ≤ c.1)

/-- The canonical form: addresses strictly rising and no listed byte equal to 0. -/
def mwf : Memory → Bool
  | [] => true
  | [(_, v)] => v != 0
  | (a, v) :: (b, u) :: t => v != 0 && decide (a < b) && mwf ((b, u) :: t)

/-- The memory is in canonical form, so that equal memories are equal data. -/
abbrev Memory.wf (m : Memory) : Prop := mwf m = true

/-- A memory brought to canonical form: every listed byte written again, first listing standing. -/
def mcanon : Memory → Memory
  | [] => []
  | (a, v) :: t => mput (mcanon t) a v

/-! ### Little-endian numbers (R9) -/

/-- The number whose bytes, lowest first, are given. -/
def leNat : List Byte → Nat
  | [] => 0
  | b :: bs => b.toNat + 256 * leNat bs

/-- The lowest `n` bytes of a number, lowest first. -/
def natLe : Nat → Nat → List Byte
  | 0, _ => []
  | n + 1, v => BitVec.ofNat 8 v :: natLe n (v / 256)

/-- A number of `n` bytes at an address. -/
def mnat (m : Memory) (a n : Nat) : Nat := leNat (mbytes m a n)

/-- Bytes of a list from an offset, missing bytes 0. -/
def slice (bs : List Byte) (o n : Nat) : List Byte := (upTo n).map fun i => bs.getD (o + i) 0

/-- A little-endian field of a record. -/
def fieldAt (bs : List Byte) (o n : Nat) : Nat := leNat (slice bs o n)

/-- Bits hi … lo of a 64-bit word, as a number (R14). -/
def bitsOf (w : W64) (lo n : Nat) : Nat := (w.extractLsb' lo n).toNat

/-- A word with bits from `lo` replaced. -/
def setBits (w : W64) (lo n v : Nat) : W64 :=
  BitVec.ofNat 64 (w.toNat - bitsOf w lo n * 2 ^ lo + v % 2 ^ n * 2 ^ lo)

/-- R14 `SignExt`: the low `n` bits as a signed number. -/
def signExt (x n : Nat) : Int :=
  let y := x % 2 ^ n
  if n = 0 then 0 else if y < 2 ^ (n - 1) then y else (y : Int) - (2 : Int) ^ n

/-- An integer modulo 2^n. -/
def wrapNat (x : Int) (n : Nat) : Nat := (x % (2 : Int) ^ n).toNat

end Sys2Proof.Machine
end

