-- ==== Sys2Proof/Machine/Operands.lean ====
section
/-!
DEFINITION. What each instruction names: its guard, the register groups it reads and writes, its
barrier and lane-mask registers, its counter, class and privilege. The shared checks of R50 and the
interlock of R41 work from these lists.
-/

namespace Sys2Proof.Machine

/-- R27: the register `k` places above the lowest of a group; a w group that runs past w63 goes on at w0
(notes/assumptions/60.md). -/
def Reg.up (r : Reg) (k : Nat) : Reg :=
  match r with
  | .g n => .g (Fin.ofNat 128 (n.val + k))
  | .w n => .w (Fin.ofNat 64 (n.val + k))
  | .zero => .zero

/-- A register group: its lowest register and how many it spans. -/
abbrev Grp := Reg × Nat

/-- Two groups share a register of the same file. -/
def grpMeets (x y : Grp) : Bool :=
  match x.1, y.1 with
  | .g a, .g b => decide (a.val < b.val + y.2) && decide (b.val < a.val + x.2)
  | .w a, .w b => decide (a.val < b.val + y.2) && decide (b.val < a.val + x.2)
  | _, _ => false

/-- R28: a group reaches past the thread's register allocation. -/
def grpPast (regs : Nat) (x : Grp) : Bool :=
  match x.1 with
  | .g n => decide (regs < n.val + x.2)
  | _ => false

def grpIsW (x : Grp) : Bool := x.1.isW

/-- The guard of an encoded instruction. -/
def instrGuard : Instr → Option Guard
  | .nop x | .exit x | .yield x | .cont x | .mswp x | .frdn x | .eret x | .eretSkip x | .tlbiAll x
  | .cctlWball x | .cctlInv x => some x.g
  | .bra x | .call x => some x.g
  | .brx x | .callx x => some x.g
  | .ret x => some x.g
  | .join x | .leave x | .kmovClr x => some x.g
  | .waitm x => some x.g
  | .kmovMem x | .kmovArr x => some x.g
  | .kmovSet x => some x.g
  | .bkpt x | .trap x => some x.g
  | .waitc x => some x.g
  | .iadd x | .isub x | .imul x => some x.g
  | .imad x => some x.g
  | .imulh x | .imin x | .imax x | .and x | .or x | .xor x | .shl x | .bfe x => some x.g
  | .iabs x => some x.g
  | .lop3 x => some x.g
  | .shr x | .rot x => some x.g
  | .sel x => some x.g
  | .iaddi x | .imuli x => some x.g
  | .lopi x => some x.g
  | .movi x => some x.g
  | .movhi x => some x.g
  | .lea x => some x.g
  | .bfi x => some x.g
  | .popc x | .clz x | .brev x | .mov x | .fclass x => some x.g
  | .isetp x => some x.g
  | .pset x => some x.g
  | .fadd x | .fsub x | .fmul x | .fscale x => some x.g
  | .ffma x | .dot4 x | .dot2 x => some x.g
  | .frnd x | .frcp x | .frsq x | .fsqrt x | .fexp2 x | .flog2 x | .fsin x | .fcos x | .ftanh x => some x.g
  | .fmin x | .fmax x => some x.g
  | .fsetp x => some x.g
  | .hfma2 x => some x.g
  | .hadd2 x | .hmul2 x => some x.g
  | .cvt x => some x.g
  | .qscale x => some x.g
  | .pack x => some x.g
  | .unpack x => some x.g
  | .fxaadd x => some x.g
  | .fxacvt x => some x.g
  | .shfl x => some x.g
  | .vote x => some x.g
  | .matchLanes x => some x.g
  | .redux x => some x.g
  | .active x => some x.g
  | .prmt x => some x.g
  | .ld x => some x.g
  | .st x => some x.g
  | .lds x => some x.g
  | .sts x => some x.g
  | .ldw x => some x.g
  | .pref x => some x.g
  | .cctlWb x | .cctlEvl x => some x.g
  | .cctlWbr x => some x.g
  | .stbq x => some x.g
  | .drain x => some x.g
  | .atom x => some x.g
  | .red x => some x.g
  | .cas x => some x.g
  | .atoms x => some x.g
  | .fence x => some x.g
  | .wait x => some x.g
  | .ptime x | .mstat x | .mstatTags x | .frpt x | .crypNonce x | .crypSign x | .crypTinit x
  | .crypTmark x | .crypTrest x => some x.g
  | .ptimeUntil x | .wmark x | .penq x | .macw x | .macz x | .lnch x | .frq x | .frqNext x | .lease x
  | .leaseTime x | .meter x | .crypMeas x | .migrRound x | .migrStop x | .migrAbort x | .migrClose x => some x.g
  | .wmarkWait x => some x.g
  | .talloc x | .tstatWait x => some x.g
  | .tfree x => some x.g
  | .tstat x => some x.g
  | .tset x => some x.g
  | .cpy x => some x.g
  | .cpytLd x | .cpytSt x => some x.g
  | .cbld x => some x.g
  | .stage x | .stageMax x | .tlbiCtx x => some x.g
  | .snda x => some x.g
  | .sndf x => some x.g
  | .penqAdv x | .mnbr x | .price x | .priceSold x | .recallReq x | .halt x | .haltRun x | .haltStep x
  | .haltSave x | .crypTh x | .crypEmit x | .crypCert x | .migrOpen x | .migrLand x => some x.g
  | .cpyst x => some x.g
  | .mlds x | .mma x | .macr x => some x.g
  | .bari x => some x.g
  | .bara x | .barq x | .barqSt x => some x.g
  | .barw x => some x.g
  | .baraw x => some x.g
  | .bid x | .recallT x => some x.g
  | .purse x | .purseRate x | .purseCap x => some x.g
  | .csrr x => some x.g
  | .csrw x => some x.g
  | .tlbiVa x => some x.g
  | .qpop x => some x.g
  | .qpushRep x => some x.g
  | .qpushFwd x => some x.g
  | _ => none

def wide (b : Bool) : Nat := if b then 2 else 1

/-- The register groups an instruction reads. -/
def instrReads : Instr → List Grp
  | .brx x | .callx x => [(x.a, 2)]
  | .kmovSet x => [(x.a, 1)]
  | .iadd x | .isub x | .imul x => [(x.a, x.ty.words), (x.b, x.ty.words)]
  | .imad x => [(x.a, x.ty.words), (x.b, x.ty.words), (x.c, x.ty.words)]
  | .imulh x | .imin x | .imax x | .and x | .or x | .xor x => [(x.a, x.ty.words), (x.b, x.ty.words)]
  | .shl x | .bfe x => [(x.a, x.ty.words), (x.b, 1)]
  | .shr x | .rot x => [(x.a, x.ty.words), (x.b, 1)]
  | .iabs x => [(x.a, x.ty.words)]
  | .lop3 x => [(x.a, wide x.wide), (x.b, wide x.wide), (x.c, wide x.wide)]
  | .sel x => [(x.a, x.ty.words), (x.b, x.ty.words)]
  | .iaddi x | .imuli x => [(x.a, wide x.wide)]
  | .lopi x => [(x.a, wide x.wide)]
  | .lea x => [(x.a, 2), (x.b, 1)]
  | .bfi x => [(x.a, x.ty.words), (x.b, x.ty.words), (x.c, 1)]
  | .popc x | .clz x | .brev x | .mov x | .fclass x => [(x.a, x.ty.words)]
  | .isetp x => [(x.a, x.ty.words), (x.b, x.ty.words)]
  | .fadd x | .fsub x | .fmul x => [(x.a, x.m.ty.words), (x.b, x.m.ty.words)]
  | .fscale x => [(x.a, x.m.ty.words), (x.b, 1)]
  | .ffma x => [(x.a, x.m.ty.words), (x.b, x.m.ty.words), (x.c, x.m.ty.words)]
  | .dot4 x | .dot2 x => [(x.a, 1), (x.b, 1), (x.c, 1)]
  | .frnd x | .frcp x | .frsq x | .fsqrt x | .fexp2 x | .flog2 x | .fsin x | .fcos x | .ftanh x =>
      [(x.a, x.m.ty.words)]
  | .fmin x | .fmax x => [(x.a, x.ty.words), (x.b, x.ty.words)]
  | .fsetp x => [(x.a, x.ty.words), (x.b, x.ty.words)]
  | .hfma2 x => [(x.a, 1), (x.b, 1), (x.c, 1)]
  | .hadd2 x | .hmul2 x => [(x.a, 1), (x.b, 1)]
  | .cvt x => [(x.a, x.src.words)]
  | .qscale x => [(x.a, 1)]
  | .pack x => [(x.a, if x.ty = .f32 then 48 else 24), (x.b, 1)]
  | .unpack x => [(x.a, 6), (x.b, 1)]
  | .fxaadd x => [(x.a, 4), (x.b, 4)]
  | .fxacvt x =>
      match x.dir with
      | .into ty _ => [(x.a, ty.words), (x.b, 1)]
      | _ => [(x.a, 4), (x.b, 1)]
  | .shfl x =>
      match x.c with
      | .fallback r => [(x.a, x.ty.words), (x.b, 1), (r, x.ty.words)]
      | .found _ => [(x.a, x.ty.words), (x.b, 1)]
  | .matchLanes x => [(x.a, x.ty.words)]
  | .redux x => [(x.a, x.m.ty.words)]
  | .prmt x => [(x.a, 1), (x.b, 1), (x.c, 1)]
  | .ld x => [(x.base, 2)]
  | .st x => [(x.base, 2), (x.data, x.size.words)]
  | .lds x => [(x.base, 1)]
  | .sts x => [(x.base, 1), (x.data, x.size.words)]
  | .ldw x => [(x.base, if x.scratch then 1 else 2)]
  | .pref x => [(x.base, 2)]
  | .cctlWb x | .cctlEvl x => [(x.base, 2)]
  | .cctlWbr x => [(x.base, 2), (x.len, 1)]
  | .stbq x => [(x.base, 2), (x.data, x.size.words)]
  | .atom x => [(x.base, 2), (x.b, x.aty.words)]
  | .red x => [(x.base, 2), (x.b, x.aty.words)]
  | .cas x => [(x.base, 2), (x.b, 2 * x.aty.words)]
  | .atoms x => [(x.base, 1), (x.b, x.aty.words)]
  | .wait x => [(x.base, if x.scratch then 1 else 2), (x.b, x.ty.words)]
  | .ptimeUntil x | .wmark x | .lnch x => [(x.a, 2)]
  | .wmarkWait x => [(x.a, 2), (x.b, 2)]
  | .tset x => [(x.a, 1)]
  | .cpy x => [(x.src, 2), (x.dst, 2), (x.shape, 4)]
  | .cpytLd x | .cpytSt x =>
      [(match x.desc with | .mem r => (r, 2) | .regs r => (r, 16)), (x.coords, 4), (x.box, 2)]
  | .cpyst x => [(x.src, 2), (x.dst, 2), (x.sig, 4)]
  | .stage x | .stageMax x | .tlbiCtx x => [(x.a, 1)]
  | .snda x => [(x.row, if x.scratch then 1 else 2), (x.pen, 2), (x.alt, 2)]
  | .sndf x => [(x.rcd, 2)]
  | .penq x => [(x.a, 2)]
  | .penqAdv x => [(x.a, 2), (x.b, 1)]
  | .mlds x | .macr x => [(x.fw, 1), (x.ctl, 1)]
  | .mma x => [(x.fw, 1), (x.ctl, 2)]
  | .macw x | .macz x | .frq x | .frqNext x | .lease x | .leaseTime x | .meter x | .crypMeas x
  | .migrRound x | .migrStop x | .migrAbort x | .migrClose x => [(x.a, 1)]
  | .mnbr x | .price x | .priceSold x | .recallReq x | .halt x | .haltRun x | .haltStep x | .haltSave x
  | .crypCert x => [(x.a, 1), (x.b, 1)]
  | .crypTh x | .crypEmit x => [(x.a, 2), (x.b, 1)]
  | .migrOpen x | .migrLand x => [(x.a, 1), (x.b, 2)]
  | .bari x => [(x.a, 1)]
  | .barw x => [(x.a, 1)]
  | .bid x | .recallT x => [(x.a, 1), (x.b, 1), (x.c, 1)]
  | .purse x | .purseRate x | .purseCap x =>
      match x.tenant with
      | some r => [(r, 1)]
      | none => []
  | .csrw x => [(x.a, match csrInfo x.num with | some (k, _) => k | none => 1)]
  | .tlbiVa x => [(x.a, 2), (x.b, 1)]
  | .qpushRep x => [(x.a, 2)]
  | .qpushFwd x => [(x.a, 2), (x.b, 1)]
  | _ => []

/-- The register groups an instruction writes. -/
def instrWrites : Instr → List Grp
  | .waitm x => [(x.d, 1)]
  | .kmovMem x | .kmovArr x => [(x.d, 1)]
  | .iadd x | .isub x | .imul x => [(x.d, x.ty.words)]
  | .imad x => [(x.d, x.ty.words)]
  | .imulh x | .imin x | .imax x | .and x | .or x | .xor x | .shl x | .bfe x => [(x.d, x.ty.words)]
  | .shr x | .rot x => [(x.d, x.ty.words)]
  | .iabs x => [(x.d, x.ty.words)]
  | .lop3 x => [(x.d, wide x.wide)]
  | .sel x => [(x.d, x.ty.words)]
  | .iaddi x | .imuli x => [(x.d, wide x.wide)]
  | .lopi x => [(x.d, wide x.wide)]
  | .movi x => [(x.d, wide x.wide)]
  | .movhi x => [(x.d, 2)]
  | .lea x => [(x.d, 2)]
  | .bfi x => [(x.d, x.ty.words)]
  | .popc x | .clz x | .fclass x => [(x.d, 1)]
  | .brev x | .mov x => [(x.d, x.ty.words)]
  | .fadd x | .fsub x | .fmul x | .fscale x => [(x.d, x.m.ty.words)]
  | .ffma x => [(x.d, x.m.ty.words)]
  | .dot4 x | .dot2 x => [(x.d, 1)]
  | .frnd x | .frcp x | .frsq x | .fsqrt x | .fexp2 x | .flog2 x | .fsin x | .fcos x | .ftanh x =>
      [(x.d, x.m.ty.words)]
  | .fmin x | .fmax x => [(x.d, x.ty.words)]
  | .hfma2 x => [(x.d, 1)]
  | .hadd2 x | .hmul2 x => [(x.d, 1)]
  | .cvt x => [(x.d, x.m.ty.words)]
  | .qscale x => [(x.d, 1)]
  | .pack x => [(x.d, 6)]
  | .unpack x => [(x.d, if x.m.ty = .f32 then 16 else if x.m.ty = .e4m3 then 4 else 8)]
  | .fxaadd x => [(x.d, 4)]
  | .fxacvt x =>
      match x.dir with
      | .out m => [(x.d, m.ty.words)]
      | _ => [(x.d, 4)]
  | .shfl x => [(x.d, x.ty.words)]
  | .vote x =>
      match x.form with
      | .mask d | .count d | .first d => [(d, 1)]
      | _ => []
  | .matchLanes x => [(x.d, 1)]
  | .redux x => [(x.d, x.m.ty.words)]
  | .active x => [(x.d, 1)]
  | .prmt x => [(x.d, 1)]
  | .ld x => [(x.d, x.size.words)]
  | .lds x => [(x.d, x.size.words)]
  | .ldw x => [(x.d, x.size.words)]
  | .stbq x => [(x.d, 1)]
  | .drain x => [(x.d, 1)]
  | .atom x => [(x.d, x.aty.words)]
  | .cas x => [(x.d, x.aty.words)]
  | .atoms x => [(x.d, x.aty.words)]
  | .wait x => [(x.d, 1)]
  | .ptime x => [(x.d, 2)]
  | .frpt x => [(x.d, 4)]
  | .mstat x | .mstatTags x | .crypNonce x | .crypSign x | .crypTinit x | .crypTmark x | .crypTrest x => [(x.d, 1)]
  | .wmark x | .penq x | .lease x | .leaseTime x | .meter x => [(x.d, 2)]
  | .ptimeUntil x | .macw x | .macz x | .lnch x | .frq x | .frqNext x | .crypMeas x | .migrRound x
  | .migrStop x | .migrAbort x | .migrClose x => [(x.d, 1)]
  | .wmarkWait x => [(x.d, 1)]
  | .talloc x | .tstatWait x => [(x.d, 1)]
  | .tstat x => [(x.d, 1)]
  | .snda x => [(x.d, 1)]
  | .penqAdv x | .price x | .priceSold x => [(x.d, 2)]
  | .mnbr x | .recallReq x | .halt x | .haltRun x | .haltStep x | .haltSave x | .crypTh x | .crypEmit x
  | .crypCert x | .migrOpen x | .migrLand x => [(x.d, 1)]
  | .mlds x | .mma x | .macr x => [(x.d, 1)]
  | .bara x | .barq x | .barqSt x => [(x.d, 1)]
  | .barw x => [(x.d, 1)]
  | .baraw x => [(x.d, 1)]
  | .bid x | .recallT x => [(x.d, 1)]
  | .purse x | .purseRate x | .purseCap x => [(x.d, 1)]
  | .csrr x => [(x.d, match csrInfo x.num with | some (k, _) => k | none => 1)]
  | .qpop x => [(x.d, 2)]
  | _ => []

/-- R41, R278: the link pair that RET reads and CALL and CALLX write, in a workgroup of that many registers. -/
def instrLinks (i : Instr) (regs : Nat) : List Grp :=
  match i with
  | .ret _ | .call _ | .callx _ => [(.g (Fin.ofNat 128 (regs - 2)), 2)]
  | _ => []

/-- The barrier register an instruction names (R30). -/
def instrBar : Instr → Option Bar
  | .mlds x | .mma x | .macr x => some x.bar
  | .bari x => some x.bar
  | .bara x | .barq x | .barqSt x => some x.bar
  | .barw x => some x.bar
  | .baraw x => some x.bar
  | .cpy x => x.o.bar
  | .cpytLd x | .cpytSt x => x.bar
  | .cpyst x => x.bar
  | _ => none

/-- JOIN, LEAVE, WAITM and KMOV name a lane-mask register (R29, R277). -/
def instrUsesK : Instr → Bool
  | .join _ | .leave _ | .waitm _ | .kmovMem _ | .kmovArr _ | .kmovSet _ | .kmovClr _ => true
  | _ => false

/-- R29: the instruction names a w or k register. -/
def instrUsesWK (i : Instr) : Bool :=
  instrUsesK i || (instrReads i).any grpIsW || (instrWrites i).any grpIsW

/-- R38: the counter an instruction increments. -/
def instrCtr : Instr → Option Ctr
  | .ld _ | .lds _ | .ldw _ | .atom _ | .cas _ | .atoms _ => some .ld
  | .st _ | .sts _ | .red _ | .stbq _ => some .st
  | .cpy _ | .cpytLd _ | .cpytSt _ | .cpyst _ | .sndf _ => some .cp
  | .mlds _ | .mma _ | .macr _ | .macw _ | .macz _ => some .tl
  | _ => none

/-- R61, R34: instructions that only privileged code runs. -/
inductive Need where
  | none | priv | eret | csr | queue | management
  deriving DecidableEq, Repr

/-- What privilege an instruction asks (R61, R306, R380, R387, R393). -/
def instrNeed : Instr → Need
  | .eret _ | .eretSkip _ => .eret
  | .tlbiVa _ | .tlbiCtx _ | .tlbiAll _ | .halt _ | .haltRun _ | .haltStep _ | .haltSave _ | .migrOpen _
  | .migrRound _ | .migrStop _ | .migrLand _ | .migrAbort _ | .migrClose _ | .recallT _ => .priv
  | .csrr x => if 0x100 ≤ x.num.toNat then (if x.num.toNat < 0x110 then .csr else .priv) else .none
  | .csrw x => if 0x100 ≤ x.num.toNat then (if x.num.toNat < 0x110 then .csr else .priv) else .none
  | .qpop _ | .qpushRep _ | .qpushFwd _ => .queue
  | .crypTh _ | .crypEmit _ | .crypMeas _ | .crypNonce _ | .crypSign _ | .crypCert _ | .crypTinit _
  | .crypTmark _ | .crypTrest _ => .management
  | _ => .none

/-- The predicates an instruction reads besides its guard are never outstanding; only register
destinations of accesses are (R41). -/
def instrTouches (i : Instr) : List Grp := instrReads i ++ instrWrites i

end Sys2Proof.Machine
end

