-- ==== Sys2Proof/Machine/Ops.lean ====
section
/-!
DEFINITION. The named operations over the state: units and records, registers and flags, taking a
trap and returning from one, killing a context, rejecting a packet, and moving a group through its
clause.
-/

namespace Sys2Proof.Machine

/-! ### Numbering (R19, R20) -/

def tidCore (tid : Nat) : Nat := tid / 2048
def tidSlot (tid : Nat) : Nat := tid % 2048 / 32
def tidLane (tid : Nat) : Nat := tid % 32
def tidFlock (tid : Nat) : Nat := tid / 32
def mkTid (core slot lane : Nat) : Nat := core * 2048 + slot * 32 + lane
def coreQuad (c : Nat) : Nat := c / 4
def coreDie (c : Nat) : Nat := if c < 256 then c / 128 else c - 256
/-- The thread that runs a queue program (R302). -/
def cpTid (die : Nat) : Nat := 524288 + die * 2048
def isCp (tid : Nat) : Bool := decide (524288 ≤ tid)

/-- A flock of a workgroup, by its number. -/
def Wg.hasFlock (w : Wg) (f : Nat) : Bool :=
  decide (w.core * 64 + w.slot ≤ f) && decide (f < w.core * 64 + w.slot + w.nflock)

/-- An access that goes on without its threads (R399). -/
def Access.orphan (a : Access) : Access := { a with tids := [], nth := [] }

/-- R399: an access of a discarded context: writes on their way to their home stand. -/
def orphanIf (c : Nat) (a : Access) : Option Access :=
  if a.ctx ≠ c then some a
  else match a.op with
    | .load _ => none
    | _ => some a.orphan

/-- R399: an ordered operation that has left its source is applied, whatever becomes of its context. -/
def orphanOrd (c : Nat) (o : OrdOp) : OrdOp :=
  match o.work with
  | .access a => if a.ctx = c then { o with work := .access a.orphan } else o
  | _ => o

/-- R399: a core without what a discarded context had in it; copies in flight stay for `dropDying`. -/
def dropCtxCore (c : Nat) (ids : List Nat) (k : Core) : Core :=
  { k with
    sq := k.sq.filter fun a => a.ctx ≠ c
    sqHeld := k.sqHeld && (k.sq.head?.map (·.ctx)) ≠ some c
    wcb := k.wcb.filterMap fun w =>
      if w.ctx ≠ c then some w else if w.sent.isSome then some { w with stores := w.stores.map Access.orphan } else none
    cmds := k.cmds.filter fun m => m.ctx ≠ c || m.stage = .moving
    flushes := k.flushes.filter fun f => f.ctx ≠ c
    lists := k.lists.filter fun l => !ids.contains (l.1 / 16)
    tsets := k.tsets.filter fun t => !ids.contains t.wg
    loads := k.loads.filter fun w => !ids.contains w }

/-! ### Range entries (R369, R370) -/

def Range.valid (r : Range) : Bool := r.w0.getLsbD 0
def Range.base (r : Range) : Nat := bitsOf r.w0 16 32 * 65536
def Range.limit (r : Range) : Nat := bitsOf r.w1 16 32 * 65536
def Range.vd (r : Range) : Nat := bitsOf r.w2 16 6

/-! ### Records by number -/

namespace State

variable (s : State)

def thread (tid : Nat) : Thread := (tget s.threads tid).getD (.start 0 0)
def setThread (tid : Nat) (t : Thread) : State := { s with threads := tput s.threads tid t }
def modThread (tid : Nat) (f : Thread → Thread) : State := s.setThread tid (f (s.thread tid))

def flock (f : Nat) : Flock := (tget s.flocks f).getD .start
def setFlock (f : Nat) (x : Flock) : State := { s with flocks := tput s.flocks f x }
def modFlock (f : Nat) (g : Flock → Flock) : State := s.setFlock f (g (s.flock f))

/-- A workgroup that is not there has no registers, tiles or barriers. -/
def noWg : Wg :=
  { id := 0, core := 0, slot := 0, nflock := 0, ctx := 0, launch := 0, wgid := 0, point := 0, team := none
    regs := 0, bars := 0, tiles := 0, tile := [], scr := [], stage := 0, committed := false
    restartable := false, checked := false, prio := 0, argp := 0, argsz := 0, sched := 0, nsched := 0
    released := [], contrec := 0, halted := false }

def wg (w : Nat) : Wg := (tget s.wgs w).getD noWg
def setWg (w : Nat) (x : Wg) : State := { s with wgs := tput s.wgs w x }
def modWg (w : Nat) (f : Wg → Wg) : State := s.setWg w (f (s.wg w))
def wgOf (tid : Nat) : Wg := s.wg (s.thread tid).wg
def ctxOf (tid : Nat) : Nat := (s.wgOf tid).ctx

def core (c : Nat) : Core := (tget s.cores c).getD .idle
def setCore (c : Nat) (x : Core) : State := { s with cores := tput s.cores c x }
def modCore (c : Nat) (f : Core → Core) : State := s.setCore c (f (s.core c))

def quad (q : Nat) : Quad := (tget s.quads q).getD .idle
def setQuad (q : Nat) (x : Quad) : State := { s with quads := tput s.quads q x }
def modQuad (q : Nat) (f : Quad → Quad) : State := s.setQuad q (f (s.quad q))

def ctx (c : Nat) : Ctx := (tget s.ctxs c).getD .zero
def setCtx (c : Nat) (x : Ctx) : State := { s with ctxs := tput s.ctxs c x }
def modCtx (c : Nat) (f : Ctx → Ctx) : State := s.setCtx c (f (s.ctx c))

def vd (v : Nat) : Vd := (tget s.vds v).getD .zero
def setVd (v : Nat) (x : Vd) : State := { s with vds := tput s.vds v x }
def modVd (v : Nat) (f : Vd → Vd) : State := s.setVd v (f (s.vd v))

def tenant (t : Nat) : Tenant := (tget s.tenants t).getD .zero
def modTenant (t : Nat) (f : Tenant → Tenant) : State := { s with tenants := tput s.tenants t (f (s.tenant t)) }

def queue (q : Nat) : Queue := (tget s.queues q).getD .zero
def setQueue (q : Nat) (x : Queue) : State := { s with queues := tput s.queues q x }
def modQueue (q : Nat) (f : Queue → Queue) : State := s.setQueue q (f (s.queue q))

def range (r : Nat) : Range := (tget s.ranges r).getD .zero
def port (p : Nat) : PortIn := (tget s.ports p).getD .zero
def setPort (p : Nat) (x : PortIn) : State := { s with ports := tput s.ports p x }
def recv (r : Nat) : Recv := (tget s.recvs r).getD .zero
def setRecv (r : Nat) (x : Recv) : State := { s with recvs := tput s.recvs r x }

/-- R392: fields of CTL. -/
def ctl (c : Nat) : W64 := (s.ctx c).words.ctl
def active (c : Nat) : Bool := (s.ctl c).getLsbD 0
def ctxPriv (c : Nat) : Bool := (s.ctl c).getLsbD 1
def ctxChecked (c : Nat) : Bool := (s.ctl c).getLsbD 2
def ctxDebug (c : Nat) : Bool := (s.ctl c).getLsbD 3
def ctxVd (c : Nat) : Nat := bitsOf (s.ctl c) 8 6
/-- R354: the tenant of a virtual device and of a context. -/
def vdTenant (v : Nat) : Nat := bitsOf (s.vd v).word 8 8
def ctxTenant (c : Nat) : Nat := s.vdTenant (s.ctxVd c)

/-- The launch with an identity. -/
def launch? (l : Nat) : Option Launch := s.launches.find? fun x => x.id = l

def modLaunch (l : Nat) (f : Launch → Launch) : State :=
  { s with launches := s.launches.map fun x => if x.id = l then f x else x }

/-- A fresh identity. -/
def newId : Nat × State := (s.fresh, { s with fresh := s.fresh + 1 })

/-- R344: a meter, and one more event on it. -/
def meterKey (view subj ctr : Nat) : Nat := view * 2 ^ 24 + subj * 2 ^ 8 + ctr
def meter (view subj ctr : Nat) : Nat := (tget s.meters (meterKey view subj ctr)).getD 0
def bump (view subj ctr n : Nat) : State := { s with meters := tadd s.meters (meterKey view subj ctr) n }

/-- An event of a context's error meter, which its tenant's counter 9 also counts (R344). -/
def ctxError (c : Nat) : State := (s.bump 2 c 0 1).bump 0 (s.ctxTenant c) 9 1
/-- An event of a virtual device's error meter (R301). -/
def vdError (v : Nat) : State :=
  (s.modVd v fun x => { x with errors := x.errors + 1 }).bump 0 (s.vdTenant v) 9 1

/-! ### Registers (R26 to R29, R58) -/

/-- A 32-bit register; 0xC0 reads zero. -/
def rd (tid : Nat) (r : Reg) : W32 :=
  match r with
  | .g n => (s.thread tid).g.get n
  | .w n => (s.flock (tidFlock tid)).w.get n
  | .zero => 0

/-- R27: a group of registers as one number, lowest register lowest. -/
def rdN (tid : Nat) (r : Reg) : Nat → Nat
  | 0 => 0
  | k + 1 => rdN tid r k + (s.rd tid (Reg.up r k)).toNat * 2 ^ (32 * k)

def rd64 (tid : Nat) (r : Reg) : W64 := BitVec.ofNat 64 (s.rdN tid r 2)

/-- Write a 32-bit register; writing 0xC0 discards. -/
def wr (tid : Nat) (r : Reg) (v : W32) : State :=
  match r with
  | .g n => s.modThread tid fun t => { t with g := t.g.set n v }
  | .w n => s.modFlock (tidFlock tid) fun f => { f with w := f.w.set n v }
  | .zero => s

/-- Write a group of registers from one number. -/
def wrN (tid : Nat) (r : Reg) (k v : Nat) : State :=
  (upTo k).foldl (fun s i => s.wr tid (Reg.up r i) (BitVec.ofNat 32 (v / 2 ^ (32 * i)))) s

/-- R26: p7 reads 1. -/
def rdP (tid : Nat) (p : Pred) : Bool := if p.val = 7 then true else (s.thread tid).p.getLsbD p.val

/-- A predicate written; p7 discards. -/
def predSet (ps : BitVec 7) (p : Pred) (b : Bool) : BitVec 7 :=
  if b then ps ||| (1#7 <<< p.val) else ps &&& ~~~(1#7 <<< p.val)

def wrP (tid : Nat) (p : Pred) (b : Bool) : State :=
  if p.val = 7 then s else s.modThread tid fun t => { t with p := predSet t.p p b }

/-- R52: the guard of a thread. -/
def guardTrue (tid : Nat) (g : Guard) : Bool := s.rdP tid g.p != g.neg

/-! ### Flags (R35, R36) -/

/-- Flags raised by an instruction of a thread enter its core's set for the context. -/
def raise (core ctx : Nat) (f : BitVec 7) : State :=
  if f = 0 then s
  else s.modCore core fun c => { c with fstat := tmod c.fstat ctx 0 (· ||| f) }

def coreFlags (core ctx : Nat) : BitVec 7 := (tget (s.core core).fstat ctx).getD 0

/-- R36: a core's set is merged into the context-wide set, and holds from then on only flags not yet merged
(notes/assumptions/53.md). -/
def mergeFlags (core ctx : Nat) : State :=
  (s.modCtx ctx fun c => { c with fstat := c.fstat ||| s.coreFlags core ctx }).modCore core fun k =>
    { k with fstat := tdel k.fstat ctx }

/-! ### Counters (R37, R38) -/

end State

/-- The counter of a kind. -/
def Thread.ctr (t : Thread) : Ctr → Nat
  | .ld => t.ld | .st => t.stc | .cp => t.cp | .tl => t.tl

/-- Operations issued on a counter so far (R199). -/
def Thread.nth (t : Thread) : Ctr → Nat
  | .ld => t.nld | .st => t.nst | .cp => t.ncp | .tl => 0

def Thread.count (t : Thread) : Ctr → Thread
  | .ld => { t with ld := t.ld + 1, nld := t.nld + 1 }
  | .st => { t with stc := t.stc + 1, nst := t.nst + 1 }
  | .cp => { t with cp := t.cp + 1, ncp := t.ncp + 1 }
  | .tl => { t with tl := t.tl + 1 }

def Thread.uncount (t : Thread) : Ctr → Thread
  | .ld => { t with ld := t.ld - 1 }
  | .st => { t with stc := t.stc - 1 }
  | .cp => { t with cp := t.cp - 1 }
  | .tl => { t with tl := t.tl - 1 }

/-- R37: %ocnt. -/
def Thread.ocnt (t : Thread) : W32 := BitVec.ofNat 32 (t.tl * 2 ^ 18 + t.cp * 2 ^ 12 + t.stc * 2 ^ 6 + t.ld)

/-- R44: fields of a clause header. -/
def hdrN (h : W64) : Nat := bitsOf h 56 4
def hdrCls (h : W64) : Nat := bitsOf h 53 3
def hdrWld (h : W64) : Nat := bitsOf h 49 4
def hdrWst (h : W64) : Nat := bitsOf h 45 4
def hdrWcp (h : W64) : Nat := bitsOf h 41 4
def hdrWtl (h : W64) : Nat := bitsOf h 37 4
def hdrFu (h : W64) : Bool := h.getLsbD 36
def hdrYld (h : W64) : Bool := h.getLsbD 35

/-- R45: the address of the clause after one. -/
def nextClause (pc hdr : W64) : W64 := pc + BitVec.ofNat 64 (8 * (hdrN hdr + 2))

/-- R384: trap codes. -/
def tcIllegalInsn : Nat := 0x01
def tcIllegalClause : Nat := 0x02
def tcRegRange : Nat := 0x03
def tcMisaligned : Nat := 0x04
def tcPageInvalid : Nat := 0x05
def tcProtection : Nat := 0x06
def tcRangeFault : Nat := 0x07
def tcFormatDivergence : Nat := 0x08
def tcUniformity : Nat := 0x09
def tcCopyBounds : Nat := 0x0A
def tcCopyOverflow : Nat := 0x0B
def tcTileState : Nat := 0x0C
def tcBarrierQuota : Nat := 0x0D
def tcBackpressure : Nat := 0x0E
def tcSpillQuota : Nat := 0x0F
def tcSoftware : Nat := 0x10
def tcBreakpoint : Nat := 0x11
def tcOrderLate : Nat := 0x12
def tcStalledWatermark : Nat := 0x13
def tcLaunchInvalid : Nat := 0x14
def tcFrontierInvalid : Nat := 0x15
def tcPoison : Nat := 0x16
def tcSheepdog : Nat := 0x17
def tcQueueBudget : Nat := 0x18
def tcPriv : Nat := 0x19
def tcScratchBounds : Nat := 0x1A
def tcFormatInvalid : Nat := 0x1B
def tcPeerUnreachable : Nat := 0x1C

/-- R383: a trap record. -/
def mkRec (code : Nat) (pc : W64) (idx : Nat) (addr : W64) : TrapRec :=
  { tcode := BitVec.ofNat 32 code, tpc := pc, tidx := BitVec.ofNat 32 idx, taddr := addr, tapc := pc, tinfo := 0 }

/-- R383: the record of a deferred error at its reporting instruction. -/
def errRec (e : DefErr) (pc : W64) (idx : Nat) (defer : Bool) : TrapRec :=
  { tcode := BitVec.ofNat 32 (e.code + (if defer then 2 ^ 9 else 0) + (if e.again.isSome then 2 ^ 10 else 0))
    tpc := pc, tidx := BitVec.ofNat 32 idx, taddr := e.addr, tapc := e.apc
    tinfo := BitVec.ofNat 64 (e.onode * 2 ^ 52 + e.oport * 2 ^ 40 + e.entry * 2 ^ 32 + e.aidx) }

namespace State

variable (s : State)

/-! ### Groups -/

/-- The lane-mask registers' flock state when a group of an FU clause stands at an index (R272). -/
def markFu (g : Group) : State :=
  if hdrFu g.hdr then
    match g.members with
    | [] => s
    | t :: _ => s.modFlock (tidFlock t) fun f => { f with fu := some (g.pc, g.idx) }
  else s

/-- R272: the flock state becomes invalid. -/
def clearFu (g : Group) : State :=
  if hdrFu g.hdr then
    match g.members with
    | [] => s
    | t :: _ => s.modFlock (tidFlock t) fun f => { f with fu := none }
  else s

/-- A thread ready at a clause. -/
def readyAt (tid : Nat) (pc : W64) (idx : Nat) : State :=
  s.modThread tid fun t => { t with pc, idx, st := .ready, age := s.cyc, stallFrom := none, fullFrom := none }

/-- The groups of the package, the current one first. -/
def allGroups : List Group := s.cur.toList ++ s.groups

/-- R271: a thread stands in a group that is blocked as a whole. -/
def groupBlocked (tid : Nat) : Bool := s.allGroups.any fun g => g.blocked && g.members.contains tid

/-- Members of a group change the state in which they stand. -/
def membersAt (g : Group) (from_ into : TState) : State :=
  g.members.foldl (fun s t => s.modThread t fun x => if x.st = from_ then { x with st := into } else x) s

/-- R271, R276: every remaining member becomes ready at its next clause. -/
def endClause (g : Group) (nextPc : Nat → W64) : State :=
  let s := s.clearFu g
  let gives := g.yielding || hdrYld g.hdr
  g.members.foldl (fun s t =>
    (s.readyAt t (nextPc t) 0).modThread t fun x =>
      { x with stepping := false, yielded := if gives then some s.cyc else none }) s

/-- A thread of a held group goes on: it is stalled, or blocked in no wait of its own (R201). -/
def unheld (x : Thread) : TState :=
  if x.st = .stalled || (x.st = .blocked && x.wait.isNone) then .running else x.st

/-- The stall of a group's members is over. -/
def clearStall (g : Group) : State :=
  if g.stalled then
    g.members.foldl (fun s t => s.modThread t fun x => { x with st := unheld x, stallFrom := none, fullFrom := none }) s
  else s

/-- The group after its instruction: at the next index, or ended at the end of its clause. -/
def advanceGroup (g : Group) : Option Group × State :=
  let s := s.clearStall g
  let s := if g.blocked then s.membersAt g .blocked .running else s
  if g.idx < hdrN g.hdr then
    let g := { g with idx := g.idx + 1, blocked := false, stalled := false, part := [] }
    (some g, s.markFu g)
  else (none, s.endClause g fun _ => nextClause g.pc g.hdr)

/-- The current group moves past its instruction. -/
def advance : State :=
  match s.cur with
  | none => s
  | some g =>
    let (g', s) := s.advanceGroup g
    { s with cur := g' }

/-- The current group is held at its instruction (R269): no effect, and it issues again. -/
def stall : State :=
  match s.cur with
  | none => s
  | some g =>
    let s := { s with cur := some { g with stalled := true } }.membersAt g .running .stalled
    g.members.foldl (fun s t => s.modThread t fun x =>
      { x with stallFrom := some (x.stallFrom.getD s.cyc) }) s

/-- R201, R269: what keeps the current group from its instruction is a memory wait, or WAITC's: its threads are
blocked. -/
def blockHeld : State :=
  match s.cur with
  | none => s
  | some g => (s.membersAt g .running .blocked).membersAt g .stalled .blocked

/-- R201, R269: the current group is blocked at its instruction until it can be performed, and then issues again. -/
def holdBlocked : State := s.blockHeld.stall

/-- R201, R271: the current group has issued its instruction and waits on its members: all of it is blocked. -/
def block : State :=
  match s.cur with
  | none => s
  | some g =>
    { (s.clearStall g).membersAt g .running .blocked with cur := some { g with blocked := true, stalled := false } }

/-- A group without a thread; none when it is empty. -/
def Group.drop (g : Group) (tid : Nat) : Option Group :=
  let m := g.members.filter (· ≠ tid)
  if m = [] then none else some { g with members := m }

/-- A thread leaves whatever group it stands in; an FU clause left by its last member ends. -/
def leaveGroups (tid : Nat) : State :=
  let s := match s.cur with
    | none => s
    | some g =>
      if g.members.contains tid then
        match Group.drop g tid with
        | some g' => { s with cur := some g' }
        | none => { s.clearFu g with cur := none }
      else s
  let gone := s.groups.filter fun g => g.members = [tid]
  let s := gone.foldl (fun s g => s.clearFu g) s
  { s with groups := s.groups.filterMap fun g => if g.members.contains tid then Group.drop g tid else some g }

/-- Where a thread stands: its group's clause and index while it runs. -/
def placeOf (tid : Nat) : W64 × Nat :=
  match (s.cur.toList ++ s.groups).find? fun g => g.members.contains tid with
  | some g => (g.pc, g.idx)
  | none => ((s.thread tid).pc, (s.thread tid).idx)

/-! ### Kills and rejections (R303, R305, R386, R399) -/

/-- R398, R399: poison in the registers of threads and flocks that are gone, and in discarded stores, is gone with
them. -/
def dropPoison (tids ids : List Nat) (flock : Nat → Bool) : State :=
  if s.poison = [] then s
  else
    { s with poison := s.poison.filter fun p => match p with
        | .reg t r => if r < 1000 then !tids.contains t else !flock t
        | .store n => !ids.contains n
        | _ => true }

/-- The stores of a context that a kill discards: queued ones, and those of buffer entries not yet sent. -/
def storesLost (c : Nat) : List Nat :=
  s.cores.flatMap fun k => ((k.2.sq.filter fun a => a.ctx = c) ++
    (k.2.wcb.filter fun w => w.ctx = c && w.sent.isNone).flatMap (·.stores)).map (·.id)

/-- R36, R355: every core's flag set of a context enters the context-wide set. -/
def mergeAll (c : Nat) : State :=
  ((s.cores.filter fun k => (tget k.2.fstat c).isSome).map (·.1)).foldl (fun s k => s.mergeFlags k c) s

/-- R399: everything of a context that is not in memory is discarded; its threads stop at once. What its
abandoned copies still read goes at the end of the step (`dropDying`). The quads it held are free, so the flag sets
of its cores are merged first (R355). -/
def discardCtx (c : Nat) : State :=
  let s := s.mergeAll c
  let gone := s.wgs.filter fun x => x.2.ctx = c && x.2.core < 256
  let ids := gone.map (·.1)
  let tids := (s.threads.filter fun x => ids.contains x.2.wg).map (·.1)
  let s := tids.foldl (fun s t => s.leaveGroups t) s
  let s := s.dropPoison tids (s.storesLost c) fun f => gone.any fun w => w.2.hasFlock f
  let s := { s with
    threads := s.threads.filter fun x => !ids.contains x.2.wg
    flocks := s.flocks.filter fun f => !gone.any fun w => w.2.hasFlock f.1
    bars := s.bars.filter fun b => b.2.ctx ≠ c
    launches := s.launches.filter fun l => l.ctx ≠ c
    saved := s.saved.filter fun x => x.ctx ≠ c
    accs := s.accs.filterMap (orphanIf c)
    ords := s.ords.map (orphanOrd c)
    quads := tmap s.quads fun q =>
      if q.ctx = some c then { q with ctx := none, reqs := [], table := [], role := 0 } else q
    cores := tmap s.cores (dropCtxCore c ids)
    fetches := s.fetches.filter fun x => x.1 ≠ c
    spills := s.spills.filter (· ≠ c)
    dying := c :: s.dying }
  s.modCtx c fun x => { x with still := none }

/-- R399: the 64-byte kill record. -/
def killRecord (c reason tcode struct : Nat) (paddr : Nat) (vaddr : W64) : List Byte :=
  natLe 8 (c + reason * 2 ^ 16 + tcode * 2 ^ 32 + struct * 2 ^ 40) ++ natLe 8 vaddr.toNat ++ natLe 8 paddr
    ++ natLe 8 s.now ++ List.replicate 32 0

/-- The pod key of an offset in this package's memory. -/
def local_ (off : Nat) : Nat := s.node.toNat * 2 ^ 48 + off

/-- The valid range that holds a device physical address. -/
def rangeAt (off : Nat) : Option (Nat × Range) :=
  s.ranges.find? fun r => r.2.valid && decide (r.2.base ≤ off) && decide (off < r.2.limit)

/-- R372: a valid range holds every byte of a span, as an access of a system agent asks. -/
def systemOk (off n : Nat) : Bool := (s.rangeAt off).isSome && (s.rangeAt (off + n - 1)).isSome

/-- The record is written at KREC, if there is one and the address passes R372, and sent on the management queue. -/
def sendKill (c : Nat) (rcd : List Byte) : State :=
  let k := (s.ctx c).words.krec
  let s := if k = 0 || !s.systemOk k.toNat rcd.length then s else { s with mem := mputs s.mem (s.local_ k.toNat) rcd }
  { s with sent := s.sent ++ [.killRecord (s.ctxVd c) rcd] }

/-- R399: a kill of a context. -/
def kill (c reason tcode struct paddr : Nat) (vaddr : W64) : State :=
  let rcd := s.killRecord c reason tcode struct paddr vaddr
  let s := s.discardCtx c
  let s := s.modCtx c fun x =>
    { x with words := { x.words with ctl := (x.words.ctl &&& ~~~1) ||| 0x20 }, killedAt := some s.cyc }
  let s := (s.sendKill c rcd).ctxError c
  { s with errc := { s.errc with killed := s.errc.killed + 1 } }

/-- R305: the reply words of a run. -/
def replyWord0 (r : Run) (code : Nat) (rejected : Bool) : W64 :=
  let n := if rejected then 0 else (r.held.filter fun h => match h with | .launch _ => true | _ => false).length
  BitVec.ofNat 64 (r.count * 2 ^ 32 + n * 2 ^ 16 + code * 2 ^ 8 + (if rejected then 7 else 0))

/-- R304: an access whose run has ended: what it writes at its home is not undone. -/
def endedAcc (a : Access) : Option Access :=
  match a.op with
  | .load _ | .penq none => none
  | _ => some a.orphan

/-- The command processor's thread and its run are gone. -/
def endRun (die : Nat) : State :=
  let tid := cpTid die
  let w := (s.thread tid).wg
  let s := s.leaveGroups tid
  { s with threads := tdel s.threads tid, flocks := tdel s.flocks (tidFlock tid), wgs := tdel s.wgs w
           runs := tdel s.runs die
           accs := s.accs.filterMap fun a => if a.tids.contains tid then endedAcc a else some a
           ords := s.ords.map fun o => match o.work with
             | .access a => if a.tids.contains tid then { o with work := .access a.orphan } else o
             | _ => o }

/-- R303, R305: the packet of a run is rejected with a trap code: held effects are discarded and every
reservation released. -/
def reject (die code : Nat) : State :=
  match tget s.runs die with
  | none => s
  | some r =>
    let ids := r.held.filterMap fun h => match h with | .launch l => some l | _ => none
    let s := s.endRun die
    { s with
      launches := s.launches.filter fun l => !ids.contains l.id
      sent := s.sent ++ [.reply r.packet.from_ r.packet.seq [replyWord0 r code true]] }

/-! ### Taking a trap and returning from it (R383 to R387) -/

/-- The waits of a workgroup's threads, changed by what is done to their deadlines. -/
def shiftWaits (w : Nat) (f : Nat → Nat) : State :=
  { s with threads := tmap s.threads fun t =>
      if t.wg = w then
        { t with wait := match t.wait with
            | some x => some { x with deadline := x.deadline.map f }
            | none => none }
      else t }

/-- R401: a workgroup is halted; while it is, its waits hold the cycles they have left. -/
def haltWg (w : Nat) : State :=
  if (s.wg w).halted then s else (s.shiftWaits w (· - s.cyc)).modWg w fun x => { x with halted := true }

/-- R401: a halted workgroup goes on, and its waits count again. -/
def resumeWg (w : Nat) : State :=
  if (s.wg w).halted then (s.shiftWaits w (s.cyc + ·)).modWg w fun x => { x with halted := false } else s

/-- R383: the thread is parked with its record; a queue program's packet is rejected instead (R303), and
a context without a handler, a thread already in handler mode, or poison kills the context (R386). A thread that
an earlier kill has taken away takes no trap. -/
def trapWith (tid : Nat) (r : TrapRec) : State :=
  let t := s.thread tid
  let c := s.ctxOf tid
  let code := (r.tcode.extractLsb' 0 8).toNat
  if (tget s.threads tid).isNone then s.leaveGroups tid
  else if isCp tid then s.reject (tidCore tid - 256) code
  else if code = tcPoison then s.kill c 1 0 7 0 r.taddr
  else
    let debug := code = tcBreakpoint && s.ctxDebug c
    if t.handler then s.kill c 3 code 7 0 r.tpc
    else if (s.ctx c).words.handlerPc = 0 then s.kill c 2 code 7 0 r.tpc
    else
      let s := s.leaveGroups tid
      let s := s.modThread tid fun t => { t with st := .parked, trapped := true, trap := r, wait := none, carry := none, met := none
                                                 retry := none, tlbi := none, pc := r.tpc, idx := r.tidx.toNat % 16, stallFrom := none
                                                 fullFrom := none }
      if debug then s.haltWg t.wg else s

/-- A precise trap at the instruction a thread stands at. -/
def trap (tid code : Nat) (addr : W64) : State :=
  let (pc, idx) := s.placeOf tid
  s.trapWith tid (mkRec code pc idx addr)

/-- R296: a trap with an immediate. -/
def trapImm (tid code : Nat) (imm : BitVec 16) : State :=
  let (pc, idx) := s.placeOf tid
  let r := mkRec code pc idx 0
  s.trapWith tid { r with tcode := BitVec.ofNat 32 (code + imm.toNat * 2 ^ 16) }

/-- R48, R49: a trap recorded at a clause, with no instruction issued. -/
def trapClause (tid code : Nat) (pc : W64) (idx : Nat) (imm : Nat) (addr : W64) : State :=
  let r := mkRec code pc idx addr
  s.trapWith tid { r with tcode := BitVec.ofNat 32 (code + 2 ^ 8 + imm * 2 ^ 16) }

/-- R199, R249: a thread takes its oldest deferred error at the instruction it stands at. -/
def takeDeferred (tid : Nat) (e : DefErr) : State :=
  let (pc, idx) := s.placeOf tid
  let s := s.modThread tid fun t => { t with errs := t.errs.filter fun x => x.id ≠ e.id }
  let s := if e.lowers then s.modThread tid fun t => t.uncount .cp else s
  let s := s.trapWith tid (errRec e pc idx true)
  match tget s.threads tid with
  | some t => s.setThread tid { t with retry := e.again }
  | none => s

/-- R45: a clause address as the core forms it, in 8-byte words: bits [2:0] of what software wrote in HANDLER,
or in %tpc, do not count (notes/assumptions/54.md). -/
def clauseAddr (a : W64) : W64 := a &&& ~~~7#64

/-- R385: the parked threads of a workgroup enter handler mode. -/
def enterHandler (w : Nat) : State :=
  let h := clauseAddr (s.ctx (s.wg w).ctx).words.handlerPc
  let ts := (s.threads.filter fun x => x.2.wg = w && x.2.st = .parked && x.2.trapped && !x.2.handler).map (·.1)
  ts.foldl (fun s t => s.modThread t fun x =>
    { x with st := .ready, handler := true, pc := h, idx := 0, age := s.cyc }) s

/-- R387: a thread leaves handler mode at a resume point. -/
def leaveHandler (tid : Nat) (pc : W64) (idx : Nat) : State :=
  let s := s.leaveGroups tid
  s.modThread tid fun t => { t with handler := false, trapped := false, st := .ready, pc := clauseAddr pc, idx, age := s.cyc }

/-! ### Poison (R398) -/

def poisonedReg (tid : Nat) (x : Grp) : Bool :=
  match x.1 with
  | .g n => (upTo x.2).any fun i => s.poison.contains (.reg tid (n.val + i))
  | .w n => (upTo x.2).any fun i => s.poison.contains (.reg (tidFlock tid) (1000 + n.val + i))
  | .zero => false

/-- A whole register written loses its poison. -/
def cleanRegs (tid : Nat) (xs : List Grp) : State :=
  if s.poison = [] then s
  else
    { s with poison := s.poison.filter fun p => !xs.any fun x => match x.1, p with
        | .g n, .reg t r => t = tid && decide (n.val ≤ r) && decide (r < n.val + x.2)
        | .w n, .reg t r => t = tidFlock tid && decide (1000 + n.val ≤ r) && decide (r < 1000 + n.val + x.2)
        | _, _ => false }

/-- Write a load's or wait's destination. A w group belongs to the flock (R29). -/
def wrD (tid : Nat) (d : Reg) (k v : Nat) : State := (s.wrN tid d k v).cleanRegs tid [(d, k)]

/-- A wait that a stop had left some cycles is over. -/
def waited (tid : Nat) : State :=
  if (s.thread tid).carry.isSome then s.modThread tid fun t => { t with carry := none } else s

/-- A status code written (R148, R202, R287). -/
def status (tid : Nat) (d : Reg) (code : Nat) : State := (s.waited tid).wrD tid d 1 code

end State

end Sys2Proof.Machine
end

