-- ==== Sys2Proof/Machine/Clause.lean ====
section
/-!
DEFINITION. Clauses as words (02 R44 to R48, R60): the header's form, an opcode's engine class, what a
clause may hold, and the queue profile (R70).
-/

namespace Sys2Proof.Machine

/-- R44: a header in form. -/
def headerOk (h : W64) : Bool := bitsOf h 60 4 = 0xA && hdrCls h ≠ 7 && bitsOf h 0 35 = 0

/-- R60: the opcode of a word. -/
def wordOp (w : W64) : Nat := bitsOf w 56 8

/-- R60: opcodes that the table leaves reserved. -/
def opReserved (op : Nat) : Bool :=
  [0x23, 0x2F, 0x3F, 0x4E, 0x4F].contains op || (decide (0x56 ≤ op) && decide (op ≤ 0x5F)) ||
    (decide (0x69 ≤ op) && decide (op ≤ 0x6F)) || (decide (0x78 ≤ op) && decide (op ≤ 0x7F)) ||
    (decide (0x8C ≤ op) && decide (op ≤ 0x8F)) || (decide (0x98 ≤ op) && decide (op ≤ 0xAF)) ||
    (decide (0xB9 ≤ op) && decide (op ≤ 0xBF)) || (decide (0xC6 ≤ op) && decide (op ≤ 0xCF)) || decide (0xD9 ≤ op)

/-- R60: the engine class of an opcode that has one. -/
def opClass (op : Nat) : Option Nat :=
  if opReserved op then none
  else some (match op / 16 with
    | 0x0 | 0xB => 4
    | 0x6 | 0x7 => 1
    | 0x8 => 3
    | 0x9 => 2
    | 0xC | 0xD => 5
    | _ => 0)

/-- R47: the closers. -/
def opCloser (op : Nat) : Bool := (decide (1 ≤ op) && decide (op ≤ 6)) || op = 0xF

/-- R47, R48: one word at an index of a clause with header h. -/
def wordFits (h : W64) (i : Nat) (w : W64) : Bool :=
  let op := wordOp w
  op / 16 ≠ 0xA && !(opCloser op && i ≠ hdrN h) &&
    (hdrCls h = 6 || op = 0 || opCloser op ||
      match opClass op with
      | some c => c = hdrCls h
      | none => true)

/-- R44, R47, R48: a whole clause in form. -/
def clauseOk (h : W64) (ws : List W64) : Bool :=
  headerOk h && ws.length = hdrN h + 1 && (ws.zip (upTo ws.length)).all fun x => wordFits h x.2 x.1

/-! ### The queue profile (R70) -/

/-- R70: an instruction that a queue program may hold. -/
def profileInstr : Instr → Bool
  | .nop _ | .exit _ | .qpop _ | .qpushRep _ | .qpushFwd _ | .lnch _ | .bid _ => true
  | .bra x => decide (1 ≤ x.tgt.toInt)
  | .ld x => match x.acq with | some .pod | some .sys => false | _ => true
  | .st x => !x.ord && match x.rel with | some .pod | some .sys => false | _ => true
  | .migrOpen _ | .migrRound _ | .migrStop _ | .migrLand _ | .migrAbort _ | .migrClose _ => true
  | .crypTh _ | .crypEmit _ | .crypMeas _ | .crypNonce _ | .crypSign _ | .crypCert _ | .crypTinit _
  | .crypTmark _ | .crypTrest _ => true
  | .iadd _ | .isub _ | .imul _ | .imulh _ | .imad _ | .imin _ | .imax _ | .iabs _ | .and _ | .or _ | .xor _
  | .lop3 _ | .shl _ | .shr _ | .rot _ | .sel _ | .iaddi _ | .imuli _ | .lopi _ | .movi _ | .movhi _ | .lea _
  | .bfe _ | .bfi _ | .popc _ | .clz _ | .brev _ | .mov _ | .isetp _ | .pset _ => true
  | _ => false

/-- A program cut into clauses, each with the word index of its header; none when it does not end with a
clause. -/
def cutClauses : Nat → Nat → List W64 → Option (List (Nat × W64 × List W64))
  | _, _, [] => some []
  | 0, _, _ => none
  | n + 1, at_, h :: ws =>
    let k := hdrN h + 1
    if ws.length < k then none
    else (cutClauses n (at_ + k + 1) (ws.drop k)).map fun l => (at_, h, ws.take k) :: l

/-- R70: a clause of a queue program. -/
def profileClause (heads : List Nat) (c : Nat × W64 × List W64) : Bool :=
  let (at_, h, ws) := c
  clauseOk h ws && hdrCls h ≠ 2 && hdrCls h ≠ 3 && !hdrFu h &&
    ws.all fun w => match decode w with
      | .ok i => profileInstr i && !instrUsesWK i &&
          (match i with | .bra x => heads.contains (at_ + x.tgt.toNat) | _ => true)
      | .error _ => false

/-- R70: a program of a given number of instructions keeps the queue profile. -/
def profileOk (len : Nat) (code : List W64) : Bool :=
  match cutClauses code.length 0 code with
  | none => false
  | some cs =>
    let heads := cs.map (·.1)
    let ends := match cs.getLast? with
      | some (_, _, ws) => (match ws.getLast? with | some w => w = 0x06E0000000000000 | none => false)
      | none => false
    cs.all (profileClause heads) && (cs.foldl (fun n c => n + c.2.2.length) 0) = len && ends

/-- The words of a program of a number of instructions, from a reader of its words. -/
def readProgram (rd : Nat → W64) : Nat → Nat → Nat → List W64
  | 0, _, _ => []
  | n + 1, at_, len =>
    if len = 0 then []
    else
      let h := rd at_
      let k := hdrN h + 1
      (h :: (upTo k).map fun i => rd (at_ + 1 + i)) ++ readProgram rd n (at_ + k + 1) (len - k)

end Sys2Proof.Machine
end

