-- ==== Sys2Proof/Machine/Issue.lean ====
section
/-!
DEFINITION. What every instruction does around its own effect: the interlock of R41, the holds of
R39 and R401, deferred errors (R199, R249), steps 2 to 4 of R50 for every member of the group, the
guard (R52), poison (R398), the budget of a queue program (R70, R303), and the one-step reading and
writing of R101.
-/

namespace Sys2Proof.Machine

/-- R38: the operation stands on the LD counter, and orders later writes (R176). -/
def AccOp.isLoad : AccOp → Bool
  | .load _ | .atom _ _ _ | .cas _ _ _ | .penq _ => true
  | _ => false

/-- R38: the operation stands on a counter. -/
def AccOp.counted : AccOp → Bool
  | .penq _ => false
  | _ => true

def AccOp.isStore : AccOp → Bool
  | .store _ _ => true
  | _ => false

/-- Registers an access writes when it completes (R197, R207, R212). -/
def Access.grp (a : Access) : Grp :=
  match a.op with
  | .load z => (a.dst, z.words)
  | .stbq _ _ => (a.dst, 1)
  | .atom _ t _ => (a.dst, t.words)
  | .cas t _ _ => (a.dst, t.words)
  | .penq _ => (a.dst, 2)
  | .store _ _ | .red _ _ _ => (.zero, 0)

/-- The counter an access stands on (R38). -/
def Access.ctr (a : Access) : Ctr :=
  match a.op with
  | .load _ | .atom _ _ _ | .cas _ _ _ | .penq _ => .ld
  | .store _ _ | .stbq _ _ | .red _ _ _ => .st

/-- R36, R181, R182: the scope of the release that an instruction is for a member: one by a modifier whatever the
guard, any other for a participant. -/
def relOf (i : Instr) (part : Bool) : Option Scope :=
  match i with
  | .st x => x.rel
  | .sts x => x.rel
  | .atom x => if x.sync.rel then some x.sync.scope else none
  | .red x => if x.sync.rel then some x.sync.scope else none
  | .cas x => if x.sync.rel then some x.sync.scope else none
  | .atoms x => if x.sync.rel then some x.sync.scope else none
  | .fence x => if x.sync.rel then some x.sync.scope else none
  | .penqAdv _ => if part then some .pod else none
  | .lnch _ | .frdn _ | .tlbiVa _ | .tlbiCtx _ | .tlbiAll _ => if part then some .pkg else none
  | .csrw x => if part && x.num = 0x111 then some .pkg else none
  | _ => none

/-- R178, R181, R210, R294, R295: for a member on a node, the instruction must wait for an earlier access of the
member. A release at .wg waits for no plain store, a FENCE that only acquires for loads alone, and a DRAIN for stores to
the package's own memory. -/
def mustWait (node : Nat) (i : Instr) (part : Bool) (a : Access) : Bool :=
  (match relOf i part with
   | some .wg => !a.op.isStore || a.ord
   | some _ => true
   | none => false) ||
    match i with
    | .fence x => x.sync.acq && a.op.isLoad
    | .exit _ | .cont _ => part
    | .drain _ => part && !a.op.isLoad && a.ord && decide (a.pa < 2 ^ 60) && a.pa / 2 ^ 48 = node
    | _ => false

/-- R288: WAITC's threshold on a counter. -/
def waitcThr (x : WaitcArgs) : Ctr → Nat
  | .ld => x.ld.toNat
  | .st => x.st.toNat
  | .cp => x.cp.toNat
  | .tl => x.tl.toNat

/-- R199: a threshold on a counter includes a failed access of the thread. -/
def DefErr.included (e : DefErr) (t : Thread) (thr noWait : Nat) : Bool :=
  thr ≠ noWait && decide (thr < t.nth e.ctr + 1 - e.nth)

/-- R199, R234, R249: an instruction at which a deferred error of the thread is raised, the thread taking part in it
or not: with a false guard a thread reads no register, and performs no WAITC, EXIT or CONT. -/
def DefErr.dueAt (e : DefErr) (node : Nat) (t : Thread) (i : Instr) (part : Bool) (regs : Nat) : Bool :=
  let reads := match e.acc with
    | some a => part && (instrReads i ++ (match i with | .ret _ => instrLinks i regs | _ => [])).any fun r => grpMeets r a.grp
    | none => false
  let waits := match i with
    | .waitc x => part && e.included t (waitcThr x e.ctr) 63
    | _ => false
  let syncs := match e.acc with
    | some a => mustWait node i part a
    | none => part && (match i with | .exit _ | .cont _ => true | _ => false)
  reads || waits || syncs

/-- R44, R46: a clause's wait field on a counter. -/
def hdrThr (h : W64) : Ctr → Nat
  | .ld => hdrWld h
  | .st => hdrWst h
  | .cp => hdrWcp h
  | .tl => hdrWtl h

/-- R199: a deferred error that the wait fields of a clause include, at its first instruction. -/
def DefErr.dueAtClause (e : DefErr) (t : Thread) (g : Group) : Bool :=
  g.idx = 0 && e.included t (hdrThr g.hdr e.ctr) 15

/-- R199: of several, the older access is reported. -/
def oldestErr (l : List DefErr) : Option DefErr :=
  l.foldl (fun b e => match b with | none => some e | some x => if e.age < x.age then some e else some x) none

namespace State

variable (s : State)

/-- Accesses of a thread that are not complete, wherever they stand: left, ordered, or queued. -/
def ordAccs : List Access := s.ords.filterMap fun o =>
  match o.work with
  | .access a => if o.src < 256 then some a else none
  | _ => none

/-- Every outstanding access of the package's cores. -/
def outstanding : List Access := s.accs ++ s.ordAccs

/-- R41: the destination of an outstanding access meets a register the instruction names. -/
def interlocked (tid : Nat) (i : Instr) : Bool :=
  let ts := instrTouches i ++ instrLinks i (s.wgOf tid).regs
  s.outstanding.any fun a =>
    let g := a.grp
    (a.tids.contains tid || (g.1.isW && a.tids.any fun t => tidFlock t = tidFlock tid)) &&
      ts.any fun r => grpMeets r g

/-- R39: a participant whose counter stands at 63 holds the instruction. -/
def counterFull (tid : Nat) (i : Instr) : Bool :=
  match instrCtr i with
  | some k => decide (63 ≤ (s.thread tid).ctr k)
  | none => false

/-- R340, R401, R414: the workgroup is halted, or the quad's issue has stopped for its sensor or for a
handover; a stop does not take effect on a TLBI that has begun (R364). -/
def frozen (g : Group) : Bool :=
  (g.members.all fun t => (s.thread t).tlbi.isNone) &&
  (((s.wg g.wg).halted && g.members.any fun t => !(s.thread t).stepping) ||
    (decide (g.core < 256) && ((s.quad (coreQuad g.core)).hot || (s.quad (coreQuad g.core)).handover)))

/-- R52: a member takes part in an instruction. -/
def takesPart (tid : Nat) (i : Instr) : Bool :=
  match instrGuard i with
  | some p => s.guardTrue tid p
  | none => false

/-- R199: the deferred errors of a member that are due at the instruction it stands at. -/
def dueErrs (g : Group) (i : Instr) (tid : Nat) : List DefErr :=
  let t := s.thread tid
  if t.errs = [] then []
  else t.errs.filter fun e => e.dueAt s.node.toNat t i (s.takesPart tid i) (s.wgOf tid).regs || e.dueAtClause t g

/-- R234: the operation of a due error has not yet been applied; the trap is taken once it has. -/
def awaitsApply (l : List DefErr) : Bool :=
  l.any fun e => match e.op with
    | some n => s.ords.any fun o => o.id = n && (o.st = .sent || o.st = .held)
    | none => false

/-- The group is held at issue (R269). -/
def holds (g : Group) (i : Instr) : Bool :=
  s.frozen g ||
  g.members.any fun t =>
    s.interlocked t i || (s.counterFull t i && s.takesPart t i) || s.awaitsApply (s.dueErrs g i t)

/-- R382: full privilege. -/
def fullPriv (tid : Nat) : Bool := s.ctxPriv (s.ctxOf tid)

/-- Step 2 of R50: whether a thread may run an instruction (R61, R306, R380, R382, R387). -/
def allowed (tid : Nat) (i : Instr) : Bool :=
  match instrNeed i with
  | .none => true
  | .priv => s.fullPriv tid
  | .eret => s.fullPriv tid || (s.thread tid).handler
  | .csr => s.fullPriv tid || (s.thread tid).handler
  | .queue => isCp tid
  | .management => isCp tid && (match tget s.runs (tidCore tid - 256) with | some r => r.queue = 63 | none => false)

/-- Step 4 of R50: R28 and R30. -/
def rangeOk (tid : Nat) (i : Instr) : Bool :=
  let w := s.wgOf tid
  !((instrTouches i).any (grpPast w.regs)) &&
    (match instrBar i with
     | some (.b n) => decide (n.val < w.bars)
     | some (.bt _) => w.team.isSome
     | none => true)

/-- Deferred errors, then steps 2 to 4 of R50, for one member whatever its guard. -/
def preCheck (g : Group) (i : Instr) (tid : Nat) : State :=
  match oldestErr (s.dueErrs g i tid) with
  | some e => s.takeDeferred tid e
  | none =>
    if !s.allowed tid i then s.trap tid tcPriv 0
    else if instrUsesWK i && !hdrFu g.hdr then s.trap tid tcIllegalClause 0
    else if !s.rangeOk tid i then s.trap tid tcRegRange 0
    else s

/-- R70, R303: every executed instruction of a queue program counts once, and the 257th ends the run. -/
def countRun (g : Group) : State :=
  match g.members with
  | [t] =>
    if isCp t then
      let die := tidCore t - 256
      match tget s.runs die with
      | some r =>
        if r.last = some (g.pc, g.idx) then s
        else if 256 ≤ r.count then s.reject die tcQueueBudget
        else { s with runs := tput s.runs die { r with count := r.count + 1, last := some (g.pc, g.idx) } }
      | none => s
    else s
  | _ => s

/-- R52: the members whose guard is true, in ascending lane order. -/
def participants (g : Group) (i : Instr) : List Nat :=
  match instrGuard i with
  | some p => g.members.filter fun t => s.guardTrue t p
  | none => []

/-- The members whose guard is false. -/
def nonParticipants (g : Group) (i : Instr) : List Nat :=
  match instrGuard i with
  | some p => g.members.filter fun t => !s.guardTrue t p
  | none => []

/-- R398: a participant reads a poisoned register. -/
def consumes (ps : List Nat) (i : Instr) : Option Nat :=
  if s.poison = [] then none
  else ps.find? fun t =>
    (instrReads i ++ (match i with | .ret _ => instrLinks i (s.wgOf t).regs | _ => [])).any (s.poisonedReg t)

/-- R50 step 1: an undecodable word, or WAITM out of its place (R283), raises ILLEGAL_INSN in every member, after a
deferred error that the wait fields of its clause include (R199). -/
def illegal : State :=
  match s.cur with
  | none => s
  | some g =>
    let due (t : Nat) : List DefErr := (s.thread t).errs.filter fun e => e.dueAtClause (s.thread t) g
    if s.frozen g || g.members.any fun t => s.awaitsApply (due t) then s.stall
    else g.members.foldl (fun s t => match oldestErr (due t) with
      | some e => if (tget s.threads t).isSome then s.takeDeferred t e else s
      | none => s.trap t tcIllegalInsn 0) s

/-- The group goes on, or blocks if one of its members waits (R201, R271). -/
def goOn : State :=
  match s.cur with
  | none => s
  | some g => if g.members.any fun t => (s.thread t).wait.isSome then s.block else s.advance

/-- One issue of the current group: the shared part, then the instruction's own effect on the group
that remains and its participants. -/
def issue (i : Instr) (body : Group → List Nat → State → State) : State :=
  match s.cur with
  | none => s
  | some g =>
    if s.holds g i then s.stall
    else
      let s := s.countRun g
      let s := g.members.foldl (fun s t => s.preCheck g i t) s
      match s.cur with
      | none => s
      | some g =>
        let ps := s.participants g i
        match s.consumes ps i with
        | some t => s.kill (s.ctxOf t) 1 0 2 0 (s.placeOf t).1
        | none => body g ps s

end State

/-! ### Instructions that read, compute and write in one step (R101) -/

/-- What one thread's instruction writes: registers, predicates, and the flags it raises. -/
structure Effect where
  regs : List (Reg × W32)
  preds : List (Pred × Bool)
  flags : BitVec 7
  deriving DecidableEq, Repr

/-- Writes of a group of registers from one number. -/
def regsOf (d : Reg) (k v : Nat) : List (Reg × W32) :=
  (upTo k).map fun i => (Reg.up d i, BitVec.ofNat 32 (v / 2 ^ (32 * i)))

/-- A result in a register group, with flags. -/
def Effect.reg (d : Reg) (k v : Nat) (flags : BitVec 7) : Effect := ⟨regsOf d k v, [], flags⟩

namespace State

/-- One thread's writes. -/
def applyEffect (s : State) (tid : Nat) (e : Effect) : State :=
  let s := e.regs.foldl (fun s w => s.wr tid w.1 w.2) s
  let s := e.preds.foldl (fun s w => s.wrP tid w.1 w.2) s
  let s := s.raise (tidCore tid) (s.ctxOf tid) e.flags
  s.cleanRegs tid (e.regs.map fun w => (w.1, 1))

/-- R29, R101: every participant's writes, the lowest lane's last, so that its value of a w register
stands and the others' are discarded. -/
def applyAll (s : State) (es : List (Nat × Effect)) : State :=
  es.foldr (fun e s => s.applyEffect e.1 e.2) s

/-- R101: every participant reads before any writes, then the group goes on. -/
def alu (f : State → List Nat → Nat → Effect) (_ : Group) (ps : List Nat) (s : State) : State :=
  (s.applyAll (ps.map fun t => (t, f s ps t))).advance

/-- R319: the workgroup commits. -/
def commitWg (s : State) (tid : Nat) : State :=
  if isCp tid then s else s.modWg (s.thread tid).wg fun w => { w with committed := true }

def commitAll (s : State) (ps : List Nat) : State := ps.foldl (fun s t => s.commitWg t) s

end State

end Sys2Proof.Machine
end

