-- ==== Sys2Proof/Machine/Flags.lean ====
section
/-!
DEFINITION. The sticky flags of %fstat (R35) and every computation of a flag outside the floating
formats: saturation of exact integers (R15, R98, R103) and comparisons (R108 to R111).
-/

namespace Sys2Proof.Machine

/-- R35: the flag bits. -/
def fInexact : BitVec 7 := 0x01
def fSaturated : BitVec 7 := 0x02
def fInformat : BitVec 7 := 0x04
def fInvalid : BitVec 7 := 0x08
def fOverflow : BitVec 7 := 0x10
def fUnderflow : BitVec 7 := 0x20
def fDivzero : BitVec 7 := 0x40

/-- A flag when a condition holds. -/
def flagIf (c : Bool) (f : BitVec 7) : BitVec 7 := if c then f else 0

/-- The width in bits of an integer or bit type. -/
def tyBits : Ty → Nat
  | .b64 | .s64 | .z64 | .f64 => 64
  | .s8 | .z8 | .e4m3 | .e5m2 => 8
  | .s16 | .z16 | .f16 | .bf16 => 16
  | .fxa => 128
  | _ => 32

/-- A signed integer type. -/
def tySigned : Ty → Bool
  | .s8 | .s16 | .s32 | .s64 => true
  | _ => false

/-- R103 `Int`: an operand as an integer of its type. -/
def intOf (ty : Ty) (v : Nat) : Int :=
  if tySigned ty then signExt v (tyBits ty) else ((v % 2 ^ tyBits ty : Nat) : Int)

/-- R103 `Lo` and `Hi`. -/
def tyLo (ty : Ty) : Int := if tySigned ty then -(2 : Int) ^ (tyBits ty - 1) else 0
def tyHi (ty : Ty) : Int :=
  if tySigned ty then (2 : Int) ^ (tyBits ty - 1) - 1 else (2 : Int) ^ tyBits ty - 1

/-- R103: an exact result narrowed to a type, saturated or wrapped, with its flag. -/
def narrow (ty : Ty) (sat : Bool) (v : Int) : Nat × BitVec 7 :=
  if sat then
    let w := satInt v (tyLo ty) (tyHi ty)
    (wrapNat w (tyBits ty), flagIf (w ≠ v) fSaturated)
  else (wrapNat v (tyBits ty), 0)

/-- R109: a comparison of integers. -/
def condTest (c : ICond) (a b : Int) : Bool :=
  match c with
  | .eq => a = b
  | .ne => a ≠ b
  | .lt => a < b
  | .le => a ≤ b
  | .gt => b < a
  | .ge => b ≤ a

/-- R108: the comparison combined with the predicate in C. -/
def combine (s : State) (tid : Nat) (t : Bool) : PComb → Bool
  | .plain => t
  | .and c => t && s.rdP tid c
  | .or c => t || s.rdP tid c
  | .xor c => t != s.rdP tid c
  | .andn c => t && !s.rdP tid c
  | .orn c => t || !s.rdP tid c
  | .not => !t

/-- R105: bit i of the result is T[a[i] + 2 b[i] + 4 c[i]]. -/
def tableBit (t : BitVec 8) (a b c : Bool) : Bool := t.getLsbD (a.toNat + 2 * b.toNat + 4 * c.toNat)

end Sys2Proof.Machine
end

