-- ==== Sys2Proof/Machine/Formats.lean ====
section
/-!
DEFINITION. The number formats to the last bit (03 R71 to R98): what an encoding stands for, one
rounding of an exact value into a format with its flags, rounding to an integer, the N4X block and
the FXA128 window. Exact values are dyadic: ± m × 2^e, and a value that is not dyadic is given by its
truncation and the fact that something nonzero was dropped.
-/

namespace Sys2Proof.Machine

/-! ### Layouts (R72, R76, R77) -/

/-- A floating format: width, fraction bits, exponent bias, and the encoding of its largest finite
magnitude. -/
structure FFmt where
  width : Nat
  frac : Nat
  bias : Nat
  maxEnc : Nat
  hasInf : Bool
  deriving DecidableEq, Repr

/-- The format of a floating type; a packed type's is its element's. -/
def fmtOf : Ty → FFmt
  | .f64 => ⟨64, 52, 1023, 0x7FEFFFFFFFFFFFFF, true⟩
  | .f16 | .f16x2 => ⟨16, 10, 15, 0x7BFF, true⟩
  | .bf16 | .bf16x2 => ⟨16, 7, 127, 0x7F7F, true⟩
  | .e4m3 => ⟨8, 3, 7, 0x7E, false⟩
  | .e5m2 => ⟨8, 2, 15, 0x7B, true⟩
  | _ => ⟨32, 23, 127, 0x7F7FFFFF, true⟩

/-- The exponent of the smallest subnormal. -/
def FFmt.qmin (f : FFmt) : Int := 1 - (f.bias : Int) - f.frac

/-- R74: the canonical NaN. -/
def FFmt.nan (f : FFmt) : Nat := if f.hasInf then f.maxEnc + 1 + 2 ^ (f.frac - 1) else 0x7F

/-- A sign and a magnitude encoding. -/
def FFmt.signed (f : FFmt) (neg : Bool) (mag : Nat) : Nat := mag + (if neg then 2 ^ (f.width - 1) else 0)

/-- What an encoding stands for: a NaN, an infinity, or ± m × 2^e. -/
inductive FVal where
  | nan (sig : Bool)
  | inf (neg : Bool)
  | fin (neg : Bool) (m : Nat) (e : Int)
  deriving DecidableEq, Repr

/-- R72 to R77: the value of an encoding, with .ftz a subnormal read as a zero of its sign (R73). -/
def decodeF (ty : Ty) (ftz : Bool) (bits : Nat) : FVal :=
  let f := fmtOf ty
  let neg := natBit bits (f.width - 1)
  let mag := bits % 2 ^ (f.width - 1)
  if f.maxEnc < mag then
    if f.hasInf then
      if mag = f.maxEnc + 1 then .inf neg else .nan (!natBit mag (f.frac - 1))
    else .nan false
  else
    let ef := mag / 2 ^ f.frac
    let fr := mag % 2 ^ f.frac
    if ef = 0 then .fin neg (if ftz then 0 else fr) f.qmin
    else .fin neg (2 ^ f.frac + fr) (f.qmin + (ef - 1 : Nat))

def FVal.neg : FVal → Bool
  | .nan _ => false
  | .inf s => s
  | .fin s _ _ => s

def FVal.isNan : FVal → Bool
  | .nan _ => true
  | _ => false

/-- R74: INVALID for a signalling NaN. -/
def FVal.sigFlag : FVal → BitVec 7
  | .nan true => fInvalid
  | _ => 0

def FVal.negate : FVal → FVal
  | .nan s => .nan s
  | .inf s => .inf (!s)
  | .fin s m e => .fin (!s) m e

/-- An integer as an exact value. -/
def FVal.ofInt (v : Int) (e : Int) : FVal := .fin (decide (v < 0)) v.natAbs e

/-! ### Rounding (R78 to R81) -/

/-- R78: whether the neighbour of greater magnitude is chosen, `half` comparing what was dropped with
half a step. -/
def roundsUp (rm : Rm) (neg odd : Bool) (half : Ordering) (inexact : Bool) : Bool :=
  match rm with
  | .rne => half = .gt || (half = .eq && odd)
  | .rna => half != .lt
  | .rtz => false
  | .rup => inexact && !neg
  | .rdn => inexact && neg

/-- A magnitude m × 2^e, with something nonzero below it when `sticky`, rounded to a multiple of 2^q:
the multiple, and whether the value was changed. -/
def quantize (rm : Rm) (neg : Bool) (m : Nat) (e : Int) (sticky : Bool) (q : Int) : Nat × Bool :=
  if q ≤ e then
    let n := m <<< (e - q).toNat
    ((if roundsUp rm neg (natBit n 0) .lt sticky then n + 1 else n), sticky)
  else
    let sh := (q - e).toNat
    let n := m >>> sh
    let r := m % 2 ^ sh
    let half := match compare r (2 ^ (sh - 1)) with
      | .eq => if sticky then .gt else .eq
      | o => o
    let inexact := r ≠ 0 || sticky
    ((if roundsUp rm neg (natBit n 0) half inexact then n + 1 else n), inexact)

/-- R79: what an overflow delivers. -/
def overflowTo (f : FFmt) (rm : Rm) (neg sat : Bool) : Nat × BitVec 7 :=
  let toInf := match rm with
    | .rne | .rna => true
    | .rtz => false
    | .rup => !neg
    | .rdn => neg
  let fl := fOverflow ||| fInexact
  if toInf then
    if sat then (f.signed neg f.maxEnc, fl ||| fSaturated)
    else (if f.hasInf then f.signed neg (f.maxEnc + 1) else f.nan, fl)
  else (f.signed neg f.maxEnc, fl)

/-- R15, R78 to R80, R73: one rounding of a finite exact value into a floating format. -/
def roundFin (ty : Ty) (rm : Rm) (sat ftz neg : Bool) (m : Nat) (e : Int) (sticky : Bool) : Nat × BitVec 7 :=
  let f := fmtOf ty
  if m = 0 && !sticky then (f.signed neg 0, 0)
  else
    let top := (Nat.log2 m : Int) + e
    -- a value far outside the format rounds as one just outside it
    let hi : Int := (f.maxEnc / 2 ^ f.frac : Nat) - (f.bias : Int) + 4
    let (m, e, sticky) : Nat × Int × Bool :=
      if hi < top then (1, hi, true)
      else if top < f.qmin - 4 then (1, f.qmin - 4, true) else (m, e, sticky)
    let top := (Nat.log2 m : Int) + e
    let q := max (top - f.frac) f.qmin
    let (n, inexact) := quantize rm neg m e sticky q
    let enc := (q - f.qmin).toNat * 2 ^ f.frac + n
    if f.maxEnc < enc then overflowTo f rm neg sat
    else
      let tiny := decide (top < f.qmin + f.frac) &&
        !(decide (top = f.qmin + f.frac - 1) &&
          decide ((quantize rm neg m e sticky (top - f.frac)).1 = 2 ^ (f.frac + 1)))
      if ftz && decide (0 < enc) && decide (enc < 2 ^ f.frac) then
        (f.signed neg 0, fUnderflow ||| fInexact)
      else (f.signed neg enc, flagIf inexact fInexact ||| flagIf (tiny && inexact) fUnderflow)

/-- R74, R79: a value delivered in a floating format; an exact infinity saturates, and E4M3, which has
none, takes its NaN (R117). -/
def roundTo (ty : Ty) (rm : Rm) (sat ftz : Bool) (v : FVal) : Nat × BitVec 7 :=
  let f := fmtOf ty
  match v with
  | .nan _ => (f.nan, 0)
  | .inf neg =>
      if sat then (f.signed neg f.maxEnc, fSaturated)
      else if f.hasInf then (f.signed neg (f.maxEnc + 1), 0) else (f.nan, fInvalid)
  | .fin neg m e => roundFin ty rm sat ftz neg m e false

/-- R78: a magnitude rounded to an integer, with its sign. -/
def roundInt (rm : Rm) (neg : Bool) (m : Nat) (e : Int) (sticky : Bool) : Int × Bool :=
  let (n, inexact) := quantize rm neg m e sticky 0
  ((if neg then -(n : Int) else n), inexact)

/-- R81: a value rounded into an integer range; `bad` is the flag of a value outside it. -/
def intRound (rm : Rm) (lo hi : Int) (bad : BitVec 7) (v : FVal) (sticky : Bool) : Int × BitVec 7 :=
  match v with
  | .nan _ => (0, fInvalid)
  | .inf neg => (if neg then lo else hi, bad)
  | .fin neg m e =>
      let (n, inexact) := roundInt rm neg m e sticky
      if n < lo then (lo, bad) else if hi < n then (hi, bad) else (n, flagIf inexact fInexact)

/-- R81: a value rounded into an integer register type, as the type's bits. -/
def intTo (ty : Ty) (rm : Rm) (bad : BitVec 7) (v : FVal) : Nat × BitVec 7 :=
  let (n, fl) := intRound rm (tyLo ty) (tyHi ty) bad v false
  (wrapNat n (tyBits ty), fl)

/-! ### Arithmetic on exact values (R74, R75, R112) -/

/-- An exact sum of finite values as an integer at the smallest exponent. -/
def alignSum (l : List (Bool × Nat × Int)) : Int × Int :=
  let e := l.foldl (fun e x => min e x.2.2) (match l with | [] => 0 | x :: _ => x.2.2)
  (l.foldl (fun a x =>
    let v : Int := (x.2.1 <<< (x.2.2 - e).toNat : Nat)
    if x.1 then a - v else a + v) 0, e)

def FVal.isInf : FVal → Bool
  | .inf _ => true
  | _ => false

/-- The finite parts of a list of values. -/
def finParts (l : List FVal) : List (Bool × Nat × Int) :=
  l.filterMap fun v => match v with | .fin s m e => some (s, m, e) | _ => none

/-- The exact sum of values (R74, R75, R116); a NaN counts before infinities of both signs
(notes/assumptions/61.md). With `redux`, an exact zero under .rdn is −0 whatever the addends, as R129 gives it. -/
def sumF (rm : Rm) (redux : Bool) (l : List FVal) : FVal × BitVec 7 :=
  if l.any FVal.isNan then (.nan false, l.foldl (fun f v => f ||| v.sigFlag) 0)
  else if l.any FVal.isInf then
    let infs := l.filter FVal.isInf
    if infs.all FVal.neg then (.inf true, 0)
    else if infs.any FVal.neg then (.nan false, fInvalid) else (.inf false, 0)
  else
    let ps := finParts l
    let (v, e) := alignSum ps
    if v = 0 then
      let allNeg := ps.all fun p => p.2.1 = 0 && p.1
      let allPos := ps.all fun p => p.2.1 = 0 && !p.1
      let neg := if allNeg then true else if allPos && !redux then false else rm = .rdn
      (.fin neg 0 0, 0)
    else (.ofInt v e, 0)

/-- The exact product of two values. -/
def mulF (a b : FVal) : FVal × BitVec 7 :=
  match a, b with
  | .nan _, _ | _, .nan _ => (.nan false, a.sigFlag ||| b.sigFlag)
  | .inf s, .inf t => (.inf (s != t), 0)
  | .inf s, .fin t m _ => if m = 0 then (.nan false, fInvalid) else (.inf (s != t), 0)
  | .fin s m _, .inf t => if m = 0 then (.nan false, fInvalid) else (.inf (s != t), 0)
  | .fin s m e, .fin t n f => (.fin (s != t) (m * n) (e + f), 0)

/-- The exact a × b + c. -/
def fmaF (rm : Rm) (a b c : FVal) : FVal × BitVec 7 :=
  let (p, f) := mulF a b
  let (v, g) := sumF rm false [p, c]
  (v, f ||| g)

/-- R110: the order of two values that are not NaNs. -/
def cmpF (a b : FVal) : Ordering :=
  match a, b with
  | .inf s, .inf t => compare t s
  | .inf s, _ => if s then .lt else .gt
  | _, .inf t => if t then .gt else .lt
  | .fin s m e, .fin t n f => compare (alignSum [(s, m, e), (!t, n, f)]).1 0
  | _, _ => .eq

/-- A value below another, −0 below +0. -/
def ltF (a b : FVal) : Bool :=
  match cmpF a b with
  | .lt => true
  | .eq => a.neg && !b.neg
  | .gt => false

/-- R113: the lesser or, with `mx`, the greater operand. -/
def minMaxF (mx : Bool) (a b : FVal) : FVal × BitVec 7 :=
  let fl := a.sigFlag ||| b.sigFlag
  if a.isNan then (if b.isNan then .nan false else b, fl)
  else if b.isNan then (a, fl)
  else (if (if mx then ltF a b else ltF b a) then b else a, fl)

/-! ### N4X (R84 to R86) -/

/-- The mantissa of an E4M3 value at 2^−9, or none for a NaN; −0 reads 0. -/
def e4m3Int (q : Nat) : Option Int :=
  match decodeF .e4m3 false q with
  | .fin s m e =>
      let n : Int := (m <<< (e + 9).toNat : Nat)
      some (if s then -n else n)
  | _ => none

/-- Nibble i of a block. -/
def nib (blk : List Byte) (i : Nat) : Nat := (blk.getD (i / 2) 0).toNat / 16 ^ (i % 2) % 16

/-- R86: unscaled values at 2^−9 from position 48 − n on, and INFORMAT. -/
def n4xScan (blk : List Byte) : Nat → Nat → List Int × Bool
  | 0, _ => ([], false)
  | n + 1, skip =>
      if 0 < skip then
        let (l, b) := n4xScan blk n (skip - 1)
        (0 :: l, b)
      else
        let i := 47 - n
        let x := nib blk i
        if x ≠ 8 then
          let (l, b) := n4xScan blk n 0
          (signExt x 4 * 512 :: l, b)
        else if 46 ≤ i then
          let (l, _) := n4xScan blk n 0
          (0 :: l, true)
        else
          let v := e4m3Int (nib blk (i + 1) * 16 + nib blk (i + 2))
          let (l, b) := n4xScan blk n 2
          (v.getD 0 :: l, b || v.isNone)

/-- R86: the 48 values of a block, as integers at a power of two, and whether INFORMAT is raised. -/
def n4xDecode (blk : List Byte) (rec : Nat) : List Int × Int × Bool :=
  let e := rec % 256
  let m := rec / 256 % 16
  if e = 255 then (List.replicate 48 0, 0, true)
  else
    let (l, b) := n4xScan blk 48 0
    (l.map (· * (16 + m : Nat)), (e : Int) - 140, b)

/-! ### FXA128 (R90 to R94) -/

def fxaMax : Int := (2 : Int) ^ 127 - 1

/-- R92: an exact sum clamped to the window. -/
def fxaClamp (v : Int) : Int × BitVec 7 :=
  let w := satInt v (-fxaMax) fxaMax
  (w, flagIf (w ≠ v) fSaturated)

/-- R90: a pattern as read; −2^127 counts as saturated. -/
def fxaRead (bits : Nat) : Int × BitVec 7 :=
  let v := signExt bits 128
  if v = -(2 : Int) ^ 127 then (-fxaMax, fSaturated) else (v, 0)

/-- R91: a value entering the window of an anchor. -/
def fxaOf (k : Int) (v : FVal) : Int × BitVec 7 :=
  match v with
  | .nan _ => (0, fInvalid)
  | .inf neg => (if neg then -fxaMax else fxaMax, fSaturated)
  | .fin neg m e =>
      let x : Int := if neg then -(m : Int) else m
      let (a, inexact) : Int × Bool :=
        if k ≤ e then (x * (2 : Int) ^ (e - k).toNat, false)
        else
          let d := (2 : Int) ^ (k - e).toNat
          (x / d, x % d ≠ 0)
      let (w, fl) := fxaClamp a
      (w, fl ||| flagIf inexact fInexact)

/-- R94: an FXA128 value at an anchor as an exact value. -/
def fxaVal (a k : Int) : FVal := .ofInt a k

end Sys2Proof.Machine
end

