-- ==== Sys2Proof/Machine/Translate.lean ====
section
/-!
DEFINITION. Ranges and homes (13 R369 to R372, 01 R24), page tables and the walker (R357 to R361),
translation buffers (R362, R363), and the pod picture's addresses (15 R409, R411).
-/

namespace Sys2Proof.Machine

/-! ### Range entries (R369, R370) -/

def Range.remote (r : Range) : Bool := r.w2.getLsbD 22
def Range.gran (r : Range) : Nat := bitsOf r.w2 28 4
def Range.stacks (r : Range) : Nat := bitsOf r.w2 32 12
def Range.soff (r : Range) : Nat := bitsOf r.w2 44 20
def Range.epoch (r : Range) : Bool := r.w3.getLsbD 0
def Range.scrubbing (r : Range) : Bool := r.w3.getLsbD 1
def Range.wmark (r : Range) : Nat := bitsOf r.w3 7 41 * 128

/-- The set stacks in ascending order. -/
def Range.stackList (r : Range) : List Nat := (upTo 12).filter fun k => r.stacks.testBit k

/-- R370: the stack and the stack offset of an address of the range. -/
def Range.place (r : Range) (a : Nat) : Nat × Nat :=
  let g := 256 * 2 ^ r.gran
  let l := r.stackList
  let n := l.length
  let o := a - r.base
  let i := o / g
  (l.getD (i % n) 0, r.soff * 65536 + i / n * g + o % g)

/-- R24: the home slice of an address of a range, stack × 4 + slice. -/
def Range.home (r : Range) (a : Nat) : Nat :=
  let (k, o) := r.place a
  k * 4 + o / 128 % 4

/-- R23: the die a slice stands on: stacks 0 to 5 on die 0. -/
def sliceDie (slice : Nat) : Nat := slice / 24

namespace State

variable (s : State)

/-- R398: the page of an address has been retired. -/
def isRetired (off : Nat) : Bool := s.retired.any fun p => p.2 = off / 65536

/-- R372: an access of a context of a virtual device passes. -/
def rangeOkFor (v off : Nat) : Bool :=
  match s.rangeAt off with
  | some (_, r) => r.vd = v && !s.isRetired off
  | none => false

/-- R372: an access from another package or a fold on behalf of a tenant passes. -/
def remoteOkFor (tenant off : Nat) : Bool :=
  match s.rangeAt off with
  | some (_, r) => r.remote && s.vdTenant r.vd = tenant && !s.isRetired off
  | none => false

/-- R24, R370: the home slice of a local address. -/
def homeOf (off : Nat) : Nat :=
  match s.rangeAt off with
  | some (_, r) => r.home off
  | none => 0

/-! ### The pod picture (R409, R411) -/

def hostKey (v win off : Nat) : Nat := 2 ^ 60 + (v * 16 + win) * 2 ^ 48 + off
def isHost (pa : Nat) : Bool := decide (2 ^ 60 ≤ pa)
def paNode (pa : Nat) : Nat := pa / 2 ^ 48
def paOff (pa : Nat) : Nat := pa % 2 ^ 48
/-- An address of this package's own memory. -/
def isLocal (pa : Nat) : Bool := !isHost pa && paNode pa = s.node.toNat
def lineOf (pa : Nat) : Nat := pa / 128

end State

/-! ### Translation (R357 to R363) -/

/-- R166: bits [63:56] equal bit 55. -/
def canonical (va : W64) : Bool :=
  bitsOf va 56 8 = (if va.getLsbD 55 then 255 else 0)

/-- What a translation gives an access. -/
structure Xlat where
  pa : Nat
  back : Nat
  node : Nat
  sc : Bool
  wb : Bool
  ext : Bool
  deriving DecidableEq, Repr

/-- How a translation ends: done, with the buffers and bits it has filled; failed; or waiting for the
paging engine (R368). -/
inductive XRes where
  | ok (x : Xlat) (s : State)
  | fault (code : Nat)
  | absent

/-- A leaf that a walk has reached: the entry, its address, and the page's base and size. -/
structure Leaf where
  ent : W64
  entPa : Nat
  base : Nat
  size : Nat
  deriving DecidableEq, Repr

namespace State

variable (s : State)

/-- R358: a pointer entry of this package in form. -/
def pointerOk (e : W64) : Bool :=
  e.getLsbD 0 && !e.getLsbD 9 && bitsOf e 48 4 = 0 && bitsOf e 10 3 = 0 && bitsOf e 1 8 = 0 &&
    bitsOf e 52 12 = s.node.toNat

/-- R358: a valid leaf in form, of the size asked. -/
def leafOk (e : W64) (size : Nat) : Bool :=
  e.getLsbD 0 && e.getLsbD 9 && bitsOf e 10 6 = 0 && bitsOf e 18 2 = size && bitsOf e 16 2 ≠ 3

/-- A table entry read at its home, if its table lies in a range of the context's device (R360.1). -/
def tableEntry (v tab i : Nat) : Option (W64 × Nat) :=
  if s.rangeOkFor v tab then
    let pa := s.local_ (tab + 8 * i)
    some (BitVec.ofNat 64 (mnat s.mem pa 8), pa)
  else none

/-- R359, R360: the leaf of an address, or the code that ends the walk. -/
def walk (c : Nat) (va : W64) : Except Nat Leaf :=
  let v := s.ctxVd c
  let a := va.toNat % 2 ^ 56
  let bad : Except Nat Leaf := .error tcPageInvalid
  let next (e : W64) : Nat := bitsOf e 13 35 * 8192
  match s.tableEntry v ((s.ctx c).words.root.toNat % 2 ^ 48) (a / 2 ^ 46) with
  | none => bad
  | some (e0, _) =>
  if !s.pointerOk e0 then bad else
  match s.tableEntry v (next e0) (a / 2 ^ 36 % 1024) with
  | none => bad
  | some (e1, _) =>
  if !s.pointerOk e1 then bad else
  let i2 := a / 2 ^ 26 % 1024
  match s.tableEntry v (next e1) i2 with
  | none => bad
  | some (e2, _) =>
  if e2.getLsbD 0 && e2.getLsbD 9 then
    if !leafOk e2 2 then bad else
    match s.tableEntry v (next e1) (i2 - i2 % 16) with
    | none => bad
    | some (f, fp) =>
      if !leafOk f 2 || bitsOf f 20 32 % 16384 ≠ 0 then bad
      else .ok ⟨f, fp, a - a % 2 ^ 30, 2 ^ 30⟩
  else if !s.pointerOk e2 then bad else
  let i3 := a / 2 ^ 16 % 1024
  match s.tableEntry v (next e2) i3 with
  | none => bad
  | some (e3, p3) =>
    if leafOk e3 0 then .ok ⟨e3, p3, a - a % 2 ^ 16, 2 ^ 16⟩
    else if !leafOk e3 1 then bad else
    match s.tableEntry v (next e2) (i3 - i3 % 32) with
    | none => bad
    | some (f, fp) =>
      if !leafOk f 1 || bitsOf f 20 32 % 32 ≠ 0 then bad
      else .ok ⟨f, fp, a - a % 2 ^ 21, 2 ^ 21⟩

/-- R361: bits OR'ed into the leaf at its home, as an atomic. -/
def orLeaf (entPa : Nat) (bits : Nat) : State :=
  { s with mem := mputs s.mem entPa (natLe 8 (mnat s.mem entPa 8 ||| bits)) }

/-- The pod key of a leaf's frame (R358, R409, R411). -/
def framePa (v : Nat) (e : W64) : Nat :=
  let off := bitsOf e 20 32 * 65536
  let node := bitsOf e 52 12
  if bitsOf e 16 2 = 2 then hostKey v node off else node * 2 ^ 48 + off

def entOf (c v : Nat) (l : Leaf) : TlbEnt :=
  { ctx := c, va := l.base, size := l.size, pa := framePa v l.ent, back := bitsOf l.ent 16 2
    node := bitsOf l.ent 52 12, leafPa := l.entPa, d := l.ent.getLsbD 7, w := l.ent.getLsbD 2
    x := l.ent.getLsbD 3, sc := l.ent.getLsbD 4, wb := l.ent.getLsbD 5, ext := l.ent.getLsbD 6 }

/-- R362: an entry that maps an address for a context. -/
def tlbFind (l : List TlbEnt) (c a : Nat) : Option TlbEnt :=
  l.find? fun e => e.ctx = c && decide (e.va ≤ a) && decide (a < e.va + e.size)

def tlbPut (l : List TlbEnt) (n : Nat) (e : TlbEnt) : List TlbEnt :=
  (e :: l.filter fun x => !(x.ctx = e.ctx && x.va = e.va)).take n

/-- Fill the core's and its quad's buffers (R362). -/
def fillTlb (core : Nat) (e : TlbEnt) : State :=
  let s := s.modCore core fun k => { k with tlb := tlbPut k.tlb 256 e }
  if core < 256 then s.modQuad (coreQuad core) fun q => { q with tlb := tlbPut q.tlb 4096 e } else s

/-- R360 step 5 and R372, R409: the physical address is one the context may reach. -/
def backingOk (c : Nat) (e : TlbEnt) (a : Nat) : Nat :=
  let pa := e.pa + (a - e.va)
  if e.back = 2 then
    match tget (s.vd (s.ctxVd c)).windows e.node with
    | none => tcPageInvalid
    | some w => if e.node < 16 then (if paOff pa < w.len then 0 else tcRangeFault) else tcPageInvalid
  else if s.isLocal pa then (if s.rangeOkFor (s.ctxVd c) (paOff pa) then 0 else tcRangeFault)
  else 0

/-- Steps 4 and 5 of R360 on a translation that stands. -/
def useEnt (c a : Nat) (e : TlbEnt) (write exec : Bool) (s' : State) : XRes :=
  if (exec && !e.x) || (write && !e.w) then .fault tcProtection
  else
    match s'.backingOk c e a with
    | 0 => .ok ⟨e.pa + (a - e.va), e.back, e.node, e.sc, e.wb, e.ext⟩ s'
    | k + 1 => .fault (k + 1)

/-- R368, R409: what keeps a page from being fetched from the backing that its leaf names: 0, or a code. A host window must
hold the whole page (notes/assumptions/66.md). -/
def absentCode (v : Nat) (e : W64) : Nat :=
  if bitsOf e 16 2 ≠ 2 then 0
  else
    let n := bitsOf e 52 12
    match tget (s.vd v).windows n with
    | none => tcPageInvalid
    | some w => if 16 ≤ n then tcPageInvalid else if w.len < (bitsOf e 20 32 + 1) * 65536 then tcRangeFault else 0

/-- R360, R361: a walk, which fills the buffers and sets A, and D for a write. -/
def walkFill (core c : Nat) (va : W64) (write exec : Bool) : XRes :=
  match s.walk c va with
  | .error k => .fault k
  | .ok l =>
    if !l.ent.getLsbD 1 then
      if l.size = 65536 && (bitsOf l.ent 16 2 = 1 || bitsOf l.ent 16 2 = 2) && (s.ctx c).words.npool ≠ 0 then
        match s.absentCode (s.ctxVd c) l.ent with
        | 0 => .absent
        | k + 1 => .fault (k + 1)
      else .fault tcPageInvalid
    else
      let e := entOf c (s.ctxVd c) l
      if (exec && !e.x) || (write && !e.w) then .fault tcProtection
      else
        let bits := 2 ^ 8 + (if write then 2 ^ 7 else 0)
        let s' := (s.orLeaf l.entPa bits).fillTlb core { e with d := e.d || write }
        useEnt c (va.toNat % 2 ^ 56) e write exec s'

/-- R363: a page table no longer gives what a buffer's entry has. -/
def staleEnt (c : Nat) (va : W64) (e : TlbEnt) : Bool :=
  match s.walk c va with
  | .ok l => !l.ent.getLsbD 1 || { entOf c (s.ctxVd c) l with d := e.d } ≠ e
  | .error _ => true

/-- R198.3, R198.4: translation of a canonical address by a core for a context, through the core's
buffer, its quad's, or a walk. Between a change of the tables and its TLBI each access takes the old translation or the
new one (R363, notes/assumptions/59.md). -/
def translate (core c : Nat) (va : W64) (write exec : Bool) : XRes :=
  if !canonical va then .fault tcPageInvalid
  else
    let a := va.toNat % 2 ^ 56
    let hit := match tlbFind (s.core core).tlb c a with
      | some e => some e
      | none => if core < 256 then tlbFind (s.quad (coreQuad core)).tlb c a else none
    match hit with
    | some e =>
      if (write && !e.d && e.w) || (s.staleEnt c va e && Config.newTranslation s.cyc a) then s.walkFill core c va write exec
      else useEnt c a e write exec (s.fillTlb core e)
    | none => s.walkFill core c va write exec

/-- R364: the named entries leave every buffer of the package. A clause entered from then on is translated again, so
that step 1 of R49 meets what the page tables have become. -/
def dropTlb (keep : TlbEnt → Bool) : State :=
  { s with
    cores := tmap s.cores fun k => { k with tlb := k.tlb.filter keep, clauses := [] }
    quads := tmap s.quads fun q => { q with tlb := q.tlb.filter keep } }

end State

end Sys2Proof.Machine
end

