-- ==== Sys2Proof/Machine/Access.lean ====
section
/-!
DEFINITION. Accesses: what a load returns, what a home does with a write or an atomic (06 R166 to R195,
07 R197 to R215), the dirty quota, the store queue, the L1, the write-combining buffer, fabric ports and their
tokens (08 R226 to R228, R240), the ordered source (R224, R225), and the orders each instruction waits for.
-/

namespace Sys2Proof.Machine

/-! ### Accesses as data -/

/-- The bytes an operation touches. -/
def AccOp.len : AccOp → Nat
  | .load z | .store z _ | .stbq z _ => z.bytes
  | .atom _ t _ | .red _ t _ | .cas t _ _ => t.bytes
  | .penq _ => 64

/-- An access touches a byte of the pod picture. -/
def Access.covers (a : Access) (pa : Nat) : Bool := decide (a.pa ≤ pa) && decide (pa < a.pa + a.op.len)

/-- An access touches a byte of a span. -/
def Access.meets (a : Access) (pa n : Nat) : Bool := decide (a.pa < pa + n) && decide (pa < a.pa + a.op.len)

/-- The data of a plain store. -/
def AccOp.data : AccOp → Nat
  | .store _ d | .stbq _ d => d
  | _ => 0

/-- R197: a loaded value as its destination holds it. -/
def extendBy (z : Size) (v : Nat) : Nat :=
  match z with
  | .s8 => wrapNat (signExt v 8) 32
  | .s16 => wrapNat (signExt v 16) 32
  | _ => v % 2 ^ (8 * z.bytes)

/-! ### Atomics (R211, R213) -/

/-- The register type that an atomic's operand type is read as. -/
def atyTy : Aty → Ty
  | .s32 => .s32 | .s64 => .s64 | .z32 => .z32 | .z64 => .z64 | .b32 => .b32 | .b64 => .b64
  | .f32 => .f32 | .f16x2 => .f16x2 | .bf16x2 => .bf16x2 | .fxa => .fxa

/-- One rounded sum of the home's arithmetic: nearest even, no flush. -/
def homeSum (ty : Ty) (a b : Nat) : Nat × BitVec 7 :=
  let (v, f) := sumF .rne false [decodeF ty false a, decodeF ty false b]
  let (bits, g) := roundTo ty .rne false false v
  (bits, f ||| g)

/-- R213: the value an atomic writes, and its flags. -/
def atomNew (op : Aop) (t : Aty) (old b : Nat) : Nat × BitVec 7 :=
  let ty := atyTy t
  let n := 8 * t.bytes
  match op with
  | .add =>
      match t with
      | .f32 => homeSum .f32 old b
      | .f16x2 | .bf16x2 =>
          let (lo, f) := homeSum ty (old % 65536) (b % 65536)
          let (hi, g) := homeSum ty (old / 65536) (b / 65536)
          (lo + hi * 65536, f ||| g)
      | .fxa =>
          let (x, f) := fxaRead old
          let (y, g) := fxaRead b
          let (v, h) := fxaClamp (x + y)
          (wrapNat v 128, f ||| g ||| h)
      | _ => ((old + b) % 2 ^ n, 0)
  | .min | .max =>
      match t with
      | .f32 =>
          let (v, f) := minMaxF (op = .max) (decodeF .f32 false old) (decodeF .f32 false b)
          ((roundTo .f32 .rne false false v).1, f)
      | _ =>
          let less := decide (intOf ty old < intOf ty b)
          ((if (op = .min) = less then old else b), 0)
  | .and => (old &&& b, 0)
  | .or => (old ||| b, 0)
  | .xor => (old ^^^ b, 0)
  | .exch => (b, 0)
  | .incw => ((if b ≤ old then 0 else old + 1), 0)
  | .decw => ((if old = 0 ∨ b < old then b else old - 1), 0)

/-- The value an operation leaves at its home, given the old one: none when it writes nothing. -/
def AccOp.writes (o : AccOp) (old : Nat) : Option (Nat × BitVec 7) :=
  match o with
  | .load _ => none
  | .store _ d | .stbq _ d => some (d, 0)
  | .atom op t b | .red op t b => some (atomNew op t old b)
  | .cas _ c n => if old = c then some (n, 0) else none
  | .penq _ => none

/-- R185, R186: a dirty line counts in its context's quota: it is not spilled, and no eviction has handed it to the
lane. -/
def Dirty.counted (d : Dirty) : Bool := !d.spilled && !d.out

/-- R226, R227: an input of the part as a receiver sees it: its port number, its watermark and its origin. -/
structure Input where
  port : Nat
  wm : Nat
  onode : Nat
  oport : Nat
  deriving DecidableEq, Repr

namespace State

variable (s : State)

/-! ### The pod picture -/

/-- A write performed at its home: the bytes, the stamp that wrote them (0 for none, R192), poison cleared from
every line it covers whole (R398), and replicas of its lines invalidated (R174). -/
def putMem (pa : Nat) (bs : List Byte) (stamp : Nat) : State :=
  let n := bs.length
  { s with
    mem := mputs s.mem pa bs
    stamps :=
      if stamp = 0 then (if s.stamps = [] then [] else s.stamps.filter fun x => decide (x.1 < pa) || decide (pa + n ≤ x.1))
      else (upTo n).foldl (fun t i => tput t (pa + i) stamp) s.stamps
    replicas := if s.replicas = [] then [] else s.replicas.filter fun l => decide (l < pa / 128) || decide (pa + n ≤ l * 128)
    poison :=
      if s.poison = [] then []
      else s.poison.filter fun p => match p with
        | .line l _ => !(decide (pa ≤ l * 128) && decide (l * 128 + 128 ≤ pa + n))
        | _ => true }

/-- R192: the highest stamp that wrote a byte of a span. -/
def stampOf (pa n : Nat) : Nat :=
  (s.stamps.filter fun x => decide (pa ≤ x.1) && decide (x.1 < pa + n)).foldl (fun m x => max m x.2) 0

/-- R398: whether a span holds poisoned data at its home, and in which structure it arose. -/
def poisonAt (pa n : Nat) : Option Bool :=
  s.poison.findSome? fun p => match p with
    | .line l c => if decide (l * 128 < pa + n) && decide (pa < l * 128 + 128) then some c else none
    | _ => none

/-- R193: a copy owns the line of an address; one that a stop has paused owns none (R267). -/
def ownedLine (line : Nat) : Bool := s.cores.any fun c => c.2.cmds.any fun m => m.stage = .moving && m.owns.contains line

/-! ### The dirty quota (R185 to R187, R341) -/

/-- R329: the key of a unit in the market's table. -/
def unitKey (pool idx : Nat) : Nat := pool * 256 + idx

/-- Units of a pool that a context holds, by their number in the pool. -/
def unitsOf (c pool : Nat) : List Nat :=
  (s.market.units.filter fun u => decide (u.1 / 256 = pool) && u.2.holder = some c).map fun u => u.1 % 256

def unitsHeld (c pool : Nat) : Nat := (s.unitsOf c pool).length

/-- R185: the cache ways a context holds on a die. -/
def waysHeld (c die : Nat) : Nat := s.unitsHeld c (64 + die)

def quota (c slice : Nat) : Nat :=
  let w := s.waysHeld c (sliceDie slice)
  if w = 0 then 2048 else 196608 * w

/-- The slice a dirty line stands on. -/
def dirtySlice (line : Nat) : Nat := s.homeOf (paOff (line * 128))

/-- Lines of a context dirty at a slice under its quota. -/
def dirtyCount (c slice : Nat) : Nat :=
  (s.dirty.filter fun d => d.2.ctx = c && d.2.counted && s.dirtySlice d.1 = slice).length

/-- R185: lines of a context spilled on a die. -/
def spilledCount (c die : Nat) : Nat :=
  (s.dirty.filter fun d => d.2.ctx = c && d.2.spilled && sliceDie (s.dirtySlice d.1) = die).length

/-- Lines held in a way of a slice's die, whichever context holds them, or in a context's floor share. -/
def wayLines (c slice : Nat) (way : Option Nat) : Nat :=
  (s.dirty.filter fun d => d.2.counted && d.2.way = way && s.dirtySlice d.1 = slice && (way.isSome || d.2.ctx = c)).length

/-- R185, R187, R341: where a new dirty line of a context goes: the first of its ways with space, or its floor share;
none while the space is still occupied. -/
def lineSpace (c slice : Nat) : Option (Option Nat) :=
  match s.unitsOf c (64 + sliceDie slice) with
  | [] => if s.wayLines c slice none < 2048 then some none else none
  | ws => (ws.find? fun w => decide (s.wayLines c slice (some w) < 196608)).map some

/-- Fields of STORECTL (R392). -/
def spillQuota (c : Nat) : Nat := bitsOf (s.ctx c).words.storectl 8 24
def storeThresh (c : Nat) : Nat := bitsOf (s.ctx c).words.storectl 32 32
def spillTraps (c : Nat) : Bool := (s.ctx c).words.storectl.getLsbD 1
def pressureTraps (c : Nat) : Bool := (s.ctx c).words.storectl.getLsbD 0

/-- The dirty line, of those chosen, that a measure puts first. -/
def firstDirty (p : Nat → Dirty → Bool) (rank : Dirty → Nat) : Option Nat :=
  (s.dirty.foldl (fun b d => if p d.1 d.2 then
      match b with
      | none => some (d.1, rank d.2)
      | some x => if rank d.2 < x.2 then some (d.1, rank d.2) else some x
    else b) (none : Option (Nat × Nat))).map (·.1)

/-- R186: the context's least recently written WB line on a slice. -/
def oldestWb (c slice : Nat) : Option Nat :=
  s.firstDirty (fun l d => d.ctx = c && d.wb && d.counted && s.dirtySlice l = slice) (·.last)

/-- A line handed to the write lane: dirty, no longer under WB, and from now in the set of a DRAIN (R209), which what
the lane already had of it stays in. -/
def toLane (line : Nat) : State :=
  let (n, s) := s.newId
  { s with dirty := match tget s.dirty line with
      | some d =>
          let ws := d.lane.foldl (fun t x => tput t x.1 x.2) (tmap d.writers fun _ => n)
          tput s.dirty line { d with wb := false, first := n, writers := ws, lane := [] }
      | none => s.dirty }

/-- R186: a WB line evicted into the write lane to stay within the quota. -/
def evictLine (line : Nat) : State :=
  let s := s.toLane line
  { s with dirty := match tget s.dirty line with
      | some d => tput s.dirty line { d with out := true, way := none }
      | none => s.dirty }

/-- R184: a line dirty from the write of a context, in the order of its acceptance. A WB store to a line in the lane
holds it under WB again, and what the lane has of it still goes to the array (R186, R209); a store that is not under
WB sends the line to the lane. -/
def dirtyLine (c : Nat) (wb spilled out : Bool) (way : Option Nat) (line : Nat) : State :=
  let (n, s) := s.newId
  let d : Dirty := match tget s.dirty line with
    | some d =>
        if wb && !d.wb && d.ctx = c then { d with wb, last := n, writers := [(c, n)], lane := d.writers }
        else
          let ws := if wb || !d.wb then d.writers else d.lane.foldl (fun t x => tput t x.1 x.2) d.writers
          { d with wb := d.wb && wb, last := n, writers := if (tget ws c).isSome then ws else tput ws c n
                   lane := if wb then d.lane else [] }
    | none => { ctx := c, writers := [(c, n)], wb, first := n, last := n, spilled, out, way, lane := [] }
  { s with dirty := tput s.dirty line (if d.ctx = c then { d with spilled, out, way } else d) }

/-- R184 to R186: a home slice accepts a write of a line for a context, or the context is at its quota, or its ways are
still held by their last holder (R341). A WB line evicts another at the quota, whatever the store, and an STBQ finds
the held ways as it finds the quota (notes/assumptions/75.md). At its quota a context writes no more into its ways: the
overflow engine takes a line of them into the system ways as it takes any other. -/
def acceptLine (c : Nat) (wb spill : Bool) (line : Nat) : Option State :=
  let slice := s.dirtySlice line
  let wb := wb && decide (0 < s.waysHeld c (sliceDie slice))
  let mine := match tget s.dirty line with | some d => if d.ctx = c then some d else none | none => none
  let full := decide (s.quota c slice ≤ s.dirtyCount c slice)
  let evict : State := match s.oldestWb c slice with
    | some l =>
        let s := s.evictLine l
        match s.lineSpace c slice with
        | some w => s.dirtyLine c wb false false w line
        | none => s.dirtyLine c false false true none line
    | none => s.dirtyLine c false false true none line
  match mine with
  | some d =>
      if d.counted && (!full || wb) then some (s.dirtyLine c wb false false d.way line)
      else if d.spilled && (!full || spill) then some (s.dirtyLine c false true false none line)
      else if full then
        if wb then some evict
        else if spill && decide (s.spilledCount c (sliceDie slice) < s.spillQuota c) then
          some (s.dirtyLine c false true false none line)
        else none
      else (s.lineSpace c slice).map fun w => s.dirtyLine c wb false false w line
  | none =>
      if full then
        if wb then some evict
        else if spill && decide (s.spilledCount c (sliceDie slice) < s.spillQuota c) then
          some (s.dirtyLine c false true false none line)
        else none
      else if (tget s.dirty line).isSome then some (s.dirtyLine c wb false false none line)
      else match s.lineSpace c slice with
        | some w => some (s.dirtyLine c wb false false w line)
        | none => if wb then some evict else none

/-- R344: the counter of a line's bytes carried into DRAM: a write-lane slot's, or the system share's. -/
def carriedBy (d : Dirty) (slots : Bool) : Nat := if d.spilled || !slots then 7 else 6

/-- R184: a line's writes are in the DRAM array, carried by its context's slots or by the system share; what is held
under WB stays dirty (R186). -/
def lineInDram (line : Nat) (slots : Bool) : State :=
  match tget s.dirty line with
  | some d =>
      { s.bump 0 (s.ctxTenant d.ctx) (carriedBy d slots) 128 with
        dirty := if d.wb then tput s.dirty line { d with lane := [] } else tdel s.dirty line }
  | none => s

/-- R185: the line whose draining makes room for one of a context at a slice: its own, or one of another context that
still stands in its ways (R341). -/
def drainFor (c slice : Nat) : Option Nat :=
  (s.firstDirty (fun l d => d.ctx = c && d.counted && !d.wb && s.dirtySlice l = slice) (·.first)).orElse fun _ =>
  (s.oldestWb c slice).orElse fun _ =>
  s.firstDirty (fun l d => d.counted && s.dirtySlice l = slice &&
    match d.way with | some w => (s.unitsOf c (64 + sliceDie slice)).contains w | none => false) (·.first)

/-- R185: a write that stands in no store queue is charged as a store is, and waits, at its quota, until a line has
drained (notes/assumptions/9.md). -/
def acceptDraining (c : Nat) (wb : Bool) (line : Nat) : State :=
  match s.acceptLine c wb false line with
  | some s => s
  | none =>
    let slice := s.dirtySlice line
    match s.drainFor c slice with
    | some l =>
        let s := s.lineInDram l (decide (0 < s.unitsHeld c (128 + sliceDie slice)))
        (s.acceptLine c wb false line).getD s
    | none => s

/-- R185: the context that a write by copy or from outside the package is charged to: the lowest active context of the
device that owns the page's range (notes/assumptions/11.md). -/
def pageOwner (off : Nat) : Option Nat :=
  match s.rangeAt off with
  | some (_, r) => (upTo 256).find? fun c => s.active c && s.ctxVd c = r.vd
  | none => none

/-- R184, R185: a line of such a write is charged to one context, and is a write of another: that of the copy, or of
none. -/
def chargeLine (c : Nat) (by_ : Option Nat) (line : Nat) : State :=
  let had := match tget s.dirty line with | some d => (tget d.writers c).isSome | none => false
  let s := s.acceptDraining c false line
  { s with dirty := match tget s.dirty line with
      | some d =>
          let ws := if had then d.writers else tdel d.writers c
          tput s.dirty line { d with writers := match by_ with
            | some b => if (tget ws b).isSome then ws else tput ws b d.last
            | none => ws }
      | none => s.dirty }

/-- R185: the lines of a write by copy or from outside are charged to their page's owner; the writes themselves are the
copy's context's (R184), or no context's. -/
def chargeLines (by_ : Option Nat) (pa n : Nat) : State :=
  match s.pageOwner (paOff pa) with
  | some c => (upTo ((pa % 128 + n + 127) / 128)).foldl (fun (s : State) i => s.chargeLine c by_ (pa / 128 + i)) s
  | none => s

/-! ### Store queue and write-combining buffer (R173, R188, R205) -/

/-- The plain stores of a core that are not at home, wherever they stand. -/
def storesOf (c : Nat) : List Access :=
  let k := s.core c
  (s.accs.filter fun a => a.core = c && a.op.isStore) ++ k.wcb.flatMap (·.stores) ++ k.sq

/-- The value of a byte of a store. -/
def storeByte (a : Access) (pa : Nat) : Byte := BitVec.ofNat 8 (a.op.data / 256 ^ (pa - a.pa))

/-- R173: the youngest queued store to a byte, whichever thread of the core made it. -/
def queuedByte (c pa : Nat) : Option Byte :=
  ((s.storesOf c).foldl (fun b a =>
    if a.covers pa then
      match b with
      | none => some a
      | some x => if x.id < a.id then some a else some x
    else b) none).map fun a => storeByte a pa

/-- What a core reads of bytes, given those at their home or in its L1: its youngest queued store to each, else the
byte (R173). -/
def mergeQueued (c pa : Nat) (bs : List Byte) : List Byte :=
  bs.mapIdx fun i b => (s.queuedByte c (pa + i)).getD b

/-- R192: the stamp of a value so read, given the stamp that wrote each byte: a queued store has none. -/
def readStamp (c pa n : Nat) (stamp : Nat → Nat) : Nat :=
  (upTo n).foldl (fun m i => if (s.queuedByte c (pa + i)).isSome then m else max m (stamp i)) 0

/-- R195: a thread has read queued bytes: those of another workgroup's stores have been seen. -/
def markSeen (c pa n t : Nat) : State :=
  let mine := (s.thread t).wg
  let new (a : Access) : Bool := !a.seen && a.meets pa n && !a.tids.any fun u => (s.thread u).wg = mine
  if (s.core c).sq.any new then
    s.modCore c fun k => { k with sq := k.sq.map fun a => if new a then { a with seen := true } else a }
  else s

/-- R398: a queued store that a read takes bytes from is poisoned. -/
def queuedPoison (c pa n : Nat) : Bool :=
  s.poison ≠ [] && (s.storesOf c).any fun a => a.meets pa n && s.poison.contains (.store a.id)

/-- Lines in a store queue (R184: 64 lines). -/
def queueLines (q : List Access) : List Nat := (q.map fun a => a.pa / 128).eraseDups

/-! ### The L1 (R175, R204) -/

/-- R204: the order in which an L1 evicts lines: .str and .byp first, .stk last (notes/assumptions/62.md). -/
def evictRank : Retain → Nat
  | .str | .byp => 0 | .dflt => 1 | .stk => 2

/-- Lines of an L1 (R23). -/
def l1Lines : Nat := 4096

/-- R204: a line leaves an L1; one of .def or .stk whose home slice stands on the other die is kept there as a replica. -/
def evictL1 (c line : Nat) : State :=
  match tget (s.core c).l1 line with
  | none => s
  | some x =>
    let s := s.modCore c fun k => { k with l1 := tdel k.l1 line }
    if evictRank x.hint ≠ 0 && s.isLocal (line * 128) && sliceDie (s.dirtySlice line) ≠ coreDie c then
      { s with replicas := insertNat line s.replicas }
    else s

/-- The line that a full L1 evicts for another. -/
def l1Victim (c : Nat) : Option Nat :=
  ((s.core c).l1.foldl (fun b x => match b with
    | none => some x
    | some y =>
        if evictRank x.2.hint < evictRank y.2.hint ||
          (evictRank x.2.hint = evictRank y.2.hint && decide (x.2.used < y.2.used)) then some x else some y)
    (none : Option (Nat × L1Line))).map (·.1)

/-- R204: a line is marked with the retention of an access to it, in an L1 and at its home slice. -/
def markLine (c line : Nat) (h : Retain) : State :=
  let s := if (tget (s.core c).l1 line).isSome then
      s.modCore c fun k => { k with l1 := tmod k.l1 line ⟨[], h, 0, []⟩ fun x => { x with hint := h, used := s.cyc } }
    else s
  if s.isLocal (line * 128) then { s with hints := tput s.hints line h } else s

/-- R175, R204: a line is brought into a core's L1, with the stores that the core has queued; poisoned ones keep it
out (R398). -/
def fillL1 (c line : Nat) (h : Retain) : State :=
  let pa := line * 128
  if s.queuedPoison c pa 128 then s else
  let bs := s.mergeQueued c pa (mbytes s.mem pa 128)
  let st := (s.stamps.filter fun x => decide (pa ≤ x.1) && decide (x.1 < pa + 128) && (s.queuedByte c x.1).isNone).map
    fun x => (x.1 - pa, x.2)
  let s := if (tget (s.core c).l1 line).isNone && decide (l1Lines ≤ (s.core c).l1.length) then
      (match s.l1Victim c with | some v => s.evictL1 c v | none => s)
    else s
  s.modCore c fun k => { k with l1 := tput k.l1 line { bytes := bs, hint := h, used := s.cyc, stamps := st } }

/-- R175, R192: a store updates its core's L1 copy, if there is one: the bytes, and the stamp of an ordered one (0 for
none). -/
def updateL1 (c pa : Nat) (bs : List Byte) (stamp : Nat) : State :=
  if (tget s.cores c).isNone then s else
  s.modCore c fun k => { k with l1 := k.l1.map fun l =>
    let has (i : Nat) : Bool := decide (pa ≤ l.1 * 128 + i) && decide (l.1 * 128 + i < pa + bs.length)
    (l.1, { l.2 with
      bytes := l.2.bytes.mapIdx fun i b => if has i then bs.getD (l.1 * 128 + i - pa) b else b
      stamps :=
        let kept := l.2.stamps.filter fun x => !has x.1
        if stamp = 0 then kept else ((upTo 128).filter has).foldl (fun t i => tput t i stamp) kept }) }

/-- R175: every line of a core's L1 is invalidated. -/
def clearL1 (c : Nat) : State := s.modCore c fun k => { k with l1 := [] }

def dropL1 (c line : Nat) : State := s.modCore c fun k => { k with l1 := tdel k.l1 line }

/-! ### Sources and watermarks (R223 to R229) -/

/-- R223: the copy of pod time of a source (R224), or of fabric port p at 512 + p. -/
def clock (n : Nat) : Nat := s.now - (tget s.lag n).getD 0

/-- R227: port numbers of this node: an injection port, the router input of a source's own quad, a fabric input, and a
die's end of the die-to-die link. -/
def injPort (src : Nat) : Nat := if src < 256 then src else 0x100 + (src - 256)
def ownPort (src : Nat) : Nat := 0x400 + 8 * (if src < 256 then src / 4 else (src - 256) * 32) + 4
def fabricPort (p : Nat) : Nat := 0x200 + p
def isFabricPort (n : Nat) : Bool := decide (0x200 ≤ n) && decide (n < 0x218)
def linkPort (die : Nat) : Nat := 0x220 + die

/-- The die of a source, and of a fabric port (notes/assumptions/10.md). -/
def srcDie (src : Nat) : Nat := if src < 256 then src / 128 else src - 256
def portDie (p : Nat) : Nat := p / 12

/-- R226, R233: an input takes part in the watermarks: trained, as the ports of the mesh and of the die-to-die link
are, and not cut. -/
def inputUp (n : Nat) : Bool :=
  match tget s.ports n with
  | some p => p.trained && !p.cut
  | none => !isFabricPort n

/-- R226: what enters on a die reaches another die's nodes over the link, while its input there takes part. -/
def reaches (from_ die : Nat) : Bool := from_ = die || s.inputUp (linkPort die)

/-- R226, R227: the inputs that feed the nodes of a die, but for the sources whose copy runs with the part: sources
that stand behind, own ordered packets on the mesh, and fabric inputs. -/
def lateInputs (die : Nat) : List Input :=
  let me := s.node.toNat
  ((s.lag.filter fun x => decide (x.1 < 258) && s.reaches (srcDie x.1) die && s.inputUp (injPort x.1)).map fun x =>
    ⟨injPort x.1, s.clock x.1, me, injPort x.1⟩) ++
  ((s.ords.filter fun o => o.st = .sent && decide (o.recv < 48) && s.reaches (srcDie o.src) die && s.inputUp (ownPort o.src)).map
    fun o => ⟨ownPort o.src, o.rank.stamp, me, ownPort o.src⟩) ++
  ((s.ports.filter fun p => isFabricPort p.1 && p.2.trained && !p.2.cut && s.reaches (portDie (p.1 - 0x200)) die).map fun p =>
    ⟨p.1, p.2.wm, p.2.onode, p.2.oport⟩)

/-- R226, R229: the lowest watermark among the uncut inputs that feed a die's nodes. -/
def inputMark (die : Nat) : Nat := (s.lateInputs die).foldl (fun m x => min m x.wm) s.now

/-- R227: the origin of a watermark of a die's nodes, and of what else holds it: of equal inputs, the one with the
lowest port number. -/
def originOf (die m : Nat) (more : List Input) : Nat × Nat :=
  let me := s.node.toNat
  let late := (s.lateInputs die ++ more).filter fun x => x.wm = m
  let prompt := if m = s.now then
      ((upTo 258).find? fun n => (tget s.lag n).isNone && s.reaches (srcDie n) die && s.inputUp (injPort n)).toList.map fun n =>
        (⟨injPort n, m, me, injPort n⟩ : Input)
    else []
  match (late ++ prompt).foldl (fun b x => match b with
      | none => some x
      | some y => if x.port < y.port then some x else some y) (none : Option Input) with
  | some x => (x.onode, x.oport)
  | none => (me, 0)

/-- R227: the origin of the lowest watermark of a die's inputs. -/
def lowestOrigin (die : Nat) : Nat × Nat := s.originOf die (s.inputMark die) []

/-- R229, R224: the receiver of an address: a home slice of this package, or a bank of another node
(notes/assumptions/64.md). -/
def recvOf (pa : Nat) : Nat :=
  if s.isLocal pa then s.homeOf (paOff pa) else 48 + paNode pa * 4096 + Config.bankOf (pa / 128) % 4096

/-- R229: the watermark of a receiver of this package, or of another node's as it was last heard. -/
def markOf (r : Nat) : Nat := if r < 48 then max (s.recv r).w (s.inputMark (sliceDie r)) else (s.recv r).w

/-- R221: a receiver has passed a stamp: its watermark exceeds it, and every operation for it that this package knows
of, stamped at or below it, has been applied. -/
def passed (r stamp : Nat) : Bool :=
  decide (stamp < s.markOf r) && !(s.ords.any fun o => o.recv = r && decide (o.rank.stamp ≤ stamp) &&
    (o.st = .held || o.st = .sent))

/-- R192, R231: the receiver that serves a load under a floor has applied what it asks. -/
def floorOk (floor pa : Nat) : Bool := floor = 0 || isHost pa || s.passed (s.recvOf pa) floor

/-! ### Fabric ports and tokens (R226, R228, R240) -/

/-- The fabric port a packet for a node leaves by: a fold's own port, and for another package one that
the line selects (notes/assumptions/8.md). -/
def portTo (pa : Nat) : Nat :=
  let n := paNode pa
  if 0x100 ≤ n then n - 0x100 else pa / 128 % 24

/-- R375: the tenant may send on a port. -/
def fabricOk (tenant port : Nat) : Bool := ((tget (s.tenant tenant).fabric port).getD 0).getLsbD 0

def out (p : Nat) : PortOut := (tget s.outs p).getD .zero

/-- The flits that wait at a port, and the waiting flits of one tenant there. -/
def flitsAt (p : Nat) : List Flit := (tget s.flitq p).getD []
def queuedAt (tenant p : Nat) : Nat := ((s.flitsAt p).filter fun f => f.tenant = tenant).length

/-- R240: a flit of the work with an identity still waits for a token. -/
def flitWaits (id : Nat) : Bool := s.flitq.any fun q => q.2.any fun f => f.id = id

/-- R199, R411: a flit of the work waits at a port that can still send it, so that the time of its loss has not
begun (notes/assumptions/66.md). -/
def flitPending (id : Nat) : Bool :=
  s.flitq.any fun q => (q.2.any fun f => f.id = id) && (s.port (fabricPort q.1)).trained

/-- R411: a flit of lost work that waited at a port leaves the queue. -/
def dropFlit (id : Nat) : State :=
  if s.flitWaits id then { s with flitq := tmap s.flitq fun q => q.filter fun f => f.id ≠ id } else s

/-- The memory operation writes its home. -/
def opWrites : AccOp → Bool
  | .load _ | .penq none => false
  | _ => true

/-- Where an ordered operation goes. -/
def ordPa : OrdWork → Nat
  | .access a => a.pa
  | .pen _ _ _ pa _ _ | .signal _ pa _ _ | .inbound _ pa _ => pa

/-- R226, R241: the ordered packets that hold back a fabric port's watermark, each at the input it came by: those that
wait at the port, and those lost behind it. -/
def portHolds (p : Nat) : List Input :=
  let me := s.node.toNat
  ((s.ords.filter fun o => decide (48 ≤ o.recv) && decide (portTo (ordPa o.work) = p) && s.flitWaits o.id).map fun o =>
    ⟨ownPort o.src, o.rank.stamp, me, ownPort o.src⟩) ++
  ((s.out p).lost.map fun x => ⟨x.2, x.1, me, x.2⟩)

/-- R226: the watermark of a fabric port's sending end: the lowest of the inputs and of the packets that hold it. -/
def outMark (p : Nat) : Nat := (s.portHolds p).foldl (fun m x => min m x.wm) (s.inputMark (portDie p))

/-- R227: the origin of that watermark. -/
def outOrigin (p : Nat) : Nat × Nat := s.originOf (portDie p) (s.outMark p) (s.portHolds p)

/-- R226: what a fabric port advertises next; never below what it has advertised. -/
def advertised (p : Nat) : Nat := max (s.out p).adv (s.outMark p)

/-- R226, R228, R235: a fabric port sends a watermark, which every cut input will have to exceed to rejoin. -/
def advertise (p : Nat) : State :=
  let v := s.advertised p
  { s with
    outs := tput s.outs p { s.out p with adv := v, at_ := s.clock (512 + p) }
    ports := tmap s.ports fun x => if x.cut then { x with adv := max x.adv v } else x }

/-- R228: an ordered packet leaves its port with the port's watermark and origin. -/
def sendPacket (o : OrdOp) : State :=
  let p := portTo (ordPa o.work)
  let (n, q) := s.outOrigin p
  let s := { s with ords := s.ords.map fun (x : OrdOp) => if x.id = o.id then { x with left := s.now } else x }
  let s := s.advertise p
  { s with sent := s.sent ++ [.packet p o.rank (s.out p).adv n q] }

/-- The identity of the flit that carries the first read of a thread's WAIT. -/
def waitFlit (t : Nat) : Nat := 2 ^ 32 + t

/-- R240, R344: a flit has left; the time of its access, entry, command or wait counts from now (R199). -/
def flitLeft (tenant id : Nat) : State :=
  let s := s.bump 0 tenant 8 256
  match s.ords.find? fun o => o.id = id with
  | some o => s.sendPacket o
  | none =>
    { s with
      replies := tdel s.replies id
      sent := s.sent ++ (tget s.replies id).toList
      threads := match if 2 ^ 32 ≤ id then tget s.threads (id - 2 ^ 32) else none with
        | some x => tput s.threads (id - 2 ^ 32) { x with wait := x.wait.map fun w => { w with sent := s.now } }
        | none => s.threads
      accs := s.accs.map fun a => if a.id = id then { a with sent := s.now } else a
      cores := if s.cores.any fun k => (k.2.wcb.any fun e => e.id = id) || k.2.cmds.any fun m => m.id = id then
          tmap s.cores fun k => { k with
            wcb := k.wcb.map fun e => if e.id = id then { e with sent := some s.now } else e
            cmds := k.cmds.map fun m => if m.id = id then { m with since := s.now } else m }
        else s.cores }

/-- R411, R414: a fabric port sends: its link has trained, and its sensor has not stopped it. -/
def portSends (port : Nat) : Bool := (s.port (fabricPort port)).trained && !s.hotPorts.contains port

/-- R240: a flit leaves by its tenant's bucket, or waits at the port behind the tenant's others, as it does at a port
that sends nothing. -/
def sendFlit (tenant port id : Nat) : State :=
  let t := s.tenant tenant
  if 32 ≤ (tget t.flits port).getD 0 && s.portSends port && s.queuedAt tenant port = 0 then
    (s.modTenant tenant fun t =>
      { t with flits := tput t.flits port ((tget t.flits port).getD 0 - 32), used := tadd t.used port 1 }).flitLeft tenant id
  else { s with flitq := tput s.flitq port (s.flitsAt port ++ [⟨tenant, id⟩]) }

/-- R240, R375: a reply with data for a tenant's access leaves by a fabric port as the tenant's flits do; a port that is
closed to the tenant refuses it. -/
def sendReply (tenant port : Nat) (m : Sent) : State :=
  if s.fabricOk tenant port then
    let (id, s) := s.newId
    { s with replies := tput s.replies id m }.sendFlit tenant port id
  else s.bump 0 tenant 9 1

/-- R240: an access of another node is answered with data, which takes a token; a store's answer takes none. -/
def opReplies : HomeOp → Bool
  | .store _ _ | .pen _ => false
  | _ => true

/-- R233, R241: a flit from an address's node has reached its fabric port. -/
def hearFlit (pa : Nat) : State :=
  if isHost pa || s.isLocal pa then s
  else
    let n := fabricPort (portTo pa)
    match tget s.ports n with
    | some x => s.setPort n { x with heard := s.now }
    | none => s

/-- R408, R414: the host port of a window of host memory has been stopped by its sensor; host ports are ports 24 to 27. -/
def hostHot (pa : Nat) : Bool :=
  match tget (s.vd ((pa - 2 ^ 60) / 2 ^ 52)).windows (pa / 2 ^ 48 % 16) with
  | some w => s.hotPorts.contains (24 + w.port)
  | none => false

/-- R408, R414: there is no such host port, or its sensor has stopped it, so that what comes by it waits. -/
def portShut (port : Nat) : Bool := decide (4 ≤ port) || s.hotPorts.contains (24 + port)

/-- R414: the home slice of an address, or the host port by which it is reached, has been stopped by its sensor. -/
def sliceHot (pa : Nat) : Bool :=
  if isHost pa then s.hostHot pa else s.isLocal pa && s.hotSlices.contains (s.homeOf (paOff pa))

/-! ### Loss and refusal (R199, R375, R408) -/

/-- The thread is there: not ended, saved or discarded. -/
def hasThread (t : Nat) : Bool := (tget s.threads t).isSome

/-- A deferred error for each thread of an access: a failed one, which `again` has ERET with retry issue again, or one
whose ordered operation a cut has held up (R234). -/
def deferAll (a : Access) (code : Nat) (onode oport : Nat) (again : Bool) (op : Option Nat) : State :=
  (a.tids.zip a.nth).foldl (fun s x =>
    let (id, s) := s.newId
    if !s.hasThread x.1 then s else
    s.modThread x.1 fun t => { t with errs := t.errs ++ [{
      id, code, ctr := a.ctr, nth := if a.op.counted then x.2 else t.nth a.ctr + 1, apc := a.pc, aidx := a.idx, entry := 0, addr := a.va, onode
      oport, lowers := false, again := if again then some a else none, acc := some a, age := a.id, op }] }) s

/-- The counters of an access fall (R38). -/
def fall (a : Access) : State :=
  if !a.op.counted then s else
  a.tids.foldl (fun s t => if s.hasThread t then s.modThread t fun x => x.uncount a.ctr else s) s

/-- The destination of an access is written, once, for its lowest thread. -/
def deliver (a : Access) (v : Nat) : State :=
  match a.tids with
  | [] => s
  | t :: _ => if s.hasThread t then s.wrD t a.dst a.grp.2 v else s

/-- R266: the threads blocked for an access's reply go on. -/
def wakeReply (a : Access) : State :=
  a.tids.foldl (fun s t =>
    match (s.thread t).wait with
    | some w => if w.kind = .reply a.id then s.modThread t fun x => { x with st := .running, wait := none } else s
    | none => s) s

/-- R344: an event of a context's error meter, counted under its own index too. -/
def ctxFault (c code : Nat) : State :=
  let k := if code = tcStalledWatermark then 1 else if code = tcOrderLate then 2
    else if code = tcPeerUnreachable then 3 else 4
  (s.ctxError c).bump 2 c k 1

/-- R199: an access lost or rejected: the destination reads 0, a write leaves no byte in its core's L1 either, the
counter falls, and the thread will raise the deferred error; an STBQ reports through its status. -/
def failAccess (a : Access) (code : Nat) : State :=
  let s := { s with accs := s.accs.filter fun x => x.id ≠ a.id }
  let s := if a.op.isLoad then s else s.dropL1 a.core (a.pa / 128)
  let s := ((s.fall a).ctxFault a.ctx code).wakeReply a
  match a.op with
  | .stbq _ _ => s.deliver a 3
  | .store _ _ | .red _ _ _ => s.deferAll a code 0 0 true none
  | _ => (s.deliver a 0).deferAll a code 0 0 true none

/-- An access leaves its core for its home; one that a port or a dead queue pair refuses is lost at once. -/
def pushAccess (a : Access) : State :=
  let s := { s with accs := s.accs ++ [a] }
  if isHost a.pa then
    if (s.vd (s.ctxVd a.ctx)).dead.contains (a.pa / 2 ^ 48 % 16) then s.failAccess a tcPeerUnreachable else s
  else if s.isLocal a.pa then s
  else
    let t := s.ctxTenant a.ctx
    if s.fabricOk t (portTo a.pa) then s.sendFlit t (portTo a.pa) a.id
    else s.failAccess a tcPeerUnreachable

/-! ### Outstanding work of a thread -/

/-- Loads and fetching atomics of a thread that are not performed (R173). -/
def loadsOut (t : Nat) : Bool := s.outstanding.any fun a => a.op.isLoad && a.tids.contains t

/-- Stores and reductions of a thread that are not at home. -/
def storesOut (t : Nat) : Bool :=
  (s.outstanding.any fun a => !a.op.isLoad && a.tids.contains t) ||
    (s.storesOf (tidCore t)).any fun a => a.tids.contains t

/-- Every access of a thread not yet complete. -/
def accessesOf (t : Nat) : List Access :=
  (s.outstanding.filter fun a => a.tids.contains t) ++
    ((s.core (tidCore t)).wcb.flatMap (·.stores) ++ (s.core (tidCore t)).sq).filter fun a => a.tids.contains t

/-- R179, R189, R195: the thread has an acquire whose loads are not performed, an access of an SC page that is not, or
residue that is not yet applied. -/
def fenced (t : Nat) : Bool :=
  let x := s.thread t
  (s.outstanding.any fun a => a.tids.contains t && (a.op.isLoad || a.acq.isSome) && decide (a.id ≤ x.fence)) ||
    (s.accessesOf t).any fun a => a.sc || decide (a.id ≤ x.resid)

/-- R178, R180: a release of a thread at a scope must still wait. At .wg the thread's loads, reductions and ordered
stores have to be performed; at .quad or wider also its other stores, and the stores of its context's
other threads on the core that were made before the release began. -/
def releaseWaits (t : Nat) (sc : Scope) : Bool :=
  let th := s.thread t
  let c := s.ctxOf t
  let since := th.stallFrom.getD s.cyc
  s.loadsOut t ||
    (match sc with
     | .wg => s.outstanding.any fun a => a.tids.contains t && (!a.op.isStore || a.ord)
     | _ => s.storesOut t || (s.storesOf (tidCore t)).any fun a => a.ctx = c && decide (a.cycle < since))

/-- R188: entries of the buffer that hold a thread's stores are sent. -/
def sendEntry (core id : Nat) : State :=
  match (s.core core).wcb.find? fun e => e.id = id with
  | none => s
  | some e =>
    if e.sent.isSome then s
    else
      let t := s.ctxTenant e.ctx
      let pa := e.line * 128
      let s := s.modCore core fun k =>
        { k with wcb := k.wcb.map fun x => if x.id = id then { x with sent := some s.now } else x }
      if s.fabricOk t (portTo pa) then s.sendFlit t (portTo pa) id
      else
        let s := s.modCore core fun k => { k with wcb := k.wcb.filter fun x => x.id ≠ id }
        e.stores.foldl (fun s a => s.failAccess a tcPeerUnreachable) s

def sendOwn (t : Nat) : State :=
  ((s.core (tidCore t)).wcb.filter fun e => e.stores.any fun a => a.tids.contains t).foldl
    (fun s e => s.sendEntry (tidCore t) e.id) s

def sendAllOwn (ts : List Nat) : State := ts.foldl (fun s t => s.sendOwn t) s

/-! ### The ordered source (R190, R223 to R225) -/

/-- R224: the source index of a core or command processor, which is its number here. -/
def ordSource (t : Nat) : Nat := tidCore t

/-- R225: operations that have left a source and are not acknowledged. -/
def ordOut (src : Nat) : Nat := (s.ords.filter fun o => o.src = src).length

/-- R223, R225: the source may emit some more ordered operations. -/
def ordRoom (src n : Nat) : Bool := s.timed && decide (s.ordOut src + n ≤ 32)

/-- R223, R225: the source may emit one more ordered operation. -/
def ordReady (src : Nat) : Bool := s.ordRoom src 1

/-- R190, R224: an ordered operation leaves its source with its rank, over its port if it goes to another node. -/
def sendOrdered (src : Nat) (pa : Nat) (ctx : Nat) (work : OrdWork) : State :=
  let (id, s) := s.newId
  let seq := if src < 256 then (s.core src).seq else (tget s.cpSeq (src - 256)).getD 0
  let stamp := s.clock src
  let o : OrdOp :=
    { id, src, recv := s.recvOf pa, work, st := .sent, left := s.now
      rank := { stamp, pkg := s.node.toNat, idx := src, seq := seq % 65536 } }
  let s := { s with ords := s.ords ++ [o], lastStamp := tput s.lastStamp src stamp }
  let s := if src < 256 then s.modCore src fun k => { k with seq := k.seq + 1 }
    else { s with cpSeq := tput s.cpSeq (src - 256) (seq + 1) }
  if s.isLocal pa then s else s.sendFlit (s.ctxTenant ctx) (portTo pa) id

/-- An ordered access leaves its core, or its port refuses it (R375). -/
def sendOrdAccess (src : Nat) (a : Access) : State :=
  if s.isLocal a.pa || s.fabricOk (s.ctxTenant a.ctx) (portTo a.pa) then s.sendOrdered src a.pa a.ctx (.access a)
  else s.failAccess a tcPeerUnreachable

/-! ### Homes -/

/-- R192: a thread's floor rises. -/
def raiseFloor (t stamp : Nat) : State := s.modThread t fun x => { x with floor := max x.floor stamp }

/-- R176, R180: an earlier access of the same thread touches the same bytes, or, for a write, an earlier store of its
core does, whichever thread made it. -/
def behindOwn (a : Access) : Bool :=
  (s.outstanding.any fun b => decide (b.id < a.id) && b.meets a.pa a.op.len && b.tids.any a.tids.contains) ||
    (!a.op.isLoad && (s.storesOf a.core).any fun b => decide (b.id < a.id) && b.meets a.pa a.op.len)

/-- R175, R179, R192: what an acquire at a scope does when it is performed by a thread. -/
def acquireBy (t : Nat) (sc : Scope) (stamp : Nat) : State :=
  if sc = .wg then s else (s.raiseFloor t stamp).clearL1 (tidCore t)

/-- R179: an acquire that is no load of its own: no later access of the thread before its earlier loads. -/
def acquireAt (t : Nat) (sc : Scope) (stamp : Nat) : State :=
  (s.modThread t fun x => { x with fence := s.fresh }).acquireBy t sc stamp

/-- R398, R399: poisoned data of a structure reaches a context; an access that no thread waits for any longer ends. -/
def consumed (a : Access) (struct : Nat) : State :=
  if a.tids = [] then { s with accs := s.accs.filter fun x => x.id ≠ a.id }
  else s.kill a.ctx 1 0 struct a.pa a.va

end State

end Sys2Proof.Machine
end

