-- ==== Sys2Proof/Machine/Integer.lean ====
section
/-!
DEFINITION. Rows 0x1 and 0x2: integer arithmetic, logic, shifts, selection, bit fields, moves and
integer predicates (04 R103 to R111). Each meaning is one definition over the shared step of R101.
-/

namespace Sys2Proof.Machine

abbrev Result := Host.Outcome State Fault Refusal

/-- A meaning of R101: each participant's effect, computed from the state before any write. -/
def aluMeaning (i : Instr) (f : State → List Nat → Nat → Effect) (s : State) : Result :=
  .next (s.issue i (State.alu f))

/-! ### R103 -/

/-- A binary integer operation on exact values. -/
def binInt (x : Bin) (op : Int → Int → Int) (s : State) (_ : List Nat) (t : Nat) : Effect :=
  let k := x.ty.words
  let (v, fl) := narrow x.ty false (op (intOf x.ty (s.rdN t x.a k)) (intOf x.ty (s.rdN t x.b k)))
  .reg x.d k v fl

/-- A binary integer operation with .sat. -/
def binSat (x : BinS) (op : Int → Int → Int) (s : State) (_ : List Nat) (t : Nat) : Effect :=
  let k := x.ty.words
  let (v, fl) := narrow x.ty x.sat (op (intOf x.ty (s.rdN t x.a k)) (intOf x.ty (s.rdN t x.b k)))
  .reg x.d k v fl

/-- R103: IADD. -/
def execIadd (x : BinS) (s : State) : Result := aluMeaning (.iadd x) (binSat x (· + ·)) s
/-- R103: ISUB. -/
def execIsub (x : BinS) (s : State) : Result := aluMeaning (.isub x) (binSat x (· - ·)) s
/-- R103: IMUL. -/
def execImul (x : BinS) (s : State) : Result := aluMeaning (.imul x) (binSat x (· * ·)) s
/-- R103: IMULH, the high half of the exact product. -/
def execImulh (x : Bin) (s : State) : Result :=
  aluMeaning (.imulh x) (binInt x fun a b => (a * b) / (2 : Int) ^ tyBits x.ty) s

/-- R103: IMAD, one exact result. -/
def imadEffect (x : TernS) (s : State) (_ : List Nat) (t : Nat) : Effect :=
  let k := x.ty.words
  let (v, fl) := narrow x.ty x.sat
    (intOf x.ty (s.rdN t x.a k) * intOf x.ty (s.rdN t x.b k) + intOf x.ty (s.rdN t x.c k))
  .reg x.d k v fl

def execImad (x : TernS) (s : State) : Result := aluMeaning (.imad x) (imadEffect x) s

/-- R103: IMIN. -/
def execImin (x : Bin) (s : State) : Result := aluMeaning (.imin x) (binInt x min) s
/-- R103: IMAX. -/
def execImax (x : Bin) (s : State) : Result := aluMeaning (.imax x) (binInt x max) s

/-- R103: IABS. -/
def iabsEffect (x : UnS) (s : State) (_ : List Nat) (t : Nat) : Effect :=
  let k := x.ty.words
  let (v, fl) := narrow x.ty x.sat ((intOf x.ty (s.rdN t x.a k)).natAbs : Int)
  .reg x.d k v fl

def execIabs (x : UnS) (s : State) : Result := aluMeaning (.iabs x) (iabsEffect x) s

/-! ### R104, R105 -/

/-- A bitwise operation. -/
def bitBin (x : Bin) (op : Nat → Nat → Nat) (s : State) (_ : List Nat) (t : Nat) : Effect :=
  let k := x.ty.words
  .reg x.d k (op (s.rdN t x.a k) (s.rdN t x.b k)) 0

/-- R104: AND. -/
def execAnd (x : Bin) (s : State) : Result := aluMeaning (.and x) (bitBin x (· &&& ·)) s
/-- R104: OR. -/
def execOr (x : Bin) (s : State) : Result := aluMeaning (.or x) (bitBin x (· ||| ·)) s
/-- R104: XOR. -/
def execXor (x : Bin) (s : State) : Result := aluMeaning (.xor x) (bitBin x (· ^^^ ·)) s

/-- R105: LOP3. -/
def lop3Effect (x : Lop3Args) (s : State) (_ : List Nat) (t : Nat) : Effect :=
  let k := wide x.wide
  let a := s.rdN t x.a k
  let b := s.rdN t x.b k
  let c := s.rdN t x.c k
  let v := (upTo (32 * k)).foldl (fun v i =>
    v + (tableBit x.tbl (natBit a i) (natBit b i) (natBit c i)).toNat * 2 ^ i) 0
  .reg x.d k v 0

def execLop3 (x : Lop3Args) (s : State) : Result := aluMeaning (.lop3 x) (lop3Effect x) s

/-- R104: the amount of a shift, all 32 bits of b. -/
def shlEffect (x : Bin) (s : State) (_ : List Nat) (t : Nat) : Effect :=
  let k := x.ty.words
  let n := tyBits x.ty
  let a := s.rdN t x.a k
  let sh := (s.rd t x.b).toNat
  .reg x.d k (if n ≤ sh then 0 else (a <<< sh) % 2 ^ n) 0

/-- R104: SHL. -/
def execShl (x : Bin) (s : State) : Result := aluMeaning (.shl x) (shlEffect x) s

/-- R104: SHR, logical, or with .arith the floor of the signed quotient. -/
def shrEffect (x : Shift) (s : State) (_ : List Nat) (t : Nat) : Effect :=
  let k := x.ty.words
  let n := tyBits x.ty
  let a := s.rdN t x.a k
  let sh := (s.rd t x.b).toNat
  let v :=
    if x.alt then
      if n ≤ sh then (if signExt a n < 0 then 2 ^ n - 1 else 0)
      else wrapNat (signExt a n / (2 : Int) ^ sh) n
    else if n ≤ sh then 0 else a >>> sh
  .reg x.d k v 0

def execShr (x : Shift) (s : State) : Result := aluMeaning (.shr x) (shrEffect x) s

/-- R104: ROT, left, or with .right to the right, by the amount modulo the width. -/
def rotEffect (x : Shift) (s : State) (_ : List Nat) (t : Nat) : Effect :=
  let k := x.ty.words
  let n := tyBits x.ty
  let a := s.rdN t x.a k
  let m := (s.rd t x.b).toNat % n
  let l := if x.alt then (n - m) % n else m
  .reg x.d k ((a <<< l) % 2 ^ n + a >>> (n - l)) 0

def execRot (x : Shift) (s : State) : Result := aluMeaning (.rot x) (rotEffect x) s

/-- R104: SEL. -/
def selEffect (x : SelArgs) (s : State) (_ : List Nat) (t : Nat) : Effect :=
  let k := x.ty.words
  .reg x.d k (if s.rdP t x.c then s.rdN t x.a k else s.rdN t x.b k) 0

def execSel (x : SelArgs) (s : State) : Result := aluMeaning (.sel x) (selEffect x) s

/-! ### R106 -/

/-- The type a MOD4 selects: its width and, with S, its range. -/
def immTy (w : Bool) : ImmSat → Ty
  | .unsigned => if w then .z64 else .z32
  | .signed => if w then .s64 else .s32
  | .wrap => if w then .b64 else .b32

/-- The operand read in the range that saturation uses: R106 saturates as R103 does. -/
def immEffect (x : ImmArgs) (op : Int → Int → Int) (s : State) (_ : List Nat) (t : Nat) : Effect :=
  let k := wide x.wide
  let ty := immTy x.wide x.sat
  let (v, fl) := narrow ty (x.sat ≠ .wrap) (op (intOf ty (s.rdN t x.a k)) x.imm.toInt)
  .reg x.d k v fl

/-- R106: IADDI. -/
def execIaddi (x : ImmArgs) (s : State) : Result := aluMeaning (.iaddi x) (immEffect x (· + ·)) s
/-- R106: IMULI. -/
def execImuli (x : ImmArgs) (s : State) : Result := aluMeaning (.imuli x) (immEffect x (· * ·)) s

/-- R106: IMM sign-extended to the operand width. -/
def immBits (w : Bool) (imm : W32) : Nat := wrapNat imm.toInt (32 * wide w)

/-- R106: LOPI. -/
def lopiEffect (x : LopiArgs) (s : State) (_ : List Nat) (t : Nat) : Effect :=
  let k := wide x.wide
  let a := s.rdN t x.a k
  let m := immBits x.wide x.imm
  let v := match x.op with
    | .and => a &&& m
    | .or => a ||| m
    | .xor => a ^^^ m
    | .andn => a &&& (2 ^ (32 * k) - 1 - m)
  .reg x.d k v 0

def execLopi (x : LopiArgs) (s : State) : Result := aluMeaning (.lopi x) (lopiEffect x) s

/-- R106: MOVI. -/
def execMovi (x : MoviArgs) (s : State) : Result :=
  aluMeaning (.movi x) (fun _ _ _ => .reg x.d (wide x.wide) (immBits x.wide x.imm) 0) s

/-- R106: MOVHI writes only the odd register of the pair. -/
def execMovhi (x : MovhiArgs) (s : State) : Result :=
  aluMeaning (.movhi x) (fun _ _ _ => .reg (Reg.up x.d 1) 1 x.imm.toNat 0) s

/-! ### R107 -/

/-- R107: LEA. -/
def leaEffect (x : LeaArgs) (s : State) (_ : List Nat) (t : Nat) : Effect :=
  let v := (s.rdN t x.a 2 : Int) + intOf x.ty (s.rd t x.b).toNat * (2 : Int) ^ x.sh.val
  .reg x.d 2 (wrapNat v 64) 0

def execLea (x : LeaArgs) (s : State) : Result := aluMeaning (.lea x) (leaEffect x) s

/-- R107: pos and len of a field control word. -/
def fieldPos (c : W32) : Nat := c.toNat % 256
def fieldLen (c : W32) (n : Nat) : Nat := min (c.toNat / 256 % 256) n

/-- R107: BFE. -/
def bfeEffect (x : Bin) (s : State) (_ : List Nat) (t : Nat) : Effect :=
  let k := x.ty.words
  let n := tyBits x.ty
  let a := s.rdN t x.a k
  let pos := fieldPos (s.rd t x.b)
  let len := fieldLen (s.rd t x.b) n
  let v :=
    if n ≤ pos || len = 0 then 0
    else
      let m := min (pos + len) n - pos
      let f := natBits a pos m
      if tySigned x.ty then wrapNat (signExt f m) n else f
  .reg x.d k v 0

def execBfe (x : Bin) (s : State) : Result := aluMeaning (.bfe x) (bfeEffect x) s

/-- R107: BFI. -/
def bfiEffect (x : Tern) (s : State) (_ : List Nat) (t : Nat) : Effect :=
  let k := x.ty.words
  let n := tyBits x.ty
  let a := s.rdN t x.a k
  let b := s.rdN t x.b k
  let pos := fieldPos (s.rd t x.c)
  let len := fieldLen (s.rd t x.c) n
  let v :=
    if n ≤ pos || len = 0 then b
    else
      let m := min (pos + len) n - pos
      b - natBits b pos m * 2 ^ pos + natBits a 0 m * 2 ^ pos
  .reg x.d k v 0

def execBfi (x : Tern) (s : State) : Result := aluMeaning (.bfi x) (bfiEffect x) s

/-- A unary bit operation with a result of a width of its own. -/
def unBits (x : Un) (k : Nat) (op : Nat → Nat) (s : State) (_ : List Nat) (t : Nat) : Effect :=
  .reg x.d k (op (s.rdN t x.a x.ty.words)) 0

/-- The number of one bits among the low `n`. -/
def popCount (n a : Nat) : Nat := (upTo n).foldl (fun c i => c + (natBit a i).toNat) 0

/-- R107: POPC. -/
def execPopc (x : Un) (s : State) : Result := aluMeaning (.popc x) (unBits x 1 (popCount (tyBits x.ty))) s

/-- The zero bits above the highest one bit of the low `n`. -/
def leadZeros (n a : Nat) : Nat := if a = 0 then n else n - 1 - Nat.log2 a

/-- R107: CLZ. -/
def execClz (x : Un) (s : State) : Result := aluMeaning (.clz x) (unBits x 1 (leadZeros (tyBits x.ty))) s

/-- Bit i of the result is bit n − 1 − i. -/
def revBits (n a : Nat) : Nat := (upTo n).foldl (fun v i => v + (natBit a (n - 1 - i)).toNat * 2 ^ i) 0

/-- R107: BREV. -/
def execBrev (x : Un) (s : State) : Result :=
  aluMeaning (.brev x) (unBits x x.ty.words (revBits (tyBits x.ty))) s

/-- R107: MOV. -/
def execMov (x : Un) (s : State) : Result := aluMeaning (.mov x) (unBits x x.ty.words id) s

/-! ### R108, R109, R111 -/

/-- A predicate result. -/
def Effect.pred (d : Pred) (b : Bool) (flags : BitVec 7) : Effect := ⟨[], [(d, b)], flags⟩

/-- R109: ISETP. -/
def isetpEffect (x : IsetpArgs) (s : State) (_ : List Nat) (t : Nat) : Effect :=
  let k := x.ty.words
  let c := condTest x.cond (intOf x.ty (s.rdN t x.a k)) (intOf x.ty (s.rdN t x.b k))
  .pred x.d (combine s t c x.comb) 0

def execIsetp (x : IsetpArgs) (s : State) : Result := aluMeaning (.isetp x) (isetpEffect x) s

/-- R111: PSET. -/
def psetEffect (x : PsetArgs) (s : State) (_ : List Nat) (t : Nat) : Effect :=
  .pred x.d (tableBit x.tbl (s.rdP t x.a) (s.rdP t x.b) (s.rdP t x.c)) 0

def execPset (x : PsetArgs) (s : State) : Result := aluMeaning (.pset x) (psetEffect x) s

end Sys2Proof.Machine
end

