-- ==== Sys2Proof/Machine/Memory.lean ====
section
/-!
DEFINITION. Rows 0x6 and 0x7 but for the waits: loads, stores, prefetch, cache control, the
non-blocking store, atomics and fences (07 R203 to R216), with the events that complete them
(LOAD_RETURN, STORE_AT_HOME, SPILL, STORE_BACKPRESSURE, DRAM_WRITE, WCB_SEND).
-/

namespace Sys2Proof.Machine

/-! ### Checks (R198, R303) -/

/-- Where a checked access goes. -/
inductive Place where
  | global (va : W64) (x : Xlat)
  | scratch (wg off : Nat)
  deriving DecidableEq, Repr

def Place.sc : Place → Bool
  | .global _ x => x.sc
  | .scratch _ _ => false

/-- The outcome of the checks of one thread. -/
inductive Chk where
  | ok (p : Place) (s : State)
  | trap (code : Nat) (va : W64)
  | absent

namespace State

variable (s : State)

/-- R303: a queue program's access lies in its window. -/
def inWindow (t : Nat) (va : W64) (n : Nat) : Bool :=
  match tget s.runs (tidCore t - 256) with
  | some r => canonical va && decide ((va - r.base).toNat + n ≤ r.size.toNat)
  | none => false

/-- R198 for global space. `form` refuses a page backed by host memory (R214). -/
def checkGlobal (t : Nat) (va : W64) (n : Nat) (write : Bool) (form : Bool) : Chk :=
  if va.toNat % n ≠ 0 then .trap tcMisaligned va
  else if isCp t && !s.inWindow t va n then .trap tcProtection va
  else
    match s.translate (tidCore t) (s.ctxOf t) va write false with
    | .fault k => .trap k va
    | .absent => .absent
    | .ok x s' => if x.back = 2 && !form then .trap tcProtection va else .ok (.global va x) s'

/-- R168: the team's workgroups on a core, in ascending order of slot. -/
def teamOn (w : Wg) (core : Nat) : List Wg :=
  match w.team with
  | none => []
  | some tm =>
    let l := (s.wgs.filter fun x => x.2.team = some tm && x.2.core = core).map (·.2)
    (upTo 64).filterMap fun slot => l.find? fun x => x.slot = slot

/-- R168: the byte of a team window as a workgroup's scratch offset. -/
def windowAt : List Wg → Nat → Option (Nat × Nat)
  | [], _ => none
  | w :: rest, off => if off < w.tiles * 4096 then some (w.id, off) else windowAt rest (off - w.tiles * 4096)

/-- R43, R166, R168: bounds of a scratch access. -/
def scratchAt (t : Nat) (a : W32) (n : Nat) (team : Bool) : Option (Nat × Nat) :=
  let w := s.wgOf t
  if team then
    if a.toNat / 2 ^ 22 ≠ 0 then none
    else
      let l := s.teamOn w (coreQuad w.core * 4 + a.toNat / 2 ^ 20)
      let off := a.toNat % 2 ^ 20
      match windowAt l (off + n - 1) with
      | some _ => windowAt l off
      | none => none
  else if a.toNat + n ≤ w.tiles * 4096 then some (w.id, a.toNat) else none

/-- R198 for scratch and team scratch. -/
def checkScratch (t : Nat) (a : W32) (n : Nat) (team : Bool) : Chk :=
  let va := a.zeroExtend 64
  if a.toNat % n ≠ 0 then .trap tcMisaligned va
  else match s.scratchAt t a n team with
    | some (w, off) => .ok (.scratch w off) s
    | none => .trap tcScratchBounds va

/-- R55: the effective address of a global access. -/
def addr64 (t : Nat) (base : Reg) (off : Int) : W64 := s.rd64 t base + BitVec.ofInt 64 off
/-- R55: the effective address of a scratch access. -/
def addr32 (t : Nat) (base : Reg) (off : Int) : W32 := s.rd t base + BitVec.ofInt 32 off

/-- A thread still stands in the current group. -/
def stands (t : Nat) : Bool :=
  match s.cur with
  | some g => g.members.contains t
  | none => false

/-- Each participant's checks; those that fail trap, and a page that is not resident holds the group. -/
def checkAll (chk : State → Nat → Chk) (s : State) : List Nat → State × List (Nat × Place) × Bool
  | [] => (s, [], false)
  | t :: ts =>
      if !s.stands t then checkAll chk s ts
      else match chk s t with
        | .trap k va => checkAll chk (s.trap t k va) ts
        | .absent =>
            let (s, l, _) := checkAll chk s ts
            (s, l, true)
        | .ok p s' =>
            let (s, l, b) := checkAll chk s' ts
            (s, (t, p) :: l, b)

/-! ### The shape of a memory instruction -/

/-- R62: scopes .pkg and wider, at which a release merges flags (R36). -/
def wideScope : Scope → Bool
  | .pkg | .pod | .sys => true
  | _ => false

/-- R178, R181, R182: a thread's fence halves must still wait. -/
def fenceWaits (acq rel : Option Scope) (t : Nat) : Bool :=
  (match rel with
   | some sc => s.releaseWaits t sc
   | none => false) || (acq.isSome && s.loadsOut t)

/-- R36: what a completed release does besides waiting. -/
def releaseDone (rel : Option Scope) (t : Nat) : State :=
  match rel with
  | some sc => if wideScope sc then s.mergeFlags (tidCore t) (s.ctxOf t) else s
  | none => s

/-- R181, R182: a thread's fence halves take effect. -/
def fenceDone (acq rel : Option Scope) (t : Nat) : State :=
  let s := s.releaseDone rel t
  match acq with
  | some sc => s.acquireBy t sc 0
  | none => s

/-- R205: the cycle since which each participant's store has been stalled by a full queue: those of a list, and no
others. -/
def noteFull (ts full : List Nat) : State :=
  ts.foldl (fun s t => s.modThread t fun x =>
    { x with fullFrom := if full.contains t then some (x.fullFrom.getD s.cyc) else none }) s

/-- No bound of the core holds the group (see `memBody`). -/
def anyRoom (_ : State) (_ : List (Nat × Place)) : Option (List Nat) := none

/-- The shared course of a memory instruction: checks, holds (R176, R178, R179, R182, R189), room for what all its
participants need (R184, R225: none when there is room, else those that a full store queue stalls), each
participant's own effect, its registers read before any participant writes (R14), the fence halves of the others, and
on, or to a block (R201); a release that waits blocks the group too. -/
def memBody (chk : State → Nat → Chk) (hold : State → Nat → Place → Bool)
    (room : State → List (Nat × Place) → Option (List Nat)) (acq rel : Option Scope)
    (act : State → Group → State → List Nat → Nat → Place → State) (_ : Group) (ps : List Nat) (s : State) : State :=
  let (s, pl, absent) := checkAll chk s ps
  match s.cur with
  | none => s
  | some g =>
    let others := g.members.filter fun t => !ps.contains t
    let live := pl.filter fun x => g.members.contains x.1
    let waits := live.any fun x => s.fenced x.1 || hold s x.1 x.2 || (x.2.sc && !(s.accessesOf x.1).isEmpty)
    let fences := live.any (fun x => match rel with | some sc => s.releaseWaits x.1 sc | none => false) ||
      others.any (fun t => s.fenceWaits acq rel t)
    let full := room s live
    if absent then s.stall
    else if waits || fences || full.isSome then
      let own := live.filter fun x => rel.isSome || x.2.sc
      let s := (s.sendAllOwn (own.map (·.1) ++ if rel.isSome then others else [])).noteFull (live.map (·.1)) (full.getD [])
      if fences then s.holdBlocked else s.stall
    else
      let r := s
      let s := live.foldl (fun s x => act r g (s.releaseDone rel x.1) (live.map (·.1)) x.1 x.2) s
      let s := others.foldl (fun s t => s.fenceDone acq rel t) s
      s.goOn

/-! ### Making accesses -/

/-- An access of threads of a group at its instruction, counted (R38). -/
def newAccess (g : Group) (tids : List Nat) (va : W64) (x : Xlat) (op : AccOp) (dst : Reg) (hint : Retain)
    (acq rel : Option Scope) (ord : Bool) : Access × State :=
  let (id, s) := s.newId
  let ctr : Ctr := if op.isLoad then .ld else .st
  let s := tids.foldl (fun s t => s.modThread t fun y =>
    let y := if op.counted then y.count ctr else y
    if acq.isSome then { y with fence := id } else y) s
  ({ id, tids, core := g.core, ctx := (s.wg g.wg).ctx, pc := g.pc, idx := g.idx, va, pa := x.pa, op, dst, acq, rel
     hint, sc := x.sc, wb := x.wb, ord, sent := s.now, cycle := s.cyc, seen := false
     nth := tids.map fun t => (s.thread t).nth ctr }, s)

/-- R29: only the lowest participant's value of a w destination is kept. -/
def dstFor (d : Reg) (live : List Nat) (t : Nat) : Reg :=
  if d.isW && live.head? ≠ some t then .zero else d

/-- Bytes of a store buffer line that stores cover. -/
def coveredAll (line : Nat) (l : List Access) : Bool :=
  (upTo 128).all fun i => l.any fun a => a.covers (line * 128 + i)

/-- R188: a store enters the write-combining buffer. Of its 64 lines those count that have not been sent
(notes/assumptions/74.md). -/
def bufferStore (core : Nat) (a : Access) : State :=
  let line := a.pa / 128
  match (s.core core).wcb.find? fun e => e.line = line && e.sent.isNone && e.ctx = a.ctx with
  | some e =>
      let e' := { e with stores := e.stores ++ [a] }
      let s := s.modCore core fun k => { k with wcb := k.wcb.map fun x => if x.id = e.id then e' else x }
      if coveredAll line e'.stores then s.sendEntry core e.id else s
  | none =>
      let open_ := (s.core core).wcb.filter fun e => e.sent.isNone
      let s := match open_ with
        | e :: _ => if 64 ≤ open_.length then s.sendEntry core e.id else s
        | [] => s
      let (id, s) := s.newId
      s.modCore core fun k => { k with wcb := k.wcb ++ [{ id, line, ctx := a.ctx, stores := [a], since := s.now, sent := none }] }

/-- A plain store at its home at once: a queue program's (R304). -/
def storeNow (a : Access) : State :=
  ((s.acceptDraining a.ctx a.wb (a.pa / 128)).putMem a.pa (natLe a.op.len a.op.data) 0).fall a

/-- R205: a store takes its way: ordered, to the store queue, to the buffer, or, behind the thread's earlier buffer
entries, on its own. All but an ordered one, which no load may see before its receiver has applied it, update the
core's L1 copy as they issue (R175, R191). -/
def routeStore (t : Nat) (a : Access) : State :=
  let s := (s.commitWg t).markLine a.core (a.pa / 128) a.hint
  if a.ord then s.sendOrdAccess (ordSource t) a
  else
  let s := s.updateL1 a.core a.pa (natLe a.op.len a.op.data) 0
  if s.isLocal a.pa then
    if isCp t then s.storeNow a else s.modCore a.core fun k => { k with sq := k.sq ++ [a] }
  else if isHost a.pa || a.rel.isSome || isCp t then (s.sendOwn t).pushAccess a
  else s.bufferStore a.core a

/-- An own outstanding access touches the bytes (R176). -/
def ownMeets (t pa n : Nat) : Bool := s.outstanding.any fun a => a.tids.contains t && a.meets pa n

/-- A store of the core that is not at home touches the bytes (R40, R176), whichever of its threads made it: it is
performed at .wg, and a write that it happens before comes after it (R180). -/
def queuedMeets (t pa n : Nat) : Bool := (s.storesOf (tidCore t)).any fun a => a.meets pa n

/-- R176: an own store that enters no store queue, an STBQ or an ordered one, is performed at no scope yet, so that no
later store enters one. -/
def slowStore (t : Nat) : Bool := s.outstanding.any fun a =>
  a.tids.contains t && (match a.op with | .stbq _ _ => true | .store _ _ => a.ord | _ => false)

/-- What holds a global write at issue: earlier loads, own accesses to the same bytes, for an ordered one stores of the
core to them that are not at home, for any other an own store that is performed at no scope, and for a queue program's,
which is performed at once, its home. -/
def writeWaits (t : Nat) (p : Place) (n : Nat) (ord queue : Bool) : Bool :=
  s.loadsOut t || (queue && !ord && s.slowStore t) ||
    match p with
    | .global _ x =>
        s.ownMeets t x.pa n ||
          (if ord then s.queuedMeets t x.pa n
           else queue && s.isLocal x.pa && isCp t &&
             ((s.acceptLine (s.ctxOf t) x.wb false (x.pa / 128)).isNone || s.ownedLine (x.pa / 128) || s.sliceHot x.pa))
    | .scratch _ _ => false

/-- R225: the source has room for the ordered operations of all participants. -/
def ordPlaces (ord : Bool) (live : List (Nat × Place)) : Option (List Nat) :=
  match live with
  | x :: _ => if ord && !s.ordRoom (ordSource x.1) live.length then some [] else none
  | [] => none

/-- R184, R205: the store queue has room for the lines of all participants' plain stores to local memory; else those
whose line it does not hold are stalled. -/
def storePlaces (ord : Bool) (live : List (Nat × Place)) : Option (List Nat) :=
  if ord then s.ordPlaces ord live
  else
    let new := live.filterMap fun x =>
      match x.2 with
      | .global _ y =>
          if s.isLocal y.pa && !isCp x.1 && !(queueLines (s.core (tidCore x.1)).sq).contains (y.pa / 128) then
            some (x.1, y.pa / 128)
          else none
      | .scratch _ _ => none
    match new with
    | [] => none
    | x :: _ =>
        if (queueLines (s.core (tidCore x.1)).sq).length + (new.map (·.2)).eraseDups.length ≤ 64 then none
        else some (new.map (·.1))

end State

/-! ### LD, ST (R203, R205) -/

/-- R203: the checks of an LD. -/
def ldChk (x : LdArgs) (s : State) (t : Nat) : Chk :=
  s.checkGlobal t (s.addr64 t x.base (x.off.toInt * x.size.bytes)) x.size.bytes false true

/-- R203: a participant's LD leaves. -/
def ldAct (x : LdArgs) (_ : State) (g : Group) (s : State) (live : List Nat) (t : Nat) (p : Place) : State :=
  match p with
  | .global va xl =>
      let (a, s) := s.newAccess g [t] va xl (.load x.size) (State.dstFor x.d live t) x.hint x.acq none false
      s.pushAccess a
  | .scratch _ _ => s

def execLd (x : LdArgs) (s : State) : Result :=
  .next (s.issue (.ld x) (State.memBody (ldChk x) (fun _ _ _ => false) State.anyRoom x.acq none (ldAct x)))

/-- R205, R214: the checks of an ST. -/
def stChk (x : StArgs) (s : State) (t : Nat) : Chk :=
  s.checkGlobal t (s.addr64 t x.base (x.off.toInt * x.size.bytes)) x.size.bytes true (!x.ord)

def stHold (x : StArgs) (s : State) (t : Nat) (p : Place) : Bool := s.writeWaits t p x.size.bytes x.ord true

/-- R205: a participant's ST leaves. -/
def stAct (x : StArgs) (r : State) (g : Group) (s : State) (_ : List Nat) (t : Nat) (p : Place) : State :=
  match p with
  | .global va xl =>
      let data := r.rdN t x.data x.size.words % 2 ^ (8 * x.size.bytes)
      let (a, s) := s.newAccess g [t] va xl (.store x.size data) .zero x.hint none x.rel x.ord
      s.routeStore t a
  | .scratch _ _ => s

def execSt (x : StArgs) (s : State) : Result :=
  .next (s.issue (.st x) (State.memBody (stChk x) (stHold x) (State.storePlaces · x.ord) none x.rel (stAct x)))

/-! ### Scratch (R171, R177, R203) -/

namespace State

variable (s : State)

def tileOf (w n : Nat) : TileRec := (tget (s.wg w).tile n).getD .empty
def setTile (w n : Nat) (r : TileRec) : State := s.modWg w fun x => { x with tile := tput x.tile n r }

/-- R171: a scratch load waits on a tile that is filling. -/
def scratchLoadWaits (w off : Nat) : Bool := decide (0 < (s.tileOf w (off / 4096)).fill)

/-- R171: a scratch store waits on a tile that is filling, draining or pinned, and R176 on earlier loads and on own
stores that enter no store queue. -/
def scratchStoreWaits (t w off : Nat) : Bool :=
  let r := s.tileOf w (off / 4096)
  s.loadsOut t || s.slowStore t || decide (0 < r.fill) || decide (0 < r.drain) || decide (0 < r.pin)

/-- A scratch write: the tile becomes ready (R170). -/
def putScratch (w off : Nat) (bs : List Byte) : State :=
  let r := s.tileOf w (off / 4096)
  let s := s.modWg w fun x => { x with scr := mputs x.scr off bs }
  s.setTile w (off / 4096) { r with full := true }

/-- R398: a poisoned tile of a workgroup. -/
def scratchPoisoned (w off : Nat) : Bool := s.poison.contains (.scratch w (off / 4096))

/-- The counters of a scratch access rise and fall in the one step that performs it. -/
def countDone (t : Nat) (k : Ctr) : State := s.modThread t fun x => (x.count k).uncount k

/-- R179 for an acquire by a scratch access: earlier loads come before later accesses. -/
def scratchAcquire (t : Nat) (acq : Option Scope) : State :=
  match acq with
  | some sc => s.acquireAt t sc 0
  | none => s

end State

/-- R171: what holds a scratch load. -/
def scratchLoadHold (s : State) (_ : Nat) (p : Place) : Bool :=
  match p with
  | .scratch w off => s.scratchLoadWaits w off
  | _ => false

/-- R171, R176: what holds a scratch store. -/
def scratchStoreHold (s : State) (t : Nat) (p : Place) : Bool :=
  match p with
  | .scratch w off => s.scratchStoreWaits t w off
  | _ => false

def ldsChk (x : LdsArgs) (s : State) (t : Nat) : Chk :=
  s.checkScratch t (s.addr32 t x.base (x.off.toInt * x.size.bytes)) x.size.bytes x.team

/-- R203, R398: a participant's LDS, done at once. -/
def ldsAct (x : LdsArgs) (_ : State) (_ : Group) (s : State) (live : List Nat) (t : Nat) (p : Place) : State :=
  match p with
  | .scratch w off =>
      if s.scratchPoisoned w off then s.kill (s.ctxOf t) 1 0 3 0 (s.placeOf t).1
      else
        let v := extendBy x.size (mnat (s.wg w).scr off x.size.bytes)
        let s := s.wrD t (State.dstFor x.d live t) x.size.words v
        (s.countDone t .ld).scratchAcquire t x.acq
  | _ => s

def execLds (x : LdsArgs) (s : State) : Result :=
  .next (s.issue (.lds x) (State.memBody (ldsChk x) scratchLoadHold State.anyRoom x.acq none (ldsAct x)))

def stsChk (x : StsArgs) (s : State) (t : Nat) : Chk :=
  s.checkScratch t (s.addr32 t x.base (x.off.toInt * x.size.bytes)) x.size.bytes x.team

/-- R203, R319: a participant's STS, done at once; a store to another workgroup's scratch commits. -/
def stsAct (x : StsArgs) (r : State) (_ : Group) (s : State) (_ : List Nat) (t : Nat) (p : Place) : State :=
  match p with
  | .scratch w off =>
      let s := if x.team then s.commitWg t else s
      let data := r.rdN t x.data x.size.words
      (s.putScratch w off (natLe x.size.bytes data)).countDone t .st
  | _ => s

def execSts (x : StsArgs) (s : State) : Result :=
  .next (s.issue (.sts x) (State.memBody (stsChk x) scratchStoreHold State.anyRoom none x.rel (stsAct x)))

/-! ### LDW (R206) -/

/-- R206: the access of the lowest participant, or its trap in every participant. -/
def ldwCheck (x : LdwArgs) (s : State) (t : Nat) : Chk :=
  if x.scratch then s.checkScratch t (s.addr32 t x.base (x.off.toInt * x.size.bytes)) x.size.bytes false
  else s.checkGlobal t (s.addr64 t x.base (x.off.toInt * x.size.bytes)) x.size.bytes false true

/-- Every participant takes the outcome of the lowest one's checks. -/
def ldwChk (x : LdwArgs) (low : Nat) (s : State) (t : Nat) : Chk :=
  match ldwCheck x s low with
  | .ok p s' => if t = low then .ok p s' else .ok p s
  | c => c

/-- R206: the lowest participant's access, counted by every one. -/
def ldwAct (x : LdwArgs) (_ : State) (g : Group) (s : State) (live : List Nat) (t : Nat) (p : Place) : State :=
  if live.head? ≠ some t then (match p with | .scratch _ _ => (s.countDone t .ld).scratchAcquire t x.acq | _ => s)
  else match p with
  | .global va xl =>
      let (a, s) := s.newAccess g live va xl (.load x.size) x.d x.hint x.acq none false
      s.pushAccess a
  | .scratch w off =>
      if s.scratchPoisoned w off then s.kill (s.ctxOf t) 1 0 3 0 (s.placeOf t).1
      else
        let v := extendBy x.size (mnat (s.wg w).scr off x.size.bytes)
        ((s.wrD t x.d x.size.words v).countDone t .ld).scratchAcquire t x.acq

def execLdw (x : LdwArgs) (s : State) : Result :=
  .next (s.issue (.ldw x) fun g ps s =>
    State.memBody (ldwChk x (ps.headD 0)) scratchLoadHold State.anyRoom x.acq none (ldwAct x) g ps s)

/-! ### PREF and CCTL (R208, R209) -/

/-- R208: a prefetch of a thread: it never traps, starts no paging and does nothing on a bad address. An SC page's line
is not kept in L1 (R189). -/
def prefOne (x : PrefArgs) (s : State) (t : Nat) : State :=
  let va := s.addr64 t x.base x.off.toInt
  match s.translate (tidCore t) (s.ctxOf t) va false false with
  | .ok xl s' =>
      let line := xl.pa / 128
      if (s.poisonAt (line * 128) 128).isSome || s.queuedPoison (tidCore t) (line * 128) 128 || s.ownedLine line then s'
      else (if x.hint = .byp || xl.sc then s' else s'.fillL1 (tidCore t) line x.hint).markLine (tidCore t) line x.hint
  | _ => s

def execPref (x : PrefArgs) (s : State) : Result :=
  .next (s.issue (.pref x) fun _ ps s => (ps.foldl (prefOne x) s).advance)

namespace State

/-- R209: one line handed to the lane, if the context may name it and it is held under WB here. -/
def cctlLine (s : State) (t : Nat) (va : W64) : State :=
  match s.translate (tidCore t) (s.ctxOf t) va false false with
  | .ok x _ =>
      let line := x.pa / 128
      match tget s.dirty line with
      | some d => if d.wb && s.isLocal x.pa then s.toLane line else s
      | none => s
  | _ => s

/-- R209: the lines of a span that are held under WB, by their pages. -/
def cctlSpan (s : State) (t : Nat) (base : W64) (len : Nat) : State :=
  let lines := (s.dirty.filter fun d => d.2.wb).map (·.1)
  -- each dirty line is asked for by the addresses of the span that could reach it
  let pages := (base.toNat % 65536 + len + 65535) / 65536
  if len = 0 then s
  else (upTo pages).foldl (fun s p =>
    let pva := BitVec.ofNat 64 (base.toNat - base.toNat % 65536 + p * 65536)
    match s.translate (tidCore t) (s.ctxOf t) pva false false with
    | .ok x _ =>
        lines.foldl (fun s l =>
          let off : Int := ((l * 128 : Nat) : Int) - x.pa
          let va : Int := pva.toNat + off
          if 0 ≤ off ∧ off < 65536 ∧ (base.toNat : Int) < va + 128 ∧ va < base.toNat + len then s.toLane l else s) s
    | _ => s) s

/-- A CCTL form that names an address: its only fault is PAGE_INVALID for one that is not canonical. -/
def cctlBody (base : Reg) (f : State → Nat → W64 → State) (_ : Group) (ps : List Nat) (s : State) : State :=
  (ps.foldl (fun s t =>
    if !s.stands t then s
    else
      let va := s.rd64 t base
      if canonical va then f s t va else s.trap t tcPageInvalid va) s).advance

end State

def execCctlWb (x : CctlArgs) (s : State) : Result :=
  .next (s.issue (.cctlWb x) (State.cctlBody x.base fun s t va => s.cctlLine t va))

def execCctlWbr (x : CctlRangeArgs) (s : State) : Result :=
  .next (s.issue (.cctlWbr x) (State.cctlBody x.base fun s t va => s.cctlSpan t va (s.rd t x.len).toNat))

def execCctlWball (x : G) (s : State) : Result :=
  .next (s.issue (.cctlWball x) fun _ ps s =>
    (ps.foldl (fun s t =>
      ((s.dirty.filter fun d => d.2.wb && d.2.ctx = s.ctxOf t).map (·.1)).foldl (fun s l => s.toLane l) s) s).advance)

def execCctlInv (x : G) (s : State) : Result :=
  .next (s.issue (.cctlInv x) fun _ ps s => (ps.foldl (fun s t => s.clearL1 (tidCore t)) s).advance)

def execCctlEvl (x : CctlArgs) (s : State) : Result :=
  .next (s.issue (.cctlEvl x) (State.cctlBody x.base fun s t va =>
    match s.translate (tidCore t) (s.ctxOf t) va false false with
    | .ok xl _ => s.dropL1 (tidCore t) (xl.pa / 128)
    | _ => s))

/-! ### STBQ (R207) -/

/-- R207: refused at once: quota holds a store of the context, or the queue holds a store to the line. -/
def State.stbqRefused (s : State) (t pa : Nat) : Bool :=
  let k := s.core (tidCore t)
  (k.sqHeld && (match k.sq with | a :: _ => a.ctx = s.ctxOf t | [] => false)) ||
    k.sq.any fun a => a.pa / 128 = pa / 128

/-- A store of the core in the write-combining buffer, or on its own way, touches the bytes (R176, R180). -/
def State.bufferMeets (s : State) (t : Nat) (p : Place) (n : Nat) : Bool :=
  match p with
  | .global _ x => !s.isLocal x.pa && s.queuedMeets t x.pa n
  | .scratch _ _ => false

def stbqChk (x : StbqArgs) (s : State) (t : Nat) : Chk :=
  s.checkGlobal t (s.addr64 t x.base (x.off.toInt * x.size.bytes)) x.size.bytes true true

/-- R176, R180: what holds an STBQ at issue; own stores in the queue and the buffer it goes past. -/
def stbqHold (x : StbqArgs) (s : State) (t : Nat) (p : Place) : Bool :=
  s.writeWaits t p x.size.bytes false false || s.slowStore t || s.bufferMeets t p x.size.bytes

/-- R207: a participant's STBQ is refused at once, which one to remote memory never is, or leaves. -/
def stbqAct (x : StbqArgs) (r : State) (g : Group) (s : State) (live : List Nat) (t : Nat) (p : Place) : State :=
  match p with
  | .global va xl =>
      let s := s.commitWg t
      let dst := State.dstFor x.d live t
      if s.isLocal xl.pa && s.stbqRefused t xl.pa then (s.countDone t .st).status t dst 1
      else
        let data := r.rdN t x.data x.size.words % 2 ^ (8 * x.size.bytes)
        let (a, s) := s.newAccess g [t] va xl (.stbq x.size data) dst x.hint none none false
        (s.markLine a.core (a.pa / 128) a.hint).pushAccess a
  | .scratch _ _ => s

def execStbq (x : StbqArgs) (s : State) : Result :=
  .next (s.issue (.stbq x) (State.memBody (stbqChk x) (stbqHold x) State.anyRoom none none (stbqAct x)))

/-! ### Atomics (R211 to R215) -/

/-- The acquire and release halves of an atomic, with its scope. -/
def syncAcq (y : Sync) : Option Scope := if y.acq then some y.scope else none
def syncRel (y : Sync) : Option Scope := if y.rel then some y.scope else none

/-- R214: the forms that host memory takes. -/
def hostForm (op : Option Aop) (t : Aty) (ord : Bool) : Bool :=
  !ord && (match op with
    | some .add => t = .s64 || t = .z64
    | none => t = .b64
    | _ => false)

/-- An atomic or reduction leaves its core: ordered, or to its home. -/
def State.routeAtom (s : State) (t : Nat) (a : Access) : State :=
  let s := ((s.commitWg t).dropL1 a.core (a.pa / 128)).markLine a.core (a.pa / 128) a.hint
  if a.ord then s.sendOrdAccess (State.ordSource t) a else s.pushAccess a

/-- What holds an atomic at issue: R176, and an own queued store to the same bytes (R40). -/
def State.atomWaits (s : State) (t : Nat) (p : Place) (n : Nat) (ord : Bool) : Bool :=
  s.writeWaits t p n ord false ||
    match p with
    | .global _ x => s.queuedMeets t x.pa n
    | _ => false

def atomChk (x : AtomArgs) (s : State) (t : Nat) : Chk :=
  s.checkGlobal t (s.addr64 t x.base (x.ofs.toInt * x.aty.bytes)) x.aty.bytes true (hostForm (some x.aop) x.aty x.ord)

def atomHold (ty : Aty) (ord : Bool) (s : State) (t : Nat) (p : Place) : Bool := s.atomWaits t p ty.bytes ord

/-- R211: a participant's ATOM leaves. -/
def atomAct (x : AtomArgs) (r : State) (g : Group) (s : State) (live : List Nat) (t : Nat) (p : Place) : State :=
  match p with
  | .global va xl =>
      let (a, s) := s.newAccess g [t] va xl (.atom x.aop x.aty (r.rdN t x.b x.aty.words))
        (State.dstFor x.d live t) x.hint (syncAcq x.sync) (syncRel x.sync) x.ord
      s.routeAtom t a
  | .scratch _ _ => s

def execAtom (x : AtomArgs) (s : State) : Result :=
  .next (s.issue (.atom x) (State.memBody (atomChk x) (atomHold x.aty x.ord) (State.ordPlaces · x.ord) (syncAcq x.sync) (syncRel x.sync) (atomAct x)))

def redChk (x : RedArgs) (s : State) (t : Nat) : Chk :=
  s.checkGlobal t (s.addr64 t x.base (x.ofs.toInt * x.aty.bytes)) x.aty.bytes true (hostForm (some x.aop) x.aty x.ord)

/-- R211: a participant's RED leaves. -/
def redAct (x : RedArgs) (r : State) (g : Group) (s : State) (_ : List Nat) (t : Nat) (p : Place) : State :=
  match p with
  | .global va xl =>
      let (a, s) := s.newAccess g [t] va xl (.red x.aop x.aty (r.rdN t x.b x.aty.words)) .zero x.hint
        (syncAcq x.sync) (syncRel x.sync) x.ord
      s.routeAtom t a
  | .scratch _ _ => s

def execRed (x : RedArgs) (s : State) : Result :=
  .next (s.issue (.red x) (State.memBody (redChk x) (atomHold x.aty x.ord) (State.ordPlaces · x.ord) (syncAcq x.sync) (syncRel x.sync) (redAct x)))

def casChk (x : CasArgs) (s : State) (t : Nat) : Chk :=
  s.checkGlobal t (s.addr64 t x.base (x.ofs.toInt * x.aty.bytes)) x.aty.bytes true (hostForm none x.aty x.ord)

/-- R212: a participant's CAS leaves. -/
def casAct (x : CasArgs) (r : State) (g : Group) (s : State) (live : List Nat) (t : Nat) (p : Place) : State :=
  match p with
  | .global va xl =>
      let k := x.aty.words
      let (a, s) := s.newAccess g [t] va xl (.cas x.aty (r.rdN t x.b k) (r.rdN t (Reg.up x.b k) k))
        (State.dstFor x.d live t) x.hint (syncAcq x.sync) (syncRel x.sync) x.ord
      s.routeAtom t a
  | .scratch _ _ => s

def execCas (x : CasArgs) (s : State) : Result :=
  .next (s.issue (.cas x) (State.memBody (casChk x) (atomHold x.aty x.ord) (State.ordPlaces · x.ord) (syncAcq x.sync) (syncRel x.sync) (casAct x)))

def atomsChk (x : AtomsArgs) (s : State) (t : Nat) : Chk :=
  s.checkScratch t (s.addr32 t x.base (x.ofs.toInt * x.aty.bytes)) x.aty.bytes x.team

/-- R194, R213: a participant's ATOMS, one step in the target scratchpad. -/
def atomsAct (x : AtomsArgs) (r : State) (_ : Group) (s : State) (live : List Nat) (t : Nat) (p : Place) : State :=
  match p with
  | .scratch w off =>
      if s.scratchPoisoned w off then s.kill (s.ctxOf t) 1 0 3 0 (s.placeOf t).1
      else
        let s := if x.team then s.commitWg t else s
        let old := mnat (s.wg w).scr off x.aty.bytes
        let (v, fl) := atomNew x.aop x.aty old (r.rdN t x.b x.aty.words)
        let s := (s.putScratch w off (natLe x.aty.bytes v)).raise (tidCore t) (s.ctxOf t) fl
        let s := s.wrD t (State.dstFor x.d live t) x.aty.words old
        (s.countDone t .ld).scratchAcquire t (syncAcq x.sync)
  | _ => s

def execAtoms (x : AtomsArgs) (s : State) : Result :=
  .next (s.issue (.atoms x) (State.memBody (atomsChk x) scratchStoreHold State.anyRoom (syncAcq x.sync) (syncRel x.sync) (atomsAct x)))

/-! ### FENCE (R181, R216) -/

/-- R181, R182, R216: every member of the group fences, whatever its guard. -/
def execFence (x : FenceArgs) (s : State) : Result :=
  .next (s.issue (.fence x) fun g _ s =>
    let acq := (syncAcq x.sync)
    let rel := (syncRel x.sync)
    let s := s.sendAllOwn g.members
    match s.cur with
    | none => s
    | some g =>
      if g.members.any fun t => s.fenced t || s.fenceWaits acq rel t then s.holdBlocked
      else (g.members.foldl (fun s t => s.fenceDone acq rel t) s).advance)

/-! ### Completion events -/

namespace State

variable (s : State)

/-- R175, R204: the L1 line from which a load takes its bytes. -/
def hitsL1 (a : Access) (reply : Option (W128 × Nat)) : Option L1Line :=
  if reply.isSome || a.hint = .byp || a.sc then none
  else match a.op with
    | .load _ => tget (s.core a.core).l1 (a.pa / 128)
    | _ => none

/-- What another node's or a host's home has answered enters the pod picture. -/
def learn (pa n : Nat) (reply : Option (W128 × Nat)) : State :=
  match reply with
  | some (v, k) => if s.isLocal pa then s else s.putMem pa (natLe n v.toNat) k
  | none => s

/-- R398, R399: the structure of a poisoned span: memory-side cache 1, or DRAM 0. -/
def poisonStruct (pa n : Nat) : Nat := if (s.poisonAt pa n).getD false then 1 else 0

/-- The access is complete: its value delivered, its counter fallen, its acquire performed. -/
def complete (a : Access) (v : Nat) (stamp : Nat) : State :=
  let s := { s with accs := s.accs.filter fun x => x.id ≠ a.id }
  let s := (s.deliver a v).fall a
  match a.acq with
  | some sc => a.tids.foldl (fun s t => if s.hasThread t then s.acquireBy t sc stamp else s) s
  | none => s

/-- A load performed (R173, R175, R192, R204). -/
def finishLoad (a : Access) (z : Size) (reply : Option (W128 × Nat)) : State :=
  let n := a.op.len
  let line := a.pa / 128
  if s.queuedPoison a.core a.pa n then s.consumed a 5
  else
    match s.hitsL1 a reply with
    | some l =>
      let v := leNat (s.mergeQueued a.core a.pa (slice l.bytes (a.pa % 128) n))
      let stamp := s.readStamp a.core a.pa n fun i => (tget l.stamps (a.pa % 128 + i)).getD 0
      ((s.markSeen a.core a.pa n (a.tids.headD 0)).markLine a.core line a.hint).complete a (extendBy z v) stamp
    | none =>
      if s.isLocal a.pa && (s.poisonAt a.pa n).isSome then s.consumed a (s.poisonStruct a.pa n)
      else
        let s := s.learn a.pa n reply
        let v := leNat (s.mergeQueued a.core a.pa (mbytes s.mem a.pa n))
        let stamp := s.readStamp a.core a.pa n fun i => (tget s.stamps (a.pa + i)).getD 0
        let s := (s.markSeen a.core a.pa n (a.tids.headD 0)).dropL1 a.core line
        let s := if a.hint ≠ .byp && !a.sc then s.fillL1 a.core line a.hint else s
        (s.markLine a.core line a.hint).complete a (extendBy z v) stamp

/-- A store on its own way, an STBQ, an atomic or a reduction performed at its home. -/
def finishWrite (a : Access) (reply : Option (W128 × Nat)) : State :=
  let local_ := s.isLocal a.pa
  let n := a.op.len
  let line := a.pa / 128
  let isAtomic := match a.op with | .atom _ _ _ | .red _ _ _ | .cas _ _ _ => true | _ => false
  if local_ && isAtomic && (s.poisonAt a.pa n).isSome then s.consumed a (s.poisonStruct a.pa n)
  else
    let s := if isAtomic then s.learn a.pa n reply else s
    let old := mnat s.mem a.pa n
    let stamp := s.stampOf a.pa n
    let status := match a.op with | .stbq _ _ => true | _ => false
    match a.op.writes old with
    | none => (s.dropL1 a.core line).complete a old stamp
    | some (v, fl) =>
      let room := if local_ then s.acceptLine a.ctx a.wb false line else some s
      match room with
      | none => if status then s.complete a 1 0 else s
      | some s =>
        let bs := natLe n v
        let s := (s.putMem a.pa bs 0).raise a.core a.ctx (if a.tids = [] then 0 else fl)
        let s := if isAtomic then s.dropL1 a.core line else if !status then s else if local_ then s.updateL1 a.core a.pa bs 0 else s.dropL1 a.core line
        s.complete a (if status then 0 else old) stamp

/-- R261: a pen header's fields, and whether it keeps their table. -/
def penCount (h : List Byte) : Nat := fieldAt h 0 4
def penCap (h : List Byte) : Nat := fieldAt h 4 4
def penSlot (h : List Byte) : Nat := fieldAt h 8 4
def penHead (h : List Byte) : Nat := fieldAt h 12 4
def penRing (h : List Byte) : Nat := fieldAt h 16 8
def penValid (h : List Byte) : Bool :=
  decide (1 ≤ penCap h) && decide (penCap h ≤ 2 ^ 24) && penSlot h % 64 = 0 && decide (64 ≤ penSlot h) &&
    decide (penSlot h ≤ 4096) && penRing h % 64 = 0 && decide (penRing h < 2 ^ 48) && fieldAt h 24 40 = 0

/-- R266: PENQ at its header's home. -/
def finishPenq (a : Access) (adv : Option Nat) (reply : Option (W128 × Nat)) : State :=
  if s.isLocal a.pa && (s.poisonAt a.pa 64).isSome then s.consumed a (s.poisonStruct a.pa 64)
  else
    let h := match reply with
      | some (v, _) => if s.isLocal a.pa then mbytes s.mem a.pa 64 else natLe 16 v.toNat ++ (mbytes s.mem a.pa 64).drop 16
      | none => mbytes s.mem a.pa 64
    let s := s.wakeReply a
    if isHost a.pa || !penValid h then s.complete a (2 ^ 64 - 1) 0
    else
      let old := penCount h + penHead h * 2 ^ 32
      let stamp := match reply with
        | some (_, k) => if s.isLocal a.pa then s.stampOf a.pa 64 else k
        | none => s.stampOf a.pa 64
      let s := match adv with
        | some n =>
            let h' := penHead h + min n ((penCount h + 2 ^ 32 - penHead h) % 2 ^ 32)
            (if s.isLocal a.pa then s.acceptDraining a.ctx a.wb (a.pa / 128) else s).putMem (a.pa + 12) (natLe 4 h') 0
        | none => s
      s.complete a old stamp

/-- A plain store of a core's queue or buffer performed at its home: poison it carries enters its line (R398). -/
def homeStore (a : Access) : State :=
  let s := s.putMem a.pa (natLe a.op.len a.op.data) 0
  let s := if s.poison.contains (.store a.id) then
      { s with poison := .line (a.pa / 128) true :: s.poison.filter (· ≠ .store a.id) } else s
  s.fall a

/-- R398: a line written whole loses its poison. -/
def cleanLine (line : Nat) : State :=
  if s.poison = [] then s
  else { s with poison := s.poison.filter fun p => match p with | .line l _ => l ≠ line | _ => true }

/-- R188: a sent entry acknowledged by its home: its line takes its bytes at once, as one write. -/
def finishEntry (core : Nat) (e : WcbEnt) : State :=
  let s := s.modCore core fun k => { k with wcb := k.wcb.filter fun x => x.id ≠ e.id }
  let s := if coveredAll e.line e.stores then s.cleanLine e.line else s
  e.stores.foldl (fun s a => s.homeStore a) s

/-- The buffer entry with an identity, and its core. -/
def entryById (id : Nat) : Option (Nat × WcbEnt) :=
  s.cores.findSome? fun c => (c.2.wcb.find? fun e => e.id = id && e.sent.isSome).map fun e => (c.1, e)

/-- R192, R206: the stamp floor of an access: the highest of the threads for which it counts. -/
def floorOf (a : Access) : Nat := a.tids.foldl (fun m t => max m (s.thread t).floor) 0

/-- R41, R174, R175, R189, R192, R193, R240: the reply of an access returns, if nothing holds it at its home. -/
def returnAccess (id : Nat) (reply : Option (W128 × Nat)) : State :=
  match s.accs.find? fun a => a.id = id with
  | some a =>
    if s.behindOwn a || s.flitWaits id then s
    else if (s.ownedLine (a.pa / 128) || s.sliceHot a.pa) && (s.hitsL1 a reply).isNone then s
    else if a.sc && (s.storesOf a.core).any fun b => decide (b.id ≠ a.id) && b.meets a.pa a.op.len then s
    else if a.op.isLoad && (s.hitsL1 a reply).isNone && !s.floorOk (s.floorOf a) a.pa then s
    else
      let s := if (s.hitsL1 a reply).isSome then s else s.hearFlit a.pa
      match a.op with
      | .load z => s.finishLoad a z reply
      | .penq adv => s.finishPenq a adv reply
      | _ => s.finishWrite a reply
  | none =>
    match s.entryById id with
    | some (c, e) =>
        if s.flitWaits id || s.ownedLine e.line then s
        else if (s.core c).wcb.any fun x => decide (x.id < e.id) && x.line = e.line && x.sent.isSome then s
        else if s.accs.any fun a => a.core = c && !a.op.isLoad && e.stores.any fun b =>
          decide (a.id < b.id) && a.meets b.pa b.op.len then s
        else (s.hearFlit (e.line * 128)).finishEntry c e
    | none => s

/-- R184, R185: the head of a store queue is offered to its home slice. -/
def headHome (core : Nat) : State :=
  match (s.core core).sq with
  | [] => s
  | a :: rest =>
    let line := a.pa / 128
    if s.ownedLine line || s.sliceHot a.pa then s
    else match s.acceptLine a.ctx a.wb false line with
      | none => s.modCore core fun k => { k with sqHeld := true }
      | some s =>
        (s.modCore core fun k => { k with sq := rest, sqHeld := false }).homeStore a

/-- R185: the lines of the queued stores of the head's context that go to the head's slice, the youngest store's
first. -/
def tailLines (core : Nat) : List Nat :=
  match (s.core core).sq with
  | [] => []
  | h :: _ =>
    let slice := s.dirtySlice (h.pa / 128)
    (((s.core core).sq.filter fun a => a.ctx = h.ctx && s.dirtySlice (a.pa / 128) = slice).map fun a => a.pa / 128).reverse.eraseDups

/-- R185: the first line from the tail of a held queue that the overflow engine can take, and its context. -/
def tailLine (core : Nat) : Option (Nat × Nat) :=
  let c := ((s.core core).sq.head?.map (·.ctx)).getD 0
  ((s.tailLines core).find? fun l =>
    !s.ownedLine l && !s.sliceHot (l * 128) && (s.acceptLine c false true l).isSome).map fun l => (l, c)

/-- R185: the overflow engine spills a line from the tail of a queue held for quota. -/
def spillTail (core : Nat) : State :=
  if !(s.core core).sqHeld then s
  else match s.tailLine core with
    | none => s
    | some (line, c) =>
      match s.acceptLine c false true line with
      | none => s
      | some s =>
        let l := (s.core core).sq.filter fun a => a.pa / 128 = line
        let s := l.foldl (fun s a => s.homeStore a) s
        s.modCore core fun k =>
          { k with sq := k.sq.filter fun a => a.pa / 128 ≠ line, sqHeld := false }

/-- The instruction a group stands at. -/
def instrAt (g : Group) : Option Instr :=
  match decode (g.words.getD g.idx 0) with
  | .ok i => some i
  | .error _ => none

def groupOf (t : Nat) : Option Group := (s.cur.toList ++ s.groups).find? fun g => g.members.contains t

/-- R185: the head of a core's queue is held, its context at its quota with its spill quota used. -/
def spillUsed (core c : Nat) : Bool :=
  match (s.core core).sq with
  | a :: _ =>
      let slice := s.dirtySlice (a.pa / 128)
      (s.core core).sqHeld && a.ctx = c && decide (s.quota c slice ≤ s.dirtyCount c slice) &&
        decide (s.spillQuota c ≤ s.spilledCount c (sliceDie slice))
  | [] => false

/-- R185, R205: a store stalled at issue by a full queue traps when its context asks for it. -/
def storePressure (t : Nat) : State :=
  match s.groupOf t with
  | none => s
  | some g =>
    match instrAt g with
    | some (.st x) =>
      let c := s.ctxOf t
      let va := s.addr64 t x.base (x.off.toInt * x.size.bytes)
      match (s.thread t).fullFrom with
      | none => s
      | some from_ =>
        if !(g.stalled && s.guardTrue t x.g) then s
        else if s.spillTraps c && s.spillUsed (tidCore t) c then s.trap t tcSpillQuota va
        else if s.pressureTraps c && decide (s.storeThresh c < s.cyc - from_) then s.trap t tcBackpressure va
        else s
    | _ => s

end State

/-- LOAD_RETURN (R38, R41, R200): an access that has left its core completes. -/
def execLoadReturn (acc : Nat) (reply : Option (W128 × Nat)) (s : State) : Result := .next (s.returnAccess acc reply)

/-- STORE_AT_HOME (R184). -/
def execStoreAtHome (core : Nat) (s : State) : Result := .next (s.headHome core)

/-- SPILL (R185). -/
def execSpill (core : Nat) (s : State) : Result := .next (s.spillTail core)

/-- STORE_BACKPRESSURE (R185, R205). -/
def execStoreBackpressure (tid : Nat) (s : State) : Result := .next (s.storePressure tid)

/-- R185, R338: a dirty line is carried into DRAM: a spilled one by the system share, any other by what the present
µs has left of its context's part of the write-lane slots, or of what the system share adds. -/
def State.carryLine (s : State) (line : Nat) (d : Dirty) : State :=
  let key := sliceDie (s.dirtySlice line) * 256 + d.ctx
  let left (t : Tbl Nat) : Nat := (tget t key).getD 0
  let m := s.market
  if d.spilled then s.lineInDram line false
  else if 128 ≤ left m.share then
    { s with market := { m with share := tput m.share key (left m.share - 128) } }.lineInDram line true
  else if 128 ≤ left m.topUp then
    { s with market := { m with topUp := tput m.topUp key (left m.topUp - 128) } }.lineInDram line false
  else s

/-- DRAM_WRITE (R184): a dirty line in the write lane reaches the array. -/
def execDramWrite (line : Nat) (s : State) : Result :=
  .next (match tget s.dirty line with
    | some d => if (d.wb && d.lane = []) || s.sliceHot (line * 128) then s else s.carryLine line d
    | none => s)

/-- WCB_SEND (R188): an entry that is full or 2 µs old is sent. -/
def execWcbSend (core n : Nat) (s : State) : Result :=
  .next (match (s.core core).wcb[n]? with
    | some e => if e.sent.isNone && decide (e.since + 8000 ≤ s.now) then s.sendEntry core e.id else s
    | none => s)

end Sys2Proof.Machine
end

