-- ==== Sys2Proof/Machine/Barrier.lean ====
section
/-!
DEFINITION. Waits (10 R287), barrier registers and their phases (R289 to R292), the quad barrier table
(14 R396), and lane-mask registers with their meetings (R281 to R286), as operations that the
instructions and the units share.
-/

namespace Sys2Proof.Machine

namespace State

variable (s : State)

/-! ### Waits -/

/-- R287: the cycles a wait of exponent e may last; at 0 it only polls. -/
def waitCycles (e : TExp) : Nat := if e.val = 0 then 0 else 2 ^ (e.val + 8)

/-- R287: a thread blocks in a wait of exponent e. A stop may have left it cycles to wait
(R153); while its workgroup is halted its waits hold the cycles they have left (R401). -/
def startWait (t : Nat) (kind : WaitKind) (d : Reg) (e : TExp) : State :=
  s.modThread t fun x =>
    let base := if (s.wg x.wg).halted then 0 else s.cyc
    let deadline := match x.carry with
      | some k => k.map (base + ·)
      | none => if e.val = 15 then none else some (base + waitCycles e)
    { x with st := .blocked, carry := none, wait := some { kind, d, deadline, sent := s.now, first := false } }

/-- A thread's wait ends with nothing written; while others of its group still wait, it stays blocked with them
(R271). -/
def dropWait (t : Nat) : State :=
  s.modThread t fun x => { x with st := if s.groupBlocked t then .blocked else .running, wait := none }

/-- A thread's wait ends with a status. -/
def endWait (t code : Nat) : State :=
  match (s.thread t).wait with
  | some w => (s.status t w.d code).dropWait t
  | none => s

/-- R29: the status register of a participant; a w register takes the lowest participant's. -/
def statusReg (d : Reg) (ps : List Nat) (t : Nat) : Reg := dstFor d ps t

/-! ### Participants that act one by one (R149, R242, R259) -/

/-- Each participant does its own part in ascending lane order, as soon as it can; those that have are
noted in the group while it is stalled (notes/assumptions/63.md). -/
def eachOwn (one : State → Nat → State × Bool) : List Nat → State → State
  | [], s => s.advance
  | t :: ts, s =>
    let done := match s.cur with | some g => g.part.contains t || !g.members.contains t | none => true
    if done then eachOwn one ts s
    else
      match one s t with
      | (s, true) => eachOwn one ts { s with cur := s.cur.map fun g => { g with part := g.part ++ [t] } }
      | (s, false) => s.stall

/-! ### Barrier registers -/

/-- R59, R289: the key of a barrier register named by a thread. -/
def barKey (t : Nat) (b : Bar) : Nat :=
  let w := s.wgOf t
  match b with
  | .b n => (2 * w.id) * 32 + n.val
  | .bt n => (2 * w.team.getD 0 + 1) * 32 + n.val

/-- A register nothing has named yet. -/
def freshBar (count ctx quad : Nat) : BarSt :=
  { count, n := 0, sig := false, signers := [], p := 0, held := [], cur := none, err := none, ctx, quad
    resident := false, touched := 0 }

def bar (k : Nat) : BarSt := (tget s.bars k).getD (freshBar 0 0 0)
def setBar (k : Nat) (b : BarSt) : State := { s with bars := tput s.bars k b }

/-- R396: the group of a register's key is on the quad. -/
def barPresent (k : Nat) : Bool :=
  let tag := k / 32
  if tag % 2 = 0 then (tget s.wgs (tag / 2)).isSome
  else s.wgs.any fun w => w.2.team = some (tag / 2)

/-- R396: entries of a context that have been spilled. -/
def spilledBars (c : Nat) : Nat := (s.bars.filter fun b => b.2.ctx = c && !b.2.resident && b.2.touched ≠ 0).length

/-- R392: BQUOTA. -/
def barQuota (c : Nat) : Nat := bitsOf (s.ctl c) 32 16

/-- R344, R396: a context's spilled entries stand in type 4 of its save area, which is written at the end of the step; the
system share carries the 32 bytes of one. -/
def noteSpill (c : Nat) : State := { s.bump 0 (s.ctxTenant c) 7 32 with spills := insertNat c s.spills }

/-- R396: an entry made resident for an instruction that names it; none when no entry can be spilled. -/
def needBar (k : Nat) : Option State :=
  let (n, s) := s.newId
  let b := s.bar k
  let mine := { b with resident := true, touched := n }
  if b.resident then some (s.setBar k mine)
  else
    let here := s.bars.filter fun x => x.2.quad = b.quad && x.2.resident
    if here.length < 512 then some (s.setBar k mine)
    else
      let old := (here.filter fun x => !s.barPresent x.1 && decide (s.spilledBars x.2.ctx < s.barQuota x.2.ctx)).foldl
        (fun m x => match m with
          | none => some x
          | some y => if x.2.touched < y.2.touched then some x else some y) (none : Option (Nat × BarSt))
      match old with
      | none => none
      | some (k', b') => some (((s.setBar k' { b' with resident := false }).setBar k mine).noteSpill b'.ctx)

/-- R396: the participants' barrier register made resident, or BARRIER_QUOTA in each of them. -/
def withBar (b : Bar) (ps : List Nat) : State :=
  match ps with
  | [] => s
  | t :: _ =>
    match s.needBar (s.barKey t b) with
    | some s => s
    | none => ps.foldl (fun s t => if s.stands t then s.trap t tcBarrierQuota 0 else s) s

/-- R292: the phase after p has completed. -/
def phasePassed (b : BarSt) (p : W32) : Bool :=
  let d := (b.p - p).toNat
  decide (1 ≤ d) && decide (d < 2 ^ 31)

/-- R292, R249: the wait of a thread on a phase ends: the recorded trap of the phase it awaited, or 0. -/
def endPhase (t k : Nat) (p : W32) : State :=
  let b := s.bar k
  match (if b.p = p + 1 then b.err else none) with
  | some e =>
      let (pc, idx) := s.placeOf t
      (s.dropWait t).trapWith t (errRec e pc idx false)
  | none => s.endWait t 0

/-- R292: a thread that waits on a phase that has completed goes on, or takes the trap recorded with it. -/
def wakePhase (k : Nat) (t : Nat) : State :=
  match (s.thread t).wait with
  | some w =>
    match w.kind with
    | .phase k' p => if k' = k && phasePassed (s.bar k) p then s.endPhase t k p else s
    | _ => s
  | none => s

/-- R289, R292: the current phase completes, and ends the waits on it at once, while its error record stands. -/
def nextPhase (k : Nat) : State :=
  let b := s.bar k
  let s := s.setBar k { b with p := b.p + 1, n := 0, sig := false, signers := [], held := [], err := b.cur, cur := none }
  (s.threads.map (·.1)).foldl (fun s t => s.wakePhase k t) s

/-- R289, R291: a phase that its arrivals reach completes. -/
def settlePhase (k : Nat) : State :=
  let b := s.bar k
  if 0 < b.count ∧ b.count ≤ b.n ∧ b.sig = false then s.nextPhase k else s

/-- R290, R292: one arrival of a thread, counted in a phase that may take it. -/
def arrive (k : Nat) : State :=
  let b := s.bar k
  (s.setBar k { b with n := b.n + 1 }).settlePhase k

/-- R290, R291: whether a thread may arrive: the count is nonzero and no signature is held. -/
def mayArrive (k : Nat) : Bool :=
  let b := s.bar k
  decide (0 < b.count) && !(b.sig && decide (0 < b.n))

/-- R246, R249, R290: a copy unit's arrival, held while the phase holds signatures; on an entry that has been spilled
the overflow engine applies it (R396). -/
def unitArrive (k : Nat) (e : Option DefErr) : State :=
  let b := s.bar k
  let s := if !b.resident && b.touched ≠ 0 then s.noteSpill b.ctx else s
  if b.sig && decide (0 < b.n) then s.setBar k { b with held := b.held ++ [e] }
  else
    let cur := match b.cur with | none => e | some y => some y
    (s.setBar k { b with n := b.n + 1, cur }).settlePhase k

/-- R289, R290: a phase of signatures completes, and the arrivals held behind it count in the next. -/
def finishPhase (k : Nat) : State :=
  (s.bar k).held.foldl (fun s e => if (tget s.bars k).isSome then s.unitArrive k e else s) (s.nextPhase k)

/-- R292: a participant waits for the phase after p, or goes on at once. -/
def waitPhase (t k : Nat) (p : W32) (d : Reg) (e : TExp) : State :=
  let b := s.bar k
  if phasePassed b p then (s.startWait t (.phase k p) d 15).endPhase t k p
  else if e.val = 0 then s.status t d 1
  else s.startWait t (.phase k p) d e

/-! ### Lane-mask registers -/

def kset (f : Nat) (k : KReg) : KSet := (s.flock f).k.get k
def setK (f : Nat) (k : KReg) (x : KSet) : State := s.modFlock f fun fl => { fl with k := fl.k.set k x }

/-- The bit of a thread's lane. -/
def laneBit (t : Nat) : W32 := 1#32 <<< tidLane t

/-- The threads of a flock that wait on a lane-mask register, among those whose lanes a mask holds. -/
def meeters (f : Nat) (k : KReg) (m : W32) : List Nat :=
  (s.threads.filter fun x => tidFlock x.1 = f && decide (m &&& laneBit x.1 ≠ 0) &&
    (match x.2.wait with | some w => w.kind = .meet k.val | none => false)).map (·.1)

/-- R284: the clause that follows the WAITM at which a thread stands. -/
def afterMeeting (t : Nat) : W64 :=
  match s.allGroups.find? fun g => g.members.contains t with
  | some g => nextClause g.pc g.hdr
  | none => (s.thread t).pc

/-- R281: a meeting that is complete releases its threads with status 0, and V becomes empty. -/
def meetIfComplete (f : Nat) (k : KReg) : State :=
  let x := s.kset f k
  if x.m ≠ 0 ∧ x.v = x.m then
    let ts := s.meeters f k x.m
    let (id, s) := (s.setK f k { x with v := 0 }).newId
    let clauses := ts.map s.afterMeeting
    (ts.zip clauses).foldl (fun s x => (s.endWait x.1 0).modThread x.1 fun y =>
      { y with met := some { id, at_ := s.cyc, clause := x.2, n := clauses.count x.2 } }) s
  else s

/-- R282, R285: a thread's lane leaves a lane-mask register. -/
def leaveK (t : Nat) (k : KReg) : State :=
  let f := tidFlock t
  let x := s.kset f k
  (s.setK f k { m := x.m &&& ~~~laneBit t, v := x.v &&& ~~~laneBit t }).meetIfComplete f k

/-- R285: a thread that ends leaves every lane-mask register of its flock. -/
def leaveAllK (t : Nat) : State :=
  (List.finRange 12).foldl (fun s k => if (s.kset (tidFlock t) k).m &&& laneBit t = 0 then s else s.leaveK t k) s

/-- R283: a thread's arrival is withdrawn. -/
def withdrawK (t : Nat) (k : KReg) : State :=
  let f := tidFlock t
  let x := s.kset f k
  s.setK f k { x with v := x.v &&& ~~~laneBit t }

end State

end Sys2Proof.Machine
end

