-- ==== Sys2Proof/Machine/Float.lean ====
section
/-!
DEFINITION. Row 0x3: floating-point arithmetic, comparison and classification, packed arithmetic and
dot products (04 R110, R112 to R116), over the roundings of Formats.
-/

namespace Sys2Proof.Machine

/-- A register operand as a value of a floating type. -/
def rdF (s : State) (t : Nat) (ty : Ty) (ftz : Bool) (r : Reg) : FVal := decodeF ty ftz (s.rdN t r ty.words)

/-- An exact result rounded into a register under the modifiers of R112. -/
def outF (d : Reg) (m : FMod) (v : FVal × BitVec 7) : Effect :=
  let (bits, fl) := roundTo m.ty m.rm m.sat m.ftz v.1
  .reg d m.ty.words bits (fl ||| v.2)

/-! ### R112 -/

/-- R112: a sum, with `neg` of the second operand negated. -/
def faddEffect (x : FBin) (neg : Bool) (s : State) (_ : List Nat) (t : Nat) : Effect :=
  let b := rdF s t x.m.ty x.m.ftz x.b
  outF x.d x.m (sumF x.m.rm false [rdF s t x.m.ty x.m.ftz x.a, if neg then b.negate else b])

def execFadd (x : FBin) (s : State) : Result := aluMeaning (.fadd x) (faddEffect x false) s
def execFsub (x : FBin) (s : State) : Result := aluMeaning (.fsub x) (faddEffect x true) s

/-- R112: FMUL. -/
def fmulEffect (x : FBin) (s : State) (_ : List Nat) (t : Nat) : Effect :=
  outF x.d x.m (mulF (rdF s t x.m.ty x.m.ftz x.a) (rdF s t x.m.ty x.m.ftz x.b))

def execFmul (x : FBin) (s : State) : Result := aluMeaning (.fmul x) (fmulEffect x) s

/-- R112: FFMA. -/
def ffmaEffect (x : FTern) (s : State) (_ : List Nat) (t : Nat) : Effect :=
  outF x.d x.m (fmaF x.m.rm (rdF s t x.m.ty x.m.ftz x.a) (rdF s t x.m.ty x.m.ftz x.b)
    (rdF s t x.m.ty x.m.ftz x.c))

def execFfma (x : FTern) (s : State) : Result := aluMeaning (.ffma x) (ffmaEffect x) s

/-- A value times a power of two. -/
def FVal.scale (v : FVal) (k : Int) : FVal :=
  match v with
  | .fin s m e => .fin s m (e + k)
  | v => v

/-- R112: FSCALE. -/
def fscaleEffect (x : FBin) (s : State) (_ : List Nat) (t : Nat) : Effect :=
  let a := rdF s t x.m.ty x.m.ftz x.a
  outF x.d x.m (a.scale (s.rd t x.b).toInt, a.sigFlag)

def execFscale (x : FBin) (s : State) : Result := aluMeaning (.fscale x) (fscaleEffect x) s

/-- R112: a value rounded to an integral value, a zero keeping the operand's sign. -/
def frndF (rm : Rm) (v : FVal) : FVal × BitVec 7 :=
  match v with
  | .fin s m e =>
      let (n, inexact) := quantize rm s m e false 0
      (.fin s n 0, flagIf inexact fInexact)
  | v => (v, v.sigFlag)

def frndEffect (x : FUn) (s : State) (_ : List Nat) (t : Nat) : Effect :=
  outF x.d x.m (frndF x.m.rm (rdF s t x.m.ty x.m.ftz x.a))

def execFrnd (x : FUn) (s : State) : Result := aluMeaning (.frnd x) (frndEffect x) s

/-! ### R113, R114, R110 -/

/-- R113: a chosen operand is delivered as it is, without rounding. -/
def fminmaxEffect (x : FMinMax) (mx : Bool) (s : State) (_ : List Nat) (t : Nat) : Effect :=
  let (v, fl) := minMaxF mx (rdF s t x.ty x.ftz x.a) (rdF s t x.ty x.ftz x.b)
  .reg x.d x.ty.words (roundTo x.ty .rne false false v).1 fl

def execFmin (x : FMinMax) (s : State) : Result := aluMeaning (.fmin x) (fminmaxEffect x false) s
def execFmax (x : FMinMax) (s : State) : Result := aluMeaning (.fmax x) (fminmaxEffect x true) s

/-- R114: the class bit of an encoding. -/
def classBit (ty : Ty) (bits : Nat) : Nat :=
  let f := fmtOf ty
  match decodeF ty false bits with
  | .nan sig => if sig then 8 else 9
  | .inf neg => if neg then 0 else 7
  | .fin neg m e =>
      if m = 0 then (if neg then 3 else 4)
      else if e = f.qmin && m < 2 ^ f.frac then (if neg then 2 else 5)
      else if neg then 1 else 6

def execFclass (x : Un) (s : State) : Result :=
  aluMeaning (.fclass x) (unBits x 1 fun a => 2 ^ classBit x.ty a) s

/-- R110: a floating condition on the order of two operands, none when either is a NaN. -/
def fcondTest (c : FCond) (o : Option Ordering) : Bool :=
  match o with
  | none => match c with
    | .nan | .equ | .neu | .ltu | .leu | .gtu | .geu => true
    | _ => false
  | some r => match c with
    | .eq | .equ => r = .eq
    | .ne | .neu => r != .eq
    | .lt | .ltu => r = .lt
    | .le | .leu => r != .gt
    | .gt | .gtu => r = .gt
    | .ge | .geu => r != .lt
    | .num => true
    | .nan => false

def fsetpEffect (x : FsetpArgs) (s : State) (_ : List Nat) (t : Nat) : Effect :=
  let a := rdF s t x.ty x.ftz x.a
  let b := rdF s t x.ty x.ftz x.b
  let o := if a.isNan || b.isNan then none else some (cmpF a b)
  .pred x.d (combine s t (fcondTest x.cond o) x.comb) (a.sigFlag ||| b.sigFlag)

def execFsetp (x : FsetpArgs) (s : State) : Result := aluMeaning (.fsetp x) (fsetpEffect x) s

/-! ### R115 -/

/-- Element i of a packed register. -/
def half (w : W32) (i : Nat) : Nat := natBits w.toNat (16 * i) 16

/-- R115: which element of b meets element i of a. -/
def bselElem : BSel → Nat → Nat
  | .both, i => i
  | .blo, _ => 0
  | .bhi, _ => 1
  | .bswp, i => 1 - i

/-- Two elements computed on their own, flags joined. -/
def packedEffect (d : Reg) (m : FMod) (f : Nat → FVal × BitVec 7) : Effect :=
  let one (i : Nat) : Nat × BitVec 7 :=
    let v := f i
    let (bits, fl) := roundTo m.ty m.rm m.sat m.ftz v.1
    (bits, fl ||| v.2)
  .reg d 1 ((one 0).1 + (one 1).1 * 65536) ((one 0).2 ||| (one 1).2)

/-- An element of a packed operand as a value. -/
def rdHalf (s : State) (t : Nat) (m : FMod) (r : Reg) (i : Nat) : FVal := decodeF m.ty m.ftz (half (s.rd t r) i)

def hadd2Effect (x : HBin) (s : State) (_ : List Nat) (t : Nat) : Effect :=
  packedEffect x.d x.m fun i =>
    sumF x.m.rm false [rdHalf s t x.m x.a i, rdHalf s t x.m x.b (bselElem x.sel i)]

def execHadd2 (x : HBin) (s : State) : Result := aluMeaning (.hadd2 x) (hadd2Effect x) s

def hmul2Effect (x : HBin) (s : State) (_ : List Nat) (t : Nat) : Effect :=
  packedEffect x.d x.m fun i => mulF (rdHalf s t x.m x.a i) (rdHalf s t x.m x.b (bselElem x.sel i))

def execHmul2 (x : HBin) (s : State) : Result := aluMeaning (.hmul2 x) (hmul2Effect x) s

def hfma2Effect (x : HTern) (s : State) (_ : List Nat) (t : Nat) : Effect :=
  packedEffect x.d x.m fun i =>
    fmaF x.m.rm (rdHalf s t x.m x.a i) (rdHalf s t x.m x.b (bselElem x.sel i)) (rdHalf s t x.m x.c i)

def execHfma2 (x : HTern) (s : State) : Result := aluMeaning (.hfma2 x) (hfma2Effect x) s

/-! ### R116 -/

/-- Element i of a register that packs elements of `n` bits. -/
def packed (w : W32) (n i : Nat) : Nat := natBits w.toNat (n * i) n

/-- R116: the integer forms; c is read, and the sum narrowed, in the 32-bit type of the elements' sign. -/
def dotInt (x : FTern) (n : Nat) (s : State) (t : Nat) : Effect :=
  let ty := x.m.ty
  let wideTy := if tySigned ty then Ty.s32 else Ty.z32
  let v := (upTo (32 / n)).foldl (fun v i =>
    v + intOf ty (packed (s.rd t x.a) n i) * intOf ty (packed (s.rd t x.b) n i)) (intOf wideTy (s.rd t x.c).toNat)
  let (bits, fl) := narrow wideTy x.m.sat v
  .reg x.d 1 bits fl

/-- R116: the floating forms: the exact sum of c and the products, rounded once to FP32. -/
def dotFloat (x : FTern) (n : Nat) (elemFtz : Bool) (s : State) (t : Nat) : Effect :=
  let el (r : Reg) (i : Nat) : FVal := decodeF x.m.ty elemFtz (packed (s.rd t r) n i)
  let ps := (upTo (32 / n)).map fun i => mulF (el x.a i) (el x.b i)
  let v := sumF x.m.rm false (rdF s t .f32 x.m.ftz x.c :: ps.map (·.1))
  outF x.d { x.m with ty := .f32 } (v.1, ps.foldl (fun f p => f ||| p.2) v.2)

/-- R116: DOT4. .ftz acts on c and the result only. -/
def dot4Effect (x : FTern) (s : State) (_ : List Nat) (t : Nat) : Effect :=
  match x.m.ty with
  | .e4m3 | .e5m2 => dotFloat x 8 false s t
  | _ => dotInt x 8 s t

def execDot4 (x : FTern) (s : State) : Result := aluMeaning (.dot4 x) (dot4Effect x) s

/-- R116: DOT2. .ftz acts on the elements too. -/
def dot2Effect (x : FTern) (s : State) (_ : List Nat) (t : Nat) : Effect :=
  match x.m.ty with
  | .f16x2 | .bf16x2 => dotFloat x 16 x.m.ftz s t
  | _ => dotInt x 16 s t

def execDot2 (x : FTern) (s : State) : Result := aluMeaning (.dot2 x) (dot2Effect x) s

end Sys2Proof.Machine
end

