-- ==== Sys2Proof/Machine/Convert.lean ====
section
/-!
DEFINITION. Row 0x4 but for the special functions: conversion, the N4X scale, pack and unpack, and
FXA128 in registers (04 R117, R120 to R124).
-/

namespace Sys2Proof.Machine

/-- A floating type. -/
def tyFloat : Ty → Bool
  | .f64 | .f32 | .f16 | .bf16 | .e4m3 | .e5m2 | .f16x2 | .bf16x2 => true
  | _ => false

/-- R99: a typed source as an exact value. -/
def typedVal (s : State) (t : Nat) (ty : Ty) (ftz : Bool) (r : Reg) : FVal :=
  if tyFloat ty then rdF s t ty ftz r else .ofInt (intOf ty (s.rdN t r ty.words)) 0

/-- R99: a narrow integer result fills its register, sign-extended or zero-extended. -/
def widenInt (ty : Ty) (bits : Nat) : Nat :=
  if tySigned ty then wrapNat (signExt bits (tyBits ty)) (32 * ty.words) else bits

/-- R81, R117, R124: one Round of an exact value into a type; `bad` flags an integer out of range. -/
def convertTo (m : FMod) (bad : BitVec 7) (v : FVal) : Nat × BitVec 7 :=
  if tyFloat m.ty then
    let (bits, fl) := roundTo m.ty m.rm m.sat m.ftz v
    (bits, fl ||| v.sigFlag)
  else
    let (bits, fl) := intTo m.ty m.rm bad v
    (widenInt m.ty bits, fl)

/-- R117: CVT. -/
def cvtEffect (x : CvtArgs) (s : State) (_ : List Nat) (t : Nat) : Effect :=
  let (bits, fl) := convertTo x.m (if tyFloat x.src then fInvalid else fSaturated) (typedVal s t x.src x.m.ftz x.a)
  .reg x.d x.m.ty.words bits fl

def execCvt (x : CvtArgs) (s : State) : Result := aluMeaning (.cvt x) (cvtEffect x) s

/-! ### R120: QSCALE -/

/-- Scale number c = 16 e + m times a target, at 2^−131, is below a magnitude. -/
def scaleBelow (target m : Nat) (e : Int) (c : Nat) : Bool :=
  decide ((alignSum [(false, (16 + c % 16) * target, (c / 16 : Nat) - 131), (true, m, e)]).1 < 0)

/-- The number of scales, of 255 × 16, that are below a magnitude, bit by bit. -/
def scaleCount (target m : Nat) (e : Int) : Nat :=
  (upTo 12).foldl (fun c i =>
    let d := c + 2 ^ (11 - i)
    if decide (d ≤ 4080) && scaleBelow target m e (d - 1) then d else c) 0

/-- R120. -/
def qscaleOf (big : Bool) (v : FVal) : Nat × BitVec 7 :=
  let c := match v with
    | .fin _ m e => scaleCount (if big then 448 else 7) m e
    | _ => 4080
  match v with
  | .nan sig => (0xFF, flagIf sig fInvalid)
  | .fin _ 0 _ => (0x7F, 0)
  | _ => if c < 4080 then (c % 16 * 256 + c / 16, 0) else (0xFFE, fSaturated)

def qscaleEffect (x : QscaleArgs) (s : State) (_ : List Nat) (t : Nat) : Effect :=
  let (v, fl) := qscaleOf x.big (rdF s t x.ty false x.a)
  .reg x.d 1 v fl

def execQscale (x : QscaleArgs) (s : State) : Result := aluMeaning (.qscale x) (qscaleEffect x) s

/-! ### R121, R122: PACK and UNPACK -/

/-- A value divided by (16 + m) × 2^(e − 131), with what is dropped noted. -/
def divScale (v : FVal) (e m : Nat) : FVal × Bool :=
  match v with
  | .fin s n x => (.fin s (n * 2 ^ 64 / (16 + m)) (x - 64 - ((e : Int) - 131)), n * 2 ^ 64 % (16 + m) ≠ 0)
  | v => (v, false)

/-- A nonzero source; a NaN counts as nonzero. -/
def FVal.nonzero : FVal → Bool
  | .fin _ m _ => m ≠ 0
  | _ => true

/-- R121: a quotient rounds into the plain range. -/
def plainFits (rm : Rm) (q : FVal) (sticky : Bool) : Bool :=
  match q with
  | .nan _ => true
  | .inf _ => false
  | .fin s m e =>
      let n := (roundInt rm s m e sticky).1
      decide (-7 ≤ n) && decide (n ≤ 7)

/-- R121: the nibbles from position 48 − n on, and the flags. -/
def packScan (rm : Rm) (e m : Nat) (xs : List FVal) : Nat → Nat → List Nat × BitVec 7
  | 0, _ => ([], 0)
  | n + 1, skip =>
      let i := 47 - n
      match skip with
      | k + 1 =>
          let (l, f) := packScan rm e m xs n k
          (0 :: l, f)
      | 0 =>
          let v := xs.getD i (.fin false 0 0)
          let (q, sticky) := divScale v e m
          if plainFits rm q sticky || decide (46 ≤ i) then
            let (w, fl) := intRound rm (-7) 7 fInvalid q sticky
            let (l, f) := packScan rm e m xs n 0
            (wrapNat w 4 :: l, f ||| fl)
          else
            let (y, fl) := match q with
              | .fin s a b => roundFin .e4m3 rm true false s a b sticky
              | v => roundTo .e4m3 rm true false v
            let lost := (xs.getD (i + 1) (.fin false 0 0)).nonzero || (xs.getD (i + 2) (.fin false 0 0)).nonzero
            let (l, f) := packScan rm e m xs n 2
            -- the two payload nibbles take the places of the consumed positions
            (8 :: y / 16 :: y % 16 :: l.drop 2, f ||| fl ||| flagIf lost fInexact)

/-- R121: the block of 48 values under a scale record, as 192 bits. -/
def packBlock (rm : Rm) (rec : Nat) (xs : List FVal) : Nat × BitVec 7 :=
  if rec % 256 = 255 then (0, fInformat)
  else
    let (l, f) := packScan rm (rec % 256) (rec / 256 % 16) xs 48 0
    (l.foldr (fun x v => x + 16 * v) 0, f)

/-- R121: source element j. -/
def packSource (x : PackArgs) (s : State) (t j : Nat) : FVal :=
  if x.ty = .f32 then decodeF .f32 false (s.rd t (Reg.up x.a j)).toNat
  else decodeF x.ty false (natBits (s.rd t (Reg.up x.a (j / 2))).toNat (16 * (j % 2)) 16)

def packEffect (x : PackArgs) (s : State) (_ : List Nat) (t : Nat) : Effect :=
  let (v, fl) := packBlock x.rm ((s.rd t x.b).toNat % 65536) ((upTo 48).map (packSource x s t))
  .reg x.d 6 v fl

def execPack (x : PackArgs) (s : State) : Result := aluMeaning (.pack x) (packEffect x) s

/-- R122: UNPACK. -/
def unpackEffect (x : UnpackArgs) (s : State) (_ : List Nat) (t : Nat) : Effect :=
  let blk := natLe 24 (s.rdN t x.a 6)
  let (vs, e, bad) := n4xDecode blk ((s.rd t x.b).toNat % 65536)
  let outs := (upTo 16).map fun i => roundTo x.m.ty x.m.rm x.m.sat x.m.ftz (.ofInt (vs.getD (16 * x.part.val + i) 0) e)
  let w := (fmtOf x.m.ty).width
  let v := outs.foldr (fun o v => o.1 + 2 ^ w * v) 0
  .reg x.d (w / 2) v (outs.foldl (fun f o => f ||| o.2) (flagIf bad fInformat))

def execUnpack (x : UnpackArgs) (s : State) : Result := aluMeaning (.unpack x) (unpackEffect x) s

/-! ### R123, R124 -/

/-- R123: FXAADD. -/
def fxaaddEffect (x : FxaaddArgs) (s : State) (_ : List Nat) (t : Nat) : Effect :=
  let (a, f) := fxaRead (s.rdN t x.a 4)
  let (b, g) := fxaRead (s.rdN t x.b 4)
  let (v, h) := fxaClamp (if x.sub then a - b else a + b)
  .reg x.d 4 (wrapNat v 128) (f ||| g ||| h)

def execFxaadd (x : FxaaddArgs) (s : State) : Result := aluMeaning (.fxaadd x) (fxaaddEffect x) s

/-- R124: a signed anchor in byte i of the control word. -/
def anchorOf (b : W32) (i : Nat) : Int := signExt (b.toNat / 256 ^ i) 8

def fxacvtEffect (x : FxacvtArgs) (s : State) (_ : List Nat) (t : Nat) : Effect :=
  let b := s.rd t x.b
  let k := anchorOf b 0
  match x.dir with
  | .out m =>
      let (a, f) := fxaRead (s.rdN t x.a 4)
      let (bits, g) := convertTo m fSaturated (fxaVal a k)
      .reg x.d m.ty.words bits (f ||| g)
  | .into ty ftz =>
      let (a, f) := fxaOf k (typedVal s t ty ftz x.a)
      .reg x.d 4 (wrapNat a 128) f
  | .anchor =>
      let (a, f) := fxaRead (s.rdN t x.a 4)
      let (w, g) := fxaOf (anchorOf b 1) (fxaVal a k)
      .reg x.d 4 (wrapNat w 128) (f ||| g)

def execFxacvt (x : FxacvtArgs) (s : State) : Result := aluMeaning (.fxacvt x) (fxacvtEffect x) s

end Sys2Proof.Machine
end

