-- ==== Sys2Proof/Machine/Engine.lean ====
section
/-!
DEFINITION. What the matrix engine computes (05 R132 to R142, 03 R87 to R97): the format word, the
operands as they lie in tiles and planes, the exact products, the pass and the readout.
-/

namespace Sys2Proof.Machine

/-! ### The format word (R95, R96) -/

def fwFa (fw : W32) : Nat := natBits fw.toNat 0 4
def fwFb (fw : W32) : Nat := natBits fw.toNat 4 4
def fwFo (fw : W32) : Nat := natBits fw.toNat 8 4
def fwRm (fw : W32) : Nat := natBits fw.toNat 12 3
def fwSat (fw : W32) : Bool := fw.getLsbD 15
def fwSpn (fw : W32) : Nat := natBits fw.toNat 16 3
def fwBop (fw : W32) : Nat := natBits fw.toNat 19 2
def fwAnchor (fw : W32) : Int := signExt (natBits fw.toNat 21 8) 8

/-- R71: format codes that FA and FB may hold, and those that FO may. -/
def operandCode (c : Nat) : Bool := decide (1 ≤ c) && decide (c ≤ 8)
def outputCode (c : Nat) : Bool := [0, 1, 2, 3, 4, 6, 9].contains c

/-- R96: a valid format word. -/
def fwValid (fw : W32) : Bool :=
  let fa := fwFa fw
  let fb := fwFb fw
  let half (c : Nat) : Bool := c = 1 || c = 2
  operandCode fa && operandCode fb && outputCode (fwFo fw) && decide (fwRm fw ≤ 4) && decide (fwSpn fw ≤ 5) &&
    decide (fwBop fw ≤ 2) && (half fa == half fb) &&
    (if fwBop fw = 0 then fa ≠ 8 && fb ≠ 8
     else fa = 8 && fb = 8 && fwFo fw = 0 && fwSpn fw = 0 && fwAnchor fw = 0)

/-- The rounding mode of a format word. -/
def fwRound (fw : W32) : Rm :=
  match fwRm fw with
  | 0 => .rne | 1 => .rtz | 2 => .rup | 3 => .rdn | _ => .rna

/-! ### Shapes (R132, R133, R135, R136, R141) -/

/-- Width of an element of a format code (R71). -/
def codeBits : Nat → Nat
  | 0 => 32 | 1 => 16 | 2 => 16 | 3 => 8 | 4 => 8 | 5 => 4 | 6 => 8 | 7 => 4 | 8 => 1 | _ => 128

/-- R132: stored K positions and output columns by stationary format. -/
def kStored (fb : Nat) : Nat :=
  match fb with
  | 1 | 2 => 192
  | 5 | 7 => 768
  | 8 => 3072
  | _ => 384

def columns (fb : Nat) : Nat := if fb = 1 ∨ fb = 2 then 128 else 256

/-- R95: N of SPN; 48 when dense. -/
def sparseN (spn : Nat) : Nat :=
  match spn with
  | 1 => 6 | 2 => 12 | 3 => 16 | 4 => 24 | 5 => 32 | _ => 48

/-- R133: the logical K. -/
def kLogical (fb spn : Nat) : Nat := kStored fb * 48 / sparseN spn

/-- Tiles that a number of bytes takes. -/
def tilesFor (n : Nat) : Nat := (n + 4095) / 4096

/-- R136: the bytes of a streamed row, and of a row's scale records. -/
def rowBytes (fw : W32) : Nat := kLogical (fwFb fw) (fwSpn fw) * codeBits (fwFa fw) / 8
def rowRecs (fw : W32) : Nat := kLogical (fwFb fw) (fwSpn fw) / 48 * 2

/-- R141: the size of a readout's element. -/
def outSize (fw : W32) : Nat := if fwBop fw ≠ 0 then 4 else codeBits (fwFo fw) / 8

/-- A run of tiles: the first and how many. -/
abbrev TileSpan := Nat × Nat

def spanTiles (x : TileSpan) : List Nat := (upTo x.2).map (x.1 + ·)

/-! ### Elements -/

/-- The value of an encoding of a format code other than N4X (R76 to R82). -/
def codeVal (c bits : Nat) : FVal :=
  match c with
  | 1 => decodeF .f16 false bits
  | 2 => decodeF .bf16 false bits
  | 3 => decodeF .e4m3 false bits
  | 4 => decodeF .e5m2 false bits
  | 6 => .ofInt (signExt bits 8) 0
  | 7 => .ofInt (signExt bits 4) 0
  | _ => .fin false (bits % 2) 0

/-- R82: element i of an array packed from an address. -/
def packedElem (m : Memory) (base c i : Nat) : Nat :=
  let w := codeBits c
  mnat m (base + i * w / 8) (max 1 (w / 8)) / 2 ^ (i * w % 8) % 2 ^ w

/-- R86: the decoded block at an address with its record. -/
def blockAt (m : Memory) (a : Nat) (recs : Memory) (r : Nat) : List Int × Int × Bool :=
  n4xDecode (mbytes m a 24) (mnat recs r 2)

/-- R135: stored position j of column n of a plane. -/
def storedVal (p : Plane) (j n : Nat) : FVal :=
  if p.fb = 5 then
    let b := j / 48 * 256 + n
    let (l, e, _) := blockAt p.elems (b * 24) p.scales (b * 2)
    .ofInt (l.getD (j % 48) 0) e
  else codeVal p.fb (packedElem p.elems (j * (columns p.fb * codeBits p.fb / 8)) p.fb n)

/-- The set bits of a bitmap of 48, lowest first. -/
def bitmapBits (m : Memory) (a : Nat) : List Nat :=
  let v := mnat m a 6
  (upTo 48).filter fun i => natBit v i

/-- R88, R89, R138: the logical position of stored position j, or none. -/
def logicalOf (p : Plane) (j : Nat) : Option Nat :=
  if p.spn = 0 then some j
  else
    let n := sparseN p.spn
    ((bitmapBits p.maps (j / n * 6))[j % n]?).map fun b => 48 * (j / n) + b

/-- A streamed operand: the bytes of its tiles by scratch offset, and where its runs begin (R136). -/
structure Stream where
  image : Memory
  ta : Nat
  ts : Nat
  rows : Nat
  deriving DecidableEq, Repr

/-- R136: logical position L of streamed row m. -/
def streamVal (fw : W32) (x : Stream) (m l : Nat) : FVal :=
  if fwFa fw = 5 then
    let (v, e, _) := blockAt x.image (x.ta * 4096 + m * rowBytes fw + l / 48 * 24) x.image
      (x.ts * 4096 + m * rowRecs fw + l / 48 * 2)
    .ofInt (v.getD (l % 48) 0) e
  else codeVal (fwFa fw) (packedElem x.image (x.ta * 4096 + m * rowBytes fw) (fwFa fw) l)

/-- R138: a streamed block of the pass is malformed. -/
def streamBad (fw : W32) (x : Stream) : Bool :=
  fwFa fw = 5 && (upTo x.rows).any fun m => (upTo (rowRecs fw / 2)).any fun b =>
    (blockAt x.image (x.ta * 4096 + m * rowBytes fw + b * 24) x.image (x.ts * 4096 + m * rowRecs fw + b * 2)).2.2

/-- R89, R86: a bitmap of a loaded plane whose count is not N, or a malformed stationary block. -/
def planeBad (p : Plane) : Bool :=
  (p.spn ≠ 0 && (upTo (kStored p.fb / sparseN p.spn)).any fun g =>
      (bitmapBits p.maps (g * 6)).length ≠ sparseN p.spn) ||
    (p.fb = 5 && (upTo 4096).any fun b => (blockAt p.elems (b * 24) p.scales (b * 2)).2.2)

/-! ### The pass (R138 to R140) -/

/-- One windowed product (R91), or one bit of a binary pass. -/
def prodOf (fw : W32) (a w : FVal) : Int × BitVec 7 :=
  let bit : FVal → Nat
    | .fin _ m _ => m
    | _ => 0
  match fwBop fw with
  | 1 => (((bit a ^^^ bit w : Nat) : Int), 0)
  | 2 => (((bit a &&& bit w : Nat) : Int), 0)
  | _ =>
      let (p, f) := mulF a w
      let (v, g) := fxaOf (fwAnchor fw) p
      (v, f ||| g)

/-- R138: the exact sum of row m and column n, and the flags of its products. -/
def passSum (fw : W32) (p : Plane) (x : Stream) (m n : Nat) : Int × BitVec 7 :=
  (upTo (kStored p.fb)).foldl (fun acc j =>
    match logicalOf p j with
    | some l =>
        let (v, f) := prodOf fw (streamVal fw x m l) (storedVal p j n)
        (acc.1 + v, acc.2 ||| f)
    | none => acc) (0, 0)

/-- R138: the tag check. -/
def tagOk (fw : W32) (p : Plane) : Bool := fwFb fw = p.fb && fwSpn fw = p.spn

def accKey (at_ row col : Nat) : Nat := (at_ * 64 + row) * 256 + col

/-- An accumulator with one element written; a zero is not listed. -/
def accPut (t : Tbl (BitVec 128)) (k : Nat) (v : Int) : Tbl (BitVec 128) :=
  let b := BitVec.ofInt 128 v
  if b = 0 then tdel t k else tput t k b

def accGet (t : Tbl (BitVec 128)) (k : Nat) : Nat := ((tget t k).getD 0).toNat

/-- The fields of MMA's control word (R157). -/
def mmaTa (c : W64) : Nat := bitsOf c 0 8
def mmaTs (c : W64) : Nat := bitsOf c 8 8
def mmaM (c : W64) : Nat := bitsOf c 16 7
def mmaAcc (c : W64) : Bool := c.getLsbD 23
def mmaRow0 (c : W64) : Nat := bitsOf c 24 6
def mmaAt (c : W64) : Nat := bitsOf c 30 2
def mmaHalf (c : W64) : Bool := c.getLsbD 32
def mmaCh (c : W64) : Bool := c.getLsbD 33

/-- The fields of the control words of MACR, MACW and MACZ (R158, R160). -/
def macTile (c : W32) : Nat := natBits c.toNat 0 8
def macM (c : W32) : Nat := natBits c.toNat 8 7
def macRow0 (c : W32) : Nat := natBits c.toNat 15 6
def macAt (c : W32) : Nat := natBits c.toNat 21 2
def macClr (c : W32) : Bool := c.getLsbD 23

/-- The exact sums of a pass, by row × 256 + column, and the flags of its products (R138). -/
def passSums (fw : W32) (p : Plane) (x : Stream) : List (Nat × Int) × BitVec 7 :=
  (upTo x.rows).foldl (fun r m =>
    (upTo (columns p.fb)).foldl (fun r n =>
      let (v, f) := passSum fw p x m n
      ((m * 256 + n, v) :: r.1, r.2 ||| f)) r) ([], 0)

/-- R138, R164: sums joined to an accumulator tile, with one clamp, `north` adding to its rows; rows past the tile's
last, which only the west quad's M can bring, are discarded (notes/assumptions/56.md). -/
def passWrite (ctl : W64) (fb : Nat) (acc : Tbl (BitVec 128)) (sums north : List (Nat × Int)) :
    Tbl (BitVec 128) × BitVec 7 :=
  let half := if (fb = 1 ∨ fb = 2) ∧ mmaHalf ctl then 128 else 0
  sums.foldl (fun r x =>
    if 64 ≤ mmaRow0 ctl + x.1 / 256 then r else
    let k := accKey (mmaAt ctl) (mmaRow0 ctl + x.1 / 256) (x.1 % 256 + half)
    let (old, f) : Int × BitVec 7 := if mmaAcc ctl then fxaRead (accGet r.1 k) else (0, 0)
    let more := ((north.find? fun y => y.1 = x.1).map (·.2)).getD 0
    let (v, g) := fxaClamp (old + x.2 + more)
    (accPut r.1 k v, r.2 ||| f ||| g)) (acc, 0)

/-! ### The readout (R141, R94, R97) -/

/-- The bytes of one element of a readout, and its flags. -/
def readElem (fw : W32) (bits : Nat) : List Byte × BitVec 7 :=
  let (a, f) := fxaRead bits
  let v := fxaVal a (fwAnchor fw)
  if fwBop fw ≠ 0 then
    let w := satInt a (-(2 : Int) ^ 31) ((2 : Int) ^ 31 - 1)
    (natLe 4 (wrapNat w 32), f ||| flagIf (w ≠ a) fSaturated)
  else
    match fwFo fw with
    | 9 => (natLe 16 (wrapNat a 128), f)
    | 6 =>
        let (n, g) := intTo .s8 (fwRound fw) fSaturated v
        (natLe 1 n, f ||| g)
    | c =>
        let ty : Ty := match c with | 1 => .f16 | 2 => .bf16 | 3 => .e4m3 | 4 => .e5m2 | _ => .f32
        let (n, g) := roundTo ty (fwRound fw) (fwSat fw) false v
        (natLe (outSize fw) n, f ||| g)

/-- R141: the bytes of a readout and its flags. -/
def readout (fw : W32) (ctl : W32) (acc : Tbl (BitVec 128)) : List Byte × BitVec 7 :=
  (upTo (macM ctl * 256)).foldl (fun r i =>
    let (b, f) := readElem fw (accGet acc (accKey (macAt ctl) (macRow0 ctl + i / 256) (i % 256)))
    (r.1 ++ b, r.2 ||| f)) ([], 0)

/-- Rows of an accumulator tile zeroed. -/
def accClear (acc : Tbl (BitVec 128)) (at_ row0 m : Nat) : Tbl (BitVec 128) :=
  acc.filter fun x => decide (x.1 < accKey at_ row0 0) || decide (accKey at_ (row0 + m) 0 ≤ x.1)

/-- R160: rows of an accumulator tile taken raw from an image of tiles. -/
def accLoad (acc : Tbl (BitVec 128)) (at_ row0 m : Nat) (image : Memory) (ts : Nat) : Tbl (BitVec 128) :=
  (upTo (m * 256)).foldl (fun t i =>
    accPut t (accKey at_ (row0 + i / 256) (i % 256)) (signExt (mnat image (ts * 4096 + i * 16) 16) 128)) acc

/-- Bytes of an image from an address, moved to address 0. -/
def rebase (m : Memory) (a n : Nat) : Memory := mputs [] 0 (mbytes m a n)

/-- R156: the plane that an MLDS loads from the image of its tiles. -/
def loadPlane (fw : W32) (ctl : W32) (image : Memory) : Plane :=
  let fb := fwFb fw
  let spn := fwSpn fw
  let t (i : Nat) : Nat := natBits ctl.toNat (8 * i) 8 * 4096
  { elems := rebase image (t 0) (kStored fb * columns fb * codeBits fb / 8)
    scales := if fb = 5 then rebase image (t 1) 8192 else []
    maps := if spn ≠ 0 then rebase image (t 2) (kStored fb / sparseN spn * 6) else []
    fb, spn }

end Sys2Proof.Machine
end

