-- ==== Sys2Proof/Machine/Matrix.lean ====
section
/-!
DEFINITION. The matrix engine's instructions and events (05 R143 to R165): signing a convergence
register, forming and posting a request, the reservation table and its arbiter, chaining over the
neighbour links, and the stops that withdraw a signature.
-/

namespace Sys2Proof.Machine

/-! ### What an entry reads, writes and names -/

/-- R144, R164: the control bits that a chained MMA reads on a quad of a role: with AW it ignores its own TA, TS and M,
with PS its own AT, ROW0, ACC and HALF (notes/assumptions/73.md). -/
def mmaRead (role : Nat) (c : W64) : W64 :=
  let aw : W64 := if mmaCh c && natBit role 1 then 0x7FFFFF else 0
  let ps : W64 := if mmaCh c && natBit role 2 then 0x1FF800000 else 0
  c &&& ~~~(aw ||| ps)

/-- R144: what the signers' collectives on a quad of a role must agree on: opcode, format word and the control bits
read. -/
def EngOp.key (role : Nat) : EngOp → Nat × Nat × Nat
  | .mlds fw c =>
      let tm := if fwFb fw = 5 then natBits c.toNat 8 8 else 0
      let tb := if fwSpn fw ≠ 0 then natBits c.toNat 16 8 else 0
      (0, fw.toNat % 2 ^ 29, natBits c.toNat 0 8 + tm * 2 ^ 8 + tb * 2 ^ 16)
  | .mma fw c₀ =>
      let c := mmaRead role c₀
      let ts := if fwFa fw = 5 then mmaTs c else 0
      let half := if (fwFb fw = 1 ∨ fwFb fw = 2) ∧ mmaHalf c then 1 else 0
      (1, fw.toNat % 2 ^ 29, mmaTa c + ts * 2 ^ 8 + bitsOf c 16 16 * 2 ^ 16 + half * 2 ^ 32 + bitsOf c 33 1 * 2 ^ 33)
  | .macr fw c => (2, fw.toNat % 2 ^ 29, c.toNat % 2 ^ 24)
  | .mswp => (3, 0, 0)
  | .macw c => (4, 0, c.toNat)
  | .macz c => (5, 0, c.toNat)
  | .mnbr fw r => (6, fw.toNat, r.toNat)

/-- The format word of an operation that has one. -/
def EngOp.fw : EngOp → Option W32
  | .mlds fw _ | .mma fw _ | .macr fw _ | .mnbr fw _ => some fw
  | _ => none

/-- R157, R158, R160: M and ROW0 are in range. -/
def EngOp.rowsOk : EngOp → Bool
  | .mma _ c => decide (1 ≤ mmaM c) && decide (mmaM c ≤ 64) && decide (mmaRow0 c + mmaM c ≤ 64)
  | .macr _ c | .macw c | .macz c => decide (1 ≤ macM c) && decide (macM c ≤ 64) && decide (macRow0 c + macM c ≤ 64)
  | _ => true

/-- R135, R136, R160: the tile runs an operation reads. -/
def EngOp.sources : EngOp → List TileSpan
  | .mlds fw c =>
      [(natBits c.toNat 0 8, tilesFor (kStored (fwFb fw) * columns (fwFb fw) * codeBits (fwFb fw) / 8))] ++
        (if fwFb fw = 5 then [(natBits c.toNat 8 8, 2)] else []) ++
        (if fwSpn fw ≠ 0 then [(natBits c.toNat 16 8, 1)] else [])
  | .mma fw c =>
      [(mmaTa c, tilesFor (mmaM c * rowBytes fw))] ++
        (if fwFa fw = 5 then [(mmaTs c, tilesFor (mmaM c * rowRecs fw))] else [])
  | .macw c => [(macTile c, macM c)]
  | _ => []

/-- R141: the tile run an operation writes. -/
def EngOp.dests : EngOp → List TileSpan
  | .macr fw c => [(macTile c, tilesFor (macM c * 256 * outSize fw))]
  | _ => []

/-- R151: the three paths of the engine. -/
inductive EngPath where
  | load | pass | read
  deriving DecidableEq, Repr

def EngOp.path : EngOp → EngPath
  | .mma _ _ => .pass
  | .macr _ _ => .read
  | _ => .load

/-- Engine state by number: 0 and 1 the active and shadow planes, 2 to 5 the accumulator tiles, 6 the
role and links; tiles from 8 on. -/
abbrev EngRes := Nat

/-- R150: engine state an operation reads and writes. -/
def EngOp.reads : EngOp → List EngRes
  | .mlds _ _ => []
  | .mswp => [0, 1]
  | .mma _ c => 0 :: if mmaAcc c then [2 + mmaAt c] else []
  | .macr _ c => [2 + macAt c]
  | .macw _ | .macz _ => []
  | .mnbr _ _ => [0, 1, 2, 3, 4, 5, 6]

def EngOp.writes : EngOp → List EngRes
  | .mlds _ _ => [1]
  | .mswp => [0, 1]
  | .mma _ c => [2 + mmaAt c]
  | .macr _ c => if macClr c then [2 + macAt c] else []
  | .macw c | .macz c => [2 + macAt c]
  | .mnbr _ _ => [0, 1, 2, 3, 4, 5, 6]

/-- R150: two entries conflict. -/
def engConflict (a b : EngEnt) : Bool :=
  let meets (x y : List EngRes) : Bool := x.any y.contains
  let dst (x y : EngEnt) : Bool := x.wg = y.wg && x.dsts.any fun t => y.dsts.contains t || y.srcs.contains t
  meets a.op.writes b.op.writes || meets a.op.writes b.op.reads || meets a.op.reads b.op.writes ||
    dst a b || dst b a

namespace State

variable (s : State)

/-! ### Links and chains (R162, R163) -/

def roleAe (q : Quad) : Bool := natBit q.role 0
def roleAw (q : Quad) : Bool := natBit q.role 1
def rolePs (q : Quad) : Bool := natBit q.role 2
def rolePn (q : Quad) : Bool := natBit q.role 3

/-- R162: the neighbours of a quad within its die: east, west, south, north. -/
def eastOf (q : Nat) : Option Nat := if q % 8 < 7 then some (q + 1) else none
def westOf (q : Nat) : Option Nat := if 0 < q % 8 then some (q - 1) else none
def southOf (q : Nat) : Option Nat := if q % 32 < 24 then some (q + 8) else none
def northOf (q : Nat) : Option Nat := if 8 ≤ q % 32 then some (q - 8) else none

/-- R162: a role that a quad may take. -/
def roleOk (q r : Nat) : Bool :=
  !(natBit r 0 && natBit r 1) && !(natBit r 2 && natBit r 3) && (!natBit r 0 || (eastOf q).isSome) &&
    (!natBit r 1 || (westOf q).isSome) && (!natBit r 2 || (southOf q).isSome) && (!natBit r 3 || (northOf q).isSome)

/-- The two quads hold one context and carry one chain format word. -/
def sameChain (a b : Quad) : Bool :=
  a.ctx.isSome && a.ctx = b.ctx && a.chainFw.toNat % 2 ^ 29 = b.chainFw.toNat % 2 ^ 29

/-- R163: the established links of a quad: east out, west in, south out, north in. -/
def linkEast (q : Nat) : Bool :=
  match eastOf q with
  | some e => roleAe (s.quad q) && roleAw (s.quad e) && sameChain (s.quad q) (s.quad e)
  | none => false
def linkSouth (q : Nat) : Bool :=
  match southOf q with
  | some e => rolePs (s.quad q) && rolePn (s.quad e) && sameChain (s.quad q) (s.quad e)
  | none => false
def linkWest (q : Nat) : Bool := match westOf q with | some w => s.linkEast w | none => false
def linkNorth (q : Nat) : Bool := match northOf q with | some n => s.linkSouth n | none => false

/-- R161: LINK. -/
def linkBits (q : Nat) : Nat :=
  (if s.linkEast q then 8 else 0) + (if s.linkWest q then 4 else 0) + (if s.linkSouth q then 2 else 0) +
    (if s.linkNorth q then 1 else 0)

/-- R163: every direction that a quad's role claims is established, and it claims one. -/
def roleLinked (q : Nat) : Bool :=
  let x := s.quad q
  x.role ≠ 0 && (roleAe x == s.linkEast q) && (roleAw x == s.linkWest q) && (rolePs x == s.linkSouth q) &&
    (rolePn x == s.linkNorth q)

/-- The quads joined to a quad by established links. -/
def linkedTo (q : Nat) : List Nat :=
  [if s.linkEast q then eastOf q else none, if s.linkWest q then westOf q else none,
   if s.linkSouth q then southOf q else none, if s.linkNorth q then northOf q else none].filterMap id

def growChain : Nat → List Nat → List Nat
  | 0, l => l
  | n + 1, l => growChain n (l ++ l.flatMap s.linkedTo).eraseDups

/-- R163: the chain of a quad. Its roles allow at most two by two quads. -/
def chainOf (q : Nat) : List Nat := s.growChain 4 [q]

/-! ### Tiles as operands (R145, R146, R171) -/

/-- Every tile of some runs. -/
def allTiles (l : List TileSpan) : List Nat := l.flatMap spanTiles

/-- R145: a run reaches past a workgroup's allocation. -/
def pastTiles (w : Nat) (l : List TileSpan) : Bool := l.any fun x => decide ((s.wg w).tiles < x.1 + x.2)

/-- A tile is in state empty (R169). -/
def tileEmpty (w t : Nat) : Bool := let r := s.tileOf w t; !r.full && r.fill = 0 && r.drain = 0

/-- R146: a source tile is ready. -/
def tileReady (w t : Nat) : Bool := let r := s.tileOf w t; r.full && r.fill = 0 && r.drain = 0

/-- R146: a destination tile is empty or ready, and not pinned. -/
def tileFree (w t : Nat) : Bool := let r := s.tileOf w t; r.fill = 0 && r.drain = 0 && r.pin = 0

/-- The bytes of some tiles of a workgroup, by scratch offset. -/
def tileImage (w : Nat) (ts : List Nat) : Memory := (s.wg w).scr.filter fun c => ts.contains (c.1 / 4096)

def modTile (w t : Nat) (f : TileRec → TileRec) : State := s.setTile w t (f (s.tileOf w t))

/-! ### Ends of a signature -/

/-- R38: a thread's TL counter falls. -/
def lowerTl (t : Nat) : State := if s.hasThread t then s.modThread t fun x => x.uncount .tl else s

/-- A signer's collective ends with a status, its TL counter restored. -/
def failSigner (t code : Nat) : State := (s.endWait t code).lowerTl t

/-- A signer's collective raises a trap, its TL counter restored. -/
def trapSigner (t code : Nat) : State := ((s.lowerTl t).dropWait t).trap t code 0

/-- R163: the links of a quad break: the chained requests of its chain end with status 4. -/
def breakChain (q : Nat) : State :=
  (s.chainOf q).foldl (fun s q =>
    let gone := (s.quad q).reqs.filter (·.chained)
    let s := s.modQuad q fun x => { x with reqs := x.reqs.filter fun r => !r.chained }
    gone.foldl (fun s r => r.signers.foldl (fun s t => s.failSigner t 4) s) s) s

/-- R154, R163, R165: a quad that is taken, or restored to, has no role and no links. -/
def dropRole (q : Nat) : State := (s.breakChain q).modQuad q fun x => { x with role := 0 }

/-! ### Posting (R146, R149, R163) -/

/-- Sources that a request's engine reads of its own tiles: a chained request of a quad that takes
activations from the west reads none (R164). -/
def ownSources (q : Nat) (chained : Bool) (op : EngOp) : List TileSpan :=
  if chained && roleAw (s.quad q) then [] else op.sources

/-- R146: a request's own conditions. -/
def postable (q : Nat) (r : EngEnt) : Bool :=
  decide ((s.quad q).table.length < 32) && r.srcs.all (s.tileReady r.wg) && r.dsts.all (s.tileFree r.wg)

/-- R59: the number of a convergence register, 0 to 23, of a key. -/
def barNumber (k : Nat) : Nat := if k / 32 % 2 = 0 then k % 32 else 16 + k % 32

/-- R150: the order of requests posted in one cycle: core within the quad, the number of the register or %tnum, lane.
It holds also between the threads of one issue group of several flocks, before R149's order of their lanes
(notes/assumptions/69.md). -/
def postKey (r : EngEnt) : Nat :=
  let lead := r.signers.foldl min (r.signers.headD 0)
  (tidCore lead % 4 * 2048 + (if r.collective then barNumber r.bar else lead % 2048)) * 32 + tidLane lead

/-- R150: a posted entry in its place: after all of earlier cycles, and after those of its own that come before it. -/
def postEntry (table : List EngEnt) (r : EngEnt) : List EngEnt :=
  let ahead (x : EngEnt) : Bool := x.granted || x.since ≠ r.since || decide (postKey x ≤ postKey r)
  let n := (table.reverse.dropWhile fun x => !ahead x).length
  table.take n ++ [r] ++ table.drop n

/-- A request enters the reservation table: its signers go on, its sources are pinned with the values
they hold, its destinations fill. -/
def enter (q pass : Nat) (r : EngEnt) : State :=
  let image := s.tileImage r.wg r.srcs
  let s := r.srcs.foldl (fun s t => s.modTile r.wg t fun x => { x with pin := x.pin + 1 }) s
  let s := r.dsts.foldl (fun s t => s.modTile r.wg t fun x => { x with fill := x.fill + 1 }) s
  let s := if r.collective then r.signers.foldl (fun s t => s.endWait t 0) s else s
  s.modQuad q fun x => { x with
    reqs := x.reqs.filter fun y => y.id ≠ r.id
    table := postEntry x.table { r with image, since := s.cyc, readyAt := none, pass } }

/-- R163: the first chained request that a quad has formed and that still stands: one that was dissolved or withdrawn,
and one that a break of links has ended, counts no more (notes/assumptions/72.md). -/
def firstChained (q : Nat) : Option EngEnt := (s.quad q).reqs.find? (·.chained)

/-- R146, R163: a formed request is posted if its conditions hold; a chained one with its whole chain. -/
def tryPost (q id : Nat) : State :=
  match (s.quad q).reqs.find? fun r => r.id = id with
  | none => s
  | some r =>
    if !r.chained then (if s.postable q r then s.enter q 0 r else s)
    else
      let qs := s.chainOf q
      let all := qs.filterMap fun q => (s.firstChained q).map fun r => (q, r)
      if all.length = qs.length && (all.any fun x => x.2.id = id) && all.all fun x => s.postable x.1 x.2 then
        let (p, s) := s.newId
        all.foldl (fun s x => s.enter x.1 p x.2) s
      else s

/-! ### Forming (R143 to R145, R163) -/

/-- The signers of a register's current phase with what they signed. -/
def signedOps (k : Nat) : List (Nat × EngOp) :=
  (s.bar k).signers.filterMap fun t =>
    match (s.thread t).wait with
    | some w => match w.kind with | .sign _ op => some (t, op) | _ => none
    | none => none

/-- The last signature has been applied: the request forms, or its signers learn why not; what a chained request lacks
counts before its tiles (notes/assumptions/56.md). -/
def form (k : Nat) : State :=
  let l := s.signedOps k
  match l with
  | [] => s.finishPhase k
  | (t0, op) :: rest =>
    let lead := rest.foldl (fun m x => min m x.1) t0
    let ts := l.map (·.1)
    let q := coreQuad (tidCore lead)
    let w := (s.thread lead).wg
    let chained := match op with | .mma _ c => mmaCh c | _ => false
    let s := s.finishPhase k
    if rest.any fun x => x.2.key (s.quad q).role ≠ op.key (s.quad q).role then ts.foldl (fun s t => s.trapSigner t tcFormatDivergence) s
    else if chained && !s.roleLinked q then ts.foldl (fun s t => s.failSigner t 4) s
    else if chained && (op.fw.getD 0).toNat % 2 ^ 29 ≠ (s.quad q).chainFw.toNat % 2 ^ 29 then
      ts.foldl (fun s t => s.trapSigner t tcFormatDivergence) s
    else
      let src := s.ownSources q chained op
      if s.pastTiles w (src ++ op.dests) || (allTiles src).any (s.tileEmpty w) then
        ts.foldl (fun s t => s.trapSigner t tcTileState) s
      else
        let (id, s) := s.newId
        let r : EngEnt :=
          { id, op, ctx := (s.wg w).ctx, wg := w, signers := ts, collective := true, bar := k, prio := (s.wg w).prio
            since := s.cyc, granted := false, readyAt := none, chained, pass := 0, srcs := (allTiles src).eraseDups
            dsts := allTiles op.dests, image := [] }
        (s.modQuad q fun x => { x with reqs := x.reqs ++ [r] }).tryPost q id

/-- R143: a phase of signatures whose count is reached forms its request. -/
def settleSigns (k : Nat) : State :=
  let b := s.bar k
  if b.sig ∧ 0 < b.count ∧ b.count ≤ b.n then s.form k else s

/-- R289: a phase that its arrivals or signatures reach completes. -/
def settleBar (k : Nat) : State := if (s.bar k).sig then s.settleSigns k else s.settlePhase k

/-- A signature enters a register's phase. -/
def addSign (k t : Nat) : State :=
  let b := s.bar k
  (s.setBar k { b with n := b.n + 1, sig := true, signers := b.signers ++ [t] }).settleSigns k

/-! ### Withdrawal (R147, R153) -/

/-- Signatures leave a phase together; a phase left empty takes the arrivals held behind it. -/
def dropSigns (k : Nat) (ts : List Nat) : State :=
  let b := s.bar k
  let gone := (b.signers.filter ts.contains).length
  let n := b.n - gone
  if gone = 0 then s
  else if n = 0 then
    b.held.foldl (fun s e => s.unitArrive k e) (s.setBar k { b with n := 0, sig := false, signers := [], held := [] })
  else s.setBar k { b with n, signers := b.signers.filter fun t => !ts.contains t }

/-- R147: a formed request of which some signers withdraw is dissolved; its other signatures go back to their
register, or, if barrier arrivals have come there meanwhile, end with status 2 (notes/assumptions/56.md). -/
def dissolve (q : Nat) (r : EngEnt) (ts : List Nat) : State :=
  let s := s.modQuad q fun x => { x with reqs := x.reqs.filter fun y => y.id ≠ r.id }
  (r.signers.filter fun u => !ts.contains u).foldl (fun s u =>
    let b := s.bar r.bar
    if !b.sig && decide (0 < b.n) then s.failSigner u 2 else s.addSign r.bar u) s

/-- A thread's wait on a convergence register, by the register's key. -/
def signBar (t : Nat) : Option Nat :=
  match (s.thread t).wait with
  | some w => (match w.kind with | .sign k _ => some k | _ => none)
  | none => none

/-- R147, R153, R155: the signatures of some threads are withdrawn together, their TL counters restored; the waits
themselves stay. -/
def withdrawSigns (ts : List Nat) : State :=
  let ts := ts.filter fun t => (s.signBar t).isSome
  let s := ts.foldl (fun s t => s.lowerTl t) s
  let s := (ts.filterMap s.signBar).eraseDups.foldl (fun s k => s.dropSigns k ts) s
  ((ts.map fun t => coreQuad (tidCore t)).eraseDups).foldl (fun s q =>
    ((s.quad q).reqs.filter fun r => r.signers.any ts.contains).foldl (fun s r => s.dissolve q r ts) s) s

/-- R147: one thread's signature is withdrawn. -/
def withdrawSign (t : Nat) : State := s.withdrawSigns [t]

/-! ### Signing (R143, R145) -/

/-- R145: one thread executes a collective. What a chained pass ignores of its operands is checked all the same
(notes/assumptions/56.md). -/
def signOne (op : EngOp) (bar : Bar) (d : Reg) (e : TExp) (t : Nat) : State :=
  if !s.stands t then s
  else if !fwValid (op.fw.getD 0) then s.trap t tcFormatInvalid 0
  else if !op.rowsOk then s.status t d 2
  else if s.pastTiles (s.thread t).wg (op.sources ++ op.dests) then s.trap t tcScratchBounds 0
  else
    let k := s.barKey t bar
    match s.needBar k with
    | none => s.trap t tcBarrierQuota 0
    | some s =>
      let b := s.bar k
      if b.count = 0 || (!b.sig && decide (0 < b.n)) then s.status t d 2
      else ((s.startWait t (.sign k op) d e).modThread t fun x => x.count .tl).addSign k t

/-- A collective: every participant that has not yet done its part signs in ascending lane order, and polls
withdraw (R153, R287). -/
def signAll (op : State → Nat → EngOp) (bar : Bar) (d : Reg) (e : TExp) (g : Group) (ps : List Nat) (s : State) :
    State :=
  let ps := ps.filter fun t => !g.part.contains t
  let r := s
  let s := ps.foldl (fun s t => s.signOne (op r t) bar (statusReg d ps t) e t) s
  let s := if e.val ≠ 0 then s
    else ps.foldl (fun s t =>
      if (s.thread t).wait.isSome then (s.withdrawSign t).endWait t 1 else s) s
  s.goOn

end State

def execMlds (x : Collective) (s : State) : Result :=
  .next (s.issue (.mlds x) (State.signAll (fun s t => .mlds (s.rd t x.fw) (s.rd t x.ctl)) x.bar x.d x.e))

def execMma (x : Collective) (s : State) : Result :=
  .next (s.issue (.mma x) (State.signAll (fun s t => .mma (s.rd t x.fw) (s.rd64 t x.ctl)) x.bar x.d x.e))

def execMacr (x : Collective) (s : State) : Result :=
  .next (s.issue (.macr x) (State.signAll (fun s t => .macr (s.rd t x.fw) (s.rd t x.ctl)) x.bar x.d x.e))

/-! ### Requests of one thread (R149, R159, R160, R162) -/

/-- What a participant's own request comes to at issue. -/
inductive OwnReq where
  | post (op : EngOp)
  | status (code : Nat)
  | trap (code : Nat)
  | wait

namespace State

variable (s : State)

/-- Posts one thread's own request. -/
def postOwn (t : Nat) (op : EngOp) : State :=
  let w := (s.thread t).wg
  let q := coreQuad (tidCore t)
  let (id, s) := s.newId
  s.enter q 0
    { id, op, ctx := s.ctxOf t, wg := w, signers := [t], collective := false, bar := 0, prio := (s.wg w).prio
      since := s.cyc, granted := false, readyAt := none, chained := false, pass := 0
      srcs := allTiles op.sources, dsts := [], image := [] }

/-- R149: one participant posts, its operands as they stand before any participant acts (R14), or does not yet. -/
def ownOne (req : State → State → Nat → OwnReq) (d : Reg) (tl : Bool) (r s : State) (t : Nat) : State × Bool :=
  match req r s t with
  | .trap k => (s.trap t k 0, true)
  | .status k => (s.status t d k, true)
  | .wait => (s, false)
  | .post op =>
    if 32 ≤ (s.quad (coreQuad (tidCore t))).table.length then (s, false)
    else
      let s := if tl then s.modThread t fun x => x.count .tl else s
      ((s.postOwn t op).status t d 0, true)

/-- R149: participants post in ascending lane order, each as soon as it can. -/
def ownAll (req : State → State → Nat → OwnReq) (d : Reg) (tl : Bool) (ps : List Nat) (s : State) : State :=
  eachOwn (fun v t => ownOne req (statusReg d ps t) tl s v t) ps s

end State

def execMswp (x : G) (s : State) : Result :=
  .next (s.issue (.mswp x) fun _ ps s => State.ownAll (fun _ _ _ => .post .mswp) .zero false ps s)

/-- R160: MACW's checks and its wait for its source tiles. -/
def macwReq (x : DA) (r s : State) (t : Nat) : OwnReq :=
  let op : EngOp := .macw (r.rd t x.a)
  let w := (s.thread t).wg
  if !op.rowsOk then .status 2
  else if s.pastTiles w op.sources then .trap tcScratchBounds
  else if (State.allTiles op.sources).any (s.tileEmpty w) then .trap tcTileState
  else if !(State.allTiles op.sources).all (s.tileReady w) then .wait
  else .post op

def execMacw (x : DA) (s : State) : Result :=
  .next (s.issue (.macw x) fun _ ps s => State.ownAll (macwReq x) x.d true ps s)

def maczReq (x : DA) (r _ : State) (t : Nat) : OwnReq :=
  let op : EngOp := .macz (r.rd t x.a)
  if op.rowsOk then .post op else .status 2

def execMacz (x : DA) (s : State) : Result :=
  .next (s.issue (.macz x) fun _ ps s => State.ownAll (maczReq x) x.d true ps s)

/-- R162: MNBR's checks: its format word, then its role (notes/assumptions/71.md). -/
def mnbrReq (x : DAB) (r _ : State) (t : Nat) : OwnReq :=
  let fw := r.rd t x.b
  let role := r.rd t x.a
  if !fwValid fw then .trap tcFormatInvalid
  else if !State.roleOk (coreQuad (tidCore t)) (role.toNat % 16) then .status 2
  else .post (.mnbr fw role)

def execMnbr (x : DAB) (s : State) : Result :=
  .next (s.issue (.mnbr x) fun _ ps s => State.ownAll (mnbrReq x) x.d false ps s)

/-! ### MSTAT (R161) -/

/-- R161: the status word. -/
def mstatWord (s : State) (q : Nat) : Nat :=
  (s.quad q).table.length * 2 ^ 8 + s.linkBits q * 2 ^ 4 + (s.quad q).role

/-- R161: the tag word. -/
def mstatTags (s : State) (q : Nat) : Nat :=
  let x := s.quad q
  x.shadow.spn * 2 ^ 12 + x.shadow.fb * 2 ^ 8 + x.active.spn * 2 ^ 4 + x.active.fb

def execMstat (x : DstArgs) (s : State) : Result :=
  .next (s.issue (.mstat x) (State.alu fun s _ t => .reg x.d 1 (mstatWord s (coreQuad (tidCore t))) 0))

def execMstatTags (x : DstArgs) (s : State) : Result :=
  .next (s.issue (.mstatTags x) (State.alu fun s _ t => .reg x.d 1 (mstatTags s (coreQuad (tidCore t))) 0))

/-! ### The arbiter (R151) -/

namespace State

variable (s : State)

/-- R151: no earlier conflicting entry is incomplete, and the entry's path is free. -/
def entryReady (q : Nat) (e : EngEnt) : Bool :=
  let tb := (s.quad q).table
  !e.granted && !((tb.takeWhile fun x => x.id ≠ e.id).any (engConflict e)) &&
    !(tb.any fun x => x.granted && x.op.path = e.op.path)

/-- R163, R164: the entries that are granted with an entry: those of its chained pass. -/
def passEntries (q : Nat) (e : EngEnt) : List (Nat × EngEnt) :=
  if e.pass = 0 then [(q, e)]
  else s.quads.flatMap fun x => (x.2.table.filter fun y => y.pass = e.pass).map fun y => (x.1, y)

/-- R151: an entry ready with all that is granted with it. -/
def passReady (q : Nat) (e : EngEnt) : Bool := (s.passEntries q e).all fun x => s.entryReady x.1 x.2

/-- R151: entry a of a quad is granted before entry b: one that has been ready for more than 4,096 cycles, else by
class, and then by age from posting. -/
def before (q : Nat) (a b : EngEnt) : Bool :=
  let late (x : EngEnt) : Bool := match x.readyAt with | some c => decide (4096 < s.cyc - c) | none => false
  let place (x : EngEnt) : Nat := (s.quad q).table.findIdx fun y => y.id = x.id
  if late a != late b then late a
  else (!late a && decide (a.prio < b.prio)) || ((late a || a.prio = b.prio) && decide (place a < place b))

/-- R151: the arbiter's choice on an entry's path; for the matched entries of a chain, the choice of the quad at which the
grant falls (R164, notes/assumptions/70.md). -/
def chosen (q : Nat) (e : EngEnt) : Bool :=
  s.passReady q e && (s.quad q).table.all fun x =>
    x.id = e.id || x.op.path ≠ e.op.path || !s.passReady q x || s.before q e x

/-- R151: the cycle since which each entry has been ready. -/
def noteReady (q : Nat) : State :=
  let note (e : EngEnt) : EngEnt :=
    match e.granted, s.passReady q e with
    | true, _ => e
    | false, true => { e with readyAt := some (e.readyAt.getD s.cyc) }
    | false, false => { e with readyAt := none }
  s.modQuad q fun x => { x with table := x.table.map note }

/-- R151: grant. -/
def grantEntry (q id : Nat) : State :=
  match (s.quad q).table.find? fun e => e.id = id with
  | none => s
  | some e =>
    if !s.chosen q e then s
    else (s.passEntries q e).foldl (fun s x =>
      s.modQuad x.1 fun y => { y with table := y.table.map fun z => if z.id = x.2.id then { z with granted := true } else z }) s

/-! ### Completion (R138 to R142, R156 to R164) -/

/-- The entry leaves the table: its sources unpinned, its destinations ready, its flags raised on its
signers' cores (R142), their TL counters lowered (R38). -/
def leaveTable (q : Nat) (e : EngEnt) (flags : BitVec 7) : State :=
  let s := s.modQuad q fun x => { x with table := x.table.filter fun y => y.id ≠ e.id }
  let s := if (tget s.wgs e.wg).isNone then s
    else
      let s := e.srcs.foldl (fun s t => s.modTile e.wg t fun x => { x with pin := x.pin - 1 }) s
      e.dsts.foldl (fun s t => s.modTile e.wg t fun x => { x with fill := x.fill - 1, full := true }) s
  let s := (e.signers.map tidCore).eraseDups.foldl (fun s c => s.raise c e.ctx flags) s
  match e.op with
  | .mswp | .mnbr _ _ => s
  | _ => e.signers.foldl (fun s t => s.lowerTl t) s

def enginePoisoned (q : Nat) : Bool := s.poison.contains (.engine q)
def tilesPoisoned (w : Nat) (ts : List Nat) : Bool := ts.any fun t => s.poison.contains (.scratch w t)

/-- R398: poison that an entry moves into the engine stays; a pass or readout that reads it kills. -/
def spreadPoison (q : Nat) (e : EngEnt) : State :=
  if s.tilesPoisoned e.wg e.srcs && !s.enginePoisoned q then { s with poison := .engine q :: s.poison } else s

/-- R164: the streamed operand of a quad's entry: its own, or the west quad's. -/
def streamOf (q : Nat) (e : EngEnt) (mates : List (Nat × EngEnt)) : Stream :=
  let own (e : EngEnt) : Stream :=
    match e.op with
    | .mma _ c => { image := e.image, ta := mmaTa c, ts := mmaTs c, rows := mmaM c }
    | _ => { image := [], ta := 0, ts := 0, rows := 0 }
  if e.pass ≠ 0 && roleAw (s.quad q) then
    match (westOf q).bind fun w => mates.find? fun x => x.1 = w with
    | some x => own x.2
    | none => own e
  else own e

/-- R138: a quad's sums in a pass, none when its plane's tag does not match. -/
def sumsOf (q : Nat) (e : EngEnt) (mates : List (Nat × EngEnt)) : Option (List (Nat × Int)) × BitVec 7 :=
  let fw := e.op.fw.getD 0
  let p := (s.quad q).active
  if !tagOk fw p then (none, fInformat)
  else
    let x := s.streamOf q e mates
    let (l, f) := passSums fw p x
    (some l, f ||| flagIf (streamBad fw x) fInformat)

/-- R138, R164: the effect of one entry of a pass. -/
def runPass (mates : List (Nat × EngEnt)) (q : Nat) (e : EngEnt) (ctl : W64) (s0 : State) : State :=
  let (sums, f) := s0.sumsOf q e mates
  let chained := e.pass ≠ 0
  match sums with
  | none => s.leaveTable q e f
  | some l =>
    if chained && rolePs (s0.quad q) then s.leaveTable q e f
    else
      let north : List (Nat × Int) :=
        if chained && rolePn (s0.quad q) then
          match (northOf q).bind fun n => mates.find? fun x => x.1 = n with
          | some x => (s0.sumsOf x.1 x.2 mates).1.getD []
          | none => []
        else []
      let (acc, g) := passWrite ctl (s0.quad q).active.fb (s0.quad q).acc l north
      (s.modQuad q fun x => { x with acc }).leaveTable q e (f ||| g)

/-- R141: the effect of a readout. -/
def runReadout (q : Nat) (e : EngEnt) (fw ctl : W32) : State :=
  let (bs, f) := readout fw ctl (s.quad q).acc
  let s := if (tget s.wgs e.wg).isNone then s
    else s.modWg e.wg fun w => { w with scr := mputs w.scr (macTile ctl * 4096) bs }
  let s := { s with poison := s.poison.filter fun p => match p with
    | .scratch w t => !(w = e.wg && e.dsts.contains t && decide (t * 4096 + 4096 ≤ macTile ctl * 4096 + bs.length))
    | _ => true }
  let s := if macClr ctl then s.modQuad q fun x => { x with acc := accClear x.acc (macAt ctl) (macRow0 ctl) (macM ctl) } else s
  s.leaveTable q e f

/-- R162: MNBR replaces the role and breaks every link the quad had; a chained entry posted behind it runs with the
new role (notes/assumptions/56.md). -/
def runMnbr (q : Nat) (e : EngEnt) (fw role : W32) : State :=
  ((s.breakChain q).modQuad q fun x => { x with role := role.toNat % 16, chainFw := fw }).leaveTable q e 0

/-- A granted entry completes, with its chained pass. -/
def completeEntry (q id : Nat) : State :=
  match (s.quad q).table.find? fun e => e.id = id with
  | none => s
  | some e =>
    if !e.granted then s
    else
      let dead := match e.op with
        | .mma _ _ => s.enginePoisoned q || s.tilesPoisoned e.wg e.srcs
        | .macr _ _ => s.enginePoisoned q
        | _ => false
      if dead then s.kill e.ctx 1 0 (if s.enginePoisoned q then 4 else 3) 0 0
      else match e.op with
      | .mlds fw c =>
          let p := loadPlane fw c e.image
          ((s.spreadPoison q e).modQuad q fun x => { x with shadow := p }).leaveTable q e (flagIf (planeBad p) fInformat)
      | .mswp => (s.modQuad q fun x => { x with active := x.shadow, shadow := x.active }).leaveTable q e 0
      | .mma _ _ =>
          let mates := s.passEntries q e
          mates.foldl (fun r x => match x.2.op with
            | .mma _ c => r.runPass mates x.1 x.2 c s
            | _ => r) s
      | .macr fw c => s.runReadout q e fw c
      | .macw c =>
          ((s.spreadPoison q e).modQuad q fun x =>
            { x with acc := accLoad x.acc (macAt c) (macRow0 c) (macM c) e.image (macTile c) }).leaveTable q e 0
      | .macz c =>
          (s.modQuad q fun x => { x with acc := accClear x.acc (macAt c) (macRow0 c) (macM c) }).leaveTable q e 0
      | .mnbr fw r => s.runMnbr q e fw r

/-- R147: a signer's time is up before posting. -/
def signTimeout (t : Nat) : State :=
  match (s.thread t).wait with
  | some w =>
    match w.kind, w.deadline with
    | .sign _ _, some d => if d ≤ s.cyc && !(s.wgOf t).halted then (s.withdrawSign t).endWait t 1 else s
    | _, _ => s
  | none => s

end State

/-- REQUEST_POST (R146). -/
def execRequestPost (quad req : Nat) (s : State) : Result := .next (s.tryPost quad req)

/-- COLLECTIVE_TIMEOUT (R147). -/
def execCollectiveTimeout (tid : Nat) (s : State) : Result := .next (s.signTimeout tid)

/-- GRANT (R151). -/
def execGrant (quad entry : Nat) (s : State) : Result := .next (s.grantEntry quad entry)

/-- ENTRY_COMPLETE (R138 to R142). -/
def execEntryComplete (quad entry : Nat) (s : State) : Result := .next (s.completeEntry quad entry)

end Sys2Proof.Machine
end

