-- ==== Sys2Proof/Machine/Copy.lean ====
section
/-!
DEFINITION. The copy unit (09 R242 to R260, R267, 06 R193): the bytes a command moves, its refusal,
acceptance and completion, the static copy schedule, and CPY, CPYT, CPYST and STAGE.
-/

namespace Sys2Proof.Machine

/-! ### The bytes a command moves (R250, R251, R253) -/

/-- A space as a command names it: team scratch by addresses that hold the core (R43), or, for a multicast, by offsets
in the window of a core. -/
inductive CSpace where
  | glob
  | scratch
  | team (core : Option Nat)
  deriving DecidableEq, Repr

/-- One element: where it comes from, if anywhere, where it goes, and how many bytes on each side. -/
structure Mv where
  src : Option (CSpace × Int)
  dst : List (CSpace × Int)
  n : Nat
  k : Nat
  pad : List Byte
  /-- The source byte is a codebook index (R250). -/
  index : Bool
  deriving DecidableEq, Repr

/-- A base address in a space: only the low 32 bits are read for scratch (R250). -/
def baseAt (sp : Space) (a : Int) : CSpace × Int :=
  let lo := wrapNat a 32
  match sp with
  | .glob => (.glob, a)
  | .scratch => (.scratch, lo)
  | .team => (.team none, lo)

/-- R250: the destinations of a base: itself, or, the core field ignored, the offset in the window of every core of a
multicast mask. -/
def multicast (mc : Nat) (b : CSpace × Int) : List (CSpace × Int) :=
  if mc = 0 then [b]
  else ((upTo 4).filter fun c => natBit mc c).map fun c => (.team (some c), b.2 - (b.2 / 2 ^ 20 % 4) * 2 ^ 20)

/-- R250: a linear copy, in its order. -/
def linearMvs (src dst : CSpace × Int) (mc len rows : Nat) (ss ds : Int) (cb : Bool) : List Mv :=
  (upTo rows).flatMap fun (r : Nat) => (upTo len).map fun (i : Nat) =>
    let k : Nat := if cb then 16 else 1
    { src := some (src.1, src.2 + r * ss + i)
      dst := (multicast mc dst).map fun d => (d.1, d.2 + r * ds + (k * i : Nat))
      n := 1, k, pad := [], index := cb }

/-- R251: fields of a tensor descriptor. -/
def tnBase (d : Nat) : Int := signExt (natBits d 0 64) 64
def tnExt (d k : Nat) : Nat := natBits d (64 + 32 * k) 32
def tnBox (d k : Nat) : Nat := natBits d (224 + 8 * k) 8
def tnEsz (d : Nat) : Nat := 2 ^ natBits d 264 3
def tnNdim (d : Nat) : Nat := natBits d 267 3
def tnPad (d : Nat) : Nat := natBits d 272 16
def tnStr (d k : Nat) : Int := signExt (natBits d (288 + 48 * (k - 1)) 48) 48

/-- R251: a descriptor that keeps every rule of its table. -/
def tnValid (d : Nat) : Bool :=
  natBits d 480 32 = 0 && natBits d 270 2 = 0 && decide (tnNdim d ≤ 4) && decide (natBits d 264 3 ≤ 4) &&
    (upTo 5).all fun k => decide (k < tnNdim d + 1) ||
      (tnBox d k = 0 && tnExt d k = 0 && (k = 0 || tnStr d k = 0))

/-- The box indices in order of offset, dimension 0 fastest. -/
def boxIndices (d : Nat) : List (List Nat) :=
  (upTo (tnBox d 4 + 1)).flatMap fun i4 => (upTo (tnBox d 3 + 1)).flatMap fun i3 =>
    (upTo (tnBox d 2 + 1)).flatMap fun i2 => (upTo (tnBox d 1 + 1)).flatMap fun i1 =>
      (upTo (tnBox d 0 + 1)).map fun i0 => [i0, i1, i2, i3, i4]

/-- R253: a tensor copy, in its order. -/
def tensorMvs (d : Nat) (step : Int) (box : CSpace × Int) (coords : List Int) (st : Bool) (mc : Nat) : List Mv :=
  let e := tnEsz d
  let idx := boxIndices d
  (idx.zip (upTo idx.length)).filterMap fun x =>
    let xs := (upTo 5).map fun k => coords.getD k 0 + (x.1.getD k 0 : Nat)
    let at_ (k : Nat) : Int := xs.getD k 0
    let inside := (upTo (tnNdim d + 1)).all fun k => decide (0 ≤ at_ k) && decide (at_ k < tnExt d k)
    let addr := tnBase d + step + at_ 0 * e +
      ((upTo (tnNdim d)).foldl (fun a k => a + at_ (k + 1) * tnStr d (k + 1)) 0)
    let o : Int := (x.2 * e : Nat)
    let pad := (natLe 16 (tnPad d)).take 2
    if st then
      if inside then
        some { src := some (box.1, box.2 + o), dst := [(.glob, addr)], n := e, k := e, pad := [], index := false }
      else none
    else
      some { src := if inside then some (.glob, addr) else none
             dst := (multicast mc box).map fun b => (b.1, b.2 + o)
             n := if inside then e else 0, k := e
             pad := (upTo e).map fun i => pad.getD (i % 2) 0, index := false }

/-- One byte that a command writes. -/
structure ByteWrite where
  sp : CSpace
  at_ : Int
  val : Byte
  deriving DecidableEq, Repr

/-- Every byte an element touches, in order: source before destination (R247). -/
def Mv.touches (m : Mv) : List (Bool × CSpace × Int) :=
  (upTo (max m.n m.k)).flatMap fun i =>
    (match m.src with
     | some (sp, a) => if i < m.n then [(false, sp, a + i)] else []
     | none => []) ++ (if i < m.k then m.dst.map fun d => (true, d.1, d.2 + (i : Int)) else [])

namespace State

variable (s : State)

/-! ### Places (R166, R168) -/

/-- The workgroup and offset of a scratch byte that a command of a workgroup names. -/
def spot (w : Nat) (sp : CSpace) (a : Int) : Option (Nat × Nat) :=
  if a < 0 then none
  else
    match sp with
    | .glob => none
    | .scratch => if a.toNat < (s.wg w).tiles * 4096 then some (w, a.toNat) else none
    | .team none =>
        if a < 2 ^ 22 then windowAt (s.teamOn (s.wg w) (coreQuad (s.wg w).core * 4 + a.toNat / 2 ^ 20)) (a.toNat % 2 ^ 20)
        else none
    | .team (some c) =>
        windowAt (s.teamOn (s.wg w) (coreQuad (s.wg w).core * 4 + c)) a.toNat

/-- A scratch byte's address as a trap record names it (R43). -/
def spotAddr (sp : CSpace) (a : Int) : W64 :=
  match sp with
  | .team (some c) => BitVec.ofInt 64 (a + (c * 2 ^ 20 : Nat))
  | _ => BitVec.ofInt 64 a

/-- The pod key of a global byte of an accepted command. -/
def cmdPa (m : Cmd) (a : Int) : Nat :=
  let v := wrapNat a 56
  (tget m.pages (v / 65536)).getD 0 + v % 65536

/-- The byte at a place; a source tile that was empty at acceptance reads 0 (R243). -/
def byteFrom (m : Cmd) (sp : CSpace) (a : Int) : Byte :=
  match sp with
  | .glob => mget s.mem (cmdPa m a)
  | _ => match s.spot m.wg sp a with
    | some (w, off) => if m.empties.contains (w, off / 4096) then 0 else mget (s.wg w).scr off
    | none => 0

/-! ### The descriptor and the elements (R251, R252, R258) -/

/-- The elements of a command, given its descriptor. -/
def mvsOf (k : CopyKind) (desc : Nat) : List Mv :=
  match k with
  | .linear src dst len rows ss ds dsp ssp cb mc =>
      linearMvs (baseAt ssp src) (baseAt dsp dst) mc len rows ss ds cb.isSome
  | .tensor _ _ step box coords team st mc =>
      tensorMvs desc step (baseAt (if team then .team else .scratch) box) coords st mc
  | .signal src dst len dsp ssp cb _ _ => linearMvs (baseAt ssp src) (baseAt dsp dst) 0 len 1 0 0 cb.isSome

/-- The codebook slot a command expands through. -/
def kindCb : CopyKind → Option Nat
  | .linear _ _ _ _ _ _ _ _ cb _ => cb
  | .signal _ _ _ _ _ cb _ _ => cb
  | .tensor .. => none

/-- R319: a command whose destination is global or team scratch commits its workgroup. -/
def kindCommits : CopyKind → Bool
  | .linear _ _ _ _ _ _ dsp _ _ _ => dsp ≠ .scratch
  | .tensor _ _ _ _ _ team st _ => team || st
  | .signal .. => true

/-! ### Refusal (R247, R248) -/

/-- How the checks of a command end. -/
inductive CmdChk where
  | refused (code : Nat) (va : W64)
  | absent
  | ok (desc : Nat) (pages : Tbl Nat) (s : State)

/-- One page of a command: the table of its places, the first fault of each kind, and a page that is not
resident. -/
structure PageScan where
  pages : Tbl Nat
  trap : Option (Nat × W64)
  range : Option (Nat × W64)
  absent : Bool
  st : State

/-- R247: a global address of the command translated, once a page and kind of access. What a page that is not resident
would give comes before what a later address gives. -/
def scanPage (core ctx : Nat) (r : PageScan) (x : Bool × Int) : PageScan :=
  let va := BitVec.ofInt 64 x.2
  match r.st.translate core ctx va x.1 false with
  | .ok y s' => { r with pages := tput r.pages (va.toNat % 2 ^ 56 / 65536) (y.pa - va.toNat % 65536), st := s' }
  | .absent => { r with absent := true }
  | .fault c =>
      if c = tcRangeFault then { r with range := some (r.range.getD (c, va)) }
      else if r.absent then r else { r with trap := some (r.trap.getD (c, va)) }

/-- The distinct pages of some global touches, each with its first address. -/
def firstOfPages (l : List (Bool × Int)) : List (Bool × Int) :=
  l.foldl (fun acc x => if acc.any fun y => y.1 = x.1 && y.2 / 65536 = x.2 / 65536 then acc else acc ++ [x]) []

/-- R247: the pages of some global touches, in the order of the touches: the first that may not be used as it is, the
table of their places, or, while one is not resident, nothing yet. -/
def scanPages (core ctx : Nat) (l : List (Bool × Int)) (desc : Nat) : CmdChk :=
  let r := (firstOfPages l).foldl (scanPage core ctx) { pages := [], trap := none, range := none, absent := false, st := s }
  match r.trap, r.absent, r.range with
  | some (c, va), _, _ => .refused c va
  | none, true, _ => .absent
  | none, false, some (c, va) => .refused c va
  | none, false, none => .ok desc r.pages r.st

/-- R252: the descriptor of a command, read from memory when it stands there. -/
def descOf (m : Cmd) : Except (Option (Nat × W64)) (Nat × State) :=
  match m.kind with
  | .tensor d none _ _ _ _ _ _ => .ok (d, s)
  | .tensor _ (some va) _ _ _ _ _ _ =>
      if va.toNat % 64 ≠ 0 then .error (some (tcMisaligned, va))
      else
        match s.translate (s.wg m.wg).core m.ctx va false false with
        | .fault c => .error (some (c, va))
        | .absent => .error none
        | .ok x s' => .ok (mnat s.mem x.pa 64, s')
  | _ => .ok (0, s)

/-- Where a malformed descriptor is reported; one held in registers has no address (notes/assumptions/57.md). -/
def descVa (k : CopyKind) : W64 :=
  match k with
  | .tensor _ (some va) _ _ _ _ _ _ => va
  | _ => 0

/-- R247: the checks of a command, in their order. -/
def checkCmd (m : Cmd) : CmdChk :=
  match m.bad with
  | some (c, va) => .refused c va
  | none =>
  match s.descOf m with
  | .error (some (c, va)) => .refused c va
  | .error none => .absent
  | .ok (d, s) =>
    let tensor := match m.kind with | .tensor .. => true | _ => false
    let sig : Option W64 := match m.kind with | .signal _ _ _ _ _ _ _ va => some va | _ => none
    if tensor && !tnValid d then .refused tcCopyBounds (descVa m.kind)
    else if sig.any fun va => va.toNat % 4 ≠ 0 then .refused tcMisaligned (sig.getD 0)
    else
      let ts := (mvsOf m.kind d).flatMap Mv.touches
      match ts.find? fun t => decide (t.2.2 < -(2 : Int) ^ 63) || decide ((2 : Int) ^ 63 ≤ t.2.2) with
      | some t => .refused tcCopyOverflow (BitVec.ofInt 64 t.2.2)
      | none =>
      match ts.find? fun t => t.2.1 ≠ .glob && (s.spot m.wg t.2.1 t.2.2).isNone with
      | some t => .refused tcCopyBounds (spotAddr t.2.1 t.2.2)
      | none =>
      let core := (s.wg m.wg).core
      if (kindCb m.kind).any fun b => ((tget (s.core core).cb b).bind (·.tag)) ≠ some m.wg then .refused tcCopyBounds 0
      else
        let gl := (ts.filterMap fun t => if t.2.1 = .glob then some (t.1, t.2.2) else none) ++
          (match sig with | some va => [(true, va.toInt)] | none => [])
        s.scanPages core m.ctx gl d

/-! ### Reports and ends (R246, R249) -/

def dropCmd (core id : Nat) : State :=
  s.modCore core fun k => { k with cmds := k.cmds.filter fun m => m.id ≠ id }

def lowerCp (m : Cmd) : State :=
  match m.tid with
  | some t => if s.hasThread t then s.modThread t fun x => x.uncount .cp else s
  | none => s

/-- R249: a refusal or a loss is reported, by an error arrival or at the threads. -/
def reportCmd (core : Nat) (m : Cmd) (code : Nat) (va : W64) : State :=
  let (id, s) := (s.dropCmd core m.id).newId
  let e : DefErr :=
    { id, code, ctr := .cp, nth := m.nth, apc := m.pc, aidx := m.idx, entry := m.entry, addr := va, onode := 0
      oport := 0, lowers := m.tid.isSome && m.bar.isNone, again := none, acc := none, age := m.id, op := none }
  match m.bar with
  | some k => (s.unitArrive k (some e)).lowerCp m
  | none =>
    match m.tid with
    | some t => if s.hasThread t then s.modThread t fun x => { x with errs := x.errs ++ [e] } else s
    | none =>
        (s.threads.filter fun x => x.2.wg = m.wg && x.2.st ≠ .ended).foldl (fun s x =>
          s.modThread x.1 fun y => { y with errs := y.errs ++ [{ e with nth := y.ncp }] }) s

/-- R242, R246: a completed command arrives on its barrier, and its CP counter falls. -/
def finishCmd (core : Nat) (m : Cmd) : State :=
  let s := s.dropCmd core m.id
  let s := match m.bar with | some k => s.unitArrive k none | none => s
  s.lowerCp m

/-! ### What acceptance waits for (R193, R243) -/

/-- R193: the earlier global stores that a command waits for. -/
def earlierStores (core : Nat) (m : Cmd) : Bool :=
  let l := (s.outstanding.filter fun a => !a.op.isLoad) ++ s.storesOf core
  l.any fun a => decide (a.id < m.id) && match m.tid with
    | some t => a.tids.contains t
    | none => a.tids.any fun t => (s.thread t).wg = m.wg

/-- The tiles of some touches of one kind. -/
def touchTiles (w : Nat) (write : Bool) (ts : List (Bool × CSpace × Int)) : List (Nat × Nat) :=
  (ts.filterMap fun t => if t.1 = write then (s.spot w t.2.1 t.2.2).map fun x => (x.1, x.2 / 4096) else none).eraseDups

/-- The line that a CPYST's signal goes to. -/
def sigLines (m : Cmd) : List Nat :=
  match m.kind with
  | .signal _ _ _ _ _ _ _ va => [cmdPa m va.toInt / 128]
  | _ => []

def touchLines (m : Cmd) (write : Bool) (ts : List (Bool × CSpace × Int)) : List Nat :=
  (ts.filterMap fun t => if t.1 = write && t.2.1 = .glob then some (cmdPa m t.2.2 / 128) else none).eraseDups

def setCmd (core : Nat) (m : Cmd) : State :=
  s.modCore core fun k => { k with cmds := k.cmds.map fun y => if y.id = m.id then m else y }

/-- R375, R408: a context's traffic to a line may leave: by its fabric port, or, for host memory, by a queue pair that
is not in its error state. -/
def lineOpen (c l : Nat) : Bool :=
  if isHost (l * 128) then !(s.vd (s.ctxVd c)).dead.contains (l * 128 / 2 ^ 48 % 16)
  else s.isLocal (l * 128) || s.fabricOk (s.ctxTenant c) (portTo (l * 128))

/-- R375, R408: every line that a command touches may be reached. -/
def cmdPorts (m : Cmd) : Bool := (m.takes ++ m.owns).all (s.lineOpen m.ctx)

/-- R240: a command's flits leave, one for each 256 bytes of another node that it reads or writes
(notes/assumptions/57.md). -/
def sendCmd (m : Cmd) : State :=
  let away (l : List Nat) : List Nat :=
    ((l.filter fun x => !isHost (x * 128) && !s.isLocal (x * 128)).map fun x => x / 2).eraseDups
  (away m.takes ++ away m.owns).foldl (fun s x => s.sendFlit (s.ctxTenant m.ctx) (portTo (x * 256)) m.id) s

/-! ### Bytes, signal and loss (R244, R249, R260) -/

/-- R244: an earlier accepted command of the core, moving or paused by a stop (R267), conflicts on global lines. -/
def cmdBehind (core : Nat) (m : Cmd) : Bool :=
  ((s.core core).cmds.takeWhile fun x => x.id ≠ m.id).any fun x => x.stage ≠ .issued &&
    (x.owns.any (fun l => m.takes.contains l || m.owns.contains l) || x.takes.any m.owns.contains)

/-- The bytes that an element writes. -/
def mvBytes (m : Cmd) (core : Nat) (x : Mv) : List Byte :=
  match x.src with
  | none => x.pad
  | some (sp, a) =>
    if x.index then
      let v := (s.byteFrom m sp a).toNat
      let book := ((tget (s.core core).cb ((kindCb m.kind).getD 0)).map (·.data)).getD []
      mbytes book (16 * v) 16
    else (upTo x.n).map fun i => s.byteFrom m sp (a + i)

/-- One byte of a command written. -/
def putByte (m : Cmd) (sp : CSpace) (a : Int) (b : Byte) : State :=
  match sp with
  | .glob => s.putMem (cmdPa m a) [b] 0
  | _ => match s.spot m.wg sp a with
    | some (w, off) => s.modWg w fun x => { x with scr := mputs x.scr off [b] }
    | none => s

/-- R398: a source of the command is poisoned: 0 or 1 for a line, 3 for a tile. -/
def cmdPoison (m : Cmd) : Option (Nat × Nat) :=
  if s.poison = [] then none
  else
    match m.takes.findSome? fun l => (s.poisonAt (l * 128) 128).map fun c => ((if c then 1 else 0), l * 128) with
    | some x => some x
    | none => if m.drains.any fun x => s.poison.contains (.scratch x.1 x.2) then some (3, 0) else none

/-- The tiles of a command are released: filled ones ready, drained ones read. -/
def releaseTiles (m : Cmd) : State :=
  let s := m.fills.foldl (fun s x =>
    if (tget s.wgs x.1).isSome then s.modTile x.1 x.2 fun r => { r with fill := r.fill - 1, full := true } else s) s
  m.drains.foldl (fun s x =>
    if (tget s.wgs x.1).isSome then s.modTile x.1 x.2 fun r => { r with drain := r.drain - 1 } else s) s

/-- The elements of a command whose descriptor is known. -/
def cmdMvs (m : Cmd) : List Mv := mvsOf m.kind (match m.kind with | .tensor d .. => d | _ => 0)

/-- The byte writes of a command, in its order, every source byte having been read. -/
def cmdWrites (m : Cmd) (core : Nat) : List ByteWrite :=
  (cmdMvs m).flatMap fun x =>
    let bs := s.mvBytes m core x
    (upTo x.k).flatMap fun (i : Nat) => x.dst.map fun d => ⟨d.1, d.2 + (i : Int), bs.getD i 0⟩

/-- R398: lines and tiles that a command writes whole lose their poison. -/
def cleanWritten (m : Cmd) (l : List ByteWrite) : State :=
  let lineFull (n : Nat) : Bool := (upTo 128).all fun i => l.any fun w => w.sp = .glob && cmdPa m w.at_ = n * 128 + i
  let tileFull (w t : Nat) : Bool := (upTo 4096).all fun i => l.any fun b =>
    b.sp ≠ .glob && s.spot m.wg b.sp b.at_ = some (w, t * 4096 + i)
  if s.poison = [] then s
  else { s with poison := s.poison.filter fun p => match p with
    | .line n _ => !lineFull n
    | .scratch w t => !tileFull w t
    | _ => true }

/-- Byte writes of a command, their lines of this package charged to their pages' owner (R185), as writes of the
command's context (R184). -/
def writeBytes (m : Cmd) (l : List ByteWrite) : State :=
  let lines := ((l.filter fun w => w.sp = .glob).map fun w => cmdPa m w.at_ / 128).eraseDups
  let s := (lines.filter fun x => s.isLocal (x * 128)).foldl (fun s x => s.chargeLines (some m.ctx) (x * 128) 128) s
  l.foldl (fun s w => s.putByte m w.sp w.at_ w.val) (s.cleanWritten m l)

/-- The writes of a command that a stop has not already made (R267). -/
def moveBytes (m : Cmd) (core : Nat) : State := s.writeBytes m ((s.cmdWrites m core).drop m.done)

/-- What other nodes and hosts have answered for a command's source bytes enters the pod picture. -/
def learnBytes (m : Cmd) (data : List Byte) : State :=
  let src := ((cmdMvs m).flatMap Mv.touches).filterMap fun t =>
    if !t.1 && t.2.1 = .glob && !s.isLocal (cmdPa m t.2.2) then some (cmdPa m t.2.2) else none
  (src.zip data).foldl (fun s x => s.putMem x.1 [x.2] 0) s

/-- R260: the signal of a CPYST, after the bytes. -/
def signalCmd (m : Cmd) : State :=
  match m.kind with
  | .signal _ _ _ _ _ _ v va =>
      let bs := natLe 4 v.toNat
      s.writeBytes m ((upTo 4).map fun (i : Nat) => ⟨.glob, va.toInt + i, bs.getD i 0⟩)
  | _ => s

/-- R249, R399: an abandoned command leaves each destination byte at its old value or at the copy's; of one that a port
has refused, nothing has gone where the port leads (R375). -/
def abandonBytes (m : Cmd) (core : Nat) (refused : Bool) : State :=
  let ws := (s.cmdWrites m core).drop m.done
  let n := s.draws
  let went (w : ByteWrite) : Bool := !refused || w.sp ≠ .glob || s.lineOpen m.ctx (cmdPa m w.at_ / 128)
  let kept := ((ws.zip (upTo ws.length)).filter fun w => Config.copiedByte n w.2 && went w.1).map (·.1)
  { s with draws := n + 1 }.writeBytes m kept

/-- R249, R375: a transfer of a command is lost while it moves, or refused by its port. -/
def loseCmd (core : Nat) (m : Cmd) (refused : Bool) : State :=
  let first := match (cmdMvs m).flatMap Mv.touches |>.find? fun t =>
      t.2.1 = .glob && !s.isLocal (cmdPa m t.2.2) with
    | some t => BitVec.ofInt 64 t.2.2
    | none => 0
  (((s.abandonBytes m core refused).releaseTiles m).ctxFault m.ctx tcPeerUnreachable).reportCmd core m tcPeerUnreachable first

/-! ### Acceptance, and going on after a stop (R242, R243, R267) -/

/-- The elements of which some byte is still to be written. -/
def restMvs : List Mv → Nat → List Mv
  | [], _ => []
  | x :: t, done => if x.k * x.dst.length ≤ done then restMvs t (done - x.k * x.dst.length) else x :: t

/-- R243, R267: the tiles that a command paused in another package holds: of its source tiles, those that were not empty
have been draining. -/
def heldTiles (m : Cmd) : Cmd :=
  if m.fills ≠ [] || m.drains ≠ [] || m.empties ≠ [] then m
  else
    let ts := (cmdMvs m).flatMap Mv.touches
    let rd := s.touchTiles m.wg false ts
    let full (x : Nat × Nat) : Bool := decide (0 < (s.tileOf x.1 x.2).drain)
    { m with fills := s.touchTiles m.wg true ts, drains := rd.filter full, empties := rd.filter fun x => !full x }

/-- R267: a command that a stop has paused takes its lines again, on the pages as they now stand, and goes on; a page
of what is still to move that no longer translates for its access is reported as at acceptance (R247). -/
def resumeCmd (core : Nat) (m : Cmd) : State :=
  let m := s.heldTiles m
  let ts := (restMvs (cmdMvs m) m.done).flatMap Mv.touches
  let sig : List Int := match m.kind with | .signal _ _ _ _ _ _ _ va => [va.toInt] | _ => []
  match s.scanPages core m.ctx
      ((ts.filterMap fun t => if t.2.1 = .glob then some (t.1, t.2.2) else none) ++ sig.map (true, ·)) 0 with
  | .refused c va => (s.releaseTiles m).reportCmd core m c va
  | .absent => s
  | .ok _ pages s1 =>
    let m1 := { m with pages }
    let owns := (touchLines m1 true ts ++ sigLines m1).eraseDups
    if owns.any s1.ownedLine then s
    else
      let m2 := { m1 with stage := .moving, owns, takes := touchLines m1 false ts, since := s.now }
      let s := s1.setCmd core m2
      if s.cmdPorts m2 then s.sendCmd m2 else s.loseCmd core m2 true

/-- R242: the first command of a core that waits is accepted, refused, or goes on waiting, as one that expands through
slot 0 does until the codebook of its workgroup's launch is loaded (R257). -/
def acceptCmd (core : Nat) : State :=
  match (s.core core).cmds.find? fun m => m.stage ≠ .moving with
  | none => s
  | some m =>
    if m.stage = .paused then s.resumeCmd core m
    else if s.earlierStores core m || ((s.core core).loads.contains m.wg && kindCb m.kind = some 0) then s
    else
      match s.checkCmd m with
      | .absent => s
      | .refused c va => s.reportCmd core m c va
      | .ok d pages s1 =>
        let ts := (mvsOf m.kind d).flatMap Mv.touches
        let m1 := { m with pages }
        let rd := s1.touchTiles m.wg false ts
        let wr := s1.touchTiles m.wg true ts
        let sigLine := sigLines m1
        let owns := (touchLines m1 true ts ++ sigLine).eraseDups
        let free (x : Nat × Nat) : Bool := let r := s1.tileOf x.1 x.2; r.fill = 0 && r.drain = 0
        if !(rd.all free) || !(wr.all fun x => s1.tileFree x.1 x.2) || owns.any s1.ownedLine then s
        else if ts = [] && sigLine = [] then s1.finishCmd core m
        else
          let drains := rd.filter fun x => (s1.tileOf x.1 x.2).full
          let m2 := { m1 with
            stage := .moving, fills := wr, drains, owns, takes := touchLines m1 false ts, since := s.now
            empties := rd.filter fun x => !(s1.tileOf x.1 x.2).full
            kind := match m.kind with
              | .tensor _ _ step box coords team st mc => .tensor d none step box coords team st mc
              | k => k }
          let s := wr.foldl (fun s x => s.modTile x.1 x.2 fun r => { r with fill := r.fill + 1 }) s1
          let s := drains.foldl (fun s x => s.modTile x.1 x.2 fun r => { r with drain := r.drain + 1 }) s
          let s := s.setCmd core m2
          if s.cmdPorts m2 then s.sendCmd m2 else s.loseCmd core m2 true

/-! ### The completion of a command (R242, R244) -/

/-- COPY_COMPLETE: an accepted command completes, unless a slice that it reads or writes is stopped (R414). -/
def completeCmd (core id : Nat) (data : List Byte) : State :=
  match (s.core core).cmds.find? fun m => m.id = id && m.stage = .moving with
  | none => s
  | some m =>
    if s.cmdBehind core m || s.flitWaits m.id || (m.takes ++ m.owns).any fun l => s.sliceHot (l * 128) then s
    else
      match s.cmdPoison m with
      | some (st, pa) => s.kill m.ctx 1 0 st pa 0
      | none =>
        let s := (m.takes ++ m.owns).foldl (fun (s : State) l => s.hearFlit (l * 128)) s
        ((((s.learnBytes m data).moveBytes m core).signalCmd m).releaseTiles m).finishCmd core m

/-! ### A stop (R267) -/

/-- R267: a command that reads what it writes is not begun at a stop: it reads all before it writes. -/
def readsOwn (m : Cmd) : Bool :=
  m.takes.any m.owns.contains || m.drains.any m.fills.contains

/-- R267: a moving command is brought to a 128-byte line boundary of its destination, how far is the unit's, and is
saved with its progress; its lines are released, for only a moving command owns any, and the record of them keeps later
commands in their order (R244). -/
def pauseCmd (core : Nat) (m : Cmd) : State :=
  let ws := s.cmdWrites m core
  let want := Config.copyProgress s.draws % (ws.length + 1)
  let bound (i : Nat) : Bool := match ws[i]? with | some w => w.at_ % 128 = 0 | none => false
  let free := !s.cmdBehind core m && !readsOwn m && (s.cmdPoison m).isNone && !s.flitWaits m.id &&
    (m.takes.all fun l => s.isLocal (l * 128))
  let stop := if free then ((upTo (want + 1)).filter bound).foldl max m.done else m.done
  let s := { s with draws := s.draws + 1 }.writeBytes m ((ws.take stop).drop m.done)
  s.setCmd core { m with stage := .paused, done := stop }

/-! ### The static schedule (R254, R255) -/

/-- The instruction word that an entry's OP and FIELDS would make. -/
def entryWord (d : Nat) : W64 :=
  BitVec.ofNat 64 (natBits d 24 8 * 2 ^ 56 + 7 * 2 ^ 53 + natBits d 4 20)

/-- R254: an entry that keeps its layout. -/
def entryForm (d : Nat) : Bool :=
  natBits d 0 3 = 0 && natBits d 384 128 = 0 &&
    (if natBits d 24 8 = 0x84 then natBits d 512 512 = 0 && natBits d 288 32 = 0
     else natBits d 96 64 = 0 && natBits d 64 32 = 0)

/-- R30, R254: a barrier register that an entry of a workgroup may name. -/
def entryBarOk (w : Wg) (b : Option Bar) : Bool :=
  match b with
  | some (.b n) => decide (n.val < w.bars)
  | some (.bt _) => w.team.isSome
  | none => true

/-- R249: the barrier register on which a malformed entry with ARV = 1 makes its error arrival. -/
def entryArrival (w : Wg) (d : Nat) : Option Bar :=
  let n := natBits d 4 5
  let b : Option Bar := if h : n < 16 then some (.b ⟨n, h⟩) else if h : n - 16 < 8 then some (.bt ⟨n - 16, h⟩) else none
  if natBit d 11 && entryBarOk w b then b else none

/-- R254: the work of a schedule entry, with its barrier; none when it is malformed. STEP is added to each side of a
CPY that is global (notes/assumptions/77.md), and a BAR that no BARI of the workgroup could name makes the entry
malformed (notes/assumptions/78.md). -/
def entryKind (w : Wg) (d : Nat) : Option (CopyKind × Option Bar) :=
  let step : Int := if natBit d 3 then (natBits d 320 32 * w.wgid : Nat) else 0
  let sgn (lo n : Nat) : Int := signExt (natBits d lo n) n
  let glob (sp : Space) : Int := if sp = .glob then step else 0
  if !entryForm d then none
  else
    match decode (entryWord d) with
    | .ok (.cpy x) =>
        if !entryBarOk w x.o.bar then none
        else some (.linear (sgn 32 64 + glob x.ssp) (sgn 96 64 + glob x.dsp) (natBits d 160 32) (natBits d 192 32)
          (sgn 224 32) (sgn 256 32) x.dsp x.ssp (x.o.cb.map (·.val)) x.o.mc.toNat, x.o.bar)
    | .ok (.cpytLd x) | .ok (.cpytSt x) =>
        let st := match decode (entryWord d) with | .ok (.cpytSt _) => true | _ => false
        let dr := match x.desc with | .regs _ => true | .mem _ => false
        if dr || !entryBarOk w x.bar then none
        else some (.tensor (natBits d 512 512) none step (natBits d 32 32)
          [sgn 160 32, sgn 192 32, sgn 224 32, sgn 256 32, sgn 288 32] x.team st x.mc.toNat, x.bar)
    | _ => none

/-- R242: room in a core's copy unit. -/
def unitRoom (core : Nat) : Bool := decide ((s.core core).cmds.length < 32)

/-- A schedule entry as it stands in memory: its bits, or the fault that reading it meets. -/
def entryBits (w : Wg) (i : Nat) : Except Nat Nat × State :=
  let va := w.sched + BitVec.ofNat 64 (128 * i)
  match s.translate w.core w.ctx va false false with
  | .ok x s' => (.ok (mnat s.mem x.pa 128), s')
  | .fault c => (.error c, s)
  | .absent => (.error 0, s)

/-- R255: whether an entry is due; none while its page is not resident. -/
def entryDue (w : Wg) (i : Nat) : Option Bool :=
  match (s.entryBits w i).1 with
  | .ok d => some (decide (natBits d 352 32 ≤ w.stage.toNat))
  | .error 0 => none
  | .error _ => some true

/-- R255: an entry as it has been read, or the fault that reading it has met, is released to the unit. -/
def releaseWith (wid i : Nat) (r : Except Nat Nat) : State :=
  let w := s.wg wid
  let va := w.sched + BitVec.ofNat 64 (128 * i)
  let (id, s) := s.newId
  let k := match r with | .ok d => entryKind w d | .error _ => none
  let bad : Option (Nat × W64) :=
    match r, k with
    | .error c, _ => some (c, va)
    | .ok _, none => some (tcCopyBounds, va)
    | .ok _, some (.tensor d ..,  _) => if tnValid d then none else some (tcCopyBounds, va + 64)
    | .ok _, some _ => none
  let none_ : CopyKind := .linear 0 0 0 0 0 0 .glob .glob none 0
  let kind := (k.map (·.1)).getD none_
  let named := match k, r with
    | some x, _ => x.2
    | none, .ok d => entryArrival w d
    | none, .error _ => none
  let bar := named.map fun b => match b with
    | .b n => (2 * wid) * 32 + n.val
    | .bt n => (2 * w.team.getD 0 + 1) * 32 + n.val
  let m : Cmd :=
    { id, stage := .issued, tid := none, entry := i + 1, wg := wid, ctx := w.ctx, kind, bad, bar, pc := 0, idx := 0
      nth := 0, fills := [], drains := [], empties := [], pages := [], takes := [], owns := [], since := 0, done := 0 }
  let s := s.modWg wid fun w => { w with
    released := w.released ++ [i], committed := w.committed || (bad.isNone && kindCommits kind) }
  s.modCore w.core fun c => { c with cmds := c.cmds ++ [m] }

/-- R255: one due entry read and released. -/
def releaseEntry (wid i : Nat) : State :=
  let (r, s) := s.entryBits (s.wg wid) i
  s.releaseWith wid i r

/-- R255: the entries of a list that are due are released, in order, up to one that has no room or cannot be read
yet. -/
def releaseFrom (wid : Nat) : List Nat → State → State
  | [], s => s
  | i :: is, s =>
    if (s.wg wid).released.contains i then releaseFrom wid is s
    else
      match s.entryDue (s.wg wid) i with
      | some true => if s.unitRoom (s.wg wid).core then releaseFrom wid is (s.releaseEntry wid i) else s
      | some false => releaseFrom wid is s
      | none => s

/-- R255: every due entry of a workgroup is released. -/
def releaseDue (wid : Nat) : State := releaseFrom wid (upTo (s.wg wid).nsched) s

/-- R268: a command of the workgroup is not complete, or an entry that is due, or may be, is not yet released. -/
def wgCopies (wid : Nat) : Bool :=
  ((s.core (s.wg wid).core).cmds.any fun m => m.wg = wid) ||
    (upTo (s.wg wid).nsched).any fun i => !(s.wg wid).released.contains i && s.entryDue (s.wg wid) i ≠ some false

/-! ### Issue (R242) -/

/-- R242: one thread's command is issued, if its unit has room. -/
def issueCmd (bar : Option Bar) (kind : State → Nat → CopyKind) (s : State) (t : Nat) : State × Bool :=
  if !s.unitRoom (tidCore t) then (s, false)
  else
    let s' := match bar with
      | some b => s.needBar (s.barKey t b)
      | none => some s
    match s' with
    | none => (s.trap t tcBarrierQuota 0, true)
    | some s =>
      let (id, s) := s.newId
      let k := kind s t
      let (pc, idx) := s.placeOf t
      let s := s.modThread t fun x => x.count .cp
      let s := if kindCommits k then s.commitWg t else s
      let m : Cmd :=
        { id, stage := .issued, tid := some t, entry := 0, wg := (s.thread t).wg, ctx := s.ctxOf t, kind := k
          bad := none, bar := bar.map (s.barKey t), pc, idx, nth := (s.thread t).ncp, fills := [], drains := [], empties := []
          pages := [], takes := [], owns := [], since := 0, done := 0 }
      (s.modCore (tidCore t) fun c => { c with cmds := c.cmds ++ [m] }, true)

end State

/-- R250: CPY's operands. -/
def cpyKind (x : CpyArgs) (s : State) (t : Nat) : CopyKind :=
  let sh := s.rdN t x.shape 4
  .linear (s.rd64 t x.src).toInt (s.rd64 t x.dst).toInt (natBits sh 0 32) (natBits sh 32 32)
    (signExt (natBits sh 64 32) 32) (signExt (natBits sh 96 32) 32) x.dsp x.ssp (x.o.cb.map (·.val)) x.o.mc.toNat

def execCpy (x : CpyArgs) (s : State) : Result :=
  .next (s.issue (.cpy x) fun _ ps s => State.eachOwn (State.issueCmd x.o.bar (cpyKind x)) ps s)

/-- R252: CPYT's operands. -/
def cpytKind (x : CpytArgs) (st : Bool) (s : State) (t : Nat) : CopyKind :=
  let c := s.rdN t x.coords 4
  let co (i : Nat) : Int := signExt (natBits c (32 * i) 32) 32
  let (d, va) : Nat × Option W64 := match x.desc with
    | .mem r => (0, some (s.rd64 t r))
    | .regs r => (s.rdN t r 16, none)
  .tensor d va 0 (s.rd t x.box).toNat
    [co 0, co 1, co 2, co 3, signExt (s.rd t (Reg.up x.box 1)).toNat 32] x.team st x.mc.toNat

def execCpytLd (x : CpytArgs) (s : State) : Result :=
  .next (s.issue (.cpytLd x) fun _ ps s => State.eachOwn (State.issueCmd x.bar (cpytKind x false)) ps s)

def execCpytSt (x : CpytArgs) (s : State) : Result :=
  .next (s.issue (.cpytSt x) fun _ ps s => State.eachOwn (State.issueCmd x.bar (cpytKind x true)) ps s)

/-- R260: CPYST's operands. -/
def cpystKind (x : CpystArgs) (s : State) (t : Nat) : CopyKind :=
  let c := s.rdN t x.sig 4
  .signal (s.rd64 t x.src).toInt (s.rd64 t x.dst).toInt (natBits c 0 32) x.dsp x.ssp (x.cb.map (·.val))
    (BitVec.ofNat 32 (c / 2 ^ 32)) (BitVec.ofNat 64 (c / 2 ^ 64))

def execCpyst (x : CpystArgs) (s : State) : Result :=
  .next (s.issue (.cpyst x) fun _ ps s => State.eachOwn (State.issueCmd x.bar (cpystKind x)) ps s)

/-! ### STAGE (R256) -/

/-- R255, R256: each participant's value is applied, and the entries it makes due are released. -/
def stageBody (f : W32 → W32 → W32) (a : Reg) (_ : Group) (ps : List Nat) (s : State) : State :=
  (ps.foldl (fun s t =>
    let v := s.rd t a
    let w := (s.thread t).wg
    (s.modWg w fun x => { x with stage := f x.stage v }).releaseDue w) s).advance

/-- R256: a saturating sum. -/
def stageAdd (c a : W32) : W32 := if 2 ^ 32 ≤ c.toNat + a.toNat then BitVec.allOnes 32 else c + a

def execStage (x : SrcArgs) (s : State) : Result := .next (s.issue (.stage x) (stageBody stageAdd x.a))

def execStageMax (x : SrcArgs) (s : State) : Result :=
  .next (s.issue (.stageMax x) (stageBody (fun c a => if c.toNat < a.toNat then a else c) x.a))

/-- COPY_ACCEPT (R242, R243, R247). -/
def execCopyAccept (core : Nat) (s : State) : Result := .next (s.acceptCmd core)

/-- COPY_COMPLETE (R242, R246). -/
def execCopyComplete (core : Nat) (cmd : CopyAnswer) (s : State) : Result := .next (s.completeCmd core cmd.id cmd.data)

end Sys2Proof.Machine
end

