-- ==== Sys2Proof/Machine/Tiles.lean ====
section
/-!
DEFINITION. Tiles and codebooks: TALLOC, TFREE, TSTAT, TSET and CBLD (09 R257 to R259), with the event
that writes a TSET's tiles.
-/

namespace Sys2Proof.Machine

namespace State

variable (s : State)

/-- R259: the tiles of a run whose count is held minus one. -/
def runTiles (t : Tile) (cnt : Fin 256) : List Nat := spanTiles (t.val, cnt.val + 1)

/-- R259: a run reaches past the allocation. -/
def runPast (w : Nat) (t : Tile) (cnt : Fin 256) : Bool := decide ((s.wg w).tiles < t.val + cnt.val + 1)

/-- R259: no tile of a run is filling, draining or pinned. -/
def runIdle (w : Nat) (ts : List Nat) : Bool := ts.all (s.tileFree w)

/-- R170, R31: tiles set empty: every byte reads 0, and poison is gone. -/
def emptyTiles (w : Nat) (ts : List Nat) : State :=
  let s := s.modWg w fun x => { x with
    scr := x.scr.filter fun c => !ts.contains (c.1 / 4096)
    tile := x.tile.filter fun r => !ts.contains r.1 }
  { s with poison := s.poison.filter fun p => match p with
    | .scratch v t => !(v = w && ts.contains t)
    | _ => true }

/-- R202: waits on words of tiles that are freed end with status 2. -/
def endTileWaits (w : Nat) (ts : List Nat) : State :=
  (s.threads.filter fun x => match x.2.wait with
    | some y => (match y.kind with | .mem _ off (some v) _ _ _ _ _ => v = w && ts.contains (off / 4096) | _ => false)
    | none => false).foldl (fun s x => s.endWait x.1 2) s

/-- R259: tiles freed by an instruction. -/
def freeTiles (w : Nat) (ts : List Nat) : State := (s.emptyTiles w ts).endTileWaits w ts

/-- R259: the mask that TSTAT writes. -/
def runMask (w : Nat) (ts : List Nat) : Nat :=
  let has (f : TileRec → Bool) : Nat := if ts.any fun t => f (s.tileOf w t) then 1 else 0
  has (fun r => !r.full && r.fill = 0 && r.drain = 0) + 2 * has (fun r => decide (0 < r.fill)) +
    4 * has (fun r => r.full && r.fill = 0 && r.drain = 0) +
    8 * has (fun r => decide (0 < r.drain) && r.fill = 0) + 16 * has (fun r => decide (0 < r.pin))

/-- R259: an issued or accepted command writes a tile of a run; one whose descriptor is not resident may. -/
def runWritten (w : Nat) (ts : List Nat) : Bool :=
  s.cores.any fun c => c.2.cmds.any fun m =>
    let hits (l : List (Nat × Nat)) : Bool := l.any fun x => x.1 = w && ts.contains x.2
    match m.stage with
    | .moving | .paused => hits m.fills
    | .issued =>
        match s.descOf m with
        | .ok (d, s) => hits (s.touchTiles m.wg true ((mvsOf m.kind d).flatMap Mv.touches))
        | .error none => m.wg = w || (s.wg m.wg).team.isSome
        | .error (some _) => false

/-- R259: the condition of TSTAT.wait. -/
def runQuiet (w : Nat) (ts : List Nat) : Bool := s.runIdle w ts && !s.runWritten w ts

/-- A tile instruction with a bounds check: each standing participant acts in turn, and the group goes
on or blocks. -/
def eachRun (t : Tile) (cnt : Fin 256) (act : State → Nat → Nat → State) (_ : Group) (ps : List Nat) (s : State) :
    State :=
  (ps.foldl (fun s u =>
    if !s.stands u then s
    else
      let w := (s.thread u).wg
      if s.runPast w t cnt then s.trap u tcScratchBounds 0 else act s u w) s).goOn

/-- R287: a condition checked once; then status 1, or a wait. -/
def pollOr (ok : Bool) (t : Nat) (d : Reg) (e : TExp) (kind : WaitKind) (done : State → State) : State :=
  if ok then (done s).status t d 0
  else if e.val = 0 then s.status t d 1
  else s.startWait t kind d e

end State

def execTalloc (x : TileDE) (s : State) : Result :=
  .next (s.issue (.talloc x) fun g ps s =>
    State.eachRun x.t x.cnt (fun s u w =>
      let ts := State.runTiles x.t x.cnt
      s.pollOr (s.runIdle w ts) u (State.statusReg x.d ps u) x.e (.talloc x.t.val (x.cnt.val + 1))
        fun s => s.freeTiles w ts) g ps s)

def execTfree (x : TileRun) (s : State) : Result :=
  .next (s.issue (.tfree x) (State.eachRun x.t x.cnt fun s u w =>
    let ts := State.runTiles x.t x.cnt
    if s.runIdle w ts then s.freeTiles w ts else s.trap u tcTileState 0))

def execTstat (x : TileD) (s : State) : Result :=
  .next (s.issue (.tstat x) fun g ps s =>
    State.eachRun x.t x.cnt (fun s u w =>
      s.wrD u (State.statusReg x.d ps u) 1 (s.runMask w (State.runTiles x.t x.cnt))) g ps s)

def execTstatWait (x : TileDE) (s : State) : Result :=
  .next (s.issue (.tstatWait x) fun g ps s =>
    State.eachRun x.t x.cnt (fun s u w =>
      let ts := State.runTiles x.t x.cnt
      s.pollOr (s.runQuiet w ts) u (State.statusReg x.d ps u) x.e (.tstat x.t.val (x.cnt.val + 1)) id) g ps s)

/-- R259: one participant's TSET begins to fill, or waits. -/
def tsetOne (x : TileSet) (s : State) (u : Nat) : State × Bool :=
  let w := (s.thread u).wg
  let ts := State.runTiles x.t x.cnt
  if s.runPast w x.t x.cnt then (s.trap u tcScratchBounds 0, true)
  else if !s.runIdle w ts then (s, false)
  else
    let pat := s.rd u x.a
    let s := ts.foldl (fun s t => s.modTile w t fun r => { r with fill := r.fill + 1 }) s
    let (id, s) := s.newId
    (s.modCore (tidCore u) fun c => { c with tsets := c.tsets ++ [{ id, wg := w, t := x.t.val, cnt := x.cnt.val + 1, pat }] },
      true)

def execTset (x : TileSet) (s : State) : Result :=
  .next (s.issue (.tset x) fun _ ps s => State.eachOwn (tsetOne x) ps s)

/-- R259: every 4-byte word of each tile becomes the pattern. -/
def State.tsetBytes (s : State) (o : TsetOp) (ts : List Nat) : State :=
  let s := s.modWg o.wg fun w => { w with
    scr := mputs w.scr (o.t * 4096) ((upTo (o.cnt * 1024)).flatMap fun _ => natLe 4 o.pat.toNat) }
  { s with poison := s.poison.filter fun p => match p with
    | .scratch v t => !(v = o.wg && ts.contains t)
    | _ => true }

/-- TSET_WRITTEN: a fill is written, and its tiles are ready. -/
def State.tsetDone (s : State) (core n : Nat) : State :=
  match (s.core core).tsets[n]? with
  | none => s
  | some o =>
    let ts := spanTiles (o.t, o.cnt)
    let s := s.modCore core fun c => { c with tsets := c.tsets.filter fun y => y.id ≠ o.id }
    let s := s.tsetBytes o ts
    ts.foldl (fun s t => s.modTile o.wg t fun r => { r with fill := r.fill - 1, full := true }) s

/-- TSET_WRITTEN (R259). -/
def execTsetWritten (core n : Nat) (s : State) : Result := .next (s.tsetDone core n)

/-! ### CBLD (R258) -/

/-- R258: one participant loads a codebook slot, or waits. -/
def cbldOne (x : CbldArgs) (s : State) (u : Nat) : State × Bool :=
  let w := (s.thread u).wg
  let t := x.t.val
  let r := s.tileOf w t
  if (s.wg w).tiles ≤ t then (s.trap u tcScratchBounds 0, true)
  else if s.tileEmpty w t then (s.trap u tcTileState 0, true)
  else
    let used := (s.core (tidCore u)).cmds.any fun m => m.stage ≠ .issued && State.kindCb m.kind = some x.slot.val
    if used || 0 < r.fill || 0 < r.drain then (s, false)
    else if s.poison.contains (.scratch w t) then (s.kill (s.ctxOf u) 1 0 3 0 0, true)
    else
      let data := rebase (s.wg w).scr (t * 4096) 4096
      (s.modCore (tidCore u) fun c => { c with cb := tput c.cb x.slot.val { tag := some w, data } }, true)

def execCbld (x : CbldArgs) (s : State) : Result :=
  .next (s.issue (.cbld x) fun _ ps s => State.eachOwn (cbldOne x) ps s)

end Sys2Proof.Machine
end

