-- ==== Sys2Proof/Machine/Session.lean ====
section
/-!
DEFINITION. The data of a migration session (14 R404 to R407): the descriptor and its maps as the Drover
reads them, the bits that writes from outside set, and the operations that a stopped session takes away.
-/

namespace Sys2Proof.Machine

namespace State

variable (s : State)

/-! ### The Drover's own accesses (R404) -/

/-- The Drover's translation of an address of a context, which sets A, and D for a write (R361); none when
the page may not be used or is not resident. -/
def drovePlace (c : Nat) (va : W64) (write : Bool) : Option (Nat × State) :=
  if !canonical va then none
  else
    match s.walk c va with
    | .error _ => none
    | .ok l =>
      let e := entOf c (s.ctxVd c) l
      let a := va.toNat % 2 ^ 56
      if !l.ent.getLsbD 1 || (write && !e.w) || s.backingOk c e a ≠ 0 then none
      else some (e.pa + (a - e.va), s.orLeaf l.entPa (2 ^ 8 + if write then 2 ^ 7 else 0))

/-- Bytes of a context's space read by the Drover. -/
def droveRead (c : Nat) : Nat → W64 → Option (List Byte)
  | 0, _ => some []
  | n + 1, va =>
    match s.drovePlace c va false, droveRead c n (va + 1) with
    | some x, some l => some (mget s.mem x.1 :: l)
    | _, _ => none

/-- A number of a context's space. -/
def droveNat (c n : Nat) (va : W64) : Option Nat := (s.droveRead c n va).map leNat

/-- Bytes of a context's space written by the Drover; what may not be written is left. -/
def droveWrite (c : Nat) : List Byte → W64 → State → State
  | [], _, s => s
  | b :: t, va, s =>
    droveWrite c t (va + 1) (match s.drovePlace c va true with
      | some (pa, s') => s'.putMem pa [b] 0
      | none => s)

/-! ### The migration descriptor (R404) -/

end State

def mgDnode (d : List Byte) : Nat := natBits (fieldAt d 16 8) 52 12
def mgDsave (d : List Byte) : Nat := fieldAt d 24 8
def mgDctx (d : List Byte) : Nat := fieldAt d 32 1
def mgNpage (d : List Byte) : Nat := fieldAt d 36 4
def mgBitmap (d : List Byte) : W64 := BitVec.ofNat 64 (fieldAt d 40 8)
def mgFmap (d : List Byte) : W64 := BitVec.ofNat 64 (fieldAt d 48 8)
def mgSig (d : List Byte) : W64 := BitVec.ofNat 64 (fieldAt d 56 8)

/-- R404: a descriptor in form; the must-be-zero bits of its session-record half are not checked
(notes/assumptions/43.md). -/
def mgOk (d : List Byte) : Bool :=
  fieldAt d 0 16 = 0 && natBits (fieldAt d 16 8) 0 52 = 0 && fieldAt d 33 3 = 0 && decide (1 ≤ mgNpage d) &&
    decide (mgNpage d ≤ 2 ^ 20)

/-- A listed page: its number in the map, its address, and its frame on the destination. -/
structure MovedPage where
  num : Nat
  va : W64
  dst : Nat
  deriving DecidableEq, Repr

/-- R405: a session watches its pages from its open to its end. -/
def Session.watches (x : Session) : Bool := x.last = some .open || x.last = some .round

namespace State

variable (s : State)

/-- The descriptor of a session; none when it is misaligned or cannot be read. -/
def sessionDesc (x : Session) : Option (List Byte) :=
  if x.desc.toNat % 128 = 0 then s.droveRead x.owner 128 x.desc else none

/-- R404: the pages that a session lists; none when the frame map cannot be read. -/
def listedPages (x : Session) (d : List Byte) : Option (List MovedPage) :=
  (upTo (mgNpage d)).foldl (fun l i =>
    let at_ := mgFmap d + BitVec.ofNat 64 (16 * i)
    match l, s.droveNat x.owner 8 at_, s.droveNat x.owner 8 (at_ + 8) with
    | some l, some dst, some va => some (l ++ [⟨i, BitVec.ofNat 64 va, dst⟩])
    | _, _, _ => none) (some [])

/-- Where a listed page stands here, and its leaf: a resident page of BACK 0. -/
def pageHere (c : Nat) (p : MovedPage) : Option (Nat × Leaf) :=
  if !canonical p.va then none
  else
    match s.walk c p.va with
    | .error _ => none
    | .ok l =>
      let a := p.va.toNat % 2 ^ 56
      if bitsOf l.ent 16 2 = 0 && l.ent.getLsbD 1 then
        some (framePa (s.ctxVd c) l.ent + (a - a % 65536 - l.base), l)
      else none

/-- The bit of a listed page. -/
def markedPage (x : Session) (d : List Byte) (i : Nat) : Bool :=
  match s.droveNat x.owner 1 (mgBitmap d + BitVec.ofNat 64 (i / 8)) with
  | some b => b.testBit (i % 8)
  | none => false

def markPage (x : Session) (d : List Byte) (i : Nat) (on : Bool) : State :=
  let at_ := mgBitmap d + BitVec.ofNat 64 (i / 8)
  match s.droveNat x.owner 1 at_ with
  | some b =>
      let bit := 2 ^ (i % 8)
      droveWrite x.owner (natLe 1 (if on then b ||| bit else b - (if b.testBit (i % 8) then bit else 0))) at_ s
  | none => s

/-- The listed page of a session that holds an address of the pod picture. -/
def listedAt (x : Session) (pa : Nat) : Option (List Byte × MovedPage) :=
  match s.sessionDesc x with
  | none => none
  | some d =>
    match s.listedPages x d with
    | none => none
    | some l =>
      (l.find? fun p => match s.pageHere x.ctx p with
        | some y => decide (y.1 ≤ pa) && decide (pa < y.1 + 65536)
        | none => false).map fun p => (d, p)

/-- R405: a write from outside the package to a listed page sets the page's bit. -/
def markOutside (pa : Nat) : State :=
  s.sessions.foldl (fun s x =>
    if x.watches then
      match s.listedAt x pa with
      | some (d, p) => s.markPage x d p.num true
      | none => s
    else s) s

/-- R174, R185, R405: a write from outside the package takes effect at its home. -/
def writeOutside (pa : Nat) (bs : List Byte) (stamp : Nat) : State :=
  let s := s.chargeLines none pa bs.length
  ((s.putMem pa bs stamp).markOutside pa).markOutside (pa + bs.length - 1)

/-- R407: the session that takes away an operation of another package to an address: from its cut-over
stamp on. -/
def takenBy (pa stamp : Nat) : Option Session :=
  s.sessions.find? fun x => match x.cut with
    | some c => decide (c ≤ stamp) && (s.listedAt x pa).isSome
    | none => false

/-- R407: an operation as it goes to the destination: to the same place of its page's frame there. -/
def forwardedAs (x : Session) (o : OrdOp) : List Sent :=
  match o.work with
  | .inbound op off tenant =>
    match s.listedAt x (s.local_ off) with
    | some (d, p) => (match s.pageHere x.ctx p with
        | some y => [.forwarded (mgDnode d) o.rank op (p.dst + (s.local_ off - y.1)) tenant]
        | none => [])
    | none => []
  | _ => []

/-- R407: an operation is handed to the Drover, which sends it on. -/
def handOn (x : Session) (o : OrdOp) : State :=
  { s with
    sent := s.sent ++ s.forwardedAs x o
    sessions := s.sessions.map fun y => if y.ctx = x.ctx then { y with forwarded := y.forwarded ++ [o] } else y }

/-- R407: a place is in a page that awaits its final copy. -/
def awaitsCopy (pa : Nat) : Bool := s.isLocal pa && s.awaiting.contains (paOff pa / 65536)

end State

end Sys2Proof.Machine
end

