-- ==== Sys2Proof/Machine/Network.lean ====
section
/-!
DEFINITION. Stamped order across the pod (08 R223 to R241), send lists and pens (09 R261 to R266), and
the loss of what has left the package (07 R199).
-/

namespace Sys2Proof.Machine

namespace State

variable (s : State)

/-! ### Pens (R261, R263) -/

/-- R261, R263 step 2: a row offered to a pen on behalf of a tenant, by a context of this package or another: 0 taken,
1 refused, 2 invalid. -/
def applyPen (by_ : Option Nat) (tenant penPa stamp : Nat) (row : List Byte) : State × Nat :=
  let h := mbytes s.mem penPa 64
  if isHost penPa || !penValid h || penSlot h < row.length then (s, 2)
  else
    let node := paNode penPa
    let off := penRing h + penCount h % penCap h * penSlot h
    if s.isLocal penPa && !(s.remoteOkFor tenant off && s.remoteOkFor tenant (off + row.length - 1)) then
      (s, 2)
    else if penCap h ≤ (penCount h + 2 ^ 32 - penHead h) % 2 ^ 32 then (s, 1)
    else
      let slot := node * 2 ^ 48 + off
      let s := if s.isLocal slot then (s.chargeLines by_ slot row.length).chargeLines by_ penPa 4 else s
      ((s.putMem slot row stamp).putMem penPa (natLe 4 (penCount h + 1)) stamp, 0)

/-- R263 steps 2 and 3: the outcome of one entry of a flush is known. -/
def noteSend (core flush ent res : Nat) : State :=
  s.modCore core fun k => { k with flushes := k.flushes.map fun f =>
    if f.id ≠ flush then f
    else
      let alt := f.alts.contains ent
      let r : SndRes := match res with
        | 0 => if alt then .alternate else .primary
        | 1 => if alt then .dropped else .refused
        | _ => .invalid
      { f with res := f.res.set ent r } }

/-! ### Receivers (R229 to R231) -/

/-- R229: a receiver's watermark is brought up to date. -/
def syncRecv (r : Nat) : State :=
  let w := s.markOf r
  let x := s.recv r
  s.setRecv r { x with w, moved := if x.w < w then s.now else x.moved, asked := x.asked && !decide (x.w < w) }

/-- R226: the highest watermark that the nodes of the mesh have advertised. -/
def meshMark : Nat := s.recvs.foldl (fun m r => if r.1 < 48 then max m r.2.w else m) 0

/-- R235: a die's end of the die-to-die link, cut and trained again, rejoins when the watermark that the other die
sends exceeds every one advertised here since the cut. -/
def rejoinLink (die : Nat) : State :=
  let x := s.port (linkPort die)
  if x.cut && x.trained && decide (max x.adv s.meshMark < s.inputMark (1 - die)) then
    s.setPort (linkPort die) { x with cut := false }
  else s

/-- Every receiver of the package, and before them the ends of the die-to-die link (R237). -/
def syncRecvs : State := (upTo 48).foldl (fun s r => s.syncRecv r) ((s.rejoinLink 0).rejoinLink 1)

/-- R224: ranks are compared field by field; the sequence of one source modulo 2^16. -/
def rankBefore (a b : Rank) : Bool :=
  if a.stamp ≠ b.stamp then decide (a.stamp < b.stamp)
  else if a.pkg ≠ b.pkg then decide (a.pkg < b.pkg)
  else if a.idx ≠ b.idx then decide (a.idx < b.idx)
  else decide (0 < (b.seq + 65536 - a.seq) % 65536) && decide ((b.seq + 65536 - a.seq) % 65536 < 32768)

/-- R229: the held operation of lowest rank at a receiver, if its stamp is below the watermark. -/
def nextHeld (r : Nat) : Option OrdOp :=
  (s.ords.filter fun o => o.recv = r && o.st = .held && decide (o.rank.stamp < s.markOf r)).foldl
    (fun m o => match m with
      | none => some o
      | some x => if rankBefore o.rank x.rank then some o else some x) none

def setOrd (id : Nat) (f : OrdOp → OrdOp) : State :=
  { s with ords := s.ords.map fun o => if o.id = id then f o else o }

def dropOrd (id : Nat) : State := { s with ords := s.ords.filter fun o => o.id ≠ id }

/-- What the home of an address does with an access of another node (R211, R228). -/
def homeWrites (op : HomeOp) (old : Nat) : Option Nat :=
  match op with
  | .load _ | .pen _ => none
  | .store _ d => some d
  | .atom a t b => some (atomNew a t old b).1
  | .cas _ c n => if old = c then some n else none

def homeLen : HomeOp → Nat
  | .load n => n
  | .store n _ => n
  | .atom _ t _ => t.bytes
  | .cas n _ _ => n
  | .pen _ => 64

/-- R174, R228, R372: an access of another node takes effect at its home here; the value it returns, or
none when the range check refuses it. -/
def homeAccess (op : HomeOp) (addr tenant stamp : Nat) : State × Option Nat :=
  let n := homeLen op
  let pa := s.local_ addr
  match op with
  | .pen row =>
      if !(s.remoteOkFor tenant addr && s.remoteOkFor tenant (addr + 63)) then (s, none)
      else
        let off := penRing (mbytes s.mem pa 64) + penCount (mbytes s.mem pa 64) % penCap (mbytes s.mem pa 64) *
          penSlot (mbytes s.mem pa 64)
        let (s, k) := s.applyPen none tenant pa stamp row
        let slot := paNode pa * 2 ^ 48 + off
        (if k = 0 then ((s.markOutside pa).markOutside slot).markOutside (slot + row.length - 1) else s, some k)
  | _ =>
    if !(s.remoteOkFor tenant addr && s.remoteOkFor tenant (addr + n - 1)) then (s, none)
    else
      let old := mnat s.mem pa n
      match homeWrites op old with
      | some v => (s.writeOutside pa (natLe n v) stamp, some old)
      | none => (s, some old)

/-- R372: an incoming access is refused, and counted at its port. -/
def refuseInbound (port : Nat) : State :=
  { s with crc := tadd s.crc (24 + port) 1, sent := s.sent ++ [.refusedInbound port] }

/-- R229, R231: one operation is applied at its receiver; a store of this package's own, performed, updates its core's
L1 copy (R175), with its stamp (R192). -/
def applyOrd (o : OrdOp) : State :=
  match o.work with
  | .access a =>
      if (s.poisonAt a.pa a.op.len).isSome && !a.op.isStore && s.isLocal a.pa then
        (s.dropOrd o.id).consumed a (s.poisonStruct a.pa a.op.len)
      else
        let old := mnat s.mem a.pa a.op.len
        let stamp := s.stampOf a.pa a.op.len
        let s := match a.op.writes old with
          | some (v, _) =>
              let s := if s.isLocal a.pa then s.acceptDraining a.ctx a.wb (a.pa / 128) else s
              let s := if a.op.isStore && s.isLocal a.pa then s.updateL1 a.core a.pa (natLe a.op.len v) o.rank.stamp else s
              s.putMem a.pa (natLe a.op.len v) o.rank.stamp
          | none => s
        s.setOrd o.id fun x => { x with st := .applied old stamp }
  | .pen _ _ _ pa row ctx =>
      let (s, k) := s.applyPen (some ctx) (s.ctxTenant ctx) pa o.rank.stamp row
      s.setOrd o.id fun x => { x with st := .applied k 0 }
  | .signal _ pa v ctx =>
      let s := if s.isLocal pa then s.acceptDraining ctx false (pa / 128) else s
      (s.putMem pa (natLe 8 v.toNat) o.rank.stamp).setOrd o.id fun x => { x with st := .applied 0 0 }
  | .inbound op pa tenant =>
    match s.takenBy (s.local_ pa) o.rank.stamp with
    | some x => (s.dropOrd o.id).handOn x o
    | none =>
      let (s, r) := s.homeAccess op pa tenant o.rank.stamp
      let s := s.dropOrd o.id
      match r with
      | some v => { s with sent := s.sent ++ [.ordAck o.rank.pkg o.rank.idx o.rank.seq v] }
      | none => s.refuseInbound (o.src - 512)

/-- The line an operation reaches is owned by a copy (R193). -/
def ordOwned (o : OrdOp) : Bool :=
  match o.work with
  | .access a => s.ownedLine (a.pa / 128)
  | .pen _ _ _ pa _ _ | .signal _ pa _ _ => s.ownedLine (pa / 128)
  | .inbound _ pa _ => s.ownedLine (s.local_ pa / 128)

/-- R407: an operation of another package to a page that awaits its final copy. -/
def ordAwaits (o : OrdOp) : Bool :=
  match o.work with
  | .inbound (.pen row) pa _ =>
      let h := mbytes s.mem (s.local_ pa) 64
      s.awaitsCopy (s.local_ pa) || s.awaitsCopy (s.local_ (penRing h + penCount h % penCap h * penSlot h + row.length - 1))
  | .inbound _ pa _ => s.awaitsCopy (s.local_ pa)
  | _ => false

/-- R229: a receiver applies, one at a time in rank order, what its watermark allows. -/
def drainRecv : Nat → Nat → State → State
  | 0, _, s => s
  | n + 1, r, s =>
      match s.nextHeld r with
      | none => s
      | some o => if s.ordOwned o || s.ordAwaits o || s.hotSlices.contains r then s else drainRecv n r (s.applyOrd o)

/-- The receivers that hold operations apply what they may. -/
def drainRecvs : State :=
  ((s.ords.filter fun o => o.st = .held).map (·.recv)).eraseDups.foldl
    (fun s r => drainRecv s.ords.length r (s.syncRecv r)) s

/-! ### Sources (R225, R231, R232) -/

/-- R175, R192, R231: the acknowledgement of an own operation reaches its source, with the value it read and the stamp
that had written it; a copy that the L1 has filled meanwhile is dropped. -/
def ackOrd (o : OrdOp) (old stamp : Nat) : State :=
  let s := s.dropOrd o.id
  match o.work with
  | .access a =>
      let fl := match a.op.writes old with | some (_, f) => f | none => 0
      ((if a.tids = [] then s else s.raise a.core a.ctx fl).dropL1 a.core (a.pa / 128)).complete a old stamp
  | .pen core flush ent _ _ _ => s.noteSend core flush ent old
  | .signal .. | .inbound .. => s

/-- R199, R232, R241: an own operation is refused as late, or lost; a packet of a flush is counted as such too
(notes/assumptions/80.md). -/
def failOrd (o : OrdOp) (code : Nat) : State :=
  let s := s.dropOrd o.id
  match o.work with
  | .access a => s.failAccess a code
  | .pen core flush ent _ _ ctx => (s.ctxFault ctx code).noteSend core flush ent 2
  | .signal _ _ _ ctx => s.ctxFault ctx code
  | .inbound .. => s

/-- R191, R236: an own operation of lower rank to the same receiver has not been applied. -/
def rankBehind (o : OrdOp) : Bool := s.ords.any fun x => x.recv = o.recv && x.st = .sent && rankBefore x.rank o.rank

/-- R232: an own operation that has been rejected here is counted at the input by which it came. -/
def countLate (o : OrdOp) : State :=
  if o.recv < 48 && decide (o.src < 512) then
    let p := ownPort o.src
    let x := (tget s.ports p).getD { PortIn.zero with trained := true }
    s.setPort p { x with late := x.late + 1 }
  else s

/-- R263 step 2: what the home of a pen on another node has answered. -/
def penReply (o : OrdOp) (reply : Option (W128 × Nat)) : Option Nat :=
  match o.work, reply with
  | .pen .., some (v, _) => some (v.toNat % 2 ^ 32)
  | _, _ => none

/-- ORDERED_ACK: an applied or rejected operation is acknowledged; one for another node takes its effect
in the pod picture, in rank order with the others to its receiver. A row for a pen of another node has the outcome that
its home gives (R263 step 2, R265), and does not stand in the picture when that is not 0. -/
def ackById (id : Nat) (reply : Option (W128 × Nat)) : State :=
  match s.ords.find? fun o => o.id = id with
  | none => s
  | some o =>
    match o.st with
    | .applied old stamp => s.ackOrd o old stamp
    | .rejected => (s.countLate o).failOrd o tcOrderLate
    | .held => s
    | .sent =>
        if o.recv < 48 || s.flitWaits id || s.rankBehind o || s.ordOwned o then s
        else
          let s := s.hearFlit (ordPa o.work)
          let s := match o.work with | .access a => s.learn a.pa a.op.len reply | _ => s
          match penReply o reply with
          | some 0 => (s.applyOrd o).ackOrd o 0 0
          | some k => s.ackOrd o k 0
          | none =>
            let s := s.applyOrd o
            match s.ords.find? fun x => x.id = id with
            | some x => (match x.st with | .applied old stamp => s.ackOrd x old stamp | _ => s)
            | none => s

/-- ORDER_LATE: an own operation is below the watermark of what would take it. -/
def lateById (id : Nat) : State :=
  match s.ords.find? fun o => o.id = id with
  | none => s
  | some o =>
    if o.st ≠ .sent then s
    else if (o.recv < 48 && decide (s.markOf o.recv ≤ o.rank.stamp)) || s.flitWaits id then s
    else (s.countLate o).failOrd o tcOrderLate

/-! ### Inputs (R226 to R228, R232, R235, R237) -/

/-- R227: an input of this node that has a link of its own: a fabric port's, or the die-to-die link's. -/
def isLinkInput (n : Nat) : Bool := isFabricPort n || n = linkPort 0 || n = linkPort 1

/-- R235, R237: an input has received a watermark: one that is cut rejoins if it exceeds every watermark advertised on
any output since the cut. -/
def rejoinPort (port wm : Nat) : State :=
  let x := s.port port
  let adv := max x.adv s.meshMark
  s.setPort port { x with heard := s.now, adv := if x.cut then adv else x.adv, cut := x.cut && decide (wm ≤ adv) }

/-- R226, R227: the watermark of an input, and its origin, as its link brings them. -/
def hearPort (port wm onode oport : Nat) : State :=
  let x := s.port port
  s.setPort port { x with wm := max x.wm wm, onode, oport }

/-- R233: an input is cut. -/
def cutPort (port : Nat) : State :=
  let x := s.port port
  s.setPort port { x with cut := true, cuts := x.cuts + 1, adv := 0 }

/-- BEACON: a beacon reaches an input of this package, or the watermark of another node's bank is heard of. -/
def beacon (node port wm onode oport : Nat) : State :=
  if node ≠ s.node.toNat then
    let r := 48 + node * 4096 + port % 4096
    let x := s.recv r
    s.setRecv r { x with w := max x.w wm, moved := s.now }
  else if isFabricPort port then
    (((s.syncRecvs.rejoinPort port wm).hearPort port wm onode oport).syncRecvs).drainRecvs
  else s

/-- R228: a trained fabric port that has sent no ordered packet and no beacon for 256 ns sends a beacon. -/
def sendBeacon (p : Nat) : State :=
  if (s.port (fabricPort p)).trained && !s.hotPorts.contains p && decide ((s.out p).at_ + 1024 ≤ s.clock (512 + p)) then
    let (n, q) := s.outOrigin p
    let s := s.advertise p
    { s with sent := s.sent ++ [.beacon p (s.out p).adv n q] }
  else s

/-- The beacons that are due. -/
def sendBeacons : State :=
  if s.ports.any fun p => isFabricPort p.1 && p.2.trained then (upTo 24).foldl (fun s p => s.sendBeacon p) s else s

/-- R230: entries that a receiver's reorder buffer holds itself. -/
def bufferEntries : Nat := 2048

/-- R230: entries beyond a receiver's buffer stand in its slice's system ways; a spilled line there is written back
through the system share to make room for each (notes/assumptions/55.md). -/
def makeRoom (r : Nat) : State :=
  if (s.ords.filter fun o => o.recv = r && o.st = .held).length ≤ bufferEntries then s
  else
    match s.firstDirty (fun l d => d.spilled && s.dirtySlice l = r) (·.first) with
    | some l => s.lineInDram l false
    | none => s

/-- R232, R237: an ordered packet of another node arrives at a fabric port: its input rejoins or not; the packet is
rejected if it is late; else it is held; then its head's watermark counts, and what that allows is applied. -/
def arriveInbound (p : InPacket) : State :=
  let port := fabricPort p.port
  if 24 ≤ p.port then s
  else
    let s := s.syncRecvs.rejoinPort port p.wm
    let r := s.homeOf p.addr
    let s :=
      if p.rank.stamp < (s.recv r).w then
        let x := s.port port
        let s := s.setPort port { x with late := x.late + 1 }
        { s with sent := s.sent ++ [.ordRejected p.rank.pkg p.rank.idx p.rank.seq] }
      else if !(s.remoteOkFor p.tenant p.addr && s.remoteOkFor p.tenant (p.addr + homeLen p.op - 1)) then
        s.refuseInbound p.port
      else
        let (id, s) := s.newId
        let o : OrdOp := { id, rank := p.rank, src := 512 + p.port, recv := r, work := .inbound p.op p.addr p.tenant
                           st := .held, left := s.now }
        { s with ords := s.ords ++ [o] }.makeRoom r
    ((s.hearPort port p.wm p.onode p.oport).syncRecvs).drainRecvs

/-- R229: an own operation reaches its receiver here. -/
def arriveOwn (id : Nat) : State :=
  match s.ords.find? fun o => o.id = id with
  | none => s
  | some o =>
    if o.st ≠ .sent || 48 ≤ o.recv then s
    else if o.rank.stamp < s.markOf o.recv then s.setOrd id fun x => { x with st := .rejected }
    else ((s.setOrd id fun x => { x with st := .held }).makeRoom o.recv).drainRecvs

/-! ### Stalls and cuts (R233, R234) -/

/-- R233: a receiver that holds an operation has not advanced for 64 µs. -/
def stallAt (r : Nat) : State :=
  let s := s.syncRecv r
  let x := s.recv r
  if (s.ords.any fun o => o.recv = r && o.st = .held) && !x.asked && decide (x.moved + 256000 ≤ s.now) then
    let (n, p) := s.lowestOrigin (sliceDie r)
    { s.setRecv r { x with asked := true } with sent := s.sent ++ [.cutAsk n p] }
  else s

/-- R234: a thread whose packet of a flush is held in a receiver learns of a cut. -/
def deferPen (o : OrdOp) (core flush : Nat) (penPa node port : Nat) : State :=
  match (s.core core).flushes.find? fun f => f.id = flush with
  | none => s
  | some f =>
    let (id, s) := s.newId
    if !s.hasThread f.tid then s
    else s.modThread f.tid fun t => { t with errs := t.errs ++ [{
      id, code := tcStalledWatermark, ctr := .cp, nth := f.nth, apc := f.pc, aidx := f.idx, entry := 0
      addr := BitVec.ofNat 64 penPa, onode := node, oport := port, lowers := false, again := none, acc := none
      age := o.id, op := some o.id }] }

/-- R234: the contexts that hold an operation in a receiver learn of a cut: those of this package at once, and the
issuers in other packages by a notice. A queue signal has no issuing thread. -/
def tellCut (r node port : Nat) : State :=
  let mine := s.ords.filter fun o => o.recv = r && decide (o.src < 512) && (o.st = .held || decide (48 ≤ r) && o.st = .sent)
  let tell (s : State) (o : OrdOp) : State :=
    match o.work with
    | .access a => s.deferAll a tcStalledWatermark node port false (some o.id)
    | .pen core flush _ pa _ _ => s.deferPen o core flush pa node port
    | .signal .. | .inbound .. => s
  let others := s.ords.filter fun o => o.recv = r && decide (512 ≤ o.src) && o.st = .held
  let notice (o : OrdOp) : Sent := .stalled o.rank.pkg o.rank.idx o.rank.seq node port
  let ctxOfOrd (o : OrdOp) : Option Nat :=
    match o.work with
    | .access a => some a.ctx
    | .pen _ _ _ _ _ c | .signal _ _ _ c => some c
    | .inbound .. => none
  let s := (mine.filterMap ctxOfOrd).eraseDups.foldl (fun s c => s.ctxFault c tcStalledWatermark) (mine.foldl tell s)
  { s with sent := s.sent ++ others.map notice }

/-- R233: what the receiver does with the answer to its request: a refusal as slow restarts its 64 µs, and after a cut
it may ask again. -/
def hearAnswer (r : Nat) (slow : Bool) : State :=
  if 48 ≤ r then s
  else
    let x := s.recv r
    s.setRecv r (if slow then { x with moved := s.now, asked := false, slow := x.slow + 1 } else { x with asked := false })

/-- R241, R233: the far input of a fabric port has been cut, or its link is down: what was lost behind the port holds
its watermark no longer. -/
def forgetLost (p : Nat) : State := { s with outs := tmod s.outs p .zero fun x => { x with lost := [] } }

/-- R233: a cut request reaches the input it names, or another node has answered one. An input that another request has
cut already is reported as cut. -/
def requestCut (r node port : Nat) (slow : Bool) : State :=
  if node ≠ s.node.toNat then
    let s := if !slow && decide (0x100 ≤ node) && port = s.node.toNat then s.forgetLost (node - 0x100) else s
    if r < 48 && !(s.recv r).asked then s
    else (if slow then s else s.tellCut r node port).hearAnswer r slow
  else
    let x := s.port port
    let answer (s : State) (b : Bool) : State :=
      if r < 48 then s.hearAnswer r b else { s with sent := s.sent ++ [.cutAnswer r port b] }
    if !s.inputUp port then
      if x.cut then (answer (s.tellCut r node port) false).syncRecvs.drainRecvs else s
    else if !isFabricPort port || decide (s.now < x.heard + 256000) then
      answer (s.setPort port { x with trained := true, slow := x.slow + 1 }) true
    else ((answer ((s.tellCut r node port).cutPort port) false).syncRecvs).drainRecvs

/-- R233: a link is declared down: its input is cut at once. -/
def linkDown (node port : Nat) : State :=
  if node = s.node.toNat && isLinkInput port && s.inputUp port then
    let s := s.cutPort port
    let s := if isFabricPort port then s.forgetLost (port - 0x200) else s
    (s.setPort port { s.port port with trained := false }).syncRecvs.drainRecvs
  else s

/-- R233, R235: a link has trained: its input takes part from now on, or, once cut, when it rejoins. -/
def linkTrained (node port : Nat) : State :=
  if node ≠ s.node.toNat then s
  else if isFabricPort port then
    let s := s.syncRecvs
    s.setPort port { s.port port with trained := true, heard := s.now }
  else if isLinkInput port && (tget s.ports port).isSome then
    let s := s.syncRecvs
    (s.setPort port { s.port port with trained := true, heard := s.now }).syncRecvs.drainRecvs
  else s

/-! ### Token buckets (R240) -/

/-- Lanes of a port that a tenant's contexts hold. -/
def lanesOf (tenant port : Nat) : Nat :=
  (s.market.units.filter fun u => decide (u.1 / 256 = 192 + port) &&
    (match u.2.holder with | some c => s.ctxTenant c = tenant | none => false)).length

/-- R240, R375: what one µs brings to a tenant, in thirty-seconds of a flit: its lanes' tokens, and, with flits queued,
its share of what the others left and the floor; CEIL bounds it in either case. What a division leaves over is
lost (notes/assumptions/76.md). -/
def gainOf (id port idle spare : Nat) (t : Tenant) (leases n : Nat) : Nat :=
  let lanes := s.lanesOf id port
  let own := lanes * 3125
  let ceil := bitsOf ((tget t.fabric port).getD 0) 1 3 * 3125
  let held (g : Nat) : Nat := if 0 < ceil then min g ceil else g
  if s.queuedAt id port = 0 then held own
  else max 8 (held (own + (if leases = 0 then idle / n else idle * lanes / leases) + spare / n))

/-- R240: waiting flits of a tenant leave a port, the oldest first. -/
def popFlits (port tenant : Nat) : Nat → State → State
  | 0, s => s
  | n + 1, s =>
      match (s.flitsAt port).find? fun f => f.tenant = tenant with
      | none => s
      | some f => popFlits port tenant n ({ s with flitq := tput s.flitq port ((s.flitsAt port).erase f) }.flitLeft tenant f.id)

/-- R240, R342: a tenant's tokens on a port stay within the depth of its bucket. -/
def portDepth (tenant port : Nat) : Nat := max 128 (s.lanesOf tenant port * 6250)

/-- TOKEN_REDISTRIBUTION: one µs of a port's buckets, after which queued flits leave, if the port sends (R411). -/
def redistribute (port : Nat) : State :=
  if s.now < (tget s.shared port).getD 0 + 4000 || s.hotPorts.contains port then s
  else
    let queued := s.tenants.filter fun t => decide (0 < s.queuedAt t.1 port)
    let n := queued.length
    let leases := queued.foldl (fun a t => a + s.lanesOf t.1 port) 0
    let idle := if n = 0 then 0
      else s.tenants.foldl (fun a t =>
        if s.queuedAt t.1 port = 0 then a + (s.lanesOf t.1 port * 3125 - 32 * (tget t.2.used port).getD 0) else a) 0
    let held := s.tenants.foldl (fun a t => a + s.lanesOf t.1 port) 0
    let spare := if n = 0 then 0 else (4 - held) * 3125
    let have_ (id : Nat) (t : Tenant) : Nat := (tget t.flits port).getD 0 + s.gainOf id port idle spare t leases n
    let go (id : Nat) (t : Tenant) : Nat := if s.portSends port then min (s.queuedAt id port) (have_ id t / 32) else 0
    let step (id : Nat) (t : Tenant) : Tenant :=
      { t with
        flits := tput t.flits port (min (have_ id t - 32 * go id t) (s.portDepth id port))
        used := tput t.used port 0 }
    let s' := { s with tenants := s.tenants.map fun t => (t.1, step t.1 t.2), shared := tput s.shared port s.now }
    s.tenants.foldl (fun s' t => popFlits port t.1 (go t.1 t.2) s') s'

/-! ### Send lists (R262 to R264) -/

/-- R262: the key of a workgroup's list l: each workgroup of a core has 16 lists of its own
(notes/assumptions/68.md). -/
def listKey (w l : Nat) : Nat := w * 16 + l

/-- R262: one participant's append; the index, or all ones when the list is full. -/
def appendRow (core key : Nat) (e : SndEnt) : State × Nat :=
  let l := (tget (s.core core).lists key).getD []
  if 128 ≤ l.length then (s, 2 ^ 32 - 1)
  else (s.modCore core fun k => { k with lists := tput k.lists key (l ++ [e]) }, l.length)

/-- A row read for a packet: its bytes, invalid, or not yet there. -/
inductive RowRead where
  | bytes (b : List Byte) (s : State)
  | invalid
  | later

/-- R263 step 1: the row of an entry at this moment. -/
def readRow (core wg ctx : Nat) (e : SndEnt) : RowRead :=
  if e.scratch then
    let off := e.row.toNat % 2 ^ 32
    if (tget s.wgs wg).isNone || decide ((s.wg wg).tiles * 4096 < off + e.bytes) then .invalid
    else if (upTo (e.bytes + 4095)).any fun i => i % 4096 = 0 && decide (0 < (s.tileOf wg ((off + i) / 4096)).fill) then .later
    else .bytes (mbytes (s.wg wg).scr off e.bytes) s
  else
    match s.translate core ctx e.row false false with
    | .fault _ => .invalid
    | .absent => .later
    | .ok x s1 =>
      let last := e.row + BitVec.ofNat 64 (e.bytes - 1)
      match s1.translate core ctx last false false with
      | .fault _ => .invalid
      | .absent => .later
      | .ok y s2 =>
        let first := min e.bytes (65536 - e.row.toNat % 65536)
        let rest := e.bytes - first
        .bytes (mbytes s2.mem x.pa first ++ mbytes s2.mem (y.pa - y.pa % 65536) rest) s2

/-- R263 step 1: one packet of a flush to a pen; none when it must wait. -/
def sendRow (core : Nat) (f : Flush) (ent : Nat) (e : SndEnt) (pen : W64) : Option State :=
  let bad := some (s.noteSend core f.id ent 2)
  match s.readRow core f.wg f.ctx e with
  | .invalid => bad
  | .later => none
  | .bytes row s1 =>
    if pen.toNat % 64 ≠ 0 then bad
    else
      match s1.translate core f.ctx pen false false with
      | .fault _ => bad
      | .absent => none
      | .ok x s2 =>
        if isHost x.pa then some (s2.noteSend core f.id ent 2)
        else if !s2.ordReady core then none
        else if !s2.isLocal x.pa && !s2.fabricOk (s2.ctxTenant f.ctx) (portTo x.pa) then
          some (s2.noteSend core f.id ent 2)
        else some (s2.sendOrdered core x.pa f.ctx (.pen core f.id ent x.pa row f.ctx))

def modFlush (core id : Nat) (g : Flush → Flush) : State :=
  s.modCore core fun k => { k with flushes := k.flushes.map fun f => if f.id = id then g f else f }

def flush? (core id : Nat) : Option Flush := (s.core core).flushes.find? fun f => f.id = id

/-- R263 step 1: the packets of a flush to their primary pens, in entry order, as far as they may go. -/
def pumpFirst (core id : Nat) : List Nat → State → State
  | [], s => s
  | i :: is, s =>
    match s.flush? core id with
    | none => s
    | some f =>
      if f.firsts.contains i then pumpFirst core id is s
      else
        match f.ents[i]? with
        | none => s
        | some e =>
          match (s.modFlush core id fun f => { f with firsts := f.firsts ++ [i] }).sendRow core f i e e.pen with
          | some s' => pumpFirst core id is s'
          | none => s

/-- R263 step 3: the packets of refused entries to their alternate pens, once every primary reply is in. -/
def pumpAlt (core id : Nat) : List Nat → State → State
  | [], s => s
  | i :: is, s =>
    match s.flush? core id with
    | none => s
    | some f =>
      if f.res.any (· = .waiting) then s
      else if f.res[i]? ≠ some .refused || f.alts.contains i then pumpAlt core id is s
      else
        match f.ents[i]? with
        | none => s
        | some e =>
          match e.alt with
          | none => pumpAlt core id is (s.modFlush core id fun f => { f with res := f.res.set i .dropped })
          | some pen =>
            match (s.modFlush core id fun f => { f with alts := f.alts ++ [i] }).sendRow core f i e pen with
            | some s' => pumpAlt core id is s'
            | none => s

/-- The packets that wait for room at their source leave (R225). -/
def pumpFlushes : State :=
  s.cores.foldl (fun s c => c.2.flushes.foldl (fun s f =>
    if f.firsts.length < f.ents.length then pumpFirst c.1 f.id (upTo f.ents.length) s else s) s) s

/-- R264: a flush's record. -/
def sndRecord (f : Flush) : List Byte :=
  let cnt (r : SndRes) : Nat := (f.res.filter (· = r)).length
  let code : SndRes → Nat
    | .primary => 0 | .alternate => 1 | .dropped => 2 | .invalid => 3 | .waiting | .refused => 0
  natLe 4 f.ents.length ++ natLe 4 (cnt .primary) ++ natLe 4 (cnt .alternate) ++ natLe 4 (cnt .dropped) ++
    natLe 4 (cnt .invalid) ++ natLe 4 0 ++ natLe 8 s.now ++
    natLe 32 ((f.res.zip (upTo f.res.length)).foldl (fun a x => a + code x.1 * 4 ^ x.2) 0)

/-- SNDF_COMPLETION: every entry of a flush is decided: the record is written and the CP counter falls. -/
def completeFlush (core id : Nat) : State :=
  match s.flush? core id with
  | none => s
  | some f =>
    let open_ := (f.res.zip (upTo f.res.length)).any fun x => x.1 = .waiting || x.1 = .refused
    if open_ || f.firsts.length < f.ents.length then s
    else
      let bad := (f.res.filter fun r => r = .dropped || r = .invalid).length
      let fin (s : State) : State :=
        let s := s.modCore core fun k => { k with flushes := k.flushes.filter fun g => g.id ≠ id }
        let s := (upTo bad).foldl (fun s _ => s.ctxFault f.ctx 0) s
        if s.hasThread f.tid then s.modThread f.tid fun x => x.uncount .cp else s
      match s.translate core f.ctx f.recVa true false with
      | .absent => s
      | .fault _ => (fin s).ctxError f.ctx
      | .ok x s' =>
        if s'.sliceHot x.pa then s else
        let s' := if s'.isLocal x.pa then s'.acceptDraining f.ctx x.wb (x.pa / 128) else s'
        fin (s'.putMem x.pa (s.sndRecord f) 0)

end State

/-! ### SNDA, SNDF, PENQ -/

/-- R262: the entry a participant appends. -/
def sndaEntry (x : SndaArgs) (s : State) (t : Nat) : SndEnt :=
  { row := if x.scratch then (s.rd t x.row).zeroExtend 64 else s.rd64 t x.row
    scratch := x.scratch
    pen := s.rd64 t x.pen
    alt := if x.alt = .zero then none else some (s.rd64 t x.alt)
    bytes := 64 * (x.units.val + 1) }

def execSnda (x : SndaArgs) (s : State) : Result :=
  .next (s.issue (.snda x) fun _ ps s =>
    let es := ps.map fun t => (t, sndaEntry x s t)
    (es.foldl (fun s e =>
      let (s, i) := s.appendRow (tidCore e.1) (State.listKey (s.thread e.1).wg x.list.val) e.2
      s.wrD e.1 (State.statusReg x.d ps e.1) 1 i) s).advance)

/-- R263: one participant's flush. -/
def sndfOne (x : SndfArgs) (g : Group) (s : State) (t : Nat) (va : W64) : State :=
  let core := tidCore t
  let w := (s.thread t).wg
  let key := State.listKey w x.list.val
  let l := (tget (s.core core).lists key).getD []
  let (id, s) := (s.commitWg t).newId
  let s := s.modThread t fun y => y.count .cp
  let f : Flush :=
    { id, tid := t, wg := w, ctx := s.ctxOf t, recVa := va, pc := g.pc, idx := g.idx, ents := l
      res := l.map fun _ => .waiting, firsts := [], alts := [], nth := (s.thread t).ncp }
  let s := s.modCore core fun k => { k with lists := tput k.lists key [], flushes := k.flushes ++ [f] }
  State.pumpFirst core id (upTo l.length) s

def sndfChk (x : SndfArgs) (s : State) (t : Nat) : Chk := s.checkGlobal t (s.rd64 t x.rcd) 64 true true

def sndfAct (x : SndfArgs) (_ : State) (g : Group) (s : State) (_ : List Nat) (t : Nat) (p : Place) : State :=
  match p with
  | .global va _ => sndfOne x g s t va
  | .scratch _ _ => s

/-- R223, R263: a flush waits until the package has pod time. -/
def execSndf (x : SndfArgs) (s : State) : Result :=
  .next (s.issue (.sndf x) (State.memBody (sndfChk x) (fun s _ _ => !s.timed) State.anyRoom none none (sndfAct x)))

/-- R266: a PENQ leaves for its header's home, and its thread blocks for the reply. -/
def penqAct (d : Reg) (adv : State → Nat → Option Nat) (r : State) (g : Group) (s : State) (live : List Nat) (t : Nat) (p : Place) :
    State :=
  match p with
  | .global va xl =>
      let s := if (adv r t).isSome then s.commitWg t else s
      let (a, s) := s.newAccess g [t] va xl (.penq (adv r t)) (State.dstFor d live t) .dflt (some .pod)
        (if (adv r t).isSome then some .pod else none) false
      (s.startWait t (.reply a.id) .zero 15).pushAccess a
  | .scratch _ _ => s

/-- R176: an own access in flight or queued touches a pen header. -/
def penqHold (s : State) (t : Nat) (p : Place) : Bool :=
  match p with
  | .global _ y => s.ownMeets t y.pa 64 || s.queuedMeets t y.pa 64
  | .scratch _ _ => false

/-- The checks of PENQ's header address. -/
def penqChk (a : Reg) (write : Bool) (s : State) (t : Nat) : Chk := s.checkGlobal t (s.rd64 t a) 64 write true

def execPenq (x : DA) (s : State) : Result :=
  .next (s.issue (.penq x) (State.memBody (penqChk x.a false) penqHold State.anyRoom (some .pod) none (penqAct x.d fun _ _ => none)))

def execPenqAdv (x : DAB) (s : State) : Result :=
  .next (s.issue (.penqAdv x) (State.memBody (penqChk x.a true) penqHold State.anyRoom (some .pod) (some .pod)
    (penqAct x.d fun s t => some (s.rd t x.b).toNat)))

/-! ### Loss (R199, R241, R263) -/

namespace State

variable (s : State)

/-- The moving command with an identity, and its core. -/
def movingCmd (id : Nat) : Option (Nat × Cmd) :=
  s.cores.findSome? fun c => (c.2.cmds.find? fun m => m.id = id && m.stage = .moving).map fun m => (c.1, m)

/-- R199, R372: work that was sent at some time is lost: 128 µs have gone since, and no flit of it waits at a port that
sends, or its home has refused it, once it had left. -/
def lossDue (id : Nat) (refused : Bool) (at_ : Nat) : Bool :=
  if refused then !s.flitWaits id else !s.flitPending id && decide (at_ + 512000 ≤ s.now)

/-- R199, R372: an access, entry, ordered operation, copy or wait that has left for another node is lost, or refused
there, which host memory does by its replies alone. -/
def loseById (id : Nat) (refused : Bool) : State :=
  match s.accs.find? fun a => a.id = id with
  | some a =>
      if !s.isLocal a.pa && !(refused && isHost a.pa) && s.lossDue id refused a.sent then
        (s.dropFlit id).failAccess a tcPeerUnreachable
      else s
  | none =>
  match s.entryById id with
  | some (c, e) =>
      if s.lossDue id refused (e.sent.getD s.now) then
        let s := (s.dropFlit id).modCore c fun k => { k with wcb := k.wcb.filter fun x => x.id ≠ id }
        e.stores.foldl (fun s a => s.failAccess a tcPeerUnreachable) s
      else s
  | none =>
  match s.ords.find? fun o => o.id = id with
  | some o =>
      if decide (48 ≤ o.recv) && o.st = .sent && s.lossDue id refused o.left then
        let p := portTo (ordPa o.work)
        let s := if refused then s
          else { s with outs := tmod s.outs p .zero fun x => { x with lost := (o.rank.stamp, ownPort o.src) :: x.lost } }
        (s.dropFlit id).failOrd o tcPeerUnreachable
      else s
  | none =>
  match s.movingCmd id with
  | some (c, m) =>
      if ((m.takes ++ m.owns).any fun l => !s.isLocal (l * 128) && !(refused && isHost (l * 128))) &&
          s.lossDue id refused m.since then
        (s.dropFlit id).loseCmd c m false
      else s
  | none => s

/-- R199, R202: a WAIT or WMARK.wait of a thread on another node's memory finds its home unreachable. -/
def waitLost (t : Nat) : State :=
  let lost := (s.ctxFault (s.ctxOf t) tcPeerUnreachable).endWait t 3
  match (s.thread t).wait with
  | some w =>
    match w.kind with
    | .mem _ pa none _ _ _ _ _ => if s.isLocal pa then s else lost
    | .wmark _ r _ => if r < 48 then s else lost
    | _ => s
  | none => s

/-- R199, R372: 128 µs have passed since a WAIT's last read was sent, or its home has refused it. -/
def loseWait (t : Nat) (refused : Bool) : State :=
  match (s.thread t).wait with
  | some w =>
      let host := match w.kind with | .mem _ pa none _ _ _ _ _ => isHost pa | _ => false
      if s.lossDue (waitFlit t) refused w.sent && !(refused && host) then (s.dropFlit (waitFlit t)).waitLost t else s
  | none => s

end State

/-- ORDERED_PACKET_ARRIVAL (R228, R229, R232, R237). -/
def execOrderedPacketArrival (a : OrdArrival) (s : State) : Result :=
  .next (match a with
    | .own op => s.arriveOwn op
    | .inbound p => s.arriveInbound p)

/-- BEACON (R228, R235). -/
def execBeacon (node port wm onode oport : Nat) (s : State) : Result := .next (s.beacon node port wm onode oport)

/-- STALL_DETECT (R233). -/
def execStallDetect (recv : Nat) (s : State) : Result := .next (s.stallAt recv)

/-- LINK_DOWN (R233). -/
def execLinkDown (node port : Nat) (s : State) : Result := .next (s.linkDown node port)

/-- LINK_TRAINED (R233). -/
def execLinkTrained (node port : Nat) (s : State) : Result := .next (s.linkTrained node port)

/-- TOKEN_REDISTRIBUTION (R240). -/
def execTokenRedistribution (port : Nat) (s : State) : Result := .next (s.redistribute port)

/-- CRC_RETRY (R241). -/
def execCrcRetry (port : Nat) (s : State) : Result := .next { s with crc := tadd s.crc port 1 }

/-- SNDF_ALTERNATE (R263). -/
def execSndfAlternate (core flush : Nat) (s : State) : Result :=
  .next (State.pumpAlt core flush (upTo (((s.flush? core flush).map (·.ents.length)).getD 0)) s)

/-- SNDF_COMPLETION (R263, R264). -/
def execSndfCompletion (core flush : Nat) (s : State) : Result := .next (s.completeFlush core flush)

end Sys2Proof.Machine
end

