-- ==== Sys2Proof/Machine/Ready.lean ====
section
/-!
DEFINITION. Threads at a clause boundary (02 R46; 10 R269, R273): the clause a thread stands at, its wait fields,
ready threads and threads stalled on those fields, and the PC table of a core.
-/

namespace Sys2Proof.Machine

/-- R273: the PC table's size. -/
def pcEntries : Nat := 64

/-- R46: a counter is at or below a wait field. -/
def fieldMet (f v : Nat) : Bool := f = 15 || decide (v ≤ f)

/-- R249: commands that the CP counter still counts only until their report is raised, which a wait for a CP count that
includes them does (R199). -/
def Thread.unreported (t : Thread) (thr : Nat) : Nat :=
  (t.errs.filter fun e => e.lowers && e.included t thr 15).length

/-- R46: the wait fields of a clause hold for a thread's counters. -/
def Thread.meets (t : Thread) (h : W64) : Bool :=
  fieldMet (hdrWld h) t.ld && fieldMet (hdrWst h) t.stc && fieldMet (hdrWcp h) (t.cp - t.unreported (hdrWcp h)) &&
    fieldMet (hdrWtl h) t.tl

namespace State

variable (s : State)

/-- The clause a thread stands at: from the queue program it runs, or its core's instruction cache. -/
def clauseFor (t : Nat) : Option (W64 × List W64) :=
  let pc := (s.thread t).pc
  if isCp t then
    match tget s.runs (tidCore t - 256) with
    | some r =>
        let i := pc.toNat / 8
        match r.code[i]? with
        | some h => some (h, (upTo (hdrN h + 1)).map fun j => r.code.getD (i + 1 + j) 0)
        | none => none
    | none => none
  else ((s.core (tidCore t)).clauses.find? fun k => k.ctx = s.ctxOf t && k.va = pc).map fun k => (k.hdr, k.words)

/-- R46: the wait fields of a clause hold for a thread that enters it; they are not checked again within it. -/
def fieldsMet (h : W64) (t : Nat) : Bool := decide (0 < (s.thread t).idx) || (s.thread t).meets h

/-- A thread stands in an issue group. -/
def inGroup (t : Nat) : Bool := s.allGroups.any fun g => g.members.contains t

/-- R269, R271: a thread at a clause boundary whose wait fields do not hold is stalled, and becomes ready, its age
beginning, when they do. -/
def noteFields (t : Nat) : State :=
  if s.inGroup t then s
  else
    let met := match s.clauseFor t with
      | some (h, _) => s.fieldsMet h t
      | none => true
    match (s.thread t).st, met with
    | .ready, false => s.modThread t fun x => { x with st := .stalled }
    | .stalled, true => s.modThread t fun x => { x with st := .ready, age := s.cyc }
    | _, _ => s

/-- R269: every thread at a clause boundary. -/
def settleReady : State := (s.threads.map (·.1)).foldl (fun s t => s.noteFields t) s

/-! ### The PC table (R273) -/

/-- R273: a thread is ready at the clause of an entry. -/
def keepsEntry (e : PcEntry) (t : Nat) : Bool :=
  match tget s.threads t with
  | some x => x.st = .ready && x.pc = e.va && s.ctxOf t = e.ctx
  | none => false

/-- R273: a ready thread put into the entry of its key, into a free one, or into the overflow list. -/
def enterPc (t : Nat) (x : List PcEntry × List Nat) : List PcEntry × List Nat :=
  let c := s.ctxOf t
  let pc := (s.thread t).pc
  if x.1.any fun e => e.ctx = c && e.va = pc then
    (x.1.map fun e => if e.ctx = c && e.va = pc then { e with tids := e.tids ++ [t] } else e, x.2)
  else if x.1.length < pcEntries then (x.1 ++ [{ ctx := c, va := pc, tids := [t] }], x.2)
  else (x.1, x.2 ++ [t])

/-- R273: the PC table of a core after its threads have moved: entries lose threads that are no longer ready at
them, an empty entry is gone, and the threads with none enter in the order of their age. -/
def settlePc (c : Nat) : State :=
  let kept := ((s.core c).pcs.map fun e => { e with tids := e.tids.filter (s.keepsEntry e) }).filter (·.tids ≠ [])
  let older (a b : Nat) : Bool :=
    decide ((s.thread a).age < (s.thread b).age) || ((s.thread a).age = (s.thread b).age && decide (a ≤ b))
  let loose := (s.threads.filter fun x => tidCore x.1 = c && x.2.st = .ready &&
    !(kept.any fun e => e.tids.contains x.1)).map (·.1)
  let x := (sortBy older loose).foldl (fun x t => s.enterPc t x) (kept, [])
  s.modCore c fun k => { k with pcs := x.1, overflow := x.2 }

/-- R273: the PC tables of the cores that have ready threads, or had. -/
def settlePcs : State :=
  let ready := (s.threads.filter fun x => !isCp x.1 && x.2.st = .ready).map fun x => tidCore x.1
  let held := (s.cores.filter fun k => k.2.pcs ≠ [] || k.2.overflow ≠ []).map (·.1)
  (ready ++ held).eraseDups.foldl (fun s c => s.settlePc c) s

/-- R273: the PC table of a thread's core lists it at its clause; a command processor has none. -/
def listed (t : Nat) : Bool :=
  isCp t || (s.core (tidCore t)).pcs.any fun e => e.tids.contains t && s.keepsEntry e t

end State

end Sys2Proof.Machine
end

