-- ==== Sys2Proof/Machine/Waits.lean ====
section
/-!
DEFINITION. Waits on memory, time, watermarks and DRAM (07 R201, R202, R210, R217 to R221), their
timeouts (10 R287), the sheepdog (R297, R298), and what comes about by itself between the steps of
threads: waits whose condition has come true, groups that go on, receivers that apply, requests noted
ready (R146, R151, R229, R271).
-/

namespace Sys2Proof.Machine

/-! ### WAIT (R217, R218) -/

/-- R217: the bytes of a WAIT's word. -/
def waitLen (ty : Ty) : Nat := 4 * ty.words

/-- R217: the condition of a WAIT. -/
def waitCond (c : WCond) (ty : Ty) (v b : Nat) : Bool :=
  let x := intOf ty v
  let y := intOf ty b
  match c with
  | .eq => v = b
  | .ne => v ≠ b
  | .lt => decide (x < y)
  | .le => decide (x ≤ y)
  | .gt => decide (y < x)
  | .ge => decide (y ≤ x)
  | .anyb => v &&& b ≠ 0

namespace State

variable (s : State)

/-- R195: stores of a restored thread's residue are not yet applied. -/
def residueOut (t : Nat) : Bool := (s.accessesOf t).any fun a => decide (a.id ≤ (s.thread t).resid)

/-- R189, R192, R193, R195, R414: a WAIT's read at home may be served now. -/
def homeServes (t pa n : Nat) : Bool :=
  !s.residueOut t && s.floorOk (s.thread t).floor pa && !s.ownedLine (pa / 128) && !s.sliceHot pa &&
    !((s.storesOf (tidCore t)).any fun a => a.sc && a.meets pa n)

/-- R173, R218: the word a WAIT watches, as its thread reads it. -/
def watched (t pa : Nat) (w : Option Nat) (ty : Ty) : Nat :=
  match w with
  | some wg => mnat (s.wg wg).scr pa (waitLen ty)
  | none => leNat (s.mergeQueued (tidCore t) pa (mbytes s.mem pa (waitLen ty)))

/-- R175, R195: what a WAIT's last read leaves behind: no older copy in the L1, and the stores it has seen. -/
def sawWord (t pa : Nat) (w : Option Nat) (ty : Ty) : State :=
  match w with
  | some _ => s
  | none => (s.dropL1 (tidCore t) (pa / 128)).markSeen (tidCore t) pa (waitLen ty) t

/-- R179, R192, R218: a satisfied WAIT performs its acquire, with its last read as its access. -/
def waitAcquire (t : Nat) (pa : Nat) (w : Option Nat) (ty : Ty) (acq : Option Scope) : State :=
  match acq with
  | some sc => s.acquireAt t sc (if w.isSome then 0
      else s.readStamp (tidCore t) pa (waitLen ty) fun i => (tget s.stamps (pa + i)).getD 0)
  | none => s

/-- R398: the word a WAIT reads is poisoned. -/
def watchPoison (t pa : Nat) (w : Option Nat) (ty : Ty) : Option State :=
  match w with
  | some wg => if s.scratchPoisoned wg pa then some (s.kill (s.ctxOf t) 1 0 3 0 0) else none
  | none =>
      if s.queuedPoison (tidCore t) pa (waitLen ty) then some (s.kill (s.ctxOf t) 1 0 5 pa 0)
      else if s.isLocal pa then (s.poisonAt pa (waitLen ty)).map fun c => s.kill (s.ctxOf t) 1 0 (if c then 1 else 0) pa 0
      else none

/-- R199, R218: the first read of a thread's WAIT on another node's or a host's memory is sent; the thread is blocked
until the reply. -/
def sendRead (t pa : Nat) : State :=
  let s := s.modThread t fun x => { x with wait := x.wait.map fun w => { w with first := true, sent := s.now } }
  let c := s.ctxOf t
  let lost (s : State) : State := (s.ctxFault c tcPeerUnreachable).endWait t 3
  if isHost pa then (if (s.vd (s.ctxVd c)).dead.contains (pa / 2 ^ 48 % 16) then lost s else s)
  else if s.fabricOk (s.ctxTenant c) (portTo pa) then s.sendFlit (s.ctxTenant c) (portTo pa) (waitFlit t)
  else lost s

end State

/-- Where a WAIT's address goes, as its wait keeps it. -/
def placeKey : Place → Nat × Option Nat × Bool
  | .global _ x => (x.pa, none, x.ext)
  | .scratch w off => (off, some w, false)

/-- R218: one participant's first read, and its wait if the condition does not hold. -/
def waitAct (x : WaitArgs) (r : State) (_ : Group) (s : State) (live : List Nat) (t : Nat) (p : Place) : State :=
  let (pa, w, ext) := placeKey p
  let d := State.statusReg x.d live t
  let va : W64 := match p with | .global va _ => va | .scratch _ off => BitVec.ofNat 64 off
  let b := r.rdN t x.b x.ty.words
  let kind : WaitKind := .mem va pa w x.ty b x.cond x.acq (x.ext || ext)
  if w.isNone && !s.isLocal pa then (s.startWait t kind d x.e).sendRead t pa
  else
    match s.watchPoison t pa w x.ty with
    | some s => s
    | none =>
      if waitCond x.cond x.ty (s.watched t pa w x.ty) b then
        ((s.waitAcquire t pa w x.ty x.acq).sawWord t pa w x.ty).status t d 0
      else if x.e.val = 0 then (s.sawWord t pa w x.ty).status t d 1
      else s.startWait t kind d x.e

def waitChk (x : WaitArgs) (s : State) (t : Nat) : Chk :=
  if x.scratch then s.checkScratch t (s.rd t x.base) (waitLen x.ty) false
  else s.checkGlobal t (s.rd64 t x.base) (waitLen x.ty) false true

/-- What holds a WAIT's first read (R171, R176, R192, R193). -/
def waitHold (x : WaitArgs) (s : State) (t : Nat) (p : Place) : Bool :=
  match p with
  | .scratch w off => s.scratchLoadWaits w off
  | .global _ y => s.ownMeets t y.pa (waitLen x.ty) || (s.isLocal y.pa && !s.homeServes t y.pa (waitLen x.ty))

def execWait (x : WaitArgs) (s : State) : Result :=
  .next (s.issue (.wait x) (State.memBody (waitChk x) (waitHold x) State.anyRoom x.acq none (waitAct x)))

namespace State

variable (s : State)

/-- R218: a WAIT that ends unsatisfied has read its word too. -/
def sawWait (t : Nat) : State :=
  match (s.thread t).wait with
  | some w => (match w.kind with | .mem _ pa g ty _ _ _ _ => s.sawWord t pa g ty | _ => s)
  | none => s

/-- A wait of which a read has not held the condition goes on, but for one that only polls (R287). -/
def waitOn (t : Nat) : State :=
  match (s.thread t).wait with
  | none => s
  | some w =>
    let due := match w.deadline with | some d => decide (d ≤ if (s.wgOf t).halted then 0 else s.cyc) | none => false
    if !w.first then s
    else if due then (s.sawWait t).endWait t 1
    else s.modThread t fun x => { x with wait := x.wait.map fun w => { w with first := false } }

/-- R218, R363: where the word of a WAIT stands by the translation in force: an error when its page is no longer valid,
with false when it only is not resident. -/
def waitPlace (t : Nat) (va : W64) (pa : Nat) (w : Option Nat) : Except Bool Nat :=
  match w with
  | some _ => .ok pa
  | none =>
    match s.translate (tidCore t) (s.ctxOf t) va false false with
    | .ok y _ => .ok y.pa
    | .fault _ => .error true
    | .absent => .error false

/-- A WAIT that goes on at another place. -/
def watchAt (t pa : Nat) : State :=
  let move : WaitKind → WaitKind
    | .mem va _ w ty cmp cond acq ext => .mem va pa w ty cmp cond acq ext
    | k => k
  s.modThread t fun x => { x with wait := x.wait.map fun y => { y with kind := move y.kind } }

/-- R218: a waiting thread reads its word again: its page may have been made invalid or have moved, or the condition
may hold now. -/
def rereadWait (t : Nat) (reply : Option (W128 × Nat)) : State :=
  match (s.thread t).wait with
  | none => s
  | some x =>
    match x.kind with
    | .mem va old w ty b cond acq _ =>
      match s.waitPlace t va old w with
      | .error gone => if gone then s.endWait t 2 else s
      | .ok pa =>
      let s := if pa = old then s else s.watchAt t pa
      if (match w with
          | none => !s.homeServes t pa (waitLen ty)
          | some v => s.scratchLoadWaits v pa) then s
      else
        let s := if w.isNone then s.learn pa (waitLen ty) reply else s
        match s.watchPoison t pa w ty with
        | some s => s
        | none =>
          if waitCond cond ty (s.watched t pa w ty) b then
            ((s.waitAcquire t pa w ty acq).sawWord t pa w ty).endWait t 0
          else s.waitOn t
    | _ => s

/-- Where the word of a thread's WAIT stands, if it is not in this package: a node's or a host's. -/
def waitsAway (t : Nat) : Option Nat :=
  match (s.thread t).wait with
  | some x => (match x.kind with | .mem _ pa none _ _ _ _ _ => if s.isLocal pa then none else some pa | _ => none)
  | none => none

/-- R218: what another node's home answers to a WAIT's first read, or later tells of a write to its bytes. -/
def wakeAway (t : Nat) (reply : Option (W128 × Nat)) : State :=
  match s.waitsAway t with
  | some pa => if isHost pa || s.flitWaits (waitFlit t) || (s.thread t).wait.any (·.idle) then s else (s.hearFlit pa).rereadWait t reply
  | none => s

/-- R218: a read of host memory returns; the next is sent 1 µs after it. -/
def pollHost (t : Nat) (reply : Option (W128 × Nat)) : State :=
  match s.waitsAway t, (s.thread t).wait with
  | some pa, some w =>
      if !isHost pa || w.idle || (!w.first && decide (s.now < w.sent + 4000)) then s
      else (s.modThread t fun x => { x with wait := x.wait.map fun w => { w with sent := s.now } }).rereadWait t reply
  | _, _ => s

end State

/-- WAIT_WAKE (R218): another node's home has answered a WAIT. A WAIT on this package's memory reads its word again
whenever a write to it has been applied (`settle`). -/
def execWaitWake (tid : Answer) (s : State) : Result := .next (s.wakeAway tid.id tid.reply)

/-- WAIT_HOST_POLL (R218): the read of host memory is repeated. -/
def execWaitHostPoll (tid : Answer) (s : State) : Result := .next (s.pollHost tid.id tid.reply)

/-! ### PTIME, WMARK, DRAIN (R210, R220, R221) -/

/-- R220: an earlier ordered operation of the thread has not left: a flush with packets still to go. -/
def flushPending (s : State) (t : Nat) : Bool :=
  (s.core (tidCore t)).flushes.any fun f => f.tid = t &&
    (decide (f.firsts.length < f.ents.length) ||
      (f.res.zip (upTo f.res.length)).any fun x => x.1 = .waiting || (x.1 = .refused && !f.alts.contains x.2))

/-- R220: the core's pod time has not yet passed every stamp it has given. -/
def State.stampAhead (s : State) (core : Nat) : Bool :=
  match tget s.lastStamp core with
  | some n => decide (s.clock core ≤ n)
  | none => false

def execPtime (x : DstArgs) (s : State) : Result :=
  .next (s.issue (.ptime x) fun g ps s =>
    if ps.any (fun t => flushPending s t || s.stampAhead (tidCore t)) then s.stall
    else State.alu (fun s _ t => .reg x.d 2 (s.clock (tidCore t)) 0) g ps s)

def execPtimeUntil (x : DA) (s : State) : Result :=
  .next (s.issue (.ptimeUntil x) fun _ ps r =>
    (ps.foldl (fun s t =>
      let until_ := (r.rd64 t x.a).toNat
      let d := State.statusReg x.d ps t
      if until_ ≤ s.clock (tidCore t) then s.status t d 0 else s.startWait t (.ptime until_) d 15) r).goOn)

/-- PTIME_REACHED (R220). -/
def execPtimeReached (tid : Nat) (s : State) : Result :=
  .next (match (s.thread tid).wait with
    | some w => (match w.kind with | .ptime t => if t ≤ s.clock (tidCore tid) then s.endWait tid 0 else s | _ => s)
    | none => s)

/-- R221: the receiver that is home to a place, by its number here; none for host memory. -/
def recvKey (s : State) (pa : Nat) : Option Nat :=
  if State.isHost pa then none else some (s.recvOf pa)

namespace State

variable (s : State)

/-- R184, R210: no write of a DRAIN's set, the context's writes up to its fixing, is still outside the array. -/
def drained (c upTo_ : Nat) : Bool :=
  !(s.dirty.any fun d => match tget (if d.2.wb then d.2.lane else d.2.writers) c with
    | some n => decide (n ≤ upTo_)
    | none => false)

/-- R210: a thread's stores to this package's memory that are not at home. -/
def localStoresOut (t : Nat) : Bool :=
  (s.outstanding.any fun a => !a.op.isLoad && a.tids.contains t && s.isLocal a.pa) ||
    (s.storesOf (tidCore t)).any fun a => a.tids.contains t && s.isLocal a.pa

end State

/-- The checks of WMARK's address. -/
def wmarkChk (a : Reg) (s : State) (t : Nat) : Chk := s.checkGlobal t (s.rd64 t a) 1 false true

/-- R221: the watermark of the receiver that is home to an address. -/
def wmarkAct (x : DA) (_ : State) (_ : Group) (s : State) (live : List Nat) (t : Nat) (p : Place) : State :=
  match p with
  | .global _ y =>
      let v := match recvKey s y.pa with | some r => s.markOf r | none => 2 ^ 64 - 1
      s.wrD t (State.dstFor x.d live t) 2 v
  | .scratch _ _ => s

def execWmark (x : DA) (s : State) : Result :=
  .next (s.issue (.wmark x) (State.memBody (wmarkChk x.a) (fun _ _ _ => false) State.anyRoom none none (wmarkAct x)))

/-- R221: a participant waits for a receiver to pass a stamp. -/
def wmarkWaitAct (x : WmarkWaitArgs) (r : State) (_ : Group) (s : State) (live : List Nat) (t : Nat) (p : Place) : State :=
  match p with
  | .global va y =>
      let d := State.statusReg x.d live t
      let stamp := (r.rd64 t x.b).toNat
      match recvKey s y.pa with
      | none => (s.raiseFloor t stamp).status t d 0
      | some n =>
          if !s.isLocal y.pa && !s.fabricOk (s.ctxTenant (s.ctxOf t)) (State.portTo y.pa) then
            (s.ctxFault (s.ctxOf t) tcPeerUnreachable).status t d 3
          else if s.passed n stamp then (s.raiseFloor t stamp).status t d 0
          else if x.e.val = 0 then s.status t d 1
          else s.startWait t (.wmark va n stamp) d x.e
  | .scratch _ _ => s

def execWmarkWait (x : WmarkWaitArgs) (s : State) : Result :=
  .next (s.issue (.wmarkWait x) (State.memBody (wmarkChk x.a) (fun _ _ _ => false) State.anyRoom none none (wmarkWaitAct x)))

/-- R210: every participant's earlier stores come home first; then its set is fixed. -/
def execDrain (x : StatusWait) (s : State) : Result :=
  .next (s.issue (.drain x) fun _ ps s =>
    if ps.any fun t => s.localStoresOut t then s.holdBlocked
    else
      (ps.foldl (fun s t =>
        s.pollOr (s.drained (s.ctxOf t) s.fresh) t (State.statusReg x.d ps t) x.e (.drain s.fresh) id) s).goOn)

/-! ### Conditions that come true -/

namespace State

variable (s : State)

/-- R146, R259, R210, R218, R221, R292: a wait whose condition now holds ends. -/
def endIfTrue (t : Nat) : State :=
  match (s.thread t).wait with
  | none => s
  | some x =>
    match x.kind with
    | .phase k p => if phasePassed (s.bar k) p then s.endPhase t k p else s
    | .drain n => if s.drained (s.ctxOf t) n then s.endWait t 0 else s
    | .mem va pa w _ _ _ _ _ =>
        if w.isSome || s.isLocal pa then s.rereadWait t none
        else match s.waitPlace t va pa w with
          | .error true => s.endWait t 2
          | .ok p =>
              if x.idle && !s.residueOut t then
                let s := s.watchAt t p
                (s.modThread t fun y => { y with wait := y.wait.map fun z => { z with idle := false } }).sendRead t p
              else s
          | .error false => s
    | .wmark _ r st => if s.passed r st then (s.raiseFloor t st).endWait t 0 else s
    | .talloc n c =>
        let w := (s.thread t).wg
        if s.runIdle w (spanTiles (n, c)) then (s.freeTiles w (spanTiles (n, c))).endWait t 0 else s
    | .tstat n c => if s.runQuiet (s.thread t).wg (spanTiles (n, c)) then s.endWait t 0 else s
    | _ => s

/-- The waiting threads, in ascending order. -/
def waiters : List Nat := (s.threads.filter fun x => x.2.wait.isSome && x.2.st = .blocked).map (·.1)

/-- R271: a blocked group none of whose members waits any longer goes on. -/
def freeGroup (g : Group) : Option Group × State :=
  if g.blocked && g.members.all fun t => (s.thread t).wait.isNone then s.advanceGroup g else (some g, s)

/-- Every group that may go on does. -/
def freeGroups : State :=
  let s := match s.cur with
    | none => s
    | some g => let (g', s) := s.freeGroup g; { s with cur := g' }
  let (gs, s) := s.groups.foldl (fun (l, s) g =>
    let (g', s) := freeGroup s g
    (l ++ g'.toList, s)) (([] : List Group), s)
  { s with groups := gs }

/-- R283, R298: a wait's arrival or signature is withdrawn as at its timeout. -/
def withdraw (t : Nat) : State :=
  match (s.thread t).wait with
  | some w =>
    match w.kind with
    | .meet k => s.withdrawK t (Fin.ofNat 12 k)
    | .sign _ _ => s.withdrawSign t
    | _ => s
  | none => s

/-! ### Between steps -/

/-- R257: the codebook tags of a workgroup clear. -/
def clearTags (w : Wg) : State :=
  s.modCore w.core fun k => { k with cb := tmap k.cb fun b => if b.tag = some w.id then { b with tag := none } else b }

/-- Threads, flocks and tiles of a workgroup are gone. -/
def dropWg (w : Wg) : State :=
  { s with
    threads := s.threads.filter fun x => x.2.wg ≠ w.id
    flocks := s.flocks.filter fun f => !w.hasFlock f.1
    wgs := tdel s.wgs w.id
    poison := s.poison.filter fun p => match p with
      | .scratch v _ => v ≠ w.id
      | .reg t r => if r < 1000 then (s.thread t).wg ≠ w.id else !w.hasFlock t
      | _ => true }

/-- R399: the copies that a discarded context abandons have left each destination byte at its old value or
at the copy's; then its workgroups and teams are gone. -/
def dropDying : State :=
  if s.dying = [] then s
  else
    let mine (m : Cmd) : Bool := s.dying.contains m.ctx
    let s := s.cores.foldl (fun s c => (c.2.cmds.filter mine).foldl (fun s m => (s.abandonBytes m c.1 false).dropCmd c.1 m.id) s) s
    let gone := (s.wgs.filter fun w => s.dying.contains w.2.ctx && w.2.core < 256).map (·.2)
    let s := gone.foldl (fun s w => (s.clearTags w).dropWg w) s
    { s with teams := s.teams.filter fun t => s.launches.any fun l => l.id = t.2.launch, dying := [] }

/-- R287: a wait's time is up. -/
def timeUp (t : Nat) : State :=
  match (s.thread t).wait with
  | none => s
  | some w =>
    match w.kind, w.deadline with
    | .sign _ _, _ => s
    | _, some d => if d ≤ s.cyc && !w.first && !(s.wgOf t).halted then ((s.withdraw t).sawWait t).endWait t 1 else s
    | _, none => s

end State

/-- WAIT_TIMEOUT (R287). -/
def execWaitTimeout (tid : Nat) (s : State) : Result := .next (s.timeUp tid)

end Sys2Proof.Machine
end

