-- ==== Sys2Proof/Machine/Launch.lean ====
section
/-!
DEFINITION. Launches (11 R307 to R326): the launch record and its validation, points and the
frontier, the start and the end of a workgroup, completion, and LNCH, FRPT, FRDN and FRQ with the
event POINT_FIRE.
-/

namespace Sys2Proof.Machine

/-! ### The launch record (R307, R308) -/

def rcEntry (r : List Byte) : Nat := fieldAt r 0 8
def rcCtx (r : List Byte) : Nat := fieldAt r 0x8 2
def rcPrio (r : List Byte) : Nat := fieldAt r 0xA 1
def rcFlags (r : List Byte) : Nat := fieldAt r 0xB 1
def rcDims (r : List Byte) : Nat := fieldAt r 0x10 1
def rcSweep (r : List Byte) : Nat := fieldAt r 0x11 1
def rcNdep (r : List Byte) : Nat := fieldAt r 0x12 1
def rcBound (r : List Byte) : Nat := fieldAt r 0x13 1
def rcDepth (r : List Byte) : Nat := fieldAt r 0x14 1
def rcPlevel (r : List Byte) : Nat := fieldAt r 0x15 1
def rcNlev (r : List Byte) : Nat := fieldAt r 0x16 1
def rcExt (r : List Byte) (k : Nat) : Nat := fieldAt r (0x18 + 4 * k) 4
def rcWgthr (r : List Byte) : Nat := fieldAt r 0x28 2
def rcRegs (r : List Byte) : Nat := fieldAt r 0x2A 1
def rcBars (r : List Byte) : Nat := fieldAt r 0x2B 1
def rcTiles (r : List Byte) : Nat := fieldAt r 0x2C 2
def rcDep (r : List Byte) (j k : Nat) : Int := signExt (fieldAt r (0x30 + 4 * j + k) 1) 8
def rcLev (r : List Byte) (j : Nat) : Nat := fieldAt r (0x50 + 8 * j) 8
def rcSched (r : List Byte) : Nat := fieldAt r 0x90 8
def rcNsched (r : List Byte) : Nat := fieldAt r 0x98 1
def rcArgs (r : List Byte) : Nat := fieldAt r 0xA0 8
def rcArgsz (r : List Byte) : Nat := fieldAt r 0xA8 4
def rcCbook (r : List Byte) : Nat := fieldAt r 0xB0 8
def rcContrec (r : List Byte) : Nat := fieldAt r 0xB8 8
def rcSigaddr (r : List Byte) : Nat := fieldAt r 0xC0 8
def rcSigval (r : List Byte) : Nat := fieldAt r 0xC8 8
def rcFsave (r : List Byte) : Nat := fieldAt r 0xD0 8

/-- R308: fields of a level entry. -/
def rcChild (r : List Byte) (j : Nat) : Nat := natBits (rcLev r j) 0 16
def rcDomain (r : List Byte) (j : Nat) : Nat := natBits (rcLev r j) 16 8
def rcScope (r : List Byte) (j : Nat) : Nat := natBits (rcLev r j) 24 8

/-- The levels a record describes. -/
def rcLevels (r : List Byte) : List Nat := (upTo 8).filter fun j => decide (3 ≤ j) && decide (j < rcNlev r)

/-- The product of a list. -/
def prodNat (l : List Nat) : Nat := l.foldl (· * ·) 1

/-- R310: workgroups in a unit of level j. -/
def rcUnit (r : List Byte) (j : Nat) : Nat := prodNat ((upTo (j + 1)).map fun i => if i < 3 then 1 else rcChild r i)

/-- R310: workgroups in a point. -/
def rcW (r : List Byte) : Nat := rcUnit r (rcPlevel r)

/-- R310: points of a launch. -/
def rcPoints (r : List Byte) : Nat := prodNat ((upTo (rcDims r)).map (rcExt r))

/-- Dimensions other than the sweep dimension. -/
def rcFlat (r : List Byte) : List Nat := (upTo (rcDims r)).filter (· ≠ rcSweep r)

/-- Columns of a frontier launch. -/
def rcCols (r : List Byte) : Nat := prodNat ((rcFlat r).map (rcExt r))

/-- R308, R312: workgroups in a team, or 0 with no team level. -/
def rcTeam (r : List Byte) : Nat :=
  match (rcLevels r).find? fun j => rcDomain r j = 0 with
  | some j => rcUnit r j
  | none => 0

/-- R312: the sizes in workgroups of the units that stay on one die, with their levels. -/
def rcDieLevels (r : List Byte) : List (Nat × Nat) :=
  ((rcLevels r).filter fun j => rcDomain r j = 1).map fun j => (j, rcUnit r j)

/-- R307: the bytes that must be zero. -/
def rcZeros : List Nat :=
  [0xC, 0xD, 0xE, 0xF, 0x17, 0x2E, 0x2F, 0x99, 0x9A, 0x9B, 0x9C, 0x9D, 0x9E, 0x9F, 0xAC, 0xAD, 0xAE, 0xAF]
    ++ (upTo 40).map (0xD8 + ·)

/-- R308: level entries in form. -/
def levelsOk (r : List Byte) : Bool :=
  let n := rcNlev r
  decide (3 ≤ n) && decide (n ≤ 8) &&
    (upTo 8).all (fun j =>
      if 3 ≤ j ∧ j < n then
        rcLev r j / 2 ^ 32 = 0 && decide (rcScope r j ≤ 5) && decide (rcDomain r j ≤ 3) && decide (1 ≤ rcChild r j) &&
          decide (rcDomain r j ≠ 3 ∨ j + 1 = n) && decide (j = 3 ∨ rcDomain r (j - 1) ≤ rcDomain r j)
      else rcLev r j = 0) &&
    decide (((rcLevels r).filter fun j => rcDomain r j = 0).length ≤ 1)

/-- R309: the fields of a dependence. -/
def depsOk (r : List Byte) : Bool :=
  let zero (j : Nat) : Bool := (upTo 4).all fun k => rcDep r j k = 0
  if rcNdep r = 0 then
    rcSweep r = 0 && rcBound r = 0 && rcDepth r = 0 && rcFsave r = 0 && (upTo 8).all zero
  else
    decide (rcNdep r ≤ 8) && decide (rcSweep r < rcDims r) && decide (1 ≤ rcDepth r) && decide (rcDepth r ≤ 4) &&
      decide (rcBound r ≤ 1) &&
      (upTo 8).all (fun j =>
        if j < rcNdep r then
          decide (1 ≤ rcDep r j (rcSweep r)) && (upTo 4).all fun k => decide (k < rcDims r) || rcDep r j k = 0
        else zero j) &&
      decide (rcCols r ≤ 2 ^ 20)

/-- R309: registers, barriers and entry, which a continuation record also follows (R326). -/
def entryOk (r : List Byte) : Bool :=
  rcEntry r % 8 = 0 && decide (16 ≤ rcRegs r) && decide (rcRegs r ≤ 128) && rcRegs r % 8 = 0 &&
    decide (rcBars r ≤ 16)

/-- R312: a team fits one quad: its slots, its tiles, and its barrier registers with the team's own. -/
def teamFits (r : List Byte) : Bool :=
  let per := (rcTeam r + 3) / 4
  decide (per * (rcWgthr r / 32) ≤ 64) && decide (per * rcTiles r ≤ 256) &&
    (rcTeam r = 0 || decide (rcTeam r * rcBars r + 8 ≤ 512))

/-- R309: everything but the spans and the owner of the context. -/
def recordOk (r : List Byte) : Bool :=
  rcZeros.all (fun i => fieldAt r i 1 = 0) && decide (rcFlags r < 8) && entryOk r && decide (rcCtx r < 256) &&
    decide (rcPrio r ≤ 3) && rcWgthr r % 32 = 0 && decide (32 ≤ rcWgthr r) && decide (rcWgthr r ≤ 1024) &&
    decide (rcTiles r ≤ 256) && decide (rcNsched r ≤ 64) && decide (1 ≤ rcDims r) && decide (rcDims r ≤ 4) &&
    (upTo 4).all (fun k => if k < rcDims r then decide (1 ≤ rcExt r k) else rcExt r k = 0) &&
    decide (rcPoints r ≤ 2 ^ 32) && levelsOk r && decide (2 ≤ rcPlevel r) && decide (rcPlevel r < rcNlev r) &&
    depsOk r && teamFits r

/-! ### Coordinates (R310, R315) -/

/-- The coordinates, over some dimensions, of a linear number. -/
def coordsOver (r : List Byte) : List Nat → Nat → List (Nat × Nat)
  | [], _ => []
  | k :: ks, n => (k, n % rcExt r k) :: coordsOver r ks (n / rcExt r k)

def coordAt (l : List (Nat × Nat)) (k : Nat) : Nat := ((l.find? fun x => x.1 = k).map (·.2)).getD 0

/-- The linear number of coordinates over some dimensions. -/
def linearOver (r : List Byte) (f : Nat → Nat) : List Nat → Nat
  | [] => 0
  | k :: ks => f k + rcExt r k * linearOver r f ks

/-- R310: coordinate k of a linear index. -/
def pointCoord (r : List Byte) (lin k : Nat) : Nat := coordAt (coordsOver r (upTo (rcDims r)) lin) k

/-- Coordinate k of the point (c, h). -/
def cellCoord (r : List Byte) (c h k : Nat) : Nat :=
  if k = rcSweep r then h else coordAt (coordsOver r (rcFlat r) c) k

/-- The linear index of the point (c, h). -/
def cellLin (r : List Byte) (c h : Nat) : Nat := linearOver r (cellCoord r c h) (upTo (rcDims r))

/-! ### The frontier (R315, R317) -/

def heightOf (l : Launch) (c : Nat) : Nat := (tget l.h c).getD 0

/-- The point (c, h) has fired and is not behind the frontier. -/
def firedAt (l : Launch) (c h : Nat) : Bool :=
  l.ahead.contains (c, h) || l.points.any fun p => p.col = c && p.h = h

/-- The first height from h on that has not fired. -/
def firstFree (l : Launch) (c : Nat) : Nat → Nat → Nat
  | 0, h => h
  | n + 1, h => if firedAt l c h then firstFree l c n (h + 1) else h

/-- R315: F, the lowest height of a column not yet fired. -/
def nextOf (l : Launch) (c : Nat) : Nat := firstFree l c (l.ahead.length + l.points.length) (heightOf l c)

/-- R315: one dependence of a point holds. -/
def depHolds (l : Launch) (c h j : Nat) : Bool :=
  let r := l.record
  let q (k : Nat) : Int := (cellCoord r c h k : Int) - rcDep r j k
  let top := q (rcSweep r)
  if top < 0 then true
  else if rcBound r ≠ 1 && (rcFlat r).any fun k => decide (q k < 0) || decide ((rcExt r k : Int) ≤ q k) then true
  else
    let col := linearOver r (fun k => (q k % (rcExt r k : Int)).toNat) (rcFlat r)
    decide (top < (heightOf l col : Int))

/-- R315 `MayFire`. -/
def mayFire (l : Launch) (c h : Nat) : Bool :=
  let r := l.record
  h = nextOf l c && decide (h < rcExt r (rcSweep r)) && decide (h - heightOf l c < rcDepth r) &&
    (upTo (rcNdep r)).all (depHolds l c h)

/-- R317: the point that fires next: the lowest height, then the lowest column. -/
def fireNext (l : Launch) : Option (Nat × Nat) :=
  (upTo (rcCols l.record)).foldl (fun b c =>
    let h := nextOf l c
    if !mayFire l c h then b
    else match b with
      | none => some (c, h)
      | some x => if h < x.2 then some (c, h) else b) none

/-- A point that fires, with every workgroup to be placed. -/
def newPoint (r : List Byte) (lin c h : Nat) : PointSt :=
  { lin, col := c, h, held := false, todo := upTo (rcW r), finished := [] }

/-- H passes over the complete points above it. -/
def passHeights (l : Launch) (c : Nat) : Nat → Launch
  | 0 => l
  | n + 1 =>
    let h := heightOf l c
    if l.ahead.contains (c, h) then
      passHeights { l with h := tput l.h c (h + 1), ahead := l.ahead.filter (· ≠ (c, h)) } c n
    else l

/-- R315, R316: a point is complete. -/
def completePoint (l : Launch) (p : PointSt) : Launch :=
  let l := { l with points := l.points.filter (·.lin ≠ p.lin), complete := l.complete + 1 }
  if rcNdep l.record = 0 then l
  else passHeights { l with ahead := (p.col, p.h) :: l.ahead } p.col (l.ahead.length + 1)

/-! ### The frontier save (R323, R324) -/

/-- Runs of equal heights, as (height, count). -/
def runsOf : List Nat → List (Nat × Nat)
  | [] => []
  | h :: t =>
    match runsOf t with
    | (g, n) :: rest => if g = h then (g, n + 1) :: rest else (h, 1) :: (g, n) :: rest
    | [] => [(h, 1)]

/-- R323: the words of a frontier save. -/
def frontierBytes (ncol : Nat) (pairs : List (Nat × Nat)) (held : List (Nat × Nat)) : List Byte :=
  natLe 8 (1 + ncol * 2 ^ 32) ++ natLe 4 pairs.length ++ natLe 4 held.length ++ natLe 16 0 ++
    pairs.flatMap (fun x => natLe 8 (x.1 * 2 ^ 32 + x.2)) ++ held.flatMap fun x => natLe 8 (x.2 * 2 ^ 32 + x.1)

/-- Held points in ascending (column, height) order. -/
def heldOf (l : Launch) : List (Nat × Nat) :=
  sortBy (fun a b => decide (a.1 < b.1) || (a.1 = b.1 && decide (a.2 ≤ b.2)))
    ((l.points.filter (·.held)).map fun p => (p.col, p.h))

/-- R322, R323: the save of a launch at a stop. -/
def frontierSave (l : Launch) : List Byte :=
  frontierBytes (rcCols l.record) (runsOf ((upTo (rcCols l.record)).map (heightOf l))) (heldOf l)

/-- R323: the save at completion: every column stands at the sweep's extent. -/
def frontierDone (r : List Byte) : List Byte := frontierBytes (rcCols r) [(rcExt r (rcSweep r), rcCols r)] []

/-- R324: the heights of a frontier save that LNCH may resume from. -/
def resumeHeights (r : List Byte) (npair : Nat) (words : List Byte) : Option (List (Nat × Nat)) :=
  let pairs := (upTo npair).map fun i => (fieldAt words (8 * i + 4) 4, fieldAt words (8 * i) 4)
  if pairs.all (fun p => decide (1 ≤ p.2) && decide (p.1 ≤ rcExt r (rcSweep r))) &&
      pairs.foldl (fun n p => n + p.2) 0 = rcCols r then some pairs
  else none

/-- Heights by column, from runs. -/
def heightsFrom : List (Nat × Nat) → Nat → Tbl Nat
  | [], _ => []
  | (h, n) :: t, c => ((upTo n).map fun i => (c + i, h)) ++ heightsFrom t (c + n)

namespace State

variable (s : State)

/-! ### Spans of virtual addresses -/

/-- How reading or checking a span ends. -/
inductive SpanRes where
  | ok (bytes : List Byte) (s : State)
  | fault (code : Nat) (va : W64)
  | absent

/-- The parts of a span that lie in one page each: address and length. -/
def spanParts (va : W64) : Nat → Nat → List (W64 × Nat)
  | 0, _ => []
  | n + 1, len =>
    let first := min len (65536 - va.toNat % 65536)
    (va, first) :: (if first < len then spanParts (va + BitVec.ofNat 64 first) n (len - first) else [])

/-- Every part of a span. -/
def spanOf (va : W64) (len : Nat) : List (W64 × Nat) := if len = 0 then [] else spanParts va (len / 65536 + 2) len

/-- The places of a span, in order, each with its length. -/
def placeSpan (core c : Nat) (write : Bool) : List (W64 × Nat) → State → Except (Option (Nat × W64)) (List (Xlat × Nat) × State)
  | [], s => .ok ([], s)
  | (va, n) :: t, s =>
    match s.translate core c va write false with
    | .fault k => .error (some (k, va))
    | .absent => .error none
    | .ok x s' =>
      match placeSpan core c write t s' with
      | .ok (l, s'') => .ok ((x, n) :: l, s'')
      | .error e => .error e

/-- A span of a context read through its translation. -/
def readSpan (core c : Nat) (va : W64) (len : Nat) : SpanRes :=
  match placeSpan core c false (spanOf va len) s with
  | .error (some (k, a)) => .fault k a
  | .error none => .absent
  | .ok (l, s') => .ok (l.flatMap fun x => mbytes s'.mem x.1.pa x.2) s'

/-- R309: a span may be written: true, false, or unknown while a page is not resident. -/
def spanWritable (core c : Nat) (va : W64) (len : Nat) : Option Bool :=
  match placeSpan core c true (spanOf va len) s with
  | .ok _ => some true
  | .error (some _) => some false
  | .error none => none

/-- A write of the part itself at a place: its lines of this package become dirty lines of the context, others being
written back where its quota is full (notes/assumptions/9.md). -/
def writePlaces (c : Nat) : List (Xlat × Nat) → List Byte → State → State
  | [], _, s => s
  | (x, n) :: t, bs, s =>
    let s := if s.isLocal x.pa then
        (upTo ((x.pa % 128 + n + 127) / 128)).foldl (fun s i => s.acceptDraining c x.wb (x.pa / 128 + i)) s
      else s
    writePlaces c t (bs.drop n) (s.putMem x.pa (bs.take n) 0)

/-- R314: a write of the part in a context's space: none while a page is not resident; skipped and
counted when the page may not be written. -/
def writeSpan (core c : Nat) (va : W64) (bs : List Byte) : Option State :=
  match placeSpan core c true (spanOf va bs.length) s with
  | .error none => none
  | .error (some _) => some (s.ctxError c)
  | .ok (l, s') => some (writePlaces c l bs s')

/-! ### Validation (R309, R326) -/

/-- R326: the records deeper than the chain that LNCH checks, as far as they can be read, so that a change of one is
known at its CONT (notes/assumptions/58.md). -/
def chainRest (core c : Nat) : Nat → W64 → Tbl (List Byte) → Tbl (List Byte)
  | 0, _, seen => seen
  | n + 1, va, seen =>
    if va = 0 || va.toNat % 64 ≠ 0 || (tget seen va.toNat).isSome then seen
    else
      match s.readSpan core c va 256 with
      | .ok r _ => chainRest core c n (BitVec.ofNat 64 (rcContrec r)) (tput seen va.toNat r)
      | _ => seen

/-- R326: the continuation chain from an address, up to a depth: valid with its records, invalid, or unknown. The last
record checked names, like every other, a record that is aligned, mapped and not already in the chain. -/
def chainOk (core c : Nat) : Nat → W64 → Tbl (List Byte) → Option (Option (Tbl (List Byte)))
  | depth, va, seen =>
    if va = 0 then some (some seen)
    else if va.toNat % 64 ≠ 0 || (tget seen va.toNat).isSome then some none
    else
      match s.spanWritable core c va 256, depth with
      | none, _ => none
      | some false, _ => some none
      | some true, 0 => some (some (s.chainRest core c 65536 va seen))
      | some true, n + 1 =>
        match s.readSpan core c va 256 with
        | .absent => none
        | .fault _ _ => some none
        | .ok r _ =>
          if !entryOk r then some none
          else chainOk core c n (BitVec.ofNat 64 (rcContrec r)) (tput seen va.toNat r)

/-- The address fields of a record: address, alignment and length of the span. -/
def recordSpans (r : List Byte) : List (Nat × Nat × Nat) :=
  [(rcSched r, 128, 128 * rcNsched r), (rcCbook r, 4096, 4096), (rcContrec r, 64, 256), (rcSigaddr r, 8, 8),
    (rcFsave r, 64, 32 + 40 * rcCols r)]

/-- R309: one span of a record. -/
def recordSpan (core c : Nat) (x : Nat × Nat × Nat) : Option Bool :=
  if x.1 = 0 then some true
  else if x.1 % x.2.1 ≠ 0 then some false
  else s.spanWritable core c (BitVec.ofNat 64 x.1) x.2.2

/-- R309: a record as an issuer may launch it: its continuation records, invalid, or unknown. -/
def checkRecord (t : Nat) (r : List Byte) : Option (Option (Tbl (List Byte))) :=
  let c := s.ctxOf t
  let mine := if isCp t then s.ctxTenant (rcCtx r) = s.ctxTenant c else rcCtx r = c
  if !recordOk r || !mine then some none
  else
    let core := tidCore t
    let spans := (recordSpans r).map (s.recordSpan core (rcCtx r))
    if spans.contains (some false) then some none
    else if spans.contains none then none
    else s.chainOk core (rcCtx r) 8 (BitVec.ofNat 64 (rcContrec r)) []

/-- How a resume ends: with heights, refused, or waiting for a page. -/
inductive ResumeRes where
  | fresh
  | heights (l : List (Nat × Nat))
  | bad
  | absent

/-- R313, R324: the saved frontier of a record. -/
def resumeFrom (t : Nat) (r : List Byte) : ResumeRes :=
  if rcNdep r = 0 || rcFsave r = 0 then .fresh
  else
    let core := tidCore t
    let va := BitVec.ofNat 64 (rcFsave r)
    match s.readSpan core (rcCtx r) va 32 with
    | .absent => .absent
    | .fault _ _ => .bad
    | .ok h _ =>
      if fieldAt h 0 1 % 2 = 0 then .fresh
      else if fieldAt h 0 4 ≠ 1 || fieldAt h 16 16 ≠ 0 || fieldAt h 4 4 ≠ rcCols r || fieldAt h 12 4 ≠ 0 ||
          decide (rcCols r < fieldAt h 8 4) then .bad
      else
        match s.readSpan core (rcCtx r) (va + 32) (8 * fieldAt h 8 4) with
        | .absent => .absent
        | .fault _ _ => .bad
        | .ok w _ =>
          match resumeHeights r (fieldAt h 8 4) w with
          | some l => .heights l
          | none => .bad

/-! ### LNCH (R313) -/

/-- R305: quads that an accepted launch of a context may use: its leased quads, and those its tenant
owns. -/
def residency (c : Nat) : List Nat :=
  (upTo 64).filter fun q =>
    match tget s.market.units (q / 32 * 256 + q % 32) with
    | some u => u.holder = some c || u.owner = s.ctxTenant c
    | none => s.ctxTenant c = 0

/-- R313: a record entered in the table; a run notes the quads that the launch may use now (R305). -/
def acceptLaunch (t : Nat) (r : List Byte) (chain : Tbl (List Byte)) (hs : List (Nat × Nat)) : State :=
  let (id, s) := s.newId
  let l : Launch :=
    { id, ctx := rcCtx r, die := coreDie (tidCore t), record := r, reserved := isCp t, chain
      started := [], ended := none, h := (heightsFrom hs 0).filter fun x => x.2 ≠ 0, ahead := [], points := [], next := 0
      complete := hs.foldl (fun n x => n + x.1 * x.2) 0, pins := [], owed := none }
  let s := { s with launches := s.launches ++ [l] }
  if isCp t then
    let die := tidCore t - 256
    match tget s.runs die with
    | some run =>
        let reach := (run.reach.getD [] ++ s.residency l.ctx).eraseDups
        { s with runs := tput s.runs die { run with held := run.held ++ [.launch id], reach := some reach } }
    | none => s
  else s

/-- R313, step by step, for one participant, its operands read from a state in which none has written (R14). A trap
leaves the flags unmerged (R16). -/
def lnchOne (x : DA) (r s : State) (t : Nat) : State × Bool :=
  let va := r.rd64 t x.a
  let c := s.ctxOf t
  if s.releaseWaits t .pkg then ((s.sendOwn t).blockHeld, false)
  else
    if va.toNat % 64 ≠ 0 then (s.trap t tcMisaligned va, true)
    else if isCp t && !s.inWindow t va 256 then (s.trap t tcProtection va, true)
    else
      match placeSpan (tidCore t) c false (spanOf va 256) s with
      | .error (some (k, a)) => (s.trap t k a, true)
      | .error none => (s, false)
      | .ok (l, s) =>
        if l.any fun p => !s.homeServes t p.1.pa p.2 then (s, false)
        else
          match l.findSome? fun p => (s.poisonAt p.1.pa p.2).map fun b => (b, p.1.pa) with
          | some (b, pa) => (s.kill c 1 0 (if b then 1 else 0) pa va, true)
          | none =>
            let rec_ := l.flatMap fun p => mbytes s.mem p.1.pa p.2
            match s.checkRecord t rec_ with
            | none => (s, false)
            | some none => (s.trap t tcLaunchInvalid 0, true)
            | some (some chain) =>
              match s.resumeFrom t rec_ with
              | .absent => (s, false)
              | .bad => (s.trap t tcFrontierInvalid 0, true)
              | .fresh | .heights _ =>
                let hs := match s.resumeFrom t rec_ with | .heights l => l | _ => []
                let s := (s.releaseDone (some .pkg) t).commitWg t
                if 256 ≤ s.launches.length then (s.status t x.d 1, true)
                else ((s.acceptLaunch t rec_ chain hs).status t x.d 0, true)

/-! ### Points fire (R317) -/

/-- POINT_FIRE: one point of a launch that no run still holds. -/
def firePoint (id : Nat) : State :=
  match s.launch? id with
  | none => s
  | some l =>
    let r := l.record
    if l.reserved then s
    else if rcNdep r = 0 then
      if l.next < rcPoints r then
        s.modLaunch id fun l => { l with points := l.points ++ [newPoint r l.next 0 0], next := l.next + 1 }
      else s
    else
      match fireNext l with
      | some (c, h) => s.modLaunch id fun l => { l with points := l.points ++ [newPoint r (cellLin r c h) c h] }
      | none => s

/-! ### The start of a workgroup (R26, R255, R257, R289, R310) -/

/-- R289: a group of barrier registers from a key on. -/
def startBars (key n count ctx quad : Nat) : State :=
  (upTo n).foldl (fun s i => s.setBar (key + i) (freshBar count ctx quad)) s

/-- The threads and flocks of a workgroup at its entry. -/
def startThreads (w : Wg) (entry : W64) : State :=
  let s := (upTo w.nflock).foldl (fun s f => s.setFlock (w.core * 64 + w.slot + f) .start) s
  (upTo (32 * w.nflock)).foldl (fun s i =>
    s.setThread (mkTid w.core (w.slot + i / 32) (i % 32)) { Thread.start w.id entry with age := s.cyc }) s

/-- R257, R249: a deferred report at every thread of a workgroup, as a schedule entry's. -/
def reportStart (w : Wg) (code : Nat) (va : W64) : State :=
  let (id, s) := s.newId
  (s.threads.filter fun x => x.2.wg = w.id).foldl (fun s x =>
    s.modThread x.1 fun y => { y with errs := y.errs ++ [{
      id, code, ctr := .cp, nth := y.ncp, apc := 0, aidx := 0, entry := 0, addr := va, onode := 0, oport := 0
      lowers := false, again := none, acc := none, age := id, op := none }] }) s

/-- R257: the codebook address of a workgroup's launch record. -/
def bookVa (wid : Nat) : W64 :=
  match s.launch? (s.wg wid).launch with
  | some l => BitVec.ofNat 64 (rcCbook l.record)
  | none => 0

/-- R257: a workgroup's codebook is no longer to be loaded. -/
def bookDone (core wid : Nat) : State := s.modCore core fun k => { k with loads := k.loads.filter (· ≠ wid) }

/-- R257: a codebook that cannot be read is refused. -/
def refuseBook (core wid code : Nat) (va : W64) : State := (s.reportStart (s.wg wid) code va).bookDone core wid

/-- R257: the launch's codebook goes to slot 0 before the first instruction of a workgroup of the core; it waits while a
page of it is not resident. -/
def loadBook (core wid : Nat) : State :=
  match s.readSpan core (s.wg wid).ctx (s.bookVa wid) 4096 with
  | .ok bs s' => (s'.modCore core fun k => { k with cb := tput k.cb 0 { tag := some wid, data := mputs [] 0 bs } }).bookDone core wid
  | .fault c a => s.refuseBook core wid c a
  | .absent => s

/-- R257: every codebook that is still to be loaded. -/
def loadBooks : State :=
  (s.cores.flatMap fun k => k.2.loads.map fun w => (k.1, w)).foldl (fun s x => s.loadBook x.1 x.2) s

/-- R51: a core's instruction cache forgets a context. -/
def clearClauses (core c : Nat) : State :=
  s.modCore core fun k => { k with clauses := k.clauses.filter (·.ctx ≠ c), code := k.code.filter (·.ctx ≠ c) }

/-- R289, R312: the team of a workgroup, made when its first workgroup is placed. -/
def joinTeam (l : Launch) (quad wid wgid : Nat) : Option Nat × State :=
  let n := rcTeam l.record
  if n = 0 then (none, s)
  else
    let u := wgid / n
    match s.teams.find? fun t => t.2.launch = l.id && t.2.unit = u with
    | some t =>
        (some t.1, { s with teams := tput s.teams t.1 { t.2 with
          quad, wgs := if t.2.wgs.contains wid then t.2.wgs else t.2.wgs ++ [wid] } })
    | none =>
        let (id, s) := s.newId
        let size := min n (rcPoints l.record * rcW l.record - u * n)
        let threads := size * rcWgthr l.record
        let s := { s with teams := tput s.teams id { id, quad, launch := l.id, unit := u, wgs := [wid], threads } }
        (some id, s.startBars ((2 * id + 1) * 32) 8 threads l.ctx quad)

/-- R312: a workgroup of a point starts on a core. -/
def startWg (l : Launch) (p : PointSt) (i core slot : Nat) : State :=
  let r := l.record
  let wgid := p.lin * rcW r + i
  let s := if l.started.contains core then s
    else (s.clearClauses core l.ctx).modLaunch l.id fun y => { y with started := y.started ++ [core] }
  let (id, s) := s.newId
  let (team, s) := s.joinTeam l (coreQuad core) id wgid
  let w : Wg :=
    { id, core, slot, nflock := rcWgthr r / 32, ctx := l.ctx, launch := l.id, wgid, point := p.lin, team
      regs := rcRegs r, bars := rcBars r, tiles := rcTiles r, tile := [], scr := [], stage := 0, committed := false
      restartable := natBit (rcFlags r) 0, checked := natBit (rcFlags r) 1, prio := rcPrio r
      argp := BitVec.ofNat 64 (rcArgs r), argsz := BitVec.ofNat 32 (rcArgsz r)
      sched := BitVec.ofNat 64 (rcSched r), nsched := if rcSched r = 0 then 0 else rcNsched r, released := []
      contrec := BitVec.ofNat 64 (rcContrec r), halted := false }
  let s := s.setWg id w
  let s := s.startBars (2 * id * 32) w.bars (rcWgthr r) l.ctx (coreQuad core)
  let s := s.startThreads w (BitVec.ofNat 64 (rcEntry r))
  let s := s.clearL1 core
  let s := if rcCbook r = 0 then s else (s.modCore core fun k => { k with loads := k.loads ++ [id] }).loadBook core id
  s.releaseDue id

/-! ### The end of a workgroup (R294, R295, R316, R325) -/

/-- R316: a workgroup has finished its part of its point. -/
def finishPart (wid : Nat) : State :=
  let w := s.wg wid
  match s.launch? w.launch with
  | none => s
  | some l =>
    let i := w.wgid - w.point * rcW l.record
    match l.points.find? fun p => p.lin = w.point with
    | none => s
    | some p =>
      if p.finished.contains i then s
      else
        let p' := { p with finished := p.finished ++ [i] }
        let l' := { l with points := l.points.map fun q => if q.lin = p.lin then p' else q }
        let l' := if p'.finished.length = rcW l.record then completePoint l' p' else l'
        s.modLaunch l.id fun _ => l'

/-- R316, R325: every thread of a workgroup has executed FRDN, or has ended, by EXIT or by a CONT that acts as one. -/
def partDone (wid : Nat) : Bool :=
  (s.threads.filter fun x => x.2.wg = wid).all fun x =>
    x.2.done || (x.2.st = .ended && (!x.2.contd || (s.wg wid).contrec = 0))

/-- R294: send lists of a workgroup are freed. -/
def clearLists (w : Wg) : State := s.modCore w.core fun k => { k with lists := k.lists.filter fun l => l.1 / 16 ≠ w.id }

/-- Barrier entries of a group tag are freed. -/
def freeBars (tag : Nat) : State := { s with bars := s.bars.filter fun b => b.1 / 32 ≠ tag }

/-- A workgroup leaves its team, which ends with its last one. -/
def leaveTeam (w : Wg) : State :=
  match w.team with
  | none => s
  | some id =>
    match tget s.teams id with
    | none => s
    | some t =>
      let rest := t.wgs.filter (· ≠ w.id)
      if rest = [] then { s.freeBars (2 * id + 1) with teams := tdel s.teams id }
      else { s with teams := tput s.teams id { t with wgs := rest } }

/-- R294: a workgroup whose last thread has ended. One of a team keeps its slots and tiles until every workgroup of the
team has ended, since the team is resident as a whole (R21, R168). -/
def endWg (wid : Nat) : State :=
  let w := s.wg wid
  let s := (s.mergeFlags w.core w.ctx).finishPart wid
  let s := ((s.clearTags w).clearLists w).freeBars (2 * wid)
  match w.team.bind fun t => tget s.teams t with
  | none => s.dropWg w
  | some t =>
    let s := s.modWg wid fun x => { x with ended := true }
    if t.wgs.all fun m => (s.wg m).ended then t.wgs.foldl (fun (s : State) m => (s.leaveTeam (s.wg m)).dropWg (s.wg m)) s
    else s

/-- R325: the workgroup goes on by its continuation record. -/
def contWg (wid : Nat) (r : List Byte) : State :=
  let w := s.wg wid
  let s := ((s.clearLists w).freeBars (2 * wid)).dropPoison ((s.threads.filter fun x => x.2.wg = wid).map (·.1)) [] w.hasFlock
  let w' := { w with
    regs := rcRegs r, bars := rcBars r, argp := BitVec.ofNat 64 (rcArgs r), argsz := BitVec.ofNat 32 (rcArgsz r)
    contrec := BitVec.ofNat 64 (rcContrec r), committed := true }
  let s := (s.setWg wid w').startBars (2 * wid * 32) w'.bars (32 * w.nflock) w.ctx (coreQuad w.core)
  s.startThreads w' (BitVec.ofNat 64 (rcEntry r))

/-- R326: the fields of a continuation record that are read. -/
def contFields (r : List Byte) : List Nat := [rcEntry r, rcRegs r, rcBars r, rcArgs r, rcArgsz r, rcContrec r]

/-- R326: the continuation record of a workgroup at its CONT: none while a page is not resident. -/
def contRecord (w : Wg) : Option (Option (List Byte)) :=
  if w.contrec = 0 then some none
  else
    let known := match s.launch? w.launch with | some l => tget l.chain w.contrec.toNat | none => none
    match s.readSpan w.core w.ctx w.contrec 256 with
    | .absent => none
    | .fault _ _ => some none
    | .ok r _ =>
      let same := match known with | some k => contFields k = contFields r | none => true
      let va := BitVec.ofNat 64 (rcContrec r)
      let next := if va = 0 then some true
        else if va.toNat % 64 ≠ 0 then some false else s.spanWritable w.core w.ctx va 256
      if w.contrec.toNat % 64 ≠ 0 || !same || !entryOk r then some none
      else match next with
        | none => none
        | some false => some none
        | some true => some (some r)

/-- R294, R295, R325: what follows once every thread of a workgroup has ended. -/
def wgEnded (wid : Nat) : State :=
  let ts := s.threads.filter fun x => x.2.wg = wid
  if ts.any fun x => x.2.st ≠ .ended then (if s.partDone wid then s.finishPart wid else s)
  else if ts.any fun x => x.2.contd then
    let w := s.wg wid
    match s.contRecord w with
    | some (some r) => s.contWg wid r
    | _ => (if w.contrec = 0 then s else s.ctxError w.ctx).endWg wid
  else s.endWg wid

/-! ### Completion (R314, R327) -/

/-- No workgroup of a launch is left, on a quad or saved. -/
def launchIdle (id : Nat) : Bool :=
  !(s.wgs.any fun w => w.2.launch = id) && !(s.saved.any fun q => q.wgs.any fun w => w.wg.launch = id)

/-- R314 step 2: the completion signal, made by the command processor of the launch's die; none while it
must wait. -/
def launchSignal (l : Launch) : Option State :=
  let r := l.record
  let core := 256 + l.die
  let va := BitVec.ofNat 64 (rcSigaddr r)
  if va = 0 then some s
  else
    match s.translate core l.ctx va true false with
    | .absent => none
    | .fault _ => some (s.ctxError l.ctx)
    | .ok x s' =>
      let v := BitVec.ofNat 64 (rcSigval r)
      let tenant := s'.ctxTenant l.ctx
      let port := portTo x.pa
      let away := !isHost x.pa && !s'.isLocal x.pa
      if natBit (rcFlags r) 2 then
        if x.back = 2 then some (s.ctxError l.ctx)
        else if !s'.ordReady core then none
        else if away && !s'.fabricOk tenant port then some (s'.ctxFault l.ctx tcPeerUnreachable)
        else
          some (s'.sendOrdered core x.pa l.ctx (.signal va x.pa v l.ctx))
      else if s'.isLocal x.pa then
        if s'.ownedLine (x.pa / 128) then none else some (writePlaces l.ctx [(x, 8)] (natLe 8 v.toNat) s')
      else
        let (id, s') := s'.newId
        some (s'.pushAccess
          { id, tids := [], core, ctx := l.ctx, pc := 0, idx := 0, va, pa := x.pa, op := .store .b64 v.toNat, dst := .zero
            acq := none, rel := some .sys, hint := .dflt, sc := x.sc, wb := x.wb, ord := false, sent := s'.now
            cycle := s'.cyc, nth := [], seen := false })

/-- R322: a frontier save that is owed is written, if its pages allow. -/
def payFrontier (l : Launch) : State :=
  match l.owed with
  | none => s
  | some bs =>
    match s.writeSpan (256 + l.die) l.ctx (BitVec.ofNat 64 (rcFsave l.record)) bs with
    | none => s
    | some s => s.modLaunch l.id fun l => { l with owed := none }

/-- R327: a stop of a quad of the launch's context is in progress. -/
def stopping (l : Launch) : Bool := s.quads.any fun q => q.2.handover && q.2.ctx = some l.ctx

/-- R314: a launch whose points are all complete and whose workgroups have all ended completes: in a cycle after the
last end, and after the save of a stop that came with it (R327). -/
def completeLaunch (l : Launch) : State :=
  if l.reserved || l.complete < rcPoints l.record || !s.launchIdle l.id then s
  else if l.ended.isNone then s.modLaunch l.id fun y => { y with ended := some s.cyc }
  else if l.ended = some s.cyc || s.stopping l then s
  else
    let step1 := if rcNdep l.record = 0 || rcFsave l.record = 0 then some s
      else s.writeSpan (256 + l.die) l.ctx (BitVec.ofNat 64 (rcFsave l.record)) (frontierDone l.record)
    match step1 with
    | none => s
    | some s1 =>
      match s1.launchSignal l with
      | none => s
      | some s2 => { s2 with launches := s2.launches.filter fun x => x.id ≠ l.id }

/-- Frontier saves that are owed, and launches that are complete. -/
def settleLaunches : State :=
  s.launches.foldl (fun s l => (s.payFrontier l).completeLaunch l) s

end State

/-! ### LNCH, FRPT, FRDN, FRQ (R313, R316, R318) -/

def execLnch (x : DA) (s : State) : Result :=
  .next (s.issue (.lnch x) fun _ ps s =>
    State.eachOwn (fun v t => State.lnchOne { x with d := State.statusReg x.d ps t } s v t) ps s)

/-- R318: the coordinates of a workgroup's point, packed. -/
def frptValue (s : State) (t : Nat) : Nat :=
  let w := s.wgOf t
  match s.launch? w.launch with
  | some l => (upTo 4).foldl (fun a k => a + (if k < rcDims l.record then pointCoord l.record w.point k else 0) * 2 ^ (32 * k)) 0
  | none => 0

def execFrpt (x : DstArgs) (s : State) : Result :=
  .next (s.issue (.frpt x) (State.alu fun s _ t => .reg x.d 4 (frptValue s t) 0))

/-- R316, R318: one participant's FRDN. -/
def frdnOne (s : State) (t : Nat) : State × Bool :=
  if s.releaseWaits t .pkg then ((s.sendOwn t).blockHeld, false)
  else
    let s := (s.releaseDone (some .pkg) t).commitWg t
    let s := s.modThread t fun x => { x with done := true }
    let wid := (s.thread t).wg
    (if s.partDone wid then s.finishPart wid else s, true)

def execFrdn (x : G) (s : State) : Result := .next (s.issue (.frdn x) fun _ ps s => State.eachOwn frdnOne ps s)

/-- R318: H or F of a column of the workgroup's launch. -/
def frqValue (s : State) (t : Nat) (a : W32) (next : Bool) : Nat :=
  match s.launch? (s.wgOf t).launch with
  | some l =>
      if rcNdep l.record = 0 || decide (rcCols l.record ≤ a.toNat) then 2 ^ 32 - 1
      else if next then nextOf l a.toNat else heightOf l a.toNat
  | none => 2 ^ 32 - 1

/-- R318: an acquire at .pkg, then the value. -/
def frqBody (x : DA) (next : Bool) (g : Group) (ps : List Nat) (s : State) : State :=
  let s := ps.foldl (fun s t => s.acquireAt t .pkg 0) s
  State.alu (fun s _ t => .reg x.d 1 (frqValue s t (s.rd t x.a) next) 0) g ps s

def execFrq (x : DA) (s : State) : Result := .next (s.issue (.frq x) (frqBody x false))

def execFrqNext (x : DA) (s : State) : Result := .next (s.issue (.frqNext x) (frqBody x true))

/-- POINT_FIRE (R315, R317). -/
def execPointFire (launch : Nat) (s : State) : Result := .next (s.firePoint launch)

end Sys2Proof.Machine
end

