-- ==== Sys2Proof/Machine/Queue.lean ====
section
/-!
DEFINITION. Launch packets, queues and queue programs (11 R300 to R306; 13 R374, R375; 14 R391): the
validator, launch buckets, a packet's run from its start to its EXIT, and QPOP and QPUSH, with the
events LAUNCH_PACKET, PACKET_RUN_START and QUEUE_BUDGET.
-/

namespace Sys2Proof.Machine

/-- R390: the number of a virtual device's queue. -/
def queueKey (v q : Nat) : Nat := v * 64 + q

/-- R391: fields of QCTL. -/
def Queue.loaded (q : Queue) : Bool := q.qctl.getLsbD 0
def Queue.die (q : Queue) : Nat := bitsOf q.qctl 1 1
def Queue.owner (q : Queue) : Nat := bitsOf q.qctl 8 8

namespace State

variable (s : State)

/-! ### Launch buckets (R374, R375) -/

/-- R375: one token, in the units that a bucket counts. -/
def tokenUnits : Nat := 4000000

def bucketRate (w : W64) : Nat := bitsOf w 0 16
def bucketDepth (w : W64) : Nat := bitsOf w 16 9

/-- R375: the tokens of a bucket now. -/
def tokensNow (t : Tenant) : Nat :=
  min (bucketDepth t.bucket * tokenUnits) (t.tokens + (s.now - t.since) * bucketRate t.bucket)

/-- R301 check 5: a packet takes a token; none when there is none. -/
def takeToken (tenant : Nat) : Option State :=
  let n := s.tokensNow (s.tenant tenant)
  if n < tokenUnits then none
  else some (s.modTenant tenant fun t => { t with tokens := n - tokenUnits, since := s.now })

/-- R375: a write of a bucket, or its refusal; must-be-zero bits are discarded (R11). -/
def writeBucket (tenant : Nat) (v : W64) : Option State :=
  let w := v &&& 0x1FFFFFF#64
  if bucketDepth w < 1 || 256 < bucketDepth w then none
  else
    let t := s.tenant tenant
    let full := bucketDepth w * tokenUnits
    some (s.modTenant tenant fun _ =>
      { t with bucket := w, tokens := if t.filled then min full (s.tokensNow t) else full, since := s.now, filled := true })

/-! ### The validator (R300, R301) -/

/-- R301 check 4, R374: the queue admits a context. -/
def admits (v q c : Nat) : Bool :=
  s.ctxVd c = v && (q = 63 || (s.queue (queueKey v q)).mask.getD c false)

/-- R301 checks 3, 4 and 6: a packet is placed in a queue's ring, or the status of the check that fails. -/
def offerPacket (v q : Nat) (p : Packet) : Except Nat State :=
  let x := s.queue (queueKey v q)
  if 64 ≤ q || !x.loaded then .error 3
  else if !s.admits v q p.ctx then .error 4
  else if 256 ≤ x.ring.length then .error 6
  else .ok (s.setQueue (queueKey v q) { x with ring := x.ring ++ [p] })

/-- R300: a header in form, whose length fits the message. -/
def packetOk (bs : List Byte) : Bool :=
  let len := fieldAt bs 8 4
  decide (32 ≤ bs.length) && fieldAt bs 12 20 = 0 && len % 8 = 0 && decide (len ≤ 2016) && bs.length = 32 + len &&
    decide (fieldAt bs 2 2 < 256) && decide (fieldAt bs 1 1 < 64) && fieldAt bs 0 1 = 1

/-- R301: a packet is refused with a status. -/
def nakPacket (v : Nat) (from_ : QpRef) (bs : List Byte) (status : Nat) : State :=
  let seq := if bs.length < 32 then 2 ^ 32 - 1 else fieldAt bs 4 4
  let s := if status = 2 then s.modVd v fun x => { x with naks := x.naks + 1 } else s
  let s := s.vdError v
  { s with sent := s.sent ++ [.nak from_ seq status] }

/-- R301: a message on a launch queue pair of a virtual device. -/
def launchPacket (v : Nat) (from_ : QpRef) (bs : List Byte) : State :=
  if !s.booted || 64 ≤ v || s.portShut from_.port then s
  else if !packetOk bs then s.nakPacket v from_ bs 1
  else
    let q := fieldAt bs 1 1
    let c := fieldAt bs 2 2
    let w := (s.vd v).word
    if w.getLsbD 1 then s.nakPacket v from_ bs 2
    else if !w.getLsbD 0 then s.nakPacket v from_ bs 7
    else if !(s.queue (queueKey v q)).loaded then s.nakPacket v from_ bs 3
    else if !s.admits v q c then s.nakPacket v from_ bs 4
    else
      match s.takeToken (s.vdTenant v) with
      | none => s.nakPacket v from_ bs 5
      | some s =>
        match s.offerPacket v q { ctx := c, seq := fieldAt bs 4 4, body := bs.drop 32, from_ := some from_ } with
        | .ok s => s
        | .error k => s.nakPacket v from_ bs k

/-! ### Runs (R302, R303) -/

/-- Queues of a die with a packet waiting. -/
def waitingQueues (die : Nat) : List Nat :=
  (s.queues.filter fun q => q.2.loaded && q.2.die = die && q.2.ring ≠ []).map (·.1)

/-- R302: the queue that a command processor serves next, round-robin. -/
def nextQueue (die : Nat) : Option Nat :=
  let l := s.waitingQueues die
  let last := tget s.served die
  match l.find? fun q => decide (last.getD 0 < q) || last.isNone with
  | some q => some q
  | none => l.head?

/-- R303: the registers at the start of a run. -/
def runRegs (q : Nat) (x : Queue) (p : Packet) : Vector W32 128 :=
  let z : Vector W32 128 := Vector.replicate 128 0
  (((((((z.set 0 (BitVec.ofNat 32 p.body.length)).set 1 (BitVec.ofNat 32 q)).set 2 (x.base.extractLsb' 0 32)).set 3
    (x.base.extractLsb' 32 32)).set 4 (x.size.extractLsb' 0 32)).set 5 (BitVec.ofNat 32 p.ctx)).set 6 (BitVec.ofNat 32 p.seq))

/-- R302 to R304: the next packet of a queue begins its run on its die's command processor. -/
def startRun (die key : Nat) : State :=
  let x := s.queue key
  if (tget s.runs die).isSome || s.nextQueue die ≠ some key then s
  else
    match x.ring with
    | [] => s
    | p :: rest =>
      let v := key / 64
      let q := key % 64
      let (wid, s) := s.newId
      let tid := cpTid die
      let core := 256 + die
      let w : Wg := { noWg with id := wid, core, slot := 0, nflock := 1, ctx := x.owner, regs := 128 }
      let r : Run :=
        { vd := v, queue := q, owner := x.owner, packet := p, code := x.code, base := x.base, size := x.size, pos := 0
          words := [], fwdTo := none, fwd := [], held := [], count := 0, last := none
          transcript := (s.vd v).transcript, checkpoint := (s.vd v).checkpoint, attach := [] }
      let s := s.setQueue key { x with ring := rest }
      let s := (s.setWg wid w).setThread tid { Thread.start wid 0 with g := runRegs q x p, age := s.cyc }
      let s := (s.setFlock (tidFlock tid) .start).clearL1 core
      { s with runs := tput s.runs die r, served := tput s.served die key }

/-- QUEUE_BUDGET (R70, R303): a run whose budget is used stands at a further instruction. -/
def budgetRun (die : Nat) : State :=
  match tget s.runs die with
  | none => s
  | some r =>
    let here := s.placeOf (cpTid die)
    if 256 ≤ r.count && r.last ≠ some here then s.reject die tcQueueBudget else s

/-! ### EXIT of a queue program (R304 to R306, R379) -/

/-- R305: the reply words of a completed run. -/
def replyWords (r : Run) : List W64 :=
  let report := match r.reach with
    | none => []
    | some qs => [BitVec.ofNat 64 ((if qs.any (· < 32) then 1 else 0) + (if qs.any (32 ≤ ·) then 2 else 0)),
        BitVec.ofNat 64 (qs.foldl (fun a q => a + 2 ^ q) 0)]
  replyWord0 r 0 false :: report ++ r.words

/-- R405: the Drover begins a step of a session. -/
def beginStep (c owner : Nat) (step : MStep) (desc : W64) : State :=
  match step with
  | .open | .land =>
      if s.sessions.any fun x => x.ctx = c then s
      else { s with sessions := s.sessions ++ [
          { ctx := c, last := none, doing := some step, desc, owner, cut := none, forwarded := [], fence := none }] }
  | _ => { s with sessions := s.sessions.map fun x => if x.ctx = c then { x with doing := some step } else x }

/-- R304: one held effect takes hold. -/
def takeHold (owner : Nat) (s : State) (h : Held) : State :=
  match h with
  | .launch id => s.modLaunch id fun l => { l with reserved := false }
  | .bid c pool qty price => s.modCtx c fun x => { x with bids := tput x.bids pool (qty, price) }
  | .migr c step desc => s.beginStep c owner step desc

/-- R306: the held forward words become a packet of another queue of the device. -/
def forwardRun (r : Run) : State :=
  match r.fwdTo with
  | none => s
  | some q =>
    let p : Packet := { r.packet with body := r.fwd.flatMap fun w => natLe 8 w.toNat }
    match s.offerPacket r.vd q p with
    | .ok s => s
    | .error _ => s.vdError r.vd

/-- R304, R305, R379: a run ends at its EXIT. -/
def finishRun (die : Nat) : State :=
  match tget s.runs die with
  | none => s
  | some r =>
    let words := replyWords r
    let s := r.held.foldl (takeHold r.owner) s
    let s := s.modVd r.vd fun v =>
      if r.queue = 63 then { v with transcript := r.transcript, checkpoint := r.checkpoint } else v
    let s := (s.forwardRun r).endRun die
    let s := { s with sent := s.sent ++ [.reply r.packet.from_ r.packet.seq words] }
    if r.attach = [] then s
    else
      { s with sent := s.sent ++ [.attachment r.packet.from_ r.packet.seq
          (natLe 4 r.attach.length ++ natLe 4 r.packet.seq ++ r.attach)] }

/-- The run of a thread that runs a queue program. -/
def runOf (t : Nat) : Option Run := tget s.runs (tidCore t - 256)

def modRun (t : Nat) (f : Run → Run) : State :=
  match s.runOf t with
  | some r => { s with runs := tput s.runs (tidCore t - 256) (f r) }
  | none => s

end State

/-! ### QPOP, QPUSH (R306) -/

/-- R306: the next body word, or none at the end of the body. -/
def popWord (s : State) (t : Nat) : Option Nat :=
  match s.runOf t with
  | some r => if r.pos < r.packet.body.length then some (fieldAt r.packet.body r.pos 8) else none
  | none => none

def execQpop (x : QpopArgs) (s : State) : Result :=
  .next (s.issue (.qpop x) fun g ps s =>
    let had := ps.filter fun t => (popWord s t).isSome
    let s' := State.alu (fun s _ t =>
      let v := popWord s t
      { Effect.reg x.d 2 (v.getD 0) 0 with preds := [(x.c, v.isSome)] }) g ps s
    had.foldl (fun s t => s.modRun t fun r => { r with pos := r.pos + 8 }) s')

/-- R306: a word held for the reply. -/
def pushRep (x : QpushArgs) (s : State) (t : Nat) : State :=
  let room := match s.runOf t with | some r => decide (r.words.length < 29) | none => false
  let a := s.rd64 t x.a
  let s := if room then s.modRun t fun r => { r with words := r.words ++ [a] } else s
  s.wrP t x.c room

def execQpushRep (x : QpushArgs) (s : State) : Result :=
  .next (s.issue (.qpushRep x) fun _ ps s => (ps.foldl (pushRep x) s).advance)

/-- R306: a word held for another queue. -/
def pushFwd (x : QpushFwdArgs) (s : State) (t : Nat) : State :=
  let q := (s.rd t x.b).toNat
  let room := match s.runOf t with
    | some r => decide (q ≤ 63) && (r.fwdTo = none || r.fwdTo = some q) && decide (r.fwd.length < 32)
    | none => false
  let a := s.rd64 t x.a
  let s := if room then s.modRun t fun r => { r with fwdTo := some q, fwd := r.fwd ++ [a] } else s
  s.wrP t x.c room

def execQpushFwd (x : QpushFwdArgs) (s : State) : Result :=
  .next (s.issue (.qpushFwd x) fun _ ps s => (ps.foldl (pushFwd x) s).advance)

/-- LAUNCH_PACKET (R300, R301). -/
def execLaunchPacket (vd : Nat) (qp : QpRef) (bytes : List Byte) (s : State) : Result :=
  .next (s.launchPacket vd qp bytes)

/-- PACKET_RUN_START (R302, R303). -/
def execPacketRunStart (die queue : Nat) (s : State) : Result := .next (s.startRun die queue)

/-- QUEUE_BUDGET (R70, R303). -/
def execQueueBudget (die : Nat) (s : State) : Result := .next (s.budgetRun die)

end Sys2Proof.Machine
end

