-- ==== Sys2Proof/Machine/Control.lean ====
section
/-!
DEFINITION. Rows 0x0 and 0xB but for the launch instructions: branches, calls and returns, EXIT, CONT and
YIELD, lane-mask registers, BKPT, TRAP, WAITC and barriers (10 R276 to R296), with the events that fetch
a clause (02 R49, 14 R403), form an issue group (R270 to R274, R284) and enter a handler (14 R385).
-/

namespace Sys2Proof.Machine

def execNop (x : G) (s : State) : Result := .next (s.issue (.nop x) fun _ _ s => s.advance)

/-! ### Branches (R278 to R280) -/

/-- R278: the link pair of a thread. -/
def linkReg (s : State) (t : Nat) : Reg := .g (Fin.ofNat 128 ((s.wgOf t).regs - 2))

/-- R279: the members on the preferred path, given every member's next address. -/
def preferred (hint : BrHint) (fall : W64) (ps : List Nat) (next : List (Nat × W64)) : List Nat :=
  match hint with
  | .likely => ps
  | .unlikely => (next.filter fun x => x.2 = fall).map (·.1)
  | .none | .uniform =>
      let low := next.foldl (fun m x => min m x.2.toNat) (2 ^ 64)
      (next.filter fun x => x.2.toNat = low).map (·.1)

/-- R279: members of a group all take one next address. -/
def oneNext (next : List (Nat × W64)) : Bool :=
  match next with
  | [] => true
  | x :: rest => rest.all fun y => y.2 = x.2

namespace State

variable (s : State)

/-- R280: the group runs in checked mode. -/
def checkedMode (g : Group) : Bool := (s.wg g.wg).checked || s.ctxChecked (s.wg g.wg).ctx

/-- R278 to R280: a branch of the current group, given each participant's target, and whether it links. -/
def branch (hint : BrHint) (link : Bool) (target : Nat → W64) (g : Group) (ps : List Nat) : State :=
  let fall := nextClause g.pc g.hdr
  let next := g.members.map fun t => (t, if ps.contains t then target t else fall)
  if hint = .uniform && s.checkedMode g && !oneNext next then
    g.members.foldl (fun s t => s.trap t tcUniformity 0) s
  else
    let s := ps.foldl (fun s t => if (target t).toNat % 8 ≠ 0 then s.trap t tcMisaligned 0 else s) s
    match s.cur with
    | none => s
    | some g =>
      let next := next.filter fun x => g.members.contains x.1
      let first := if oneNext next then g.members else preferred hint fall (ps.filter g.members.contains) next
      let s := if link then
          ps.foldl (fun s t => if g.members.contains t then (s.wrN t (linkReg s t) 2 fall.toNat).cleanRegs t [(linkReg s t, 2)] else s) s
        else s
      let s := s.clearStall g
      let s := { s.endClause g fun t => ((next.find? fun x => x.1 = t).map (·.2)).getD fall with cur := none }
      g.members.foldl (fun s t =>
        if first.contains t then s else s.modThread t fun x => { x with age := s.cyc + 1 }) s

end State

/-- R278: BRA's and CALL's target. -/
def bTarget (g : Group) (tgt : W32) : W64 := g.pc + BitVec.ofInt 64 (tgt.toInt * 8)

def execBra (x : BrArgs) (s : State) : Result :=
  .next (s.issue (.bra x) fun g ps s => s.branch x.hint false (fun _ => bTarget g x.tgt) g ps)

def execBrx (x : BrxArgs) (s : State) : Result :=
  .next (s.issue (.brx x) fun g ps s => s.branch x.hint false (fun t => s.rd64 t x.a) g ps)

def execCall (x : BrArgs) (s : State) : Result :=
  .next (s.issue (.call x) fun g ps s => s.branch x.hint true (fun _ => bTarget g x.tgt) g ps)

def execCallx (x : BrxArgs) (s : State) : Result :=
  .next (s.issue (.callx x) fun g ps s => s.branch x.hint true (fun t => s.rd64 t x.a) g ps)

def execRet (x : RetArgs) (s : State) : Result :=
  .next (s.issue (.ret x) fun g ps s => s.branch x.hint false (fun t => s.rd64 t (linkReg s t)) g ps)

/-! ### YIELD, EXIT, CONT (R276, R294, R295) -/

def execYield (x : G) (s : State) : Result :=
  .next (s.issue (.yield x) fun _ ps s =>
    (if ps = [] then s else { s with cur := s.cur.map fun g => { g with yielding := true } }).advance)

namespace State

/-- R294: a thread has nothing outstanding that its end waits for. -/
def mayEnd (s : State) (t : Nat) : Bool :=
  let x := s.thread t
  x.ld = 0 && x.stc = 0 && x.tl = 0 && !s.wgCopies x.wg && !s.releaseWaits t .pkg

/-- R325, R326: the thread is the last of a workgroup that goes on, and its continuation record is not
resident. -/
def contAbsent (s : State) (t : Nat) (cont : Bool) : Bool :=
  let wid := (s.thread t).wg
  let others := s.threads.filter fun x => x.2.wg = wid && x.1 ≠ t
  (cont || others.any fun x => x.2.contd) && others.all (fun x => x.2.st = .ended) && (s.contRecord (s.wg wid)).isNone

/-- R285, R294, R295, R316: one participant's end, once nothing holds it. -/
def endThread (cont : Bool) (s : State) (t : Nat) : State × Bool :=
  if isCp t then
    if 0 < (s.thread t).ld || 0 < (s.thread t).stc then (s, false) else (s.finishRun (tidCore t - 256), true)
  else if !s.mayEnd t || s.contAbsent t cont then (s.sendOwn t, false)
  else
    let wid := (s.thread t).wg
    let s := if cont then s.commitWg t else s
    let s := (s.releaseDone (some .pkg) t).leaveAllK t
    let s := (s.leaveGroups t).modThread t fun x => { x with st := .ended, contd := x.contd || cont, met := none }
    (s.wgEnded wid, true)

end State

def execExit (x : G) (s : State) : Result :=
  .next (s.issue (.exit x) fun _ ps s => State.eachOwn (State.endThread false) ps s)

def execCont (x : G) (s : State) : Result :=
  .next (s.issue (.cont x) fun _ ps s => State.eachOwn (State.endThread true) ps s)

/-! ### Lane-mask registers (R281 to R286) -/

def execJoin (x : KArgs) (s : State) : Result :=
  .next (s.issue (.join x) fun _ ps s =>
    (ps.foldl (fun s t =>
      let f := tidFlock t
      let k := s.kset f x.k
      s.setK f x.k { k with m := k.m ||| State.laneBit t }) s).advance)

def execLeave (x : KArgs) (s : State) : Result :=
  .next (s.issue (.leave x) fun _ ps s => (ps.foldl (fun s t => s.leaveK t x.k) s).advance)

/-- R283: one participant's WAITM. -/
def waitmOne (x : WaitmArgs) (ps : List Nat) (s : State) (t : Nat) : State :=
  let f := tidFlock t
  let k := s.kset f x.k
  let d := State.statusReg x.d ps t
  if k.m &&& State.laneBit t = 0 then s.status t d 2
  else
    let s := s.startWait t (.meet x.k.val) d x.e
    let s := (s.setK f x.k { k with v := k.v ||| State.laneBit t }).meetIfComplete f x.k
    if x.e.val = 0 && (s.thread t).wait.isSome then (s.withdrawK t x.k).endWait t 1 else s

/-- R272: a group that blocks at WAITM has ended its FU clause. -/
def releaseFlock (s : State) : State :=
  match s.cur with
  | some g =>
    if g.blocked then { s.clearFu g with cur := some { g with hdr := g.hdr &&& ~~~(1#64 <<< 36) } } else s
  | none => s

def execWaitm (x : WaitmArgs) (s : State) : Result :=
  .next (match s.cur with
    | none => s
    | some g =>
      if g.idx ≠ hdrN g.hdr then s.illegal
      else s.issue (.waitm x) fun _ ps s => releaseFlock (ps.foldl (waitmOne x ps) s).goOn)

def execKmovMem (x : KmovD) (s : State) : Result :=
  .next (s.issue (.kmovMem x) (State.alu fun s _ t => .reg x.d 1 (s.kset (tidFlock t) x.k).m.toNat 0))

def execKmovArr (x : KmovD) (s : State) : Result :=
  .next (s.issue (.kmovArr x) (State.alu fun s _ t => .reg x.d 1 (s.kset (tidFlock t) x.k).v.toNat 0))

/-- R286: the threads that wait on a register from lanes outside a new member set end with status 2. -/
def expelWaiters (s : State) (f : Nat) (k : KReg) (m : W32) : State :=
  (s.meeters f k (BitVec.allOnes 32 &&& ~~~m)).foldl (fun s t => s.endWait t 2) s

def execKmovSet (x : KmovA) (s : State) : Result :=
  .next (s.issue (.kmovSet x) fun _ ps s =>
    (match ps with
      | [] => s
      | t :: _ =>
        let f := tidFlock t
        let m := s.rd t x.a
        let s := s.setK f x.k { m, v := (s.kset f x.k).v &&& m }
        (expelWaiters s f x.k m).meetIfComplete f x.k).advance)

def execKmovClr (x : KArgs) (s : State) : Result :=
  .next (s.issue (.kmovClr x) fun _ ps s =>
    (match ps with
      | [] => s
      | t :: _ => expelWaiters (s.setK (tidFlock t) x.k ⟨0, 0⟩) (tidFlock t) x.k 0).advance)

/-! ### BKPT, TRAP, WAITC (R288, R296) -/

def execBkpt (x : CodeArgs) (s : State) : Result :=
  .next (s.issue (.bkpt x) fun _ ps s => (ps.foldl (fun s t => s.trapImm t tcBreakpoint x.code) s).advance)

def execTrap (x : CodeArgs) (s : State) : Result :=
  .next (s.issue (.trap x) fun _ ps s => (ps.foldl (fun s t => s.trapImm t tcSoftware x.code) s).advance)

/-- R288: a threshold on a counter is met. -/
def waitcMet (thr v : Nat) : Bool := thr = 63 || decide (v ≤ thr)

def execWaitc (x : WaitcArgs) (s : State) : Result :=
  .next (s.issue (.waitc x) fun _ ps s =>
    let met (t : Nat) : Bool :=
      let y := s.thread t
      waitcMet x.ld.toNat y.ld && waitcMet x.st.toNat y.stc && waitcMet x.cp.toNat y.cp && waitcMet x.tl.toNat y.tl
    if ps.all met then s.advance else s.holdBlocked)

/-! ### Barriers (R289 to R293) -/

/-- A barrier instruction: its register is made resident, then each participant acts in ascending lane
order. -/
def barBody (bar : Bar) (act : State → Nat → Nat → State) (_ : Group) (ps : List Nat) (s : State) : State :=
  (ps.foldl (fun s t => if s.stands t then act s t (s.barKey t bar) else s) (s.withBar bar ps)).goOn

def execBari (x : BariArgs) (s : State) : Result :=
  .next (s.issue (.bari x) (barBody x.bar fun s t k =>
    (s.setBar k { s.bar k with count := (s.rd t x.a).toNat % 2 ^ 14 }).settleBar k))

/-- R290 to R292: BARA by one participant. -/
def baraOne (s : State) (t k : Nat) (d : Reg) : State :=
  if s.mayArrive k then (s.wrD t d 1 (s.bar k).p.toNat).arrive k else s.wrD t d 1 (2 ^ 32 - 1)

def execBara (x : BarD) (s : State) : Result :=
  .next (s.issue (.bara x) fun g ps s => barBody x.bar (fun s t k => baraOne s t k (State.statusReg x.d ps t)) g ps s)

def execBarw (x : BarwArgs) (s : State) : Result :=
  .next (s.issue (.barw x) fun g ps r => barBody x.bar (fun s t k =>
    let d := State.statusReg x.d ps t
    if (s.bar k).count = 0 then s.status t d 2 else s.waitPhase t k (r.rd t x.a) d x.e) g ps r)

/-- R290 to R292: BARAW by one participant. -/
def barawOne (s : State) (t k : Nat) (d : Reg) (e : TExp) : State :=
  if s.mayArrive k then
    let p := (s.bar k).p
    (s.arrive k).waitPhase t k p d e
  else s.status t d 2

def execBaraw (x : BarawArgs) (s : State) : Result :=
  .next (s.issue (.baraw x) fun g ps s =>
    barBody x.bar (fun s t k => barawOne s t k (State.statusReg x.d ps t) x.e) g ps s)

def execBarq (x : BarD) (s : State) : Result :=
  .next (s.issue (.barq x) fun g ps s =>
    barBody x.bar (fun s t k => s.wrD t (State.statusReg x.d ps t) 1 (s.bar k).p.toNat) g ps s)

/-- R293: the word of BARQ.st. -/
def barWord (b : BarSt) : Nat :=
  (if b.err.isSome then 2 ^ 29 else 0) + (if b.sig then 2 ^ 28 else 0) + b.n % 2 ^ 14 * 2 ^ 14 + b.count

def execBarqSt (x : BarD) (s : State) : Result :=
  .next (s.issue (.barqSt x) fun g ps s =>
    barBody x.bar (fun s t k => s.wrD t (State.statusReg x.d ps t) 1 (barWord (s.bar k))) g ps s)

/-! ### CLAUSE_FETCH (R49, R51, R403) -/

namespace State

variable (s : State)

/-- The threads of a context on a core that stand ready at a clause. -/
def threadsAt (core c : Nat) (pc : W64) : List Nat :=
  (s.threads.filter fun x => tidCore x.1 = core && x.2.st = .ready && x.2.pc = pc && s.ctxOf x.1 = c).map (·.1)

/-- R392: the breakpoint registers of a context. -/
def breakpoints (c : Nat) : List W64 :=
  let w := (s.ctx c).words
  [w.brk0, w.brk1, w.brk2, w.brk3]

/-- R403: the number of the first enabled breakpoint at a clause. -/
def breakAt (c : Nat) (pc : W64) : Option Nat :=
  ((s.breakpoints c).zip (upTo 4)).findSome? fun x =>
    if x.1.getLsbD 0 && x.1 &&& ~~~1#64 = pc then some x.2 else none

/-- R403: threads that reach a breakpoint take it before the clause's first instruction. -/
def breakThreads (n : Nat) (pc : W64) (ts : List Nat) : State :=
  (ts.filter fun t => (s.thread t).idx = 0).foldl (fun s t =>
    if (s.thread t).st = .ready then s.trapClause t tcBreakpoint pc 0 (0xFFFF - n) 0 else s) s

/-- R49 step 1: where the words of a clause stand, or the fault or the absent page that a word meets. -/
def fetchWords (core c : Nat) : List W64 → State → Except (Option (Nat × W64)) (List (W64 × Nat) × State)
  | [], s => .ok ([], s)
  | va :: rest, s =>
    match s.translate core c va false true with
    | .fault k => .error (some (k, va))
    | .absent => .error none
    | .ok x s' =>
      match fetchWords core c rest s' with
      | .ok (l, s'') => .ok ((va, x.pa) :: l, s'')
      | .error e => .error e

/-- The addresses of a clause's words. -/
def clauseAddrs (pc : W64) (n : Nat) : List W64 := (upTo n).map fun i => pc + BitVec.ofNat 64 (8 * i)

/-- R51: a line that the core's instruction cache holds for a context. -/
def codeLine? (core c line : Nat) : Option CodeLine := (s.core core).code.find? fun l => l.ctx = c && l.line = line

/-- R51: a word as fetch reads it: as memory holds it, or as an earlier fetch of its line found it. -/
def codeWord (core c : Nat) (old : Bool) (x : W64 × Nat) : W64 :=
  let new := BitVec.ofNat 64 (mnat s.mem x.2 8)
  match old, s.codeLine? core c (x.1.toNat / 128) with
  | true, some l => l.words.getD (x.1.toNat % 128 / 8) new
  | _, _ => new

/-- R51: a fetched word stands in its line of the instruction cache, which the fetch fills whole. -/
def keepCode (core c : Nat) (x : (W64 × Nat) × W64) : State :=
  let line := x.1.1.toNat / 128
  let words := match s.codeLine? core c line with
    | some l => l.words
    | none => (upTo 16).map fun j => BitVec.ofNat 64 (mnat s.mem (x.1.2 / 128 * 128 + 8 * j) 8)
  s.modCore core fun k => { k with
    code := { ctx := c, line, words := words.set (x.1.1.toNat % 128 / 8) x.2 } ::
      k.code.filter fun l => !(l.ctx = c && l.line = line) }

/-- Every thread that stands at a clause takes a trap there, with no instruction issued. -/
def trapThreads (ts : List Nat) (code : Nat) (pc va : W64) : State :=
  ts.foldl (fun s t => if (s.thread t).st = .ready then s.trapClause t code pc 0 0 va else s) s

/-- R49: a clause at which threads stand ready is fetched and checked whole. How many words step 1 fetches is read
from N of the header word as it stands, before that word is checked (notes/assumptions/54.md). -/
def loadClause (core c : Nat) (pc : W64) (old : BitVec 17) (ts : List Nat) : State :=
  match fetchWords core c [pc] s with
  | .error none => s
  | .error (some (k, va)) => s.trapThreads ts k pc va
  | .ok (hs, _) =>
    let h := (hs.map (s.codeWord core c (old.getLsbD 0))).headD 0
    match fetchWords core c (clauseAddrs pc (hdrN h + 2)) s with
    | .error none => s
    | .error (some (k, va)) => s.trapThreads ts k pc va
    | .ok (xs, s) =>
      let ws := xs.mapIdx fun i x => s.codeWord core c (old.getLsbD i) x
      match ws with
      | [] => s
      | hdr :: words =>
        let s := (xs.zip ws).foldl (fun s x => s.keepCode core c x) s
        if !clauseOk hdr words then s.trapThreads ts tcIllegalClause pc 0
        else
          s.modCore core fun k => { k with
            clauses := { ctx := c, va := pc, hdr, words } :: k.clauses.filter fun x => !(x.ctx = c && x.va = pc) }

/-- CLAUSE_FETCH: the clause that ready threads have reached; at an enabled breakpoint those that enter it trap
first, and it is fetched for the others (R403). -/
def fetchClause (core c : Nat) (pc : W64) (old : BitVec 17) : State :=
  let s := match s.breakAt c pc with
    | some n => s.breakThreads n pc (s.threadsAt core c pc)
    | none => s
  let ts := s.threadsAt core c pc
  if ts = [] then s else s.loadClause core c pc old ts

/-! ### ISSUE_GROUP (R46, R270 to R274, R284) -/

/-- R272, R274: a flock's state lets a group at (pc, idx) run an FU clause: it is invalid, or it came back valid with
a restore and names the clause and index while no group of the flock runs one. -/
def flockFree (f : Nat) (pc : W64) (idx : Nat) : Bool :=
  match (s.flock f).fu with
  | none => true
  | some x => x = (pc, idx) && !(s.allGroups.any fun g => hdrFu g.hdr && g.members.any fun t => tidFlock t = f)

/-- R269, R284: a thread may join a group that a thread stands for: ready at its clause and index, of its
workgroup, its fields met, listed in its core's PC table, of the same meeting if either was just released from
one. -/
def joins (h : W64) (a t : Nat) : Bool :=
  let x := s.thread a
  let y := s.thread t
  y.st = .ready && y.wg = x.wg && y.pc = x.pc && y.idx = x.idx && s.fieldsMet h t && s.listed t &&
    (y.met.map (·.id)) = (x.met.map (·.id)) && (!hdrFu h || tidFlock t = tidFlock a)

/-- R270: of two ready threads in one lane, the one that the group takes. -/
def olderOf (a b : Nat) : Bool :=
  let x := (s.thread a).age
  let y := (s.thread b).age
  decide (x < y) || (x = y && decide (tidSlot a ≤ tidSlot b))

/-- R284: the threads of a meeting that are still to go from one clause. -/
def metThreads (m : Met) : List Nat :=
  (s.threads.filter fun x => match x.2.met with | some y => y.id = m.id && y.clause = m.clause | none => false).map (·.1)

/-- R284: a group of released threads is whole, or its time is up. -/
def metWhole (h : W64) (a : Nat) (ts : List Nat) : Bool :=
  match (s.thread a).met with
  | none => true
  | some m =>
    let here := (s.metThreads m).filter (s.joins h a)
    here.all ts.contains && (decide (here.length = m.n) || decide (m.at_ + 4096 ≤ s.cyc))

/-- R257, R269, R401: a workgroup's threads may be taken into groups. -/
def mayGroup (t : Nat) : Bool :=
  let w := s.wgOf t
  !(w.halted && !(s.thread t).stepping) &&
    (isCp t || (!(s.core w.core).loads.contains w.id && !(s.quad (coreQuad w.core)).handover && !(s.quad (coreQuad w.core)).hot))

/-- R275 rule 1: a thread ready for more than 4,096 cycles at a clause that has not issued. -/
def threadOverdue (t : Nat) : Bool := (s.thread t).idx = 0 && decide ((s.thread t).age + 4096 < s.cyc)

/-- R276: this is the cycle after the one in which the thread's clause yielded. -/
def justYielded (t : Nat) : Bool :=
  match (s.thread t).yielded with
  | some c => decide (s.cyc ≤ c + 1)
  | none => false

/-- R275, R276: of two ready threads of one workgroup, the one goes before the other. -/
def threadBefore (a b : Nat) : Bool :=
  if s.threadOverdue a ≠ s.threadOverdue b then s.threadOverdue a
  else if !s.threadOverdue a && s.justYielded a ≠ s.justYielded b then s.justYielded b
  else decide ((s.thread a).age < (s.thread b).age)

/-- R272, R275: another ready thread of the flock, at an FU clause of its own that it may enter, goes before every
member of a group that would take the flock's state. -/
def flockTurn (ts : List Nat) : Bool :=
  match ts with
  | [] => true
  | a :: _ => !((s.threads.map (·.1)).any fun u =>
      tidFlock u = tidFlock a && (s.thread u).st = .ready && !ts.contains u && (s.thread u).met = none &&
        s.listed u && s.mayGroup u && ts.all (s.threadBefore u) &&
        match s.clauseFor u with
        | some (h, _) => hdrFu h && s.fieldsMet h u && s.flockFree (tidFlock u) (s.thread u).pc (s.thread u).idx
        | none => false)

/-- R270: threads that may form one group. -/
def groupOk (h : W64) (ts : List Nat) : Bool :=
  match ts with
  | [] => false
  | a :: _ =>
    let x := s.thread a
    decide (ts.length ≤ 32) && ts.all (fun t => s.hasThread t && s.joins h a t && s.mayGroup t) &&
      (ts.map tidLane).eraseDups.length = ts.length &&
      (!hdrFu h || (s.flockFree (tidFlock a) x.pc x.idx && s.flockTurn ts)) && s.metWhole h a ts &&
      ts.all fun t => (s.threads.filter fun y => tidLane y.1 = tidLane t && y.1 ≠ t && s.joins h a y.1).all fun y =>
        s.olderOf t y.1

/-- The members of a group in ascending lane order. -/
def byLane (ts : List Nat) : List Nat := sortBy (fun a b => decide (tidLane a ≤ tidLane b)) ts

/-- ISSUE_GROUP: ready threads form a group at their clause. -/
def formGroup (ts : List Nat) : State :=
  match ts with
  | [] => s
  | a :: _ =>
    match s.clauseFor a with
    | none => s
    | some (h, ws) =>
      if !s.groupOk h ts then s
      else
        let x := s.thread a
        match (if x.idx = 0 && !isCp a then s.breakAt (s.ctxOf a) x.pc else none) with
        | some n => s.breakThreads n x.pc ts
        | none =>
          if hdrN h < x.idx then ts.foldl (fun s t => s.trapClause t tcIllegalClause x.pc x.idx 0 0) s
          else
            let s := match x.met with
              | some m => (s.metThreads m).foldl (fun (s : State) t => s.modThread t fun y => { y with met := none }) s
              | none => s
            let (id, s) := s.newId
            let g : Group :=
              { id, core := tidCore a, wg := x.wg, pc := x.pc, hdr := h, words := ws, idx := x.idx, members := byLane ts
                blocked := false, stalled := false, part := [], yielding := false
                passed := ts.foldl (fun m t => max m (s.thread t).yielded) none
                age := ts.foldl (fun m t => min m (s.thread t).age) x.age }
            let s := ts.foldl (fun (s : State) t => s.modThread t fun y => { y with st := .running, yielded := none }) s
            { s.markFu g with groups := s.groups ++ [g] }

/-! ### HANDLER_ENTRY (R385) -/

/-- R385: every thread of a workgroup is parked, ended or blocked, and one is parked; a workgroup that is halted, or
being stopped, waits. -/
def entryDueAt (w : Nat) : Bool :=
  let ts := (s.threads.filter fun x => x.2.wg = w).map (·.2)
  !(s.wg w).halted && !(s.quad (coreQuad (s.wg w).core)).handover && ts.all (fun t => t.st = .parked || t.st = .ended || t.st = .blocked) && ts.any fun t => t.st = .parked

/-- R385: the parked threads of a workgroup enter their handler. Where HANDLER has become 0 since the trap was raised
there is none to enter, and the context is killed as R386 kills it (notes/assumptions/29.md). -/
def enterIfDue (w : Nat) : State :=
  if !s.entryDueAt w then s
  else if (s.ctx (s.wg w).ctx).words.handlerPc = 0 then s.kill (s.wg w).ctx 2 tcBreakpoint 7 0 0
  else s.enterHandler w

end State

/-- R385: every workgroup whose moment has come enters its handler, in the order of their numbers. -/
def State.enterAll (s : State) : State :=
  ((s.threads.filter fun x => x.2.st = .parked).map fun x => x.2.wg).eraseDups.foldl (fun s w => s.enterIfDue w) s

/-- CLAUSE_FETCH (R44 to R49, R51, R403). -/
def execClauseFetch (core ctx : Nat) (addr : W64) (old : BitVec 17) (s : State) : Result :=
  .next (s.fetchClause core ctx addr old)

/-- ISSUE_GROUP (R46, R270 to R274, R284). -/
def execIssueGroup (members : List Nat) (s : State) : Result := .next (s.formGroup members)

/-- HANDLER_ENTRY (R385). -/
def execHandlerEntry (wg : Nat) (s : State) : Result := .next (s.enterIfDue wg)

end Sys2Proof.Machine
end

