-- ==== Sys2Proof/Machine/SaveArea.lean ====
section
/-!
DEFINITION. The save area of a context (14 R394, R395; 05 R154; 09 R267; 11 R323): the records of its sections, which
are written from the saved workgroups and read back into them, since a debugger may change them there (R402) and another
package lands them (R405). R394 says what a record holds and how long it is; where no rule places its fields, they stand
packed in the order of the lists below, from bit 0 on, and what does not fit into a record follows section 14
(notes/assumptions/79.md).
-/

namespace Sys2Proof.Machine

/-! ### Packed fields -/

/-- Fields of a record from its lowest bit on: each a width and a value. -/
abbrev Fields := List (Nat × Nat)

def packFields : Fields → Nat
  | [] => 0
  | (n, v) :: t => v % 2 ^ n + 2 ^ n * packFields t

/-- A record of n bytes. -/
def recordBytes (n : Nat) (f : Fields) : List Byte := natLe n (packFields f)

def Fields.widths (f : Fields) : List Nat := f.map (·.1)

def cutFields : List Nat → Nat → List Nat
  | [], _ => []
  | n :: t, v => v % 2 ^ n :: cutFields t (v / 2 ^ n)

/-- The i-th field of a record that is laid out as a sample is. -/
def fieldIn (sample : Fields) (v i : Nat) : Nat := (cutFields sample.widths v).getD i 0

def flagBit (b : Bool) : Nat := if b then 1 else 0

/-- The numbers below n of a list, as a mask, and back. -/
def maskOf (n : Nat) (l : List Nat) : Nat := (upTo n).foldl (fun a i => if l.contains i then a + 2 ^ i else a) 0
def maskList (n v : Nat) : List Nat := (upTo n).filter fun i => natBit v i

/-- A canonical address from its low 56 bits (R358). -/
def addr56 (n : Nat) : W64 := BitVec.ofInt 64 (signExt n 56)

/-- A clause address, which is a multiple of 8 (R45), in 53 bits. -/
def clauseField (pc : W64) : Nat × Nat := (53, pc.toNat / 8)
def clauseOf (n : Nat) : W64 := addr56 (8 * n)

/-! ### Part of a section -/

/-- Bytes, or a run of bytes that are zero but for those listed by offset. -/
inductive SavePiece where
  | bytes (l : List Byte)
  | sparse (n : Nat) (m : Memory)
  deriving DecidableEq, Repr

def pieceLen : SavePiece → Nat
  | .bytes l => l.length
  | .sparse n _ => n

def piecesLen (l : List SavePiece) : Nat := l.foldl (fun n p => n + pieceLen p) 0

/-! ### Numbers within a workgroup -/

/-- A thread's number within its workgroup, and back. -/
def Wg.indexOf (w : Wg) (t : Nat) : Nat := (tidSlot t - w.slot) * 32 + tidLane t
def Wg.threadAt (w : Wg) (i : Nat) : Nat := mkTid w.core (w.slot + i / 32) (i % 32)

/-- A saved workgroup with nothing in it. -/
def SavedWg.none (w : Wg) : SavedWg :=
  { wg := w, threads := [], flocks := [], groups := [], lists := [], flushes := [], cmds := [], cb := [], residue := []
    poison := [], book := false }

/-! ### Type 1: workgroups (64 bytes) -/

/-- The record of a workgroup: its launch's slot in section 13, and the save it belongs to. -/
def wgFields (launch save : Nat) (held : Bool) (x : SavedWg) : Fields :=
  let w := x.wg
  [(16, launch), (32, w.wgid), (32, w.point), (8, w.core), (6, w.slot), (7, w.nflock), (9, w.tiles), (5, w.bars),
    (1, flagBit w.committed), (1, flagBit w.restartable), (1, flagBit w.checked), (2, w.prio), (32, w.stage.toNat),
    (1, flagBit w.halted), (1, flagBit w.ended), (16, maskOf 16 (x.cb.map (·.1))), (1, flagBit x.book), (64, maskOf 64 w.released),
    (8, w.regs), (64, w.argp.toNat), (32, w.argsz.toNat), (64, w.contrec.toNat), (64, w.sched.toNat), (7, w.nsched),
    (16, save), (1, flagBit held)]

/-- What of a workgroup a debugger may change. -/
def applyWg (f : Nat → Nat) (w : Wg) : Wg :=
  { w with
    committed := f 8 = 1, restartable := f 9 = 1, checked := f 10 = 1, prio := f 11, stage := BitVec.ofNat 32 (f 12)
    halted := f 13 = 1, released := maskList 64 (f 17), argp := BitVec.ofNat 64 (f 19), argsz := BitVec.ofNat 32 (f 20)
    contrec := BitVec.ofNat 64 (f 21), sched := BitVec.ofNat 64 (f 22), nsched := f 23 }

/-- A workgroup that only its record describes. -/
def placeWg (f : Nat → Nat) (w : Wg) : Wg :=
  applyWg f { w with
    wgid := f 1, point := f 2, core := f 3, slot := f 4, nflock := f 5, tiles := f 6, bars := f 7, ended := f 14 = 1, regs := f 18 }

/-! ### Types 2 and 3: threads (R395) and flocks -/

/-- R395: the state code of a saved thread. -/
def stateCode (x : Thread) : Nat :=
  match x.st with
  | .ended => 6
  | .parked => 3
  | _ =>
    if x.wait.isSome || x.carry.isSome then 2
    else if x.handler then 4
    else match x.st with
      | .running => 5
      | .stalled => 1
      | _ => 0

/-- R395: the cycles left in the current wait of a saved thread. -/
def cyclesField (x : Thread) : Nat :=
  let cap (d : Option Nat) : Nat := match d with | some k => min k (2 ^ 32 - 2) | none => 2 ^ 32 - 1
  match x.wait, x.carry with
  | some w, _ => cap w.deadline
  | none, some d => cap d
  | none, none => 0

/-- R395: the saved p of BARW or BARAW. -/
def phaseField (x : Thread) : Nat :=
  match x.wait with
  | some w => (match w.kind with | .phase _ p => p.toNat | _ => 0)
  | none => 0

/-- R395: a thread record. -/
def threadRecord (w : Wg) (i : Nat) (x : Thread) : List Byte :=
  natLe 8 x.pc.toNat ++ natLe 1 (x.idx + 16 * stateCode x) ++ natLe 1 (x.p.toNat + (if x.trapped then 128 else 0)) ++
    natLe 2 (w.slot * 32 + i) ++ natLe 4 x.ocnt.toNat ++ natLe 4 (cyclesField x) ++ natLe 4 (phaseField x) ++
    natLe 8 x.floor ++ List.replicate 32 0 ++ (x.g.toList.take w.regs).flatMap fun v => natLe 4 v.toNat

/-- The flock state. -/
def fuFields (fu : Option (W64 × Nat)) : Fields :=
  match fu with
  | some (pc, i) => [(1, 1), (4, i), clauseField pc]
  | none => [(1, 0), (4, 0), (53, 0)]

/-- R394: a flock record. -/
def flockRecord (f : Flock) : List Byte :=
  f.w.toList.flatMap (fun v => natLe 4 v.toNat) ++ (f.k.toList.flatMap fun k => natLe 4 k.m.toNat ++ natLe 4 k.v.toNat) ++
    recordBytes 8 (fuFields f.fu)

/-! ### Type 4: barrier entries (32 bytes) -/

def errCode (e : Option DefErr) : Nat := match e with | some x => 256 + x.code % 256 | none => 0

/-- The record of an entry of a workgroup, or of a team, by its launch's slot and the number of the group there. -/
def barFields (team : Bool) (launch num reg : Nat) (b : BarSt) : Fields :=
  [(1, flagBit team), (16, launch), (32, num), (5, reg), (14, b.count), (14, b.n), (1, flagBit b.sig), (32, b.p.toNat),
    (9, errCode b.cur), (9, errCode b.err)]

/-! ### Accesses and deferred errors -/

def okOr {α : Type} (d : α) (e : Except Reject α) : α := match e with | .ok x => x | .error _ => d

/-- The operation of an access: its kind, its size or operation, its type, its data and what CAS compares with. -/
def opFields : AccOp → Fields
  | .load z => [(3, 0), (4, z.toBits.toNat), (4, 0), (128, 0), (128, 0)]
  | .store z d => [(3, 1), (4, z.toBits.toNat), (4, 0), (128, d), (128, 0)]
  | .stbq z d => [(3, 2), (4, z.toBits.toNat), (4, 0), (128, d), (128, 0)]
  | .atom o t b => [(3, 3), (4, o.toBits.toNat), (4, t.toBits.toNat), (128, b), (128, 0)]
  | .red o t b => [(3, 4), (4, o.toBits.toNat), (4, t.toBits.toNat), (128, b), (128, 0)]
  | .cas t c n => [(3, 5), (4, 0), (4, t.toBits.toNat), (128, n), (128, c)]
  | .penq a => [(3, 6), (4, flagBit a.isSome), (4, 0), (128, a.getD 0), (128, 0)]

def opOf (k o t d c : Nat) : AccOp :=
  let z := okOr .b32 (Size.ofBits (BitVec.ofNat 3 o))
  let a := okOr .add (Aop.ofBits (BitVec.ofNat 4 o))
  let y := okOr .s32 (Aty.ofBits (BitVec.ofNat 4 t))
  match k with
  | 0 => .load z
  | 1 => .store z d
  | 2 => .stbq z d
  | 3 => .atom a y d
  | 4 => .red a y d
  | 5 => .cas y c d
  | _ => .penq (if o = 0 then none else some d)

def scopeCode (x : Option Scope) : Nat := match x with | some y => y.toBits.toNat + 1 | none => 0
def scopeOf (n : Nat) : Option Scope := if n = 0 then none else some (okOr .wg (Scope.ofBits (BitVec.ofNat 3 (n - 1))))

/-- An access that has failed, as ERET with retry issues it again. -/
def accessFields (a : Access) : Fields :=
  opFields a.op ++ [(8, a.dst.toBits.toNat), (4, scopeCode a.acq), (4, scopeCode a.rel), (2, a.hint.toBits.toNat), (1, flagBit a.sc),
    (1, flagBit a.wb), (1, flagBit a.ord), (64, a.va.toNat), (64, a.pc.toNat), (4, a.idx)]

/-- A store with nothing in it. -/
def Access.blank (core ctx : Nat) : Access :=
  { id := 0, tids := [], core, ctx, pc := 0, idx := 0, va := 0, pa := 0, op := .load .b32, dst := .zero, acq := none
    rel := none, hint := .dflt, sc := false, wb := false, ord := false, sent := 0, cycle := 0, nth := [], seen := false }

/-- An access read from the fields at a place of a record. -/
def accessOf (core ctx : Nat) (f : Nat → Nat) : Access :=
  { Access.blank core ctx with
    op := opOf (f 0) (f 1) (f 2) (f 3) (f 4), dst := okOr .zero (Reg.ofBits (BitVec.ofNat 8 (f 5)))
    acq := scopeOf (f 6), rel := scopeOf (f 7), hint := Retain.ofBits (BitVec.ofNat 2 (f 8)), sc := f 9 = 1, wb := f 10 = 1
    ord := f 11 = 1, va := BitVec.ofNat 64 (f 12), pc := BitVec.ofNat 64 (f 13), idx := f 14 }

def ctrCode : Ctr → Nat
  | .ld => 0 | .st => 1 | .cp => 2 | .tl => 3

def ctrOf : Nat → Ctr
  | 0 => .ld | 1 => .st | 2 => .cp | _ => .tl

/-- A deferred error of a thread, or the error record of a barrier register; `back` is how many later operations its
thread has issued on the same counter. -/
def errFields (back : Nat) (e : DefErr) : Fields :=
  [(8, e.code), (2, ctrCode e.ctr), (32, back), (64, e.apc.toNat), (4, e.aidx), (9, e.entry), (64, e.addr.toNat), (12, e.onode),
    (12, e.oport), (1, flagBit e.lowers), (1, flagBit e.again.isSome), (1, flagBit e.acc.isSome)] ++
    accessFields ((e.acc.orElse fun _ => e.again).getD (Access.blank 0 0))

/-- A deferred error read from the fields at a place of a record. -/
def errOf (core ctx id nth : Nat) (f : Nat → Nat) : DefErr :=
  let a := accessOf core ctx fun i => f (12 + i)
  { id, code := f 0, ctr := ctrOf (f 1), nth := nth - f 2, apc := BitVec.ofNat 64 (f 3), aidx := f 4, entry := f 5
    addr := BitVec.ofNat 64 (f 6), onode := f 7, oport := f 8, lowers := f 9 = 1, again := if f 10 = 1 then some a else none
    acc := if f 11 = 1 then some a else none, age := id, op := none }

/-! ### Type 5: tiles -/

/-- The header of a tile: its workgroup's record, its number, its state and the pins on it. -/
def tileFields (wg n : Nat) (r : TileRec) : Fields :=
  [(16, wg), (16, n), (1, flagBit r.full), (8, r.fill), (8, r.drain), (16, r.pin)]

/-- R394 type 5: the tiles of a workgroup that are not empty. -/
def savedTiles (w : Wg) : List Nat :=
  (upTo w.tiles).filter fun t => match tget w.tile t with
    | some r => r.full || r.fill ≠ 0 || r.drain ≠ 0 || r.pin ≠ 0
    | none => false

/-! ### Type 6: engine images (R154) -/

/-- R154: bytes of an image: two planes of 105 KiB each, and the accumulators. -/
def planeBytes : Nat := 98304 + 8192 + 1024
def imageBytes : Nat := 2 * planeBytes + 16 * 65536

/-- The header of an image: the save it belongs to, the tags of its planes, and whether it is poisoned (R398). -/
def imageFields (save : Nat) (m : EngImage) (tainted : Bool) : Fields :=
  [(16, save), (8, m.active.fb), (8, m.active.spn), (8, m.shadow.fb), (8, m.shadow.spn), (1, flagBit tainted)]

def shifted (by_ : Nat) (m : Memory) : Memory := m.map fun c => (c.1 + by_, c.2)

/-- The stores of a plane from an offset on. -/
def planeCells (o : Nat) (p : Plane) : Memory :=
  shifted o p.elems ++ shifted (o + 98304) p.scales ++ shifted (o + 106496) p.maps

/-- An image's bytes that are not zero. -/
def imageCells (m : EngImage) : Memory :=
  planeCells 0 m.active ++ planeCells planeBytes m.shadow ++
    m.acc.flatMap fun x => ((upTo 16).zip (natLe 16 x.2.toNat)).filterMap fun b =>
      if b.2 = 0 then none else some (2 * planeBytes + 16 * x.1 + b.1, b.2)

/-- The cells of a memory in a span, from 0 on. -/
def cellsIn (m : Memory) (lo n : Nat) : Memory :=
  (m.filter fun c => decide (lo ≤ c.1) && decide (c.1 < lo + n)).map fun c => (c.1 - lo, c.2)

def planeOf (m : Memory) (o fb spn : Nat) : Plane :=
  ⟨cellsIn m o 98304, cellsIn m (o + 98304) 8192, cellsIn m (o + 106496) 1024, fb, spn⟩

/-- The accumulators of an image's bytes. -/
def accOf (m : Memory) : Tbl (BitVec 128) :=
  let l := cellsIn m (2 * planeBytes) (16 * 65536)
  ((l.map fun c => c.1 / 16).eraseDups).map fun i => (i, BitVec.ofNat 128 (mnat l (16 * i) 16))

/-! ### Type 8: copy commands (128 bytes) -/

/-- R267: the operands of a command, after its kind. -/
def kindFields : CopyKind → Fields
  | .linear src dst len rows ss ds dsp ssp cb mc =>
      [(2, 0), (64, wrapNat src 64), (64, wrapNat dst 64), (32, len), (32, rows), (32, wrapNat ss 32), (32, wrapNat ds 32),
        (3, dsp.toBits.toNat), (3, ssp.toBits.toNat), (1, flagBit cb.isSome), (4, cb.getD 0), (4, mc)]
  | .tensor d va step box coords team st mc =>
      [(2, if va.isSome then 1 else 2), (512, match va with | some a => a.toNat | none => d), (64, wrapNat step 64), (32, box)] ++
        ((upTo 5).map fun i => (32, wrapNat (coords.getD i 0) 32)) ++
        [(3, coords.length), (1, flagBit team), (1, flagBit st), (4, mc)]
  | .signal src dst len dsp ssp cb v va =>
      [(2, 3), (64, wrapNat src 64), (64, wrapNat dst 64), (32, len), (3, dsp.toBits.toNat), (3, ssp.toBits.toNat),
        (1, flagBit cb.isSome), (4, cb.getD 0), (32, v.toNat), (64, va.toNat)]

/-- Commands of each kind, for the widths of their fields. -/
def kindSample (tag : Nat) : CopyKind :=
  match tag with
  | 0 => .linear 0 0 0 0 0 0 .glob .glob none 0
  | 1 => .tensor 0 (some 0) 0 0 [] false false 0
  | 2 => .tensor 0 none 0 0 [] false false 0
  | _ => .signal 0 0 0 .glob .glob none 0 0

/-- R267: a command's operands read back. -/
def kindOf (v : Nat) : CopyKind :=
  let tag := v % 4
  let f := fieldIn (kindFields (kindSample tag)) v
  let at_ (i n : Nat) : Int := signExt (f i) n
  let sp (i : Nat) : Space := okOr .glob (Space.ofBits (BitVec.ofNat 3 (f i)))
  let cb (i : Nat) : Option Nat := if f i = 1 then some (f (i + 1)) else none
  let tensor (d : Nat) (va : Option W64) : CopyKind :=
    .tensor d va (at_ 2 64) (f 3) ((upTo (f 9)).map fun i => at_ (4 + i) 32) (f 10 = 1) (f 11 = 1) (f 12)
  match tag with
  | 0 => .linear (at_ 1 64) (at_ 2 64) (f 3) (f 4) (at_ 5 32) (at_ 6 32) (sp 7) (sp 8) (cb 9) (f 11)
  | 1 => tensor 0 (some (BitVec.ofNat 64 (f 1)))
  | 2 => tensor (f 1) none
  | _ => .signal (at_ 1 64) (at_ 2 64) (f 3) (sp 4) (sp 5) (cb 6) (BitVec.ofNat 32 (f 8)) (BitVec.ofNat 64 (f 9))

/-- The head of a command's record: its stage, its thread or schedule entry, its workgroup's record, why it is refused, its
barrier register, its instruction, and its progress (R267). -/
def cmdHead (wg back : Nat) (m : Cmd) : Fields :=
  [(1, flagBit (m.stage = .paused)), (1, flagBit m.tid.isSome), (11, m.tid.getD 0), (9, m.entry), (16, wg), (1, flagBit m.bad.isSome),
    (8, (m.bad.map (·.1)).getD 0), (1, flagBit m.bar.isSome), (1, m.bar.getD 0 / 32 % 2), (5, m.bar.getD 0 % 32), clauseField m.pc,
    (4, m.idx), (32, back), (64, m.done)]

/-- Bits of the head of a command's record. -/
def cmdHeadBits : Nat := 207

/-- R394 type 8: a command; one that is refused whatever it names has the address of its report for operands. -/
def cmdFields (wg back : Nat) (m : Cmd) : Fields :=
  cmdHead wg back m ++ match m.bad with
    | some x => [(64, x.2.toNat)]
    | none => kindFields m.kind

/-- The key of a workgroup's barrier register, or of its team's. -/
def barKeyOf (w : Wg) (team reg : Nat) : Nat :=
  if team = 1 then (2 * w.team.getD 0 + 1) * 32 + reg else 2 * w.id * 32 + reg

def Cmd.blank (id : Nat) (w : Wg) : Cmd :=
  { id, stage := .issued, tid := none, entry := 0, wg := w.id, ctx := w.ctx, kind := kindSample 0, bad := none, bar := none, pc := 0
    idx := 0, nth := 0, fills := [], drains := [], empties := [], pages := [], takes := [], owns := [], since := 0, done := 0 }

/-- A command as its record has it; `nth` places its report among its thread's commands. -/
def applyCmd (w : Wg) (v : Nat) (nth : Nat → Nat → Nat) (m : Cmd) : Cmd :=
  let f := fieldIn (cmdHead 0 0 (Cmd.blank 0 w)) v
  let rest := v / 2 ^ cmdHeadBits
  let tid := if f 1 = 1 then some (f 2) else none
  { m with
    stage := if f 0 = 1 then .paused else .issued, tid, entry := f 3
    bad := if f 5 = 1 then some (f 6, BitVec.ofNat 64 (rest % 2 ^ 64)) else none
    bar := if f 7 = 1 then some (barKeyOf w (f 8) (f 9)) else none
    pc := clauseOf (f 10), idx := f 11, nth := nth (f 2) (f 12), done := f 13
    kind := if f 5 = 1 then m.kind else kindOf rest }

/-! ### Type 9: send lists and flushes (R262, R263) -/

def sndResCode : SndRes → Nat
  | .waiting => 0 | .primary => 1 | .refused => 2 | .alternate => 3 | .dropped => 4 | .invalid => 5

def sndResOf : Nat → SndRes
  | 0 => .waiting | 1 => .primary | 2 => .refused | 3 => .alternate | 4 => .dropped | _ => .invalid

/-- The header of a list, or of a flush, which has one more entry. -/
def sendFields (wg : Nat) (flush : Bool) (list n tid idx : Nat) (recVa : W64) : Fields :=
  [(16, wg), (1, flagBit flush), (4, list), (8, n), (11, tid), (4, idx), (64, recVa.toNat)]

/-- An entry of a list, with its outcome and what has been sent of it. -/
def sndFields (e : SndEnt) (r : SndRes) (first alt : Bool) : Fields :=
  [(64, e.row.toNat), (64, e.pen.toNat), (64, (e.alt.getD 0).toNat), (1, flagBit e.alt.isSome), (1, flagBit e.scratch), (14, e.bytes),
    (3, sndResCode r), (1, flagBit first), (1, flagBit alt)]

def sndBlank : SndEnt := ⟨0, false, 0, none, 0⟩

def sndOf (f : Nat → Nat) : SndEnt :=
  { row := BitVec.ofNat 64 (f 0), pen := BitVec.ofNat 64 (f 1), alt := if f 3 = 1 then some (BitVec.ofNat 64 (f 2)) else none
    scratch := f 4 = 1, bytes := f 5 }

/-- The records of a workgroup's list. -/
def listBytes (wg list : Nat) (l : List SndEnt) : List Byte :=
  recordBytes 16 (sendFields wg false list l.length 0 0 0) ++ l.flatMap fun e => recordBytes 32 (sndFields e .waiting false false)

/-- The records of a flush: its header, the clause of its SNDF with its place among its thread's commands, and its
entries. -/
def flushBytes (wg back : Nat) (f : Flush) : List Byte :=
  recordBytes 16 (sendFields wg true 0 f.ents.length f.tid f.idx f.recVa) ++ recordBytes 32 [clauseField f.pc, (32, back)] ++
    (f.ents.zip (upTo f.ents.length)).flatMap fun e =>
      recordBytes 32 (sndFields e.1 (f.res.getD e.2 .waiting) (f.firsts.contains e.2) (f.alts.contains e.2))

/-! ### Type 10: residue (160 bytes) -/

/-- The address of a residue record: its line, its thread's record, its instruction and its page's and hint bits. -/
def residueFields (thread : Nat) (a : Access) : Fields :=
  [(49, a.va.toNat / 128), (19, thread), (4, a.idx), (2, a.hint.toBits.toNat), (1, flagBit a.wb), clauseField a.pc]

/-- R394 type 10: address, mask and line. -/
def residueBytes (thread : Nat) (a : Access) : List Byte :=
  let o := a.va.toNat % 128
  let n := a.op.len
  recordBytes 16 (residueFields thread a) ++ natLe 16 ((2 ^ n - 1) * 2 ^ o) ++ List.replicate o 0 ++ natLe n a.op.data ++
    List.replicate (128 - o - n) 0

/-! ### Type 11: trap records (64 bytes) -/

/-- The six registers of R383 with the thread's record. -/
def trapFields (thread : Nat) (r : TrapRec) : Fields :=
  [(32, r.tcode.toNat), (64, r.tpc.toNat), (32, r.tidx.toNat), (64, r.taddr.toNat), (64, r.tapc.toNat), (64, r.tinfo.toNat), (32, thread)]

def trapOf (f : Nat → Nat) : TrapRec :=
  ⟨BitVec.ofNat 32 (f 0), BitVec.ofNat 64 (f 1), BitVec.ofNat 32 (f 2), BitVec.ofNat 64 (f 3), BitVec.ofNat 64 (f 4),
    BitVec.ofNat 64 (f 5)⟩

/-! ### Types 12 and 13: codebooks and launches -/

def bookFields (slot wg : Nat) : Fields := [(16, slot), (16, wg)]

/-- The progress of a launch: the die that validated it, and its points fired and complete (R317). -/
def launchFields (l : Launch) : Fields := [(1, l.die), (40, l.next), (40, l.complete)]

/-! ### What does not fit (notes/assumptions/79.md) -/

/-- A further record of 128 bytes, of a kind and about a record by its number. -/
def extraBytes (kind num : Nat) (f : Fields) : List Byte := recordBytes 128 ((4, kind) :: (32, num) :: f)

/-- Kind 1: what a thread has besides its record. -/
def threadRest (x : Thread) : Fields :=
  [(32, x.osel.toNat), (32, x.ostat.toNat), (1, flagBit x.done), (1, flagBit x.contd), (1, flagBit x.retry.isSome)] ++
    accessFields (x.retry.getD (Access.blank 0 0))

/-- A thread that has something besides its record and its deferred errors. -/
def hasRest (x : Thread) : Bool := x.osel ≠ 0 || x.ostat ≠ 0 || x.done || x.contd || x.retry.isSome

/-- Kind 3: a point of a launch in flight. -/
def pointFields (p : PointSt) : Fields := [(40, p.lin), (32, p.col), (32, p.h), (1, flagBit p.held)]

/-- Kind 4: which of 448 workgroups of a point are still to be placed, and which have finished. -/
def chunkFields (p : PointSt) (k : Nat) : Fields :=
  let mask (l : List Nat) : Nat := maskOf 448 ((l.filter fun i => i / 448 = k).map (· % 448))
  [(40, p.lin), (32, k), (448, mask p.todo), (448, mask p.finished)]

/-- The points of a launch that its workgroups' records do not tell whole. -/
def pointExtras (slot : Nat) (l : Launch) : List (List Byte) :=
  if l.points.all fun p => p.todo = [] && p.finished = [] then []
  else l.points.flatMap fun p => extraBytes 3 slot (pointFields p) ::
    (((p.todo ++ p.finished).map (· / 448)).eraseDups.map fun k => extraBytes 4 slot (chunkFields p k))

def poisonFields : Poison → Fields
  | .line n c => [(2, 0), (64, n), (32, flagBit c)]
  | .reg t r => [(2, 1), (64, t), (32, r)]
  | .scratch _ t => [(2, 2), (64, t), (32, 0)]
  | .engine q => [(2, 3), (64, q), (32, 0)]
  | .store n => [(2, 3), (64, n), (32, 1)]

/-- Where the records of the next workgroup stand: numbers of records, and offsets from SAVE for records of various
lengths. -/
structure ReadPos where
  wg : Nat
  thread : Nat
  threadAt : Nat
  flock : Nat
  tile : Nat
  cmd : Nat
  sendAt : Nat
  res : Nat
  book : Nat
  deriving DecidableEq, Repr

/-- Saved workgroups with the numbers of their own record and of their first thread's. -/
def numbered : List SavedWg → Nat → Nat → List (SavedWg × Nat × Nat)
  | [], _, _ => []
  | x :: t, k, n => (x, k, n) :: numbered t (k + 1) (n + x.threads.length)

namespace State

variable (s : State)

/-! ### What is saved of a context -/

/-- The workgroups of a context in the save area. -/
def savedOf (c : Nat) : List SavedQuad := s.saved.filter fun x => x.ctx = c
def savedWgs (c : Nat) : List SavedWg := (s.savedOf c).flatMap (·.wgs)

/-- The launches of section 13, and a launch's place there. -/
def savedLaunches (c : Nat) : List Launch := s.launches.filter fun l => l.ctx = c && !l.reserved
def launchSlot (c id : Nat) : Nat := (s.savedLaunches c).findIdx (·.id = id)

/-- A workgroup, on a quad or saved. -/
def wgAny (id : Nat) : Option Wg :=
  (tget s.wgs id).orElse fun _ => ((s.saved.flatMap (·.wgs)).find? fun x => x.wg.id = id).map (·.wg)

/-- R289: the count with which the entries of a group start. -/
def barStart (tag : Nat) : Nat :=
  if tag % 2 = 0 then (match s.wgAny (tag / 2) with | some w => 32 * w.nflock | none => 0)
  else match tget s.teams (tag / 2) with
    | some t => t.threads
    | none => 0

/-- R394 type 4, R396: entries of a context that no quad's table holds, and that are not as they started. -/
def savedBars (c : Nat) : List (Nat × BarSt) :=
  s.bars.filter fun b => b.2.ctx = c && !b.2.resident &&
    (b.2.touched ≠ 0 || b.2.n ≠ 0 || b.2.p ≠ 0 || b.2.cur.isSome || b.2.err.isSome || b.2.count ≠ s.barStart (b.1 / 32))

/-- The record of a barrier entry. -/
def barRecord (c : Nat) (b : Nat × BarSt) : List Byte :=
  let tag := b.1 / 32
  let name : Nat × Nat :=
    if tag % 2 = 0 then (match s.wgAny (tag / 2) with | some w => (s.launchSlot c w.launch, w.wgid) | none => (0, 0))
    else match tget s.teams (tag / 2) with
      | some t => (s.launchSlot c t.launch, t.unit)
      | none => (0, 0)
  recordBytes 32 (barFields (tag % 2 = 1) name.1 name.2 (b.1 % 32) b.2)

/-- How many later operations a saved thread has issued on a counter. -/
def opsBack (x : SavedWg) (k : Ctr) (tid nth : Nat) : Nat :=
  match tget x.threads tid with
  | some t => t.nth k - nth
  | none => 0

/-- R394: the sections of a context's save, in type order: the record count and the bytes. -/
def saveSections (c : Nat) : List (Nat × List SavePiece) :=
  let qs := (s.savedOf c).zip (upTo (s.savedOf c).length)
  let ws := numbered (s.savedWgs c) 0 0
  let owners := qs.flatMap fun q => q.1.wgs.map fun _ => (q.2, q.1.halted)
  let ls := s.savedLaunches c
  let fs := ls.filter fun l => rcNdep l.record ≠ 0
  let bars := s.savedBars c
  let tiles := ws.flatMap fun w => (savedTiles w.1.wg).map fun t => (w, t)
  let threads := ws.flatMap fun w => (w.1.threads.zip (upTo w.1.threads.length)).map fun t => (w.1.wg, t.1, w.2.2 + t.2)
  let flocks := ws.flatMap (·.1.flocks)
  let images := qs.filterMap fun q => q.1.image.map fun m => (q.2, m, q.1.tainted)
  let cmds := ws.flatMap fun w => w.1.cmds.map fun m => (w, m)
  let sends := ws.flatMap fun w =>
    (w.1.lists.map fun l => listBytes w.2.1 (l.1 % 16) l.2) ++
      w.1.flushes.map fun f => flushBytes w.2.1 (opsBack w.1 .cp f.tid f.nth) f
  let res := ws.flatMap fun w => w.1.residue.map fun a => residueBytes (w.2.2 + a.tids.headD 0) a
  let traps := threads.filter fun t => t.2.1.2.trapped
  let books := ws.flatMap fun w => w.1.cb.map fun b => (w.2.1, b)
  [(ws.length, (ws.zip owners).map fun w => .bytes (recordBytes 64 (wgFields (s.launchSlot c w.1.1.wg.launch) w.2.1 w.2.2 w.1.1))),
   (threads.length, threads.map fun t => .bytes (threadRecord t.1 t.2.1.1 t.2.1.2)),
   (flocks.length, flocks.map fun f => .bytes (flockRecord f.2)),
   (bars.length, bars.map fun b => .bytes (s.barRecord c b)),
   (tiles.length, tiles.flatMap fun t =>
     [.bytes (recordBytes 16 (tileFields t.1.2.1 t.2 ((tget t.1.1.wg.tile t.2).getD .empty))),
       .bytes (mbytes t.1.1.wg.scr (t.2 * 4096) 4096)]),
   (images.length, images.flatMap fun m => [.bytes (recordBytes 16 (imageFields m.1 m.2.1 m.2.2)), .sparse imageBytes (imageCells m.2.1)]),
   (fs.length, fs.map fun l => .bytes (frontierSave l)),
   (cmds.length, cmds.map fun m => .bytes (recordBytes 128 (cmdFields m.1.2.1 (opsBack m.1.1 .cp (m.2.tid.getD 0) m.2.nth) m.2))),
   (sends.length, sends.map .bytes),
   (res.length, res.map .bytes),
   (traps.length, traps.map fun t => .bytes (recordBytes 64 (trapFields t.2.2 t.2.1.2.trap))),
   (books.length, books.flatMap fun b => [.bytes (recordBytes 16 (bookFields b.2.1 b.1)), .bytes (mbytes b.2.2.data 0 4096)]),
   (ls.length, ls.flatMap fun l => [.bytes l.record, .bytes (recordBytes 64 (launchFields l))]),
   (1, [.bytes (natLe 8 (s.ctx c).fstat.toNat)])]

/-- What follows section 14: deferred errors (kind 0), the rest of a thread (1), error records of barrier registers
(2), points of launches (3, 4), the dies that they keep to (5), points complete above H (6) and poison (7). -/
def saveExtras (c : Nat) : List Byte :=
  let ws := numbered (s.savedWgs c) 0 0
  let ls := s.savedLaunches c
  let bars := s.savedBars c
  let threads := ws.flatMap fun w => (w.1.threads.zip (upTo w.1.threads.length)).map fun t => (w.2.2 + t.2, t.1.2)
  let errs := threads.flatMap fun t => t.2.errs.map fun e => extraBytes 0 t.1 (errFields (t.2.nth e.ctr - e.nth) e)
  let rest := (threads.filter fun t => hasRest t.2).map fun t => extraBytes 1 t.1 (threadRest t.2)
  let phases := (bars.zip (upTo bars.length)).flatMap fun b =>
    ([(0, b.1.2.cur), (1, b.1.2.err)].filterMap fun e => e.2.map fun x => extraBytes 2 b.2 ((1, e.1) :: errFields 0 x))
  let points := (ls.zip (upTo ls.length)).flatMap fun l => pointExtras l.2 l.1 ++
    (l.1.pins.map fun p => extraBytes 5 l.2 [(40, p.1), (1, p.2)]) ++ l.1.ahead.map fun p => extraBytes 6 l.2 [(32, p.1), (32, p.2)]
  let poison := ws.flatMap fun w => w.1.poison.map fun p => extraBytes 7 w.2.1 (poisonFields p)
  (errs ++ rest ++ phases ++ points ++ poison).flatten

/-! ### Writing (R394) -/

/-- The offset of each section, the first standing after the header. -/
def sectionOffsets : List (Nat × List SavePiece) → Nat → List Nat
  | [], _ => []
  | x :: t, o => o :: sectionOffsets t (o + piecesLen x.2)

/-- Pieces written one after another. -/
def writePieces : List SavePiece → Nat → State → State
  | [], _, s => s
  | .bytes l :: t, pa, s => writePieces t (pa + l.length) (s.putMem pa l 0)
  | .sparse n m :: t, pa, s =>
      let inside (a : Nat) : Bool := decide (pa ≤ a) && decide (a < pa + n)
      writePieces t (pa + n) { s with
        mem := m.foldl (fun x c => mput x (pa + c.1) c.2) (merase s.mem pa (pa + n))
        stamps := s.stamps.filter fun x => !inside x.1
        poison := s.poison.filter fun p => match p with
          | .line l _ => !(inside (l * 128) && inside (l * 128 + 127))
          | _ => true }

/-- R394: the header of a save. -/
def saveHeader (c used : Nat) (secs : List (Nat × List SavePiece)) : List Byte :=
  natLe 8 (1 + c * 2 ^ 8 + s.node.toNat * 2 ^ 16 + 2 ^ 32) ++ natLe 8 s.now ++ natLe 8 used ++ natLe 8 0 ++
    ((secs.zip (sectionOffsets secs 256)).zip (upTo 14)).flatMap fun x =>
      natLe 8 (x.2 + 1 + x.1.1.1 * 2 ^ 32) ++ natLe 8 x.1.2

/-- R394: the area lies in one range of the context's device. -/
def saveInside (c base used : Nat) : Bool :=
  match s.rangeAt base with
  | some (_, r) => r.vd = s.ctxVd c && decide (base + used ≤ r.limit)
  | none => false

/-- The bytes that a context's save uses. -/
def saveSize (c : Nat) : Nat := (s.saveSections c).foldl (fun n y => n + piecesLen y.2) 256 + (s.saveExtras c).length

/-- R394: the save of a context stands in its area; one that does not fit kills it. -/
def putSave (c : Nat) : State :=
  let x := (s.ctx c).words
  let secs := s.saveSections c
  let used := s.saveSize c
  if x.savesz.toNat < used || !s.saveInside c x.save.toNat used then s.kill c 4 0 7 0 0
  else
    let pa := s.local_ x.save.toNat
    let pieces := secs.flatMap (·.2) ++ [.bytes (s.saveExtras c)]
    (writePieces pieces (pa + 256) s).putMem pa (s.saveHeader c used secs) 0

/-- R344, R394: the save of a context is written, its bytes carried by the system share. -/
def writeSave (c : Nat) : State :=
  let t := s.putSave c
  if t.dying.contains c then t else t.bump 0 (s.ctxTenant c) 7 (s.saveSize c)

/-! ### Reading a save back (R395, R402, R405) -/

/-- A field of a context's save area. -/
def saveNat (c off n : Nat) : Nat := mnat s.mem (s.local_ ((s.ctx c).words.save.toNat + off)) n

/-- Bytes of a context's save area. -/
def saveBytes (c off n : Nat) : List Byte := mbytes s.mem (s.local_ ((s.ctx c).words.save.toNat + off)) n

/-- Where a section stands, and how many records it has. -/
def sectionAt (c ty : Nat) : Nat := s.saveNat c (0x20 + 16 * (ty - 1) + 8) 8
def sectionCount (c ty : Nat) : Nat := s.saveNat c (0x24 + 16 * (ty - 1)) 4

/-- The i-th record of a section whose records have n bytes. -/
def saveRecord (c ty n i : Nat) : Nat := s.saveNat c (s.sectionAt c ty + n * i) n

/-- The further records of a kind about a record. -/
def extrasOf (c kind num : Nat) : List Nat :=
  let lo := s.sectionAt c 14 + 8
  (upTo ((s.saveNat c 0x10 8 - lo) / 128)).filterMap fun i =>
    let v := s.saveNat c (lo + 128 * i) 128
    if v % 16 = kind && v / 16 % 2 ^ 32 = num then some (v / 2 ^ 36) else none

/-- R394 type 11: the trap record of a thread, by its record's number. -/
def savedTrap (c thread : Nat) : Option TrapRec :=
  (upTo (s.sectionCount c 11)).findSome? fun i =>
    let f := fieldIn (trapFields 0 .zero) (s.saveRecord c 11 64 i)
    if f 6 = thread then some (trapOf f) else none

/-- R395: a thread as its record has it, with what the record does not hold as it was saved; none when its state code is
reserved. Its clause address is that of the clause, a multiple of 8 (R45). -/
def readThread (c num at_ regs : Nat) (x : Thread) : Option Thread :=
  let f (o n : Nat) : Nat := s.saveNat c (at_ + o) n
  let code := f 8 1 / 16
  let cyc := if f 0x10 4 = 2 ^ 32 - 1 then none else some (f 0x10 4)
  let cnt := f 0x0C 4
  let trapped := natBit (f 9 1) 7
  let x := { x with
    pc := clauseAddr (BitVec.ofNat 64 (f 0 8)), idx := f 8 1 % 16, p := BitVec.ofNat 7 (f 9 1), floor := f 0x18 8
    trapped, trap := if trapped then (s.savedTrap c num).getD x.trap else x.trap
    ld := natBits cnt 0 6, stc := natBits cnt 6 6, cp := natBits cnt 12 6, tl := natBits cnt 18 6
    g := Vector.ofFn fun (i : Fin 128) => if i.val < regs then BitVec.ofNat 32 (f (0x40 + 4 * i.val) 4) else x.g.get i }
  let free (st : TState) (handler : Bool) : Option Thread := some { x with st, handler, wait := none, carry := none }
  match code with
  | 0 => free .ready false
  | 1 => free .stalled false
  | 2 => match x.wait with
    | some w =>
        let kind := match w.kind with | .phase k _ => .phase k (BitVec.ofNat 32 (f 0x14 4)) | k => k
        some { x with st := .blocked, wait := some { w with kind, deadline := cyc } }
    | none => some { x with st := .stalled, carry := some cyc }
  | 3 => free .parked false
  | 4 => free .ready true
  | 5 => free .running false
  | 6 => free .ended x.handler
  | _ => none

/-- The threads of a saved workgroup, read from the records from a number and an offset on. -/
def readThreads (c regs : Nat) : Nat → Tbl Thread → Nat → Option (Tbl Thread)
  | _, [], _ => some []
  | num, (i, x) :: t, at_ =>
    match s.readThread c num at_ regs x, readThreads c regs (num + 1) t (at_ + 64 + 4 * regs) with
    | some y, some r => some ((i, y) :: r)
    | _, _ => none

/-- A flock as its record has it. -/
def readFlock (c at_ : Nat) : Flock :=
  let f := fieldIn (fuFields none) (s.saveNat c (at_ + 352) 8)
  { w := Vector.ofFn fun (i : Fin 64) => BitVec.ofNat 32 (s.saveNat c (at_ + 4 * i.val) 4)
    k := Vector.ofFn fun (i : Fin 12) =>
      ⟨BitVec.ofNat 32 (s.saveNat c (at_ + 256 + 8 * i.val) 4), BitVec.ofNat 32 (s.saveNat c (at_ + 260 + 8 * i.val) 4)⟩
    fu := if f 0 = 1 then some (clauseOf (f 2), f 1) else none }

/-- A tile as its record has it. -/
def readTile (c : Nat) (w : Wg) (x : Nat × Nat) : Wg :=
  let at_ := s.sectionAt c 5 + 4112 * x.2
  let f := fieldIn (tileFields 0 0 .empty) (s.saveNat c at_ 16)
  { w with
    tile := tput w.tile x.1 { full := f 2 = 1, fill := f 3, drain := f 4, pin := f 5 }
    scr := mputs w.scr (x.1 * 4096) (s.saveBytes c (at_ + 16) 4096) }

/-- The entries of a list or flush from an offset on. -/
def readSnd (c at_ n : Nat) : List (Nat → Nat) :=
  (upTo n).map fun i => fieldIn (sndFields sndBlank .waiting false false) (s.saveNat c (at_ + 32 * i) 32)

/-- The lists of a workgroup as their records have them, and where the records end. -/
def readLists (c : Nat) : Tbl (List SndEnt) → Nat → Tbl (List SndEnt) × Nat
  | [], at_ => ([], at_)
  | (k, l) :: t, at_ =>
    let (r, e) := readLists c t (at_ + 16 + 32 * l.length)
    ((k, (s.readSnd c (at_ + 16) l.length).map sndOf) :: r, e)

/-- The flushes of a workgroup as their records have them, and where the records end; `nth` places each among its
thread's commands. -/
def readFlushes (c : Nat) (nth : Nat → Nat → Nat → Nat) : List Flush → Nat → List Flush × Nat
  | [], at_ => ([], at_)
  | x :: t, at_ =>
    let n := x.ents.length
    let h := fieldIn (sendFields 0 false 0 0 0 0 0) (s.saveNat c at_ 16)
    let p := fieldIn [clauseField 0, (32, 0)] (s.saveNat c (at_ + 16) 32)
    let es := s.readSnd c (at_ + 48) n
    let marked (k : Nat) : List Nat := ((es.zip (upTo n)).filter fun e => e.1 k = 1).map (·.2)
    let (r, e) := readFlushes c nth t (at_ + 48 + 32 * n)
    ({ x with
        tid := h 4, idx := h 5, recVa := BitVec.ofNat 64 (h 6), pc := clauseOf (p 0), nth := nth (h 4) (p 1) x.nth, ents := es.map sndOf
        res := es.map fun e => sndResOf (e 6), firsts := marked 7, alts := marked 8 } :: r, e)

/-- A store of the residue as its record has it. -/
def readStore (c num : Nat) (a : Access) : Access :=
  let at_ := s.sectionAt c 10 + 160 * num
  let o := a.va.toNat % 128
  match a.op with
  | .store z _ => { a with op := .store z (s.saveNat c (at_ + 32 + o) a.op.len) }
  | _ => a

/-- A saved workgroup as the area has it, what no record holds staying as it was saved. -/
def readWg (c : Nat) (nth : Nat → Nat → Nat → Nat) (pos : ReadPos) (x : SavedWg) : Option (SavedWg × ReadPos) :=
  match s.readThreads c x.wg.regs pos.thread x.threads pos.threadAt with
  | none => none
  | some ts =>
    let w := applyWg (fieldIn (wgFields 0 0 false x) (s.saveRecord c 1 64 pos.wg)) x.wg
    let tiles := savedTiles x.wg
    let w := (tiles.zip (upTo tiles.length)).foldl (fun w t => s.readTile c w (t.1, pos.tile + t.2)) w
    let (lists, at_) := s.readLists c x.lists pos.sendAt
    let (flushes, at_) := s.readFlushes c nth x.flushes at_
    let cmds := (x.cmds.zip (upTo x.cmds.length)).map fun m =>
      applyCmd w (s.saveRecord c 8 128 (pos.cmd + m.2)) (fun tid back => nth tid back m.1.nth) m.1
    some ({ x with
        wg := w, threads := ts, lists, flushes, cmds
        flocks := (x.flocks.zip (upTo x.flocks.length)).map fun f => (f.1.1, s.readFlock c (s.sectionAt c 3 + 360 * (pos.flock + f.2)))
        cb := (x.cb.zip (upTo x.cb.length)).map fun b =>
          (b.1.1, { b.1.2 with data := mputs [] 0 (s.saveBytes c (s.sectionAt c 12 + 4112 * (pos.book + b.2) + 16) 4096) })
        residue := (x.residue.zip (upTo x.residue.length)).map fun a => s.readStore c (pos.res + a.2) a.1 },
      { wg := pos.wg + 1, thread := pos.thread + x.threads.length
        threadAt := pos.threadAt + (64 + 4 * x.wg.regs) * x.threads.length, flock := pos.flock + x.flocks.length
        tile := pos.tile + tiles.length, cmd := pos.cmd + x.cmds.length, sendAt := at_, res := pos.res + x.residue.length
        book := pos.book + x.cb.length })

def readWgs (c : Nat) (nth : SavedWg → Nat → Nat → Nat → Nat) : List SavedWg → ReadPos → Option (List SavedWg × ReadPos)
  | [], pos => some ([], pos)
  | x :: t, pos =>
    match s.readWg c (nth x) pos x with
    | none => none
    | some (y, pos) => (readWgs c nth t pos).map fun r => (y :: r.1, r.2)

/-- Where the records of a context's first workgroup stand. -/
def readStart (c : Nat) : ReadPos := ⟨0, 0, s.sectionAt c 2, 0, 0, 0, s.sectionAt c 9, 0, 0⟩

/-- R154: an engine image as its record has it. -/
def readImage (c num : Nat) : EngImage :=
  let at_ := s.sectionAt c 6 + (16 + imageBytes) * num
  let f := fieldIn (imageFields 0 ⟨.zero, .zero, []⟩ false) (s.saveNat c at_ 16)
  let m := cellsIn s.mem (s.local_ ((s.ctx c).words.save.toNat + at_ + 16)) imageBytes
  { active := planeOf m 0 (f 1) (f 2), shadow := planeOf m planeBytes (f 3) (f 4), acc := accOf m }

/-- The saves of a context, their workgroups as its records have them, and their images by number. -/
def readQuads (c : Nat) : List SavedQuad → ReadPos → Nat → Option (List SavedQuad)
  | [], _, _ => some []
  | x :: t, pos, img =>
    if x.ctx ≠ c then (readQuads c t pos img).map (x :: ·)
    else
      match s.readWgs c (fun _ _ _ n => n) x.wgs pos with
      | none => none
      | some (ws, pos) =>
        (readQuads c t pos (if x.image.isSome then img + 1 else img)).map
          ({ x with wgs := ws, image := x.image.map fun _ => s.readImage c img } :: ·)

/-- R395, R402: the saved workgroups of a context as its save area has them, which a debugger may have
changed; a reserved state code kills it. -/
def readSave (c : Nat) : State :=
  if s.savedOf c = [] then s
  else
    match s.readQuads c s.saved (s.readStart c) 0 with
    | some l => { s with saved := l }
    | none => s.kill c 6 0 7 0 0

/-- R396: the contexts that have spilled barrier entries have them in their save areas. -/
def writeSpills : State :=
  s.spills.foldl (fun s c =>
    let s := s.readSave c
    if s.dying.contains c then s else s.putSave c) { s with spills := [] }

/-- R402: a change of saved workgroups stands in the save area too. -/
def rewriteSave (c : Nat) (f : State → State) : State :=
  let s := s.readSave c
  if s.dying.contains c then s else (f s).writeSave c

end State

end Sys2Proof.Machine
end

