-- ==== Sys2Proof/Machine/Stops.lean ====
section
/-!
DEFINITION. Stops, halts, saves and placement (05 R153 to R155; 06 R195; 09 R267; 10 R299; 11 R312,
R319 to R322; 12 R340; 14 R394, R395, R401, R402): HALT, the events QUAD_HANDOVER and WORKGROUP_PLACEMENT, and the ends of
what a saved context has on its way (08 R238): ORDERED_ACK, ORDER_LATE, ACCESS_LOSS and CUT_REQUEST.
-/

namespace Sys2Proof.Machine

/-- R320, R401: what becomes of a workgroup when it loses its quad: kept in the save area, or run again
from its entry. -/
def Wg.keeps (w : Wg) : Bool := w.committed || !w.restartable || w.halted || w.ended

/-- What a workgroup needs of a core: its flocks, its tiles and its codebook slots. -/
structure CoreNeed where
  flocks : Nat
  tiles : Nat
  bars : Nat
  books : List Nat
  deriving DecidableEq, Repr

/-- A core with the slots and tiles taken so far. -/
structure Room where
  used : List Nat
  tiles : Nat
  deriving DecidableEq, Repr

/-- Work that may be placed together: saved workgroups, or workgroups of one launch's points. -/
structure Work where
  prio : Nat
  saved : Bool
  launch : Nat
  lin : Nat
  wgid : Nat
  /-- The launches it belongs to. -/
  launches : List Nat
  /-- The launch, or the place in the list of saved quads. -/
  item : Nat
  /-- Each workgroup: what it needs, its core when that is given, and its %wgid. -/
  needs : List (CoreNeed × Option Nat × Nat)
  /-- The team of each, and the slot that it had when it was saved. -/
  seats : List (Option Nat × Option Nat)
  /-- The lines of the stores that it has queued, by core within the quad (R195). -/
  lines : List (Nat × Nat)
  /-- Barrier registers of a team that is made. -/
  teamBars : Nat
  /-- A quad it must go to, a die it must stay on, and whether it needs a quad without residents (R154). -/
  quad : Option Nat
  die : Option Nat
  alone : Bool
  deriving DecidableEq, Repr

/-- How an operation of HALT ends: with a status, or not yet. -/
inductive HaltRes where
  | done (code : Nat) (s : State)
  | later (s : State)

namespace State

variable (s : State)

/-- The workgroups on a quad, and the threads of a workgroup. -/
def wgsOn (q : Nat) : List Nat := (s.wgs.filter fun w => decide (w.2.core < 256) && coreQuad w.2.core = q).map (·.1)
def threadsOf (wid : Nat) : List Nat := (s.threads.filter fun x => x.2.wg = wid).map (·.1)
def quadCores (q : Nat) : List Nat := (upTo 4).map (4 * q + ·)

/-! ### Signatures at a stop (R153) -/

def isSign : WaitKind → Bool
  | .sign _ _ => true
  | _ => false

def waitsSign (t : Nat) : Bool :=
  match (s.thread t).wait with
  | some w => isSign w.kind
  | none => false

/-- R153: a thread whose signature is withdrawn with no status keeps the cycles its timeout had left. -/
def stopSign (t : Nat) : State :=
  match (s.thread t).wait with
  | some w =>
    let left := w.deadline.map fun d => if (s.wgOf t).halted then d else d - s.cyc
    s.modThread t fun x => { x with st := .running, wait := none, carry := some left }
  | none => s

/-- A change of every group. -/
def mapGroups (f : Group → Group) : State := { s with cur := s.cur.map f, groups := s.groups.map f }

/-- R153, R155: the signatures of some threads are withdrawn together; their groups stand before the collective
for them. -/
def stopSigns (ts : List Nat) : State :=
  let ts := ts.filter s.waitsSign
  if ts = [] then s
  else
    (ts.foldl (fun s t => s.stopSign t) (s.withdrawSigns ts)).mapGroups fun g =>
      if g.members.any ts.contains then
        { g with blocked := false, stalled := true, part := g.members.filter fun t => !ts.contains t }
      else g

/-- R401: the matrix requests of halted workgroups are resolved; a thread that may run one clause keeps its
own. -/
def settleHalts : State :=
  (s.wgs.filter fun w => w.2.halted).foldl (fun s w =>
    s.stopSigns ((s.threadsOf w.1).filter fun t => !(s.thread t).stepping)) s

/-! ### Discarded workgroups (R320) -/

/-- R320: an uncommitted restartable workgroup is discarded, and is to be placed again; what it has posted to the
engine completes (R153). -/
def discardWg (wid : Nat) : State :=
  let w := s.wg wid
  let ts := s.threadsOf wid
  let s := (ts.foldl (fun s t => s.leaveGroups t) s).mergeFlags w.core w.ctx
  let s := { s with accs := s.accs.filter fun a => !a.tids.any ts.contains }
  let s := ((s.core w.core).cmds.filter fun m => m.wg = wid && m.stage = .moving).foldl (fun s m => s.releaseTiles m) s
  let s := s.modQuad (coreQuad w.core) fun q => { q with reqs := q.reqs.filter fun r => r.wg ≠ wid }
  let s := s.modCore w.core fun k => { k with
    cmds := k.cmds.filter fun m => m.wg ≠ wid, tsets := k.tsets.filter fun o => o.wg ≠ wid
    loads := k.loads.filter (· ≠ wid) }
  let s := ((s.clearTags w).clearLists w).freeBars (2 * wid)
  let s := (s.leaveTeam w).dropWg w
  s.modLaunch w.launch fun l => { l with points := l.points.map fun p =>
    if p.lin = w.point then { p with todo := insertNat (w.wgid - w.point * rcW l.record) p.todo } else p }

/-! ### Points at a stop (R322) -/

/-- A workgroup of a point of a launch stands in the save area. -/
def pointSaved (l lin : Nat) : Bool := s.saved.any fun x => x.wgs.any fun w => w.wg.launch = l && w.wg.point = lin

/-- R322: a point in flight when workgroups of its launch are stopped on a quad: withdrawn, held, or going
on elsewhere. -/
def stopPoint (q l : Nat) (p : PointSt) : Option PointSt :=
  let mine := s.wgs.filter fun w => w.2.launch = l && w.2.point = p.lin
  let elsewhere := mine.any fun w => coreQuad w.2.core ≠ q
  let here := mine.any fun w => coreQuad w.2.core = q
  if here || (!elsewhere && (p.finished ≠ [] || s.pointSaved l p.lin)) then some { p with held := true }
  else if elsewhere then some p
  else none

/-- R322: the frontier of a launch, its points resolved, is to be written to FSAVE. -/
def saveFrontier (l : Launch) : Launch :=
  if rcFsave l.record = 0 then l else { l with owed := some (frontierSave l) }

/-- R322: the points of a frontier launch are resolved, and its frontier is to be saved. -/
def stopLaunch (q : Nat) (id : Nat) : State :=
  s.modLaunch id fun l =>
    if rcNdep l.record = 0 then l
    else
      saveFrontier { l with points := l.points.filterMap (s.stopPoint q id) }

/-! ### A quad is stopped (R340) -/

/-- R340 steps 1 and 2: every workgroup of a quad is stopped; what is kept is saved once its accesses and
the engine's table are done. -/
def beginStop (q : Nat) : State :=
  let ids := s.wgsOn q
  let launches := (ids.map fun w => (s.wg w).launch).eraseDups
  let s := s.stopSigns (ids.flatMap s.threadsOf)
  let s := (quadCores q).foldl (fun s c => (s.core c).wcb.foldl (fun s e => s.sendEntry c e.id) s) s
  let s := (ids.filter fun w => !(s.wg w).keeps).foldl (fun s w => s.discardWg w) s
  let s := launches.foldl (fun s l => s.stopLaunch q l) s
  s.modQuad q fun x => { x with handover := true }

/-- R238: an ordered store or reduction that has left its source need not be acknowledged before its context is saved,
nor a packet of a flush (R267). -/
def staysOut : AccOp → Bool
  | .store _ _ | .red _ _ _ => true
  | _ => false

/-- R222: an ordered operation with a result, for which a save waits. -/
def ordCounts (o : OrdOp) : Bool :=
  match o.work with
  | .access a => a.tids ≠ [] && !staysOut a.op
  | _ => false

/-- R195: stores of a core's queue, up to the last one of some workgroups that a thread of another has read: they stay
performed for it. -/
def seenCount (core : Nat) (mine : Nat → Bool) : Nat :=
  (((s.core core).sq.zip (upTo (s.core core).sq.length)).filter fun x =>
    x.1.seen && x.1.tids.any fun t => mine (s.thread t).wg).foldl (fun n x => max n (x.2 + 1)) 0

/-- R193, R195: a store that another workgroup has read, or one before it in the queue, waits for a copy to release its
line. -/
def seenHeld (c : Nat) : Bool :=
  ((s.core c).sq.take (s.seenCount c fun _ => true)).any fun a => s.ownedLine (a.pa / 128)

/-- R188, R222, R267: what the threads of a core have sent is complete, but for what may stay on its way (R238). -/
def coreDrained (c : Nat) : Bool :=
  !(s.accs.any fun a => a.core = c && a.tids ≠ []) && !(s.ords.any fun o => o.src = c && ordCounts o) &&
    ((s.core c).wcb.all fun e => e.stores.all fun a => a.tids = []) && !s.seenHeld c

/-- R340 step 3: everything that comes before the save is done. -/
def quadDrained (q : Nat) : Bool :=
  (quadCores q).all s.coreDrained && (s.quad q).table = [] &&
    !(s.threads.any fun t => t.2.tlbi.isSome && coreQuad (tidCore t.1) = q)

/-! ### Threads and workgroups as saved (R195, R267, R274, R299, R395) -/

/-- The place after a group's instruction. -/
def placeAfter (g : Group) : W64 × Nat :=
  if g.idx < hdrN g.hdr then (g.pc, g.idx + 1) else (nextClause g.pc g.hdr, 0)

def isDrainWait : WaitKind → Bool
  | .drain _ => true
  | _ => false

/-- R222, R299, R395: a thread as it is saved: at its own instruction while it waits or has not issued it, at
the next when it has. Its waits hold the cycles they have left. -/
def restThread (t : Nat) : Thread :=
  let x := s.thread t
  match s.groupOf t with
  | none => x
  | some g =>
    let here := { x with pc := g.pc, idx := g.idx, stallFrom := none }
    match x.wait with
    | some w =>
        if isDrainWait w.kind then { here with st := .stalled, wait := none, carry := some w.deadline } else here
    | none =>
      if g.part.contains t || g.blocked then
        let p := placeAfter g
        { x with pc := p.1, idx := p.2, st := if p.2 = 0 then .ready else .running, stallFrom := none }
      else { here with st := if g.stalled then .stalled else if g.idx = 0 then .ready else .running }

/-- Groups of a workgroup that wait at an instruction, their members numbered within it. -/
def restGroups (w : Wg) : List Group :=
  (s.cur.toList ++ s.groups).filterMap fun g =>
    let ms := g.members.filter fun t => match (s.thread t).wait with
      | some x => !isDrainWait x.kind
      | none => false
    if g.wg = w.id && g.blocked && ms ≠ [] then some { g with members := ms.map w.indexOf, part := [] } else none

/-- R398: the poison that goes with a workgroup. -/
def restPoison (w : Wg) : List Poison :=
  s.poison.filterMap fun p => match p with
    | .scratch v t => if v = w.id then some (.scratch v t) else none
    | .reg t r =>
        if r < 1000 then (if (s.thread t).wg = w.id then some (.reg (w.indexOf t) r) else none)
        else if w.hasFlock t then some (.reg (t - (w.core * 64 + w.slot)) r) else none
    | _ => none

/-- A workgroup with all that is saved of it. -/
def packWg (wid : Nat) : SavedWg :=
  let w := s.wg wid
  let ts := s.threadsOf wid
  let k := s.core w.core
  { wg := w
    threads := ts.map fun t => (w.indexOf t, s.restThread t)
    flocks := (upTo w.nflock).map fun f => (f, s.flock (w.core * 64 + w.slot + f))
    groups := s.restGroups w
    lists := k.lists.filter fun l => l.1 / 16 = wid
    flushes := (k.flushes.filter fun f => f.wg = wid).map fun f => { f with tid := w.indexOf f.tid }
    cmds := (k.cmds.filter fun m => m.wg = wid).map fun m => { m with tid := m.tid.map w.indexOf }
    cb := k.cb.filter fun b => b.2.tag = some wid
    residue := (k.sq.filter fun a => a.tids.any ts.contains).map fun a => { a with tids := a.tids.map w.indexOf }
    poison := s.restPoison w
    book := k.loads.contains wid }

/-- R184: the first stores of a core's queue are performed at their home, in order. -/
def homeFirst (core : Nat) : Nat → State → State
  | 0, s => s
  | n + 1, s =>
    match (s.core core).sq with
    | [] => s
    | a :: rest =>
      homeFirst core n (((s.acceptDraining a.ctx a.wb (a.pa / 128)).modCore core fun k =>
        { k with sq := rest, sqHeld := false }).homeStore a)

/-- R195: before workgroups are saved, what others have read of their queued stores reaches its home. -/
def homeSeen (ids : List Nat) : State :=
  ((ids.map fun w => (s.wg w).core).eraseDups).foldl (fun s c => homeFirst c (s.seenCount c ids.contains) s) s

/-- R267: the moving commands of workgroups that are saved are brought to a boundary, in the order of their cores. -/
def pauseCmds (ids : List Nat) : State :=
  (s.cores.flatMap fun c => (c.2.cmds.filter fun m => ids.contains m.wg && m.stage = .moving).map fun m => (c.1, m)).foldl
    (fun s x => s.pauseCmd x.1 x.2) s

/-- R238: the name under which what a saved workgroup has on its way knows a thread of it, by the thread's number within
it, and its core. -/
def savedTid (wid i : Nat) : Nat := 2 ^ 40 + wid * 4096 + i
def savedCore (wid : Nat) : Nat := tidCore (savedTid wid 0)

/-- R238: what some threads of a workgroup, and its flushes, have on its way takes other names for them. -/
def renameOrds (wid old new : Nat) (mine : Nat → Bool) (f : Nat → Nat) : State :=
  { s with ords := s.ords.map fun o => match o.work with
    | .access a => if a.tids.any mine then { o with work := .access { a with tids := a.tids.map f, core := new } } else o
    | .pen core flush ent pa row c =>
        if core = old && (s.core core).flushes.any fun x => x.id = flush && x.wg = wid then
          { o with work := .pen new flush ent pa row c }
        else o
    | _ => o }

/-- A workgroup leaves its core for the save area; its team and its barrier entries stand. What is left of it in the
queue leaves no byte in the L1 (R175, R195). -/
def unloadWg (wid : Nat) : State :=
  let w := s.wg wid
  let ts := s.threadsOf wid
  let s := (ts.foldl (fun s t => s.leaveGroups t) s).mergeFlags w.core w.ctx
  let s := s.renameOrds wid w.core (savedCore wid) ts.contains fun t => savedTid wid (w.indexOf t)
  let left := (s.core w.core).sq.filter fun a => a.tids.any ts.contains
  let s := left.foldl (fun (s : State) a => s.dropL1 w.core (a.pa / 128)) s
  let s := s.modCore w.core fun k => { k with
    cmds := k.cmds.filter fun m => m.wg ≠ wid
    flushes := k.flushes.filter fun f => f.wg ≠ wid
    loads := k.loads.filter (· ≠ wid)
    sq := k.sq.filter fun a => !a.tids.any ts.contains
    sqHeld := false }
  ((s.clearTags w).clearLists w).dropWg w

/-- Cycles at a stop: a workgroup's waits hold what they have left, as a halted one's already do. -/
def freezeWaits (wid : Nat) : State := if (s.wg wid).halted then s else s.shiftWaits wid (· - s.cyc)

/-! ### A quad is taken (R154, R340) -/

/-- Workgroups of a context are saved together from a quad, with its engine image when none is left there. -/
def saveWgs (q c : Nat) (ids : List Nat) (halted : Bool) : State :=
  let s := s.readSave c
  if s.dying.contains c then s
  else
  let s := ids.foldl (fun s w => s.freezeWaits w) ((s.homeSeen ids).pauseCmds ids)
  let packed := (sortBy (fun a b => decide ((s.wg a).core * 64 + (s.wg a).slot ≤ (s.wg b).core * 64 + (s.wg b).slot)) ids).map s.packWg
  let s := ids.foldl (fun s w => s.unloadWg w) s
  let x := s.quad q
  let empty := s.wgsOn q = [] && x.table = []
  let sq : SavedQuad :=
    { ctx := c, quad := q, wgs := packed, halted, tainted := empty && s.poison.contains (.engine q)
      image := if empty then some ⟨x.active, x.shadow, x.acc⟩ else none }
  { s with saved := s.saved ++ [sq] }.writeSave c

/-- R259: the fills of a core are written before a save. -/
def endTsets (c : Nat) : State := (s.core c).tsets.foldl (fun s _ => s.tsetDone c 0) s

/-- A change of an auctioned unit. -/
def modUnit (k : Nat) (f : MktUnit → MktUnit) : State :=
  match tget s.market.units k with
  | some u => { s with market := { s.market with units := tput s.market.units k (f u) } }
  | none => s

/-- QUAD_HANDOVER: a stopped quad whose work is done is saved and free. -/
def handOver (q : Nat) : State :=
  if !(s.quad q).handover || !s.quadDrained q then s
  else
    let ids := s.wgsOn q
    let s := (quadCores q).foldl (fun s c => s.endTsets c) s
    let s := match ids with
      | [] => s
      | w :: _ => s.saveWgs q (s.wg w).ctx ids false
    let s := (s.dropRole q).modQuad q fun x => { x with reqs := [], handover := false }
    s.modUnit (unitKey (q / 32) (q % 32)) fun u => { u with leaving := none }

/-! ### Placement (R312, R355) -/

/-- The context that holds a quad. -/
def quadHolder (q : Nat) : Option Nat := (tget s.market.units (unitKey (q / 32) (q % 32))).bind (·.holder)

/-- R340, R353: nothing of the old holder is left on a quad, and its holder's lease is not idle. -/
def quadFree (q : Nat) : Bool :=
  !(s.quad q).handover && (match tget s.market.units (unitKey (q / 32) (q % 32)) with
    | some u => u.leaving.isNone && !u.idle
    | none => false)

/-- Slots of a core in use. -/
def slotsUsed (core : Nat) : List Nat :=
  (s.wgs.filter fun w => w.2.core = core).flatMap fun w => (upTo w.2.nflock).map (w.2.slot + ·)

def tilesUsed (core : Nat) : Nat := (s.wgs.filter fun w => w.2.core = core).foldl (fun n w => n + w.2.tiles) 0

/-- R312, R396: barrier registers of a quad's workgroups and teams. -/
def barsUsed (q : Nat) : Nat :=
  ((s.wgsOn q).foldl (fun n w => n + (s.wg w).bars) 0) +
    8 * (((s.wgsOn q).filterMap fun w => (s.wg w).team).eraseDups).length

/-- A run of slots that is free. -/
def slotsFree (used : List Nat) (slot n : Nat) : Bool :=
  decide (slot + n ≤ 64) && (upTo n).all fun i => !used.contains (slot + i)

/-- The lowest run of free slots. -/
def firstSlot (used : List Nat) (n : Nat) : Option Nat := (upTo 64).find? fun i => slotsFree used i n

/-- The workgroups of one placement fit the cores and slots given, and the codebook slots that saved ones had
(notes/assumptions/65.md). -/
def fitsAt (q : Nat) : List (CoreNeed × Nat × Nat) → (Nat → Room) → Bool
  | [], _ => true
  | (n, k, slot) :: t, room =>
    let r := room k
    decide (k < 4) && slotsFree r.used slot n.flocks && decide (r.tiles + n.tiles ≤ 256) &&
      n.books.all (fun b => match tget (s.core (4 * q + k)).cb b with | some x => x.tag.isNone | none => true) &&
      fitsAt q t fun j => if j = k then ⟨r.used ++ (upTo n.flocks).map (slot + ·), r.tiles + n.tiles⟩ else room j

def roomOf (q k : Nat) : Room := ⟨s.slotsUsed (4 * q + k), s.tilesUsed (4 * q + k)⟩

/-- R312: a placement fits a quad at given cores and slots. -/
def placementFits (q teamBars : Nat) (l : List (CoreNeed × Nat × Nat)) : Bool :=
  s.fitsAt q l (s.roomOf q) &&
    decide (s.barsUsed q + l.foldl (fun n x => n + x.1.bars) teamBars ≤ 512)

/-- R168: where a workgroup of a team stands: the team, its core within the quad, its slot, and its %wgid. -/
structure Seat where
  team : Nat
  core : Nat
  slot : Nat
  wgid : Nat
  deriving DecidableEq, Repr

/-- R168: the place of a workgroup of a team in its windows' order. -/
def windowPlace (x : Seat) : Nat :=
  match tget s.teams x.team with
  | some t => t.layout.findIdx (· = x.wgid)
  | none => 0

/-- R168: two workgroups of a team on one core stand in the order of their windows. -/
def seatOk (a b : Seat) : Bool :=
  a.team ≠ b.team || a.core ≠ b.core || decide (s.windowPlace a < s.windowPlace b) = decide (a.slot < b.slot)

/-- The workgroups of teams on a quad. -/
def seatsOn (q : Nat) : List Seat :=
  (s.wgsOn q).filterMap fun x => let w := s.wg x; w.team.map fun t => ⟨t, w.core % 4, w.slot, w.wgid⟩

/-- The seats of work at some spots. -/
def seatsOf (w : Work) (spots : List (Nat × Nat)) : List Seat :=
  (w.needs.zip (w.seats.zip spots)).filterMap fun x => x.2.1.1.map fun t => ⟨t, x.2.2.1, x.2.2.2, x.1.2.2⟩

/-- R168: at some spots, the windows of every team keep their layout. -/
def layoutKept (q : Nat) (w : Work) (spots : List (Nat × Nat)) : Bool :=
  let new := seatsOf w spots
  new.all fun a => (s.seatsOn q ++ new).all fun b => a = b || s.seatOk a b

/-- The lowest free slots for workgroups whose cores are given, in the order of their teams' windows. -/
def spotsFor : List (CoreNeed × Nat × Option Nat × Nat) → (Nat → Room) → List Seat → Option (List (Nat × Nat))
  | [], _, _ => some []
  | (n, k, team, wgid) :: t, room, seats =>
    let mine (i : Nat) : List Seat := team.toList.map fun x => ⟨x, k, i, wgid⟩
    match (upTo 64).find? fun i => slotsFree (room k).used i n.flocks && (mine i).all fun a => seats.all (s.seatOk a) with
    | none => none
    | some i =>
      (spotsFor t (fun j => if j = k then ⟨(room k).used ++ (upTo n.flocks).map (i + ·), (room k).tiles + n.tiles⟩ else room j)
        (seats ++ mine i)).map ((k, i) :: ·)

/-! ### Placeable work (R312) -/

/-- R312: the order of choice. -/
def workBefore (a b : Work) : Bool :=
  if a.prio ≠ b.prio then decide (a.prio < b.prio)
  else if a.saved ≠ b.saved then a.saved
  else if a.launch ≠ b.launch then decide (a.launch < b.launch)
  else if a.lin ≠ b.lin then decide (a.lin < b.lin)
  else decide (a.wgid < b.wgid)

def minOf (l : List Nat) : Nat := match l with | [] => 0 | x :: t => t.foldl min x

/-- R312: the die on which a workgroup of a launch must be, by the die levels it belongs to. -/
def pinnedDie (l : Launch) (wgid : Nat) : Option Nat :=
  (rcDieLevels l.record).findSome? fun x => tget l.pins (x.1 * 2 ^ 32 + wgid / x.2)

/-- Saved workgroups as work. -/
def savedWork (i : Nat) (x : SavedQuad) : Work :=
  { prio := minOf (x.wgs.map (·.wg.prio)), saved := true, launch := minOf (x.wgs.map (·.wg.launch))
    lin := minOf (x.wgs.map (·.wg.point)), wgid := minOf (x.wgs.map (·.wg.wgid)), item := i
    launches := (x.wgs.map (·.wg.launch)).eraseDups
    needs := x.wgs.map fun w =>
      (⟨w.wg.nflock, w.wg.tiles, w.wg.bars, w.cb.map (·.1)⟩, some (w.wg.core % 4), w.wg.wgid)
    seats := x.wgs.map fun w => (w.wg.team, some w.wg.slot)
    lines := x.wgs.flatMap fun w => w.residue.map fun a => (w.wg.core % 4, a.va.toNat / 128)
    teamBars := 8 * ((x.wgs.filterMap (·.wg.team)).filter fun t =>
      !(s.wgs.any fun w => w.2.team = some t)).eraseDups.length
    -- a team of which some workgroups are still on a quad goes on there
    quad := (x.wgs.filterMap (·.wg.team)).findSome? fun t =>
      (s.wgs.find? fun w => w.2.team = some t).map fun w => coreQuad w.2.core
    die := x.wgs.findSome? fun w => (s.launch? w.wg.launch).bind fun l => pinnedDie l w.wg.wgid
    alone := x.image.isSome }

/-- The team of a launch's unit, if it stands. -/
def teamAt (l u : Nat) : Option Team := (s.teams.find? fun t => t.2.launch = l && t.2.unit = u).map (·.2)

/-- R312: workgroups of a launch that are placed together, the first of them with a %wgid: one, or a whole team; none
when they may not be placed. -/
def unitWork (l : Launch) (p : PointSt) (wgid : Nat) : Option Work :=
  let r := l.record
  let need : CoreNeed := ⟨rcWgthr r / 32, rcTiles r, rcBars r, []⟩
  let n := rcTeam r
  let ids := if n = 0 then [wgid]
    else
      let u := wgid / n
      (upTo n).filterMap fun i =>
        let g := u * n + i
        if g < rcPoints r * rcW r then
          if l.points.any fun q => g / rcW r = q.lin && q.todo.contains (g % rcW r) then some g else none
        else none
  let team := if n = 0 then none else s.teamAt l.id (wgid / n)
  -- a team starts whole: every workgroup of its unit has fired
  let whole := decide (n = 0) || team.isSome || ids.length = min n (rcPoints r * rcW r - wgid / n * n)
  let savedTeam := match team with
    | some t => !(s.wgs.any fun w => w.2.team = some t.id)
    | none => false
  if !whole || savedTeam then none
  else
    some {
      prio := rcPrio r, saved := false, launch := l.id, lin := p.lin, wgid, launches := [l.id], item := l.id
      needs := ids.map fun g => (need, if n = 0 then none else some (g % n % 4), g)
      seats := ids.map fun _ => (team.map (·.id), none), lines := []
      teamBars := if n ≠ 0 && team.isNone then 8 else 0, quad := team.map (·.quad), die := pinnedDie l wgid
      alone := false }

/-- R312: the next workgroups of a launch to be placed: those of the lowest point and %wgid that may be placed now. -/
def launchWork (l : Launch) : Option Work :=
  let pts := sortBy (fun (a b : PointSt) => decide (a.lin ≤ b.lin))
    (l.points.filter fun p => p.todo ≠ [] && !(p.held && s.pointSaved l.id p.lin))
  pts.findSome? fun p => (sortBy (fun (a b : Nat) => decide (a ≤ b)) p.todo).findSome? fun i => s.unitWork l p (p.lin * rcW l.record + i)

/-- A context may have work placed. -/
def mayPlace (c : Nat) : Bool :=
  s.active c && !(s.sessions.any fun x => x.ctx = c && (x.cut.isSome || x.doing = some .stop || x.last = some .stop))

/-- Every piece of work of a context that may be placed. -/
def workOf (c : Nat) : List Work :=
  if !s.mayPlace c then []
  else
    ((s.saved.zip (upTo s.saved.length)).filterMap fun x =>
        if x.1.ctx = c && !(x.1.halted && x.1.wgs.any fun w => w.wg.halted) then some (s.savedWork x.2 x.1) else none) ++
      (if (s.ctx c).halted then []
       else (s.launches.filter fun l => l.ctx = c && !l.reserved).filterMap s.launchWork)

/-- R184, R195: the stores that saved work has queued fit the queues of a quad's cores beside what stands there. -/
def queuesTake (q : Nat) (w : Work) : Bool :=
  (upTo 4).all fun k =>
    decide ((queueLines (s.core (4 * q + k)).sq).length + ((w.lines.filter fun x => x.1 = k).eraseDups).length ≤ 64)

/-- A quad that work may go to, by everything but the room on its cores. -/
def quadTakes (c q : Nat) (w : Work) : Bool :=
  s.quadHolder q = some c && s.quadFree q && (s.wgsOn q).all (fun x => (s.wg x).ctx = c) &&
    (match w.quad with | some x => x = q | none => true) && (match w.die with | some d => d = q / 32 | none => true) &&
    (!w.alone || (s.wgsOn q = [] && (s.quad q).table = [])) && s.queuesTake q w

/-- Work fits a quad at some spots (R168, R312). -/
def fitsSpots (q : Nat) (w : Work) (spots : List (Nat × Nat)) : Bool :=
  s.placementFits q w.teamBars ((w.needs.zip spots).map fun x => (x.1.1, x.2.1, x.2.2)) && s.layoutKept q w spots

/-- Cores and slots that work fits on a quad: those that saved work had, or the lowest of each. -/
def spotsOn (q : Nat) (w : Work) : Option (List (Nat × Nat)) :=
  let old : Option (List (Nat × Nat)) := (w.needs.zip w.seats).mapM fun x => match x.1.2.1, x.2.2 with
    | some k, some i => some (k, i)
    | _, _ => none
  let tryWith (f : Option Nat → Nat) : Option (List (Nat × Nat)) :=
    match s.spotsFor ((w.needs.zip w.seats).map fun n => (n.1.1, f n.1.2.1, n.2.1, n.1.2.2)) (s.roomOf q) (s.seatsOn q) with
    | none => none
    | some l => if s.fitsSpots q w l then some l else none
  match old with
  | some l => if s.fitsSpots q w l then some l else tryWith (·.getD 0)
  | none =>
    if w.needs.all fun n => n.2.1.isSome then tryWith (·.getD 0)
    else (upTo 4).findSome? fun k => tryWith fun _ => k

/-- Work that fits somewhere: a quad and its spots. -/
def placeFor (c : Nat) (w : Work) : Option (Nat × List (Nat × Nat)) :=
  (upTo 64).findSome? fun q => if s.quadTakes c q w then (s.spotsOn q w).map fun l => (q, l) else none

/-- R312: the dispatcher's choice of spots for work is one it may make. -/
def spotsOk (q : Nat) (w : Work) (spots : List (Nat × Nat)) : Bool :=
  spots.length = w.needs.length &&
    ((w.needs.zip spots).all fun x => match x.1.2.1 with | some k => k = x.2.1 | none => true) &&
    s.fitsSpots q w spots

/-! ### Placing (R22, R26, R154, R312) -/

/-- R26, R36, R362: a quad passes to a context that was not its last: caches and buffers forget, flags merge,
and the engine is zero. -/
def enterQuad (q c : Nat) : State :=
  let x := s.quad q
  if x.ctx = some c then s
  else
    let s := match x.ctx with
      | some o => (quadCores q).foldl (fun (s : State) k => s.mergeFlags k o) s
      | none => s
    let s := (quadCores q).foldl (fun (s : State) k => s.modCore k fun y => { y with clauses := [], code := [], l1 := [], tlb := [] }) s
    let s := (s.dropRole q).modQuad q fun y => { y with
      ctx := some c, active := .zero, shadow := .zero, acc := [], role := 0, chainFw := 0, tlb := [] }
    { s with poison := s.poison.filter (· ≠ Poison.engine q) }

/-- R312: a new workgroup of a launch starts, and its units keep to its die. -/
def placeNew (q : Nat) (id : Nat) (s : State) (x : Nat × Nat × Nat) : State :=
  match s.launch? id with
  | none => s
  | some l =>
    let r := l.record
    let wgid := x.1
    let lin := wgid / rcW r
    let i := wgid % rcW r
    match l.points.find? fun p => p.lin = lin with
    | none => s
    | some p =>
      let s := s.modLaunch id fun l => { l with
        points := l.points.map fun p =>
          if p.lin = lin then { p with todo := p.todo.filter (· ≠ i), held := false } else p
        pins := (rcDieLevels r).foldl (fun t y =>
          let k := y.1 * 2 ^ 32 + wgid / y.2
          if (tget t k).isSome then t else tput t k (q / 32)) l.pins }
      s.startWg l p i (4 * q + x.2.1) x.2.2

/-- R168: a team that has just been placed keeps the order of its slots. -/
def noteLayout (id wgid : Nat) : State :=
  match s.launch? id with
  | none => s
  | some l =>
    match s.teams.find? fun t => t.2.launch = id && t.2.unit = wgid / max 1 (rcTeam l.record) with
    | none => s
    | some t =>
      if t.2.layout ≠ [] then s
      else
        let ids := sortBy (fun a b => decide ((s.wg a).slot ≤ (s.wg b).slot)) t.2.wgs
        { s with teams := tput s.teams t.1 { t.2 with layout := ids.map fun w => (s.wg w).wgid } }

/-- Where an address goes now: its old place when its page is gone. -/
def movedPa (core c : Nat) (va : W64) (pa : Nat) : Nat :=
  match s.translate core c va false false with
  | .ok x _ => x.pa
  | _ => pa

/-- A saved thread on its core again: its waits count from now, its page may have moved (R219, R222), and what it had
queued comes before any later access (R195). -/
def wakeThread (core : Nat) (w : Wg) (x : Thread) : Thread :=
  let base := if w.halted then 0 else s.cyc
  { x with
    age := s.cyc, stallFrom := none, fullFrom := none, resid := s.fresh - 1
    st := match x.st with | .running | .stalled => .ready | y => y
    wait := x.wait.map fun y => { y with
      deadline := y.deadline.map (base + ·)
      idle := match y.kind with | .mem va pa none _ _ _ _ _ => !s.isLocal (s.movedPa core w.ctx va pa) | _ => false
      kind := match y.kind with
        | .mem va pa none ty cmp cond acq ext => .mem va (s.movedPa core w.ctx va pa) none ty cmp cond acq ext
        | .wmark va r n =>
            (match s.translate core w.ctx va false false with
             | .ok y _ => if isHost y.pa then .wmark va r n else .wmark va (s.recvOf y.pa) n
             | _ => .wmark va r n)
        | k => k } }

/-- Poison that went with a workgroup, where it stands now. -/
def wakePoison (w : Wg) : Poison → Poison
  | .reg t r => if r < 1000 then .reg (w.threadAt t) r else .reg (w.core * 64 + w.slot + t) r
  | p => p

/-- R238: what a saved workgroup has on its way knows its threads and its core again. -/
def wakeOrd (w : Wg) (core : Nat) (o : OrdOp) : OrdOp :=
  match o.work with
  | .access a =>
      if a.core = savedCore w.id then
        { o with work := .access { a with core, tids := a.tids.map fun t => w.threadAt (t - savedTid w.id 0) } }
      else o
  | .pen c flush ent pa row x => if c = savedCore w.id then { o with work := .pen core flush ent pa row x } else o
  | _ => o

/-- A saved command on its unit again, where it goes on when its lines are free (R267). -/
def wakeCmd (w : Wg) (m : Cmd) : Cmd := { m with tid := m.tid.map w.threadAt }

/-- R396: barrier entries of some groups stand in another quad's table only once they are named there. -/
def moveBars (tags : List Nat) (q : Nat) (bars : Tbl BarSt) : Tbl BarSt :=
  bars.map fun b =>
    if tags.contains (b.1 / 32) && b.2.quad ≠ q then (b.1, { b.2 with quad := q, resident := false, touched := 0 }) else b

/-- R274, R395: a saved workgroup goes on, on a core of a quad. -/
def loadWg (q : Nat) (s : State) (x : SavedWg × Nat × Nat) : State :=
  let core := 4 * q + x.2.1
  let w := { x.1.wg with core, slot := x.2.2 }
  let s := (s.clearClauses core w.ctx).setWg w.id w
  let s := x.1.threads.foldl (fun s t => s.setThread (w.threadAt t.1) (s.wakeThread core w t.2)) s
  let s := x.1.flocks.foldl (fun s f => s.setFlock (w.core * 64 + w.slot + f.1) f.2) s
  let s := x.1.groups.foldl (fun (s : State) g =>
    let (id, s) := s.newId
    { s with groups := s.groups ++ [{ g with id, core, members := g.members.map w.threadAt, age := s.cyc }] }) s
  let s := s.modCore core fun k => { k with
    l1 := []
    lists := x.1.lists.foldl (fun t l => tput t l.1 l.2) k.lists
    flushes := k.flushes ++ x.1.flushes.map fun f => { f with tid := w.threadAt f.tid }
    cmds := k.cmds ++ x.1.cmds.map (wakeCmd w)
    cb := x.1.cb.foldl (fun t b => tput t b.1 b.2) k.cb
    loads := if x.1.book then k.loads ++ [w.id] else k.loads }
  -- R195: the stores of the residue enter the queue again, in their order
  let back := x.1.residue.map fun a =>
    { a with core, tids := a.tids.map w.threadAt, pa := s.movedPa core w.ctx a.va a.pa, cycle := s.cyc, seen := false }
  let s := s.modCore core fun k => { k with sq := k.sq ++ back }
  let s := { s with ords := s.ords.map (wakeOrd w core) }
  let tags := 2 * w.id :: (match w.team with | some t => [2 * t + 1] | none => [])
  { s with
    poison := s.poison ++ x.1.poison.map (wakePoison w)
    teams := match w.team with
      | some t => (match tget s.teams t with | some y => tput s.teams t { y with quad := q } | none => s.teams)
      | none => s.teams
    bars := moveBars tags q s.bars }

/-- R154, R322: saved workgroups are restored together, with their engine image. -/
def placeSaved (q i : Nat) (spots : List (Nat × Nat)) : State :=
  match s.saved[i]? with
  | none => s
  | some x0 =>
    let c := x0.ctx
    let s := s.readSave c
    match s.saved[i]? with
    | none => s
    | some x =>
      if x.ctx ≠ c then s
      else
        let s := { s with saved := s.saved.eraseIdx i }
        let s := match x.image with
          | some m =>
              let s := (s.dropRole q).modQuad q fun y => { y with active := m.active, shadow := m.shadow, acc := m.acc }
              let s := { s with poison := s.poison.filter (· ≠ Poison.engine q) }
              if x.tainted then { s with poison := Poison.engine q :: s.poison } else s
          | none => s
        let s := (x.wgs.zip spots).foldl (loadWg q) s
        let s := x.wgs.foldl (fun (s : State) w => s.modLaunch w.wg.launch fun l => { l with
          points := l.points.map fun p => if p.lin = w.wg.point then { p with held := false } else p }) s
        if s.savedOf c = [] then s else s.writeSave c

/-- R312: earlier work that fits, or that is of one of the work's launches, keeps it back. -/
def keptBack (c : Nat) (l : List Work) (w : Work) : Bool :=
  l.any fun x => workBefore x w && (x.launches.any w.launches.contains || (s.placeFor c x).isSome)

/-- WORKGROUP_PLACEMENT: the first work that fits, and that no earlier work of its launch keeps back, is placed. -/
def placeWork (p : PlaceArgs) : State :=
  match s.quadHolder p.quad with
  | none => s
  | some c =>
    let l := s.workOf c
    match l.find? fun w => w.saved = p.saved && w.item = p.item with
    | none => s
    | some w =>
      if s.keptBack c l w || 64 ≤ p.quad || !s.quadTakes c p.quad w || !s.spotsOk p.quad w p.spots then s
      else
        let s := s.enterQuad p.quad c
        if w.saved then s.placeSaved p.quad p.item p.spots
        else
          (((w.needs.zip p.spots).map fun x => (x.1.2.2, x.2.1, x.2.2)).foldl (placeNew p.quad p.item) s).noteLayout p.item w.wgid

/-! ### HALT (R401, R402) -/

/-- The workgroups of a context that HALT names, on quads and in the save area. -/
def namedWgs (wgid : W32) (c : Nat) : List Nat :=
  (s.wgs.filter fun w => w.2.ctx = c && decide (w.2.core < 256) && !w.2.ended && (wgid = BitVec.allOnes 32 || w.2.wgid = wgid.toNat)).map (·.1)

def namedSaved (wgid : W32) (c : Nat) : List Nat :=
  (s.savedWgs c).filterMap fun w => if !w.wg.ended && (wgid = BitVec.allOnes 32 || w.wg.wgid = wgid.toNat) then some w.wg.id else none

/-- A change of some workgroups in the save area. -/
def modSaved (ids : List Nat) (f : Wg → Wg) : State :=
  let one (w : SavedWg) : SavedWg := if ids.contains w.wg.id then { w with wg := f w.wg } else w
  { s with saved := s.saved.map fun x => { x with wgs := x.wgs.map one } }

/-- R402: the halt state of saved workgroups, which their records hold. -/
def markSaved (c : Nat) (ids : List Nat) (on : Bool) : State :=
  if ids = [] then s else s.rewriteSave c fun s => s.modSaved ids fun w => { w with halted := on }

/-- R402: ready threads may run one clause. -/
def stepThreads (ids : List Nat) : State :=
  { s with threads := tmap s.threads fun t =>
      if ids.contains t.wg && t.st = .ready then { t with stepping := true } else t }

/-- R402: a halted workgroup's own accesses, signatures and fills are done, but for what may stay on its way (R238). -/
def wgDrained (wid : Nat) : Bool :=
  let w := s.wg wid
  let ts := s.threadsOf wid
  let mine (a : Access) : Bool := a.tids.any ts.contains
  !(s.accs.any mine) && !s.seenHeld w.core && !((s.core w.core).wcb.any fun e => e.stores.any mine) &&
    !(s.ords.any fun o => match o.work with
      | .access a => mine a && !staysOut a.op
      | _ => false) &&
    !((s.quad (coreQuad w.core)).table.any fun e => e.wg = wid || e.signers.any ts.contains)

/-- R21: ended workgroups of teams whose other workgroups are all among some. -/
def endedMates (ids : List Nat) : List Nat :=
  (s.wgs.filter fun w => w.2.ended && match w.2.team.bind fun t => tget s.teams t with
    | some t => t.wgs.all fun m => (s.wg m).ended || ids.contains m
    | none => false).map (·.1)

/-- R402: halted workgroups are saved from every quad they stand on. -/
def saveHalted (c : Nat) (live : List Nat) : State :=
  let ids := live ++ s.endedMates live
  let qs := (ids.map fun w => coreQuad (s.wg w).core).eraseDups
  qs.foldl (fun (s : State) q =>
    let here := ids.filter fun w => coreQuad (s.wg w).core = q
    let launches := (here.map fun w => (s.wg w).launch).eraseDups
    let s := (here.map fun w => (s.wg w).core).eraseDups.foldl (fun s k => s.endTsets k) s
    let s := launches.foldl (fun (s : State) id =>
      let mine (p : PointSt) : Bool := here.any fun w => (s.wg w).launch = id && (s.wg w).point = p.lin
      let hold (p : PointSt) : PointSt := if mine p then { p with held := true } else p
      s.modLaunch id fun l => if rcNdep l.record = 0 then l else saveFrontier { l with points := l.points.map hold }) s
    s.saveWgs q c here true) s

/-- R402: an operation of HALT on workgroups of a context, by a thread of workgroup `own` if by a thread. -/
def haltOp (op : HaltOp) (wgid : W32) (c : Nat) (own : Option Nat) : HaltRes :=
  let every := wgid = BitVec.allOnes 32
  let ids := s.namedWgs wgid c
  let kept := s.namedSaved wgid c
  let mine := match own with | some w => ids.contains w | none => false
  let all := ids.all (fun w => (s.wg w).halted) &&
    (s.savedWgs c).all fun w => !kept.contains w.wg.id || w.wg.halted
  if decide (256 ≤ c) || (!every && ids = [] && kept = []) || mine then .done 2 s
  else match op with
    | .halt =>
        let s := (ids.foldl (fun s w => s.haltWg w) s).markSaved c kept true
        let s := ids.foldl (fun s w => s.stopSigns (s.threadsOf w)) s
        .done 0 (if every then s.modCtx c fun x => { x with halted := true } else s)
    | .run =>
        let s := (ids.foldl (fun s w => s.resumeWg w) s).markSaved c kept false
        .done 0 (if every then s.modCtx c fun x => { x with halted := false } else s)
    | .step => if all then .done 0 (s.stepThreads ids) else .done 2 s
    | .save =>
        if !all then .done 2 s
        else if ids.all s.wgDrained then .done 0 (s.saveHalted c ids)
        else .later (ids.foldl (fun s w => s.sendAllOwn (s.threadsOf w)) s)

end State

/-- R402: one participant's HALT, its operands read from a state in which none has written (R14). -/
def haltOne (op : HaltOp) (x : DAB) (ps : List Nat) (r s : State) (t : Nat) : State × Bool :=
  let own := if isCp t then none else some (s.thread t).wg
  match s.haltOp op (r.rd t x.a) (r.rd t x.b).toNat own with
  | .done k s => (if s.hasThread t then s.status t (State.statusReg x.d ps t) k else s, true)
  | .later s => (s, false)

def execHalt (x : DAB) (s : State) : Result :=
  .next (s.issue (.halt x) fun _ ps s => State.eachOwn (haltOne .halt x ps s) ps s)

def execHaltRun (x : DAB) (s : State) : Result :=
  .next (s.issue (.haltRun x) fun _ ps s => State.eachOwn (haltOne .run x ps s) ps s)

def execHaltStep (x : DAB) (s : State) : Result :=
  .next (s.issue (.haltStep x) fun _ ps s => State.eachOwn (haltOne .step x ps s) ps s)

def execHaltSave (x : DAB) (s : State) : Result :=
  .next (s.issue (.haltSave x) fun _ ps s => State.eachOwn (haltOne .save x ps s) ps s)

/-! ### What a saved context has on its way (R238, R267) -/

namespace State

variable (s : State)

/-- The saved workgroups that have something on its way, and their contexts. -/
def savedCores : List Nat :=
  (s.ords.filterMap fun o => match o.work with
    | .access a => some a.core
    | .pen core .. => some core
    | _ => none).filter fun c => decide (savedCore 0 ≤ c)

def outSaved : List (Nat × SavedWg) :=
  let l := s.savedCores
  if l = [] then [] else s.saved.flatMap fun q => (q.wgs.filter fun x => l.contains (savedCore x.wg.id)).map fun x => (q.ctx, x)

/-- A saved workgroup's threads and flushes stand on a core of their own while what it has on its way ends. -/
def lendWg (x : SavedWg) : State :=
  let w := { x.wg with core := savedCore x.wg.id }
  let s := x.threads.foldl (fun (s : State) t => s.setThread (savedTid w.id t.1) t.2) (s.setWg w.id w)
  s.setCore w.core { Core.idle with flushes := x.flushes.map fun f => { f with tid := savedTid w.id f.tid } }

/-- Its threads and flushes as they now are. -/
def lentWg (x : SavedWg) : SavedWg :=
  if (tget s.wgs x.wg.id).isNone then x
  else { x with
    threads := x.threads.map fun t => (t.1, (tget s.threads (savedTid x.wg.id t.1)).getD t.2)
    flushes := (s.core (savedCore x.wg.id)).flushes.map fun f => { f with tid := f.tid - savedTid x.wg.id 0 } }

/-- The saved workgroups are saved again. -/
def takeBack : State :=
  let lent := (s.cores.filter fun k => decide (savedCore 0 ≤ k.1)).map (·.1)
  let s := lent.foldl (fun s k => ((s.core k).fstat.map (·.1)).foldl (fun (s : State) c => s.mergeFlags k c) s) s
  { s with
    saved := s.saved.map fun q => { q with wgs := q.wgs.map fun x => if lent.contains (savedCore x.wg.id) then s.lentWg x else x }
    threads := s.threads.filter fun t => decide (t.1 < savedTid 0 0)
    wgs := s.wgs.filter fun w => decide (w.2.core < savedCore 0)
    cores := s.cores.filter fun k => decide (k.1 < savedCore 0) }

/-- R238, R267: the end of something on its way, or the notice of a cut, is recorded with the saved thread, and in the save
area. -/
def onLoan (f : State → State) : State :=
  match s.outSaved with
  | [] => f s
  | l =>
    let cs := (l.map (·.1)).eraseDups
    let s := cs.foldl (fun (s : State) c => s.readSave c) s
    let s := takeBack (f (s.outSaved.foldl (fun s x => s.lendWg x.2) s))
    cs.foldl (fun (s : State) c => if s.savedOf c = [] then s else s.writeSave c) s

end State

/-- ACCESS_LOSS (R199, R202, R241, R372). -/
def execAccessLoss (x : Loss) (s : State) : Result :=
  .next (if 2 ^ 32 ≤ x.id then s.loseWait (x.id - 2 ^ 32) x.refused else s.onLoan fun s => s.loseById x.id x.refused)

/-- ORDER_LATE (R232). -/
def execOrderLate (op : Nat) (s : State) : Result := .next (s.onLoan fun s => s.lateById op)

/-- ORDERED_ACK (R225, R231, R232). -/
def execOrderedAck (op : Answer) (s : State) : Result := .next (s.onLoan fun s => s.ackById op.id op.reply).pumpFlushes

/-- CUT_REQUEST (R233, R234). -/
def execCutRequest (recv node : Nat) (port : CutPort) (s : State) : Result :=
  .next (s.onLoan fun s => s.requestCut recv node port.port port.slow)

/-- QUAD_HANDOVER (R154, R340). -/
def execQuadHandover (quad : Nat) (s : State) : Result := .next (s.handOver quad)

/-- WORKGROUP_PLACEMENT (R22, R26, R154, R312). -/
def execWorkgroupPlacement (p : PlaceArgs) (s : State) : Result := .next (s.placeWork p)

end Sys2Proof.Machine
end

