-- ==== Sys2Proof/Machine/Market.lean ====
section
/-!
DEFINITION. The Commons (12 R328 to R353): work and claims, the close with its clamping, clearing and
assignment, the boundary, handovers and recalls; BID, PRICE, PURSE, LEASE, METER and RECALL, with the
events MARKET_CLOSE, MARKET_BOUNDARY, WAY_HANDOVER, PRICE_RECEIVE, MARKET_TABLE_WRITE and
IDLE_SLOT_SHARE.
-/

namespace Sys2Proof.Machine

/-! ### Pools and units (R328) -/

/-- Units in a pool of a code: 0 for a code that names none. -/
def poolUnits (code : Nat) : Nat :=
  match code / 64 with
  | 0 => if code % 64 < 2 then 32 else 0
  | 1 => if code % 64 < 2 then 14 else 0
  | 2 => if code % 64 < 2 then 16 else 0
  | 3 => if code % 64 < 24 then 4 else 0
  | _ => 0

/-- The pool codes, in ascending order. -/
def poolCodes : List Nat := (upTo 256).filter fun c => poolUnits c ≠ 0

def poolClass (code : Nat) : Nat := code / 64
def poolIndex (code : Nat) : Nat := code % 64

/-- R331: an unsigned 32-bit count that saturates. -/
def purseAdd (p n : Nat) : Nat := min (p + n) (2 ^ 32 - 1)

/-- R333, R334: a bid as it is used at a close. -/
structure Offer where
  ctx : Nat
  tenant : Nat
  pool : Nat
  qty : Nat
  price : Nat
  deriving DecidableEq, Repr

/-- R333: a tenant's bids clamped against its purse, in order of pool and context. -/
def clampOffers (purse : Nat) : List Offer → Nat → List Offer
  | [], _ => []
  | b :: t, c =>
    let p := if purse - c < b.qty * b.price then (purse - c) / b.qty else b.price
    { b with price := p } :: clampOffers purse t (c + b.qty * p)

/-- R334: what TieRank compares of a bidder: owner weight and the interval of its last win. -/
structure Rival where
  offer : Offer
  weight : Nat
  won : Option Nat
  deriving DecidableEq, Repr

/-- R334: one bid is served before another. -/
def rivalBefore (a b : Rival) : Bool :=
  let last (o : Option Nat) : Nat := match o with | none => 0 | some i => i + 1
  if a.offer.price ≠ b.offer.price then decide (b.offer.price < a.offer.price)
  else if a.weight ≠ b.weight then decide (b.weight < a.weight)
  else if last a.won ≠ last b.won then decide (last a.won < last b.won)
  else if a.offer.tenant ≠ b.offer.tenant then decide (a.offer.tenant < b.offer.tenant)
  else decide (a.offer.ctx ≤ b.offer.ctx)

/-- R334: how many units each bid wins, in the order they are served. -/
def shareOut : List Rival → Nat → List (Offer × Nat)
  | [], _ => []
  | b :: t, free => (b.offer, min b.offer.qty free) :: shareOut t (free - min b.offer.qty free)

/-- R334: the price of a pool: the highest losing bid, or the reserve. -/
def clearPrice (reserve : Nat) (l : List (Offer × Nat)) : Nat :=
  let losers := l.filter fun x => x.2 < x.1.qty
  if losers = [] then reserve else losers.foldl (fun m x => max m x.1.price) 0

/-- R335: one pass: each winner in turn takes units that a test allows, until it has won its count. -/
def assignPass (may : Offer → Nat → Bool) (units : List Nat) : List (Offer × Nat) → List (Nat × Offer) → List (Nat × Offer)
  | [], got => got
  | (b, won) :: t, got =>
    let have_ := (got.filter fun x => x.2.ctx = b.ctx).length
    let free := units.filter fun u => may b u && !(got.any fun x => x.1 = u)
    assignPass may units t (got ++ (free.take (won - have_)).map fun u => (u, b))

namespace State

variable (s : State)

/-- A unit of the market table; one that nothing has set is unlisted and tenant 0's (R329). -/
def mktUnit (k : Nat) : MktUnit := (tget s.market.units k).getD .zero

def setUnit (k : Nat) (u : MktUnit) : State := { s with market := { s.market with units := tput s.market.units k u } }

def poolAt (code : Nat) : Pool := (tget s.market.pools code).getD .zero

/-- R330: the interval index of pod time. -/
def intervalIndex (t : Nat) : Nat := t / s.market.interval

/-! ### Work (R337) -/

/-- Contexts of a tenant that have anything at all. -/
def contextsOf (tenant : Nat) : List Nat := (s.ctxs.filter fun c => s.ctxTenant c.1 = tenant).map (·.1)

/-- R337: workgroups of a context await placement or restore on a die. -/
def awaits (c die : Nat) : Bool :=
  let here (l : Launch) (wgid : Nat) : Bool := match pinnedDie l wgid with | none => true | some d => d = die
  (s.savedWgs c).any (fun w => match s.launch? w.wg.launch with | some l => here l w.wg.wgid | none => true) ||
    s.launches.any fun l => l.ctx = c && !l.reserved && l.points.any fun p =>
      p.todo.any fun i => here l (p.lin * rcW l.record + i)

/-- The context of the work that a queued flit belongs to. -/
def flitCtx (f : Flit) : Option Nat :=
  let ord (o : OrdOp) : Option Nat := match o.work with
    | .access a => some a.ctx
    | .pen _ _ _ _ _ c | .signal _ _ _ c => some c
    | .inbound .. => none
  ((s.accs.find? fun a => a.id = f.id).map (·.ctx)).orElse fun _ =>
  ((s.ords.find? fun o => o.id = f.id).bind ord).orElse fun _ =>
  (s.cores.findSome? fun k => (k.2.wcb.find? fun e => e.id = f.id).map (·.ctx)).orElse fun _ =>
  (s.cores.findSome? fun k => (k.2.cmds.find? fun m => m.id = f.id).map (·.ctx)).orElse fun _ =>
  if 2 ^ 32 ≤ f.id && s.hasThread (f.id - 2 ^ 32) then some (s.ctxOf (f.id - 2 ^ 32)) else none

/-- R337: a context has work in a unit's class. -/
def hasWork (c code idx : Nat) : Bool :=
  let die := poolIndex code
  let resident (q : Nat) : Bool := (s.wgsOn q).any fun w => (s.wg w).ctx = c
  match poolClass code with
  | 0 => resident (die * 32 + idx) || s.awaits c die
  | 1 | 2 =>
      (s.dirty.any fun d => d.2.ctx = c && sliceDie (s.dirtySlice d.1) = die) ||
        s.wgs.any fun w => w.2.ctx = c && decide (w.2.core < 256) && coreDie w.2.core = die
  | _ =>
      (s.flitsAt die).any fun f => match s.flitCtx f with
        | some x => x = c
        | none => f.tenant = s.ctxTenant c

/-- R337: the owner's lowest-numbered context with work in a unit's class. -/
def ownerHolder (owner code idx : Nat) : Option Nat := (s.contextsOf owner).find? fun c => s.hasWork c code idx

/-- R330: until the first boundary, a unit that no context holds goes to its owner's lowest context as soon as
it has work. -/
def claimUnits : State :=
  if s.market.begun || (s.launches = [] && s.saved = [] && s.wgs = [] && s.dirty = [] && s.flitq.all (·.2 = [])) then s
  else
    poolCodes.foldl (fun s code => (upTo (poolUnits code)).foldl (fun s i =>
      let k := unitKey code i
      let u := s.mktUnit k
      if u.holder.isSome then s
      else match s.ownerHolder u.owner code i with
        | some c => s.setUnit k { u with holder := some c, price := some 0 }
        | none => s) s) s

/-! ### The close (R333 to R337, R339) -/

/-- R332: the bids that stand. -/
def standing : List Offer :=
  sortBy (fun a b => decide (a.pool < b.pool) || (a.pool = b.pool && decide (a.ctx ≤ b.ctx)))
    (s.ctxs.flatMap fun c => c.2.bids.filterMap fun b =>
      if b.2.1 = 0 then none else some ⟨c.1, s.ctxTenant c.1, b.1, b.2.1, b.2.2⟩)

/-- R333: every tenant's bids, clamped. -/
def clamped : List Offer :=
  ((s.standing.map (·.tenant)).eraseDups).flatMap fun t =>
    clampOffers (s.tenant t).purse (s.standing.filter fun b => b.tenant = t) 0

/-- The listed units of a pool. -/
def listedUnits (code : Nat) : List Nat := (upTo (poolUnits code)).filter fun i => (s.mktUnit (unitKey code i)).listed

/-- R334: the bids of a pool in the order they are served. -/
def rivals (code : Nat) (offers : List Offer) : List Rival :=
  sortBy rivalBefore ((offers.filter fun b => b.pool = code && decide ((s.poolAt code).reserve ≤ b.price)).map fun b =>
    { offer := b, won := tget (s.tenant b.tenant).lastWon code
      weight := ((s.listedUnits code).filter fun i => (s.mktUnit (unitKey code i)).owner = b.tenant).length })

/-- R335: which unit goes to which winner. -/
def assign (code : Nat) (won : List (Offer × Nat)) : List (Nat × Offer) :=
  let us := s.listedUnits code
  let a := assignPass (fun b i => (s.mktUnit (unitKey code i)).holder = some b.ctx) us won []
  let a := assignPass (fun b i => (s.mktUnit (unitKey code i)).owner = b.tenant) us won a
  assignPass (fun _ _ => true) us won a

/-- R335 to R337, R344: one unit's coming interval. -/
def settleUnit (code price : Nat) (got : List (Nat × Offer)) (s : State) (i : Nat) : State :=
  let k := unitKey code i
  let u := s.mktUnit k
  let cls := poolClass code
  match got.find? fun x => x.1 = i with
  | some (_, b) =>
      let s := (s.modTenant b.tenant fun t => { t with purse := t.purse - price }).modTenant u.owner fun t =>
        { t with purse := purseAdd t.purse price }
      let s := ((s.bump 0 b.tenant 0 price).bump 0 b.tenant (2 + cls) 1).bump 1 u.owner 0 price
      (s.bump 1 u.owner (2 + cls) 1).setUnit k { u with next := some b.ctx, nextPrice := some price }
  | none =>
    match s.ownerHolder u.owner code i with
    | some c => (s.bump 0 u.owner 11 1).setUnit k { u with next := some c, nextPrice := some 0 }
    | none => (s.bump 1 u.owner (6 + cls) 1).setUnit k { u with next := none, nextPrice := none }

/-- R334 to R337: one pool at a close of an interval; with no unit sold its price is the reserve (R348). -/
def closePool (idx : Nat) (offers : List Offer) (s : State) (code : Nat) : State :=
  let won := shareOut (s.rivals code offers) (s.listedUnits code).length
  let price := clearPrice (s.poolAt code).reserve won
  let winners := won.filter fun x => x.2 ≠ 0
  let got := s.assign code winners
  let price := if got = [] then (s.poolAt code).reserve else price
  let s := (upTo (poolUnits code)).foldl (settleUnit code price got) s
  let s := winners.foldl (fun (s : State) x => s.modTenant x.1.tenant fun t => { t with lastWon := tput t.lastWon code idx }) s
  { s with market := { s.market with
      pools := tput s.market.pools code { s.poolAt code with clears := some (price, got.length, idx % 2 ^ 32) } } }

/-- R392: a price above a context's limit places a packet in its policy queue. -/
def policyPacket (s : State) (c : Nat) : State :=
  let w := (s.ctx c).words.mpol
  let pool := bitsOf w 40 8
  match (s.poolAt pool).clears with
  | some (price, _, _) =>
    if !w.getLsbD 63 || price ≤ bitsOf w 0 32 then s
    else
      let d := s.draws
      let s := { s with draws := d + 1 }
      match s.offerPacket (s.ctxVd c) (bitsOf w 48 6)
          { ctx := c, seq := Config.anyValue d % 2 ^ 32, from_ := none, body := natLe 8 (c + pool * 2 ^ 8 + price * 2 ^ 32) } with
      | .ok s => s
      | .error _ => s.vdError (s.ctxVd c)
  | none => s

/-- MARKET_CLOSE: 25 µs before the boundary. -/
def closeMarket : State :=
  if !s.timed || s.market.closed || s.now + 100000 < s.market.ends then s
  else
    let offers := s.clamped
    let s := poolCodes.foldl (closePool (s.intervalIndex (s.market.ends - 1)) offers) s
    let s := { s with market := { s.market with closed := true } }
    (s.ctxs.map (·.1)).foldl policyPacket s

/-! ### Write-lane slots (R338) -/

/-- R338: the lines of a context that are queued for a die's write lanes. -/
def queuedLines (c die : Nat) : Nat :=
  (s.dirty.filter fun d => !(d.2.wb && d.2.lane = []) && d.2.ctx = c && sliceDie (s.dirtySlice d.1) = die).length

/-- R338: the contexts with dirty lines queued for a die's write lanes. -/
def drainers (die : Nat) : List Nat :=
  ((s.dirty.filter fun d => !(d.2.wb && d.2.lane = []) && sliceDie (s.dirtySlice d.1) = die).map (·.2.ctx)).eraseDups

/-- R338: the bytes of a µs that a context's own slots carry for the lines that it has queued. -/
def ownBytes (die c : Nat) : Nat := min (s.unitsHeld c (128 + die) * 225000) (128 * s.queuedLines c die)

/-- R338: the bytes of a µs that a die's slots carry for a context with lines queued: what its own slots use, and an
equal part of what is idle or unused in all of them. -/
def slotBytes (die c : Nat) : Nat :=
  let cs := s.drainers die
  s.ownBytes die c + (16 * 225000 - cs.foldl (fun n x => n + s.ownBytes die x) 0) / max 1 cs.length

/-- R338: a table of a die's bytes begins a new µs; what is less than a line goes over into it. -/
def freshShare (die : Nat) (t : Tbl Nat) (f : Nat → Nat) : Tbl Nat :=
  (s.drainers die).foldl (fun r c => tput r (die * 256 + c) ((tget t (die * 256 + c)).getD 0 % 128 + f c))
    (t.filter fun x => x.1 / 256 ≠ die)

/-- R338: a die's slots are divided for a µs, and the system share makes up 0.5 GB/s, 500 bytes, for every context that
has lines queued. -/
def divideSlots (die : Nat) : State :=
  { s with market := { s.market with
      share := s.freshShare die s.market.share (s.slotBytes die)
      topUp := s.freshShare die s.market.topUp fun c => 500 - s.slotBytes die c
      shareAt := tput s.market.shareAt die s.now } }

/-! ### Handovers (R187, R340 to R342) -/

/-- R342: tokens above a tenant's new depth on a port are dropped. -/
def trimTokens : State :=
  let ports := (upTo 24).filter fun p => s.tenants.any fun t => (tget t.2.flits p).isSome
  ports.foldl (fun (s : State) p =>
    { s with tenants := s.tenants.map fun t =>
        (t.1, { t.2 with flits := tput t.2.flits p (min ((tget t.2.flits p).getD 0) (s.portDepth t.1 p)) }) }) s

/-- R342: slots and lanes that have changed holder do so at once: the slots are divided anew, and the tokens trimmed. -/
def passShares : State := ((s.divideSlots 0).divideSlots 1).trimTokens

/-- R187, R341: the dirty lines of a context that stand in a way of a die. -/
def linesIn (c die way : Nat) : List Nat :=
  (s.dirty.filter fun d => d.2.ctx = c && d.2.way = some way && sliceDie (s.dirtySlice d.1) = die).map (·.1)

/-- A unit is taken from the context that held it: a quad by R340, which breaks its links (R165), a way by R341. -/
def takeUnit (code idx : Nat) (old : Option Nat) : State :=
  match old with
  | none => s
  | some c =>
    let k := unitKey code idx
    match poolClass code with
    | 0 =>
      let q := poolIndex code * 32 + idx
      if (s.quad q).handover then s
      else if s.wgsOn q = [] && (s.quad q).table = [] then s.dropRole q
      else (s.beginStop q).modUnit k fun u => { u with leaving := some c }
    | 1 =>
      let d := poolIndex code
      if s.linesIn c d idx ≠ [] then
        s.modUnit k fun u => { u with leaving := some c }
      else s
    | _ => s

/-- WAY_HANDOVER: the old holder's lines are written back through the system share, and the way passes. -/
def wayOver (k : Nat) : State :=
  let u := s.mktUnit k
  match u.leaving with
  | some c =>
    if poolClass (k / 256) ≠ 1 then s
    else
      let lines := s.linesIn c (poolIndex (k / 256)) (k % 256)
      let s := lines.foldl (fun (s : State) l =>
        { s.bump 0 (s.ctxTenant c) 7 128 with dirty := tdel s.dirty l }) s
      s.modUnit k fun u => { u with leaving := none }
  | none => s

/-! ### The boundary (R331, R339) -/

/-- R329: a change of the market table takes effect. -/
def applyTable (t : MarketTable) : State :=
  let s := t.units.foldl (fun (s : State) x =>
    if x.2.1 < poolUnits x.1 ∧ x.2.2.1 < 256 then
      s.setUnit (unitKey x.1 x.2.1) { s.mktUnit (unitKey x.1 x.2.1) with owner := x.2.2.1, listed := x.2.2.2 }
    else s) s
  let s := t.reserves.foldl (fun (s : State) x =>
    if poolUnits x.1 = 0 then s
    else { s with market := { s.market with pools := tput s.market.pools x.1 { s.poolAt x.1 with reserve := x.2 % 2 ^ 32 } } }) s
  let s := t.tenants.foldl (fun (s : State) x =>
    if x.1 < 256 then s.modTenant x.1 fun y => { y with rate := x.2.1 % 2 ^ 32, cap := x.2.2 % 2 ^ 32 } else s) s
  match t.interval with
  | some i => if i % 200000 = 0 ∧ 200000 ≤ i ∧ i ≤ 32000000 then { s with market := { s.market with interval := i } } else s
  | none => s

/-- One unit at a boundary: its lease lapses and the coming one begins. -/
def turnUnit (code : Nat) (s : State) (i : Nat) : State :=
  let k := unitKey code i
  let u := s.mktUnit k
  if u.holder = none && u.next = none && u.leaving = none then s
  else
    let s := s.setUnit k { u with holder := u.next, price := u.nextPrice, next := none, nextPrice := none, idle := false }
    if u.holder = u.next then s else s.takeUnit code i u.holder

/-- R331: a purse refills. -/
def refill (t : Tenant) : Tenant := if t.purse < t.cap then { t with purse := t.purse + min t.rate (t.cap - t.purse) } else t

/-- MARKET_BOUNDARY: an interval ends, and the next begins. -/
def turnMarket : State :=
  if !s.timed || !s.market.closed || s.now < s.market.ends then s
  else
    let s := match s.market.pending with
      | some t => { s.applyTable t with market := { (s.applyTable t).market with pending := none } }
      | none => s
    let s := (poolCodes.foldl (fun s code => (upTo (poolUnits code)).foldl (turnUnit code) s) s).passShares
    let s := { s with tenants := tmap s.tenants refill }
    let sends := poolCodes.filterMap fun c => (s.poolAt c).clears.map fun x => Sent.clearing c x.1 x.2.1 x.2.2
    { s with
      sent := s.sent ++ sends
      market := { s.market with
        closed := false, begun := true, turned := some s.cyc, ends := (s.now / s.market.interval + 1) * s.market.interval } }

/-! ### Recall (R343) -/

/-- The lent units that a recall takes. -/
def recallUnits (owner code count : Nat) : List Nat :=
  let l := (upTo (poolUnits code)).filter fun i =>
    let u := s.mktUnit (unitKey code i)
    u.owner = owner && (match u.holder with | some c => s.ctxTenant c ≠ owner | none => false)
  if count = 0 then l else l.take count

/-- R343, R353: the pod time from a recall to the ending boundary: the whole interval in the cycle of a boundary. -/
def recallTime : Nat := if s.market.turned = some s.cyc then s.market.interval else s.market.ends - s.now

/-- R343, R344: one unit is recalled, its borrower refunded. -/
def recallUnit (owner code : Nat) (give : Option Nat) (s : State) (i : Nat) : State :=
  let k := unitKey code i
  let u := s.mktUnit k
  match u.holder with
  | none => s
  | some c =>
    let b := s.ctxTenant c
    let refund := u.price.getD 0 * s.recallTime / s.market.interval
    let paid := min refund (s.tenant owner).purse
    let s := (s.modTenant b fun t => { t with purse := purseAdd t.purse refund }).modTenant owner fun t =>
      { t with purse := t.purse - paid }
    let s := ((s.bump 0 b 1 refund).bump 0 b 10 1).bump 1 owner 1 paid
    let s := (s.bump 1 owner 10 1).bump 1 owner 11 (refund - paid)
    let give := match give with | some c => some c | none => s.ownerHolder owner code i
    (s.setUnit k { u with holder := give, price := some 0, idle := false }).takeUnit code i (some c)

end State

/-! ### The market instructions (R346 to R352) -/

/-- R328: a pool code in a register. -/
def poolOf (a : W32) : Option Nat := if a.toNat < 256 ∧ poolUnits a.toNat ≠ 0 then some a.toNat else none

/-- R14, R346: each participant completes at issue, in ascending lane order, its operands read from the state in which
none has written. -/
def marketBody (one : State → State → Nat → State) (_ : Group) (ps : List Nat) (s : State) : State :=
  (ps.foldl (one s) s).advance

/-- The context for which a thread acts in the market (R347). -/
def marketCtx (s : State) (t : Nat) : Nat :=
  match s.runOf t with
  | some r => if isCp t then r.packet.ctx else s.ctxOf t
  | none => s.ctxOf t

/-- R347: one participant's BID. -/
def bidOne (x : DABC) (ps : List Nat) (r s : State) (t : Nat) : State :=
  let d := State.statusReg x.d ps t
  let price := (r.rd t x.b).toNat
  let qty := (r.rd t x.c).toNat
  match poolOf (r.rd t x.a) with
  | none => s.commitWg t |>.status t d 2
  | some code =>
    if poolUnits code < qty then (s.commitWg t).status t d 2
    else
      let c := marketCtx s t
      let s := s.commitWg t
      let s := if isCp t then s.modRun t fun r => { r with held := r.held ++ [.bid c code qty price] }
        else s.modCtx c fun y => { y with bids := tput y.bids code (qty, price) }
      s.status t d 0

def execBid (x : DABC) (s : State) : Result := .next (s.issue (.bid x) fun g ps s => marketBody (bidOne x ps) g ps s)

/-- R348: a clearing's price or its units sold, with its interval index. -/
def priceWord (s : State) (a b : W32) (sold : Bool) : Nat :=
  let rcd := match poolOf a with
    | none => none
    | some code =>
      if 4096 ≤ b.toNat then none
      else if b.toNat = s.node.toNat then (s.poolAt code).clears
      else tget s.market.remote (b.toNat * 256 + code)
  match rcd with
  | some (p, n, i) => (if sold then n else p) + i % 2 ^ 32 * 2 ^ 32
  | none => 2 ^ 64 - 1

def execPrice (x : DAB) (s : State) : Result :=
  .next (s.issue (.price x) fun g ps s =>
    marketBody (fun r s t => s.wrD t (State.dstFor x.d ps t) 2 (priceWord s (r.rd t x.a) (r.rd t x.b) false)) g ps s)

def execPriceSold (x : DAB) (s : State) : Result :=
  .next (s.issue (.priceSold x) fun g ps s =>
    marketBody (fun r s t => s.wrD t (State.dstFor x.d ps t) 2 (priceWord s (r.rd t x.a) (r.rd t x.b) true)) g ps s)

/-- R349: the tenant that PURSE names, if the thread may name it. -/
def purseTenant (x : PurseArgs) (r s : State) (t : Nat) : Option Nat :=
  let own := s.ctxTenant (marketCtx s t)
  match x.tenant with
  | none => some own
  | some a =>
    let v := (r.rd t a).toNat
    if 256 ≤ v || (v ≠ own && !s.fullPriv t) then none else some v

/-- R349: one participant's PURSE. -/
def purseOne (x : PurseArgs) (f : Tenant → Nat) (ps : List Nat) (r s : State) (t : Nat) : State :=
  s.wrD t (State.dstFor x.d ps t) 1 (match purseTenant x r s t with | some n => f (s.tenant n) | none => 2 ^ 32 - 1)

def execPurse (x : PurseArgs) (s : State) : Result :=
  .next (s.issue (.purse x) fun g ps s => marketBody (purseOne x (·.purse) ps) g ps s)

def execPurseRate (x : PurseArgs) (s : State) : Result :=
  .next (s.issue (.purseRate x) fun g ps s => marketBody (purseOne x (·.rate) ps) g ps s)

def execPurseCap (x : PurseArgs) (s : State) : Result :=
  .next (s.issue (.purseCap x) fun g ps s => marketBody (purseOne x (·.cap) ps) g ps s)

/-- R350: HELD and KEEP. -/
def leaseWord (s : State) (c : Nat) (a : W32) : Nat :=
  match poolOf a with
  | none => 2 ^ 64 - 1
  | some code =>
    let mask (f : MktUnit → Bool) : Nat :=
      (upTo (poolUnits code)).foldl (fun m i => m + if f (s.mktUnit (State.unitKey code i)) then 2 ^ i else 0) 0
    let held := mask fun u => u.holder = some c && u.leaving.isNone
    held + (if s.market.closed then mask fun u => u.next = some c else held) * 2 ^ 32

/-- R350: the pod time left in the interval; before the package has taken pod time no rule gives it. -/
def leaseTime (s : State) (a : W32) : Nat :=
  match poolOf a with
  | none => 2 ^ 64 - 1
  | some _ =>
    let left := if s.timed then s.market.ends - s.now else Config.anyValue s.cyc
    left % 2 ^ 63 + if s.market.closed then 2 ^ 63 else 0

def execLease (x : DA) (s : State) : Result :=
  .next (s.issue (.lease x) fun g ps s =>
    marketBody (fun r s t => s.wrD t (State.dstFor x.d ps t) 2 (leaseWord s (marketCtx s t) (r.rd t x.a))) g ps s)

def execLeaseTime (x : DA) (s : State) : Result :=
  .next (s.issue (.leaseTime x) fun g ps s =>
    marketBody (fun r s t => s.wrD t (State.dstFor x.d ps t) 2 (leaseTime s (r.rd t x.a))) g ps s)

/-- R344, R351: a counter, if the table assigns it. -/
def meterOf (s : State) (view subj ctr : Nat) : Option Nat :=
  match view with
  | 0 | 1 => if ctr < 12 then some (s.meter view subj ctr) else none
  | 2 => if ctr < 5 then some (s.meter view subj ctr) else none
  | _ =>
    if 24 ≤ subj then none
    else
      let p := s.port (State.fabricPort subj)
      match ctr with
      | 0 => some ((tget s.crc subj).getD 0)
      | 1 => some p.slow
      | 2 => some p.cuts
      | 3 => some p.late
      | _ => none

/-- R351: one read of a meter. -/
def meterWord (s : State) (t : Nat) (a : W32) : Nat :=
  let view := natBits a.toNat 30 2
  let subj := natBits a.toNat 8 8
  let own := s.ctxTenant (marketCtx s t)
  let may := s.fullPriv t || (match view with | 0 | 1 => subj = own | 2 => s.ctxTenant subj = own | _ => false)
  if natBits a.toNat 16 14 ≠ 0 || !may then 2 ^ 64 - 1
  else ((meterOf s view subj (natBits a.toNat 0 8)).map (· % 2 ^ 64)).getD (2 ^ 64 - 1)

def execMeter (x : DA) (s : State) : Result :=
  .next (s.issue (.meter x) fun g ps s =>
    marketBody (fun r s t => s.wrD t (State.dstFor x.d ps t) 2 (meterWord s t (r.rd t x.a))) g ps s)

/-- R343, R352: a recall for an owner; none when its operands are invalid. -/
def recallFor (s : State) (owner : Nat) (give : Option Nat) (a b : W32) : Option (Nat × State) :=
  match poolOf a with
  | none => none
  | some code =>
    if 256 ≤ owner then none
    else
      let us := s.recallUnits owner code b.toNat
      some (us.length, (us.foldl (State.recallUnit owner code give) s).passShares)

/-- R352: the count recalled, or all ones. -/
def recallDone (d : Reg) (s : State) (t : Nat) (r : Option (Nat × State)) : State :=
  match r with
  | some (n, s) => s.wrD t d 1 n
  | none => s.wrD t d 1 (2 ^ 32 - 1)

def execRecallReq (x : DAB) (s : State) : Result :=
  .next (s.issue (.recallReq x) fun g ps s =>
    marketBody (fun r s t =>
      let c := marketCtx s t
      recallDone (State.dstFor x.d ps t) s t (recallFor s (s.ctxTenant c) (some c) (r.rd t x.a) (r.rd t x.b))) g ps s)

def execRecallT (x : DABC) (s : State) : Result :=
  .next (s.issue (.recallT x) fun g ps s =>
    marketBody (fun r s t =>
      recallDone (State.dstFor x.d ps t) s t (recallFor s (r.rd t x.c).toNat none (r.rd t x.a) (r.rd t x.b))) g ps s)

/-! ### Events of the Commons -/

/-- MARKET_CLOSE (R339). -/
def execMarketClose (s : State) : Result := .next s.closeMarket

/-- MARKET_BOUNDARY (R339). -/
def execMarketBoundary (s : State) : Result := .next s.turnMarket

/-- WAY_HANDOVER (R341). -/
def execWayHandover (unit : Nat) (s : State) : Result := .next (s.wayOver unit)

/-- PRICE_RECEIVE (R348). -/
def execPriceReceive (p : PriceMsg) (s : State) : Result :=
  .next (if p.node = s.node.toNat || 4096 ≤ p.node || 256 ≤ p.pool then s
    else { s with market := { s.market with
      remote := tput s.market.remote (p.node * 256 + p.pool) (p.price % 2 ^ 32, p.sold, p.idx % 2 ^ 32) } })

/-- MARKET_TABLE_WRITE (R329): it takes effect at the next boundary. -/
def execMarketTableWrite (t : MarketTable) (s : State) : Result :=
  .next { s with market := { s.market with pending := some (match s.market.pending with
    | some p =>
      { units := p.units ++ t.units, reserves := p.reserves ++ t.reserves, tenants := p.tenants ++ t.tenants
        interval := if t.interval.isSome then t.interval else p.interval }
    | none => t) } }

/-- IDLE_SLOT_SHARE (R338): at every µs a die's slots are divided. -/
def execIdleSlotShare (die : Nat) (s : State) : Result :=
  .next (if 2 ≤ die || (s.timed && (match tget s.market.shareAt die with | some t => decide (s.now < t + 4000) | none => false)) then s
    else s.divideSlots die)

end Sys2Proof.Machine
end

