-- ==== Sys2Proof/Machine/Paging.lean ====
section
/-!
DEFINITION. Translation buffers dropped and hardware paging (13 R362 to R368): TLBI, and the events
WALK_COMPLETE and PAGING_FETCH.
-/

namespace Sys2Proof.Machine

/-- R365: bytes of a page that the paging engine moves. -/
def pageBytes : Nat := 65536

/-- An address that an instruction reaches in global space, and whether it writes there. -/
abbrev Touch := W64 × Bool

/-- An address that a thread's instruction reaches in the space of a context. -/
structure Reach where
  tid : Nat
  ctx : Nat
  va : W64
  write : Bool
  deriving DecidableEq, Repr

namespace State

variable (s : State)

/-! ### Who reaches a page (R362, R368) -/

/-- The first address of each page of a span, and of a span that is written. -/
def spanTouches (va : W64) (len : Nat) (write : Bool) : List Touch := (spanOf va len).map fun p => (p.1, write)

/-- What a record's fields reach when it is launched or continued. -/
def recordTouches (r : List Byte) : List Touch :=
  (recordSpans r).flatMap fun x => if x.1 = 0 then [] else spanTouches (BitVec.ofNat 64 x.1) x.2.2 true

/-- R309, R326: a chain of continuation records from an address, as deep as LNCH checks it. -/
def chainTouches (core c : Nat) : Nat → W64 → List Touch
  | 0, va => if va = 0 then [] else spanTouches va 256 true
  | n + 1, va =>
    if va = 0 then []
    else spanTouches va 256 true ++ match s.readSpan core c va 256 with
      | .ok r _ => chainTouches core c n (BitVec.ofNat 64 (rcContrec r))
      | _ => []

/-- R326: the continuation record at an address, and the next, which is checked with it. -/
def contTouches (core c : Nat) (va : W64) : List Touch :=
  if va = 0 then []
  else spanTouches va 256 false ++ match s.readSpan core c va 256 with
    | .ok r _ => if rcContrec r = 0 then [] else spanTouches (BitVec.ofNat 64 (rcContrec r)) 256 true
    | _ => []

/-- R309: what LNCH reaches for a record's context, once the record can be read. -/
def lnchReaches (t : Nat) (va : W64) : List Reach :=
  match s.readSpan (tidCore t) (s.ctxOf t) va 256 with
  | .ok r _ => (recordTouches r ++ s.chainTouches (tidCore t) (rcCtx r) 8 (BitVec.ofNat 64 (rcContrec r))).map fun x =>
      ⟨t, rcCtx r, x.1, x.2⟩
  | _ => []

/-- The global addresses of a thread's instruction (R198, R309). -/
def instrAddrs (t : Nat) (i : Instr) : List Touch :=
  let at_ (b : Reg) (o : Int) (w : Bool) : List Touch := [(s.addr64 t b o, w)]
  match i with
  | .ld x => at_ x.base (x.off.toInt * x.size.bytes) false
  | .st x => at_ x.base (x.off.toInt * x.size.bytes) true
  | .ldw x => if x.scratch then [] else at_ x.base (x.off.toInt * x.size.bytes) false
  | .stbq x => at_ x.base (x.off.toInt * x.size.bytes) true
  | .atom x => at_ x.base (x.ofs.toInt * x.aty.bytes) true
  | .red x => at_ x.base (x.ofs.toInt * x.aty.bytes) true
  | .cas x => at_ x.base (x.ofs.toInt * x.aty.bytes) true
  | .wait x => if x.scratch then [] else at_ x.base 0 false
  | .wmark x => at_ x.a 0 false
  | .wmarkWait x => at_ x.a 0 false
  | .sndf x => at_ x.rcd 0 true
  | .penq x => at_ x.a 0 false
  | .penqAdv x => at_ x.a 0 true
  | .lnch x => spanTouches (s.rd64 t x.a) 256 false
  | .cont _ => s.contTouches (tidCore t) (s.ctxOf t) (s.wgOf t).contrec
  | .eret _ => match (s.thread t).retry with
    | some a => [(a.va, opWrites a.op)]
    | none => []
  | .crypTh x => spanTouches (s.rd64 t x.a) (s.rd t x.b).toNat false
  | .crypEmit x => spanTouches (s.rd64 t x.a) (s.rd t x.b).toNat false
  | _ => []

/-- What an instruction reaches by some participants: LDW by the lowest alone, for all of them (R206), LNCH also in the
space of its record's context (R313). -/
def instrReaches (ps : List Nat) (i : Instr) : List Reach :=
  let own (t u : Nat) : List Reach := (s.instrAddrs u i).map fun a => ⟨t, s.ctxOf t, a.1, a.2⟩
  match i with
  | .ldw _ => ps.flatMap fun t => own t (ps.headD 0)
  | .lnch x => ps.flatMap fun t => own t t ++ s.lnchReaches t (s.rd64 t x.a)
  | _ => ps.flatMap fun t => own t t

/-- The addresses that the members of a group with a true guard reach. -/
def groupReaches (g : Group) : List Reach :=
  match instrAt g with
  | none => []
  | some i => s.instrReaches (s.participants g i) i

/-- What the groups that a test chooses reach in a context's space. -/
def reachesOf (c : Nat) (p : Group → Bool) : List Reach :=
  ((s.allGroups.filter p).flatMap s.groupReaches).filter fun r => r.ctx = c

/-- The clauses at which threads of a context stand ready, with the words after each. -/
def clauseTouches (c : Nat) : List (Nat × W64) :=
  (s.threads.filter fun x => decide (tidCore x.1 < 256) && x.2.st = .ready && s.ctxOf x.1 = c).flatMap fun x =>
    [(x.1, x.2.pc), (x.1, x.2.pc + 136#64)]

/-- Commands of a context that wait to be accepted, with the global addresses they name. -/
def cmdTouches (c : Nat) : List (Nat × Cmd × W64) :=
  s.cores.flatMap fun k => (k.2.cmds.filter fun m => m.ctx = c && m.stage ≠ .moving).flatMap fun m =>
    let desc : List W64 := match m.kind with | .tensor _ (some va) _ _ _ _ _ _ => [va] | _ => []
    let moved : List W64 := match s.descOf m with
      | .ok (d, _) => (firstOfPages (((mvsOf m.kind d).flatMap Mv.touches).filterMap fun t =>
          if t.2.1 = .glob then some (t.1, t.2.2) else none)).map fun y => BitVec.ofInt 64 y.2
      | .error _ => []
    let sig : List W64 := match m.kind with | .signal _ _ _ _ _ _ _ va => [va] | _ => []
    (desc ++ moved ++ sig).map fun a => (k.1, m, a)

/-- What the Drover reaches in its owner's space for a session's step: the descriptor, and the maps and the signal that it
names (R404). -/
def sessionTouches (x : Session) : List Touch :=
  spanTouches x.desc 128 true ++
    match s.sessionDesc x with
    | none => []
    | some d => spanTouches (mgFmap d) (16 * mgNpage d) false ++ spanTouches (mgBitmap d) ((mgNpage d + 7) / 8) true ++
        if mgSig d = 0 then [] else spanTouches (mgSig d) 8 true

/-- What the part still writes for a launch: a frontier save that is owed, and, once it is complete, its save and its
signal (R314, R322). -/
def launchTouches (l : Launch) : List Touch :=
  let done := !l.reserved && decide (rcPoints l.record ≤ l.complete) && s.launchIdle l.id
  (if (l.owed.isSome || done) && rcFsave l.record ≠ 0 then
      spanTouches (BitVec.ofNat 64 (rcFsave l.record)) (32 + 40 * rcCols l.record) true else []) ++
    if done && rcSigaddr l.record ≠ 0 then spanTouches (BitVec.ofNat 64 (rcSigaddr l.record)) 8 true else []

/-- What the part itself reaches for a context: entries of schedules that are not released, the last writes of launches,
codebooks that are to be loaded, the rows, pens and records of flushes, and the data of sessions whose step has not
ended. -/
def partTouches (c : Nat) : List W64 :=
  ((s.wgs.filter fun w => w.2.ctx = c).flatMap fun w =>
      ((upTo w.2.nsched).filter fun i => !w.2.released.contains i).map fun i => w.2.sched + BitVec.ofNat 64 (128 * i)) ++
    ((s.launches.filter fun l => l.ctx = c).flatMap fun l => (s.launchTouches l).map (·.1)) ++
    (s.cores.flatMap fun k => (k.2.loads.filter fun w => (s.wg w).ctx = c).map fun w => s.bookVa w) ++
    (s.cores.flatMap fun k => (k.2.flushes.filter fun f => f.ctx = c).flatMap fun f =>
      f.recVa :: f.ents.flatMap fun e =>
        (if e.scratch then [] else [e.row, e.row + BitVec.ofNat 64 (e.bytes - 1)]) ++ [e.pen, e.alt.getD e.pen]) ++
    (s.sessions.filter fun x => x.owner = c && x.doing.isSome).flatMap fun x => (s.sessionTouches x).map (·.1)

/-- Two addresses of one 64 KiB page. -/
def samePage (a b : W64) : Bool := a.toNat % 2 ^ 56 / pageBytes = b.toNat % 2 ^ 56 / pageBytes

/-- Everything of a context that reaches a page now, its groups those that a test chooses. -/
def allTouches (c : Nat) (p : Group → Bool) : List W64 :=
  (s.reachesOf c p).map (·.va) ++ (s.clauseTouches c).map (·.2) ++ (s.cmdTouches c).map (·.2.2) ++ s.partTouches c

/-- Something of a context reaches a page. -/
def wanted (c : Nat) (va : W64) : Bool := (s.allTouches c fun _ => true).any fun a => samePage a va

/-- WALK_COMPLETE: a walk that an access of a context on a core has asked for ends; it fills the buffers and
sets A, and D for a write, or leaves the fault to each access. -/
def walkDone (core c : Nat) (va : W64) (write : Bool) : State :=
  let asks := ((s.reachesOf c fun g => g.core = core).any fun r => r.write = write && samePage r.va va) ||
    (!write && (s.clauseTouches c).any fun x => tidCore x.1 = core && samePage x.2 va)
  if !asks || !canonical va then s
  else
    match s.walkFill core c va write false with
    | .ok _ s' => s'
    | _ => s

/-! ### The frame pool (R365, R366) -/

/-- R365: a frame descriptor's two words; none when it does not lie in a range of the device. -/
def descriptor (c i : Nat) : Option (W64 × W64) :=
  let off := (s.ctx c).words.pool.toNat % 2 ^ 48 + 16 * i
  if s.rangeOkFor (s.ctxVd c) off then
    some (BitVec.ofNat 64 (mnat s.mem (s.local_ off) 8), BitVec.ofNat 64 (mnat s.mem (s.local_ (off + 8)) 8))
  else none

def setPtea (c i v : Nat) : State :=
  s.putMem (s.local_ ((s.ctx c).words.pool.toNat % 2 ^ 48 + 16 * i + 8)) (natLe 8 v) 0

/-- R365: the frame of a descriptor in form, inside the context's ranges. -/
def frameOf (c i : Nat) : Option Nat :=
  match s.descriptor c i with
  | none => none
  | some (f, _) =>
    let off := f.toNat % 2 ^ 48
    if f.toNat % pageBytes = 0 && f.toNat / 2 ^ 48 = s.node.toNat && s.rangeOkFor (s.ctxVd c) off &&
        s.rangeOkFor (s.ctxVd c) (off + pageBytes - 1) then some off else none

/-- R365: the physical address of the leaf entry that uses a frame, 0 when the frame is free. -/
def pteaOf (c i : Nat) : Nat :=
  match s.descriptor c i with
  | some (_, p) => p.toNat
  | none => 0

/-- R365, R411: where a leaf entry stands that a descriptor names. -/
def leafPlace (ptea : Nat) : Nat := s.local_ (paOff ptea)

def frames (c : Nat) : Nat := (s.ctx c).words.npool.toNat % 2 ^ 21

/-- R366: an access, an ordered operation or a copy in flight touches a frame. -/
def frameBusy (off : Nat) : Bool :=
  let lo := s.local_ off
  let inside (pa : Nat) : Bool := decide (lo ≤ pa) && decide (pa < lo + pageBytes)
  let ord (o : OrdOp) : Bool := (o.st = .sent || o.st = .held) && match o.work with
    | .inbound _ pa _ => inside (s.local_ pa)
    | w => inside (ordPa w)
  s.accs.any (fun a => inside a.pa) || s.ords.any ord ||
    s.cores.any (fun k => (k.2.sq ++ k.2.wcb.flatMap (·.stores)).any (fun a => inside a.pa) ||
      k.2.cmds.any fun m => m.stage = .moving && (m.takes ++ m.owns).any fun l => inside (l * 128))

/-- R366 step 1: the lowest free descriptor, skipped ones counted. -/
def freeFrame (c : Nat) : List Nat → State → Option Nat × State
  | [], s => (none, s)
  | i :: t, s =>
    if (s.frameOf c i).isNone then freeFrame c t (s.ctxError c)
    else if s.pteaOf c i = 0 then (some i, s)
    else freeFrame c t s

/-- The word of the leaf entry that a descriptor names. -/
def leafWord (ptea : Nat) : W64 := BitVec.ofNat 64 (mnat s.mem (s.leafPlace ptea) 8)

/-- R366 step 2: the hand goes round until a page has not been accessed. -/
def turnHand (c : Nat) : Nat → State → Option Nat × State
  | 0, s => (none, s)
  | n + 1, s =>
    let i := (s.ctx c).hand % max 1 (s.frames c)
    let s := s.modCtx c fun x => { x with hand := (i + 1) % max 1 (s.frames c) }
    match s.frameOf c i with
    | none => turnHand c n (s.ctxError c)
    | some off =>
      if s.frameBusy off then turnHand c n s
      else
        let at_ := s.pteaOf c i
        let e := s.leafWord at_
        if e.getLsbD 8 then turnHand c n (s.putMem (s.leafPlace at_) (natLe 8 (e &&& ~~~0x100#64).toNat) 0) else (some i, s)

/-- R366: the frame that the engine takes; none while every one is skipped. -/
def takeFrame (c : Nat) : Option Nat × State :=
  match freeFrame c (upTo (s.frames c)) s with
  | (some i, s) => (some i, s)
  | (none, s) => turnHand c (2 * s.frames c) s

/-! ### Eviction and fetch (R367, R368) -/

/-- A page's bytes copied; what the destination held, and every copy of it, is gone. -/
def copyPage (src dst : Nat) : State :=
  let bytes := s.mem.filter fun c => decide (src ≤ c.1) && decide (c.1 < src + pageBytes)
  let inDst (pa : Nat) : Bool := decide (dst ≤ pa) && decide (pa < dst + pageBytes)
  { s with
    mem := bytes.foldl (fun m c => mput m (c.1 - src + dst) c.2) (merase s.mem dst (dst + pageBytes))
    stamps := s.stamps.filter fun x => !inDst x.1
    poison := s.poison.filter fun p => match p with
      | .line l _ => !inDst (l * 128)
      | _ => true
    cores := tmap s.cores fun k => { k with l1 := k.l1.filter fun l => !inDst (l.1 * 128) } }

/-- R368, R409, R411: the backing that a leaf names is there for the whole page: memory of a fold, or a window of the
device that covers it (notes/assumptions/66.md). -/
def hasBacking (v : Nat) (e : W64) : Bool :=
  let n := bitsOf e 52 12
  if bitsOf e 16 2 = 1 then decide (0x100 ≤ n) && decide (n < 0x118) else s.absentCode v e = 0

/-- R411, R414: the port to a page's backing sends nothing. -/
def backingHeld (pa : Nat) : Bool := s.sliceHot pa || (!isHost pa && !s.isLocal pa && !s.portSends (portTo pa))

/-- R367: the leaf word of an evicted page: not resident, clean, its backing address restored. -/
def evictedLeaf (e back : W64) : W64 :=
  let kept := e &&& 0x00000000000CFF7D#64
  kept ||| (back &&& 0xFFFFFFFFFFF30000#64)

/-- R367: a page leaves its frame. -/
def evictFrame (c i : Nat) : State :=
  let at_ := s.pteaOf c i
  match s.frameOf c i with
  | none => s
  | some off =>
    if at_ = 0 then s
    else
      let e := s.leafWord at_
      let back := (tget (s.ctx c).backing i).getD e
      let s := s.putMem (s.leafPlace at_) (natLe 8 (evictedLeaf e back).toNat) 0
      let s := s.dropTlb fun x => x.leafPa ≠ s.leafPlace at_
      let s := if e.getLsbD 7 && s.hasBacking (s.ctxVd c) back then s.copyPage (s.local_ off) (framePa (s.ctxVd c) back) else s
      (s.setPtea c i 0).modCtx c fun x => { x with backing := tdel x.backing i }

/-- R368: the leaf word of a page that is resident in a frame. -/
def fetchedLeaf (e : W64) (node off : Nat) : W64 :=
  (e &&& 0x00000000000CFFFF#64) ||| 2#64 ||| BitVec.ofNat 64 (off / pageBytes * 2 ^ 20 + node * 2 ^ 52)

/-- R368: a page fetch of a context is no longer in flight. -/
def endFetch (c : Nat) (va : W64) : State :=
  { s with fetches := s.fetches.filter fun x => !(x.1 = c && samePage x.2 va) }

/-- R414: a home slice of a frame has been stopped by its sensor. -/
def frameHot (off : Nat) : Bool := s.hotSlices ≠ [] && (upTo 512).any fun i => s.sliceHot (s.local_ off + 128 * i)

/-- R368, R408: the page of a context that an address names is brought into a frame, with the bytes that its fold or host
has sent; it waits while no frame can be taken. -/
def bringPage (c : Nat) (va : W64) (l : Leaf) (data : Option (List Byte)) : State :=
  match s.takeFrame c with
  | (none, s) => s
  | (some i, s) =>
    match s.frameOf c i with
    | none => s
    | some off =>
      let from_ := framePa (s.ctxVd c) l.ent
      if s.frameHot off || s.backingHeld from_ then s
      else
        let s := s.evictFrame c i
        let s := match data with
          | some bs => s.putMem from_ (bs.take pageBytes) 0
          | none => s
        let s := s.copyPage from_ (s.local_ off)
        let s := s.putMem l.entPa (natLe 8 (fetchedLeaf l.ent s.node.toNat off).toNat) 0
        ((s.setPtea c i l.entPa).modCtx c fun x => { x with backing := tput x.backing i l.ent }).endFetch c va

/-- R368: a fetch that its backing does not answer: PEER_UNREACHABLE precisely at each access. -/
def failFetch (c : Nat) (va : W64) : State :=
  let hits := (s.reachesOf c (·.stalled)).filter fun x => samePage x.va va
  let s := hits.foldl (fun (s : State) x =>
    if s.hasThread x.tid && ((s.thread x.tid).st = .running || (s.thread x.tid).st = .stalled) then s.trap x.tid tcPeerUnreachable x.va
    else s) (s.endFetch c va)
  let s := (s.clauseTouches c).foldl (fun (s : State) x =>
    if samePage x.2 va && s.hasThread x.1 && (s.thread x.1).st = .ready then
      s.trapClause x.1 tcPeerUnreachable (s.thread x.1).pc 0 0 va else s) s
  let s := (s.cmdTouches c).foldl (fun (s : State) x =>
    if samePage x.2.2 va && (s.core x.1).cmds.any (·.id = x.2.1.id) then s.reportCmd x.1 x.2.1 tcPeerUnreachable x.2.2
    else s) s
  -- R254, R257: schedule entries and codebooks on the page are refused with the same code
  let entries := (s.wgs.filter fun w => w.2.ctx = c).flatMap fun w =>
    ((upTo w.2.nsched).filter fun i => !w.2.released.contains i && samePage (w.2.sched + BitVec.ofNat 64 (128 * i)) va).map
      fun i => (w.1, i)
  let s := entries.foldl (fun (s : State) x =>
    if s.unitRoom (s.wg x.1).core then s.releaseWith x.1 x.2 (.error tcPeerUnreachable) else s) s
  let books := (s.cores.flatMap fun k => k.2.loads.map fun w => (k.1, w)).filter fun x =>
    (s.wg x.2).ctx = c && (spanOf (s.bookVa x.2) 4096).any fun p => samePage p.1 va
  books.foldl (fun (s : State) x => s.refuseBook x.1 x.2 tcPeerUnreachable va) s

/-- R368: the leaf of an address, if it is a valid page that the paging engine may bring in. -/
def absentLeaf (c : Nat) (va : W64) : Option Leaf :=
  match s.walk c va with
  | .error _ => none
  | .ok l =>
    let b := bitsOf l.ent 16 2
    if !l.ent.getLsbD 1 && l.size = pageBytes && (b = 1 || b = 2) && s.frames c ≠ 0 && s.absentCode (s.ctxVd c) l.ent = 0 then some l
    else none

/-- R368: a page that the Drover needs for a session's step is not resident, so that the step waits for it. -/
def sessionAbsent (x : Session) : Bool := (s.sessionTouches x).any fun t => (s.absentLeaf x.owner t.1).isSome

/-- R368: a page fetch of a context is in flight. -/
def fetching (c : Nat) (va : W64) : Bool := s.fetches.any fun x => x.1 = c && samePage x.2 va

/-- PAGING_FETCH: a fetch that something of the context waits for, or waited for before a stop, is answered, or its time
is up. -/
def pageFetch (c : Nat) (va : W64) (page : PageAnswer) : State :=
  if !canonical va || !(s.wanted c va || s.fetching c va) then s
  else
    match s.absentLeaf c va with
    | none => s.endFetch c va
    | some l =>
        if page.answered && s.hasBacking (s.ctxVd c) l.ent then s.bringPage c va l page.data
        else (s.ctxFault c tcPeerUnreachable).failFetch c va

/-! ### TLBI (R364) -/

/-- Every access of a context that is not at its home. -/
def allAccesses : List Access :=
  s.outstanding ++ s.cores.flatMap fun k => k.2.sq ++ k.2.wcb.flatMap (·.stores)

/-- The commands that move bytes. -/
def movingCmds : List Cmd := s.cores.flatMap fun k => k.2.cmds.filter fun m => m.stage = .moving

/-- R364: the ordered operations whose addresses contexts of this package have translated, with those contexts and
addresses: accesses, the packets of flushes, and completion signals. -/
def ordAddrs : List (Nat × Nat × W64) :=
  s.ords.flatMap fun o => if o.st ≠ .sent && o.st ≠ .held then [] else match o.work with
    | .access a => [(o.id, a.ctx, a.va)]
    | .pen core flush ent _ _ c => match (s.flush? core flush).bind fun f => f.ents[ent]? with
      | some e => [(o.id, c, e.pen), (o.id, c, e.alt.getD e.pen)]
      | none => []
    | .signal va _ _ c => [(o.id, c, va)]
    | .inbound .. => []

/-- R364: what is on its way to an address of a named page, or of an entry that is to be dropped. -/
def translatedBy (gone : TlbEnt → Bool) (named : Nat → W64 → Bool) : List Nat :=
  let ents := ((s.cores.flatMap fun k => k.2.tlb) ++ s.quads.flatMap fun q => q.2.tlb).filter gone
  let hit (c : Nat) (va : W64) : Bool := named c va || (tlbFind ents c (va.toNat % 2 ^ 56)).isSome
  ((s.allAccesses.filter fun a => hit a.ctx a.va).map (·.id)) ++
    ((s.ordAddrs.filter fun x => hit x.2.1 x.2.2).map (·.1)) ++
    (s.movingCmds.filter fun m => m.pages.any fun p => hit m.ctx (BitVec.ofNat 64 (p.1 * pageBytes))).map (·.id)

/-- Some of it is still on its way. -/
def stillGoing (ids : List Nat) : Bool :=
  (s.allAccesses.any fun a => ids.contains a.id) || (s.ords.any fun o => (o.st = .sent || o.st = .held) && ids.contains o.id) ||
    s.movingCmds.any fun m => ids.contains m.id

/-- R364: TLBI by the participants of a group, each of which names entries by context and address: its fence,
the drop, and the wait for what the dropped entries have translated. -/
def tlbiBody (named : State → Nat → Nat → Nat → Nat → Bool) (_ : Group) (ps : List Nat) (s : State) : State :=
  match ps with
  | [] => s.advance
  | t :: _ =>
    let begun (n : Option (List Nat)) (s : State) : State :=
      (ps.foldl (fun (s : State) t => s.modThread t fun x => { x with tlbi := some n }) s).holdBlocked
    let finish (s : State) : State :=
      (ps.foldl (fun (s : State) t => (s.releaseDone (some .pkg) t).modThread t fun x => { x with tlbi := none }) s).advance
    let names (c : Nat) (a : W64) : Bool := ps.any fun t => named s t c (a.toNat % 2 ^ 56) 1
    match (s.thread t).tlbi with
    | some (some l) => if s.stillGoing l then begun (some l) s else finish s
    | _ =>
      let s := s.sendAllOwn ps
      if ps.any fun t => s.releaseWaits t .pkg then begun none s
      else
        let gone (e : TlbEnt) : Bool := ps.any fun t => named s t e.ctx e.va e.size
        let l := s.translatedBy gone names
        let s := s.dropTlb fun e => !gone e
        if s.stillGoing l then begun (some l) s else finish s

end State

/-- R364: entries of a context whose page holds an address. -/
def tlbiNamesVa (x : TlbiVaArgs) (s : State) (t c base size : Nat) : Bool :=
  let a := (s.rd64 t x.a).toNat % 2 ^ 56
  c = (s.rd t x.b).toNat && (if size = 1 then a / pageBytes = base / pageBytes else decide (base ≤ a) && decide (a < base + size))

def execTlbiVa (x : TlbiVaArgs) (s : State) : Result := .next (s.issue (.tlbiVa x) (State.tlbiBody (tlbiNamesVa x)))

def execTlbiCtx (x : SrcArgs) (s : State) : Result :=
  .next (s.issue (.tlbiCtx x) (State.tlbiBody fun s t c _ _ => c = (s.rd t x.a).toNat))

def execTlbiAll (x : G) (s : State) : Result :=
  .next (s.issue (.tlbiAll x) (State.tlbiBody fun _ _ _ _ _ => true))

/-- WALK_COMPLETE (R361, R362). -/
def execWalkComplete (core ctx : Nat) (va : W64) (write : Bool) (s : State) : Result :=
  .next (s.walkDone core ctx va write)

/-- PAGING_FETCH (R365 to R368). -/
def execPagingFetch (ctx : Nat) (va : W64) (page : PageAnswer) (s : State) : Result := .next (s.pageFetch ctx va page)

end Sys2Proof.Machine
end

