-- ==== Sys2Proof/Machine/Sheepdog.lean ====
section
/-!
DEFINITION. What follows every step by itself, page fetches among it (13 R368), and the sheepdog (10 R297, R298), which
watches for contexts in which nothing can follow any more: the event SHEEPDOG.
-/

namespace Sys2Proof.Machine

namespace State

variable (s : State)

/-! ### Page fetches in flight (R368) -/

/-- R368: the page fetches of a context that are in flight: those that were, and one for each page that something which
waits now reaches, while the page is valid and not resident. -/
def fetchesOf (c : Nat) : List (Nat × W64) :=
  let absent (va : W64) : Bool := canonical va && (s.absentLeaf c va).isSome
  let old := s.fetches.filter fun x => x.1 = c && absent x.2
  ((s.allTouches c fun g => g.stalled || g.blocked).filter absent).foldl (fun l va =>
    if l.any fun x => samePage x.2 va then l else l ++ [(c, va)]) old

/-- Every context that pages notes its fetches. -/
def noteFetches : State :=
  { s with fetches := (s.ctxs.filter fun c => s.frames c.1 ≠ 0).flatMap fun c => s.fetchesOf c.1 }

/-! ### The sheepdog (R297, R298) -/

/-- R297: a thread is held internally; one that has no wait of its own is blocked with its group (R271), whose
waiting members are held themselves. -/
def heldInside (tid : Nat) (t : Thread) : Bool :=
  t.st = .blocked && match t.wait with
    | some w => (match w.kind with
        | .meet _ | .phase _ _ | .talloc _ _ | .tstat _ _ | .sign _ _ => true
        | .mem _ _ _ _ _ _ _ ext => !ext
        | _ => false)
    | none => (s.groupOf tid).any (·.blocked)

/-- R297: an outstanding operation of a thread, but for a signature not yet posted. -/
def opsOut (t : Thread) : Bool :=
  let own := match t.wait with
    | some w => (match w.kind with | .sign _ _ => 1 | _ => 0)
    | none => 0
  decide (0 < t.ld) || decide (0 < t.stc) || decide (0 < t.cp) || decide (own < t.tl)

/-- R297: a launch has workgroups that await placement: of points that have fired, or, without a frontier, that are still
to fire. -/
def awaitsPlace (l : Launch) : Bool :=
  (l.points.any fun p => p.todo ≠ []) || (rcNdep l.record = 0 && decide (l.next < rcPoints l.record))

/-- R297: the sheepdog's condition on a context. -/
def sheepdogHolds (c : Nat) : Bool :=
  let ts := s.threads.filter fun x => decide (x.1 < 524288) && s.ctxOf x.1 = c
  ts.any (fun t => s.heldInside t.1 t.2) && ts.all (fun t => s.heldInside t.1 t.2 || t.2.st = .ended) && !ts.any (fun t => opsOut t.2) &&
    !(s.cores.any fun k => k.2.cmds.any (·.ctx = c) || k.2.flushes.any (·.ctx = c)) && !(s.fetches.any fun x => x.1 = c) &&
    !(s.wgs.any fun w => w.2.ctx = c && w.2.halted) && !(s.quads.any fun q => q.2.table.any (·.ctx = c)) && !(s.saved.any (·.ctx = c)) &&
    !(s.launches.any fun l => l.ctx = c && awaitsPlace l) &&
    !(s.queues.any fun q => q.2.ring.any (·.ctx = c)) && !(s.runs.any fun r => r.2.packet.ctx = c)

/-- R298: the pod time since which a context's condition has held. -/
def noteStill : State :=
  let step (c : Nat) (x : Ctx) : Ctx :=
    match s.sheepdogHolds c with
    | true => { x with still := some (x.still.getD s.now) }
    | false => { x with still := none }
  { s with ctxs := s.ctxs.map fun c => (c.1, step c.1 c.2) }

/-- R298: the sheepdog fires. -/
def fireSheepdog (c : Nat) : State :=
  match (s.ctx c).still with
  | none => s
  | some from_ =>
    if s.now < from_ + 4000000 then s
    else
      let ts := (s.threads.filter fun x => decide (x.1 < 524288) && s.ctxOf x.1 = c && s.heldInside x.1 x.2).map (·.1)
      let late := ts.any fun t => match (s.thread t).wait with
        | some w => (match w.deadline with | some d => decide (d ≤ s.cyc) | none => false)
        | none => false
      if late then s
      else
        let s := (s.modCtx c fun x => { x with still := none }).ctxError c
        ts.foldl (fun s t =>
          if (s.thread t).wait.isSome then ((s.withdraw t).dropWait t).trap t tcSheepdog 0 else s) s

/-! ### After a step -/

/-- What comes about by itself after a step. -/
def settle : State :=
  let s := s.dropDying
  let s := if s.ords.any fun o => o.st = .held then s.drainRecvs else s
  let s := (if s.cores.any fun c => c.2.flushes ≠ [] then s.pumpFlushes else s).sendBeacons
  let s := (s.wgs.filter fun w => decide (0 < w.2.nsched)).foldl (fun s w => s.releaseDue w.1) s
  let s := s.waiters.foldl (fun s t => s.endIfTrue t) s
  let s := s.freeGroups
  let s := (s.quads.filter fun q => q.2.table ≠ []).foldl (fun s q => s.noteReady q.1) s
  s.settleReady.settlePcs.noteFetches.noteStill

end State

/-- SHEEPDOG (R298). -/
def execSheepdog (ctx : Nat) (s : State) : Result := .next (s.fireSheepdog ctx)

end Sys2Proof.Machine
end

