-- ==== Sys2Proof/Machine/Ranges.lean ====
section
/-!
DEFINITION. Writes of the range table and scrubbing (13 R369 to R373): RANGE_WRITE and SCRUB_COMPLETE.
-/

namespace Sys2Proof.Machine

/-- R390: the words of a range entry. -/
def rangeWord (r : Range) (w : Nat) : W64 :=
  match w with
  | 0 => r.w0
  | 1 => r.w1
  | 2 => r.w2
  | _ => r.w3

def setRangeWord (r : Range) (w : Nat) (v : W64) : Range :=
  match w with
  | 0 => { r with w0 := v }
  | 1 => { r with w1 := v }
  | 2 => { r with w2 := v }
  | _ => r

/-- R369: the must-be-zero fields are zero and GRAN is not reserved. -/
def rangeForm (r : Range) : Bool :=
  bitsOf r.w0 48 16 = 0 && bitsOf r.w0 1 15 = 0 && bitsOf r.w1 48 16 = 0 && bitsOf r.w1 0 16 = 0 &&
    bitsOf r.w2 0 16 = 0 && bitsOf r.w2 23 5 = 0 && decide (r.gran ≤ 8)

/-- R370: the granule size of a range. -/
def rangeGran (r : Range) : Nat := 256 * 2 ^ r.gran

/-- R370: the bytes that the set stack at a position holds. -/
def stackSpan (r : Range) (j : Nat) : Nat :=
  let n := r.stackList.length
  let t := (r.limit - r.base) / rangeGran r
  (t / n + if j < t % n then 1 else 0) * rangeGran r

/-- R371: a range's intervals on its stacks: stack, first offset and the offset beyond. -/
def stackSpans (r : Range) : List (Nat × Nat × Nat) :=
  (r.stackList.zip (upTo r.stackList.length)).map fun x => (x.1, r.soff * 65536, r.soff * 65536 + stackSpan r x.2)

/-- R371: two valid entries share an address or a place of a stack; an interval that holds no granule shares none. -/
def rangesMeet (a b : Range) : Bool :=
  (decide (a.base < b.limit) && decide (b.base < a.limit)) ||
    (stackSpans a).any fun x => (stackSpans b).any fun y =>
      x.1 = y.1 && decide (max x.2.1 y.2.1 < min x.2.2 y.2.2)

/-- R371: a valid entry that may stand beside others. -/
def rangeFits (others : List Range) (r : Range) : Bool :=
  decide (r.base < r.limit) && r.stacks ≠ 0 && (stackSpans r).all (fun x => decide (x.2.2 ≤ 48 * 2 ^ 30)) &&
    others.all fun o => !(o.valid && rangesMeet o r)

/-- R370 read backwards: the address of a place in a range. -/
def addrAtPlace (r : Range) (k off : Nat) : Option Nat :=
  match r.stackList.findIdx? (· = k) with
  | none => none
  | some j =>
    let o := off - r.soff * 65536
    let g := rangeGran r
    let a := r.base + (o / g * r.stackList.length + j) * g + o % g
    if off < r.soff * 65536 || r.limit ≤ a then none else some a

/-- Fields of an entry other than REMOTE. -/
def exceptRemote (r : Range) : Range := { r with w2 := r.w2 &&& ~~~(1#64 <<< 22) }

namespace State

variable (s : State)

/-- R373: the bytes of a range read as zero: no cached or written copy of its lines is left. -/
def eraseRange (r : Range) : State :=
  let lo := s.local_ r.base
  let hi := s.local_ r.limit
  let inside (pa : Nat) : Bool := decide (lo ≤ pa) && decide (pa < hi)
  { s with
    mem := merase s.mem lo hi
    stamps := s.stamps.filter fun x => !inside x.1
    dirty := s.dirty.filter fun d => !inside (d.1 * 128)
    hints := s.hints.filter fun x => !inside (x.1 * 128)
    replicas := s.replicas.filter fun l => !inside (l * 128)
    poison := s.poison.filter fun p => match p with
      | .line l _ => !inside (l * 128)
      | _ => true
    cores := tmap s.cores fun k => { k with l1 := k.l1.filter fun l => !inside (l.1 * 128) } }

/-- A valid entry keeps its device and changes its map: each stored byte keeps its place on its stack. -/
def moveRange (old new : Range) : State :=
  let lo := s.local_ old.base
  let hi := s.local_ old.limit
  let bytes := s.mem.filter fun c => decide (lo ≤ c.1) && decide (c.1 < hi)
  let put (m : Memory) (c : Host.Cell) : Memory :=
    let p := old.place (paOff c.1)
    match addrAtPlace new p.1 p.2 with
    | some a => mput m (s.local_ a) c.2
    | none => m
  let m := bytes.foldl put (merase s.mem lo hi)
  { s.eraseRange old with mem := m }

/-- R371, R373: a word of a range entry is written, or the write is refused; a read-only word is told apart. -/
def writeRange (i w : Nat) (v : W64) : State × Nat :=
  if 16 ≤ i || 3 ≤ w then (s, 2)
  else
    let old := s.range i
    let new := setRangeWord old w v
    let others := (s.ranges.filter fun r => r.1 ≠ i).map (·.2)
    if !rangeForm new || (new.valid && !rangeFits others new) ||
        (old.scrubbing && exceptRemote new ≠ exceptRemote old) then (s, 1)
    else if new.valid && (!old.valid || old.vd ≠ new.vd) then
      let w3 := BitVec.ofNat 64 (new.base / 128 * 2 ^ 7 + 2 + (if old.epoch then 0 else 1))
      ({ s.eraseRange new with ranges := tput s.ranges i { new with w3 } }, 0)
    else
      let s := if old.valid && new.valid && exceptRemote new ≠ exceptRemote old then s.moveRange old new else s
      ({ s with ranges := tput s.ranges i new }, 0)

/-- R373: the scrubber raises WMARK as it goes, by an amount that no rule gives, at most to LIMIT. -/
def scrubOn (i : Nat) : State :=
  let r := s.range i
  if !r.scrubbing then s
  else
    let m := min (r.limit / 128) (bitsOf r.w3 7 41 + Config.anyValue s.draws)
    { s with
      draws := s.draws + 1
      ranges := tput s.ranges i { r with w3 := BitVec.ofNat 64 (m * 2 ^ 7 + 2 + (if r.epoch then 1 else 0)) } }

/-- R373: the scrubber has reached LIMIT. -/
def scrubDone (i : Nat) : State :=
  let r := s.range i
  if r.scrubbing then
    { s with ranges := tput s.ranges i { r with w3 := BitVec.ofNat 64 (r.limit / 128 * 2 ^ 7 + (if r.epoch then 1 else 0)) } }
  else s

end State

/-- RANGE_WRITE (R369, R371, R373). -/
def execRangeWrite (index word : Nat) (val : W64) (s : State) : Result := .next (s.writeRange index word val).1

/-- SCRUB_COMPLETE (R373). -/
def execScrubComplete (range : Nat) (s : State) : Result := .next (s.scrubDone range)

end Sys2Proof.Machine
end

