-- ==== Sys2Proof/Machine/Resets.lean ====
section
/-!
DEFINITION. Resets of a context and of a virtual device (13 R376, R377; 14 R400): CONTEXT_RESET and
VD_RESET.
-/

namespace Sys2Proof.Machine

namespace State

variable (s : State)

/-! ### Context reset (R400) -/

/-- R400: a save of a context is in progress. -/
def savingCtx (c : Nat) : Bool := s.quads.any fun q => q.2.handover && q.2.ctx = some c

/-- R400: what a reset frees besides what a kill discards: bids, translations and flags; the units it holds run
nothing until the boundary (R353). -/
def freeCtx (c : Nat) : State :=
  let s := s.discardCtx c
  let s := s.dropTlb fun e => e.ctx ≠ c
  let s := { s with cores := tmap s.cores fun k => { k with fstat := tdel k.fstat c } }
  let leave (u : MktUnit) : MktUnit := if u.holder = some c then { u with idle := true } else u
  let s := { s with market := { s.market with units := tmap s.market.units leave } }
  s.modCtx c fun x => { x with fstat := 0, bids := [], halted := false, resetDue := false }

/-- R400: a context is reset; one that was killed in this cycle has its record. -/
def resetCtx (c : Nat) : State :=
  let rcd := s.killRecord c 0 0 7 0 0
  if (s.ctx c).killedAt = some s.cyc then s.freeCtx c else (s.freeCtx c).sendKill c rcd

/-- R400: a reset of a context is asked for; it waits for a save in progress. -/
def askReset (c : Nat) : State :=
  if s.savingCtx c then s.modCtx c fun x => { x with resetDue := true } else s.resetCtx c

/-- R400: resets that waited for a save whose save is done. -/
def settleResets : State :=
  (s.ctxs.filter fun c => c.2.resetDue).foldl (fun s c => if s.savingCtx c.1 then s else s.resetCtx c.1) s

/-! ### Virtual-device reset (R376, R377) -/

/-- R354: the contexts of a virtual device. -/
def ctxsOfVd (v : Nat) : List Nat := (upTo 256).filter fun c => s.ctxVd c = v

/-- R376: the device is being reset. -/
def resetting (v : Nat) : Bool := (s.vd v).word.getLsbD 1

/-- R376 step 3: the runs of a device's queues are rejected. -/
def rejectRuns (v : Nat) : State :=
  (s.runs.filter fun r => r.2.vd = v).foldl (fun s r => s.reject r.1 0) s

/-- R376 steps 1 to 4: the reset registers. -/
def beginVdReset (v : Nat) : State :=
  if 64 ≤ v || s.resetting v then s
  else
    let mine := s.queues.filter fun q => q.1 / 64 = v
    let packets := mine.foldl (fun n q => n + q.2.ring.length) 0 + (s.runs.filter fun r => r.2.vd = v).length
    let cs := s.ctxsOfVd v
    let launches := (s.launches.filter fun l => cs.contains l.ctx && !l.reserved).length
    let empty (q : Nat × Queue) : Nat × Queue := if q.1 / 64 = v then (q.1, { q.2 with ring := [] }) else q
    let s := { s with queues := s.queues.map empty }
    let s := (s.modVd v fun x => { x with
      word := x.word ||| 2, naks := 0, lostPackets := packets, lostLaunches := launches, lostCtxs := cs.length }).rejectRuns v
    let s := { s with launches := s.launches.filter fun l => !cs.contains l.ctx }
    cs.foldl (fun s c => s.askReset c) s

/-- R376 step 5: waits on a device's host-backed pages end with status 4 (R202). -/
def endHostWaits (v : Nat) : State :=
  let mine := (s.threads.filter fun t => match t.2.wait with
    | some w => (match w.kind with
        | .mem _ pa none _ _ _ _ _ => isHost pa && decide ((pa - 2 ^ 60) / 2 ^ 52 = v)
        | _ => false)
    | none => false).map (·.1)
  mine.foldl (fun s t => s.endWait t 4) s

/-- R377: the completion record. -/
def resetRecord (v : Nat) : List Byte :=
  let x := s.vd v
  natLe 8 v ++ natLe 4 x.lostPackets ++ natLe 4 x.lostLaunches ++ natLe 4 x.lostCtxs ++ natLe 4 x.naks ++ natLe 8 s.now

/-- R376 steps 5 and 6: keys and windows are revoked, and the reset completes. -/
def endVdReset (v : Nat) : State :=
  if (s.ctxsOfVd v).any fun c => (s.ctx c).resetDue then s
  else
    let s := (s.endHostWaits v).modVd v fun x => { x with keys := [], windows := [], dead := [], word := x.word &&& ~~~2#64 }
    let rcd := s.resetRecord v
    { s.modVd v fun x => { x with naks := 0, lostPackets := 0, lostLaunches := 0, lostCtxs := 0 } with
      sent := s.sent ++ [.resetRecord v rcd] }

end State

/-- CONTEXT_RESET (R400). -/
def execContextReset (ctx : Nat) (s : State) : Result := .next (if ctx < 256 then s.askReset ctx else s)

/-- VD_RESET (R376, R377): the reset registers, or, once registered, completes. -/
def execVdReset (vd : Nat) (s : State) : Result :=
  .next (if s.resetting vd then s.endVdReset vd else s.beginVdReset vd)

end Sys2Proof.Machine
end

