-- ==== Sys2Proof/Machine/Objects.lean ====
section
/-!
DEFINITION. The object window (14 R389 to R392; 13 R354, R374, R375, R398): what each word reads as and what
a write of it does, queue loading (R391), and the events QUEUE_LOAD, QUEUE_UNLOAD, LAUNCH_BUCKET_WRITE,
RETIRED_PAGE_REMOVE, FSTAT_WRITE, OBJECT_WRITE and DEBUGGER_COMMAND.
-/

namespace Sys2Proof.Machine

/-- R389: fields of %osel. -/
def oselKind (w : W32) : Nat := natBits w.toNat 28 4
def oselIndex (w : W32) : Nat := natBits w.toNat 12 16
def oselWord (w : W32) : Nat := natBits w.toNat 0 12

/-- R390: a word of a context record. -/
def ctxWord (x : CtxWords) (w : Nat) : Option W64 :=
  match w with
  | 0 => some x.ctl
  | 1 => some x.root
  | 2 => some x.pool
  | 3 => some x.npool
  | 4 => some x.handlerPc
  | 5 => some x.save
  | 6 => some x.savesz
  | 7 => some x.krec
  | 8 => some x.storectl
  | 9 => some x.brk0
  | 10 => some x.brk1
  | 11 => some x.brk2
  | 12 => some x.brk3
  | 13 => some x.mpol
  | _ => none

/-- R11, R392: must-be-zero bits of the words that have fields; the others take every bit. -/
def ctxMask (w : Nat) : W64 :=
  match w with
  | 8 => 0xFFFFFFFFFFFFFF03#64
  | 9 | 10 | 11 | 12 => 0xFFFFFFFFFFFFFFF9#64
  | 13 => 0x803FFF00FFFFFFFF#64
  | _ => BitVec.allOnes 64

def setCtxWord (x : CtxWords) (w : Nat) (v : W64) : CtxWords :=
  match w with
  | 1 => { x with root := v }
  | 2 => { x with pool := v }
  | 3 => { x with npool := v }
  | 4 => { x with handlerPc := v }
  | 5 => { x with save := v }
  | 6 => { x with savesz := v }
  | 7 => { x with krec := v }
  | 8 => { x with storectl := v }
  | 9 => { x with brk0 := v }
  | 10 => { x with brk1 := v }
  | 11 => { x with brk2 := v }
  | 12 => { x with brk3 := v }
  | 13 => { x with mpol := v }
  | _ => x

/-- A mask of 256 bits, a word at a time (R390). -/
def maskWord (m : List Bool) (w : Nat) : W64 :=
  BitVec.ofNat 64 ((upTo 64).foldl (fun a i => if m.getD (64 * w + i) false then a + 2 ^ i else a) 0)

def setMaskWord (m : List Bool) (w : Nat) (v : W64) : List Bool :=
  (upTo 256).map fun i => if i / 64 = w then v.getLsbD (i % 64) else m.getD i false

namespace State

variable (s : State)

/-! ### Reading (R389, R390) -/

/-- R390: a word of a queue entry. -/
def queueWord (q : Nat) (w : Nat) : Option W64 :=
  let x := s.queue q
  match w with
  | 0 => some x.qctl
  | 5 => some x.prog
  | 6 => some x.wbase
  | 7 => some x.wsize
  | _ => if q % 64 ≠ 63 && decide (1 ≤ w) && decide (w ≤ 4) then some (maskWord x.mask (w - 1)) else none

/-- R390: the error counters. -/
def errWord (w : Nat) : Option W64 :=
  match w with
  | 0 => some (BitVec.ofNat 64 s.errc.corrected)
  | 1 => some (BitVec.ofNat 64 s.errc.uncorrectable)
  | 2 => some (BitVec.ofNat 64 s.errc.retired)
  | 3 => some (BitVec.ofNat 64 s.errc.killed)
  | _ => none

/-- R390: the word that %osel names; none when there is no such object or word. -/
def objWord (sel : W32) : Option W64 :=
  let i := oselIndex sel
  let w := oselWord sel
  match oselKind sel with
  | 0 => if i < 256 then ctxWord (s.ctx i).words w else none
  | 1 => if i < 64 ∧ w = 0 then some (s.vd i).word else none
  | 2 => if i < 16 ∧ w < 4 then some (rangeWord (s.range i) w) else none
  | 3 => if i < 4096 then s.queueWord i w else none
  | 4 => if i < 256 ∧ w = 0 then some (s.tenant i).bucket else none
  | 5 => if i < 6144 ∧ w = 0 then some ((tget (s.tenant (i / 24)).fabric (i % 24)).getD 0) else none
  | 6 => if i < 4096 ∧ w = 0 then some (BitVec.ofNat 64 ((tget s.retired i).getD 0 * 65536)) else none
  | 7 => if i = 0 then s.errWord w else none
  | _ => none

/-! ### Queues (R391) -/

/-- R391: the program at an address, as far as it lies in valid ranges. -/
def programAt (prog len : Nat) : Option (List W64) :=
  let rd (i : Nat) : W64 := BitVec.ofNat 64 (mnat s.mem (s.local_ (prog + 8 * i)) 8)
  let code := readProgram rd len 0 len
  if prog % 8 = 0 && (upTo code.length).all fun i => (s.rangeAt (prog + 8 * i)).isSome then some code else none

/-- R391: the owner and window of a queue's words may be taken. -/
def windowOk (q : Nat) (ctl : W64) : Bool :=
  let x := s.queue q
  s.ctxVd (bitsOf ctl 8 8) = q / 64 && x.wsize ≠ 0 && decide (x.wbase.toNat + x.wsize.toNat ≤ 2 ^ 56)

/-- R391: a write of QCTL with LOADED = 1. -/
def loadQueue (q : Nat) (v : W64) : State × Nat :=
  let ctl := v &&& 0xFFFFFF03#64
  let x := s.queue q
  let len := bitsOf ctl 16 16
  if q % 64 = 63 then
    if s.windowOk q ctl then
      (s.setQueue q { x with qctl := setBits x.qctl 8 8 (bitsOf ctl 8 8), base := x.wbase, size := x.wsize }, 0)
    else (s, 1)
  else if len = 0 || 4096 < len || !s.windowOk q ctl then (s, 1)
  else
    match s.programAt (x.prog.toNat % 2 ^ 48) len with
    | none => (s, 1)
    | some code =>
      if profileOk len code then (s.setQueue q { x with qctl := ctl, code, base := x.wbase, size := x.wsize }, 0) else (s, 1)

/-- R391: a write of QCTL with LOADED = 0. -/
def unloadQueue (q : Nat) (v : W64) : State × Nat :=
  let x := s.queue q
  if q % 64 = 63 then s.loadQueue q v
  else
    let s := x.ring.foldl (fun (s : State) _ => s.vdError (q / 64)) s
    (s.setQueue q { x with qctl := v &&& 0xFFFFFF02#64, ring := [], code := [] }, 0)

/-- R390, R391: a write of a word of a queue entry. -/
def writeQueue (q w : Nat) (v : W64) : State × Nat :=
  let x := s.queue q
  match w with
  | 0 => if v.getLsbD 0 then s.loadQueue q v else s.unloadQueue q v
  | 5 => if q % 64 = 63 then (s, 2) else (s.setQueue q { x with prog := v }, 0)
  | 6 => (s.setQueue q { x with wbase := v }, 0)
  | 7 => (s.setQueue q { x with wsize := v }, 0)
  | _ =>
    if q % 64 ≠ 63 && decide (1 ≤ w) && decide (w ≤ 4) then
      (s.setQueue q { x with mask := setMaskWord x.mask (w - 1) v }, 0)
    else (s, 2)

/-! ### Records (R354, R392) -/

/-- R354, R392, R399, R400: a write of CTL. -/
def writeCtl (c : Nat) (v : W64) : State × Nat :=
  let old := s.ctl c
  if s.active c && bitsOf v 8 6 ≠ bitsOf old 8 6 then (s, 1)
  else
    let killed := if v.getLsbD 0 then 0 else old &&& 0x20#64
    let new := (v &&& 0x0000FFFF00003F0F#64) ||| killed
    let s := s.modCtx c fun x => { x with words := { x.words with ctl := new } }
    (if v.getLsbD 4 then s.askReset c else s, 0)

/-- R390, R392: a write of a word of a context record. -/
def writeCtx (c w : Nat) (v : W64) : State × Nat :=
  if 256 ≤ c || 14 ≤ w then (s, 2)
  else if w = 0 then s.writeCtl c v
  else (s.modCtx c fun x => { x with words := setCtxWord x.words w (v &&& ctxMask w) }, 0)

/-- R354, R392: a write of a virtual device's word. -/
def writeVd (d : Nat) (v : W64) : State × Nat :=
  let old := (s.vd d).word
  let moves := bitsOf v 8 8 ≠ bitsOf old 8 8
  if moves && (s.ctxsOfVd d).any s.active then (s, 1)
  else
    let new := (v &&& 0xFF01#64) ||| (old &&& 2#64)
    let s := s.modVd d fun x => { x with word := new }
    (if v.getLsbD 2 then s.beginVdReset d else s, 0)

/-! ### Fabric entries (R375) -/

/-- R375: what waits at a port is refused as a loss. -/
def refuseId (id : Nat) : State :=
  if 2 ^ 32 ≤ id then (if s.hasThread (id - 2 ^ 32) then s.waitLost (id - 2 ^ 32) else s) else
  match s.accs.find? fun a => a.id = id with
  | some a => s.failAccess a tcPeerUnreachable
  | none =>
  match s.entryById id with
  | some (c, e) =>
      let s := s.modCore c fun k => { k with wcb := k.wcb.filter fun x => x.id ≠ id }
      e.stores.foldl (fun s a => s.failAccess a tcPeerUnreachable) s
  | none =>
  match s.ords.find? fun o => o.id = id with
  | some o => s.failOrd o tcPeerUnreachable
  | none =>
  match s.movingCmd id with
  | some (c, m) => s.loseCmd c m false
  | none => s

/-- R375: a write of a fabric entry; with FEN cleared, the tenant's flits that wait at the port are refused. -/
def writeFabric (tenant port : Nat) (v : W64) : State × Nat :=
  if 4 < bitsOf v 1 3 then (s, 1)
  else
    let s' := s.modTenant tenant fun t => { t with fabric := tput t.fabric port (v &&& 0xF#64) }
    if v.getLsbD 0 then (s', 0)
    else
      let mine := (s.flitsAt port).filter fun f => f.tenant = tenant
      let s' := { s' with flitq := tput s'.flitq port ((s.flitsAt port).filter fun f => f.tenant ≠ tenant) }
      ((mine.map (·.id)).eraseDups.foldl (fun (s : State) i => s.refuseId i) s', 0)

/-! ### Writing (R389, R390) -/

/-- R389: a write of the selected word: the state, and what %ostat then reads. -/
def writeObj (sel : W32) (v : W64) : State × Nat :=
  let i := oselIndex sel
  let w := oselWord sel
  match oselKind sel with
  | 0 => s.writeCtx i w v
  | 1 => if i < 64 ∧ w = 0 then s.writeVd i v else (s, 2)
  | 2 => s.writeRange i w v
  | 3 => if i < 4096 then s.writeQueue i w v else (s, 2)
  | 4 => if i < 256 ∧ w = 0 then (match s.writeBucket i v with | some s => (s, 0) | none => (s, 1)) else (s, 2)
  | 5 => if i < 6144 ∧ w = 0 then s.writeFabric (i / 24) (i % 24) v else (s, 2)
  | 6 => if i < 4096 ∧ w = 0 then (if v = 0 then ({ s with retired := tdel s.retired i }, 0) else (s, 1)) else (s, 2)
  | _ => (s, 2)

/-- R36: a write of %fstat. -/
def writeFstat (core c : Nat) (v : W32) : State :=
  let f := v.extractLsb' 0 7
  (s.modCore core fun k => { k with fstat := tput k.fstat c f }).modCtx c fun x => { x with fstat := f }

/-- R412: a debugger's operation, and what it is answered; a halt that must wait is answered once it is done. -/
def debugOp (d : DebugCmd) : State :=
  match d with
  | .halt op wgid c =>
    match s.haltOp op (BitVec.ofNat 32 wgid) c none with
    | .done k s => { s with sent := s.sent ++ [.debugStatus k] }
    | .later s => { s with halts := s.halts ++ [(op, wgid, c)] }
  | .oread sel => { s with sent := s.sent ++ [.debugWord ((s.objWord sel).getD 0)] }
  | .owrite sel v =>
    let (s, k) := s.writeObj sel v
    { s with sent := s.sent ++ [.debugStatus k] }

/-- R402, R412: the halts that a debugger waits for are tried again, oldest first. -/
def retryHalts : State :=
  s.halts.foldl (fun s h => s.debugOp (.halt h.1 h.2.1 h.2.2)) { s with halts := [] }

end State

/-- QUEUE_LOAD (R391). -/
def execQueueLoad (index : Nat) (qctl : W64) (s : State) : Result :=
  .next (if index < 4096 ∧ qctl.getLsbD 0 then (s.loadQueue index qctl).1 else s)

/-- QUEUE_UNLOAD (R391). -/
def execQueueUnload (index : Nat) (qctl : W64) (s : State) : Result :=
  .next (if index < 4096 ∧ !qctl.getLsbD 0 then (s.unloadQueue index qctl).1 else s)

/-- LAUNCH_BUCKET_WRITE (R374, R375). -/
def execLaunchBucketWrite (tenant : Nat) (val : W64) (s : State) : Result :=
  .next (if tenant < 256 then (s.writeBucket tenant val).getD s else s)

/-- RETIRED_PAGE_REMOVE (R390, R398). -/
def execRetiredPageRemove (index : Nat) (val : W64) (s : State) : Result :=
  .next (if val = 0 then { s with retired := tdel s.retired index } else s)

/-- FSTAT_WRITE (R36). -/
def execFstatWrite (core ctx : Nat) (val : W32) (s : State) : Result := .next (s.writeFstat core ctx val)

/-- OBJECT_WRITE (R389, R390). -/
def execObjectWrite (osel : W32) (val : W64) (s : State) : Result := .next (s.writeObj osel val).1

/-- DEBUGGER_COMMAND (R401 to R403, R412). -/
def execDebuggerCommand (c : DebugCmd) (s : State) : Result := .next (s.debugOp c)

end Sys2Proof.Machine
end

