-- ==== Sys2Proof/Machine/Recovery.lean ====
section
/-!
DEFINITION. Special registers and the return from a trap (01 R33 to R37; 14 R383, R387, R389, R393): CSRR,
CSRW and ERET.
-/

namespace Sys2Proof.Machine

/-! ### Special registers (R33 to R37, R383, R389) -/

namespace State

variable (s : State)

/-- R37: %wgmode. -/
def wgmode (w : Wg) : Nat :=
  (if w.committed then 4 else 0) + (if w.restartable then 2 else 0) + (if w.checked || s.ctxChecked w.ctx then 1 else 0)

/-- R33: an unprivileged special register of a thread. -/
def plainCsr (t : Nat) (num : Nat) : Nat :=
  let w := s.wgOf t
  let core := tidCore t
  match num with
  | 0x000 => tidLane t
  | 0x001 => tidSlot t
  | 0x002 => t % 2048
  | 0x003 => tidSlot t - w.slot
  | 0x004 => w.nflock
  | 0x005 => core % 4
  | 0x006 => core
  | 0x007 => coreQuad core
  | 0x008 => coreDie core
  | 0x009 => s.node.toNat
  | 0x00A => w.wgid
  | 0x00B => w.point
  | 0x00C => w.ctx
  | 0x00D => w.stage.toNat
  | 0x00E => (s.coreFlags core w.ctx ||| (s.ctx w.ctx).fstat).toNat
  | 0x00F => (s.thread t).ocnt.toNat
  | 0x010 => s.clock core
  | 0x011 => s.cyc
  | 0x012 => w.argp.toNat
  | 0x013 => w.argsz.toNat
  | 0x014 => s.wgmode w
  | _ => 0

/-- R382, R383: a register of the thread's own trap record; 0 outside handler mode. -/
def trapCsr (t : Nat) (num : Nat) : Nat :=
  let x := s.thread t
  if !x.handler then 0
  else
    match num with
    | 0x100 => x.trap.tcode.toNat
    | 0x101 => x.trap.tpc.toNat
    | 0x102 => x.trap.tidx.toNat
    | 0x103 => x.trap.taddr.toNat
    | 0x104 => x.trap.tapc.toNat
    | 0x105 => x.trap.tinfo.toNat
    | _ => 0

/-- R33, R383, R389: a special register as a thread reads it; %osel and %ostat are each thread's own
(notes/assumptions/31.md). -/
def readCsr (t : Nat) (num : Nat) : Nat :=
  match num with
  | 0x110 => (s.thread t).osel.toNat
  | 0x111 => ((s.objWord (s.thread t).osel).getD 0).toNat
  | 0x112 => (s.thread t).ostat.toNat
  | _ => if num < 0x100 then s.plainCsr t num else s.trapCsr t num

/-- R382, R383: a write of the thread's own %tpc or %tidx, discarded outside handler mode. -/
def writeTrap (t : Nat) (num : Nat) (v : W64) : State :=
  if !(s.thread t).handler then s
  else if num = 0x101 then s.modThread t fun x => { x with trap := { x.trap with tpc := v } }
  else s.modThread t fun x => { x with trap := { x.trap with tidx := v.zeroExtend 32 &&& 0xF#32 } }

/-- R393: a write of a special register by a thread. -/
def writeCsr (t : Nat) (num : Nat) (v : W64) : State :=
  match num with
  | 0x00E => s.writeFstat (tidCore t) (s.ctxOf t) (v.zeroExtend 32)
  | 0x110 => s.modThread t fun x => { x with osel := v.zeroExtend 32 }
  | 0x111 =>
    let (s, k) := (s.releaseDone (some .pkg) t).writeObj (s.thread t).osel v
    if s.hasThread t then s.modThread t fun x => { x with ostat := BitVec.ofNat 32 k } else s
  | _ => if num < 0x100 then s else s.writeTrap t num v

end State

/-- R393: the registers of a special register's operand. -/
def csrWords (num : BitVec 12) : Nat :=
  match csrInfo num with
  | some (k, _) => k
  | none => 1

def execCsrr (x : CsrrArgs) (s : State) : Result :=
  .next (s.issue (.csrr x) (State.alu fun s _ t => .reg x.d (csrWords x.num) (s.readCsr t x.num.toNat) 0))

/-- R389, R393: CSRW by the participants, in ascending lane order; a write of %odat is a release at .pkg. -/
def csrwBody (x : CsrwArgs) (_ : Group) (ps : List Nat) (s : State) : State :=
  let window := x.num = 0x111#12
  let s := if window then s.sendAllOwn ps else s
  if window && ps.any fun t => s.releaseWaits t .pkg then s.holdBlocked
  else
    (ps.foldl (fun (s : State) t =>
      if s.stands t then s.writeCsr t x.num.toNat (BitVec.ofNat 64 (s.rdN t x.a (csrWords x.num))) else s) s).advance

def execCsrw (x : CsrwArgs) (s : State) : Result := .next (s.issue (.csrw x) (csrwBody x))

/-! ### ERET (R387) -/

/-- R383: bits of %tcode. -/
def tcodeCl (c : W32) : Bool := c.getLsbD 8
def tcodeDef (c : W32) : Bool := c.getLsbD 9
def tcodeRi (c : W32) : Bool := c.getLsbD 10

namespace State

variable (s : State)

/-- R387: N of the header at a clause address; none when it cannot be fetched. -/
def headerAt (t : Nat) (pc : W64) : Option Nat :=
  match (s.core (tidCore t)).clauses.find? fun k => k.ctx = s.ctxOf t && k.va = pc with
  | some k => some (hdrN k.hdr)
  | none =>
    match s.translate (tidCore t) (s.ctxOf t) pc false true with
    | .ok x _ => some (hdrN (BitVec.ofNat 64 (mnat s.mem x.pa 8)))
    | _ => none

/-- R387: where a thread resumes. -/
def resumePoint (t : Nat) (skip : Bool) : W64 × Nat :=
  let r := (s.thread t).trap
  let pc := clauseAddr r.tpc
  let i := r.tidx.toNat % 16
  if !tcodeDef r.tcode && skip && !tcodeCl r.tcode then
    match s.headerAt t pc with
    | some n => if i = n then (pc + BitVec.ofNat 64 (8 * (n + 2)), 0) else (pc, i + 1)
    | none => (pc, i + 1)
  else (pc, i)

/-- R199, R387: the access that a thread's ERET issues again. -/
def retryOf (t : Nat) (skip : Bool) : Option Access :=
  let x := s.thread t
  if !skip && tcodeDef x.trap.tcode && tcodeRi x.trap.tcode then x.retry else none

/-- R214: an access's form is one that host memory takes. -/
def opHostForm (ord : Bool) : AccOp → Bool
  | .load _ | .stbq _ _ | .penq _ => true
  | .store _ _ => !ord
  | .atom a t _ | .red a t _ => hostForm (some a) t ord
  | .cas t _ _ => hostForm none t ord

/-- R39, R176, R205: an access to be issued again must wait. -/
def retryWaits (t : Nat) (a : Access) (p : Place) : Bool :=
  decide (63 ≤ (s.thread t).ctr a.ctr) ||
    (opWrites a.op && s.writeWaits t p a.op.len a.ord a.op.isStore) ||
    (if a.op.isStore then s.storePlaces a.ord [(t, p)] else s.ordPlaces a.ord [(t, p)]).isSome ||
    (!a.op.isStore && opWrites a.op && match p with | .global _ x => s.queuedMeets t x.pa a.op.len | _ => false)

/-- R199: the access is issued again for one thread, at the place its page now gives. -/
def reissue (t : Nat) (a : Access) (x : Xlat) : State :=
  let (id, s) := s.newId
  let ctr := a.ctr
  let s := s.modThread t fun y =>
    let y := if a.op.counted then y.count ctr else y
    { (if a.acq.isSome then { y with fence := id } else y) with retry := none }
  let b : Access :=
    { a with id, tids := [t], core := tidCore t, pa := x.pa, sc := x.sc, wb := x.wb, sent := s.now, cycle := s.cyc, seen := false
             nth := [(s.thread t).nth ctr] }
  match a.op with
  | .store _ _ => s.routeStore t b
  | .atom _ _ _ | .red _ _ _ | .cas _ _ _ => s.routeAtom t b
  | _ => s.pushAccess b

/-- R387: one participant's ERET, and whether it is over; a retry that must wait holds it. -/
def eretOne (skip : Bool) (s : State) (t : Nat) : State × Bool :=
  if !(s.thread t).handler then (s.trap t tcIllegalInsn 0, true)
  else
    let (pc, i) := s.resumePoint t skip
    match s.retryOf t skip with
    | none => (s.leaveHandler t pc i, true)
    | some a =>
      match s.checkGlobal t a.va a.op.len (opWrites a.op) (opHostForm a.ord a.op) with
      | .trap k va => (s.trap t k va, true)
      | .absent => (s, false)
      | .ok p s' =>
        match p with
        | .scratch _ _ => (s, false)
        | .global _ x =>
          if s'.retryWaits t a p then (s', false) else ((s'.reissue t a x).leaveHandler t pc i, true)

/-- R387: the participants of an ERET leave handler mode, each when its retry can be issued; the group's other
members go on. -/
def eretBody (skip : Bool) (_ : Group) (ps : List Nat) (s : State) : State :=
  let (s, wait) := ps.foldl (fun (r : State × Bool) t =>
    if !r.1.stands t then r
    else
      let (s, ok) := eretOne skip r.1 t
      (s, r.2 || !ok)) (s, false)
  if wait then s.stall else s.advance

end State

def execEret (x : G) (s : State) : Result := .next (s.issue (.eret x) (State.eretBody false))

def execEretSkip (x : G) (s : State) : Result := .next (s.issue (.eretSkip x) (State.eretBody true))

end Sys2Proof.Machine
end

