-- ==== Sys2Proof/Machine/Crypto.lean ====
section
/-!
DEFINITION. What the security engine computes (13 R378): SHA-512 (FIPS 180-4), HMAC with it (RFC 2104), and ECDSA on
P-521 (FIPS 186-5) with the deterministic nonce of RFC 6979.
-/

namespace Sys2Proof.Machine

/-! ### SHA-512 (R378) -/

def shaK0 : List W64 := [
    0x428A2F98D728AE22#64, 0x7137449123EF65CD#64, 0xB5C0FBCFEC4D3B2F#64, 0xE9B5DBA58189DBBC#64,
    0x3956C25BF348B538#64, 0x59F111F1B605D019#64, 0x923F82A4AF194F9B#64, 0xAB1C5ED5DA6D8118#64,
    0xD807AA98A3030242#64, 0x12835B0145706FBE#64, 0x243185BE4EE4B28C#64, 0x550C7DC3D5FFB4E2#64,
    0x72BE5D74F27B896F#64, 0x80DEB1FE3B1696B1#64, 0x9BDC06A725C71235#64, 0xC19BF174CF692694#64,
    0xE49B69C19EF14AD2#64, 0xEFBE4786384F25E3#64, 0x0FC19DC68B8CD5B5#64, 0x240CA1CC77AC9C65#64]

def shaK1 : List W64 := [
    0x2DE92C6F592B0275#64, 0x4A7484AA6EA6E483#64, 0x5CB0A9DCBD41FBD4#64, 0x76F988DA831153B5#64,
    0x983E5152EE66DFAB#64, 0xA831C66D2DB43210#64, 0xB00327C898FB213F#64, 0xBF597FC7BEEF0EE4#64,
    0xC6E00BF33DA88FC2#64, 0xD5A79147930AA725#64, 0x06CA6351E003826F#64, 0x142929670A0E6E70#64,
    0x27B70A8546D22FFC#64, 0x2E1B21385C26C926#64, 0x4D2C6DFC5AC42AED#64, 0x53380D139D95B3DF#64,
    0x650A73548BAF63DE#64, 0x766A0ABB3C77B2A8#64, 0x81C2C92E47EDAEE6#64, 0x92722C851482353B#64]

def shaK2 : List W64 := [
    0xA2BFE8A14CF10364#64, 0xA81A664BBC423001#64, 0xC24B8B70D0F89791#64, 0xC76C51A30654BE30#64,
    0xD192E819D6EF5218#64, 0xD69906245565A910#64, 0xF40E35855771202A#64, 0x106AA07032BBD1B8#64,
    0x19A4C116B8D2D0C8#64, 0x1E376C085141AB53#64, 0x2748774CDF8EEB99#64, 0x34B0BCB5E19B48A8#64,
    0x391C0CB3C5C95A63#64, 0x4ED8AA4AE3418ACB#64, 0x5B9CCA4F7763E373#64, 0x682E6FF3D6B2B8A3#64,
    0x748F82EE5DEFB2FC#64, 0x78A5636F43172F60#64, 0x84C87814A1F0AB72#64, 0x8CC702081A6439EC#64]

def shaK3 : List W64 := [
    0x90BEFFFA23631E28#64, 0xA4506CEBDE82BDE9#64, 0xBEF9A3F7B2C67915#64, 0xC67178F2E372532B#64,
    0xCA273ECEEA26619C#64, 0xD186B8C721C0C207#64, 0xEADA7DD6CDE0EB1E#64, 0xF57D4F7FEE6ED178#64,
    0x06F067AA72176FBA#64, 0x0A637DC5A2C898A6#64, 0x113F9804BEF90DAE#64, 0x1B710B35131C471B#64,
    0x28DB77F523047D84#64, 0x32CAAB7B40C72493#64, 0x3C9EBE0A15C9BEBC#64, 0x431D67C49C100D4C#64,
    0x4CC5D4BECB3E42B6#64, 0x597F299CFC657E2A#64, 0x5FCB6FAB3AD6FAEC#64, 0x6C44198C4A475817#64]

/-- The round constants. -/
def shaK : List W64 := shaK0 ++ shaK1 ++ shaK2 ++ shaK3

/-- The initial state. -/
def shaInit : List W64 := [
    0x6A09E667F3BCC908#64, 0xBB67AE8584CAA73B#64, 0x3C6EF372FE94F82B#64, 0xA54FF53A5F1D36F1#64,
    0x510E527FADE682D1#64, 0x9B05688C2B3E6C1F#64, 0x1F83D9ABFB41BD6B#64, 0x5BE0CD19137E2179#64]

/-- Big-endian bytes of a 64-bit word. -/
def beBytes (w : W64) : List Byte := (natLe 8 w.toNat).reverse

/-- The word of eight big-endian bytes. -/
def beWord (bs : List Byte) : W64 := BitVec.ofNat 64 (leNat bs.reverse)

/-- A message with its padding: a one bit, zeros, and its length in bits. -/
def shaPad (m : List Byte) : List Byte :=
  let n := m.length
  let z := (239 - n % 128) % 128
  m ++ [0x80#8] ++ List.replicate z 0 ++ (natLe 16 (8 * n)).reverse

def rotr (w : W64) (n : Nat) : W64 := (w >>> n) ||| (w <<< (64 - n))

/-- The message schedule, newest word first. -/
def shaSchedule : Nat → List W64 → List W64
  | 0, l => l
  | n + 1, l =>
    let at_ (i : Nat) : W64 := l.getD i 0
    let s0 := rotr (at_ 14) 1 ^^^ rotr (at_ 14) 8 ^^^ (at_ 14 >>> 7)
    let s1 := rotr (at_ 1) 19 ^^^ rotr (at_ 1) 61 ^^^ (at_ 1 >>> 6)
    shaSchedule n ((at_ 15 + s0 + at_ 6 + s1) :: l)

/-- One round of the compression function. -/
def shaRound (st : List W64) (x : W64 × W64) : List W64 :=
  match st with
  | [a, b, c, d, e, f, g, h] =>
    let s1 := rotr e 14 ^^^ rotr e 18 ^^^ rotr e 41
    let ch := (e &&& f) ^^^ (~~~e &&& g)
    let t1 := h + s1 + ch + x.1 + x.2
    let s0 := rotr a 28 ^^^ rotr a 34 ^^^ rotr a 39
    let maj := (a &&& b) ^^^ (a &&& c) ^^^ (b &&& c)
    [t1 + (s0 + maj), a, b, c, d + t1, e, f, g]
  | l => l

/-- The first words of a block, newest first. -/
def shaWords (block : List Byte) : List W64 := ((upTo 16).map fun i => beWord (slice block (8 * i) 8)).reverse

/-- One block. -/
def shaBlock (st : List W64) (block : List Byte) : List W64 :=
  let ws := (shaSchedule 64 (shaWords block)).reverse
  let out := (shaK.zip ws).foldl shaRound st
  (st.zip out).map fun x => x.1 + x.2

def shaBlocks : Nat → List Byte → List W64 → List W64
  | 0, _, st => st
  | n + 1, m, st => shaBlocks n (m.drop 128) (shaBlock st (m.take 128))

/-- The 64-byte SHA-512 digest of a message. -/
def sha512 (m : List Byte) : List Byte :=
  let p := shaPad m
  (shaBlocks (p.length / 128) p shaInit).flatMap beBytes

/-! ### HMAC-SHA-512 -/

def xorBytes (b : Byte) (l : List Byte) : List Byte := l.map (· ^^^ b)

/-- HMAC-SHA-512 under a key of at most 128 bytes. -/
def hmac512 (key m : List Byte) : List Byte :=
  let k := key ++ List.replicate (128 - key.length) 0
  sha512 (xorBytes 0x5C#8 k ++ sha512 (xorBytes 0x36#8 k ++ m))

/-! ### The curve P-521: y² = x³ - 3x + b modulo p -/

def p521 : Nat := 2 ^ 521 - 1

/-- The order of the base point, and the base point. -/
def n521 : Nat :=
  0x1FFFFFFFFFFFFFFFFFFFFFFFFFFFFFFFFFFFFFFFFFFFFFFFFFFFFFFFFFFFFFFFFFA51868783BF2F966B7FCC0148F709A5D03BB5C9B8899C47AEBB6FB71E91386409

def gx521 : Nat :=
  0xC6858E06B70404E9CD9E3ECB662395B4429C648139053FB521F828AF606B4D3DBAA14B5E77EFE75928FE1DC127A2FFA8DE3348B3C1856A429BF97E7E31C2E5BD66

def gy521 : Nat :=
  0x11839296A789A3BC0045C8A5FB42C7D1BD998F54449579B446817AFBD17273E662C97EE72995EF42640C550B9013FAD0761353C7086A272C24088BE94769FD16650

/-- A difference modulo m of numbers below m. -/
def subMod (m a b : Nat) : Nat := (a + m - b) % m

/-- a to the power e modulo m, for e of at most n bits. -/
def powMod (m : Nat) : Nat → Nat → Nat → Nat
  | 0, _, _ => 1 % m
  | n + 1, a, e =>
    let r := powMod m n (a * a % m) (e / 2)
    if e % 2 = 1 then a * r % m else r

/-- The inverse modulo a prime of at most 521 bits. -/
def invMod (m a : Nat) : Nat := powMod m 521 (a % m) (m - 2)

/-- A point in Jacobian coordinates: (x / z², y / z³), or the point at infinity where z is 0. -/
structure CurvePoint where
  x : Nat
  y : Nat
  z : Nat
  deriving DecidableEq, Repr

def CurvePoint.double (a : CurvePoint) : CurvePoint :=
  let sub := subMod p521
  let d := a.z * a.z % p521
  let g := a.y * a.y % p521
  let b := a.x * g % p521
  let t := 3 * (sub a.x d * (a.x + d)) % p521
  let x := sub (t * t % p521) (8 * b % p521)
  { x, y := sub (t * sub (4 * b % p521) x % p521) (8 * (g * g) % p521), z := 2 * (a.y * a.z) % p521 }

def CurvePoint.add (a b : CurvePoint) : CurvePoint :=
  let sub := subMod p521
  if a.z = 0 then b
  else if b.z = 0 then a
  else
    let za := a.z * a.z % p521
    let zb := b.z * b.z % p521
    let u := a.x * zb % p521
    let v := a.y * (b.z * zb % p521) % p521
    let h := sub (b.x * za % p521) u
    let r := sub (b.y * (a.z * za % p521) % p521) v
    if h = 0 then (if r = 0 then a.double else ⟨1, 1, 0⟩)
    else
      let h2 := h * h % p521
      let h3 := h * h2 % p521
      let m := u * h2 % p521
      let x := sub (sub (r * r % p521) h3) (2 * m % p521)
      { x, y := sub (r * sub m x % p521) (v * h3 % p521), z := h * (a.z * b.z % p521) % p521 }

/-- k times a point, for k of at most n bits. -/
def CurvePoint.times : Nat → CurvePoint → Nat → CurvePoint
  | 0, _, _ => ⟨1, 1, 0⟩
  | n + 1, a, k =>
    let r := CurvePoint.times n a.double (k / 2)
    if k % 2 = 1 then a.add r else r

/-- The first coordinate of k times the base point. -/
def baseTimes (k : Nat) : Nat :=
  let q := CurvePoint.times 521 ⟨gx521, gy521, 1⟩ k
  q.x * invMod p521 (q.z * q.z % p521) % p521

/-! ### ECDSA with the nonce of RFC 6979 -/

/-- A number of 66 bytes, big-endian. -/
def octets66 (n : Nat) : List Byte := (natLe 66 n).reverse

/-- The number of big-endian bytes. -/
def beNat (l : List Byte) : Nat := leNat l.reverse

/-- RFC 6979 step h: the nonces that a key K and a value V yield are tried until one gives a signature (r, s); that none
of 256 does so does not arise. -/
def ecdsaTry (key digest : Nat) : Nat → List Byte → List Byte → Nat × Nat
  | 0, _, _ => (0, 0)
  | n + 1, k, v =>
    let v1 := hmac512 k v
    let v2 := hmac512 k v1
    let nonce := beNat (v1 ++ v2) / 2 ^ 503
    let r := baseTimes nonce % n521
    let t := invMod n521 nonce * (digest + key * r) % n521
    if 1 ≤ nonce && decide (nonce < n521) && r ≠ 0 && t ≠ 0 then (r, t)
    else
      let k' := hmac512 k (v2 ++ [0])
      ecdsaTry key digest n k' (hmac512 k' v2)

/-- The signature of a 64-byte digest under a private key: r ‖ s, each of 66 bytes, big-endian (R378). -/
def ecdsaSign (key : Nat) (digest : List Byte) : List Byte :=
  let tail := octets66 key ++ octets66 (beNat digest)
  let v0 := List.replicate 64 1#8
  let k1 := hmac512 (List.replicate 64 0) (v0 ++ [0] ++ tail)
  let v1 := hmac512 k1 v0
  let k2 := hmac512 k1 (v1 ++ [1] ++ tail)
  let x := ecdsaTry key (beNat digest) 256 k2 (hmac512 k2 v1)
  octets66 x.1 ++ octets66 x.2

/-- R378: the private half of the device identity key: from 1 to the order less 1. -/
def deviceKey : Nat := Config.identityKey % (n521 - 1) + 1

/-- R378: the part's signature of a transcript. -/
def signBytes (transcript : List Byte) : List Byte := ecdsaSign deviceKey (sha512 transcript)

end Sys2Proof.Machine
end

