-- ==== Sys2Proof/Machine/Security.lean ====
section
/-!
DEFINITION. The security engine (13 R378 to R381): the management queue's instructions CRYP, and the SPDM
responder's answers, with the events of its requests.
-/

namespace Sys2Proof.Machine

/-! ### CRYP (R380) -/

/-- R380: the largest attachment. -/
def attachMax : Nat := 4096

namespace State

variable (s : State)

/-- The bytes of a window span that a management program names. -/
inductive WindowRead where
  | ok (bytes : List Byte) (s : State)
  | trap (code : Nat) (va : W64)
  | poisoned (pa : Nat) (cache : Bool)
  | absent

def readWindow (t : Nat) (va : W64) (n : Nat) : WindowRead :=
  if n = 0 then .ok [] s
  else if !s.inWindow t va n then .trap tcProtection va
  else
    match placeSpan (tidCore t) (s.ctxOf t) false (spanOf va n) s with
    | .error (some (k, a)) => .trap k a
    | .error none => .absent
    | .ok (l, s') =>
      match l.find? fun x => (s'.poisonAt x.1.pa x.2).isSome with
      | some x => .poisoned x.1.pa ((s'.poisonAt x.1.pa x.2).getD false)
      | none => .ok (l.flatMap fun x => mbytes s'.mem x.1.pa x.2) s'

/-- R380: bytes appended to the attachment, and to the transcript when asked. -/
def appendAttach (t : Nat) (d : Reg) (bs : List Byte) (extend : Bool) : State :=
  match s.runOf t with
  | none => s
  | some r =>
    if attachMax < r.attach.length + bs.length then s.status t d 1
    else
      (s.modRun t fun r => { r with
        attach := r.attach ++ bs, transcript := if extend then r.transcript ++ bs else r.transcript }).status t d 0

/-- R380: CRYP.th and CRYP.emit by one thread; none while a page is not resident. -/
def crypSpan (x : DAB) (emit : Bool) (t : Nat) : Option State :=
  let va := s.rd64 t x.a
  let n := (s.rd t x.b).toNat
  if attachMax < n then some (s.status t x.d 2)
  else
    match s.readWindow t va n with
    | .absent => none
    | .trap k a => some (s.trap t k a)
    | .poisoned pa c => some (s.kill (s.ctxOf t) 1 0 (if c then 1 else 0) pa va)
    | .ok bs s' =>
      some (if emit then s'.appendAttach t x.d bs true
        else (s'.modRun t fun r => { r with transcript := r.transcript ++ bs }).status t x.d 0)

/-- A management instruction by the one thread of a queue program. -/
def crypBody (f : State → Nat → Option State) (_ : Group) (ps : List Nat) (s : State) : State :=
  match ps with
  | [] => s.advance
  | t :: _ =>
    match f s t with
    | some s => s.advance
    | none => s.stall

/-- R380: a change of the run's transcript or checkpoint. -/
def crypMark (d : Reg) (f : Run → Run) (s : State) (t : Nat) : Option State := some ((s.modRun t f).status t d 0)

end State

def execCrypTh (x : DAB) (s : State) : Result := .next (s.issue (.crypTh x) (State.crypBody fun s t => s.crypSpan x false t))

def execCrypEmit (x : DAB) (s : State) : Result :=
  .next (s.issue (.crypEmit x) (State.crypBody fun s t => s.crypSpan x true t))

def execCrypMeas (x : DA) (s : State) : Result :=
  .next (s.issue (.crypMeas x) (State.crypBody fun s t =>
    let j := (s.rd t x.a).toNat
    some (if 15 < j then s.status t x.d 2 else s.appendAttach t x.d (s.sec.meas.getD j []) true)))

def execCrypNonce (x : DstArgs) (s : State) : Result :=
  .next (s.issue (.crypNonce x) (State.crypBody fun s t =>
    let n := s.sec.draws
    let s := { s with sec := { s.sec with draws := n + 1 } }
    some (s.appendAttach t x.d ((upTo 32).map (Config.nonceByte n)) true)))

def execCrypSign (x : DstArgs) (s : State) : Result :=
  .next (s.issue (.crypSign x) (State.crypBody fun s t =>
    let m := match s.runOf t with | some r => r.transcript | none => []
    some (s.appendAttach t x.d (signBytes m) false)))

def execCrypCert (x : DAB) (s : State) : Result :=
  .next (s.issue (.crypCert x) (State.crypBody fun s t =>
    let a := (s.rd t x.a).toNat
    let n := (s.rd t x.b).toNat
    some (if attachMax < n || Config.certChain.length < a + n then s.status t x.d 2
      else s.appendAttach t x.d (slice Config.certChain a n) true)))

def execCrypTinit (x : DstArgs) (s : State) : Result :=
  .next (s.issue (.crypTinit x) (State.crypBody (State.crypMark x.d fun r => { r with transcript := [] })))

def execCrypTmark (x : DstArgs) (s : State) : Result :=
  .next (s.issue (.crypTmark x) (State.crypBody (State.crypMark x.d fun r => { r with checkpoint := r.transcript })))

def execCrypTrest (x : DstArgs) (s : State) : Result :=
  .next (s.issue (.crypTrest x) (State.crypBody (State.crypMark x.d fun r => { r with transcript := r.checkpoint })))

/-! ### The SPDM responder (R381)

The messages' layouts are those of SPDM 1.2, which R381 names (notes/assumptions/41.md). -/

def spdmVersion (m : List Byte) : Nat := fieldAt m 0 1
def spdmCode (m : List Byte) : Nat := fieldAt m 1 1
def spdmP1 (m : List Byte) : Nat := fieldAt m 2 1
def spdmP2 (m : List Byte) : Nat := fieldAt m 3 1

/-- R381: the requests of the table. -/
def spdmKnown : List Nat := [0x84, 0xE1, 0xE3, 0x81, 0x82, 0x83, 0xE0]

/-- A message header. -/
def spdmHead (version code p1 p2 : Nat) : List Byte := natLe 1 version ++ natLe 1 code ++ natLe 1 p1 ++ natLe 1 p2

/-- R381: ERROR. -/
def spdmError (code : Nat) : List Byte := spdmHead 0x12 0x7F code 0

/-- R381: the state in which a request is accepted; any for GET_VERSION. -/
def spdmWants (code : Nat) : Option SpdmSt :=
  match code with
  | 0x84 => none
  | 0xE1 => some .version
  | 0xE3 => some .capabilities
  | _ => some .negotiated

/-- The least length of a request. -/
def spdmLen (m : List Byte) : Nat :=
  match spdmCode m with
  | 0xE1 => 20
  | 0xE3 => 32
  | 0x82 => 8
  | 0x83 => 36
  | 0xE0 => if natBit (spdmP1 m) 0 then 37 else 4
  | _ => 4

/-- R381: a request in form. -/
def spdmForm (m : List Byte) : Bool :=
  decide (spdmLen m ≤ m.length) &&
    (match spdmCode m with
     | 0x82 => spdmP1 m % 16 = 0 && decide (fieldAt m 4 2 < Config.certChain.length)
     | 0x83 => spdmP1 m = 0 && (spdmP2 m = 0 || spdmP2 m = 1 || spdmP2 m = 0xFF)
     | 0xE0 => spdmP2 m ≤ 16 || spdmP2 m = 0xFF
     | _ => true)

/-- R381: the error a request receives; 0 when it is accepted. -/
def spdmFault (st : SpdmSt) (m : List Byte) : Nat :=
  if m.length < 4 then 0x01
  else if !spdmKnown.contains (spdmCode m) then 0x07
  else if spdmVersion m ≠ 0x12 then 0x41
  else if !spdmForm m then 0x01
  else if (spdmWants (spdmCode m)).any fun w => w ≠ st then 0x04
  else 0

namespace State

variable (s : State)

/-- R381: MEAS registers as measurement blocks 1 to 16. -/
def measBlock (i : Nat) : List Byte :=
  natLe 1 i ++ natLe 1 1 ++ natLe 2 67 ++ natLe 1 (Config.spdmField (16 + i) % 128) ++ natLe 2 64 ++ s.sec.meas.getD (i - 1) []

/-- The blocks that GET_MEASUREMENTS asks for. -/
def measAsked (op : Nat) : List Nat := if op = 0 then [] else if op = 0xFF then (upTo 16).map (· + 1) else [op]

/-- The responder's nonce of this answer. -/
def spdmNonce : List Byte := (upTo 32).map (Config.nonceByte s.sec.draws)

/-- The summary of the measurements. -/
def measSummary (kind : Nat) : List Byte :=
  if kind = 0 then [] else sha512 ((upTo 16).flatMap fun i => s.measBlock (i + 1))

/-- R305, R381: the reply of the responder's run to a message, and its attachment, leave, and the device's responder state
changes; how many instructions the run has executed is free (notes/assumptions/67.md). -/
def answer (x : SpdmArgs) (bytes : List Byte) (f : Vd → Vd) : State :=
  { s.modVd x.vd f with
    draws := s.draws + 1
    sent := s.sent ++ [.reply none x.seq [BitVec.ofNat 64 (Config.anyValue s.draws * 2 ^ 32)],
      .attachment none x.seq (natLe 4 bytes.length ++ natLe 4 x.seq ++ bytes)] }

/-- R381: a request is answered by `f` if the responder accepts it, else by ERROR; a message that is another
request of the table is no matter of this event. -/
def spdmRequest (code : Nat) (x : SpdmArgs) (f : State → State) : State :=
  let w := (s.vd x.vd).word
  let k := spdmFault (s.vd x.vd).spdm x.msg
  if !s.booted || 64 ≤ x.vd || !w.getLsbD 0 || w.getLsbD 1 then s
  else if 4 ≤ x.msg.length && spdmCode x.msg ≠ code && spdmKnown.contains (spdmCode x.msg) then s
  else if k ≠ 0 then s.answer x (spdmError k) id
  else f s

/-- R381: an answer that both messages extend the transcript with. -/
def answerPlain (x : SpdmArgs) (bytes : List Byte) : State :=
  s.answer x bytes fun v => { v with transcript := v.transcript ++ x.msg ++ bytes }

/-- R381: an answer signed over the transcript since the checkpoint, to which the transcript then returns. -/
def answerSigned (x : SpdmArgs) (bytes : List Byte) : State :=
  let m := (s.vd x.vd).transcript ++ x.msg ++ bytes
  s.answer x (bytes ++ signBytes m) fun v => { v with transcript := v.checkpoint }

/-- A nonce has been drawn. -/
def drawn : State := { s with sec := { s.sec with draws := s.sec.draws + 1 } }

end State

/-- R381: VERSION: one entry, 1.2. -/
def versionMsg : List Byte := spdmHead 0x12 0x04 0 0 ++ natLe 1 0 ++ natLe 1 1 ++ natLe 2 0x1200

/-- R381: CAPABILITIES with CERT_CAP, CHAL_CAP and signed MEAS_CAP. -/
def capabilitiesMsg : List Byte :=
  spdmHead 0x12 0x61 0 0 ++ natLe 1 0 ++ natLe 1 (Config.spdmField 0) ++ natLe 2 0 ++ natLe 4 0x16 ++
    natLe 4 (Config.spdmField 1) ++ natLe 4 (Config.spdmField 2)

/-- R381: ALGORITHMS: ECDSA P-521, SHA-512 for base and measurement hash. -/
def algorithmsMsg : List Byte :=
  spdmHead 0x12 0x63 0 0 ++ natLe 2 36 ++ natLe 1 1 ++ natLe 1 0 ++ natLe 4 0x08 ++ natLe 4 0x100 ++ natLe 4 0x04 ++
    List.replicate 16 0

/-- GET_VERSION (R381). -/
def execGetVersion (x : SpdmArgs) (s : State) : Result :=
  .next (s.spdmRequest 0x84 x fun s =>
    s.answer x versionMsg fun v => { v with spdm := .version, transcript := x.msg ++ versionMsg })

/-- GET_CAPABILITIES (R381). -/
def execGetCapabilities (x : SpdmArgs) (s : State) : Result :=
  .next (s.spdmRequest 0xE1 x fun s =>
    (s.answerPlain x capabilitiesMsg).modVd x.vd fun v => { v with spdm := .capabilities })

/-- NEGOTIATE_ALGORITHMS (R381). -/
def execNegotiateAlgorithms (x : SpdmArgs) (s : State) : Result :=
  .next (s.spdmRequest 0xE3 x fun s =>
    (s.answerPlain x algorithmsMsg).modVd x.vd fun v => { v with spdm := .negotiated, checkpoint := v.transcript })

/-- GET_DIGESTS (R381). -/
def execGetDigests (x : SpdmArgs) (s : State) : Result :=
  .next (s.spdmRequest 0x81 x fun s => s.answerPlain x (spdmHead 0x12 0x01 0 1 ++ sha512 Config.certChain))

/-- GET_CERTIFICATE (R381). -/
def execGetCertificate (x : SpdmArgs) (s : State) : Result :=
  .next (s.spdmRequest 0x82 x fun s =>
    let o := fieldAt x.msg 4 2
    let left := Config.certChain.length - o
    let n := min (min (fieldAt x.msg 6 2) left) (attachMax - 8)
    s.answerPlain x (spdmHead 0x12 0x02 0 0 ++ natLe 2 n ++ natLe 2 (left - n) ++ slice Config.certChain o n))

/-- CHALLENGE (R381). -/
def execChallenge (x : SpdmArgs) (s : State) : Result :=
  .next (s.spdmRequest 0x83 x fun s =>
    (s.answerSigned x (spdmHead 0x12 0x03 0 1 ++ sha512 Config.certChain ++ s.spdmNonce ++ s.measSummary (spdmP2 x.msg) ++
      natLe 2 0)).drawn)

/-- GET_MEASUREMENTS (R381). -/
def execGetMeasurements (x : SpdmArgs) (s : State) : Result :=
  .next (s.spdmRequest 0xE0 x fun s =>
    let op := spdmP2 x.msg
    let blocks := State.measAsked op
    let rcd := blocks.flatMap fun i => s.measBlock i
    let body := spdmHead 0x12 0x60 (if op = 0 then 16 else 0) 0 ++ natLe 1 blocks.length ++ natLe 3 rcd.length ++ rcd ++
      s.spdmNonce ++ natLe 2 0
    (if natBit (spdmP1 x.msg) 0 then s.answerSigned x body else s.answerPlain x body).drawn)

end Sys2Proof.Machine
end

