-- ==== Sys2Proof/Machine/Boot.lean ====
section
/-!
DEFINITION. Errors, thermal limits, package reset and boot (12 R345; 13 R378, R379; 14 R397, R398, R400; 15
R412 to R414): ECC_ERROR, THERMAL_TRIP, THERMAL_RESUME, PACKAGE_RESET, FINAL_REPORT_READ and
FIRMWARE_IMAGE_WRITE.
-/

namespace Sys2Proof.Machine

/-- 64-bit words of a byte string. -/
def wordsOf : Nat → List Byte → List W64
  | 0, _ => []
  | n + 1, bs => BitVec.ofNat 64 (leNat (bs.take 8)) :: wordsOf n (bs.drop 8)

/-- Instructions of a program that is cut into clauses. -/
def programLen (code : List W64) : Nat :=
  match cutClauses code.length 0 code with
  | some cs => cs.foldl (fun n c => n + c.2.2.length) 0
  | none => 0

/-- R378: a measurement register extended. -/
def extendMeas (old data : List Byte) : List Byte := sha512 (old ++ data)

namespace State

variable (s : State)

/-! ### Boot (R379, R413) -/

/-- R329, R413: the market table in force, as the boot measures it; no rule gives its layout. -/
def tableBytes : List Byte :=
  Config.tableBytes ([s.market.interval] :: (s.market.units.map fun u => [0, u.1, u.2.owner, if u.2.listed then 1 else 0]) ++
    (s.market.pools.map fun p => [1, p.1, p.2.reserve]) ++ s.tenants.map fun t => [2, t.1, t.2.rate, t.2.cap])

/-- R411: the board controller assigns the node number, a package's, at boot; memory here starts with nothing. -/
def takeNode : State :=
  let s' := { s with node := BitVec.ofNat 12 (Config.nodeNumber s.sec.resets % 128) }
  { s' with mem := s.mem.filter fun c => !s'.isLocal c.1 }

/-- R379, R391: the management queue of a device, loaded with the responder. -/
def managementQueue (v : Nat) (code : List W64) : State :=
  s.modQueue (queueKey v 63) fun q => { q with
    code
    qctl := BitVec.ofNat 64 (1 + (if Config.responderDie v then 2 else 0) + bitsOf q.qctl 8 8 * 2 ^ 8 + programLen code % 2 ^ 16 * 2 ^ 16) }

/-- R411, R413: the part has its node number, and the security engine boots it or leaves it in reset. -/
def boot : State :=
  let s := s.takeNode
  let img := s.sec.flash
  if !Config.imageVerifies img then
    { s with held := true, booted := false, sent := s.sent ++ [.imageRejected] }
  else
    let part := Config.responderPart img
    let old (i : Nat) : List Byte := s.sec.meas.getD i []
    let meas := [extendMeas (old 0) img, extendMeas (old 1) part, extendMeas (old 2) s.tableBytes,
      extendMeas (old 3) (natLe 8 s.node.toNat)] ++ s.sec.meas.drop 4
    let code := wordsOf (part.length / 8) part
    let s := { s with sec := { s.sec with meas, image := img }, held := false, booted := true }
    (upTo 64).foldl (fun s v => s.managementQueue v code) s

/-! ### Package reset (R345, R400) -/

/-- R344: the counters of the fabric ports. -/
def portCounters : List (List Nat) :=
  (upTo 24).map fun p =>
    let x := s.port (fabricPort p)
    [(tget s.crc p).getD 0, x.slow, x.cuts, x.late]

/-- R345: the final report. -/
def finalReport : List Byte := Config.reportBytes s.meters s.portCounters s.node.toNat s.sec.resets s.now

/-- R400: every state of the part is cleared but what stands outside it: the flash, other nodes' and hosts' memory, the
node number until boot, and the report with its signature. -/
def clearPart (report : List Byte) : State :=
  { State.reset with
    node := s.node
    mem := s.mem.filter fun c => !s.isLocal c.1
    agenda := s.agenda
    sent := s.sent
    draws := s.draws
    sec := { State.reset.sec with
      flash := s.sec.flash, report, signature := signBytes report
      resets := s.sec.resets + 1, draws := s.sec.draws } }

/-- R400: meters frozen and reported, state cleared, boot. -/
def resetPackage : State := (s.clearPart s.finalReport).boot

/-! ### Errors (R397, R398) -/

/-- R398: a page is retired, while the list has room. -/
def retirePage (page : Nat) : State :=
  if s.retired.any fun p => p.2 = page then s
  else
    match (upTo 4096).find? fun i => (tget s.retired i).isNone with
    | none => s
    | some i => { s with retired := tput s.retired i page, errc := { s.errc with retired := s.errc.retired + 1 } }

/-- The stores that stand in a core's store queue and write-combining buffer. -/
def bufferedStores (c : Nat) : List Access := (s.core c).sq ++ (s.core c).wcb.flatMap (·.stores)

/-- R22: the context that runs on a core's quad. -/
def coreOwner (c : Nat) : Option Nat := (s.quad (coreQuad c)).ctx

/-- R397: the context that owns what an error has struck: of a core's or a quad's caches, the one that runs there. -/
def eccOwner (x : EccArgs) : Option Nat :=
  match x.what with
  | .dram | .cacheClean | .cacheDirty => (tget s.dirty (s.local_ (x.loc * 128) / 128)).map (·.ctx)
  | .regFile => if s.hasThread x.loc then some (s.ctxOf x.loc) else none
  | .scratch => (tget s.wgs x.loc).map (·.ctx)
  | .engine => (s.quad x.loc).ctx
  | .storeQueue => (s.bufferedStores x.loc)[x.sub]?.map (·.ctx)
  | .parityTable => if x.ctx < 256 then some x.ctx else none
  | .l1 | .icache => s.coreOwner x.loc
  | .tlb => if x.sub = 0 then s.coreOwner x.loc else (s.quad x.loc).ctx
  | .commons => none

/-- Data poisoned in place. -/
def addPoison (p : Poison) : State := if s.poison.contains p then s else { s with poison := p :: s.poison }

/-- R397: the response to an error that cannot be corrected. -/
def eccBad (x : EccArgs) : State :=
  let line := s.local_ (x.loc * 128) / 128
  let page := x.loc * 128 / 65536
  match x.what with
  | .dram => if 2 ^ 41 ≤ x.loc then s else (s.addPoison (.line line false)).retirePage page
  | .cacheDirty => if (tget s.dirty line).isSome then (s.addPoison (.line line true)).retirePage page else s
  | .cacheClean => s
  | .l1 => s.dropL1 x.loc x.sub
  | .regFile => if s.hasThread x.loc then s.addPoison (.reg (if x.sub < 1000 then x.loc else tidFlock x.loc) x.sub) else s
  | .scratch => if (tget s.wgs x.loc).isSome then s.addPoison (.scratch x.loc x.sub) else s
  | .engine => if x.loc < 64 then s.addPoison (.engine x.loc) else s
  | .storeQueue =>
      match (s.bufferedStores x.loc)[x.sub]? with
      | some a => s.addPoison (.store a.id)
      | none => s
  | .icache => s.modCore x.loc fun k => { k with clauses := [], code := [] }
  | .tlb => if x.sub = 0 then s.modCore x.loc fun k => { k with tlb := [] } else s.modQuad x.loc fun q => { q with tlb := [] }
  | .parityTable =>
      match s.eccOwner x with
      | some c => s.kill c 5 0 6 0 0
      | none => s
  | .commons => s.resetPackage

/-- R397: parity tells no correctable error apart. -/
def eccParity : EccStruct → Bool
  | .icache | .tlb | .parityTable => true
  | _ => false

/-- ECC_ERROR: an error is counted, in its owner's meter too, and responded to; the kill of an owner counts it there. -/
def eccEvent (x : EccArgs) : State :=
  if x.correctable && eccParity x.what then s
  else
    let s := match s.eccOwner x with | some c => if x.what = EccStruct.parityTable then s else s.ctxError c | none => s
    if x.correctable then { s with errc := { s.errc with corrected := s.errc.corrected + 1 } }
    else { s with errc := { s.errc with uncorrectable := s.errc.uncorrectable + 1 } }.eccBad x

/-! ### Thermal limits (R414) -/

/-- R414: a unit's sensor stops its issue, or lets it go on; the part reports it. Ports 24 to 27 are the host ports. -/
def thermal (u : ThermalUnit) (hot : Bool) : State :=
  let note (l : List Nat) (n : Nat) : List Nat := if hot then insertNat n l else l.filter (· ≠ n)
  let s := match u with
    | .quad n => if n < 64 then s.modQuad n fun q => { q with hot } else s
    | .slice n => if n < 48 then { s with hotSlices := note s.hotSlices n } else s
    | .port n => if n < 28 then { s with hotPorts := note s.hotPorts n } else s
  { s with sent := s.sent ++ [.thermal u hot] }

end State

/-- ECC_ERROR (R397, R398). -/
def execEccError (x : EccArgs) (s : State) : Result := .next (s.eccEvent x)

/-- THERMAL_TRIP (R414). -/
def execThermalTrip (u : ThermalUnit) (s : State) : Result := .next (s.thermal u true)

/-- THERMAL_RESUME (R414). -/
def execThermalResume (u : ThermalUnit) (s : State) : Result := .next (s.thermal u false)

/-- PACKAGE_RESET (R345, R400, R413). -/
def execPackageReset (s : State) : Result := .next s.resetPackage

/-- FINAL_REPORT_READ (R345, R412). -/
def execFinalReportRead (s : State) : Result :=
  .next { s with sent := s.sent ++ [.finalReport s.sec.report s.sec.signature] }

/-- FIRMWARE_IMAGE_WRITE (R412). -/
def execFirmwareImageWrite (image : List Byte) (s : State) : Result :=
  .next { s with sec := { s.sec with flash := image } }

end Sys2Proof.Machine
end

