-- ==== Sys2Proof/Machine/Migration.lean ====
section
/-!
DEFINITION. Migration (14 R404 to R407, 20 R424 to R426): MIGR, and the event DROVER_STEP_COMPLETE, which
runs a step of a session to its end or as far as it can go.
-/

namespace Sys2Proof.Machine

/-- R404: the number of a step. -/
def MStep.num : MStep → Nat
  | .open => 0 | .round => 1 | .stop => 2 | .land => 3 | .abort => 4 | .close => 5

namespace State

variable (s : State)

def sessionOf (c : Nat) : Option Session := s.sessions.find? fun x => x.ctx = c

def modSession (c : Nat) (f : Session → Session) : State :=
  { s with sessions := s.sessions.map fun x => if x.ctx = c then f x else x }

def endSession (c : Nat) : State := { s with sessions := s.sessions.filter fun x => x.ctx ≠ c }

/-! ### MIGR (R405) -/

/-- R304, R405: the run of a thread holds a step for a context. -/
def heldStep (t c : Nat) : Bool :=
  match s.runOf t with
  | some r => r.held.any fun h => match h with | .migr x _ _ => x = c | _ => false
  | none => false

/-- R405: the status that MIGR writes. -/
def migrStatus (t c : Nat) (step : MStep) : Nat :=
  if 256 ≤ c then 2
  else if s.heldStep t c then 1
  else
    match s.sessionOf c with
    | none => match step with
        | .open => if s.active c then 0 else 2
        | .land => if s.active c then 2 else 0
        | _ => 2
    | some x =>
      if x.doing.isSome then 1
      else match step, x.last with
        | .round, some .open | .round, some .round | .stop, some .open | .stop, some .round | .abort, some .open
        | .abort, some .round | .abort, some .stop | .close, some .stop => 0
        | _, _ => 2

/-! ### The session record (R404, R405) -/

/-- R404: the session record is written, and then the signal. -/
def reportStep (x : Session) (step : MStep) (ok : Bool) (res : Nat) (counts : Option (Nat × Nat × Nat)) : State :=
  match (if x.desc.toNat % 128 = 0 then s.droveRead x.owner 128 x.desc else none) with
  | none => s
  | some d =>
    let n := if ok then step.num else (x.last.map MStep.num).getD (fieldAt d 107 1)
    let k := counts.getD (fieldAt d 112 4, fieldAt d 116 4, fieldAt d 120 8)
    let rcd := List.replicate 43 0 ++ natLe 1 n ++ natLe 1 res ++ List.replicate 3 0 ++ natLe 4 k.1 ++ natLe 4 k.2.1 ++
      natLe 8 k.2.2
    let s := droveWrite x.owner rcd (x.desc + 64) s
    if mgSig d = 0 then s else droveWrite x.owner (natLe 8 (step.num + 1)) (mgSig d) s

/-- R405: a step ends, and with it the session where the step ends one. -/
def finishStep (x : Session) (step : MStep) (res : Nat) (counts : Option (Nat × Nat × Nat)) : State :=
  let ok := decide (res = 0)
  let s := s.reportStep x step ok res counts
  let ended := match step with
    | .open => !ok
    | .land => true
    | .abort | .close => ok
    | _ => false
  if ended then s.endSession x.ctx
  else s.modSession x.ctx fun y =>
    { y with doing := none, fence := none, last := if ok then some step else y.last }

/-! ### Copies (R405, R406) -/

/-- A listed page with its place here and its leaf. -/
abbrev PlacedPage := MovedPage × Nat × Leaf

/-- R404: every listed page stands here with BACK 0. -/
def placedPages (c : Nat) (l : List MovedPage) : Option (List PlacedPage) :=
  l.foldl (fun r p => match r, s.pageHere c p with
    | some r, some y => some (r ++ [(p, y)])
    | _, _ => none) (some [])

/-- A leaf's word as it stands now. -/
def leafNow (l : Leaf) : W64 := BitVec.ofNat 64 (mnat s.mem l.entPa 8)

/-- R361: D of a page's leaf. -/
def dirtyLeaf (p : PlacedPage) : Bool := (s.leafNow p.2.2).getLsbD 7

/-- R364, R366: a write to a page that was translated before an identity has still to land. -/
def lateWrite (fence : Nat) (p : PlacedPage) : Bool :=
  let inside (pa : Nat) : Bool := decide (p.2.1 ≤ pa) && decide (pa < p.2.1 + 65536)
  let late (a : Access) : Bool := decide (a.id < fence) && inside a.pa
  s.outstanding.any late ||
    s.cores.any fun k => (k.2.sq ++ k.2.wcb.flatMap (·.stores)).any late ||
      k.2.cmds.any fun m => m.stage = .moving && decide (m.id < fence) && m.owns.any fun l => inside (l * 128)

/-- R405: a page is copied to its frame, and its bit cleared; a copy without its reply keeps the bit. -/
def movePage (x : Session) (d : List Byte) (answered : Bool) (r : State × Nat) (p : PlacedPage) : State × Nat :=
  let s := r.1
  let (ok, s) := if answered then (true, s) else (Config.anyValue s.draws % 2 = 1, { s with draws := s.draws + 1 })
  if ok then ((s.copyPage p.2.1 p.1.dst).markPage x d p.1.num false, r.2 + 1) else (s.markPage x d p.1.num true, r.2)

/-- Bytes of this package copied to the pod picture. -/
def copyBytes (src dst n : Nat) : State := s.putMem dst (mbytes s.mem src n) 0

/-! ### open and round (R405) -/

/-- R405: open sets every bit. -/
def openStep (x : Session) : State :=
  let bad := s.finishStep x .open 2 none
  match s.sessionDesc x with
  | none => bad
  | some d =>
    match s.listedPages x d with
    | none => bad
    | some l =>
      let writable := (upTo ((mgNpage d + 7) / 8)).all fun i =>
        (s.drovePlace x.owner (mgBitmap d + BitVec.ofNat 64 i) true).isSome
      if !mgOk d || !writable || (s.placedPages x.ctx l).isNone then bad
      else
        let s := l.foldl (fun s p => s.markPage x d p.num true) s
        s.finishStep x .open 0 (some (0, mgNpage d, 0))

/-- The pages of a session's step, or none when its data is not in form. -/
def stepPages (x : Session) : Option (List Byte × List PlacedPage) :=
  match s.sessionDesc x with
  | none => none
  | some d => if !mgOk d then none else ((s.listedPages x d).bind (s.placedPages x.ctx)).map fun l => (d, l)

/-- R405: round ORs D into the bitmap and clears it, and, once what was translated before has landed, copies
the marked pages. -/
def roundStep (x : Session) (answered : Bool) : State :=
  match s.stepPages x with
  | none => s.finishStep x .round 2 none
  | some (d, l) =>
    match x.fence with
    | none =>
        let s := l.foldl (fun (s : State) p => if s.dirtyLeaf p then s.markPage x d p.1.num true else s) s
        let s := l.foldl (fun (s : State) p => s.putMem p.2.2.entPa (natLe 8 (s.leafNow p.2.2 &&& ~~~0x80#64).toNat) 0) s
        let s := s.dropTlb fun e => !(l.any fun p => e.leafPa = p.2.2.entPa)
        s.modSession x.ctx fun y => { y with fence := some s.fresh }
    | some f =>
        if l.any (s.lateWrite f) then s
        else
          let (s, n) := (l.filter fun p => s.markedPage x d p.1.num).foldl (movePage x d answered) (s, 0)
          let left := (l.filter fun p => s.markedPage x d p.1.num || s.dirtyLeaf p).length
          s.finishStep x .round (if answered then 0 else 3) (some (n, left, 0))

/-! ### stop (R406) -/

/-- R406 step 1: quads that hold the context or are being taken from it. -/
def quadsOf (c : Nat) : List Nat :=
  (upTo 64).filter fun q => (s.quad q).ctx = some c && ((s.quad q).handover || s.wgsOn q ≠ [])

/-- R406 step 5: the unstarted packets of the context's queues go to the same queues of the destination context's device,
and the queues are unloaded; a management queue, whose LOADED is read-only (R391), stays loaded. -/
def takeRings (c : Nat) (d : List Byte) : State :=
  (s.queues.filter fun q => q.2.loaded && q.2.owner = c).foldl (fun (s : State) q =>
    let moved : List MovedPacket := q.2.ring.map fun p => ⟨p.ctx, p.seq, p.body, p.from_⟩
    let s := { s with sent := s.sent ++ [Sent.ring (mgDnode d) (mgDctx d) (q.1 % 64) moved] }
    s.modQueue q.1 fun x => if q.1 % 64 = 63 then { x with ring := [] } else { x with qctl := x.qctl &&& ~~~1#64, ring := [], code := [] }) s

/-- R405, R406: the folds' forwarding entries for the listed pages of a session are installed or removed. -/
def sendEntries (c : Nat) (pages : List (Nat × Nat)) : State :=
  { s with sent := s.sent ++ (upTo 24).map fun i => Sent.foldEntries (0x100 + i) c pages }

/-- R406 steps 1 and 2: the last workgroup has stopped: the stamp is taken, the folds have their entries, and the
destination holds what is forwarded to a page until its final copy (R407). -/
def cutOver (x : Session) : State :=
  let s := s.modSession x.ctx fun y => { y with cut := some s.now, entries := true }
  match s.stepPages x with
  | none => s.sendEntries x.ctx []
  | some (d, l) =>
    let s := s.sendEntries x.ctx (l.map fun p => (p.2.1, p.1.dst))
    { s with sent := s.sent ++ [.awaits (mgDnode d) (mgDctx d) (l.map fun p => paOff p.1.dst / 65536)] }

/-- R238, R406: an ordered operation that a saved workgroup of a context has on its way. -/
def outOf (c : Nat) (o : OrdOp) : Bool :=
  match o.work with
  | .access a => (s.savedWgs c).any fun w => a.core = savedCore w.wg.id
  | .pen core _ _ _ _ _ => (s.savedWgs c).any fun w => core = savedCore w.wg.id
  | _ => false

/-- What of them has been applied is acknowledged, so that the save has it. -/
def ackOut (c : Nat) : State :=
  let done (o : OrdOp) : Bool := s.outOf c o && match o.st with | .applied _ _ | .rejected => true | _ => false
  (s.ords.filter done).foldl (fun (s : State) o => s.onLoan fun s => s.ackById o.id none) s

/-- R406 step 1: the barrier entries of a context are spilled to its save area. -/
def spillBars (c : Nat) : State :=
  { s with bars := tmap s.bars fun b => if b.ctx = c then { b with resident := false } else b }

/-- R406: an ordered operation of this package's receivers stamped below S and not applied. -/
def orderedBelow (cut : Nat) : Bool :=
  s.ords.any fun o => decide (o.recv < 48) && decide (o.rank.stamp < cut) && (o.st = .sent || o.st = .held)

/-- R406 steps 4 and 5. -/
def stopCopies (x : Session) (cut : Nat) (answered : Bool) : State :=
  match s.stepPages x with
  | none => s.finishStep x .stop 2 none
  | some (d, l) =>
    let s := (s.spillBars x.ctx).rewriteSave x.ctx id
    if s.dying.contains x.ctx then s.finishStep x .stop 2 none
    else
      let (s, n) := (l.filter fun p => s.markedPage x d p.1.num || s.dirtyLeaf p).foldl (movePage x d answered) (s, 0)
      let left := (l.filter fun p => s.markedPage x d p.1.num).length
      if !answered then s.finishStep x .stop 3 (some (n, left, cut))
      else
        let s := s.copyBytes (s.local_ (s.ctx x.ctx).words.save.toNat) (mgDsave d) (s.saveSize x.ctx)
        (s.takeRings x.ctx d).finishStep x .stop 0 (some (n, left, cut))

/-- R406: stop, as far as it can go: the workgroups stop, the stamp is taken, and the copies are made. -/
def stopStep (x : Session) (answered : Bool) : State :=
  match x.cut with
  | some cut =>
      let s := s.ackOut x.ctx
      if min (s.inputMark 0) (s.inputMark 1) ≤ cut || s.orderedBelow cut || s.ords.any (s.outOf x.ctx) then s
      else s.stopCopies x cut answered
  | none =>
      let qs := s.quadsOf x.ctx
      if qs = [] then
        if s.timed then s.cutOver x else s
      else (qs.filter fun q => !(s.quad q).handover).foldl (fun s q => s.beginStop q) s

/-! ### land (R394, R395, R405, R425) -/

/-- R323: heights and held points of the frontier launches, in their order. -/
def landFronts (c : Nat) : List (List Byte) → Nat → List (Tbl Nat × List (Nat × Nat))
  | [], _ => []
  | r :: t, off =>
    if rcNdep r = 0 then ([], []) :: landFronts c t off
    else
      let np := s.saveNat c (off + 8) 4
      let nh := s.saveNat c (off + 12) 4
      let f (i : Nat) : Nat × Nat := (s.saveNat c (off + 32 + 8 * i + 4) 4, s.saveNat c (off + 32 + 8 * i) 4)
      let held := (upTo nh).map fun i => ((f (np + i)).2, (f (np + i)).1)
      (heightsFrom ((upTo np).map f) 0, held) :: landFronts c t (off + 32 + 8 * (np + nh))

/-- Column and height of a point of a frontier launch. -/
def cellOf (r : List Byte) (lin : Nat) : Nat × Nat :=
  ((upTo (rcCols r)).findSome? fun c =>
    ((upTo (rcExt r (rcSweep r))).find? fun h => cellLin r c h = lin).map fun h => (c, h)).getD (0, 0)

/-- R394 type 13: a landed launch, its points still to come. -/
def landLaunch (c j id : Nat) (h : Tbl Nat) : Launch :=
  let at_ := s.sectionAt c 13 + 320 * j
  let r := s.saveBytes c at_ 256
  let f := fieldIn [(1, 0), (40, 0), (40, 0)] (s.saveNat c (at_ + 256) 64)
  { id, ctx := c, die := f 0, record := r, reserved := false, chain := s.chainRest 258 c 65536 (BitVec.ofNat 64 (rcContrec r)) []
    started := [], ended := none, h, points := [], next := f 1, complete := f 2, owed := none
    ahead := (s.extrasOf c 6 j).map fun v => (fieldIn [(32, 0), (32, 0)] v 0, fieldIn [(32, 0), (32, 0)] v 1)
    pins := (s.extrasOf c 5 j).foldl (fun t v => let f := fieldIn [(40, 0), (1, 0)] v; tput t (f 0) (f 1)) [] }

/-- A landed launch's points in flight: as they were written, or those of its workgroups (notes/assumptions/79.md). -/
def landPoints (c j : Nat) (l : Launch) (ws : List Wg) : List PointSt :=
  match s.extrasOf c 3 j with
  | [] =>
    (((ws.filter fun w => w.launch = l.id).map (·.point)).eraseDups).map fun lin =>
      let cell := if rcNdep l.record = 0 then (0, 0) else cellOf l.record lin
      { lin, col := cell.1, h := cell.2, held := decide (rcNdep l.record ≠ 0), todo := [], finished := [] }
  | ps =>
    let chunks := (s.extrasOf c 4 j).map (fieldIn [(40, 0), (32, 0), (448, 0), (448, 0)])
    ps.map fun v =>
      let f := fieldIn [(40, 0), (32, 0), (32, 0), (1, 0)] v
      let some_ (k : Nat) : List Nat := (chunks.filter fun g => g 0 = f 0).flatMap fun g => (maskList 448 (g k)).map (448 * g 1 + ·)
      { lin := f 0, col := f 1, h := f 2, held := f 3 = 1, todo := some_ 2, finished := some_ 3 }

/-- R394 type 1: a landed workgroup, and the save it belongs to. -/
structure LandedWg where
  wg : Wg
  save : Nat
  halted : Bool
  book : Bool
  deriving DecidableEq, Repr

def landWg (c id k : Nat) (ls : List Launch) : LandedWg :=
  let f := fieldIn (wgFields 0 0 false (SavedWg.none noWg)) (s.saveRecord c 1 64 k)
  ⟨placeWg f { noWg with id, ctx := c, launch := (ls[f 0]?.map (·.id)).getD 0 }, f 24, f 25 = 1, f 16 = 1⟩

/-- The clause at which a landed thread waits, as its memory has it. -/
def landClause (c : Nat) (pc : W64) : Option (W64 × List W64) :=
  match s.droveNat c 8 pc with
  | none => none
  | some h =>
    let hdr := BitVec.ofNat 64 h
    ((upTo (hdrN hdr + 1)).foldl (fun l i =>
      match l, s.droveNat c 8 (pc + BitVec.ofNat 64 (8 * (i + 1))) with
      | some l, some w => some (l ++ [BitVec.ofNat 64 w])
      | _, _ => none) (some ([] : List W64))).map fun l => (hdr, l)

/-- R299, R395: a landed thread that waited in BARW, BARAW or WAITM is in that wait again, with a group of its own; any
other wait is entered afresh with the cycles it had left (R219). -/
def landWait (c : Nat) (w : Wg) (at_ i : Nat) (x : Thread) : Thread × List Group :=
  if x.st ≠ .stalled then (x, [])
  else
    match x.carry, s.landClause c x.pc with
    | some left, some (hdr, ws) =>
      let g : Group :=
        { id := 0, core := w.core, wg := w.id, pc := x.pc, hdr, words := ws, idx := x.idx, members := [i], blocked := true
          stalled := false, part := [], yielding := false, passed := none, age := 0 }
      let p := BitVec.ofNat 32 (s.saveNat c (at_ + 0x14) 4)
      let key (b : Bar) : Nat := match b with
        | .b n => barKeyOf w 0 n.val
        | .bt n => barKeyOf w 1 n.val
      let into (kind : WaitKind) (dst : Reg) : Thread × List Group :=
        ({ x with st := .blocked, carry := none, wait := some { kind, d := dst, deadline := left, sent := 0, first := false } }, [g])
      match instrAt g with
      | some (.barw y) => into (.phase (key y.bar) p) y.d
      | some (.baraw y) => into (.phase (key y.bar) p) y.d
      | some (.waitm y) => into (.meet y.k.val) y.d
      | _ => (x, [])
    | _, _ => (x, [])

/-- R394: where the records of a landed workgroup stand: its own number, its first thread's, and the identities that its
commands, flushes, stores and deferred errors take from their records' numbers on. -/
structure LandAt where
  num : Nat
  thread : Nat
  cmds : Nat
  sends : Nat
  stores : Nat
  errs : Nat
  deriving DecidableEq, Repr

/-- Headers of section 9 in their order: workgroup, whether it is a flush, list and entries. -/
def landSends (c : Nat) : Nat → Nat → List (Nat × Bool × Nat × Nat)
  | 0, _ => []
  | n + 1, at_ =>
    let f := fieldIn (sendFields 0 false 0 0 0 0 0) (s.saveNat c at_ 16)
    (f 0, f 1 = 1, f 2, f 3) :: landSends c n (at_ + (if f 1 = 1 then 48 else 16) + 32 * f 3)

/-- R394 type 10: a landed store that had not left the store queue, its data still to come. -/
def landStore (c : Nat) (w : Wg) (thread id i : Nat) : Access :=
  let at_ := s.sectionAt c 10 + 160 * i
  let f := fieldIn (residueFields 0 (Access.blank 0 0)) (s.saveNat c at_ 16)
  let m := s.saveNat c (at_ + 16) 16
  let o := ((upTo 128).find? fun i => natBit m i).getD 0
  let z : Size := match (maskList 128 m).length with | 1 => .s8 | 2 => .s16 | 4 => .b32 | 8 => .b64 | _ => .b128
  let va := addr56 (128 * f 0 + o)
  { Access.blank w.core c with
    id, tids := [f 1 - thread], idx := f 2, pc := clauseOf (f 5), va, op := .store z 0, hint := Retain.ofBits (BitVec.ofNat 2 (f 3))
    wb := f 4 = 1, pa := match s.drovePlace c va true with | some x => x.1 | none => 0 }

/-- What is saved of a landed workgroup, by the headers of its records, their contents still to come. -/
def landFrame (c : Nat) (p : LandAt) (x : LandedWg) : SavedWg :=
  let w := x.wg
  let head (ty n i : Nat) (l : Fields) : Nat → Nat := fieldIn l (s.saveNat c (s.sectionAt c ty + n * i) 16)
  let tiles := ((upTo (s.sectionCount c 5)).map fun i => head 5 4112 i (tileFields 0 0 .empty)).filter fun f => f 0 = p.num
  let sends := s.landSends c (s.sectionCount c 9) (s.sectionAt c 9)
  let mine := (sends.zip (upTo sends.length)).filter fun y => y.1.1 = p.num
  let cmds := (upTo (s.sectionCount c 8)).filter fun i =>
    fieldIn (cmdHead 0 0 (Cmd.blank 0 noWg)) (s.saveRecord c 8 128 i) 4 = p.num
  let owned := (upTo (s.sectionCount c 10)).filter fun i =>
    let t := head 10 160 i (residueFields 0 (Access.blank 0 0)) 1
    decide (p.thread ≤ t) && decide (t < p.thread + 32 * w.nflock)
  let books := ((upTo (s.sectionCount c 12)).map fun i => head 12 4112 i (bookFields 0 0)).filter fun f => f 1 = p.num
  { wg := { w with tile := tiles.foldl (fun t f => tput t (f 1) { TileRec.empty with full := true }) [] }
    threads := (upTo (32 * w.nflock)).map fun i => (i, Thread.start w.id 0)
    flocks := (upTo w.nflock).map fun f => (f, .start)
    groups := []
    lists := (mine.filter fun y => !y.1.2.1).foldl (fun t y => tput t (listKey w.id y.1.2.2.1) (List.replicate y.1.2.2.2 sndBlank)) []
    flushes := (mine.filter fun y => y.1.2.1).map fun y =>
      { id := p.sends + y.2, tid := 0, wg := w.id, ctx := c, recVa := 0, pc := 0, idx := 0, ents := List.replicate y.1.2.2.2 sndBlank
        res := [], firsts := [], alts := [], nth := 0 }
    cmds := cmds.map fun i => Cmd.blank (p.cmds + i) w
    cb := books.foldl (fun t f => tput t (f 0) { tag := some w.id, data := [] }) []
    residue := owned.map fun i => s.landStore c w p.thread (p.stores + i) i
    poison := (s.extrasOf c 7 p.num).filterMap fun v =>
      let f := fieldIn [(2, 0), (64, 0), (32, 0)] v
      if f 0 = 1 then some (.reg (f 1) (f 2)) else if f 0 = 2 then some (.scratch w.id (f 1)) else none
    book := x.book }

/-- A landed thread with its counters, with what stands after section 14 of it, and in its wait. -/
def landThread (c : Nat) (w : Wg) (p : LandAt) (at_ : Nat) (t : Nat × Thread) : (Nat × Thread) × List Group :=
  let num := p.thread + t.1
  let x := { t.2 with nld := t.2.ld, nst := t.2.stc, ncp := t.2.cp }
  let x := (s.extrasOf c 1 num).foldl (fun (x : Thread) v =>
    let f := fieldIn (threadRest (Thread.start 0 0)) v
    { x with
      osel := BitVec.ofNat 32 (f 0), ostat := BitVec.ofNat 32 (f 1), done := f 2 = 1, contd := f 3 = 1
      retry := if f 4 = 1 then some { accessOf w.core c (fun i => f (5 + i)) with tids := [t.1] } else none }) x
  let errs := ((s.extrasOf c 0 num).zip (upTo 64)).map fun v =>
    let f := fieldIn (errFields 0 (errOf 0 0 0 0 fun _ => 0)) v.1
    errOf w.core c (p.errs + 64 * num + v.2) (x.nth (ctrOf (f 1))) f
  let (x, gs) := s.landWait c w (at_ + (64 + 4 * w.regs) * t.1) t.1 { x with errs }
  ((t.1, x), gs)

def landThreads (c : Nat) (p : LandAt) (at_ : Nat) (x : SavedWg) : SavedWg :=
  let l := x.threads.map (s.landThread c x.wg p at_)
  { x with threads := l.map (·.1), groups := l.flatMap (·.2) }

/-- A thread whose operations in flight are the first that it issues. -/
def countOps (x : SavedWg) : SavedWg := { x with threads := tmap x.threads fun t => { t with ncp := t.cp } }

/-- R394: landed workgroups as the save area has them; none for a reserved state code. -/
def landWgs (c : Nat) (l : List (LandAt × SavedWg)) : Option (List SavedWg) :=
  match s.readWgs c (fun _ _ _ n => n) (l.map (·.2)) (s.readStart c) with
  | none => none
  | some (ws, _) =>
    let nth (x : SavedWg) (tid back _old : Nat) : Nat := ((tget x.threads tid).map (·.ncp)).getD 0 - back
    (s.readWgs c nth (ws.map countOps) (s.readStart c)).map fun r =>
      let at_ (x : LandAt × SavedWg) : Nat := (l.takeWhile fun y => y.1.num ≠ x.1.num).foldl
        (fun o y => o + (64 + 4 * y.2.wg.regs) * 32 * y.2.wg.nflock) (s.sectionAt c 2)
      (l.zip r.1).map fun y => s.landThreads c y.1.1 (at_ y.1) y.2

/-- R289, R394 type 4: the barrier entries of landed workgroups and teams: those that stand in the save, and the others
as they start. -/
def landBars (c id : Nat) (ls : List Launch) (ws : List Wg) (ts : List Team) : State :=
  let s := ws.foldl (fun (s : State) w => if w.ended then s else s.startBars (2 * w.id * 32) w.bars (32 * w.nflock) c (coreQuad w.core)) s
  let s := ts.foldl (fun (s : State) t => s.startBars ((2 * t.id + 1) * 32) 8 t.threads c t.quad) s
  (upTo (s.sectionCount c 4)).foldl (fun (s : State) i =>
    let f := fieldIn (barFields false 0 0 0 (freshBar 0 0 0)) (s.saveRecord c 4 32 i)
    let launch := (ls[f 1]?.map (·.id)).getD 0
    let tag := if f 0 = 1 then (ts.find? fun t => t.launch = launch && t.unit = f 2).map fun t => 2 * t.id + 1
      else (ws.find? fun w => w.launch = launch && w.wgid = f 2).map fun w => 2 * w.id
    let err (k : Nat) : Option DefErr := (s.extrasOf c 2 i).findSome? fun v =>
      if v % 2 = k then some (errOf 0 c (id + 2 * i + k) 0 (fieldIn (errFields 0 (errOf 0 0 0 0 fun _ => 0)) (v / 2))) else none
    match tag with
    | none => s
    | some g =>
      let b := s.bar (g * 32 + f 3)
      s.setBar (g * 32 + f 3)
        { b with count := f 4, n := f 5, sig := f 6 = 1, p := BitVec.ofNat 32 (f 7), cur := err 0, err := err 1, touched := 1 }) s

/-- R21, R312: the teams of landed workgroups, their identities from a number on. -/
def landTeams (id : Nat) (ls : List Launch) (ws : List Wg) : List Team :=
  let unitOf (w : Wg) : Option (Nat × Nat) := (ls.find? fun l => l.id = w.launch).bind fun l =>
    if rcTeam l.record = 0 then none else some (w.launch, w.wgid / rcTeam l.record)
  let units := (ws.filterMap unitOf).eraseDups
  (units.zip (upTo units.length)).map fun u =>
    let mine := sortBy (fun (a b : Wg) => decide (a.slot ≤ b.slot)) (ws.filter fun w => unitOf w = some u.1)
    { id := id + u.2, quad := coreQuad (mine.headD noWg).core, launch := u.1.1, unit := u.1.2, wgs := mine.map (·.id)
      threads := mine.foldl (fun n w => n + 32 * w.nflock) 0, layout := mine.map (·.wgid) }

/-- R154: landed workgroups with those that were saved with them, and the engine image of their quad. -/
def landQuads (c : Nat) (l : List (LandedWg × SavedWg)) : List SavedQuad :=
  let images := (upTo (s.sectionCount c 6)).map fun i =>
    (i, fieldIn (imageFields 0 ⟨.zero, .zero, []⟩ false) (s.saveNat c (s.sectionAt c 6 + (16 + imageBytes) * i) 16))
  ((l.map (·.1.save)).eraseDups).map fun k =>
    let mine := l.filter fun x => x.1.save = k
    let image := images.find? fun m => m.2 0 = k
    { ctx := c, quad := coreQuad ((mine.map (·.1.wg)).headD noWg).core, wgs := mine.map (·.2), halted := mine.any (·.1.halted)
      image := image.map fun m => s.readImage c m.1, tainted := match image with | some m => m.2 5 = 1 | none => false }

/-- Where the records of landed workgroups stand, from a workgroup and a thread on. -/
def landPlaces (cmds sends stores errs : Nat) : List LandedWg → Nat → Nat → List LandAt
  | [], _, _ => []
  | x :: t, num, thread => ⟨num, thread, cmds, sends, stores, errs⟩ :: landPlaces cmds sends stores errs t (num + 1) (thread + 32 * x.wg.nflock)

/-- R405: the context of a save area goes on here; a reserved state code kills it. -/
def landSave (c : Nat) : State :=
  let nl := s.sectionCount c 13
  let nw := s.sectionCount c 1
  let recs := (upTo nl).map fun j => s.saveBytes c (s.sectionAt c 13 + 320 * j) 256
  let fronts := s.landFronts c recs (s.sectionAt c 7)
  let raw := (upTo nl).map fun j => s.landLaunch c j (s.fresh + j) (fronts.getD j ([], [])).1
  let base := s.fresh + nl
  let plain := (upTo nw).map fun k => s.landWg c (base + k) k raw
  let teams := landTeams (base + nw) raw (plain.map (·.wg))
  let teamOf (w : Wg) : Option Nat := (teams.find? fun t => t.wgs.contains w.id).map (·.id)
  let heads := plain.map fun x => { x with wg := { x.wg with team := teamOf x.wg } }
  let cmds := base + 2 * nw
  let sends := cmds + s.sectionCount c 8
  let stores := sends + s.sectionCount c 9
  let errs := stores + s.sectionCount c 10
  let bars := errs + 64 * s.sectionCount c 2
  let places := landPlaces cmds sends stores errs heads 0 0
  match s.landWgs c ((places.zip heads).map fun x => (x.1, s.landFrame c x.1 x.2)) with
  | none => s.kill c 6 0 7 0 0
  | some l =>
    let ws := l.map (·.wg)
    let launches := (raw.zip (upTo nl)).map fun x => { x.1 with points := s.landPoints c x.2 x.1 ws }
    let saved := s.landQuads c (heads.zip l)
    let fstat := BitVec.ofNat 7 (s.saveNat c (s.sectionAt c 14) 8)
    let s := { s with
      fresh := bars + 2 * s.sectionCount c 4 + 1, launches := s.launches ++ launches, saved := s.saved ++ saved
      teams := teams.foldl (fun (t : Tbl Team) (x : Team) => tput t x.id x) s.teams }
    (s.landBars c bars raw ws teams).modCtx c fun x => { x with fstat }

/-- R405, R425: the save at a descriptor's DSAVE may land for a context. -/
def mayLand (c : Nat) (d : List Byte) : Bool :=
  let x := (s.ctx c).words
  !s.active c && mgDsave d = s.local_ x.save.toNat && s.saveInside c x.save.toNat 256 &&
    s.saveNat c 0 1 = 1 && natBit (s.saveNat c 4 1) 0 && s.saveNat c 1 1 = mgDctx d &&
    s.saveNat c 2 2 % 4096 = mgDnode d && s.saveInside c x.save.toNat (s.saveNat c 16 8)

/-- R405: land. -/
def landStep (x : Session) : State :=
  match s.sessionDesc x with
  | none => s.finishStep x .land 2 none
  | some d =>
    if !mgOk d || !s.mayLand x.ctx d then s.finishStep x .land 2 none
    else
      let s := s.modCtx x.ctx fun y => { y with words := { y.words with ctl := (y.words.ctl ||| 1) &&& ~~~0x20#64 } }
      let s := s.landSave x.ctx
      s.finishStep x .land 0 none

/-! ### abort and close (R405, R407) -/

/-- R405: an operation taken back is applied here; it is acknowledged unless the destination has done so. -/
def applyBack (s : State) (o : OrdOp) : State :=
  match o.work with
  | .inbound op pa tenant =>
      let (s, r) := s.homeAccess op pa tenant o.rank.stamp
      let told := Config.anyValue s.draws % 2 = 1
      let s := { s with draws := s.draws + 1 }
      if told then s
      else
        let plain := decide (600 ≤ o.src)
        match r with
        | none => s.refuseInbound (o.src - if plain then 600 else 512)
        | some v =>
            if plain && opReplies op then s.sendReply tenant (o.src - 600) (.inboundReply (o.src - 600) v)
            else { s with sent := s.sent ++
              [if plain then .inboundReply (o.src - 600) v else .ordAck o.rank.pkg o.rank.idx o.rank.seq v] }
  | _ => s

/-- R405: abort. -/
def abortStep (x : Session) : State :=
  let ops := sortBy (fun a b => rankBefore a.rank b.rank) x.forwarded
  let s := if x.entries then s.sendEntries x.ctx [] else s
  let s := s.modSession x.ctx fun y => { y with cut := none, forwarded := [], entries := false }
  (ops.foldl applyBack s).finishStep x .abort 0 none

/-- R405: close. -/
def closeStep (x : Session) (answered : Bool) : State :=
  let s := s.sendEntries x.ctx []
  if !answered then s.finishStep x .close 3 none
  else (s.askReset x.ctx).finishStep x .close 0 none

/-- R405: the step of a context's session goes on, to its end if nothing keeps it; one whose descriptor,
maps or signal stand on a page that is not resident waits for it (R368). -/
def droveStep (c : Nat) (answered : Bool) : State :=
  match s.sessionOf c with
  | none => s
  | some x =>
    if s.sessionAbsent x then s
    else match x.doing with
    | none => s
    | some .open => s.openStep x
    | some .round => s.roundStep x answered
    | some .stop => s.stopStep x answered
    | some .land => s.landStep x
    | some .abort => s.abortStep x
    | some .close => s.closeStep x answered

/-! ### What another package's Drover sends (R406, R407) -/

/-- R407: pages of a context's device that await their final copy. -/
def awaitPages (c : Nat) (pages : List Nat) : State :=
  let mine := pages.filter fun p => s.rangeOkFor (s.ctxVd c) (65536 * p)
  { s with awaiting := mine.foldl (fun l p => insertNat p l) s.awaiting }

/-- R405 to R407: bytes of a page copy, or of the save, stand at their place in a range of the context's device; a page
that has its final copy is awaited no longer. -/
def takeCopy (c addr : Nat) (data : List Byte) : State :=
  if 65536 < addr % 65536 + data.length || !s.rangeOkFor (s.ctxVd c) addr then s
  else
    let s := s.writeOutside (s.local_ addr) data 0
    if data.length = 65536 then { s with awaiting := s.awaiting.filter (· ≠ addr / 65536) } else s

/-- R406 step 5, R424: the moved packets stand in the ring of a queue of the context's device; one that finds no program, or
no place among the 256 of the ring, is discarded and counted in the device's error meter. -/
def takePackets (c queue : Nat) (ps : List MovedPacket) : State :=
  let key := queueKey (s.ctxVd c) queue
  ps.foldl (fun (s : State) p =>
    let q := s.queue key
    if 64 ≤ queue || !q.loaded || 256 ≤ q.ring.length then s.vdError (s.ctxVd c)
    else s.setQueue key { q with ring := q.ring ++ [⟨p.ctx, p.seq, p.body, p.from_⟩] }) s

/-- DROVER_STEP_COMPLETE: the Drover goes on by a reply, or by what another package's sends. -/
def droveMsg (c : Nat) : DroverMsg → State
  | .answered ok => s.droveStep c ok
  | .await pages => s.awaitPages c pages
  | .copy addr data => s.takeCopy c addr data
  | .ring queue packets => s.takePackets c queue packets

/-- R304, R405: one participant's MIGR; in a queue program the step is held until EXIT. -/
def migrOne (step : MStep) (d a : Reg) (desc : State → Nat → W64) (ps : List Nat) (r s : State) (t : Nat) : State :=
  let c := (r.rd t a).toNat
  let k := s.migrStatus t c step
  let va := desc r t
  let s :=
    if k ≠ 0 then s
    else if isCp t then s.modRun t fun x => { x with held := x.held ++ [.migr c step va] }
    else s.beginStep c (s.ctxOf t) step va
  s.wrD t (State.statusReg d ps t) 1 k

def migrBody (step : MStep) (d a : Reg) (desc : State → Nat → W64) (_ : Group) (ps : List Nat) (s : State) : State :=
  (ps.foldl (migrOne step d a desc ps s) s).advance

end State

def execMigrOpen (x : DAB) (s : State) : Result :=
  .next (s.issue (.migrOpen x) (State.migrBody .open x.d x.a fun s t => s.rd64 t x.b))

def execMigrRound (x : DA) (s : State) : Result :=
  .next (s.issue (.migrRound x) (State.migrBody .round x.d x.a fun _ _ => 0))

def execMigrStop (x : DA) (s : State) : Result :=
  .next (s.issue (.migrStop x) (State.migrBody .stop x.d x.a fun _ _ => 0))

def execMigrLand (x : DAB) (s : State) : Result :=
  .next (s.issue (.migrLand x) (State.migrBody .land x.d x.a fun s t => s.rd64 t x.b))

def execMigrAbort (x : DA) (s : State) : Result :=
  .next (s.issue (.migrAbort x) (State.migrBody .abort x.d x.a fun _ _ => 0))

def execMigrClose (x : DA) (s : State) : Result :=
  .next (s.issue (.migrClose x) (State.migrBody .close x.d x.a fun _ _ => 0))

/-- DROVER_STEP_COMPLETE (R405 to R407). -/
def execDroverStepComplete (ctx : Nat) (m : DroverMsg) (s : State) : Result := .next (s.droveMsg ctx m)

end Sys2Proof.Machine
end

