-- ==== Sys2Proof/Machine/Host.lean ====
section
/-!
DEFINITION. The host ports and the pod outside (13 R372; 15 R408 to R412): RDMA under memory keys, inbound
atomics, the loss of a host queue pair, host windows, memory keys, PTP, and accesses of other packages.
-/

namespace Sys2Proof.Machine

namespace State

variable (s : State)

/-! ### Host accesses to device memory (R408, R409) -/

/-- R409: an inbound access fails. -/
def nakRdma (x : RdmaArgs) : State :=
  let s := if x.vd < 64 then s.vdError x.vd else s
  { s with sent := s.sent ++ [.rdmaNak x.port x.qp] }

/-- R409: the device physical address of an access under its memory key, when the key and R372 let it pass. -/
def rdmaAt (x : RdmaArgs) (len : Nat) (write : Bool) : Option Nat :=
  if 64 ≤ x.vd || 64 ≤ x.key then none
  else
    match tget (s.vd x.vd).keys x.key with
    | none => none
    | some k =>
      let r := s.range k.range
      let a := r.base + k.off + x.off
      let pages := (upTo (len / 65536 + 2)).all fun i =>
        decide (len ≤ i * 65536) || s.rangeOkFor x.vd (a + i * 65536)
      if decide (x.off + len ≤ k.len) && (!write || k.writable) && r.valid && r.vd = x.vd && decide (a + len ≤ r.limit) &&
          pages && (len = 0 || s.rangeOkFor x.vd (a + len - 1)) then some a
      else none

/-- R193, R414: a line of a span belongs to a copy, or to a slice that its sensor has stopped, so that a host's access
waits at its home. -/
def spanHeld (a len : Nat) : Bool :=
  (upTo ((a % 128 + len + 127) / 128)).any fun i =>
    let pa := s.local_ (a - a % 128 + 128 * i)
    s.sliceHot pa || s.ownedLine (pa / 128)

/-- INBOUND_RDMA_READ. -/
def rdmaRead (x : RdmaArgs) : State :=
  if !s.booted || s.portShut x.port then s
  else
    match s.rdmaAt x x.len false with
    | none => s.nakRdma x
    | some a => if s.spanHeld a x.len then s else { s with sent := s.sent ++ [.rdmaData x.port x.qp (mbytes s.mem (s.local_ a) x.len)] }

/-- INBOUND_RDMA_WRITE. -/
def rdmaWrite (x : RdmaArgs) : State :=
  if !s.booted || s.portShut x.port then s
  else
    match s.rdmaAt x x.data.length true with
    | none => s.nakRdma x
    | some a =>
      if s.spanHeld a x.data.length then s else
      let s := (upTo ((a % 65536 + x.data.length + 65535) / 65536)).foldl (fun (s : State) i =>
        let lo := max a (a - a % 65536 + i * 65536)
        let hi := min (a + x.data.length) (a - a % 65536 + (i + 1) * 65536)
        s.writeOutside (s.local_ lo) (slice x.data (lo - a) (hi - lo)) 0) s
      { s with sent := s.sent ++ [.rdmaAck x.port x.qp] }

/-! ### Host queue pairs and windows (R199, R408, R409) -/

/-- A place in a window of a virtual device. -/
def onWindow (v n pa : Nat) : Bool := isHost pa && decide ((pa - 2 ^ 60) / 2 ^ 48 = v * 16 + n)

/-- HOST_QP_ERROR: what is in flight on the queue pair of a window is lost. -/
def qpError (v n : Nat) : State :=
  let s := s.modVd v fun x => { x with dead := insertNat n x.dead }
  let s := (s.accs.filter fun a => onWindow v n a.pa).foldl (fun s a => s.failAccess a tcPeerUnreachable) s
  let entries := s.cores.flatMap fun k => (k.2.wcb.filter fun e => onWindow v n (e.line * 128)).map fun e => (k.1, e)
  let s := entries.foldl (fun (s : State) e =>
    let s := s.modCore e.1 fun k => { k with wcb := k.wcb.filter fun y => y.id ≠ e.2.id }
    e.2.stores.foldl (fun s a => s.failAccess a tcPeerUnreachable) s) s
  let cmds := s.cores.flatMap fun k => (k.2.cmds.filter fun m =>
    m.stage = .moving && (m.takes ++ m.owns).any fun l => onWindow v n (l * 128)).map fun m => (k.1, m)
  let s := cmds.foldl (fun (s : State) m => s.loseCmd m.1 m.2 false) s
  let waits := (s.threads.filter fun t => match t.2.wait with
    | some w => (match w.kind with | .mem _ pa none _ _ _ _ _ => onWindow v n pa | _ => false)
    | none => false).map (·.1)
  waits.foldl (fun (s : State) t => s.waitLost t) s

/-- HOST_WINDOW_WRITE: the window is set, on a queue pair that works. -/
def setWindow (v n : Nat) (w : HostWindow) : State :=
  s.modVd v fun x => { x with windows := tput x.windows n w, dead := x.dead.filter (· ≠ n) }

/-! ### Pod time (R223, R410) -/

/-- R410: the order of the best-master choice. -/
def betterMaster (a b : PtpMaster) : Bool :=
  let before : List (Nat × Nat) → Bool := fun l =>
    match l.find? fun x => x.1 ≠ x.2 with
    | some x => decide (x.1 < x.2)
    | none => false
  before [(a.prio1, b.prio1), (a.clockClass, b.clockClass), (a.accuracy, b.accuracy), (a.variance, b.variance),
    (a.prio2, b.prio2), (a.ident, b.ident), (a.steps, b.steps), (a.port, b.port)]

/-- ANNOUNCE: a master at a port is known as it now is, and the best of all is chosen. -/
def hearMaster (m : PtpMaster) : State :=
  if 4 ≤ m.port then s else
  let ms := m :: s.ptp.masters.filter fun x => x.port ≠ m.port || x.ident ≠ m.ident
  let best := ms.foldl (fun b x => match b with
    | none => some x
    | some y => if betterMaster x y then some x else some y) none
  { s with ptp := { s.ptp with masters := ms, best } }

/-- The best master is the clock that sent a message by a port. -/
def fromBest (port ident : Nat) : Bool := match s.ptp.best with | some b => b.port = port && b.ident = ident | none => false

/-- R223, R330: the package takes pod time, and its first market interval runs to the next boundary. -/
def takeTime (near : Bool) : State :=
  if s.timed || !near then s
  else
    let i := max 1 s.market.interval
    { s with timed := true, market := { s.market with ends := (s.now / i + 1) * i } }

/-- R223, R224: the copies of pod time: of the sources, and of the fabric ports at 512 + p. -/
def timeCopies : List Nat := upTo 258 ++ (upTo 24).map (512 + ·)

/-- R223: the copies that stand still, in a package whose foremost copies are some units ahead of the source: those more
than 1 µs ahead, and of those that have stood still the ones with which the source has not caught up. -/
def heldCopies (ahead : Nat) : List Nat :=
  timeCopies.filter fun k =>
    let d := (tget s.lag k).getD 0
    decide (d + 4000 < ahead) || (s.ptp.stood.contains k && decide (d < ahead))

/-- R410: a Delay_Req leaves by the port of the best master, unless its sensor has stopped it. -/
def askDelay (port : Nat) : State :=
  if s.portShut port then s
  else
    let seq := match s.ptp.req with | some r => (r.2.1 + 1) % 65536 | none => 0
    { s with sent := s.sent ++ [.delayReq port seq], ptp := { s.ptp with req := some (port, seq, s.now / 4) } }

/-- R223, R410: the servo has the time of the source, from the origin of a Sync, the path delay, and the time since it was
received: a forward step of every copy, or a stop of those that are too far ahead until the source catches up; what the
rates of single copies are adjusted by is `steerCopies`. -/
def follow (port origin rx : Nat) : State :=
  let since := s.now - 4 * rx
  let v := (origin + s.ptp.delay) * 4 + since + Config.subNano s.draws % 4
  let near := decide (v ≤ s.now + 4000) && decide (s.now ≤ v + 4000)
  let s := { s with draws := s.draws + 1 }
  let s :=
    if s.now ≤ v then { s with now := v, lag := [], ptp := { s.ptp with ahead := 0, stood := [] } }
    else { s with ptp := { s.ptp with ahead := s.now - v, stood := s.heldCopies (s.now - v) } }
  let s := { s with ptp := { s.ptp with lastSync := some (origin, (s.now - since) / 4), pendingSync := none } }
  (s.askDelay port).takeTime near

/-- SYNC: a one-step Sync, or the first half of a two-step one. -/
def hearSync (m : PtpTime) : State :=
  if !s.fromBest m.port m.ident then s
  else if m.twoStep then { s with ptp := { s.ptp with pendingSync := some m } }
  else s.follow m.port m.origin m.rx

/-- FOLLOW_UP: the origin time of the Sync before it. -/
def hearFollowUp (m : PtpTime) : State :=
  match s.ptp.pendingSync with
  | some p => if p.port = m.port && p.ident = m.ident && p.seq = m.seq then s.follow m.port m.origin p.rx else s
  | none => s

/-- DELAY_RESP: the mean path delay, from the last Sync and the Delay_Req that the response answers. -/
def hearDelay (port seq rx : Nat) : State :=
  match s.ptp.lastSync, s.ptp.req with
  | some (t1, t2), some (p, q, t3) =>
      if p ≠ port || q ≠ seq then s
      else { s with ptp := { s.ptp with delay := ((t2 + rx) - (t1 + t3)) / 2 } }
  | _, _ => s

/-- R5: units of 250 ps in the cycle that begins, at 1.3 GHz: 40 in every 13 cycles. -/
def cycleUnits : Nat := 40 * (s.cyc + 1) / 13 - 40 * s.cyc / 13

/-- R223: a copy of pod time that has been steered over 5,000 units: at most one unit, which is 200 ppm, slower or
faster than the fastest copy, whose time is `now` (notes/assumptions/15.md). -/
def steerCopy (n : Nat) : State :=
  let d := (tget s.lag n).getD 0
  let d' := match Config.rateStep n s.draws with
    | 1 => d + 1
    | 2 => d - 1
    | _ => d
  { s with lag := if d' = 0 then tdel s.lag n else tput s.lag n d' }

/-- R223: every source's and fabric port's copy, steered. -/
def steerCopies : State :=
  let s := timeCopies.foldl (fun (s : State) n => s.steerCopy n) s
  { s with draws := s.draws + 1 }

/-- R223: n units of time in which some copies stand still until the source has caught up with them; pod time follows the
foremost of the others. -/
def followCopies (n : Nat) : State :=
  let lagOf (k : Nat) : Nat := (tget s.lag k).getD 0
  let stands (k : Nat) : Bool := s.ptp.stood.contains k
  let up := (timeCopies.filter fun k => !stands k).foldl (fun m k => max m (n - lagOf k)) 0
  let after (k : Nat) : Nat := lagOf k + up - (if stands k then 0 else n)
  let ahead := s.ptp.ahead + up - n
  { s with
    now := s.now + up
    lag := (timeCopies.map fun k => (k, after k)).filter fun x => x.2 ≠ 0
    ptp := { s.ptp with ahead, stood := s.ptp.stood.filter fun k => decide (after k < ahead) } }

/-- R373: the ranges that are being scrubbed, a little further. -/
def scrubRanges : State := (s.ranges.filter fun r => r.2.scrubbing).foldl (fun (s : State) r => s.scrubOn r.1) s

/-- One cycle of the clocks: pod time moves on, but for copies that wait for the source (R5, R223), and the scrubber goes on
(R373). -/
def tick : State :=
  let n := s.cycleUnits
  let s := { s with cyc := s.cyc + 1, issued := [] }.scrubRanges
  if s.ptp.stood = [] then
    let s' := { s with now := s.now + n }
    if s.timed && s.now / 5000 ≠ s'.now / 5000 then s'.steerCopies else s'
  else s.followCopies n

/-! ### Accesses of other packages (R174, R372, R407) -/

/-- INCOMING_ACCESS: a plain access arrives at a fabric port. -/
def incoming (x : IncomingArgs) : State :=
  let pa := s.local_ x.addr
  let n := fabricPort x.port
  let s := if (tget s.ports n).isSome then s.setPort n { s.port n with heard := s.now } else s
  if 24 ≤ x.port || s.sliceHot pa || s.ownedLine (pa / 128) || s.awaitsCopy pa then s
  else
    match s.takenBy pa s.now with
    | some y =>
        let (id, s) := s.newId
        s.handOn y {
          id, src := 600 + x.port, recv := s.homeOf x.addr, work := .inbound x.op x.addr x.tenant, st := .held, left := s.now
          rank := { stamp := s.now, pkg := 0, idx := 0, seq := 0 } }
    | none =>
      match s.homeAccess x.op x.addr x.tenant 0 with
      | (s, some v) =>
          if opReplies x.op then s.sendReply x.tenant x.port (.inboundReply x.port v)
          else { s with sent := s.sent ++ [.inboundReply x.port v] }
      | (s, none) => s.refuseInbound x.port

end State

/-- INBOUND_RDMA_READ (R408, R409). -/
def execInboundRdmaRead (x : RdmaArgs) (s : State) : Result := .next (s.rdmaRead x)

/-- INBOUND_RDMA_WRITE (R408, R409). -/
def execInboundRdmaWrite (x : RdmaArgs) (s : State) : Result := .next (s.rdmaWrite x)

/-- INBOUND_ATOMIC (R408, R409): device memory refuses it, a failing access that its device's error meter counts. -/
def execInboundAtomic (x : RdmaArgs) (s : State) : Result :=
  .next (if !s.booted || s.portShut x.port then s
    else
      let s := if x.vd < 64 then s.vdError x.vd else s
      { s with sent := s.sent ++ [.remoteAtomicNak x.port x.qp] })

/-- HOST_QP_ERROR (R199, R408). -/
def execHostQpError (vd window : Nat) (s : State) : Result :=
  .next (if vd < 64 ∧ window < 16 then s.qpError vd window else s)

/-- HOST_WINDOW_WRITE (R408, R409, R412): a window is on one of the four host ports. -/
def execHostWindowWrite (vd n : Nat) (w : HostWindow) (s : State) : Result :=
  .next (if vd < 64 ∧ n < 16 ∧ w.port < 4 then s.setWindow vd n w else s)

/-- MEMORY_KEY_WRITE (R409, R412). -/
def execMemoryKeyWrite (vd n : Nat) (k : MemKey) (s : State) : Result :=
  .next (if vd < 64 ∧ n < 64 then s.modVd vd fun x => { x with keys := tput x.keys n k } else s)

/-- ANNOUNCE (R410). -/
def execAnnounce (m : PtpMaster) (s : State) : Result := .next (s.hearMaster m)

/-- SYNC (R410). -/
def execSync (m : PtpTime) (s : State) : Result := .next (s.hearSync m)

/-- FOLLOW_UP (R410). -/
def execFollowUp (m : PtpTime) (s : State) : Result := .next (s.hearFollowUp m)

/-- DELAY_RESP (R410). -/
def execDelayResp (port seq rx : Nat) (s : State) : Result := .next (s.hearDelay port seq rx)

/-- INCOMING_ACCESS (R174, R372). -/
def execIncomingAccess (x : IncomingArgs) (s : State) : Result := .next (s.incoming x)

end Sys2Proof.Machine
end

