-- ==== Sys2Proof/Machine/Lanes.lean ====
section
/-!
DEFINITION. Row 0x5: the lane collectives, whose result each participant computes from the operands of
all of them, read before any is written (04 R101, R125 to R131).
-/

namespace Sys2Proof.Machine

/-- The participant that stands in a lane. -/
def atLane (ps : List Nat) (j : Nat) : Option Nat := ps.find? fun t => tidLane t = j

/-- R126: the source lane, or none out of range. -/
def shflLane (m : ShflMode) (l : Nat) (b : W32) : Option Nat :=
  let n := b.toNat % 32
  match m with
  | .lane => some n
  | .ofs =>
      let j := (l : Int) + signExt b.toNat 6
      if 0 ≤ j ∧ j ≤ 31 then some j.toNat else none
  | .xor => some (l ^^^ n)
  | .rot => some ((l + n) % 32)

/-- R126: SHFL. -/
def shflEffect (x : ShflArgs) (s : State) (ps : List Nat) (t : Nat) : Effect :=
  let k := x.ty.words
  let src := (shflLane x.mode (tidLane t) (s.rd t x.b)).bind (atLane ps)
  let v := match src, x.c with
    | some u, _ => s.rdN u x.a k
    | none, .fallback r => s.rdN t r k
    | none, .found _ => s.rdN t x.a k
  let preds := match x.c with
    | .found p => [(p, src.isSome)]
    | .fallback _ => []
  ⟨regsOf x.d k v, preds, 0⟩

def execShfl (x : ShflArgs) (s : State) : Result := aluMeaning (.shfl x) (shflEffect x) s

/-- The mask of the lanes of threads. -/
def laneMask (ts : List Nat) : Nat := (upTo 32).foldl (fun m l => m + (ts.any fun t => tidLane t = l).toNat * 2 ^ l) 0

/-- R127: VOTE. -/
def voteEffect (x : VoteArgs) (s : State) (ps : List Nat) (_ : Nat) : Effect :=
  let ones := ps.filter fun t => s.rdP t x.a
  match x.form with
  | .all d => .pred d (decide (ones = ps)) 0
  | .any d => .pred d (decide (ones ≠ [])) 0
  | .same d => .pred d (decide (ones = ps) || decide (ones = [])) 0
  | .mask d => .reg d 1 (laneMask ones) 0
  | .count d => .reg d 1 ones.length 0
  | .first d => .reg d 1 (ones.foldl (fun m t => min m (tidLane t)) 32) 0

def execVote (x : VoteArgs) (s : State) : Result := aluMeaning (.vote x) (voteEffect x) s

/-- R128: MATCH. -/
def matchEffect (x : MatchArgs) (s : State) (ps : List Nat) (t : Nat) : Effect :=
  let val (u : Nat) : Nat := s.rdN u x.a x.ty.words
  let peers := ps.filter fun u => val u = val t
  match x.form with
  | .peers => .reg x.d 1 (laneMask peers) 0
  | .same c =>
      let all := decide (peers = ps)
      ⟨regsOf x.d 1 (if all then laneMask ps else 0), [(c, all)], 0⟩
  | .rank => .reg x.d 1 (peers.filter fun u => decide (tidLane u < tidLane t)).length 0

def execMatchLanes (x : MatchArgs) (s : State) : Result := aluMeaning (.matchLanes x) (matchEffect x) s

/-- R129: the reduction of integers of a type. -/
def reduxInt (op : ReduxOp) (ty : Ty) (sat : Bool) (vs : List Int) : Nat × BitVec 7 :=
  let first := vs.headD 0
  match op with
  | .add => narrow ty sat (vs.foldl (· + ·) 0)
  | .min => narrow ty false (vs.foldl min first)
  | .max => narrow ty false (vs.foldl max first)
  | .and => (vs.foldl (fun v x => v &&& x.toNat) first.toNat, 0)
  | .or => (vs.foldl (fun v x => v ||| x.toNat) 0, 0)
  | .xor => (vs.foldl (fun v x => v ^^^ x.toNat) 0, 0)

/-- R129: the reduction of FP32 values. -/
def reduxF32 (op : ReduxOp) (m : FMod) (vs : List FVal) : Nat × BitVec 7 :=
  match op with
  | .add =>
      let (v, f) := sumF m.rm true vs
      let (bits, g) := roundTo .f32 m.rm false m.ftz v
      (bits, f ||| g)
  | _ =>
      match vs with
      | [] => (0, 0)
      | v :: rest =>
          let w := rest.foldl (fun a b => (minMaxF (op = .max) a b).1) v
          ((roundTo .f32 .rne false false w).1, vs.foldl (fun f x => f ||| x.sigFlag) 0)

/-- R129: the values a participant reduces over: all of them, or with .scan those up to its lane. -/
def reduxSet (x : ReduxArgs) (ps : List Nat) (t : Nat) : List Nat :=
  if x.scan then ps.filter fun u => decide (tidLane u ≤ tidLane t) else ps

/-- R129: REDUX. -/
def reduxEffect (x : ReduxArgs) (s : State) (ps : List Nat) (t : Nat) : Effect :=
  let us := reduxSet x ps t
  let (v, fl) :=
    if x.m.ty = .f32 then reduxF32 x.op x.m (us.map fun u => rdF s u .f32 x.m.ftz x.a)
    else reduxInt x.op x.m.ty x.m.sat (us.map fun u => intOf x.m.ty (s.rdN u x.a x.m.ty.words))
  .reg x.d x.m.ty.words v fl

def execRedux (x : ReduxArgs) (s : State) : Result := aluMeaning (.redux x) (reduxEffect x) s

/-- R130: ACTIVE. -/
def execActive (x : ActiveArgs) (s : State) : Result :=
  .next (s.issue (.active x) fun g ps s =>
    State.alu (fun _ _ _ => .reg x.d 1 (laneMask (if x.part then ps else g.members)) 0) g ps s)

/-- R131: PRMT. -/
def prmtEffect (x : PrmtArgs) (s : State) (_ : List Nat) (t : Nat) : Effect :=
  let pool := (s.rd t x.a).toNat + (s.rd t x.b).toNat * 2 ^ 32
  let c := (s.rd t x.c).toNat
  let byte (j : Nat) : Nat :=
    if natBit c (12 + j) then (if natBit c 16 then 255 else 0) else natBits pool (8 * natBits c (3 * j) 3) 8
  .reg x.d 1 ((upTo 4).foldl (fun v j => v + byte j * 256 ^ j) 0) 0

def execPrmt (x : PrmtArgs) (s : State) : Result := aluMeaning (.prmt x) (prmtEffect x) s

end Sys2Proof.Machine
end

