-- ==== Sys2Proof/Machine/Special.lean ====
section
/-!
DEFINITION. The special functions (04 R118, R119): each is the exact mathematical value rounded once.
Reciprocals and roots are computed exactly with what is dropped noted; the transcendental ones are
irrational wherever they are not one of the listed exact cases, and are computed in fixed point with
`prec` fractional bits, so that the rounding sees the truncated value with something dropped below it
(notes/assumptions/7.md).
-/

namespace Sys2Proof.Machine

/-! ### Integer square root, fixed point -/

/-- One bit of a square root: the greatest r with r² ≤ n, bit by bit from 2^k down. -/
def isqrtFrom (n : Nat) : Nat → Nat → Nat
  | 0, r => if (r + 1) * (r + 1) ≤ n then r + 1 else r
  | k + 1, r =>
      let c := r + 2 ^ (k + 1)
      isqrtFrom n k (if c * c ≤ n then c else r)

/-- The floor of the square root. -/
def isqrt (n : Nat) : Nat := isqrtFrom n (Nat.log2 n / 2 + 1) 0

/-- Fractional bits of the fixed point. -/
def prec : Nat := 640
def one : Int := (2 : Int) ^ prec
def fmulx (a b : Int) : Int := a * b / one

/-- Σ x^n/n! from n = k on, for the exponential, by Horner's rule. -/
def expSeries (x : Int) : Nat → Nat → Int
  | 0, _ => one
  | f + 1, k => one + fmulx x (expSeries x f (k + 1)) / (k : Int)

/-- e^x for |x| ≤ 1. -/
def expSmall (x : Int) : Int := expSeries x 160 1

/-- e^x, halving the argument nine times. -/
def expFix (x : Int) : Int := (upTo 9).foldl (fun v _ => fmulx v v) (expSmall (x / 512))

/-- Σ t^(2n+1)/(2n+1): the area hyperbolic tangent, for |t| ≤ 1/3. -/
def atanhSum (t2 p : Int) : Nat → Nat → Int
  | 0, _ => 0
  | f + 1, n => p / (2 * n + 1 : Nat) + atanhSum t2 (fmulx p t2) f (n + 1)

/-- ln z for z in [1, 2]. -/
def lnFix (z : Int) : Int :=
  let t := (z - one) * one / (z + one)
  2 * atanhSum (fmulx t t) t 210 0

def ln2 : Int := lnFix (2 * one)

/-- Arc tangent of 1/n. -/
def atanInv (n : Int) : Nat → Nat → Int → Int
  | 0, _, _ => 0
  | f + 1, k, p => (if k % 2 = 0 then 1 else -1) * (p / (2 * k + 1 : Nat)) + atanInv n f (k + 1) (p / (n * n))

/-- π, by Machin's formula. -/
def piFix : Int := 4 * (4 * atanInv 5 150 0 (one / 5) - atanInv 239 50 0 (one / 239))

/-- Σ (−1)^n x^(2n+j)/(2n+j)!: sine (j = 1) and cosine (j = 0) of a reduced argument. -/
def trigSeries (x2 : Int) : Nat → Nat → Int → Int
  | 0, _, _ => 0
  | f + 1, k, p => p - trigSeries x2 f (k + 2) (fmulx p x2 / (k * (k + 1) : Nat))

def sinSmall (x : Int) : Int := trigSeries (fmulx x x) 90 2 x
def cosSmall (x : Int) : Int := trigSeries (fmulx x x) 90 1 one

/-- A finite magnitude in fixed point, exact for every operand of FP32 and below. -/
def toFix (m : Nat) (e : Int) : Int :=
  let k := e + prec
  if 0 ≤ k then ((m <<< k.toNat : Nat) : Int) else ((m >>> (-k).toNat : Nat) : Int)

/-- R118: sine (cos = false) or cosine of ± x, its argument reduced exactly. -/
def sinCos (cos : Bool) (neg : Bool) (m : Nat) (e : Int) : Int :=
  let x := toFix m e
  let halfPi := piFix / 2
  let k := (x + halfPi / 2) / halfPi
  let r := x - k * halfPi
  let q := ((if cos then k + 1 else k) % 4).toNat
  let v := if q % 2 = 0 then sinSmall r else cosSmall r
  let v := if q / 2 = 1 then -v else v
  if neg && !cos then -v else v

/-! ### R118, R119 -/

/-- An irrational value given by its truncation. -/
def irr (x : FUn) (v : Int) : Nat × BitVec 7 :=
  roundFin x.m.ty x.m.rm x.m.sat x.m.ftz (decide (v < 0)) v.natAbs (-(prec : Int)) true

/-- The rounding of a special function's operand: special operands by R119, others by `fin`. -/
def specialEffect (x : FUn) (inf : Bool → FVal × BitVec 7) (zero : Bool → FVal × BitVec 7)
    (fin : Bool → Nat → Int → Nat × BitVec 7) (s : State) (_ : List Nat) (t : Nat) : Effect :=
  let out (v : FVal × BitVec 7) : Nat × BitVec 7 :=
    let (bits, fl) := roundTo x.m.ty x.m.rm x.m.sat x.m.ftz v.1
    (bits, fl ||| v.2)
  let (bits, fl) := match rdF s t x.m.ty x.m.ftz x.a with
    | .nan sig => ((fmtOf x.m.ty).nan, flagIf sig fInvalid)
    | .inf neg => out (inf neg)
    | .fin neg m e => if m = 0 then out (zero neg) else fin neg m e
  .reg x.d x.m.ty.words bits fl

def invalidF : FVal × BitVec 7 := (.nan false, fInvalid)
def zeroF (neg : Bool) : FVal × BitVec 7 := (.fin neg 0 0, 0)
def oneF (neg : Bool) : FVal × BitVec 7 := (.fin neg 1 0, 0)
def infF (neg : Bool) : FVal × BitVec 7 := (.inf neg, 0)
/-- An infinite result from a finite operand (R98). -/
def divzeroF (neg : Bool) : FVal × BitVec 7 := (.inf neg, fDivzero)

/-- The canonical NaN of an invalid operation. -/
def badF (x : FUn) : Nat × BitVec 7 := ((fmtOf x.m.ty).nan, fInvalid)

/-- A rounding of ± m × 2^e with something dropped below it when `sticky`. -/
def outFin (x : FUn) (neg : Bool) (m : Nat) (e : Int) (sticky : Bool) : Nat × BitVec 7 :=
  roundFin x.m.ty x.m.rm x.m.sat x.m.ftz neg m e sticky

/-- 1 / (m × 2^e). -/
def frcpEffect (x : FUn) : State → List Nat → Nat → Effect :=
  specialEffect x zeroF divzeroF fun neg m e =>
    outFin x neg (2 ^ 160 / m) (-e - 160) (2 ^ 160 % m ≠ 0)

def execFrcp (x : FUn) (s : State) : Result := aluMeaning (.frcp x) (frcpEffect x) s

/-- √(m × 2^e) of a positive operand. -/
def sqrtFin (x : FUn) (m : Nat) (e : Int) : Nat × BitVec 7 :=
  let (m, e) := if e % 2 = 0 then (m, e) else (2 * m, e - 1)
  let n := m * 2 ^ 160
  let r := isqrt n
  outFin x false r (e / 2 - 80) (r * r ≠ n)

def fsqrtEffect (x : FUn) : State → List Nat → Nat → Effect :=
  specialEffect x (fun neg => if neg then invalidF else infF false) zeroF fun neg m e =>
    if neg then badF x else sqrtFin x m e

def execFsqrt (x : FUn) (s : State) : Result := aluMeaning (.fsqrt x) (fsqrtEffect x) s

/-- 1 / √(m × 2^e) of a positive operand. -/
def rsqFin (x : FUn) (m : Nat) (e : Int) : Nat × BitVec 7 :=
  let (m, e) := if e % 2 = 0 then (m, e) else (2 * m, e - 1)
  let n := 2 ^ 240 / m
  let r := isqrt n
  outFin x false r (-(e / 2) - 120) (r * r ≠ n || 2 ^ 240 % m ≠ 0)

def frsqEffect (x : FUn) : State → List Nat → Nat → Effect :=
  specialEffect x (fun neg => if neg then invalidF else zeroF false) divzeroF fun neg m e =>
    if neg then badF x else rsqFin x m e

def execFrsq (x : FUn) (s : State) : Result := aluMeaning (.frsq x) (frsqEffect x) s

/-- 2^(± m × 2^e): exact for an integer, and for one far out of range a value beyond the format. -/
def exp2Fin (x : FUn) (neg : Bool) (m : Nat) (e : Int) : Nat × BitVec 7 :=
  let v := if 12 < (Nat.log2 m : Int) + e then (one * 4096) else toFix m e
  let v := if neg then -v else v
  let n := v / one
  let f := v % one
  if f = 0 then outFin x false 1 n false
  else outFin x false (expFix (fmulx f ln2)).toNat (n - prec) true

def fexp2Effect (x : FUn) : State → List Nat → Nat → Effect :=
  specialEffect x (fun neg => if neg then zeroF false else infF false) (fun _ => oneF false) (exp2Fin x)

def execFexp2 (x : FUn) (s : State) : Result := aluMeaning (.fexp2 x) (fexp2Effect x) s

/-- log₂ of a positive operand: exact for a power of two. -/
def log2Fin (x : FUn) (m : Nat) (e : Int) : Nat × BitVec 7 :=
  let k := Nat.log2 m
  let top : Int := k + e
  if m = 2 ^ k then outFin x (decide (top < 0)) top.natAbs 0 false
  else irr x (top * one + lnFix (toFix m (-(k : Int))) * one / ln2)

def flog2Effect (x : FUn) : State → List Nat → Nat → Effect :=
  specialEffect x (fun neg => if neg then invalidF else infF false) (fun _ => divzeroF true) fun neg m e =>
    if neg then badF x else log2Fin x m e

def execFlog2 (x : FUn) (s : State) : Result := aluMeaning (.flog2 x) (flog2Effect x) s

def fsinEffect (x : FUn) : State → List Nat → Nat → Effect :=
  specialEffect x (fun _ => invalidF) zeroF fun neg m e => irr x (sinCos false neg m e)

def execFsin (x : FUn) (s : State) : Result := aluMeaning (.fsin x) (fsinEffect x) s

def fcosEffect (x : FUn) : State → List Nat → Nat → Effect :=
  specialEffect x (fun _ => invalidF) (fun _ => oneF false) fun neg m e => irr x (sinCos true neg m e)

def execFcos (x : FUn) (s : State) : Result := aluMeaning (.fcos x) (fcosEffect x) s

/-- tanh of a magnitude; beyond 128 it stays just below 1. -/
def tanhFix (m : Nat) (e : Int) : Int :=
  let v := if 6 < (Nat.log2 m : Int) + e then one * 128 else toFix m e
  let y := expFix (-(2 * v))
  (one - y) * one / (one + y)

def ftanhEffect (x : FUn) : State → List Nat → Nat → Effect :=
  specialEffect x oneF zeroF fun neg m e => irr x (if neg then -tanhFix m e else tanhFix m e)

def execFtanh (x : FUn) (s : State) : Result := aluMeaning (.ftanh x) (ftanhEffect x) s

end Sys2Proof.Machine
end

