-- ==== Sys2Proof/Machine/Dispatch.lean ====
section
/-!
DEFINITION. The meaning of every row of the opcode table: one arm per constructor of Instr.
-/

namespace Sys2Proof.Machine

def exec (i : Instr) (s : State) : Host.Outcome State Fault Refusal :=
  match i with
  | .nop x => Sys2Proof.Machine.execNop x s
  | .bra x => Sys2Proof.Machine.execBra x s
  | .brx x => Sys2Proof.Machine.execBrx x s
  | .call x => Sys2Proof.Machine.execCall x s
  | .callx x => Sys2Proof.Machine.execCallx x s
  | .ret x => Sys2Proof.Machine.execRet x s
  | .exit x => Sys2Proof.Machine.execExit x s
  | .yield x => Sys2Proof.Machine.execYield x s
  | .join x => Sys2Proof.Machine.execJoin x s
  | .leave x => Sys2Proof.Machine.execLeave x s
  | .waitm x => Sys2Proof.Machine.execWaitm x s
  | .kmovMem x => Sys2Proof.Machine.execKmovMem x s
  | .kmovArr x => Sys2Proof.Machine.execKmovArr x s
  | .kmovSet x => Sys2Proof.Machine.execKmovSet x s
  | .kmovClr x => Sys2Proof.Machine.execKmovClr x s
  | .bkpt x => Sys2Proof.Machine.execBkpt x s
  | .trap x => Sys2Proof.Machine.execTrap x s
  | .waitc x => Sys2Proof.Machine.execWaitc x s
  | .cont x => Sys2Proof.Machine.execCont x s
  | .iadd x => Sys2Proof.Machine.execIadd x s
  | .isub x => Sys2Proof.Machine.execIsub x s
  | .imul x => Sys2Proof.Machine.execImul x s
  | .imulh x => Sys2Proof.Machine.execImulh x s
  | .imad x => Sys2Proof.Machine.execImad x s
  | .imin x => Sys2Proof.Machine.execImin x s
  | .imax x => Sys2Proof.Machine.execImax x s
  | .iabs x => Sys2Proof.Machine.execIabs x s
  | .and x => Sys2Proof.Machine.execAnd x s
  | .or x => Sys2Proof.Machine.execOr x s
  | .xor x => Sys2Proof.Machine.execXor x s
  | .lop3 x => Sys2Proof.Machine.execLop3 x s
  | .shl x => Sys2Proof.Machine.execShl x s
  | .shr x => Sys2Proof.Machine.execShr x s
  | .rot x => Sys2Proof.Machine.execRot x s
  | .sel x => Sys2Proof.Machine.execSel x s
  | .iaddi x => Sys2Proof.Machine.execIaddi x s
  | .imuli x => Sys2Proof.Machine.execImuli x s
  | .lopi x => Sys2Proof.Machine.execLopi x s
  | .movi x => Sys2Proof.Machine.execMovi x s
  | .movhi x => Sys2Proof.Machine.execMovhi x s
  | .lea x => Sys2Proof.Machine.execLea x s
  | .bfe x => Sys2Proof.Machine.execBfe x s
  | .bfi x => Sys2Proof.Machine.execBfi x s
  | .popc x => Sys2Proof.Machine.execPopc x s
  | .clz x => Sys2Proof.Machine.execClz x s
  | .brev x => Sys2Proof.Machine.execBrev x s
  | .mov x => Sys2Proof.Machine.execMov x s
  | .isetp x => Sys2Proof.Machine.execIsetp x s
  | .pset x => Sys2Proof.Machine.execPset x s
  | .fadd x => Sys2Proof.Machine.execFadd x s
  | .fsub x => Sys2Proof.Machine.execFsub x s
  | .fmul x => Sys2Proof.Machine.execFmul x s
  | .ffma x => Sys2Proof.Machine.execFfma x s
  | .fscale x => Sys2Proof.Machine.execFscale x s
  | .frnd x => Sys2Proof.Machine.execFrnd x s
  | .fmin x => Sys2Proof.Machine.execFmin x s
  | .fmax x => Sys2Proof.Machine.execFmax x s
  | .fsetp x => Sys2Proof.Machine.execFsetp x s
  | .fclass x => Sys2Proof.Machine.execFclass x s
  | .hfma2 x => Sys2Proof.Machine.execHfma2 x s
  | .hadd2 x => Sys2Proof.Machine.execHadd2 x s
  | .hmul2 x => Sys2Proof.Machine.execHmul2 x s
  | .dot4 x => Sys2Proof.Machine.execDot4 x s
  | .dot2 x => Sys2Proof.Machine.execDot2 x s
  | .cvt x => Sys2Proof.Machine.execCvt x s
  | .frcp x => Sys2Proof.Machine.execFrcp x s
  | .frsq x => Sys2Proof.Machine.execFrsq x s
  | .fsqrt x => Sys2Proof.Machine.execFsqrt x s
  | .fexp2 x => Sys2Proof.Machine.execFexp2 x s
  | .flog2 x => Sys2Proof.Machine.execFlog2 x s
  | .fsin x => Sys2Proof.Machine.execFsin x s
  | .fcos x => Sys2Proof.Machine.execFcos x s
  | .ftanh x => Sys2Proof.Machine.execFtanh x s
  | .qscale x => Sys2Proof.Machine.execQscale x s
  | .pack x => Sys2Proof.Machine.execPack x s
  | .unpack x => Sys2Proof.Machine.execUnpack x s
  | .fxaadd x => Sys2Proof.Machine.execFxaadd x s
  | .fxacvt x => Sys2Proof.Machine.execFxacvt x s
  | .shfl x => Sys2Proof.Machine.execShfl x s
  | .vote x => Sys2Proof.Machine.execVote x s
  | .matchLanes x => Sys2Proof.Machine.execMatchLanes x s
  | .redux x => Sys2Proof.Machine.execRedux x s
  | .active x => Sys2Proof.Machine.execActive x s
  | .prmt x => Sys2Proof.Machine.execPrmt x s
  | .ld x => Sys2Proof.Machine.execLd x s
  | .st x => Sys2Proof.Machine.execSt x s
  | .lds x => Sys2Proof.Machine.execLds x s
  | .sts x => Sys2Proof.Machine.execSts x s
  | .ldw x => Sys2Proof.Machine.execLdw x s
  | .pref x => Sys2Proof.Machine.execPref x s
  | .cctlWb x => Sys2Proof.Machine.execCctlWb x s
  | .cctlWbr x => Sys2Proof.Machine.execCctlWbr x s
  | .cctlWball x => Sys2Proof.Machine.execCctlWball x s
  | .cctlInv x => Sys2Proof.Machine.execCctlInv x s
  | .cctlEvl x => Sys2Proof.Machine.execCctlEvl x s
  | .stbq x => Sys2Proof.Machine.execStbq x s
  | .drain x => Sys2Proof.Machine.execDrain x s
  | .atom x => Sys2Proof.Machine.execAtom x s
  | .red x => Sys2Proof.Machine.execRed x s
  | .cas x => Sys2Proof.Machine.execCas x s
  | .atoms x => Sys2Proof.Machine.execAtoms x s
  | .fence x => Sys2Proof.Machine.execFence x s
  | .wait x => Sys2Proof.Machine.execWait x s
  | .ptime x => Sys2Proof.Machine.execPtime x s
  | .ptimeUntil x => Sys2Proof.Machine.execPtimeUntil x s
  | .wmark x => Sys2Proof.Machine.execWmark x s
  | .wmarkWait x => Sys2Proof.Machine.execWmarkWait x s
  | .talloc x => Sys2Proof.Machine.execTalloc x s
  | .tfree x => Sys2Proof.Machine.execTfree x s
  | .tstat x => Sys2Proof.Machine.execTstat x s
  | .tstatWait x => Sys2Proof.Machine.execTstatWait x s
  | .tset x => Sys2Proof.Machine.execTset x s
  | .cpy x => Sys2Proof.Machine.execCpy x s
  | .cpytLd x => Sys2Proof.Machine.execCpytLd x s
  | .cpytSt x => Sys2Proof.Machine.execCpytSt x s
  | .cbld x => Sys2Proof.Machine.execCbld x s
  | .stage x => Sys2Proof.Machine.execStage x s
  | .stageMax x => Sys2Proof.Machine.execStageMax x s
  | .snda x => Sys2Proof.Machine.execSnda x s
  | .sndf x => Sys2Proof.Machine.execSndf x s
  | .penq x => Sys2Proof.Machine.execPenq x s
  | .penqAdv x => Sys2Proof.Machine.execPenqAdv x s
  | .cpyst x => Sys2Proof.Machine.execCpyst x s
  | .mlds x => Sys2Proof.Machine.execMlds x s
  | .mswp x => Sys2Proof.Machine.execMswp x s
  | .mma x => Sys2Proof.Machine.execMma x s
  | .macr x => Sys2Proof.Machine.execMacr x s
  | .macw x => Sys2Proof.Machine.execMacw x s
  | .macz x => Sys2Proof.Machine.execMacz x s
  | .mstat x => Sys2Proof.Machine.execMstat x s
  | .mstatTags x => Sys2Proof.Machine.execMstatTags x s
  | .mnbr x => Sys2Proof.Machine.execMnbr x s
  | .bari x => Sys2Proof.Machine.execBari x s
  | .bara x => Sys2Proof.Machine.execBara x s
  | .barw x => Sys2Proof.Machine.execBarw x s
  | .baraw x => Sys2Proof.Machine.execBaraw x s
  | .barq x => Sys2Proof.Machine.execBarq x s
  | .barqSt x => Sys2Proof.Machine.execBarqSt x s
  | .lnch x => Sys2Proof.Machine.execLnch x s
  | .frpt x => Sys2Proof.Machine.execFrpt x s
  | .frdn x => Sys2Proof.Machine.execFrdn x s
  | .frq x => Sys2Proof.Machine.execFrq x s
  | .frqNext x => Sys2Proof.Machine.execFrqNext x s
  | .bid x => Sys2Proof.Machine.execBid x s
  | .price x => Sys2Proof.Machine.execPrice x s
  | .priceSold x => Sys2Proof.Machine.execPriceSold x s
  | .purse x => Sys2Proof.Machine.execPurse x s
  | .purseRate x => Sys2Proof.Machine.execPurseRate x s
  | .purseCap x => Sys2Proof.Machine.execPurseCap x s
  | .lease x => Sys2Proof.Machine.execLease x s
  | .leaseTime x => Sys2Proof.Machine.execLeaseTime x s
  | .meter x => Sys2Proof.Machine.execMeter x s
  | .recallReq x => Sys2Proof.Machine.execRecallReq x s
  | .recallT x => Sys2Proof.Machine.execRecallT x s
  | .csrr x => Sys2Proof.Machine.execCsrr x s
  | .csrw x => Sys2Proof.Machine.execCsrw x s
  | .eret x => Sys2Proof.Machine.execEret x s
  | .eretSkip x => Sys2Proof.Machine.execEretSkip x s
  | .tlbiVa x => Sys2Proof.Machine.execTlbiVa x s
  | .tlbiCtx x => Sys2Proof.Machine.execTlbiCtx x s
  | .tlbiAll x => Sys2Proof.Machine.execTlbiAll x s
  | .halt x => Sys2Proof.Machine.execHalt x s
  | .haltRun x => Sys2Proof.Machine.execHaltRun x s
  | .haltStep x => Sys2Proof.Machine.execHaltStep x s
  | .haltSave x => Sys2Proof.Machine.execHaltSave x s
  | .qpop x => Sys2Proof.Machine.execQpop x s
  | .qpushRep x => Sys2Proof.Machine.execQpushRep x s
  | .qpushFwd x => Sys2Proof.Machine.execQpushFwd x s
  | .crypTh x => Sys2Proof.Machine.execCrypTh x s
  | .crypEmit x => Sys2Proof.Machine.execCrypEmit x s
  | .crypMeas x => Sys2Proof.Machine.execCrypMeas x s
  | .crypNonce x => Sys2Proof.Machine.execCrypNonce x s
  | .crypSign x => Sys2Proof.Machine.execCrypSign x s
  | .crypCert x => Sys2Proof.Machine.execCrypCert x s
  | .crypTinit x => Sys2Proof.Machine.execCrypTinit x s
  | .crypTmark x => Sys2Proof.Machine.execCrypTmark x s
  | .crypTrest x => Sys2Proof.Machine.execCrypTrest x s
  | .migrOpen x => Sys2Proof.Machine.execMigrOpen x s
  | .migrRound x => Sys2Proof.Machine.execMigrRound x s
  | .migrStop x => Sys2Proof.Machine.execMigrStop x s
  | .migrLand x => Sys2Proof.Machine.execMigrLand x s
  | .migrAbort x => Sys2Proof.Machine.execMigrAbort x s
  | .migrClose x => Sys2Proof.Machine.execMigrClose x s
  | .clauseFetch core ctx addr old => Sys2Proof.Machine.execClauseFetch core ctx addr old s
  | .issueGroup members => Sys2Proof.Machine.execIssueGroup members s
  | .handlerEntry wg => Sys2Proof.Machine.execHandlerEntry wg s
  | .loadReturn acc reply => Sys2Proof.Machine.execLoadReturn acc reply s
  | .storeAtHome core => Sys2Proof.Machine.execStoreAtHome core s
  | .spill core => Sys2Proof.Machine.execSpill core s
  | .storeBackpressure tid => Sys2Proof.Machine.execStoreBackpressure tid s
  | .dramWrite line => Sys2Proof.Machine.execDramWrite line s
  | .wcbSend core n => Sys2Proof.Machine.execWcbSend core n s
  | .accessLoss loss => Sys2Proof.Machine.execAccessLoss loss s
  | .orderLate op => Sys2Proof.Machine.execOrderLate op s
  | .orderedPacketArrival a => Sys2Proof.Machine.execOrderedPacketArrival a s
  | .beacon node port wm onode oport => Sys2Proof.Machine.execBeacon node port wm onode oport s
  | .orderedAck op => Sys2Proof.Machine.execOrderedAck op s
  | .stallDetect recv => Sys2Proof.Machine.execStallDetect recv s
  | .cutRequest recv node port => Sys2Proof.Machine.execCutRequest recv node port s
  | .linkDown node port => Sys2Proof.Machine.execLinkDown node port s
  | .tokenRedistribution port => Sys2Proof.Machine.execTokenRedistribution port s
  | .crcRetry port => Sys2Proof.Machine.execCrcRetry port s
  | .tsetWritten core n => Sys2Proof.Machine.execTsetWritten core n s
  | .copyAccept core => Sys2Proof.Machine.execCopyAccept core s
  | .copyComplete core cmd => Sys2Proof.Machine.execCopyComplete core cmd s
  | .sndfAlternate core flush => Sys2Proof.Machine.execSndfAlternate core flush s
  | .sndfCompletion core flush => Sys2Proof.Machine.execSndfCompletion core flush s
  | .requestPost quad req => Sys2Proof.Machine.execRequestPost quad req s
  | .collectiveTimeout tid => Sys2Proof.Machine.execCollectiveTimeout tid s
  | .grant quad entry => Sys2Proof.Machine.execGrant quad entry s
  | .entryComplete quad entry => Sys2Proof.Machine.execEntryComplete quad entry s
  | .waitTimeout tid => Sys2Proof.Machine.execWaitTimeout tid s
  | .waitWake tid => Sys2Proof.Machine.execWaitWake tid s
  | .waitHostPoll tid => Sys2Proof.Machine.execWaitHostPoll tid s
  | .ptimeReached tid => Sys2Proof.Machine.execPtimeReached tid s
  | .sheepdog ctx => Sys2Proof.Machine.execSheepdog ctx s
  | .launchPacket vd qp bytes => Sys2Proof.Machine.execLaunchPacket vd qp bytes s
  | .packetRunStart die queue => Sys2Proof.Machine.execPacketRunStart die queue s
  | .queueBudget die => Sys2Proof.Machine.execQueueBudget die s
  | .workgroupPlacement p => Sys2Proof.Machine.execWorkgroupPlacement p s
  | .pointFire launch => Sys2Proof.Machine.execPointFire launch s
  | .marketClose => Sys2Proof.Machine.execMarketClose s
  | .marketBoundary => Sys2Proof.Machine.execMarketBoundary s
  | .quadHandover quad => Sys2Proof.Machine.execQuadHandover quad s
  | .wayHandover unit => Sys2Proof.Machine.execWayHandover unit s
  | .priceReceive p => Sys2Proof.Machine.execPriceReceive p s
  | .pagingFetch ctx va page => Sys2Proof.Machine.execPagingFetch ctx va page s
  | .scrubComplete range => Sys2Proof.Machine.execScrubComplete range s
  | .droverStepComplete ctx answered => Sys2Proof.Machine.execDroverStepComplete ctx answered s
  | .eccError x => Sys2Proof.Machine.execEccError x s
  | .thermalTrip u => Sys2Proof.Machine.execThermalTrip u s
  | .thermalResume u => Sys2Proof.Machine.execThermalResume u s
  | .packageReset => Sys2Proof.Machine.execPackageReset s
  | .contextReset ctx => Sys2Proof.Machine.execContextReset ctx s
  | .vdReset vd => Sys2Proof.Machine.execVdReset vd s
  | .queueLoad index qctl => Sys2Proof.Machine.execQueueLoad index qctl s
  | .queueUnload index qctl => Sys2Proof.Machine.execQueueUnload index qctl s
  | .rangeWrite index word val => Sys2Proof.Machine.execRangeWrite index word val s
  | .launchBucketWrite tenant val => Sys2Proof.Machine.execLaunchBucketWrite tenant val s
  | .retiredPageRemove index val => Sys2Proof.Machine.execRetiredPageRemove index val s
  | .fstatWrite core ctx val => Sys2Proof.Machine.execFstatWrite core ctx val s
  | .objectWrite osel val => Sys2Proof.Machine.execObjectWrite osel val s
  | .sync m => Sys2Proof.Machine.execSync m s
  | .inboundRdmaRead x => Sys2Proof.Machine.execInboundRdmaRead x s
  | .inboundRdmaWrite x => Sys2Proof.Machine.execInboundRdmaWrite x s
  | .inboundAtomic x => Sys2Proof.Machine.execInboundAtomic x s
  | .hostQpError vd window => Sys2Proof.Machine.execHostQpError vd window s
  | .marketTableWrite t => Sys2Proof.Machine.execMarketTableWrite t s
  | .hostWindowWrite vd n w => Sys2Proof.Machine.execHostWindowWrite vd n w s
  | .memoryKeyWrite vd n k => Sys2Proof.Machine.execMemoryKeyWrite vd n k s
  | .finalReportRead => Sys2Proof.Machine.execFinalReportRead s
  | .firmwareImageWrite image => Sys2Proof.Machine.execFirmwareImageWrite image s
  | .getVersion x => Sys2Proof.Machine.execGetVersion x s
  | .getCapabilities x => Sys2Proof.Machine.execGetCapabilities x s
  | .negotiateAlgorithms x => Sys2Proof.Machine.execNegotiateAlgorithms x s
  | .getDigests x => Sys2Proof.Machine.execGetDigests x s
  | .getCertificate x => Sys2Proof.Machine.execGetCertificate x s
  | .challenge x => Sys2Proof.Machine.execChallenge x s
  | .getMeasurements x => Sys2Proof.Machine.execGetMeasurements x s
  | .incomingAccess x => Sys2Proof.Machine.execIncomingAccess x s
  | .linkTrained node port => Sys2Proof.Machine.execLinkTrained node port s
  | .walkComplete core ctx va write => Sys2Proof.Machine.execWalkComplete core ctx va write s
  | .debuggerCommand c => Sys2Proof.Machine.execDebuggerCommand c s
  | .idleSlotShare die => Sys2Proof.Machine.execIdleSlotShare die s
  | .announce m => Sys2Proof.Machine.execAnnounce m s
  | .delayResp port seq rx => Sys2Proof.Machine.execDelayResp port seq rx s
  | .followUp m => Sys2Proof.Machine.execFollowUp m s

end Sys2Proof.Machine
end

