-- ==== Sys2Proof/Machine/Schedule.lean ====
section
/-!
DEFINITION. What moves next (10 R275, R276; notes/assumptions/2.md): the moves that are due, the order in
which groups issue, the move that is chosen when the agenda names none, what comes about after each move, and
the package with one instruction about to issue.
-/

namespace Sys2Proof.Machine

namespace State

variable (s : State)

/-! ### Running a group (R271, R275) -/

/-- A group made the current one; the group that was current waits with the others. -/
def takeGroup (id : Nat) : Option State :=
  match s.cur with
  | some g => if g.id = id then some s else
      match s.groups.find? fun x => x.id = id with
      | some x => some { s with cur := some x, groups := g :: s.groups.filter fun y => y.id ≠ id }
      | none => none
  | none =>
      match s.groups.find? fun x => x.id = id with
      | some x => some { s with cur := some x, groups := s.groups.filter fun y => y.id ≠ id }
      | none => none

/-- R50: the current group's instruction, or ILLEGAL_INSN for a word that is none. -/
def runCurrent : Result :=
  match s.cur with
  | none => .next s
  | some g =>
    if g.blocked then .next s
    else
      match instrAt g with
      | some i => exec i s
      | none => .next s.illegal

/-- One issue of a group. -/
def runGroup (id : Nat) : Result :=
  match s.takeGroup id with
  | some s => s.runCurrent
  | none => .next s

/-! ### The order of issue (R275, R276) -/

/-- R275: the path on which a group's next instruction issues, by its core: the vector path for an instruction of
class 0 that is no special function, and the other path for every other. -/
def pathKey (g : Group) : Nat :=
  let op := wordOp (g.words.getD g.idx 0)
  let vector := opClass op = some 0 && !(decide (0x43 ≤ op) && decide (op ≤ 0x4A))
  2 * g.core + (if vector then 0 else 1)

/-- R275: in this cycle the group has not issued, and no group has on its path. -/
def pathFree (g : Group) : Bool := !(s.issued.any fun x => x.1 = pathKey g || x.2 = g.id)

/-- The launch's priority class of a group. -/
def groupPrio (g : Group) : Nat := (s.wg g.wg).prio

/-- R275 rule 1: a member ready for more than 4,096 cycles at a clause that has not issued. -/
def overdue (g : Group) : Bool := g.idx = 0 && decide (g.age + 4096 < s.cyc)

/-- R276: this is the cycle after the one in which the members' clause yielded. -/
def passedOver (g : Group) : Bool :=
  match g.passed with
  | some c => decide (s.cyc ≤ c + 1)
  | none => false

/-- R275, R276: one group goes before another. -/
def groupBefore (a b : Group) : Bool :=
  if s.overdue a ≠ s.overdue b then s.overdue a
  else if s.overdue a then decide (a.age < b.age)
  else if s.passedOver a ≠ s.passedOver b then s.passedOver b
  else if s.groupPrio a ≠ s.groupPrio b then decide (s.groupPrio a < s.groupPrio b)
  else if a.age ≠ b.age then decide (a.age < b.age)
  else decide (a.id < b.id)

/-- A group in its place in a list. -/
def insertGroup (g : Group) : List Group → List Group
  | [] => [g]
  | x :: t => if s.groupBefore g x then g :: x :: t else x :: insertGroup g t

/-- The groups in R275's order. -/
def tryOrder : List Group := s.allGroups.foldl (fun l g => s.insertGroup g l) []

/-- A group's issue would have an effect: it is not held. -/
def issues (g : Group) : Bool :=
  !g.blocked &&
    match s.runGroup g.id with
    | .next t => (match t.cur with | some h => !(h.id = g.id && h.idx = g.idx && h.stalled && h.part = g.part) | none => true)
    | _ => true

/-- R275: another group of the core that can issue on the group's path goes before it, and has not issued in this
cycle. -/
def outranked (g : Group) : Bool :=
  s.allGroups.any fun h => h.id ≠ g.id && pathKey h = pathKey g && !(s.issued.any fun x => x.2 = h.id) &&
    s.groupBefore h g && s.issues h

/-- Threads that stand ready. -/
def readyThreads : List Nat := (s.threads.filter fun t => t.2.st = .ready).map (·.1)

/-- R270: the group that a ready thread's clause lets it form: in each lane, the oldest thread that joins. -/
def gather (h : W64) (a : Nat) : List Nat :=
  let all := s.readyThreads.filter fun t => s.joins h a t && s.mayGroup t
  a :: ((upTo 32).filterMap fun l =>
    if l = tidLane a then none
    else (all.filter fun t => tidLane t = l).foldl (fun b t => match b with
      | none => some t
      | some x => if s.olderOf t x then some t else some x) none)

/-- R270: the group that a ready thread's clause lets it form, once it is formed. -/
def wouldForm (t : Nat) : Option (Group × State) :=
  match s.clauseFor t with
  | none => none
  | some (h, _) =>
    let r := s.formGroup (s.gather h t)
    (r.groups.find? fun g => g.id = s.fresh).map fun g => (g, r)

/-- R275: a group that ready threads can form, of a higher rank, can issue on the group's path. -/
def lateFor (g : Group) : Bool :=
  s.readyThreads.any fun t => match s.wouldForm t with
    | some (h, s) => pathKey h = pathKey g && s.groupBefore h g && s.issues h
    | none => false

/-- The group with an identity. -/
def group? (id : Nat) : Option Group := s.allGroups.find? fun g => g.id = id

/-- A cycle begins, and with it what its pod time brings: a close, and a boundary, before anything that is done in the
cycle (R332, R339, R353). -/
def beginCycle : State := s.tick.closeMarket.turnMarket

/-- R275: the cycle in which a move is made. A group issues in this cycle if its path is free, else in the next;
forming a group takes no cycle; any other event takes the next. -/
def beginMove (m : Move) : State :=
  match m with
  | .issue id =>
    match s.group? id with
    | some g =>
      let s := if s.pathFree g then s else s.beginCycle
      { s with issued := (pathKey g, g.id) :: s.issued }
    | none => s.beginCycle
  | .event (.issueGroup _) => s
  | .event _ => s.beginCycle

/-- One move: a group issues unless another that goes before it can (R275). -/
def runMove (m : Move) : Result :=
  match m with
  | .issue id =>
    match s.group? id with
    | some g => if s.outranked g || s.lateFor g then .next s else s.runGroup id
    | none => .next s
  | .event i => exec i s

/-! ### Events that are due -/

/-- Events of the memory system and the ordered network. -/
def memoryEvents : List Instr :=
  (s.accs.map fun a => .loadReturn a.id none) ++
  (s.cores.flatMap fun c =>
    (if c.2.sq = [] then [] else [.storeAtHome c.1, .spill c.1]) ++
    ((c.2.wcb.zip (upTo c.2.wcb.length)).flatMap fun e =>
      if e.1.sent.isSome then [.loadReturn e.1.id none] else [.wcbSend c.1 e.2])) ++
  (s.ords.flatMap fun o => if o.st = .sent && decide (o.recv < 48) then [.orderedPacketArrival (.own o.id)] else [.orderedAck ⟨o.id, none⟩])

/-- Events of the copy units and the matrix engines. -/
def unitEvents : List Instr :=
  (s.cores.flatMap fun c =>
    (if c.2.cmds = [] then [] else [.copyAccept c.1]) ++ (c.2.cmds.map fun m => .copyComplete c.1 ⟨m.id, []⟩) ++
    (c.2.flushes.flatMap fun f => [.sndfAlternate c.1 f.id, .sndfCompletion c.1 f.id]) ++
    (if c.2.tsets = [] then [] else [.tsetWritten c.1 0])) ++
  (s.quads.flatMap fun q =>
    (q.2.reqs.map fun r => .requestPost q.1 r.id) ++ (q.2.table.flatMap fun e => [.grant q.1 e.id, .entryComplete q.1 e.id]))

/-- Events of threads that wait or have trapped. -/
def threadEvents : List Instr :=
  (s.threads.flatMap fun t => match t.2.wait with
    | some w => (match w.kind with
        | .sign _ _ => [.collectiveTimeout t.1]
        | .ptime _ => [.ptimeReached t.1]
        | _ => [.waitHostPoll ⟨t.1, none⟩, .waitWake ⟨t.1, none⟩, .waitTimeout t.1])
    | none => if t.2.stallFrom.isSome then [.storeBackpressure t.1] else []) ++
  ((s.wgs.filter fun w => s.entryDueAt w.1).map fun w => .handlerEntry w.1)

/-- Events of queues, launches, the Commons and migration. -/
def hostEvents : List Instr :=
  ((upTo 2).flatMap fun d => match s.nextQueue d with | some q => [.packetRunStart d q] | none => []) ++
  (s.launches.map fun l => .pointFire l.id) ++
  ((s.quads.filter fun q => q.2.handover).map fun q => .quadHandover q.1) ++
  ((s.market.units.filter fun u => u.2.leaving.isSome).map fun u => .wayHandover u.1) ++
  (if s.timed then [.marketClose, .marketBoundary] else []) ++
  ((s.sessions.filter fun x => x.doing.isSome).map fun x => .droverStepComplete x.ctx (.answered true)) ++
  ((s.ranges.filter fun r => r.2.scrubbing).map fun r => .scrubComplete r.1) ++
  ((s.vds.filter fun v => v.2.word.getLsbD 1).map fun v => .vdReset v.1)

/-- The first placement of each context that has work. -/
def placements : List Instr :=
  s.ctxs.flatMap fun c => (s.workOf c.1).filterMap fun w =>
    (s.placeFor c.1 w).map fun p => .workgroupPlacement { saved := w.saved, item := w.item, quad := p.1, spots := p.2 }

/-- Pages that something waits for and the paging engine may bring in. -/
def pageEvents : List Instr :=
  s.ctxs.flatMap fun c =>
    if (s.ctx c.1).words.npool = 0 then []
    else
      (((s.fetches.filter fun x => x.1 = c.1).map (·.2)) ++ s.allTouches c.1 fun _ => true).filterMap fun va =>
        (s.absentLeaf c.1 va).map fun _ => .pagingFetch c.1 va ⟨true, none⟩

/-- Events that time brings. -/
def timeEvents : List Instr :=
  (s.dirty.filterMap fun d => if d.2.wb && d.2.lane = [] then none else some (.dramWrite d.1)) ++
  ((upTo 2).filterMap fun d => if s.drainers d = [] then none else some (.idleSlotShare d)) ++
  (if s.flitq.any fun q => q.2 ≠ [] then (upTo 24).map .tokenRedistribution else []) ++
  (if s.ords.any fun o => o.st = .held then (upTo 48).map .stallDetect else []) ++
  (s.ctxs.filterMap fun c => if c.2.still.isSome then some (.sheepdog c.1) else none) ++
  ((upTo 2).filterMap fun d => if (tget s.runs d).isSome then some (.queueBudget d) else none)

/-- Fetches and groups that ready threads ask for. -/
def frontEvents : List Instr :=
  s.readyThreads.flatMap fun t =>
    match s.clauseFor t with
    | none => [.clauseFetch (tidCore t) (s.ctxOf t) (s.thread t).pc 0]
    | some (h, _) => [.issueGroup (s.gather h t)]

/-- An event that changes something. -/
def changes (i : Instr) : Bool :=
  match exec i s with
  | .next t => decide (t ≠ s)
  | _ => true

/-- The first event of a list that changes something. -/
def firstOf (l : List Instr) : Option Move := (l.find? s.changes).map .event

/-- The move chosen when the agenda names none: a fetch or a group, then a group that can issue in this cycle, then
an event, so that each cycle in which groups issue is followed by one, then a group in the next cycle. -/
def defaultMove : Option Move :=
  let order := s.tryOrder.filter s.issues
  (s.firstOf s.frontEvents).orElse fun _ =>
  ((order.find? s.pathFree).map fun g => .issue g.id).orElse fun _ =>
  (s.firstOf s.memoryEvents).orElse fun _ =>
  (s.firstOf s.unitEvents).orElse fun _ =>
  (s.firstOf s.threadEvents).orElse fun _ =>
  (s.firstOf s.hostEvents).orElse fun _ =>
  (s.firstOf s.placements).orElse fun _ =>
  (s.firstOf s.pageEvents).orElse fun _ =>
  (s.firstOf s.timeEvents).orElse fun _ =>
  order.head?.map fun g => .issue g.id

/-- The move that a step makes, with the agenda that is left. -/
def nextMove : Option Move × List Move :=
  match s.agenda with
  | m :: rest => (some m, rest)
  | [] => (s.defaultMove, [])

/-- R412, R413: what the management port may do while the part is held in reset. -/
def portMove : Move → Bool
  | .event .packageReset | .event .finalReportRead | .event (.firmwareImageWrite _) | .event (.marketTableWrite _)
  | .event (.hostWindowWrite _ _ _) | .event (.memoryKeyWrite _ _ _) | .event (.debuggerCommand _) | .event (.contextReset _)
  | .event (.vdReset _) => true
  | _ => false

/-! ### After a move -/

/-- What follows every move: waits that end, launches, halts, units, resets, handlers, spilled barrier entries, and the form
of memory and of every workgroup's scratch. -/
def settleAll : State :=
  let s := s.settle.loadBooks.settleLaunches.settleHalts.retryHalts.claimUnits.settleResets.enterAll.writeSpills
  { s with mem := mcanon s.mem, wgs := tmap s.wgs fun w => { w with scr := mcanon w.scr } }

/-- The step's end. -/
def finish : Result → Result
  | .next s => .next s.settleAll
  | .fault f => .fault f
  | .refused r => .refused r

/-! ### One instruction about to issue (notes/assumptions/12.md) -/

/-- The address of the clause that `withFetchWord` places, and its device physical address. -/
def fetchVa : W64 := 0x10000#64
def fetchPa : Nat := 0x20000

/-- The header of a clause of one instruction of any class. -/
def fetchHdr : W64 := 0xA0DFFFF000000000#64

/-- Words of memory: the page tables of context 0, which map a page of data at 0 and the clause's page, and
the clause. -/
def fetchMem (w : W64) : Memory :=
  let own := s.node.toNat * 2 ^ 52
  let put (m : Memory) (x : Nat × Nat) : Memory := mputs m (s.local_ x.1) (natLe 8 x.2)
  [(0x8000, own + 0xA001), (0xA000, own + 0xC001), (0xC000, own + 0xE001), (0xE000, own + 0x300387), (0xE008, own + 0x20038F),
    (fetchPa, fetchHdr.toNat), (fetchPa + 8, w.toNat)].foldl put s.mem

/-- The instruction placed: a workgroup of one flock of context 0, of virtual device 0, on core 0, whose
thread 0 is the one member of a group at the instruction. -/
def placeWord (w : W64) : State :=
  let g : Group :=
    { id := s.fresh, core := 0, wg := s.fresh + 1, pc := fetchVa, hdr := fetchHdr, words := [w], idx := 0, members := [0]
      blocked := false, stalled := false, part := [], yielding := false, passed := none, age := s.cyc }
  let wg : Wg :=
    { noWg with id := s.fresh + 1, nflock := 1, regs := 128, bars := 16, tiles := 16 }
  { s with
    held := false, booted := true, agenda := [], cur := some g, fresh := s.fresh + 2
    mem := s.fetchMem w
    market := { s.market with begun := true }
    vds := tput s.vds 0 { s.vd 0 with word := 1 }
    ctxs := tput s.ctxs 0 { s.ctx 0 with words := { (s.ctx 0).words with ctl := 3, root := 0x8000 } }
    ranges := tput s.ranges 0 { w0 := 1, w1 := 0x1000000#64, w2 := BitVec.ofNat 64 (2 ^ 32), w3 := 0 }
    quads := tput s.quads 0 { s.quad 0 with ctx := some 0 }
    cores := tput s.cores 0 { s.core 0 with clauses := [{ ctx := 0, va := fetchVa, hdr := fetchHdr, words := [w] }] }
    wgs := tput s.wgs (s.fresh + 1) wg
    flocks := tput s.flocks 0 { Flock.start with fu := some (fetchVa, 0) }
    threads := tput s.threads 0 { Thread.start (s.fresh + 1) fetchVa with st := .running, age := s.cyc } }

end State

end Sys2Proof.Machine
end

