-- ==== Sys2Proof/Machine/Step.lean ====
section
/-!
DEFINITION. One step of the package: the boot after reset (15 R413), or one cycle with the next move and what
follows it; and the package with one instruction about to issue.
-/

namespace Sys2Proof.Machine

/-- One step: a part that is not booted boots; one that is held in reset takes only what the management port may
do; any other makes its next move in the cycle that begins. -/
def step (s : State) : Host.Outcome State Fault Refusal :=
  if s.held = true ∧ (s.nextMove.1.map State.portMove) ≠ some true then .fault .heldInReset
  else if s.booted = false ∧ s.held = false then .next s.boot.settleAll
  else
    match s.nextMove with
    | (none, rest) => State.finish (.next { s.beginCycle with agenda := rest })
    | (some m, rest) => State.finish (State.runMove { s.beginMove m with agenda := rest } m)

/-- The package with the instruction word `w` fetched and about to issue (notes/assumptions/12.md). -/
def State.withFetchWord (s : State) (nbits w : Nat) : State := s.placeWord (BitVec.ofNat 64 (w % 2 ^ nbits))

end Sys2Proof.Machine
end

