-- ==== Sys2Proof/Safety.lean ====
section
/-!
DEFINITION. What counts as a safe run: the invariant that claims rest on, runs that neither fault nor
refuse, and the conditions under which an issued instruction has its own effect.
-/

namespace Sys2Proof

open Sys2Proof.Machine

/-- The invariant of every state between two steps: memory and the scratch of every workgroup stand in their canonical
form, so that equal memories are equal data. -/
def Inv (s : State) : Prop := s.mem.wf ∧ ∀ x ∈ s.wgs, x.2.scr.wf

/-- A run of `n` steps that stops with neither a fault nor a refusal. -/
def SafeFor : Nat → State → Prop
  | 0, _ => True
  | n + 1, s => ∃ t, step s = .next t ∧ SafeFor n t

/-- What R39, R41 and R50 ask of one member of a group before an instruction has its own effect: no outstanding
access names a register of it, its counter is not full, no deferred error stands, the thread may run it, and its
registers and barriers are in range. -/
structure MemberClear (s : State) (i : Instr) (t : Nat) : Prop where
  free : s.interlocked t i = false
  room : s.counterFull t i = false
  errs : (s.thread t).errs = []
  allowed : s.allowed t i = true
  range : s.rangeOk t i = true

/-- The group `g` of kernel threads stands at an instruction `i` and nothing stands between it and the
instruction's own effect: the workgroup is not stopped, every member is clear, w and k registers are named only
in an FU clause (R272), and no poison stands (R398). The members are distinct threads, in an FU clause of one flock (R270, R272). -/
structure Clear (s : State) (g : Group) (i : Instr) : Prop where
  cur : s.cur = some g
  distinct : g.members.Nodup
  flock : hdrFu g.hdr = true → ∀ t ∈ g.members, ∀ u ∈ g.members, tidFlock t = tidFlock u
  moves : s.frozen g = false
  kernel : ∀ t ∈ g.members, isCp t = false
  member : ∀ t ∈ g.members, MemberClear s i t
  fu : instrUsesWK i = true → hdrFu g.hdr = true
  clean : s.poison = []

/-- The same for the one thread `t` of the packet run `r` on a die's command processor (R302), which has
instructions left of its 256 (R70, R303). -/
structure ClearRun (s : State) (g : Group) (i : Instr) (t : Nat) (r : Run) : Prop where
  cur : s.cur = some g
  one : g.members = [t]
  isCp : isCp t = true
  run : tget s.runs (tidCore t - 256) = some r
  first : r.last ≠ some (g.pc, g.idx)
  budget : r.count < 256
  moves : s.frozen g = false
  member : MemberClear s i t
  fu : instrUsesWK i = false
  clean : s.poison = []

/-- The run's package once the instruction of `g` is counted (R70, R303). -/
def counted (s : State) (g : Group) (t : Nat) (r : Run) : State :=
  { s with runs := tput s.runs (tidCore t - 256) { r with count := r.count + 1, last := some (g.pc, g.idx) } }

/-! ### What an instruction leaves -/

/-- Which register of which thread or flock a specifier names; none for the constant 0 (R29, R58). -/
def regCell (tid : Nat) : Reg → Option (Bool × Nat × Nat)
  | .g n => some (true, tid, n.val)
  | .w n => some (false, tidFlock tid, n.val)
  | .zero => none

/-- A group of registers lies within its register file. -/
def Reg.fits (d : Reg) (k : Nat) : Prop :=
  match d with
  | .g n => n.val + k ≤ 128
  | .w n => n.val + k ≤ 64
  | .zero => True

/-- Nothing changed from `s` to `t` but the current group's place, threads' g registers, predicates, clause
addresses and scheduling, flocks' w registers and FU state, and cores' flag sets: memory, every special
register, counter, trap record, accumulator, barrier, tile and outstanding access stands. -/
structure Kept (s t : State) : Prop where
  rest : { t with cur := s.cur, threads := s.threads, flocks := s.flocks, cores := s.cores } = s
  thread : ∀ q, { t.thread q with
    g := (s.thread q).g, p := (s.thread q).p, pc := (s.thread q).pc, idx := (s.thread q).idx, st := (s.thread q).st
    age := (s.thread q).age, stallFrom := (s.thread q).stallFrom, fullFrom := (s.thread q).fullFrom
    stepping := (s.thread q).stepping, yielded := (s.thread q).yielded } = s.thread q
  flock : ∀ f, { t.flock f with w := (s.flock f).w, fu := (s.flock f).fu } = s.flock f
  core : ∀ c, { t.core c with fstat := (s.core c).fstat } = s.core c

/-- What one step of R101 leaves: the participants `ps`, in ascending lane order, write their numbers `v` to the
`k` registers from `d` and their bits `b` to the predicate `pd`, and raise their flags `fl`. A w register takes
the lowest lane's number (R29), 0xC0 and p7 discard what is written (R58, R26), and nothing else changes. -/
structure Writes (s t : State) (ps : List Nat) (d : Reg) (k : Nat) (v : Nat → Nat) (pd : Option Pred) (b : Nat → Bool)
    (fl : Nat → BitVec 7) : Prop where
  kept : Kept s t
  g : d.isG = true → ∀ p ∈ ps, t.rdN p d k = v p % 2 ^ (32 * k)
  w : d.isW = true → ∀ p ∈ ps, ∀ q, ps.head? = some q → t.rdN p d k = v q % 2 ^ (32 * k)
  regs : ∀ q r, (∀ p ∈ ps, ∀ i < k, regCell q r ≠ regCell p (Reg.up d i)) → t.rd q r = s.rd q r
  preds : ∀ q c, t.rdP q c = if pd = some c ∧ c ≠ 7 ∧ q ∈ ps then b q else s.rdP q c
  flags : ∀ c x, t.coreFlags c x =
    ps.foldr (fun p f => if tidCore p = c ∧ s.ctxOf p = x then f ||| fl p else f) (s.coreFlags c x)

/-- An instruction of R101 with nothing in its way completes: its participants' numbers go to its register group and
their flags to the core's set, and nothing else changes. -/
def Computes (s : State) (g : Group) (i : Instr) (d : Reg) (k : Nat) (v : Nat → Nat) (fl : Nat → BitVec 7) : Prop :=
  Clear s g i → d.fits k →
    ∃ t, exec i s = .next t ∧ Writes s t (s.participants g i) d k v none (fun _ => false) fl

/-- The same for an instruction whose result is a predicate. -/
def Tests (s : State) (g : Group) (i : Instr) (pd : Pred) (b : Nat → Bool) (fl : Nat → BitVec 7) : Prop :=
  Clear s g i →
    ∃ t, exec i s = .next t ∧ Writes s t (s.participants g i) .zero 0 (fun _ => 0) (some pd) b fl

/-! ### Instructions whose participants act one by one -/

/-- An instruction that nothing stands before answers this next state. -/
def Completes (s : State) (g : Group) (i : Instr) (t : State) : Prop := Clear s g i → exec i s = .next t

/-- Each of `ps` that stands in the current group and has not acted yet finishes its own part (R149, R242, R259), in
turn, so that `s` becomes `u`. -/
def AllDone (one : State → Nat → State × Bool) : List Nat → State → State → Prop
  | [], s, u => s = u
  | t :: ts, s, u => ∃ g, s.cur = some g ∧
      (((t ∈ g.part ∨ t ∉ g.members) ∧ AllDone one ts s u) ∨
        (t ∈ g.members ∧ t ∉ g.part ∧ ∃ v, one s t = (v, true) ∧
          AllDone one ts { v with cur := v.cur.map fun h => { h with part := h.part ++ [t] } } u))

/-- An instruction whose participants act one by one completes once each can act: the group goes on. -/
def EachCompletes (s : State) (g : Group) (i : Instr) (one : List Nat → State → Nat → State × Bool) : Prop :=
  ∀ u, Clear s g i → AllDone (one (s.participants g i)) (s.participants g i) s u → exec i s = .next u.advance

/-! ### Memory instructions -/

/-- Nothing holds a memory instruction: every participant's checks pass (R198), none of its pages is absent, no
fence, tile, release or earlier access holds it (R176, R178, R179, R189), its core has room for what all participants
need (R184, R225), and nothing holds the fence halves of the group's other members (R181). `pl` is where each
participant's access goes and `u` the state after the checks, which may have filled a TLB. -/
structure MemReady (s : State) (g : Group) (ps : List Nat) (chk : State → Nat → Chk) (hold : State → Nat → Place → Bool)
    (room : State → List (Nat × Place) → Option (List Nat)) (acq rel : Option Scope) (u : State) (pl : List (Nat × Place)) : Prop where
  checks : State.checkAll chk s ps = (u, pl, false)
  cur : u.cur = some g
  unfenced : ∀ x ∈ pl, u.fenced x.1 = false
  free : ∀ x ∈ pl, hold u x.1 x.2 = false
  room : room u pl = none
  released : ∀ x ∈ pl, ∀ sc, rel = some sc → u.releaseWaits x.1 sc = false
  alone : ∀ x ∈ pl, x.2.sc = true → u.accessesOf x.1 = []
  others : ∀ t ∈ g.members, t ∉ ps → u.fenceWaits acq rel t = false

/-- The participants' own effects in turn, their registers read before any of them acts (R14), then the fence halves of
the others, then on. -/
def memDone (g : Group) (ps : List Nat) (acq rel : Option Scope)
    (act : State → Group → State → List Nat → Nat → Place → State) (u : State) (pl : List (Nat × Place)) : State :=
  let v := pl.foldl (fun s x => act u g (s.releaseDone rel x.1) (pl.map (·.1)) x.1 x.2) u
  ((g.members.filter fun t => !ps.contains t).foldl (fun s t => s.fenceDone acq rel t) v).goOn

/-- A memory instruction that nothing holds completes with its participants' effects. -/
def MemCompletes (s : State) (g : Group) (i : Instr) (chk : State → Nat → Chk) (hold : State → Nat → Place → Bool)
    (room : State → List (Nat × Place) → Option (List Nat)) (acq rel : Option Scope)
    (act : State → Group → State → List Nat → Nat → Place → State) : Prop :=
  ∀ u pl, Clear s g i → MemReady s g (s.participants g i) chk hold room acq rel u pl →
    exec i s = .next (memDone g (s.participants g i) acq rel act u pl)

end Sys2Proof
end

