-- ==== Sys2Proof/WellFormed.lean ====
section
/-!
DEFINITION. Which terms of Instr stand for an instruction word: those that break no rule of step 1
of R50 (`Instr.check`). An event is no word and is never well-formed in this sense.
-/

namespace Sys2Proof

/-- A well-formed instruction breaks no rule of step 1 of R50: its operands are aligned groups of
the widths its type gives (R27, R99, R197, R212), and its type, condition, scope and modifiers are
among those its encoding table allows. -/
abbrev WellFormed (i : Instr) : Prop := i.check = none

/-- The name of the first rule a term breaks, for a report. -/
def Instr.whyIllFormed (i : Instr) : Option Reject := i.check

end Sys2Proof
end

