-- ==== Sys2Proof/Certificates/Slice0/Obligations.lean ====
section
/-!
DEFINITION. The statements about the model, each a proposition for the provers.
-/

open Sys2Proof Sys2Proof.Machine

/-! ### Integer instructions (04 R103 to R111) -/

namespace Sys2Proof

/-- R103: an exact result narrowed without saturation is taken modulo 2^w with no flag; with it, a result outside
the range of its type becomes the nearer end of the range and SATURATED is raised, and any other result is
unchanged with no flag. -/
def NarrowSaturates : Prop :=
  ∀ (ty : Ty) (v : Int),
    narrow ty false v = (wrapNat v (tyBits ty), 0) ∧
    (v < tyLo ty → narrow ty true v = (wrapNat (tyLo ty) (tyBits ty), fSaturated)) ∧
    (tyHi ty < v → narrow ty true v = (wrapNat (tyHi ty) (tyBits ty), fSaturated)) ∧
    (tyLo ty ≤ v → v ≤ tyHi ty → narrow ty true v = (wrapNat v (tyBits ty), 0))

/-- R103: IADD, ISUB, IMUL, IMULH, IMAD, IMIN, IMAX and IABS write the exact result of their operands, read as integers of
their type, narrowed with .sat or modulo 2^w, and raise SATURATED as `NarrowSaturates` says; nothing else changes. -/
def IntegerResults : Prop :=
  ∀ (s : State) (g : Group),
    (∀ x : BinS,
      let a (p : Nat) := intOf x.ty (s.rdN p x.a x.ty.words)
      let b (p : Nat) := intOf x.ty (s.rdN p x.b x.ty.words)
      Computes s g (.iadd x) x.d x.ty.words (fun p => (narrow x.ty x.sat (a p + b p)).1)
        (fun p => (narrow x.ty x.sat (a p + b p)).2) ∧
      Computes s g (.isub x) x.d x.ty.words (fun p => (narrow x.ty x.sat (a p - b p)).1)
        (fun p => (narrow x.ty x.sat (a p - b p)).2) ∧
      Computes s g (.imul x) x.d x.ty.words (fun p => (narrow x.ty x.sat (a p * b p)).1)
        (fun p => (narrow x.ty x.sat (a p * b p)).2)) ∧
    (∀ x : Bin,
      let a (p : Nat) := intOf x.ty (s.rdN p x.a x.ty.words)
      let b (p : Nat) := intOf x.ty (s.rdN p x.b x.ty.words)
      Computes s g (.imulh x) x.d x.ty.words (fun p => wrapNat (a p * b p / (2 : Int) ^ tyBits x.ty) (tyBits x.ty))
        (fun _ => 0) ∧
      Computes s g (.imin x) x.d x.ty.words (fun p => wrapNat (min (a p) (b p)) (tyBits x.ty)) (fun _ => 0) ∧
      Computes s g (.imax x) x.d x.ty.words (fun p => wrapNat (max (a p) (b p)) (tyBits x.ty)) (fun _ => 0)) ∧
    (∀ x : TernS,
      let r (p : Nat) := intOf x.ty (s.rdN p x.a x.ty.words) * intOf x.ty (s.rdN p x.b x.ty.words) +
        intOf x.ty (s.rdN p x.c x.ty.words)
      Computes s g (.imad x) x.d x.ty.words (fun p => (narrow x.ty x.sat (r p)).1) (fun p => (narrow x.ty x.sat (r p)).2)) ∧
    (∀ x : UnS,
      let r (p : Nat) : Int := (intOf x.ty (s.rdN p x.a x.ty.words)).natAbs
      Computes s g (.iabs x) x.d x.ty.words (fun p => (narrow x.ty x.sat (r p)).1) (fun p => (narrow x.ty x.sat (r p)).2))

end Sys2Proof

/-- R103: `NarrowSaturates` and `IntegerResults`. -/
def Obligations.IntegerArithmetic : Prop := NarrowSaturates ∧ IntegerResults

namespace Sys2Proof

/-- R104: AND, OR, XOR, SHL, SHR, ROT and SEL. A shift reads all 32 bits of b: an amount of the width or more gives
0, or with .arith copies of the sign; ROT takes the amount modulo the width. -/
def LogicResults : Prop :=
  ∀ (s : State) (g : Group),
    (∀ x : Bin,
      let k := x.ty.words
      let a (p : Nat) := s.rdN p x.a k
      Computes s g (.and x) x.d k (fun p => a p &&& s.rdN p x.b k) (fun _ => 0) ∧
      Computes s g (.or x) x.d k (fun p => a p ||| s.rdN p x.b k) (fun _ => 0) ∧
      Computes s g (.xor x) x.d k (fun p => a p ^^^ s.rdN p x.b k) (fun _ => 0) ∧
      Computes s g (.shl x) x.d k
        (fun p => if tyBits x.ty ≤ (s.rd p x.b).toNat then 0 else (a p <<< (s.rd p x.b).toNat) % 2 ^ tyBits x.ty)
        (fun _ => 0)) ∧
    (∀ x : Shift,
      let k := x.ty.words
      let n := tyBits x.ty
      let a (p : Nat) := s.rdN p x.a k
      let sh (p : Nat) := (s.rd p x.b).toNat
      (x.alt = false → Computes s g (.shr x) x.d k (fun p => if n ≤ sh p then 0 else a p >>> sh p) (fun _ => 0)) ∧
      (x.alt = true → Computes s g (.shr x) x.d k
        (fun p => if n ≤ sh p then (if signExt (a p) n < 0 then 2 ^ n - 1 else 0)
          else wrapNat (signExt (a p) n / (2 : Int) ^ sh p) n) (fun _ => 0)) ∧
      (x.alt = false → Computes s g (.rot x) x.d k
        (fun p => (a p <<< (sh p % n)) % 2 ^ n + a p >>> (n - sh p % n)) (fun _ => 0)) ∧
      (x.alt = true → Computes s g (.rot x) x.d k
        (fun p => (a p <<< ((n - sh p % n) % n)) % 2 ^ n + a p >>> (n - (n - sh p % n) % n)) (fun _ => 0))) ∧
    (∀ x : SelArgs, Computes s g (.sel x) x.d x.ty.words
      (fun p => if s.rdP p x.c then s.rdN p x.a x.ty.words else s.rdN p x.b x.ty.words) (fun _ => 0))

/-- R105: bit i of LOP3's result is the truth table's bit at a[i] + 2 b[i] + 4 c[i]. -/
def ThreeInputLogic : Prop :=
  ∀ (s : State) (g : Group) (x : Lop3Args), Clear s g (.lop3 x) → x.d.fits (wide x.wide) →
    ∃ t v, exec (.lop3 x) s = .next t ∧
      Writes s t (s.participants g (.lop3 x)) x.d (wide x.wide) v none (fun _ => false) (fun _ => 0) ∧
      ∀ p i, i < 32 * wide x.wide → (v p).testBit i =
        x.tbl.getLsbD (((s.rdN p x.a (wide x.wide)).testBit i).toNat + 2 * ((s.rdN p x.b (wide x.wide)).testBit i).toNat +
          4 * ((s.rdN p x.c (wide x.wide)).testBit i).toNat)

end Sys2Proof

/-- R104, R105: `LogicResults` and `ThreeInputLogic`. -/
def Obligations.LogicAndShifts : Prop := LogicResults ∧ ThreeInputLogic

/-- R106: IADDI and IMULI compute with IMM sign-extended and saturate as R103 does; LOPI combines with it; MOVI writes it,
and MOVHI writes it to the odd register of the pair alone. -/
def Obligations.Immediates : Prop :=
  ∀ (s : State) (g : Group),
    (∀ x : ImmArgs,
      let ty := immTy x.wide x.sat
      let a (p : Nat) := intOf ty (s.rdN p x.a (wide x.wide))
      let r (v : Int) := narrow ty (x.sat ≠ .wrap) v
      Computes s g (.iaddi x) x.d (wide x.wide) (fun p => (r (a p + x.imm.toInt)).1) (fun p => (r (a p + x.imm.toInt)).2) ∧
      Computes s g (.imuli x) x.d (wide x.wide) (fun p => (r (a p * x.imm.toInt)).1)
        (fun p => (r (a p * x.imm.toInt)).2)) ∧
    (∀ x : LopiArgs,
      let k := wide x.wide
      let m := wrapNat x.imm.toInt (32 * k)
      Computes s g (.lopi x) x.d k (fun p => match x.op with
        | .and => s.rdN p x.a k &&& m
        | .or => s.rdN p x.a k ||| m
        | .xor => s.rdN p x.a k ^^^ m
        | .andn => s.rdN p x.a k &&& (2 ^ (32 * k) - 1 - m)) (fun _ => 0)) ∧
    (∀ x : MoviArgs, Computes s g (.movi x) x.d (wide x.wide) (fun _ => wrapNat x.imm.toInt (32 * wide x.wide))
      (fun _ => 0)) ∧
    (∀ x : MovhiArgs, Computes s g (.movhi x) (Reg.up x.d 1) 1 (fun _ => x.imm.toNat) (fun _ => 0))

/-- R107: LEA, BFE, BFI, POPC, CLZ, BREV and MOV. A bit field at or past the width, or of length 0, is empty: BFE
gives 0 and BFI leaves b. -/
def Obligations.BitFieldsAndMoves : Prop :=
  ∀ (s : State) (g : Group),
    (∀ x : LeaArgs, Computes s g (.lea x) x.d 2
      (fun p => wrapNat ((s.rdN p x.a 2 : Int) + intOf x.ty (s.rd p x.b).toNat * (2 : Int) ^ x.sh.val) 64) (fun _ => 0)) ∧
    (∀ x : Bin,
      let n := tyBits x.ty
      let pos (p : Nat) := (s.rd p x.b).toNat % 256
      let len (p : Nat) := min ((s.rd p x.b).toNat / 256 % 256) n
      let m (p : Nat) := min (pos p + len p) n - pos p
      let f (p : Nat) := s.rdN p x.a x.ty.words / 2 ^ pos p % 2 ^ m p
      Computes s g (.bfe x) x.d x.ty.words
        (fun p => if n ≤ pos p || len p = 0 then 0
          else if tySigned x.ty then wrapNat (signExt (f p) (m p)) n else f p) (fun _ => 0)) ∧
    (∀ x : Tern,
      let n := tyBits x.ty
      let b (p : Nat) := s.rdN p x.b x.ty.words
      let pos (p : Nat) := (s.rd p x.c).toNat % 256
      let len (p : Nat) := min ((s.rd p x.c).toNat / 256 % 256) n
      let m (p : Nat) := min (pos p + len p) n - pos p
      Computes s g (.bfi x) x.d x.ty.words
        (fun p => if n ≤ pos p || len p = 0 then b p
          else b p - b p / 2 ^ pos p % 2 ^ m p * 2 ^ pos p + s.rdN p x.a x.ty.words % 2 ^ m p * 2 ^ pos p) (fun _ => 0)) ∧
    (∀ x : Un,
      let n := tyBits x.ty
      let a (p : Nat) := s.rdN p x.a x.ty.words
      Computes s g (.popc x) x.d 1 (fun p => (upTo n).foldl (fun c i => c + ((a p).testBit i).toNat) 0) (fun _ => 0) ∧
      Computes s g (.clz x) x.d 1 (fun p => if a p = 0 then n else n - 1 - Nat.log2 (a p)) (fun _ => 0) ∧
      Computes s g (.brev x) x.d x.ty.words
        (fun p => (upTo n).foldl (fun v i => v + ((a p).testBit (n - 1 - i)).toNat * 2 ^ i) 0) (fun _ => 0) ∧
      Computes s g (.mov x) x.d x.ty.words a (fun _ => 0))

namespace Sys2Proof

/-- R108, R109, R111: ISETP compares its operands as integers of its type and combines the outcome with the
predicate in C; PSET looks three predicates up in its truth table. Only the destination predicate changes. -/
def IntegerPredicates : Prop :=
  ∀ (s : State) (g : Group),
    (∀ x : IsetpArgs,
      let a (p : Nat) := intOf x.ty (s.rdN p x.a x.ty.words)
      let b (p : Nat) := intOf x.ty (s.rdN p x.b x.ty.words)
      let c (p : Nat) : Bool := match x.cond with
        | .eq => decide (a p = b p)
        | .ne => decide (a p ≠ b p)
        | .lt => decide (a p < b p)
        | .le => decide (a p ≤ b p)
        | .gt => decide (b p < a p)
        | .ge => decide (b p ≤ a p)
      Tests s g (.isetp x) x.d (fun p => match x.comb with
        | .plain => c p
        | .and q => c p && s.rdP p q
        | .or q => c p || s.rdP p q
        | .xor q => c p != s.rdP p q
        | .andn q => c p && !s.rdP p q
        | .orn q => c p || !s.rdP p q
        | .not => !c p) (fun _ => 0)) ∧
    (∀ x : PsetArgs, Tests s g (.pset x) x.d
      (fun p => x.tbl.getLsbD ((s.rdP p x.a).toNat + 2 * (s.rdP p x.b).toNat + 4 * (s.rdP p x.c).toNat)) (fun _ => 0))

/-! ### Floating-point instructions (04 R110, R112 to R124) -/

/-- R112: FADD, FSUB, FMUL, FFMA and FSCALE round one exact result under the modifiers and raise its flags; FRND
rounds to an integral value first. -/
def FloatResults : Prop :=
  ∀ (s : State) (g : Group),
    let out (m : FMod) (r : FVal × BitVec 7) := roundTo m.ty m.rm m.sat m.ftz r.1
    let rd (p : Nat) (m : FMod) (r : Reg) := decodeF m.ty m.ftz (s.rdN p r m.ty.words)
    let rounds (i : Instr) (d : Reg) (m : FMod) (r : Nat → FVal × BitVec 7) :=
      Computes s g i d m.ty.words (fun p => (out m (r p)).1) (fun p => (out m (r p)).2 ||| (r p).2)
    (∀ x : FBin,
      rounds (.fadd x) x.d x.m (fun p => sumF x.m.rm false [rd p x.m x.a, rd p x.m x.b]) ∧
      rounds (.fsub x) x.d x.m (fun p => sumF x.m.rm false [rd p x.m x.a, (rd p x.m x.b).negate]) ∧
      rounds (.fmul x) x.d x.m (fun p => mulF (rd p x.m x.a) (rd p x.m x.b)) ∧
      rounds (.fscale x) x.d x.m (fun p => ((rd p x.m x.a).scale (s.rd p x.b).toInt, (rd p x.m x.a).sigFlag))) ∧
    (∀ x : FTern, rounds (.ffma x) x.d x.m (fun p => fmaF x.m.rm (rd p x.m x.a) (rd p x.m x.b) (rd p x.m x.c))) ∧
    (∀ x : FUn, rounds (.frnd x) x.d x.m (fun p => frndF x.m.rm (rd p x.m x.a)))

/-- R98: rounding an exact zero gives that zero and no flag; a value of 0 significand bits never traps. -/
def ZeroRoundsExactly : Prop :=
  ∀ (ty : Ty) (rm : Rm) (sat ftz neg : Bool) (e : Int),
    roundTo ty rm sat ftz (.fin neg 0 e) = ((fmtOf ty).signed neg 0, 0)

end Sys2Proof

/-- R98, R112: `FloatResults` and `ZeroRoundsExactly`. -/
def Obligations.FloatArithmetic : Prop := FloatResults ∧ ZeroRoundsExactly

namespace Sys2Proof

/-- R113: what FMIN, or with `mx` FMAX, delivers of two operands: the encoding of the lesser or the greater, −0 below
+0, of the one that is no NaN, or the canonical NaN of two. An operand is delivered as it stands, but for a zero, which a
subnormal is with .ftz. -/
def picked (s : State) (x : FMinMax) (mx : Bool) (p : Nat) : Nat :=
  let f := fmtOf x.ty
  let val (r : Reg) := decodeF x.ty x.ftz (s.rdN p r x.ty.words)
  let gives (r : Reg) : Nat := match val r with
    | .fin neg 0 _ => f.signed neg 0
    | _ => s.rdN p r x.ty.words % 2 ^ f.width
  let below (u v : FVal) : Bool := cmpF u v = .lt || (cmpF u v = .eq && u.neg && !v.neg)
  match (val x.a).isNan, (val x.b).isNan with
  | true, true => f.nan
  | true, false => gives x.b
  | false, true => gives x.a
  | false, false => if (if mx then below (val x.a) (val x.b) else below (val x.b) (val x.a)) then gives x.b else gives x.a

/-- R110, R113, R114: FMIN and FMAX deliver one of their operands' encodings as `picked` says, raising INVALID for a
signalling NaN; FCLASS writes a word with one bit set, the bit of its operand's class; FSETP combines its condition on the
order of its operands with the predicate in C, false or, for the conditions that R110 names, true when either is a NaN,
raising INVALID for a signalling one. -/
def FloatComparison : Prop :=
  ∀ (s : State) (g : Group),
    let rd (p : Nat) (ty : Ty) (ftz : Bool) (r : Reg) := decodeF ty ftz (s.rdN p r ty.words)
    (∀ x : FMinMax, x.ty = .f64 ∨ x.ty = .f32 ∨ x.ty = .f16 ∨ x.ty = .bf16 →
      let fl (p : Nat) := (rd p x.ty x.ftz x.a).sigFlag ||| (rd p x.ty x.ftz x.b).sigFlag
      Computes s g (.fmin x) x.d x.ty.words (picked s x false) fl ∧
      Computes s g (.fmax x) x.d x.ty.words (picked s x true) fl) ∧
    (∀ x : Un,
      let f := fmtOf x.ty
      Computes s g (.fclass x) x.d 1 (fun p => 2 ^ (match rd p x.ty false x.a with
        | .inf neg => if neg then 0 else 7
        | .nan sig => if sig then 8 else 9
        | .fin neg m e =>
          if m = 0 then (if neg then 3 else 4)
          else if e = f.qmin ∧ m < 2 ^ f.frac then (if neg then 2 else 5)
          else if neg then 1 else 6)) (fun _ => 0)) ∧
    (∀ x : FsetpArgs,
      let a (p : Nat) := rd p x.ty x.ftz x.a
      let b (p : Nat) := rd p x.ty x.ftz x.b
      let nan (p : Nat) : Bool := (a p).isNan || (b p).isNan
      let o (p : Nat) := cmpF (a p) (b p)
      let t (p : Nat) : Bool := match x.cond with
        | .eq => !nan p && o p = .eq
        | .ne => !nan p && o p != .eq
        | .lt => !nan p && o p = .lt
        | .le => !nan p && o p != .gt
        | .gt => !nan p && o p = .gt
        | .ge => !nan p && o p != .lt
        | .num => !nan p
        | .nan => nan p
        | .equ => nan p || o p = .eq
        | .neu => nan p || o p != .eq
        | .ltu => nan p || o p = .lt
        | .leu => nan p || o p != .gt
        | .gtu => nan p || o p = .gt
        | .geu => nan p || o p != .lt
      Tests s g (.fsetp x) x.d (fun p => match x.comb with
        | .plain => t p
        | .and q => t p && s.rdP p q
        | .or q => t p || s.rdP p q
        | .xor q => t p != s.rdP p q
        | .andn q => t p && !s.rdP p q
        | .orn q => t p || !s.rdP p q
        | .not => !t p) (fun p => (a p).sigFlag ||| (b p).sigFlag))

end Sys2Proof

/-- R108, R109, R110, R111, R113, R114: `IntegerPredicates` and `FloatComparison`. -/
def Obligations.Comparisons : Prop := IntegerPredicates ∧ FloatComparison

/-- R115, R116: HADD2, HMUL2 and HFMA2 complete with two 16-bit elements computed on their own and their flags joined; DOT4
and DOT2 complete with the exact sum of c and the products of their elements: of integer elements narrowed, or saturated
with .sat, to the 32-bit type of their sign, of floating ones rounded once to FP32, with the flags of the products, the sum
and the rounding. Which of its two sentences counts for a NaN beside infinities of both signs is the model's choice
(notes/assumptions/61.md). -/
def Obligations.PackedAndDots : Prop :=
  ∀ (s : State) (g : Group),
    let el (p : Nat) (m : FMod) (r : Reg) (i : Nat) := decodeF m.ty m.ftz ((s.rd p r).toNat / 2 ^ (16 * i) % 2 ^ 16)
    let pairs (i : Instr) (d : Reg) (m : FMod) (r : Nat → Nat → FVal × BitVec 7) :=
      let bits (p j : Nat) := roundTo m.ty m.rm m.sat m.ftz (r p j).1
      Computes s g i d 1 (fun p => (bits p 0).1 + (bits p 1).1 * 65536)
        (fun p => ((bits p 0).2 ||| (r p 0).2) ||| ((bits p 1).2 ||| (r p 1).2))
    (∀ x : HBin,
      pairs (.hadd2 x) x.d x.m
        (fun p i => sumF x.m.rm false [el p x.m x.a i, el p x.m x.b (bselElem x.sel i)]) ∧
      pairs (.hmul2 x) x.d x.m (fun p i => mulF (el p x.m x.a i) (el p x.m x.b (bselElem x.sel i)))) ∧
    (∀ x : HTern, pairs (.hfma2 x) x.d x.m
      (fun p i => fmaF x.m.rm (el p x.m x.a i) (el p x.m x.b (bselElem x.sel i)) (el p x.m x.c i))) ∧
    (∀ x : FTern,
      (x.m.ty = .s8 → Computes s g (.dot4 x) x.d 1
        (fun p => (narrow .s32 x.m.sat ((List.range 4).foldl (fun v i => v + signExt ((s.rd p x.a).toNat >>> (8 * i) % 2 ^ 8) 8 *
          signExt ((s.rd p x.b).toNat >>> (8 * i) % 2 ^ 8) 8) (signExt (s.rd p x.c).toNat 32))).1)
        (fun p => (narrow .s32 x.m.sat ((List.range 4).foldl (fun v i => v + signExt ((s.rd p x.a).toNat >>> (8 * i) % 2 ^ 8) 8 *
          signExt ((s.rd p x.b).toNat >>> (8 * i) % 2 ^ 8) 8) (signExt (s.rd p x.c).toNat 32))).2)) ∧
      (∃ v fl, Computes s g (.dot4 x) x.d 1 v fl) ∧ ∃ v fl, Computes s g (.dot2 x) x.d 1 v fl) ∧
    (∀ x : FTern,
      let part (p : Nat) (r : Reg) (n i : Nat) := (s.rd p r).toNat / 2 ^ (n * i) % 2 ^ n
      let ints (i : Instr) (n : Nat) (ty : Ty) :=
        let r (p : Nat) := narrow ty x.m.sat ((upTo (32 / n)).foldl
          (fun v i => v + intOf x.m.ty (part p x.a n i) * intOf x.m.ty (part p x.b n i)) (intOf ty (s.rd p x.c).toNat))
        Computes s g i x.d 1 (fun p => (r p).1) (fun p => (r p).2)
      let floats (i : Instr) (n : Nat) (ftz : Bool) :=
        let ps (p : Nat) := (upTo (32 / n)).map fun i =>
          mulF (decodeF x.m.ty ftz (part p x.a n i)) (decodeF x.m.ty ftz (part p x.b n i))
        let sum (p : Nat) := sumF x.m.rm false (decodeF .f32 x.m.ftz (s.rdN p x.c 1) :: (ps p).map (·.1))
        let out (p : Nat) := roundTo .f32 x.m.rm x.m.sat x.m.ftz (sum p).1
        Computes s g i x.d 1 (fun p => (out p).1) (fun p => (out p).2 ||| (ps p).foldl (fun f y => f ||| y.2) (sum p).2)
      (x.m.ty = .s8 → ints (.dot4 x) 8 .s32) ∧ (x.m.ty = .z8 → ints (.dot4 x) 8 .z32) ∧
      (x.m.ty = .e4m3 ∨ x.m.ty = .e5m2 → floats (.dot4 x) 8 false) ∧
      (x.m.ty = .s16 → ints (.dot2 x) 16 .s32) ∧ (x.m.ty = .z16 → ints (.dot2 x) 16 .z32) ∧
      (x.m.ty = .f16x2 ∨ x.m.ty = .bf16x2 → floats (.dot2 x) 16 x.m.ftz))

/-- R118, R119: the special functions complete on every operand. A NaN gives the canonical NaN, with INVALID when
it signals, and each function's results at infinities and zeros are those of the table of R119. -/
def Obligations.SpecialFunctions : Prop :=
  ∀ (s : State) (g : Group) (x : FUn),
    let a (p : Nat) := decodeF x.m.ty x.m.ftz (s.rdN p x.a x.m.ty.words)
    let out (r : FVal × BitVec 7) : Nat × BitVec 7 :=
      ((roundTo x.m.ty x.m.rm x.m.sat x.m.ftz r.1).1, (roundTo x.m.ty x.m.rm x.m.sat x.m.ftz r.1).2 ||| r.2)
    let nan : FVal × BitVec 7 := (.nan false, fInvalid)
    let zero (neg : Bool) : FVal × BitVec 7 := (.fin neg 0 0, 0)
    let one (neg : Bool) : FVal × BitVec 7 := (.fin neg 1 0, 0)
    let inf (neg : Bool) : FVal × BitVec 7 := (.inf neg, 0)
    let pole (neg : Bool) : FVal × BitVec 7 := (.inf neg, fDivzero)
    let rule (i : Instr) (atInf atZero : Bool → FVal × BitVec 7) : Prop :=
      ∃ v fl, Computes s g i x.d x.m.ty.words v fl ∧ ∀ p,
        (∀ sig, a p = .nan sig → v p = (fmtOf x.m.ty).nan ∧ fl p = if sig then fInvalid else 0) ∧
        (∀ neg, a p = .inf neg → (v p, fl p) = out (atInf neg)) ∧
        (∀ neg e, a p = .fin neg 0 e → (v p, fl p) = out (atZero neg))
    rule (.frcp x) zero pole ∧
    rule (.frsq x) (fun neg => if neg then nan else zero false) pole ∧
    rule (.fsqrt x) (fun neg => if neg then nan else inf false) zero ∧
    rule (.fexp2 x) (fun neg => if neg then zero false else inf false) (fun _ => one false) ∧
    rule (.flog2 x) (fun neg => if neg then nan else inf false) (fun _ => pole true) ∧
    rule (.fsin x) (fun _ => nan) zero ∧
    rule (.fcos x) (fun _ => nan) (fun _ => one false) ∧
    rule (.ftanh x) one zero

/-- R117, R120 to R124: CVT, QSCALE, PACK, UNPACK, FXAADD and FXACVT complete on every operand, with the registers they
write. FXAADD adds or subtracts its 128-bit sums, a result beyond ± (2^127 − 1) clamped. -/
def Obligations.Conversions : Prop :=
  ∀ (s : State) (g : Group),
    (∀ x : CvtArgs, Computes s g (.cvt x) x.d x.m.ty.words
      (fun p => (convertTo x.m (if tyFloat x.src then fInvalid else fSaturated) (typedVal s p x.src x.m.ftz x.a)).1)
      (fun p => (convertTo x.m (if tyFloat x.src then fInvalid else fSaturated) (typedVal s p x.src x.m.ftz x.a)).2)) ∧
    (∀ x : QscaleArgs, Computes s g (.qscale x) x.d 1
      (fun p => (qscaleOf x.big (decodeF x.ty false (s.rdN p x.a x.ty.words))).1)
      (fun p => (qscaleOf x.big (decodeF x.ty false (s.rdN p x.a x.ty.words))).2)) ∧
    (∀ x : PackArgs, Computes s g (.pack x) x.d 6
      (fun p => (packBlock x.rm ((s.rd p x.b).toNat % 65536) ((upTo 48).map (packSource x s p))).1)
      (fun p => (packBlock x.rm ((s.rd p x.b).toNat % 65536) ((upTo 48).map (packSource x s p))).2)) ∧
    (∀ x : UnpackArgs, ∃ v fl, Computes s g (.unpack x) x.d ((fmtOf x.m.ty).width / 2) v fl) ∧
    (∀ x : FxaaddArgs,
      let a (p : Nat) := fxaRead (s.rdN p x.a 4)
      let b (p : Nat) := fxaRead (s.rdN p x.b 4)
      let r (p : Nat) := fxaClamp (if x.sub then (a p).1 - (b p).1 else (a p).1 + (b p).1)
      Computes s g (.fxaadd x) x.d 4 (fun p => wrapNat (r p).1 128) (fun p => (a p).2 ||| (b p).2 ||| (r p).2)) ∧
    (∀ x : FxacvtArgs, ∃ v fl, Computes s g (.fxacvt x) x.d
      (match x.dir with | .out m => m.ty.words | .into _ _ => 4 | .anchor => 4) v fl)

/-! ### Lane collectives (04 R125 to R131) -/

/-- R126 to R131: SHFL, VOTE, MATCH, REDUX, ACTIVE and PRMT give every participant its result from the operands that all of
them hold before any is written. SHFL's source lane counts only if it participates. -/
def Obligations.LaneCollectives : Prop :=
  ∀ (s : State) (g : Group),
    (∀ x : ShflArgs,
      let ps := s.participants g (.shfl x)
      let src (p : Nat) := (shflLane x.mode (tidLane p) (s.rd p x.b)).bind (atLane ps)
      Clear s g (.shfl x) → x.d.fits x.ty.words →
        ∃ t v, exec (.shfl x) s = .next t ∧
          Writes s t ps x.d x.ty.words v (match x.c with | .found c => some c | .fallback _ => none)
            (fun p => (src p).isSome) (fun _ => 0) ∧
          ∀ p, (∀ u, src p = some u → v p = s.rdN u x.a x.ty.words) ∧
            (∀ r, src p = none → x.c = .fallback r → v p = s.rdN p r x.ty.words) ∧
            (∀ c, src p = none → x.c = .found c → v p = s.rdN p x.a x.ty.words)) ∧
    (∀ x : VoteArgs,
      let ps := s.participants g (.vote x)
      let ones := ps.filter fun t => s.rdP t x.a
      (∀ d, x.form = .all d → Tests s g (.vote x) d (fun _ => decide (ones = ps)) (fun _ => 0)) ∧
      (∀ d, x.form = .any d → Tests s g (.vote x) d (fun _ => decide (ones ≠ [])) (fun _ => 0)) ∧
      (∀ d, x.form = .same d → Tests s g (.vote x) d (fun _ => decide (ones = ps) || decide (ones = [])) (fun _ => 0)) ∧
      (∀ d, x.form = .mask d → Computes s g (.vote x) d 1 (fun _ => laneMask ones) (fun _ => 0)) ∧
      (∀ d, x.form = .count d → Computes s g (.vote x) d 1 (fun _ => ones.length) (fun _ => 0)) ∧
      (∀ d, x.form = .first d →
        Computes s g (.vote x) d 1 (fun _ => ones.foldl (fun m t => min m (tidLane t)) 32) (fun _ => 0))) ∧
    (∀ x : MatchArgs,
      let ps := s.participants g (.matchLanes x)
      let peers (p : Nat) := ps.filter fun u => s.rdN u x.a x.ty.words = s.rdN p x.a x.ty.words
      (x.form = .peers → Computes s g (.matchLanes x) x.d 1 (fun p => laneMask (peers p)) (fun _ => 0)) ∧
      (x.form = .rank → Computes s g (.matchLanes x) x.d 1
        (fun p => ((peers p).filter fun u => decide (tidLane u < tidLane p)).length) (fun _ => 0)) ∧
      (∀ c, x.form = .same c → Clear s g (.matchLanes x) → x.d.fits 1 →
        ∃ t, exec (.matchLanes x) s = .next t ∧
          Writes s t ps x.d 1 (fun p => if peers p = ps then laneMask ps else 0) (some c)
            (fun p => decide (peers p = ps)) (fun _ => 0))) ∧
    (∀ x : ReduxArgs,
      let ps := s.participants g (.redux x)
      let us (p : Nat) := if x.scan then ps.filter fun u => decide (tidLane u ≤ tidLane p) else ps
      (x.m.ty ≠ .f32 → Computes s g (.redux x) x.d x.m.ty.words
        (fun p => (reduxInt x.op x.m.ty x.m.sat ((us p).map fun u => intOf x.m.ty (s.rdN u x.a x.m.ty.words))).1)
        (fun p => (reduxInt x.op x.m.ty x.m.sat ((us p).map fun u => intOf x.m.ty (s.rdN u x.a x.m.ty.words))).2)) ∧
      (x.m.ty = .f32 → Computes s g (.redux x) x.d 1
        (fun p => (reduxF32 x.op x.m ((us p).map fun u => decodeF .f32 x.m.ftz (s.rdN u x.a 1))).1)
        (fun p => (reduxF32 x.op x.m ((us p).map fun u => decodeF .f32 x.m.ftz (s.rdN u x.a 1))).2))) ∧
    (∀ x : ActiveArgs, Computes s g (.active x) x.d 1
      (fun _ => laneMask (if x.part then s.participants g (.active x) else g.members)) (fun _ => 0)) ∧
    (∀ x : PrmtArgs,
      let pool (p : Nat) := (s.rd p x.a).toNat + (s.rd p x.b).toNat * 2 ^ 32
      let c (p : Nat) := (s.rd p x.c).toNat
      let byte (p j : Nat) : Nat :=
        if (c p).testBit (12 + j) then (if (c p).testBit 16 then 255 else 0)
        else pool p >>> (8 * ((c p >>> (3 * j)) % 2 ^ 3)) % 2 ^ 8
      Computes s g (.prmt x) x.d 1 (fun p => (List.range 4).foldl (fun v j => v + byte p j * 256 ^ j) 0) (fun _ => 0))

/-! ### Going on, branches and ends (10 R271 to R296) -/

namespace Sys2Proof

/-- R271, R276: an instruction that goes on stands its group at the next index; at the clause's end the group is gone and
every member is ready at the next clause, having yielded if the clause or a YIELD said so. Nothing else changes. -/
def AdvanceMovesOn : Prop :=
  ∀ (s : State) (g : Group), s.cur = some g →
    Kept s s.advance ∧
    (g.idx < hdrN g.hdr →
      s.advance.cur = some { g with idx := g.idx + 1, blocked := false, stalled := false, part := [] }) ∧
    (hdrN g.hdr ≤ g.idx → s.advance.cur = none ∧
      ∀ m ∈ g.members, (s.advance.thread m).pc = g.pc + BitVec.ofNat 64 (8 * (hdrN g.hdr + 2)) ∧
        (s.advance.thread m).idx = 0 ∧ (s.advance.thread m).st = .ready ∧
        (s.advance.thread m).yielded = if g.yielding || hdrYld g.hdr then some s.cyc else none)

/-- R276, R286, R288: NOP does nothing; YIELD notes that its clause gives way; WAITC goes on once every counter of
every participant is at its threshold or the threshold is 63; KMOV.mem and KMOV.arr read M and V of a lane-mask
register. -/
def SimpleForms : Prop :=
  ∀ (s : State) (g : Group),
    (∀ x : G, Completes s g (.nop x) s.advance) ∧
    (∀ x : G, Completes s g (.yield x)
      (if s.participants g (.yield x) = [] then s.advance else { s with cur := some { g with yielding := true } }.advance)) ∧
    (∀ x : WaitcArgs,
      (∀ p ∈ s.participants g (.waitc x),
        (x.ld = 63 ∨ (s.thread p).ld ≤ x.ld.toNat) ∧ (x.st = 63 ∨ (s.thread p).stc ≤ x.st.toNat) ∧
        (x.cp = 63 ∨ (s.thread p).cp ≤ x.cp.toNat) ∧ (x.tl = 63 ∨ (s.thread p).tl ≤ x.tl.toNat)) →
      Completes s g (.waitc x) s.advance) ∧
    (∀ x : KmovD,
      Computes s g (.kmovMem x) x.d 1 (fun p => (s.kset (tidFlock p) x.k).m.toNat) (fun _ => 0) ∧
      Computes s g (.kmovArr x) x.d 1 (fun p => (s.kset (tidFlock p) x.k).v.toNat) (fun _ => 0))

end Sys2Proof

/-- R271, R276, R286, R288: `AdvanceMovesOn` and `SimpleForms`. -/
def Obligations.SimpleControl : Prop := AdvanceMovesOn ∧ SimpleForms

namespace Sys2Proof

/-- R281: a meeting whose arrivals are all its members, and not none, empties its arrivals. -/
def met (x : KSet) : KSet := if x.m ≠ 0 ∧ x.v = x.m then { x with v := 0 } else x

/-- R281, R282, R285, R286: JOIN enters the participants' lanes in M, and LEAVE takes each of them out of M and V in
ascending lane order; KMOV.set writes M from the lowest participant and keeps of V what M holds; KMOV.clr empties both; a
meeting that LEAVE or KMOV.set makes complete has its V emptied. None of them changes memory, and without a participant
each only goes on. -/
def LaneMaskRegisters : Prop :=
  ∀ (s : State) (g : Group),
    (∀ x : KArgs, Clear s g (.join x) → ∃ t, exec (.join x) s = .next t ∧ t.mem = s.mem ∧
      { t with cur := s.cur, threads := s.threads, flocks := s.flocks } = s ∧
      ∀ f k, (t.kset f k).v = (s.kset f k).v ∧ ∀ i < 32, (t.kset f k).m.getLsbD i =
        ((s.kset f k).m.getLsbD i || decide (k = x.k) &&
          (s.participants g (.join x)).any fun p => decide (tidFlock p = f) && decide (tidLane p = i))) ∧
    (∀ x : KArgs, Completes s g (.leave x)
      ((s.participants g (.leave x)).foldl (fun s t => s.leaveK t x.k) s).advance) ∧
    (∀ x : KArgs, Clear s g (.leave x) → ∃ t, exec (.leave x) s = .next t ∧ t.mem = s.mem) ∧
    (∀ x : KArgs, s.participants g (.join x) = [] → Completes s g (.join x) s.advance) ∧
    (∀ t k, (s.leaveK t k).mem = s.mem ∧ (s.leaveK t k).kset (tidFlock t) k =
      met ⟨(s.kset (tidFlock t) k).m &&& ~~~State.laneBit t, (s.kset (tidFlock t) k).v &&& ~~~State.laneBit t⟩) ∧
    (∀ (x : KmovA) (p : Nat), (s.participants g (.kmovSet x)).head? = some p → Clear s g (.kmovSet x) →
      ∃ t, exec (.kmovSet x) s = .next t ∧ t.mem = s.mem ∧ t.kset (tidFlock p) x.k =
        met ⟨s.rd p x.a, (s.kset (tidFlock p) x.k).v &&& s.rd p x.a⟩) ∧
    (∀ x : KmovA, s.participants g (.kmovSet x) = [] → Completes s g (.kmovSet x) s.advance) ∧
    (∀ (x : KArgs) (p : Nat), (s.participants g (.kmovClr x)).head? = some p → Clear s g (.kmovClr x) →
      ∃ t, exec (.kmovClr x) s = .next t ∧ t.mem = s.mem ∧ t.kset (tidFlock p) x.k = ⟨0, 0⟩) ∧
    (∀ x : KArgs, s.participants g (.kmovClr x) = [] → Completes s g (.kmovClr x) s.advance)

/-- R283: a WAITM that stands last in its clause lets its participants arrive in ascending lane order, after which the
group goes on, or is blocked if one of its members waits; elsewhere it is illegal in every member. A lane outside M has
status 2 at once; the arrival that completes the meeting empties V and does not wait; any other with an exponent above 0
arrives and blocks, and with exponent 0 it is withdrawn again and does not wait. -/
def Meetings : Prop :=
  ∀ (s : State) (g : Group) (x : WaitmArgs),
    (g.idx = hdrN g.hdr → Completes s g (.waitm x) (releaseFlock
      ((s.participants g (.waitm x)).foldl (waitmOne x (s.participants g (.waitm x))) s).goOn)) ∧
    (s.cur = some g → s.frozen g = false → g.idx ≠ hdrN g.hdr → (∀ m ∈ g.members, (s.thread m).errs = []) →
      exec (.waitm x) s = .next (g.members.foldl (fun s t => s.trap t tcIllegalInsn 0) s)) ∧
    (∀ h, s.cur = some h → ((∀ m ∈ h.members, (s.thread m).wait = none) → s.goOn = s.advance) ∧
      ((∃ m ∈ h.members, (s.thread m).wait ≠ none) → s.goOn.cur = some { h with blocked := true, stalled := false })) ∧
    ∀ ps t, let r := waitmOne x ps s t
      let k := s.kset (tidFlock t) x.k
      r.mem = s.mem ∧
      (k.m &&& State.laneBit t = 0 → r = s.status t (State.statusReg x.d ps t) 2) ∧
      (k.m &&& State.laneBit t ≠ 0 → k.v ||| State.laneBit t = k.m →
        r.kset (tidFlock t) x.k = ⟨k.m, 0⟩ ∧ (r.thread t).wait = none) ∧
      (k.m &&& State.laneBit t ≠ 0 → k.v ||| State.laneBit t ≠ k.m → x.e = 0 →
        r.kset (tidFlock t) x.k = ⟨k.m, k.v &&& ~~~State.laneBit t⟩ ∧ (r.thread t).wait = none) ∧
      (k.m &&& State.laneBit t ≠ 0 → k.v ||| State.laneBit t ≠ k.m → x.e ≠ 0 →
        r.kset (tidFlock t) x.k = ⟨k.m, k.v ||| State.laneBit t⟩ ∧ (r.thread t).st = .blocked ∧
        (r.thread t).wait.map (·.kind) = some (.meet x.k.val))

end Sys2Proof

/-- R281, R282, R283, R285, R286: `LaneMaskRegisters` and `Meetings`. -/
def Obligations.LaneMasksAndMeetings : Prop := LaneMaskRegisters ∧ Meetings

namespace Sys2Proof

/-- A branch with its hint, whether it links, and each participant's target (R278): BRA and CALL add eight times their
offset to the clause's address, BRX and CALLX read a register pair, RET the link pair. -/
def isBranch (s : State) (g : Group) (i : Instr) (hint : BrHint) (link : Bool) (target : Nat → W64) : Prop :=
  match i with
  | .bra x => hint = x.hint ∧ link = false ∧ target = fun _ => g.pc + BitVec.ofInt 64 (x.tgt.toInt * 8)
  | .call x => hint = x.hint ∧ link = true ∧ target = fun _ => g.pc + BitVec.ofInt 64 (x.tgt.toInt * 8)
  | .brx x => hint = x.hint ∧ link = false ∧ target = fun t => s.rd64 t x.a
  | .callx x => hint = x.hint ∧ link = true ∧ target = fun t => s.rd64 t x.a
  | .ret x => hint = x.hint ∧ link = false ∧ target = fun t => s.rd64 t (linkReg s t)
  | _ => False

end Sys2Proof

/-- R278 to R280: BRA, BRX, CALL, CALLX and RET end the clause: each participant is ready at its target and the
others at the next clause; a call writes the next clause's address to its participants' link pairs. No memory,
predicate or other register changes. A .uniform branch whose members part ways traps in checked mode. -/
def Obligations.Branches : Prop :=
  ∀ (s : State) (g : Group) (i : Instr) (hint : BrHint) (link : Bool) (target : Nat → W64),
    isBranch s g i hint link target →
    let ps := s.participants g i
    let fall := g.pc + BitVec.ofNat 64 (8 * (hdrN g.hdr + 2))
    let goes (m : Nat) := if m ∈ ps then target m else fall
    Clear s g i →
    ((∀ p ∈ ps, (target p).toNat % 8 = 0) →
      (hint = .uniform → s.checkedMode g = true → ∀ a ∈ g.members, ∀ b ∈ g.members, goes a = goes b) →
      ∃ t, exec i s = .next t ∧ t.cur = none ∧
        { t with cur := s.cur, threads := s.threads, flocks := s.flocks } = s ∧
        (∀ m ∈ g.members, (t.thread m).pc = goes m ∧ (t.thread m).idx = 0 ∧ (t.thread m).st = .ready) ∧
        (∀ q c, t.rdP q c = s.rdP q c) ∧
        (link = true → ∀ p ∈ ps, (linkReg s p).fits 2 → t.rdN p (linkReg s p) 2 = fall.toNat) ∧
        (∀ q r, (link = true → ∀ p ∈ ps, ∀ j < 2, regCell q r ≠ regCell p (Reg.up (linkReg s p) j)) →
          t.rd q r = s.rd q r)) ∧
    (hint = .uniform → s.checkedMode g = true → (∃ a ∈ g.members, ∃ b ∈ g.members, goes a ≠ goes b) →
      exec i s = .next (g.members.foldl (fun s t => s.trap t tcUniformity 0) s))

namespace Sys2Proof

/-- R294, R295: EXIT, or with `cont` CONT, of a group of one workgroup whose participants have nothing outstanding. While
another thread of the workgroup has not ended, each participant has ended, and CONT has committed the workgroup; where
the participants are all of the workgroup that had not ended, and it does not go on, the workgroup's threads are gone.
Memory stands. -/
def EndsThreads (s : State) (g : Group) (cont : Bool) (i : Instr) : Prop :=
  let ps := s.participants g i
  let mine (x : Nat × Thread) : Prop := x.2.wg = g.wg
  Clear s g i → g.part = [] → (∀ m ∈ g.members, (s.thread m).wg = g.wg) → (∀ p ∈ ps, s.mayEnd p = true) →
    ((∃ q y, tget s.threads q = some y ∧ y.wg = g.wg ∧ y.st ≠ .ended ∧ q ∉ ps) → ∃ t, exec i s = .next t ∧ t.mem = s.mem ∧
      ∀ p ∈ ps, (t.thread p).st = .ended ∧ (cont = true → (t.wg g.wg).committed = true)) ∧
    (ps = g.members → ps ≠ [] → (s.wg g.wg).id = g.wg → (∀ x ∈ s.threads, mine x → x.1 ∈ ps ∨ x.2.st = .ended) →
      (cont = false ∧ (∀ x ∈ s.threads, mine x → x.2.contd = false) ∨ (s.wg g.wg).contrec = 0) →
      ∃ t, exec i s = .next t ∧ t.mem = s.mem ∧ ∀ x ∈ t.threads, ¬ mine x)

/-- R285, R294, R295: one thread's end. It waits for its loads, stores and signatures, its workgroup's copies and a
release at .pkg, sending its buffered stores meanwhile; then it has ended, stands in no group, and CONT commits its
workgroup. -/
def OneThreadEnds : Prop :=
  ∀ (s : State) (cont : Bool) (t : Nat), isCp t = false →
    (s.mayEnd t = true ↔ (s.thread t).ld = 0 ∧ (s.thread t).stc = 0 ∧ (s.thread t).tl = 0 ∧
      s.wgCopies (s.thread t).wg = false ∧ s.releaseWaits t .pkg = false) ∧
    (s.mayEnd t = false → State.endThread cont s t = (s.sendOwn t, false)) ∧
    (s.mayEnd t = true → s.contAbsent t cont = true → State.endThread cont s t = (s.sendOwn t, false)) ∧
    (s.mayEnd t = true → s.contAbsent t cont = false → ∃ u : State,
      State.endThread cont s t = (u.wgEnded (s.thread t).wg, true) ∧ u.mem = s.mem ∧
      (u.thread t).st = .ended ∧ (∀ h ∈ u.groups, t ∉ h.members) ∧
      (cont = true → (u.wg (s.thread t).wg).committed = true))

end Sys2Proof

/-- R285, R294, R295: EXIT and CONT end their participants in ascending lane order as `EndsThreads` and `OneThreadEnds`
say. Without a participant each only goes on, and while its first participant has something outstanding the group is
held. -/
def Obligations.ThreadsEnd : Prop :=
  OneThreadEnds ∧
  ∀ (s : State) (g : Group) (x : G),
    EachCompletes s g (.exit x) (fun _ => State.endThread false) ∧
    EachCompletes s g (.cont x) (fun _ => State.endThread true) ∧
    EndsThreads s g false (.exit x) ∧ EndsThreads s g true (.cont x) ∧
    ∀ i : Instr, i = .exit x ∨ i = .cont x →
      (s.participants g i = [] → Completes s g i s.advance) ∧
      ∀ p, (s.participants g i).head? = some p → g.part = [] → s.mayEnd p = false →
        Completes s g i (s.sendOwn p).stall

/-! ### Traps and handlers (14 R383 to R387) -/

namespace Sys2Proof

/-- R383, R385, R386: a trap in a kernel thread parks it with its record and takes it out of its group, leaving its
registers and memory as they are; a thread in handler mode is killed with its context for reason 3, and one of a
context without a handler for reason 2, be the trap a breakpoint that the debugger takes or not. -/
def TrapParks : Prop :=
  ∀ (s : State) (t : Nat) (r : TrapRec), isCp t = false → s.hasThread t = true →
    let code := (r.tcode.extractLsb' 0 8).toNat
    let h := (s.ctx (s.ctxOf t)).words.handlerPc
    let u := s.trapWith t r
    code ≠ tcPoison →
    ((s.thread t).handler = true → u = s.kill (s.ctxOf t) 3 code 7 0 r.tpc) ∧
    ((s.thread t).handler = false → h = 0 → u = s.kill (s.ctxOf t) 2 code 7 0 r.tpc) ∧
    ((s.thread t).handler = false → h ≠ 0 →
      (u.thread t).st = .parked ∧ (u.thread t).trapped = true ∧ (u.thread t).trap = r ∧
      (u.thread t).handler = false ∧ (u.thread t).g = (s.thread t).g ∧ (u.thread t).p = (s.thread t).p ∧
      u.mem = s.mem ∧ (∀ g, u.cur = some g → t ∉ g.members) ∧ ∀ g ∈ u.groups, t ∉ g.members)

/-- R296: BKPT and TRAP trap every participant with the instruction's code in IMM of its trap record, at the
instruction's own clause and index. -/
def SoftwareTraps : Prop :=
  ∀ (s : State) (g : Group) (i : Instr) (code : Nat) (imm : BitVec 16),
    (∃ x : CodeArgs, imm = x.code ∧ (i = .bkpt x ∧ code = tcBreakpoint ∨ i = .trap x ∧ code = tcSoftware)) →
    Clear s g i →
    (∀ p ∈ s.participants g i, s.hasThread p = true ∧ (s.thread p).handler = false ∧
      (s.ctx (s.ctxOf p)).words.handlerPc ≠ 0) →
    ∃ t, exec i s = .next t ∧ t.mem = s.mem ∧ ∀ p ∈ s.participants g i,
      (t.thread p).st = .parked ∧ (t.thread p).trapped = true ∧
      (t.thread p).trap = { tcode := BitVec.ofNat 32 (code + imm.toNat * 2 ^ 16), tpc := g.pc, tidx := BitVec.ofNat 32 g.idx,
                            taddr := 0, tapc := g.pc, tinfo := 0 }

end Sys2Proof

/-- R296, R383, R385, R386: `TrapParks` and `SoftwareTraps`. -/
def Obligations.TrapEntry : Prop := TrapParks ∧ SoftwareTraps

/-- R385, R387: the parked threads of a workgroup enter handler mode at their context's handler; ERET takes its
participants out of it, to the trapped instruction or, with .skip, past it. Bits [2:0] of an address in HANDLER or %tpc
do not count, which is the model's reading (notes/assumptions/54.md). -/
def Obligations.HandlerEntryAndReturn : Prop :=
  ∀ (s : State) (g : Group),
    (∀ w t, t ∈ s.threads.map (·.1) → (s.thread t).wg = w → (s.thread t).st = .parked → (s.thread t).trapped = true →
      (s.thread t).handler = false →
      let u := (s.enterHandler w).thread t
      u.handler = true ∧ u.st = .ready ∧ u.pc = State.clauseAddr (s.ctx (s.wg w).ctx).words.handlerPc ∧ u.idx = 0 ∧
        u.trap = (s.thread t).trap) ∧
    (∀ (skip : Bool) (x : G),
      let i : Instr := if skip then .eretSkip x else .eret x
      (∀ p ∈ s.participants g i, (s.thread p).handler = true ∧ s.retryOf p skip = none) →
      Completes s g i ((s.participants g i).foldl
        (fun u p => u.leaveHandler p (u.resumePoint p skip).1 (u.resumePoint p skip).2) s).advance) ∧
    (∀ t pc i, let u := (s.leaveHandler t pc i).thread t
      u.handler = false ∧ u.trapped = false ∧ u.st = .ready ∧ u.pc = State.clauseAddr pc ∧ u.idx = i) ∧
    (∀ t, let r := (s.thread t).trap
      let pc := State.clauseAddr r.tpc
      s.resumePoint t false = (pc, r.tidx.toNat % 16) ∧
      (∀ n, r.tcode.getLsbD 9 = false → r.tcode.getLsbD 8 = false → s.headerAt t pc = some n →
        s.resumePoint t true = if r.tidx.toNat % 16 = n then (pc + BitVec.ofNat 64 (8 * (n + 2)), 0)
          else (pc, r.tidx.toNat % 16 + 1)) ∧
      (r.tcode.getLsbD 9 = true ∨ r.tcode.getLsbD 8 = true → s.resumePoint t true = (pc, r.tidx.toNat % 16)))

/-! ### Barriers (10 R289 to R293) -/

namespace Sys2Proof

/-- A barrier instruction whose register is resident or can be made so lets each participant act in ascending lane
order, and goes on or blocks. -/
def BarCompletes (s : State) (g : Group) (i : Instr) (bar : Bar) (act : List Nat → State → Nat → Nat → State) : Prop :=
  (s.participants g i = [] → Completes s g i s.goOn) ∧
  ∀ p u, (s.participants g i).head? = some p → s.needBar (s.barKey p bar) = some u →
    Completes s g i ((s.participants g i).foldl
      (fun v t => if v.stands t then act (s.participants g i) v t (v.barKey t bar) else v) u).goOn

/-- R289 to R293: BARI sets a register's count; BARA and BARAW arrive as `BarrierArrivals` says; BARW has status 2 at a
register without a count and otherwise waits on the phase that its operand names; BARQ reads P, and BARQ.st the status
word. -/
def BarriersAct : Prop :=
  ∀ (s : State) (g : Group),
    (∀ x : BariArgs, BarCompletes s g (.bari x) x.bar fun _ s t k =>
      (s.setBar k { s.bar k with count := (s.rd t x.a).toNat % 2 ^ 14 }).settleBar k) ∧
    (∀ x : BarD, BarCompletes s g (.bara x) x.bar fun ps s t k => baraOne s t k (State.statusReg x.d ps t)) ∧
    (∀ x : BarwArgs, BarCompletes s g (.barw x) x.bar fun ps v t k =>
      if (v.bar k).count = 0 then v.status t (State.statusReg x.d ps t) 2
      else v.waitPhase t k (s.rd t x.a) (State.statusReg x.d ps t) x.e) ∧
    (∀ x : BarawArgs, BarCompletes s g (.baraw x) x.bar fun ps s t k =>
      barawOne s t k (State.statusReg x.d ps t) x.e) ∧
    (∀ x : BarD, BarCompletes s g (.barq x) x.bar fun ps s t k =>
      s.wrD t (State.statusReg x.d ps t) 1 (s.bar k).p.toNat) ∧
    (∀ x : BarD, BarCompletes s g (.barqSt x) x.bar fun ps s t k =>
      s.wrD t (State.statusReg x.d ps t) 1 (barWord (s.bar k)))

/-- R289, R290, R292: an arrival adds one to its register's n and changes nothing else; the arrival that reaches the
count of a phase without signatures completes it, so that P rises, n is 0, the phase's error record stands as the last
phase's, and each thread that waits on a phase passed goes on, with status 0 or the trap recorded for the phase it
awaited. BARA writes P as it stood, or all ones where an arrival may not be made, and BARAW then has status 2. A wait on a
phase that has not passed has status 1 at exponent 0 and blocks otherwise, and one on a phase that has passed without an
error has status 0 at once. -/
def BarrierArrivals : Prop :=
  ∀ (s : State) (t k : Nat) (d : Reg) (e : TExp),
    let b := s.bar k
    let next := { b with p := b.p + 1, n := 0, sig := false, signers := [], held := [], err := b.cur, cur := none }
    (¬(0 < b.count ∧ b.count ≤ b.n + 1 ∧ b.sig = false) → s.arrive k = s.setBar k { b with n := b.n + 1 }) ∧
    (0 < b.count → b.count ≤ b.n + 1 → b.sig = false → s.arrive k = (s.setBar k { b with n := b.n + 1 }).nextPhase k) ∧
    s.nextPhase k = (s.threads.map (·.1)).foldl (fun v u => v.wakePhase k u) (s.setBar k next) ∧
    ((∀ x ∈ s.threads, ∀ y p, x.2.wait = some y → y.kind ≠ .phase k p) → s.nextPhase k = s.setBar k next) ∧
    (∀ y p, (s.thread t).wait = some y → y.kind = .phase k p →
      (¬(1 ≤ (b.p - p).toNat ∧ (b.p - p).toNat < 2 ^ 31) → s.wakePhase k t = s) ∧
      (1 ≤ (b.p - p).toNat → (b.p - p).toNat < 2 ^ 31 →
        (b.p ≠ p + 1 ∨ b.err = none → s.wakePhase k t = s.endWait t 0) ∧
        (∀ r, b.p = p + 1 → b.err = some r → s.wakePhase k t =
          (s.dropWait t).trapWith t (errRec r (s.placeOf t).1 (s.placeOf t).2 false)))) ∧
    (b.count = 0 ∨ (b.sig = true ∧ 0 < b.n) →
      baraOne s t k d = s.wrD t d 1 (2 ^ 32 - 1) ∧ barawOne s t k d e = s.status t d 2) ∧
    (0 < b.count → b.sig = false ∨ b.n = 0 →
      baraOne s t k d = (s.wrD t d 1 b.p.toNat).arrive k ∧ barawOne s t k d e = (s.arrive k).waitPhase t k b.p d e) ∧
    (∀ p : W32, (b.p - p = 0 ∨ 2 ^ 31 ≤ (b.p - p).toNat) →
      s.waitPhase t k p d e = if e = 0 then s.status t d 1 else s.startWait t (.phase k p) d e) ∧
    (∀ p : W32, 1 ≤ (b.p - p).toNat → (b.p - p).toNat < 2 ^ 31 → b.p ≠ p + 1 ∨ b.err = none →
      let u := s.waitPhase t k p d e
      (u.thread t).wait = none ∧ u.mem = s.mem ∧ (d ≠ .zero → d.fits 1 → u.rdN t d 1 = 0))

end Sys2Proof

/-- R289, R290, R292, R293: `BarriersAct` and `BarrierArrivals`. -/
def Obligations.BarrierInstructions : Prop := BarriersAct ∧ BarrierArrivals

/-! ### Memory instructions (07 R198 to R221) -/

namespace Sys2Proof

/-- R198, R43, R166: a misaligned address traps before anything else; a kernel thread's global address that is not canonical
is an invalid page; a scratch access lies within its workgroup's tiles or traps, and one of a team window traps where a
bit above its core's field is set. -/
def SpanChecks : Prop :=
  ∀ (s : State) (t n : Nat),
    (∀ (va : W64) (write form : Bool),
      (va.toNat % n ≠ 0 → s.checkGlobal t va n write form = .trap tcMisaligned va) ∧
      (va.toNat % n = 0 → isCp t = false → canonical va = false →
        s.checkGlobal t va n write form = .trap tcPageInvalid va)) ∧
    (∀ a : W32,
      (∀ team, a.toNat % n ≠ 0 → s.checkScratch t a n team = .trap tcMisaligned (a.zeroExtend 64)) ∧
      (a.toNat % n = 0 → 2 ^ 22 ≤ a.toNat → s.checkScratch t a n true = .trap tcScratchBounds (a.zeroExtend 64)) ∧
      (a.toNat % n = 0 → (s.wgOf t).tiles * 4096 < a.toNat + n →
        s.checkScratch t a n false = .trap tcScratchBounds (a.zeroExtend 64)) ∧
      (a.toNat % n = 0 → a.toNat + n ≤ (s.wgOf t).tiles * 4096 →
        s.checkScratch t a n false = .ok (.scratch (s.wgOf t).id a.toNat) s))

/-- R360 to R362: a translation that stands changes memory at most in the eight bytes of its leaf, and beside it only the
translation buffers; a write to a page without W, and a fetch from one without X, is a protection fault. -/
def TranslationTouches : Prop :=
  ∀ (s : State) (core c : Nat) (va : W64) (write exec : Bool),
    (∀ x u, s.translate core c va write exec = .ok x u →
      { u with mem := s.mem, cores := s.cores, quads := s.quads } = s ∧
      (∀ k, { u.core k with tlb := (s.core k).tlb } = s.core k) ∧
      (∀ k, { u.quad k with tlb := (s.quad k).tlb } = s.quad k) ∧
      ∀ a, mget u.mem a ≠ mget s.mem a → ∃ l, s.walk c va = .ok l ∧ l.entPa ≤ a ∧ a < l.entPa + 8) ∧
    (∀ l, canonical va = true → State.tlbFind (s.core core).tlb c (va.toNat % 2 ^ 56) = none →
      State.tlbFind (s.quad (coreQuad core)).tlb c (va.toNat % 2 ^ 56) = none → s.walk c va = .ok l → l.ent.getLsbD 1 = true →
      (write = true ∧ l.ent.getLsbD 2 = false ∨ exec = true ∧ l.ent.getLsbD 3 = false) →
      s.translate core c va write exec = .fault tcProtection)

end Sys2Proof

/-- R43, R166, R198, R360, R362: `SpanChecks` and `TranslationTouches`. -/
def Obligations.AddressChecks : Prop := SpanChecks ∧ TranslationTouches

namespace Sys2Proof

/-- The state `r` has one more outstanding access than `s`, under the next identity; those under any other stand. -/
def oneMore (s r : State) (P : Access → Prop) : Prop :=
  (∃ a ∈ r.accs, a.id = s.fresh ∧ P a) ∧
    (r.accs.filter fun b => b.id ≠ s.fresh) = s.accs.filter fun b => b.id ≠ s.fresh

/-- The state `r` after one access of thread `t` has left `s`: it is outstanding, counted once on `k`; every other access,
memory, registers and predicates stand. -/
def sendsAccess (s r : State) (t : Nat) (k : Ctr) (P : Access → Prop) : Prop :=
  oneMore s r (fun a => a.tids = [t] ∧ P a) ∧ r.mem = s.mem ∧ (r.thread t).ctr k = (s.thread t).ctr k + 1 ∧
    (∀ q c, r.rd q c = s.rd q c) ∧ ∀ q c, r.rdP q c = s.rdP q c

/-- The same for an ordered operation (R190, R224), under the next identity but one: its source's time is its stamp. -/
def sendsOrdered (s r : State) (t : Nat) (k : Ctr) (P : Access → Prop) : Prop :=
  (∃ o ∈ r.ords, ∃ a, o.id = s.fresh + 1 ∧ o.work = .access a ∧ o.st = .sent ∧ o.src = tidCore t ∧
    o.rank.stamp = s.clock (tidCore t) ∧ a.tids = [t] ∧ P a) ∧
    (r.ords.filter fun b => b.id ≠ s.fresh + 1) = (s.ords.filter fun b => b.id ≠ s.fresh + 1) ∧ r.accs = s.accs ∧
    r.mem = s.mem ∧ (r.thread t).ctr k = (s.thread t).ctr k + 1 ∧
    (∀ q c, r.rd q c = s.rd q c) ∧ ∀ q c, r.rdP q c = s.rdP q c

/-- What context `c` sends to an address leaves the package's core: the address is this package's, or one of another node
that the tenant may reach (R375), or one of a host whose queue pair works (R408). -/
def Reaches (s : State) (c pa : Nat) : Prop :=
  s.isLocal pa = true ∨ (State.isHost pa = false ∧ s.fabricOk (s.ctxTenant c) (State.portTo pa) = true) ∨
    (State.isHost pa = true ∧ (s.vd (s.ctxVd c)).dead.contains (pa / 2 ^ 48 % 16) = false)

end Sys2Proof

/-- R203, R207, R211, R212: LD, STBQ, ATOM, RED and CAS leave their core with their operands as they stood when the
instruction issued, and write nothing until they complete; the ordered forms leave with a stamp. Each is issued once its
checks pass and nothing holds it. An STBQ to this package's memory that is refused at once has status 1 and sends
nothing. -/
def Obligations.AccessesLeave : Prop :=
  ∀ (s : State) (g : Group),
    (∀ x : LdArgs, MemCompletes s g (.ld x) (ldChk x) (fun _ _ _ => false) State.anyRoom x.acq none (ldAct x)) ∧
    (∀ x : StbqArgs, MemCompletes s g (.stbq x) (stbqChk x) (stbqHold x) State.anyRoom none none (stbqAct x)) ∧
    (∀ x : AtomArgs, MemCompletes s g (.atom x) (atomChk x) (atomHold x.aty x.ord) (State.ordPlaces · x.ord)
      (syncAcq x.sync) (syncRel x.sync) (atomAct x)) ∧
    (∀ x : RedArgs, MemCompletes s g (.red x) (redChk x) (atomHold x.aty x.ord) (State.ordPlaces · x.ord)
      (syncAcq x.sync) (syncRel x.sync) (redAct x)) ∧
    (∀ x : CasArgs, MemCompletes s g (.cas x) (casChk x) (atomHold x.aty x.ord) (State.ordPlaces · x.ord)
      (syncAcq x.sync) (syncRel x.sync) (casAct x)) ∧
    ∀ (r : State) (live : List Nat) (t : Nat) (va : W64) (xl : Xlat),
      (∀ x : StbqArgs, s.isLocal xl.pa = true → s.stbqRefused t xl.pa = true → stbqAct x r g s live t (.global va xl) =
        ((s.commitWg t).countDone t .st).status t (State.dstFor x.d live t) 1) ∧
      (Reaches s (s.wg g.wg).ctx xl.pa →
      (∀ x : LdArgs, sendsAccess s (ldAct x r g s live t (.global va xl)) t .ld fun a =>
        a.va = va ∧ a.pa = xl.pa ∧ a.op = .load x.size ∧ a.dst = State.dstFor x.d live t ∧ a.acq = x.acq ∧ a.hint = x.hint) ∧
      (∀ x : StbqArgs, s.isLocal xl.pa = false ∨ s.stbqRefused t xl.pa = false →
        sendsAccess s (stbqAct x r g s live t (.global va xl)) t .st fun a =>
          a.va = va ∧ a.pa = xl.pa ∧ a.op = .stbq x.size (r.rdN t x.data x.size.words % 2 ^ (8 * x.size.bytes)) ∧
          a.dst = State.dstFor x.d live t) ∧
      (∀ x : AtomArgs, x.ord = false → sendsAccess s (atomAct x r g s live t (.global va xl)) t .ld fun a =>
        a.va = va ∧ a.pa = xl.pa ∧ a.op = .atom x.aop x.aty (r.rdN t x.b x.aty.words) ∧
        a.dst = State.dstFor x.d live t) ∧
      (∀ x : RedArgs, x.ord = false → sendsAccess s (redAct x r g s live t (.global va xl)) t .st fun a =>
        a.va = va ∧ a.pa = xl.pa ∧ a.op = .red x.aop x.aty (r.rdN t x.b x.aty.words)) ∧
      (∀ x : CasArgs, x.ord = false → sendsAccess s (casAct x r g s live t (.global va xl)) t .ld fun a =>
        a.va = va ∧ a.pa = xl.pa ∧ a.dst = State.dstFor x.d live t ∧
        a.op = .cas x.aty (r.rdN t x.b x.aty.words) (r.rdN t (Reg.up x.b x.aty.words) x.aty.words)) ∧
      (State.isHost xl.pa = false →
        (∀ x : AtomArgs, x.ord = true → sendsOrdered s (atomAct x r g s live t (.global va xl)) t .ld fun a =>
          a.va = va ∧ a.pa = xl.pa ∧ a.op = .atom x.aop x.aty (r.rdN t x.b x.aty.words) ∧
          a.dst = State.dstFor x.d live t) ∧
        (∀ x : RedArgs, x.ord = true → sendsOrdered s (redAct x r g s live t (.global va xl)) t .st fun a =>
          a.va = va ∧ a.pa = xl.pa ∧ a.op = .red x.aop x.aty (r.rdN t x.b x.aty.words)) ∧
        (∀ x : CasArgs, x.ord = true → sendsOrdered s (casAct x r g s live t (.global va xl)) t .ld fun a =>
          a.va = va ∧ a.pa = xl.pa ∧ a.dst = State.dstFor x.d live t ∧
          a.op = .cas x.aty (r.rdN t x.b x.aty.words) (r.rdN t (Reg.up x.b x.aty.words) x.aty.words))))

/-- R184, R188, R205, R206: a kernel thread's plain ST to this package's memory enters its core's store queue, one to another
node its core's write-combining buffer, and neither changes memory yet; one to a host, or a release to another node,
leaves on its own behind the thread's buffered stores; an ordered one leaves with a stamp; a queue program's own is
performed at once. An LDW to global memory is one access of its lowest participant that every participant counts. -/
def Obligations.StoresAndSharedLoads : Prop :=
  ∀ (s : State) (g : Group),
    (∀ x : StArgs, MemCompletes s g (.st x) (stChk x) (stHold x) (State.storePlaces · x.ord) none x.rel (stAct x)) ∧
    (∀ x : LdwArgs, MemCompletes s g (.ldw x) (ldwChk x ((s.participants g (.ldw x)).headD 0)) scratchLoadHold
      State.anyRoom x.acq none (ldwAct x)) ∧
    ∀ (r : State) (live : List Nat) (t : Nat) (va : W64) (xl : Xlat),
      (∀ x : StArgs, let w := stAct x r g s live t (.global va xl)
        let mine (a : Access) := a.tids = [t] ∧ a.va = va ∧ a.pa = xl.pa ∧ a.core = g.core ∧
          a.op = .store x.size (r.rdN t x.data x.size.words % 2 ^ (8 * x.size.bytes))
        let made (v : State) := v.mem = s.mem ∧ v.accs = s.accs ∧ (v.thread t).stc = (s.thread t).stc + 1 ∧
          (v.wg (s.thread t).wg).committed = (!isCp t || (s.wg (s.thread t).wg).committed) ∧
          (∀ q c, v.rd q c = s.rd q c) ∧ ∀ q c, v.rdP q c = s.rdP q c
        (x.ord = false → isCp t = false → s.isLocal xl.pa = true →
          ∃ a, (w.core g.core).sq = (s.core g.core).sq ++ [a] ∧ mine a ∧ made w) ∧
        (x.ord = false → isCp t = false → s.isLocal xl.pa = false → State.isHost xl.pa = false → x.rel = none →
          ∃ v a, w = v.bufferStore g.core a ∧ mine a ∧ made v) ∧
        (x.ord = false → s.isLocal xl.pa = false → State.isHost xl.pa = true ∨ x.rel ≠ none ∨ isCp t = true →
          ∃ v a, w = (v.sendOwn t).pushAccess a ∧ mine a ∧ made v) ∧
        (x.ord = false → isCp t = true → s.isLocal xl.pa = true → ∃ v a, w = v.storeNow a ∧ mine a ∧ made v) ∧
        (x.ord = true → State.isHost xl.pa = false → Reaches s (s.wg g.wg).ctx xl.pa → sendsOrdered s w t .st mine)) ∧
      (∀ x : LdwArgs, live.Nodup →
        (live.head? ≠ some t → ldwAct x r g s live t (.global va xl) = s) ∧
        (live.head? = some t → Reaches s (s.wg g.wg).ctx xl.pa →
          let w := ldwAct x r g s live t (.global va xl)
          oneMore s w (fun a => a.tids = live ∧ a.va = va ∧ a.pa = xl.pa ∧ a.op = .load x.size ∧ a.dst = x.d) ∧
          w.mem = s.mem ∧ ∀ q ∈ live, (w.thread q).ld = (s.thread q).ld + 1))

/-- R171, R194, R203, R206, R213: LDS, STS, ATOMS and a scratch LDW act on scratch in the step that issues them. A store
writes exactly its bytes and makes its tile full; ATOMS leaves the new value there and gives the old one; a load changes
no scratch. Memory stands, and so do the counters. -/
def Obligations.ScratchAccesses : Prop :=
  ∀ (s : State) (g : Group),
    (∀ x : LdsArgs, MemCompletes s g (.lds x) (ldsChk x) scratchLoadHold State.anyRoom x.acq none (ldsAct x)) ∧
    (∀ x : StsArgs, MemCompletes s g (.sts x) (stsChk x) scratchStoreHold State.anyRoom none x.rel (stsAct x)) ∧
    (∀ x : AtomsArgs, MemCompletes s g (.atoms x) (atomsChk x) scratchStoreHold State.anyRoom (syncAcq x.sync)
      (syncRel x.sync) (atomsAct x)) ∧
    ∀ (view : State) (live : List Nat) (t w off : Nat), s.poison = [] → (s.wg w).scr.wf →
      (∀ x : LdwArgs, live.head? = some t →
        let r := ldwAct x view g s live t (.scratch w off)
        r.mem = s.mem ∧ r.wgs = s.wgs ∧ (∀ k, (r.thread t).ctr k = (s.thread t).ctr k) ∧
        (x.d ≠ .zero → x.d.fits x.size.words →
          r.rdN t x.d x.size.words = extendBy x.size (mnat (s.wg w).scr off x.size.bytes) % 2 ^ (32 * x.size.words))) ∧
      (∀ x : LdsArgs,
        let r := ldsAct x view g s live t (.scratch w off)
        r.mem = s.mem ∧ r.wgs = s.wgs ∧ (∀ k, (r.thread t).ctr k = (s.thread t).ctr k) ∧
        (State.dstFor x.d live t = x.d → x.d ≠ .zero → x.d.fits x.size.words →
          r.rdN t x.d x.size.words = extendBy x.size (mnat (s.wg w).scr off x.size.bytes) % 2 ^ (32 * x.size.words))) ∧
      (∀ x : StsArgs,
        let r := stsAct x view g s live t (.scratch w off)
        let bs := natLe x.size.bytes (view.rdN t x.data x.size.words)
        r.mem = s.mem ∧ (r.tileOf w (off / 4096)).full = true ∧ (∀ k, (r.thread t).ctr k = (s.thread t).ctr k) ∧
        (∀ q c, r.rd q c = s.rd q c) ∧
        (∀ a, a < off ∨ off + x.size.bytes ≤ a → mget (r.wg w).scr a = mget (s.wg w).scr a) ∧
        ∀ j, j < x.size.bytes → mget (r.wg w).scr (off + j) = bs.getD j 0) ∧
      (∀ x : AtomsArgs,
        let r := atomsAct x view g s live t (.scratch w off)
        let n := x.aty.bytes
        let old := mnat (s.wg w).scr off n
        let new := atomNew x.aop x.aty old (view.rdN t x.b x.aty.words)
        r.mem = s.mem ∧ (∀ k, (r.thread t).ctr k = (s.thread t).ctr k) ∧
        (State.dstFor x.d live t = x.d → x.d ≠ .zero → x.d.fits x.aty.words →
          r.rdN t x.d x.aty.words = old % 2 ^ (32 * x.aty.words)) ∧
        (∀ a, a < off ∨ off + n ≤ a → mget (r.wg w).scr a = mget (s.wg w).scr a) ∧
        ∀ j, j < n → mget (r.wg w).scr (off + j) = (natLe n new.1).getD j 0)

/-- R181, R208 to R210: FENCE, PREF, the CCTL forms and DRAIN complete: FENCE once no access of its members holds it,
CCTL at addresses that are canonical, and DRAIN, once its participants' stores to local memory are home, with status 0
where its set is written back, 1 for a poll, or a wait. What FENCE and the CCTL forms do writes no memory. -/
def Obligations.CacheControl : Prop :=
  ∀ (s : State) (g : Group),
    (∀ x : FenceArgs, let u := s.sendAllOwn g.members
      u.cur = some g → (∀ m ∈ g.members, u.fenced m = false ∧ u.fenceWaits (syncAcq x.sync) (syncRel x.sync) m = false) →
      Completes s g (.fence x) (g.members.foldl (fun v m => v.fenceDone (syncAcq x.sync) (syncRel x.sync) m) u).advance) ∧
    (∀ x : PrefArgs, Completes s g (.pref x) ((s.participants g (.pref x)).foldl (prefOne x) s).advance) ∧
    (∀ x : CctlArgs, (∀ p ∈ s.participants g (.cctlWb x), canonical (s.rd64 p x.base) = true) →
      Completes s g (.cctlWb x)
        ((s.participants g (.cctlWb x)).foldl (fun v p => v.cctlLine p (s.rd64 p x.base)) s).advance) ∧
    (∀ x : CctlRangeArgs, (∀ p ∈ s.participants g (.cctlWbr x), canonical (s.rd64 p x.base) = true) →
      Completes s g (.cctlWbr x) ((s.participants g (.cctlWbr x)).foldl
        (fun v p => v.cctlSpan p (s.rd64 p x.base) (s.rd p x.len).toNat) s).advance) ∧
    (∀ x : G, Completes s g (.cctlWball x) ((s.participants g (.cctlWball x)).foldl (fun v p =>
      ((v.dirty.filter fun d => d.2.wb && d.2.ctx = v.ctxOf p).map (·.1)).foldl (fun v l => v.toLane l) v) s).advance) ∧
    (∀ x : G, Completes s g (.cctlInv x)
      ((s.participants g (.cctlInv x)).foldl (fun v p => v.clearL1 (tidCore p)) s).advance) ∧
    (∀ x : CctlArgs, (∀ p ∈ s.participants g (.cctlEvl x), canonical (s.rd64 p x.base) = true) →
      Completes s g (.cctlEvl x) ((s.participants g (.cctlEvl x)).foldl (fun v p =>
        match v.translate (tidCore p) (v.ctxOf p) (s.rd64 p x.base) false false with
        | .ok xl _ => v.dropL1 (tidCore p) (xl.pa / 128)
        | _ => v) s).advance) ∧
    (∀ x : StatusWait, (∀ p ∈ s.participants g (.drain x), s.localStoresOut p = false) →
      Completes s g (.drain x) ((s.participants g (.drain x)).foldl (fun v p =>
        v.pollOr (v.drained (v.ctxOf p) v.fresh) p (State.statusReg x.d (s.participants g (.drain x)) p) x.e
          (.drain v.fresh) id) s).goOn) ∧
    (∀ t acq rel, (s.sendOwn t).mem = s.mem ∧ (s.fenceDone acq rel t).mem = s.mem) ∧
    (∀ t va, (s.cctlLine t va).mem = s.mem) ∧ (∀ t va n, (s.cctlSpan t va n).mem = s.mem) ∧
    (∀ l, (s.toLane l).mem = s.mem) ∧ (∀ c l, (s.dropL1 c l).mem = s.mem) ∧
    (∀ c, ((s.clearL1 c).core c).l1 = [] ∧ (s.clearL1 c).mem = s.mem) ∧
    ∀ t d (e : TExp) kind,
      s.pollOr true t d e kind id = s.status t d 0 ∧
      s.pollOr false t d e kind id = if e = 0 then s.status t d 1 else s.startWait t kind d e

namespace Sys2Proof

/-- R217, R218: WAIT reads its word, of scratch or of this package's memory, once its checks pass; a condition that holds
performs the acquire and gives status 0, one that does not gives status 1 to a poll, and otherwise the thread blocks,
memory as it was. A word that another node or a host holds is asked for, and the thread blocks meanwhile. -/
def WaitOnMemory : Prop :=
  ∀ (s : State) (g : Group) (x : WaitArgs),
    MemCompletes s g (.wait x) (waitChk x) (waitHold x) State.anyRoom x.acq none (waitAct x) ∧
    ∀ (r : State) (live : List Nat) (t : Nat) (p : Place), s.poison = [] →
      let k := placeKey p
      let v := s.watched t k.1 k.2.1 x.ty
      let b := r.rdN t x.b x.ty.words
      let d := State.statusReg x.d live t
      let w := waitAct x r g s live t p
      (k.2.1 = none → s.isLocal k.1 = false → ∃ va ext,
        w = (s.startWait t (.mem va k.1 none x.ty b x.cond x.acq ext) d x.e).sendRead t k.1) ∧
      (k.2.1 ≠ none ∨ s.isLocal k.1 = true →
        (waitCond x.cond x.ty v b = true →
          w = ((s.waitAcquire t k.1 k.2.1 x.ty x.acq).sawWord t k.1 k.2.1 x.ty).status t d 0) ∧
        (waitCond x.cond x.ty v b = false → x.e = 0 → w = (s.sawWord t k.1 k.2.1 x.ty).status t d 1) ∧
        (waitCond x.cond x.ty v b = false → x.e ≠ 0 →
          (w.thread t).st = .blocked ∧ w.mem = s.mem ∧
          ∃ va ext, (w.thread t).wait.map (·.kind) = some (.mem va k.1 k.2.1 x.ty b x.cond x.acq ext)))

/-- R220, R221: PTIME gives its core's pod time once no flush of a participant still sends and the core's last stamp is
behind; PTIME.until has status 0 where that time is reached, or blocks without limit; WMARK gives its receiver's
watermark, all ones for host memory; WMARK.wait has status 3, with the fault counted, for a receiver in another package
that the tenant's fabric shuts out (R375); status 0 where the receiver has passed the stamp, or for host memory, and
raises the thread's floor to it, and otherwise status 1 at exponent 0, or it blocks. -/
def TimeAndWatermarks : Prop :=
  ∀ (s : State) (g : Group),
    (∀ x : DstArgs, (∀ p ∈ s.participants g (.ptime x), flushPending s p = false ∧ s.stampAhead (tidCore p) = false) →
      Computes s g (.ptime x) x.d 2 (fun p => s.clock (tidCore p)) (fun _ => 0)) ∧
    (∀ x : DA, Completes s g (.ptimeUntil x) ((s.participants g (.ptimeUntil x)).foldl (fun v p =>
      let d := State.statusReg x.d (s.participants g (.ptimeUntil x)) p
      if (s.rd64 p x.a).toNat ≤ v.clock (tidCore p) then v.status p d 0
      else v.startWait p (.ptime (s.rd64 p x.a).toNat) d 15) s).goOn) ∧
    (∀ x : DA, MemCompletes s g (.wmark x) (wmarkChk x.a) (fun _ _ _ => false) State.anyRoom none none (wmarkAct x)) ∧
    (∀ x : WmarkWaitArgs, MemCompletes s g (.wmarkWait x) (wmarkChk x.a) (fun _ _ _ => false) State.anyRoom none none
      (wmarkWaitAct x)) ∧
    ∀ (r : State) (live : List Nat) (t : Nat) (va : W64) (xl : Xlat),
      (∀ x : DA, wmarkAct x r g s live t (.global va xl) = s.wrD t (State.dstFor x.d live t) 2
        (match recvKey s xl.pa with | some r => s.markOf r | none => 2 ^ 64 - 1)) ∧
      ∀ x : WmarkWaitArgs,
        let d := State.statusReg x.d live t
        let stamp := (r.rd64 t x.b).toNat
        (recvKey s xl.pa = none → wmarkWaitAct x r g s live t (.global va xl) = (s.raiseFloor t stamp).status t d 0) ∧
        ∀ n, recvKey s xl.pa = some n →
          wmarkWaitAct x r g s live t (.global va xl) =
            if s.isLocal xl.pa = false ∧ s.fabricOk (s.ctxTenant (s.ctxOf t)) (State.portTo xl.pa) = false then
              (s.ctxFault (s.ctxOf t) tcPeerUnreachable).status t d 3
            else if s.passed n stamp then (s.raiseFloor t stamp).status t d 0
            else if x.e = 0 then s.status t d 1 else s.startWait t (.wmark va n stamp) d x.e

end Sys2Proof

/-- R217, R218, R220, R221: `WaitOnMemory` and `TimeAndWatermarks`. -/
def Obligations.WaitsAndTime : Prop := WaitOnMemory ∧ TimeAndWatermarks

/-! ### Tiles, copies and sends (09) -/

/-- R259, R258: TALLOC, TFREE, TSTAT and TSTAT.wait on runs within the allocation, in ascending lane order; TSET begins to
fill an idle run, and CBLD takes a slot's 4,096 bytes from its tile, unless an accepted command reads the slot. A freed
tile is empty. -/
def Obligations.TileInstructions : Prop :=
  ∀ (s : State) (g : Group),
    (∀ x : TileDE, let ps := s.participants g (.talloc x)
      let ts := State.runTiles x.t x.cnt
      (∀ p ∈ ps, s.runPast (s.thread p).wg x.t x.cnt = false) →
      Completes s g (.talloc x) (ps.foldl (fun v p => v.pollOr (v.runIdle (s.thread p).wg ts) p (State.statusReg x.d ps p) x.e
        (.talloc x.t.val (x.cnt.val + 1)) fun v => v.freeTiles (s.thread p).wg ts) s).goOn) ∧
    (∀ x : TileRun, let ps := s.participants g (.tfree x)
      let ts := State.runTiles x.t x.cnt
      (∀ p ∈ ps, s.runPast (s.thread p).wg x.t x.cnt = false ∧ s.runIdle (s.thread p).wg ts = true) →
      Completes s g (.tfree x) (ps.foldl (fun v p => v.freeTiles (s.thread p).wg ts) s).goOn) ∧
    (∀ x : TileD, let ps := s.participants g (.tstat x)
      (∀ p ∈ ps, s.runPast (s.thread p).wg x.t x.cnt = false) →
      Completes s g (.tstat x) (ps.foldl (fun v p => v.wrD p (State.statusReg x.d ps p) 1
        (s.runMask (s.thread p).wg (State.runTiles x.t x.cnt))) s).goOn) ∧
    (∀ x : TileDE, let ps := s.participants g (.tstatWait x)
      let ts := State.runTiles x.t x.cnt
      (∀ p ∈ ps, s.runPast (s.thread p).wg x.t x.cnt = false) →
      Completes s g (.tstatWait x) (ps.foldl (fun v p => v.pollOr (v.runQuiet (s.thread p).wg ts) p
        (State.statusReg x.d ps p) x.e (.tstat x.t.val (x.cnt.val + 1)) id) s).goOn) ∧
    (∀ x : TileSet, EachCompletes s g (.tset x) (fun _ => tsetOne x)) ∧
    (∀ (x : TileSet) (p : Nat), s.participants g (.tset x) = [p] → g.part = [] →
      s.runPast (s.thread p).wg x.t x.cnt = false → s.runIdle (s.thread p).wg (State.runTiles x.t x.cnt) = true →
      Completes s g (.tset x) (tsetOne x s p).1.advance ∧
      (Clear s g (.tset x) → ∃ r o, exec (.tset x) s = .next r ∧ r.mem = s.mem ∧
        (r.core (tidCore p)).tsets = (s.core (tidCore p)).tsets ++ [o] ∧ o.wg = (s.thread p).wg ∧ o.t = x.t.val ∧
        o.cnt = x.cnt.val + 1 ∧ o.pat = s.rd p x.a)) ∧
    (∀ x : CbldArgs, EachCompletes s g (.cbld x) (fun _ => cbldOne x)) ∧
    (∀ (x : CbldArgs) (w c : Nat), let ps := s.participants g (.cbld x)
      ps ≠ [] → g.part = [] → (∀ p ∈ ps, (s.thread p).wg = w ∧ tidCore p = c) →
      x.t.val < (s.wg w).tiles → s.tileEmpty w x.t.val = false → (s.tileOf w x.t.val).fill = 0 →
      (s.tileOf w x.t.val).drain = 0 →
      ((s.core c).cmds.any fun m => m.stage ≠ .issued && State.kindCb m.kind = some x.slot.val) = false →
      Clear s g (.cbld x) → ∃ r, exec (.cbld x) s = .next r ∧ r.mem = s.mem ∧ r.wgs = s.wgs ∧
        tget (r.core c).cb x.slot.val = some { tag := some w, data := rebase (s.wg w).scr (x.t.val * 4096) 4096 }) ∧
    (∀ (x : TileSet) (t : Nat), s.runPast (s.thread t).wg x.t x.cnt = false →
      s.runIdle (s.thread t).wg (State.runTiles x.t x.cnt) = true →
      ∃ r o, tsetOne x s t = (r, true) ∧ (r.core (tidCore t)).tsets = (s.core (tidCore t)).tsets ++ [o] ∧
        o.wg = (s.thread t).wg ∧ o.t = x.t.val ∧ o.cnt = x.cnt.val + 1 ∧ o.pat = s.rd t x.a ∧ r.mem = s.mem) ∧
    (∀ (x : CbldArgs) (t : Nat), let w := (s.thread t).wg
      x.t.val < (s.wg w).tiles → s.tileEmpty w x.t.val = false → (s.tileOf w x.t.val).fill = 0 →
      (s.tileOf w x.t.val).drain = 0 → s.poison = [] →
      ((s.core (tidCore t)).cmds.any fun m => m.stage ≠ .issued && State.kindCb m.kind = some x.slot.val) = false →
      ∃ r, cbldOne x s t = (r, true) ∧ { r with cores := s.cores } = s ∧
        tget (r.core (tidCore t)).cb x.slot.val =
          some { tag := some w, data := rebase (s.wg w).scr (x.t.val * 4096) 4096 }) ∧
    (∀ w ts n, n ∈ ts → (s.emptyTiles w ts).tileOf w n = .empty ∧
      ∀ b < 4096, mget ((s.emptyTiles w ts).wg w).scr (n * 4096 + b) = 0)

namespace Sys2Proof

/-- A copy instruction of one thread, when its unit has room and the barrier register it names is resident or can be
made so, becomes the unit's youngest command with its operands read, and counts on CP (R242). Memory and registers
stand. -/
def issuesCopy (s : State) (bar : Option Bar) (kind : State → Nat → CopyKind) : Prop :=
  ∀ t u, s.unitRoom (tidCore t) = true →
    (match bar with | some b => s.needBar (s.barKey t b) | none => some s) = some u →
    ∃ r m, State.issueCmd bar kind s t = (r, true) ∧ (r.core (tidCore t)).cmds = (s.core (tidCore t)).cmds ++ [m] ∧
      m.stage = .issued ∧ m.tid = some t ∧ m.kind = kind s t ∧ m.bar = bar.map (s.barKey t) ∧
      (r.thread t).cp = (s.thread t).cp + 1 ∧ r.mem = s.mem ∧ (∀ q c, r.rd q c = s.rd q c) ∧ ∀ q c, r.rdP q c = s.rdP q c

/-- A copy instruction completes when its core's unit has room for all its participants' commands, and the barrier
register that they name, if any, is resident: they become the unit's youngest commands, in ascending lane order, and
each participant's CP counts one more. Memory, registers and predicates stand. -/
def CopiesIssue (s : State) (g : Group) (i : Instr) (bar : Option Bar) (kind : State → Nat → CopyKind) : Prop :=
  let ps := s.participants g i
  Clear s g i → g.part = [] → (∀ m ∈ g.members, tidCore m = g.core) → (s.core g.core).cmds.length + ps.length ≤ 32 →
    (∀ b, bar = some b → ∀ p ∈ ps, (s.bar (s.barKey p b)).resident = true) →
    ∃ t ms, exec i s = .next t ∧ t.mem = s.mem ∧ (t.core g.core).cmds = (s.core g.core).cmds ++ ms ∧
      ms.map (·.tid) = ps.map some ∧ ms.map (·.kind) = ps.map (kind s) ∧
      ms.map (·.bar) = (ps.map fun p => bar.map (s.barKey p)) ∧ (∀ m ∈ ms, m.stage = .issued) ∧
      (∀ p ∈ ps, (t.thread p).cp = (s.thread p).cp + 1) ∧ (∀ q c, t.rd q c = s.rd q c) ∧ ∀ q c, t.rdP q c = s.rdP q c

end Sys2Proof

/-- R242, R250, R252, R256, R260: CPY, CPYT.ld, CPYT.st and CPYST issue a command each for every participant, as
`CopiesIssue` and `issuesCopy` say; STAGE and STAGE.max change the workgroup's stage, the first adding with saturation. -/
def Obligations.CopyInstructions : Prop :=
  ∀ (s : State) (g : Group),
    (∀ x : CpyArgs, EachCompletes s g (.cpy x) (fun _ => State.issueCmd x.o.bar (cpyKind x)) ∧
      CopiesIssue s g (.cpy x) x.o.bar (cpyKind x) ∧ issuesCopy s x.o.bar (cpyKind x)) ∧
    (∀ x : CpytArgs, EachCompletes s g (.cpytLd x) (fun _ => State.issueCmd x.bar (cpytKind x false)) ∧
      EachCompletes s g (.cpytSt x) (fun _ => State.issueCmd x.bar (cpytKind x true)) ∧
      CopiesIssue s g (.cpytLd x) x.bar (cpytKind x false) ∧ CopiesIssue s g (.cpytSt x) x.bar (cpytKind x true) ∧
      issuesCopy s x.bar (cpytKind x false) ∧ issuesCopy s x.bar (cpytKind x true)) ∧
    (∀ x : CpystArgs, EachCompletes s g (.cpyst x) (fun _ => State.issueCmd x.bar (cpystKind x)) ∧
      CopiesIssue s g (.cpyst x) x.bar (cpystKind x) ∧
      issuesCopy s x.bar (cpystKind x)) ∧
    (∀ x : SrcArgs,
      let rises (f : W32 → W32 → W32) (v : State) (p : Nat) : State :=
        (v.modWg (v.thread p).wg fun w => { w with stage := f w.stage (v.rd p x.a) }).releaseDue (v.thread p).wg
      Completes s g (.stage x) ((s.participants g (.stage x)).foldl
        (rises fun c a => if 2 ^ 32 ≤ c.toNat + a.toNat then BitVec.allOnes 32 else c + a) s).advance ∧
      Completes s g (.stageMax x) ((s.participants g (.stageMax x)).foldl
        (rises fun c a => if c.toNat < a.toNat then a else c) s).advance)

/-- R262, R263, R266: SNDA appends each participant's entry to its workgroup's list, whose index it writes, or all ones at
128 entries. SNDF and PENQ complete once their address stands. SNDF's flush, with the list's entries, joins its core's, the
list is empty, the thread's CP counts one more and its workgroup has committed, and the flush begins to send; PENQ's thread
is blocked for its header's reply. -/
def Obligations.SendLists : Prop :=
  ∀ (s : State) (g : Group),
    (∀ x : SndaArgs, let ps := s.participants g (.snda x)
      Completes s g (.snda x) (ps.foldl (fun v p =>
        let r := v.appendRow (tidCore p) (State.listKey (v.thread p).wg x.list.val) (sndaEntry x s p)
        r.1.wrD p (State.statusReg x.d ps p) 1 r.2) s).advance) ∧
    (∀ (x : SndaArgs) (p : Nat), let r := s.appendRow (tidCore p) (State.listKey (s.thread p).wg x.list.val) (sndaEntry x s p)
      s.participants g (.snda x) = [p] → Clear s g (.snda x) → exec (.snda x) s = .next (r.1.wrD p x.d 1 r.2).advance) ∧
    (∀ (x : SndfArgs) (r : State) (live : List Nat) (t : Nat) (va : W64) (xl : Xlat), s.hasThread t = true →
      isCp t = false → (tget s.wgs (s.thread t).wg).isSome = true →
      let w := (s.thread t).wg
      let core := tidCore t
      let key := State.listKey w x.list.val
      let l := (tget (s.core core).lists key).getD []
      ∃ (v : State) (f : Flush), sndfAct x r g s live t (.global va xl) = State.pumpFirst core f.id (upTo l.length) v ∧
        (v.core core).flushes = (s.core core).flushes ++ [f] ∧ f.ents = l ∧ f.res = l.map (fun _ => SndRes.waiting) ∧
        f.recVa = va ∧ f.tid = t ∧ tget (v.core core).lists key = some [] ∧ (v.thread t).cp = (s.thread t).cp + 1 ∧
        (v.wg w).committed = true ∧ v.mem = s.mem) ∧
    (∀ core key e, let l := (tget (s.core core).lists key).getD []
      let r := s.appendRow core key e
      (128 ≤ l.length → r = (s, 2 ^ 32 - 1)) ∧
      (l.length < 128 → r.2 = l.length ∧ tget (r.1.core core).lists key = some (l ++ [e]) ∧
        { r.1 with cores := s.cores } = s)) ∧
    (∀ x : SndfArgs, MemCompletes s g (.sndf x) (sndfChk x) (fun s _ _ => !s.timed) State.anyRoom none none (sndfAct x)) ∧
    (∀ x : DA, MemCompletes s g (.penq x) (penqChk x.a false) penqHold State.anyRoom (some .pod) none
      (penqAct x.d fun _ _ => none)) ∧
    (∀ x : DAB, MemCompletes s g (.penqAdv x) (penqChk x.a true) penqHold State.anyRoom (some .pod) (some .pod)
      (penqAct x.d fun r t => some (r.rd t x.b).toNat)) ∧
    ∀ (r : State) (d : Reg) (adv : State → Nat → Option Nat) (live : List Nat) (t : Nat) (va : W64) (xl : Xlat),
      Reaches s (s.wg g.wg).ctx xl.pa →
      let w := penqAct d adv r g s live t (.global va xl)
      oneMore s w (fun a => a.tids = [t] ∧ a.va = va ∧ a.pa = xl.pa ∧ a.op = .penq (adv r t) ∧
        a.dst = State.dstFor d live t) ∧
        w.mem = s.mem ∧ (w.thread t).st = .blocked ∧ (w.thread t).wait.map (·.kind) = some (.reply s.fresh)

/-! ### The matrix engine (05) -/

namespace Sys2Proof

/-- An instruction that posts requests of its participants' own completes when its quad's table has room for all of them:
a request of each enters the table in its place (R150), its TL counts `n` more, and its status is 0. Memory stands. -/
def PostsOwn (s : State) (g : Group) (i : Instr) (d : Reg) (n : Nat) (op : Nat → EngOp) : Prop :=
  let ps := s.participants g i
  ∀ q, Clear s g i → g.part = [] → (∀ p ∈ ps, coreQuad (tidCore p) = q) → (s.quad q).table.length + ps.length ≤ 32 →
    ∃ (t : State) (es : List EngEnt), exec i s = .next t ∧ t.mem = s.mem ∧ (t.quad q).table = es.foldl State.postEntry (s.quad q).table ∧
      es.map (·.op) = ps.map op ∧ es.map (·.signers) = (ps.map fun p => [p]) ∧
      ∀ p ∈ ps, (t.thread p).tl = (s.thread p).tl + n ∧ t.rd p d = 0

/-- R143, R145, R149, R159 to R162: MLDS, MMA and MACR are signed by each participant in turn, with its operands as they
stood at issue; MSWP, MACW, MACZ and MNBR post a request for each participant, MACW once its source tiles are ready;
MSTAT reads the quad's status and tags. -/
def MatrixIssue : Prop :=
  ∀ (s : State) (g : Group), g.part = [] →
    (∀ x : Collective,
      let signs (i : Instr) (op : State → Nat → EngOp) := let ps := s.participants g i
        let v := ps.foldl (fun v p => v.signOne (op s p) x.bar (State.statusReg x.d ps p) x.e p) s
        Completes s g i (if x.e ≠ 0 then v
          else ps.foldl (fun v p => if (v.thread p).wait.isSome then (v.withdrawSign p).endWait p 1 else v) v).goOn
      signs (.mlds x) (fun v p => .mlds (v.rd p x.fw) (v.rd p x.ctl)) ∧
      signs (.mma x) (fun v p => .mma (v.rd p x.fw) (v.rd64 p x.ctl)) ∧
      signs (.macr x) (fun v p => .macr (v.rd p x.fw) (v.rd p x.ctl))) ∧
    (∀ x : G, EachCompletes s g (.mswp x) fun ps v t =>
      State.ownOne (fun _ _ _ => .post .mswp) (State.statusReg .zero ps t) false s v t) ∧
    (∀ x : DA, EachCompletes s g (.macw x) (fun ps v t => State.ownOne (macwReq x) (State.statusReg x.d ps t) true s v t) ∧
      EachCompletes s g (.macz x) fun ps v t => State.ownOne (maczReq x) (State.statusReg x.d ps t) true s v t) ∧
    (∀ x : DAB, EachCompletes s g (.mnbr x) fun ps v t => State.ownOne (mnbrReq x) (State.statusReg x.d ps t) false s v t) ∧
    (∀ x : G, PostsOwn s g (.mswp x) .zero 0 fun _ => .mswp) ∧
    (∀ x : DA,
      ((∀ p ∈ s.participants g (.macw x), let op : EngOp := .macw (s.rd p x.a)
        let w := (s.thread p).wg
        op.rowsOk = true ∧ s.pastTiles w op.sources = false ∧ (State.allTiles op.sources).all (s.tileReady w) = true) →
        PostsOwn s g (.macw x) x.d 1 fun p => .macw (s.rd p x.a)) ∧
      ((∀ p ∈ s.participants g (.macz x), (EngOp.macz (s.rd p x.a)).rowsOk = true) →
        PostsOwn s g (.macz x) x.d 1 fun p => .macz (s.rd p x.a))) ∧
    (∀ x : DAB, (∀ p ∈ s.participants g (.mnbr x), fwValid (s.rd p x.b) = true ∧
        State.roleOk (coreQuad (tidCore p)) ((s.rd p x.a).toNat % 16) = true) →
      PostsOwn s g (.mnbr x) x.d 0 fun p => .mnbr (s.rd p x.b) (s.rd p x.a)) ∧
    (∀ x : DstArgs,
      Computes s g (.mstat x) x.d 1 (fun p => let q := coreQuad (tidCore p)
        (s.quad q).table.length * 2 ^ 8 + s.linkBits q * 2 ^ 4 + (s.quad q).role) (fun _ => 0) ∧
      Computes s g (.mstatTags x) x.d 1 (fun p => let q := s.quad (coreQuad (tidCore p))
        q.shadow.spn * 2 ^ 12 + q.shadow.fb * 2 ^ 8 + q.active.spn * 2 ^ 4 + q.active.fb) (fun _ => 0))

/-- R143, R145, R149: a signature with a valid format word, rows and tiles counts on TL, blocks its thread and enters its
register's phase, or has status 2 where no count is set or arrivals stand; a request that finds fewer than 32 in the
quad's table enters it in its place. Where e is 0 all participants sign, and are then withdrawn unless the request is
posted at once, which is the model's reading (notes/assumptions/20.md). -/
def EngineRequests : Prop :=
  ∀ (s : State) (t : Nat),
    (∀ (op : EngOp) (bar : Bar) (d : Reg) (e : TExp) (u : State), s.stands t = true → fwValid (op.fw.getD 0) = true →
      op.rowsOk = true → s.pastTiles (s.thread t).wg (op.sources ++ op.dests) = false → s.needBar (s.barKey t bar) = some u →
      let k := s.barKey t bar
      let b := u.bar k
      let r := s.signOne op bar d e t
      (b.count = 0 ∨ (b.sig = false ∧ 0 < b.n) → r = u.status t d 2) ∧
      (b.n + 1 < b.count → (b.sig = true ∨ b.n = 0) →
        r.bar k = { b with n := b.n + 1, sig := true, signers := b.signers ++ [t] } ∧ (r.thread t).st = .blocked ∧
        (r.thread t).tl = (s.thread t).tl + 1 ∧ (r.thread t).wait.map (·.kind) = some (.sign k op) ∧ r.mem = s.mem)) ∧
    (∀ (r : State) (req : State → State → Nat → OwnReq) (d : Reg) (tl : Bool) (op : EngOp), req r s t = .post op →
      let q := coreQuad (tidCore t)
      (s.quad q).table.length < 32 →
      ∃ u e, State.ownOne req d tl r s t = (u, true) ∧ (u.quad q).table = State.postEntry (s.quad q).table e ∧ e.op = op ∧
        e.signers = [t] ∧ e.collective = false ∧ e.granted = false ∧ u.mem = s.mem ∧
        (u.thread t).tl = (s.thread t).tl + (if tl then 1 else 0)) ∧
    (∀ (r : State) (req : State → State → Nat → OwnReq) (d : Reg) (tl : Bool) (k : Nat), req r s t = .status k →
      State.ownOne req d tl r s t = (s.status t d k, true))

end Sys2Proof

/-- R143, R145, R149, R159 to R162: `MatrixIssue` and `EngineRequests`. -/
def Obligations.MatrixInstructions : Prop := MatrixIssue ∧ EngineRequests

/-! ### Launches (11) -/

/-- R313, R316, R318: FRDN completes once its release does: its participants are done with their point and their workgroup
has committed. LNCH, once its release does and its record is read and found in form, enters it in the table with status 0,
or has status 1 where 256 stand there. FRPT writes the point's coordinates; FRQ and FRQ.next perform an acquire at .pkg and
write H or F of a column, all ones where there is none. -/
def Obligations.LaunchInstructions : Prop :=
  ∀ (s : State) (g : Group),
    (∀ x : DA, EachCompletes s g (.lnch x) fun ps v t => State.lnchOne { x with d := State.statusReg x.d ps t } s v t) ∧
    (∀ (x : DA) (p : Nat) (c u : State) (l : List (Xlat × Nat)) (chain : Tbl (List Byte)) (hs : List (Nat × Nat)),
      Clear s g (.lnch x) ∧ c = s ∨ (∃ r, ClearRun s g (.lnch x) p r ∧ c = counted s g p r) →
      let va := c.rd64 p x.a
      let bytes := l.flatMap fun y => mbytes u.mem y.1.pa y.2
      s.participants g (.lnch x) = [p] → g.part = [] → c.releaseWaits p .pkg = false → va.toNat % 64 = 0 →
      (isCp p = true → c.inWindow p va 256 = true) →
      State.placeSpan (tidCore p) (c.ctxOf p) false (State.spanOf va 256) c = .ok (l, u) →
      (∀ y ∈ l, u.homeServes p y.1.pa y.2 = true ∧ u.poisonAt y.1.pa y.2 = none) →
      u.checkRecord p bytes = some (some chain) →
      u.resumeFrom p bytes = .fresh ∧ hs = [] ∨ u.resumeFrom p bytes = .heights hs →
      let v := (u.releaseDone (some .pkg) p).commitWg p
      exec (.lnch x) s = .next ((if 256 ≤ v.launches.length then v.status p x.d 1
        else (v.acceptLaunch p bytes chain hs).status p x.d 0)).advance) ∧
    (∀ x : G, EachCompletes s g (.frdn x) (fun _ => frdnOne)) ∧
    (∀ x : G, let ps := s.participants g (.frdn x)
      g.part = [] → (∀ p ∈ ps, s.releaseWaits p .pkg = false) → Clear s g (.frdn x) →
      ∃ t, exec (.frdn x) s = .next t ∧ t.mem = s.mem ∧
        ∀ p ∈ ps, (t.thread p).done = true ∧ (t.wg (s.thread p).wg).committed = true) ∧
    (∀ x : DstArgs, Computes s g (.frpt x) x.d 4 (frptValue s) (fun _ => 0)) ∧
    (∀ (x : DA) (next : Bool), let i : Instr := if next then .frqNext x else .frq x
      let u := (s.participants g i).foldl (fun v p => v.acquireAt p .pkg 0) s
      Clear s g i → x.d.fits 1 → ∃ t, exec i s = .next t ∧
        Writes u t (s.participants g i) x.d 1 (fun p => frqValue u p (u.rd p x.a) next) none (fun _ => false) (fun _ => 0)) ∧
    (∀ t, s.releaseWaits t .pkg = true → frdnOne s t = (s.sendOwn t, false) ∧
      ∀ x r, State.lnchOne x r s t = (s.sendOwn t, false)) ∧
    (∀ t, s.releaseWaits t .pkg = false → (frdnOne s t).2 = true) ∧
    ∀ (t : Nat) (r : List Byte) (chain : Tbl (List Byte)) (hs : List (Nat × Nat)), isCp t = false →
      ∃ l, (s.acceptLaunch t r chain hs).launches = s.launches ++ [l] ∧ l.id = s.fresh ∧ l.record = r ∧ l.ctx = rcCtx r ∧
        l.reserved = false ∧ l.points = [] ∧ (s.acceptLaunch t r chain hs).mem = s.mem

/-! ### The Commons (12) -/

namespace Sys2Proof

/-- R346 to R352: the instructions of row 0xC complete for each participant at issue, in ascending lane order. BID stands
as the context's bid in its pool and commits the workgroup; the others write what the Commons holds. -/
def MarketIssue : Prop :=
  ∀ (s : State) (g : Group),
    let done (i : Instr) (one : List Nat → State → Nat → State) :=
      Completes s g i ((s.participants g i).foldl (one (s.participants g i)) s).advance
    (∀ x : DABC, done (.bid x) (fun ps => bidOne x ps s)) ∧
    (∀ x : DAB,
      done (.price x) (fun ps v p => v.wrD p (State.dstFor x.d ps p) 2 (priceWord v (s.rd p x.a) (s.rd p x.b) false)) ∧
      done (.priceSold x) (fun ps v p => v.wrD p (State.dstFor x.d ps p) 2 (priceWord v (s.rd p x.a) (s.rd p x.b) true)) ∧
      done (.recallReq x) (fun ps v p => recallDone (State.dstFor x.d ps p) v p
        (recallFor v (v.ctxTenant (marketCtx v p)) (some (marketCtx v p)) (s.rd p x.a) (s.rd p x.b)))) ∧
    (∀ x : PurseArgs, done (.purse x) (fun ps => purseOne x (·.purse) ps s) ∧
      done (.purseRate x) (fun ps => purseOne x (·.rate) ps s) ∧ done (.purseCap x) (fun ps => purseOne x (·.cap) ps s)) ∧
    (∀ x : DA,
      done (.lease x) (fun ps v p => v.wrD p (State.dstFor x.d ps p) 2 (leaseWord v (marketCtx v p) (s.rd p x.a))) ∧
      done (.leaseTime x) (fun ps v p => v.wrD p (State.dstFor x.d ps p) 2 (leaseTime v (s.rd p x.a))) ∧
      done (.meter x) (fun ps v p => v.wrD p (State.dstFor x.d ps p) 2 (meterWord v p (s.rd p x.a)))) ∧
    (∀ x : DABC, done (.recallT x) (fun ps v p => recallDone (State.dstFor x.d ps p) v p
      (recallFor v (s.rd p x.c).toNat none (s.rd p x.a) (s.rd p x.b))))

/-- R347 to R350: one thread's BID of a valid pool code and quantity replaces its context's bid, whatever its price, with
status 0, and any other has status 2 and bids nothing; PRICE gives the last clearing of a pool, of this package's or as
another's was heard; PURSE names the caller's own tenant, or with full privilege any; and a price or a lease of an operand
that names no pool is all ones. -/
def MarketValues : Prop :=
  ∀ (s : State) (t : Nat), isCp t = false →
    (∀ (x : DABC) (ps : List Nat), let code := (s.rd t x.a).toNat
      let qty := (s.rd t x.c).toNat
      let r := bidOne x ps s s t
      let c := s.ctxOf t
      (r.wg (s.thread t).wg).committed = true ∧ r.mem = s.mem ∧
      (code < 256 → poolUnits code ≠ 0 → qty ≤ poolUnits code →
        tget (r.ctx c).bids code = some (qty, (s.rd t x.b).toNat) ∧
        ∀ j, j ≠ code → tget (r.ctx c).bids j = tget (s.ctx c).bids j) ∧
      (256 ≤ code ∨ poolUnits code = 0 ∨ poolUnits code < qty → r.ctxs = s.ctxs)) ∧
    (∀ (a b : W32) (sold : Bool),
      (256 ≤ a.toNat ∨ poolUnits a.toNat = 0 ∨ 4096 ≤ b.toNat → priceWord s a b sold = 2 ^ 64 - 1) ∧
      ∀ p n i, a.toNat < 256 → poolUnits a.toNat ≠ 0 → b.toNat = s.node.toNat → (s.poolAt a.toNat).clears = some (p, n, i) →
        priceWord s a b sold = (if sold then n else p) + i % 2 ^ 32 * 2 ^ 32) ∧
    (∀ (a b : W32) (sold : Bool) (p n i : Nat), a.toNat < 256 → poolUnits a.toNat ≠ 0 → b.toNat < 4096 →
      b.toNat ≠ s.node.toNat → tget s.market.remote (b.toNat * 256 + a.toNat) = some (p, n, i) →
      priceWord s a b sold = (if sold then n else p) + i % 2 ^ 32 * 2 ^ 32) ∧
    (∀ (x : PurseArgs), x.tenant = none → purseTenant x s s t = some (s.ctxTenant (s.ctxOf t))) ∧
    (∀ (x : PurseArgs) r, x.tenant = some r →
      (256 ≤ (s.rd t r).toNat → purseTenant x s s t = none) ∧
      ((s.rd t r).toNat < 256 → s.fullPriv t = true → purseTenant x s s t = some (s.rd t r).toNat)) ∧
    (∀ c (a : W32), 256 ≤ a.toNat ∨ poolUnits a.toNat = 0 → leaseWord s c a = 2 ^ 64 - 1 ∧ leaseTime s a = 2 ^ 64 - 1)

end Sys2Proof

/-- R346, R347, R350, R352: `MarketIssue` and `MarketValues`. -/
def Obligations.MarketInstructions : Prop := MarketIssue ∧ MarketValues

/-! ### Special registers, translation buffers, halts, queues, security, migration (01, 13 to 15) -/

/-- R33, R36, R383, R389, R393: CSRR reads its special register; CSRW writes one that may be written: %fstat both sets, %osel
the thread's own (notes/assumptions/31.md), and, in handler mode, the trap record's %tpc and %tidx; outside it those two
writes are discarded, as a write of %ptime is. A CSRW of %odat completes once its release does. -/
def Obligations.SpecialRegisters : Prop :=
  ∀ (s : State) (g : Group),
    (∀ x : CsrrArgs, Computes s g (.csrr x) x.d (csrWords x.num) (fun p => s.readCsr p x.num.toNat) (fun _ => 0)) ∧
    (∀ x : CsrwArgs, x.num ≠ 0x111 → Completes s g (.csrw x) ((s.participants g (.csrw x)).foldl (fun v p =>
      v.writeCsr p x.num.toNat (BitVec.ofNat 64 (s.rdN p x.a (csrWords x.num)))) s).advance) ∧
    (∀ x : CsrwArgs, let ps := s.participants g (.csrw x)
      let u := s.sendAllOwn ps
      x.num = 0x111 → (∀ p ∈ ps, u.releaseWaits p .pkg = false) → Completes s g (.csrw x) ((ps.foldl (fun v p =>
        if v.stands p then v.writeCsr p 0x111 (BitVec.ofNat 64 (v.rdN p x.a (csrWords x.num))) else v) u).advance)) ∧
    ∀ (t : Nat) (v : W64),
      s.readCsr t 0x010 = s.clock (tidCore t) ∧ s.readCsr t 0x011 = s.cyc ∧ s.readCsr t 0x009 = s.node.toNat ∧
      s.readCsr t 0x000 = t % 32 ∧ s.readCsr t 0x006 = t / 2048 ∧
      s.readCsr t 0x00E = (s.coreFlags (tidCore t) (s.ctxOf t) ||| (s.ctx (s.ctxOf t)).fstat).toNat ∧
      s.readCsr t 0x00F = ((s.thread t).tl * 2 ^ 18 + (s.thread t).cp * 2 ^ 12 + (s.thread t).stc * 2 ^ 6 +
        (s.thread t).ld) % 2 ^ 32 ∧
      ((s.thread t).handler = false → ∀ n ∈ [0x100, 0x101, 0x102, 0x103, 0x104, 0x105], s.readCsr t n = 0) ∧
      ((s.thread t).handler = true → s.readCsr t 0x100 = (s.thread t).trap.tcode.toNat ∧
        s.readCsr t 0x101 = (s.thread t).trap.tpc.toNat ∧ s.readCsr t 0x102 = (s.thread t).trap.tidx.toNat ∧
        s.readCsr t 0x103 = (s.thread t).trap.taddr.toNat ∧ s.readCsr t 0x104 = (s.thread t).trap.tapc.toNat ∧
        s.readCsr t 0x105 = (s.thread t).trap.tinfo.toNat) ∧
      ((s.thread t).handler = false → s.writeCsr t 0x101 v = s ∧ s.writeCsr t 0x102 v = s) ∧
      ((s.thread t).handler = true → (s.writeCsr t 0x101 v).readCsr t 0x101 = v.toNat ∧
        (s.writeCsr t 0x102 v).readCsr t 0x102 = v.toNat % 16) ∧
      (s.writeCsr t 0x00E v).coreFlags (tidCore t) (s.ctxOf t) = v.extractLsb' 0 7 ∧
      ((s.writeCsr t 0x00E v).ctx (s.ctxOf t)).fstat = v.extractLsb' 0 7 ∧
      (s.writeCsr t 0x110 v).readCsr t 0x110 = v.toNat % 2 ^ 32 ∧ s.writeCsr t 0x010 v = s

/-- R364: a TLBI whose release is over, with nothing still going that used what it drops, takes every entry it names
out of every buffer of the package, and goes on; one that has dropped them already goes on once nothing is still going. -/
def Obligations.TranslationInvalidation : Prop :=
  ∀ (s : State) (g : Group) (i : Instr) (named : State → Nat → Nat → Nat → Nat → Bool),
    (match i with
      | .tlbiVa x => named = tlbiNamesVa x
      | .tlbiCtx x => named = fun s t c _ _ => decide (c = (s.rd t x.a).toNat)
      | .tlbiAll _ => named = fun _ _ _ _ _ => true
      | _ => False) →
    let ps := s.participants g i
    let u := s.sendAllOwn ps
    let gone (e : TlbEnt) : Bool := ps.any fun t => named u t e.ctx e.va e.size
    let dropped := u.dropTlb fun e => !gone e
    let used := u.translatedBy gone fun c a => ps.any fun t => named s t c (a.toNat % 2 ^ 56) 1
    (ps = [] → Completes s g i s.advance) ∧
    (∀ p l, ps.head? = some p → (s.thread p).tlbi = some (some l) → s.stillGoing l = false →
      Completes s g i (ps.foldl (fun v t => (v.releaseDone (some .pkg) t).modThread t fun x => { x with tlbi := none })
        s).advance) ∧
    ((∀ p, ps.head? = some p → (s.thread p).tlbi = none ∨ (s.thread p).tlbi = some none) → ps ≠ [] →
      (∀ p ∈ ps, u.releaseWaits p .pkg = false) →
      dropped.stillGoing used = false →
      Completes s g i (ps.foldl (fun v t => (v.releaseDone (some .pkg) t).modThread t fun x => { x with tlbi := none })
        dropped).advance) ∧
    (∀ (keep : TlbEnt → Bool) (c : Nat), ((s.dropTlb keep).core c).tlb = (s.core c).tlb.filter keep ∧
      ((s.dropTlb keep).quad c).tlb = (s.quad c).tlb.filter keep ∧ (s.dropTlb keep).mem = s.mem)

/-- R401, R402: HALT, HALT.run, HALT.step and HALT.save complete for each participant once the operation on the named
workgroups is done, and write its status: the first three in the step that issues them, HALT.save once what it saves has
nothing outstanding. A halted workgroup's waits hold the cycles they have left, and count on when it goes on. -/
def Obligations.Halts : Prop :=
  ∀ (s : State) (g : Group),
    (∀ x : DAB, EachCompletes s g (.halt x) (fun ps => haltOne .halt x ps s) ∧
      EachCompletes s g (.haltRun x) (fun ps => haltOne .run x ps s) ∧
      EachCompletes s g (.haltStep x) (fun ps => haltOne .step x ps s) ∧
      EachCompletes s g (.haltSave x) (fun ps => haltOne .save x ps s)) ∧
    (∀ (op : HaltOp) (x : DAB) (ps : List Nat) (r : State) (t k : Nat) (u : State), isCp t = false →
      s.haltOp op (r.rd t x.a) (r.rd t x.b).toNat (some (s.thread t).wg) = .done k u → u.hasThread t = true →
      haltOne op x ps r s t = (u.status t (State.statusReg x.d ps t) k, true)) ∧
    (∀ (op : HaltOp) (x : DAB) (i : Instr) (p k : Nat) (u : State),
      i = (match op with | .halt => .halt x | .run => .haltRun x | .step => .haltStep x | .save => .haltSave x) →
      s.participants g i = [p] → g.part = [] →
      s.haltOp op (s.rd p x.a) (s.rd p x.b).toNat (some (s.thread p).wg) = .done k u → u.hasThread p = true →
      Completes s g i (u.status p x.d k).advance) ∧
    (∀ (op : HaltOp) (a : W32) (c w : Nat), (op ≠ .save → ∃ k u, s.haltOp op a c (some w) = .done k u) ∧
      ((256 ≤ c ∨ w ∈ s.namedWgs a c) → s.haltOp op a c (some w) = .done 2 s)) ∧
    ∀ w, ((s.haltWg w).wg w).halted = true ∧ ((s.resumeWg w).wg w).halted = false ∧ (s.haltWg w).mem = s.mem ∧
      ((s.wg w).halted = false → ∀ t y, tget s.threads t = some y → y.wg = w →
        ((s.haltWg w).thread t).wait.map (·.deadline) = y.wait.map fun x => x.deadline.map (· - s.cyc))

/-- R303, R306: in a queue program QPOP takes the next eight bytes of the packet's body, or 0 and a false predicate at
its end; QPUSH.rep and QPUSH.fwd hold a word while there is room, and say so in a predicate. -/
def Obligations.QueueInstructions : Prop :=
  ∀ (s : State) (g : Group) (t : Nat) (r : Run),
    let run (u : State) := tget u.runs (tidCore t - 256)
    let n (r : Run) : Run := { r with count := r.count + 1, last := some (g.pc, g.idx) }
    (∀ x : QpopArgs, ClearRun s g (.qpop x) t r → s.guardTrue t x.g = true → x.d.fits 2 →
      let had : Bool := decide (r.pos < r.packet.body.length)
      ∃ u, exec (.qpop x) s = .next u ∧ u.mem = s.mem ∧ (x.c ≠ 7 → u.rdP t x.c = had) ∧
        (x.d ≠ .zero → u.rdN t x.d 2 = if had then fieldAt r.packet.body r.pos 8 % 2 ^ 64 else 0) ∧
        run u = some { n r with pos := if had then r.pos + 8 else r.pos }) ∧
    (∀ x : QpushArgs, ClearRun s g (.qpushRep x) t r → s.guardTrue t x.g = true →
      let room : Bool := decide (r.words.length < 29)
      ∃ u, exec (.qpushRep x) s = .next u ∧ u.mem = s.mem ∧ (x.c ≠ 7 → u.rdP t x.c = room) ∧
        run u = some { n r with words := if room then r.words ++ [s.rd64 t x.a] else r.words }) ∧
    (∀ x : QpushFwdArgs, ClearRun s g (.qpushFwd x) t r → s.guardTrue t x.g = true →
      let q := (s.rd t x.b).toNat
      let room : Bool := decide (q ≤ 63) && (r.fwdTo = none || r.fwdTo = some q) && decide (r.fwd.length < 32)
      ∃ u, exec (.qpushFwd x) s = .next u ∧ u.mem = s.mem ∧ (x.c ≠ 7 → u.rdP t x.c = room) ∧
        run u = some (if room then { n r with fwdTo := some q, fwd := r.fwd ++ [s.rd64 t x.a] } else n r)) ∧
    (ClearRun s g (.nop ⟨⟨7, false⟩⟩) t r → exec (.nop ⟨⟨7, false⟩⟩) s = .next (counted s g t r).advance)

/-- R380: the CRYP instructions of a management run complete for its thread: the transcript and the attachment grow as each
says, with status 0, a full attachment has status 1 and an operand out of range status 2. The nonce's bytes are free
values (notes/assumptions/4.md). -/
def Obligations.SecurityInstructions : Prop :=
  ∀ (s : State) (g : Group) (t : Nat) (r : Run),
    let c := counted s g t r
    let ok (i : Instr) (u : State) := ClearRun s g i t r → s.participants g i = [t] → exec i s = .next u.advance
    (∀ x : DAB, (∀ u, c.crypSpan x false t = some u → ok (.crypTh x) u) ∧
      (∀ u, c.crypSpan x true t = some u → ok (.crypEmit x) u) ∧
      (attachMax < (s.rd t x.b).toNat → ∀ emit, c.crypSpan x emit t = some (c.status t x.d 2)) ∧
      (∀ bs u, (s.rd t x.b).toNat ≤ attachMax → c.readWindow t (s.rd64 t x.a) (s.rd t x.b).toNat = .ok bs u →
        c.crypSpan x false t = some ((u.modRun t fun r => { r with transcript := r.transcript ++ bs }).status t x.d 0) ∧
        c.crypSpan x true t = some (u.appendAttach t x.d bs true)) ∧
      ok (.crypCert x) (if attachMax < (s.rd t x.b).toNat ∨ Config.certChain.length < (s.rd t x.a).toNat + (s.rd t x.b).toNat
        then c.status t x.d 2
        else c.appendAttach t x.d (slice Config.certChain (s.rd t x.a).toNat (s.rd t x.b).toNat) true)) ∧
    (∀ x : DA, ok (.crypMeas x) (if 15 < (s.rd t x.a).toNat then c.status t x.d 2
      else c.appendAttach t x.d (s.sec.meas.getD (s.rd t x.a).toNat []) true)) ∧
    (∀ x : DstArgs,
      ok (.crypNonce x) ({ c with sec := { c.sec with draws := c.sec.draws + 1 } }.appendAttach t x.d
        ((upTo 32).map (Config.nonceByte c.sec.draws)) true) ∧
      ok (.crypSign x) (c.appendAttach t x.d (signBytes (((c.runOf t).map (·.transcript)).getD [])) false) ∧
      ok (.crypTinit x) ((c.modRun t fun r => { r with transcript := [] }).status t x.d 0) ∧
      ok (.crypTmark x) ((c.modRun t fun r => { r with checkpoint := r.transcript }).status t x.d 0) ∧
      ok (.crypTrest x) ((c.modRun t fun r => { r with transcript := r.checkpoint }).status t x.d 0)) ∧
    (∀ (u : State) (d : Reg) (bs : List Byte) (extend : Bool) (q : Run), u.runOf t = some q →
      (attachMax < q.attach.length + bs.length → u.appendAttach t d bs extend = u.status t d 1) ∧
      (q.attach.length + bs.length ≤ attachMax →
        (u.appendAttach t d bs extend).runOf t = some { q with
          attach := q.attach ++ bs, transcript := if extend then q.transcript ++ bs else q.transcript }))

/-- R404, R405: each MIGR step completes at issue for each participant in turn, with its status: 0 where the session's last
step lets it follow, as the table of R405 has it, 1 while the previous step is in progress or held by the run, 2 where it
may not. With status 0 the step of a kernel begins at issue, which is the model's choice (notes/assumptions/43.md), and that
of a queue program is held by its run. -/
def Obligations.MigrationInstructions : Prop :=
  ∀ (s : State) (g : Group),
    let done (i : Instr) (step : MStep) (d a : Reg) (desc : State → Nat → W64) :=
      Completes s g i ((s.participants g i).foldl (State.migrOne step d a desc (s.participants g i) s) s).advance
    (∀ x : DAB, done (.migrOpen x) .open x.d x.a (fun v p => v.rd64 p x.b) ∧
      done (.migrLand x) .land x.d x.a (fun v p => v.rd64 p x.b)) ∧
    (∀ x : DA, done (.migrRound x) .round x.d x.a (fun _ _ => 0) ∧ done (.migrStop x) .stop x.d x.a (fun _ _ => 0) ∧
      done (.migrAbort x) .abort x.d x.a (fun _ _ => 0) ∧ done (.migrClose x) .close x.d x.a (fun _ _ => 0)) ∧
    (∀ (p : Nat),
      let begins (i : Instr) (step : MStep) (d a : Reg) (va : W64) :=
        let c := (s.rd p a).toNat
        (Clear s g i → s.participants g i = [p] → s.migrStatus p c step = 0 →
          exec i s = .next ((s.beginStep c (s.ctxOf p) step va).wrD p d 1 0).advance) ∧
        (Clear s g i → s.participants g i = [p] → s.migrStatus p c step ≠ 0 →
          exec i s = .next (s.wrD p d 1 (s.migrStatus p c step)).advance) ∧
        (∀ r, let u := counted s g p r
          ClearRun s g i p r → s.participants g i = [p] → u.migrStatus p c step = 0 →
            exec i s = .next ((u.modRun p fun y => { y with held := y.held ++ [.migr c step va] }).wrD p d 1 0).advance)
      (∀ x : DAB, begins (.migrOpen x) .open x.d x.a (s.rd64 p x.b) ∧ begins (.migrLand x) .land x.d x.a (s.rd64 p x.b)) ∧
      (∀ x : DA, begins (.migrRound x) .round x.d x.a 0 ∧ begins (.migrStop x) .stop x.d x.a 0 ∧
        begins (.migrAbort x) .abort x.d x.a 0 ∧ begins (.migrClose x) .close x.d x.a 0)) ∧
    (∀ t c step, 256 ≤ c → s.migrStatus t c step = 2) ∧
    (∀ t c step, c < 256 → s.heldStep t c = true → s.migrStatus t c step = 1) ∧
    ∀ t c, c < 256 → s.heldStep t c = false →
      (s.sessionOf c = none → s.migrStatus t c .open = (if s.active c then 0 else 2) ∧
        s.migrStatus t c .land = (if s.active c then 2 else 0) ∧ s.migrStatus t c .round = 2 ∧
        s.migrStatus t c .stop = 2 ∧ s.migrStatus t c .abort = 2 ∧ s.migrStatus t c .close = 2) ∧
      (∀ x step, s.sessionOf c = some x → x.doing ≠ none → s.migrStatus t c step = 1) ∧
      (∀ x, s.sessionOf c = some x → x.doing = none →
        s.migrStatus t c .open = 2 ∧ s.migrStatus t c .land = 2 ∧
        s.migrStatus t c .round = (if x.last = some .open ∨ x.last = some .round then 0 else 2) ∧
        s.migrStatus t c .stop = (if x.last = some .open ∨ x.last = some .round then 0 else 2) ∧
        s.migrStatus t c .abort = (if x.last = some .open ∨ x.last = some .round ∨ x.last = some .stop then 0 else 2) ∧
        s.migrStatus t c .close = (if x.last = some .stop then 0 else 2))

/-! ### Events of the memory system and of the fabric (06 to 09) -/

namespace Sys2Proof

/-- An event answers a next state of which `P` holds. -/
def Gives (i : Instr) (s : State) (P : State → Prop) : Prop := ∃ t, exec i s = .next t ∧ P t

/-- Access `a` of thread `p` has left its core for this package's memory, nothing holds it there (R41, R176, R189, R192,
R193, R414), it finds no copy of its line in its core's L1, no poison stands, and it is no acquire. -/
structure MayReturn (s : State) (a : Access) (p : Nat) : Prop where
  there : s.accs.find? (fun x => x.id = a.id) = some a
  tids : a.tids = [p]
  live : s.hasThread p = true
  home : s.isLocal a.pa = true
  alone : s.behindOwn a = false
  unowned : s.ownedLine (a.pa / 128) = false
  cool : s.sliceHot a.pa = false
  sent : s.flitWaits a.id = false
  order : a.sc = true → ∀ b ∈ s.storesOf a.core, b.id ≠ a.id → b.meets a.pa a.op.len = false
  floor : s.floorOk (s.thread p).floor a.pa = true
  plain : a.acq = none
  unread : s.hitsL1 a none = none
  clean : s.poison = []

/-- The access is complete in `t`: it is no longer outstanding, its counter has fallen by one, and its destination,
where it has one, holds `v`. -/
def completed (s t : State) (a : Access) (p v : Nat) : Prop :=
  t.accs = s.accs.filter (fun x => x.id ≠ a.id) ∧
  (t.thread p).ctr a.ctr = (s.thread p).ctr a.ctr - 1 ∧
  (a.dst ≠ .zero → a.dst.fits a.grp.2 → t.rdN p a.dst a.grp.2 = v % 2 ^ (32 * a.grp.2))

end Sys2Proof

/-- R38, R41, R174, R200, R207, R211, R212: LOAD_RETURN completes an access at its home. A load delivers the bytes there with
its core's own queued stores laid over them; an atomic leaves its new value and delivers the old one; a comparison that
fails writes nothing; an STBQ delivers status 0, or 1 where its slice has no room for the line. -/
def Obligations.AccessesComplete : Prop :=
  ∀ (s : State) (a : Access) (p : Nat), MayReturn s a p →
    let back := Instr.loadReturn a.id none
    let old (n : Nat) := mnat s.mem a.pa n
    let wrote (n v : Nat) := mputs s.mem a.pa (natLe n v)
    (∀ z, a.op = .load z → Gives back s fun t => t.mem = s.mem ∧
      completed s t a p (extendBy z (leNat (s.mergeQueued a.core a.pa (mbytes s.mem a.pa z.bytes))))) ∧
    (∀ u, s.acceptLine a.ctx a.wb false (a.pa / 128) = some u →
      (∀ op ty b, a.op = .atom op ty b → Gives back s fun t =>
        t.mem = wrote ty.bytes (atomNew op ty (old ty.bytes) b).1 ∧ completed s t a p (old ty.bytes)) ∧
      (∀ op ty b, a.op = .red op ty b → Gives back s fun t =>
        t.mem = wrote ty.bytes (atomNew op ty (old ty.bytes) b).1 ∧ completed s t a p 0) ∧
      (∀ ty c n, a.op = .cas ty c n → Gives back s fun t =>
        t.mem = (if old ty.bytes = c then wrote ty.bytes n else s.mem) ∧ completed s t a p (old ty.bytes)) ∧
      (∀ z d, a.op = .stbq z d → Gives back s fun t => t.mem = wrote z.bytes d ∧ completed s t a p 0)) ∧
    (s.acceptLine a.ctx a.wb false (a.pa / 128) = none →
      ∀ z d, a.op = .stbq z d → Gives back s fun t => t.mem = s.mem ∧ completed s t a p 1)

namespace Sys2Proof

/-- R199: access `a` has failed in `t` with a code: its counter has fallen, its destination reads 0, or 3 for an STBQ, and
a thread that was to learn of it holds a deferred error with its address, clause and index. Memory stands. -/
def failed (s t : State) (a : Access) (code : Nat) : Prop :=
  t.mem = s.mem ∧ ∀ p k, a.tids = [p] → a.nth = [k] → s.hasThread p = true → a.op.counted = true →
    (t.thread p).ctr a.ctr = (s.thread p).ctr a.ctr - 1 ∧
    (a.dst ≠ .zero → a.dst.fits a.grp.2 → ∀ z d, a.op = .stbq z d → t.rdN p a.dst a.grp.2 = 3) ∧
    ((∀ z d, a.op ≠ .stbq z d) →
      (a.dst ≠ .zero → a.dst.fits a.grp.2 → a.op.isLoad = true → t.rdN p a.dst a.grp.2 = 0) ∧
      ∃ e, (t.thread p).errs = (s.thread p).errs ++ [e] ∧ e.code = code ∧ e.addr = a.va ∧ e.apc = a.pc ∧ e.aidx = a.idx ∧
        e.nth = k ∧ e.ctr = a.ctr ∧ e.again = some a)

end Sys2Proof

/-- R184 to R188, R199, R205, R338: the events that empty a core's store queue and write-combining buffer, those that carry
a dirty line into DRAM as far as its context's bytes of the microsecond go (their division is the model's reading,
notes/assumptions/33.md), and those that tell of stores, accesses and
waits that cannot go on: after 128 us for what has left for another node, or at once where its home refuses an access
(R372). A store is in memory once its home has taken it, and its counter falls then. -/
def Obligations.StoresReachHome : Prop :=
  ∀ (s : State) (core : Nat),
    let spilled (m : Memory) (l : List Access) := l.foldl (fun m a => mputs m a.pa (natLe a.op.len a.op.data)) m
    (∀ a rest, (s.core core).sq = a :: rest → s.ownedLine (a.pa / 128) = false → s.sliceHot a.pa = false →
      (s.acceptLine a.ctx a.wb false (a.pa / 128) = none →
        exec (.storeAtHome core) s = .next (s.modCore core fun k => { k with sqHeld := true })) ∧
      (∀ u, s.acceptLine a.ctx a.wb false (a.pa / 128) = some u → Gives (.storeAtHome core) s fun t =>
        t.mem = mputs s.mem a.pa (natLe a.op.len a.op.data) ∧ (t.core core).sq = rest ∧ (t.core core).sqHeld = false ∧
        ∀ p, a.tids = [p] → s.hasThread p = true → a.op.isStore = true → (t.thread p).stc = (s.thread p).stc - 1)) ∧
    (∀ line c u, (s.core core).sqHeld = true → s.tailLine core = some (line, c) → s.ownedLine line = false →
      s.sliceHot (line * 128) = false → s.acceptLine c false true line = some u →
      Gives (.spill core) s fun t =>
        t.mem = spilled s.mem ((s.core core).sq.filter fun a => a.pa / 128 = line) ∧
        (t.core core).sq = ((s.core core).sq.filter fun a => a.pa / 128 ≠ line) ∧ (t.core core).sqHeld = false) ∧
    (∀ line d, tget s.dirty line = some d → d.wb = false → s.sliceHot (line * 128) = false →
      let left (t : Tbl Nat) : Nat := (tget t (sliceDie (s.dirtySlice line) * 256 + d.ctx)).getD 0
      ((d.spilled = true ∨ 128 ≤ left s.market.share ∨ 128 ≤ left s.market.topUp) →
        Gives (.dramWrite line) s fun t => t.dirty = tdel s.dirty line ∧
          { t with dirty := s.dirty, meters := s.meters, market := s.market } = s ∧
          { t.market with share := s.market.share, topUp := s.market.topUp } = s.market) ∧
      (d.spilled = false → left s.market.share < 128 → left s.market.topUp < 128 → exec (.dramWrite line) s = .next s)) ∧
    (∀ n e, (s.core core).wcb[n]? = some e → (s.core core).wcb.find? (fun x => x.id = e.id) = some e → e.sent = none →
      e.since + 8000 ≤ s.now →
      Gives (.wcbSend core n) s fun t => t.mem = s.mem ∧ (t.core core).wcb =
        if s.fabricOk (s.ctxTenant e.ctx) (State.portTo (e.line * 128)) then
          (s.core core).wcb.map fun x => if x.id = e.id then { x with sent := some s.now } else x
        else (s.core core).wcb.filter fun x => x.id ≠ e.id) ∧
    (∀ t g x, s.groupOf t = some g → State.instrAt g = some (.st x) → g.stalled = true → s.guardTrue t x.g = true →
      let va := s.addr64 t x.base (x.off.toInt * x.size.bytes)
      let c := s.ctxOf t
      let spill := s.spillTraps c && s.spillUsed (tidCore t) c
      ∀ from_, (s.thread t).fullFrom = some from_ →
        (spill = true → exec (.storeBackpressure t) s = .next (s.trap t tcSpillQuota va)) ∧
        (spill = false → s.pressureTraps c = true → s.storeThresh c < s.cyc - from_ →
          exec (.storeBackpressure t) s = .next (s.trap t tcBackpressure va)) ∧
        (spill = false → s.pressureTraps c = false ∨ s.cyc - from_ ≤ s.storeThresh c →
          exec (.storeBackpressure t) s = .next s)) ∧
    (∀ a refused, s.outSaved = [] → s.accs.find? (fun x => x.id = a.id) = some a → a.id < 2 ^ 32 → s.isLocal a.pa = false →
      (if refused then State.isHost a.pa = false ∧ s.flitWaits a.id = false
        else s.flitPending a.id = false ∧ a.sent + 512000 ≤ s.now) →
      Gives (.accessLoss ⟨a.id, refused⟩) s fun t => failed s t a tcPeerUnreachable) ∧
    (∀ t w, (s.thread t).wait = some w → w.sent + 512000 ≤ s.now → s.flitWaits (State.waitFlit t) = false →
      s.flitPending (State.waitFlit t) = false →
      ((∃ va r st, w.kind = .wmark va r st ∧ 48 ≤ r) ∨
        ∃ va pa ty b cond acq ext, w.kind = .mem va pa none ty b cond acq ext ∧ s.isLocal pa = false) →
      exec (.accessLoss ⟨2 ^ 32 + t, false⟩) s = .next ((s.ctxFault (s.ctxOf t) tcPeerUnreachable).endWait t 3))

/-- R191, R199, R229 to R232, R236: ordered operations. One below its receiver's watermark is rejected, and fails at its
source as R199 says, counted as late; a receiver holds the others, spills what passes its entries, and applies the one of
lowest stamp, only below its watermark; an acknowledgement delivers the value read; and a store to another node takes
effect once nothing of lower rank for its receiver is still to be applied. What comes back is stated here while no saved
workgroup awaits an answer. -/
def Obligations.OrderedEvents : Prop :=
  ∀ (s : State) (id : Nat) (o : OrdOp), s.ords.find? (fun x => x.id = id) = some o →
    (s.outSaved = [] → o.st = .sent → 48 ≤ o.recv ∨ o.rank.stamp < s.markOf o.recv → s.flitWaits id = false →
      ∀ a, o.work = .access a → Gives (.orderLate id) s fun t => t.ords = s.ords.filter (fun x => x.id ≠ o.id) ∧ failed s t a tcOrderLate) ∧
    (o.st = .sent → o.recv < 48 → o.rank.stamp < s.markOf o.recv →
      exec (.orderedPacketArrival (.own id)) s = .next (s.setOrd id fun x => { x with st := .rejected })) ∧
    (o.st = .sent → o.recv < 48 → s.markOf o.recv ≤ o.rank.stamp →
      exec (.orderedPacketArrival (.own id)) s = .next
        ((s.setOrd id fun x => { x with st := .held }).makeRoom o.recv).drainRecvs) ∧
    (∀ old stamp reply, s.outSaved = [] → o.st = .applied old stamp → exec (.orderedAck ⟨id, reply⟩) s = .next (s.ackOrd o old stamp).pumpFlushes) ∧
    (∀ old stamp a p, o.work = .access a → a.tids = [p] → s.hasThread p = true → a.op.counted = true → a.acq = none →
      let u := s.ackOrd o old stamp
      u.mem = s.mem ∧ u.ords = s.ords.filter (fun x => x.id ≠ o.id) ∧ completed s u a p old) ∧
    (∀ reply, s.outSaved = [] → o.st = .rejected →
      exec (.orderedAck ⟨id, reply⟩) s = .next ((s.countLate o).failOrd o tcOrderLate).pumpFlushes) ∧
    (∀ a z d p, s.outSaved = [] → o.st = .sent → 48 ≤ o.recv → s.flitWaits id = false → s.rankBehind o = false → s.ordOwned o = false →
      o.work = .access a → a.op = .store z d → s.isLocal a.pa = false → a.tids = [p] → s.hasThread p = true → a.acq = none →
      (∀ c ∈ s.cores, c.2.flushes = []) → Gives (.orderedAck ⟨id, none⟩) s fun t =>
        t.mem = mputs s.mem a.pa (natLe z.bytes d) ∧ t.ords = s.ords.filter (fun x => x.id ≠ o.id) ∧
        (t.thread p).stc = (s.thread p).stc - 1) ∧
    (∀ reply, s.outSaved = [] → o.st = .sent → s.rankBehind o = true → exec (.orderedAck ⟨id, reply⟩) s = .next s.pumpFlushes) ∧
    (∀ r n, s.nextHeld r = some n → n ∈ s.ords ∧ n.recv = r ∧ n.st = .held ∧ n.rank.stamp < s.markOf r ∧
      ∀ m ∈ s.ords, m.recv = r → m.st = .held → n.rank.stamp ≤ m.rank.stamp)

/-- R227, R228, R232 to R235, R237, R240, R241, R372: what the fabric tells a package. A beacon raises its input's watermark
and lowers none, and a cut input rejoins above all that has been advertised since; a packet of another node is rejected,
refused or held before its head's watermark counts; a receiver that has not moved for 64 us asks for a cut, which an input
heard within 64 us refuses as slow, and one that stands cut already tells it of; links go down and train, an end of the
die-to-die link rejoining by the same comparison (that it never grants a cut is notes/assumptions/10.md, and what is
written back where a receiver runs out of entries notes/assumptions/55.md); and every microsecond brings a port its
tokens, at most its CEIL. A cut is told here while no saved workgroup awaits an answer. -/
def Obligations.FabricEvents : Prop :=
  ∀ (s : State) (node port : Nat),
    (∀ wm onode oport, node ≠ s.node.toNat → let r := 48 + node * 4096 + port % 4096
      Gives (.beacon node port wm onode oport) s fun t =>
        (t.recv r).w = max (s.recv r).w wm ∧ { t with recvs := s.recvs } = s) ∧
    (∀ wm onode oport, node = s.node.toNat → State.isFabricPort port = true → (∀ o ∈ s.ords, o.st ≠ .held) →
      Gives (.beacon node port wm onode oport) s fun t =>
        (t.port port).wm = max (s.port port).wm wm ∧ (t.port port).onode = onode ∧ (t.port port).oport = oport ∧
        (t.port port).heard = s.now ∧
        (t.port port).cut = ((s.port port).cut && decide (wm ≤ max (s.port port).adv s.syncRecvs.meshMark)) ∧
        { t with recvs := s.recvs, ports := s.ports } = s) ∧
    (∀ p : InPacket, p.port < 24 →
      let v := s.syncRecvs.rejoinPort (State.fabricPort p.port) p.wm
      let r := v.homeOf p.addr
      let ok := v.remoteOkFor p.tenant p.addr && v.remoteOkFor p.tenant (p.addr + State.homeLen p.op - 1)
      let heard (u : State) := ((u.hearPort (State.fabricPort p.port) p.wm p.onode p.oport).syncRecvs).drainRecvs
      let late := v.setPort (State.fabricPort p.port)
        { v.port (State.fabricPort p.port) with late := (v.port (State.fabricPort p.port)).late + 1 }
      exec (.orderedPacketArrival (.inbound p)) s = .next (heard
        (if p.rank.stamp < (v.recv r).w then { late with sent := late.sent ++ [.ordRejected p.rank.pkg p.rank.idx p.rank.seq] }
        else if ok = false then v.refuseInbound p.port
        else State.makeRoom { v with
          fresh := v.fresh + 1
          ords := v.ords ++ [{ id := v.fresh, rank := p.rank, src := 512 + p.port, recv := r
                               work := .inbound p.op p.addr p.tenant, st := .held, left := v.now }] } r))) ∧
    (∀ r, let v := s.syncRecv r
      (v.ords.any fun o => o.recv = r && o.st = .held) = true → (v.recv r).asked = false → (v.recv r).moved + 256000 ≤ s.now →
      Gives (.stallDetect r) s fun t => (t.recv r).asked = true ∧ t.mem = s.mem ∧
        t.sent = s.sent ++ [.cutAsk (v.lowestOrigin (sliceDie r)).1 (v.lowestOrigin (sliceDie r)).2]) ∧
    (∀ r slow, s.outSaved = [] → node = s.node.toNat →
      let answer (u : State) (b : Bool) := if r < 48 then u.hearAnswer r b else { u with sent := u.sent ++ [.cutAnswer r port b] }
      (s.inputUp port = false → (s.port port).cut = false → exec (.cutRequest r node ⟨port, slow⟩) s = .next s) ∧
      (s.inputUp port = false → (s.port port).cut = true → exec (.cutRequest r node ⟨port, slow⟩) s =
        .next ((answer (s.tellCut r node port) false).syncRecvs).drainRecvs) ∧
      (s.inputUp port = true → (State.isFabricPort port = false ∨ s.now < (s.port port).heard + 256000) →
        exec (.cutRequest r node ⟨port, slow⟩) s = .next (answer (s.setPort port
          { s.port port with trained := true, slow := (s.port port).slow + 1 }) true)) ∧
      (s.inputUp port = true → State.isFabricPort port = true → (s.port port).heard + 256000 ≤ s.now →
        exec (.cutRequest r node ⟨port, slow⟩) s =
          .next ((answer ((s.tellCut r node port).cutPort port) false).syncRecvs).drainRecvs)) ∧
    (∀ r slow, s.outSaved = [] → node ≠ s.node.toNat →
      let u := if slow = false ∧ 0x100 ≤ node ∧ port = s.node.toNat then s.forgetLost (node - 0x100) else s
      exec (.cutRequest r node ⟨port, slow⟩) s = .next (if r < 48 ∧ (s.recv r).asked = false then u
        else if slow then u.hearAnswer r true else (u.tellCut r node port).hearAnswer r false)) ∧
    ((s.cutPort port).port port).cut = true ∧ ((s.cutPort port).port port).cuts = (s.port port).cuts + 1 ∧
    (node = s.node.toNat → State.isLinkInput port = true → s.inputUp port = true → (∀ o ∈ s.ords, o.st ≠ .held) →
      Gives (.linkDown node port) s fun t => (t.port port).cut = true ∧ (t.port port).trained = false ∧ t.mem = s.mem) ∧
    (node = s.node.toNat → State.isFabricPort port = true → Gives (.linkTrained node port) s fun t =>
      (t.port port).trained = true ∧ (t.port port).heard = s.now ∧ { t with recvs := s.recvs, ports := s.ports } = s) ∧
    (node = s.node.toNat → State.isFabricPort port = false → State.isLinkInput port = true →
      let v := s.syncRecvs
      (tget s.ports port = none → exec (.linkTrained node port) s = .next s) ∧
      (tget s.ports port ≠ none → exec (.linkTrained node port) s = .next
        ((v.setPort port { v.port port with trained := true, heard := v.now }).syncRecvs).drainRecvs)) ∧
    (∀ die, let x := s.port (State.linkPort die)
      (s.rejoinLink die).port (State.linkPort die) = { x with
        cut := x.cut && !(x.trained && decide (max x.adv s.meshMark < s.inputMark (1 - die))) }) ∧
    exec (.crcRetry port) s = .next { s with crc := tadd s.crc port 1 } ∧
    ((tget s.shared port).getD 0 + 4000 ≤ s.now → s.hotPorts.contains port = false →
      Gives (.tokenRedistribution port) s fun t => tget t.shared port = some s.now ∧ t.mem = s.mem ∧
        ((∀ x ∈ s.tenants, s.queuedAt x.1 port = 0) → { t with tenants := s.tenants, shared := s.shared } = s) ∧
        ∀ i x, tget s.tenants i = some x → s.queuedAt i port = 0 → ∃ y, tget t.tenants i = some y ∧
          let own := s.lanesOf i port * 3125
          let ceil := bitsOf ((tget x.fabric port).getD 0) 1 3 * 3125
          tget y.flits port = some (min ((tget x.flits port).getD 0 + if ceil = 0 then own else min own ceil)
            (s.portDepth i port)) ∧ tget y.used port = some 0)

/-! ### Events of copies, tiles and the matrix engine (05, 09) -/

/-- R242 to R249, R259, R260: TSET_WRITTEN fills its tiles; COPY_ACCEPT accepts the first issued command of a core, with no
earlier store to wait for and no codebook still to load, once its checks pass and its tiles and lines are free, or refuses
it with a report; COPY_COMPLETE, of a command with no line at a slice that stands still (R414), moves the bytes, then signals, releases the tiles, arrives and lowers CP. A flush sends its refused entries
to their alternate pens once every primary reply is in, drops those that have none, and ends with its record in memory
(R263, R264). -/
def Obligations.CopyEvents : Prop :=
  ∀ (s : State) (core : Nat),
    (∀ n o, (s.core core).tsets[n]? = some o → Gives (.tsetWritten core n) s fun t => t.mem = s.mem ∧
      (t.core core).tsets = ((s.core core).tsets.filter fun y => y.id ≠ o.id) ∧
      (t.wg o.wg).scr = mputs (s.wg o.wg).scr (o.t * 4096) ((upTo (o.cnt * 1024)).flatMap fun _ => natLe 4 o.pat.toNat) ∧
      ∀ k, o.t ≤ k → k < o.t + o.cnt → (t.tileOf o.wg k).full = true ∧ (t.tileOf o.wg k).fill = (s.tileOf o.wg k).fill - 1) ∧
    (∀ m, (s.core core).cmds.find? (fun m => m.stage ≠ .moving) = some m → m.stage = .issued →
      (s.earlierStores core m = true ∨ (m.wg ∈ (s.core core).loads ∧ State.kindCb m.kind = some 0)) → exec (.copyAccept core) s = .next s) ∧
    (∀ m, (s.core core).cmds.find? (fun m => m.stage ≠ .moving) = some m → m.stage = .issued → s.earlierStores core m = false →
      (m.wg ∉ (s.core core).loads ∨ State.kindCb m.kind ≠ some 0) →
      (∀ c va, s.checkCmd m = .refused c va → exec (.copyAccept core) s = .next (s.reportCmd core m c va)) ∧
      (s.checkCmd m = .absent → exec (.copyAccept core) s = .next s) ∧
      (∀ d pages u, s.checkCmd m = .ok d pages u →
        let ts := (State.mvsOf m.kind d).flatMap Mv.touches
        let m1 := { m with pages }
        let owns := (State.touchLines m1 true ts ++ State.sigLines m1).eraseDups
        let takes := State.touchLines m1 false ts
        let fills := u.touchTiles m.wg true ts
        (∀ x ∈ u.touchTiles m.wg false ts, (u.tileOf x.1 x.2).fill = 0 ∧ (u.tileOf x.1 x.2).drain = 0) →
        (∀ x ∈ fills, u.tileFree x.1 x.2 = true) → (∀ l ∈ owns, u.ownedLine l = false) →
        (ts = [] → State.sigLines m1 = [] → exec (.copyAccept core) s = .next (u.finishCmd core m)) ∧
        (ts ≠ [] → (∀ l ∈ takes ++ owns, Reaches u m.ctx (l * 128)) →
          Gives (.copyAccept core) s fun t => t.mem = u.mem ∧ ∃ m2,
            (t.core core).cmds = ((u.core core).cmds.map fun y => if y.id = m.id then m2 else y) ∧ m2.stage = .moving ∧
            m2.id = m.id ∧ m2.fills = fills ∧ m2.owns = owns ∧ m2.takes = takes ∧ m2.pages = pages))) ∧
    (∀ id m data, (s.core core).cmds.find? (fun m => m.id = id && m.stage = .moving) = some m →
      s.cmdBehind core m = false → s.flitWaits m.id = false → (∀ l ∈ m.takes ++ m.owns, s.sliceHot (l * 128) = false) →
      s.poison = [] →
      exec (.copyComplete core ⟨id, data⟩) s = .next (((((((m.takes ++ m.owns).foldl
        (fun v l => v.hearFlit (l * 128)) s).learnBytes m data).moveBytes m core).signalCmd m).releaseTiles m).finishCmd core m) ∧
      (∀ p src dst, m.kind = .linear src dst 1 1 0 0 .glob .glob none 0 → m.tid = some p → s.hasThread p = true →
        m.bar = none → m.fills = [] → m.drains = [] → m.done = 0 →
        Gives (.copyComplete core ⟨id, []⟩) s fun t =>
          t.mem = mput s.mem (State.cmdPa m dst) (mget s.mem (State.cmdPa m src)) ∧
          (t.core core).cmds = ((s.core core).cmds.filter fun x => x.id ≠ id) ∧
          (t.thread p).cp = (s.thread p).cp - 1)) ∧
    (∀ id f, s.flush? core id = some f →
      ((f.res.any fun r => r = .waiting) = true → exec (.sndfAlternate core id) s = .next s ∧
        exec (.sndfCompletion core id) s = .next s) ∧
      (∀ e, f.ents = [e] → f.res = [.refused] → f.alts = [] →
        (e.alt = none → Gives (.sndfAlternate core id) s fun t =>
          t.flush? core id = some { f with res := [.dropped] } ∧ t.mem = s.mem) ∧
        (∀ pen u, e.alt = some pen →
          (s.modFlush core id fun f => { f with alts := f.alts ++ [0] }).sendRow core f 0 e pen = some u →
          exec (.sndfAlternate core id) s = .next u)) ∧
      ((∀ r ∈ f.res, r ≠ .waiting ∧ r ≠ .refused) → f.ents.length ≤ f.firsts.length →
        ∀ x u, s.translate core f.ctx f.recVa true false = .ok x u → u.sliceHot x.pa = false → Gives (.sndfCompletion core id) s fun t =>
          t.mem = mputs u.mem x.pa (s.sndRecord f) ∧
          (t.core core).flushes = ((u.core core).flushes.filter fun y => y.id ≠ id) ∧
          (u.hasThread f.tid = true → (t.thread f.tid).cp = (u.thread f.tid).cp - 1)))

namespace Sys2Proof

/-- R138, R142, R151: an entry has left its quad's table in `t`: its flags stand on its signers' cores, the TL counter of a
lone signer has fallen unless it counted none, and memory stands. -/
def entryLeft (s t : State) (q : Nat) (e : EngEnt) (fl : BitVec 7) : Prop :=
  t.mem = s.mem ∧ (t.quad q).table = ((s.quad q).table.filter fun y => y.id ≠ e.id) ∧
  (∀ p ∈ e.signers, t.coreFlags (tidCore p) e.ctx = s.coreFlags (tidCore p) e.ctx ||| fl) ∧
  (∀ p, e.signers = [p] → s.hasThread p = true → (∀ fw r, e.op ≠ .mnbr fw r) →
    (t.thread p).tl = (s.thread p).tl - (if e.op = .mswp then 0 else 1))

end Sys2Proof

/-- R138 to R142, R156 to R164: what a granted entry does when it completes: MLDS loads the shadow plane, MSWP exchanges the
planes, MMA adds the exact sums of its pass to its accumulator tile or, where the plane's tag differs, changes nothing and
raises INFORMAT, MACR writes its readout to its tiles, MACW and MACZ set accumulator rows and MNBR sets the role. -/
def Obligations.EngineCompletes : Prop :=
  ∀ (s : State) (q : Nat) (e : EngEnt), (s.quad q).table.find? (fun x => x.id = e.id) = some e → e.granted = true →
    s.poison = [] →
    let done (P : State → Prop) := Gives (.entryComplete q e.id) s P
    let x := s.quad q
    (e.op = .mswp → done fun t => entryLeft s t q e 0 ∧ (t.quad q).active = x.shadow ∧ (t.quad q).shadow = x.active ∧
      (t.quad q).acc = x.acc) ∧
    (∀ fw c, e.op = .mlds fw c → done fun t =>
      entryLeft s t q e (if planeBad (loadPlane fw c e.image) then fInformat else 0) ∧
      (t.quad q).shadow = loadPlane fw c e.image ∧ (t.quad q).active = x.active ∧ (t.quad q).acc = x.acc) ∧
    (∀ c, e.op = .macz c → done fun t => entryLeft s t q e 0 ∧
      (t.quad q).acc = accClear x.acc (macAt c) (macRow0 c) (macM c)) ∧
    (∀ c, e.op = .macw c → done fun t => entryLeft s t q e 0 ∧
      (t.quad q).acc = accLoad x.acc (macAt c) (macRow0 c) (macM c) e.image (macTile c)) ∧
    (∀ fw c, e.op = .macr fw c → (tget s.wgs e.wg).isSome = true → done fun t => entryLeft s t q e (readout fw c x.acc).2 ∧
      (t.wg e.wg).scr = mputs (s.wg e.wg).scr (macTile c * 4096) (readout fw c x.acc).1 ∧
      (t.quad q).acc = if macClr c then accClear x.acc (macAt c) (macRow0 c) (macM c) else x.acc) ∧
    (∀ fw r, e.op = .mnbr fw r → done fun t => entryLeft s t q e 0 ∧ (t.quad q).role = r.toNat % 16 ∧
      (t.quad q).chainFw = fw) ∧
    (∀ fw c, e.op = .mma fw c → e.pass = 0 →
      let st : Stream := { image := e.image, ta := mmaTa c, ts := mmaTs c, rows := mmaM c }
      let sums := passSums fw x.active st
      let w := passWrite c x.active.fb x.acc sums.1 []
      (tagOk fw x.active = false → done fun t => entryLeft s t q e fInformat ∧ (t.quad q).acc = x.acc) ∧
      (tagOk fw x.active = true → done fun t =>
        entryLeft s t q e (sums.2 ||| (if streamBad fw st then fInformat else 0) ||| w.2) ∧ (t.quad q).acc = w.1)) ∧
    (∀ fw c, e.op = .mma fw c → e.pass ≠ 0 → exec (.entryComplete q e.id) s = .next
      ((s.passEntries q e).foldl (fun r y => match y.2.op with
        | .mma _ k => r.runPass (s.passEntries q e) y.1 y.2 k s
        | _ => r) s))

/-- R143 to R147, R151, R163: a formed request whose tiles are as it needs them, in a table with room, is posted with the
bytes its sources hold, a chained one with its whole chain; a signer's time that is up withdraws its signature with
status 1; and the arbiter's choice is granted. -/
def Obligations.EngineEvents : Prop :=
  ∀ (s : State) (q : Nat),
    (∀ r, (s.quad q).reqs.find? (fun x => x.id = r.id) = some r → r.chained = false → s.postable q r = true →
      Gives (.requestPost q r.id) s fun t => ∃ e, (t.quad q).table = State.postEntry (s.quad q).table e ∧ e.id = r.id ∧ e.op = r.op ∧
        e.signers = r.signers ∧ e.image = s.tileImage r.wg r.srcs ∧ e.granted = r.granted ∧
        (t.quad q).reqs = ((s.quad q).reqs.filter fun x => x.id ≠ r.id) ∧ t.mem = s.mem) ∧
    (∀ r, (s.quad q).reqs.find? (fun x => x.id = r.id) = some r → r.chained = true →
      let all := (s.chainOf q).filterMap fun q => (s.firstChained q).map fun r => (q, r)
      all.length = (s.chainOf q).length → (all.any fun x => x.2.id = r.id) = true →
      (all.all fun x => s.postable x.1 x.2) = true →
      exec (.requestPost q r.id) s = .next (all.foldl (fun u x => u.enter x.1 s.fresh x.2) { s with fresh := s.fresh + 1 })) ∧
    (∀ t w k op d, (s.thread t).wait = some w → w.kind = .sign k op → w.deadline = some d → d ≤ s.cyc →
      (s.wgOf t).halted = false →
      exec (.collectiveTimeout t) s = .next ((s.withdrawSign t).endWait t 1) ∧
      (s.hasThread t = true → ((s.bar k).signers.filter fun x => x = t) = [t] → 1 < (s.bar k).n →
        (∀ r ∈ (s.quad (coreQuad (tidCore t))).reqs, t ∉ r.signers) →
        let u := (s.withdrawSign t).endWait t 1
        (u.thread t).wait = none ∧ (u.thread t).tl = (s.thread t).tl - 1 ∧ (u.bar k).n = (s.bar k).n - 1 ∧
          (u.bar k).signers = ((s.bar k).signers.filter fun x => x ≠ t) ∧ (u.bar k).p = (s.bar k).p)) ∧
    (∀ e, (s.quad q).table.find? (fun x => x.id = e.id) = some e → s.chosen q e = true →
      (e.pass = 0 → Gives (.grant q e.id) s fun t =>
        (t.quad q).table = ((s.quad q).table.map fun z => if z.id = e.id then { z with granted := true } else z) ∧
        { t with quads := s.quads } = s) ∧
      exec (.grant q e.id) s = .next ((s.passEntries q e).foldl (fun u x => u.modQuad x.1 fun y => { y with
        table := y.table.map fun z => if z.id = x.2.id then { z with granted := true } else z }) s))

/-! ### Waits, fetching and issue (10) -/

/-- R202, R218, R220, R221, R287, R297, R298: how waits end. A time that is up, of a wait that has read its word, gives
status 1. A WAIT that reads its word again gives status 2 once its page is not valid, performs its acquire and gives 0 when
its condition holds, and else goes on; a WAIT in this package reads again after every step, one on another node's memory or
a host's when a reply comes, and one whose page is no longer valid ends at once. Pod time or a watermark reached gives 0. The sheepdog traps every thread held inside its
context. -/
def Obligations.WaitsEnd : Prop :=
  ∀ (s : State),
    (∀ (t : Nat) (w : Wait), (s.thread t).wait = some w →
      (∀ d, w.deadline = some d → d ≤ s.cyc → w.first = false → (s.wgOf t).halted = false → (∀ k op, w.kind ≠ .sign k op) →
        exec (.waitTimeout t) s = .next (((s.withdraw t).sawWait t).endWait t 1) ∧
        ((∀ va pa g ty b cond acq ext, w.kind ≠ .mem va pa g ty b cond acq ext) → (∀ k, w.kind ≠ .meet k) → s.sawWait t = s) ∧
        ((∀ k, w.kind ≠ .meet k) → s.withdraw t = s)) ∧
      (∀ code, let u := s.endWait t code
        (u.thread t).wait = none ∧ (u.thread t).st = (if s.groupBlocked t then .blocked else .running) ∧ u.mem = s.mem ∧
        (w.d ≠ .zero → w.d.fits 1 → u.rdN t w.d 1 = code % 2 ^ 32)) ∧
      (∀ va pa g ty b cond acq ext, w.kind = .mem va pa g ty b cond acq ext →
        (s.poison = [] → ∀ reply, let u := s.rereadWait t reply
          (s.waitPlace t va pa g = .error true → u = s.endWait t 2) ∧
          (s.waitPlace t va pa g = .error false → u = s) ∧
          ∀ p, s.waitPlace t va pa g = .ok p →
            let m := if p = pa then s else s.watchAt t p
            (match g with | none => m.homeServes t p (waitLen ty) = true | some v => m.scratchLoadWaits v p = false) →
            let r := if g.isNone then m.learn p (waitLen ty) reply else m
            u = if waitCond cond ty (r.watched t p g ty) b then ((r.waitAcquire t p g ty acq).sawWord t p g ty).endWait t 0
              else r.waitOn t) ∧
        (w.first = false → s.waitOn t = s) ∧
        (g.isSome = true ∨ s.isLocal pa = true → s.endIfTrue t = s.rereadWait t none) ∧
        (g = none → s.isLocal pa = false →
          (s.waitPlace t va pa g = .error true → s.endIfTrue t = s.endWait t 2) ∧
          (s.waitPlace t va pa g ≠ .error true → w.idle = false → s.endIfTrue t = s)) ∧
        (g = none → s.isLocal pa = false → w.idle = false → ∀ reply,
          (State.isHost pa = false → s.flitWaits (State.waitFlit t) = false →
            exec (.waitWake ⟨t, reply⟩) s = .next ((s.hearFlit pa).rereadWait t reply)) ∧
          (State.isHost pa = true → w.first = true ∨ w.sent + 4000 ≤ s.now →
            exec (.waitHostPoll ⟨t, reply⟩) s = .next
              ((s.modThread t fun x => { x with wait := x.wait.map fun y => { y with sent := s.now } }).rereadWait t reply)))) ∧
      (∀ n, w.kind = .ptime n → n ≤ s.clock (tidCore t) → exec (.ptimeReached t) s = .next (s.endWait t 0)) ∧
      (∀ va r st, w.kind = .wmark va r st → s.passed r st = true →
        s.endIfTrue t = (s.raiseFloor t st).endWait t 0)) ∧
    ∀ c from_, (s.ctx c).still = some from_ → from_ + 4000000 ≤ s.now →
      let ts := (s.threads.filter fun x => decide (x.1 < 524288) && s.ctxOf x.1 = c && s.heldInside x.1 x.2).map (·.1)
      (∀ p ∈ ts, ∀ y d, (s.thread p).wait = some y → y.deadline = some d → s.cyc < d) →
      exec (.sheepdog c) s = .next (ts.foldl (fun u p =>
        if (u.thread p).wait.isSome then ((u.withdraw p).dropWait p).trap p tcSheepdog 0 else u)
        ((s.modCtx c fun x => { x with still := none }).ctxError c))

/-- R44 to R49, R51, R270 to R274, R385, R403: a clause that ready threads stand at is fetched whole, each word as memory holds
it or as an earlier fetch of its line found it; it is checked and kept by their core, or traps them with ILLEGAL_CLAUSE, and
a page that may not be fetched traps them too. At an enabled breakpoint the threads at its first instruction trap, and those
further on have the clause fetched. Ready threads that stand at one clause form a group with its members
running; and a workgroup whose threads have all come to rest enters its handler. Where the manual leaves these open, the
model's reading is notes/assumptions/54.md (N of a header that is not valid), 29.md (where a breakpoint is compared, and
the kill at a HANDLER that became 0) and 62.md (the lines that the instruction cache keeps). -/
def Obligations.FetchAndIssue : Prop :=
  ∀ (s : State) (core c : Nat) (pc : W64) (old : BitVec 17),
    (s.threadsAt core c pc ≠ [] → s.breakAt c pc = none →
      (∀ k va, State.fetchWords core c [pc] s = .error (some (k, va)) →
        exec (.clauseFetch core c pc old) s = .next (s.trapThreads (s.threadsAt core c pc) k pc va)) ∧
      ∀ x u, State.fetchWords core c [pc] s = .ok ([x], u) →
        let n := hdrN (s.codeWord core c (old.getLsbD 0) x)
        (∀ k va, State.fetchWords core c (State.clauseAddrs pc (n + 2)) s = .error (some (k, va)) →
          exec (.clauseFetch core c pc old) s = .next (s.trapThreads (s.threadsAt core c pc) k pc va)) ∧
        ∀ xs v, State.fetchWords core c (State.clauseAddrs pc (n + 2)) s = .ok (xs, v) →
          let all := xs.mapIdx fun i y => v.codeWord core c (old.getLsbD i) y
          let kept := (xs.zip all).foldl (fun m y => m.keepCode core c y) v
          (old = 0 → all = xs.map fun y => BitVec.ofNat 64 (mnat v.mem y.2 8)) ∧
          ∀ hdr words, all = hdr :: words →
            (clauseOk hdr words = true → Gives (.clauseFetch core c pc old) s fun t => t.mem = v.mem ∧ t.threads = v.threads ∧
              (t.core core).code = (kept.core core).code ∧
              (t.core core).clauses = { ctx := c, va := pc, hdr, words } ::
                (v.core core).clauses.filter fun k => !(k.ctx = c && k.va = pc)) ∧
            (clauseOk hdr words = false → exec (.clauseFetch core c pc old) s =
              .next (kept.trapThreads (s.threadsAt core c pc) tcIllegalClause pc 0))) ∧
    (∀ n, s.breakAt c pc = some n → let v := s.breakThreads n pc (s.threadsAt core c pc)
      exec (.clauseFetch core c pc old) s =
        .next (if v.threadsAt core c pc = [] then v else v.loadClause core c pc old (v.threadsAt core c pc))) ∧
    (∀ n t, (s.breakThreads n pc [t]) = if (s.thread t).idx = 0 ∧ (s.thread t).st = .ready then
      s.trapClause t tcBreakpoint pc 0 (0xFFFF - n) 0 else s) ∧
    (∀ a ts h ws, s.clauseFor a = some (h, ws) → s.groupOk h (a :: ts) = true → (s.thread a).idx ≤ hdrN h →
      ((s.thread a).idx = 0 → isCp a = false → s.breakAt (s.ctxOf a) (s.thread a).pc = none) →
      Gives (.issueGroup (a :: ts)) s fun t => t.mem = s.mem ∧
        (∀ p ∈ a :: ts, (t.thread p).st = .running ∧ (t.thread p).g = (s.thread p).g ∧ (t.thread p).p = (s.thread p).p) ∧
        ∃ g, t.groups = s.groups ++ [g] ∧ g.id = s.fresh ∧ g.core = tidCore a ∧ g.wg = (s.thread a).wg ∧
          g.pc = (s.thread a).pc ∧ g.idx = (s.thread a).idx ∧ g.hdr = h ∧ g.words = ws ∧ g.blocked = false ∧
          g.stalled = false ∧ g.part = [] ∧ g.yielding = false ∧ ∀ p, p ∈ g.members ↔ p ∈ a :: ts) ∧
    (∀ w, s.entryDueAt w = true →
      ((s.ctx (s.wg w).ctx).words.handlerPc ≠ 0 → exec (.handlerEntry w) s = .next (s.enterHandler w)) ∧
      ((s.ctx (s.wg w).ctx).words.handlerPc = 0 →
        exec (.handlerEntry w) s = .next (s.kill (s.wg w).ctx 2 tcBreakpoint 7 0 0)))

/-! ### Queues and launches (11) -/

/-- R300 to R303, R70, R375: a packet that passes every check stands last in its queue's ring for one token, and the first
check that fails answers it with its status and places nothing, while one whose host port stands still for its heat, or
is none, does not arrive (R408, R414); a run begins with R303's registers; a run that has used
its budget is rejected with QUEUE_BUDGET. -/
def Obligations.QueueEvents : Prop :=
  ∀ (s : State),
    (∀ (vd : Nat) (qp : QpRef) (bs : List Byte), s.booted = true → vd < 64 → s.portShut qp.port = false →
      let q := fieldAt bs 1 1
      let c := fieldAt bs 2 2
      let w := (s.vd vd).word
      let x := s.queue (queueKey vd q)
      let ten := s.vdTenant vd
      let nak (k seq : Nat) := Gives (.launchPacket vd qp bs) s fun t =>
        t.sent = s.sent ++ [.nak qp seq k] ∧ t.queues = s.queues ∧ t.mem = s.mem
      (State.packetOk bs = false → nak 1 (if bs.length < 32 then 2 ^ 32 - 1 else fieldAt bs 4 4)) ∧
      (State.packetOk bs = true →
        (w.getLsbD 1 = true → nak 2 (fieldAt bs 4 4)) ∧
        (w.getLsbD 1 = false → w.getLsbD 0 = false → nak 7 (fieldAt bs 4 4)) ∧
        (w.getLsbD 1 = false → w.getLsbD 0 = true →
          (x.loaded = false → nak 3 (fieldAt bs 4 4)) ∧
          (x.loaded = true → s.admits vd q c = false → nak 4 (fieldAt bs 4 4)) ∧
          (x.loaded = true → s.admits vd q c = true →
            (s.tokensNow (s.tenant ten) < State.tokenUnits → nak 5 (fieldAt bs 4 4)) ∧
            (State.tokenUnits ≤ s.tokensNow (s.tenant ten) → 256 ≤ x.ring.length → nak 6 (fieldAt bs 4 4)) ∧
            (State.tokenUnits ≤ s.tokensNow (s.tenant ten) → x.ring.length < 256 →
              Gives (.launchPacket vd qp bs) s fun t =>
                (t.queue (queueKey vd q)).ring =
                  x.ring ++ [{ ctx := c, seq := fieldAt bs 4 4, body := bs.drop 32, from_ := some qp }] ∧
                (t.tenant ten).tokens = s.tokensNow (s.tenant ten) - State.tokenUnits ∧
                { t with queues := s.queues, tenants := s.tenants } = s))))) ∧
    (∀ (die key : Nat) (p : Packet) (rest : List Packet), tget s.runs die = none → s.nextQueue die = some key →
      (s.queue key).ring = p :: rest → Gives (.packetRunStart die key) s fun t =>
        let r (n : Fin 128) := t.rd (cpTid die) (.g n)
        (t.queue key).ring = rest ∧ t.mem = s.mem ∧ (t.thread (cpTid die)).pc = 0 ∧ (t.thread (cpTid die)).st = .ready ∧
        r 0 = BitVec.ofNat 32 p.body.length ∧ r 1 = BitVec.ofNat 32 (key % 64) ∧
        t.rdN (cpTid die) (.g 2) 2 = (s.queue key).base.toNat ∧ r 4 = (s.queue key).size.extractLsb' 0 32 ∧
        r 5 = BitVec.ofNat 32 p.ctx ∧ r 6 = BitVec.ofNat 32 p.seq ∧ (∀ n : Fin 128, 7 ≤ n.val → r n = 0) ∧
        (tget t.runs die).map (fun x => (x.packet, x.code, x.pos, x.count, x.words, x.fwd)) =
          some (p, (s.queue key).code, 0, 0, [], [])) ∧
    (∀ (die : Nat) (r : Run), tget s.runs die = some r → 256 ≤ r.count → r.last ≠ some (s.placeOf (cpTid die)) →
      Gives (.queueBudget die) s fun t => t.runs = tdel s.runs die ∧ t.mem = s.mem ∧
        t.sent = s.sent ++ [.reply r.packet.from_ r.packet.seq [State.replyWord0 r tcQueueBudget true]])

/-- R26, R312, R315 to R317: work that no earlier work keeps back, as one that fits or that is of its launch, is placed on a
quad of its context that takes it; a workgroup that starts has its threads ready at the record's entry, their registers and
counters zero; a launch without a frontier fires its points in order, and one with a frontier the lowest point that its
dependences allow. -/
def Obligations.LaunchEvents : Prop :=
  ∀ (s : State),
    (∀ (p : PlaceArgs) (c : Nat) (w : Work), s.quadHolder p.quad = some c →
      ((s.workOf c).find? fun w => w.saved = p.saved && w.item = p.item) = some w →
      (∀ x ∈ s.workOf c, State.workBefore x w = true →
        x.launches.any w.launches.contains = false ∧ s.placeFor c x = none) → p.quad < 64 → s.quadTakes c p.quad w = true →
      s.spotsOk p.quad w p.spots = true →
      (w.saved = false → exec (.workgroupPlacement p) s = .next
        ((((w.needs.zip p.spots).map fun x => (x.1.2.2, x.2.1, x.2.2)).foldl (State.placeNew p.quad p.item)
          (s.enterQuad p.quad c)).noteLayout p.item w.wgid)) ∧
      (w.saved = true → exec (.workgroupPlacement p) s = .next ((s.enterQuad p.quad c).placeSaved p.quad p.item p.spots))) ∧
    (∀ (w : Wg) (entry : W64) (i : Nat), i < 32 * w.nflock → w.slot + w.nflock ≤ 64 →
      (s.startThreads w entry).thread (mkTid w.core (w.slot + i / 32) (i % 32)) =
        { Thread.start w.id entry with age := s.cyc }) ∧
    (∀ (w : Wg) (entry : W64), { s.startThreads w entry with threads := s.threads, flocks := s.flocks } = s) ∧
    (∀ (l : Launch) (p : PointSt) (i core slot j : Nat), rcCbook l.record = 0 → rcSched l.record = 0 →
      j < 32 * (rcWgthr l.record / 32) → slot + rcWgthr l.record / 32 ≤ 64 →
      (s.startWg l p i core slot).thread (mkTid core (slot + j / 32) (j % 32)) =
        { Thread.start s.fresh (BitVec.ofNat 64 (rcEntry l.record)) with age := s.cyc }) ∧
    ∀ (id : Nat) (l : Launch), s.launch? id = some l → l.reserved = false →
      (rcNdep l.record = 0 → l.next < rcPoints l.record → exec (.pointFire id) s = .next (s.modLaunch id fun l =>
        { l with points := l.points ++ [newPoint l.record l.next 0 0], next := l.next + 1 })) ∧
      (rcNdep l.record ≠ 0 → ∀ c h, fireNext l = some (c, h) → mayFire l c h = true ∧
        (∀ c' h', c' < rcCols l.record → mayFire l c' h' = true → h < h' ∨ h = h' ∧ c ≤ c') ∧
        Gives (.pointFire id) s fun t => { t with launches := s.launches } = s ∧
          (t.launch? id).map (·.points) = some (l.points ++ [newPoint l.record (cellLin l.record c h) c h]))

/-! ### The Commons (12) -/

/-- R329 to R342, R348: what happens at a close, at a boundary and between packages. A tenant never pays more than its purse; a
pool sells no more units than are listed, and without a loser, or with none sold, clears at its reserve; no close changes
who holds a unit, and at a boundary a unit goes to the holder settled for it; the coming interval's end is the next multiple
of the interval. At every microsecond a die's slots are divided among the contexts with lines queued, what is less than a
line going over (the division is the model's reading, notes/assumptions/33.md). -/
def Obligations.MarketEvents : Prop :=
  ∀ (s : State),
    (s.timed = true → s.market.closed = false → s.market.ends ≤ s.now + 100000 → Gives .marketClose s fun t =>
      t.mem = s.mem ∧ t.market.closed = true ∧ t.market.ends = s.market.ends ∧
      ∀ k, (t.mktUnit k).holder = (s.mktUnit k).holder) ∧
    (∀ purse l, ((clampOffers purse l 0).map fun b => b.qty * b.price).sum ≤ purse) ∧
    (∀ l free, ((shareOut l free).map (·.2)).sum ≤ free ∧ ∀ x ∈ shareOut l free, x.2 ≤ x.1.qty) ∧
    (∀ reserve l, (∀ x ∈ l, x.1.qty ≤ x.2) → clearPrice reserve l = reserve) ∧
    (∀ idx offers code, let won := shareOut (s.rivals code offers) (s.listedUnits code).length
      let n := (s.assign code (won.filter fun x => x.2 ≠ 0)).length
      ((State.closePool idx offers s code).poolAt code).clears =
        some (if n = 0 then (s.poolAt code).reserve else clearPrice (s.poolAt code).reserve won, n, idx % 2 ^ 32)) ∧
    (s.timed = true → s.market.closed = true → s.market.ends ≤ s.now → s.market.pending = none →
      (∀ k, (s.mktUnit k).holder = (s.mktUnit k).next) → Gives .marketBoundary s fun t =>
        t.mem = s.mem ∧ t.market.closed = false ∧ t.market.begun = true ∧ t.market.interval = s.market.interval ∧
        t.market.ends = (s.now / s.market.interval + 1) * s.market.interval ∧
        ∀ i x, tget s.tenants i = some x →
          (t.tenant i).purse = if x.purse < x.cap then x.purse + min x.rate (x.cap - x.purse) else x.purse) ∧
    (∀ code i, let q := poolIndex code * 32 + i
      (poolClass code = 0 → (s.quad q).handover = true ∨ s.wgsOn q = [] ∧ (s.quad q).table = []) →
      ((State.turnUnit code s i).mktUnit (State.unitKey code i)).holder = (s.mktUnit (State.unitKey code i)).next) ∧
    (∀ q, (s.quad q).handover = true → s.quadDrained q = true → Gives (.quadHandover q) s fun t =>
      (t.quad q).handover = false ∧ (t.quad q).role = 0 ∧ (t.quad q).reqs = [] ∧
      ∀ u, tget t.market.units (State.unitKey (q / 32) (q % 32)) = some u → u.leaving = none) ∧
    (∀ k c, (s.mktUnit k).leaving = some c → poolClass (k / 256) = 1 → Gives (.wayHandover k) s fun t =>
      t.mem = s.mem ∧ t.dirty = (s.linesIn c (poolIndex (k / 256)) (k % 256)).foldl (fun d l => tdel d l) s.dirty ∧
      (t.mktUnit k).leaving = none) ∧
    (∀ p : PriceMsg, p.node ≠ s.node.toNat → p.node < 4096 → p.pool < 256 →
      exec (.priceReceive p) s = .next { s with market := { s.market with
        remote := tput s.market.remote (p.node * 256 + p.pool) (p.price % 2 ^ 32, p.sold, p.idx % 2 ^ 32) } }) ∧
    (∀ t : MarketTable, s.market.pending = none →
      exec (.marketTableWrite t) s = .next { s with market := { s.market with pending := some t } }) ∧
    (∀ die, die < 2 → (s.timed = true → ∀ n, tget s.market.shareAt die = some n → n + 4000 ≤ s.now) →
      Gives (.idleSlotShare die) s fun t =>
        { t with market := { t.market with share := s.market.share, topUp := s.market.topUp, shareAt := s.market.shareAt } } = s ∧
        tget t.market.shareAt die = some s.now ∧ ∀ c ∈ s.drainers die,
          tget t.market.share (die * 256 + c) =
            some ((tget s.market.share (die * 256 + c)).getD 0 % 128 + s.slotBytes die c) ∧
          tget t.market.topUp (die * 256 + c) =
            some ((tget s.market.topUp (die * 256 + c)).getD 0 % 128 + (500 - s.slotBytes die c)))

/-! ### Paging, ranges, resets and errors (13, 14) -/

/-- R358 to R373: a walk that an access asked for fills the buffers; a page that a context waits for, or whose fetch goes on,
is brought into a frame, which then holds exactly its bytes, unless its backing does not answer or is not there (the model's choice,
notes/assumptions/66.md); a range made valid, or given to another device, reads zero throughout and begins to be
scrubbed. That an entry with VALID = 0 is written without the checks of R371 on BASE, LIMIT and STACKS is the model's
reading (notes/assumptions/30.md). -/
def Obligations.PagingAndRanges : Prop :=
  ∀ (s : State),
    (∀ (core c : Nat) (va : W64) (write : Bool) (x : Xlat) (u : State), canonical va = true →
      s.walkFill core c va write false = .ok x u →
      ((∃ r ∈ s.reachesOf c fun g => g.core = core, r.write = write ∧ State.samePage r.va va = true) ∨
        (write = false ∧ ∃ y ∈ s.clauseTouches c, tidCore y.1 = core ∧ State.samePage y.2 va = true)) →
      exec (.walkComplete core c va write) s = .next u) ∧
    (∀ (c : Nat) (va : W64), canonical va = true → s.wanted c va = true ∨ s.fetching c va = true →
      (∀ page, s.absentLeaf c va = none → exec (.pagingFetch c va page) s = .next (s.endFetch c va)) ∧
      ∀ l, s.absentLeaf c va = some l →
        (∀ data, s.hasBacking (s.ctxVd c) l.ent = true →
          exec (.pagingFetch c va ⟨true, data⟩) s = .next (s.bringPage c va l data)) ∧
        ∀ page : PageAnswer, page.answered = false ∨ s.hasBacking (s.ctxVd c) l.ent = false →
          exec (.pagingFetch c va page) s = .next ((s.ctxFault c tcPeerUnreachable).failFetch c va)) ∧
    (∀ src dst, s.mem.wf → src + 65536 ≤ dst ∨ dst + 65536 ≤ src →
      (∀ i, i < 65536 → mget (s.copyPage src dst).mem (dst + i) = mget s.mem (src + i)) ∧
      ∀ a, a < dst ∨ dst + 65536 ≤ a → mget (s.copyPage src dst).mem a = mget s.mem a) ∧
    (∀ i w v, i < 16 → w < 3 →
      let old := s.range i
      let new := setRangeWord old w v
      let others := (s.ranges.filter fun r => r.1 ≠ i).map (·.2)
      (rangeForm new = false ∨ (new.valid = true ∧ rangeFits others new = false) ∨
          (old.scrubbing = true ∧ exceptRemote new ≠ exceptRemote old) →
        exec (.rangeWrite i w v) s = .next s) ∧
      (rangeForm new = true → new.valid = true → rangeFits others new = true → old.valid = false ∨ old.vd ≠ new.vd →
        old.scrubbing = false →
        Gives (.rangeWrite i w v) s fun t => (t.range i).w0 = new.w0 ∧ (t.range i).w1 = new.w1 ∧ (t.range i).w2 = new.w2 ∧
          (t.range i).scrubbing = true ∧ (∀ a, s.local_ new.base ≤ a → a < s.local_ new.limit → mget t.mem a = 0) ∧
          ∀ a, a < s.local_ new.base ∨ s.local_ new.limit ≤ a → mget t.mem a = mget s.mem a) ∧
      (rangeForm new = true → new.valid = false → old.scrubbing = false → exec (.rangeWrite i w v) s =
        .next { s with ranges := tput s.ranges i new })) ∧
    (∀ i, (s.range i).scrubbing = true → exec (.scrubComplete i) s = .next { s with ranges := tput s.ranges i { s.range i with
      w3 := BitVec.ofNat 64 ((s.range i).limit / 128 * 2 ^ 7 + (if (s.range i).epoch then 1 else 0)) } })

/-- R376, R377, R397 to R400, R404 to R407, R413, R414: resets of a context, a device and the package, errors, sensors and
the Drover's steps, each of which waits while its session's data stand on a page that is not resident
(notes/assumptions/43.md). A reset context keeps its record's words and loses its launches, saves, bids and flags, and one
that was killed in the same cycle sends no second record. A package reset keeps the flash and memory that is not this
package's (notes/assumptions/14.md), gives the package the node number that its boot is given (notes/assumptions/82.md),
and the part is held in reset exactly when its image fails verification. Of structures with parity alone no error is
correctable (notes/assumptions/42.md). What a session's other package sends is kept: the pages to await, the bytes of a
page, and the packets of a moved ring. -/
def Obligations.ResetsAndErrors : Prop :=
  ∀ (s : State),
    (∀ c, c < 256 →
      (s.savingCtx c = true → exec (.contextReset c) s = .next (s.modCtx c fun x => { x with resetDue := true })) ∧
      (s.savingCtx c = false → Gives (.contextReset c) s fun t =>
        (t.ctx c).words = (s.ctx c).words ∧ (t.ctx c).bids = [] ∧ (t.ctx c).fstat = 0 ∧ (t.ctx c).halted = false ∧
        t.launches = s.launches.filter (fun l => l.ctx ≠ c) ∧ t.saved = s.saved.filter (fun x => x.ctx ≠ c) ∧
        t.sent = s.sent ++ (if (s.ctx c).killedAt = some s.cyc then []
          else [.killRecord (s.ctxVd c) (s.killRecord c 0 0 7 0 0)]) ∧
        ((s.ctx c).words.krec = 0 → t.mem = s.mem))) ∧
    (∀ v, v < 64 → s.resetting v = false → Gives (.vdReset v) s fun t =>
      (t.vd v).word = (s.vd v).word ||| 2 ∧
      ∀ q x, tget s.queues q = some x → q / 64 = v → (t.queue q).ring = []) ∧
    (∀ v, s.resetting v = true → (∀ c ∈ s.ctxsOfVd v, (s.ctx c).resetDue = false) → Gives (.vdReset v) s fun t =>
      (t.vd v).keys = [] ∧ (t.vd v).windows = [] ∧ (t.vd v).word = (s.vd v).word &&& ~~~2#64 ∧ t.mem = s.mem ∧
      ∃ b, t.sent = s.sent ++ [.resetRecord v b] ∧ b.length = 32) ∧
    Gives .packageReset s (fun t =>
      t.booted = Config.imageVerifies s.sec.flash ∧ t.held = !Config.imageVerifies s.sec.flash ∧
      t.node = BitVec.ofNat 12 (Config.nodeNumber (s.sec.resets + 1) % 128) ∧
      t.threads = [] ∧ t.wgs = [] ∧ t.launches = [] ∧ t.ctxs = [] ∧ t.ranges = [] ∧ t.meters = [] ∧ t.timed = false ∧
      t.sec.flash = s.sec.flash ∧ t.sec.report = s.finalReport ∧
      t.mem = (s.mem.filter fun c => !s.isLocal c.1).filter fun c => !t.isLocal c.1) ∧
    (∀ x : EccArgs, x.correctable = true →
      (State.eccParity x.what = true → exec (.eccError x) s = .next s) ∧
      (State.eccParity x.what = false → Gives (.eccError x) s fun t =>
        t.errc = { s.errc with corrected := s.errc.corrected + 1 } ∧ { t with errc := s.errc, meters := s.meters } = s)) ∧
    (∀ x : EccArgs, x.correctable = false → x.what = .dram → x.loc < 2 ^ 41 → Gives (.eccError x) s fun t =>
      t.errc.uncorrectable = s.errc.uncorrectable + 1 ∧ t.mem = s.mem ∧
      .line (s.local_ (x.loc * 128) / 128) false ∈ t.poison) ∧
    (∀ x : EccArgs, x.correctable = false → exec (.eccError x) s =
      .next (State.eccBad { (match s.eccOwner x with
        | some c => if x.what = EccStruct.parityTable then s else s.ctxError c
        | none => s) with
        errc := { s.errc with uncorrectable := s.errc.uncorrectable + 1 } } x)) ∧
    (∀ n, n < 64 → Gives (.thermalTrip (.quad n)) s (fun t => (t.quad n).hot = true ∧
        t.sent = s.sent ++ [.thermal (.quad n) true] ∧ t.mem = s.mem) ∧
      Gives (.thermalResume (.quad n)) s (fun t => (t.quad n).hot = false ∧
        t.sent = s.sent ++ [.thermal (.quad n) false] ∧ t.mem = s.mem)) ∧
    (∀ n, n < 48 → Gives (.thermalTrip (.slice n)) s (fun t => n ∈ t.hotSlices ∧ t.mem = s.mem) ∧
      Gives (.thermalResume (.slice n)) s (fun t => n ∉ t.hotSlices ∧ t.mem = s.mem)) ∧
    (∀ n, n < 28 → Gives (.thermalTrip (.port n)) s (fun t => n ∈ t.hotPorts ∧ t.mem = s.mem) ∧
      Gives (.thermalResume (.port n)) s (fun t => n ∉ t.hotPorts ∧ t.mem = s.mem)) ∧
    (∀ c x answered, s.sessionOf c = some x → s.sessionAbsent x = true →
      exec (.droverStepComplete c (.answered answered)) s = .next s) ∧
    (∀ c pages,
      let mine := pages.filter fun p => s.rangeOkFor (s.ctxVd c) (65536 * p)
      let awaiting := mine.foldl (fun l p => insertNat p l) s.awaiting
      exec (.droverStepComplete c (.await pages)) s = .next { s with awaiting }) ∧
    (∀ c addr data,
      (65536 < addr % 65536 + data.length ∨ s.rangeOkFor (s.ctxVd c) addr = false →
        exec (.droverStepComplete c (.copy addr data)) s = .next s) ∧
      (addr % 65536 = 0 → data.length = 65536 → s.sessions = [] → s.rangeOkFor (s.ctxVd c) addr = true →
        Gives (.droverStepComplete c (.copy addr data)) s fun t => t.mem = mputs s.mem (s.local_ addr) data ∧
          t.awaiting = s.awaiting.filter (· ≠ addr / 65536))) ∧
    (∀ c queue p, queue < 64 → let key := queueKey (s.ctxVd c) queue
      (((s.queue key).loaded = false ∨ 256 ≤ (s.queue key).ring.length) →
        exec (.droverStepComplete c (.ring queue [p])) s = .next (s.vdError (s.ctxVd c))) ∧
      ((s.queue key).loaded = true → (s.queue key).ring.length < 256 →
        Gives (.droverStepComplete c (.ring queue [p])) s fun t => { t with queues := s.queues } = s ∧
          (t.queue key).ring = (s.queue key).ring ++ [⟨p.ctx, p.seq, p.body, p.from_⟩])) ∧
    (∀ c x step answered, s.sessionOf c = some x → s.sessionAbsent x = false → x.doing = some step →
      exec (.droverStepComplete c (.answered answered)) s = .next (match step with
        | .open => s.openStep x
        | .round => s.roundStep x answered
        | .stop => s.stopStep x answered
        | .land => s.landStep x
        | .abort => s.abortStep x
        | .close => s.closeStep x answered))

/-! ### Privileged writes and the outside (13 to 15) -/

/-- R36, R374, R375, R389 to R392, R398, R401, R412: a queue is loaded with a program of the queue profile, or the write is
refused; an unloaded one is empty; a written word of a context record reads back without its must-be-zero bits, as the
model reads R11 (notes/assumptions/35.md); the management port's debugger reads and writes as software does, and its HALT
that has to wait is kept. -/
def Obligations.PrivilegedWrites : Prop :=
  ∀ (s : State),
    (∀ (i : Nat) (v : W64), i < 4096 → i % 64 ≠ 63 → v.getLsbD 0 = true →
      let ctl := v &&& 0xFFFFFF03#64
      let len := bitsOf ctl 16 16
      let x := s.queue i
      (∀ code, 1 ≤ len → len ≤ 4096 → s.windowOk i ctl = true → s.programAt (x.prog.toNat % 2 ^ 48) len = some code →
        (profileOk len code = true → Gives (.queueLoad i v) s fun t =>
          t.queue i = { x with qctl := ctl, code, base := x.wbase, size := x.wsize } ∧ { t with queues := s.queues } = s) ∧
        (profileOk len code = false → exec (.queueLoad i v) s = .next s)) ∧
      (len = 0 ∨ 4096 < len ∨ s.windowOk i ctl = false → exec (.queueLoad i v) s = .next s)) ∧
    (∀ (i : Nat) (v : W64), i < 4096 → i % 64 = 63 → s.windowOk i (v &&& 0xFFFFFF03#64) = true →
      Gives (if v.getLsbD 0 then .queueLoad i v else .queueUnload i v) s fun t => { t with queues := s.queues } = s ∧
        t.queue i = { s.queue i with
          qctl := setBits (s.queue i).qctl 8 8 (bitsOf (v &&& 0xFFFFFF03#64) 8 8)
          base := (s.queue i).wbase, size := (s.queue i).wsize }) ∧
    (∀ (i : Nat) (v : W64), i < 4096 → i % 64 ≠ 63 → v.getLsbD 0 = false → Gives (.queueUnload i v) s fun t =>
      (t.queue i).ring = [] ∧ (t.queue i).code = [] ∧ (t.queue i).loaded = false ∧ t.mem = s.mem) ∧
    (∀ (n : Nat) (v : W64), n < 256 →
      let w := v &&& 0x1FFFFFF#64
      (State.bucketDepth w = 0 ∨ 256 < State.bucketDepth w → exec (.launchBucketWrite n v) s = .next s) ∧
      (1 ≤ State.bucketDepth w → State.bucketDepth w ≤ 256 → Gives (.launchBucketWrite n v) s fun t =>
        (t.tenant n).bucket = w ∧ ((s.tenant n).filled = false → (t.tenant n).tokens = State.bucketDepth w * State.tokenUnits) ∧
        { t with tenants := s.tenants } = s)) ∧
    (∀ (i : Nat) (v : W64),
      (v = 0 → exec (.retiredPageRemove i v) s = .next { s with retired := tdel s.retired i }) ∧
      (v ≠ 0 → exec (.retiredPageRemove i v) s = .next s)) ∧
    (∀ (core c : Nat) (v : W32), Gives (.fstatWrite core c v) s fun t =>
      t.coreFlags core c = v.extractLsb' 0 7 ∧ (t.ctx c).fstat = v.extractLsb' 0 7 ∧
      { t with cores := s.cores, ctxs := s.ctxs } = s) ∧
    (∀ (sel : W32) (v : W64),
      (oselKind sel = 0 → oselIndex sel < 256 → 1 ≤ oselWord sel → oselWord sel < 14 → Gives (.objectWrite sel v) s fun t =>
        t.objWord sel = some (v &&& ctxMask (oselWord sel)) ∧ { t with ctxs := s.ctxs } = s) ∧
      (7 ≤ oselKind sel → exec (.objectWrite sel v) s = .next s) ∧
      exec (.objectWrite sel v) s = .next (s.writeObj sel v).1 ∧
      exec (.debuggerCommand (.owrite sel v)) s =
        .next { (s.writeObj sel v).1 with sent := (s.writeObj sel v).1.sent ++ [.debugStatus (s.writeObj sel v).2] } ∧
      exec (.debuggerCommand (.oread sel)) s = .next { s with sent := s.sent ++ [.debugWord ((s.objWord sel).getD 0)] }) ∧
    (∀ op w c u, (∀ k, s.haltOp op (BitVec.ofNat 32 w) c none = .done k u →
        exec (.debuggerCommand (.halt op w c)) s = .next { u with sent := u.sent ++ [.debugStatus k] }) ∧
      (s.haltOp op (BitVec.ofNat 32 w) c none = .later u →
        exec (.debuggerCommand (.halt op w c)) s = .next { u with halts := u.halts ++ [(op, w, c)] })) ∧
    (∀ vd n w, 4 ≤ w.port → exec (.hostWindowWrite vd n w) s = .next s) ∧
    (∀ vd n w, vd < 64 → n < 16 → w.port < 4 → Gives (.hostWindowWrite vd n w) s fun t =>
      tget (t.vd vd).windows n = some w ∧ n ∉ (t.vd vd).dead ∧ { t with vds := s.vds } = s) ∧
    (∀ vd n k, vd < 64 → n < 64 → Gives (.memoryKeyWrite vd n k) s fun t =>
      tget (t.vd vd).keys n = some k ∧ { t with vds := s.vds } = s) ∧
    exec .finalReportRead s = .next { s with sent := s.sent ++ [.finalReport s.sec.report s.sec.signature] } ∧
    ∀ image, exec (.firmwareImageWrite image) s = .next { s with sec := { s.sec with flash := image } }

/-- R174, R223, R372, R408 to R410: what hosts and other packages do to this one. An access under a memory key that covers it
reads or writes device memory, unless a line of it is held at its home, which leaves it to arrive again, and any other is
refused, an atomic always, with the device's error counted; an access of another package is made where its tenant's REMOTE ranges
allow it, and its port has been heard; a queue pair in error is dead; no copy of pod time goes back when the servo has a new
value, from a Sync and the time since it came; the response to the servo's own Delay_Req gives the path delay. -/
def Obligations.OutsideAccesses : Prop :=
  ∀ (s : State),
    (∀ x : RdmaArgs, s.booted = true → s.portShut x.port = false →
      (∀ a, s.rdmaAt x x.len false = some a → s.spanHeld a x.len = false → exec (.inboundRdmaRead x) s =
        .next { s with sent := s.sent ++ [.rdmaData x.port x.qp (mbytes s.mem (s.local_ a) x.len)] }) ∧
      (s.rdmaAt x x.len false = none → exec (.inboundRdmaRead x) s = .next (s.nakRdma x)) ∧
      (∀ a, s.rdmaAt x x.len false = some a → s.spanHeld a x.len = true → exec (.inboundRdmaRead x) s = .next s) ∧
      (∀ a, s.rdmaAt x x.data.length true = some a → s.spanHeld a x.data.length = true →
        exec (.inboundRdmaWrite x) s = .next s) ∧
      (∀ a, s.rdmaAt x x.data.length true = some a → s.spanHeld a x.data.length = false → s.sessions = [] → x.data ≠ [] → a % 65536 + x.data.length ≤ 65536 →
        Gives (.inboundRdmaWrite x) s fun t => t.mem = mputs s.mem (s.local_ a) x.data ∧
          t.sent = s.sent ++ [.rdmaAck x.port x.qp]) ∧
      (s.rdmaAt x x.data.length true = none → exec (.inboundRdmaWrite x) s = .next (s.nakRdma x)) ∧
      (∀ w, w = (if x.vd < 64 then s.vdError x.vd else s) →
        exec (.inboundAtomic x) s = .next { w with sent := w.sent ++ [.remoteAtomicNak x.port x.qp] }) ∧
      (s.nakRdma x).mem = s.mem ∧ (s.nakRdma x).sent = s.sent ++ [.rdmaNak x.port x.qp]) ∧
    (∀ x : IncomingArgs, let pa := s.local_ x.addr
      let p := State.fabricPort x.port
      let heard := if (tget s.ports p).isSome then s.setPort p { s.port p with heard := s.now } else s
      x.port < 24 → s.sliceHot pa = false → s.ownedLine (pa / 128) = false → s.awaitsCopy pa = false → s.sessions = [] →
      (∀ n d, x.op = .store n d → s.remoteOkFor x.tenant x.addr = true → s.remoteOkFor x.tenant (x.addr + n - 1) = true →
        Gives (.incomingAccess x) s fun t => t.mem = mputs s.mem pa (natLe n d)) ∧
      (∀ n, x.op = .load n → s.remoteOkFor x.tenant x.addr = true → s.remoteOkFor x.tenant (x.addr + n - 1) = true →
        exec (.incomingAccess x) s = .next (heard.sendReply x.tenant x.port (.inboundReply x.port (mnat s.mem pa n)))) ∧
      (s.remoteOkFor x.tenant x.addr = false → exec (.incomingAccess x) s = .next (heard.refuseInbound x.port)) ∧
      (s.refuseInbound x.port).mem = s.mem) ∧
    (∀ vd n, vd < 64 → n < 16 → Gives (.hostQpError vd n) s fun t => n ∈ (t.vd vd).dead) ∧
    (∀ m : PtpTime, s.fromBest m.port m.ident = true →
      (m.twoStep = false → exec (.sync m) s = .next (s.follow m.port m.origin m.rx)) ∧
      (m.twoStep = true → exec (.sync m) s = .next { s with ptp := { s.ptp with pendingSync := some m } }) ∧
      (∀ p, s.ptp.pendingSync = some p → p.port = m.port → p.ident = m.ident → p.seq = m.seq →
        exec (.followUp m) s = .next (s.follow m.port m.origin p.rx))) ∧
    (∀ port origin rx, let u := s.follow port origin rx
      (∀ n, s.clock n ≤ u.clock n) ∧ s.now ≤ u.now ∧ u.mem = s.mem ∧
      u.ptp.lastSync = some (origin, (u.now - (s.now - 4 * rx)) / 4) ∧
      (s.portShut port = false → ∃ seq, u.sent = s.sent ++ [.delayReq port seq] ∧ u.ptp.req = some (port, seq, u.now / 4))) ∧
    (∀ port seq rx t1 t2 t3, s.ptp.lastSync = some (t1, t2) → s.ptp.req = some (port, seq, t3) →
      exec (.delayResp port seq rx) s = .next { s with
        ptp := { s.ptp with delay := ((t2 + rx) - (t1 + t3)) / 2 } }) ∧
    (∀ port seq rx, (∀ t3, s.ptp.req ≠ some (port, seq, t3)) → exec (.delayResp port seq rx) s = .next s) ∧
    (∀ m : PtpMaster, m.port < 4 →
      (∀ x ∈ s.ptp.masters, x.port ≠ m.port ∨ x.ident ≠ m.ident → State.betterMaster x m = false) →
      Gives (.announce m) s fun t => t.ptp.best = some m ∧ m ∈ t.ptp.masters ∧ { t with ptp := s.ptp } = s)

/-- R381: the responder of an enabled device answers each request that its state accepts and that is in form, moves to the
state the table gives, and extends or signs the transcript; any other message receives ERROR and changes nothing, a wrong
version being told before a wrong form, and that before a wrong order (the layout of messages and of ERROR is
notes/assumptions/40.md, what the transcript takes in notes/assumptions/41.md). Each answer is a reply that accepts no launch, and an attachment. -/
def Obligations.SpdmRequests : Prop :=
  ∀ (s : State) (x : SpdmArgs), s.booted = true → x.vd < 64 → (s.vd x.vd).word.getLsbD 0 = true →
    (s.vd x.vd).word.getLsbD 1 = false → 4 ≤ x.msg.length →
    let v := s.vd x.vd
    let fits (code : Nat) := spdmCode x.msg = code ∧ spdmFault v.spdm x.msg = 0
    let after (i : Instr) (P : Vd → Prop) := Gives i s fun t => t.mem = s.mem ∧
      (∃ w b, t.sent = s.sent ++ [.reply none x.seq [w], .attachment none x.seq b] ∧ w.toNat % 2 ^ 32 = 0) ∧ P (t.vd x.vd)
    let extends_ (u : Vd) : Prop := ∃ b, u.transcript = v.transcript ++ x.msg ++ b
    (fits 0x84 → after (.getVersion x) fun u => u.spdm = .version ∧ ∃ b, u.transcript = x.msg ++ b) ∧
    (fits 0xE1 → after (.getCapabilities x) fun u => u.spdm = .capabilities ∧ extends_ u) ∧
    (fits 0xE3 → after (.negotiateAlgorithms x) fun u => u.spdm = .negotiated ∧ extends_ u ∧ u.checkpoint = u.transcript) ∧
    (fits 0x81 → after (.getDigests x) fun u => u.spdm = v.spdm ∧ extends_ u) ∧
    (fits 0x82 → after (.getCertificate x) fun u => u.spdm = v.spdm ∧ extends_ u) ∧
    (spdmKnown.contains (spdmCode x.msg) = true → (spdmVersion x.msg ≠ 0x12 → spdmFault v.spdm x.msg = 0x41) ∧
      (spdmVersion x.msg = 0x12 → spdmForm x.msg = false → spdmFault v.spdm x.msg = 0x01)) ∧
    (fits 0x83 → after (.challenge x) fun u => u.spdm = v.spdm ∧ u.transcript = v.checkpoint) ∧
    (fits 0xE0 → after (.getMeasurements x) fun u => u.spdm = v.spdm ∧
      if natBit (spdmP1 x.msg) 0 then u.transcript = v.checkpoint else extends_ u) ∧
    (∀ code i, (code, i) ∈ [(0x84, Instr.getVersion x), (0xE1, .getCapabilities x), (0xE3, .negotiateAlgorithms x),
        (0x81, .getDigests x), (0x82, .getCertificate x), (0x83, .challenge x), (0xE0, .getMeasurements x)] →
      spdmCode x.msg = code ∨ spdmKnown.contains (spdmCode x.msg) = false → ∀ k, spdmFault v.spdm x.msg = k → k ≠ 0 →
      Gives i s fun t => t.mem = s.mem ∧ (t.vd x.vd).transcript = v.transcript ∧ (t.vd x.vd).spdm = v.spdm ∧
        ∃ w, t.sent = s.sent ++ [.reply none x.seq [w],
          .attachment none x.seq (natLe 4 4 ++ natLe 4 x.seq ++ spdmHead 0x12 0x7F k 0)] ∧ w.toNat % 2 ^ 32 = 0)

/-! ### The package as a whole (01, 02, 03, 12, 15) -/

/-- R330, R375, R378, R400, R413: the package right after reset: every state of the part is cleared, the measurement
registers are zero, the interval is 500 µs in units of 250 ps, no launch bucket holds a token, no device is enabled, and
the boot is still to come. Values that the manual does not give are the model's (notes/assumptions/13.md, 14.md). -/
def Obligations.ResetState : Prop :=
  let s := State.reset
  Inv s ∧ s.booted = false ∧ s.held = false ∧ s.timed = false ∧ s.cyc = 0 ∧
  s.threads = [] ∧ s.wgs = [] ∧ s.groups = [] ∧ s.cur = none ∧ s.launches = [] ∧ s.saved = [] ∧ s.accs = [] ∧ s.ords = [] ∧
  s.meters = [] ∧ s.poison = [] ∧ s.errc = ⟨0, 0, 0, 0⟩ ∧
  s.market.interval * 250 = 500 * 1000000 ∧ s.market.begun = false ∧
  s.sec.meas = List.replicate 16 (List.replicate 64 0) ∧
  (∀ c, (s.ctx c).words.ctl = 0 ∧ (s.ctx c).words.root = 0 ∧ (s.ctx c).words.handlerPc = 0 ∧ (s.ctx c).fstat = 0 ∧
    s.active c = false) ∧
  (∀ i, (s.tenant i).tokens = 0 ∧ (s.tenant i).bucket = 0 ∧ (s.tenant i).purse = 0) ∧
  (∀ v, (s.vd v).word = 0 ∧ (s.vd v).spdm = .start) ∧ (∀ i, (s.range i).valid = false) ∧
  (∀ q, (s.queue q).loaded = false ∧ (s.queue q).ring = []) ∧
  ∀ q, (s.quad q).acc = [] ∧ (s.quad q).active = .zero ∧ (s.quad q).shadow = .zero ∧ (s.quad q).role = 0

/-- Whatever state a step begins in, the state it answers holds its memory and every workgroup's scratch in canonical
form: addresses rising, and no byte listed that an unlisted address would read. The form is the model's own
(notes/assumptions/1.md); with it two equal memories are equal data. -/
def Obligations.StepKeepsCanonical : Prop := ∀ s t : State, step s = .next t → Inv t

/-- R50 step 1, R53 to R57, R62: every well-formed instruction has a word, and the word decodes to it, with every operand
at every value that its encoding admits. -/
def Obligations.DecodeOfEncode : Prop := ∀ i, WellFormed i → ∃ w, encode i = some w ∧ decode w = .ok i

/-- R53 to R61: words written out bit by bit from the encoding tables of the manual decode to the instructions they stand
for, from every encoding form; a reserved opcode decodes to none. -/
def Obligations.WordsDecode : Prop :=
  let g : Guard := ⟨7, false⟩
  decode 0x1020405060020000 = .ok (.iadd { g := ⟨1, false⟩, d := .g 4, a := .g 5, b := .g 6, ty := .s32, sat := false }) ∧
  decode 0x33E08090A0858000 = .ok (.ffma { g, d := .g 8, a := .g 9, b := .g 10, c := .g 8
                                           m := { ty := .f32, rm := .rne, sat := false, ftz := false } }) ∧
  decode 0x2CEF204050020200 = .ok (.isetp { g, d := 2, a := .g 4, b := .g 5, ty := .s32, cond := .lt, comb := .plain }) ∧
  decode 0x60E0502001100010 = .ok (.ld { g, d := .g 5, base := .g 2, size := .b32, hint := .dflt, acq := none, off := 0x10 }) ∧
  decode 0x61E0002067120020 = .ok (.st { g, base := .g 2, data := .g 6, size := .b32, hint := .dflt, rel := some .pkg
                                         ord := false, off := 0x20 }) ∧
  decode 0x75E0708060340E15 = .ok (.wait { g, d := .g 7, base := .g 8, b := .g 6, ty := .z32, e := 14, scratch := false
                                           acq := some .pkg, ext := false, cond := .ge }) ∧
  decode 0x01E40000FFFFFFFE = .ok (.bra { g, hint := .likely, tgt := 0xFFFFFFFE }) ∧
  decode 0x08E0000000300000 = .ok (.join { g, k := 3 }) ∧ decode 0x06E0000000000000 = .ok (.exit { g }) ∧
  decode 0x85E0002080C00281 = .ok (.cpytLd { g, desc := .mem (.g 2), coords := .g 8, box := .g 12, team := false, mc := 0
                                             bar := some (.b 1) }) ∧
  decode 0x92E1404061000A00 = .ok (.mma { g, d := .g 20, fw := .g 4, ctl := .g 6, bar := .bt 0, e := 10 }) ∧
  decode 0xB3E0700000000E00 = .ok (.baraw { g, d := .g 7, bar := .b 0, e := 14 }) ∧
  decode 0xB8E0709000000000 = .ok (.frq { g, d := .g 7, a := .g 9 }) ∧
  decode 0xC0E1404050600000 = .ok (.bid { g, d := .g 20, a := .g 4, b := .g 5, c := .g 6 }) ∧
  decode 0xD2E0000000000100 = .ok (.eretSkip { g }) ∧
  decode 0xD4E1404050000300 = .ok (.haltSave { g, d := .g 20, a := .g 4, b := .g 5 }) ∧
  decode 0xD8E0705080000000 = .ok (.migrOpen { g, d := .g 7, a := .g 5, b := .g 8 }) ∧
  decode 0xF0E0000000000000 = .error .reservedOpcode

/-- R50, R271, R275, R332, R413: a step of a booted part makes the move that stands first in its agenda
(notes/assumptions/2.md). A group issues, in this cycle if its path is free and else in the next, unless another that goes
before it on its path can, or ready threads would form one that does: the instruction that its word decodes to, or ILLEGAL_INSN in every member where it decodes to
none. An event takes the next cycle, which forming a group does not; a cycle begins with what pod time brings. What
settles by itself follows. A part that is not booted boots; one held in reset takes only what the management port may do. -/
def Obligations.StepRunsDecoded : Prop :=
  ∀ s : State,
    (s.held = false → s.booted = true → ∀ rest,
      (∀ g, s.agenda = .issue g.id :: rest → s.cur = some g → g.blocked = false →
        let u : State := { s.beginMove (.issue g.id) with agenda := rest }
        (s.pathFree g = true → u = { s with issued := (State.pathKey g, g.id) :: s.issued, agenda := rest }) ∧
        (s.pathFree g = false →
          u = { s.beginCycle with issued := (State.pathKey g, g.id) :: s.beginCycle.issued, agenda := rest }) ∧
        (u.cur = some g → (u.outranked g || u.lateFor g) = true → step s = State.finish (.next u)) ∧
        (u.cur = some g → (u.outranked g || u.lateFor g) = false →
          (∀ i, decode (g.words.getD g.idx 0) = .ok i → step s = State.finish (exec i u)) ∧
          (∀ r, decode (g.words.getD g.idx 0) = .error r → u.frozen g = false → (∀ t ∈ g.members, (u.thread t).errs = []) →
            step s = State.finish (.next (g.members.foldl (fun v t => v.trap t tcIllegalInsn 0) u))))) ∧
      (∀ i, s.agenda = .event i :: rest → (∀ l, i ≠ .issueGroup l) →
        step s = State.finish (exec i { s.beginCycle with agenda := rest })) ∧
      (∀ l, s.agenda = .event (.issueGroup l) :: rest →
        step s = State.finish (exec (.issueGroup l) { s with agenda := rest }))) ∧
    (s.held = false → s.booted = true → s.agenda = [] → step s = State.finish
      (match s.defaultMove with
        | none => .next { s.beginCycle with agenda := [] }
        | some m => State.runMove { s.beginMove m with agenda := [] } m)) ∧
    (s.held = false → s.booted = false → step s = .next s.boot.settleAll) ∧
    (s.held = true → (∀ m, s.nextMove.1 = some m → State.portMove m = false) → step s = .fault .heldInReset) ∧
    (∀ u : State, State.finish (.next u) = .next u.settleAll) ∧
    (s.timed = false → s.beginCycle = s.tick) ∧
    s.tick.cyc = s.cyc + 1 ∧ s.tick.mem = s.mem ∧ s.tick.threads = s.threads ∧ s.tick.cur = s.cur ∧
    (s.ptp.stood = [] → s.tick.now = s.now + (40 * (s.cyc + 1) / 13 - 40 * s.cyc / 13))

namespace Sys2Proof

/-- The current group consists of distinct kernel threads that may trap: none has a deferred error or stands in handler
mode, and their context has a handler. -/
structure MayTrap (s : State) (g : Group) : Prop where
  cur : s.cur = some g
  some_ : g.members ≠ []
  distinct : g.members.Nodup
  kernel : ∀ t ∈ g.members, isCp t = false
  errs : ∀ t ∈ g.members, (s.thread t).errs = []
  mode : ∀ t ∈ g.members, (s.thread t).handler = false
  handled : ∀ t ∈ g.members, (s.ctx (s.ctxOf t)).words.handlerPc ≠ 0

/-- Every member of the group takes a trap at the instruction it stands at. -/
def trapsAll (s : State) (g : Group) (code : Nat) : Host.Outcome State Fault Refusal :=
  .next (g.members.foldl (fun u t => u.trap t code 0) s)

end Sys2Proof

/-- R29, R39, R41, R50: what stands before an instruction's own effect. A held group does nothing and stays where it is, and so
does one whose members' registers an outstanding access is still to write. An instruction that names w or k registers
outside an FU clause traps with ILLEGAL_CLAUSE, and after that one that names a register at or above the workgroup's
allocation with REG_RANGE. Every instruction answers a next state. -/
def Obligations.ChecksBeforeIssue : Prop :=
  ∀ (s : State) (g : Group) (i : Instr), WellFormed i → (∀ x, i ≠ .waitm x) → s.cur = some g →
    (∃ t, exec i s = .next t) ∧
    ((s.frozen g = true ∨ ∃ t ∈ g.members, s.interlocked t i = true) →
      exec i s = .next s.stall ∧ s.stall.mem = s.mem ∧
      (∀ q r, s.stall.rd q r = s.rd q r) ∧ (∀ q c, s.stall.rdP q c = s.rdP q c) ∧
      s.stall.cur = some { g with stalled := true }) ∧
    (MayTrap s g → s.holds g i = false → (∀ t ∈ g.members, s.allowed t i = true) →
      (instrUsesWK i = true → hdrFu g.hdr = false → exec i s = trapsAll s g tcIllegalClause) ∧
      ((instrUsesWK i = true → hdrFu g.hdr = true) →
        (∀ t ∈ g.members, (instrTouches i).any (grpPast (s.wgOf t).regs) = true) → exec i s = trapsAll s g tcRegRange))

/-- R39, R30: a thread whose counter stands at 63 does not issue an instruction that increments it: its group is held. A
barrier operand at or above the workgroup's count, or a team barrier in a workgroup without a team, is REG_RANGE. -/
def Obligations.CountersAndBarrierOperands : Prop :=
  ∀ (s : State) (g : Group) (i : Instr), WellFormed i →
    (∀ k p, s.cur = some g → instrCtr i = some k → instrGuard i = some p →
      (∃ t ∈ g.members, s.guardTrue t p = true ∧ 63 ≤ (s.thread t).ctr k) → exec i s = .next s.stall) ∧
    ∀ b, instrBar i = some b → MayTrap s g → s.holds g i = false → (∀ t ∈ g.members, s.allowed t i = true) →
      (instrUsesWK i = true → hdrFu g.hdr = true) →
      (∀ t ∈ g.members, match b with
        | .b n => (s.wgOf t).bars ≤ n.val
        | .bt _ => (s.wgOf t).team = none) →
      exec i s = trapsAll s g tcRegRange

namespace Sys2Proof

/-- R61: the privileged instructions. -/
def Privileged : Instr → Prop
  | .eret _ | .eretSkip _ | .tlbiVa _ | .tlbiCtx _ | .tlbiAll _ | .halt _ | .haltRun _ | .haltStep _ | .haltSave _
  | .migrOpen _ | .migrRound _ | .migrStop _ | .migrLand _ | .migrAbort _ | .migrClose _ | .recallT _ => True
  | .csrr x => 0x100 ≤ x.num.toNat
  | .csrw x => 0x100 ≤ x.num.toNat
  | _ => False

/-- R61: the instructions of queue programs. -/
def QueueOnly : Instr → Prop
  | .qpop _ | .qpushRep _ | .qpushFwd _ | .crypTh _ | .crypEmit _ | .crypMeas _ | .crypNonce _ | .crypSign _ | .crypCert _
  | .crypTinit _ | .crypTmark _ | .crypTrest _ => True
  | _ => False

end Sys2Proof

/-- R61: ERET, TLBI, HALT, MIGR, RECALL.t and CSRR and CSRW on 0x100 to 0x1FF raise PRIV in threads without privilege, and
QPOP, QPUSH and CRYP in every kernel thread. A word that fails step 1 of R50 is ILLEGAL_INSN whatever the privilege. -/
def Obligations.PrivilegedInstructions : Prop :=
  ∀ (s : State) (g : Group), MayTrap s g →
    (∀ i, WellFormed i → Privileged i → s.holds g i = false → (∀ t ∈ g.members, s.fullPriv t = false) →
      exec i s = trapsAll s g tcPriv) ∧
    (∀ i, WellFormed i → QueueOnly i → s.holds g i = false → exec i s = trapsAll s g tcPriv) ∧
    (∀ r, decode (g.words.getD g.idx 0) = .error r → g.blocked = false → s.frozen g = false →
      s.runCurrent = trapsAll s g tcIllegalInsn)
end

