-- ==== Sys2Proof/Laws/Table.lean ====
section
/-!
SUPPORT. Laws of keyed tables and of sparse memories: what a lookup gives after each operation, and that every
memory operation keeps the canonical form.
-/

namespace Sys2Proof.Machine

/-! ### Tables -/

theorem tget_tput_same {α : Type} (t : Tbl α) (n : Nat) (x : α) : tget (tput t n x) n = some x := by
  induction t with
  | nil => simp [tput, tget]
  | cons p t ih =>
    obtain ⟨k, v⟩ := p
    unfold tput
    split
    · simp [tget]
    · split
      · simp [tget]
      · rename_i _ h
        have hk : k ≠ n := fun e => h e.symm
        simp [tget, hk, ih]

theorem tget_tput_other {α : Type} (t : Tbl α) (n j : Nat) (x : α) (h : j ≠ n) : tget (tput t n x) j = tget t j := by
  have hn : n ≠ j := fun e => h e.symm
  induction t with
  | nil => simp [tput, tget, hn]
  | cons p t ih =>
    obtain ⟨k, v⟩ := p
    unfold tput
    split
    · simp [tget, hn]
    · split
      · rename_i _ e
        subst e
        simp [tget, hn]
      · by_cases hk : k = j
        · simp [tget, hk]
        · simp [tget, hk, ih]

theorem tget_tput {α : Type} (t : Tbl α) (n j : Nat) (x : α) :
    tget (tput t n x) j = if j = n then some x else tget t j := by
  by_cases h : j = n
  · subst h; simp [tget_tput_same]
  · simp [h, tget_tput_other]

theorem tget_tmap {α : Type} (t : Tbl α) (f : α → α) (j : Nat) : tget (tmap t f) j = (tget t j).map f := by
  induction t with
  | nil => rfl
  | cons p t ih =>
    obtain ⟨k, v⟩ := p
    show (if k = j then some (f v) else tget (tmap t f) j) = _
    by_cases h : k = j <;> simp [tget, h, ih]

/-! ### Memories -/

theorem mget_mput_same (m : Memory) (a : Nat) (x : Byte) (h : m.wf) : mget (mput m a x) a = x := by
  have key : ∀ (t : Memory) (b : Nat) (v : Byte), mwf ((b, v) :: t) = true → ∀ a ≤ b, a ≠ b → mget t a = 0 := by
    intro t
    induction t with
    | nil => intros; rfl
    | cons p t ih =>
      obtain ⟨k, u⟩ := p
      intro b v hw a hab hne
      simp [mwf] at hw
      obtain ⟨⟨_, hlt⟩, hw'⟩ := hw
      have h1 : k ≠ a := by omega
      simp [mget, h1]
      exact ih k u hw' a (by omega) (by omega)
  have key2 : ∀ (t : Memory) (b : Nat) (v : Byte), mwf ((b, v) :: t) = true → mget t b = 0 := by
    intro t
    cases t with
    | nil => intros; rfl
    | cons p t =>
      obtain ⟨k, u⟩ := p
      intro b v hw
      simp [mwf] at hw
      obtain ⟨⟨_, hlt⟩, hw'⟩ := hw
      have h1 : k ≠ b := by omega
      simp [mget, h1]
      exact key t k u hw' b (by omega) (by omega)
  have tail : ∀ (t : Memory) (p : Nat × Byte), mwf (p :: t) = true → mwf t = true := by
    intro t p hw
    cases t with
    | nil => rfl
    | cons q t => simp [mwf] at hw; exact hw.2
  induction m with
  | nil =>
    unfold mput
    split
    · rename_i e; simp [mget, e]
    · simp [mget]
  | cons p t ih =>
    obtain ⟨k, v⟩ := p
    unfold mput
    split
    · rename_i hlt
      split
      · rename_i e
        have h1 : k ≠ a := by omega
        simp [mget, h1, e]
        exact key t k v h a (by omega) (by omega)
      · simp [mget]
    · split
      · rename_i _ e
        subst e
        split
        · rename_i e0
          rw [e0]
          exact key2 t a v h
        · simp [mget]
      · rename_i _ hne
        have h1 : k ≠ a := fun e => hne e.symm
        simp [mget, h1]
        exact ih (tail t (k, v) h)

theorem mget_mput_other (m : Memory) (a b : Nat) (x : Byte) (h : b ≠ a) : mget (mput m a x) b = mget m b := by
  have hn : a ≠ b := fun e => h e.symm
  induction m with
  | nil =>
    unfold mput
    split
    · rfl
    · simp [mget, hn]
  | cons p t ih =>
    obtain ⟨k, v⟩ := p
    unfold mput
    split
    · split
      · rfl
      · simp [mget, hn]
    · split
      · rename_i _ e
        subst e
        split <;> simp [mget, hn]
      · by_cases hk : k = b
        · simp [mget, hk]
        · simp [mget, hk, ih]

/-- The least address of a memory, if it lists one. -/
def mhead : Memory → Option Nat
  | [] => none
  | (a, _) :: _ => some a

theorem mwf_cons (a : Nat) (v : Byte) (t : Memory) :
    mwf ((a, v) :: t) = true ↔ v ≠ 0 ∧ (∀ b, mhead t = some b → a < b) ∧ mwf t = true := by
  cases t with
  | nil => simp [mwf, mhead]
  | cons p t =>
    obtain ⟨b, u⟩ := p
    simp [mwf, mhead, and_assoc]

theorem mhead_mput (m : Memory) (a : Nat) (x : Byte) (c b : Nat) (hc : c < a) (hm : ∀ b, mhead m = some b → c < b)
    (hw : m.wf) (h : mhead (mput m a x) = some b) : c < b := by
  cases m with
  | nil =>
    unfold mput at h
    split at h
    · simp [mhead] at h
    · simp [mhead] at h; omega
  | cons p t =>
    obtain ⟨k, v⟩ := p
    have hk : c < k := hm k rfl
    unfold mput at h
    split at h
    · split at h <;> simp [mhead] at h <;> omega
    · split at h
      · split at h
        · have := ((mwf_cons k v t).mp hw).2.1 b h
          omega
        · simp [mhead] at h; omega
      · simp [mhead] at h; omega

/-- Writing a byte keeps the canonical form. -/
theorem mput_wf (m : Memory) (a : Nat) (x : Byte) (h : m.wf) : (mput m a x).wf := by
  induction m with
  | nil =>
    unfold mput
    split
    · rfl
    · rename_i hx; exact (mwf_cons _ _ _).mpr ⟨hx, fun _ hb => by simp [mhead] at hb, rfl⟩
  | cons p t ih =>
    obtain ⟨k, v⟩ := p
    obtain ⟨hv, ht, hw⟩ := (mwf_cons k v t).mp h
    unfold mput
    split
    · split
      · exact h
      · rename_i hlt hx
        exact (mwf_cons _ _ _).mpr ⟨hx, fun b hb => by simp [mhead] at hb; omega, h⟩
    · split
      · rename_i _ e
        subst e
        split
        · exact hw
        · rename_i hx
          exact (mwf_cons _ _ _).mpr ⟨hx, ht, hw⟩
      · exact (mwf_cons _ _ _).mpr ⟨hv, fun b hb => mhead_mput t a x k b (by omega) ht hw hb, ih hw⟩

/-- Writing consecutive bytes keeps the canonical form. -/
theorem mputs_wf (bs : List Byte) : ∀ (m : Memory) (a : Nat), m.wf → (mputs m a bs).wf := by
  induction bs with
  | nil => intro m a h; exact h
  | cons b bs ih => intro m a h; exact ih _ _ (mput_wf m a b h)

theorem mget_mputs_other (bs : List Byte) :
    ∀ (m : Memory) (a b : Nat), (b < a ∨ a + bs.length ≤ b) → mget (mputs m a bs) b = mget m b := by
  induction bs with
  | nil => intros; rfl
  | cons x bs ih =>
    intro m a b h
    show mget (mputs (mput m a x) (a + 1) bs) b = _
    simp only [List.length_cons] at h
    rw [ih (mput m a x) (a + 1) b (by omega), mget_mput_other m a b x (by omega)]

theorem mget_mputs_in (bs : List Byte) :
    ∀ (m : Memory) (a i : Nat), m.wf → (h : i < bs.length) → mget (mputs m a bs) (a + i) = bs[i] := by
  induction bs with
  | nil => intro m a i _ h; simp at h
  | cons x bs ih =>
    intro m a i hw h
    show mget (mputs (mput m a x) (a + 1) bs) (a + i) = _
    cases i with
    | zero =>
      rw [mget_mputs_other bs _ _ _ (by omega)]
      exact mget_mput_same m a x hw
    | succ i =>
      have e : a + (i + 1) = a + 1 + i := by omega
      rw [e, ih (mput m a x) (a + 1) i (mput_wf m a x hw) (by simpa using h)]
      rfl

/-- Forgetting bytes keeps the canonical form. -/
theorem merase_wf (m : Memory) (lo hi : Nat) (h : m.wf) : (merase m lo hi).wf := by
  have head : ∀ (t : Memory) (c : Nat), (∀ b, mhead t = some b → c < b) → t.wf →
      ∀ b, mhead (merase t lo hi) = some b → c < b := by
    intro t
    induction t with
    | nil => intro c _ _ b hb; simp [merase, mhead] at hb
    | cons p t ih =>
      obtain ⟨k, v⟩ := p
      intro c hc hw b hb
      obtain ⟨_, ht, hw'⟩ := (mwf_cons k v t).mp hw
      have hk : c < k := hc k rfl
      simp only [merase, List.filter_cons] at hb
      split at hb
      · simp [mhead] at hb; omega
      · exact ih c (fun b' hb' => Nat.lt_trans hk (ht b' hb')) hw' b hb
  induction m with
  | nil => rfl
  | cons p t ih =>
    obtain ⟨k, v⟩ := p
    obtain ⟨hv, ht, hw⟩ := (mwf_cons k v t).mp h
    simp only [merase, List.filter_cons]
    split
    · exact (mwf_cons _ _ _).mpr ⟨hv, head t k ht hw, ih hw⟩
    · exact ih hw

/-- Bringing a memory to canonical form gives the canonical form. -/
theorem mcanon_wf (m : Memory) : (mcanon m).wf := by
  induction m with
  | nil => rfl
  | cons p t ih => exact mput_wf _ _ _ ih

theorem mput_front (t : Memory) (a : Nat) (v : Byte) (hv : v ≠ 0) (ht : ∀ b, mhead t = some b → a < b) :
    mput t a v = (a, v) :: t := by
  cases t with
  | nil => exact if_neg hv
  | cons p t =>
    obtain ⟨b, u⟩ := p
    have := ht b rfl
    unfold mput
    rw [if_pos this, if_neg hv]

/-- A memory in canonical form is left as it is. -/
theorem mcanon_of_wf (m : Memory) (h : m.wf) : mcanon m = m := by
  induction m with
  | nil => rfl
  | cons p t ih =>
    obtain ⟨a, v⟩ := p
    obtain ⟨hv, ht, hw⟩ := (mwf_cons a v t).mp h
    show mput (mcanon t) a v = (a, v) :: t
    rw [ih hw, mput_front t a v hv ht]

/-- Bringing a memory to canonical form changes no byte. -/
theorem mget_mcanon (m : Memory) (a : Nat) : mget (mcanon m) a = mget m a := by
  induction m with
  | nil => rfl
  | cons p t ih =>
    obtain ⟨b, v⟩ := p
    show mget (mput (mcanon t) b v) a = _
    by_cases h : b = a
    · subst h
      rw [mget_mput_same _ _ _ (mcanon_wf t)]
      simp [mget]
    · rw [mget_mput_other _ _ _ _ (fun e => h e.symm), ih]
      simp [mget, h]

/-! ### Little-endian numbers -/

theorem natLe_length (n : Nat) : ∀ v, (natLe n v).length = n := by
  induction n with
  | zero => intro; rfl
  | succ n ih => intro v; simp [natLe, ih]

theorem leNat_natLe (n : Nat) : ∀ v, leNat (natLe n v) = v % 256 ^ n := by
  induction n with
  | zero => intro v; simp [natLe, leNat, Nat.mod_one]
  | succ n ih =>
    intro v
    have e : (256 : Nat) ^ (n + 1) = 256 * 256 ^ n := Nat.pow_succ'
    show (BitVec.ofNat 8 v).toNat + 256 * leNat (natLe n (v / 256)) = _
    rw [ih, BitVec.toNat_ofNat, e, Nat.mod_mul]

end Sys2Proof.Machine
end

