-- ==== Sys2Proof/Laws/State.lean ====
section
/-!
SUPPORT. What each record update leaves and what it writes, field by field, and the accessors after each update:
no later proof unfolds a record update.
-/

namespace Sys2Proof.Machine.State

open Sys2Proof

/-! ### `setThread` -/

@[simp] theorem setThread_mem (s : State) (tid : Nat) (x : Thread) : (s.setThread tid x).mem = s.mem := rfl
@[simp] theorem setThread_now (s : State) (tid : Nat) (x : Thread) : (s.setThread tid x).now = s.now := rfl
@[simp] theorem setThread_timed (s : State) (tid : Nat) (x : Thread) : (s.setThread tid x).timed = s.timed := rfl
@[simp] theorem setThread_lag (s : State) (tid : Nat) (x : Thread) : (s.setThread tid x).lag = s.lag := rfl
@[simp] theorem setThread_lastStamp (s : State) (tid : Nat) (x : Thread) : (s.setThread tid x).lastStamp = s.lastStamp := rfl
@[simp] theorem setThread_cyc (s : State) (tid : Nat) (x : Thread) : (s.setThread tid x).cyc = s.cyc := rfl
@[simp] theorem setThread_node (s : State) (tid : Nat) (x : Thread) : (s.setThread tid x).node = s.node := rfl
@[simp] theorem setThread_held (s : State) (tid : Nat) (x : Thread) : (s.setThread tid x).held = s.held := rfl
@[simp] theorem setThread_booted (s : State) (tid : Nat) (x : Thread) : (s.setThread tid x).booted = s.booted := rfl
@[simp] theorem setThread_cur (s : State) (tid : Nat) (x : Thread) : (s.setThread tid x).cur = s.cur := rfl
@[simp] theorem setThread_groups (s : State) (tid : Nat) (x : Thread) : (s.setThread tid x).groups = s.groups := rfl
@[simp] theorem setThread_issued (s : State) (tid : Nat) (x : Thread) : (s.setThread tid x).issued = s.issued := rfl
@[simp] theorem setThread_agenda (s : State) (tid : Nat) (x : Thread) : (s.setThread tid x).agenda = s.agenda := rfl
@[simp] theorem setThread_threads (s : State) (tid : Nat) (x : Thread) : (s.setThread tid x).threads = tput s.threads tid x := rfl
@[simp] theorem setThread_flocks (s : State) (tid : Nat) (x : Thread) : (s.setThread tid x).flocks = s.flocks := rfl
@[simp] theorem setThread_wgs (s : State) (tid : Nat) (x : Thread) : (s.setThread tid x).wgs = s.wgs := rfl
@[simp] theorem setThread_teams (s : State) (tid : Nat) (x : Thread) : (s.setThread tid x).teams = s.teams := rfl
@[simp] theorem setThread_bars (s : State) (tid : Nat) (x : Thread) : (s.setThread tid x).bars = s.bars := rfl
@[simp] theorem setThread_cores (s : State) (tid : Nat) (x : Thread) : (s.setThread tid x).cores = s.cores := rfl
@[simp] theorem setThread_quads (s : State) (tid : Nat) (x : Thread) : (s.setThread tid x).quads = s.quads := rfl
@[simp] theorem setThread_ctxs (s : State) (tid : Nat) (x : Thread) : (s.setThread tid x).ctxs = s.ctxs := rfl
@[simp] theorem setThread_vds (s : State) (tid : Nat) (x : Thread) : (s.setThread tid x).vds = s.vds := rfl
@[simp] theorem setThread_ranges (s : State) (tid : Nat) (x : Thread) : (s.setThread tid x).ranges = s.ranges := rfl
@[simp] theorem setThread_queues (s : State) (tid : Nat) (x : Thread) : (s.setThread tid x).queues = s.queues := rfl
@[simp] theorem setThread_tenants (s : State) (tid : Nat) (x : Thread) : (s.setThread tid x).tenants = s.tenants := rfl
@[simp] theorem setThread_runs (s : State) (tid : Nat) (x : Thread) : (s.setThread tid x).runs = s.runs := rfl
@[simp] theorem setThread_served (s : State) (tid : Nat) (x : Thread) : (s.setThread tid x).served = s.served := rfl
@[simp] theorem setThread_launches (s : State) (tid : Nat) (x : Thread) : (s.setThread tid x).launches = s.launches := rfl
@[simp] theorem setThread_saved (s : State) (tid : Nat) (x : Thread) : (s.setThread tid x).saved = s.saved := rfl
@[simp] theorem setThread_accs (s : State) (tid : Nat) (x : Thread) : (s.setThread tid x).accs = s.accs := rfl
@[simp] theorem setThread_ords (s : State) (tid : Nat) (x : Thread) : (s.setThread tid x).ords = s.ords := rfl
@[simp] theorem setThread_ports (s : State) (tid : Nat) (x : Thread) : (s.setThread tid x).ports = s.ports := rfl
@[simp] theorem setThread_outs (s : State) (tid : Nat) (x : Thread) : (s.setThread tid x).outs = s.outs := rfl
@[simp] theorem setThread_flitq (s : State) (tid : Nat) (x : Thread) : (s.setThread tid x).flitq = s.flitq := rfl
@[simp] theorem setThread_replies (s : State) (tid : Nat) (x : Thread) : (s.setThread tid x).replies = s.replies := rfl
@[simp] theorem setThread_recvs (s : State) (tid : Nat) (x : Thread) : (s.setThread tid x).recvs = s.recvs := rfl
@[simp] theorem setThread_cpSeq (s : State) (tid : Nat) (x : Thread) : (s.setThread tid x).cpSeq = s.cpSeq := rfl
@[simp] theorem setThread_crc (s : State) (tid : Nat) (x : Thread) : (s.setThread tid x).crc = s.crc := rfl
@[simp] theorem setThread_shared (s : State) (tid : Nat) (x : Thread) : (s.setThread tid x).shared = s.shared := rfl
@[simp] theorem setThread_stamps (s : State) (tid : Nat) (x : Thread) : (s.setThread tid x).stamps = s.stamps := rfl
@[simp] theorem setThread_dirty (s : State) (tid : Nat) (x : Thread) : (s.setThread tid x).dirty = s.dirty := rfl
@[simp] theorem setThread_hints (s : State) (tid : Nat) (x : Thread) : (s.setThread tid x).hints = s.hints := rfl
@[simp] theorem setThread_replicas (s : State) (tid : Nat) (x : Thread) : (s.setThread tid x).replicas = s.replicas := rfl
@[simp] theorem setThread_poison (s : State) (tid : Nat) (x : Thread) : (s.setThread tid x).poison = s.poison := rfl
@[simp] theorem setThread_retired (s : State) (tid : Nat) (x : Thread) : (s.setThread tid x).retired = s.retired := rfl
@[simp] theorem setThread_errc (s : State) (tid : Nat) (x : Thread) : (s.setThread tid x).errc = s.errc := rfl
@[simp] theorem setThread_market (s : State) (tid : Nat) (x : Thread) : (s.setThread tid x).market = s.market := rfl
@[simp] theorem setThread_meters (s : State) (tid : Nat) (x : Thread) : (s.setThread tid x).meters = s.meters := rfl
@[simp] theorem setThread_sessions (s : State) (tid : Nat) (x : Thread) : (s.setThread tid x).sessions = s.sessions := rfl
@[simp] theorem setThread_sec (s : State) (tid : Nat) (x : Thread) : (s.setThread tid x).sec = s.sec := rfl
@[simp] theorem setThread_ptp (s : State) (tid : Nat) (x : Thread) : (s.setThread tid x).ptp = s.ptp := rfl
@[simp] theorem setThread_hotSlices (s : State) (tid : Nat) (x : Thread) : (s.setThread tid x).hotSlices = s.hotSlices := rfl
@[simp] theorem setThread_hotPorts (s : State) (tid : Nat) (x : Thread) : (s.setThread tid x).hotPorts = s.hotPorts := rfl
@[simp] theorem setThread_sent (s : State) (tid : Nat) (x : Thread) : (s.setThread tid x).sent = s.sent := rfl
@[simp] theorem setThread_fetches (s : State) (tid : Nat) (x : Thread) : (s.setThread tid x).fetches = s.fetches := rfl
@[simp] theorem setThread_spills (s : State) (tid : Nat) (x : Thread) : (s.setThread tid x).spills = s.spills := rfl
@[simp] theorem setThread_awaiting (s : State) (tid : Nat) (x : Thread) : (s.setThread tid x).awaiting = s.awaiting := rfl
@[simp] theorem setThread_halts (s : State) (tid : Nat) (x : Thread) : (s.setThread tid x).halts = s.halts := rfl
@[simp] theorem setThread_dying (s : State) (tid : Nat) (x : Thread) : (s.setThread tid x).dying = s.dying := rfl
@[simp] theorem setThread_fresh (s : State) (tid : Nat) (x : Thread) : (s.setThread tid x).fresh = s.fresh := rfl
@[simp] theorem setThread_draws (s : State) (tid : Nat) (x : Thread) : (s.setThread tid x).draws = s.draws := rfl

/-! ### `setFlock` -/

@[simp] theorem setFlock_mem (s : State) (f : Nat) (x : Flock) : (s.setFlock f x).mem = s.mem := rfl
@[simp] theorem setFlock_now (s : State) (f : Nat) (x : Flock) : (s.setFlock f x).now = s.now := rfl
@[simp] theorem setFlock_timed (s : State) (f : Nat) (x : Flock) : (s.setFlock f x).timed = s.timed := rfl
@[simp] theorem setFlock_lag (s : State) (f : Nat) (x : Flock) : (s.setFlock f x).lag = s.lag := rfl
@[simp] theorem setFlock_lastStamp (s : State) (f : Nat) (x : Flock) : (s.setFlock f x).lastStamp = s.lastStamp := rfl
@[simp] theorem setFlock_cyc (s : State) (f : Nat) (x : Flock) : (s.setFlock f x).cyc = s.cyc := rfl
@[simp] theorem setFlock_node (s : State) (f : Nat) (x : Flock) : (s.setFlock f x).node = s.node := rfl
@[simp] theorem setFlock_held (s : State) (f : Nat) (x : Flock) : (s.setFlock f x).held = s.held := rfl
@[simp] theorem setFlock_booted (s : State) (f : Nat) (x : Flock) : (s.setFlock f x).booted = s.booted := rfl
@[simp] theorem setFlock_cur (s : State) (f : Nat) (x : Flock) : (s.setFlock f x).cur = s.cur := rfl
@[simp] theorem setFlock_groups (s : State) (f : Nat) (x : Flock) : (s.setFlock f x).groups = s.groups := rfl
@[simp] theorem setFlock_issued (s : State) (f : Nat) (x : Flock) : (s.setFlock f x).issued = s.issued := rfl
@[simp] theorem setFlock_agenda (s : State) (f : Nat) (x : Flock) : (s.setFlock f x).agenda = s.agenda := rfl
@[simp] theorem setFlock_threads (s : State) (f : Nat) (x : Flock) : (s.setFlock f x).threads = s.threads := rfl
@[simp] theorem setFlock_flocks (s : State) (f : Nat) (x : Flock) : (s.setFlock f x).flocks = tput s.flocks f x := rfl
@[simp] theorem setFlock_wgs (s : State) (f : Nat) (x : Flock) : (s.setFlock f x).wgs = s.wgs := rfl
@[simp] theorem setFlock_teams (s : State) (f : Nat) (x : Flock) : (s.setFlock f x).teams = s.teams := rfl
@[simp] theorem setFlock_bars (s : State) (f : Nat) (x : Flock) : (s.setFlock f x).bars = s.bars := rfl
@[simp] theorem setFlock_cores (s : State) (f : Nat) (x : Flock) : (s.setFlock f x).cores = s.cores := rfl
@[simp] theorem setFlock_quads (s : State) (f : Nat) (x : Flock) : (s.setFlock f x).quads = s.quads := rfl
@[simp] theorem setFlock_ctxs (s : State) (f : Nat) (x : Flock) : (s.setFlock f x).ctxs = s.ctxs := rfl
@[simp] theorem setFlock_vds (s : State) (f : Nat) (x : Flock) : (s.setFlock f x).vds = s.vds := rfl
@[simp] theorem setFlock_ranges (s : State) (f : Nat) (x : Flock) : (s.setFlock f x).ranges = s.ranges := rfl
@[simp] theorem setFlock_queues (s : State) (f : Nat) (x : Flock) : (s.setFlock f x).queues = s.queues := rfl
@[simp] theorem setFlock_tenants (s : State) (f : Nat) (x : Flock) : (s.setFlock f x).tenants = s.tenants := rfl
@[simp] theorem setFlock_runs (s : State) (f : Nat) (x : Flock) : (s.setFlock f x).runs = s.runs := rfl
@[simp] theorem setFlock_served (s : State) (f : Nat) (x : Flock) : (s.setFlock f x).served = s.served := rfl
@[simp] theorem setFlock_launches (s : State) (f : Nat) (x : Flock) : (s.setFlock f x).launches = s.launches := rfl
@[simp] theorem setFlock_saved (s : State) (f : Nat) (x : Flock) : (s.setFlock f x).saved = s.saved := rfl
@[simp] theorem setFlock_accs (s : State) (f : Nat) (x : Flock) : (s.setFlock f x).accs = s.accs := rfl
@[simp] theorem setFlock_ords (s : State) (f : Nat) (x : Flock) : (s.setFlock f x).ords = s.ords := rfl
@[simp] theorem setFlock_ports (s : State) (f : Nat) (x : Flock) : (s.setFlock f x).ports = s.ports := rfl
@[simp] theorem setFlock_outs (s : State) (f : Nat) (x : Flock) : (s.setFlock f x).outs = s.outs := rfl
@[simp] theorem setFlock_flitq (s : State) (f : Nat) (x : Flock) : (s.setFlock f x).flitq = s.flitq := rfl
@[simp] theorem setFlock_replies (s : State) (f : Nat) (x : Flock) : (s.setFlock f x).replies = s.replies := rfl
@[simp] theorem setFlock_recvs (s : State) (f : Nat) (x : Flock) : (s.setFlock f x).recvs = s.recvs := rfl
@[simp] theorem setFlock_cpSeq (s : State) (f : Nat) (x : Flock) : (s.setFlock f x).cpSeq = s.cpSeq := rfl
@[simp] theorem setFlock_crc (s : State) (f : Nat) (x : Flock) : (s.setFlock f x).crc = s.crc := rfl
@[simp] theorem setFlock_shared (s : State) (f : Nat) (x : Flock) : (s.setFlock f x).shared = s.shared := rfl
@[simp] theorem setFlock_stamps (s : State) (f : Nat) (x : Flock) : (s.setFlock f x).stamps = s.stamps := rfl
@[simp] theorem setFlock_dirty (s : State) (f : Nat) (x : Flock) : (s.setFlock f x).dirty = s.dirty := rfl
@[simp] theorem setFlock_hints (s : State) (f : Nat) (x : Flock) : (s.setFlock f x).hints = s.hints := rfl
@[simp] theorem setFlock_replicas (s : State) (f : Nat) (x : Flock) : (s.setFlock f x).replicas = s.replicas := rfl
@[simp] theorem setFlock_poison (s : State) (f : Nat) (x : Flock) : (s.setFlock f x).poison = s.poison := rfl
@[simp] theorem setFlock_retired (s : State) (f : Nat) (x : Flock) : (s.setFlock f x).retired = s.retired := rfl
@[simp] theorem setFlock_errc (s : State) (f : Nat) (x : Flock) : (s.setFlock f x).errc = s.errc := rfl
@[simp] theorem setFlock_market (s : State) (f : Nat) (x : Flock) : (s.setFlock f x).market = s.market := rfl
@[simp] theorem setFlock_meters (s : State) (f : Nat) (x : Flock) : (s.setFlock f x).meters = s.meters := rfl
@[simp] theorem setFlock_sessions (s : State) (f : Nat) (x : Flock) : (s.setFlock f x).sessions = s.sessions := rfl
@[simp] theorem setFlock_sec (s : State) (f : Nat) (x : Flock) : (s.setFlock f x).sec = s.sec := rfl
@[simp] theorem setFlock_ptp (s : State) (f : Nat) (x : Flock) : (s.setFlock f x).ptp = s.ptp := rfl
@[simp] theorem setFlock_hotSlices (s : State) (f : Nat) (x : Flock) : (s.setFlock f x).hotSlices = s.hotSlices := rfl
@[simp] theorem setFlock_hotPorts (s : State) (f : Nat) (x : Flock) : (s.setFlock f x).hotPorts = s.hotPorts := rfl
@[simp] theorem setFlock_sent (s : State) (f : Nat) (x : Flock) : (s.setFlock f x).sent = s.sent := rfl
@[simp] theorem setFlock_fetches (s : State) (f : Nat) (x : Flock) : (s.setFlock f x).fetches = s.fetches := rfl
@[simp] theorem setFlock_spills (s : State) (f : Nat) (x : Flock) : (s.setFlock f x).spills = s.spills := rfl
@[simp] theorem setFlock_awaiting (s : State) (f : Nat) (x : Flock) : (s.setFlock f x).awaiting = s.awaiting := rfl
@[simp] theorem setFlock_halts (s : State) (f : Nat) (x : Flock) : (s.setFlock f x).halts = s.halts := rfl
@[simp] theorem setFlock_dying (s : State) (f : Nat) (x : Flock) : (s.setFlock f x).dying = s.dying := rfl
@[simp] theorem setFlock_fresh (s : State) (f : Nat) (x : Flock) : (s.setFlock f x).fresh = s.fresh := rfl
@[simp] theorem setFlock_draws (s : State) (f : Nat) (x : Flock) : (s.setFlock f x).draws = s.draws := rfl

/-! ### `setWg` -/

@[simp] theorem setWg_mem (s : State) (w : Nat) (x : Wg) : (s.setWg w x).mem = s.mem := rfl
@[simp] theorem setWg_now (s : State) (w : Nat) (x : Wg) : (s.setWg w x).now = s.now := rfl
@[simp] theorem setWg_timed (s : State) (w : Nat) (x : Wg) : (s.setWg w x).timed = s.timed := rfl
@[simp] theorem setWg_lag (s : State) (w : Nat) (x : Wg) : (s.setWg w x).lag = s.lag := rfl
@[simp] theorem setWg_lastStamp (s : State) (w : Nat) (x : Wg) : (s.setWg w x).lastStamp = s.lastStamp := rfl
@[simp] theorem setWg_cyc (s : State) (w : Nat) (x : Wg) : (s.setWg w x).cyc = s.cyc := rfl
@[simp] theorem setWg_node (s : State) (w : Nat) (x : Wg) : (s.setWg w x).node = s.node := rfl
@[simp] theorem setWg_held (s : State) (w : Nat) (x : Wg) : (s.setWg w x).held = s.held := rfl
@[simp] theorem setWg_booted (s : State) (w : Nat) (x : Wg) : (s.setWg w x).booted = s.booted := rfl
@[simp] theorem setWg_cur (s : State) (w : Nat) (x : Wg) : (s.setWg w x).cur = s.cur := rfl
@[simp] theorem setWg_groups (s : State) (w : Nat) (x : Wg) : (s.setWg w x).groups = s.groups := rfl
@[simp] theorem setWg_issued (s : State) (w : Nat) (x : Wg) : (s.setWg w x).issued = s.issued := rfl
@[simp] theorem setWg_agenda (s : State) (w : Nat) (x : Wg) : (s.setWg w x).agenda = s.agenda := rfl
@[simp] theorem setWg_threads (s : State) (w : Nat) (x : Wg) : (s.setWg w x).threads = s.threads := rfl
@[simp] theorem setWg_flocks (s : State) (w : Nat) (x : Wg) : (s.setWg w x).flocks = s.flocks := rfl
@[simp] theorem setWg_wgs (s : State) (w : Nat) (x : Wg) : (s.setWg w x).wgs = tput s.wgs w x := rfl
@[simp] theorem setWg_teams (s : State) (w : Nat) (x : Wg) : (s.setWg w x).teams = s.teams := rfl
@[simp] theorem setWg_bars (s : State) (w : Nat) (x : Wg) : (s.setWg w x).bars = s.bars := rfl
@[simp] theorem setWg_cores (s : State) (w : Nat) (x : Wg) : (s.setWg w x).cores = s.cores := rfl
@[simp] theorem setWg_quads (s : State) (w : Nat) (x : Wg) : (s.setWg w x).quads = s.quads := rfl
@[simp] theorem setWg_ctxs (s : State) (w : Nat) (x : Wg) : (s.setWg w x).ctxs = s.ctxs := rfl
@[simp] theorem setWg_vds (s : State) (w : Nat) (x : Wg) : (s.setWg w x).vds = s.vds := rfl
@[simp] theorem setWg_ranges (s : State) (w : Nat) (x : Wg) : (s.setWg w x).ranges = s.ranges := rfl
@[simp] theorem setWg_queues (s : State) (w : Nat) (x : Wg) : (s.setWg w x).queues = s.queues := rfl
@[simp] theorem setWg_tenants (s : State) (w : Nat) (x : Wg) : (s.setWg w x).tenants = s.tenants := rfl
@[simp] theorem setWg_runs (s : State) (w : Nat) (x : Wg) : (s.setWg w x).runs = s.runs := rfl
@[simp] theorem setWg_served (s : State) (w : Nat) (x : Wg) : (s.setWg w x).served = s.served := rfl
@[simp] theorem setWg_launches (s : State) (w : Nat) (x : Wg) : (s.setWg w x).launches = s.launches := rfl
@[simp] theorem setWg_saved (s : State) (w : Nat) (x : Wg) : (s.setWg w x).saved = s.saved := rfl
@[simp] theorem setWg_accs (s : State) (w : Nat) (x : Wg) : (s.setWg w x).accs = s.accs := rfl
@[simp] theorem setWg_ords (s : State) (w : Nat) (x : Wg) : (s.setWg w x).ords = s.ords := rfl
@[simp] theorem setWg_ports (s : State) (w : Nat) (x : Wg) : (s.setWg w x).ports = s.ports := rfl
@[simp] theorem setWg_outs (s : State) (w : Nat) (x : Wg) : (s.setWg w x).outs = s.outs := rfl
@[simp] theorem setWg_flitq (s : State) (w : Nat) (x : Wg) : (s.setWg w x).flitq = s.flitq := rfl
@[simp] theorem setWg_replies (s : State) (w : Nat) (x : Wg) : (s.setWg w x).replies = s.replies := rfl
@[simp] theorem setWg_recvs (s : State) (w : Nat) (x : Wg) : (s.setWg w x).recvs = s.recvs := rfl
@[simp] theorem setWg_cpSeq (s : State) (w : Nat) (x : Wg) : (s.setWg w x).cpSeq = s.cpSeq := rfl
@[simp] theorem setWg_crc (s : State) (w : Nat) (x : Wg) : (s.setWg w x).crc = s.crc := rfl
@[simp] theorem setWg_shared (s : State) (w : Nat) (x : Wg) : (s.setWg w x).shared = s.shared := rfl
@[simp] theorem setWg_stamps (s : State) (w : Nat) (x : Wg) : (s.setWg w x).stamps = s.stamps := rfl
@[simp] theorem setWg_dirty (s : State) (w : Nat) (x : Wg) : (s.setWg w x).dirty = s.dirty := rfl
@[simp] theorem setWg_hints (s : State) (w : Nat) (x : Wg) : (s.setWg w x).hints = s.hints := rfl
@[simp] theorem setWg_replicas (s : State) (w : Nat) (x : Wg) : (s.setWg w x).replicas = s.replicas := rfl
@[simp] theorem setWg_poison (s : State) (w : Nat) (x : Wg) : (s.setWg w x).poison = s.poison := rfl
@[simp] theorem setWg_retired (s : State) (w : Nat) (x : Wg) : (s.setWg w x).retired = s.retired := rfl
@[simp] theorem setWg_errc (s : State) (w : Nat) (x : Wg) : (s.setWg w x).errc = s.errc := rfl
@[simp] theorem setWg_market (s : State) (w : Nat) (x : Wg) : (s.setWg w x).market = s.market := rfl
@[simp] theorem setWg_meters (s : State) (w : Nat) (x : Wg) : (s.setWg w x).meters = s.meters := rfl
@[simp] theorem setWg_sessions (s : State) (w : Nat) (x : Wg) : (s.setWg w x).sessions = s.sessions := rfl
@[simp] theorem setWg_sec (s : State) (w : Nat) (x : Wg) : (s.setWg w x).sec = s.sec := rfl
@[simp] theorem setWg_ptp (s : State) (w : Nat) (x : Wg) : (s.setWg w x).ptp = s.ptp := rfl
@[simp] theorem setWg_hotSlices (s : State) (w : Nat) (x : Wg) : (s.setWg w x).hotSlices = s.hotSlices := rfl
@[simp] theorem setWg_hotPorts (s : State) (w : Nat) (x : Wg) : (s.setWg w x).hotPorts = s.hotPorts := rfl
@[simp] theorem setWg_sent (s : State) (w : Nat) (x : Wg) : (s.setWg w x).sent = s.sent := rfl
@[simp] theorem setWg_fetches (s : State) (w : Nat) (x : Wg) : (s.setWg w x).fetches = s.fetches := rfl
@[simp] theorem setWg_spills (s : State) (w : Nat) (x : Wg) : (s.setWg w x).spills = s.spills := rfl
@[simp] theorem setWg_awaiting (s : State) (w : Nat) (x : Wg) : (s.setWg w x).awaiting = s.awaiting := rfl
@[simp] theorem setWg_halts (s : State) (w : Nat) (x : Wg) : (s.setWg w x).halts = s.halts := rfl
@[simp] theorem setWg_dying (s : State) (w : Nat) (x : Wg) : (s.setWg w x).dying = s.dying := rfl
@[simp] theorem setWg_fresh (s : State) (w : Nat) (x : Wg) : (s.setWg w x).fresh = s.fresh := rfl
@[simp] theorem setWg_draws (s : State) (w : Nat) (x : Wg) : (s.setWg w x).draws = s.draws := rfl

/-! ### `setCore` -/

@[simp] theorem setCore_mem (s : State) (c : Nat) (x : Core) : (s.setCore c x).mem = s.mem := rfl
@[simp] theorem setCore_now (s : State) (c : Nat) (x : Core) : (s.setCore c x).now = s.now := rfl
@[simp] theorem setCore_timed (s : State) (c : Nat) (x : Core) : (s.setCore c x).timed = s.timed := rfl
@[simp] theorem setCore_lag (s : State) (c : Nat) (x : Core) : (s.setCore c x).lag = s.lag := rfl
@[simp] theorem setCore_lastStamp (s : State) (c : Nat) (x : Core) : (s.setCore c x).lastStamp = s.lastStamp := rfl
@[simp] theorem setCore_cyc (s : State) (c : Nat) (x : Core) : (s.setCore c x).cyc = s.cyc := rfl
@[simp] theorem setCore_node (s : State) (c : Nat) (x : Core) : (s.setCore c x).node = s.node := rfl
@[simp] theorem setCore_held (s : State) (c : Nat) (x : Core) : (s.setCore c x).held = s.held := rfl
@[simp] theorem setCore_booted (s : State) (c : Nat) (x : Core) : (s.setCore c x).booted = s.booted := rfl
@[simp] theorem setCore_cur (s : State) (c : Nat) (x : Core) : (s.setCore c x).cur = s.cur := rfl
@[simp] theorem setCore_groups (s : State) (c : Nat) (x : Core) : (s.setCore c x).groups = s.groups := rfl
@[simp] theorem setCore_issued (s : State) (c : Nat) (x : Core) : (s.setCore c x).issued = s.issued := rfl
@[simp] theorem setCore_agenda (s : State) (c : Nat) (x : Core) : (s.setCore c x).agenda = s.agenda := rfl
@[simp] theorem setCore_threads (s : State) (c : Nat) (x : Core) : (s.setCore c x).threads = s.threads := rfl
@[simp] theorem setCore_flocks (s : State) (c : Nat) (x : Core) : (s.setCore c x).flocks = s.flocks := rfl
@[simp] theorem setCore_wgs (s : State) (c : Nat) (x : Core) : (s.setCore c x).wgs = s.wgs := rfl
@[simp] theorem setCore_teams (s : State) (c : Nat) (x : Core) : (s.setCore c x).teams = s.teams := rfl
@[simp] theorem setCore_bars (s : State) (c : Nat) (x : Core) : (s.setCore c x).bars = s.bars := rfl
@[simp] theorem setCore_cores (s : State) (c : Nat) (x : Core) : (s.setCore c x).cores = tput s.cores c x := rfl
@[simp] theorem setCore_quads (s : State) (c : Nat) (x : Core) : (s.setCore c x).quads = s.quads := rfl
@[simp] theorem setCore_ctxs (s : State) (c : Nat) (x : Core) : (s.setCore c x).ctxs = s.ctxs := rfl
@[simp] theorem setCore_vds (s : State) (c : Nat) (x : Core) : (s.setCore c x).vds = s.vds := rfl
@[simp] theorem setCore_ranges (s : State) (c : Nat) (x : Core) : (s.setCore c x).ranges = s.ranges := rfl
@[simp] theorem setCore_queues (s : State) (c : Nat) (x : Core) : (s.setCore c x).queues = s.queues := rfl
@[simp] theorem setCore_tenants (s : State) (c : Nat) (x : Core) : (s.setCore c x).tenants = s.tenants := rfl
@[simp] theorem setCore_runs (s : State) (c : Nat) (x : Core) : (s.setCore c x).runs = s.runs := rfl
@[simp] theorem setCore_served (s : State) (c : Nat) (x : Core) : (s.setCore c x).served = s.served := rfl
@[simp] theorem setCore_launches (s : State) (c : Nat) (x : Core) : (s.setCore c x).launches = s.launches := rfl
@[simp] theorem setCore_saved (s : State) (c : Nat) (x : Core) : (s.setCore c x).saved = s.saved := rfl
@[simp] theorem setCore_accs (s : State) (c : Nat) (x : Core) : (s.setCore c x).accs = s.accs := rfl
@[simp] theorem setCore_ords (s : State) (c : Nat) (x : Core) : (s.setCore c x).ords = s.ords := rfl
@[simp] theorem setCore_ports (s : State) (c : Nat) (x : Core) : (s.setCore c x).ports = s.ports := rfl
@[simp] theorem setCore_outs (s : State) (c : Nat) (x : Core) : (s.setCore c x).outs = s.outs := rfl
@[simp] theorem setCore_flitq (s : State) (c : Nat) (x : Core) : (s.setCore c x).flitq = s.flitq := rfl
@[simp] theorem setCore_replies (s : State) (c : Nat) (x : Core) : (s.setCore c x).replies = s.replies := rfl
@[simp] theorem setCore_recvs (s : State) (c : Nat) (x : Core) : (s.setCore c x).recvs = s.recvs := rfl
@[simp] theorem setCore_cpSeq (s : State) (c : Nat) (x : Core) : (s.setCore c x).cpSeq = s.cpSeq := rfl
@[simp] theorem setCore_crc (s : State) (c : Nat) (x : Core) : (s.setCore c x).crc = s.crc := rfl
@[simp] theorem setCore_shared (s : State) (c : Nat) (x : Core) : (s.setCore c x).shared = s.shared := rfl
@[simp] theorem setCore_stamps (s : State) (c : Nat) (x : Core) : (s.setCore c x).stamps = s.stamps := rfl
@[simp] theorem setCore_dirty (s : State) (c : Nat) (x : Core) : (s.setCore c x).dirty = s.dirty := rfl
@[simp] theorem setCore_hints (s : State) (c : Nat) (x : Core) : (s.setCore c x).hints = s.hints := rfl
@[simp] theorem setCore_replicas (s : State) (c : Nat) (x : Core) : (s.setCore c x).replicas = s.replicas := rfl
@[simp] theorem setCore_poison (s : State) (c : Nat) (x : Core) : (s.setCore c x).poison = s.poison := rfl
@[simp] theorem setCore_retired (s : State) (c : Nat) (x : Core) : (s.setCore c x).retired = s.retired := rfl
@[simp] theorem setCore_errc (s : State) (c : Nat) (x : Core) : (s.setCore c x).errc = s.errc := rfl
@[simp] theorem setCore_market (s : State) (c : Nat) (x : Core) : (s.setCore c x).market = s.market := rfl
@[simp] theorem setCore_meters (s : State) (c : Nat) (x : Core) : (s.setCore c x).meters = s.meters := rfl
@[simp] theorem setCore_sessions (s : State) (c : Nat) (x : Core) : (s.setCore c x).sessions = s.sessions := rfl
@[simp] theorem setCore_sec (s : State) (c : Nat) (x : Core) : (s.setCore c x).sec = s.sec := rfl
@[simp] theorem setCore_ptp (s : State) (c : Nat) (x : Core) : (s.setCore c x).ptp = s.ptp := rfl
@[simp] theorem setCore_hotSlices (s : State) (c : Nat) (x : Core) : (s.setCore c x).hotSlices = s.hotSlices := rfl
@[simp] theorem setCore_hotPorts (s : State) (c : Nat) (x : Core) : (s.setCore c x).hotPorts = s.hotPorts := rfl
@[simp] theorem setCore_sent (s : State) (c : Nat) (x : Core) : (s.setCore c x).sent = s.sent := rfl
@[simp] theorem setCore_fetches (s : State) (c : Nat) (x : Core) : (s.setCore c x).fetches = s.fetches := rfl
@[simp] theorem setCore_spills (s : State) (c : Nat) (x : Core) : (s.setCore c x).spills = s.spills := rfl
@[simp] theorem setCore_awaiting (s : State) (c : Nat) (x : Core) : (s.setCore c x).awaiting = s.awaiting := rfl
@[simp] theorem setCore_halts (s : State) (c : Nat) (x : Core) : (s.setCore c x).halts = s.halts := rfl
@[simp] theorem setCore_dying (s : State) (c : Nat) (x : Core) : (s.setCore c x).dying = s.dying := rfl
@[simp] theorem setCore_fresh (s : State) (c : Nat) (x : Core) : (s.setCore c x).fresh = s.fresh := rfl
@[simp] theorem setCore_draws (s : State) (c : Nat) (x : Core) : (s.setCore c x).draws = s.draws := rfl

/-! ### `setQuad` -/

@[simp] theorem setQuad_mem (s : State) (q : Nat) (x : Quad) : (s.setQuad q x).mem = s.mem := rfl
@[simp] theorem setQuad_now (s : State) (q : Nat) (x : Quad) : (s.setQuad q x).now = s.now := rfl
@[simp] theorem setQuad_timed (s : State) (q : Nat) (x : Quad) : (s.setQuad q x).timed = s.timed := rfl
@[simp] theorem setQuad_lag (s : State) (q : Nat) (x : Quad) : (s.setQuad q x).lag = s.lag := rfl
@[simp] theorem setQuad_lastStamp (s : State) (q : Nat) (x : Quad) : (s.setQuad q x).lastStamp = s.lastStamp := rfl
@[simp] theorem setQuad_cyc (s : State) (q : Nat) (x : Quad) : (s.setQuad q x).cyc = s.cyc := rfl
@[simp] theorem setQuad_node (s : State) (q : Nat) (x : Quad) : (s.setQuad q x).node = s.node := rfl
@[simp] theorem setQuad_held (s : State) (q : Nat) (x : Quad) : (s.setQuad q x).held = s.held := rfl
@[simp] theorem setQuad_booted (s : State) (q : Nat) (x : Quad) : (s.setQuad q x).booted = s.booted := rfl
@[simp] theorem setQuad_cur (s : State) (q : Nat) (x : Quad) : (s.setQuad q x).cur = s.cur := rfl
@[simp] theorem setQuad_groups (s : State) (q : Nat) (x : Quad) : (s.setQuad q x).groups = s.groups := rfl
@[simp] theorem setQuad_issued (s : State) (q : Nat) (x : Quad) : (s.setQuad q x).issued = s.issued := rfl
@[simp] theorem setQuad_agenda (s : State) (q : Nat) (x : Quad) : (s.setQuad q x).agenda = s.agenda := rfl
@[simp] theorem setQuad_threads (s : State) (q : Nat) (x : Quad) : (s.setQuad q x).threads = s.threads := rfl
@[simp] theorem setQuad_flocks (s : State) (q : Nat) (x : Quad) : (s.setQuad q x).flocks = s.flocks := rfl
@[simp] theorem setQuad_wgs (s : State) (q : Nat) (x : Quad) : (s.setQuad q x).wgs = s.wgs := rfl
@[simp] theorem setQuad_teams (s : State) (q : Nat) (x : Quad) : (s.setQuad q x).teams = s.teams := rfl
@[simp] theorem setQuad_bars (s : State) (q : Nat) (x : Quad) : (s.setQuad q x).bars = s.bars := rfl
@[simp] theorem setQuad_cores (s : State) (q : Nat) (x : Quad) : (s.setQuad q x).cores = s.cores := rfl
@[simp] theorem setQuad_quads (s : State) (q : Nat) (x : Quad) : (s.setQuad q x).quads = tput s.quads q x := rfl
@[simp] theorem setQuad_ctxs (s : State) (q : Nat) (x : Quad) : (s.setQuad q x).ctxs = s.ctxs := rfl
@[simp] theorem setQuad_vds (s : State) (q : Nat) (x : Quad) : (s.setQuad q x).vds = s.vds := rfl
@[simp] theorem setQuad_ranges (s : State) (q : Nat) (x : Quad) : (s.setQuad q x).ranges = s.ranges := rfl
@[simp] theorem setQuad_queues (s : State) (q : Nat) (x : Quad) : (s.setQuad q x).queues = s.queues := rfl
@[simp] theorem setQuad_tenants (s : State) (q : Nat) (x : Quad) : (s.setQuad q x).tenants = s.tenants := rfl
@[simp] theorem setQuad_runs (s : State) (q : Nat) (x : Quad) : (s.setQuad q x).runs = s.runs := rfl
@[simp] theorem setQuad_served (s : State) (q : Nat) (x : Quad) : (s.setQuad q x).served = s.served := rfl
@[simp] theorem setQuad_launches (s : State) (q : Nat) (x : Quad) : (s.setQuad q x).launches = s.launches := rfl
@[simp] theorem setQuad_saved (s : State) (q : Nat) (x : Quad) : (s.setQuad q x).saved = s.saved := rfl
@[simp] theorem setQuad_accs (s : State) (q : Nat) (x : Quad) : (s.setQuad q x).accs = s.accs := rfl
@[simp] theorem setQuad_ords (s : State) (q : Nat) (x : Quad) : (s.setQuad q x).ords = s.ords := rfl
@[simp] theorem setQuad_ports (s : State) (q : Nat) (x : Quad) : (s.setQuad q x).ports = s.ports := rfl
@[simp] theorem setQuad_outs (s : State) (q : Nat) (x : Quad) : (s.setQuad q x).outs = s.outs := rfl
@[simp] theorem setQuad_flitq (s : State) (q : Nat) (x : Quad) : (s.setQuad q x).flitq = s.flitq := rfl
@[simp] theorem setQuad_replies (s : State) (q : Nat) (x : Quad) : (s.setQuad q x).replies = s.replies := rfl
@[simp] theorem setQuad_recvs (s : State) (q : Nat) (x : Quad) : (s.setQuad q x).recvs = s.recvs := rfl
@[simp] theorem setQuad_cpSeq (s : State) (q : Nat) (x : Quad) : (s.setQuad q x).cpSeq = s.cpSeq := rfl
@[simp] theorem setQuad_crc (s : State) (q : Nat) (x : Quad) : (s.setQuad q x).crc = s.crc := rfl
@[simp] theorem setQuad_shared (s : State) (q : Nat) (x : Quad) : (s.setQuad q x).shared = s.shared := rfl
@[simp] theorem setQuad_stamps (s : State) (q : Nat) (x : Quad) : (s.setQuad q x).stamps = s.stamps := rfl
@[simp] theorem setQuad_dirty (s : State) (q : Nat) (x : Quad) : (s.setQuad q x).dirty = s.dirty := rfl
@[simp] theorem setQuad_hints (s : State) (q : Nat) (x : Quad) : (s.setQuad q x).hints = s.hints := rfl
@[simp] theorem setQuad_replicas (s : State) (q : Nat) (x : Quad) : (s.setQuad q x).replicas = s.replicas := rfl
@[simp] theorem setQuad_poison (s : State) (q : Nat) (x : Quad) : (s.setQuad q x).poison = s.poison := rfl
@[simp] theorem setQuad_retired (s : State) (q : Nat) (x : Quad) : (s.setQuad q x).retired = s.retired := rfl
@[simp] theorem setQuad_errc (s : State) (q : Nat) (x : Quad) : (s.setQuad q x).errc = s.errc := rfl
@[simp] theorem setQuad_market (s : State) (q : Nat) (x : Quad) : (s.setQuad q x).market = s.market := rfl
@[simp] theorem setQuad_meters (s : State) (q : Nat) (x : Quad) : (s.setQuad q x).meters = s.meters := rfl
@[simp] theorem setQuad_sessions (s : State) (q : Nat) (x : Quad) : (s.setQuad q x).sessions = s.sessions := rfl
@[simp] theorem setQuad_sec (s : State) (q : Nat) (x : Quad) : (s.setQuad q x).sec = s.sec := rfl
@[simp] theorem setQuad_ptp (s : State) (q : Nat) (x : Quad) : (s.setQuad q x).ptp = s.ptp := rfl
@[simp] theorem setQuad_hotSlices (s : State) (q : Nat) (x : Quad) : (s.setQuad q x).hotSlices = s.hotSlices := rfl
@[simp] theorem setQuad_hotPorts (s : State) (q : Nat) (x : Quad) : (s.setQuad q x).hotPorts = s.hotPorts := rfl
@[simp] theorem setQuad_sent (s : State) (q : Nat) (x : Quad) : (s.setQuad q x).sent = s.sent := rfl
@[simp] theorem setQuad_fetches (s : State) (q : Nat) (x : Quad) : (s.setQuad q x).fetches = s.fetches := rfl
@[simp] theorem setQuad_spills (s : State) (q : Nat) (x : Quad) : (s.setQuad q x).spills = s.spills := rfl
@[simp] theorem setQuad_awaiting (s : State) (q : Nat) (x : Quad) : (s.setQuad q x).awaiting = s.awaiting := rfl
@[simp] theorem setQuad_halts (s : State) (q : Nat) (x : Quad) : (s.setQuad q x).halts = s.halts := rfl
@[simp] theorem setQuad_dying (s : State) (q : Nat) (x : Quad) : (s.setQuad q x).dying = s.dying := rfl
@[simp] theorem setQuad_fresh (s : State) (q : Nat) (x : Quad) : (s.setQuad q x).fresh = s.fresh := rfl
@[simp] theorem setQuad_draws (s : State) (q : Nat) (x : Quad) : (s.setQuad q x).draws = s.draws := rfl

/-! ### `setCtx` -/

@[simp] theorem setCtx_mem (s : State) (c : Nat) (x : Ctx) : (s.setCtx c x).mem = s.mem := rfl
@[simp] theorem setCtx_now (s : State) (c : Nat) (x : Ctx) : (s.setCtx c x).now = s.now := rfl
@[simp] theorem setCtx_timed (s : State) (c : Nat) (x : Ctx) : (s.setCtx c x).timed = s.timed := rfl
@[simp] theorem setCtx_lag (s : State) (c : Nat) (x : Ctx) : (s.setCtx c x).lag = s.lag := rfl
@[simp] theorem setCtx_lastStamp (s : State) (c : Nat) (x : Ctx) : (s.setCtx c x).lastStamp = s.lastStamp := rfl
@[simp] theorem setCtx_cyc (s : State) (c : Nat) (x : Ctx) : (s.setCtx c x).cyc = s.cyc := rfl
@[simp] theorem setCtx_node (s : State) (c : Nat) (x : Ctx) : (s.setCtx c x).node = s.node := rfl
@[simp] theorem setCtx_held (s : State) (c : Nat) (x : Ctx) : (s.setCtx c x).held = s.held := rfl
@[simp] theorem setCtx_booted (s : State) (c : Nat) (x : Ctx) : (s.setCtx c x).booted = s.booted := rfl
@[simp] theorem setCtx_cur (s : State) (c : Nat) (x : Ctx) : (s.setCtx c x).cur = s.cur := rfl
@[simp] theorem setCtx_groups (s : State) (c : Nat) (x : Ctx) : (s.setCtx c x).groups = s.groups := rfl
@[simp] theorem setCtx_issued (s : State) (c : Nat) (x : Ctx) : (s.setCtx c x).issued = s.issued := rfl
@[simp] theorem setCtx_agenda (s : State) (c : Nat) (x : Ctx) : (s.setCtx c x).agenda = s.agenda := rfl
@[simp] theorem setCtx_threads (s : State) (c : Nat) (x : Ctx) : (s.setCtx c x).threads = s.threads := rfl
@[simp] theorem setCtx_flocks (s : State) (c : Nat) (x : Ctx) : (s.setCtx c x).flocks = s.flocks := rfl
@[simp] theorem setCtx_wgs (s : State) (c : Nat) (x : Ctx) : (s.setCtx c x).wgs = s.wgs := rfl
@[simp] theorem setCtx_teams (s : State) (c : Nat) (x : Ctx) : (s.setCtx c x).teams = s.teams := rfl
@[simp] theorem setCtx_bars (s : State) (c : Nat) (x : Ctx) : (s.setCtx c x).bars = s.bars := rfl
@[simp] theorem setCtx_cores (s : State) (c : Nat) (x : Ctx) : (s.setCtx c x).cores = s.cores := rfl
@[simp] theorem setCtx_quads (s : State) (c : Nat) (x : Ctx) : (s.setCtx c x).quads = s.quads := rfl
@[simp] theorem setCtx_ctxs (s : State) (c : Nat) (x : Ctx) : (s.setCtx c x).ctxs = tput s.ctxs c x := rfl
@[simp] theorem setCtx_vds (s : State) (c : Nat) (x : Ctx) : (s.setCtx c x).vds = s.vds := rfl
@[simp] theorem setCtx_ranges (s : State) (c : Nat) (x : Ctx) : (s.setCtx c x).ranges = s.ranges := rfl
@[simp] theorem setCtx_queues (s : State) (c : Nat) (x : Ctx) : (s.setCtx c x).queues = s.queues := rfl
@[simp] theorem setCtx_tenants (s : State) (c : Nat) (x : Ctx) : (s.setCtx c x).tenants = s.tenants := rfl
@[simp] theorem setCtx_runs (s : State) (c : Nat) (x : Ctx) : (s.setCtx c x).runs = s.runs := rfl
@[simp] theorem setCtx_served (s : State) (c : Nat) (x : Ctx) : (s.setCtx c x).served = s.served := rfl
@[simp] theorem setCtx_launches (s : State) (c : Nat) (x : Ctx) : (s.setCtx c x).launches = s.launches := rfl
@[simp] theorem setCtx_saved (s : State) (c : Nat) (x : Ctx) : (s.setCtx c x).saved = s.saved := rfl
@[simp] theorem setCtx_accs (s : State) (c : Nat) (x : Ctx) : (s.setCtx c x).accs = s.accs := rfl
@[simp] theorem setCtx_ords (s : State) (c : Nat) (x : Ctx) : (s.setCtx c x).ords = s.ords := rfl
@[simp] theorem setCtx_ports (s : State) (c : Nat) (x : Ctx) : (s.setCtx c x).ports = s.ports := rfl
@[simp] theorem setCtx_outs (s : State) (c : Nat) (x : Ctx) : (s.setCtx c x).outs = s.outs := rfl
@[simp] theorem setCtx_flitq (s : State) (c : Nat) (x : Ctx) : (s.setCtx c x).flitq = s.flitq := rfl
@[simp] theorem setCtx_replies (s : State) (c : Nat) (x : Ctx) : (s.setCtx c x).replies = s.replies := rfl
@[simp] theorem setCtx_recvs (s : State) (c : Nat) (x : Ctx) : (s.setCtx c x).recvs = s.recvs := rfl
@[simp] theorem setCtx_cpSeq (s : State) (c : Nat) (x : Ctx) : (s.setCtx c x).cpSeq = s.cpSeq := rfl
@[simp] theorem setCtx_crc (s : State) (c : Nat) (x : Ctx) : (s.setCtx c x).crc = s.crc := rfl
@[simp] theorem setCtx_shared (s : State) (c : Nat) (x : Ctx) : (s.setCtx c x).shared = s.shared := rfl
@[simp] theorem setCtx_stamps (s : State) (c : Nat) (x : Ctx) : (s.setCtx c x).stamps = s.stamps := rfl
@[simp] theorem setCtx_dirty (s : State) (c : Nat) (x : Ctx) : (s.setCtx c x).dirty = s.dirty := rfl
@[simp] theorem setCtx_hints (s : State) (c : Nat) (x : Ctx) : (s.setCtx c x).hints = s.hints := rfl
@[simp] theorem setCtx_replicas (s : State) (c : Nat) (x : Ctx) : (s.setCtx c x).replicas = s.replicas := rfl
@[simp] theorem setCtx_poison (s : State) (c : Nat) (x : Ctx) : (s.setCtx c x).poison = s.poison := rfl
@[simp] theorem setCtx_retired (s : State) (c : Nat) (x : Ctx) : (s.setCtx c x).retired = s.retired := rfl
@[simp] theorem setCtx_errc (s : State) (c : Nat) (x : Ctx) : (s.setCtx c x).errc = s.errc := rfl
@[simp] theorem setCtx_market (s : State) (c : Nat) (x : Ctx) : (s.setCtx c x).market = s.market := rfl
@[simp] theorem setCtx_meters (s : State) (c : Nat) (x : Ctx) : (s.setCtx c x).meters = s.meters := rfl
@[simp] theorem setCtx_sessions (s : State) (c : Nat) (x : Ctx) : (s.setCtx c x).sessions = s.sessions := rfl
@[simp] theorem setCtx_sec (s : State) (c : Nat) (x : Ctx) : (s.setCtx c x).sec = s.sec := rfl
@[simp] theorem setCtx_ptp (s : State) (c : Nat) (x : Ctx) : (s.setCtx c x).ptp = s.ptp := rfl
@[simp] theorem setCtx_hotSlices (s : State) (c : Nat) (x : Ctx) : (s.setCtx c x).hotSlices = s.hotSlices := rfl
@[simp] theorem setCtx_hotPorts (s : State) (c : Nat) (x : Ctx) : (s.setCtx c x).hotPorts = s.hotPorts := rfl
@[simp] theorem setCtx_sent (s : State) (c : Nat) (x : Ctx) : (s.setCtx c x).sent = s.sent := rfl
@[simp] theorem setCtx_fetches (s : State) (c : Nat) (x : Ctx) : (s.setCtx c x).fetches = s.fetches := rfl
@[simp] theorem setCtx_spills (s : State) (c : Nat) (x : Ctx) : (s.setCtx c x).spills = s.spills := rfl
@[simp] theorem setCtx_awaiting (s : State) (c : Nat) (x : Ctx) : (s.setCtx c x).awaiting = s.awaiting := rfl
@[simp] theorem setCtx_halts (s : State) (c : Nat) (x : Ctx) : (s.setCtx c x).halts = s.halts := rfl
@[simp] theorem setCtx_dying (s : State) (c : Nat) (x : Ctx) : (s.setCtx c x).dying = s.dying := rfl
@[simp] theorem setCtx_fresh (s : State) (c : Nat) (x : Ctx) : (s.setCtx c x).fresh = s.fresh := rfl
@[simp] theorem setCtx_draws (s : State) (c : Nat) (x : Ctx) : (s.setCtx c x).draws = s.draws := rfl

/-! ### `setVd` -/

@[simp] theorem setVd_mem (s : State) (v : Nat) (x : Vd) : (s.setVd v x).mem = s.mem := rfl
@[simp] theorem setVd_now (s : State) (v : Nat) (x : Vd) : (s.setVd v x).now = s.now := rfl
@[simp] theorem setVd_timed (s : State) (v : Nat) (x : Vd) : (s.setVd v x).timed = s.timed := rfl
@[simp] theorem setVd_lag (s : State) (v : Nat) (x : Vd) : (s.setVd v x).lag = s.lag := rfl
@[simp] theorem setVd_lastStamp (s : State) (v : Nat) (x : Vd) : (s.setVd v x).lastStamp = s.lastStamp := rfl
@[simp] theorem setVd_cyc (s : State) (v : Nat) (x : Vd) : (s.setVd v x).cyc = s.cyc := rfl
@[simp] theorem setVd_node (s : State) (v : Nat) (x : Vd) : (s.setVd v x).node = s.node := rfl
@[simp] theorem setVd_held (s : State) (v : Nat) (x : Vd) : (s.setVd v x).held = s.held := rfl
@[simp] theorem setVd_booted (s : State) (v : Nat) (x : Vd) : (s.setVd v x).booted = s.booted := rfl
@[simp] theorem setVd_cur (s : State) (v : Nat) (x : Vd) : (s.setVd v x).cur = s.cur := rfl
@[simp] theorem setVd_groups (s : State) (v : Nat) (x : Vd) : (s.setVd v x).groups = s.groups := rfl
@[simp] theorem setVd_issued (s : State) (v : Nat) (x : Vd) : (s.setVd v x).issued = s.issued := rfl
@[simp] theorem setVd_agenda (s : State) (v : Nat) (x : Vd) : (s.setVd v x).agenda = s.agenda := rfl
@[simp] theorem setVd_threads (s : State) (v : Nat) (x : Vd) : (s.setVd v x).threads = s.threads := rfl
@[simp] theorem setVd_flocks (s : State) (v : Nat) (x : Vd) : (s.setVd v x).flocks = s.flocks := rfl
@[simp] theorem setVd_wgs (s : State) (v : Nat) (x : Vd) : (s.setVd v x).wgs = s.wgs := rfl
@[simp] theorem setVd_teams (s : State) (v : Nat) (x : Vd) : (s.setVd v x).teams = s.teams := rfl
@[simp] theorem setVd_bars (s : State) (v : Nat) (x : Vd) : (s.setVd v x).bars = s.bars := rfl
@[simp] theorem setVd_cores (s : State) (v : Nat) (x : Vd) : (s.setVd v x).cores = s.cores := rfl
@[simp] theorem setVd_quads (s : State) (v : Nat) (x : Vd) : (s.setVd v x).quads = s.quads := rfl
@[simp] theorem setVd_ctxs (s : State) (v : Nat) (x : Vd) : (s.setVd v x).ctxs = s.ctxs := rfl
@[simp] theorem setVd_vds (s : State) (v : Nat) (x : Vd) : (s.setVd v x).vds = tput s.vds v x := rfl
@[simp] theorem setVd_ranges (s : State) (v : Nat) (x : Vd) : (s.setVd v x).ranges = s.ranges := rfl
@[simp] theorem setVd_queues (s : State) (v : Nat) (x : Vd) : (s.setVd v x).queues = s.queues := rfl
@[simp] theorem setVd_tenants (s : State) (v : Nat) (x : Vd) : (s.setVd v x).tenants = s.tenants := rfl
@[simp] theorem setVd_runs (s : State) (v : Nat) (x : Vd) : (s.setVd v x).runs = s.runs := rfl
@[simp] theorem setVd_served (s : State) (v : Nat) (x : Vd) : (s.setVd v x).served = s.served := rfl
@[simp] theorem setVd_launches (s : State) (v : Nat) (x : Vd) : (s.setVd v x).launches = s.launches := rfl
@[simp] theorem setVd_saved (s : State) (v : Nat) (x : Vd) : (s.setVd v x).saved = s.saved := rfl
@[simp] theorem setVd_accs (s : State) (v : Nat) (x : Vd) : (s.setVd v x).accs = s.accs := rfl
@[simp] theorem setVd_ords (s : State) (v : Nat) (x : Vd) : (s.setVd v x).ords = s.ords := rfl
@[simp] theorem setVd_ports (s : State) (v : Nat) (x : Vd) : (s.setVd v x).ports = s.ports := rfl
@[simp] theorem setVd_outs (s : State) (v : Nat) (x : Vd) : (s.setVd v x).outs = s.outs := rfl
@[simp] theorem setVd_flitq (s : State) (v : Nat) (x : Vd) : (s.setVd v x).flitq = s.flitq := rfl
@[simp] theorem setVd_replies (s : State) (v : Nat) (x : Vd) : (s.setVd v x).replies = s.replies := rfl
@[simp] theorem setVd_recvs (s : State) (v : Nat) (x : Vd) : (s.setVd v x).recvs = s.recvs := rfl
@[simp] theorem setVd_cpSeq (s : State) (v : Nat) (x : Vd) : (s.setVd v x).cpSeq = s.cpSeq := rfl
@[simp] theorem setVd_crc (s : State) (v : Nat) (x : Vd) : (s.setVd v x).crc = s.crc := rfl
@[simp] theorem setVd_shared (s : State) (v : Nat) (x : Vd) : (s.setVd v x).shared = s.shared := rfl
@[simp] theorem setVd_stamps (s : State) (v : Nat) (x : Vd) : (s.setVd v x).stamps = s.stamps := rfl
@[simp] theorem setVd_dirty (s : State) (v : Nat) (x : Vd) : (s.setVd v x).dirty = s.dirty := rfl
@[simp] theorem setVd_hints (s : State) (v : Nat) (x : Vd) : (s.setVd v x).hints = s.hints := rfl
@[simp] theorem setVd_replicas (s : State) (v : Nat) (x : Vd) : (s.setVd v x).replicas = s.replicas := rfl
@[simp] theorem setVd_poison (s : State) (v : Nat) (x : Vd) : (s.setVd v x).poison = s.poison := rfl
@[simp] theorem setVd_retired (s : State) (v : Nat) (x : Vd) : (s.setVd v x).retired = s.retired := rfl
@[simp] theorem setVd_errc (s : State) (v : Nat) (x : Vd) : (s.setVd v x).errc = s.errc := rfl
@[simp] theorem setVd_market (s : State) (v : Nat) (x : Vd) : (s.setVd v x).market = s.market := rfl
@[simp] theorem setVd_meters (s : State) (v : Nat) (x : Vd) : (s.setVd v x).meters = s.meters := rfl
@[simp] theorem setVd_sessions (s : State) (v : Nat) (x : Vd) : (s.setVd v x).sessions = s.sessions := rfl
@[simp] theorem setVd_sec (s : State) (v : Nat) (x : Vd) : (s.setVd v x).sec = s.sec := rfl
@[simp] theorem setVd_ptp (s : State) (v : Nat) (x : Vd) : (s.setVd v x).ptp = s.ptp := rfl
@[simp] theorem setVd_hotSlices (s : State) (v : Nat) (x : Vd) : (s.setVd v x).hotSlices = s.hotSlices := rfl
@[simp] theorem setVd_hotPorts (s : State) (v : Nat) (x : Vd) : (s.setVd v x).hotPorts = s.hotPorts := rfl
@[simp] theorem setVd_sent (s : State) (v : Nat) (x : Vd) : (s.setVd v x).sent = s.sent := rfl
@[simp] theorem setVd_fetches (s : State) (v : Nat) (x : Vd) : (s.setVd v x).fetches = s.fetches := rfl
@[simp] theorem setVd_spills (s : State) (v : Nat) (x : Vd) : (s.setVd v x).spills = s.spills := rfl
@[simp] theorem setVd_awaiting (s : State) (v : Nat) (x : Vd) : (s.setVd v x).awaiting = s.awaiting := rfl
@[simp] theorem setVd_halts (s : State) (v : Nat) (x : Vd) : (s.setVd v x).halts = s.halts := rfl
@[simp] theorem setVd_dying (s : State) (v : Nat) (x : Vd) : (s.setVd v x).dying = s.dying := rfl
@[simp] theorem setVd_fresh (s : State) (v : Nat) (x : Vd) : (s.setVd v x).fresh = s.fresh := rfl
@[simp] theorem setVd_draws (s : State) (v : Nat) (x : Vd) : (s.setVd v x).draws = s.draws := rfl

/-! ### `setQueue` -/

@[simp] theorem setQueue_mem (s : State) (q : Nat) (x : Queue) : (s.setQueue q x).mem = s.mem := rfl
@[simp] theorem setQueue_now (s : State) (q : Nat) (x : Queue) : (s.setQueue q x).now = s.now := rfl
@[simp] theorem setQueue_timed (s : State) (q : Nat) (x : Queue) : (s.setQueue q x).timed = s.timed := rfl
@[simp] theorem setQueue_lag (s : State) (q : Nat) (x : Queue) : (s.setQueue q x).lag = s.lag := rfl
@[simp] theorem setQueue_lastStamp (s : State) (q : Nat) (x : Queue) : (s.setQueue q x).lastStamp = s.lastStamp := rfl
@[simp] theorem setQueue_cyc (s : State) (q : Nat) (x : Queue) : (s.setQueue q x).cyc = s.cyc := rfl
@[simp] theorem setQueue_node (s : State) (q : Nat) (x : Queue) : (s.setQueue q x).node = s.node := rfl
@[simp] theorem setQueue_held (s : State) (q : Nat) (x : Queue) : (s.setQueue q x).held = s.held := rfl
@[simp] theorem setQueue_booted (s : State) (q : Nat) (x : Queue) : (s.setQueue q x).booted = s.booted := rfl
@[simp] theorem setQueue_cur (s : State) (q : Nat) (x : Queue) : (s.setQueue q x).cur = s.cur := rfl
@[simp] theorem setQueue_groups (s : State) (q : Nat) (x : Queue) : (s.setQueue q x).groups = s.groups := rfl
@[simp] theorem setQueue_issued (s : State) (q : Nat) (x : Queue) : (s.setQueue q x).issued = s.issued := rfl
@[simp] theorem setQueue_agenda (s : State) (q : Nat) (x : Queue) : (s.setQueue q x).agenda = s.agenda := rfl
@[simp] theorem setQueue_threads (s : State) (q : Nat) (x : Queue) : (s.setQueue q x).threads = s.threads := rfl
@[simp] theorem setQueue_flocks (s : State) (q : Nat) (x : Queue) : (s.setQueue q x).flocks = s.flocks := rfl
@[simp] theorem setQueue_wgs (s : State) (q : Nat) (x : Queue) : (s.setQueue q x).wgs = s.wgs := rfl
@[simp] theorem setQueue_teams (s : State) (q : Nat) (x : Queue) : (s.setQueue q x).teams = s.teams := rfl
@[simp] theorem setQueue_bars (s : State) (q : Nat) (x : Queue) : (s.setQueue q x).bars = s.bars := rfl
@[simp] theorem setQueue_cores (s : State) (q : Nat) (x : Queue) : (s.setQueue q x).cores = s.cores := rfl
@[simp] theorem setQueue_quads (s : State) (q : Nat) (x : Queue) : (s.setQueue q x).quads = s.quads := rfl
@[simp] theorem setQueue_ctxs (s : State) (q : Nat) (x : Queue) : (s.setQueue q x).ctxs = s.ctxs := rfl
@[simp] theorem setQueue_vds (s : State) (q : Nat) (x : Queue) : (s.setQueue q x).vds = s.vds := rfl
@[simp] theorem setQueue_ranges (s : State) (q : Nat) (x : Queue) : (s.setQueue q x).ranges = s.ranges := rfl
@[simp] theorem setQueue_queues (s : State) (q : Nat) (x : Queue) : (s.setQueue q x).queues = tput s.queues q x := rfl
@[simp] theorem setQueue_tenants (s : State) (q : Nat) (x : Queue) : (s.setQueue q x).tenants = s.tenants := rfl
@[simp] theorem setQueue_runs (s : State) (q : Nat) (x : Queue) : (s.setQueue q x).runs = s.runs := rfl
@[simp] theorem setQueue_served (s : State) (q : Nat) (x : Queue) : (s.setQueue q x).served = s.served := rfl
@[simp] theorem setQueue_launches (s : State) (q : Nat) (x : Queue) : (s.setQueue q x).launches = s.launches := rfl
@[simp] theorem setQueue_saved (s : State) (q : Nat) (x : Queue) : (s.setQueue q x).saved = s.saved := rfl
@[simp] theorem setQueue_accs (s : State) (q : Nat) (x : Queue) : (s.setQueue q x).accs = s.accs := rfl
@[simp] theorem setQueue_ords (s : State) (q : Nat) (x : Queue) : (s.setQueue q x).ords = s.ords := rfl
@[simp] theorem setQueue_ports (s : State) (q : Nat) (x : Queue) : (s.setQueue q x).ports = s.ports := rfl
@[simp] theorem setQueue_outs (s : State) (q : Nat) (x : Queue) : (s.setQueue q x).outs = s.outs := rfl
@[simp] theorem setQueue_flitq (s : State) (q : Nat) (x : Queue) : (s.setQueue q x).flitq = s.flitq := rfl
@[simp] theorem setQueue_replies (s : State) (q : Nat) (x : Queue) : (s.setQueue q x).replies = s.replies := rfl
@[simp] theorem setQueue_recvs (s : State) (q : Nat) (x : Queue) : (s.setQueue q x).recvs = s.recvs := rfl
@[simp] theorem setQueue_cpSeq (s : State) (q : Nat) (x : Queue) : (s.setQueue q x).cpSeq = s.cpSeq := rfl
@[simp] theorem setQueue_crc (s : State) (q : Nat) (x : Queue) : (s.setQueue q x).crc = s.crc := rfl
@[simp] theorem setQueue_shared (s : State) (q : Nat) (x : Queue) : (s.setQueue q x).shared = s.shared := rfl
@[simp] theorem setQueue_stamps (s : State) (q : Nat) (x : Queue) : (s.setQueue q x).stamps = s.stamps := rfl
@[simp] theorem setQueue_dirty (s : State) (q : Nat) (x : Queue) : (s.setQueue q x).dirty = s.dirty := rfl
@[simp] theorem setQueue_hints (s : State) (q : Nat) (x : Queue) : (s.setQueue q x).hints = s.hints := rfl
@[simp] theorem setQueue_replicas (s : State) (q : Nat) (x : Queue) : (s.setQueue q x).replicas = s.replicas := rfl
@[simp] theorem setQueue_poison (s : State) (q : Nat) (x : Queue) : (s.setQueue q x).poison = s.poison := rfl
@[simp] theorem setQueue_retired (s : State) (q : Nat) (x : Queue) : (s.setQueue q x).retired = s.retired := rfl
@[simp] theorem setQueue_errc (s : State) (q : Nat) (x : Queue) : (s.setQueue q x).errc = s.errc := rfl
@[simp] theorem setQueue_market (s : State) (q : Nat) (x : Queue) : (s.setQueue q x).market = s.market := rfl
@[simp] theorem setQueue_meters (s : State) (q : Nat) (x : Queue) : (s.setQueue q x).meters = s.meters := rfl
@[simp] theorem setQueue_sessions (s : State) (q : Nat) (x : Queue) : (s.setQueue q x).sessions = s.sessions := rfl
@[simp] theorem setQueue_sec (s : State) (q : Nat) (x : Queue) : (s.setQueue q x).sec = s.sec := rfl
@[simp] theorem setQueue_ptp (s : State) (q : Nat) (x : Queue) : (s.setQueue q x).ptp = s.ptp := rfl
@[simp] theorem setQueue_hotSlices (s : State) (q : Nat) (x : Queue) : (s.setQueue q x).hotSlices = s.hotSlices := rfl
@[simp] theorem setQueue_hotPorts (s : State) (q : Nat) (x : Queue) : (s.setQueue q x).hotPorts = s.hotPorts := rfl
@[simp] theorem setQueue_sent (s : State) (q : Nat) (x : Queue) : (s.setQueue q x).sent = s.sent := rfl
@[simp] theorem setQueue_fetches (s : State) (q : Nat) (x : Queue) : (s.setQueue q x).fetches = s.fetches := rfl
@[simp] theorem setQueue_spills (s : State) (q : Nat) (x : Queue) : (s.setQueue q x).spills = s.spills := rfl
@[simp] theorem setQueue_awaiting (s : State) (q : Nat) (x : Queue) : (s.setQueue q x).awaiting = s.awaiting := rfl
@[simp] theorem setQueue_halts (s : State) (q : Nat) (x : Queue) : (s.setQueue q x).halts = s.halts := rfl
@[simp] theorem setQueue_dying (s : State) (q : Nat) (x : Queue) : (s.setQueue q x).dying = s.dying := rfl
@[simp] theorem setQueue_fresh (s : State) (q : Nat) (x : Queue) : (s.setQueue q x).fresh = s.fresh := rfl
@[simp] theorem setQueue_draws (s : State) (q : Nat) (x : Queue) : (s.setQueue q x).draws = s.draws := rfl

/-! ### `setPort` -/

@[simp] theorem setPort_mem (s : State) (p : Nat) (x : PortIn) : (s.setPort p x).mem = s.mem := rfl
@[simp] theorem setPort_now (s : State) (p : Nat) (x : PortIn) : (s.setPort p x).now = s.now := rfl
@[simp] theorem setPort_timed (s : State) (p : Nat) (x : PortIn) : (s.setPort p x).timed = s.timed := rfl
@[simp] theorem setPort_lag (s : State) (p : Nat) (x : PortIn) : (s.setPort p x).lag = s.lag := rfl
@[simp] theorem setPort_lastStamp (s : State) (p : Nat) (x : PortIn) : (s.setPort p x).lastStamp = s.lastStamp := rfl
@[simp] theorem setPort_cyc (s : State) (p : Nat) (x : PortIn) : (s.setPort p x).cyc = s.cyc := rfl
@[simp] theorem setPort_node (s : State) (p : Nat) (x : PortIn) : (s.setPort p x).node = s.node := rfl
@[simp] theorem setPort_held (s : State) (p : Nat) (x : PortIn) : (s.setPort p x).held = s.held := rfl
@[simp] theorem setPort_booted (s : State) (p : Nat) (x : PortIn) : (s.setPort p x).booted = s.booted := rfl
@[simp] theorem setPort_cur (s : State) (p : Nat) (x : PortIn) : (s.setPort p x).cur = s.cur := rfl
@[simp] theorem setPort_groups (s : State) (p : Nat) (x : PortIn) : (s.setPort p x).groups = s.groups := rfl
@[simp] theorem setPort_issued (s : State) (p : Nat) (x : PortIn) : (s.setPort p x).issued = s.issued := rfl
@[simp] theorem setPort_agenda (s : State) (p : Nat) (x : PortIn) : (s.setPort p x).agenda = s.agenda := rfl
@[simp] theorem setPort_threads (s : State) (p : Nat) (x : PortIn) : (s.setPort p x).threads = s.threads := rfl
@[simp] theorem setPort_flocks (s : State) (p : Nat) (x : PortIn) : (s.setPort p x).flocks = s.flocks := rfl
@[simp] theorem setPort_wgs (s : State) (p : Nat) (x : PortIn) : (s.setPort p x).wgs = s.wgs := rfl
@[simp] theorem setPort_teams (s : State) (p : Nat) (x : PortIn) : (s.setPort p x).teams = s.teams := rfl
@[simp] theorem setPort_bars (s : State) (p : Nat) (x : PortIn) : (s.setPort p x).bars = s.bars := rfl
@[simp] theorem setPort_cores (s : State) (p : Nat) (x : PortIn) : (s.setPort p x).cores = s.cores := rfl
@[simp] theorem setPort_quads (s : State) (p : Nat) (x : PortIn) : (s.setPort p x).quads = s.quads := rfl
@[simp] theorem setPort_ctxs (s : State) (p : Nat) (x : PortIn) : (s.setPort p x).ctxs = s.ctxs := rfl
@[simp] theorem setPort_vds (s : State) (p : Nat) (x : PortIn) : (s.setPort p x).vds = s.vds := rfl
@[simp] theorem setPort_ranges (s : State) (p : Nat) (x : PortIn) : (s.setPort p x).ranges = s.ranges := rfl
@[simp] theorem setPort_queues (s : State) (p : Nat) (x : PortIn) : (s.setPort p x).queues = s.queues := rfl
@[simp] theorem setPort_tenants (s : State) (p : Nat) (x : PortIn) : (s.setPort p x).tenants = s.tenants := rfl
@[simp] theorem setPort_runs (s : State) (p : Nat) (x : PortIn) : (s.setPort p x).runs = s.runs := rfl
@[simp] theorem setPort_served (s : State) (p : Nat) (x : PortIn) : (s.setPort p x).served = s.served := rfl
@[simp] theorem setPort_launches (s : State) (p : Nat) (x : PortIn) : (s.setPort p x).launches = s.launches := rfl
@[simp] theorem setPort_saved (s : State) (p : Nat) (x : PortIn) : (s.setPort p x).saved = s.saved := rfl
@[simp] theorem setPort_accs (s : State) (p : Nat) (x : PortIn) : (s.setPort p x).accs = s.accs := rfl
@[simp] theorem setPort_ords (s : State) (p : Nat) (x : PortIn) : (s.setPort p x).ords = s.ords := rfl
@[simp] theorem setPort_ports (s : State) (p : Nat) (x : PortIn) : (s.setPort p x).ports = tput s.ports p x := rfl
@[simp] theorem setPort_outs (s : State) (p : Nat) (x : PortIn) : (s.setPort p x).outs = s.outs := rfl
@[simp] theorem setPort_flitq (s : State) (p : Nat) (x : PortIn) : (s.setPort p x).flitq = s.flitq := rfl
@[simp] theorem setPort_replies (s : State) (p : Nat) (x : PortIn) : (s.setPort p x).replies = s.replies := rfl
@[simp] theorem setPort_recvs (s : State) (p : Nat) (x : PortIn) : (s.setPort p x).recvs = s.recvs := rfl
@[simp] theorem setPort_cpSeq (s : State) (p : Nat) (x : PortIn) : (s.setPort p x).cpSeq = s.cpSeq := rfl
@[simp] theorem setPort_crc (s : State) (p : Nat) (x : PortIn) : (s.setPort p x).crc = s.crc := rfl
@[simp] theorem setPort_shared (s : State) (p : Nat) (x : PortIn) : (s.setPort p x).shared = s.shared := rfl
@[simp] theorem setPort_stamps (s : State) (p : Nat) (x : PortIn) : (s.setPort p x).stamps = s.stamps := rfl
@[simp] theorem setPort_dirty (s : State) (p : Nat) (x : PortIn) : (s.setPort p x).dirty = s.dirty := rfl
@[simp] theorem setPort_hints (s : State) (p : Nat) (x : PortIn) : (s.setPort p x).hints = s.hints := rfl
@[simp] theorem setPort_replicas (s : State) (p : Nat) (x : PortIn) : (s.setPort p x).replicas = s.replicas := rfl
@[simp] theorem setPort_poison (s : State) (p : Nat) (x : PortIn) : (s.setPort p x).poison = s.poison := rfl
@[simp] theorem setPort_retired (s : State) (p : Nat) (x : PortIn) : (s.setPort p x).retired = s.retired := rfl
@[simp] theorem setPort_errc (s : State) (p : Nat) (x : PortIn) : (s.setPort p x).errc = s.errc := rfl
@[simp] theorem setPort_market (s : State) (p : Nat) (x : PortIn) : (s.setPort p x).market = s.market := rfl
@[simp] theorem setPort_meters (s : State) (p : Nat) (x : PortIn) : (s.setPort p x).meters = s.meters := rfl
@[simp] theorem setPort_sessions (s : State) (p : Nat) (x : PortIn) : (s.setPort p x).sessions = s.sessions := rfl
@[simp] theorem setPort_sec (s : State) (p : Nat) (x : PortIn) : (s.setPort p x).sec = s.sec := rfl
@[simp] theorem setPort_ptp (s : State) (p : Nat) (x : PortIn) : (s.setPort p x).ptp = s.ptp := rfl
@[simp] theorem setPort_hotSlices (s : State) (p : Nat) (x : PortIn) : (s.setPort p x).hotSlices = s.hotSlices := rfl
@[simp] theorem setPort_hotPorts (s : State) (p : Nat) (x : PortIn) : (s.setPort p x).hotPorts = s.hotPorts := rfl
@[simp] theorem setPort_sent (s : State) (p : Nat) (x : PortIn) : (s.setPort p x).sent = s.sent := rfl
@[simp] theorem setPort_fetches (s : State) (p : Nat) (x : PortIn) : (s.setPort p x).fetches = s.fetches := rfl
@[simp] theorem setPort_spills (s : State) (p : Nat) (x : PortIn) : (s.setPort p x).spills = s.spills := rfl
@[simp] theorem setPort_awaiting (s : State) (p : Nat) (x : PortIn) : (s.setPort p x).awaiting = s.awaiting := rfl
@[simp] theorem setPort_halts (s : State) (p : Nat) (x : PortIn) : (s.setPort p x).halts = s.halts := rfl
@[simp] theorem setPort_dying (s : State) (p : Nat) (x : PortIn) : (s.setPort p x).dying = s.dying := rfl
@[simp] theorem setPort_fresh (s : State) (p : Nat) (x : PortIn) : (s.setPort p x).fresh = s.fresh := rfl
@[simp] theorem setPort_draws (s : State) (p : Nat) (x : PortIn) : (s.setPort p x).draws = s.draws := rfl

/-! ### `setRecv` -/

@[simp] theorem setRecv_mem (s : State) (r : Nat) (x : Recv) : (s.setRecv r x).mem = s.mem := rfl
@[simp] theorem setRecv_now (s : State) (r : Nat) (x : Recv) : (s.setRecv r x).now = s.now := rfl
@[simp] theorem setRecv_timed (s : State) (r : Nat) (x : Recv) : (s.setRecv r x).timed = s.timed := rfl
@[simp] theorem setRecv_lag (s : State) (r : Nat) (x : Recv) : (s.setRecv r x).lag = s.lag := rfl
@[simp] theorem setRecv_lastStamp (s : State) (r : Nat) (x : Recv) : (s.setRecv r x).lastStamp = s.lastStamp := rfl
@[simp] theorem setRecv_cyc (s : State) (r : Nat) (x : Recv) : (s.setRecv r x).cyc = s.cyc := rfl
@[simp] theorem setRecv_node (s : State) (r : Nat) (x : Recv) : (s.setRecv r x).node = s.node := rfl
@[simp] theorem setRecv_held (s : State) (r : Nat) (x : Recv) : (s.setRecv r x).held = s.held := rfl
@[simp] theorem setRecv_booted (s : State) (r : Nat) (x : Recv) : (s.setRecv r x).booted = s.booted := rfl
@[simp] theorem setRecv_cur (s : State) (r : Nat) (x : Recv) : (s.setRecv r x).cur = s.cur := rfl
@[simp] theorem setRecv_groups (s : State) (r : Nat) (x : Recv) : (s.setRecv r x).groups = s.groups := rfl
@[simp] theorem setRecv_issued (s : State) (r : Nat) (x : Recv) : (s.setRecv r x).issued = s.issued := rfl
@[simp] theorem setRecv_agenda (s : State) (r : Nat) (x : Recv) : (s.setRecv r x).agenda = s.agenda := rfl
@[simp] theorem setRecv_threads (s : State) (r : Nat) (x : Recv) : (s.setRecv r x).threads = s.threads := rfl
@[simp] theorem setRecv_flocks (s : State) (r : Nat) (x : Recv) : (s.setRecv r x).flocks = s.flocks := rfl
@[simp] theorem setRecv_wgs (s : State) (r : Nat) (x : Recv) : (s.setRecv r x).wgs = s.wgs := rfl
@[simp] theorem setRecv_teams (s : State) (r : Nat) (x : Recv) : (s.setRecv r x).teams = s.teams := rfl
@[simp] theorem setRecv_bars (s : State) (r : Nat) (x : Recv) : (s.setRecv r x).bars = s.bars := rfl
@[simp] theorem setRecv_cores (s : State) (r : Nat) (x : Recv) : (s.setRecv r x).cores = s.cores := rfl
@[simp] theorem setRecv_quads (s : State) (r : Nat) (x : Recv) : (s.setRecv r x).quads = s.quads := rfl
@[simp] theorem setRecv_ctxs (s : State) (r : Nat) (x : Recv) : (s.setRecv r x).ctxs = s.ctxs := rfl
@[simp] theorem setRecv_vds (s : State) (r : Nat) (x : Recv) : (s.setRecv r x).vds = s.vds := rfl
@[simp] theorem setRecv_ranges (s : State) (r : Nat) (x : Recv) : (s.setRecv r x).ranges = s.ranges := rfl
@[simp] theorem setRecv_queues (s : State) (r : Nat) (x : Recv) : (s.setRecv r x).queues = s.queues := rfl
@[simp] theorem setRecv_tenants (s : State) (r : Nat) (x : Recv) : (s.setRecv r x).tenants = s.tenants := rfl
@[simp] theorem setRecv_runs (s : State) (r : Nat) (x : Recv) : (s.setRecv r x).runs = s.runs := rfl
@[simp] theorem setRecv_served (s : State) (r : Nat) (x : Recv) : (s.setRecv r x).served = s.served := rfl
@[simp] theorem setRecv_launches (s : State) (r : Nat) (x : Recv) : (s.setRecv r x).launches = s.launches := rfl
@[simp] theorem setRecv_saved (s : State) (r : Nat) (x : Recv) : (s.setRecv r x).saved = s.saved := rfl
@[simp] theorem setRecv_accs (s : State) (r : Nat) (x : Recv) : (s.setRecv r x).accs = s.accs := rfl
@[simp] theorem setRecv_ords (s : State) (r : Nat) (x : Recv) : (s.setRecv r x).ords = s.ords := rfl
@[simp] theorem setRecv_ports (s : State) (r : Nat) (x : Recv) : (s.setRecv r x).ports = s.ports := rfl
@[simp] theorem setRecv_outs (s : State) (r : Nat) (x : Recv) : (s.setRecv r x).outs = s.outs := rfl
@[simp] theorem setRecv_flitq (s : State) (r : Nat) (x : Recv) : (s.setRecv r x).flitq = s.flitq := rfl
@[simp] theorem setRecv_replies (s : State) (r : Nat) (x : Recv) : (s.setRecv r x).replies = s.replies := rfl
@[simp] theorem setRecv_recvs (s : State) (r : Nat) (x : Recv) : (s.setRecv r x).recvs = tput s.recvs r x := rfl
@[simp] theorem setRecv_cpSeq (s : State) (r : Nat) (x : Recv) : (s.setRecv r x).cpSeq = s.cpSeq := rfl
@[simp] theorem setRecv_crc (s : State) (r : Nat) (x : Recv) : (s.setRecv r x).crc = s.crc := rfl
@[simp] theorem setRecv_shared (s : State) (r : Nat) (x : Recv) : (s.setRecv r x).shared = s.shared := rfl
@[simp] theorem setRecv_stamps (s : State) (r : Nat) (x : Recv) : (s.setRecv r x).stamps = s.stamps := rfl
@[simp] theorem setRecv_dirty (s : State) (r : Nat) (x : Recv) : (s.setRecv r x).dirty = s.dirty := rfl
@[simp] theorem setRecv_hints (s : State) (r : Nat) (x : Recv) : (s.setRecv r x).hints = s.hints := rfl
@[simp] theorem setRecv_replicas (s : State) (r : Nat) (x : Recv) : (s.setRecv r x).replicas = s.replicas := rfl
@[simp] theorem setRecv_poison (s : State) (r : Nat) (x : Recv) : (s.setRecv r x).poison = s.poison := rfl
@[simp] theorem setRecv_retired (s : State) (r : Nat) (x : Recv) : (s.setRecv r x).retired = s.retired := rfl
@[simp] theorem setRecv_errc (s : State) (r : Nat) (x : Recv) : (s.setRecv r x).errc = s.errc := rfl
@[simp] theorem setRecv_market (s : State) (r : Nat) (x : Recv) : (s.setRecv r x).market = s.market := rfl
@[simp] theorem setRecv_meters (s : State) (r : Nat) (x : Recv) : (s.setRecv r x).meters = s.meters := rfl
@[simp] theorem setRecv_sessions (s : State) (r : Nat) (x : Recv) : (s.setRecv r x).sessions = s.sessions := rfl
@[simp] theorem setRecv_sec (s : State) (r : Nat) (x : Recv) : (s.setRecv r x).sec = s.sec := rfl
@[simp] theorem setRecv_ptp (s : State) (r : Nat) (x : Recv) : (s.setRecv r x).ptp = s.ptp := rfl
@[simp] theorem setRecv_hotSlices (s : State) (r : Nat) (x : Recv) : (s.setRecv r x).hotSlices = s.hotSlices := rfl
@[simp] theorem setRecv_hotPorts (s : State) (r : Nat) (x : Recv) : (s.setRecv r x).hotPorts = s.hotPorts := rfl
@[simp] theorem setRecv_sent (s : State) (r : Nat) (x : Recv) : (s.setRecv r x).sent = s.sent := rfl
@[simp] theorem setRecv_fetches (s : State) (r : Nat) (x : Recv) : (s.setRecv r x).fetches = s.fetches := rfl
@[simp] theorem setRecv_spills (s : State) (r : Nat) (x : Recv) : (s.setRecv r x).spills = s.spills := rfl
@[simp] theorem setRecv_awaiting (s : State) (r : Nat) (x : Recv) : (s.setRecv r x).awaiting = s.awaiting := rfl
@[simp] theorem setRecv_halts (s : State) (r : Nat) (x : Recv) : (s.setRecv r x).halts = s.halts := rfl
@[simp] theorem setRecv_dying (s : State) (r : Nat) (x : Recv) : (s.setRecv r x).dying = s.dying := rfl
@[simp] theorem setRecv_fresh (s : State) (r : Nat) (x : Recv) : (s.setRecv r x).fresh = s.fresh := rfl
@[simp] theorem setRecv_draws (s : State) (r : Nat) (x : Recv) : (s.setRecv r x).draws = s.draws := rfl

/-! ### `modTenant` -/

@[simp] theorem modTenant_mem (s : State) (t : Nat) (f : Tenant → Tenant) : (s.modTenant t f).mem = s.mem := rfl
@[simp] theorem modTenant_now (s : State) (t : Nat) (f : Tenant → Tenant) : (s.modTenant t f).now = s.now := rfl
@[simp] theorem modTenant_timed (s : State) (t : Nat) (f : Tenant → Tenant) : (s.modTenant t f).timed = s.timed := rfl
@[simp] theorem modTenant_lag (s : State) (t : Nat) (f : Tenant → Tenant) : (s.modTenant t f).lag = s.lag := rfl
@[simp] theorem modTenant_lastStamp (s : State) (t : Nat) (f : Tenant → Tenant) : (s.modTenant t f).lastStamp = s.lastStamp := rfl
@[simp] theorem modTenant_cyc (s : State) (t : Nat) (f : Tenant → Tenant) : (s.modTenant t f).cyc = s.cyc := rfl
@[simp] theorem modTenant_node (s : State) (t : Nat) (f : Tenant → Tenant) : (s.modTenant t f).node = s.node := rfl
@[simp] theorem modTenant_held (s : State) (t : Nat) (f : Tenant → Tenant) : (s.modTenant t f).held = s.held := rfl
@[simp] theorem modTenant_booted (s : State) (t : Nat) (f : Tenant → Tenant) : (s.modTenant t f).booted = s.booted := rfl
@[simp] theorem modTenant_cur (s : State) (t : Nat) (f : Tenant → Tenant) : (s.modTenant t f).cur = s.cur := rfl
@[simp] theorem modTenant_groups (s : State) (t : Nat) (f : Tenant → Tenant) : (s.modTenant t f).groups = s.groups := rfl
@[simp] theorem modTenant_issued (s : State) (t : Nat) (f : Tenant → Tenant) : (s.modTenant t f).issued = s.issued := rfl
@[simp] theorem modTenant_agenda (s : State) (t : Nat) (f : Tenant → Tenant) : (s.modTenant t f).agenda = s.agenda := rfl
@[simp] theorem modTenant_threads (s : State) (t : Nat) (f : Tenant → Tenant) : (s.modTenant t f).threads = s.threads := rfl
@[simp] theorem modTenant_flocks (s : State) (t : Nat) (f : Tenant → Tenant) : (s.modTenant t f).flocks = s.flocks := rfl
@[simp] theorem modTenant_wgs (s : State) (t : Nat) (f : Tenant → Tenant) : (s.modTenant t f).wgs = s.wgs := rfl
@[simp] theorem modTenant_teams (s : State) (t : Nat) (f : Tenant → Tenant) : (s.modTenant t f).teams = s.teams := rfl
@[simp] theorem modTenant_bars (s : State) (t : Nat) (f : Tenant → Tenant) : (s.modTenant t f).bars = s.bars := rfl
@[simp] theorem modTenant_cores (s : State) (t : Nat) (f : Tenant → Tenant) : (s.modTenant t f).cores = s.cores := rfl
@[simp] theorem modTenant_quads (s : State) (t : Nat) (f : Tenant → Tenant) : (s.modTenant t f).quads = s.quads := rfl
@[simp] theorem modTenant_ctxs (s : State) (t : Nat) (f : Tenant → Tenant) : (s.modTenant t f).ctxs = s.ctxs := rfl
@[simp] theorem modTenant_vds (s : State) (t : Nat) (f : Tenant → Tenant) : (s.modTenant t f).vds = s.vds := rfl
@[simp] theorem modTenant_ranges (s : State) (t : Nat) (f : Tenant → Tenant) : (s.modTenant t f).ranges = s.ranges := rfl
@[simp] theorem modTenant_queues (s : State) (t : Nat) (f : Tenant → Tenant) : (s.modTenant t f).queues = s.queues := rfl
@[simp] theorem modTenant_tenants (s : State) (t : Nat) (f : Tenant → Tenant) : (s.modTenant t f).tenants = tput s.tenants t (f (s.tenant t)) := rfl
@[simp] theorem modTenant_runs (s : State) (t : Nat) (f : Tenant → Tenant) : (s.modTenant t f).runs = s.runs := rfl
@[simp] theorem modTenant_served (s : State) (t : Nat) (f : Tenant → Tenant) : (s.modTenant t f).served = s.served := rfl
@[simp] theorem modTenant_launches (s : State) (t : Nat) (f : Tenant → Tenant) : (s.modTenant t f).launches = s.launches := rfl
@[simp] theorem modTenant_saved (s : State) (t : Nat) (f : Tenant → Tenant) : (s.modTenant t f).saved = s.saved := rfl
@[simp] theorem modTenant_accs (s : State) (t : Nat) (f : Tenant → Tenant) : (s.modTenant t f).accs = s.accs := rfl
@[simp] theorem modTenant_ords (s : State) (t : Nat) (f : Tenant → Tenant) : (s.modTenant t f).ords = s.ords := rfl
@[simp] theorem modTenant_ports (s : State) (t : Nat) (f : Tenant → Tenant) : (s.modTenant t f).ports = s.ports := rfl
@[simp] theorem modTenant_outs (s : State) (t : Nat) (f : Tenant → Tenant) : (s.modTenant t f).outs = s.outs := rfl
@[simp] theorem modTenant_flitq (s : State) (t : Nat) (f : Tenant → Tenant) : (s.modTenant t f).flitq = s.flitq := rfl
@[simp] theorem modTenant_replies (s : State) (t : Nat) (f : Tenant → Tenant) : (s.modTenant t f).replies = s.replies := rfl
@[simp] theorem modTenant_recvs (s : State) (t : Nat) (f : Tenant → Tenant) : (s.modTenant t f).recvs = s.recvs := rfl
@[simp] theorem modTenant_cpSeq (s : State) (t : Nat) (f : Tenant → Tenant) : (s.modTenant t f).cpSeq = s.cpSeq := rfl
@[simp] theorem modTenant_crc (s : State) (t : Nat) (f : Tenant → Tenant) : (s.modTenant t f).crc = s.crc := rfl
@[simp] theorem modTenant_shared (s : State) (t : Nat) (f : Tenant → Tenant) : (s.modTenant t f).shared = s.shared := rfl
@[simp] theorem modTenant_stamps (s : State) (t : Nat) (f : Tenant → Tenant) : (s.modTenant t f).stamps = s.stamps := rfl
@[simp] theorem modTenant_dirty (s : State) (t : Nat) (f : Tenant → Tenant) : (s.modTenant t f).dirty = s.dirty := rfl
@[simp] theorem modTenant_hints (s : State) (t : Nat) (f : Tenant → Tenant) : (s.modTenant t f).hints = s.hints := rfl
@[simp] theorem modTenant_replicas (s : State) (t : Nat) (f : Tenant → Tenant) : (s.modTenant t f).replicas = s.replicas := rfl
@[simp] theorem modTenant_poison (s : State) (t : Nat) (f : Tenant → Tenant) : (s.modTenant t f).poison = s.poison := rfl
@[simp] theorem modTenant_retired (s : State) (t : Nat) (f : Tenant → Tenant) : (s.modTenant t f).retired = s.retired := rfl
@[simp] theorem modTenant_errc (s : State) (t : Nat) (f : Tenant → Tenant) : (s.modTenant t f).errc = s.errc := rfl
@[simp] theorem modTenant_market (s : State) (t : Nat) (f : Tenant → Tenant) : (s.modTenant t f).market = s.market := rfl
@[simp] theorem modTenant_meters (s : State) (t : Nat) (f : Tenant → Tenant) : (s.modTenant t f).meters = s.meters := rfl
@[simp] theorem modTenant_sessions (s : State) (t : Nat) (f : Tenant → Tenant) : (s.modTenant t f).sessions = s.sessions := rfl
@[simp] theorem modTenant_sec (s : State) (t : Nat) (f : Tenant → Tenant) : (s.modTenant t f).sec = s.sec := rfl
@[simp] theorem modTenant_ptp (s : State) (t : Nat) (f : Tenant → Tenant) : (s.modTenant t f).ptp = s.ptp := rfl
@[simp] theorem modTenant_hotSlices (s : State) (t : Nat) (f : Tenant → Tenant) : (s.modTenant t f).hotSlices = s.hotSlices := rfl
@[simp] theorem modTenant_hotPorts (s : State) (t : Nat) (f : Tenant → Tenant) : (s.modTenant t f).hotPorts = s.hotPorts := rfl
@[simp] theorem modTenant_sent (s : State) (t : Nat) (f : Tenant → Tenant) : (s.modTenant t f).sent = s.sent := rfl
@[simp] theorem modTenant_fetches (s : State) (t : Nat) (f : Tenant → Tenant) : (s.modTenant t f).fetches = s.fetches := rfl
@[simp] theorem modTenant_spills (s : State) (t : Nat) (f : Tenant → Tenant) : (s.modTenant t f).spills = s.spills := rfl
@[simp] theorem modTenant_awaiting (s : State) (t : Nat) (f : Tenant → Tenant) : (s.modTenant t f).awaiting = s.awaiting := rfl
@[simp] theorem modTenant_halts (s : State) (t : Nat) (f : Tenant → Tenant) : (s.modTenant t f).halts = s.halts := rfl
@[simp] theorem modTenant_dying (s : State) (t : Nat) (f : Tenant → Tenant) : (s.modTenant t f).dying = s.dying := rfl
@[simp] theorem modTenant_fresh (s : State) (t : Nat) (f : Tenant → Tenant) : (s.modTenant t f).fresh = s.fresh := rfl
@[simp] theorem modTenant_draws (s : State) (t : Nat) (f : Tenant → Tenant) : (s.modTenant t f).draws = s.draws := rfl

/-! ### Accessors after an update -/

@[simp] theorem thread_setThread (s : State) (i j : Nat) (x : Thread) :
    (s.setThread i x).thread j = if j = i then x else s.thread j := by
  simp only [thread, setThread, tget_tput]
  split <;> rfl

@[simp] theorem flock_setThread (s : State) (i j : Nat) (x : Thread) : (s.setThread i x).flock j = s.flock j := rfl
@[simp] theorem wg_setThread (s : State) (i j : Nat) (x : Thread) : (s.setThread i x).wg j = s.wg j := rfl
@[simp] theorem core_setThread (s : State) (i j : Nat) (x : Thread) : (s.setThread i x).core j = s.core j := rfl
@[simp] theorem quad_setThread (s : State) (i j : Nat) (x : Thread) : (s.setThread i x).quad j = s.quad j := rfl
@[simp] theorem ctx_setThread (s : State) (i j : Nat) (x : Thread) : (s.setThread i x).ctx j = s.ctx j := rfl
@[simp] theorem vd_setThread (s : State) (i j : Nat) (x : Thread) : (s.setThread i x).vd j = s.vd j := rfl
@[simp] theorem queue_setThread (s : State) (i j : Nat) (x : Thread) : (s.setThread i x).queue j = s.queue j := rfl
@[simp] theorem port_setThread (s : State) (i j : Nat) (x : Thread) : (s.setThread i x).port j = s.port j := rfl
@[simp] theorem recv_setThread (s : State) (i j : Nat) (x : Thread) : (s.setThread i x).recv j = s.recv j := rfl

@[simp] theorem flock_setFlock (s : State) (i j : Nat) (x : Flock) :
    (s.setFlock i x).flock j = if j = i then x else s.flock j := by
  simp only [flock, setFlock, tget_tput]
  split <;> rfl

@[simp] theorem thread_setFlock (s : State) (i j : Nat) (x : Flock) : (s.setFlock i x).thread j = s.thread j := rfl
@[simp] theorem wg_setFlock (s : State) (i j : Nat) (x : Flock) : (s.setFlock i x).wg j = s.wg j := rfl
@[simp] theorem core_setFlock (s : State) (i j : Nat) (x : Flock) : (s.setFlock i x).core j = s.core j := rfl
@[simp] theorem quad_setFlock (s : State) (i j : Nat) (x : Flock) : (s.setFlock i x).quad j = s.quad j := rfl
@[simp] theorem ctx_setFlock (s : State) (i j : Nat) (x : Flock) : (s.setFlock i x).ctx j = s.ctx j := rfl
@[simp] theorem vd_setFlock (s : State) (i j : Nat) (x : Flock) : (s.setFlock i x).vd j = s.vd j := rfl
@[simp] theorem queue_setFlock (s : State) (i j : Nat) (x : Flock) : (s.setFlock i x).queue j = s.queue j := rfl
@[simp] theorem port_setFlock (s : State) (i j : Nat) (x : Flock) : (s.setFlock i x).port j = s.port j := rfl
@[simp] theorem recv_setFlock (s : State) (i j : Nat) (x : Flock) : (s.setFlock i x).recv j = s.recv j := rfl

@[simp] theorem wg_setWg (s : State) (i j : Nat) (x : Wg) :
    (s.setWg i x).wg j = if j = i then x else s.wg j := by
  simp only [wg, setWg, tget_tput]
  split <;> rfl

@[simp] theorem thread_setWg (s : State) (i j : Nat) (x : Wg) : (s.setWg i x).thread j = s.thread j := rfl
@[simp] theorem flock_setWg (s : State) (i j : Nat) (x : Wg) : (s.setWg i x).flock j = s.flock j := rfl
@[simp] theorem core_setWg (s : State) (i j : Nat) (x : Wg) : (s.setWg i x).core j = s.core j := rfl
@[simp] theorem quad_setWg (s : State) (i j : Nat) (x : Wg) : (s.setWg i x).quad j = s.quad j := rfl
@[simp] theorem ctx_setWg (s : State) (i j : Nat) (x : Wg) : (s.setWg i x).ctx j = s.ctx j := rfl
@[simp] theorem vd_setWg (s : State) (i j : Nat) (x : Wg) : (s.setWg i x).vd j = s.vd j := rfl
@[simp] theorem queue_setWg (s : State) (i j : Nat) (x : Wg) : (s.setWg i x).queue j = s.queue j := rfl
@[simp] theorem port_setWg (s : State) (i j : Nat) (x : Wg) : (s.setWg i x).port j = s.port j := rfl
@[simp] theorem recv_setWg (s : State) (i j : Nat) (x : Wg) : (s.setWg i x).recv j = s.recv j := rfl

@[simp] theorem core_setCore (s : State) (i j : Nat) (x : Core) :
    (s.setCore i x).core j = if j = i then x else s.core j := by
  simp only [core, setCore, tget_tput]
  split <;> rfl

@[simp] theorem thread_setCore (s : State) (i j : Nat) (x : Core) : (s.setCore i x).thread j = s.thread j := rfl
@[simp] theorem flock_setCore (s : State) (i j : Nat) (x : Core) : (s.setCore i x).flock j = s.flock j := rfl
@[simp] theorem wg_setCore (s : State) (i j : Nat) (x : Core) : (s.setCore i x).wg j = s.wg j := rfl
@[simp] theorem quad_setCore (s : State) (i j : Nat) (x : Core) : (s.setCore i x).quad j = s.quad j := rfl
@[simp] theorem ctx_setCore (s : State) (i j : Nat) (x : Core) : (s.setCore i x).ctx j = s.ctx j := rfl
@[simp] theorem vd_setCore (s : State) (i j : Nat) (x : Core) : (s.setCore i x).vd j = s.vd j := rfl
@[simp] theorem queue_setCore (s : State) (i j : Nat) (x : Core) : (s.setCore i x).queue j = s.queue j := rfl
@[simp] theorem port_setCore (s : State) (i j : Nat) (x : Core) : (s.setCore i x).port j = s.port j := rfl
@[simp] theorem recv_setCore (s : State) (i j : Nat) (x : Core) : (s.setCore i x).recv j = s.recv j := rfl

@[simp] theorem quad_setQuad (s : State) (i j : Nat) (x : Quad) :
    (s.setQuad i x).quad j = if j = i then x else s.quad j := by
  simp only [quad, setQuad, tget_tput]
  split <;> rfl

@[simp] theorem thread_setQuad (s : State) (i j : Nat) (x : Quad) : (s.setQuad i x).thread j = s.thread j := rfl
@[simp] theorem flock_setQuad (s : State) (i j : Nat) (x : Quad) : (s.setQuad i x).flock j = s.flock j := rfl
@[simp] theorem wg_setQuad (s : State) (i j : Nat) (x : Quad) : (s.setQuad i x).wg j = s.wg j := rfl
@[simp] theorem core_setQuad (s : State) (i j : Nat) (x : Quad) : (s.setQuad i x).core j = s.core j := rfl
@[simp] theorem ctx_setQuad (s : State) (i j : Nat) (x : Quad) : (s.setQuad i x).ctx j = s.ctx j := rfl
@[simp] theorem vd_setQuad (s : State) (i j : Nat) (x : Quad) : (s.setQuad i x).vd j = s.vd j := rfl
@[simp] theorem queue_setQuad (s : State) (i j : Nat) (x : Quad) : (s.setQuad i x).queue j = s.queue j := rfl
@[simp] theorem port_setQuad (s : State) (i j : Nat) (x : Quad) : (s.setQuad i x).port j = s.port j := rfl
@[simp] theorem recv_setQuad (s : State) (i j : Nat) (x : Quad) : (s.setQuad i x).recv j = s.recv j := rfl

@[simp] theorem ctx_setCtx (s : State) (i j : Nat) (x : Ctx) :
    (s.setCtx i x).ctx j = if j = i then x else s.ctx j := by
  simp only [ctx, setCtx, tget_tput]
  split <;> rfl

@[simp] theorem thread_setCtx (s : State) (i j : Nat) (x : Ctx) : (s.setCtx i x).thread j = s.thread j := rfl
@[simp] theorem flock_setCtx (s : State) (i j : Nat) (x : Ctx) : (s.setCtx i x).flock j = s.flock j := rfl
@[simp] theorem wg_setCtx (s : State) (i j : Nat) (x : Ctx) : (s.setCtx i x).wg j = s.wg j := rfl
@[simp] theorem core_setCtx (s : State) (i j : Nat) (x : Ctx) : (s.setCtx i x).core j = s.core j := rfl
@[simp] theorem quad_setCtx (s : State) (i j : Nat) (x : Ctx) : (s.setCtx i x).quad j = s.quad j := rfl
@[simp] theorem vd_setCtx (s : State) (i j : Nat) (x : Ctx) : (s.setCtx i x).vd j = s.vd j := rfl
@[simp] theorem queue_setCtx (s : State) (i j : Nat) (x : Ctx) : (s.setCtx i x).queue j = s.queue j := rfl
@[simp] theorem port_setCtx (s : State) (i j : Nat) (x : Ctx) : (s.setCtx i x).port j = s.port j := rfl
@[simp] theorem recv_setCtx (s : State) (i j : Nat) (x : Ctx) : (s.setCtx i x).recv j = s.recv j := rfl

@[simp] theorem vd_setVd (s : State) (i j : Nat) (x : Vd) :
    (s.setVd i x).vd j = if j = i then x else s.vd j := by
  simp only [vd, setVd, tget_tput]
  split <;> rfl

@[simp] theorem thread_setVd (s : State) (i j : Nat) (x : Vd) : (s.setVd i x).thread j = s.thread j := rfl
@[simp] theorem flock_setVd (s : State) (i j : Nat) (x : Vd) : (s.setVd i x).flock j = s.flock j := rfl
@[simp] theorem wg_setVd (s : State) (i j : Nat) (x : Vd) : (s.setVd i x).wg j = s.wg j := rfl
@[simp] theorem core_setVd (s : State) (i j : Nat) (x : Vd) : (s.setVd i x).core j = s.core j := rfl
@[simp] theorem quad_setVd (s : State) (i j : Nat) (x : Vd) : (s.setVd i x).quad j = s.quad j := rfl
@[simp] theorem ctx_setVd (s : State) (i j : Nat) (x : Vd) : (s.setVd i x).ctx j = s.ctx j := rfl
@[simp] theorem queue_setVd (s : State) (i j : Nat) (x : Vd) : (s.setVd i x).queue j = s.queue j := rfl
@[simp] theorem port_setVd (s : State) (i j : Nat) (x : Vd) : (s.setVd i x).port j = s.port j := rfl
@[simp] theorem recv_setVd (s : State) (i j : Nat) (x : Vd) : (s.setVd i x).recv j = s.recv j := rfl

@[simp] theorem queue_setQueue (s : State) (i j : Nat) (x : Queue) :
    (s.setQueue i x).queue j = if j = i then x else s.queue j := by
  simp only [queue, setQueue, tget_tput]
  split <;> rfl

@[simp] theorem thread_setQueue (s : State) (i j : Nat) (x : Queue) : (s.setQueue i x).thread j = s.thread j := rfl
@[simp] theorem flock_setQueue (s : State) (i j : Nat) (x : Queue) : (s.setQueue i x).flock j = s.flock j := rfl
@[simp] theorem wg_setQueue (s : State) (i j : Nat) (x : Queue) : (s.setQueue i x).wg j = s.wg j := rfl
@[simp] theorem core_setQueue (s : State) (i j : Nat) (x : Queue) : (s.setQueue i x).core j = s.core j := rfl
@[simp] theorem quad_setQueue (s : State) (i j : Nat) (x : Queue) : (s.setQueue i x).quad j = s.quad j := rfl
@[simp] theorem ctx_setQueue (s : State) (i j : Nat) (x : Queue) : (s.setQueue i x).ctx j = s.ctx j := rfl
@[simp] theorem vd_setQueue (s : State) (i j : Nat) (x : Queue) : (s.setQueue i x).vd j = s.vd j := rfl
@[simp] theorem port_setQueue (s : State) (i j : Nat) (x : Queue) : (s.setQueue i x).port j = s.port j := rfl
@[simp] theorem recv_setQueue (s : State) (i j : Nat) (x : Queue) : (s.setQueue i x).recv j = s.recv j := rfl

@[simp] theorem port_setPort (s : State) (i j : Nat) (x : PortIn) :
    (s.setPort i x).port j = if j = i then x else s.port j := by
  simp only [port, setPort, tget_tput]
  split <;> rfl

@[simp] theorem thread_setPort (s : State) (i j : Nat) (x : PortIn) : (s.setPort i x).thread j = s.thread j := rfl
@[simp] theorem flock_setPort (s : State) (i j : Nat) (x : PortIn) : (s.setPort i x).flock j = s.flock j := rfl
@[simp] theorem wg_setPort (s : State) (i j : Nat) (x : PortIn) : (s.setPort i x).wg j = s.wg j := rfl
@[simp] theorem core_setPort (s : State) (i j : Nat) (x : PortIn) : (s.setPort i x).core j = s.core j := rfl
@[simp] theorem quad_setPort (s : State) (i j : Nat) (x : PortIn) : (s.setPort i x).quad j = s.quad j := rfl
@[simp] theorem ctx_setPort (s : State) (i j : Nat) (x : PortIn) : (s.setPort i x).ctx j = s.ctx j := rfl
@[simp] theorem vd_setPort (s : State) (i j : Nat) (x : PortIn) : (s.setPort i x).vd j = s.vd j := rfl
@[simp] theorem queue_setPort (s : State) (i j : Nat) (x : PortIn) : (s.setPort i x).queue j = s.queue j := rfl
@[simp] theorem recv_setPort (s : State) (i j : Nat) (x : PortIn) : (s.setPort i x).recv j = s.recv j := rfl

@[simp] theorem recv_setRecv (s : State) (i j : Nat) (x : Recv) :
    (s.setRecv i x).recv j = if j = i then x else s.recv j := by
  simp only [recv, setRecv, tget_tput]
  split <;> rfl

@[simp] theorem thread_setRecv (s : State) (i j : Nat) (x : Recv) : (s.setRecv i x).thread j = s.thread j := rfl
@[simp] theorem flock_setRecv (s : State) (i j : Nat) (x : Recv) : (s.setRecv i x).flock j = s.flock j := rfl
@[simp] theorem wg_setRecv (s : State) (i j : Nat) (x : Recv) : (s.setRecv i x).wg j = s.wg j := rfl
@[simp] theorem core_setRecv (s : State) (i j : Nat) (x : Recv) : (s.setRecv i x).core j = s.core j := rfl
@[simp] theorem quad_setRecv (s : State) (i j : Nat) (x : Recv) : (s.setRecv i x).quad j = s.quad j := rfl
@[simp] theorem ctx_setRecv (s : State) (i j : Nat) (x : Recv) : (s.setRecv i x).ctx j = s.ctx j := rfl
@[simp] theorem vd_setRecv (s : State) (i j : Nat) (x : Recv) : (s.setRecv i x).vd j = s.vd j := rfl
@[simp] theorem queue_setRecv (s : State) (i j : Nat) (x : Recv) : (s.setRecv i x).queue j = s.queue j := rfl
@[simp] theorem port_setRecv (s : State) (i j : Nat) (x : Recv) : (s.setRecv i x).port j = s.port j := rfl

/-! ### Registers -/

@[simp] theorem rd_zero (s : State) (tid : Nat) : s.rd tid .zero = 0 := rfl

@[simp] theorem wr_zero (s : State) (tid : Nat) (v : W32) : s.wr tid .zero v = s := rfl

theorem wr_g (s : State) (tid : Nat) (n : Fin 128) (v : W32) :
    s.wr tid (.g n) v = s.setThread tid { s.thread tid with g := (s.thread tid).g.set n v } := rfl

theorem wr_w (s : State) (tid : Nat) (n : Fin 64) (v : W32) :
    s.wr tid (.w n) v = s.setFlock (tidFlock tid) { s.flock (tidFlock tid) with w := (s.flock (tidFlock tid)).w.set n v } := rfl

/-- Reading a register after a write: the value written where both name one register, else what stood there. -/
theorem rd_wr (s : State) (a b : Nat) (r q : Reg) (v : W32) :
    (s.wr a r v).rd b q = if q ≠ .zero ∧ regCell b q = regCell a r then v else s.rd b q := by
  cases r with
  | zero => cases q <;> simp [regCell]
  | g n =>
    cases q with
    | zero => simp [regCell]
    | w m => simp [wr_g, rd, regCell]
    | g m =>
      simp only [wr_g, rd, thread_setThread, regCell]
      by_cases h : b = a
      · subst h
        by_cases hn : m = n
        · subst hn; simp [Vector.get_eq_getElem]
        · have : m.val ≠ n.val := fun e => hn (Fin.ext e)
          have h2 : n.val ≠ m.val := fun e => hn (Fin.ext e.symm)
          simp [h2, Vector.get_eq_getElem, this]
      · simp [h]
  | w n =>
    cases q with
    | zero => simp [regCell]
    | g m => simp [wr_w, rd, regCell]
    | w m =>
      simp only [wr_w, rd, flock_setFlock, regCell]
      by_cases h : tidFlock b = tidFlock a
      · by_cases hn : m = n
        · subst hn; simp [h, Vector.get_eq_getElem]
        · have : m.val ≠ n.val := fun e => hn (Fin.ext e)
          have h2 : n.val ≠ m.val := fun e => hn (Fin.ext e.symm)
          simp [h, h2, Vector.get_eq_getElem, this]
      · simp [h]

/-- p7 reads 1 (R26). -/
@[simp] theorem rdP_seven (s : State) (tid : Nat) : s.rdP tid 7 = true := rfl

/-- A write to p7 is discarded (R26). -/
@[simp] theorem wrP_seven (s : State) (tid : Nat) (b : Bool) : s.wrP tid 7 b = s := rfl

/-- A write to a predicate changes no register. -/
theorem rd_wrP (s : State) (a b : Nat) (p : Pred) (v : Bool) (q : Reg) : (s.wrP a p v).rd b q = s.rd b q := by
  unfold wrP
  split
  · rfl
  · cases q with
    | zero => rfl
    | w m => rfl
    | g m =>
      simp only [modThread, rd, thread_setThread]
      split
      · rename_i h; subst h; rfl
      · rfl

/-- Raising flags changes no register. -/
@[simp] theorem rd_raise (s : State) (c x : Nat) (f : BitVec 7) (t : Nat) (q : Reg) : (s.raise c x f).rd t q = s.rd t q := by
  unfold raise
  split <;> rfl

end Sys2Proof.Machine.State
end

