-- ==== Sys2Proof/Laws/Issue.lean ====
section
/-!
SUPPORT. What one issue of a group does (the shared part of every instruction), and what an instruction of R101
leaves: its destination registers, its predicates, its flags, and nothing else.
-/

namespace Sys2Proof.Machine.State

/-! ### The shared part of an issue -/

theorem dueErrs_nil {s : State} {g : Group} {i : Instr} {t : Nat} (h : (s.thread t).errs = []) : s.dueErrs g i t = [] := by
  simp [dueErrs, h]

theorem holds_clear {s : State} {g : Group} {i : Instr} (hf : s.frozen g = false)
    (hm : ∀ t ∈ g.members, MemberClear s i t) : s.holds g i = false := by
  unfold holds
  rw [hf, Bool.false_or, List.any_eq_false]
  intro t ht
  rw [(hm t ht).free, (hm t ht).room, dueErrs_nil (hm t ht).errs]
  simp [awaitsApply]

theorem preCheck_clear {s : State} {g : Group} {i : Instr} {t : Nat} (h : MemberClear s i t)
    (hu : instrUsesWK i = true → hdrFu g.hdr = true) : s.preCheck g i t = s := by
  unfold preCheck
  rw [dueErrs_nil h.errs]
  have h2 : (instrUsesWK i && !hdrFu g.hdr) = false := by
    cases e : instrUsesWK i
    · rfl
    · simp [hu e]
  simp only [oldestErr, List.foldl_nil, h.allowed, h.range, h2]
  rfl

theorem countRun_kernel {s : State} {g : Group} (h : ∀ t ∈ g.members, isCp t = false) : s.countRun g = s := by
  unfold countRun
  split
  · rename_i t e
    have : isCp t = false := h t (by rw [e]; exact List.mem_singleton.mpr rfl)
    simp [this]
  · rfl

theorem foldl_same {α : Type} (l : List α) (s : State) (f : State → α → State) (h : ∀ a ∈ l, f s a = s) :
    l.foldl f s = s := by
  induction l with
  | nil => rfl
  | cons a l ih =>
    rw [List.foldl_cons, h a (List.mem_cons_self ..)]
    exact ih fun b hb => h b (List.mem_cons_of_mem _ hb)

/-- An issue with nothing in its way is the instruction's own effect on the group and its participants. -/
theorem issue_clear {s : State} {g : Group} {i : Instr} (h : Clear s g i) (body : Group → List Nat → State → State) :
    s.issue i body = body g (s.participants g i) s := by
  unfold issue
  rw [h.cur]
  simp only [holds_clear h.moves h.member, countRun_kernel h.kernel]
  rw [foldl_same g.members s (fun s t => s.preCheck g i t) fun t ht => preCheck_clear (h.member t ht) h.fu]
  simp [h.cur, consumes, h.clean]

/-- The same for a queue program: the instruction is counted first. -/
theorem issue_clearRun {s : State} {g : Group} {i : Instr} {t : Nat} {r : Run} (h : ClearRun s g i t r)
    (body : Group → List Nat → State → State) :
    s.issue i body = body g (s.participants g i) (counted s g t r) := by
  have hm : ∀ u ∈ g.members, MemberClear s i u := by
    intro u hu
    rw [h.one] at hu
    rw [List.mem_singleton.mp hu]
    exact h.member
  have hc : s.countRun g = counted s g t r := by
    unfold countRun
    rw [h.one]
    have hb : ¬ (256 ≤ r.count) := Nat.not_le.mpr h.budget
    simp only [h.isCp, h.run, if_true]
    rw [if_neg h.first, if_neg hb]
    rfl
  have hp : (counted s g t r).preCheck g i t = counted s g t r := by
    apply preCheck_clear
    · refine ⟨h.member.free, h.member.room, h.member.errs, ?_, h.member.range⟩
      have ha := h.member.allowed
      revert ha
      unfold allowed
      cases instrNeed i <;> try exact id
      show (isCp t && _) = true → (isCp t && _) = true
      simp only [h.run, h.isCp, counted, tget_tput_same]
      exact id
    · intro hu; rw [h.fu] at hu; cases hu
  unfold issue
  rw [h.cur]
  simp only [holds_clear h.moves hm, hc]
  have e : g.members.foldl (fun s u => s.preCheck g i u) (counted s g t r) = counted s g t r := by
    rw [h.one]; exact hp
  rw [e]
  have hcur : (counted s g t r).cur = some g := h.cur
  have hpo : (counted s g t r).poison = [] := h.clean
  simp [hcur, consumes, hpo]
  rfl

/-- An instruction that issues completes with its own effect once nothing stands before it. -/
theorem completes_of {s : State} {g : Group} {i : Instr} {body : Group → List Nat → State → State} {t : State}
    (hx : exec i s = .next (s.issue i body)) (hb : body g (s.participants g i) s = t) : Completes s g i t := by
  intro h
  rw [hx, issue_clear h, hb]

theorem eachOwn_done {one : State → Nat → State × Bool} {ps : List Nat} {s u : State} (h : AllDone one ps s u) :
    eachOwn one ps s = u.advance := by
  induction ps generalizing s with
  | nil => rw [show s = u from h]; rfl
  | cons t ts ih =>
    obtain ⟨g, hc, ⟨hd, hr⟩ | ⟨hm, hp, v, ho, hr⟩⟩ := h
    · unfold eachOwn
      rcases hd with hd | hd <;> simp only [hc, List.contains_eq_mem, hd, decide_true, decide_false, Bool.not_false,
        Bool.or_true, Bool.true_or, if_true] <;> exact ih hr
    · unfold eachOwn
      simp only [hc, List.contains_eq_mem, hm, hp, ho, decide_true, decide_false, Bool.not_true, Bool.or_false]
      exact ih hr

theorem each_completes {s : State} {g : Group} {i : Instr} {one : List Nat → State → Nat → State × Bool}
    (hx : exec i s = .next (s.issue i fun _ ps s => eachOwn (one ps) ps s)) : EachCompletes s g i one := by
  intro u h hd
  rw [hx, issue_clear h]
  exact congrArg Host.Outcome.next (eachOwn_done hd)

/-- What passes the checks are participants. -/
theorem checkAll_mem {chk : State → Nat → Chk} {ps : List Nat} {s u : State} {pl : List (Nat × Place)} {b : Bool}
    (h : checkAll chk s ps = (u, pl, b)) : ∀ x ∈ pl, x.1 ∈ ps := by
  induction ps generalizing s u pl b with
  | nil => simp only [checkAll, Prod.mk.injEq] at h; rw [← h.2.1]; simp
  | cons t ts ih =>
    intro x hx
    unfold checkAll at h
    split at h
    · exact List.mem_cons_of_mem _ (ih h x hx)
    · split at h
      · exact List.mem_cons_of_mem _ (ih h x hx)
      · rename_i e
        simp only [Prod.mk.injEq] at h
        exact List.mem_cons_of_mem _ (ih (s := s) (u := (checkAll chk s ts).1) (b := (checkAll chk s ts).2.2) rfl x
          (by rw [h.2.1]; exact hx))
      · rename_i p s' e
        simp only [Prod.mk.injEq] at h
        rw [← h.2.1] at hx
        rcases List.mem_cons.mp hx with rfl | hx
        · exact List.mem_cons_self ..
        · exact List.mem_cons_of_mem _ (ih (s := s') (u := (checkAll chk s' ts).1) (b := (checkAll chk s' ts).2.2) rfl x hx)

theorem memBody_ready {s : State} {g g0 : Group} {ps : List Nat} {chk : State → Nat → Chk}
    {hold : State → Nat → Place → Bool} {room : State → List (Nat × Place) → Option (List Nat)} {acq rel : Option Scope}
    {u : State} {pl : List (Nat × Place)} {act : State → Group → State → List Nat → Nat → Place → State}
    (h : MemReady s g ps chk hold room acq rel u pl)
    (hs : ∀ p ∈ ps, p ∈ g.members) : memBody chk hold room acq rel act g0 ps s = memDone g ps acq rel act u pl := by
  have hl : (pl.filter fun x => g.members.contains x.1) = pl := by
    apply List.filter_eq_self.mpr
    intro x hx
    exact List.contains_iff_mem.mpr (hs _ (checkAll_mem h.checks x hx))
  have ho : ((g.members.filter fun t => !ps.contains t).any fun t => u.fenceWaits acq rel t) = false := by
    rw [List.any_eq_false]
    intro t ht
    have := List.mem_filter.mp ht
    rw [h.others t this.1 (by simpa using this.2)]
    simp
  have hw : (pl.any fun x => u.fenced x.1 || hold u x.1 x.2 || (x.2.sc && !(u.accessesOf x.1).isEmpty)) = false := by
    rw [List.any_eq_false]
    intro x hx
    have h4 := h.alone x hx
    rw [h.unfenced x hx, h.free x hx]
    cases e : x.2.sc
    · simp
    · simp [h4 e]
  have hf (q : Nat × Place → Bool) (hq : ∀ x ∈ pl, q x = false) : pl.any q = false := by
    rw [List.any_eq_false]
    intro x hx
    simp [hq x hx]
  unfold memBody memDone
  rw [h.checks]
  simp only [h.cur, hl, ho, hw, h.room, Option.isSome_none, Bool.or_false, Bool.false_or]
  rw [hf _ fun x hx => ?_]
  · simp only [Bool.false_eq_true, if_false]
  · cases rel with
    | none => rfl
    | some sc => exact h.released x hx sc rfl

theorem mem_completes {s : State} {g : Group} {i : Instr} {chk : State → Nat → Chk} {hold : State → Nat → Place → Bool}
    {room : State → List (Nat × Place) → Option (List Nat)} {acq rel : Option Scope}
    {act : State → Group → State → List Nat → Nat → Place → State}
    (hx : exec i s = .next (s.issue i (memBody chk hold room acq rel act))) :
    MemCompletes s g i chk hold room acq rel act := by
  intro u pl h hr
  rw [hx, issue_clear h]
  refine congrArg Host.Outcome.next (memBody_ready hr ?_)
  intro p hp
  unfold participants at hp
  split at hp
  · exact (List.mem_filter.mp hp).1
  · cases hp

end Sys2Proof.Machine.State
end

