-- ==== Sys2Proof/Laws/Alu.lean ====
section
/-!
SUPPORT. What an instruction of R101 leaves, proved once for every effect of registers, a predicate and flags:
`Writes` holds of the state after `State.alu`.
-/

namespace Sys2Proof

open Sys2Proof.Machine

/-! ### `Kept` -/

theorem Kept.refl (s : State) : Kept s s := ⟨rfl, fun _ => rfl, fun _ => rfl, fun _ => rfl⟩

theorem Kept.trans {s t u : State} (a : Kept s t) (b : Kept t u) : Kept s u where
  rest := by
    have h := congrArg (fun x : State =>
      { x with cur := s.cur, threads := s.threads, flocks := s.flocks, cores := s.cores }) b.rest
    exact h.trans a.rest
  thread q := by
    have h := congrArg (fun x : Thread => { x with
      g := (s.thread q).g, p := (s.thread q).p, pc := (s.thread q).pc, idx := (s.thread q).idx, st := (s.thread q).st
      age := (s.thread q).age, stallFrom := (s.thread q).stallFrom, fullFrom := (s.thread q).fullFrom
      stepping := (s.thread q).stepping
      yielded := (s.thread q).yielded }) (b.thread q)
    exact h.trans (a.thread q)
  flock f := by
    have h := congrArg (fun x : Flock => { x with w := (s.flock f).w, fu := (s.flock f).fu }) (b.flock f)
    exact h.trans (a.flock f)
  core c := by
    have h := congrArg (fun x : Core => { x with fstat := (s.core c).fstat }) (b.core c)
    exact h.trans (a.core c)

end Sys2Proof

namespace Sys2Proof.Machine.State

open Sys2Proof

/-- A change of a thread that only touches what `Kept` lets change. -/
theorem kept_modThread (s : State) (a : Nat) (f : Thread → Thread)
    (h : ∀ x : Thread, ∃ g p pc idx st age sf ff sp y, f x =
      { x with g := g, p := p, pc := pc, idx := idx, st := st, age := age, stallFrom := sf, fullFrom := ff, stepping := sp, yielded := y }) :
    Kept s (s.modThread a f) where
  rest := rfl
  thread q := by
    simp only [modThread, thread_setThread]
    split
    · rename_i e
      subst e
      obtain ⟨g, p, pc, idx, st, age, sf, ff, sp, y, e⟩ := h (s.thread q)
      rw [e]
    · rfl
  flock _ := rfl
  core _ := rfl

theorem kept_modFlock (s : State) (a : Nat) (f : Flock → Flock)
    (h : ∀ x : Flock, ∃ w fu, f x = { x with w := w, fu := fu }) : Kept s (s.modFlock a f) where
  rest := rfl
  thread _ := rfl
  flock q := by
    simp only [modFlock, flock_setFlock]
    split
    · rename_i e
      subst e
      obtain ⟨w, fu, e⟩ := h (s.flock q)
      rw [e]
    · rfl
  core _ := rfl

theorem kept_wr (s : State) (a : Nat) (r : Reg) (v : W32) : Kept s (s.wr a r v) := by
  cases r with
  | zero => exact Kept.refl s
  | g n => exact kept_modThread s a _ fun x => ⟨_, _, _, _, _, _, _, _, _, _, rfl⟩
  | w n => exact kept_modFlock s _ _ fun x => ⟨_, _, rfl⟩

theorem kept_wrP (s : State) (a : Nat) (p : Pred) (b : Bool) : Kept s (s.wrP a p b) := by
  unfold wrP
  split
  · exact Kept.refl s
  · exact kept_modThread s a _ fun x => ⟨_, _, _, _, _, _, _, _, _, _, rfl⟩

theorem kept_raise (s : State) (c x : Nat) (f : BitVec 7) : Kept s (s.raise c x f) := by
  unfold raise
  split
  · exact Kept.refl s
  · refine ⟨rfl, fun _ => rfl, fun _ => rfl, fun q => ?_⟩
    simp only [modCore, core_setCore]
    split
    · rename_i e; subst e; rfl
    · rfl

theorem kept_foldl {α : Type} (l : List α) (f : State → α → State) (h : ∀ s a, Kept s (f s a)) :
    ∀ s, Kept s (l.foldl f s) := by
  induction l with
  | nil => exact Kept.refl
  | cons a l ih => intro s; exact (h s a).trans (ih (f s a))

/-! ### Registers, predicates and flags that a step of a group's place leaves -/

/-- Two states whose registers, predicates and flag sets read alike. -/
structure Same (s t : State) : Prop where
  kept : Kept s t
  rd : ∀ q r, t.rd q r = s.rd q r
  rdP : ∀ q c, t.rdP q c = s.rdP q c
  flags : ∀ c x, t.coreFlags c x = s.coreFlags c x

theorem Same.refl (s : State) : Same s s := ⟨Kept.refl s, fun _ _ => rfl, fun _ _ => rfl, fun _ _ => rfl⟩

theorem Same.trans {s t u : State} (a : Same s t) (b : Same t u) : Same s u :=
  ⟨a.kept.trans b.kept, fun q r => (b.rd q r).trans (a.rd q r), fun q c => (b.rdP q c).trans (a.rdP q c),
    fun c x => (b.flags c x).trans (a.flags c x)⟩

theorem same_modThread (s : State) (a : Nat) (f : Thread → Thread)
    (h : ∀ x : Thread, ∃ pc idx st age sf ff sp y, f x =
      { x with pc := pc, idx := idx, st := st, age := age, stallFrom := sf, fullFrom := ff, stepping := sp, yielded := y }) :
    Same s (s.modThread a f) := by
  refine ⟨kept_modThread s a f fun x => ?_, fun q r => ?_, fun q c => ?_, fun _ _ => rfl⟩
  · obtain ⟨pc, idx, st, age, sf, ff, sp, y, e⟩ := h x
    exact ⟨_, _, _, _, _, _, _, _, _, _, e⟩
  · cases r with
    | zero => rfl
    | w n => rfl
    | g n =>
      simp only [rd, modThread, thread_setThread]
      split
      · rename_i e
        subst e
        obtain ⟨pc, idx, st, age, sf, ff, sp, y, e⟩ := h (s.thread q)
        rw [e]
      · rfl
  · simp only [rdP, modThread, thread_setThread]
    split
    · rfl
    · split
      · rename_i e
        subst e
        obtain ⟨pc, idx, st, age, sf, ff, sp, y, e⟩ := h (s.thread q)
        rw [e]
      · rfl

theorem same_modFlock (s : State) (a : Nat) (f : Flock → Flock) (h : ∀ x : Flock, ∃ fu, f x = { x with fu := fu }) :
    Same s (s.modFlock a f) := by
  refine ⟨kept_modFlock s a f fun x => ?_, fun q r => ?_, fun _ _ => rfl, fun _ _ => rfl⟩
  · obtain ⟨fu, e⟩ := h x
    exact ⟨_, fu, e⟩
  · cases r with
    | zero => rfl
    | g n => rfl
    | w n =>
      simp only [rd, modFlock, flock_setFlock]
      split
      · rename_i e
        rw [e]
        obtain ⟨fu, e⟩ := h (s.flock a)
        rw [e]
      · rfl

theorem same_foldl {α : Type} (l : List α) (f : State → α → State) (h : ∀ s a, Same s (f s a)) :
    ∀ s, Same s (l.foldl f s) := by
  induction l with
  | nil => exact Same.refl
  | cons a l ih => intro s; exact (h s a).trans (ih (f s a))

theorem same_markFu (s : State) (g : Group) : Same s (s.markFu g) := by
  unfold markFu
  split
  · split
    · exact Same.refl s
    · exact same_modFlock s _ _ fun x => ⟨_, rfl⟩
  · exact Same.refl s

theorem same_clearFu (s : State) (g : Group) : Same s (s.clearFu g) := by
  unfold clearFu
  split
  · split
    · exact Same.refl s
    · exact same_modFlock s _ _ fun x => ⟨_, rfl⟩
  · exact Same.refl s

theorem same_membersAt (s : State) (g : Group) (a b : TState) : Same s (s.membersAt g a b) := by
  unfold membersAt
  refine same_foldl _ _ (fun s t => same_modThread s t _ fun x => ?_) s
  by_cases h : x.st = a
  · exact ⟨x.pc, x.idx, b, x.age, x.stallFrom, x.fullFrom, x.stepping, x.yielded, by simp [h]⟩
  · exact ⟨x.pc, x.idx, x.st, x.age, x.stallFrom, x.fullFrom, x.stepping, x.yielded, by simp [h]⟩

theorem same_clearStall (s : State) (g : Group) : Same s (s.clearStall g) := by
  unfold clearStall
  split
  · exact same_foldl _ _ (fun s a => same_modThread s a _ fun x => ⟨_, _, _, _, _, _, _, _, rfl⟩) s
  · exact Same.refl s

theorem same_endClause (s : State) (g : Group) (f : Nat → W64) : Same s (s.endClause g f) := by
  unfold endClause
  refine (same_clearFu s g).trans (same_foldl _ _ (fun s a => ?_) _)
  exact (same_modThread s a _ fun x => ⟨_, _, _, _, _, _, _, _, rfl⟩).trans
    (same_modThread _ a _ fun x => ⟨_, _, _, _, _, _, _, _, rfl⟩)

theorem same_advanceGroup (s : State) (g : Group) : Same s (s.advanceGroup g).2 := by
  unfold advanceGroup
  refine (same_clearStall s g).trans ?_
  dsimp only
  have h : Same (s.clearStall g) (if g.blocked then (s.clearStall g).membersAt g .blocked .running else s.clearStall g) := by
    split
    · exact same_membersAt _ _ _ _
    · exact Same.refl _
  split
  · exact h.trans (same_markFu _ _)
  · exact h.trans (same_endClause _ _ _)

theorem same_cur (s : State) (c : Option Group) : Same s { s with cur := c } :=
  ⟨⟨rfl, fun _ => rfl, fun _ => rfl, fun _ => rfl⟩, fun _ _ => rfl, fun _ _ => rfl, fun _ _ => rfl⟩

/-- Moving past an instruction changes no register, predicate or flag. -/
theorem same_advance (s : State) : Same s s.advance := by
  unfold advance
  split
  · exact Same.refl s
  · exact (same_advanceGroup s _).trans (same_cur _ _)

/-! ### Writes of a register group -/

theorem up_lt {d : Reg} {k i : Nat} (h : d.fits k) (hi : i < k) (tid : Nat) :
    regCell tid (Reg.up d i) = (regCell tid d).map fun c => (c.1, c.2.1, c.2.2 + i) := by
  cases d with
  | zero => rfl
  | g n =>
    have h : n.val + k ≤ 128 := h
    have e : (n.val + i) % 128 = n.val + i := Nat.mod_eq_of_lt (by omega)
    simp [Reg.up, regCell, Fin.ofNat, e]
  | w n =>
    have h : n.val + k ≤ 64 := h
    have e : (n.val + i) % 64 = n.val + i := Nat.mod_eq_of_lt (by omega)
    simp [Reg.up, regCell, Fin.ofNat, e]

theorem up_ne_zero {d : Reg} (h : d ≠ .zero) (i : Nat) : Reg.up d i ≠ .zero := by
  cases d <;> simp_all [Reg.up]

theorem up_inj {d : Reg} {k i j : Nat} (h : d.fits k) (hd : d ≠ .zero) (hi : i < k) (hj : j < k) (a b : Nat)
    (e : regCell a (Reg.up d i) = regCell b (Reg.up d j)) : i = j := by
  rw [up_lt h hi, up_lt h hj] at e
  cases d with
  | zero => exact absurd rfl hd
  | g n => simp [regCell] at e; omega
  | w n => simp [regCell] at e; omega

/-- The writes of a group by one thread. -/
def wrGroup (s : State) (a : Nat) (d : Reg) (v k : Nat) : State :=
  (regsOf d k v).foldl (fun s w => s.wr a w.1 w.2) s

theorem wrGroup_succ (s : State) (a : Nat) (d : Reg) (v k : Nat) :
    s.wrGroup a d v (k + 1) = (s.wrGroup a d v k).wr a (Reg.up d k) (BitVec.ofNat 32 (v / 2 ^ (32 * k))) := by
  simp [wrGroup, regsOf, upTo, List.range_succ]

theorem kept_wrGroup (s : State) (a : Nat) (d : Reg) (v k : Nat) : Kept s (s.wrGroup a d v k) :=
  kept_foldl (regsOf d k v) (fun s w => s.wr a w.1 w.2) (fun s w => kept_wr s a w.1 w.2) s

theorem wrGroup_other (s : State) (a : Nat) (d : Reg) (v : Nat) (b : Nat) (r : Reg) :
    ∀ k, (∀ i < k, regCell b r ≠ regCell a (Reg.up d i)) → (s.wrGroup a d v k).rd b r = s.rd b r := by
  intro k
  induction k with
  | zero => intro _; rfl
  | succ k ih =>
    intro h
    rw [wrGroup_succ, rd_wr, if_neg fun hc => h k (Nat.lt_succ_self k) hc.2]
    exact ih fun i hi => h i (Nat.lt_succ_of_lt hi)

theorem wrGroup_in (s : State) (a b : Nat) (d : Reg) (v : Nat) (hd : d ≠ .zero) (i : Nat) :
    ∀ k, d.fits k → i < k → regCell b (Reg.up d i) = regCell a (Reg.up d i) →
      (s.wrGroup a d v k).rd b (Reg.up d i) = BitVec.ofNat 32 (v / 2 ^ (32 * i)) := by
  intro k
  induction k with
  | zero => intro _ h; exact absurd h (Nat.not_lt_zero i)
  | succ k ih =>
    intro hf hi hc
    rw [wrGroup_succ, rd_wr]
    by_cases e : i = k
    · subst e
      rw [if_pos ⟨up_ne_zero hd i, hc⟩]
    · have hne : ¬ (Reg.up d i ≠ .zero ∧ regCell b (Reg.up d i) = regCell a (Reg.up d k)) := fun h =>
        e (up_inj hf hd hi (Nat.lt_succ_self k) b a h.2)
      rw [if_neg hne]
      refine ih ?_ (by omega) hc
      revert hf
      cases d <;> simp [Reg.fits] <;> omega

theorem rdP_wr (s : State) (a b : Nat) (r : Reg) (v : W32) (c : Pred) : (s.wr a r v).rdP b c = s.rdP b c := by
  cases r with
  | zero => rfl
  | w n => rfl
  | g n =>
    simp only [wr_g, rdP, thread_setThread]
    split
    · rfl
    · split
      · rename_i e; subst e; rfl
      · rfl

theorem rdP_wrGroup (s : State) (a : Nat) (d : Reg) (v k b : Nat) (c : Pred) :
    (s.wrGroup a d v k).rdP b c = s.rdP b c := by
  induction k with
  | zero => rfl
  | succ k ih => rw [wrGroup_succ, rdP_wr, ih]

theorem cores_wr (s : State) (a : Nat) (r : Reg) (v : W32) : (s.wr a r v).cores = s.cores := by
  cases r <;> rfl

theorem cores_wrGroup (s : State) (a : Nat) (d : Reg) (v k : Nat) : (s.wrGroup a d v k).cores = s.cores := by
  induction k with
  | zero => rfl
  | succ k ih => rw [wrGroup_succ, cores_wr, ih]

/-! ### Writes of a predicate -/

theorem predSet_get (ps : BitVec 7) (p : Pred) (b : Bool) (j : Nat) (hj : j < 7) :
    (predSet ps p b).getLsbD j = if j = p.val then b else ps.getLsbD j := by
  have one : ∀ m : Nat, m < 7 → (1#7 <<< p.val).getLsbD m = decide (m = p.val) := by
    intro m hm
    rw [BitVec.getLsbD_shiftLeft]
    by_cases h : m < p.val
    · simp [h, Nat.ne_of_lt h]
    · by_cases e : m = p.val
      · subst e; simp [hm]
      · have : m - p.val ≠ 0 := by omega
        simp [hm, h, e, this, BitVec.getLsbD_one]
  unfold predSet
  split
  · rename_i h
    rw [BitVec.getLsbD_or, one j hj]
    by_cases e : j = p.val <;> simp [e, h]
  · rename_i h
    rw [BitVec.getLsbD_and, BitVec.getLsbD_not, one j hj]
    by_cases e : j = p.val <;> simp [e, h, hj]

theorem rdP_wrP (s : State) (a b : Nat) (p c : Pred) (v : Bool) :
    (s.wrP a p v).rdP b c = if c = p ∧ c ≠ 7 ∧ b = a then v else s.rdP b c := by
  have hlt := p.isLt
  have hlc := c.isLt
  unfold wrP
  split
  · rename_i h
    have : p = 7 := Fin.ext h
    subst this
    rw [if_neg fun h => h.2.1 h.1]
  · rename_i hp
    unfold rdP
    by_cases hc : c.val = 7
    · have : c = 7 := Fin.ext hc
      subst this
      simp
    · have hc7 : c ≠ 7 := fun e => hc (congrArg Fin.val e)
      simp only [hc, if_false, modThread, thread_setThread]
      by_cases e : b = a
      · subst e
        simp only [if_true]
        rw [predSet_get _ _ _ _ (by omega)]
        by_cases e2 : c = p
        · subst e2; simp [hc7]
        · have : c.val ≠ p.val := fun h => e2 (Fin.ext h)
          simp [e2, this]
      · simp [e]

theorem cores_wrP (s : State) (a : Nat) (p : Pred) (b : Bool) : (s.wrP a p b).cores = s.cores := by
  unfold wrP
  split <;> rfl

/-! ### Flags -/

theorem coreFlags_raise (s : State) (a y : Nat) (f : BitVec 7) (c x : Nat) :
    (s.raise a y f).coreFlags c x = if a = c ∧ y = x then s.coreFlags c x ||| f else s.coreFlags c x := by
  unfold raise
  split
  · rename_i h
    subst h
    split <;> simp
  · simp only [coreFlags, modCore, core_setCore]
    by_cases e : c = a
    · subst e
      simp only [if_true, tmod, tget_tput]
      by_cases e2 : x = y
      · subst e2; simp
      · have : ¬ (c = c ∧ y = x) := fun h => e2 h.2.symm
        simp [e2, Ne.symm e2]
    · have : ¬ (a = c ∧ y = x) := fun h => e h.1.symm
      simp [e, this]

theorem rdP_raise (s : State) (a y : Nat) (f : BitVec 7) (b : Nat) (c : Pred) : (s.raise a y f).rdP b c = s.rdP b c := by
  unfold raise
  split <;> rfl

/-- The context of a thread does not change under what `Kept` allows. -/
theorem ctxOf_kept {s t : State} (h : Kept s t) (q : Nat) : t.ctxOf q = s.ctxOf q := by
  have hw : t.wgs = s.wgs := by have := congrArg State.wgs h.rest; exact this
  have ht : (t.thread q).wg = (s.thread q).wg := by have := congrArg Thread.wg (h.thread q); exact this
  simp only [ctxOf, wgOf, wg, hw, ht]

theorem poison_kept {s t : State} (h : Kept s t) : t.poison = s.poison := by
  have := congrArg State.poison h.rest
  exact this

/-! ### One participant's effect -/

/-- The predicate writes of an effect. -/
def predOf (pd : Option Pred) (b : Bool) : List (Pred × Bool) := pd.toList.map fun c => (c, b)

/-- The write of an effect's predicate. -/
def wrPred (s : State) (a : Nat) (pd : Option Pred) (b : Bool) : State :=
  match pd with
  | some c => s.wrP a c b
  | none => s

theorem kept_wrPred (s : State) (a : Nat) (pd : Option Pred) (b : Bool) : Kept s (s.wrPred a pd b) := by
  cases pd with
  | none => exact Kept.refl s
  | some c => exact kept_wrP s a c b

theorem rd_wrPred (s : State) (a : Nat) (pd : Option Pred) (b : Bool) (q : Nat) (r : Reg) :
    (s.wrPred a pd b).rd q r = s.rd q r := by
  cases pd with
  | none => rfl
  | some c => exact rd_wrP _ _ _ _ _ _

theorem cores_wrPred (s : State) (a : Nat) (pd : Option Pred) (b : Bool) : (s.wrPred a pd b).cores = s.cores := by
  cases pd with
  | none => rfl
  | some c => exact cores_wrP _ _ _ _

theorem applyEffect_eq (s : State) (a : Nat) (d : Reg) (k v : Nat) (pd : Option Pred) (b : Bool) (fl : BitVec 7)
    (hp : s.poison = []) :
    s.applyEffect a ⟨regsOf d k v, predOf pd b, fl⟩ =
      ((s.wrGroup a d v k).wrPred a pd b).raise (tidCore a) (s.ctxOf a) fl := by
  have hk : Kept s ((s.wrGroup a d v k).wrPred a pd b) := (kept_wrGroup s a d v k).trans (kept_wrPred _ a pd b)
  have h2 : (predOf pd b).foldl (fun s w => s.wrP a w.1 w.2) (s.wrGroup a d v k) = (s.wrGroup a d v k).wrPred a pd b := by
    cases pd <;> rfl
  have h1 : s.applyEffect a ⟨regsOf d k v, predOf pd b, fl⟩ =
      ((((predOf pd b).foldl (fun s w => s.wrP a w.1 w.2) (s.wrGroup a d v k)).raise (tidCore a)
        (((predOf pd b).foldl (fun s w => s.wrP a w.1 w.2) (s.wrGroup a d v k)).ctxOf a) fl).cleanRegs a
          ((regsOf d k v).map fun w => (w.1, 1))) := rfl
  rw [h1, h2, ctxOf_kept hk]
  unfold cleanRegs
  rw [poison_kept (hk.trans (kept_raise _ _ _ _)), if_pos hp]

/-! ### All participants -/

/-- The effects of participants that write numbers `v`, bits `b` and flags `fl`. -/
def effects (ps : List Nat) (d : Reg) (k : Nat) (v : Nat → Nat) (pd : Option Pred) (b : Nat → Bool)
    (fl : Nat → BitVec 7) : List (Nat × Effect) :=
  ps.map fun p => (p, ⟨regsOf d k (v p), predOf pd (b p), fl p⟩)

theorem rdN_of (s : State) (p : Nat) (d : Reg) (v : Nat) :
    ∀ k, (∀ i < k, s.rd p (Reg.up d i) = BitVec.ofNat 32 (v / 2 ^ (32 * i))) → s.rdN p d k = v % 2 ^ (32 * k) := by
  intro k
  induction k with
  | zero => intro _; simp [rdN, Nat.mod_one]
  | succ k ih =>
    intro h
    show s.rdN p d k + (s.rd p (Reg.up d k)).toNat * 2 ^ (32 * k) = _
    rw [ih fun i hi => h i (Nat.lt_succ_of_lt hi), h k (Nat.lt_succ_self k), BitVec.toNat_ofNat,
      Nat.mul_succ 32 k, Nat.pow_add, Nat.mod_mul, Nat.mul_comm (2 ^ (32 * k))]

theorem applyAll_writes (d : Reg) (k : Nat) (v : Nat → Nat) (pd : Option Pred) (b : Nat → Bool) (fl : Nat → BitVec 7)
    (hf : d.fits k) :
    ∀ (ps : List Nat) (s : State), s.poison = [] → ps.Nodup → (d.isW = true → ∀ p ∈ ps, ∀ q ∈ ps, tidFlock p = tidFlock q) →
      Writes s (s.applyAll (effects ps d k v pd b fl)) ps d k v pd b fl := by
  intro ps
  induction ps with
  | nil =>
    intro s _ _ _
    refine ⟨Kept.refl s, fun _ p hp => ?_, fun _ p hp => ?_, fun _ _ _ => rfl, fun q c => ?_, fun _ _ => rfl⟩
    · cases hp
    · cases hp
    · rw [if_neg fun h => by cases h.2.2]; rfl
  | cons a ps ih =>
    intro s hp hn hs
    obtain ⟨hna, hn'⟩ := List.nodup_cons.mp hn
    have hs' : d.isW = true → ∀ p ∈ ps, ∀ q ∈ ps, tidFlock p = tidFlock q := fun hw p h q h' =>
      hs hw p (List.mem_cons_of_mem _ h) q (List.mem_cons_of_mem _ h')
    have W := ih s hp hn' hs'
    have e : s.applyAll (effects (a :: ps) d k v pd b fl) =
        (s.applyAll (effects ps d k v pd b fl)).applyEffect a ⟨regsOf d k (v a), predOf pd (b a), fl a⟩ := rfl
    rw [e]
    generalize hu : s.applyAll (effects ps d k v pd b fl) = u at W ⊢
    have hpu : u.poison = [] := (poison_kept W.kept).trans hp
    rw [applyEffect_eq u a d k (v a) pd (b a) (fl a) hpu]
    have rdeq : ∀ q r, (State.raise ((u.wrGroup a d (v a) k).wrPred a pd (b a)) (tidCore a) (u.ctxOf a) (fl a)).rd q r = (u.wrGroup a d (v a) k).rd q r := by
      intro q r
      rw [rd_raise, rd_wrPred]
    have hk : Kept u ((u.wrGroup a d (v a) k).wrPred a pd (b a)) :=
      (kept_wrGroup u a d (v a) k).trans (kept_wrPred _ a pd (b a))
    have rdN_eq : ∀ p, d ≠ .zero → (∀ i < k, regCell p (Reg.up d i) = regCell a (Reg.up d i)) →
        (State.raise ((u.wrGroup a d (v a) k).wrPred a pd (b a)) (tidCore a) (u.ctxOf a) (fl a)).rdN p d k = v a % 2 ^ (32 * k) := by
      intro p hd hc
      refine rdN_of _ p d (v a) k fun i hi => ?_
      rw [rdeq]
      exact wrGroup_in u a p d (v a) hd i k hf hi (hc i hi)
    refine ⟨W.kept.trans (hk.trans (kept_raise _ _ _ _)), ?_, ?_, ?_, ?_, ?_⟩
    · intro hg p hpm
      have hd : d ≠ .zero := by intro e0; rw [e0] at hg; cases hg
      rcases List.mem_cons.mp hpm with e0 | hpm
      · subst e0
        exact rdN_eq p hd fun _ _ => rfl
      · have hne : p ≠ a := fun e0 => hna (e0 ▸ hpm)
        rw [← W.g hg p hpm]
        have hd' : ∀ i < k, (State.raise ((u.wrGroup a d (v a) k).wrPred a pd (b a)) (tidCore a) (u.ctxOf a) (fl a)).rd p (Reg.up d i) = u.rd p (Reg.up d i) := by
          intro i hi
          rw [rdeq]
          apply wrGroup_other
          intro j hj hc
          cases d with
          | zero => exact hd rfl
          | w n => cases hg
          | g n => simp [Reg.up, regCell] at hc; exact hne hc.1
        have hcong : ∀ m, m ≤ k → (State.raise ((u.wrGroup a d (v a) k).wrPred a pd (b a)) (tidCore a) (u.ctxOf a) (fl a)).rdN p d m = u.rdN p d m := by
          intro m
          induction m with
          | zero => intro _; rfl
          | succ m ihm =>
            intro hm
            simp only [rdN]
            rw [ihm (by omega), hd' m (by omega)]
        exact hcong k (Nat.le_refl k)
    · intro hw p hpm q hq
      have hd : d ≠ .zero := by intro e0; rw [e0] at hw; cases hw
      have hqa : q = a := by simpa using hq.symm
      subst hqa
      refine rdN_eq p hd fun i hi => ?_
      have hfl := hs hw p hpm q (List.mem_cons_self ..)
      cases d with
      | zero => exact absurd rfl hd
      | g n => cases hw
      | w n => simp [Reg.up, regCell, hfl]
    · intro q r h
      rw [rdeq, wrGroup_other u a d (v a) q r k fun i hi => h a (List.mem_cons_self ..) i hi]
      exact W.regs q r fun p hpm i hi => h p (List.mem_cons_of_mem _ hpm) i hi
    · intro q c
      rw [rdP_raise]
      cases pd with
      | none =>
        show (u.wrGroup a d (v a) k).rdP q c = _
        rw [rdP_wrGroup, W.preds]
        simp
      | some z =>
        show ((u.wrGroup a d (v a) k).wrP a z (b a)).rdP q c = _
        rw [rdP_wrP, rdP_wrGroup, W.preds]
        by_cases ec : c = z
        · subst ec
          by_cases e7 : c = 7
          · simp [e7]
          · by_cases eq : q = a
            · subst eq; simp [e7]
            · simp [e7, eq]
        · have : z ≠ c := fun e => ec e.symm
          simp [ec, this]
    · intro c x
      rw [coreFlags_raise]
      have hcore : ∀ w : State, w.cores = u.cores → w.coreFlags c x = u.coreFlags c x := by
        intro w hw
        simp only [coreFlags, core, hw]
      have h1 : ((u.wrGroup a d (v a) k).wrPred a pd (b a)).coreFlags c x = u.coreFlags c x := by
        exact hcore _ ((cores_wrPred _ _ _ _).trans (cores_wrGroup u a d (v a) k))
      rw [h1, W.flags, ctxOf_kept W.kept]
      rfl

/-- What an instruction of R101 leaves. -/
theorem alu_writes {s : State} {g : Group} {ps : List Nat} {f : State → List Nat → Nat → Effect} {d : Reg} {k : Nat}
    {v : Nat → Nat} {pd : Option Pred} {b : Nat → Bool} {fl : Nat → BitVec 7}
    (he : ∀ p, f s ps p = ⟨regsOf d k (v p), predOf pd (b p), fl p⟩) (hf : d.fits k) (hp : s.poison = [])
    (hn : ps.Nodup) (hs : d.isW = true → ∀ p ∈ ps, ∀ q ∈ ps, tidFlock p = tidFlock q) :
    Writes s (alu f g ps s) ps d k v pd b fl := by
  have e : alu f g ps s = (s.applyAll (effects ps d k v pd b fl)).advance := by
    unfold alu effects
    have e1 : (fun t => (t, f s ps t)) = fun p => (p, (⟨regsOf d k (v p), predOf pd (b p), fl p⟩ : Effect)) := by
      funext p
      rw [he p]
    rw [e1]
  rw [e]
  have W := applyAll_writes d k v pd b fl hf ps s hp hn hs
  have S := same_advance (s.applyAll (effects ps d k v pd b fl))
  have hN : ∀ p m, (s.applyAll (effects ps d k v pd b fl)).advance.rdN p d m =
      (s.applyAll (effects ps d k v pd b fl)).rdN p d m := by
    intro p m
    induction m with
    | zero => rfl
    | succ m ih => simp only [rdN]; rw [ih, S.rd]
  exact ⟨W.kept.trans S.kept, fun h p hpm => (hN p k).trans (W.g h p hpm), fun h p hpm q hq => (hN p k).trans (W.w h p hpm q hq),
    fun q r h => (S.rd q r).trans (W.regs q r h), fun q c => (S.rdP q c).trans (W.preds q c),
    fun c x => (S.flags c x).trans (W.flags c x)⟩

/-! ### An instruction of R101 issued -/

theorem participants_sub {s : State} {g : Group} {i : Instr} {p : Nat} (h : p ∈ s.participants g i) : p ∈ g.members := by
  unfold participants at h
  split at h
  · exact (List.mem_filter.mp h).1
  · cases h

theorem participants_nodup {s : State} {g : Group} (i : Instr) (h : g.members.Nodup) : (s.participants g i).Nodup := by
  unfold participants
  split
  · exact h.filter _
  · exact List.nodup_nil

theorem usesWK_of_write {i : Instr} {d : Reg} {k : Nat} (h : (d, k) ∈ instrWrites i) (hw : d.isW = true) :
    instrUsesWK i = true := by
  unfold instrUsesWK
  have : (instrWrites i).any grpIsW = true := List.any_eq_true.mpr ⟨(d, k), h, hw⟩
  simp [this]

/-- An instruction of R101 with nothing in its way completes, and leaves what `Writes` says. -/
theorem exec_alu {s : State} {g : Group} {i : Instr} {f : State → List Nat → Nat → Effect} {d : Reg} {k : Nat}
    {v : Nat → Nat} {pd : Option Pred} {b : Nat → Bool} {fl : Nat → BitVec 7} (h : Clear s g i)
    (he : ∀ p, f s (s.participants g i) p = ⟨regsOf d k (v p), predOf pd (b p), fl p⟩) (hf : d.fits k)
    (hw : d.isW = true → instrUsesWK i = true) :
    ∃ t, aluMeaning i f s = .next t ∧ Writes s t (s.participants g i) d k v pd b fl := by
  refine ⟨_, congrArg Host.Outcome.next (issue_clear h _), alu_writes he hf h.clean (participants_nodup i h.distinct) ?_⟩
  intro hd p hp q hq
  exact h.flock (h.fu (hw hd)) p (participants_sub hp) q (participants_sub hq)

/-- An instruction over `aluMeaning` whose effect is a register group and flags computes what its effect says. -/
theorem computes_of {s : State} {g : Group} {i : Instr} {f : State → List Nat → Nat → Effect} {d : Reg} {k : Nat}
    {v : Nat → Nat} {fl : Nat → BitVec 7} (he : ∀ p, f s (s.participants g i) p = ⟨regsOf d k (v p), [], fl p⟩)
    (hw : d.isW = true → instrUsesWK i = true) (hx : exec i s = aluMeaning i f s) : Computes s g i d k v fl := by
  intro h hf
  rw [hx]
  exact exec_alu (pd := none) (b := fun _ => false) h he hf hw

/-- The same for an effect that is one predicate. -/
theorem tests_of {s : State} {g : Group} {i : Instr} {f : State → List Nat → Nat → Effect} {pd : Pred} {b : Nat → Bool}
    {fl : Nat → BitVec 7} (he : ∀ p, f s (s.participants g i) p = ⟨[], [(pd, b p)], fl p⟩)
    (hx : exec i s = aluMeaning i f s) : Tests s g i pd b fl := by
  intro h
  rw [hx]
  exact exec_alu (pd := some pd) (d := .zero) (k := 0) (v := fun _ => 0) h he trivial (fun h => by cases h)

/-- An effect that is a register group for every thread gives its numbers and flags as functions of the thread. -/
theorem reg_choose {f : State → List Nat → Nat → Effect} {s : State} {ps : List Nat} {d : Reg} {k : Nat}
    (h : ∀ p, ∃ (v : Nat) (fl : BitVec 7), f s ps p = .reg d k v fl) :
    ∃ (v : Nat → Nat) (fl : Nat → BitVec 7), ∀ p, f s ps p = ⟨regsOf d k (v p), [], fl p⟩ :=
  ⟨fun p => Classical.choose (h p), fun p => Classical.choose (Classical.choose_spec (h p)),
    fun p => Classical.choose_spec (Classical.choose_spec (h p))⟩

end Sys2Proof.Machine.State
end

