-- ==== Sys2Proof/Laws/Encoding.lean ====
section
/-!
SUPPORT. Lemmas of the encoding: a word read back gives the fields it was written from, and every code read
back gives what it stands for. `codes` and `readers` bundle them for `simp`.
-/

namespace Sys2Proof

/-! ### Fields of a word -/

theorem cat_lo {n m lo k : Nat} (x : BitVec n) (y : BitVec m) (h : lo + k ≤ m) :
    (x ++ y).extractLsb' lo k = y.extractLsb' lo k := by
  apply BitVec.eq_of_getLsbD_eq
  intro i hi
  simp [BitVec.getLsbD_append, hi]
  intro; omega

theorem cat_hi {n m lo k : Nat} (x : BitVec n) (y : BitVec m) (h : m ≤ lo) :
    (x ++ y).extractLsb' lo k = x.extractLsb' (lo - m) k := by
  apply BitVec.eq_of_getLsbD_eq
  intro i hi
  simp [BitVec.getLsbD_append, hi]
  rw [if_neg (by omega)]
  congr 1
  omega

theorem bit_lo {n m i : Nat} (x : BitVec n) (y : BitVec m) (h : i < m) : (x ++ y).getLsbD i = y.getLsbD i := by
  rw [BitVec.getLsbD_append]
  simp [h]

theorem bit_hi {n m i : Nat} (x : BitVec n) (y : BitVec m) (h : m ≤ i) :
    (x ++ y).getLsbD i = x.getLsbD (i - m) := by
  rw [BitVec.getLsbD_append]
  simp [Nat.not_lt.mpr h]

theorem extract_whole {n : Nat} (x : BitVec n) : x.extractLsb' 0 n = x := by simp

theorem ofWord_toWord_r (r : RForm) : RForm.ofWord r.toWord = r := by
  obtain ⟨op, pg, pn, d, a, b, c, ty, rm, var, sat, ftz, sub⟩ := r
  simp only [RForm.ofWord, RForm.toWord, fld, RForm.mk.injEq]
  refine ⟨?_, ?_, ?_, ?_, ?_, ?_, ?_, ?_, ?_, ?_, ?_, ?_, ?_⟩ <;>
    repeat first | exact extract_whole _ | (erw [cat_hi _ _ (by decide)]) | (erw [cat_lo _ _ (by decide)])

theorem ofWord_toWord_i (r : IForm) : IForm.ofWord r.toWord = r := by
  obtain ⟨op, pg, pn, d, a, mod4, imm⟩ := r
  simp only [IForm.ofWord, IForm.toWord, fld, IForm.mk.injEq]
  refine ⟨?_, ?_, ?_, ?_, ?_, ?_, ?_⟩ <;>
    repeat first | exact extract_whole _ | (erw [cat_hi _ _ (by decide)]) | (erw [cat_lo _ _ (by decide)])

theorem ofWord_toWord_m (r : MForm) : MForm.ofWord r.toWord = r := by
  obtain ⟨op, pg, pn, d, a, b, sc, sz, h, ord, aq, rl, sp, off⟩ := r
  simp only [MForm.ofWord, MForm.toWord, fld, MForm.mk.injEq]
  refine ⟨?_, ?_, ?_, ?_, ?_, ?_, ?_, ?_, ?_, ?_, ?_, ?_, ?_, ?_⟩ <;>
    repeat first | exact extract_whole _ | (erw [cat_hi _ _ (by decide)]) | (erw [cat_lo _ _ (by decide)])

theorem ofWord_toWord_b (r : BForm) : BForm.ofWord r.toWord = r := by
  obtain ⟨op, pg, pn, hint, a, pad, tgt⟩ := r
  simp only [BForm.ofWord, BForm.toWord, fld, BForm.mk.injEq]
  refine ⟨?_, ?_, ?_, ?_, ?_, ?_, ?_⟩ <;>
    repeat first | exact extract_whole _ | (erw [cat_hi _ _ (by decide)]) | (erw [cat_lo _ _ (by decide)])

theorem parse_r (f : RForm) (h : formOf f.op.toNat = .r) : parse f.toWord = parseR f := by
  have e : fld f.toWord 56 8 = f.op := congrArg RForm.op (ofWord_toWord_r f)
  unfold parse
  rw [e, h, ofWord_toWord_r]

theorem parse_i (f : IForm) (h : formOf f.op.toNat = .i) : parse f.toWord = parseI f := by
  have e : fld f.toWord 56 8 = f.op := congrArg IForm.op (ofWord_toWord_i f)
  unfold parse
  rw [e, h, ofWord_toWord_i]

theorem parse_m (f : MForm) (h : formOf f.op.toNat = .m) : parse f.toWord = parseM f := by
  have e : fld f.toWord 56 8 = f.op := congrArg MForm.op (ofWord_toWord_m f)
  unfold parse
  rw [e, h, ofWord_toWord_m]

theorem parse_b (f : BForm) (h : formOf f.op.toNat = .b) : parse f.toWord = parseB f := by
  have e : fld f.toWord 56 8 = f.op := congrArg BForm.op (ofWord_toWord_b f)
  unfold parse
  rw [e, h, ofWord_toWord_b]

/-! ### Codes -/

theorem ofNat_toNat_of_lt {w n : Nat} (h : n < 2 ^ w) : (BitVec.ofNat w n).toNat = n := by
  rw [BitVec.toNat_ofNat]
  exact Nat.mod_eq_of_lt h

theorem reg_code (r : Reg) : Reg.ofBits r.toBits = .ok r := by
  cases r with
  | g n =>
    have h : (BitVec.ofNat 8 n.val).toNat = n.val := ofNat_toNat_of_lt (by omega)
    simp only [Reg.toBits, Reg.ofBits, h, n.isLt, dif_pos]
  | w n =>
    have h : (BitVec.ofNat 8 (128 + n.val)).toNat = 128 + n.val := ofNat_toNat_of_lt (by omega)
    have h1 : ¬ (128 + n.val < 128) := by omega
    have h2 : 128 + n.val - 128 = n.val := by omega
    simp only [Reg.toBits, Reg.ofBits, h, h1, h2, n.isLt, dif_pos, dif_neg, not_false_iff]
  | zero =>
    have h1 : ¬ (Reg.zero.toBits.toNat < 128) := by decide
    have h2 : ¬ (Reg.zero.toBits.toNat - 128 < 64) := by decide
    exact (dif_neg h1).trans ((dif_neg h2).trans (if_pos rfl))

theorem pred_bits (p : Pred) : p.toBits.toNat = p.val + 240 := by
  have := p.isLt
  rw [Nat.add_comm]
  exact ofNat_toNat_of_lt (by omega)

theorem pred_code (p : Pred) : Pred.ofBits p.toBits = .ok p := by
  have h : 240 ≤ p.toBits.toNat ∧ p.toBits.toNat - 240 < 8 := by
    have := p.isLt
    have := pred_bits p
    omega
  have e : p.toBits.toNat - 240 = p.val := by have := pred_bits p; omega
  exact (dif_pos h).trans (congrArg Except.ok (Fin.ext e))

theorem guard_code (g : Guard) : Guard.ofBits g.pg g.pn = g := by
  obtain ⟨p, n⟩ := g
  have h : (BitVec.ofNat 3 p.val).toNat = p.val := ofNat_toNat_of_lt p.isLt
  have hp : (⟨(Guard.pg ⟨p, n⟩).toNat, (Guard.pg ⟨p, n⟩).isLt⟩ : Fin 8) = p := Fin.ext h
  simp only [Guard.ofBits]
  rw [hp]
  cases n <;> rfl

theorem ty_code (t : Ty) : Ty.ofBits t.toBits = .ok t := by cases t <;> rfl
theorem rm_code (t : Rm) : Rm.ofBits t.toBits = .ok t := by cases t <;> rfl
theorem scope_code (t : Scope) : Scope.ofBits t.toBits = .ok t := by cases t <;> rfl
theorem size_code (t : Size) : Size.ofBits t.toBits = .ok t := by cases t <;> rfl
theorem retain_code (t : Retain) : Retain.ofBits t.toBits = t := by cases t <;> rfl
theorem hint_code (t : BrHint) : BrHint.ofBits t.toBits = t := by cases t <;> rfl
theorem aop_code (t : Aop) : Aop.ofBits t.toBits = .ok t := by cases t <;> rfl
theorem aty_code (t : Aty) : Aty.ofBits t.toBits = .ok t := by cases t <;> rfl
theorem icond_code (t : ICond) : ICond.ofCode (BitVec.ofNat 4 t.toCode).toNat = .ok t := by cases t <;> rfl
theorem fcond_code (t : FCond) : FCond.ofCode (BitVec.ofNat 4 t.toCode).toNat = .ok t := by cases t <;> rfl
theorem wcond_code (t : WCond) : WCond.ofCode (BitVec.ofNat 3 t.toCode).toNat = .ok t := by cases t <;> rfl
theorem sp2_code (t : Space) : RForm.sp2 (RForm.sp2Bits t) = .ok t := by cases t <;> rfl
theorem bit1_code (b : Bool) : (bit1 b = 1#1) = (b = true) := by cases b <;> simp [bit1]

theorem bar_lt (b : Bar) : b.toCode < 24 := by
  cases b with
  | b n => exact Nat.lt_of_lt_of_le n.isLt (by decide)
  | bt n => show 16 + n.val < 24; omega

theorem bar_code (b : Bar) : Bar.ofCode b.toCode = .ok b := by
  cases b with
  | b n => exact dif_pos n.isLt
  | bt n =>
    have h1 : ¬ (16 + n.val < 16) := by omega
    have h2 : 16 + n.val - 16 < 8 := by omega
    unfold Bar.ofCode Bar.toCode
    rw [dif_neg h1, dif_pos h2]
    exact congrArg (fun k => Except.ok (Bar.bt k)) (Fin.ext (by show 16 + n.val - 16 = n.val; omega))

theorem bar8_code (b : Bar) : Bar.ofCode (RForm.barBits b).toNat = .ok b := by
  have h : (BitVec.ofNat 8 b.toCode).toNat = b.toCode :=
    ofNat_toNat_of_lt (Nat.lt_of_lt_of_le (bar_lt b) (by decide))
  rw [RForm.barBits, h, bar_code]

theorem k_code (k : KReg) : KReg.ofBits (BitVec.ofNat 8 k.val) = .ok k := by
  have h : (BitVec.ofNat 8 k.val).toNat = k.val := ofNat_toNat_of_lt (by omega)
  simp only [KReg.ofBits, h, k.isLt, dif_pos]

theorem fin8_code (n : Fin 256) : (⟨(BitVec.ofNat 8 n.val).toNat, (BitVec.ofNat 8 n.val).isLt⟩ : Fin 256) = n :=
  Fin.ext (ofNat_toNat_of_lt n.isLt)

theorem fin4_code (n : Fin 16) : (⟨(BitVec.ofNat 4 n.val).toNat, (BitVec.ofNat 4 n.val).isLt⟩ : Fin 16) = n :=
  Fin.ext (ofNat_toNat_of_lt n.isLt)

theorem fin6_code (n : Fin 64) : (⟨(BitVec.ofNat 6 n.val).toNat, (BitVec.ofNat 6 n.val).isLt⟩ : Fin 64) = n :=
  Fin.ext (ofNat_toNat_of_lt n.isLt)

theorem fin2_code (n : Fin 4) : (⟨(BitVec.ofNat 2 n.val).toNat, (BitVec.ofNat 2 n.val).isLt⟩ : Fin 4) = n :=
  Fin.ext (ofNat_toNat_of_lt n.isLt)

theorem ten_bits (x : BitVec 8) : x.extractLsb' 3 5 ++ x.extractLsb' 0 3 = x := by
  apply BitVec.eq_of_getElem_eq
  intro i hi
  rw [BitVec.getElem_append]
  by_cases h : i < 3
  · simp [h, BitVec.getLsbD_eq_getElem hi]
  · simp only [h, dite_false]
    rw [BitVec.getElem_extractLsb']
    have e : 3 + (i - 3) = i := by omega
    rw [e, BitVec.getLsbD_eq_getElem hi]

/-! ### Readers -/

/-- What each reader of a field answers, bundled for `simp`. -/
theorem readers :
    (∀ r : RForm, r.g = .ofBits r.pg r.pn) ∧ (∀ r : RForm, r.rD = Reg.ofBits r.d) ∧
    (∀ r : RForm, r.rA = Reg.ofBits r.a) ∧ (∀ r : RForm, r.rB = Reg.ofBits r.b) ∧
    (∀ r : RForm, r.rC = Reg.ofBits r.c) ∧ (∀ r : RForm, r.pD = Pred.ofBits r.d) ∧
    (∀ r : RForm, r.pA = Pred.ofBits r.a) ∧ (∀ r : RForm, r.pB = Pred.ofBits r.b) ∧
    (∀ r : RForm, r.pC = Pred.ofBits r.c) ∧ (∀ r : RForm, r.noD = mbz r.d) ∧ (∀ r : RForm, r.noA = mbz r.a) ∧
    (∀ r : RForm, r.noB = mbz r.b) ∧ (∀ r : RForm, r.noC = mbz r.c) ∧
    (∀ r : RForm, r.noVar = need (r.var = 0#4) .reservedCode) ∧
    (∀ r : RForm, r.noSub = need (r.sub = 0#6) .reservedCode) ∧
    (∀ r : RForm, r.noMod = (do mbz r.ty; mbz r.rm; mbz r.sat; mbz r.ftz)) ∧
    (∀ r : RForm, r.noRsf = (do mbz r.rm; mbz r.sat; mbz r.ftz)) ∧
    (∀ r : RForm, r.bar = Bar.ofCode r.c.toNat) ∧ (∀ r : RForm, r.k = KReg.ofBits r.c) ∧
    (∀ r : RForm, r.e = ⟨r.var.toNat, r.var.isLt⟩) ∧ (∀ r : RForm, r.tile = ⟨r.b.toNat, r.b.isLt⟩) ∧
    (∀ r : RForm, r.cnt = ⟨r.c.toNat, r.c.isLt⟩) ∧ (∀ r : RForm, r.tbl = r.ty ++ r.rm) ∧
    (∀ r : RForm, r.fmod = (do return ⟨← Ty.ofBits r.ty, ← Rm.ofBits r.rm, r.sat = 1#1, r.ftz = 1#1⟩)) ∧
    (∀ r m, RForm.withMod r m = { r with ty := m.ty.toBits, rm := m.rm.toBits, sat := bit1 m.sat, ftz := bit1 m.ftz }) ∧
    (∀ op g, RForm.blank op g = ⟨op, g.pg, g.pn, 0, 0, 0, 0, 0, 0, 0, 0, 0, 0⟩) ∧
    (∀ e, RForm.eBits e = BitVec.ofNat 4 e.val) := by
  refine ⟨?_, ?_, ?_, ?_, ?_, ?_, ?_, ?_, ?_, ?_, ?_, ?_, ?_, ?_, ?_, ?_, ?_, ?_, ?_, ?_, ?_, ?_, ?_, ?_, ?_, ?_, ?_⟩ <;>
    intros <;> rfl

/-- A field that is zero passes. -/
theorem mbz_zero (n : Nat) : mbz (0 : BitVec n) = .ok () := by simp [mbz, need]

theorem need_true (e : Reject) : need true e = .ok () := rfl

theorem ok_bind {α β : Type} (a : α) (f : α → Except Reject β) : (Except.ok a >>= f) = f a := rfl

theorem map_ok {α β : Type} (a : α) (f : α → β) : (f <$> (Except.ok a : Except Reject α)) = .ok (f a) := rfl

theorem pure_ok {α : Type} (a : α) : (pure a : Except Reject α) = .ok a := rfl

/-- Every code read back, bundled for `simp`. -/
theorem codes :
    (∀ r : Reg, Reg.ofBits r.toBits = .ok r) ∧ (∀ p, Pred.ofBits (Pred.toBits p) = .ok p) ∧
    (∀ g : Guard, Guard.ofBits g.pg g.pn = g) ∧ (∀ t : Ty, Ty.ofBits t.toBits = .ok t) ∧
    (∀ t : Rm, Rm.ofBits t.toBits = .ok t) ∧ (∀ t : Scope, Scope.ofBits t.toBits = .ok t) ∧
    (∀ t : Size, Size.ofBits t.toBits = .ok t) ∧ (∀ t : Retain, Retain.ofBits t.toBits = t) ∧
    (∀ t : BrHint, BrHint.ofBits t.toBits = t) ∧ (∀ t : Aop, Aop.ofBits t.toBits = .ok t) ∧
    (∀ t : Aty, Aty.ofBits t.toBits = .ok t) ∧
    (∀ t : ICond, ICond.ofCode (BitVec.ofNat 4 t.toCode).toNat = .ok t) ∧
    (∀ t : FCond, FCond.ofCode (BitVec.ofNat 4 t.toCode).toNat = .ok t) ∧
    (∀ t : WCond, WCond.ofCode (BitVec.ofNat 3 t.toCode).toNat = .ok t) ∧
    (∀ b, (bit1 b = 1#1) = (b = true)) ∧
    (∀ b : Bar, Bar.ofCode (RForm.barBits b).toNat = .ok b) ∧
    (∀ k : KReg, KReg.ofBits (BitVec.ofNat 8 k.val) = .ok k) ∧
    (∀ n, mbz (0 : BitVec n) = .ok ()) ∧ (∀ n, mbz (0#n) = .ok ()) ∧ (∀ e, need true e = .ok ()) :=
  ⟨reg_code, pred_code, guard_code, ty_code, rm_code, scope_code, size_code, retain_code, hint_code, aop_code,
    aty_code, icond_code, fcond_code, wcond_code, bit1_code, bar8_code, k_code, mbz_zero, mbz_zero, need_true⟩

/-- What each reader of an M-format field answers, bundled for `simp`. -/
theorem mReaders :
    (∀ r : MForm, r.g = .ofBits r.pg r.pn) ∧ (∀ r : MForm, r.size = Size.ofBits r.sz) ∧
    (∀ r : MForm, r.hint = Retain.ofBits r.h) ∧ (∀ r : MForm, r.noHint = need (r.h = 1#2) .mustBeZero) ∧
    (∀ r : MForm, r.noSync = (do mbz r.ord; mbz r.aq; mbz r.rl; mbz r.sp)) ∧
    (∀ r : MForm, r.sync = (do return ⟨r.aq = 1#1, r.rl = 1#1, ← Scope.ofBits r.sc⟩)) ∧
    (∀ r : MForm, r.aop = Aop.ofBits (r.off.extractLsb' 10 4)) ∧
    (∀ r : MForm, r.aty = Aty.ofBits (r.off.extractLsb' 6 4)) ∧
    (∀ r : MForm, r.ofs = r.off.extractLsb' 0 6) ∧
    (∀ r s, MForm.withSync r s = { r with sc := s.scope.toBits, aq := bit1 s.acq, rl := bit1 s.rel }) ∧
    (∀ op g, MForm.blank op g = ⟨op, g.pg, g.pn, 0, 0, 0, 0, 0, 1, 0, 0, 0, 0, 0⟩) := by
  refine ⟨?_, ?_, ?_, ?_, ?_, ?_, ?_, ?_, ?_, ?_, ?_⟩ <;> intros <;> rfl

theorem opt_code (s : Option Scope) (r : MForm) (h : r.sc = MForm.scBits s) : r.opt (bit1 s.isSome) = .ok s := by
  unfold MForm.opt
  rw [h]
  cases s with
  | none => rfl
  | some s =>
    show (do return some (← Scope.ofBits s.toBits)) = Except.ok (some s)
    rw [scope_code]
    rfl

theorem team_code (t : Bool) (r : MForm) (h : r.sp = MForm.teamBits t) : r.team = .ok t := by
  unfold MForm.team
  rw [h]
  cases t <;> rfl

theorem off_aop (o : BitVec 4) (t : Aty) (f : BitVec 6) : (MForm.atomOff o t f).extractLsb' 10 4 = o := by
  unfold MForm.atomOff
  repeat first | exact extract_whole _ | (erw [cat_hi _ _ (by decide)])

theorem off_aty (o : BitVec 4) (t : Aty) (f : BitVec 6) : (MForm.atomOff o t f).extractLsb' 6 4 = t.toBits := by
  unfold MForm.atomOff
  repeat first | exact extract_whole _ | (erw [cat_hi _ _ (by decide)]) | (erw [cat_lo _ _ (by decide)])

theorem off_ofs (o : BitVec 4) (t : Aty) (f : BitVec 6) : (MForm.atomOff o t f).extractLsb' 0 6 = f := by
  unfold MForm.atomOff
  repeat first | exact extract_whole _ | (erw [cat_hi _ _ (by decide)]) | (erw [cat_lo _ _ (by decide)])

/-- A number below 2 ^ w read back from w bits, in each width that the encodings use. -/
theorem fins :
    (∀ (n : Fin 256) h, (⟨(BitVec.ofNat 8 n.val).toNat, h⟩ : Fin 256) = n) ∧
    (∀ (n : Fin 16) h, (⟨(BitVec.ofNat 4 n.val).toNat, h⟩ : Fin 16) = n) ∧
    (∀ (n : Fin 64) h, (⟨(BitVec.ofNat 6 n.val).toNat, h⟩ : Fin 64) = n) ∧
    (∀ (n : Fin 4) h, (⟨(BitVec.ofNat 2 n.val).toNat, h⟩ : Fin 4) = n) :=
  ⟨fun n _ => fin8_code n, fun n _ => fin4_code n, fun n _ => fin6_code n, fun n _ => fin2_code n⟩

/-- The same after `simp` has computed the remainder. -/
theorem finMods :
    (∀ (n : Fin 256) h, (⟨n.val % 256, h⟩ : Fin 256) = n) ∧ (∀ (n : Fin 16) h, (⟨n.val % 16, h⟩ : Fin 16) = n) ∧
    (∀ (n : Fin 64) h, (⟨n.val % 64, h⟩ : Fin 64) = n) ∧ (∀ (n : Fin 4) h, (⟨n.val % 4, h⟩ : Fin 4) = n) :=
  ⟨fun n _ => Fin.ext (Nat.mod_eq_of_lt n.isLt), fun n _ => Fin.ext (Nat.mod_eq_of_lt n.isLt),
    fun n _ => Fin.ext (Nat.mod_eq_of_lt n.isLt), fun n _ => Fin.ext (Nat.mod_eq_of_lt n.isLt)⟩


/-! ### Composite fields -/

theorem code_hi (c : BitVec 16) : (0#16 ++ c).extractLsb' 16 16 = 0#16 := by
  rw [cat_hi _ _ (by decide)]
  exact extract_whole _

theorem code_lo (c : BitVec 16) : (0#16 ++ c).extractLsb' 0 16 = c := by
  rw [cat_lo _ _ (by decide)]
  exact extract_whole _

theorem num_hi (c : BitVec 12) : (0#20 ++ c).extractLsb' 12 20 = 0#20 := by
  rw [cat_hi _ _ (by decide)]
  exact extract_whole _

theorem num_lo (c : BitVec 12) : (0#20 ++ c).extractLsb' 0 12 = c := by
  rw [cat_lo _ _ (by decide)]
  exact extract_whole _

theorem src_hi (c : BitVec 5) : (0#3 ++ c).extractLsb' 5 3 = 0#3 := by
  rw [cat_hi _ _ (by decide)]
  exact extract_whole _

theorem src_lo (c : BitVec 5) : (0#3 ++ c).extractLsb' 0 5 = c := by
  rw [cat_lo _ _ (by decide)]
  exact extract_whole _

/-- The four thresholds of WAITC (R288). -/
theorem thr_bits (a b c d : BitVec 6) :
    (0#8 ++ a ++ b ++ c ++ d).extractLsb' 24 8 = 0#8 ∧ (0#8 ++ a ++ b ++ c ++ d).extractLsb' 18 6 = a ∧
    (0#8 ++ a ++ b ++ c ++ d).extractLsb' 12 6 = b ∧ (0#8 ++ a ++ b ++ c ++ d).extractLsb' 6 6 = c ∧
    (0#8 ++ a ++ b ++ c ++ d).extractLsb' 0 6 = d := by
  refine ⟨?_, ?_, ?_, ?_, ?_⟩ <;>
    repeat first | exact extract_whole _ | (erw [cat_hi _ _ (by decide)]) | (erw [cat_lo _ _ (by decide)])

theorem table_bits (t : BitVec 8) : t.extractLsb' 3 5 ++ t.extractLsb' 0 3 = t := ten_bits t

theorem comb_op (r : RForm) (c : PComb) : (r.withComb c).op = r.op := by cases c <;> rfl

theorem wait_hi (x : BitVec 3) : (0#5 ++ x).extractLsb' 3 5 = 0#5 := by
  rw [cat_hi _ _ (by decide)]
  exact extract_whole _

theorem wait_lo (x : BitVec 3) : (0#5 ++ x).extractLsb' 0 3 = x := by
  rw [cat_lo _ _ (by decide)]
  exact extract_whole _

/-- The bits of SUB in WAIT (R217). -/
theorem wait_sub (a b c : Bool) (d : BitVec 3) :
    (bit1 a ++ bit1 b ++ bit1 c ++ d).getLsbD 5 = a ∧ (bit1 a ++ bit1 b ++ bit1 c ++ d).getLsbD 4 = b ∧
    (bit1 a ++ bit1 b ++ bit1 c ++ d).getLsbD 3 = c ∧ (bit1 a ++ bit1 b ++ bit1 c ++ d).extractLsb' 0 3 = d := by
  refine ⟨?_, ?_, ?_, ?_⟩
  · rw [bit_hi _ _ (by decide), bit_hi _ _ (by decide), bit_hi _ _ (by decide)]
    cases a <;> rfl
  · rw [bit_hi _ _ (by decide), bit_hi _ _ (by decide), bit_lo _ _ (by decide)]
    cases b <;> rfl
  · rw [bit_hi _ _ (by decide), bit_lo _ _ (by decide)]
    cases c <;> rfl
  · rw [cat_lo _ _ (by decide)]
    exact extract_whole _

theorem glue {w : Nat} (x : BitVec w) (lo n m : Nat) :
    x.extractLsb' (lo + n) m ++ x.extractLsb' lo n = x.extractLsb' lo (m + n) := by
  apply BitVec.eq_of_getElem_eq
  intro i hi
  rw [BitVec.getElem_append]
  by_cases h : i < n
  · simp [h]
  · have e : lo + n + (i - n) = lo + i := by omega
    simp [h, e]

/-- R245: bits [19:0] written as copy options read back. -/
theorem copyBits_with (r : RForm) (f : BitVec 20) : (r.withCopy f).copyBits = f := by
  show f.extractLsb' 15 5 ++ f.extractLsb' 12 3 ++ f.extractLsb' 8 4 ++ f.extractLsb' 7 1 ++ f.extractLsb' 6 1 ++
    f.extractLsb' 0 6 = f
  have h1 := glue f 12 3 5
  have h2 := glue f 8 4 8
  have h3 := glue f 7 1 12
  have h4 := glue f 6 1 13
  have h5 := glue f 0 6 14
  simp only [Nat.reduceAdd] at h1 h2 h3 h4 h5
  erw [h1, h2, h3, h4, h5]
  exact extract_whole f

/-- A field of a field. -/
theorem sub_field {w : Nat} (x : BitVec w) (lo n a k : Nat) (h : a + k ≤ n) :
    x.extractLsb' (lo + a) k = (x.extractLsb' lo n).extractLsb' a k := by
  apply BitVec.eq_of_getElem_eq
  intro i hi
  simp only [BitVec.getElem_extractLsb', BitVec.getLsbD_extractLsb']
  rw [Nat.add_assoc]
  simp
  omega

theorem sub_bit {w : Nat} (x : BitVec w) (lo n a : Nat) (h : a < n) :
    x.getLsbD (lo + a) = (x.extractLsb' lo n).getLsbD a := by
  simp [h]

theorem cb_code (r : RForm) (c : Option (Fin 4)) (h : r.copyBits.extractLsb' 12 3 = RForm.cbBits c) :
    r.cbOpt = .ok c := by
  have h1 : r.copyBits.getLsbD 14 = (RForm.cbBits c).getLsbD 2 := by rw [← h]; exact sub_bit _ 12 3 2 (by decide)
  have h2 : r.copyBits.extractLsb' 12 2 = (RForm.cbBits c).extractLsb' 0 2 := by
    rw [← h]; exact sub_field _ 12 3 0 2 (by decide)
  unfold RForm.cbOpt
  simp only [h1, h2]
  match c with
  | none => rfl
  | some 0 => rfl
  | some 1 => rfl
  | some 2 => rfl
  | some 3 => rfl

theorem bar5_code (b : Bar) : Bar.ofCode (BitVec.ofNat 5 b.toCode).toNat = .ok b := by
  have h : (BitVec.ofNat 5 b.toCode).toNat = b.toCode :=
    ofNat_toNat_of_lt (Nat.lt_of_lt_of_le (bar_lt b) (by decide))
  rw [h, bar_code]

theorem arv_code (r : RForm) (b : Option Bar) (x : Bool) (h : r.copyBits.extractLsb' 0 8 = RForm.arvBits b x) :
    r.arvBar = .ok b := by
  have h1 : r.copyBits.getLsbD 7 = (RForm.arvBits b x).getLsbD 7 := by
    rw [← h]; exact sub_bit r.copyBits 0 8 7 (by decide)
  have h2 : r.copyBits.extractLsb' 0 5 = (RForm.arvBits b x).extractLsb' 0 5 := by
    rw [← h]; exact sub_field r.copyBits 0 8 0 5 (by decide)
  unfold RForm.arvBar
  simp only [h1, h2]
  cases b with
  | none => cases x <;> rfl
  | some b =>
    have e : (RForm.arvBits (some b) x).extractLsb' 0 5 = BitVec.ofNat 5 b.toCode := by
      show (1#1 ++ bit1 x ++ 0#1 ++ BitVec.ofNat 5 b.toCode).extractLsb' 0 5 = _
      rw [cat_lo _ _ (by decide)]
      exact extract_whole _
    have e7 : (RForm.arvBits (some b) x).getLsbD 7 = true := by
      show (1#1 ++ bit1 x ++ 0#1 ++ BitVec.ofNat 5 b.toCode).getLsbD 7 = true
      rw [bit_hi _ _ (by decide), bit_hi _ _ (by decide), bit_hi _ _ (by decide)]
      rfl
    simp only [e7, e, if_true, bar5_code]
    rfl

/-- R250, R260: the fields of CPY and CPYST read from bits [19:0]. -/
theorem cpy_bits (z : BitVec 5) (cb : Option (Fin 4)) (d s : Space) (b : Option Bar) (f : BitVec 20)
    (h : f = z ++ RForm.cbBits cb ++ RForm.sp2Bits d ++ RForm.sp2Bits s ++ RForm.arvBits b false) :
    f.extractLsb' 19 1 = z.extractLsb' 4 1 ∧ f.extractLsb' 15 4 = z.extractLsb' 0 4 ∧ f.extractLsb' 15 5 = z ∧
    f.extractLsb' 12 3 = RForm.cbBits cb ∧ f.extractLsb' 10 2 = RForm.sp2Bits d ∧
    f.extractLsb' 8 2 = RForm.sp2Bits s ∧ f.extractLsb' 0 8 = RForm.arvBits b false ∧
    f.extractLsb' 5 2 = 0#2 := by
  subst h
  refine ⟨?_, ?_, ?_, ?_, ?_, ?_, ?_, ?_⟩
  case refine_8 =>
    erw [cat_lo _ _ (by decide)]
    cases b with
    | none => rfl
    | some b =>
      show (1#1 ++ bit1 false ++ 0#1 ++ BitVec.ofNat 5 b.toCode).extractLsb' 5 2 = 0#2
      rw [cat_hi _ _ (by decide)]
      rfl
  all_goals repeat first | rfl | exact extract_whole _ | (erw [cat_hi _ _ (by decide)]) | (erw [cat_lo _ _ (by decide)])

/-- R252: the fields of CPYT read from bits [19:0]. -/
theorem cpyt_bits (mc : BitVec 4) (t : BitVec 2) (st dr : Bool) (b : Option Bar) (f : BitVec 20)
    (h : f = 0#1 ++ mc ++ 0#3 ++ 0#1 ++ t ++ bit1 st ++ RForm.arvBits b dr) :
    f.extractLsb' 19 1 = 0#1 ∧ f.extractLsb' 15 4 = mc ∧ f.extractLsb' 12 3 = 0#3 ∧ f.extractLsb' 11 1 = 0#1 ∧
    f.extractLsb' 9 2 = t ∧ f.getLsbD 8 = st ∧ f.extractLsb' 0 8 = RForm.arvBits b dr ∧ f.getLsbD 6 = dr ∧
    f.extractLsb' 5 1 = 0#1 := by
  have h8 : f.extractLsb' 0 8 = RForm.arvBits b dr := by
    subst h
    erw [cat_lo _ _ (by decide)]
    exact extract_whole _
  have hst : f.extractLsb' 8 1 = bit1 st := by
    subst h
    repeat first | exact extract_whole _ | (erw [cat_hi _ _ (by decide)]) | (erw [cat_lo _ _ (by decide)])
  refine ⟨?_, ?_, ?_, ?_, ?_, ?_, h8, ?_, ?_⟩
  case refine_6 =>
    have e : f.getLsbD (8 + 0) = (f.extractLsb' 8 1).getLsbD 0 := sub_bit f 8 1 0 (by decide)
    rw [hst] at e
    rw [e]
    cases st <;> rfl
  case refine_7 =>
    have e : f.getLsbD (0 + 6) = (f.extractLsb' 0 8).getLsbD 6 := sub_bit f 0 8 6 (by decide)
    rw [h8] at e
    rw [e]
    cases b with
    | none => cases dr <;> rfl
    | some b =>
      show (1#1 ++ bit1 dr ++ 0#1 ++ BitVec.ofNat 5 b.toCode).getLsbD 6 = dr
      rw [bit_hi _ _ (by decide), bit_hi _ _ (by decide), bit_lo _ _ (by decide)]
      cases dr <;> rfl
  case refine_8 =>
    have e : f.extractLsb' (0 + 5) 1 = (f.extractLsb' 0 8).extractLsb' 5 1 := sub_field f 0 8 5 1 (by decide)
    rw [h8] at e
    rw [e]
    cases b with
    | none => cases dr <;> rfl
    | some b =>
      show (1#1 ++ bit1 dr ++ 0#1 ++ BitVec.ofNat 5 b.toCode).extractLsb' 5 1 = 0#1
      rw [cat_hi _ _ (by decide), cat_lo _ _ (by decide)]
      rfl
  all_goals
    subst h
    repeat first | exact extract_whole _ | (erw [cat_hi _ _ (by decide)]) | (erw [cat_lo _ _ (by decide)])


/-! ### The reader of each opcode -/

theorem parseR_0A (f : RForm) (h : f.op = 0x0A#8) : parseR f = f.op0A := by
  unfold parseR
  rw [h]
  rfl

theorem parseR_0B (f : RForm) (h : f.op = 0x0B#8) : parseR f = f.op0B := by
  unfold parseR
  rw [h]
  rfl

theorem parseR_14 (f : RForm) (h : f.op = 0x14#8) : parseR f = f.op14 := by
  unfold parseR
  rw [h]
  rfl

theorem parseR_17 (f : RForm) (h : f.op = 0x17#8) : parseR f = f.op17 := by
  unfold parseR
  rw [h]
  rfl

theorem parseR_1B (f : RForm) (h : f.op = 0x1B#8) : parseR f = f.op1B := by
  unfold parseR
  rw [h]
  rfl

theorem parseR_1F (f : RForm) (h : f.op = 0x1F#8) : parseR f = f.op1F := by
  unfold parseR
  rw [h]
  rfl

theorem parseR_26 (f : RForm) (h : f.op = 0x26#8) : parseR f = f.op26 := by
  unfold parseR
  rw [h]
  rfl

theorem parseR_28 (f : RForm) (h : f.op = 0x28#8) : parseR f = f.op28 := by
  unfold parseR
  rw [h]
  rfl

theorem parseR_2C (f : RForm) (h : f.op = 0x2C#8) : parseR f = f.op2C := by
  unfold parseR
  rw [h]
  rfl

theorem parseR_2E (f : RForm) (h : f.op = 0x2E#8) : parseR f = f.op2E := by
  unfold parseR
  rw [h]
  rfl

theorem parseR_36 (f : RForm) (h : f.op = 0x36#8) : parseR f = f.op36 := by
  unfold parseR
  rw [h]
  rfl

theorem parseR_38 (f : RForm) (h : f.op = 0x38#8) : parseR f = f.op38 := by
  unfold parseR
  rw [h]
  rfl

theorem parseR_40 (f : RForm) (h : f.op = 0x40#8) : parseR f = f.op40 := by
  unfold parseR
  rw [h]
  rfl

theorem parseR_41 (f : RForm) (h : f.op = 0x41#8) : parseR f = f.op41 := by
  unfold parseR
  rw [h]
  rfl

theorem parseR_42 (f : RForm) (h : f.op = 0x42#8) : parseR f = f.op42 := by
  unfold parseR
  rw [h]
  rfl

theorem parseR_4B (f : RForm) (h : f.op = 0x4B#8) : parseR f = f.op4B := by
  unfold parseR
  rw [h]
  rfl

theorem parseR_4C (f : RForm) (h : f.op = 0x4C#8) : parseR f = f.op4C := by
  unfold parseR
  rw [h]
  rfl

theorem parseR_4D (f : RForm) (h : f.op = 0x4D#8) : parseR f = f.op4D := by
  unfold parseR
  rw [h]
  rfl

theorem parseR_50 (f : RForm) (h : f.op = 0x50#8) : parseR f = f.op50 := by
  unfold parseR
  rw [h]
  rfl

theorem parseR_51 (f : RForm) (h : f.op = 0x51#8) : parseR f = f.op51 := by
  unfold parseR
  rw [h]
  rfl

theorem parseR_52 (f : RForm) (h : f.op = 0x52#8) : parseR f = f.op52 := by
  unfold parseR
  rw [h]
  rfl

theorem parseR_53 (f : RForm) (h : f.op = 0x53#8) : parseR f = f.op53 := by
  unfold parseR
  rw [h]
  rfl

theorem parseR_54 (f : RForm) (h : f.op = 0x54#8) : parseR f = f.op54 := by
  unfold parseR
  rw [h]
  rfl

theorem parseR_55 (f : RForm) (h : f.op = 0x55#8) : parseR f = f.op55 := by
  unfold parseR
  rw [h]
  rfl

theorem parseR_68 (f : RForm) (h : f.op = 0x68#8) : parseR f = f.op68 := by
  unfold parseR
  rw [h]
  rfl

theorem parseR_75 (f : RForm) (h : f.op = 0x75#8) : parseR f = f.op75 := by
  unfold parseR
  rw [h]
  rfl

theorem parseR_76 (f : RForm) (h : f.op = 0x76#8) : parseR f = f.op76 := by
  unfold parseR
  rw [h]
  rfl

theorem parseR_77 (f : RForm) (h : f.op = 0x77#8) : parseR f = f.op77 := by
  unfold parseR
  rw [h]
  rfl

theorem parseR_80 (f : RForm) (h : f.op = 0x80#8) : parseR f = f.op80 := by
  unfold parseR
  rw [h]
  rfl

theorem parseR_81 (f : RForm) (h : f.op = 0x81#8) : parseR f = f.op81 := by
  unfold parseR
  rw [h]
  rfl

theorem parseR_82 (f : RForm) (h : f.op = 0x82#8) : parseR f = f.op82 := by
  unfold parseR
  rw [h]
  rfl

theorem parseR_83 (f : RForm) (h : f.op = 0x83#8) : parseR f = f.op83 := by
  unfold parseR
  rw [h]
  rfl

theorem parseR_84 (f : RForm) (h : f.op = 0x84#8) : parseR f = f.op84 := by
  unfold parseR
  rw [h]
  rfl

theorem parseR_85 (f : RForm) (h : f.op = 0x85#8) : parseR f = f.op85 := by
  unfold parseR
  rw [h]
  rfl

theorem parseR_86 (f : RForm) (h : f.op = 0x86#8) : parseR f = f.op86 := by
  unfold parseR
  rw [h]
  rfl

theorem parseR_87 (f : RForm) (h : f.op = 0x87#8) : parseR f = f.op87 := by
  unfold parseR
  rw [h]
  rfl

theorem parseR_88 (f : RForm) (h : f.op = 0x88#8) : parseR f = f.op88 := by
  unfold parseR
  rw [h]
  rfl

theorem parseR_89 (f : RForm) (h : f.op = 0x89#8) : parseR f = f.op89 := by
  unfold parseR
  rw [h]
  rfl

theorem parseR_8A (f : RForm) (h : f.op = 0x8A#8) : parseR f = f.op8A := by
  unfold parseR
  rw [h]
  rfl

theorem parseR_8B (f : RForm) (h : f.op = 0x8B#8) : parseR f = f.op8B := by
  unfold parseR
  rw [h]
  rfl

theorem parseR_94 (f : RForm) (h : f.op = 0x94#8) : parseR f = f.op94 := by
  unfold parseR
  rw [h]
  rfl

theorem parseR_95 (f : RForm) (h : f.op = 0x95#8) : parseR f = f.op95 := by
  unfold parseR
  rw [h]
  rfl

theorem parseR_96 (f : RForm) (h : f.op = 0x96#8) : parseR f = f.op96 := by
  unfold parseR
  rw [h]
  rfl

theorem parseR_97 (f : RForm) (h : f.op = 0x97#8) : parseR f = f.op97 := by
  unfold parseR
  rw [h]
  rfl

theorem parseR_B0 (f : RForm) (h : f.op = 0xB0#8) : parseR f = f.opB0 := by
  unfold parseR
  rw [h]
  rfl

theorem parseR_B1 (f : RForm) (h : f.op = 0xB1#8) : parseR f = f.opB1 := by
  unfold parseR
  rw [h]
  rfl

theorem parseR_B2 (f : RForm) (h : f.op = 0xB2#8) : parseR f = f.opB2 := by
  unfold parseR
  rw [h]
  rfl

theorem parseR_B3 (f : RForm) (h : f.op = 0xB3#8) : parseR f = f.opB3 := by
  unfold parseR
  rw [h]
  rfl

theorem parseR_B4 (f : RForm) (h : f.op = 0xB4#8) : parseR f = f.opB4 := by
  unfold parseR
  rw [h]
  rfl

theorem parseR_B5 (f : RForm) (h : f.op = 0xB5#8) : parseR f = f.opB5 := by
  unfold parseR
  rw [h]
  rfl

theorem parseR_B6 (f : RForm) (h : f.op = 0xB6#8) : parseR f = f.opB6 := by
  unfold parseR
  rw [h]
  rfl

theorem parseR_B8 (f : RForm) (h : f.op = 0xB8#8) : parseR f = f.opB8 := by
  unfold parseR
  rw [h]
  rfl

theorem parseR_C0 (f : RForm) (h : f.op = 0xC0#8) : parseR f = f.opC0 := by
  unfold parseR
  rw [h]
  rfl

theorem parseR_C1 (f : RForm) (h : f.op = 0xC1#8) : parseR f = f.opC1 := by
  unfold parseR
  rw [h]
  rfl

theorem parseR_C2 (f : RForm) (h : f.op = 0xC2#8) : parseR f = f.opC2 := by
  unfold parseR
  rw [h]
  rfl

theorem parseR_C3 (f : RForm) (h : f.op = 0xC3#8) : parseR f = f.opC3 := by
  unfold parseR
  rw [h]
  rfl

theorem parseR_C4 (f : RForm) (h : f.op = 0xC4#8) : parseR f = f.opC4 := by
  unfold parseR
  rw [h]
  rfl

theorem parseR_C5 (f : RForm) (h : f.op = 0xC5#8) : parseR f = f.opC5 := by
  unfold parseR
  rw [h]
  rfl

theorem parseR_D2 (f : RForm) (h : f.op = 0xD2#8) : parseR f = f.opD2 := by
  unfold parseR
  rw [h]
  rfl

theorem parseR_D3 (f : RForm) (h : f.op = 0xD3#8) : parseR f = f.opD3 := by
  unfold parseR
  rw [h]
  rfl

theorem parseR_D4 (f : RForm) (h : f.op = 0xD4#8) : parseR f = f.opD4 := by
  unfold parseR
  rw [h]
  rfl

theorem parseR_D5 (f : RForm) (h : f.op = 0xD5#8) : parseR f = f.opD5 := by
  unfold parseR
  rw [h]
  rfl

theorem parseR_D6 (f : RForm) (h : f.op = 0xD6#8) : parseR f = f.opD6 := by
  unfold parseR
  rw [h]
  rfl

theorem parseR_D7 (f : RForm) (h : f.op = 0xD7#8) : parseR f = f.opD7 := by
  unfold parseR
  rw [h]
  rfl

theorem parseR_D8 (f : RForm) (h : f.op = 0xD8#8) : parseR f = f.opD8 := by
  unfold parseR
  rw [h]
  rfl

theorem parseI_0C (f : IForm) (h : f.op = 0x0C#8) : parseI f = f.op0C := by
  unfold parseI
  rw [h]
  rfl

theorem parseI_0D (f : IForm) (h : f.op = 0x0D#8) : parseI f = f.op0D := by
  unfold parseI
  rw [h]
  rfl

theorem parseI_0E (f : IForm) (h : f.op = 0x0E#8) : parseI f = f.op0E := by
  unfold parseI
  rw [h]
  rfl

theorem parseI_20 (f : IForm) (h : f.op = 0x20#8) : parseI f = f.op20 := by
  unfold parseI
  rw [h]
  rfl

theorem parseI_21 (f : IForm) (h : f.op = 0x21#8) : parseI f = f.op21 := by
  unfold parseI
  rw [h]
  rfl

theorem parseI_22 (f : IForm) (h : f.op = 0x22#8) : parseI f = f.op22 := by
  unfold parseI
  rw [h]
  rfl

theorem parseI_24 (f : IForm) (h : f.op = 0x24#8) : parseI f = f.op24 := by
  unfold parseI
  rw [h]
  rfl

theorem parseI_25 (f : IForm) (h : f.op = 0x25#8) : parseI f = f.op25 := by
  unfold parseI
  rw [h]
  rfl

theorem parseI_D0 (f : IForm) (h : f.op = 0xD0#8) : parseI f = f.opD0 := by
  unfold parseI
  rw [h]
  rfl

theorem parseI_D1 (f : IForm) (h : f.op = 0xD1#8) : parseI f = f.opD1 := by
  unfold parseI
  rw [h]
  rfl

theorem parseM_60 (f : MForm) (h : f.op = 0x60#8) : parseM f = f.op60 := by
  unfold parseM
  rw [h]
  rfl

theorem parseM_61 (f : MForm) (h : f.op = 0x61#8) : parseM f = f.op61 := by
  unfold parseM
  rw [h]
  rfl

theorem parseM_62 (f : MForm) (h : f.op = 0x62#8) : parseM f = f.op62 := by
  unfold parseM
  rw [h]
  rfl

theorem parseM_63 (f : MForm) (h : f.op = 0x63#8) : parseM f = f.op63 := by
  unfold parseM
  rw [h]
  rfl

theorem parseM_64 (f : MForm) (h : f.op = 0x64#8) : parseM f = f.op64 := by
  unfold parseM
  rw [h]
  rfl

theorem parseM_65 (f : MForm) (h : f.op = 0x65#8) : parseM f = f.op65 := by
  unfold parseM
  rw [h]
  rfl

theorem parseM_66 (f : MForm) (h : f.op = 0x66#8) : parseM f = f.op66 := by
  unfold parseM
  rw [h]
  rfl

theorem parseM_67 (f : MForm) (h : f.op = 0x67#8) : parseM f = f.op67 := by
  unfold parseM
  rw [h]
  rfl

theorem parseM_70 (f : MForm) (h : f.op = 0x70#8) : parseM f = f.op70 := by
  unfold parseM
  rw [h]
  rfl

theorem parseM_71 (f : MForm) (h : f.op = 0x71#8) : parseM f = f.op71 := by
  unfold parseM
  rw [h]
  rfl

theorem parseM_72 (f : MForm) (h : f.op = 0x72#8) : parseM f = f.op72 := by
  unfold parseM
  rw [h]
  rfl

theorem parseM_73 (f : MForm) (h : f.op = 0x73#8) : parseM f = f.op73 := by
  unfold parseM
  rw [h]
  rfl

theorem parseM_74 (f : MForm) (h : f.op = 0x74#8) : parseM f = f.op74 := by
  unfold parseM
  rw [h]
  rfl

theorem parseB_01 (f : BForm) (h : f.op = 0x01#8) : parseB f = f.op01 := by
  unfold parseB
  rw [h]
  rfl

theorem parseB_02 (f : BForm) (h : f.op = 0x02#8) : parseB f = f.op02 := by
  unfold parseB
  rw [h]
  rfl

theorem parseB_03 (f : BForm) (h : f.op = 0x03#8) : parseB f = f.op03 := by
  unfold parseB
  rw [h]
  rfl

theorem parseB_04 (f : BForm) (h : f.op = 0x04#8) : parseB f = f.op04 := by
  unfold parseB
  rw [h]
  rfl

theorem parseB_05 (f : BForm) (h : f.op = 0x05#8) : parseB f = f.op05 := by
  unfold parseB
  rw [h]
  rfl

end Sys2Proof
end

