-- ==== Sys2Proof/Laws/PerInstr.lean ====
section
/-!
SUPPORT. The family RoundTrip: the word of a well-formed instruction decodes to that instruction, one lemma per
constructor of Instr. An event has no word.
-/

namespace Sys2Proof.Laws.RoundTrip

open Sys2Proof

/-- The word that `encode` gives a well-formed instruction decodes to it (R50 step 1, R53 to R57). -/
def Statement (i : Instr) : Prop := ∀ w, encode i = some w → WellFormed i → decode w = .ok i

theorem of_parse {i : Instr} {w : W64} (h : parse w = .ok i) (hi : WellFormed i) : decode w = .ok i := by
  unfold decode
  rw [h]
  show (match i.check with | none => Except.ok i | some r => .error r) = .ok i
  rw [hi]

theorem of_r {i : Instr} {f : RForm} (hf : i.fields = .r f) (ho : formOf f.op.toNat = .r)
    (h : parseR f = .ok i) : Statement i := by
  intro w hw hi
  simp only [encode, hf, Option.some.injEq] at hw
  subst hw
  exact of_parse ((parse_r f ho).trans h) hi

theorem of_i {i : Instr} {f : IForm} (hf : i.fields = .i f) (ho : formOf f.op.toNat = .i)
    (h : parseI f = .ok i) : Statement i := by
  intro w hw hi
  simp only [encode, hf, Option.some.injEq] at hw
  subst hw
  exact of_parse ((parse_i f ho).trans h) hi

theorem of_m {i : Instr} {f : MForm} (hf : i.fields = .m f) (ho : formOf f.op.toNat = .m)
    (h : parseM f = .ok i) : Statement i := by
  intro w hw hi
  simp only [encode, hf, Option.some.injEq] at hw
  subst hw
  exact of_parse ((parse_m f ho).trans h) hi

theorem of_b {i : Instr} {f : BForm} (hf : i.fields = .b f) (ho : formOf f.op.toNat = .b)
    (h : parseB f = .ok i) : Statement i := by
  intro w hw hi
  simp only [encode, hf, Option.some.injEq] at hw
  subst hw
  exact of_parse ((parse_b f ho).trans h) hi

theorem of_event {i : Instr} (h : encode i = none) : Statement i := by
  intro w hw
  rw [h] at hw
  cases hw

set_option linter.unusedSimpArgs false

/-! ### Shared shapes -/

theorem guardOnly_rt (op : BitVec 8) (f : G → Instr) (x : G) :
    (RForm.ofG op x).guardOnly f = .ok (f x) := by
  cases x
  simp [RForm.ofG, RForm.guardOnly, readers, codes, finMods, ok_bind, pure_ok, map_ok]

theorem karg_rt (op : BitVec 8) (f : KArgs → Instr) (x : KArgs) :
    (RForm.ofK op x).karg f = .ok (f x) := by
  cases x
  simp [RForm.ofK, RForm.karg, readers, codes, finMods, ok_bind, pure_ok, map_ok]

theorem binS_rt (op : BitVec 8) (f : BinS → Instr) (x : BinS) :
    (RForm.ofBinS op x).binS f = .ok (f x) := by
  cases x
  simp [RForm.ofBinS, RForm.binS, readers, codes, finMods, ok_bind, pure_ok, map_ok]

theorem bin_rt (op : BitVec 8) (f : Bin → Instr) (x : Bin) :
    (RForm.ofBin op x).bin f = .ok (f x) := by
  cases x
  simp [RForm.ofBin, RForm.bin, readers, codes, finMods, ok_bind, pure_ok, map_ok]

theorem shiftV_rt (op : BitVec 8) (f : Shift → Instr) (x : Shift) :
    (RForm.ofShift op x).shiftV f = .ok (f x) := by
  obtain ⟨g, d, a, b, t, alt⟩ := x
  cases alt <;> simp [RForm.ofShift, RForm.shiftV, readers, codes, finMods, ok_bind, pure_ok, map_ok]

theorem un_rt (op : BitVec 8) (f : Un → Instr) (x : Un) :
    (RForm.ofUn op x).un f = .ok (f x) := by
  cases x
  simp [RForm.ofUn, RForm.un, readers, codes, finMods, ok_bind, pure_ok, map_ok]

theorem fun1_rt (op : BitVec 8) (f : FUn → Instr) (x : FUn) :
    (RForm.ofFUn op x).fun1 f = .ok (f x) := by
  cases x
  simp [RForm.ofFUn, RForm.fun1, readers, codes, finMods, ok_bind, pure_ok, map_ok]

theorem fbin_rt (op : BitVec 8) (f : FBin → Instr) (x : FBin) :
    (RForm.ofFBin op x).fbin f = .ok (f x) := by
  cases x
  simp [RForm.ofFBin, RForm.fbin, readers, codes, finMods, ok_bind, pure_ok, map_ok]

theorem ftern_rt (op : BitVec 8) (f : FTern → Instr) (x : FTern) :
    (RForm.ofFTern op x).ftern f = .ok (f x) := by
  cases x
  simp [RForm.ofFTern, RForm.ftern, readers, codes, finMods, ok_bind, pure_ok, map_ok]

theorem fminmax_rt (op : BitVec 8) (f : FMinMax → Instr) (x : FMinMax) :
    (RForm.ofFMinMax op x).fminmax f = .ok (f x) := by
  cases x
  simp [RForm.ofFMinMax, RForm.fminmax, readers, codes, finMods, ok_bind, pure_ok, map_ok]

theorem hbin_rt (op : BitVec 8) (f : HBin → Instr) (x : HBin) :
    (RForm.ofHBin op x).hbin f = .ok (f x) := by
  obtain ⟨g, d, a, b, sel, m⟩ := x
  cases sel <;> simp [RForm.ofHBin, RForm.hbin, RForm.selBits, RForm.bsel, readers, codes, finMods, ok_bind, pure_ok, map_ok]

theorem dst_rt (op : BitVec 8) (v : BitVec 4) (f : DstArgs → Instr) (x : DstArgs) :
    (RForm.ofDst op v x).dst f = .ok (f x) := by
  cases x
  simp [RForm.ofDst, RForm.dst, readers, codes, finMods, ok_bind, pure_ok, map_ok]

theorem da_rt (op : BitVec 8) (v : BitVec 4) (f : DA → Instr) (x : DA) :
    (RForm.ofDA op v x).da f = .ok (f x) := by
  cases x
  simp [RForm.ofDA, RForm.da, readers, codes, finMods, ok_bind, pure_ok, map_ok]

theorem dab_rt (op : BitVec 8) (v : BitVec 4) (f : DAB → Instr) (x : DAB) :
    (RForm.ofDAB op v x).dab f = .ok (f x) := by
  cases x
  simp [RForm.ofDAB, RForm.dab, readers, codes, finMods, ok_bind, pure_ok, map_ok]

theorem dabc_rt (op : BitVec 8) (v : BitVec 4) (f : DABC → Instr) (x : DABC) :
    (RForm.ofDABC op v x).dabc f = .ok (f x) := by
  cases x
  simp [RForm.ofDABC, RForm.dabc, readers, codes, finMods, ok_bind, pure_ok, map_ok]

theorem barD_rt (op : BitVec 8) (v : BitVec 4) (f : BarD → Instr) (x : BarD) :
    (RForm.ofBarD op v x).barD f = .ok (f x) := by
  cases x
  simp [RForm.ofBarD, RForm.barD, readers, codes, finMods, ok_bind, pure_ok, map_ok]

theorem coll_rt (op : BitVec 8) (f : Collective → Instr) (x : Collective) :
    (RForm.ofColl op x).coll f = .ok (f x) := by
  cases x
  simp [RForm.ofColl, RForm.coll, readers, codes, finMods, ok_bind, pure_ok, map_ok]

/-! ### One lemma per constructor -/

theorem nop (x) : Statement (.nop x) := of_r rfl rfl (guardOnly_rt 0x00 .nop x)

theorem bra (x) : Statement (.bra x) :=
  of_b rfl rfl (by cases x; exact (parseB_01 _ rfl).trans (by simp [BForm.op01, BForm.blank, BForm.ofBr, BForm.ofBrx, BForm.g, BForm.hintOf, readers, codes, finMods, ok_bind, pure_ok, map_ok]))

theorem brx (x) : Statement (.brx x) :=
  of_b rfl rfl (by cases x; exact (parseB_02 _ rfl).trans (by simp [BForm.op02, BForm.blank, BForm.ofBr, BForm.ofBrx, BForm.g, BForm.hintOf, readers, codes, finMods, ok_bind, pure_ok, map_ok]))

theorem call (x) : Statement (.call x) :=
  of_b rfl rfl (by cases x; exact (parseB_03 _ rfl).trans (by simp [BForm.op03, BForm.blank, BForm.ofBr, BForm.ofBrx, BForm.g, BForm.hintOf, readers, codes, finMods, ok_bind, pure_ok, map_ok]))

theorem callx (x) : Statement (.callx x) :=
  of_b rfl rfl (by cases x; exact (parseB_04 _ rfl).trans (by simp [BForm.op04, BForm.blank, BForm.ofBr, BForm.ofBrx, BForm.g, BForm.hintOf, readers, codes, finMods, ok_bind, pure_ok, map_ok]))

theorem ret (x) : Statement (.ret x) :=
  of_b rfl rfl (by cases x; exact (parseB_05 _ rfl).trans (by simp [BForm.op05, BForm.blank, BForm.ofBr, BForm.ofBrx, BForm.g, BForm.hintOf, readers, codes, finMods, ok_bind, pure_ok, map_ok]))

theorem exit (x) : Statement (.exit x) := of_r rfl rfl (guardOnly_rt 0x06 .exit x)

theorem yield (x) : Statement (.yield x) := of_r rfl rfl (guardOnly_rt 0x07 .yield x)

theorem join (x) : Statement (.join x) := of_r rfl rfl (karg_rt 0x08 .join x)

theorem leave (x) : Statement (.leave x) := of_r rfl rfl (karg_rt 0x09 .leave x)

theorem waitm (x) : Statement (.waitm x) :=
  of_r rfl rfl (by cases x; exact (parseR_0A _ rfl).trans (by simp [RForm.op0A, RForm.ofTiles, RForm.ofDAB, readers, codes, finMods, ok_bind, pure_ok, map_ok]))

theorem kmovMem (x) : Statement (.kmovMem x) :=
  of_r rfl rfl (by cases x; exact (parseR_0B _ rfl).trans (by simp [RForm.op0B, RForm.ofTiles, RForm.ofDAB, readers, codes, finMods, ok_bind, pure_ok, map_ok]))

theorem kmovArr (x) : Statement (.kmovArr x) :=
  of_r rfl rfl (by cases x; exact (parseR_0B _ rfl).trans (by simp [RForm.op0B, RForm.ofTiles, RForm.ofDAB, readers, codes, finMods, ok_bind, pure_ok, map_ok]))

theorem kmovSet (x) : Statement (.kmovSet x) :=
  of_r rfl rfl (by cases x; exact (parseR_0B _ rfl).trans (by simp [RForm.op0B, RForm.ofTiles, RForm.ofDAB, readers, codes, finMods, ok_bind, pure_ok, map_ok]))

theorem kmovClr (x) : Statement (.kmovClr x) :=
  of_r rfl rfl (by cases x; exact (parseR_0B _ rfl).trans (by simp [RForm.op0B, RForm.ofTiles, RForm.ofDAB, readers, codes, finMods, ok_bind, pure_ok, map_ok]))

theorem bkpt (x) : Statement (.bkpt x) :=
  of_i rfl rfl ((parseI_0C _ rfl).trans (by
    cases x; simp [IForm.op0C, IForm.ofCode, IForm.blank, IForm.g, code_hi, code_lo, readers, codes, finMods, ok_bind, pure_ok, map_ok]))

theorem trap (x) : Statement (.trap x) :=
  of_i rfl rfl ((parseI_0D _ rfl).trans (by
    cases x; simp [IForm.op0D, IForm.ofCode, IForm.blank, IForm.g, code_hi, code_lo, readers, codes, finMods, ok_bind, pure_ok, map_ok]))

theorem waitc (x) : Statement (.waitc x) :=
  of_i rfl rfl ((parseI_0E _ rfl).trans (by
    cases x; simp only [IForm.op0E, IForm.blank, IForm.g, thr_bits, readers, codes, finMods, ok_bind, pure_ok, map_ok]))

theorem cont (x) : Statement (.cont x) := of_r rfl rfl (guardOnly_rt 0x0F .cont x)

theorem iadd (x) : Statement (.iadd x) := of_r rfl rfl (binS_rt 0x10 .iadd x)

theorem isub (x) : Statement (.isub x) := of_r rfl rfl (binS_rt 0x11 .isub x)

theorem imul (x) : Statement (.imul x) := of_r rfl rfl (binS_rt 0x12 .imul x)

theorem imulh (x) : Statement (.imulh x) := of_r rfl rfl (bin_rt 0x13 .imulh x)

theorem imad (x) : Statement (.imad x) :=
  of_r rfl rfl (by cases x; exact (parseR_14 _ rfl).trans (by simp [RForm.op14, RForm.ofTiles, RForm.ofDAB, readers, codes, finMods, ok_bind, pure_ok, map_ok]))

theorem imin (x) : Statement (.imin x) := of_r rfl rfl (bin_rt 0x15 .imin x)

theorem imax (x) : Statement (.imax x) := of_r rfl rfl (bin_rt 0x16 .imax x)

theorem iabs (x) : Statement (.iabs x) :=
  of_r rfl rfl (by cases x; exact (parseR_17 _ rfl).trans (by simp [RForm.op17, RForm.ofTiles, RForm.ofDAB, readers, codes, finMods, ok_bind, pure_ok, map_ok]))

theorem and (x) : Statement (.and x) := of_r rfl rfl (bin_rt 0x18 .and x)

theorem or (x) : Statement (.or x) := of_r rfl rfl (bin_rt 0x19 .or x)

theorem xor (x) : Statement (.xor x) := of_r rfl rfl (bin_rt 0x1A .xor x)

theorem lop3 (x) : Statement (.lop3 x) :=
  of_r rfl rfl ((parseR_1B _ rfl).trans (by
    obtain ⟨g, d, a, b, c, tbl, wide⟩ := x
    cases wide <;> simp [RForm.op1B, RForm.withTbl, table_bits, readers, codes, finMods, ok_bind, pure_ok, map_ok]))

theorem shl (x) : Statement (.shl x) := of_r rfl rfl (bin_rt 0x1C .shl x)

theorem shr (x) : Statement (.shr x) := of_r rfl rfl (shiftV_rt 0x1D .shr x)

theorem rot (x) : Statement (.rot x) := of_r rfl rfl (shiftV_rt 0x1E .rot x)

theorem sel (x) : Statement (.sel x) :=
  of_r rfl rfl (by cases x; exact (parseR_1F _ rfl).trans (by simp [RForm.op1F, RForm.ofTiles, RForm.ofDAB, readers, codes, finMods, ok_bind, pure_ok, map_ok]))

theorem iaddi (x) : Statement (.iaddi x) :=
  of_i rfl rfl ((parseI_20 _ rfl).trans (by
    obtain ⟨g, d, a, wide, sat, imm⟩ := x
    cases sat <;> cases wide <;> simp [IForm.op20, IForm.ofImm, IForm.immSat, IForm.blank, IForm.g, bit1, readers, codes, finMods, ok_bind, pure_ok, map_ok]))

theorem imuli (x) : Statement (.imuli x) :=
  of_i rfl rfl ((parseI_21 _ rfl).trans (by
    obtain ⟨g, d, a, wide, sat, imm⟩ := x
    cases sat <;> cases wide <;> simp [IForm.op21, IForm.ofImm, IForm.immSat, IForm.blank, IForm.g, bit1, readers, codes, finMods, ok_bind, pure_ok, map_ok]))

theorem lopi (x) : Statement (.lopi x) :=
  of_i rfl rfl ((parseI_22 _ rfl).trans (by
    obtain ⟨g, d, a, op, wide, imm⟩ := x
    cases op <;> cases wide <;> simp [IForm.op22, IForm.blank, IForm.g, bit1, readers, codes, finMods, ok_bind, pure_ok, map_ok]))

theorem movi (x) : Statement (.movi x) :=
  of_i rfl rfl ((parseI_24 _ rfl).trans (by
    obtain ⟨g, d, wide, imm⟩ := x
    cases wide <;> simp [IForm.op24, IForm.blank, IForm.g, bit1, readers, codes, finMods, ok_bind, pure_ok, map_ok]))

theorem movhi (x) : Statement (.movhi x) :=
  of_i rfl rfl (by cases x; exact (parseI_25 _ rfl).trans (by simp [IForm.op25, IForm.blank, IForm.g, IForm.ofCode, readers, codes, finMods, ok_bind, pure_ok, map_ok]))

theorem lea (x) : Statement (.lea x) :=
  of_r rfl rfl (by cases x; exact (parseR_26 _ rfl).trans (by simp [RForm.op26, RForm.ofTiles, RForm.ofDAB, readers, codes, finMods, ok_bind, pure_ok, map_ok]))

theorem bfe (x) : Statement (.bfe x) := of_r rfl rfl (bin_rt 0x27 .bfe x)

theorem bfi (x) : Statement (.bfi x) :=
  of_r rfl rfl (by cases x; exact (parseR_28 _ rfl).trans (by simp [RForm.op28, RForm.ofTiles, RForm.ofDAB, readers, codes, finMods, ok_bind, pure_ok, map_ok]))

theorem popc (x) : Statement (.popc x) := of_r rfl rfl (un_rt 0x29 .popc x)

theorem clz (x) : Statement (.clz x) := of_r rfl rfl (un_rt 0x2A .clz x)

theorem brev (x) : Statement (.brev x) := of_r rfl rfl (un_rt 0x2B .brev x)

theorem mov (x) : Statement (.mov x) := of_r rfl rfl (un_rt 0x2D .mov x)

theorem isetp (x) : Statement (.isetp x) :=
  by
    obtain ⟨g, d, a, b, ty, cond, comb⟩ := x
    cases comb <;>
      exact of_r rfl rfl ((parseR_2C _ rfl).trans (by
        simp only [RForm.op2C, RForm.withComb, RForm.comb, readers, codes, finMods, ok_bind, pure_ok, map_ok]; simp [readers, codes, finMods, ok_bind, pure_ok, map_ok]))

theorem pset (x) : Statement (.pset x) :=
  of_r rfl rfl ((parseR_2E _ rfl).trans (by
    cases x; simp [RForm.op2E, RForm.withTbl, table_bits, readers, codes, finMods, ok_bind, pure_ok, map_ok]))

theorem fadd (x) : Statement (.fadd x) := of_r rfl rfl (fbin_rt 0x30 .fadd x)

theorem fsub (x) : Statement (.fsub x) := of_r rfl rfl (fbin_rt 0x31 .fsub x)

theorem fmul (x) : Statement (.fmul x) := of_r rfl rfl (fbin_rt 0x32 .fmul x)

theorem ffma (x) : Statement (.ffma x) := of_r rfl rfl (ftern_rt 0x33 .ffma x)

theorem fscale (x) : Statement (.fscale x) := of_r rfl rfl (fbin_rt 0x3E .fscale x)

theorem frnd (x) : Statement (.frnd x) := of_r rfl rfl (fun1_rt 0x3D .frnd x)

theorem fmin (x) : Statement (.fmin x) := of_r rfl rfl (fminmax_rt 0x34 .fmin x)

theorem fmax (x) : Statement (.fmax x) := of_r rfl rfl (fminmax_rt 0x35 .fmax x)

theorem fsetp (x) : Statement (.fsetp x) :=
  by
    obtain ⟨g, d, a, b, ty, cond, comb, ftz⟩ := x
    cases comb <;>
      exact of_r rfl rfl ((parseR_36 _ rfl).trans (by
        simp only [RForm.op36, RForm.withComb, RForm.comb, readers, codes, finMods, ok_bind, pure_ok, map_ok]; simp [readers, codes, finMods, ok_bind, pure_ok, map_ok]))

theorem fclass (x) : Statement (.fclass x) := of_r rfl rfl (un_rt 0x37 .fclass x)

theorem hfma2 (x) : Statement (.hfma2 x) :=
  of_r rfl rfl ((parseR_38 _ rfl).trans (by
    obtain ⟨g, d, a, b, c, sel, m⟩ := x
    cases sel <;> simp [RForm.op38, RForm.selBits, RForm.bsel, readers, codes, finMods, ok_bind, pure_ok, map_ok]))

theorem hadd2 (x) : Statement (.hadd2 x) := of_r rfl rfl (hbin_rt 0x39 .hadd2 x)

theorem hmul2 (x) : Statement (.hmul2 x) := of_r rfl rfl (hbin_rt 0x3A .hmul2 x)

theorem dot4 (x) : Statement (.dot4 x) := of_r rfl rfl (ftern_rt 0x3B .dot4 x)

theorem dot2 (x) : Statement (.dot2 x) := of_r rfl rfl (ftern_rt 0x3C .dot2 x)

theorem cvt (x) : Statement (.cvt x) :=
  of_r rfl rfl ((parseR_40 _ rfl).trans (by
    cases x; simp [RForm.op40, src_hi, src_lo, readers, codes, finMods, ok_bind, pure_ok, map_ok]))

theorem frcp (x) : Statement (.frcp x) := of_r rfl rfl (fun1_rt 0x43 .frcp x)

theorem frsq (x) : Statement (.frsq x) := of_r rfl rfl (fun1_rt 0x44 .frsq x)

theorem fsqrt (x) : Statement (.fsqrt x) := of_r rfl rfl (fun1_rt 0x45 .fsqrt x)

theorem fexp2 (x) : Statement (.fexp2 x) := of_r rfl rfl (fun1_rt 0x46 .fexp2 x)

theorem flog2 (x) : Statement (.flog2 x) := of_r rfl rfl (fun1_rt 0x47 .flog2 x)

theorem fsin (x) : Statement (.fsin x) := of_r rfl rfl (fun1_rt 0x48 .fsin x)

theorem fcos (x) : Statement (.fcos x) := of_r rfl rfl (fun1_rt 0x49 .fcos x)

theorem ftanh (x) : Statement (.ftanh x) := of_r rfl rfl (fun1_rt 0x4A .ftanh x)

theorem qscale (x) : Statement (.qscale x) :=
  of_r rfl rfl ((parseR_4B _ rfl).trans (by
    obtain ⟨g, d, a, ty, big⟩ := x
    cases big <;> simp [RForm.op4B, readers, codes, finMods, ok_bind, pure_ok, map_ok]))

theorem pack (x) : Statement (.pack x) :=
  of_r rfl rfl (by cases x; exact (parseR_41 _ rfl).trans (by simp [RForm.op41, RForm.ofTiles, RForm.ofDAB, readers, codes, finMods, ok_bind, pure_ok, map_ok]))

theorem unpack (x) : Statement (.unpack x) :=
  of_r rfl rfl ((parseR_42 _ rfl).trans (by
    obtain ⟨g, d, a, b, part, m⟩ := x
    match part with
    | 0 => simp [RForm.op42, readers, codes, finMods, ok_bind, pure_ok, map_ok]
    | 1 => simp [RForm.op42, readers, codes, finMods, ok_bind, pure_ok, map_ok]
    | 2 => simp [RForm.op42, readers, codes, finMods, ok_bind, pure_ok, map_ok]))

theorem fxaadd (x) : Statement (.fxaadd x) :=
  of_r rfl rfl ((parseR_4C _ rfl).trans (by
    obtain ⟨g, d, a, b, sub⟩ := x
    cases sub <;> simp [RForm.op4C, readers, codes, finMods, ok_bind, pure_ok, map_ok]))

theorem fxacvt (x) : Statement (.fxacvt x) :=
  by
    obtain ⟨g, d, a, b, dir⟩ := x
    cases dir with
    | out m => exact of_r rfl rfl ((parseR_4D _ rfl).trans (by simp [RForm.op4D, readers, codes, finMods, ok_bind, pure_ok, map_ok]))
    | into t f => exact of_r rfl rfl ((parseR_4D _ rfl).trans (by simp [RForm.op4D, readers, codes, finMods, ok_bind, pure_ok, map_ok]))
    | anchor => exact of_r rfl rfl ((parseR_4D _ rfl).trans (by simp [RForm.op4D, readers, codes, finMods, ok_bind, pure_ok, map_ok]))

theorem shfl (x) : Statement (.shfl x) :=
  by
    obtain ⟨g, d, a, b, c, ty, mode⟩ := x
    cases c <;> cases mode <;>
      exact of_r rfl rfl ((parseR_50 _ rfl).trans (by simp [RForm.op50, readers, codes, finMods, ok_bind, pure_ok, map_ok]))

theorem vote (x) : Statement (.vote x) :=
  by
    obtain ⟨g, a, form⟩ := x
    cases form <;> exact of_r rfl rfl ((parseR_51 _ rfl).trans (by simp [RForm.op51, readers, codes, finMods, ok_bind, pure_ok, map_ok]))

theorem matchLanes (x) : Statement (.matchLanes x) :=
  by
    obtain ⟨g, d, a, ty, form⟩ := x
    cases form <;> exact of_r rfl rfl ((parseR_52 _ rfl).trans (by simp [RForm.op52, readers, codes, finMods, ok_bind, pure_ok, map_ok]))

theorem redux (x) : Statement (.redux x) :=
  of_r rfl rfl ((parseR_53 _ rfl).trans (by
    obtain ⟨g, d, a, op, scan, m⟩ := x
    cases op <;> cases scan <;> simp [RForm.op53, readers, codes, finMods, ok_bind, pure_ok, map_ok]))

theorem active (x) : Statement (.active x) :=
  of_r rfl rfl ((parseR_55 _ rfl).trans (by
    obtain ⟨g, d, part⟩ := x
    cases part <;> simp [RForm.op55, readers, codes, finMods, ok_bind, pure_ok, map_ok]))

theorem prmt (x) : Statement (.prmt x) :=
  of_r rfl rfl (by cases x; exact (parseR_54 _ rfl).trans (by simp [RForm.op54, RForm.ofTiles, RForm.ofDAB, readers, codes, finMods, ok_bind, pure_ok, map_ok]))

theorem ld (x) : Statement (.ld x) :=
  of_m rfl rfl ((parseM_60 _ rfl).trans (by
    cases x; simp [MForm.op60, opt_code, mReaders, readers, codes, finMods, ok_bind, pure_ok, map_ok]))

theorem st (x) : Statement (.st x) :=
  of_m rfl rfl ((parseM_61 _ rfl).trans (by
    cases x; simp [MForm.op61, opt_code, mReaders, readers, codes, finMods, ok_bind, pure_ok, map_ok]))

theorem lds (x) : Statement (.lds x) :=
  of_m rfl rfl ((parseM_62 _ rfl).trans (by
    obtain ⟨g, d, base, team, size, acq, off⟩ := x
    cases team <;> simp [MForm.op62, MForm.team, MForm.teamBits, opt_code, mReaders, readers, codes, finMods, ok_bind, pure_ok, map_ok]))

theorem sts (x) : Statement (.sts x) :=
  of_m rfl rfl ((parseM_63 _ rfl).trans (by
    obtain ⟨g, base, data, team, size, rel, off⟩ := x
    cases team <;> simp [MForm.op63, MForm.team, MForm.teamBits, opt_code, mReaders, readers, codes, finMods, ok_bind, pure_ok, map_ok]))

theorem ldw (x) : Statement (.ldw x) :=
  of_m rfl rfl ((parseM_64 _ rfl).trans (by
    obtain ⟨g, d, base, scratch, size, hint, acq, off⟩ := x
    cases scratch <;> simp [MForm.op64, opt_code, mReaders, readers, codes, finMods, ok_bind, pure_ok, map_ok]))

theorem pref (x) : Statement (.pref x) :=
  of_m rfl rfl (by cases x; exact (parseM_65 _ rfl).trans (by simp [MForm.op65, MForm.blank, MForm.scBits, mReaders, readers, codes, finMods, ok_bind, pure_ok, map_ok]))

theorem cctlWb (x) : Statement (.cctlWb x) :=
  of_m rfl rfl (by cases x; exact (parseM_66 _ rfl).trans (by simp [MForm.op66, MForm.blank, MForm.scBits, mReaders, readers, codes, finMods, ok_bind, pure_ok, map_ok]))

theorem cctlWbr (x) : Statement (.cctlWbr x) :=
  of_m rfl rfl (by cases x; exact (parseM_66 _ rfl).trans (by simp [MForm.op66, MForm.blank, MForm.scBits, mReaders, readers, codes, finMods, ok_bind, pure_ok, map_ok]))

theorem cctlWball (x) : Statement (.cctlWball x) :=
  of_m rfl rfl ((parseM_66 _ rfl).trans (by
    cases x; simp [MForm.op66, Reg.toBits, mReaders, readers, codes, finMods, ok_bind, pure_ok, map_ok]))

theorem cctlInv (x) : Statement (.cctlInv x) :=
  of_m rfl rfl ((parseM_66 _ rfl).trans (by
    cases x; simp [MForm.op66, Reg.toBits, mReaders, readers, codes, finMods, ok_bind, pure_ok, map_ok]))

theorem cctlEvl (x) : Statement (.cctlEvl x) :=
  of_m rfl rfl (by cases x; exact (parseM_66 _ rfl).trans (by simp [MForm.op66, MForm.blank, MForm.scBits, mReaders, readers, codes, finMods, ok_bind, pure_ok, map_ok]))

theorem stbq (x) : Statement (.stbq x) :=
  of_m rfl rfl (by cases x; exact (parseM_67 _ rfl).trans (by simp [MForm.op67, MForm.blank, MForm.scBits, mReaders, readers, codes, finMods, ok_bind, pure_ok, map_ok]))

theorem drain (x) : Statement (.drain x) :=
  of_r rfl rfl (by cases x; exact (parseR_68 _ rfl).trans (by simp [RForm.op68, RForm.ofTiles, RForm.ofDAB, readers, codes, finMods, ok_bind, pure_ok, map_ok]))

theorem atom (x) : Statement (.atom x) :=
  of_m rfl rfl ((parseM_70 _ rfl).trans (by
    cases x; simp [MForm.op70, off_aop, off_aty, off_ofs, mReaders, readers, codes, finMods, ok_bind, pure_ok, map_ok]))

theorem red (x) : Statement (.red x) :=
  of_m rfl rfl ((parseM_71 _ rfl).trans (by
    cases x; simp [MForm.op71, off_aop, off_aty, off_ofs, mReaders, readers, codes, finMods, ok_bind, pure_ok, map_ok]))

theorem cas (x) : Statement (.cas x) :=
  of_m rfl rfl ((parseM_72 _ rfl).trans (by
    cases x; simp [MForm.op72, off_aop, off_aty, off_ofs, mReaders, readers, codes, finMods, ok_bind, pure_ok, map_ok]))

theorem atoms (x) : Statement (.atoms x) :=
  of_m rfl rfl ((parseM_73 _ rfl).trans (by
    obtain ⟨g, d, base, team, b, aop, aty, sync, ofs⟩ := x
    cases team <;> simp [MForm.op73, MForm.team, MForm.teamBits, off_aop, off_aty, off_ofs, mReaders, readers, codes, finMods, ok_bind, pure_ok, map_ok]))

theorem fence (x) : Statement (.fence x) :=
  of_m rfl rfl (by cases x; exact (parseM_74 _ rfl).trans (by simp [MForm.op74, MForm.blank, MForm.scBits, mReaders, readers, codes, finMods, ok_bind, pure_ok, map_ok]))

theorem wait (x) : Statement (.wait x) :=
  of_r rfl rfl ((parseR_75 _ rfl).trans (by
    obtain ⟨g, d, base, b, ty, e, scratch, acq, ext, cond⟩ := x
    cases acq with
    | none =>
      simp only [RForm.op75, wait_hi, wait_sub, MForm.scBits, Option.isSome, readers, codes, finMods, ok_bind, pure_ok, map_ok]
      simp [readers, codes, finMods, ok_bind, pure_ok, map_ok]
    | some sc =>
      simp only [RForm.op75, wait_hi, wait_lo, wait_sub, MForm.scBits, Option.isSome, readers, codes, finMods, ok_bind, pure_ok, map_ok]
      simp [readers, codes, finMods, ok_bind, pure_ok, map_ok]))

theorem ptime (x) : Statement (.ptime x) :=
  of_r rfl rfl (by cases x; exact (parseR_76 _ rfl).trans (by simp [RForm.op76, RForm.ofDst, RForm.dst, readers, codes, finMods, ok_bind, pure_ok, map_ok]))

theorem ptimeUntil (x) : Statement (.ptimeUntil x) :=
  of_r rfl rfl (by cases x; exact (parseR_76 _ rfl).trans (by simp [RForm.op76, RForm.ofDA, RForm.da, readers, codes, finMods, ok_bind, pure_ok, map_ok]))

theorem wmark (x) : Statement (.wmark x) :=
  of_r rfl rfl (by cases x; exact (parseR_77 _ rfl).trans (by simp [RForm.op77, RForm.ofDA, RForm.da, readers, codes, finMods, ok_bind, pure_ok, map_ok]))

theorem wmarkWait (x) : Statement (.wmarkWait x) :=
  of_r rfl rfl (by cases x; exact (parseR_77 _ rfl).trans (by simp [RForm.op77, RForm.ofTiles, RForm.ofDAB, readers, codes, finMods, ok_bind, pure_ok, map_ok]))

theorem talloc (x) : Statement (.talloc x) :=
  of_r rfl rfl (by cases x; exact (parseR_80 _ rfl).trans (by simp [RForm.op80, RForm.ofTiles, RForm.ofDAB, readers, codes, finMods, ok_bind, pure_ok, map_ok]))

theorem tfree (x) : Statement (.tfree x) :=
  of_r rfl rfl (by cases x; exact (parseR_81 _ rfl).trans (by simp [RForm.op81, RForm.ofTiles, RForm.ofDAB, readers, codes, finMods, ok_bind, pure_ok, map_ok]))

theorem tstat (x) : Statement (.tstat x) :=
  of_r rfl rfl (by cases x; exact (parseR_82 _ rfl).trans (by simp [RForm.op82, RForm.ofTiles, RForm.ofDAB, readers, codes, finMods, ok_bind, pure_ok, map_ok]))

theorem tstatWait (x) : Statement (.tstatWait x) :=
  of_r rfl rfl (by cases x; exact (parseR_82 _ rfl).trans (by simp [RForm.op82, RForm.ofTiles, RForm.ofDAB, readers, codes, finMods, ok_bind, pure_ok, map_ok]))

theorem tset (x) : Statement (.tset x) :=
  of_r rfl rfl (by cases x; exact (parseR_83 _ rfl).trans (by simp [RForm.op83, RForm.ofTiles, RForm.ofDAB, readers, codes, finMods, ok_bind, pure_ok, map_ok]))

theorem cpy (x) : Statement (.cpy x) :=
  by
    obtain ⟨g, src, dst, shape, dsp, ssp, ⟨mc, cb, bar⟩⟩ := x
    refine of_r rfl rfl ((parseR_84 _ rfl).trans ?_)
    generalize hr : RForm.withCopy _ _ = r
    have hf := congrArg RForm.copyBits hr
    rw [copyBits_with] at hf
    obtain ⟨h1, h2, h3, h4, h5, h6, h7, h8⟩ := cpy_bits (0#1 ++ mc) cb dsp ssp bar _ hf.symm
    rw [cat_hi _ _ (by decide)] at h1
    rw [cat_lo _ _ (by decide), extract_whole] at h2
    subst hr
    simp only [RForm.op84, RForm.mc, h1, h2, h5, h6, h8, cb_code _ cb h4, arv_code _ bar false h7, sp2_code]
    simp [RForm.withCopy, readers, codes, finMods, ok_bind, pure_ok, map_ok]

theorem cpytLd (x) : Statement (.cpytLd x) :=
  by
    obtain ⟨g, desc, coords, box, team, mc, bar⟩ := x
    cases desc <;> cases team <;>
    · refine of_r rfl rfl ((parseR_85 _ rfl).trans ?_)
      generalize hr : RForm.ofCpyt _ _ = r
      have hf := congrArg RForm.copyBits hr
      rw [RForm.ofCpyt, copyBits_with] at hf
      obtain ⟨h1, h2, h3, h4, h5, h6, h7, h8, h9⟩ := cpyt_bits mc _ false _ bar _ hf.symm
      subst hr
      simp only [RForm.op85, RForm.boxTeam, RForm.descAt, RForm.mc, h1, h2, h3, h4, h5, h6, h8, h9,
        arv_code _ bar _ h7]
      simp [RForm.ofCpyt, RForm.withCopy, readers, codes, finMods, ok_bind, pure_ok, map_ok]

theorem cpytSt (x) : Statement (.cpytSt x) :=
  by
    obtain ⟨g, desc, coords, box, team, mc, bar⟩ := x
    cases desc <;> cases team <;>
    · refine of_r rfl rfl ((parseR_85 _ rfl).trans ?_)
      generalize hr : RForm.ofCpyt _ _ = r
      have hf := congrArg RForm.copyBits hr
      rw [RForm.ofCpyt, copyBits_with] at hf
      obtain ⟨h1, h2, h3, h4, h5, h6, h7, h8, h9⟩ := cpyt_bits mc _ true _ bar _ hf.symm
      subst hr
      simp only [RForm.op85, RForm.boxTeam, RForm.descAt, RForm.mc, h1, h2, h3, h4, h5, h6, h8, h9,
        arv_code _ bar _ h7]
      simp [RForm.ofCpyt, RForm.withCopy, readers, codes, finMods, ok_bind, pure_ok, map_ok]

theorem cbld (x) : Statement (.cbld x) :=
  of_r rfl rfl ((parseR_86 _ rfl).trans (by
    obtain ⟨g, slot, t⟩ := x
    match slot with
    | 0 => simp [RForm.op86, readers, codes, finMods, ok_bind, pure_ok, map_ok]
    | 1 => simp [RForm.op86, readers, codes, finMods, ok_bind, pure_ok, map_ok]
    | 2 => simp [RForm.op86, readers, codes, finMods, ok_bind, pure_ok, map_ok]
    | 3 => simp [RForm.op86, readers, codes, finMods, ok_bind, pure_ok, map_ok]))

theorem stage (x) : Statement (.stage x) :=
  of_r rfl rfl (by cases x; exact (parseR_87 _ rfl).trans (by simp [RForm.op87, RForm.ofTiles, RForm.ofDAB, readers, codes, finMods, ok_bind, pure_ok, map_ok]))

theorem stageMax (x) : Statement (.stageMax x) :=
  of_r rfl rfl (by cases x; exact (parseR_87 _ rfl).trans (by simp [RForm.op87, RForm.ofTiles, RForm.ofDAB, readers, codes, finMods, ok_bind, pure_ok, map_ok]))

theorem snda (x) : Statement (.snda x) :=
  of_r rfl rfl ((parseR_88 _ rfl).trans (by
    obtain ⟨g, d, row, pen, alt, scratch, list, units⟩ := x
    cases scratch <;> simp [RForm.op88, readers, codes, finMods, ok_bind, pure_ok, map_ok]))

theorem sndf (x) : Statement (.sndf x) :=
  of_r rfl rfl (by cases x; exact (parseR_89 _ rfl).trans (by simp [RForm.op89, RForm.ofTiles, RForm.ofDAB, readers, codes, finMods, ok_bind, pure_ok, map_ok]))

theorem penq (x) : Statement (.penq x) :=
  of_r rfl rfl (by cases x; exact (parseR_8A _ rfl).trans (by simp [RForm.op8A, RForm.ofDA, RForm.da, readers, codes, finMods, ok_bind, pure_ok, map_ok]))

theorem penqAdv (x) : Statement (.penqAdv x) :=
  of_r rfl rfl (by cases x; exact (parseR_8A _ rfl).trans (by simp [RForm.op8A, RForm.ofTiles, RForm.ofDAB, readers, codes, finMods, ok_bind, pure_ok, map_ok]))

theorem cpyst (x) : Statement (.cpyst x) :=
  by
    obtain ⟨g, src, dst, sig, dsp, ssp, cb, bar⟩ := x
    refine of_r rfl rfl ((parseR_8B _ rfl).trans ?_)
    generalize hr : RForm.withCopy _ _ = r
    have hf := congrArg RForm.copyBits hr
    rw [copyBits_with] at hf
    obtain ⟨h1, h2, h3, h4, h5, h6, h7, h8⟩ := cpy_bits 0#5 cb dsp ssp bar _ hf.symm
    subst hr
    simp only [RForm.op8B, h3, h5, h6, h8, cb_code _ cb h4, arv_code _ bar false h7, sp2_code]
    simp [RForm.withCopy, readers, codes, finMods, ok_bind, pure_ok, map_ok]

theorem mlds (x) : Statement (.mlds x) := of_r rfl rfl (coll_rt 0x90 .mlds x)

theorem mswp (x) : Statement (.mswp x) := of_r rfl rfl (guardOnly_rt 0x91 .mswp x)

theorem mma (x) : Statement (.mma x) := of_r rfl rfl (coll_rt 0x92 .mma x)

theorem macr (x) : Statement (.macr x) := of_r rfl rfl (coll_rt 0x93 .macr x)

theorem macw (x) : Statement (.macw x) :=
  of_r rfl rfl (by cases x; exact (parseR_94 _ rfl).trans (by simp [RForm.op94, RForm.ofDA, RForm.da, readers, codes, finMods, ok_bind, pure_ok, map_ok]))

theorem macz (x) : Statement (.macz x) :=
  of_r rfl rfl (by cases x; exact (parseR_95 _ rfl).trans (by simp [RForm.op95, RForm.ofDA, RForm.da, readers, codes, finMods, ok_bind, pure_ok, map_ok]))

theorem mstat (x) : Statement (.mstat x) :=
  of_r rfl rfl (by cases x; exact (parseR_96 _ rfl).trans (by simp [RForm.op96, RForm.ofDst, RForm.dst, readers, codes, finMods, ok_bind, pure_ok, map_ok]))

theorem mstatTags (x) : Statement (.mstatTags x) :=
  of_r rfl rfl (by cases x; exact (parseR_96 _ rfl).trans (by simp [RForm.op96, RForm.ofDst, RForm.dst, readers, codes, finMods, ok_bind, pure_ok, map_ok]))

theorem mnbr (x) : Statement (.mnbr x) :=
  of_r rfl rfl (by cases x; exact (parseR_97 _ rfl).trans (by simp [RForm.op97, RForm.ofDAB, RForm.dab, readers, codes, finMods, ok_bind, pure_ok, map_ok]))

theorem bari (x) : Statement (.bari x) :=
  of_r rfl rfl (by cases x; exact (parseR_B0 _ rfl).trans (by simp [RForm.opB0, RForm.ofTiles, RForm.ofDAB, readers, codes, finMods, ok_bind, pure_ok, map_ok]))

theorem bara (x) : Statement (.bara x) :=
  of_r rfl rfl (by cases x; exact (parseR_B1 _ rfl).trans (by simp [RForm.opB1, RForm.ofBarD, RForm.barD, readers, codes, finMods, ok_bind, pure_ok, map_ok]))

theorem barw (x) : Statement (.barw x) :=
  of_r rfl rfl (by cases x; exact (parseR_B2 _ rfl).trans (by simp [RForm.opB2, RForm.ofTiles, RForm.ofDAB, readers, codes, finMods, ok_bind, pure_ok, map_ok]))

theorem baraw (x) : Statement (.baraw x) :=
  of_r rfl rfl (by cases x; exact (parseR_B3 _ rfl).trans (by simp [RForm.opB3, RForm.ofTiles, RForm.ofDAB, readers, codes, finMods, ok_bind, pure_ok, map_ok]))

theorem barq (x) : Statement (.barq x) :=
  of_r rfl rfl (by cases x; exact (parseR_B4 _ rfl).trans (by simp [RForm.opB4, RForm.ofBarD, RForm.barD, readers, codes, finMods, ok_bind, pure_ok, map_ok]))

theorem barqSt (x) : Statement (.barqSt x) :=
  of_r rfl rfl (by cases x; exact (parseR_B4 _ rfl).trans (by simp [RForm.opB4, RForm.ofBarD, RForm.barD, readers, codes, finMods, ok_bind, pure_ok, map_ok]))

theorem lnch (x) : Statement (.lnch x) :=
  of_r rfl rfl (by cases x; exact (parseR_B5 _ rfl).trans (by simp [RForm.opB5, RForm.ofDA, RForm.da, readers, codes, finMods, ok_bind, pure_ok, map_ok]))

theorem frpt (x) : Statement (.frpt x) :=
  of_r rfl rfl (by cases x; exact (parseR_B6 _ rfl).trans (by simp [RForm.opB6, RForm.ofDst, RForm.dst, readers, codes, finMods, ok_bind, pure_ok, map_ok]))

theorem frdn (x) : Statement (.frdn x) := of_r rfl rfl (guardOnly_rt 0xB7 .frdn x)

theorem frq (x) : Statement (.frq x) :=
  of_r rfl rfl (by cases x; exact (parseR_B8 _ rfl).trans (by simp [RForm.opB8, RForm.ofDA, RForm.da, readers, codes, finMods, ok_bind, pure_ok, map_ok]))

theorem frqNext (x) : Statement (.frqNext x) :=
  of_r rfl rfl (by cases x; exact (parseR_B8 _ rfl).trans (by simp [RForm.opB8, RForm.ofDA, RForm.da, readers, codes, finMods, ok_bind, pure_ok, map_ok]))

theorem bid (x) : Statement (.bid x) :=
  of_r rfl rfl (by cases x; exact (parseR_C0 _ rfl).trans (by simp [RForm.opC0, RForm.ofDABC, RForm.dabc, readers, codes, finMods, ok_bind, pure_ok, map_ok]))

theorem price (x) : Statement (.price x) :=
  of_r rfl rfl (by cases x; exact (parseR_C1 _ rfl).trans (by simp [RForm.opC1, RForm.ofDAB, RForm.dab, readers, codes, finMods, ok_bind, pure_ok, map_ok]))

theorem priceSold (x) : Statement (.priceSold x) :=
  of_r rfl rfl (by cases x; exact (parseR_C1 _ rfl).trans (by simp [RForm.opC1, RForm.ofDAB, RForm.dab, readers, codes, finMods, ok_bind, pure_ok, map_ok]))

theorem purse (x) : Statement (.purse x) :=
  by
    obtain ⟨g, d, tenant⟩ := x
    cases tenant <;>
      exact of_r rfl rfl ((parseR_C2 _ rfl).trans (by simp [RForm.opC2, RForm.ofPurse, RForm.purse, readers, codes, finMods, ok_bind, pure_ok, map_ok]))

theorem purseRate (x) : Statement (.purseRate x) :=
  by
    obtain ⟨g, d, tenant⟩ := x
    cases tenant <;>
      exact of_r rfl rfl ((parseR_C2 _ rfl).trans (by simp [RForm.opC2, RForm.ofPurse, RForm.purse, readers, codes, finMods, ok_bind, pure_ok, map_ok]))

theorem purseCap (x) : Statement (.purseCap x) :=
  by
    obtain ⟨g, d, tenant⟩ := x
    cases tenant <;>
      exact of_r rfl rfl ((parseR_C2 _ rfl).trans (by simp [RForm.opC2, RForm.ofPurse, RForm.purse, readers, codes, finMods, ok_bind, pure_ok, map_ok]))

theorem lease (x) : Statement (.lease x) :=
  of_r rfl rfl (by cases x; exact (parseR_C3 _ rfl).trans (by simp [RForm.opC3, RForm.ofDA, RForm.da, readers, codes, finMods, ok_bind, pure_ok, map_ok]))

theorem leaseTime (x) : Statement (.leaseTime x) :=
  of_r rfl rfl (by cases x; exact (parseR_C3 _ rfl).trans (by simp [RForm.opC3, RForm.ofDA, RForm.da, readers, codes, finMods, ok_bind, pure_ok, map_ok]))

theorem meter (x) : Statement (.meter x) :=
  of_r rfl rfl (by cases x; exact (parseR_C4 _ rfl).trans (by simp [RForm.opC4, RForm.ofDA, RForm.da, readers, codes, finMods, ok_bind, pure_ok, map_ok]))

theorem recallReq (x) : Statement (.recallReq x) :=
  of_r rfl rfl (by cases x; exact (parseR_C5 _ rfl).trans (by simp [RForm.opC5, RForm.ofDAB, RForm.dab, readers, codes, finMods, ok_bind, pure_ok, map_ok]))

theorem recallT (x) : Statement (.recallT x) :=
  of_r rfl rfl (by cases x; exact (parseR_C5 _ rfl).trans (by simp [RForm.opC5, RForm.ofDABC, RForm.dabc, readers, codes, finMods, ok_bind, pure_ok, map_ok]))

theorem csrr (x) : Statement (.csrr x) :=
  of_i rfl rfl ((parseI_D0 _ rfl).trans (by
    cases x; simp [IForm.opD0, IForm.blank, IForm.g, num_hi, num_lo, readers, codes, finMods, ok_bind, pure_ok, map_ok]))

theorem csrw (x) : Statement (.csrw x) :=
  of_i rfl rfl ((parseI_D1 _ rfl).trans (by
    cases x; simp [IForm.opD1, IForm.blank, IForm.g, num_hi, num_lo, readers, codes, finMods, ok_bind, pure_ok, map_ok]))

theorem eret (x) : Statement (.eret x) :=
  of_r rfl rfl (by cases x; exact (parseR_D2 _ rfl).trans (by simp [RForm.opD2, RForm.ofG, RForm.guardOnly, readers, codes, finMods, ok_bind, pure_ok, map_ok]))

theorem eretSkip (x) : Statement (.eretSkip x) :=
  of_r rfl rfl (by cases x; exact (parseR_D2 _ rfl).trans (by simp [RForm.opD2, RForm.ofTiles, RForm.ofDAB, readers, codes, finMods, ok_bind, pure_ok, map_ok]))

theorem tlbiVa (x) : Statement (.tlbiVa x) :=
  of_r rfl rfl (by cases x; exact (parseR_D3 _ rfl).trans (by simp [RForm.opD3, RForm.ofTiles, RForm.ofDAB, readers, codes, finMods, ok_bind, pure_ok, map_ok]))

theorem tlbiCtx (x) : Statement (.tlbiCtx x) :=
  of_r rfl rfl (by cases x; exact (parseR_D3 _ rfl).trans (by simp [RForm.opD3, RForm.ofTiles, RForm.ofDAB, readers, codes, finMods, ok_bind, pure_ok, map_ok]))

theorem tlbiAll (x) : Statement (.tlbiAll x) :=
  of_r rfl rfl (by cases x; exact (parseR_D3 _ rfl).trans (by simp [RForm.opD3, RForm.ofTiles, RForm.ofDAB, readers, codes, finMods, ok_bind, pure_ok, map_ok]))

theorem halt (x) : Statement (.halt x) :=
  of_r rfl rfl (by cases x; exact (parseR_D4 _ rfl).trans (by simp [RForm.opD4, RForm.ofDAB, RForm.dab, readers, codes, finMods, ok_bind, pure_ok, map_ok]))

theorem haltRun (x) : Statement (.haltRun x) :=
  of_r rfl rfl (by cases x; exact (parseR_D4 _ rfl).trans (by simp [RForm.opD4, RForm.ofDAB, RForm.dab, readers, codes, finMods, ok_bind, pure_ok, map_ok]))

theorem haltStep (x) : Statement (.haltStep x) :=
  of_r rfl rfl (by cases x; exact (parseR_D4 _ rfl).trans (by simp [RForm.opD4, RForm.ofDAB, RForm.dab, readers, codes, finMods, ok_bind, pure_ok, map_ok]))

theorem haltSave (x) : Statement (.haltSave x) :=
  of_r rfl rfl (by cases x; exact (parseR_D4 _ rfl).trans (by simp [RForm.opD4, RForm.ofDAB, RForm.dab, readers, codes, finMods, ok_bind, pure_ok, map_ok]))

theorem qpop (x) : Statement (.qpop x) :=
  of_r rfl rfl (by cases x; exact (parseR_D5 _ rfl).trans (by simp [RForm.opD5, RForm.ofTiles, RForm.ofDAB, readers, codes, finMods, ok_bind, pure_ok, map_ok]))

theorem qpushRep (x) : Statement (.qpushRep x) :=
  of_r rfl rfl (by cases x; exact (parseR_D6 _ rfl).trans (by simp [RForm.opD6, RForm.ofTiles, RForm.ofDAB, readers, codes, finMods, ok_bind, pure_ok, map_ok]))

theorem qpushFwd (x) : Statement (.qpushFwd x) :=
  of_r rfl rfl (by cases x; exact (parseR_D6 _ rfl).trans (by simp [RForm.opD6, RForm.ofTiles, RForm.ofDAB, readers, codes, finMods, ok_bind, pure_ok, map_ok]))

theorem crypTh (x) : Statement (.crypTh x) :=
  of_r rfl rfl (by cases x; exact (parseR_D7 _ rfl).trans (by simp [RForm.opD7, RForm.ofDAB, RForm.dab, readers, codes, finMods, ok_bind, pure_ok, map_ok]))

theorem crypEmit (x) : Statement (.crypEmit x) :=
  of_r rfl rfl (by cases x; exact (parseR_D7 _ rfl).trans (by simp [RForm.opD7, RForm.ofDAB, RForm.dab, readers, codes, finMods, ok_bind, pure_ok, map_ok]))

theorem crypMeas (x) : Statement (.crypMeas x) :=
  of_r rfl rfl (by cases x; exact (parseR_D7 _ rfl).trans (by simp [RForm.opD7, RForm.ofTiles, RForm.ofDAB, readers, codes, finMods, ok_bind, pure_ok, map_ok]))

theorem crypNonce (x) : Statement (.crypNonce x) :=
  of_r rfl rfl (by cases x; exact (parseR_D7 _ rfl).trans (by simp [RForm.opD7, RForm.ofDst, RForm.dst, readers, codes, finMods, ok_bind, pure_ok, map_ok]))

theorem crypSign (x) : Statement (.crypSign x) :=
  of_r rfl rfl (by cases x; exact (parseR_D7 _ rfl).trans (by simp [RForm.opD7, RForm.ofDst, RForm.dst, readers, codes, finMods, ok_bind, pure_ok, map_ok]))

theorem crypCert (x) : Statement (.crypCert x) :=
  of_r rfl rfl (by cases x; exact (parseR_D7 _ rfl).trans (by simp [RForm.opD7, RForm.ofDAB, RForm.dab, readers, codes, finMods, ok_bind, pure_ok, map_ok]))

theorem crypTinit (x) : Statement (.crypTinit x) :=
  of_r rfl rfl (by cases x; exact (parseR_D7 _ rfl).trans (by simp [RForm.opD7, RForm.ofDst, RForm.dst, readers, codes, finMods, ok_bind, pure_ok, map_ok]))

theorem crypTmark (x) : Statement (.crypTmark x) :=
  of_r rfl rfl (by cases x; exact (parseR_D7 _ rfl).trans (by simp [RForm.opD7, RForm.ofDst, RForm.dst, readers, codes, finMods, ok_bind, pure_ok, map_ok]))

theorem crypTrest (x) : Statement (.crypTrest x) :=
  of_r rfl rfl (by cases x; exact (parseR_D7 _ rfl).trans (by simp [RForm.opD7, RForm.ofDst, RForm.dst, readers, codes, finMods, ok_bind, pure_ok, map_ok]))

theorem migrOpen (x) : Statement (.migrOpen x) :=
  of_r rfl rfl (by cases x; exact (parseR_D8 _ rfl).trans (by simp [RForm.opD8, RForm.ofDAB, RForm.dab, readers, codes, finMods, ok_bind, pure_ok, map_ok]))

theorem migrRound (x) : Statement (.migrRound x) :=
  of_r rfl rfl (by cases x; exact (parseR_D8 _ rfl).trans (by simp [RForm.opD8, RForm.ofDA, RForm.da, readers, codes, finMods, ok_bind, pure_ok, map_ok]))

theorem migrStop (x) : Statement (.migrStop x) :=
  of_r rfl rfl (by cases x; exact (parseR_D8 _ rfl).trans (by simp [RForm.opD8, RForm.ofDA, RForm.da, readers, codes, finMods, ok_bind, pure_ok, map_ok]))

theorem migrLand (x) : Statement (.migrLand x) :=
  of_r rfl rfl (by cases x; exact (parseR_D8 _ rfl).trans (by simp [RForm.opD8, RForm.ofDAB, RForm.dab, readers, codes, finMods, ok_bind, pure_ok, map_ok]))

theorem migrAbort (x) : Statement (.migrAbort x) :=
  of_r rfl rfl (by cases x; exact (parseR_D8 _ rfl).trans (by simp [RForm.opD8, RForm.ofDA, RForm.da, readers, codes, finMods, ok_bind, pure_ok, map_ok]))

theorem migrClose (x) : Statement (.migrClose x) :=
  of_r rfl rfl (by cases x; exact (parseR_D8 _ rfl).trans (by simp [RForm.opD8, RForm.ofDA, RForm.da, readers, codes, finMods, ok_bind, pure_ok, map_ok]))

/-! ### Events have no word -/

theorem clauseFetch core ctx addr old : Statement (.clauseFetch core ctx addr old) := of_event rfl

theorem issueGroup members : Statement (.issueGroup members) := of_event rfl

theorem handlerEntry wg : Statement (.handlerEntry wg) := of_event rfl

theorem loadReturn acc reply : Statement (.loadReturn acc reply) := of_event rfl

theorem storeAtHome core : Statement (.storeAtHome core) := of_event rfl

theorem spill core : Statement (.spill core) := of_event rfl

theorem storeBackpressure tid : Statement (.storeBackpressure tid) := of_event rfl

theorem dramWrite line : Statement (.dramWrite line) := of_event rfl

theorem wcbSend core n : Statement (.wcbSend core n) := of_event rfl

theorem accessLoss acc : Statement (.accessLoss acc) := of_event rfl

theorem orderLate op : Statement (.orderLate op) := of_event rfl

theorem orderedPacketArrival a : Statement (.orderedPacketArrival a) := of_event rfl

theorem beacon node port wm onode oport : Statement (.beacon node port wm onode oport) := of_event rfl

theorem orderedAck op : Statement (.orderedAck op) := of_event rfl

theorem stallDetect recv : Statement (.stallDetect recv) := of_event rfl

theorem cutRequest recv node port : Statement (.cutRequest recv node port) := of_event rfl

theorem linkDown node port : Statement (.linkDown node port) := of_event rfl

theorem tokenRedistribution port : Statement (.tokenRedistribution port) := of_event rfl

theorem crcRetry port : Statement (.crcRetry port) := of_event rfl

theorem tsetWritten core n : Statement (.tsetWritten core n) := of_event rfl

theorem copyAccept core : Statement (.copyAccept core) := of_event rfl

theorem copyComplete core cmd : Statement (.copyComplete core cmd) := of_event rfl

theorem sndfAlternate core flush : Statement (.sndfAlternate core flush) := of_event rfl

theorem sndfCompletion core flush : Statement (.sndfCompletion core flush) := of_event rfl

theorem requestPost quad req : Statement (.requestPost quad req) := of_event rfl

theorem collectiveTimeout tid : Statement (.collectiveTimeout tid) := of_event rfl

theorem grant quad entry : Statement (.grant quad entry) := of_event rfl

theorem entryComplete quad entry : Statement (.entryComplete quad entry) := of_event rfl

theorem waitTimeout tid : Statement (.waitTimeout tid) := of_event rfl

theorem waitWake tid : Statement (.waitWake tid) := of_event rfl

theorem waitHostPoll tid : Statement (.waitHostPoll tid) := of_event rfl

theorem ptimeReached tid : Statement (.ptimeReached tid) := of_event rfl

theorem sheepdog ctx : Statement (.sheepdog ctx) := of_event rfl

theorem launchPacket vd qp bytes : Statement (.launchPacket vd qp bytes) := of_event rfl

theorem packetRunStart die queue : Statement (.packetRunStart die queue) := of_event rfl

theorem queueBudget die : Statement (.queueBudget die) := of_event rfl

theorem workgroupPlacement p : Statement (.workgroupPlacement p) := of_event rfl

theorem pointFire launch : Statement (.pointFire launch) := of_event rfl

theorem marketClose : Statement (.marketClose) := of_event rfl

theorem marketBoundary : Statement (.marketBoundary) := of_event rfl

theorem quadHandover quad : Statement (.quadHandover quad) := of_event rfl

theorem wayHandover unit : Statement (.wayHandover unit) := of_event rfl

theorem priceReceive p : Statement (.priceReceive p) := of_event rfl

theorem pagingFetch ctx va answered : Statement (.pagingFetch ctx va answered) := of_event rfl

theorem scrubComplete range : Statement (.scrubComplete range) := of_event rfl

theorem droverStepComplete ctx answered : Statement (.droverStepComplete ctx answered) := of_event rfl

theorem eccError x : Statement (.eccError x) := of_event rfl

theorem thermalTrip u : Statement (.thermalTrip u) := of_event rfl

theorem thermalResume u : Statement (.thermalResume u) := of_event rfl

theorem packageReset : Statement (.packageReset) := of_event rfl

theorem contextReset ctx : Statement (.contextReset ctx) := of_event rfl

theorem vdReset vd : Statement (.vdReset vd) := of_event rfl

theorem queueLoad index qctl : Statement (.queueLoad index qctl) := of_event rfl

theorem queueUnload index qctl : Statement (.queueUnload index qctl) := of_event rfl

theorem rangeWrite index word val : Statement (.rangeWrite index word val) := of_event rfl

theorem launchBucketWrite tenant val : Statement (.launchBucketWrite tenant val) := of_event rfl

theorem retiredPageRemove index val : Statement (.retiredPageRemove index val) := of_event rfl

theorem fstatWrite core ctx val : Statement (.fstatWrite core ctx val) := of_event rfl

theorem objectWrite osel val : Statement (.objectWrite osel val) := of_event rfl

theorem sync m : Statement (.sync m) := of_event rfl

theorem inboundRdmaRead x : Statement (.inboundRdmaRead x) := of_event rfl

theorem inboundRdmaWrite x : Statement (.inboundRdmaWrite x) := of_event rfl

theorem inboundAtomic x : Statement (.inboundAtomic x) := of_event rfl

theorem hostQpError vd window : Statement (.hostQpError vd window) := of_event rfl

theorem marketTableWrite t : Statement (.marketTableWrite t) := of_event rfl

theorem hostWindowWrite vd n w : Statement (.hostWindowWrite vd n w) := of_event rfl

theorem memoryKeyWrite vd n k : Statement (.memoryKeyWrite vd n k) := of_event rfl

theorem finalReportRead : Statement (.finalReportRead) := of_event rfl

theorem firmwareImageWrite image : Statement (.firmwareImageWrite image) := of_event rfl

theorem getVersion x : Statement (.getVersion x) := of_event rfl

theorem getCapabilities x : Statement (.getCapabilities x) := of_event rfl

theorem negotiateAlgorithms x : Statement (.negotiateAlgorithms x) := of_event rfl

theorem getDigests x : Statement (.getDigests x) := of_event rfl

theorem getCertificate x : Statement (.getCertificate x) := of_event rfl

theorem challenge x : Statement (.challenge x) := of_event rfl

theorem getMeasurements x : Statement (.getMeasurements x) := of_event rfl

theorem incomingAccess x : Statement (.incomingAccess x) := of_event rfl

theorem linkTrained node port : Statement (.linkTrained node port) := of_event rfl

theorem walkComplete core ctx va write : Statement (.walkComplete core ctx va write) := of_event rfl

theorem debuggerCommand c : Statement (.debuggerCommand c) := of_event rfl

theorem idleSlotShare die : Statement (.idleSlotShare die) := of_event rfl

theorem announce m : Statement (.announce m) := of_event rfl

theorem delayResp port seq rx : Statement (.delayResp port seq rx) := of_event rfl

theorem followUp m : Statement (.followUp m) := of_event rfl

end Sys2Proof.Laws.RoundTrip
end

