-- ==== Sys2Proof/Tests/Slice0.lean ====
section
/-!
SUPPORT. Tests of the model: words written out from the encoding tables, ill-formed terms that WellFormed refuses, the
manual's worked cases, and, for every statement with hypotheses, states and operands that meet them.
-/

namespace Sys2Proof.Tests

-- Each test is checked by the kernel on its own; one after another keeps the memory of a check small.
set_option Elab.async false

open Sys2Proof Sys2Proof.Machine

/-! ### A small machine -/

/-- A clause of one instruction, in FU form, at the group's place. -/
def grp : Group :=
  { id := 1, core := 0, wg := 2, pc := State.fetchVa, hdr := State.fetchHdr, words := [0], idx := 0, members := [0, 1]
    blocked := false, stalled := false, part := [], yielding := false, passed := none, age := 0 }

def thr : Thread := { Thread.start 2 State.fetchVa with st := .running }

/-- The package of `State.placeWord` with two threads in the group and a handler. -/
def base : State :=
  let s := State.reset.placeWord 0
  { s with
    cur := some grp, threads := [(0, thr), (1, thr)]
    ctxs := [(0, { s.ctx 0 with words := { (s.ctx 0).words with handlerPc := 0x10000 } })] }

/-- Pod time has been taken: operations of the ordered class may leave. -/
def timedS : State := { base with timed := true }
/-- Lane 0 has p1 set, lane 1 has not. -/
def twoWay : State := { base with threads := [(0, { thr with p := 2 }), (1, thr)] }
/-- The tenant may send on every port. -/
def fabS : State := { base with tenants := [(0, { Tenant.zero with fabric := (List.range 24).map fun p => (p, 1) })] }
/-- Page 0 is in its backing store, and the context has frames. -/
def absentPage : State :=
  { base with
    mem := mputs base.mem (base.local_ 0xE000) (natLe 8 (0x100 * 2 ^ 52 + 0x310201))
    ctxs := tmap base.ctxs fun c => { c with words := { c.words with pool := 0x400000, npool := 4 } } }

/-! ### The hypotheses as computations -/

def memberOk (s : State) (g : Group) (i : Instr) (t : Nat) : Bool :=
  !isCp t && !s.interlocked t i && !s.counterFull t i && decide ((s.thread t).errs = []) && s.allowed t i && s.rangeOk t i &&
    (!hdrFu g.hdr || g.members.all fun u => tidFlock t = tidFlock u)

def clearB (s : State) (g : Group) (i : Instr) : Bool :=
  decide (s.cur = some g) && decide g.members.Nodup && !s.frozen g && g.members.all (memberOk s g i) &&
    (!instrUsesWK i || hdrFu g.hdr) && decide (s.poison = [])

theorem clear_of {s : State} {g : Group} {i : Instr} (h : clearB s g i = true) : Clear s g i := by
  simp only [clearB, memberOk, Bool.and_eq_true, decide_eq_true_eq, Bool.not_eq_true', List.all_eq_true, Bool.or_eq_true] at h
  obtain ⟨⟨⟨⟨⟨h1, h2⟩, h3⟩, h4⟩, h5⟩, h6⟩ := h
  refine ⟨h1, h2, fun hf t ht u hu => ?_, h3, fun t ht => (h4 t ht).1.1.1.1.1.1, fun t ht => ?_, fun hu => ?_, h6⟩
  · obtain ⟨-, h | h⟩ := h4 t ht
    · exact absurd hf (by simp [h])
    · exact h u hu
  · obtain ⟨⟨⟨⟨⟨⟨a, b⟩, c⟩, d⟩, e⟩, f⟩, -⟩ := h4 t ht
    exact ⟨b, c, d, e, f⟩
  · obtain h | h := h5
    · exact absurd hu (by simp [h])
    · exact h

/-! ### Every kernel instruction may stand where nothing holds it -/

/-- A word of each of nop to hfma2, in the order of the opcodes. -/
def words0 : List W64 :=
  [0x00E0000000000000, 0x01E000003100001B, 0x02E0800000000000, 0x03E000000F300800, 0x04E0800000000000, 
   0x05E0000000000000, 0x06E0000000000000, 0x07E0000000000000, 0x08E0000000000000, 0x09E0000000000000, 
   0x0AE0800000000000, 0x0BE0800000000000, 0x0BE0800000000100, 0x0BE0004000000200, 0x0BE0000000300300, 
   0x0CE0000000000024, 0x0DE0000000000000, 0x0EE0000000100B00, 0x0FE0000000000000, 0x10E08040C0000000, 
   0x11E08040C0000000, 0x12E08040C0000000, 0x13E08040C0020000, 0x14E08040C1000000, 0x15E08040C0020000, 
   0x16E08040C0020000, 0x17E0804000020000, 0x18E08040C0000000, 0x19E08040C0000000, 0x1AE08040C0000000, 
   0x1BE08040C1000000, 0x1CE08040C0000000, 0x1DE08040C0000000, 0x1EE08040C0000000, 0x1FE000010F300000, 
   0x20E08040C1000000, 0x21E08040C1000000, 0x22E08040C1000000, 0x24E0800000000000, 0x25E0800000000000, 
   0x26E08040C0020000, 0x27E08040C0020000, 0x28E08040C1000000, 0x29E0804000000000, 0x2AE0804000000000, 
   0x2BE0804000000000, 0x2DE0804000000000, 0x2CEF1040C0000000, 0x2EEF1F2F3F496000, 0x30E08040C0050000, 
   0x31E08040C0050000, 0x32E08040C0050000, 0x33E08040C1050000, 0x3EE08040C0050000, 0x3DE0804000050000, 
   0x34E08040C0050000, 0x35E08040C0050000, 0x36EF1040C0050000, 0x37E0804000050000, 0x38E08040C1090000]

/-- A word of each of hadd2 to sndf, in the order of the opcodes. -/
def words1 : List W64 :=
  [0x39E08040C0090000, 0x3AE08040C0090000, 0x3BE08040C1010000, 0x3CE08040C1018000, 0x40E0804000458000, 
   0x43E0804000050000, 0x44E0804000058000, 0x45E0804000050000, 0x46E0804000058000, 0x47E0804000058000, 
   0x48E0804000058000, 0x49E0804000058000, 0x4AE0804000058000, 0x4BE0804000058000, 0x41E08040C0058000, 
   0x42E08040C0058000, 0x4CE08040C0088000, 0x4DE08040C0020000, 0x50E08040C1000400, 0x51EF1F2000000000, 
   0x52E0804000000000, 0x53E0804000020000, 0x55E0800000000000, 0x54E08040C1000000, 0x60E0804000000000, 
   0x61E0004000000000, 0x62E8884000148B00, 0x63E0084100128600, 0x64E8804000000000, 0x65E0004000000000, 
   0x66E0084000100000, 0x66E0004080100800, 0x66E00C0000101000, 0x66E00C0000101800, 0x66E0004000102000, 
   0x67E08040C1000000, 0x68E0800000000000, 0x70E08040C0000000, 0x71E0004000000000, 0x72E08040C0000100, 
   0x73E0000030128030, 0x74E0000006160000, 0x75E08040C0000000, 0x76E0800000000000, 0x76E0804000000100, 
   0x77E0804000000000, 0x77E08040C0000A01, 0x80E0800000000000, 0x81E0000F20000000, 0x82E0800000000000, 
   0x82E08000C0000301, 0x83E0004000000000, 0x84E0004000000000, 0x85E0004000000200, 0x85E0004000000300, 
   0x86E00000C0000000, 0x87E0004000000000, 0x87E0004000000100, 0x88E08040C1000000, 0x89E0004000000000]

/-- A word of each of penq to migrClose, in the order of the opcodes. -/
def words2 : List W64 :=
  [0x8AE0804000000000, 0x8AE08040C0000001, 0x8BE0004000000000, 0x90E08040C0000000, 0x91E0000000000000, 
   0x92E08040C0000000, 0x93E08040C0000000, 0x94E0804000000000, 0x95E0804000000000, 0x96E0800000000000, 
   0x96E0800000000100, 0x97E08040C0000000, 0xB0E0004000000000, 0xB1E0800000000000, 0xB2E0804000000000, 
   0xB3E0800000000000, 0xB4E0800000000000, 0xB4E0800000000100, 0xB5E0804000000000, 0xB6E0800000000000, 
   0xB7E0000000000000, 0xB8E0804000000000, 0xB8E0804000000100, 0xC0E08040C1000000, 0xC1E08040C0000000, 
   0xC1E08040C0000100, 0xC2E0800000000000, 0xC2E0800000000100, 0xC2E0800000000200, 0xC3E0804000000000, 
   0xC3E0804000000100, 0xC4E0804000000000, 0xC5E08040C0000000, 0xC5E08040C1000100, 0xD0E0800000000000, 
   0xD1E000400000000E, 0xD2E0000000000000, 0xD2E0000000000100, 0xD3E0004000000000, 0xD3E0000040000100, 
   0xD3E0000000000200, 0xD4E08040C0000000, 0xD4E08040C0000100, 0xD4E08040C0000200, 0xD4E08040C0000300, 
   0xD8E08040C0000000, 0xD8E0804000000100, 0xD8E0804000000200, 0xD8E08040C0000300, 0xD8E0804000000400, 
   0xD8E0804000000500]

def wordClear (w : W64) : Bool :=
  match decode w with
  | .ok i => clearB base grp i
  | .error _ => false

theorem clear_of_word {w : W64} (h : wordClear w = true) : ∃ i, decode w = .ok i ∧ Clear base grp i := by
  unfold wordClear at h
  split at h
  · rename_i i e
    exact ⟨i, e, clear_of h⟩
  · exact absurd h (by decide)

theorem words0_clear : (words0.all wordClear) = true := by decide +kernel

theorem words1_clear : (words1.all wordClear) = true := by decide +kernel

theorem words2_clear : (words2.all wordClear) = true := by decide +kernel

/-- The hypothesis Clear of the statements about instructions is met by every kernel instruction. -/
theorem witness_Clear : ∀ w ∈ words0 ++ words1 ++ words2, ∃ i, decode w = .ok i ∧ Clear base grp i := by
  intro w hw
  simp only [List.mem_append] at hw
  obtain (h | h) | h := hw
  · exact clear_of_word (List.all_eq_true.mp words0_clear w h)
  · exact clear_of_word (List.all_eq_true.mp words1_clear w h)
  · exact clear_of_word (List.all_eq_true.mp words2_clear w h)

/-! ### Words that the manual prints, with the instruction beside them -/

theorem test_decode_ld : decode 0x60E0502001100010 =
    .ok (.ld { g := ⟨7, false⟩, d := .g 5, base := .g 2, size := .b32, hint := .dflt, acq := none, off := 0x10 }) := by decide

theorem test_decode_iadd : decode 0x1020405060020000 =
    .ok (.iadd { g := ⟨1, false⟩, d := .g 4, a := .g 5, b := .g 6, ty := .s32, sat := false }) := by decide

theorem test_decode_bra : decode 0x01E40000FFFFFFFE =
    .ok (.bra { g := ⟨7, false⟩, hint := .likely, tgt := 0xfffffffe }) := by decide

theorem test_decode_ffma : decode 0x33E08090A0858000 =
    .ok (.ffma { g := ⟨7, false⟩, d := .g 8, a := .g 9, b := .g 10, c := .g 8, m := { ty := .f32, rm := .rne, sat := false, ftz := false } }) := by decide

theorem test_decode_isetp : decode 0x2CEF204050020200 =
    .ok (.isetp { g := ⟨7, false⟩, d := 2, a := .g 4, b := .g 5, ty := .s32, cond := .lt, comb := .plain }) := by decide

theorem test_decode_mma : decode 0x92E1404061000A00 =
    .ok (.mma { g := ⟨7, false⟩, d := .g 20, fw := .g 4, ctl := .g 6, bar := .bt 0, e := 10 }) := by decide

theorem test_decode_st : decode 0x61E0002051100000 =
    .ok (.st { g := ⟨7, false⟩, base := .g 2, data := .g 5, size := .b32, hint := .dflt, rel := none, ord := false, off := 0x0 }) := by decide

theorem test_decode_st2 : decode 0x61E0002067120020 =
    .ok (.st { g := ⟨7, false⟩, base := .g 2, data := .g 6, size := .b32, hint := .dflt, rel := some .pkg, ord := false, off := 0x20 }) := by decide

theorem test_decode_wait : decode 0x75E0708060340E15 =
    .ok (.wait { g := ⟨7, false⟩, d := .g 7, base := .g 8, b := .g 6, ty := .z32, e := 14, scratch := false, acq := some .pkg, ext := false, cond := .ge }) := by decide

theorem test_decode_cpytLd : decode 0x85E0002080C00281 =
    .ok (.cpytLd { g := ⟨7, false⟩, desc := .mem (.g 2), coords := .g 8, box := .g 12, team := false, mc := 0x0, bar := some (.b 1) }) := by decide

theorem test_decode_join : decode 0x08E0000000300000 =
    .ok (.join { g := ⟨7, false⟩, k := 3 }) := by decide

theorem test_decode_waitm : decode 0x0AE0500000300C00 =
    .ok (.waitm { g := ⟨7, false⟩, d := .g 5, k := 3, e := 12 }) := by decide

theorem test_decode_leave : decode 0x09E0000000300000 =
    .ok (.leave { g := ⟨7, false⟩, k := 3 }) := by decide

theorem test_decode_baraw : decode 0xB3E0700000000E00 =
    .ok (.baraw { g := ⟨7, false⟩, d := .g 7, bar := .b 0, e := 14 }) := by decide

theorem test_decode_lnch : decode 0xB5E1406000000000 =
    .ok (.lnch { g := ⟨7, false⟩, d := .g 20, a := .g 6 }) := by decide

theorem test_decode_frq : decode 0xB8E0709000000000 =
    .ok (.frq { g := ⟨7, false⟩, d := .g 7, a := .g 9 }) := by decide

theorem test_decode_bid : decode 0xC0E1404050600000 =
    .ok (.bid { g := ⟨7, false⟩, d := .g 20, a := .g 4, b := .g 5, c := .g 6 }) := by decide

theorem test_decode_recallReq : decode 0xC5E1504070000000 =
    .ok (.recallReq { g := ⟨7, false⟩, d := .g 21, a := .g 4, b := .g 7 }) := by decide

theorem test_decode_tlbiVa : decode 0xD3E0006090000000 =
    .ok (.tlbiVa { g := ⟨7, false⟩, a := .g 6, b := .g 9 }) := by decide

theorem test_decode_eret : decode 0xD2E0000000000000 =
    .ok (.eret { g := ⟨7, false⟩ }) := by decide

theorem test_decode_eretSkip : decode 0xD2E0000000000100 =
    .ok (.eretSkip { g := ⟨7, false⟩ }) := by decide

theorem test_decode_csrr : decode 0xD0E0100000000000 =
    .ok (.csrr { g := ⟨7, false⟩, d := .g 1, num := 0x0 }) := by decide

theorem test_decode_csrw : decode 0xD1E000A000000111 =
    .ok (.csrw { g := ⟨7, false⟩, a := .g 10, num := 0x111 }) := by decide

theorem test_decode_haltSave : decode 0xD4E1404050000300 =
    .ok (.haltSave { g := ⟨7, false⟩, d := .g 20, a := .g 4, b := .g 5 }) := by decide

theorem test_decode_migrOpen : decode 0xD8E0705080000000 =
    .ok (.migrOpen { g := ⟨7, false⟩, d := .g 7, a := .g 5, b := .g 8 }) := by decide

theorem test_decode_qpop : decode 0xD5E020000F100000 =
    .ok (.qpop { g := ⟨7, false⟩, d := .g 2, c := 1 }) := by decide

theorem test_decode_isetp2 : decode 0x2CEF30208F240001 =
    .ok (.isetp { g := ⟨7, false⟩, d := 3, a := .g 2, b := .g 8, ty := .z32, cond := .eq, comb := .and 2 }) := by decide

theorem test_decode_migrRound : decode 0xD840603000000100 =
    .ok (.migrRound { g := { p := 2, neg := false }, d := .g 6, a := .g 3 }) := by decide

theorem test_decode_migrLand : decode 0xD880603040000300 =
    .ok (.migrLand { g := { p := 4, neg := false }, d := .g 6, a := .g 3, b := .g 4 }) := by decide

theorem test_decode_qpushRep : decode 0xD6E000600F700000 =
    .ok (.qpushRep { g := ⟨7, false⟩, a := .g 6, c := 7 }) := by decide

theorem test_decode_exit : decode 0x06E0000000000000 =
    .ok (.exit { g := ⟨7, false⟩ }) := by decide

/-! ### Terms that are not well-formed, one for each check (R50 step 1) -/

def always : Guard := ⟨7, false⟩
def plain32 : FMod := ⟨.f32, .rne, false, false⟩

theorem smoke_misaligned_pair : Instr.check (.iadd ⟨always, .g 5, .g 4, .g 6, .s64, false⟩) = some .misaligned := by decide
theorem smoke_misaligned_quad : Instr.check (.fxaadd ⟨always, .g 8, .g 6, .g 4, false⟩) = some .misaligned := by decide
theorem smoke_misaligned_w : Instr.check (.mov ⟨always, .g 4, .w 3, .b64⟩) = some .misaligned := by decide
theorem smoke_saturated_bits : Instr.check (.iadd ⟨always, .g 4, .g 5, .g 6, .b32, true⟩) = some .mustBeZero := by decide
theorem smoke_imulh_type : Instr.check (.imulh ⟨always, .g 4, .g 5, .g 6, .b32⟩) = some .badType := by decide
theorem smoke_iabs_type : Instr.check (.iabs ⟨always, .g 4, .g 5, .z32, false⟩) = some .badType := by decide
theorem smoke_and_type : Instr.check (.and ⟨always, .g 4, .g 5, .g 6, .s32⟩) = some .badType := by decide
theorem smoke_lea_type : Instr.check (.lea ⟨always, .g 4, .g 6, .g 8, .b32, 2⟩) = some .badType := by decide
theorem smoke_isetp_order_of_bits : Instr.check (.isetp ⟨always, 1, .g 4, .g 5, .b32, .lt, .plain⟩) = some .badType := by decide
theorem smoke_float_type : Instr.check (.fadd ⟨always, .g 4, .g 5, .g 6, ⟨.s32, .rne, false, false⟩⟩) = some .badType := by
  decide
theorem smoke_fsin_f64 : Instr.check (.fsin ⟨always, .g 4, .g 6, ⟨.f64, .rne, false, false⟩⟩) = some .badType := by decide
theorem smoke_dot4_rounding : Instr.check (.dot4 ⟨always, .g 4, .g 5, .g 6, .g 7, ⟨.s8, .rtz, false, false⟩⟩) =
    some .mustBeZero := by decide
theorem smoke_cvt_saturated_integer : Instr.check (.cvt ⟨always, .g 4, .g 5, .f32, ⟨.s32, .rne, true, false⟩⟩) =
    some .mustBeZero := by decide
theorem smoke_pack_from_w : Instr.check (.pack ⟨always, .g 4, .w 8, .g 6, .f32, .rne⟩) = some .badSpecifier := by decide
theorem smoke_redux_f32_sat : Instr.check (.redux ⟨always, .g 4, .g 5, .add, false, ⟨.f32, .rne, true, false⟩⟩) =
    some .mustBeZero := by decide
theorem smoke_ld_base : Instr.check (.ld ⟨always, .g 4, .g 3, .b32, .dflt, none, 0⟩) = some .misaligned := by decide
theorem smoke_ld_quad : Instr.check (.ld ⟨always, .g 6, .g 2, .b128, .dflt, none, 0⟩) = some .misaligned := by decide
theorem smoke_lds_scope : Instr.check (.lds ⟨always, .g 4, .g 3, false, .b32, some .die, 0⟩) = some .reservedCode := by decide
theorem smoke_ldw_destination : Instr.check (.ldw ⟨always, .g 4, .g 2, false, .b32, .dflt, none, 0⟩) = some .badSpecifier := by
  decide
theorem smoke_atom_pair : Instr.check (.atom ⟨always, .g 4, .g 2, .g 5, .and, .s32, .dflt, ⟨false, false, .wg⟩, false, 0⟩) =
    some .reservedCode := by decide
theorem smoke_scope_alone : Instr.check (.red ⟨always, .g 2, .g 5, .add, .s32, .dflt, ⟨false, false, .pkg⟩, false, 0⟩) =
    some .mustBeZero := by decide
theorem smoke_cas_type : Instr.check (.cas ⟨always, .g 4, .g 2, .g 6, .s32, .dflt, ⟨false, false, .wg⟩, false, 0⟩) =
    some .reservedCode := by decide
theorem smoke_fence_of_nothing : Instr.check (.fence ⟨always, ⟨false, false, .wg⟩⟩) = some .reservedCode := by decide
theorem smoke_wait_anyb : Instr.check (.wait ⟨always, .g 4, .g 2, .g 6, .s32, 1, false, none, false, .anyb⟩) =
    some .badType := by decide
theorem smoke_multicast_to_memory : Instr.check (.cpy ⟨always, .g 2, .g 4, .g 8, .glob, .scratch, ⟨1, none, none⟩⟩) =
    some .reservedCode := by decide
theorem smoke_cpyt_store_multicast : Instr.check (.cpytSt ⟨always, .mem (.g 2), .g 8, .g 12, false, 1, none⟩) =
    some .reservedCode := by decide
theorem smoke_mma_control : Instr.check (.mma ⟨always, .g 4, .g 5, .g 7, .b 0, 1⟩) = some .misaligned := by decide
theorem smoke_csr_unassigned : Instr.check (.csrr ⟨always, .g 4, 0x015⟩) = some .badNumber := by decide
theorem smoke_csr_read_only : Instr.check (.csrw ⟨always, .g 4, 0x010⟩) = some .badNumber := by decide
theorem smoke_event : Instr.check .packageReset = some .reservedOpcode := by decide
theorem smoke_not_wellFormed : ¬ WellFormed (.iadd ⟨always, .g 5, .g 4, .g 6, .s64, false⟩) := by decide

/-- A word with a bit of a must-be-zero field, one of a reserved opcode and one of a clause header are no instructions. -/
theorem smoke_words : decode 0x1020405061020000 = .error .mustBeZero ∧ decode 0xF0E0000000000000 = .error .reservedOpcode ∧
    (∃ r, decode 0xA0E0000000000000 = .error r) := by
  refine ⟨by decide, by decide, ?_⟩
  exact ⟨_, rfl⟩

/-! ### Memory instructions that nothing holds -/

def memReadyB (s : State) (g : Group) (ps : List Nat) (chk : State → Nat → Chk) (hold : State → Nat → Place → Bool)
    (room : State → List (Nat × Place) → Option (List Nat)) (acq rel : Option Scope) : Bool :=
  let r := State.checkAll chk s ps
  !r.2.2 && decide (r.1.cur = some g) && decide (room r.1 r.2.1 = none) &&
    (r.2.1.all fun x => !r.1.fenced x.1 && !hold r.1 x.1 x.2 &&
      (match rel with | some sc => !r.1.releaseWaits x.1 sc | none => true) && (!x.2.sc || decide (r.1.accessesOf x.1 = []))) &&
    g.members.all fun t => ps.contains t || !r.1.fenceWaits acq rel t

theorem memReady_of {s : State} {g : Group} {ps : List Nat} {chk : State → Nat → Chk} {hold : State → Nat → Place → Bool}
    {room : State → List (Nat × Place) → Option (List Nat)} {acq rel : Option Scope}
    (h : memReadyB s g ps chk hold room acq rel = true) : ∃ u pl, MemReady s g ps chk hold room acq rel u pl := by
  simp only [memReadyB, Bool.and_eq_true, decide_eq_true_eq, Bool.not_eq_true', List.all_eq_true, Bool.or_eq_true] at h
  obtain ⟨⟨⟨⟨h1, h2⟩, h5⟩, h3⟩, h4⟩ := h
  refine ⟨_, _, ⟨by rw [← h1], h2, fun x hx => (h3 x hx).1.1.1, fun x hx => (h3 x hx).1.1.2, h5, ?_, ?_, ?_⟩⟩
  · intro x hx sc hs
    have h := (h3 x hx).1.2
    rw [hs] at h
    simpa using h
  · intro x hx hs
    obtain h | h := (h3 x hx).2
    · rw [hs] at h; exact absurd h (by decide)
    · exact h
  · intro t ht hn
    obtain h | h := h4 t ht
    · exact absurd (List.contains_iff_mem.mp h) hn
    · exact h

/-- The operands of one memory instruction with the conditions of its statement. -/
def readyFor (i : Instr) (chk : State → Nat → Chk) (hold : State → Nat → Place → Bool)
    (room : State → List (Nat × Place) → Option (List Nat)) (acq rel : Option Scope) : Bool :=
  clearB base grp i && memReadyB base grp (base.participants grp i) chk hold room acq rel

def ldArgs : LdArgs := ⟨always, .g 126, .g 4, .b64, .dflt, none, 1⟩
def stbqArgs : StbqArgs := ⟨always, .g 8, .g 4, .g 12, .b32, .dflt, 1⟩
def atomArgs : AtomArgs := ⟨always, .g 8, .g 4, .g 12, .add, .s32, .dflt, ⟨true, false, .pkg⟩, false, 1⟩
def redArgs : RedArgs := ⟨always, .g 4, .g 12, .add, .s64, .dflt, ⟨false, true, .pkg⟩, false, 1⟩
def casArgs : CasArgs := ⟨always, .g 8, .g 4, .g 12, .b32, .dflt, ⟨false, false, .wg⟩, false, 1⟩
def stArgs : StArgs := ⟨always, .g 4, .g 12, .b32, .dflt, some .pkg, false, 1⟩
def ldwArgs : LdwArgs := ⟨always, .w 60, .g 4, false, .b128, .dflt, none, 0⟩
def ldsArgs : LdsArgs := ⟨always, .g 8, .g 4, false, .b32, none, 0x3FF⟩
def stsArgs : StsArgs := ⟨always, .g 4, .g 12, false, .b32, some .wg, 0x3FF⟩
def atomsArgs : AtomsArgs := ⟨always, .g 8, .g 4, false, .g 12, .add, .s32, ⟨false, false, .wg⟩, 0⟩
def waitArgs : WaitArgs := ⟨always, .g 8, .g 4, .g 12, .b32, 0, false, some .pkg, false, .eq⟩
def wmarkArgs : DA := ⟨always, .g 8, .g 4⟩
def wmarkWaitArgs : WmarkWaitArgs := ⟨always, .g 8, .g 4, .g 12, 10⟩

theorem witness_AccessesLeave :
    readyFor (.ld ldArgs) (ldChk ldArgs) (fun _ _ _ => false) State.anyRoom none none = true ∧
    readyFor (.stbq stbqArgs) (stbqChk stbqArgs) (stbqHold stbqArgs) State.anyRoom none none = true ∧
    readyFor (.atom atomArgs) (atomChk atomArgs) (atomHold .s32 false) (State.ordPlaces · false) (some .pkg) none = true ∧
    readyFor (.red redArgs) (redChk redArgs) (atomHold .s64 false) (State.ordPlaces · false) none (some .pkg) = true ∧
    readyFor (.cas casArgs) (casChk casArgs) (atomHold .b32 false) (State.ordPlaces · false) none none = true ∧
    (let x : AtomArgs := { atomArgs with ord := true }
     clearB timedS grp (.atom x) = true ∧ memReadyB timedS grp (timedS.participants grp (.atom x)) (atomChk x) (atomHold .s32 true)
       (State.ordPlaces · true) (some .pkg) none = true) := by decide +kernel

theorem witness_StoresAndSharedLoads :
    readyFor (.st stArgs) (stChk stArgs) (stHold stArgs) (State.storePlaces · false) none (some .pkg) = true ∧
    readyFor (.ldw ldwArgs) (ldwChk ldwArgs 0) scratchLoadHold State.anyRoom none none = true ∧
    (let x : StArgs := { stArgs with ord := true, rel := none }
     clearB timedS grp (.st x) = true ∧ memReadyB timedS grp (timedS.participants grp (.st x)) (stChk x) (stHold x)
       (State.storePlaces · true) none none = true) := by decide +kernel

theorem witness_ScratchAccesses :
    readyFor (.lds ldsArgs) (ldsChk ldsArgs) scratchLoadHold State.anyRoom none none = true ∧
    readyFor (.sts stsArgs) (stsChk stsArgs) scratchStoreHold State.anyRoom none (some .wg) = true ∧
    readyFor (.atoms atomsArgs) (atomsChk atomsArgs) scratchStoreHold State.anyRoom none none = true := by decide +kernel

theorem witness_WaitsAndTime :
    readyFor (.wait waitArgs) (waitChk waitArgs) (waitHold waitArgs) State.anyRoom (some .pkg) none = true ∧
    readyFor (.wmark wmarkArgs) (wmarkChk (.g 4)) (fun _ _ _ => false) State.anyRoom none none = true ∧
    readyFor (.wmarkWait wmarkWaitArgs) (wmarkChk (.g 4)) (fun _ _ _ => false) State.anyRoom none none = true := by decide +kernel

/-! ### Hypotheses of the statements about rows 0x0 to 0x5 and 0xB -/

def never : Guard := ⟨7, true⟩

/-- The same group in a clause of two instructions, at the first. -/
def grp2 : Group := { grp with hdr := State.fetchHdr + 0x0100000000000000, words := [0, 0] }
def base2 : State := { base with cur := some grp2 }
/-- The context in checked mode. -/
def checkedS : State :=
  { twoWay with wgs := tmap twoWay.wgs fun w => { w with checked := true } }

theorem clearAll_of {s : State} {g : Group} {l : List Instr} (h : (l.all (clearB s g)) = true) : ∀ i ∈ l, Clear s g i :=
  fun i hi => clear_of (List.all_eq_true.mp h i hi)

/-- Register groups that end at the last register of their file. -/
theorem witness_fits : (Reg.g 127).fits 1 ∧ (Reg.g 126).fits 2 ∧ (Reg.g 124).fits 4 ∧ (Reg.g 122).fits 6 ∧ (Reg.w 63).fits 1 ∧
    (Reg.w 62).fits 2 ∧ (Reg.w 60).fits 4 ∧ Reg.zero.fits 6 ∧ (Reg.g 0).fits 0 := by
  simp [Reg.fits]

theorem witness_IntegerArithmetic :
    (∀ i ∈ [Instr.iadd ⟨always, .g 127, .g 4, .g 6, .s32, true⟩, .isub ⟨always, .g 126, .g 4, .g 6, .z64, false⟩,
      .imul ⟨always, .w 62, .g 4, .w 6, .s64, true⟩, .imulh ⟨always, .zero, .g 4, .g 6, .z32⟩, .imin ⟨never, .g 8, .g 4, .g 6, .s32⟩,
      .imax ⟨always, .g 8, .g 4, .g 6, .s64⟩, .imad ⟨always, .g 8, .g 4, .g 6, .g 8, .s64, true⟩,
      .iabs ⟨always, .g 1, .g 2, .s32, true⟩], Clear base grp i) ∧
    (-2147483649 : Int) < tyLo .s32 ∧ tyHi .s32 < (2147483648 : Int) ∧ tyLo .s32 ≤ (-2147483648 : Int) ∧
    (2147483647 : Int) ≤ tyHi .s32 := ⟨clearAll_of (by decide +kernel), by decide⟩

theorem witness_LogicAndShifts :
    ∀ i ∈ [Instr.and ⟨always, .g 127, .g 4, .g 6, .b32⟩, .or ⟨always, .g 126, .g 4, .g 6, .b64⟩, .xor ⟨always, .w 63, .g 4, .w 6, .b32⟩,
      .shl ⟨always, .g 8, .g 4, .g 6, .b64⟩, .shr ⟨always, .g 8, .g 4, .g 6, .b32, false⟩, .shr ⟨always, .g 8, .g 4, .g 6, .b64, true⟩,
      .rot ⟨always, .g 8, .g 4, .g 6, .b32, false⟩, .rot ⟨always, .g 8, .g 4, .g 6, .b64, true⟩,
      .sel ⟨always, .g 8, .g 4, .g 6, 3, .b64⟩, .lop3 ⟨always, .g 126, .g 4, .g 6, .g 8, 0xCA, true⟩], Clear base grp i :=
  clearAll_of (by decide +kernel)

theorem witness_Immediates :
    ∀ i ∈ [Instr.iaddi ⟨always, .g 127, .g 4, false, .wrap, 0xFFFFFFFF⟩, .imuli ⟨always, .g 126, .g 4, true, .unsigned, 1⟩,
      .lopi ⟨always, .g 8, .g 4, .andn, true, 0x80000000⟩, .movi ⟨always, .g 126, true, 0x80000000⟩, .movhi ⟨always, .g 126, 0x1234⟩],
      Clear base grp i := clearAll_of (by decide +kernel)

theorem witness_BitFieldsAndMoves :
    ∀ i ∈ [Instr.lea ⟨always, .g 126, .g 4, .g 6, .s32, 15⟩, .bfe ⟨always, .g 8, .g 4, .g 6, .s64⟩, .bfi ⟨always, .g 8, .g 4, .g 6, .g 9, .b32⟩,
      .popc ⟨always, .g 8, .g 4, .b64⟩, .clz ⟨always, .g 8, .g 4, .b32⟩, .brev ⟨always, .g 8, .g 4, .b64⟩, .mov ⟨always, .w 63, .g 4, .b32⟩],
      Clear base grp i := clearAll_of (by decide +kernel)

theorem witness_FloatArithmetic :
    ∀ i ∈ [Instr.fadd ⟨always, .g 127, .g 4, .g 6, plain32⟩, .fsub ⟨always, .g 126, .g 4, .g 6, ⟨.f64, .rdn, true, true⟩⟩,
      .fmul ⟨always, .g 8, .g 4, .g 6, plain32⟩, .ffma ⟨always, .g 8, .g 4, .g 6, .g 8, plain32⟩, .fscale ⟨always, .g 8, .g 4, .g 6, plain32⟩,
      .frnd ⟨always, .g 8, .g 4, plain32⟩], Clear base grp i := clearAll_of (by decide +kernel)

theorem witness_Comparisons :
    ∀ i ∈ [Instr.isetp ⟨always, 7, .g 4, .g 6, .s64, .ge, .andn 3⟩, .pset ⟨always, 6, 1, 2, 3, 0x96⟩, .fsetp ⟨always, 1, .g 4, .g 6, .f64, .nan, .not, true⟩,
      .fmin ⟨always, .g 126, .g 4, .g 6, .f64, true⟩, .fmax ⟨always, .g 8, .g 4, .g 6, .f16, false⟩, .fclass ⟨always, .g 8, .g 4, .e4m3⟩],
      Clear base grp i := clearAll_of (by decide +kernel)

theorem witness_PackedAndDots :
    ∀ i ∈ [Instr.hadd2 ⟨always, .g 8, .g 4, .g 6, .bswp, ⟨.f16x2, .rne, false, false⟩⟩, .hmul2 ⟨always, .g 8, .g 4, .g 6, .blo, ⟨.bf16x2, .rup, true, true⟩⟩,
      .hfma2 ⟨always, .g 8, .g 4, .g 6, .g 8, .bhi, ⟨.f16x2, .rne, false, false⟩⟩, .dot4 ⟨always, .g 8, .g 4, .g 6, .g 8, ⟨.s8, .rne, true, false⟩⟩,
      .dot4 ⟨always, .g 8, .g 4, .g 6, .g 8, ⟨.e4m3, .rtz, false, false⟩⟩, .dot2 ⟨always, .g 8, .g 4, .g 6, .g 8, ⟨.z16, .rne, false, false⟩⟩,
      .dot4 ⟨always, .g 8, .g 4, .g 6, .g 8, ⟨.z8, .rne, true, false⟩⟩, .dot4 ⟨always, .g 8, .g 4, .g 6, .g 8, ⟨.e5m2, .rne, true, true⟩⟩,
      .dot2 ⟨always, .g 8, .g 4, .g 6, .g 8, ⟨.s16, .rne, true, false⟩⟩, .dot2 ⟨always, .g 8, .g 4, .g 6, .g 8, ⟨.f16x2, .rup, true, true⟩⟩,
      .dot2 ⟨always, .g 8, .g 4, .g 6, .g 8, ⟨.bf16x2, .rne, false, false⟩⟩],
      Clear base grp i := clearAll_of (by decide +kernel)

theorem witness_SpecialFunctions :
    (∀ i ∈ [Instr.frcp ⟨always, .g 126, .g 4, ⟨.f64, .rne, false, false⟩⟩, .frsq ⟨always, .g 8, .g 4, plain32⟩, .fsqrt ⟨always, .g 8, .g 4, plain32⟩,
      .fexp2 ⟨always, .g 8, .g 4, plain32⟩, .flog2 ⟨always, .g 8, .g 4, plain32⟩, .fsin ⟨always, .g 8, .g 4, plain32⟩,
      .fcos ⟨always, .g 8, .g 4, plain32⟩, .ftanh ⟨always, .g 8, .g 4, plain32⟩], Clear base grp i) ∧
    (∃ sig, decodeF .f32 false 0x7FC00000 = .nan sig) ∧ (∃ neg, decodeF .f32 false 0xFF800000 = .inf neg) ∧
    (∃ neg e, decodeF .f32 false 0x80000000 = .fin neg 0 e) :=
  ⟨clearAll_of (by decide +kernel), ⟨_, rfl⟩, ⟨_, rfl⟩, _, _, rfl⟩

theorem witness_Conversions :
    ∀ i ∈ [Instr.cvt ⟨always, .g 126, .g 4, .s8, ⟨.f64, .rne, false, false⟩⟩, .qscale ⟨always, .g 8, .g 4, .f32, true⟩, .pack ⟨always, .g 8, .g 16, .g 6, .f16, .rne⟩,
      .unpack ⟨always, .g 8, .g 4, .g 6, 2, ⟨.f16, .rne, false, false⟩⟩, .fxaadd ⟨always, .g 124, .g 4, .g 8, true⟩,
      .fxacvt ⟨always, .g 8, .g 4, .g 6, .out ⟨.f64, .rne, false, false⟩⟩, .fxacvt ⟨always, .g 8, .g 4, .g 6, .into .f32 false⟩,
      .fxacvt ⟨always, .g 8, .g 4, .g 6, .anchor⟩], Clear base grp i := clearAll_of (by decide +kernel)

theorem witness_LaneCollectives :
    (∀ i ∈ [Instr.shfl ⟨always, .g 126, .g 4, .g 6, .found 3, .b64, .lane⟩, .shfl ⟨always, .g 8, .g 4, .g 6, .fallback (.g 9), .b32, .xor⟩,
      .vote ⟨always, 1, .all 2⟩, .vote ⟨always, 1, .any 2⟩, .vote ⟨always, 1, .same 2⟩, .vote ⟨always, 1, .mask (.g 8)⟩,
      .vote ⟨always, 1, .count (.g 8)⟩, .vote ⟨always, 1, .first (.g 127)⟩, .matchLanes ⟨always, .g 8, .g 4, .b64, .peers⟩,
      .matchLanes ⟨always, .g 8, .g 4, .b64, .rank⟩, .matchLanes ⟨always, .g 127, .g 4, .b32, .same 3⟩,
      .redux ⟨always, .g 8, .g 4, .add, true, ⟨.s64, .rne, true, false⟩⟩, .redux ⟨always, .g 8, .g 4, .min, false, plain32⟩,
      .active ⟨always, .g 8, true⟩, .prmt ⟨always, .g 8, .g 4, .g 6, .g 7⟩], Clear base grp i) ∧
    (shflLane .lane 0 1).bind (atLane [0, 1]) = some 1 ∧ (shflLane .lane 0 5).bind (atLane [0, 1]) = none :=
  ⟨clearAll_of (by decide +kernel), by decide⟩

theorem witness_SimpleControl :
    (∀ i ∈ [Instr.nop ⟨always⟩, .yield ⟨always⟩, .yield ⟨never⟩, .waitc ⟨always, 0, 63, 0, 63⟩, .kmovMem ⟨always, .g 127, 11⟩,
      .kmovArr ⟨always, .g 8, 0⟩], Clear base grp i) ∧
    base.cur = some grp ∧ hdrN grp.hdr ≤ grp.idx ∧ base2.cur = some grp2 ∧ grp2.idx < hdrN grp2.hdr ∧
    (∀ p ∈ base.participants grp (.waitc ⟨always, 0, 63, 0, 63⟩), (base.thread p).tl ≤ 0 ∧ (base.thread p).st = .running) :=
  ⟨clearAll_of (by decide +kernel), by decide +kernel⟩

/-- k0 with both lanes a member and lane 0 arrived. -/
def meetS (m v : W32) : State :=
  { base with flocks := [(0, { Flock.start with fu := some (State.fetchVa, 0), k := Flock.start.k.set 0 ⟨m, v⟩ })] }

theorem witness_LaneMasksAndMeetings :
    (∀ i ∈ [Instr.join ⟨always, 0⟩, .leave ⟨always, 0⟩, .kmovSet ⟨always, .g 4, 11⟩, .kmovSet ⟨never, .g 4, 11⟩, .kmovClr ⟨always, 3⟩,
      .kmovClr ⟨never, 3⟩, .waitm ⟨always, .g 8, 0, 10⟩], Clear base grp i) ∧
    (base.participants grp (.kmovSet ⟨always, .g 4, 11⟩)).head? = some 0 ∧ base.participants grp (.kmovSet ⟨never, .g 4, 11⟩) = [] ∧
    (base.participants grp (.kmovClr ⟨always, 3⟩)).head? = some 0 ∧ base.participants grp (.kmovClr ⟨never, 3⟩) = [] ∧
    grp.idx = hdrN grp.hdr ∧ grp2.idx ≠ hdrN grp2.hdr ∧ base2.frozen grp2 = false ∧ (∀ m ∈ grp.members, (base.thread m).wait = none) ∧
    (let s : State := { base with threads := [(0, { thr with wait := some ⟨.meet 0, .g 8, none, 0, false, false⟩ }), (1, thr)] }
     (s.thread 0).wait ≠ none) ∧
    ((meetS 2 0).kset (tidFlock 0) 0).m &&& State.laneBit 0 = 0 ∧
    (((meetS 3 1).kset (tidFlock 1) 0).m &&& State.laneBit 1 ≠ 0 ∧
      ((meetS 3 1).kset (tidFlock 1) 0).v ||| State.laneBit 1 = ((meetS 3 1).kset (tidFlock 1) 0).m) ∧
    (((meetS 3 0).kset (tidFlock 1) 0).m &&& State.laneBit 1 ≠ 0 ∧
      ((meetS 3 0).kset (tidFlock 1) 0).v ||| State.laneBit 1 ≠ ((meetS 3 0).kset (tidFlock 1) 0).m) :=
  ⟨clearAll_of (by decide +kernel), by decide +kernel⟩

theorem witness_Branches :
    (∀ i ∈ [Instr.bra ⟨always, .likely, 0xFFFFFFFE⟩, .call ⟨always, .none, 2⟩, .brx ⟨always, .none, .g 4⟩, .callx ⟨always, .none, .g 4⟩,
      .ret ⟨always, .none⟩], Clear base grp i) ∧
    (∀ p ∈ base.participants grp (.brx ⟨always, .none, .g 4⟩), (base.rd64 p (.g 4)).toNat % 8 = 0) ∧
    (∀ p ∈ base.participants grp (.ret ⟨always, .none⟩), (base.rd64 p (linkReg base p)).toNat % 8 = 0) ∧
    linkReg base 0 = .g 126 ∧
    Clear checkedS grp (.bra ⟨⟨1, false⟩, .uniform, 4⟩) ∧ checkedS.checkedMode grp = true ∧
    checkedS.participants grp (.bra ⟨⟨1, false⟩, .uniform, 4⟩) = [0] ∧
    grp.pc + BitVec.ofInt 64 ((4 : W32).toInt * 8) ≠ grp.pc + BitVec.ofNat 64 (8 * (hdrN grp.hdr + 2)) :=
  ⟨clearAll_of (by decide +kernel), by decide +kernel, by decide +kernel, by decide +kernel, clear_of (by decide +kernel),
    by decide +kernel⟩

/-! ### Hypotheses about ends, traps, barriers and addresses -/

def doneB (one : State → Nat → State × Bool) : List Nat → State → Option State
  | [], s => some s
  | t :: ts, s =>
    match s.cur with
    | none => none
    | some g =>
      if t ∈ g.members ∧ t ∉ g.part then
        match one s t with
        | (v, true) => doneB one ts { v with cur := v.cur.map fun h => { h with part := h.part ++ [t] } }
        | (_, false) => none
      else none

theorem allDone_of {one : State → Nat → State × Bool} : ∀ {l : List Nat} {s u : State}, doneB one l s = some u → AllDone one l s u
  | [], s, u, h => Option.some.inj h
  | t :: ts, s, u, h => by
    simp only [doneB] at h
    split at h
    · cases h
    · rename_i g hg
      split at h
      · rename_i hm
        split at h
        · rename_i v hv
          exact ⟨g, hg, .inr ⟨hm.1, hm.2, v, hv, allDone_of h⟩⟩
        · cases h
      · cases h

/-- An instruction whose participants act one by one meets the hypotheses of `EachCompletes`. -/
def eachB (s : State) (i : Instr) (one : List Nat → State → Nat → State × Bool) : Bool :=
  clearB s grp i && (doneB (one (s.participants grp i)) (s.participants grp i) s).isSome

theorem each_of {s : State} {i : Instr} {one : List Nat → State → Nat → State × Bool} (h : eachB s i one = true) :
    ∃ u, Clear s grp i ∧ AllDone (one (s.participants grp i)) (s.participants grp i) s u := by
  simp only [eachB, Bool.and_eq_true, Option.isSome_iff_exists] at h
  obtain ⟨hc, u, hu⟩ := h
  exact ⟨u, clear_of hc, allDone_of hu⟩

/-- Thread 0 has an outstanding load. -/
def loadingS : State := { base with threads := [(0, { thr with ld := 1 }), (1, thr)] }

theorem witness_ThreadsEnd :
    eachB base (.exit ⟨always⟩) (fun _ => State.endThread false) = true ∧
    eachB base (.cont ⟨always⟩) (fun _ => State.endThread true) = true ∧
    isCp 0 = false ∧ loadingS.mayEnd 0 = false ∧ base.mayEnd 0 = true ∧ base.contAbsent 0 true = false ∧
    (let s : State := { absentPage with
       wgs := tmap base.wgs fun w => { w with contrec := 0x100 }, threads := [(0, thr), (1, { thr with st := .ended })] }
     s.mayEnd 0 = true ∧ s.contAbsent 0 true = true) ∧
    grp.part = [] ∧ (∀ m ∈ grp.members, (base.thread m).wg = grp.wg) ∧
    (clearB twoWay grp (.exit ⟨⟨1, false⟩⟩) = true ∧ twoWay.participants grp (.exit ⟨⟨1, false⟩⟩) = [0] ∧ twoWay.mayEnd 0 = true ∧
      tget twoWay.threads 1 = some thr ∧ thr.wg = grp.wg ∧ thr.st ≠ .ended) ∧
    (base.participants grp (.exit ⟨always⟩) = grp.members ∧ (base.wg grp.wg).id = grp.wg ∧ (base.wg grp.wg).contrec = 0 ∧
      (∀ p ∈ grp.members, base.mayEnd p = true) ∧
      (base.threads.all fun x => (grp.members.contains x.1 || x.2.st = .ended) && !x.2.contd) = true) ∧
    base.participants grp (.exit ⟨never⟩) = [] := by decide +kernel

def noHandler : State := { base with ctxs := [(0, { base.ctx 0 with words := { (base.ctx 0).words with handlerPc := 0 } })] }
def debugged : State := { noHandler with ctxs := [(0, { base.ctx 0 with words := { (base.ctx 0).words with ctl := 0xB, handlerPc := 0 } })] }
def handling : State := { base with threads := [(0, { thr with handler := true }), (1, { thr with handler := true })] }
def parked : State := { base with cur := none, threads := [(0, { thr with st := .parked, trapped := true }), (1, { thr with st := .ended })] }

theorem witness_TrapEntry :
    isCp 1 = false ∧ (base.hasThread 1 && handling.hasThread 1 && noHandler.hasThread 1 && debugged.hasThread 1) = true ∧
    tcMisaligned ≠ tcPoison ∧ (handling.thread 1).handler = true ∧
    ((noHandler.thread 1).handler = false ∧ (noHandler.ctx (noHandler.ctxOf 1)).words.handlerPc = 0 ∧
      noHandler.ctxDebug (noHandler.ctxOf 1) = false) ∧
    ((base.thread 1).handler = false ∧ (base.ctx (base.ctxOf 1)).words.handlerPc ≠ 0) ∧
    ((debugged.thread 1).handler = false ∧ (decide (tcBreakpoint = tcBreakpoint) && debugged.ctxDebug (debugged.ctxOf 1)) = true) ∧
    Clear base grp (.bkpt ⟨always, 0xFFFF⟩) ∧ Clear base grp (.trap ⟨always, 0⟩) ∧
    ∀ p ∈ base.participants grp (.trap ⟨always, 0⟩), base.hasThread p = true ∧ (base.thread p).handler = false ∧
      (base.ctx (base.ctxOf p)).words.handlerPc ≠ 0 := by
  refine ⟨by decide +kernel, by decide +kernel, by decide +kernel, by decide +kernel, by decide +kernel, by decide +kernel,
    by decide +kernel, clear_of (by decide +kernel), clear_of (by decide +kernel), by decide +kernel⟩

theorem witness_HandlerEntryAndReturn :
    (0 ∈ parked.threads.map (·.1) ∧ (parked.thread 0).wg = 2 ∧ (parked.thread 0).st = .parked ∧ (parked.thread 0).trapped = true ∧
      (parked.thread 0).handler = false) ∧
    (∀ skip ∈ [true, false], let i : Instr := if skip then .eretSkip ⟨always⟩ else .eret ⟨always⟩
      clearB handling grp i = true ∧ ∀ p ∈ handling.participants grp i, (handling.thread p).handler = true ∧ handling.retryOf p skip = none) ∧
    (let s : State := { handling with threads := [(0, { thr with handler := true, trap := { TrapRec.zero with tpc := State.fetchVa } })] }
     (s.thread 0).trap.tcode.getLsbD 9 = false ∧ (s.thread 0).trap.tcode.getLsbD 8 = false ∧
       s.headerAt 0 (State.clauseAddr (s.thread 0).trap.tpc) = some 0) ∧
    (let s : State := { handling with threads := [(0, { thr with handler := true, trap := { TrapRec.zero with tcode := 0x300 } })] }
     (s.thread 0).trap.tcode.getLsbD 9 = true ∧ (s.thread 0).trap.tcode.getLsbD 8 = true) := by decide +kernel

/-- An error that a copy arrived with. -/
def err0 : DefErr :=
  { id := 3, code := tcPageInvalid, ctr := .cp, nth := 1, apc := State.fetchVa, aidx := 0, entry := 0, addr := 0, onode := 0, oport := 0
    lowers := false, again := none, acc := none, age := 3, op := none }
/-- b0 counts 3, b1 counts 1, b2 holds one signature of 3, b3 stands at phase 5 of 2. -/
def barS : State :=
  { base with bars := [(128, { State.freshBar 3 0 0 with resident := true }), (129, { State.freshBar 1 0 0 with resident := true }),
      (130, { State.freshBar 3 0 0 with resident := true, n := 1, sig := true, signers := [7] }),
      (131, { State.freshBar 2 0 0 with resident := true, p := 5 })] }

theorem witness_BarrierInstructions :
    (∀ i ∈ [Instr.bari ⟨always, .g 4, .b 0⟩, .bara ⟨always, .g 8, .b 15⟩, .barw ⟨always, .g 8, .g 4, .b 0, 10⟩, .baraw ⟨always, .g 8, .b 0, 0⟩,
      .barq ⟨always, .g 8, .b 0⟩, .barqSt ⟨always, .g 8, .b 0⟩], Clear barS grp i ∧ (barS.participants grp i).head? = some 0) ∧
    (barS.needBar (barS.barKey 0 (.b 0))).isSome = true ∧ (barS.needBar (barS.barKey 0 (.b 15))).isSome = true ∧
    barS.barKey 0 (.b 0) = 128 ∧ (132 ≠ 128 ∧ (barS.bar 132).count = 0) ∧
    ((barS.bar 130).sig = true ∧ 0 < (barS.bar 130).n) ∧ (0 < (barS.bar 128).count ∧ (barS.bar 128).sig = false) ∧
    ((barS.bar 131).p - (5 : W32) = 0 ∧ 2 ^ 31 ≤ ((barS.bar 131).p - (6 : W32)).toNat) ∧
    ((barS.bar 129).count ≤ (barS.bar 129).n + 1 ∧ (barS.bar 129).sig = false ∧ (barS.bar 129).count = 1) ∧
    (1 ≤ ((barS.bar 131).p - (4 : W32)).toNat ∧ ((barS.bar 131).p - (4 : W32)).toNat < 2 ^ 31 ∧ (barS.bar 131).p = 4 + 1 ∧
      (barS.bar 131).err = none ∧ (barS.bar 131).p ≠ 3 + 1) ∧
    (let s : State := { barS with
       threads := [(0, { thr with st := .blocked, wait := some ⟨.phase 131 4, .g 8, none, 0, false, false⟩ })]
       bars := [(131, { State.freshBar 2 0 0 with resident := true, p := 5, err := some err0 })] }
     (s.thread 0).wait = some ⟨.phase 131 4, .g 8, none, 0, false, false⟩ ∧ (s.bar 131).p = 4 + 1 ∧ (s.bar 131).err = some err0) ∧
    (∀ x ∈ barS.threads, x.2.wait = none) := by
  refine ⟨?_, by decide +kernel⟩
  intro i hi
  exact ⟨clearAll_of (by decide +kernel) i hi, (by decide +kernel : ∀ i ∈ [Instr.bari ⟨always, .g 4, .b 0⟩, .bara ⟨always, .g 8, .b 15⟩,
    .barw ⟨always, .g 8, .g 4, .b 0, 10⟩, .baraw ⟨always, .g 8, .b 0, 0⟩, .barq ⟨always, .g 8, .b 0⟩, .barqSt ⟨always, .g 8, .b 0⟩],
    (barS.participants grp i).head? = some 0) i hi⟩

/-- Page 0 mapped without W and X. -/
def readOnly : State := { base with mem := mputs base.mem (base.local_ 0xE000) (natLe 8 (base.node.toNat * 2 ^ 52 + 0x300203)) }

theorem witness_AddressChecks :
    (2 : W64).toNat % 4 ≠ 0 ∧ ((0x0080000000000000 : W64).toNat % 16 = 0 ∧ isCp 0 = false ∧ canonical 0x0080000000000000 = false) ∧
    (1 : W32).toNat % 2 ≠ 0 ∧ ((0x400000 : W32).toNat % 4 = 0 ∧ 2 ^ 22 ≤ (0x400000 : W32).toNat) ∧ ((65536 : W32).toNat % 4 = 0 ∧ (base.wgOf 0).tiles * 4096 < (65536 : W32).toNat + 4) ∧
    ((65532 : W32).toNat % 4 = 0 ∧ (65532 : W32).toNat + 4 ≤ (base.wgOf 0).tiles * 4096) ∧
    (match base.translate 0 0 8 true false with | .ok _ _ => true | _ => false) = true ∧
    (canonical 8 = true ∧ State.tlbFind (readOnly.core 0).tlb 0 ((8 : W64).toNat % 2 ^ 56) = none ∧
      State.tlbFind (readOnly.quad (coreQuad 0)).tlb 0 ((8 : W64).toNat % 2 ^ 56) = none ∧
      (match readOnly.walk 0 8 with
      | .ok l => l.ent.getLsbD 1 && !l.ent.getLsbD 2 && !l.ent.getLsbD 3
      | _ => false) = true) := by decide +kernel

/-! ### Hypotheses of the statements about rows 0x6 to 0xD -/

/-- A load of eight bytes of thread 0 that has left its core for this package's memory. -/
def acc0 : Access :=
  { id := 9, tids := [0], core := 0, ctx := 0, pc := State.fetchVa, idx := 0, va := 8, pa := 0x30008, op := .load .b64, dst := .g 126
    acq := none, rel := none, hint := .dflt, sc := false, wb := false, ord := false, sent := 0, cycle := 0, nth := [1], seen := false }

def localXl : Xlat := match base.translate 0 0 8 false false with | .ok x _ => x | _ => ⟨0, 0, 0, false, false, false⟩

theorem witness_AccessesLeave_effects :
    base.isLocal localXl.pa = true ∧ base.stbqRefused 0 localXl.pa = false ∧ atomArgs.ord = false ∧ redArgs.ord = false ∧
    casArgs.ord = false ∧ State.isHost localXl.pa = false ∧
    (let s : State := { base with cores := tput base.cores 0 { base.core 0 with sq := [{ acc0 with op := .store .b64 5, dst := .zero }] } }
     s.stbqRefused 0 0x30008 = true) ∧
    (State.isHost (5 * 2 ^ 48) = false ∧ fabS.isLocal (5 * 2 ^ 48) = false ∧
      fabS.fabricOk (fabS.ctxTenant 0) (State.portTo (5 * 2 ^ 48)) = true) ∧
    (State.isHost (2 ^ 60) = true ∧ (base.vd (base.ctxVd 0)).dead.contains (2 ^ 60 / 2 ^ 48 % 16) = false) := by decide +kernel

theorem witness_StoresAndSharedLoads_effects :
    base.isLocal localXl.pa = true ∧ stArgs.ord = false ∧ isCp 0 = false ∧ isCp 524288 = true ∧ [0, 1].head? ≠ some 1 ∧
    [0, 1].head? = some 0 ∧ [0, 1].Nodup ∧
    (base.isLocal (5 * 2 ^ 48) = false ∧ State.isHost (5 * 2 ^ 48) = false ∧ stArgs.rel ≠ none) ∧
    (base.isLocal (2 ^ 60) = false ∧ State.isHost (2 ^ 60) = true) := by
  decide +kernel

theorem witness_ScratchAccesses_effects :
    base.poison = [] ∧ (base.wg 2).scr.wf ∧ State.dstFor ldsArgs.d [0, 1] 0 = ldsArgs.d ∧ ldsArgs.d ≠ .zero ∧
    ldsArgs.d.fits ldsArgs.size.words ∧ State.dstFor atomsArgs.d [0, 1] 0 = atomsArgs.d ∧ atomsArgs.d ≠ .zero ∧
    atomsArgs.d.fits atomsArgs.aty.words ∧ (0 < 2 ∨ 2 + 4 ≤ 0) ∧ (65535 < 65532 ∨ 65532 + 4 ≤ 65536) ∧ 3 < Size.b32.bytes := by
  refine ⟨by decide +kernel, by decide +kernel, by decide +kernel, by decide +kernel, ?_, by decide +kernel, by decide +kernel, ?_,
    by decide, by decide, by decide⟩ <;> simp [ldsArgs, atomsArgs, Reg.fits, Size.words, Aty.words, Aty.bytes]

theorem witness_WaitsAndTime_effects :
    base.poison = [] ∧
    (let k := placeKey (.global 8 localXl)
     let v := base.watched 0 k.1 k.2.1 .b32
     waitCond .eq .b32 v (base.rdN 0 (.g 12) 1) = true ∧ waitCond .ne .b32 v (base.rdN 0 (.g 12) 1) = false) ∧
    waitArgs.e = 0 ∧ (15 : TExp) ≠ 0 ∧
    (clearB base grp (.ptime ⟨always, .g 126⟩) = true ∧
      (∀ p ∈ base.participants grp (.ptime ⟨always, .g 126⟩), flushPending base p = false ∧ base.stampAhead (tidCore p) = false)) ∧
    (base.isLocal (5 * 2 ^ 48) = false ∧ (placeKey (.global 8 localXl)).2.1 = none ∧ (placeKey (.scratch 2 0)).2.1 ≠ none) ∧
    clearB base grp (.ptimeUntil ⟨always, .g 8, .g 4⟩) = true ∧
    recvKey base (2 ^ 60) = none ∧ (recvKey base localXl.pa).isSome = true := by decide +kernel

theorem witness_CacheControl :
    (let i : Instr := .fence ⟨always, ⟨true, true, .pod⟩⟩
     let u := base.sendAllOwn grp.members
     clearB base grp i = true ∧ u.cur = some grp ∧
       ∀ m ∈ grp.members, u.fenced m = false ∧ u.fenceWaits (some .pod) (some .pod) m = false) ∧
    clearB base grp (.pref ⟨always, .g 4, .dflt, 1⟩) = true ∧
    (clearB base grp (.cctlWb ⟨always, .g 4⟩) = true ∧
      ∀ p ∈ base.participants grp (.cctlWb ⟨always, .g 4⟩), canonical (base.rd64 p (.g 4)) = true) ∧
    (clearB base grp (.cctlWbr ⟨always, .g 4, .g 6⟩) = true ∧
      ∀ p ∈ base.participants grp (.cctlWbr ⟨always, .g 4, .g 6⟩), canonical (base.rd64 p (.g 4)) = true) ∧
    clearB base grp (.cctlWball ⟨always⟩) = true ∧ clearB base grp (.cctlInv ⟨always⟩) = true ∧
    (clearB base grp (.cctlEvl ⟨always, .g 4⟩) = true ∧
      ∀ p ∈ base.participants grp (.cctlEvl ⟨always, .g 4⟩), canonical (base.rd64 p (.g 4)) = true) ∧
    (clearB base grp (.drain ⟨always, .g 8, 10⟩) = true ∧
      ∀ p ∈ base.participants grp (.drain ⟨always, .g 8, 10⟩), base.localStoresOut p = false) := by decide +kernel

/-- The first and the last tile of the allocation are full. -/
def tileS : State :=
  { base with wgs := tmap base.wgs fun w => { w with tile := [(0, { TileRec.empty with full := true }), (15, { TileRec.empty with full := true })] } }

theorem witness_TileInstructions :
    (clearB base grp (.talloc ⟨always, .g 8, 15, 0, 10⟩) = true ∧
      ∀ p ∈ base.participants grp (.talloc ⟨always, .g 8, 15, 0, 10⟩), base.runPast (base.thread p).wg 15 0 = false) ∧
    (clearB base grp (.tfree ⟨always, 0, 15⟩) = true ∧
      ∀ p ∈ base.participants grp (.tfree ⟨always, 0, 15⟩), base.runPast (base.thread p).wg 0 15 = false ∧
        base.runIdle (base.thread p).wg (State.runTiles 0 15) = true) ∧
    (clearB base grp (.tstat ⟨always, .g 8, 15, 0⟩) = true ∧
      ∀ p ∈ base.participants grp (.tstat ⟨always, .g 8, 15, 0⟩), base.runPast (base.thread p).wg 15 0 = false) ∧
    (clearB base grp (.tstatWait ⟨always, .g 8, 15, 0, 0⟩) = true ∧
      ∀ p ∈ base.participants grp (.tstatWait ⟨always, .g 8, 15, 0, 0⟩), base.runPast (base.thread p).wg 15 0 = false) ∧
    eachB twoWay (.tset ⟨⟨1, false⟩, .g 4, 15, 0⟩) (fun _ => tsetOne ⟨⟨1, false⟩, .g 4, 15, 0⟩) = true ∧
    eachB tileS (.cbld ⟨always, 3, 15⟩) (fun _ => cbldOne ⟨always, 3, 15⟩) = true ∧
    (base.runPast (base.thread 0).wg 15 0 = false ∧ base.runIdle (base.thread 0).wg (State.runTiles 15 0) = true) ∧
    (let w := (tileS.thread 0).wg
     15 < (tileS.wg w).tiles ∧ tileS.tileEmpty w 15 = false ∧ (tileS.tileOf w 15).fill = 0 ∧ (tileS.tileOf w 15).drain = 0 ∧
       tileS.poison = [] ∧
       ((tileS.core (tidCore 0)).cmds.any fun m => m.stage ≠ .issued && State.kindCb m.kind = some 3) = false) ∧
    (let i : Instr := .tset ⟨⟨1, false⟩, .g 4, 15, 0⟩
     clearB twoWay grp i = true ∧ twoWay.participants grp i = [0] ∧ grp.part = [] ∧ twoWay.runPast (twoWay.thread 0).wg 15 0 = false ∧
       twoWay.runIdle (twoWay.thread 0).wg (State.runTiles 15 0) = true) ∧
    (let i : Instr := .cbld ⟨always, 3, 15⟩
     clearB tileS grp i = true ∧ tileS.participants grp i ≠ [] ∧
       (∀ p ∈ tileS.participants grp i, (tileS.thread p).wg = 2 ∧ tidCore p = 0)) := by decide +kernel

def cmd0 (stage : CmdStage) (len : Nat) (src : Int) : Cmd :=
  { id := 30, stage, tid := some 0, entry := 0, wg := 2, ctx := 0, kind := .linear src 512 len 1 0 0 .glob .glob none 0, bad := none, bar := none
    pc := State.fetchVa, idx := 0, nth := 1, fills := [], drains := [], empties := [], pages := [(0, 0x30000)], takes := [0x600], owns := [0x604]
    since := 0, done := 0 }
def cpyArgs : CpyArgs := ⟨always, .g 4, .g 6, .g 8, .glob, .glob, ⟨0, none, some (.b 15)⟩⟩
def cpytArgs : CpytArgs := ⟨always, .regs (.g 16), .g 4, .g 8, false, 0, none⟩
def cpystArgs : CpystArgs := ⟨always, .g 4, .g 6, .g 8, .glob, .scratch, none, some (.b 0)⟩

theorem witness_CopyInstructions :
    eachB base (.cpy cpyArgs) (fun _ => State.issueCmd cpyArgs.o.bar (cpyKind cpyArgs)) = true ∧
    eachB base (.cpytLd cpytArgs) (fun _ => State.issueCmd cpytArgs.bar (cpytKind cpytArgs false)) = true ∧
    eachB base (.cpytSt cpytArgs) (fun _ => State.issueCmd cpytArgs.bar (cpytKind cpytArgs true)) = true ∧
    eachB base (.cpyst cpystArgs) (fun _ => State.issueCmd cpystArgs.bar (cpystKind cpystArgs)) = true ∧
    (base.unitRoom (tidCore 0) = true ∧ (base.needBar (base.barKey 0 (.b 15))).isSome = true) ∧
    (let i : Instr := .cpy { cpyArgs with o := ⟨0, none, some (.b 0)⟩ }
     clearB barS grp i = true ∧ grp.part = [] ∧ (∀ m ∈ grp.members, tidCore m = grp.core) ∧
       (∀ p ∈ barS.participants grp i, (barS.bar (barS.barKey p (.b 0))).resident = true) ∧
       (let s : State := { barS with cores := tput barS.cores 0 { barS.core 0 with cmds := List.replicate 30 (cmd0 .issued 8 0) } }
        (s.core grp.core).cmds.length + (s.participants grp i).length ≤ 32)) ∧
    clearB base grp (.stage ⟨always, .g 4⟩) = true ∧ clearB base grp (.stageMax ⟨always, .g 4⟩) = true := by decide +kernel

/-- List 2 of the workgroup holds 128 entries. -/
def fullList : State :=
  { base with cores := tput base.cores 0 { base.core 0 with lists := [(34, List.replicate 128 ⟨0, false, 0, none, 64⟩)] } }

theorem witness_SendLists :
    clearB base grp (.snda ⟨always, .g 8, .g 4, .g 6, .g 10, false, 15, 0⟩) = true ∧
    (128 ≤ ((tget (fullList.core 0).lists 34).getD []).length ∧ ((tget (fullList.core 0).lists 35).getD []).length < 128) ∧
    (let i : Instr := .snda ⟨⟨1, false⟩, .g 8, .g 4, .g 6, .g 10, false, 15, 0⟩
     clearB twoWay grp i = true ∧ twoWay.participants grp i = [0]) ∧
    (timedS.hasThread 0 = true ∧ isCp 0 = false ∧ (tget timedS.wgs (timedS.thread 0).wg).isSome = true) ∧
    (let i : Instr := .sndf ⟨always, .g 4, 15⟩
     clearB timedS grp i = true ∧ memReadyB timedS grp (timedS.participants grp i) (sndfChk ⟨always, .g 4, 15⟩)
       (fun s _ _ => !s.timed) State.anyRoom none none = true) ∧
    (let i : Instr := .penq ⟨always, .g 8, .g 4⟩
     clearB timedS grp i = true ∧ memReadyB timedS grp (timedS.participants grp i) (penqChk (.g 4) false) penqHold State.anyRoom (some .pod) none = true) ∧
    (let i : Instr := .penqAdv ⟨always, .g 8, .g 4, .g 6⟩
     clearB timedS grp i = true ∧
       memReadyB timedS grp (timedS.participants grp i) (penqChk (.g 4) true) penqHold State.anyRoom (some .pod) (some .pod) = true) ∧
    base.isLocal localXl.pa = true := by decide +kernel

/-- The threads hold a valid format word in g4 and their team's barrier counts 3, its first phase holding one signature. -/
def engS : State :=
  { base with
    threads := [(0, { thr with g := thr.g.set 4 0x11 }), (1, { thr with g := thr.g.set 4 0x11 })]
    bars := [(128, { State.freshBar 3 0 0 with resident := true, n := 1, sig := true, signers := [7] })] }

def collArgs : Collective := ⟨always, .g 8, .g 4, .g 6, .b 0, 10⟩

theorem witness_MatrixInstructions :
    grp.part = [] ∧
    (∀ i ∈ [Instr.mlds collArgs, .mma collArgs, .macr collArgs, .mstat ⟨always, .g 127⟩, .mstatTags ⟨always, .g 8⟩], clearB base grp i = true) ∧
    eachB base (.mswp ⟨always⟩) (fun ps s t => State.ownOne (fun _ _ _ => .post .mswp) (State.statusReg .zero ps t) false base s t) = true ∧
    eachB tileS (.macw ⟨always, .g 8, .g 4⟩)
      (fun ps s t => State.ownOne (macwReq ⟨always, .g 8, .g 4⟩) (State.statusReg (.g 8) ps t) true tileS s t) = true ∧
    eachB base (.macz ⟨always, .g 8, .g 4⟩)
      (fun ps s t => State.ownOne (maczReq ⟨always, .g 8, .g 4⟩) (State.statusReg (.g 8) ps t) true base s t) = true ∧
    eachB base (.mnbr ⟨always, .g 8, .g 4, .g 6⟩)
      (fun ps s t => State.ownOne (mnbrReq ⟨always, .g 8, .g 4, .g 6⟩) (State.statusReg (.g 8) ps t) false base s t) = true := by
  decide +kernel

/-- MACW's control word asks for more rows than a tile holds. -/
def oddRows : State := { base with threads := [(0, { thr with g := thr.g.set 4 0xFFFFFFFF })] }

def isPost (r : OwnReq) (op : EngOp) : Bool := match r with | .post o => decide (o = op) | _ => false
def isStatus (r : OwnReq) (k : Nat) : Bool := match r with | .status j => decide (j = k) | _ => false

/-- The load is outstanding. -/
def outS : State := { base with accs := [acc0], fresh := 100, threads := [(0, { thr with ld := 1, nld := 1 }), (1, thr)] }

/-- Bytes that are 0 but where the list says otherwise. -/
def bytesAt (n : Nat) (l : List (Nat × Nat)) : List Byte := (List.range n).map fun i => BitVec.ofNat 8 ((l.lookup i).getD 0)

/-- A record of four points of one workgroup of 32 threads, without a frontier, stands at 0x100, which g4:g5 name. -/
def lnchS : State :=
  { base with
    mem := mputs base.mem (base.local_ 0x30100) (bytesAt 256 [(2, 1), (0x10, 1), (0x15, 2), (0x16, 3), (0x18, 4), (0x28, 32), (0x2A, 16)])
    threads := [(0, { thr with p := 2, g := thr.g.set 4 0x100 }), (1, thr)] }
/-- What a LNCH by the thread `p` asks of its record. -/
def lnchReady (c : State) (p : Nat) (x : DA) : Bool :=
  let va := c.rd64 p x.a
  !c.releaseWaits p .pkg && va.toNat % 64 = 0 && (!isCp p || c.inWindow p va 256) &&
    match State.placeSpan (tidCore p) (c.ctxOf p) false (State.spanOf va 256) c with
    | .ok (l, u) =>
      let bytes := l.flatMap fun y => mbytes u.mem y.1.pa y.2
      (l.all fun y => u.homeServes p y.1.pa y.2 && decide (u.poisonAt y.1.pa y.2 = none)) &&
        (match u.checkRecord p bytes with | some (some _) => true | _ => false) &&
        (match u.resumeFrom p bytes with | .fresh => true | _ => false)
    | .error _ => false

theorem witness_LaunchInstructions :
    eachB base (.frdn ⟨always⟩) (fun _ => frdnOne) = true ∧
    eachB base (.lnch ⟨always, .g 8, .g 4⟩)
      (fun ps s t => State.lnchOne ⟨always, State.statusReg (.g 8) ps t, .g 4⟩ base s t) = true ∧
    clearB base grp (.frpt ⟨always, .g 124⟩) = true ∧ clearB base grp (.frq ⟨always, .g 127, .g 4⟩) = true ∧
    clearB base grp (.frqNext ⟨always, .g 127, .g 4⟩) = true ∧
    (let i : Instr := .lnch ⟨⟨1, false⟩, .g 8, .g 4⟩
     clearB lnchS grp i = true ∧ lnchS.participants grp i = [0] ∧ grp.part = [] ∧ lnchReady lnchS 0 ⟨⟨1, false⟩, .g 8, .g 4⟩ = true) ∧
    (∀ p ∈ base.participants grp (.frdn ⟨always⟩), base.releaseWaits p .pkg = false) ∧
    base.releaseWaits 0 .pkg = false ∧
    outS.releaseWaits 0 .pkg = true ∧ isCp 0 = false := by decide +kernel

def ent0 (op : EngOp) (pass : Nat) : EngEnt :=
  { id := 50, op, ctx := 0, wg := 2, signers := [0], collective := false, bar := 0, prio := 0, since := 0, granted := true, readyAt := none
    chained := false, pass, srcs := [], dsts := [], image := [] }
/-- MACW's control word asks for row 0 from tile 0. -/
def oneRow : State := { tileS with threads := [(0, { thr with g := thr.g.set 4 0x100 }), (1, { thr with g := thr.g.set 4 0x100 })] }

theorem witness_MatrixInstructions_requests :
    (let k := engS.barKey 0 (.b 0)
     engS.stands 0 = true ∧ fwValid ((EngOp.mlds 0x11 0).fw.getD 0) = true ∧ (EngOp.mlds 0x11 0).rowsOk = true ∧
       engS.pastTiles (engS.thread 0).wg ((EngOp.mlds 0x11 0).sources ++ (EngOp.mlds 0x11 0).dests) = false ∧
       ((engS.needBar k).any fun u => decide ((u.bar k).n + 1 < (u.bar k).count) && (u.bar k).sig) = true) ∧
    (let op (p : Nat) : EngOp := .macw (oneRow.rd p (.g 4))
     let i : Instr := .macw ⟨always, .g 8, .g 4⟩
     clearB oneRow grp i = true ∧ (∀ p ∈ oneRow.participants grp i, coreQuad (tidCore p) = 0 ∧ (op p).rowsOk = true ∧
       oneRow.pastTiles (oneRow.thread p).wg (op p).sources = false ∧
       (State.allTiles (op p).sources).all (oneRow.tileReady (oneRow.thread p).wg) = true ∧
       (EngOp.macz (oneRow.rd p (.g 4))).rowsOk = true) ∧
       (let s : State := { oneRow with quads := tput oneRow.quads 0 { oneRow.quad 0 with table := List.replicate 30 (ent0 .mswp 0) } }
        (s.quad 0).table.length + (s.participants grp i).length ≤ 32)) ∧
    (let i : Instr := .mnbr ⟨always, .g 8, .g 5, .g 4⟩
     clearB engS grp i = true ∧ (∀ p ∈ engS.participants grp i, fwValid (engS.rd p (.g 4)) = true ∧
       State.roleOk (coreQuad (tidCore p)) ((engS.rd p (.g 5)).toNat % 16) = true)) ∧
    (let k := base.barKey 0 (.b 15)
     ((base.needBar k).any fun u => decide ((u.bar k).count = 0)) = true) ∧
    isPost (macwReq ⟨always, .g 8, .g 4⟩ oneRow oneRow 0) (.macw 0x100) = true ∧
    (oneRow.quad (coreQuad (tidCore 0))).table.length < 32 ∧
    eachB oneRow (.macw ⟨always, .g 8, .g 4⟩)
      (fun ps s t => State.ownOne (macwReq ⟨always, .g 8, .g 4⟩) (State.statusReg (.g 8) ps t) true oneRow s t) = true ∧
    isStatus (macwReq ⟨always, .g 8, .g 4⟩ oddRows oddRows 0) 2 = true := by decide +kernel

theorem witness_MarketInstructions :
    (∀ i ∈ [Instr.bid ⟨always, .g 8, .g 4, .g 5, .g 6⟩, .price ⟨always, .g 126, .g 4, .g 5⟩, .priceSold ⟨always, .g 8, .g 4, .g 5⟩,
      .recallReq ⟨always, .g 8, .g 4, .g 5⟩, .purse ⟨always, .g 8, none⟩, .purseRate ⟨always, .g 8, some (.g 4)⟩,
      .purseCap ⟨always, .g 8, none⟩, .lease ⟨always, .g 8, .g 4⟩, .leaseTime ⟨always, .g 8, .g 4⟩, .meter ⟨always, .g 8, .g 4⟩,
      .recallT ⟨always, .g 8, .g 4, .g 5, .g 6⟩], clearB base grp i = true) ∧ isCp 0 = false ∧
    ((0 : Nat) < 256 ∧ poolUnits 0 ≠ 0 ∧ 32 ≤ poolUnits 0) ∧ poolUnits 2 = 0 ∧ poolUnits 0 < 33 ∧ poolUnits 215 = 4 ∧
    poolUnits 255 = 0 ∧
    (let s : State := { base with market := { base.market with pools := [(0, ⟨0, some (8, 3, 5)⟩)] } }
     (s.poolAt 0).clears = some (8, 3, 5) ∧ (0 : W32).toNat = s.node.toNat) ∧
    (let s : State := { base with market := { base.market with remote := [(4095 * 256 + 0, (8, 3, 5))] } }
     (4095 : W32).toNat < 4096 ∧ (4095 : W32).toNat ≠ s.node.toNat ∧
       tget s.market.remote ((4095 : W32).toNat * 256 + (0 : W32).toNat) = some (8, 3, 5)) ∧
    (base.rd 0 (.g 4)).toNat < 256 ∧ base.fullPriv 0 = true ∧
    (let s : State := { base with threads := [(0, { thr with g := thr.g.set 4 256 })] }
     256 ≤ (s.rd 0 (.g 4)).toNat) := by decide +kernel

theorem witness_SpecialRegisters :
    (∀ i ∈ [Instr.csrr ⟨always, .g 126, 0x010⟩, .csrr ⟨always, .g 127, 0x102⟩, .csrr ⟨always, .g 8, 0xFFF⟩, .csrw ⟨always, .g 4, 0x00E⟩,
      .csrw ⟨always, .g 4, 0x110⟩], clearB base grp i = true) ∧
    (base.thread 0).handler = false ∧ (handling.thread 0).handler = true ∧
    (let i : Instr := .csrw ⟨always, .g 4, 0x111⟩
     clearB base grp i = true ∧
       ∀ p ∈ base.participants grp i, (base.sendAllOwn (base.participants grp i)).releaseWaits p .pkg = false) ∧
    (∀ i ∈ [Instr.csrr ⟨always, .g 127, 0x100⟩, .csrw ⟨always, .g 4, 0x101⟩], clearB handling grp i = true) := by decide +kernel

theorem witness_TranslationInvalidation :
    (∀ i ∈ [Instr.tlbiVa ⟨always, .g 4, .g 6⟩, .tlbiCtx ⟨always, .g 4⟩, .tlbiAll ⟨always⟩], clearB base grp i = true ∧
      (let ps := base.participants grp i
       let u := base.sendAllOwn ps
       ps.head? = some 0 ∧ (base.thread 0).tlbi = none ∧ (ps.all fun p => !u.releaseWaits p .pkg) = true ∧
         (u.dropTlb fun _ => false).stillGoing (u.translatedBy (fun _ => true) fun _ _ => true) = false)) ∧
    (let s : State := { base with threads := [(0, { thr with tlbi := some (some [50]) }), (1, { thr with tlbi := some (some [50]) })], accs := [acc0] }
     (s.thread 0).tlbi = some (some [50]) ∧ s.stillGoing [50] = false ∧ s.stillGoing (s.translatedBy (fun _ => false) fun _ _ => true) = true) ∧
    clearB base grp (.tlbiAll ⟨never⟩) = true ∧ base.participants grp (.tlbiAll ⟨never⟩) = [] := by decide +kernel

def doneCode : HaltRes → Option (Nat × Bool)
  | .done k u => some (k, u.hasThread 0)
  | .later _ => none

/-- Workgroup 7 of the same context, halted, with one thread that waits until cycle 50. -/
def haltS : State :=
  { base with
    wgs := base.wgs ++ [(7, { base.wg 2 with id := 7, wgid := 1, slot := 1, halted := true })]
    threads := base.threads ++ [(32, { thr with wg := 7, st := .blocked, wait := some ⟨.ptime 9, .g 8, some 50, 0, false, false⟩ })] }

theorem witness_Halts :
    (∀ x ∈ [(HaltOp.halt, fun x => Instr.halt x), (.run, .haltRun), (.step, .haltStep), (.save, .haltSave)],
      eachB base (x.2 ⟨always, .g 8, .g 4, .g 6⟩) (fun ps => haltOne x.1 ⟨always, .g 8, .g 4, .g 6⟩ ps base) = true) ∧
    isCp 0 = false ∧ doneCode (haltS.haltOp .run 1 0 (some 2)) = some (0, true) ∧
    (let i : Instr := .haltRun ⟨⟨1, false⟩, .g 8, .g 4, .g 6⟩
     clearB twoWay grp i = true ∧ twoWay.participants grp i = [0] ∧ grp.part = [] ∧ doneCode (twoWay.haltOp .run (twoWay.rd 0 (.g 4))
       (twoWay.rd 0 (.g 6)).toNat (some (twoWay.thread 0).wg)) = some (2, true)) ∧
    doneCode (haltS.haltOp .halt 0 256 (some 2)) = some (2, true) ∧
    (let s : State := { haltS with wgs := tmap haltS.wgs fun w => { w with halted := false } }
     (s.wg 7).halted = false ∧ (tget s.threads 32).map (·.wg) = some 7) := by decide +kernel

/-! ### Queue programs -/

def run0 : Run :=
  { vd := 0, queue := 63, owner := 0, packet := ⟨0, 0, [1, 2, 3, 4, 5, 6, 7, 8], none⟩, code := [0], base := 0, size := 0, pos := 0, words := []
    fwdTo := none, fwd := [], held := [], count := 255, last := none, transcript := [], checkpoint := [], attach := [] }

def cpGrp : Group := { grp with core := 256, wg := 3, pc := 0, members := [524288] }

/-- A management run of die 0 at its 256th instruction. -/
def cpS : State :=
  { base with
    cur := some cpGrp, runs := [(0, run0)], threads := base.threads ++ [(524288, { Thread.start 3 0 with st := .running })]
    wgs := base.wgs ++ [(3, { base.wg 2 with id := 3, core := 256 })] }

def clearRunB (s : State) (g : Group) (i : Instr) (t : Nat) (r : Run) : Bool :=
  decide (s.cur = some g) && decide (g.members = [t]) && Machine.isCp t && decide (tget s.runs (tidCore t - 256) = some r) &&
    decide (r.last ≠ some (g.pc, g.idx)) && decide (r.count < 256) && !s.frozen g && !s.interlocked t i && !s.counterFull t i &&
    decide ((s.thread t).errs = []) && s.allowed t i && s.rangeOk t i && !instrUsesWK i && decide (s.poison = [])

theorem clearRun_of {s : State} {g : Group} {i : Instr} {t : Nat} {r : Run} (h : clearRunB s g i t r = true) : ClearRun s g i t r := by
  simp only [clearRunB, Bool.and_eq_true, decide_eq_true_eq, Bool.not_eq_true'] at h
  obtain ⟨⟨⟨⟨⟨⟨⟨⟨⟨⟨⟨⟨⟨a, b⟩, c⟩, d⟩, e⟩, f⟩, k⟩, l⟩, m⟩, n⟩, o⟩, p⟩, q⟩, u⟩ := h
  exact ⟨a, b, c, d, e, f, k, ⟨l, m, n, o, p⟩, q, u⟩

/-- A queue program whose window holds the record of `lnchS` launches it. -/
theorem witness_LaunchInstructions_run :
    let s : State := { cpS with
      mem := lnchS.mem, runs := [(0, { run0 with size := 0x10000 })]
      threads := [(524288, { Thread.start 3 0 with st := .running, g := thr.g.set 4 0x100 })] }
    let i : Instr := .lnch ⟨always, .g 8, .g 4⟩
    clearRunB s cpGrp i 524288 { run0 with size := 0x10000 } = true ∧ s.participants cpGrp i = [524288] ∧
      lnchReady (counted s cpGrp 524288 { run0 with size := 0x10000 }) 524288 ⟨always, .g 8, .g 4⟩ = true := by decide +kernel

theorem witness_QueueInstructions :
    (∀ i ∈ [Instr.qpop ⟨always, .g 126, 6⟩, .qpushRep ⟨always, .g 4, 0⟩, .qpushFwd ⟨always, .g 4, .g 6, 7⟩, .nop ⟨⟨7, false⟩⟩],
      ClearRun cpS cpGrp i 524288 run0) ∧ cpS.guardTrue 524288 always = true ∧ (Reg.g 126).fits 2 :=
  ⟨fun i hi => clearRun_of ((by decide +kernel : ∀ i ∈ [Instr.qpop ⟨always, .g 126, 6⟩, .qpushRep ⟨always, .g 4, 0⟩,
    .qpushFwd ⟨always, .g 4, .g 6, 7⟩, .nop ⟨⟨7, false⟩⟩], clearRunB cpS cpGrp i 524288 run0 = true) i hi), by decide +kernel,
    by simp [Reg.fits]⟩

theorem witness_SecurityInstructions :
    (∀ i ∈ [Instr.crypTh ⟨always, .g 8, .g 4, .g 6⟩, .crypEmit ⟨always, .g 8, .g 4, .g 6⟩, .crypMeas ⟨always, .g 8, .g 4⟩,
      .crypNonce ⟨always, .g 8⟩, .crypSign ⟨always, .g 8⟩, .crypCert ⟨always, .g 8, .g 4, .g 6⟩, .crypTinit ⟨always, .g 8⟩,
      .crypTmark ⟨always, .g 8⟩, .crypTrest ⟨always, .g 127⟩],
      clearRunB cpS cpGrp i 524288 run0 = true ∧ cpS.participants cpGrp i = [524288]) ∧
    ((counted cpS cpGrp 524288 run0).crypSpan ⟨always, .g 8, .g 4, .g 6⟩ false 524288).isSome = true ∧
    ((counted cpS cpGrp 524288 run0).crypSpan ⟨always, .g 8, .g 4, .g 6⟩ true 524288).isSome = true ∧
    (let s : State := { cpS with threads := [(524288, { Thread.start 3 0 with g := thr.g.set 6 65537 })] }
     attachMax < (s.rd 524288 (.g 6)).toNat) ∧
    (cpS.runOf 524288 = some run0 ∧ attachMax < run0.attach.length + (List.replicate 65537 (0 : Byte)).length ∧
      run0.attach.length + (List.replicate 4 (0 : Byte)).length ≤ attachMax) := by decide +kernel

def session (last doing : Option MStep) : Session :=
  { ctx := 0, last, doing, desc := 0, owner := 0, cut := none, forwarded := [], fence := none }

theorem witness_MigrationInstructions :
    (∀ i ∈ [Instr.migrOpen ⟨always, .g 8, .g 4, .g 6⟩, .migrLand ⟨always, .g 8, .g 4, .g 6⟩, .migrRound ⟨always, .g 8, .g 4⟩,
      .migrStop ⟨always, .g 8, .g 4⟩, .migrAbort ⟨always, .g 8, .g 4⟩, .migrClose ⟨always, .g 8, .g 4⟩], clearB base grp i = true) ∧
    (base.heldStep 0 255 = false ∧ base.sessionOf 255 = none) ∧
    (∀ i ∈ [Instr.migrOpen ⟨⟨1, false⟩, .g 8, .g 4, .g 6⟩, .migrLand ⟨⟨1, false⟩, .g 8, .g 4, .g 6⟩],
      clearB twoWay grp i = true ∧ twoWay.participants grp i = [0]) ∧
    (∀ step ∈ [MStep.round, .stop, .abort, .close], twoWay.migrStatus 0 ((twoWay.rd 0 (.g 4)).toNat) step ≠ 0) ∧
    (let s (last : MStep) : State := { twoWay with sessions := [session (some last) none] }
     ∀ x ∈ [(Instr.migrRound ⟨⟨1, false⟩, .g 8, .g 4⟩, MStep.round, MStep.open), (.migrStop ⟨⟨1, false⟩, .g 8, .g 4⟩, .stop, .round),
      (.migrAbort ⟨⟨1, false⟩, .g 8, .g 4⟩, .abort, .stop), (.migrClose ⟨⟨1, false⟩, .g 8, .g 4⟩, .close, .stop)],
      clearB (s x.2.2) grp x.1 = true ∧ (s x.2.2).participants grp x.1 = [0] ∧
        (s x.2.2).migrStatus 0 ((s x.2.2).rd 0 (.g 4)).toNat x.2.1 = 0 ∧ (s x.2.2).heldStep 0 0 = false ∧
        (s x.2.2).sessionOf 0 = some (session (some x.2.2) none)) ∧
    (let s (last : MStep) : State := { cpS with sessions := [session (some last) none] }
     ∀ x ∈ [(Instr.migrRound ⟨always, .g 8, .g 4⟩, MStep.round, MStep.open), (.migrClose ⟨always, .g 8, .g 4⟩, .close, .stop)],
      clearRunB (s x.2.2) cpGrp x.1 524288 run0 = true ∧ (s x.2.2).participants cpGrp x.1 = [524288] ∧
        (counted (s x.2.2) cpGrp 524288 run0).migrStatus 524288 ((s x.2.2).rd 524288 (.g 4)).toNat x.2.1 = 0) ∧
    (let s : State := { base with sessions := [session none (some .open)] }
     s.heldStep 0 0 = false ∧ s.sessionOf 0 = some (session none (some .open)) ∧ (session none (some .open)).doing ≠ none) := by
  decide +kernel

/-! ### What stands before an instruction's own effect -/

def mayTrapB (s : State) (g : Group) : Bool :=
  decide (s.cur = some g) && decide (g.members ≠ []) && decide g.members.Nodup && g.members.all fun t =>
    !isCp t && decide ((s.thread t).errs = []) && !(s.thread t).handler && decide ((s.ctx (s.ctxOf t)).words.handlerPc ≠ 0)

theorem mayTrap_of {s : State} {g : Group} (h : mayTrapB s g = true) : MayTrap s g := by
  simp only [mayTrapB, Bool.and_eq_true, decide_eq_true_eq, Bool.not_eq_true', List.all_eq_true] at h
  obtain ⟨⟨⟨a, b⟩, c⟩, d⟩ := h
  exact ⟨a, b, c, fun t ht => (d t ht).1.1.1, fun t ht => (d t ht).1.1.2, fun t ht => (d t ht).1.2, fun t ht => (d t ht).2⟩

/-- The load holds g126 of thread 0; the workgroup is halted; it has 8 registers, 1 barrier and no team. -/
def haltedS : State := { base with wgs := tmap base.wgs fun w => { w with halted := true } }
def smallS : State := { base with wgs := tmap base.wgs fun w => { w with regs := 8, bars := 1 } }
/-- An ordinary clause. -/
def loneGrp : Group := { grp with hdr := State.fetchHdr &&& ~~~0x1000000000 }

theorem witness_ChecksBeforeIssue :
    WellFormed (.mov ⟨always, .g 126, .g 4, .b32⟩) ∧ haltedS.cur = some grp ∧ haltedS.frozen grp = true ∧
    (outS.cur = some grp ∧ outS.interlocked 0 (.mov ⟨always, .g 126, .g 4, .b32⟩) = true) ∧
    MayTrap smallS grp ∧
    (let i : Instr := .mov ⟨always, .g 8, .g 4, .b32⟩
     smallS.holds grp i = false ∧ (grp.members.all fun t => smallS.allowed t i) = true ∧
       (grp.members.all fun t => (instrTouches i).any (grpPast (smallS.wgOf t).regs)) = true ∧ instrUsesWK i = false) ∧
    (let i : Instr := .mov ⟨always, .w 63, .g 4, .b32⟩
     mayTrapB { base with cur := some loneGrp } loneGrp = true ∧ instrUsesWK i = true ∧ hdrFu loneGrp.hdr = false ∧
       hdrFu grp.hdr = true ∧ base.holds loneGrp i = false) := by
  refine ⟨by decide +kernel, by decide +kernel, by decide +kernel, by decide +kernel, mayTrap_of (by decide +kernel), by decide +kernel,
    by decide +kernel⟩

theorem witness_CountersAndBarrierOperands :
    WellFormed (.ld ldArgs) ∧
    (let s : State := { base with threads := [(0, { thr with ld := 63 }), (1, thr)] }
     s.cur = some grp ∧ instrCtr (.ld ldArgs) = some .ld ∧ instrGuard (.ld ldArgs) = some always ∧ 0 ∈ grp.members ∧
       s.guardTrue 0 always = true ∧ 63 ≤ (s.thread 0).ctr .ld) ∧
    (∀ b ∈ [Bar.b 1, .bt 0], let i : Instr := .barq ⟨always, .g 0, b⟩
      WellFormed i ∧ instrBar i = some b ∧ mayTrapB smallS grp = true ∧ smallS.holds grp i = false ∧
        (grp.members.all fun t => smallS.allowed t i) = true ∧ instrUsesWK i = false) ∧
    (∀ t ∈ grp.members, (smallS.wgOf t).bars ≤ 1 ∧ (smallS.wgOf t).team = none) := by decide +kernel

/-- A context without privilege. -/
def userS : State :=
  { base with ctxs := tmap base.ctxs fun c => { c with words := { c.words with ctl := 1 } } }
/-- The same group at a word that decodes to none. -/
def badGrp : Group := { grp with words := [0xF0E0000000000000] }

theorem witness_PrivilegedInstructions :
    mayTrapB userS grp = true ∧ (∀ t ∈ grp.members, userS.fullPriv t = false) ∧
    (∀ i ∈ [Instr.eret ⟨always⟩, .eretSkip ⟨always⟩, .tlbiVa ⟨always, .g 4, .g 6⟩, .tlbiCtx ⟨always, .g 4⟩, .tlbiAll ⟨always⟩,
      .halt ⟨always, .g 8, .g 4, .g 6⟩, .migrOpen ⟨always, .g 8, .g 4, .g 6⟩, .recallT ⟨always, .g 8, .g 4, .g 5, .g 6⟩,
      .csrr ⟨always, .g 8, 0x100⟩, .csrw ⟨always, .g 4, 0x101⟩], WellFormed i ∧ userS.holds grp i = false) ∧
    mayTrapB base grp = true ∧
    (∀ i ∈ [Instr.qpop ⟨always, .g 8, 0⟩, .qpushRep ⟨always, .g 4, 0⟩, .qpushFwd ⟨always, .g 4, .g 6, 0⟩, .crypSign ⟨always, .g 8⟩],
      WellFormed i ∧ base.holds grp i = false) ∧
    (let s : State := { base with cur := some badGrp }
     mayTrapB s badGrp = true ∧ (match decode (badGrp.words.getD badGrp.idx 0) with | .error _ => true | .ok _ => false) = true ∧
       badGrp.blocked = false ∧ s.frozen badGrp = false) := by decide +kernel

/-! ### Events of the memory system and of the fabric -/

def mayReturnB (s : State) (a : Access) (p : Nat) : Bool :=
  decide (s.accs.find? (fun x => x.id = a.id) = some a) && decide (a.tids = [p]) && s.hasThread p && s.isLocal a.pa && !s.behindOwn a &&
    !s.ownedLine (a.pa / 128) && !s.sliceHot a.pa && !s.flitWaits a.id &&
    (!a.sc || (s.storesOf a.core).all fun b => decide (b.id = a.id) || !b.meets a.pa a.op.len) &&
    s.floorOk (s.thread p).floor a.pa && decide (a.acq = none) && decide (s.hitsL1 a none = none) && decide (s.poison = [])

theorem mayReturn_of {s : State} {a : Access} {p : Nat} (h : mayReturnB s a p = true) : MayReturn s a p := by
  simp only [mayReturnB, Bool.and_eq_true, decide_eq_true_eq, Bool.not_eq_true', Bool.or_eq_true, List.all_eq_true] at h
  obtain ⟨⟨⟨⟨⟨⟨⟨⟨⟨⟨⟨⟨a, b⟩, c⟩, d⟩, e⟩, f⟩, k⟩, l⟩, q⟩, m⟩, n⟩, o⟩, r⟩ := h
  refine ⟨a, b, c, d, e, f, k, l, fun hs x hx hne => ?_, m, n, o, r⟩
  obtain q | q := q
  · rw [hs] at q; cases q
  · exact (q x hx).resolve_left hne

/-- One access outstanding. -/
def outOf (a : Access) : State := { outS with accs := [a] }

/-- 2,048 lines of context 0 dirty at slice 0, its whole quota. -/
def fullSlice (s : State) : State :=
  { s with dirty := (List.range 2048).map fun i => (2 ^ 26 + i, { ctx := 0, writers := [(0, 1)], wb := false, first := 1, last := 1, spilled := false, out := false, way := none, lane := [] }) }

theorem witness_AccessesComplete :
    (∀ op ∈ [AccOp.load .b64, .atom .add .s64 1, .red .add .s64 1, .cas .b64 0 5, .stbq .b64 7],
      MayReturn (outOf { acc0 with op }) { acc0 with op } 0) ∧
    mayReturnB (outOf { acc0 with sc := true }) { acc0 with sc := true } 0 = true ∧
    ((outOf acc0).acceptLine 0 false false (acc0.pa / 128)).isSome = true ∧ acc0.dst.fits acc0.grp.2 ∧
    (let a : Access := { acc0 with op := .stbq .b64 7 }
     mayReturnB (fullSlice (outOf a)) a 0 = true ∧ ((fullSlice (outOf a)).acceptLine 0 false false (a.pa / 128)).isNone = true) := by
  refine ⟨fun op h => mayReturn_of ((by decide +kernel : ∀ op ∈ [AccOp.load .b64, .atom .add .s64 1, .red .add .s64 1, .cas .b64 0 5, .stbq .b64 7],
    mayReturnB (outOf { acc0 with op }) { acc0 with op } 0 = true) op h), by decide +kernel, by decide +kernel, ?_, by decide +kernel⟩
  simp [acc0, Reg.fits, Access.grp, Size.words]

/-- A store of thread 0 queued in core 0. -/
def store0 : Access := { acc0 with op := .store .b64 5, dst := .zero }
def queuedS : State :=
  { base with cores := tput base.cores 0 { base.core 0 with sq := [store0] }, threads := [(0, { thr with stc := 1, nst := 1 }), (1, thr)] }
def heldQ : State := { queuedS with cores := tput queuedS.cores 0 { queuedS.core 0 with sqHeld := true } }
def wcb0 : WcbEnt := { id := 5, line := 2 ^ 41 + 3, ctx := 0, stores := [store0], since := 0, sent := none }
/-- A full write-combining buffer entry and a dirty line, 2 µs on. -/
def lateS : State :=
  { base with
    now := 8000, cores := tput base.cores 0 { base.core 0 with wcb := [wcb0] }
    dirty := [(0x600, { ctx := 0, writers := [(0, 1)], wb := false, first := 1, last := 1, spilled := false, out := true, way := none, lane := [] })] }

theorem witness_StoresReachHome :
    ((queuedS.core 0).sq = [store0] ∧ queuedS.ownedLine (store0.pa / 128) = false ∧ queuedS.sliceHot store0.pa = false ∧
      (queuedS.acceptLine 0 false false (store0.pa / 128)).isSome = true ∧
      ((fullSlice queuedS).acceptLine 0 false false (store0.pa / 128)).isNone = true ∧
      ((fullSlice queuedS).core 0).sq = [store0] ∧ (fullSlice queuedS).ownedLine (store0.pa / 128) = false) ∧
    ((heldQ.core 0).sqHeld = true ∧ heldQ.tailLine 0 = some (store0.pa / 128, 0) ∧ heldQ.ownedLine (store0.pa / 128) = false ∧
      heldQ.sliceHot (store0.pa / 128 * 128) = false ∧ (heldQ.acceptLine 0 false true (store0.pa / 128)).isSome = true) ∧
    ((tget lateS.dirty 0x600).map (·.wb) = some false ∧ lateS.sliceHot (0x600 * 128) = false ∧
      (tget lateS.dirty 0x600).map (fun d => (d.spilled, d.ctx)) = some (false, 0) ∧
      lateS.market.share = [] ∧ lateS.market.topUp = [] ∧
      (let k := sliceDie (lateS.dirtySlice 0x600) * 256
       128 ≤ (tget [(k, 128)] (sliceDie (lateS.dirtySlice 0x600) * 256 + 0)).getD 0)) ∧
    ((lateS.core 0).wcb[0]? = some wcb0 ∧ (lateS.core 0).wcb.find? (fun x => x.id = wcb0.id) = some wcb0 ∧ wcb0.sent = none ∧
      wcb0.since + 8000 ≤ lateS.now) := by decide +kernel

/-- A group at a plain ST that its full queue has stalled since cycle 0, in a context whose stores trap. -/
def stInstr : StArgs := ⟨always, .g 4, .g 12, .b32, .dflt, none, false, 1⟩
def stallGrp : Group := { grp with words := [(encode (.st stInstr)).getD 0], stalled := true }
def pressedS : State :=
  { base with
    cur := none, groups := [stallGrp], threads := [(0, { thr with fullFrom := some 0 }), (1, thr)], cyc := 2 ^ 40
    cores := tput base.cores 0 { base.core 0 with sq := (List.range 64).map fun i => { store0 with pa := i * 128 } }
    ctxs := tmap base.ctxs fun c => { c with words := { c.words with storectl := 1 } } }
/-- The same with its spill quota used up, in a context that asks for SPILL_QUOTA. -/
def spentS : State :=
  fullSlice { pressedS with
    cores := tput base.cores 0 { base.core 0 with sq := (List.range 64).map (fun i => { store0 with pa := i * 128 }), sqHeld := true }
    ctxs := tmap base.ctxs fun c => { c with words := { c.words with storectl := 2 } } }
def far : Access := { acc0 with pa := 5 * 2 ^ 48 }

theorem witness_StoresReachHome_losses :
    (pressedS.groupOf 0 = some stallGrp ∧ State.instrAt stallGrp = some (.st stInstr) ∧ stallGrp.stalled = true ∧
      pressedS.guardTrue 0 stInstr.g = true ∧ 64 ≤ (State.queueLines (pressedS.core (tidCore 0)).sq).length ∧
      (pressedS.spillTraps (pressedS.ctxOf 0) && pressedS.spillUsed (tidCore 0) (pressedS.ctxOf 0)) = false ∧
      pressedS.pressureTraps (pressedS.ctxOf 0) = true ∧ (pressedS.thread 0).fullFrom = some 0 ∧
      pressedS.storeThresh (pressedS.ctxOf 0) < pressedS.cyc - 0 ∧ 0 - 0 ≤ pressedS.storeThresh (pressedS.ctxOf 0)) ∧
    (spentS.groupOf 0 = some stallGrp ∧ 64 ≤ (State.queueLines (spentS.core (tidCore 0)).sq).length ∧
      (spentS.spillTraps (spentS.ctxOf 0) && spentS.spillUsed (tidCore 0) (spentS.ctxOf 0)) = true) ∧
    (let s : State := { outOf far with now := 512000 }
     s.accs.find? (fun x => x.id = far.id) = some far ∧ far.id < 2 ^ 32 ∧ s.isLocal far.pa = false ∧ far.sent + 512000 ≤ s.now ∧ s.flitWaits far.id = false ∧
       s.flitPending far.id = false ∧ s.outSaved = [] ∧ State.isHost far.pa = false ∧
       far.tids = [0] ∧ far.nth = [1] ∧ s.hasThread 0 = true ∧ far.op.counted = true) ∧
    (let s : State := { base with threads := [(0, { thr with st := .blocked, wait := some ⟨.wmark 8 48 7, .g 8, none, 0, false, false⟩ })], now := 512000 }
     (s.thread 0).wait = some ⟨.wmark 8 48 7, .g 8, none, 0, false, false⟩ ∧ 0 + 512000 ≤ s.now ∧ s.flitWaits (State.waitFlit 0) = false ∧
       s.flitPending (State.waitFlit 0) = false ∧ 48 ≤ 48 ∧ s.isLocal (5 * 2 ^ 48) = false) := by decide +kernel

/-- An ordered atomic of thread 0 on its way to slice 3. -/
def ordAcc : Access := { acc0 with op := .atom .add .s64 1, ord := true }
def ord0 (recv stamp : Nat) (st : OrdState) : OrdOp :=
  { id := 20, rank := ⟨stamp, 0, 0, 0⟩, src := 0, recv, work := .access ordAcc, st, left := 0 }
def ordS (recv stamp : Nat) (st : OrdState) : State := { outS with accs := [], now := 1000, ords := [ord0 recv stamp st] }

theorem witness_OrderedEvents :
    (∀ st ∈ [OrdState.sent, .held, .applied 4 7, .rejected], (ordS 3 7 st).ords.find? (fun x => x.id = 20) = some (ord0 3 7 st)) ∧
    (∀ st ∈ [OrdState.sent, .applied 4 7, .rejected], (ordS 3 7 st).outSaved = []) ∧
    (let s : State := { ordS 3 7 .sent with recvs := [(3, { w := 8, moved := 0, asked := false, slow := 0 })] }
     (ord0 3 7 .sent).rank.stamp < s.markOf 3 ∧ (ord0 3 7 .sent).recv < 48) ∧
    (let st : Access := { acc0 with op := .store .b64 5, dst := .zero, ord := true, pa := 5 * 2 ^ 48 }
     let o : OrdOp := { ord0 (48 + 5 * 4096) 7 .sent with work := .access st }
     let s : State := { ordS 3 7 .sent with ords := [o] }
     s.ords.find? (fun x => x.id = 20) = some o ∧ s.outSaved = [] ∧ 48 ≤ o.recv ∧ s.flitWaits 20 = false ∧ s.rankBehind o = false ∧ s.ordOwned o = false ∧
       s.isLocal st.pa = false ∧ st.tids = [0] ∧ s.hasThread 0 = true ∧ st.acq = none ∧ (s.cores.all fun c => c.2.flushes = []) = true ∧
       (let u : State := { s with ords := [{ o with id := 19, rank := ⟨6, 0, 0, 0⟩ }, o] }
        u.ords.find? (fun x => x.id = 20) = some o ∧ u.outSaved = [] ∧ u.rankBehind o = true)) ∧
    (48 ≤ (ord0 48 7 .sent).recv ∧ (ordS 3 7 .sent).markOf 3 ≤ (ord0 3 7 .sent).rank.stamp) ∧
    (ordAcc.tids = [0] ∧ (ordS 3 7 (.applied 4 7)).hasThread 0 = true ∧ ordAcc.op.counted = true ∧ ordAcc.acq = none) ∧
    (ordS 3 7 .held).nextHeld 3 = some (ord0 3 7 .held) := by decide +kernel

def packet (port stamp addr : Nat) : InPacket :=
  { port, rank := ⟨stamp, 9, 0, 1⟩, tenant := 0, addr, op := .load 8, wm := 0, onode := 9, oport := 2 }

/-- A trained input that was last heard at time 0, whose watermark stands at 100; range 0 takes remote accesses. -/
def linkS : State :=
  { base with
    now := 300000, ports := [(0x200, { PortIn.zero with trained := true, wm := 100 })]
    ranges := [(0, { w0 := 1, w1 := 0x1000000#64, w2 := BitVec.ofNat 64 (2 ^ 32 + 2 ^ 22), w3 := 0 })] }
/-- The same with an operation held since time 0 at slice 3. -/
def stuckS : State := { linkS with ords := [ord0 3 200 .held], recvs := [(3, { w := 100, moved := 0, asked := false, slow := 0 })] }

theorem witness_FabricEvents :
    ((9 : Nat) ≠ base.node.toNat ∧ 0 = base.node.toNat ∧ State.isFabricPort 0x217 = true ∧ State.isFabricPort 0x200 = true ∧
      (linkS.ords.any fun o => o.st = .held) = false) ∧
    (let p := packet 0 50 0x30008
     let v := linkS.syncRecvs.rejoinPort (State.fabricPort p.port) p.wm
     p.port < 24 ∧ p.rank.stamp < (v.recv (v.homeOf p.addr)).w) ∧
    (let p := packet 0 100 0x30008
     let v := linkS.syncRecvs.rejoinPort (State.fabricPort p.port) p.wm
     (v.recv (v.homeOf p.addr)).w ≤ p.rank.stamp ∧ v.remoteOkFor p.tenant p.addr = true ∧
       v.remoteOkFor p.tenant (p.addr + State.homeLen p.op - 1) = true) ∧
    (let p := packet 0 100 0x2000000
     let v := linkS.syncRecvs.rejoinPort (State.fabricPort p.port) p.wm
     (v.recv (v.homeOf p.addr)).w ≤ p.rank.stamp ∧ v.remoteOkFor p.tenant p.addr = false) ∧
    (let v := stuckS.syncRecv 3
     (v.ords.any fun o => o.recv = 3 && o.st = .held) = true ∧ (v.recv 3).asked = false ∧ (v.recv 3).moved + 256000 ≤ stuckS.now) ∧
    (linkS.outSaved = [] ∧ (let s : State := { linkS with ports := [(0x200, { PortIn.zero with cut := true })] }
      s.outSaved = [] ∧ s.inputUp 0x200 = false ∧ (s.port 0x200).cut = true) ∧ (linkS.port 0x201).cut = false) ∧
    (linkS.inputUp 0x200 = true ∧ (linkS.port 0x200).heard + 256000 ≤ linkS.now ∧ base.now < (linkS.port 0x200).heard + 256000 ∧
      linkS.inputUp 0x201 = false ∧ linkS.inputUp 5 = true ∧ State.isFabricPort 5 = false) ∧
    (let s : State := { stuckS with recvs := [(3, { w := 100, moved := 0, asked := true, slow := 0 })] }
     (s.recv 3).asked = true ∧ 0x100 ≤ 0x105 ∧ 0x105 ≠ s.node.toNat ∧ 0 = s.node.toNat) ∧
    (State.isLinkInput 0x200 = true ∧ State.isLinkInput 0x220 = true ∧ State.isFabricPort 0x220 = false ∧
      tget linkS.ports 0x220 = none ∧
      tget ({ linkS with ports := [(0x220, PortIn.zero)] } : State).ports 0x220 ≠ none) ∧
    (let s : State := { linkS with tenants := [(0, Tenant.zero)] }
     (tget s.shared 0).getD 0 + 4000 ≤ s.now ∧ s.hotPorts.contains 0 = false ∧ tget s.tenants 0 = some Tenant.zero ∧
       s.queuedAt 0 0 = 0) := by decide +kernel

/-! ### Events of copies, tiles and the matrix engine -/

def cmdS (m : Cmd) : State :=
  { base with cores := tput base.cores 0 { base.core 0 with cmds := [m] }, threads := [(0, { thr with cp := 1, ncp := 1 }), (1, thr)] }
/-- A command that fills tile 15 from memory. -/
def loadCmd (src : Int) : Cmd :=
  { cmd0 .issued 16 src with kind := .linear src 0xF000 16 1 0 0 .scratch .glob none 0, pages := [], takes := [], owns := [] }
def isOk (r : State.CmdChk) : Bool := match r with | .ok .. => true | _ => false
def isAbsent (r : State.CmdChk) : Bool := match r with | .absent => true | _ => false
def isRefused (r : State.CmdChk) : Bool := match r with | .refused .. => true | _ => false

/-- What COPY_ACCEPT asks of the tiles and lines of a command that passes its checks. -/
def acceptable (s : State) (m : Cmd) : Bool :=
  match s.checkCmd m with
  | .ok d pages u =>
    let ts := (State.mvsOf m.kind d).flatMap Mv.touches
    let m1 := { m with pages }
    let owns := (State.touchLines m1 true ts ++ State.sigLines m1).eraseDups
    ((u.touchTiles m.wg false ts).all fun x => (u.tileOf x.1 x.2).fill = 0 && (u.tileOf x.1 x.2).drain = 0) &&
      ((u.touchTiles m.wg true ts).all fun x => u.tileFree x.1 x.2) && (owns.all fun l => !u.ownedLine l) && !ts.isEmpty &&
      ((State.touchLines m1 false ts ++ owns).all fun l => u.isLocal (l * 128) ||
        (!State.isHost (l * 128) && u.fabricOk (u.ctxTenant m.ctx) (State.portTo (l * 128))) ||
        (State.isHost (l * 128) && !(u.vd (u.ctxVd m.ctx)).dead.contains (l * 128 / 2 ^ 48 % 16)))
  | _ => false

def tset0 : TsetOp := { id := 31, wg := 2, t := 14, cnt := 2, pat := 0xA5A5A5A5 }
def flush0 (res : List SndRes) (alt : Option W64) (firsts : List Nat) : Flush :=
  { id := 40, tid := 0, wg := 2, ctx := 0, recVa := 0x100, pc := State.fetchVa, idx := 0, ents := [⟨8, false, 64, alt, 64⟩], res, firsts, alts := [], nth := 1 }
def flushS (f : Flush) : State :=
  { base with
    timed := true, cores := tput base.cores 0 { base.core 0 with flushes := [f] }, threads := [(0, { thr with cp := 1, ncp := 1 }), (1, thr)] }

theorem witness_CopyEvents :
    (let s : State := { base with cores := tput base.cores 0 { base.core 0 with tsets := [tset0] } }
     (s.core 0).tsets[0]? = some tset0) ∧
    (let m := loadCmd (2 ^ 55)
     let s := cmdS m
     (s.core 0).cmds.find? (fun m => m.stage ≠ .moving) = some m ∧ m.stage = .issued ∧ s.earlierStores 0 m = false ∧
       isRefused (s.checkCmd m) = true) ∧
    (let m := loadCmd 16
     let s := cmdS m
     (s.core 0).cmds.find? (fun m => m.stage ≠ .moving) = some m ∧ s.earlierStores 0 m = false ∧ isOk (s.checkCmd m) = true ∧
       acceptable s m = true ∧ m.wg ∉ (s.core 0).loads ∧
       (let m : Cmd := { m with kind := .linear 16 0xF000 16 1 0 0 .scratch .glob (some 0) 0 }
        let s : State := { cmdS m with cores := tput s.cores 0 { s.core 0 with cmds := [m], loads := [2] } }
        (s.core 0).cmds.find? (fun m => m.stage ≠ .moving) = some m ∧ m.wg ∈ (s.core 0).loads ∧ State.kindCb m.kind = some 0) ∧
       ({ s with cores := tput s.cores 0 { s.core 0 with sq := [store0] } } : State).earlierStores 0 m = true ∧
       isAbsent (({ s with mem := absentPage.mem, ctxs := absentPage.ctxs } : State).checkCmd m) = true) ∧
    (let m := { loadCmd 16 with kind := .linear 16 0xF000 0 1 0 0 .scratch .glob none 0 }
     (match (cmdS m).checkCmd m with
       | .ok d _ _ => (State.mvsOf m.kind d).flatMap Mv.touches = [] && State.sigLines m = []
       | _ => false) = true) ∧
    (let m := cmd0 .moving 1 8
     let s := cmdS m
     (s.core 0).cmds.find? (fun m => m.id = 30 && m.stage = .moving) = some m ∧ s.cmdBehind 0 m = false ∧ s.flitWaits m.id = false ∧
       ((m.takes ++ m.owns).all fun l => !s.sliceHot (l * 128)) = true ∧
       s.poison = [] ∧ m.kind = .linear 8 512 1 1 0 0 .glob .glob none 0 ∧ m.tid = some 0 ∧ s.hasThread 0 = true ∧ m.bar = none ∧
       m.fills = [] ∧ m.drains = [] ∧ m.done = 0) ∧
    (let s (res : List SndRes) := flushS (flush0 res none [])
     ((s [.waiting]).flush? 0 40 = some (flush0 [.waiting] none []) ∧ ((flush0 [.waiting] none []).res.any fun r => r = .waiting) = true) ∧
     ((s [.refused]).flush? 0 40 = some (flush0 [.refused] none []) ∧ (flush0 [.refused] none []).ents.length = 1 ∧
      (flush0 [.refused] none []).res = [.refused] ∧ (flush0 [.refused] none []).alts = [])) ∧
    (let f := flush0 [.refused] (some 128) []
     ((flushS f).modFlush 0 40 fun f => { f with alts := f.alts ++ [0] }).sendRow 0 f 0 ⟨8, false, 64, some 128, 64⟩ 128 |>.isSome) = true ∧
    (let f := flush0 [.primary] none [0]
     (flushS f).flush? 0 40 = some f ∧ (f.res.any fun r => r = .waiting ∨ r = .refused) = false ∧ f.ents.length ≤ f.firsts.length ∧
       (match (flushS f).translate 0 f.ctx f.recVa true false with | .ok x u => !u.sliceHot x.pa | _ => false) = true) := by decide +kernel

def engOf (e : EngEnt) (tag : Nat) : State :=
  { base with quads := tput base.quads 0 { base.quad 0 with table := [e], active := { Plane.zero with fb := tag } } }

theorem witness_EngineCompletes :
    (∀ op ∈ [EngOp.mswp, .mlds 0x11 0, .macz 0x100, .macw 0x100, .macr 0x11 0x100, .mnbr 0x11 1, .mma 0x11 0x100],
      ((engOf (ent0 op 0) 1).quad 0).table.find? (fun x => x.id = 50) = some (ent0 op 0) ∧ (ent0 op 0).granted = true ∧
        (engOf (ent0 op 0) 1).poison = []) ∧
    (tget (engOf (ent0 (.macr 0x11 0x100) 0) 1).wgs 2).isSome = true ∧
    tagOk 0x11 ((engOf (ent0 (.mma 0x11 0x100) 0) 1).quad 0).active = true ∧
    tagOk 0x11 ((engOf (ent0 (.mma 0x11 0x100) 0) 3).quad 0).active = false ∧
    (ent0 .mswp 0).signers = [0] ∧ base.hasThread 0 = true ∧ (ent0 (.mma 0x11 0x100) 7).pass ≠ 0 := by decide +kernel

def req0 (chained : Bool) : EngEnt := { ent0 (.macz 0x100) 0 with granted := false, chained }
def reqS (chained : Bool) : State := { base with quads := tput base.quads 0 { base.quad 0 with reqs := [req0 chained] } }
/-- Thread 0 waits as the second of two signers for a third, until cycle 0. -/
def signS : State :=
  { base with
    threads := [(0, { thr with tl := 1, st := .blocked, wait := some ⟨.sign 128 .mswp, .g 8, some 0, 0, false, false⟩ }), (1, thr)]
    bars := [(128, { State.freshBar 3 0 0 with resident := true, n := 2, sig := true, signers := [1, 0] })] }
def readyEnt : EngEnt := { ent0 .mswp 0 with granted := false }
def grantS : State := { base with quads := tput base.quads 0 { base.quad 0 with table := [readyEnt] } }

theorem witness_EngineEvents :
    (((reqS false).quad 0).reqs.find? (fun x => x.id = 50) = some (req0 false) ∧ (req0 false).chained = false ∧
      (reqS false).postable 0 (req0 false) = true) ∧
    (let s := reqS true
     let all := (s.chainOf 0).filterMap fun q => (s.firstChained q).map fun r => (q, r)
     (s.quad 0).reqs.find? (fun x => x.id = 50) = some (req0 true) ∧ all.length = (s.chainOf 0).length ∧
       (all.any fun x => x.2.id = 50) = true ∧ (all.all fun x => s.postable x.1 x.2) = true) ∧
    ((signS.thread 0).wait = some ⟨.sign 128 .mswp, .g 8, some 0, 0, false, false⟩ ∧ 0 ≤ signS.cyc ∧ (signS.wgOf 0).halted = false ∧
      signS.hasThread 0 = true ∧ ((signS.bar 128).signers.filter fun x => x = 0) = [0] ∧
      (signS.quad (coreQuad (tidCore 0))).reqs = [] ∧ 1 < (signS.bar 128).n) ∧
    ((grantS.quad 0).table.find? (fun x => x.id = 50) = some readyEnt ∧ grantS.chosen 0 readyEnt = true ∧ readyEnt.pass = 0) := by
  decide +kernel

/-! ### Events of waits, clauses, queues and launches -/

def waiting (kind : WaitKind) (deadline : Option Nat) : State :=
  { base with threads := [(0, { thr with st := .blocked, wait := some ⟨kind, .g 127, deadline, 0, false, false⟩ }), (1, thr)] }
def memWait (pa : Nat) (g : Option Nat) (va : W64) : WaitKind := .mem va pa g .b32 0 .eq none false
/-- Where a WAIT reads again: none for an absent page, `some none` for a page that is not valid. -/
def placeIs (s : State) (va : W64) (pa : Nat) (w : Option Nat) : Option (Option Nat) :=
  match s.waitPlace 0 va pa w with
  | .ok p => some (some p)
  | .error true => some none
  | .error false => none
def xlOk (r : XRes) : Bool := match r with | .ok .. => true | _ => false
def xlFault (r : XRes) : Bool := match r with | .fault _ => true | _ => false
/-- The sheepdog's condition has held for 1 ms, with thread 0 at a meeting without limit. -/
def stillS : State :=
  { waiting (.meet 0) none with now := 4000000, ctxs := tmap base.ctxs fun c => { c with still := some 0 } }

theorem witness_WaitsEnd :
    (((waiting (.ptime 9) (some 0)).thread 0).wait = some ⟨.ptime 9, .g 127, some 0, 0, false, false⟩ ∧ 0 ≤ base.cyc ∧
      ((waiting (.ptime 9) (some 0)).wgOf 0).halted = false) ∧
    ((Reg.g 127) ≠ .zero ∧ base.poison = []) ∧
    xlFault (base.translate (tidCore 0) (base.ctxOf 0) 0x0000800000000000 false false) = true ∧
    (let s := waiting (memWait 0x30008 none 8) none
     (s.thread 0).wait = some ⟨memWait 0x30008 none 8, .g 127, none, 0, false, false⟩ ∧ s.homeServes 0 0x30008 4 = true ∧
       xlOk (s.translate (tidCore 0) (s.ctxOf 0) 8 false false) = true) ∧
    (let s := waiting (memWait (2 ^ 60) none 8) none
     State.isHost (2 ^ 60) = true ∧ s.homeServes 0 (2 ^ 60) 4 = true ∧ s.isLocal (2 ^ 60) = false ∧
       0 + 4000 ≤ ({ s with now := 4000 } : State).now) ∧
    (let s := waiting (memWait (5 * 2 ^ 48) none 8) none
     s.isLocal (5 * 2 ^ 48) = false ∧ State.isHost (5 * 2 ^ 48) = false ∧ s.flitWaits (State.waitFlit 0) = false) ∧
    (placeIs (waiting (memWait 0x30008 none 8) none) 8 0x30008 none = some (some 0x30008) ∧
      placeIs (waiting (memWait 0x40008 none 8) none) 8 0x40008 none = some (some 0x30008) ∧
      placeIs (waiting (memWait 8 (some 2) 8) none) 8 8 (some 2) = some (some 8) ∧
      placeIs base 0x0000800000000000 0x30008 none = some none ∧ placeIs absentPage 8 0x30008 none = none) ∧
    (let s : State := { waiting (.wmark 8 3 7) none with timed := true, now := 1000, recvs := [(3, { w := 8, moved := 0, asked := false, slow := 0 })] }
     s.passed 3 7 = true ∧ s.passed 3 1000 = false) ∧
    base.scratchLoadWaits 2 0 = false ∧ (0 : Nat) ≤ base.now ∧
    (stillS.ctx 0).still = some 0 ∧ 0 + 4000000 ≤ stillS.now ∧
    ((stillS.threads.filter fun x => decide (x.1 < 524288) && stillS.ctxOf x.1 = 0 && stillS.heldInside x.1 x.2).map (·.1)) = [0] ∧
    ((stillS.thread 0).wait.bind (·.deadline)) = none := by decide +kernel

/-- Two ready threads at the placed clause; in the second state their core does not hold it. -/
def readyS : State :=
  { base with
    cur := none, threads := [(0, { thr with st := .ready }), (1, { thr with st := .ready })]
    cores := tput base.cores 0 { base.core 0 with pcs := [⟨0, State.fetchVa, [0, 1]⟩] } }
def coldS : State := { readyS with cores := tput base.cores 0 { base.core 0 with clauses := [] } }
/-- A breakpoint stands at the clause. -/
def breakS : State :=
  { coldS with ctxs := tmap base.ctxs fun c => { c with words := { c.words with brk2 := State.fetchVa ||| 1 } } }
/-- The clause's first word has a reserved format. -/
def badClause : State := { coldS with mem := mputs coldS.mem (coldS.local_ State.fetchPa) (natLe 8 (2 ^ 64 - 1)) }
/-- What is fetched at an address, and whether it is a clause; none where the header's page, or a later word's, may not be
fetched. -/
def fetched (s : State) (pc : W64) (old : BitVec 17) : Option (Option Bool) :=
  match State.fetchWords 0 0 [pc] s with
  | .ok ([x], _) =>
    match State.fetchWords 0 0 (State.clauseAddrs pc (hdrN (s.codeWord 0 0 (old.getLsbD 0) x) + 2)) s with
    | .ok (xs, v) =>
      match xs.mapIdx fun i y => v.codeWord 0 0 (old.getLsbD i) y with
      | h :: ws => some (some (clauseOk h ws))
      | [] => none
    | .error (some _) => some none
    | _ => none
  | _ => none
/-- The threads stand elsewhere. -/
def coldAt (pc : W64) : State := { coldS with threads := tmap coldS.threads fun t => { t with pc } }
/-- The core remembers the clause's first word as it was before it was overwritten. -/
def staleCode : State :=
  { badClause with cores := tput base.cores 0 { base.core 0 with
      clauses := [], code := [⟨0, State.fetchVa.toNat / 128, State.fetchHdr :: List.replicate 15 0⟩] } }
def restS : State := { parked with ctxs := noHandler.ctxs }

theorem witness_FetchAndIssue :
    (coldS.threadsAt 0 0 State.fetchVa ≠ [] ∧ coldS.breakAt 0 State.fetchVa = none ∧
      ((coldS.core 0).clauses.find? fun k => k.ctx = 0 && k.va = State.fetchVa) = none ∧ fetched coldS State.fetchVa 0 = some (some true)) ∧
    (badClause.threadsAt 0 0 State.fetchVa ≠ [] ∧ fetched badClause State.fetchVa 0 = some (some false)) ∧
    fetched staleCode State.fetchVa 1 = some (some true) ∧ fetched staleCode State.fetchVa 0 = some (some false) ∧
    ((coldAt 0).threadsAt 0 0 0 ≠ [] ∧ (coldAt 0).breakAt 0 0 = none ∧
      (match State.fetchWords 0 0 [0] (coldAt 0) with | .error (some _) => true | _ => false) = true) ∧
    ((coldAt 0x1FFF8).threadsAt 0 0 0x1FFF8 ≠ [] ∧ fetched (coldAt 0x1FFF8) 0x1FFF8 0 = some none) ∧
    (breakS.threadsAt 0 0 State.fetchVa ≠ [] ∧ breakS.breakAt 0 State.fetchVa = some 2 ∧
      (breakS.breakThreads 2 State.fetchVa (breakS.threadsAt 0 0 State.fetchVa)).threadsAt 0 0 State.fetchVa = [] ∧
      (let s : State := { breakS with threads := tmap breakS.threads fun t => { t with idx := 1 } }
       s.breakAt 0 State.fetchVa = some 2 ∧
         (s.breakThreads 2 State.fetchVa (s.threadsAt 0 0 State.fetchVa)).threadsAt 0 0 State.fetchVa ≠ [])) ∧
    (readyS.clauseFor 0 = some (State.fetchHdr, [0]) ∧ readyS.groupOk State.fetchHdr [0, 1] = true ∧
      (readyS.thread 0).idx ≤ hdrN State.fetchHdr ∧ readyS.breakAt (readyS.ctxOf 0) (readyS.thread 0).pc = none) ∧
    (parked.entryDueAt 2 = true ∧ (parked.ctx (parked.wg 2).ctx).words.handlerPc ≠ 0) ∧
    (restS.entryDueAt 2 = true ∧ (restS.ctx (restS.wg 2).ctx).words.handlerPc = 0) := by decide +kernel

/-- A launch packet of 8 body bytes for queue 1 and context 0. -/
def packet8 : List Byte := bytesAt 40 [(0, 1), (1, 1), (4, 9), (8, 8)]
def queue1 : Queue := { Queue.zero with qctl := 1, mask := [true], code := [0] }
/-- Tenant 0 with a bucket of depth 1 that is full. -/
def launchS (q : Queue) (word : W64) (tokens : Nat) : State :=
  { base with
    queues := [(1, q)], vds := tput base.vds 0 { base.vd 0 with word }
    tenants := [(0, { Tenant.zero with bucket := 0x10000, tokens, filled := true })] }
def held1 : Packet := ⟨0, 9, [0, 0, 0, 0, 0, 0, 0, 0], none⟩

theorem witness_QueueEvents :
    base.booted = true ∧ base.portShut 0 = false ∧ (launchS queue1 1 0).portShut 3 = false ∧ State.packetOk packet8 = true ∧ State.packetOk [] = false ∧ State.packetOk (bytesAt 40 [(0, 2), (8, 8)]) = false ∧
    ((launchS queue1 3 4000000).vd 0).word.getLsbD 1 = true ∧
    (((launchS queue1 0 4000000).vd 0).word.getLsbD 1 = false ∧ ((launchS queue1 0 4000000).vd 0).word.getLsbD 0 = false) ∧
    (let s := launchS queue1 1 4000000
     (s.vd 0).word.getLsbD 1 = false ∧ (s.vd 0).word.getLsbD 0 = true ∧ (s.queue (queueKey 0 (fieldAt packet8 1 1))).loaded = true ∧
       s.admits 0 (fieldAt packet8 1 1) (fieldAt packet8 2 2) = true ∧ State.tokenUnits ≤ s.tokensNow (s.tenant (s.vdTenant 0)) ∧
       (s.queue (queueKey 0 1)).ring.length < 256 ∧ s.admits 0 1 1 = false) ∧
    ((launchS Queue.zero 1 4000000).queue (queueKey 0 1)).loaded = false ∧
    (let s := launchS queue1 1 0
     s.tokensNow (s.tenant (s.vdTenant 0)) < State.tokenUnits) ∧
    256 ≤ ((launchS { queue1 with ring := List.replicate 256 held1 } 1 4000000).queue (queueKey 0 1)).ring.length ∧
    (let s := launchS { queue1 with ring := [held1] } 1 0
     tget s.runs 0 = none ∧ s.nextQueue 0 = some 1 ∧ (s.queue 1).ring = [held1]) ∧
    (let s : State := { cpS with runs := [(0, { run0 with count := 256 })] }
     tget s.runs 0 = some { run0 with count := 256 } ∧ (s.placeOf (cpTid 0) = (0, 0)) ∧ run0.last ≠ some (s.placeOf (cpTid 0))) := by
  decide +kernel

/-- A record of four points of one workgroup of 32 threads; with `n`, that many dependences, the first on the point before. -/
def record (n : Nat) : List Byte :=
  bytesAt 256 [(2, 1), (0x10, 1), (0x12, n), (0x14, 2), (0x15, 2), (0x16, 3), (0x18, 4), (0x28, 32), (0x2A, 16), (0x30, 1)]
def launch0 (n : Nat) (points : List PointSt) : Launch :=
  { id := 60, ctx := 0, die := 0, record := record n, reserved := false, chain := [], started := [], ended := none, h := [], ahead := [], points, next := 0, complete := 0
    pins := [], owed := none }
def launched (l : Launch) : State :=
  { base with
    cur := none, threads := [], wgs := [], launches := [l], quads := []
    market := { base.market with units := [(State.unitKey 0 0, { MktUnit.zero with listed := true, holder := some 0 })] } }
def firedL : Launch := launch0 0 [newPoint (record 0) 0 0 0]
/-- A saved workgroup of context 0. -/
def savedS : State :=
  { launched (launch0 0 []) with
    saved := [{ ctx := 0, quad := 0, image := none, tainted := false, halted := false
                wgs := [{ wg := { base.wg 2 with id := 9 }, threads := [], flocks := [], groups := [], lists := [], flushes := [], cmds := []
                          cb := [], residue := [], poison := [], book := false }] }] }
def workFits (s : State) (saved : Bool) (item : Nat) (spots : List (Nat × Nat)) : Bool :=
  decide (s.quadHolder 0 = some 0) &&
    match (s.workOf 0).find? fun w => w.saved = saved && w.item = item with
    | some w => w.saved = saved && ((s.workOf 0).all fun x => !State.workBefore x w) && s.quadTakes 0 0 w && s.spotsOk 0 w spots
    | none => false

theorem witness_LaunchEvents :
    workFits (launched firedL) false 60 [(0, 0)] = true ∧ workFits savedS true 0 [(0, 63)] = true ∧
    (let w : Wg := { base.wg 2 with slot := 62, nflock := 2 }
     63 < 32 * w.nflock ∧ w.slot + w.nflock ≤ 64) ∧
    (let r := record 0
     rcCbook r = 0 ∧ rcSched r = 0 ∧ 31 < 32 * (rcWgthr r / 32) ∧ 63 + rcWgthr r / 32 ≤ 64) ∧
    (let l := launch0 0 []
     (launched l).launch? 60 = some l ∧ l.reserved = false ∧ rcNdep l.record = 0 ∧ l.next < rcPoints l.record) ∧
    (let l := launch0 1 []
     (launched l).launch? 60 = some l ∧ rcNdep l.record ≠ 0 ∧ fireNext l = some (0, 0)) ∧
    (let l : Launch := { launch0 1 [] with h := [(0, 1)] }
     fireNext l = some (0, 1)) := by decide +kernel

/-! ### The Commons, paging, resets and the outside -/

def closing : State := { base with timed := true, market := { base.market with ends := 100000, interval := 2000000 } }
def boundaryS : State := { base with timed := true, market := { base.market with closed := true }, tenants := [(4, { Tenant.zero with rate := 7, cap := 5 })] }
def offer0 (qty price : Nat) : Offer := { ctx := 0, tenant := 0, pool := 0, qty, price }

theorem witness_MarketEvents :
    (closing.timed = true ∧ closing.market.closed = false ∧ closing.market.ends ≤ closing.now + 100000) ∧
    (∀ x ∈ [(offer0 2 8, 2), (offer0 1 9, 1)], x.1.qty ≤ x.2) ∧
    (boundaryS.timed = true ∧ boundaryS.market.closed = true ∧ boundaryS.market.ends ≤ boundaryS.now ∧ boundaryS.market.pending = none ∧
      (boundaryS.tenant 4).purse < (boundaryS.tenant 4).cap) ∧
    poolClass 64 ≠ 0 ∧ (poolClass 0 = 0 ∧ base.wgsOn 63 = [] ∧ (base.quad 63).table = []) ∧
    ((1 : Nat) < 2 ∧ base.timed = false ∧ tget boundaryS.market.shareAt 1 = none ∧
      (let s : State := { boundaryS with now := 9000, market := { boundaryS.market with shareAt := [(1, 5000)] } }
       s.timed = true ∧ tget s.market.shareAt 1 = some 5000 ∧ 5000 + 4000 ≤ s.now)) ∧
    (let s : State := { base with
       quads := tput base.quads 0 { base.quad 0 with handover := true }
       market := { base.market with units := [(State.unitKey 0 0, { MktUnit.zero with leaving := some 0 })] } }
     (s.quad 0).handover = true ∧ s.quadDrained 0 = true ∧ (tget s.market.units (State.unitKey 0 0)).isSome = true) ∧
    (let s : State := { base with market := { base.market with units := [(State.unitKey 64 0, { MktUnit.zero with leaving := some 0 })] } }
     (s.mktUnit (State.unitKey 64 0)).leaving = some 0 ∧ poolClass (State.unitKey 64 0 / 256) = 1) ∧
    ((5 : Nat) ≠ base.node.toNat ∧ 5 < 4096) ∧ base.market.pending = none := by decide +kernel

theorem witness_MarketEvents_boundary : ∀ k, (boundaryS.mktUnit k).holder = (boundaryS.mktUnit k).next := fun _ => rfl

/-- The group stands at a load of page 0. -/
def loadGrp : Group := { grp with words := [(encode (.ld ldArgs)).getD 0] }
def loadS : State := { base with cur := some loadGrp }
def absentS : State := { absentPage with cur := some loadGrp }
/-- The backing of page 0 is a node that is no fold. -/
def nowhere : State := { absentS with mem := mputs absentS.mem (base.local_ 0xE000) (natLe 8 (3 * 2 ^ 52 + 0x310201)) }
/-- The fetch of page 0, which is resident, goes on though nothing asks for it. -/
def fetchS : State := { base with fetches := [(0, 8)] }
def askedBy (s : State) (core : Nat) (va : W64) (write : Bool) : Bool :=
  ((s.reachesOf 0 fun g => g.core = core).any fun r => r.write = write && State.samePage r.va va) ||
    (!write && (s.clauseTouches 0).any fun y => tidCore y.1 = core && State.samePage y.2 va)
def rangeS (r : Range) : State := { base with ranges := base.ranges ++ [(1, r)] }
def rangeOld (w3 : W64) : Range := { w0 := 0, w1 := 0x3000000, w2 := BitVec.ofNat 64 (2 ^ 33), w3 }

theorem witness_PagingAndRanges :
    (canonical 8 = true ∧ xlOk (loadS.walkFill 0 0 8 false false) = true ∧ askedBy loadS 0 8 false = true) ∧
    (xlOk (readyS.walkFill 0 0 State.fetchVa false false) = true ∧ askedBy readyS 0 State.fetchVa false = true) ∧
    (canonical 8 = true ∧ absentS.wanted 0 8 = true ∧
      ((absentS.absentLeaf 0 8).map fun l => absentS.hasBacking (absentS.ctxVd 0) l.ent) = some true ∧
      ((nowhere.absentLeaf 0 8).map fun l => nowhere.hasBacking (nowhere.ctxVd 0) l.ent) = some false ∧ nowhere.wanted 0 8 = true ∧
      fetchS.fetching 0 8 = true ∧ (fetchS.absentLeaf 0 8).isNone = true) ∧
    (base.mem.wf ∧ 0 + 65536 ≤ 65536) ∧
    (rangeForm (setRangeWord (rangeOld 0) 0 3) = false ∧
      rangeFits [base.range 0] (setRangeWord (rangeOld 0) 0 1) = false ∧ (setRangeWord (rangeOld 0) 0 1).valid = true ∧
      (rangeOld 2).scrubbing = true ∧ exceptRemote (setRangeWord (rangeOld 2) 0 1) ≠ exceptRemote (rangeOld 2)) ∧
    (let s := rangeS (rangeOld 0)
     let new := setRangeWord (s.range 1) 0 0x2000001
     rangeForm new = true ∧ new.valid = true ∧ rangeFits ((s.ranges.filter fun r => r.1 ≠ 1).map (·.2)) new = true ∧
       (s.range 1).valid = false ∧ (s.range 1).scrubbing = false) ∧
    (let new := setRangeWord (rangeOld 0) 0 0x2000000
     rangeForm new = true ∧ new.valid = false) ∧
    ((rangeS (rangeOld 2)).range 1).scrubbing = true := by decide +kernel

theorem witness_ResetsAndErrors :
    (base.savingCtx 0 = false ∧ (base.ctx 0).words.krec = 0 ∧
      ({ base with quads := tput base.quads 0 { base.quad 0 with ctx := some 0, handover := true } } : State).savingCtx 0 = true) ∧
    (base.resetting 0 = false ∧ tget (launchS queue1 1 0).queues 1 = some queue1 ∧ 1 / 64 = 0) ∧
    (let s : State := { base with vds := tput base.vds 0 { base.vd 0 with word := 3 } }
     s.resetting 0 = true ∧ ∀ c ∈ s.ctxsOfVd 0, (s.ctx c).resetDue = false) ∧
    (State.eccParity .icache = true ∧ State.eccParity .dram = false) ∧
    (let x : EccArgs := { what := .dram, correctable := false, loc := 2 ^ 41 - 1, sub := 0, ctx := 0 }
     x.correctable = false ∧ x.what = .dram ∧ x.loc < 2 ^ 41) ∧
    (∀ step ∈ [MStep.open, .round, .stop, .land, .abort, .close],
      let x : Session := { session none (some step) with desc := 1 }
      let s : State := { base with sessions := [x] }
      s.sessionOf 0 = some x ∧ x.doing = some step ∧ s.sessionAbsent x = false) ∧
    (let x : Session := { session none (some .open) with desc := 1 }
     let s : State := { absentPage with sessions := [x] }
     s.sessionOf 0 = some x ∧ s.sessionAbsent x = true) ∧
    (linkS.rangeOkFor (linkS.ctxVd 0) 0x20000 = true ∧ linkS.rangeOkFor (linkS.ctxVd 0) (2 ^ 30) = false ∧ linkS.sessions = [] ∧
      0x20000 % 65536 = 0 ∧ (List.replicate 65536 (7 : Byte)).length = 65536) ∧
    (queueKey (base.ctxVd 0) 1 = 1 ∧ (base.queue 1).loaded = false ∧ ((launchS queue1 1 0).queue 1).loaded = true ∧
      ((launchS queue1 1 0).queue 1).ring.length < 256 ∧
      256 ≤ ((launchS { queue1 with ring := List.replicate 256 held1 } 1 0).queue 1).ring.length) ∧
    ({ base with ctxs := tmap base.ctxs fun c => { c with killedAt := some 0 } } : State).cyc = 0 := by decide +kernel

/-- Queue 5 names a program of one EXIT at 0x400 and a window; 6 one whose only word is reserved; queue 63 a window. -/
def progS : State :=
  { base with
    mem := [(0x400, loneGrp.hdr.toNat), (0x408, 0x06E0000000000000), (0x410, loneGrp.hdr.toNat), (0x418, 0xF0E0000000000000)].foldl
      (fun m x => mputs m (base.local_ x.1) (natLe 8 x.2)) base.mem
    queues := [(5, { Queue.zero with prog := 0x400, wsize := 8 }), (6, { Queue.zero with prog := 0x410, wsize := 8 }), (63, { Queue.zero with wsize := 8 })] }
def profile (i : Nat) : Option Bool := (progS.programAt ((progS.queue i).prog.toNat % 2 ^ 48) 1).map (profileOk 1)

theorem witness_PrivilegedWrites :
    (let ctl := (0x10001 : W64) &&& 0xFFFFFF03#64
     5 % 64 ≠ 63 ∧ (0x10001 : W64).getLsbD 0 = true ∧ bitsOf ctl 16 16 = 1 ∧ progS.windowOk 5 ctl = true ∧ profile 5 = some true ∧
       profile 6 = some false ∧ bitsOf ((1 : W64) &&& 0xFFFFFF03#64) 16 16 = 0 ∧ progS.windowOk 64 ctl = false) ∧
    (63 % 64 = 63 ∧ progS.windowOk 63 ((1 : W64) &&& 0xFFFFFF03#64) = true ∧ (0 : W64).getLsbD 0 = false) ∧
    (State.bucketDepth ((0x1000000 : W64) &&& 0x1FFFFFF#64) = 256 ∧ State.bucketDepth ((0 : W64) &&& 0x1FFFFFF#64) = 0 ∧
      256 < State.bucketDepth ((0x1010000 : W64) &&& 0x1FFFFFF#64) ∧ (base.tenant 0).filled = false) ∧
    (let sel : W32 := 0x000FF00D
     oselKind sel = 0 ∧ oselIndex sel < 256 ∧ 1 ≤ oselWord sel ∧ oselWord sel < 14 ∧ 7 ≤ oselKind 0x70000000) ∧
    doneCode (haltS.haltOp .run (BitVec.ofNat 32 1) 0 none) = some (0, true) ∧
    (let s : State := { haltS with accs := [{ acc0 with tids := [32] }], threads := tmap haltS.threads fun t => { t with ld := 1, nld := 1 } }
     doneCode (s.haltOp .save (BitVec.ofNat 32 1) 0 none) = none) := by decide +kernel

def keyS : State := { base with vds := tput base.vds 0 { base.vd 0 with keys := [(63, { range := 0, off := 0x100000, len := 64, writable := true })] } }
def heldS : State := { keyS with hotSlices := upTo 48 }
def rdma (off len : Nat) : RdmaArgs := { port := 1, qp := 2, vd := 0, key := 63, off, len, data := List.replicate len 7 }
def best0 : PtpMaster := { port := 3, prio1 := 1, clockClass := 0, accuracy := 0, variance := 0, prio2 := 0, ident := 0, steps := 0 }
def ptpMsg (two : Bool) : PtpTime := { port := 3, ident := 0, seq := 4, twoStep := two, origin := 100, rx := 90 }
def ptpS : State :=
  { base with ptp := { base.ptp with best := some best0, masters := [best0], pendingSync := some (ptpMsg true), lastSync := some (100, 90), req := some (3, 5, 95) } }

theorem witness_OutsideAccesses :
    (base.booted = true ∧ keyS.booted = true ∧ base.portShut 1 = false ∧ keyS.portShut 1 = false ∧ heldS.portShut 1 = false ∧ keyS.rdmaAt (rdma 0 64) 64 false = some 0x100000 ∧ keyS.rdmaAt (rdma 1 64) 64 false = none ∧
      keyS.rdmaAt (rdma 0 64) (rdma 0 64).data.length true = some 0x100000 ∧ keyS.sessions = [] ∧ (rdma 0 64).data ≠ [] ∧
      0x100000 % 65536 + (rdma 0 64).data.length ≤ 65536 ∧ keyS.spanHeld 0x100000 64 = false ∧ heldS.spanHeld 0x100000 64 = true ∧
      heldS.rdmaAt (rdma 0 64) 64 true = some 0x100000 ∧ heldS.rdmaAt (rdma 0 64) 64 false = some 0x100000 ∧ base.rdmaAt (rdma 0 64) (rdma 0 64).data.length true = none) ∧
    (let pa := linkS.local_ 0x30008
     linkS.sliceHot pa = false ∧ linkS.ownedLine (pa / 128) = false ∧ linkS.awaitsCopy pa = false ∧ linkS.sessions = [] ∧ linkS.remoteOkFor 0 0x30008 = true ∧
       linkS.remoteOkFor 0 (0x30008 + 8 - 1) = true ∧ linkS.remoteOkFor 0 0x2000000 = false) ∧
    (ptpS.fromBest (ptpMsg true).port (ptpMsg true).ident = true ∧ (ptpMsg false).twoStep = false ∧ ptpS.ptp.pendingSync = some (ptpMsg true) ∧
      ptpS.ptp.lastSync = some (100, 90) ∧ ptpS.ptp.req = some (3, 5, 95) ∧ base.ptp.req = none ∧ ptpS.portShut 3 = false) ∧
    (∀ x ∈ ptpS.ptp.masters, x.port ≠ 2 ∨ x.ident ≠ 0 → State.betterMaster x { best0 with port := 2, prio1 := 0 } = false) := by decide +kernel

def spdmMsg (n version code : Nat) : List Byte := bytesAt n [(0, version), (1, code)]

theorem witness_SpdmRequests :
    (base.booted = true ∧ (base.vd 0).word.getLsbD 0 = true ∧ (base.vd 0).word.getLsbD 1 = false) ∧
    (∀ x ∈ [(SpdmSt.start, spdmMsg 4 0x12 0x84), (.version, spdmMsg 20 0x12 0xE1), (.capabilities, spdmMsg 32 0x12 0xE3),
      (.negotiated, spdmMsg 4 0x12 0x81), (.negotiated, spdmMsg 36 0x12 0x83), (.negotiated, spdmMsg 4 0x12 0xE0)],
      4 ≤ x.2.length ∧ spdmFault x.1 x.2 = 0) ∧
    (spdmVersion (spdmMsg 4 0x10 0x84) ≠ 0x12 ∧ spdmForm (spdmMsg 4 0x12 0xE1) = false ∧
      spdmKnown.contains (spdmCode (spdmMsg 4 0x12 0xE1)) = true) ∧
    (spdmKnown.contains (spdmCode (spdmMsg 4 0x12 0x99)) = false ∧ spdmFault .start (spdmMsg 4 0x12 0x99) = 7 ∧
      spdmFault .start (spdmMsg 20 0x12 0xE1) = 4) := by decide +kernel

/-- A part of the certificate chain can be asked for where the chain has a byte. -/
theorem witness_SpdmRequests_certificate : 0 < Config.certChain.length →
    spdmCode (spdmMsg 8 0x12 0x82) = 0x82 ∧ spdmFault .negotiated (spdmMsg 8 0x12 0x82) = 0 := by
  intro h
  have form : spdmForm (spdmMsg 8 0x12 0x82) = true := by
    have e : fieldAt (spdmMsg 8 0x12 0x82) 4 2 = 0 := by decide +kernel
    simp only [spdmForm, show spdmCode (spdmMsg 8 0x12 0x82) = 0x82 by decide +kernel, e, h]
    decide +kernel
  refine ⟨by decide +kernel, ?_⟩
  simp only [spdmFault, form]
  decide +kernel

/-! ### The step -/

/-- A NOP placed is what the next step runs; an event on the agenda likewise; a part not booted boots. -/
def agendaS (ms : List Move) : State := { base with agenda := ms }

def isNext (r : Host.Outcome State Fault Refusal) : Bool := match r with | .next _ => true | _ => false

theorem witness_StepRunsDecoded :
    (base.held = false ∧ base.booted = true ∧ (agendaS [.issue grp.id]).cur = some grp ∧ grp.blocked = false ∧
      decode (grp.words.getD grp.idx 0) = .ok (.nop ⟨⟨0, false⟩⟩) ∧ base.agenda = [] ∧ base.timed = false ∧ base.ptp.stood = []) ∧
    (let s := agendaS [.issue grp.id]
     let t : State := { s with issued := [(State.pathKey grp, 9)] }
     let u (s : State) : State := { s.beginMove (.issue grp.id) with agenda := [] }
     s.pathFree grp = true ∧ t.pathFree grp = false ∧ ((u s).cur = some grp ∧ (u s).outranked grp = false ∧ (u s).lateFor grp = false) ∧ (u t).cur = some grp) ∧
    (let g : Group := { grp with members := [0], age := 5 }
     let s : State := { agendaS [.issue g.id] with cur := some g, groups := [{ grp with id := 2, members := [1] }] }
     let u : State := { s.beginMove (.issue g.id) with agenda := [] }
     u.cur = some g ∧ u.outranked g = true) ∧
    (let s : State := { agendaS [.issue badGrp.id] with cur := some badGrp }
     s.cur = some badGrp ∧ s.frozen badGrp = false ∧
       (match decode (badGrp.words.getD badGrp.idx 0) with | .error _ => true | .ok _ => false) = true) ∧
    (State.reset.held = false ∧ State.reset.booted = false) ∧
    (let s : State := { State.reset with held := true }
     s.held = true ∧ (s.nextMove.1.all fun m => !State.portMove m) = true) := by decide +kernel

theorem witness_StepKeepsCanonical : isNext (step base) = true ∧ isNext (step (agendaS [.event (.crcRetry 3)])) = true := by
  decide +kernel

theorem witness_DecodeOfEncode :
    ∀ i ∈ [Instr.nop ⟨always⟩, .iadd ⟨never, .w 62, .g 126, .zero, .s64, true⟩, .movi ⟨always, .g 127, false, 0xFFFFFFFF⟩,
      .bra ⟨always, .uniform, 0x80000000⟩, .migrClose ⟨always, .g 127, .g 0⟩], WellFormed i := by decide +kernel

/-! ### The worked cases of the manual -/

/-- Register `r` of a thread after an instruction, and the flags of core 0 for context 0. -/
def after (i : Instr) (s : State) (p : Nat) (r : Reg) : Option (W32 × BitVec 7) :=
  match exec i s with
  | .next t => some (t.rd p r, t.coreFlags 0 0)
  | _ => none

def withG (l : List (Fin 128 × W32)) : Vector W32 128 := l.foldl (fun v x => v.set x.1 x.2) thr.g

/-- 04 R116: the sum 2^24 + 2 of DOT4.e4m3, with no flag. -/
theorem test_dot4 :
    after (.dot4 ⟨⟨7, false⟩, .g 1, .g 2, .g 3, .g 4, ⟨.e4m3, .rne, false, false⟩⟩)
      { base with threads := [(0, { thr with g := withG [(2, 0x3838), (3, 0x38383838), (4, 0x4B800000)] }), (1, thr)] } 0 (.g 1) =
      some (0x4B800001, 0) := by decide +kernel

/-- 04 R121: the block of PACK.f16 with an escape, whose consumed elements set INEXACT. -/
theorem test_pack :
    let s : State := { base with threads := [(0, { thr with g := withG [(16, 0x4D004200), (17, 0x3C004500), (40, 0x7F)] }), (1, thr)] }
    let i : Instr := .pack ⟨⟨7, false⟩, .g 8, .g 16, .g 40, .f16, .rne⟩
    after i s 0 (.g 8) = some (0xA583, fInexact) ∧ after i s 0 (.g 9) = some (0, fInexact) := by decide +kernel

/-- 04 R129: lanes 0, 1 and 5 of four hold 2^24, 1 and 1. -/
def reduxS : State :=
  { base with
    cur := some { grp with members := [0, 1, 2, 5] }
    threads := [(0, { thr with p := 2, g := withG [(7, 0x4B800000)] }), (1, { thr with p := 2, g := withG [(7, 0x3F800000)] }), (2, thr),
      (5, { thr with p := 2, g := withG [(7, 0x3F800000)] })] }

theorem test_redux :
    let i (scan : Bool) : Instr := .redux ⟨⟨1, false⟩, .g 6, .g 7, .add, scan, ⟨.f32, .rne, false, false⟩⟩
    (∀ p ∈ [0, 1, 5], after (i false) reduxS p (.g 6) = some (0x4B800001, 0)) ∧ after (i false) reduxS 2 (.g 6) = some (0, 0) ∧
    (after (i true) reduxS 0 (.g 6)).map (·.1) = some 0x4B800000 ∧ after (i true) reduxS 1 (.g 6) = some (0x4B800000, fInexact) ∧
    (after (i true) reduxS 5 (.g 6)).map (·.1) = some 0x4B800001 := by decide +kernel

/-- 05 R142: one element of a 12-of-48 sparse N4X pass. -/
theorem test_sparse_pass :
    let plane : Plane :=
      { elems := mputs [] 0 [0xE3, 0x48, 0x75, 0xB8, 0x08], scales := mputs [] 0 [0x7D, 0x08], maps := mputs [] 0 [0x11, 0x11, 0x11, 0x11, 0x11, 0x11]
        fb := 5, spn := 2 }
    let row : Stream :=
      { image := [(0, 0x40), (1, 0x7F), (4, 0x3C), (8, 0x28), (20, 0xC0), (24, 0x30)].foldl (fun m x => mput m x.1 x.2) [], ta := 0, ts := 0, rows := 1 }
    passSum 0x1D020053 plane row 0 0 = (-67239936, 0) ∧
      readElem 0x1D020053 (wrapNat (-67239936) 128) = ([0x00, 0x40, 0x80, 0xC0], 0) := by decide +kernel

/-- 13 R378: the group order n of P-521 takes the base point to the point at infinity (z = 0), and SHA-512 of "abc" begins DD AF 35 A1
(FIPS 180-4's worked example). -/
theorem test_crypto :
    (CurvePoint.times 521 ⟨gx521, gy521, 1⟩ n521).z = 0 ∧ (sha512 [0x61, 0x62, 0x63]).take 4 = [0xDD, 0xAF, 0x35, 0xA1] := by decide +kernel

end Sys2Proof.Tests
end

section
/-!
PROOFS. What every step keeps: after a move the state is settled, and settling writes memory and every scratch anew in
canonical form.
-/

namespace Sys2Proof.Machine.State

/-- Memory and scratch written anew are canonical, whatever they held before. -/
theorem inv_mcanon (s : State) :
    Inv { s with mem := mcanon s.mem, wgs := tmap s.wgs fun w => { w with scr := mcanon w.scr } } := by
  refine ⟨mcanon_wf s.mem, fun x hx => ?_⟩
  obtain ⟨y, -, rfl⟩ := List.mem_map.mp hx
  exact mcanon_wf y.2.scr

/-- The last thing that settling does is to write memory and scratch anew. -/
theorem settleAll_inv (s : State) : Inv s.settleAll := inv_mcanon _

theorem finish_next {r : Result} {t : State} (h : finish r = .next t) : ∃ u : State, t = u.settleAll := by
  cases r with
  | next u => exact ⟨u, (Host.Outcome.next.inj h).symm⟩
  | fault f => cases h
  | refused r => cases h

/-- Every state a step answers, by the boot or by a move or by none, has been settled. -/
theorem step_next {s t : State} (h : step s = .next t) : ∃ u : State, t = u.settleAll := by
  unfold step at h
  split at h
  · cases h
  · split at h
    · exact ⟨s.boot, (Host.Outcome.next.inj h).symm⟩
    · split at h <;> exact finish_next h

end Sys2Proof.Machine.State

namespace Sys2Proof

/-- Settles O54: a step answers only settled states, and those are canonical. -/
theorem stepKeepsCanonical : Obligations.StepKeepsCanonical := by
  intro s t h
  obtain ⟨u, rfl⟩ := Machine.State.step_next h
  exact u.settleAll_inv

end Sys2Proof
end

section
/-!
PROOFS. The object window and the management port (14 R389 to R392, R412): what a write of a queue, of a launch bucket, of a
context record and of a flag set gives, and the debugger's commands.
-/

namespace Sys2Proof.Machine

/-- R390, R392: a word of a context record other than CTL reads back what was written to it. -/
theorem ctxWord_setCtxWord (x : CtxWords) (w : Nat) (v : W64) (h1 : 1 ≤ w) (h2 : w < 14) :
    ctxWord (setCtxWord x w v) w = some v := by
  interval_cases w <;> rfl

namespace State

/-! ### Tenants -/

@[simp] theorem tenant_modTenant (s : State) (i j : Nat) (f : Tenant → Tenant) :
    (s.modTenant i f).tenant j = if j = i then f (s.tenant i) else s.tenant j := by
  simp only [tenant, modTenant, tget_tput]
  split <;> rfl

/-! ### Queues (R391) -/

section
variable {s : State} {q : Nat} {v : W64}

theorem loadQueue_management (hq : q % 64 = 63) (hw : s.windowOk q (v &&& 0xFFFFFF03#64) = true) :
    s.loadQueue q v = (s.setQueue q { s.queue q with
      qctl := setBits (s.queue q).qctl 8 8 (bitsOf (v &&& 0xFFFFFF03#64) 8 8)
      base := (s.queue q).wbase, size := (s.queue q).wsize }, 0) := by
  simp only [loadQueue, if_pos hq, if_pos hw]

theorem loadQueue_refused (hq : q % 64 ≠ 63)
    (h : bitsOf (v &&& 0xFFFFFF03#64) 16 16 = 0 ∨ 4096 < bitsOf (v &&& 0xFFFFFF03#64) 16 16 ∨
      s.windowOk q (v &&& 0xFFFFFF03#64) = false) : s.loadQueue q v = (s, 1) := by
  have refuses : (decide (bitsOf (v &&& 0xFFFFFF03#64) 16 16 = 0) || decide (4096 < bitsOf (v &&& 0xFFFFFF03#64) 16 16) ||
      !s.windowOk q (v &&& 0xFFFFFF03#64)) = true := by
    simpa [or_assoc] using h
  simp only [loadQueue, if_neg hq, if_pos refuses]

/-- R391: with a length and a window that may be taken and a program that lies in valid ranges, the queue's profile alone
decides. -/
theorem loadQueue_program {code : List W64} (hq : q % 64 ≠ 63) (h1 : 1 ≤ bitsOf (v &&& 0xFFFFFF03#64) 16 16)
    (h2 : bitsOf (v &&& 0xFFFFFF03#64) 16 16 ≤ 4096) (hw : s.windowOk q (v &&& 0xFFFFFF03#64) = true)
    (hc : s.programAt ((s.queue q).prog.toNat % 2 ^ 48) (bitsOf (v &&& 0xFFFFFF03#64) 16 16) = some code) :
    s.loadQueue q v = if profileOk (bitsOf (v &&& 0xFFFFFF03#64) 16 16) code = true then
      (s.setQueue q { s.queue q with
        qctl := v &&& 0xFFFFFF03#64, code, base := (s.queue q).wbase, size := (s.queue q).wsize }, 0)
      else (s, 1) := by
  have takes : ¬ (decide (bitsOf (v &&& 0xFFFFFF03#64) 16 16 = 0) || decide (4096 < bitsOf (v &&& 0xFFFFFF03#64) 16 16) ||
      !s.windowOk q (v &&& 0xFFFFFF03#64)) = true := by
    simp only [hw, Bool.not_true, Bool.or_false, Bool.or_eq_true, decide_eq_true_eq]
    omega
  simp only [loadQueue, if_neg hq, if_neg takes, hc]

theorem unloadQueue_management (hq : q % 64 = 63) : s.unloadQueue q v = s.loadQueue q v := by
  simp only [unloadQueue, if_pos hq]

/-- An event of a device's error meter leaves memory as it is. -/
@[simp] theorem vdError_mem (s : State) (d : Nat) : (s.vdError d).mem = s.mem := rfl

theorem foldl_vdError_mem {α : Type} (l : List α) (d : Nat) : ∀ s : State,
    (l.foldl (fun (s : State) _ => s.vdError d) s).mem = s.mem := by
  induction l with
  | nil => exact fun _ => rfl
  | cons _ l ih => exact fun s => (ih (s.vdError d)).trans (vdError_mem s d)

/-- R391: an unloaded queue holds no packet and no program; what its packets lost is counted, which is not memory. -/
theorem unloadQueue_queue (hq : q % 64 ≠ 63) : (s.unloadQueue q v).1.queue q =
    { s.queue q with qctl := v &&& 0xFFFFFF02#64, ring := [], code := [] } := by
  simp only [unloadQueue, if_neg hq, queue_setQueue, if_true]

theorem unloadQueue_mem (hq : q % 64 ≠ 63) : (s.unloadQueue q v).1.mem = s.mem := by
  simp only [unloadQueue, if_neg hq, setQueue_mem, foldl_vdError_mem]

end

/-! ### Launch buckets (R375) -/

theorem writeBucket_refused {s : State} {n : Nat} {v : W64}
    (h : bucketDepth (v &&& 0x1FFFFFF#64) = 0 ∨ 256 < bucketDepth (v &&& 0x1FFFFFF#64)) : s.writeBucket n v = none := by
  have refuses : (decide (bucketDepth (v &&& 0x1FFFFFF#64) < 1) || decide (256 < bucketDepth (v &&& 0x1FFFFFF#64))) = true := by
    simpa using h
  simp only [writeBucket, if_pos refuses]

theorem writeBucket_taken {s : State} {n : Nat} {v : W64} (h1 : 1 ≤ bucketDepth (v &&& 0x1FFFFFF#64))
    (h2 : bucketDepth (v &&& 0x1FFFFFF#64) ≤ 256) : s.writeBucket n v = some (s.modTenant n fun _ => { s.tenant n with
      bucket := v &&& 0x1FFFFFF#64
      tokens := if (s.tenant n).filled then min (bucketDepth (v &&& 0x1FFFFFF#64) * tokenUnits) (s.tokensNow (s.tenant n))
        else bucketDepth (v &&& 0x1FFFFFF#64) * tokenUnits
      since := s.now, filled := true }) := by
  have takes : ¬ (decide (bucketDepth (v &&& 0x1FFFFFF#64) < 1) || decide (256 < bucketDepth (v &&& 0x1FFFFFF#64))) = true := by
    simp only [Bool.or_eq_true, decide_eq_true_eq]
    omega
  simp only [writeBucket, if_neg takes]

/-! ### The object window (R389, R390) -/

theorem objWord_ctx {s : State} {sel : W32} (hk : oselKind sel = 0) (hi : oselIndex sel < 256) :
    s.objWord sel = ctxWord (s.ctx (oselIndex sel)).words (oselWord sel) := by
  simp only [objWord, hk, if_pos hi]

theorem writeCtx_word {s : State} {c w : Nat} (hc : c < 256) (h1 : 1 ≤ w) (h2 : w < 14) (v : W64) :
    s.writeCtx c w v = (s.modCtx c fun x => { x with words := setCtxWord x.words w (v &&& ctxMask w) }, 0) := by
  have there : ¬ (decide (256 ≤ c) || decide (14 ≤ w)) = true := by
    simp only [Bool.or_eq_true, decide_eq_true_eq]
    omega
  simp only [writeCtx, if_neg there, if_neg (show w ≠ 0 by omega)]

theorem writeObj_ctx {s : State} {sel : W32} (hk : oselKind sel = 0) (v : W64) :
    s.writeObj sel v = s.writeCtx (oselIndex sel) (oselWord sel) v := by
  simp only [writeObj, hk]

/-- R389, R390: the error counters (kind 7) are read-only, and there is no object of a kind above. -/
theorem writeObj_none {s : State} {sel : W32} (hk : 7 ≤ oselKind sel) (v : W64) : s.writeObj sel v = (s, 2) := by
  obtain ⟨k, hk⟩ : ∃ k, oselKind sel = k + 7 := ⟨oselKind sel - 7, by omega⟩
  simp only [writeObj, hk]

theorem objWord_writeObj_ctx {s : State} {sel : W32} (hk : oselKind sel = 0) (hi : oselIndex sel < 256)
    (h1 : 1 ≤ oselWord sel) (h2 : oselWord sel < 14) (v : W64) :
    (s.writeObj sel v).1.objWord sel = some (v &&& ctxMask (oselWord sel)) := by
  rw [objWord_ctx hk hi, writeObj_ctx hk, writeCtx_word hi h1 h2]
  simp only [modCtx, ctx_setCtx, if_true, ctxWord_setCtxWord _ _ _ h1 h2]

/-! ### Flags (R36) -/

theorem coreFlags_writeFstat (s : State) (k c : Nat) (v : W32) : (s.writeFstat k c v).coreFlags k c = v.extractLsb' 0 7 := by
  simp only [writeFstat, coreFlags, modCtx, core_setCtx, modCore, core_setCore, if_true, tget_tput_same, Option.getD_some]

theorem ctx_writeFstat (s : State) (k c : Nat) (v : W32) : ((s.writeFstat k c v).ctx c).fstat = v.extractLsb' 0 7 := by
  simp only [writeFstat, modCtx, ctx_setCtx, if_true]

/-! ### The debugger (R412) -/

theorem debugOp_halt_done {s u : State} {op : HaltOp} {w c k : Nat}
    (h : s.haltOp op (BitVec.ofNat 32 w) c none = .done k u) :
    s.debugOp (.halt op w c) = { u with sent := u.sent ++ [.debugStatus k] } := by
  simp only [debugOp, h]

theorem debugOp_halt_later {s u : State} {op : HaltOp} {w c : Nat}
    (h : s.haltOp op (BitVec.ofNat 32 w) c none = .later u) :
    s.debugOp (.halt op w c) = { u with halts := u.halts ++ [(op, w, c)] } := by
  simp only [debugOp, h]

/-! ### The management port's tables (R409, R412) -/

theorem setWindow_vd (s : State) (d n : Nat) (w : HostWindow) : (s.setWindow d n w).vd d =
    { s.vd d with windows := tput (s.vd d).windows n w, dead := (s.vd d).dead.filter (· ≠ n) } := by
  simp only [setWindow, modVd, vd_setVd, if_true]

end State

/-! ### The events -/

theorem exec_queueLoad (s : State) {i : Nat} {v : W64} (hi : i < 4096) (hv : v.getLsbD 0 = true) :
    exec (.queueLoad i v) s = .next (s.loadQueue i v).1 := by
  show execQueueLoad i v s = _
  simp only [execQueueLoad, if_pos (And.intro hi hv)]

theorem exec_queueUnload (s : State) {i : Nat} {v : W64} (hi : i < 4096) (hv : v.getLsbD 0 = false) :
    exec (.queueUnload i v) s = .next (s.unloadQueue i v).1 := by
  show execQueueUnload i v s = _
  have unloads : i < 4096 ∧ (!v.getLsbD 0) = true := ⟨hi, by rw [hv]; rfl⟩
  simp only [execQueueUnload, if_pos unloads]

theorem exec_launchBucketWrite (s : State) {n : Nat} (hn : n < 256) (v : W64) :
    exec (.launchBucketWrite n v) s = .next ((s.writeBucket n v).getD s) := by
  show execLaunchBucketWrite n v s = _
  simp only [execLaunchBucketWrite, if_pos hn]

theorem exec_retiredPageRemove (s : State) (i : Nat) (v : W64) :
    exec (.retiredPageRemove i v) s = .next (if v = 0 then { s with retired := tdel s.retired i } else s) := rfl

theorem exec_hostWindowWrite (s : State) (d n : Nat) (w : HostWindow) :
    exec (.hostWindowWrite d n w) s = .next (if d < 64 ∧ n < 16 ∧ w.port < 4 then s.setWindow d n w else s) := rfl

theorem exec_memoryKeyWrite (s : State) {d n : Nat} (hd : d < 64) (hn : n < 64) (k : MemKey) :
    exec (.memoryKeyWrite d n k) s = .next (s.modVd d fun x => { x with keys := tput x.keys n k }) := by
  show execMemoryKeyWrite d n k s = _
  simp only [execMemoryKeyWrite, if_pos (And.intro hd hn)]

theorem exec_debuggerCommand (s : State) (c : DebugCmd) : exec (.debuggerCommand c) s = .next (s.debugOp c) := rfl

end Sys2Proof.Machine

namespace Sys2Proof

open Machine Machine.State

/-- Settles O50, event by event: a write is taken or refused as its operation says, and each leaves all but its own table. -/
theorem privilegedWrites : Obligations.PrivilegedWrites := by
  intro s
  refine ⟨?_, ?_, ?_, ?_, ?_, ?_, ?_, ?_, ?_, ?_, ?_, rfl, fun _ => rfl⟩
  · -- a load (R391)
    intro i v hi hq hv
    refine ⟨fun code h1 h2 hw hc => ⟨fun hp => ?_, fun hp => ?_⟩, fun h => ?_⟩
    · have e := exec_queueLoad s hi hv
      rw [loadQueue_program hq h1 h2 hw hc, if_pos hp] at e
      exact ⟨_, e, (queue_setQueue ..).trans (if_pos rfl), rfl⟩
    · rw [exec_queueLoad s hi hv, loadQueue_program hq h1 h2 hw hc, hp]
      rfl
    · rw [exec_queueLoad s hi hv, loadQueue_refused hq h]
  · -- the management queue's QCTL, whichever its LOADED bit (R391)
    intro i v hi hq hw
    have e : exec (if v.getLsbD 0 then .queueLoad i v else .queueUnload i v) s = .next (s.loadQueue i v).1 := by
      cases hv : v.getLsbD 0 with
      | true => exact exec_queueLoad s hi hv
      | false => exact (exec_queueUnload s hi hv).trans (by rw [unloadQueue_management hq])
    rw [loadQueue_management hq hw] at e
    exact ⟨_, e, rfl, (queue_setQueue ..).trans (if_pos rfl)⟩
  · -- an unload (R391)
    intro i v hi hq hv
    refine ⟨_, exec_queueUnload s hi hv, ?_, ?_, ?_, unloadQueue_mem hq⟩ <;> rw [unloadQueue_queue hq]
    simp [Queue.loaded]
  · -- a launch bucket (R374, R375)
    intro n v hn
    refine ⟨fun h => ?_, fun h1 h2 => ?_⟩
    · rw [exec_launchBucketWrite s hn, writeBucket_refused h, Option.getD_none]
    · have e := exec_launchBucketWrite s hn v
      rw [writeBucket_taken h1 h2, Option.getD_some] at e
      refine ⟨_, e, ?_, fun hf => ?_, rfl⟩ <;> rw [tenant_modTenant, if_pos rfl]
      simp only [hf, Bool.false_eq_true, if_false]
  · -- a retired page (R398)
    intro i v
    rw [exec_retiredPageRemove]
    exact ⟨fun h => by rw [if_pos h], fun h => by rw [if_neg h]⟩
  · -- a flag set (R36)
    intro k c v
    exact ⟨s.writeFstat k c v, rfl, coreFlags_writeFstat s k c v, ctx_writeFstat s k c v, rfl⟩
  · -- the object window and the debugger's use of it (R389, R390, R412)
    intro sel v
    refine ⟨fun hk hi h1 h2 => ?_, fun hk => ?_, rfl, rfl, rfl⟩
    · refine ⟨(s.writeObj sel v).1, rfl, objWord_writeObj_ctx hk hi h1 h2 v, ?_⟩
      rw [writeObj_ctx hk, writeCtx_word hi h1 h2]
      rfl
    · show Host.Outcome.next (s.writeObj sel v).1 = _
      rw [writeObj_none hk]
  · -- the debugger's HALT (R401, R412)
    intro op w c u
    rw [exec_debuggerCommand]
    exact ⟨fun k h => by rw [debugOp_halt_done h], fun h => by rw [debugOp_halt_later h]⟩
  · -- a window at a port that is none (R412)
    intro d n w hw
    rw [exec_hostWindowWrite, if_neg (by omega)]
  · -- a window at a host port (R412)
    intro d n w hd hn hw
    have e := exec_hostWindowWrite s d n w
    rw [if_pos ⟨hd, hn, hw⟩] at e
    refine ⟨_, e, ?_, ?_, rfl⟩ <;> rw [setWindow_vd]
    · exact tget_tput_same _ n w
    · simp
  · -- a memory key (R412)
    intro d n k hd hn
    refine ⟨_, exec_memoryKeyWrite s hd hn k, ?_, rfl⟩
    simp only [modVd, vd_setVd, if_true, tget_tput_same]

end Sys2Proof
end

section
/-!
PROOFS. What stands before an instruction's own effect (R39, R41, R50): every well-formed instruction but WAITM is one
issue, an issue that is held stalls, and one whose members all fail step 2, 3 or 4 of R50 traps them all.
-/

namespace Sys2Proof.Machine.State

open Sys2Proof

/-! ### Every instruction is one issue -/

/-- An instruction word's meaning is one issue of the current group with an effect of its own; WAITM's place (R283) is
looked at first. -/
theorem exec_eq_issue {i : Instr} (hw : WellFormed i) (hm : ∀ x, i ≠ .waitm x) (s : State) :
    ∃ body, exec i s = .next (s.issue i body) := by
  cases i with
  | waitm x => exact absurd rfl (hm x)
  | nop x | bra x | brx x | call x | callx x | ret x | exit x | yield x | join x | leave x | kmovMem x | kmovArr x | kmovSet x
  | kmovClr x | bkpt x | trap x | waitc x | cont x => exact ⟨_, rfl⟩
  | iadd x | isub x | imul x | imulh x | imad x | imin x | imax x | iabs x | and x | or x | xor x | lop3 x | shl x | shr x
  | rot x | sel x | iaddi x | imuli x | lopi x | movi x | movhi x | lea x | bfe x | bfi x | popc x | clz x | brev x | mov x
  | isetp x | pset x => exact ⟨_, rfl⟩
  | fadd x | fsub x | fmul x | ffma x | fscale x | frnd x | fmin x | fmax x | fsetp x | fclass x | hfma2 x | hadd2 x | hmul2 x
  | dot4 x | dot2 x | cvt x | frcp x | frsq x | fsqrt x | fexp2 x | flog2 x | fsin x | fcos x | ftanh x | qscale x | pack x
  | unpack x | fxaadd x | fxacvt x => exact ⟨_, rfl⟩
  | shfl x | vote x | matchLanes x | redux x | active x | prmt x => exact ⟨_, rfl⟩
  | ld x | st x | lds x | sts x | ldw x | pref x | cctlWb x | cctlWbr x | cctlWball x | cctlInv x | cctlEvl x | stbq x
  | drain x | atom x | red x | cas x | atoms x | fence x | wait x | ptime x | ptimeUntil x | wmark x | wmarkWait x =>
    exact ⟨_, rfl⟩
  | talloc x | tfree x | tstat x | tstatWait x | tset x | cpy x | cpytLd x | cpytSt x | cbld x | stage x | stageMax x | snda x
  | sndf x | penq x | penqAdv x | cpyst x => exact ⟨_, rfl⟩
  | mlds x | mswp x | mma x | macr x | macw x | macz x | mstat x | mstatTags x | mnbr x => exact ⟨_, rfl⟩
  | bari x | bara x | barw x | baraw x | barq x | barqSt x | lnch x | frpt x | frdn x | frq x | frqNext x => exact ⟨_, rfl⟩
  | bid x | price x | priceSold x | purse x | purseRate x | purseCap x | lease x | leaseTime x | meter x | recallReq x
  | recallT x => exact ⟨_, rfl⟩
  | csrr x | csrw x | eret x | eretSkip x | tlbiVa x | tlbiCtx x | tlbiAll x | halt x | haltRun x | haltStep x | haltSave x
  | qpop x | qpushRep x | qpushFwd x | crypTh x | crypEmit x | crypMeas x | crypNonce x | crypSign x | crypCert x
  | crypTinit x | crypTmark x | crypTrest x | migrOpen x | migrRound x | migrStop x | migrLand x | migrAbort x
  | migrClose x => exact ⟨_, rfl⟩
  | _ => cases hw

/-! ### A held group -/

theorem issue_holds {s : State} {g : Group} {i : Instr} (hc : s.cur = some g) (hh : s.holds g i = true)
    (body : Group → List Nat → State → State) : s.issue i body = s.stall := by
  simp only [issue, hc, hh, if_true]

theorem same_stall (s : State) : Same s s.stall := by
  unfold stall
  split
  · exact Same.refl s
  · exact ((same_cur s _).trans (same_membersAt _ _ _ _)).trans
      (same_foldl _ _ (fun u t => same_modThread u t _ fun x => ⟨_, _, _, _, _, _, _, _, rfl⟩) _)

theorem foldl_modThread_cur (l : List Nat) (f : State → Nat → Thread → Thread) :
    ∀ s : State, (l.foldl (fun s t => s.modThread t (f s t)) s).cur = s.cur := by
  induction l with
  | nil => exact fun _ => rfl
  | cons t l ih => exact fun s => ih (s.modThread t (f s t))

theorem stall_cur {s : State} {g : Group} (hc : s.cur = some g) : s.stall.cur = some { g with stalled := true } := by
  simp only [stall, hc, membersAt]
  rw [foldl_modThread_cur g.members fun s _ x => { x with stallFrom := some (x.stallFrom.getD s.cyc) }]
  exact foldl_modThread_cur g.members (fun _ _ x => if x.st = .running then { x with st := .stalled } else x) _

/-! ### Steps 2 to 4 of R50 -/

/-- The code that steps 2 to 4 of R50 raise in a thread at an instruction, if they raise one. -/
def refusal (s : State) (g : Group) (i : Instr) (t : Nat) : Option Nat :=
  if !s.allowed t i then some tcPriv
  else if instrUsesWK i && !hdrFu g.hdr then some tcIllegalClause
  else if !s.rangeOk t i then some tcRegRange
  else none

theorem preCheck_refused {s : State} {g : Group} {i : Instr} {t code : Nat} (he : (s.thread t).errs = [])
    (h : s.refusal g i t = some code) : s.preCheck g i t = s.trap t code 0 := by
  unfold preCheck
  rw [dueErrs_nil he]
  simp only [oldestErr, List.foldl_nil]
  unfold refusal at h
  split at h
  · rename_i hp; rw [if_pos hp, Option.some.inj h]
  · rename_i hp
    rw [if_neg hp]
    split at h
    · rename_i hf; rw [if_pos hf, Option.some.inj h]
    · rename_i hf
      rw [if_neg hf]
      split at h
      · rename_i hr; rw [if_pos hr, Option.some.inj h]
      · cases h

/-- What a trap of another thread leaves of all that a thread's own checks and its own trap look at. -/
structure Stands (s u : State) (t : Nat) : Prop where
  thread : u.thread t = s.thread t
  wgs : u.wgs = s.wgs
  ctxs : u.ctxs = s.ctxs
  runs : u.runs = s.runs

theorem Stands.trans {s u v : State} {t : Nat} (a : Stands s u t) (b : Stands u v t) : Stands s v t :=
  ⟨b.thread.trans a.thread, b.wgs.trans a.wgs, b.ctxs.trans a.ctxs, b.runs.trans a.runs⟩

theorem Stands.wgOf {s u : State} {t : Nat} (h : Stands s u t) : u.wgOf t = s.wgOf t := by
  simp only [State.wgOf, State.wg, h.thread, h.wgs]

theorem Stands.refusal {s u : State} {t : Nat} (h : Stands s u t) (g : Group) (i : Instr) :
    u.refusal g i t = s.refusal g i t := by
  have hp : u.fullPriv t = s.fullPriv t := by
    simp only [fullPriv, ctxPriv, ctl, ctx, ctxOf, h.wgOf, h.ctxs]
  have ha : u.allowed t i = s.allowed t i := by
    simp only [allowed, hp, h.thread, h.runs]
  have hr : u.rangeOk t i = s.rangeOk t i := by
    simp only [rangeOk, h.wgOf]
  simp only [State.refusal, ha, hr]

/-! ### A thread leaves its groups and parks -/

theorem clearFu_rest (s : State) (g : Group) : { s.clearFu g with flocks := s.flocks } = s := by
  unfold clearFu
  split
  · split <;> rfl
  · rfl

theorem foldl_clearFu_rest (l : List Group) : ∀ s : State, { l.foldl (fun s g => s.clearFu g) s with flocks := s.flocks } = s := by
  induction l with
  | nil => exact fun _ => rfl
  | cons g l ih =>
    intro s
    have h := congrArg (fun u : State => { u with flocks := s.flocks }) (ih (s.clearFu g))
    exact h.trans (clearFu_rest s g)

/-- The current group once a thread has left it. -/
def curWithout (s : State) (t : Nat) : State :=
  match s.cur with
  | none => s
  | some g =>
    if g.members.contains t then
      match Group.drop g t with
      | some g' => { s with cur := some g' }
      | none => { s.clearFu g with cur := none }
    else s

theorem curWithout_rest (s : State) (t : Nat) : { s.curWithout t with cur := s.cur, flocks := s.flocks } = s := by
  unfold curWithout
  split
  · rfl
  · rename_i g _
    split
    · split
      · rfl
      · exact congrArg (fun u : State => { u with cur := s.cur }) (clearFu_rest s g)
    · rfl

theorem leaveGroups_eq (s : State) (t : Nat) : s.leaveGroups t =
    let u := ((s.curWithout t).groups.filter fun g => g.members = [t]).foldl (fun s g => s.clearFu g) (s.curWithout t)
    { u with groups := u.groups.filterMap fun g => if g.members.contains t then Group.drop g t else some g } := by
  unfold leaveGroups curWithout
  rfl

theorem leaveGroups_rest (s : State) (t : Nat) :
    { s.leaveGroups t with cur := s.cur, groups := s.groups, flocks := s.flocks } = s := by
  rw [leaveGroups_eq]
  have h := congrArg (fun u : State => { u with cur := s.cur, groups := s.groups, flocks := s.flocks })
    (foldl_clearFu_rest ((s.curWithout t).groups.filter fun g => g.members = [t]) (s.curWithout t))
  have h2 := congrArg (fun u : State => { u with groups := s.groups }) (curWithout_rest s t)
  exact h.trans h2

@[simp] theorem leaveGroups_threads (s : State) (t : Nat) : (s.leaveGroups t).threads = s.threads := by
  have h := congrArg State.threads (leaveGroups_rest s t)
  exact h

@[simp] theorem leaveGroups_wgs (s : State) (t : Nat) : (s.leaveGroups t).wgs = s.wgs := by
  have h := congrArg State.wgs (leaveGroups_rest s t)
  exact h

@[simp] theorem leaveGroups_ctxs (s : State) (t : Nat) : (s.leaveGroups t).ctxs = s.ctxs := by
  have h := congrArg State.ctxs (leaveGroups_rest s t)
  exact h

@[simp] theorem leaveGroups_runs (s : State) (t : Nat) : (s.leaveGroups t).runs = s.runs := by
  have h := congrArg State.runs (leaveGroups_rest s t)
  exact h

theorem leaveGroups_cur {s : State} {g : Group} {t : Nat} (hc : s.cur = some g) (ht : t ∈ g.members) :
    (s.leaveGroups t).cur = Group.drop g t := by
  have h := congrArg State.cur
    (foldl_clearFu_rest ((s.curWithout t).groups.filter fun g => g.members = [t]) (s.curWithout t))
  have hcur : (s.leaveGroups t).cur = (s.curWithout t).cur := by rw [leaveGroups_eq]; exact h
  rw [hcur, curWithout, hc]
  simp only [List.contains_iff_mem.mpr ht, if_true]
  split
  · rename_i e; exact e.symm
  · rename_i e; exact e.symm

/-- A kernel thread that may trap, of a context with a handler. -/
structure MayPark (s : State) (t : Nat) : Prop where
  kernel : isCp t = false
  errs : (s.thread t).errs = []
  mode : (s.thread t).handler = false
  handled : (s.ctx (s.ctxOf t)).words.handlerPc ≠ 0

theorem MayPark.of_stands {s u : State} {t : Nat} (h : MayPark s t) (hs : Stands s u t) : MayPark u t :=
  ⟨h.kernel, by rw [hs.thread]; exact h.errs, by rw [hs.thread]; exact h.mode, by
    have : u.ctx (u.ctxOf t) = s.ctx (s.ctxOf t) := by simp only [ctx, ctxOf, hs.wgOf, hs.ctxs]
    rw [this]; exact h.handled⟩

theorem mkRec_code (code : Nat) (hb : code < 256) (pc : W64) (idx : Nat) (addr : W64) :
    ((mkRec code pc idx addr).tcode.extractLsb' 0 8).toNat = code := by
  simp only [mkRec, BitVec.extractLsb'_toNat, BitVec.toNat_ofNat, Nat.shiftRight_zero]
  omega

/-- Taking a trap, a thread leaves its groups and parks; nothing else changes unless a debugger halts its workgroup. -/
theorem trapWith_eq {s : State} {t : Nat} {r : TrapRec} (h : MayPark s t)
    (hp : (r.tcode.extractLsb' 0 8).toNat ≠ tcPoison) (hd : (r.tcode.extractLsb' 0 8).toNat ≠ tcBreakpoint) :
    ∃ x, s.trapWith t r = s.leaveGroups t ∨ s.trapWith t r = (s.leaveGroups t).setThread t x := by
  unfold trapWith
  dsimp only
  by_cases hn : (tget s.threads t).isNone = true
  · exact ⟨.start 0 0, .inl (by rw [if_pos hn])⟩
  · rw [if_neg hn, h.kernel, h.mode, if_neg Bool.false_ne_true, if_neg hp, if_neg Bool.false_ne_true, if_neg h.handled,
      decide_eq_false hd, Bool.false_and, if_neg Bool.false_ne_true]
    exact ⟨_, .inr rfl⟩

theorem trap_eq {s : State} {t code : Nat} (h : MayPark s t) (hb : code < 256) (hp : code ≠ tcPoison)
    (hd : code ≠ tcBreakpoint) (addr : W64) :
    ∃ x, s.trap t code addr = s.leaveGroups t ∨ s.trap t code addr = (s.leaveGroups t).setThread t x :=
  trapWith_eq h (by rwa [mkRec_code code hb]) (by rwa [mkRec_code code hb])

theorem trap_stands {s : State} {t u code : Nat} (h : MayPark s t) (hb : code < 256) (hp : code ≠ tcPoison)
    (hd : code ≠ tcBreakpoint) (addr : W64) (hu : u ≠ t) : Stands s (s.trap t code addr) u := by
  have hs : Stands s (s.leaveGroups t) u := ⟨by simp [thread], by simp, by simp, by simp⟩
  obtain ⟨x, e | e⟩ := trap_eq h hb hp hd addr <;> rw [e]
  · exact hs
  · exact ⟨by rw [thread_setThread, if_neg hu]; exact hs.thread, hs.wgs, hs.ctxs, hs.runs⟩

theorem trap_cur {s : State} {g : Group} {t code : Nat} (h : MayPark s t) (hb : code < 256) (hp : code ≠ tcPoison)
    (hd : code ≠ tcBreakpoint) (addr : W64) (hc : s.cur = some g) (ht : t ∈ g.members) :
    (s.trap t code addr).cur = Group.drop g t := by
  obtain ⟨x, e | e⟩ := trap_eq h hb hp hd addr <;> rw [e]
  · exact leaveGroups_cur hc ht
  · exact leaveGroups_cur hc ht

/-! ### A group whose members all fail a check -/

/-- Members that all fail with one code trap one after another, and none stays in the current group. -/
theorem foldl_preCheck_refused {g : Group} {i : Instr} {code : Nat} (hb : code < 256) (hp : code ≠ tcPoison)
    (hd : code ≠ tcBreakpoint) :
    ∀ (l : List Nat) (s : State) (h : Group), l ≠ [] → l.Nodup → s.cur = some h → h.members = l →
      (∀ t ∈ l, MayPark s t ∧ s.refusal g i t = some code) →
      l.foldl (fun s t => s.preCheck g i t) s = l.foldl (fun s t => s.trap t code 0) s ∧
        (l.foldl (fun s t => s.trap t code 0) s).cur = none := by
  intro l
  induction l with
  | nil => exact fun _ _ hne => absurd rfl hne
  | cons t l ih =>
    intro s h _ hnd hc hm ht
    obtain ⟨hpark, href⟩ := ht t (List.mem_cons_self ..)
    obtain ⟨htl, hnd⟩ := List.nodup_cons.mp hnd
    have hdrop : (s.trap t code 0).cur = Group.drop h t :=
      trap_cur hpark hb hp hd 0 hc (by rw [hm]; exact List.mem_cons_self ..)
    have hrest : h.members.filter (· ≠ t) = l := by
      rw [hm, List.filter_cons_of_neg (by simp), List.filter_eq_self.mpr]
      intro u hu
      exact decide_eq_true fun e => htl (e ▸ hu)
    rw [List.foldl_cons, List.foldl_cons, preCheck_refused hpark.errs href]
    simp only [Group.drop, hrest] at hdrop
    by_cases hl : l = []
    · subst hl
      exact ⟨rfl, hdrop⟩
    · rw [if_neg hl] at hdrop
      refine ih _ _ hl hnd hdrop rfl fun u hu => ?_
      obtain ⟨hu1, hu2⟩ := ht u (List.mem_cons_of_mem _ hu)
      have hs : Stands s (s.trap t code 0) u := trap_stands hpark hb hp hd 0 fun e => htl (e ▸ hu)
      exact ⟨hu1.of_stands hs, (hs.refusal g i).trans hu2⟩

/-- R50: where every member of the group fails steps 2 to 4 with one code, the issue is their traps. -/
theorem issue_refused {s : State} {g : Group} {i : Instr} {code : Nat} (hb : code < 256) (hp : code ≠ tcPoison)
    (hd : code ≠ tcBreakpoint) (hm : MayTrap s g) (hh : s.holds g i = false)
    (hr : ∀ t ∈ g.members, s.refusal g i t = some code) (body : Group → List Nat → State → State) :
    s.issue i body = g.members.foldl (fun u t => u.trap t code 0) s := by
  obtain ⟨he, hn⟩ := foldl_preCheck_refused hb hp hd g.members s g hm.some_ hm.distinct hm.cur rfl fun t ht =>
    ⟨⟨hm.kernel t ht, hm.errs t ht, hm.mode t ht, hm.handled t ht⟩, hr t ht⟩
  unfold issue
  simp only [hm.cur, hh, Bool.false_eq_true, if_false, countRun_kernel hm.kernel, he, hn]

end Sys2Proof.Machine.State

namespace Sys2Proof

open Sys2Proof.Machine State

/-- Steps 2 to 4 of R50 in every member, with one code. -/
theorem exec_trapsAll {s : State} {g : Group} {i : Instr} {code : Nat} (hw : WellFormed i) (hi : ∀ x, i ≠ .waitm x)
    (hb : code < 256) (hp : code ≠ tcPoison) (hd : code ≠ tcBreakpoint) (hm : MayTrap s g) (hh : s.holds g i = false)
    (hr : ∀ t ∈ g.members, s.refusal g i t = some code) : exec i s = trapsAll s g code := by
  obtain ⟨body, hx⟩ := exec_eq_issue hw hi s
  rw [hx, issue_refused hb hp hd hm hh hr]
  rfl

theorem exec_holds {s : State} {g : Group} {i : Instr} (hw : WellFormed i) (hi : ∀ x, i ≠ .waitm x) (hc : s.cur = some g)
    (hh : s.holds g i = true) : exec i s = .next s.stall := by
  obtain ⟨body, hx⟩ := exec_eq_issue hw hi s
  rw [hx, issue_holds hc hh]

theorem refusal_illegalClause {s : State} {g : Group} {i : Instr} {t : Nat} (ha : s.allowed t i = true)
    (hu : instrUsesWK i = true) (hf : hdrFu g.hdr = false) : s.refusal g i t = some tcIllegalClause := by
  simp [refusal, ha, hu, hf]

theorem refusal_regRange {s : State} {g : Group} {i : Instr} {t : Nat} (ha : s.allowed t i = true)
    (hu : instrUsesWK i = true → hdrFu g.hdr = true) (hr : s.rangeOk t i = false) : s.refusal g i t = some tcRegRange := by
  have hwk : (instrUsesWK i && !hdrFu g.hdr) = false := by
    cases e : instrUsesWK i
    · rfl
    · simp [hu e]
  simp [refusal, ha, hwk, hr]

theorem rangeOk_past {s : State} {i : Instr} {t : Nat} (h : (instrTouches i).any (grpPast (s.wgOf t).regs) = true) :
    s.rangeOk t i = false := by
  simp [rangeOk, h]

theorem rangeOk_barPast {s : State} {i : Instr} {t : Nat} {n : Fin 16} (hb : instrBar i = some (.b n))
    (h : (s.wgOf t).bars ≤ n.val) : s.rangeOk t i = false := by
  simp [rangeOk, hb, Nat.not_lt.mpr h]

theorem rangeOk_noTeam {s : State} {i : Instr} {t : Nat} {n : Fin 8} (hb : instrBar i = some (.bt n))
    (h : (s.wgOf t).team = none) : s.rangeOk t i = false := by
  simp [rangeOk, hb, h]

/-- Settles O58: an issue stalls where it is held and traps every member where steps 2 to 4 of R50 do. -/
theorem checksBeforeIssue : Obligations.ChecksBeforeIssue := by
  intro s g i hw hi hc
  refine ⟨?_, ?_, fun hm hh ha => ⟨?_, ?_⟩⟩
  · obtain ⟨body, hx⟩ := exec_eq_issue hw hi s
    exact ⟨_, hx⟩
  · intro h
    have hh : s.holds g i = true := by
      unfold holds
      rcases h with h | ⟨t, ht, h⟩
      · rw [h, Bool.true_or]
      · rw [List.any_eq_true.mpr ⟨t, ht, by rw [h]; rfl⟩, Bool.or_true]
    have hs := same_stall s
    have hmem := congrArg State.mem hs.kept.rest
    exact ⟨exec_holds hw hi hc hh, hmem, hs.rd, hs.rdP, stall_cur hc⟩
  · intro hu hf
    exact exec_trapsAll hw hi (by decide) (by decide) (by decide) hm hh fun t ht => refusal_illegalClause (ha t ht) hu hf
  · intro hu hp
    exact exec_trapsAll hw hi (by decide) (by decide) (by decide) hm hh fun t ht =>
      refusal_regRange (ha t ht) hu (rangeOk_past (hp t ht))

/-- Settles O59: a full counter holds the group, and a barrier operand out of range fails step 4 of R50. -/
theorem countersAndBarrierOperands : Obligations.CountersAndBarrierOperands := by
  intro s g i hw
  refine ⟨fun k p hc hk hp h => ?_, fun b hb hm hh ha hu hr => ?_⟩
  · obtain ⟨t, ht, hg, hfull⟩ := h
    refine exec_holds hw (fun x e => by subst e; cases hk) hc ?_
    have ht1 : s.counterFull t i = true := by
      simp only [counterFull, hk]
      exact decide_eq_true hfull
    have ht2 : s.takesPart t i = true := by simp only [takesPart, hp, hg]
    unfold holds
    rw [List.any_eq_true.mpr ⟨t, ht, by simp [ht1, ht2]⟩, Bool.or_true]
  · have hrange : ∀ t ∈ g.members, s.rangeOk t i = false := by
      intro t ht
      cases b with
      | b n => exact rangeOk_barPast hb (hr t ht)
      | bt n => exact rangeOk_noTeam hb (hr t ht)
    exact exec_trapsAll hw (fun x e => by subst e; cases hb) (by decide) (by decide) (by decide) hm hh fun t ht =>
      refusal_regRange (ha t ht) hu (hrange t ht)

end Sys2Proof
end

section
/-!
PROOFS. LOAD_RETURN (R38, R41, R174, R200, R207, R211, R212): an access that nothing holds at its home completes there,
and what the caches and the dirty lines note of it leaves memory, threads and outstanding accesses alone.
-/

namespace Sys2Proof.Machine.State

open Sys2Proof

/-! ### What caches and dirty lines note -/

/-- Nothing changed but cores, the caches' marks, the dirty lines and the next identity. -/
def Cached (s u : State) : Prop :=
  { u with cores := s.cores, hints := s.hints, replicas := s.replicas, dirty := s.dirty, fresh := s.fresh } = s

theorem Cached.refl (s : State) : Cached s s := rfl

theorem Cached.trans {s u v : State} (a : Cached s u) (b : Cached u v) : Cached s v := by
  have h := congrArg (fun x : State =>
    { x with cores := s.cores, hints := s.hints, replicas := s.replicas, dirty := s.dirty, fresh := s.fresh }) b
  exact h.trans a

theorem Cached.mem {s u : State} (h : Cached s u) : u.mem = s.mem := by
  have e := congrArg State.mem h
  exact e

theorem Cached.accs {s u : State} (h : Cached s u) : u.accs = s.accs := by
  have e := congrArg State.accs h
  exact e

theorem Cached.threads {s u : State} (h : Cached s u) : u.threads = s.threads := by
  have e := congrArg State.threads h
  exact e

theorem Cached.poison {s u : State} (h : Cached s u) : u.poison = s.poison := by
  have e := congrArg State.poison h
  exact e

theorem cached_modCore (s : State) (c : Nat) (f : Core → Core) : Cached s (s.modCore c f) := rfl

theorem cached_dirty (s : State) (d : Tbl Dirty) (n : Nat) : Cached s { s with dirty := d, fresh := n } := rfl

theorem cached_dropL1 (s : State) (c line : Nat) : Cached s (s.dropL1 c line) := rfl

theorem cached_markSeen (s : State) (c pa n t : Nat) : Cached s (s.markSeen c pa n t) := by
  unfold markSeen
  dsimp only
  split
  · exact cached_modCore s _ _
  · exact Cached.refl s

theorem cached_markLine (s : State) (c line : Nat) (h : Retain) : Cached s (s.markLine c line h) := by
  unfold markLine
  dsimp only
  split <;> split <;> rfl

theorem cached_updateL1 (s : State) (c pa : Nat) (bs : List Byte) (stamp : Nat) : Cached s (s.updateL1 c pa bs stamp) := by
  unfold updateL1
  split
  · exact Cached.refl s
  · exact cached_modCore s _ _

theorem cached_evictL1 (s : State) (c line : Nat) : Cached s (s.evictL1 c line) := by
  unfold evictL1
  split
  · exact Cached.refl s
  · dsimp only
    split <;> rfl

theorem cached_fillL1 (s : State) (c line : Nat) (h : Retain) : Cached s (s.fillL1 c line h) := by
  unfold fillL1
  dsimp only
  split
  · exact Cached.refl s
  · refine Cached.trans ?_ (cached_modCore _ _ _)
    split
    · split
      · exact cached_evictL1 s _ _
      · exact Cached.refl s
    · exact Cached.refl s

theorem cached_raise (s : State) (c x : Nat) (f : BitVec 7) : Cached s (s.raise c x f) := by
  unfold raise
  split
  · exact Cached.refl s
  · exact cached_modCore s _ _

theorem cached_dirtyLine (s : State) (c : Nat) (wb spilled out : Bool) (way : Option Nat) (line : Nat) :
    Cached s (s.dirtyLine c wb spilled out way line) := rfl

theorem cached_evictLine (s : State) (line : Nat) : Cached s (s.evictLine line) := rfl

/-- R184 to R186: a slice that accepts a line notes it, and may evict another. -/
theorem cached_acceptLine {s u : State} {c : Nat} {wb spill : Bool} {line : Nat}
    (h : s.acceptLine c wb spill line = some u) : Cached s u := by
  unfold acceptLine at h
  extract_lets slice held mine full evict at h
  have hline {wb spilled out : Bool} {way : Option Nat} (e : some (s.dirtyLine c wb spilled out way line) = some u) :
      Cached s u := Option.some.inj e ▸ cached_dirtyLine s c wb spilled out way line
  have hevict (e : some evict = some u) : Cached s u := by
    rw [← Option.some.inj e]
    simp only [evict]
    split
    · split <;> exact (cached_evictLine s _).trans (cached_dirtyLine _ _ _ _ _ _ _)
    · exact cached_dirtyLine s _ _ _ _ _ _
  have hspace {f : Option Nat → State} (hf : ∀ w, Cached s (f w)) {o : Option (Option Nat)} (e : o.map f = some u) :
      Cached s u := by
    obtain ⟨w, -, rfl⟩ := Option.map_eq_some_iff.mp e
    exact hf w
  clear_value evict mine full held
  split at h
  · split at h
    · exact hline h
    · split at h
      · exact hline h
      · split at h
        · split at h
          · exact hevict h
          · split at h
            · exact hline h
            · cases h
        · exact hspace (fun w => cached_dirtyLine s _ _ _ _ w _) h
  · split at h
    · split at h
      · exact hevict h
      · split at h
        · exact hline h
        · cases h
    · split at h
      · exact hline h
      · split at h
        · exact hline h
        · split at h
          · exact hevict h
          · cases h

/-! ### A destination is written -/

theorem wrN_eq_wrGroup (s : State) (t : Nat) (d : Reg) (k v : Nat) : s.wrN t d k v = s.wrGroup t d v k := by
  simp [wrN, wrGroup, regsOf, List.foldl_map]

theorem cleanRegs_clean {s : State} (h : s.poison = []) (t : Nat) (xs : List Grp) : s.cleanRegs t xs = s := by
  rw [cleanRegs, if_pos h]

/-- Where no poison stands, a destination is written as a group of registers. -/
theorem wrD_clean {s : State} (h : s.poison = []) (t : Nat) (d : Reg) (k v : Nat) : s.wrD t d k v = s.wrGroup t d v k := by
  rw [wrD, wrN_eq_wrGroup, cleanRegs_clean ((poison_kept (kept_wrGroup s t d v k)).trans h)]

theorem rdN_wrGroup {s : State} {d : Reg} {k : Nat} (hd : d ≠ .zero) (hf : d.fits k) (t v : Nat) :
    (s.wrGroup t d v k).rdN t d k = v % 2 ^ (32 * k) :=
  rdN_of _ _ _ _ k fun i hi => wrGroup_in s t t d v hd i k hf hi rfl

theorem rdN_congr {s u : State} {t : Nat} (h : ∀ r, u.rd t r = s.rd t r) (d : Reg) (k : Nat) : u.rdN t d k = s.rdN t d k := by
  induction k with
  | zero => rfl
  | succ k ih => rw [rdN, rdN, ih, h]

theorem ctr_kept {s u : State} (h : Kept s u) (t : Nat) (k : Ctr) : (u.thread t).ctr k = (s.thread t).ctr k := by
  have e := congrArg (fun x : Thread => x.ctr k) (h.thread t)
  cases k <;> exact e

theorem hasThread_wr {s : State} {a t : Nat} (h : s.hasThread t = true) (r : Reg) (v : W32) : (s.wr a r v).hasThread t = true := by
  cases r with
  | zero => exact h
  | w n => exact h
  | g n =>
    simp only [hasThread, wr_g, setThread_threads, tget_tput]
    split
    · rfl
    · exact h

theorem hasThread_wrGroup {s : State} {a t : Nat} (h : s.hasThread t = true) (d : Reg) (v k : Nat) :
    (s.wrGroup a d v k).hasThread t = true := by
  induction k with
  | zero => exact h
  | succ k ih => rw [wrGroup_succ]; exact hasThread_wr ih _ _

/-! ### An access completes -/

theorem ctr_uncount (x : Thread) (k : Ctr) : (x.uncount k).ctr k = x.ctr k - 1 := by cases k <;> rfl

theorem rd_uncount (s : State) (a : Nat) (k : Ctr) (t : Nat) (r : Reg) :
    (s.modThread a fun x => x.uncount k).rd t r = s.rd t r := by
  cases r with
  | zero => rfl
  | w n => rfl
  | g n =>
    simp only [rd, modThread, thread_setThread]
    split
    · rename_i e
      subst e
      cases k <;> rfl
    · rfl

/-- The package without one outstanding access. -/
def withoutAcc (s : State) (id : Nat) : State := { s with accs := s.accs.filter fun x => x.id ≠ id }

theorem deliver_clean {s : State} {a : Access} {p : Nat} (ht : a.tids = [p]) (hp : s.hasThread p = true)
    (hclean : s.poison = []) (v : Nat) : s.deliver a v = s.wrGroup p a.dst v a.grp.2 := by
  simp only [deliver, ht, hp, if_true]
  exact wrD_clean hclean ..

theorem fall_one {s : State} {a : Access} {p : Nat} (ht : a.tids = [p]) (hp : s.hasThread p = true)
    (hcnt : a.op.counted = true) : s.fall a = s.modThread p fun x => x.uncount a.ctr := by
  simp only [fall, hcnt, ht, hp, List.foldl_cons, List.foldl_nil, Bool.not_true, Bool.false_eq_true, if_false, if_true]

/-- An access of one thread that is there and acquires nothing: its destination written, its counter fallen. -/
theorem complete_eq {s : State} {a : Access} {p : Nat} (ht : a.tids = [p]) (hp : s.hasThread p = true) (hacq : a.acq = none)
    (hcnt : a.op.counted = true) (hclean : s.poison = []) (v stamp : Nat) :
    s.complete a v stamp = ((s.withoutAcc a.id).wrGroup p a.dst v a.grp.2).modThread p fun x => x.uncount a.ctr := by
  have hp' : (s.withoutAcc a.id).hasThread p = true := hp
  have hc' : (s.withoutAcc a.id).poison = [] := hclean
  have e : s.complete a v stamp = ((s.withoutAcc a.id).deliver a v).fall a := by
    rw [complete, hacq]
    rfl
  rw [e, deliver_clean ht hp' hc', fall_one ht (hasThread_wrGroup hp' ..) hcnt]

/-- What stands of memory, threads, accesses and poison when an access has been performed at its home. -/
structure Performed (s u : State) (m : Memory) : Prop where
  mem : u.mem = m
  accs : u.accs = s.accs
  threads : u.threads = s.threads
  poison : u.poison = s.poison

theorem Cached.performed {s u : State} (h : Cached s u) : Performed s u s.mem := ⟨h.mem, h.accs, h.threads, h.poison⟩

theorem Performed.cached {s u v : State} {m : Memory} (h : Performed s u m) (hc : Cached u v) : Performed s v m :=
  ⟨hc.mem.trans h.mem, hc.accs.trans h.accs, hc.threads.trans h.threads, hc.poison.trans h.poison⟩

theorem complete_completed {s u : State} {a : Access} {p : Nat} {m : Memory} (h : MayReturn s a p)
    (hcnt : a.op.counted = true) (hu : Performed s u m) (v stamp : Nat) :
    (u.complete a v stamp).mem = m ∧ completed s (u.complete a v stamp) a p v := by
  have hclean : u.poison = [] := hu.poison.trans h.clean
  have hlive : u.hasThread p = true := by rw [hasThread, hu.threads]; exact h.live
  rw [complete_eq h.tids hlive h.plain hcnt hclean]
  have hk := kept_wrGroup (u.withoutAcc a.id) p a.dst v a.grp.2
  refine ⟨?_, ?_, ?_, fun hd hf => ?_⟩
  · have e := congrArg State.mem hk.rest
    exact e.trans hu.mem
  · have e := congrArg State.accs hk.rest
    rw [← hu.accs]
    exact e
  · rw [modThread, thread_setThread, if_pos rfl, ctr_uncount, ctr_kept hk]
    simp only [thread, withoutAcc, hu.threads]
  · rw [rdN_congr (rd_uncount _ _ _ _), rdN_wrGroup hd hf]

/-! ### The access at its home -/

section
variable {s : State} {a : Access} {p : Nat}

theorem queuedPoison_clean (h : s.poison = []) (c pa n : Nat) : s.queuedPoison c pa n = false := by
  simp [queuedPoison, h]

theorem poisonAt_clean (h : s.poison = []) (pa n : Nat) : s.poisonAt pa n = none := by
  simp [poisonAt, h]

theorem hearFlit_local (h : s.isLocal a.pa = true) : s.hearFlit a.pa = s := by
  rw [hearFlit, h, Bool.or_true, if_pos rfl]

/-- Nothing that could hold the access at its home holds it. -/
theorem may_passes (h : MayReturn s a p) :
    (a.sc && (s.storesOf a.core).any fun b => decide (b.id ≠ a.id) && b.meets a.pa a.op.len) = false ∧
      s.floorOk (s.floorOf a) a.pa = true := by
  constructor
  · cases hs : a.sc
    · rfl
    · rw [Bool.true_and, List.any_eq_false]
      intro b hb
      by_cases e : b.id = a.id
      · simp [e]
      · simp [e, h.order hs b hb e]
  · simp only [floorOf, h.tids, List.foldl_cons, List.foldl_nil, Nat.zero_max]
    exact h.floor

theorem returnAccess_load (h : MayReturn s a p) {z : Size} (hop : a.op = .load z) :
    s.returnAccess a.id none = s.finishLoad a z none := by
  obtain ⟨hmeets, hfloor⟩ := may_passes h
  unfold returnAccess
  rw [h.there]
  simp only [h.alone, h.sent, h.unowned, h.cool, hmeets, h.unread, hfloor, hearFlit_local h.home, Option.isSome_none,
    Option.isNone_none, Bool.or_false, Bool.false_and, Bool.and_false, Bool.not_true, Bool.false_eq_true, if_false]
  rw [hop]

theorem returnAccess_write (h : MayReturn s a p) (hl : ∀ z, a.op ≠ .load z) (hp : ∀ n, a.op ≠ .penq n) :
    s.returnAccess a.id none = s.finishWrite a none := by
  obtain ⟨hmeets, hfloor⟩ := may_passes h
  unfold returnAccess
  rw [h.there]
  simp only [h.alone, h.sent, h.unowned, h.cool, hmeets, h.unread, hfloor, hearFlit_local h.home, Option.isSome_none,
    Option.isNone_none, Bool.or_false, Bool.false_and, Bool.and_false, Bool.not_true, Bool.false_eq_true, if_false]

theorem finishLoad_completed (h : MayReturn s a p) {z : Size} (hop : a.op = .load z) :
    (s.finishLoad a z none).mem = s.mem ∧
      completed s (s.finishLoad a z none) a p
        (extendBy z (leNat (s.mergeQueued a.core a.pa (mbytes s.mem a.pa z.bytes)))) := by
  have hlen : a.op.len = z.bytes := by rw [hop]; rfl
  unfold finishLoad
  simp only [queuedPoison_clean h.clean, h.unread, poisonAt_clean h.clean, learn, hlen, Option.isSome_none, Bool.and_false,
    Bool.false_eq_true, if_false]
  refine complete_completed h (by rw [hop]; rfl) (Cached.performed ?_) _ _
  have hdrop := (cached_markSeen s a.core a.pa z.bytes (a.tids.headD 0)).trans (cached_dropL1 _ a.core (a.pa / 128))
  split
  · exact (hdrop.trans (cached_fillL1 _ _ _ _)).trans (cached_markLine _ _ _ _)
  · exact hdrop.trans (cached_markLine _ _ _ _)

/-- R38, R174: what a write leaves at its home, once its line has been noted. -/
theorem performed_putMem (h : s.poison = []) {u : State} (hu : Cached s u) (c x pa : Nat) (bs : List Byte) (f : BitVec 7) :
    Performed s ((u.putMem pa bs 0).raise c x f) (mputs s.mem pa bs) := by
  have hput : Performed s (u.putMem pa bs 0) (mputs s.mem pa bs) :=
    ⟨by rw [← hu.mem]; rfl, hu.accs, hu.threads, by
      have hp : u.poison = [] := hu.poison.trans h
      simp only [putMem, hp, if_true, h]⟩
  exact hput.cached (cached_raise _ _ _ _)

/-- R211: the operation reads its home and may write it, as one atomic step. -/
def atomicOp : AccOp → Bool
  | .atom _ _ _ | .red _ _ _ | .cas _ _ _ => true
  | _ => false

def stbqOp : AccOp → Bool
  | .stbq _ _ => true
  | _ => false

/-- R175: what a write that its home has performed leaves in its core's L1. -/
def echoL1 (s : State) (a : Access) (bs : List Byte) : State :=
  if atomicOp a.op then s.dropL1 a.core (a.pa / 128)
  else if !stbqOp a.op then s
  else s.updateL1 a.core a.pa bs 0

theorem cached_echoL1 (s : State) (a : Access) (bs : List Byte) : Cached s (s.echoL1 a bs) := by
  unfold echoL1
  split
  · exact cached_dropL1 s _ _
  · split
    · exact Cached.refl s
    · exact cached_updateL1 s _ _ _ _

/-- Where no poison stands, an access that this package's memory answers is performed on that memory as it stands. -/
theorem finishWrite_unwritten (hclean : s.poison = []) (hw : a.op.writes (mnat s.mem a.pa a.op.len) = none) :
    s.finishWrite a none =
      (s.dropL1 a.core (a.pa / 128)).complete a (mnat s.mem a.pa a.op.len) (s.stampOf a.pa a.op.len) := by
  unfold finishWrite
  extract_lets local_ n line isAtomic learned old stamp status room
  have hs : learned = s := ite_self s
  simp only [old, stamp, n, line, hs, hw, poisonAt_clean hclean, Option.isSome_none, Bool.and_false, Bool.false_eq_true, if_false]

theorem finishWrite_refused (hclean : s.poison = []) (hhome : s.isLocal a.pa = true) (hst : stbqOp a.op = true) {x : Nat × BitVec 7}
    (hw : a.op.writes (mnat s.mem a.pa a.op.len) = some x) (hu : s.acceptLine a.ctx a.wb false (a.pa / 128) = none) :
    s.finishWrite a none = s.complete a 1 0 := by
  unfold finishWrite
  extract_lets local_ n line isAtomic learned old stamp status room
  have hs : learned = s := ite_self s
  have hstatus : status = true := hst
  simp only [old, n, line, room, local_, hs, hw, hu, hhome, hstatus, poisonAt_clean hclean, Option.isSome_none, Bool.and_false,
    Bool.false_eq_true, if_false, if_true]

theorem finishWrite_written (hclean : s.poison = []) (hhome : s.isLocal a.pa = true) (ht : a.tids ≠ []) {v : Nat} {fl : BitVec 7}
    {u : State} (hw : a.op.writes (mnat s.mem a.pa a.op.len) = some (v, fl))
    (hu : s.acceptLine a.ctx a.wb false (a.pa / 128) = some u) :
    s.finishWrite a none =
      (((u.putMem a.pa (natLe a.op.len v) 0).raise a.core a.ctx fl).echoL1 a (natLe a.op.len v)).complete a
        (if stbqOp a.op then 0 else mnat s.mem a.pa a.op.len) (s.stampOf a.pa a.op.len) := by
  unfold finishWrite
  extract_lets local_ n line isAtomic learned old stamp status room
  have hs : learned = s := ite_self s
  have hat : isAtomic = atomicOp a.op := rfl
  have hstatus : status = stbqOp a.op := rfl
  simp only [old, stamp, n, line, room, local_, hs, hw, hu, hhome, hat, hstatus, ht, poisonAt_clean hclean, Option.isSome_none,
    Bool.and_false, Bool.false_eq_true, if_false, if_true]
  rfl

/-- An atomic or an STBQ counts, and is performed at its home as a write. -/
theorem return_eq_finishWrite (h : MayReturn s a p) (hop : atomicOp a.op = true ∨ stbqOp a.op = true) :
    a.op.counted = true ∧ s.returnAccess a.id none = s.finishWrite a none := by
  have hl : ∀ z, a.op ≠ .load z := fun z e => by rw [e] at hop; rcases hop with e | e <;> cases e
  have hp : ∀ n, a.op ≠ .penq n := fun n e => by rw [e] at hop; rcases hop with e | e <;> cases e
  refine ⟨?_, returnAccess_write h hl hp⟩
  unfold AccOp.counted
  split
  · rename_i e; exact absurd e (hp _)
  · rfl

/-- A write that its home accepts leaves its value there and answers the old one, or, an STBQ, status 0. -/
theorem return_written (h : MayReturn s a p) (hop : atomicOp a.op = true ∨ stbqOp a.op = true) {v : Nat} {fl : BitVec 7}
    {u : State} (hw : a.op.writes (mnat s.mem a.pa a.op.len) = some (v, fl))
    (hu : s.acceptLine a.ctx a.wb false (a.pa / 128) = some u) : Gives (.loadReturn a.id none) s fun t =>
      t.mem = mputs s.mem a.pa (natLe a.op.len v) ∧
        completed s t a p (if stbqOp a.op then 0 else mnat s.mem a.pa a.op.len) := by
  obtain ⟨hcnt, hr⟩ := return_eq_finishWrite h hop
  refine ⟨_, congrArg Host.Outcome.next hr, ?_⟩
  rw [finishWrite_written h.clean h.home (by simp [h.tids]) hw hu]
  exact complete_completed h hcnt ((performed_putMem h.clean (cached_acceptLine hu) ..).cached (cached_echoL1 ..)) _ _

/-- A comparison that fails writes nothing and answers what it read. -/
theorem return_unwritten (h : MayReturn s a p) (hop : atomicOp a.op = true ∨ stbqOp a.op = true)
    (hw : a.op.writes (mnat s.mem a.pa a.op.len) = none) : Gives (.loadReturn a.id none) s fun t =>
      t.mem = s.mem ∧ completed s t a p (mnat s.mem a.pa a.op.len) := by
  obtain ⟨hcnt, hr⟩ := return_eq_finishWrite h hop
  refine ⟨_, congrArg Host.Outcome.next hr, ?_⟩
  rw [finishWrite_unwritten h.clean hw]
  exact complete_completed h hcnt (cached_dropL1 ..).performed _ _

/-- R207: an STBQ whose line its slice does not accept writes nothing and has status 1. -/
theorem return_refused (h : MayReturn s a p) {z : Size} {d : Nat} (hop : a.op = .stbq z d)
    (hu : s.acceptLine a.ctx a.wb false (a.pa / 128) = none) : Gives (.loadReturn a.id none) s fun t =>
      t.mem = s.mem ∧ completed s t a p 1 := by
  have hst : stbqOp a.op = true := by rw [hop]; rfl
  have hw : a.op.writes (mnat s.mem a.pa a.op.len) = some (d, 0) := by rw [hop]; rfl
  obtain ⟨hcnt, hr⟩ := return_eq_finishWrite h (.inr hst)
  refine ⟨_, congrArg Host.Outcome.next hr, ?_⟩
  rw [finishWrite_refused h.clean h.home hst hw hu]
  exact complete_completed h hcnt (Cached.refl s).performed _ _

theorem return_load (h : MayReturn s a p) {z : Size} (hop : a.op = .load z) : Gives (.loadReturn a.id none) s fun t =>
    t.mem = s.mem ∧ completed s t a p (extendBy z (leNat (s.mergeQueued a.core a.pa (mbytes s.mem a.pa z.bytes)))) :=
  ⟨_, congrArg Host.Outcome.next (returnAccess_load h hop), finishLoad_completed h hop⟩

/-- R207, R211, R212: what an atomic or an STBQ of a given form leaves and answers where its home accepts its line. -/
theorem return_op (h : MayReturn s a p) {op : AccOp} {n v : Nat} {fl : BitVec 7} {u : State} (hop : a.op = op)
    (hk : atomicOp op = true ∨ stbqOp op = true) (hn : op.len = n) (hw : op.writes (mnat s.mem a.pa n) = some (v, fl))
    (hu : s.acceptLine a.ctx a.wb false (a.pa / 128) = some u) : Gives (.loadReturn a.id none) s fun t =>
      t.mem = mputs s.mem a.pa (natLe n v) ∧ completed s t a p (if stbqOp op then 0 else mnat s.mem a.pa n) := by
  subst hop hn
  exact return_written h hk hw hu

end

end Sys2Proof.Machine.State

namespace Sys2Proof

open Sys2Proof.Machine State

/-- A destination of no registers takes any answer. -/
theorem completed_red {s t : State} {a : Access} {p : Nat} {op : Aop} {ty : Aty} {b v : Nat} (hop : a.op = .red op ty b)
    (h : completed s t a p v) : completed s t a p 0 := by
  obtain ⟨haccs, hctr, -⟩ := h
  refine ⟨haccs, hctr, fun _ _ => ?_⟩
  have hgrp : a.grp.2 = 0 := by simp only [Access.grp, hop]
  rw [hgrp]
  rfl

/-- Settles O36, operation by operation: a load reads its home, an atomic and an STBQ are writes performed there. -/
theorem accessesComplete : Obligations.AccessesComplete := by
  intro s a p h
  refine ⟨fun z hop => return_load h hop, fun u hu => ⟨?_, ?_, ?_, ?_⟩, fun hu z d hop => return_refused h hop hu⟩
  · intro op ty b hop
    exact return_op h hop (.inl rfl) rfl rfl hu
  · intro op ty b hop
    obtain ⟨t, hx, hmem, hc⟩ := return_op h hop (.inl rfl) rfl rfl hu
    exact ⟨t, hx, hmem, completed_red hop hc⟩
  · intro ty c n hop
    by_cases he : mnat s.mem a.pa ty.bytes = c
    · rw [if_pos he]
      exact return_op h hop (.inl rfl) rfl (if_pos he) hu
    · rw [if_neg he]
      have hw : a.op.writes (mnat s.mem a.pa a.op.len) = none := by rw [hop]; exact if_neg he
      have hr := return_unwritten h (.inl (by rw [hop]; rfl)) hw
      rwa [hop] at hr
  · intro z d hop
    exact return_op h hop (.inr rfl) rfl rfl hu

end Sys2Proof
end

section
/-!
PROOFS. The checks of an address (R43, R166, R198) and what a translation touches (R360 to R362): a walk's bits in the
leaf it reached, and the translation buffers it fills.
-/

namespace Sys2Proof.Machine.State

open Sys2Proof

/-! ### The checks of one thread (R198) -/

section
variable (s : State) (t : Nat) {n : Nat}

theorem checkGlobal_misaligned {va : W64} (h : va.toNat % n ≠ 0) (write form : Bool) :
    s.checkGlobal t va n write form = .trap tcMisaligned va := if_pos h

theorem translate_notCanonical (core c : Nat) {va : W64} (h : canonical va = false) (write exec : Bool) :
    s.translate core c va write exec = .fault tcPageInvalid := by
  rw [translate, h]
  rfl

theorem checkGlobal_notCanonical {va : W64} (h : va.toNat % n = 0) (hk : isCp t = false) (hc : canonical va = false)
    (write form : Bool) : s.checkGlobal t va n write form = .trap tcPageInvalid va := by
  rw [checkGlobal, if_neg (not_not_intro h), hk, Bool.false_and, if_neg Bool.false_ne_true,
    translate_notCanonical s _ _ hc]

theorem checkScratch_misaligned {a : W32} (h : a.toNat % n ≠ 0) (team : Bool) :
    s.checkScratch t a n team = .trap tcMisaligned (a.zeroExtend 64) := if_pos h

theorem checkScratch_none {a : W32} {team : Bool} (h : a.toNat % n = 0) (hs : s.scratchAt t a n team = none) :
    s.checkScratch t a n team = .trap tcScratchBounds (a.zeroExtend 64) := by
  rw [checkScratch, if_neg (not_not_intro h), hs]

theorem checkScratch_some {a : W32} {team : Bool} {w off : Nat} (h : a.toNat % n = 0) (hs : s.scratchAt t a n team = some (w, off)) :
    s.checkScratch t a n team = .ok (.scratch w off) s := by
  rw [checkScratch, if_neg (not_not_intro h), hs]

/-- R168: a bit above the core's field of a team window. -/
theorem scratchAt_aboveWindow {a : W32} (h : 2 ^ 22 ≤ a.toNat) : s.scratchAt t a n true = none := by
  have hne : a.toNat / 2 ^ 22 ≠ 0 := by omega
  exact if_pos hne

theorem scratchAt_pastTiles {a : W32} (h : (s.wgOf t).tiles * 4096 < a.toNat + n) : s.scratchAt t a n false = none :=
  if_neg (Nat.not_le.mpr h)

theorem scratchAt_inTiles {a : W32} (h : a.toNat + n ≤ (s.wgOf t).tiles * 4096) :
    s.scratchAt t a n false = some ((s.wgOf t).id, a.toNat) := if_pos h

end

theorem spanChecks : SpanChecks := by
  intro s t n
  refine ⟨fun va write form => ⟨fun h => ?_, fun h hk hc => ?_⟩, fun a => ⟨fun team h => ?_, fun h hw => ?_, fun h hb => ?_, fun h hb => ?_⟩⟩
  · exact checkGlobal_misaligned s t h write form
  · exact checkGlobal_notCanonical s t h hk hc write form
  · exact checkScratch_misaligned s t h team
  · exact checkScratch_none s t h (scratchAt_aboveWindow s t hw)
  · exact checkScratch_none s t h (scratchAt_pastTiles s t hb)
  · exact checkScratch_some s t h (scratchAt_inTiles s t hb)

/-! ### What a translation touches (R360 to R362) -/

/-- Nothing changed but the translation buffers of cores and quads. -/
structure OnlyTlb (s u : State) : Prop where
  rest : { u with cores := s.cores, quads := s.quads } = s
  core : ∀ k, { u.core k with tlb := (s.core k).tlb } = s.core k
  quad : ∀ k, { u.quad k with tlb := (s.quad k).tlb } = s.quad k

theorem onlyTlb_modCore (s : State) (c : Nat) (f : List TlbEnt → List TlbEnt) :
    OnlyTlb s (s.modCore c fun k => { k with tlb := f k.tlb }) := by
  refine ⟨rfl, fun k => ?_, fun _ => rfl⟩
  rw [modCore, core_setCore]
  split
  · rename_i e; rw [e]
  · rfl

theorem onlyTlb_modQuad (s : State) (q : Nat) (f : List TlbEnt → List TlbEnt) :
    OnlyTlb s (s.modQuad q fun k => { k with tlb := f k.tlb }) := by
  refine ⟨rfl, fun _ => rfl, fun k => ?_⟩
  rw [modQuad, quad_setQuad]
  split
  · rename_i e; rw [e]
  · rfl

theorem OnlyTlb.trans {s u v : State} (a : OnlyTlb s u) (b : OnlyTlb u v) : OnlyTlb s v where
  rest := by
    have h := congrArg (fun x : State => { x with cores := s.cores, quads := s.quads }) b.rest
    exact h.trans a.rest
  core k := by
    have h := congrArg (fun x : Core => { x with tlb := (s.core k).tlb }) (b.core k)
    exact h.trans (a.core k)
  quad k := by
    have h := congrArg (fun x : Quad => { x with tlb := (s.quad k).tlb }) (b.quad k)
    exact h.trans (a.quad k)

theorem onlyTlb_fillTlb (s : State) (core : Nat) (e : TlbEnt) : OnlyTlb s (s.fillTlb core e) := by
  have hcore := onlyTlb_modCore s core fun l => tlbPut l 256 e
  unfold fillTlb
  dsimp only
  split
  · exact hcore.trans (onlyTlb_modQuad _ _ fun l => tlbPut l 4096 e)
  · exact hcore

/-- Steps 4 and 5 of R360 change nothing. -/
theorem useEnt_ok {u v : State} {c a : Nat} {e : TlbEnt} {write exec : Bool} {x : Xlat}
    (h : useEnt c a e write exec v = .ok x u) : u = v := by
  unfold useEnt at h
  split at h
  · cases h
  · split at h
    · exact ((XRes.ok.injEq ..).mp h).2.symm
    · cases h

/-- A walk that gives a translation has set bits of the leaf it reached, and filled the buffers. -/
theorem walkFill_ok {s u : State} {core c : Nat} {va : W64} {write exec : Bool} {x : Xlat}
    (h : s.walkFill core c va write exec = .ok x u) :
    ∃ l bits e, s.walk c va = .ok l ∧ u = (s.orLeaf l.entPa bits).fillTlb core e := by
  unfold walkFill at h
  split at h
  · cases h
  · rename_i l hl
    split at h
    · split at h
      · split at h <;> cases h
      · cases h
    · dsimp only at h
      split at h
      · cases h
      · exact ⟨l, _, _, hl, useEnt_ok h⟩

/-- R362: a translation comes from a buffer, and fills the core's, or from a walk. -/
theorem translate_ok {s u : State} {core c : Nat} {va : W64} {write exec : Bool} {x : Xlat}
    (h : s.translate core c va write exec = .ok x u) :
    (∃ e, u = s.fillTlb core e) ∨ ∃ l bits e, s.walk c va = .ok l ∧ u = (s.orLeaf l.entPa bits).fillTlb core e := by
  unfold translate at h
  split at h
  · cases h
  · dsimp only at h
    split at h
    · split at h
      · exact .inr (walkFill_ok h)
      · exact .inl ⟨_, useEnt_ok h⟩
    · exact .inr (walkFill_ok h)

/-- R361: bits set in a leaf change its eight bytes alone. -/
theorem mget_orLeaf {s : State} {entPa bits a : Nat} (h : mget (s.orLeaf entPa bits).mem a ≠ mget s.mem a) :
    entPa ≤ a ∧ a < entPa + 8 := by
  by_contra hn
  exact h (mget_mputs_other _ _ _ _ (by rw [natLe_length]; omega))

theorem OnlyTlb.mem {s u : State} (h : OnlyTlb s u) : u.mem = s.mem := by
  have e := congrArg State.mem h.rest
  exact e

theorem OnlyTlb.restMem {s u : State} (h : OnlyTlb s u) : { u with mem := s.mem, cores := s.cores, quads := s.quads } = s := by
  have e := congrArg (fun x : State => { x with mem := s.mem }) h.rest
  exact e

theorem orLeaf_fillTlb_rest (s : State) (entPa bits core : Nat) (e : TlbEnt) :
    { (s.orLeaf entPa bits).fillTlb core e with mem := s.mem, cores := s.cores, quads := s.quads } = s := by
  have h := congrArg (fun x : State => { x with mem := s.mem }) (onlyTlb_fillTlb (s.orLeaf entPa bits) core e).rest
  exact h

theorem translate_touches {s u : State} {core c : Nat} {va : W64} {write exec : Bool} {x : Xlat}
    (h : s.translate core c va write exec = .ok x u) :
    { u with mem := s.mem, cores := s.cores, quads := s.quads } = s ∧
    (∀ k, { u.core k with tlb := (s.core k).tlb } = s.core k) ∧
    (∀ k, { u.quad k with tlb := (s.quad k).tlb } = s.quad k) ∧
    ∀ a, mget u.mem a ≠ mget s.mem a → ∃ l, s.walk c va = .ok l ∧ l.entPa ≤ a ∧ a < l.entPa + 8 := by
  rcases translate_ok h with ⟨e, rfl⟩ | ⟨l, bits, e, hl, rfl⟩
  · have hf := onlyTlb_fillTlb s core e
    exact ⟨hf.restMem, hf.core, hf.quad, fun a ha => absurd (congrArg (mget · a) hf.mem) ha⟩
  · have hf := onlyTlb_fillTlb (s.orLeaf l.entPa bits) core e
    refine ⟨orLeaf_fillTlb_rest s _ _ _ _, hf.core, hf.quad, fun a ha => ⟨l, hl, mget_orLeaf (s := s) (bits := bits) ?_⟩⟩
    rwa [hf.mem] at ha

/-- Where no buffer has a translation, the tables are walked. -/
theorem translate_miss {s : State} {core c : Nat} {va : W64} (hc : canonical va = true)
    (h1 : tlbFind (s.core core).tlb c (va.toNat % 2 ^ 56) = none)
    (h2 : tlbFind (s.quad (coreQuad core)).tlb c (va.toNat % 2 ^ 56) = none) (write exec : Bool) :
    s.translate core c va write exec = s.walkFill core c va write exec := by
  unfold translate
  simp only [hc, h1, h2, ite_self, Bool.not_true, Bool.false_eq_true, if_false]

/-- R360 step 4: a write to a resident page without W, and a fetch from one without X. -/
theorem walkFill_protected {s : State} {core c : Nat} {va : W64} {write exec : Bool} {l : Leaf} (hl : s.walk c va = .ok l)
    (hr : l.ent.getLsbD 1 = true)
    (hp : write = true ∧ l.ent.getLsbD 2 = false ∨ exec = true ∧ l.ent.getLsbD 3 = false) :
    s.walkFill core c va write exec = .fault tcProtection := by
  have hdeny : ((exec && !(entOf c (s.ctxVd c) l).x) || (write && !(entOf c (s.ctxVd c) l).w)) = true := by
    rcases hp with ⟨hw, hb⟩ | ⟨hx, hb⟩
    · simp only [entOf, hw, hb, Bool.not_false, Bool.and_true, Bool.or_true]
    · simp only [entOf, hx, hb, Bool.not_false, Bool.and_true, Bool.true_or]
  unfold walkFill
  rw [hl]
  simp only [hr, hdeny, Bool.not_true, Bool.false_eq_true, if_false, if_true]

end Sys2Proof.Machine.State

namespace Sys2Proof

open Sys2Proof.Machine State

/-- Settles O18: the checks in their order, and of a translation the walk's bits and the buffers. -/
theorem addressChecks : Obligations.AddressChecks := by
  refine ⟨spanChecks, fun s core c va write exec => ⟨fun x u h => translate_touches h, fun l hc h1 h2 hl hr hp => ?_⟩⟩
  rw [translate_miss hc h1 h2, walkFill_protected hl hr hp]

end Sys2Proof
end

section
/-!
PROOFS. The launches of a state are a list, and nothing keeps two of them from having one identity. A point fires from the
record of the first launch found, in every launch of that identity (R316).
-/

namespace Sys2Proof.Machine.State

open Sys2Proof

/-- R310: a launch record whose points hold two workgroups: PLEVEL is 3, and level 3 has 2 children. -/
def pairRecord : List Byte := List.replicate 0x15 0 ++ [3] ++ List.replicate 0x52 0 ++ [2]

/-- An accepted launch of identity 0 that has fired no point. -/
def unfired (record : List Byte) : Launch :=
  { id := 0, ctx := 0, die := 0, record, reserved := false, chain := [], started := [], ended := none, h := [], ahead := [],
    points := [], next := 0, complete := 0, pins := [], owed := none }

/-- Two launches of one identity, whose points differ in their number of workgroups. -/
def twins : State := { State.reset with launches := [unfired [], unfired pairRecord] }

/-- The units still to be placed of every point fired, by launch. -/
def todos (s : State) : List (List (List Nat)) := s.launches.map fun l => l.points.map (·.todo)

/-- Both launches fire a point of the first one's record, of one workgroup. -/
theorem todos_firePoint_twins : (twins.firePoint 0).todos = [[[0]], [[0]]] := by decide

/-- Were each to fire from its own record, the second one's point would have two. -/
theorem todos_twins_ownRecord : (twins.modLaunch 0 fun l =>
    { l with points := l.points ++ [newPoint l.record l.next 0 0], next := l.next + 1 }).todos = [[[0]], [[0, 1]]] := by decide

end Sys2Proof.Machine.State

namespace Sys2Proof

open Sys2Proof.Machine State

/-- Refutes O46: its clause on a launch without a frontier fires from each launch's own record, and the model from the
record of the first launch found; two launches of one identity with different records tell them apart. -/
theorem not_launchEvents : ¬ Obligations.LaunchEvents := by
  intro h
  obtain ⟨-, -, -, -, hfire⟩ := h twins
  have own := (hfire 0 (unfired []) rfl rfl).1 (by decide) (by decide)
  have eq := congrArg todos (Host.Outcome.next.inj own)
  have ne := todos_firePoint_twins.symm.trans (eq.trans todos_twins_ownRecord)
  exact absurd ne (by decide)

end Sys2Proof
end

section
/-!
PROOFS. Words and instructions (02 R50, R53 to R57, R62): every well-formed instruction has a word, and its word decodes to
it. `Laws.RoundTrip` holds the second half, one lemma per constructor; an event breaks a rule of step 1 of R50, and has no
word.
-/

namespace Sys2Proof.Laws.RoundTrip

open Sys2Proof

/-- An instruction with a word that decodes to it. -/
def HasWord (i : Instr) : Prop := ∃ w, encode i = some w ∧ decode w = .ok i

theorem Statement.hasWord {i : Instr} {w : W64} (h : Statement i) (he : encode i = some w) (hi : WellFormed i) : HasWord i :=
  ⟨w, he, h w he hi⟩

theorem hasWord {i : Instr} (hi : WellFormed i) : HasWord i := by
  cases i with
  | nop x => exact (nop x).hasWord rfl hi
  | bra x => exact (bra x).hasWord rfl hi
  | brx x => exact (brx x).hasWord rfl hi
  | call x => exact (call x).hasWord rfl hi
  | callx x => exact (callx x).hasWord rfl hi
  | ret x => exact (ret x).hasWord rfl hi
  | exit x => exact (exit x).hasWord rfl hi
  | yield x => exact (yield x).hasWord rfl hi
  | join x => exact (join x).hasWord rfl hi
  | leave x => exact (leave x).hasWord rfl hi
  | waitm x => exact (waitm x).hasWord rfl hi
  | kmovMem x => exact (kmovMem x).hasWord rfl hi
  | kmovArr x => exact (kmovArr x).hasWord rfl hi
  | kmovSet x => exact (kmovSet x).hasWord rfl hi
  | kmovClr x => exact (kmovClr x).hasWord rfl hi
  | bkpt x => exact (bkpt x).hasWord rfl hi
  | trap x => exact (trap x).hasWord rfl hi
  | waitc x => exact (waitc x).hasWord rfl hi
  | cont x => exact (cont x).hasWord rfl hi
  | iadd x => exact (iadd x).hasWord rfl hi
  | isub x => exact (isub x).hasWord rfl hi
  | imul x => exact (imul x).hasWord rfl hi
  | imulh x => exact (imulh x).hasWord rfl hi
  | imad x => exact (imad x).hasWord rfl hi
  | imin x => exact (imin x).hasWord rfl hi
  | imax x => exact (imax x).hasWord rfl hi
  | iabs x => exact (iabs x).hasWord rfl hi
  | and x => exact (and x).hasWord rfl hi
  | or x => exact (or x).hasWord rfl hi
  | xor x => exact (xor x).hasWord rfl hi
  | lop3 x => exact (lop3 x).hasWord rfl hi
  | shl x => exact (shl x).hasWord rfl hi
  | shr x => exact (shr x).hasWord rfl hi
  | rot x => exact (rot x).hasWord rfl hi
  | sel x => exact (sel x).hasWord rfl hi
  | iaddi x => exact (iaddi x).hasWord rfl hi
  | imuli x => exact (imuli x).hasWord rfl hi
  | lopi x => exact (lopi x).hasWord rfl hi
  | movi x => exact (movi x).hasWord rfl hi
  | movhi x => exact (movhi x).hasWord rfl hi
  | lea x => exact (lea x).hasWord rfl hi
  | bfe x => exact (bfe x).hasWord rfl hi
  | bfi x => exact (bfi x).hasWord rfl hi
  | popc x => exact (popc x).hasWord rfl hi
  | clz x => exact (clz x).hasWord rfl hi
  | brev x => exact (brev x).hasWord rfl hi
  | mov x => exact (mov x).hasWord rfl hi
  | isetp x => exact (isetp x).hasWord rfl hi
  | pset x => exact (pset x).hasWord rfl hi
  | fadd x => exact (fadd x).hasWord rfl hi
  | fsub x => exact (fsub x).hasWord rfl hi
  | fmul x => exact (fmul x).hasWord rfl hi
  | ffma x => exact (ffma x).hasWord rfl hi
  | fscale x => exact (fscale x).hasWord rfl hi
  | frnd x => exact (frnd x).hasWord rfl hi
  | fmin x => exact (fmin x).hasWord rfl hi
  | fmax x => exact (fmax x).hasWord rfl hi
  | fsetp x => exact (fsetp x).hasWord rfl hi
  | fclass x => exact (fclass x).hasWord rfl hi
  | hfma2 x => exact (hfma2 x).hasWord rfl hi
  | hadd2 x => exact (hadd2 x).hasWord rfl hi
  | hmul2 x => exact (hmul2 x).hasWord rfl hi
  | dot4 x => exact (dot4 x).hasWord rfl hi
  | dot2 x => exact (dot2 x).hasWord rfl hi
  | cvt x => exact (cvt x).hasWord rfl hi
  | frcp x => exact (frcp x).hasWord rfl hi
  | frsq x => exact (frsq x).hasWord rfl hi
  | fsqrt x => exact (fsqrt x).hasWord rfl hi
  | fexp2 x => exact (fexp2 x).hasWord rfl hi
  | flog2 x => exact (flog2 x).hasWord rfl hi
  | fsin x => exact (fsin x).hasWord rfl hi
  | fcos x => exact (fcos x).hasWord rfl hi
  | ftanh x => exact (ftanh x).hasWord rfl hi
  | qscale x => exact (qscale x).hasWord rfl hi
  | pack x => exact (pack x).hasWord rfl hi
  | unpack x => exact (unpack x).hasWord rfl hi
  | fxaadd x => exact (fxaadd x).hasWord rfl hi
  | fxacvt x =>
    obtain ⟨g, d, a, b, dir⟩ := x
    cases dir with
    | out m => exact (fxacvt _).hasWord rfl hi
    | into t f => exact (fxacvt _).hasWord rfl hi
    | anchor => exact (fxacvt _).hasWord rfl hi
  | shfl x => exact (shfl x).hasWord rfl hi
  | vote x => exact (vote x).hasWord rfl hi
  | matchLanes x => exact (matchLanes x).hasWord rfl hi
  | redux x => exact (redux x).hasWord rfl hi
  | active x => exact (active x).hasWord rfl hi
  | prmt x => exact (prmt x).hasWord rfl hi
  | ld x => exact (ld x).hasWord rfl hi
  | st x => exact (st x).hasWord rfl hi
  | lds x => exact (lds x).hasWord rfl hi
  | sts x => exact (sts x).hasWord rfl hi
  | ldw x => exact (ldw x).hasWord rfl hi
  | pref x => exact (pref x).hasWord rfl hi
  | cctlWb x => exact (cctlWb x).hasWord rfl hi
  | cctlWbr x => exact (cctlWbr x).hasWord rfl hi
  | cctlWball x => exact (cctlWball x).hasWord rfl hi
  | cctlInv x => exact (cctlInv x).hasWord rfl hi
  | cctlEvl x => exact (cctlEvl x).hasWord rfl hi
  | stbq x => exact (stbq x).hasWord rfl hi
  | drain x => exact (drain x).hasWord rfl hi
  | atom x => exact (atom x).hasWord rfl hi
  | red x => exact (red x).hasWord rfl hi
  | cas x => exact (cas x).hasWord rfl hi
  | atoms x => exact (atoms x).hasWord rfl hi
  | fence x => exact (fence x).hasWord rfl hi
  | wait x => exact (wait x).hasWord rfl hi
  | ptime x => exact (ptime x).hasWord rfl hi
  | ptimeUntil x => exact (ptimeUntil x).hasWord rfl hi
  | wmark x => exact (wmark x).hasWord rfl hi
  | wmarkWait x => exact (wmarkWait x).hasWord rfl hi
  | talloc x => exact (talloc x).hasWord rfl hi
  | tfree x => exact (tfree x).hasWord rfl hi
  | tstat x => exact (tstat x).hasWord rfl hi
  | tstatWait x => exact (tstatWait x).hasWord rfl hi
  | tset x => exact (tset x).hasWord rfl hi
  | cpy x => exact (cpy x).hasWord rfl hi
  | cpytLd x => exact (cpytLd x).hasWord rfl hi
  | cpytSt x => exact (cpytSt x).hasWord rfl hi
  | cbld x => exact (cbld x).hasWord rfl hi
  | stage x => exact (stage x).hasWord rfl hi
  | stageMax x => exact (stageMax x).hasWord rfl hi
  | snda x => exact (snda x).hasWord rfl hi
  | sndf x => exact (sndf x).hasWord rfl hi
  | penq x => exact (penq x).hasWord rfl hi
  | penqAdv x => exact (penqAdv x).hasWord rfl hi
  | cpyst x => exact (cpyst x).hasWord rfl hi
  | mlds x => exact (mlds x).hasWord rfl hi
  | mswp x => exact (mswp x).hasWord rfl hi
  | mma x => exact (mma x).hasWord rfl hi
  | macr x => exact (macr x).hasWord rfl hi
  | macw x => exact (macw x).hasWord rfl hi
  | macz x => exact (macz x).hasWord rfl hi
  | mstat x => exact (mstat x).hasWord rfl hi
  | mstatTags x => exact (mstatTags x).hasWord rfl hi
  | mnbr x => exact (mnbr x).hasWord rfl hi
  | bari x => exact (bari x).hasWord rfl hi
  | bara x => exact (bara x).hasWord rfl hi
  | barw x => exact (barw x).hasWord rfl hi
  | baraw x => exact (baraw x).hasWord rfl hi
  | barq x => exact (barq x).hasWord rfl hi
  | barqSt x => exact (barqSt x).hasWord rfl hi
  | lnch x => exact (lnch x).hasWord rfl hi
  | frpt x => exact (frpt x).hasWord rfl hi
  | frdn x => exact (frdn x).hasWord rfl hi
  | frq x => exact (frq x).hasWord rfl hi
  | frqNext x => exact (frqNext x).hasWord rfl hi
  | bid x => exact (bid x).hasWord rfl hi
  | price x => exact (price x).hasWord rfl hi
  | priceSold x => exact (priceSold x).hasWord rfl hi
  | purse x => exact (purse x).hasWord rfl hi
  | purseRate x => exact (purseRate x).hasWord rfl hi
  | purseCap x => exact (purseCap x).hasWord rfl hi
  | lease x => exact (lease x).hasWord rfl hi
  | leaseTime x => exact (leaseTime x).hasWord rfl hi
  | meter x => exact (meter x).hasWord rfl hi
  | recallReq x => exact (recallReq x).hasWord rfl hi
  | recallT x => exact (recallT x).hasWord rfl hi
  | csrr x => exact (csrr x).hasWord rfl hi
  | csrw x => exact (csrw x).hasWord rfl hi
  | eret x => exact (eret x).hasWord rfl hi
  | eretSkip x => exact (eretSkip x).hasWord rfl hi
  | tlbiVa x => exact (tlbiVa x).hasWord rfl hi
  | tlbiCtx x => exact (tlbiCtx x).hasWord rfl hi
  | tlbiAll x => exact (tlbiAll x).hasWord rfl hi
  | halt x => exact (halt x).hasWord rfl hi
  | haltRun x => exact (haltRun x).hasWord rfl hi
  | haltStep x => exact (haltStep x).hasWord rfl hi
  | haltSave x => exact (haltSave x).hasWord rfl hi
  | qpop x => exact (qpop x).hasWord rfl hi
  | qpushRep x => exact (qpushRep x).hasWord rfl hi
  | qpushFwd x => exact (qpushFwd x).hasWord rfl hi
  | crypTh x => exact (crypTh x).hasWord rfl hi
  | crypEmit x => exact (crypEmit x).hasWord rfl hi
  | crypMeas x => exact (crypMeas x).hasWord rfl hi
  | crypNonce x => exact (crypNonce x).hasWord rfl hi
  | crypSign x => exact (crypSign x).hasWord rfl hi
  | crypCert x => exact (crypCert x).hasWord rfl hi
  | crypTinit x => exact (crypTinit x).hasWord rfl hi
  | crypTmark x => exact (crypTmark x).hasWord rfl hi
  | crypTrest x => exact (crypTrest x).hasWord rfl hi
  | migrOpen x => exact (migrOpen x).hasWord rfl hi
  | migrRound x => exact (migrRound x).hasWord rfl hi
  | migrStop x => exact (migrStop x).hasWord rfl hi
  | migrLand x => exact (migrLand x).hasWord rfl hi
  | migrAbort x => exact (migrAbort x).hasWord rfl hi
  | migrClose x => exact (migrClose x).hasWord rfl hi
  | _ => cases hi

end Sys2Proof.Laws.RoundTrip

namespace Sys2Proof

/-- Settles O55, constructor by constructor. -/
theorem decodeOfEncode : Obligations.DecodeOfEncode := fun _ => Laws.RoundTrip.hasWord

/-- Settles O56: each word is read by its format and its opcode's table. -/
theorem wordsDecode : Obligations.WordsDecode :=
  ⟨rfl, rfl, rfl, rfl, rfl, rfl, rfl, rfl, rfl, rfl, rfl, rfl, rfl, rfl, rfl, rfl, rfl, rfl⟩

end Sys2Proof
end

section
/-!
PROOFS. Privilege (02 R50 step 2, R61): what a privileged instruction and one of queue programs ask, and that a kernel thread
without privilege has neither; and ILLEGAL_INSN where the word of the current group is none.
-/

namespace Sys2Proof.Machine

open Sys2Proof

/-! ### What an instruction asks -/

theorem instrNeed_of_privileged {i : Instr} (h : Privileged i) :
    instrNeed i = .priv ∨ instrNeed i = .eret ∨ instrNeed i = .csr := by
  cases i with
  | eret x | eretSkip x => exact .inr (.inl rfl)
  | tlbiVa x | tlbiCtx x | tlbiAll x | halt x | haltRun x | haltStep x | haltSave x | migrOpen x | migrRound x | migrStop x
  | migrLand x | migrAbort x | migrClose x | recallT x => exact .inl rfl
  | csrr x | csrw x =>
    have h : 0x100 ≤ x.num.toNat := h
    by_cases hn : x.num.toNat < 0x110
    · exact .inr (.inr (by simp only [instrNeed, if_pos h, if_pos hn]))
    · exact .inl (by simp only [instrNeed, if_pos h, if_neg hn])
  | _ => exact h.elim

theorem instrNeed_of_queueOnly {i : Instr} (h : QueueOnly i) : instrNeed i = .queue ∨ instrNeed i = .management := by
  cases i with
  | qpop x | qpushRep x | qpushFwd x => exact .inl rfl
  | crypTh x | crypEmit x | crypMeas x | crypNonce x | crypSign x | crypCert x | crypTinit x | crypTmark x | crypTrest x =>
    exact .inr rfl
  | _ => exact h.elim

namespace State

theorem not_allowed_of_privileged {s : State} {t : Nat} {i : Instr} (hi : Privileged i) (hp : s.fullPriv t = false)
    (hm : (s.thread t).handler = false) : s.allowed t i = false := by
  unfold allowed
  rcases instrNeed_of_privileged hi with hn | hn | hn <;> simp [hn, hp, hm]

theorem not_allowed_of_queueOnly {s : State} {t : Nat} {i : Instr} (hi : QueueOnly i) (hk : isCp t = false) :
    s.allowed t i = false := by
  unfold allowed
  rcases instrNeed_of_queueOnly hi with hn | hn <;> simp [hn, hk]

theorem refusal_priv {s : State} {g : Group} {i : Instr} {t : Nat} (h : s.allowed t i = false) :
    s.refusal g i t = some tcPriv := by
  simp [refusal, h]

/-! ### The current group's word -/

theorem instrAt_ok {g : Group} {i : Instr} (h : decode (g.words.getD g.idx 0) = .ok i) : instrAt g = some i := by
  rw [instrAt, h]

theorem instrAt_error {g : Group} {r : Reject} (h : decode (g.words.getD g.idx 0) = .error r) : instrAt g = none := by
  rw [instrAt, h]

theorem runCurrent_ok {s : State} {g : Group} {i : Instr} (hc : s.cur = some g) (hb : g.blocked = false)
    (h : decode (g.words.getD g.idx 0) = .ok i) : s.runCurrent = exec i s := by
  unfold runCurrent
  simp only [hc, hb, instrAt_ok h, Bool.false_eq_true, if_false]

/-- R50: a word that is no instruction is ILLEGAL_INSN in every member that has no deferred error. -/
theorem illegal_eq {s : State} {g : Group} (hc : s.cur = some g) (hf : s.frozen g = false)
    (he : ∀ t ∈ g.members, (s.thread t).errs = []) :
    s.illegal = g.members.foldl (fun u t => u.trap t tcIllegalInsn 0) s := by
  have hw : (g.members.any fun t => s.awaitsApply ((s.thread t).errs.filter fun e => e.dueAtClause (s.thread t) g)) = false := by
    rw [List.any_eq_false]
    intro t ht
    simp [he t ht, awaitsApply]
  unfold illegal
  simp only [hc, hf, hw, Bool.or_self, Bool.false_eq_true, if_false]
  refine List.foldl_ext _ _ _ fun u t ht => ?_
  simp only [he t ht, List.filter_nil, oldestErr, List.foldl_nil]

theorem runCurrent_error {s : State} {g : Group} {r : Reject} (hc : s.cur = some g) (hb : g.blocked = false)
    (h : decode (g.words.getD g.idx 0) = .error r) (hf : s.frozen g = false)
    (he : ∀ t ∈ g.members, (s.thread t).errs = []) : s.runCurrent = trapsAll s g tcIllegalInsn := by
  unfold runCurrent
  simp only [hc, hb, instrAt_error h, Bool.false_eq_true, if_false, illegal_eq hc hf he]
  rfl

end State

end Sys2Proof.Machine

namespace Sys2Proof

open Sys2Proof.Machine State

/-- Settles O60: each of these instructions fails step 2 of R50 in every member, and a word that is none fails step 1. -/
theorem privilegedInstructions : Obligations.PrivilegedInstructions := by
  intro s g hm
  refine ⟨fun i hw hi hh hp => ?_, fun i hw hi hh => ?_, fun r hr hb hf => ?_⟩
  · exact exec_trapsAll hw (fun x e => by subst e; exact hi) (by decide) (by decide) (by decide) hm hh fun t ht =>
      refusal_priv (not_allowed_of_privileged hi (hp t ht) (hm.mode t ht))
  · exact exec_trapsAll hw (fun x e => by subst e; exact hi) (by decide) (by decide) (by decide) hm hh fun t ht =>
      refusal_priv (not_allowed_of_queueOnly hi (hm.kernel t ht))
  · exact runCurrent_error hm.cur hb hr hf hm.errs

end Sys2Proof
end

section
/-!
PROOFS. The step (R50, R271, R275, R332, R413; notes/assumptions/2.md): the cycle in which a move is made, and what the step
makes of the move at the head of its agenda.
-/

namespace Sys2Proof.Machine

open Sys2Proof

namespace State

/-! ### A cycle of the clocks (R5, R223) -/

theorem scrubOn_rest (s : State) (i : Nat) : { s.scrubOn i with draws := s.draws, ranges := s.ranges } = s := by
  unfold scrubOn
  dsimp only
  split <;> rfl

theorem foldl_scrubOn_rest (l : List (Nat × Range)) :
    ∀ s : State, { l.foldl (fun (s : State) r => s.scrubOn r.1) s with draws := s.draws, ranges := s.ranges } = s := by
  induction l with
  | nil => exact fun _ => rfl
  | cons r l ih =>
    intro s
    have h := congrArg (fun u : State => { u with draws := s.draws, ranges := s.ranges }) (ih (s.scrubOn r.1))
    exact h.trans (scrubOn_rest s r.1)

theorem foldl_steerCopy (l : List Nat) :
    ∀ s : State, ∃ lag, l.foldl (fun (s : State) n => s.steerCopy n) s = { s with lag := lag } := by
  induction l with
  | nil => exact fun s => ⟨s.lag, rfl⟩
  | cons n l ih =>
    intro s
    obtain ⟨lag, h⟩ := ih (s.steerCopy n)
    exact ⟨lag, h⟩

theorem steerCopies_eq (s : State) : ∃ lag, s.steerCopies = { s with lag := lag, draws := s.draws + 1 } := by
  obtain ⟨lag, h⟩ := foldl_steerCopy timeCopies s
  exact ⟨lag, congrArg (fun u : State => { u with draws := u.draws + 1 }) h⟩

/-- The state of a cycle that begins, before pod time moves on. -/
def nextCycle (s : State) : State := { s with cyc := s.cyc + 1, issued := [] }.scrubRanges

theorem nextCycle_rest (s : State) : { s.nextCycle with draws := s.draws, ranges := s.ranges } =
    { s with cyc := s.cyc + 1, issued := [] } :=
  foldl_scrubOn_rest _ _

theorem nextCycle_now (s : State) : s.nextCycle.now = s.now := by
  have h := congrArg State.now s.nextCycle_rest
  exact h

theorem nextCycle_ptp (s : State) : s.nextCycle.ptp = s.ptp := by
  have h := congrArg State.ptp s.nextCycle_rest
  exact h

/-- The same once pod time has moved on. -/
def movedOn (s : State) : State := { s.nextCycle with now := s.now + s.cycleUnits }

theorem tick_running {s : State} (h : s.ptp.stood = []) : s.tick = s.movedOn ∨ s.tick = s.movedOn.steerCopies := by
  have ht : s.tick = if (s.nextCycle.timed && decide (s.nextCycle.now / 5000 ≠ (s.nextCycle.now + s.cycleUnits) / 5000)) = true
      then { s.nextCycle with now := s.nextCycle.now + s.cycleUnits }.steerCopies
      else { s.nextCycle with now := s.nextCycle.now + s.cycleUnits } := if_pos ((congrArg Ptp.stood s.nextCycle_ptp).trans h)
  rw [ht, nextCycle_now]
  split
  · exact .inr rfl
  · exact .inl rfl

theorem tick_following {s : State} (h : s.ptp.stood ≠ []) : s.tick = s.nextCycle.followCopies s.cycleUnits :=
  if_neg fun e => h ((congrArg Ptp.stood s.nextCycle_ptp).symm.trans e)

theorem tick_now {s : State} (h : s.ptp.stood = []) : s.tick.now = s.now + s.cycleUnits := by
  rcases tick_running h with e | e <;> rw [e]
  · rfl
  · obtain ⟨lag, hl⟩ := s.movedOn.steerCopies_eq
    rw [hl]
    rfl

/-- What the clocks leave of a state. -/
theorem tick_rest (s : State) : { s.tick with
    now := s.now, lag := s.lag, ptp := s.ptp, draws := s.draws, ranges := s.ranges } =
      { s with cyc := s.cyc + 1, issued := [] } := by
  have hr := congrArg (fun u : State => { u with now := s.now, lag := s.lag, ptp := s.ptp }) s.nextCycle_rest
  by_cases h : s.ptp.stood = []
  · rcases tick_running h with e | e <;> rw [e]
    · exact hr
    · obtain ⟨lag, hl⟩ := s.movedOn.steerCopies_eq
      rw [hl]
      exact hr
  · rw [tick_following h]
    exact hr

@[simp] theorem tick_cyc (s : State) : s.tick.cyc = s.cyc + 1 := by
  have h := congrArg State.cyc s.tick_rest
  exact h

@[simp] theorem tick_mem (s : State) : s.tick.mem = s.mem := by
  have h := congrArg State.mem s.tick_rest
  exact h

@[simp] theorem tick_threads (s : State) : s.tick.threads = s.threads := by
  have h := congrArg State.threads s.tick_rest
  exact h

@[simp] theorem tick_cur (s : State) : s.tick.cur = s.cur := by
  have h := congrArg State.cur s.tick_rest
  exact h

@[simp] theorem tick_timed (s : State) : s.tick.timed = s.timed := by
  have h := congrArg State.timed s.tick_rest
  exact h

theorem closeMarket_untimed {s : State} (h : s.timed = false) : s.closeMarket = s := by
  simp [closeMarket, h]

theorem turnMarket_untimed {s : State} (h : s.timed = false) : s.turnMarket = s := by
  simp [turnMarket, h]

theorem beginCycle_untimed {s : State} (h : s.timed = false) : s.beginCycle = s.tick := by
  have ht : s.tick.timed = false := s.tick_timed.trans h
  rw [beginCycle, closeMarket_untimed ht, turnMarket_untimed ht]

/-! ### The cycle of a move (R275) -/

theorem group?_cur {s : State} {g : Group} (h : s.cur = some g) : s.group? g.id = some g := by
  simp [group?, allGroups, h]

theorem beginMove_issue_free {s : State} {g : Group} (hc : s.cur = some g) (hp : s.pathFree g = true) :
    s.beginMove (.issue g.id) = { s with issued := (pathKey g, g.id) :: s.issued } := by
  simp only [beginMove, group?_cur hc, hp, if_true]

theorem beginMove_issue_taken {s : State} {g : Group} (hc : s.cur = some g) (hp : s.pathFree g = false) :
    s.beginMove (.issue g.id) = { s.beginCycle with issued := (pathKey g, g.id) :: s.beginCycle.issued } := by
  simp only [beginMove, group?_cur hc, hp, Bool.false_eq_true, if_false]

theorem beginMove_event {s : State} {i : Instr} (h : ∀ l, i ≠ .issueGroup l) : s.beginMove (.event i) = s.beginCycle := by
  unfold beginMove
  split
  · rename_i e; cases e
  · rename_i e; exact absurd (Move.event.inj e) (h _)
  · rfl

/-! ### The move (R271, R275) -/

theorem runMove_outranked {s : State} {g : Group} (hc : s.cur = some g) (h : (s.outranked g || s.lateFor g) = true) :
    s.runMove (.issue g.id) = .next s := by
  simp only [runMove, group?_cur hc, h, if_true]

theorem runMove_issue {s : State} {g : Group} (hc : s.cur = some g) (h : (s.outranked g || s.lateFor g) = false) :
    s.runMove (.issue g.id) = s.runCurrent := by
  simp only [runMove, group?_cur hc, h, Bool.false_eq_true, if_false, runGroup, takeGroup, hc, if_true]

end State

/-! ### The step -/

theorem step_booted {s : State} {m : Move} {rest : List Move} (hh : s.held = false) (hb : s.booted = true)
    (hn : s.nextMove = (some m, rest)) : step s = State.finish (State.runMove { s.beginMove m with agenda := rest } m) := by
  simp only [step, hh, hb, hn, Bool.false_eq_true, Bool.true_eq_false, false_and, if_false]

theorem step_agenda {s : State} {m : Move} {rest : List Move} (hh : s.held = false) (hb : s.booted = true)
    (ha : s.agenda = m :: rest) : step s = State.finish (State.runMove { s.beginMove m with agenda := rest } m) :=
  step_booted hh hb (by rw [State.nextMove, ha])

theorem step_idle {s : State} (hh : s.held = false) (hb : s.booted = true) (hn : s.nextMove = (none, [])) :
    step s = State.finish (.next { s.beginCycle with agenda := [] }) := by
  simp only [step, hh, hb, hn, Bool.false_eq_true, Bool.true_eq_false, false_and, if_false]

theorem step_default {s : State} (hh : s.held = false) (hb : s.booted = true) (ha : s.agenda = []) : step s = State.finish
    (match s.defaultMove with
      | none => .next { s.beginCycle with agenda := [] }
      | some m => State.runMove { s.beginMove m with agenda := [] } m) := by
  have hn : s.nextMove = (s.defaultMove, []) := by rw [State.nextMove, ha]
  cases hd : s.defaultMove with
  | none => exact step_idle hh hb (hn.trans (by rw [hd]))
  | some m => exact step_booted hh hb (hn.trans (by rw [hd]))

theorem step_boots {s : State} (hh : s.held = false) (hb : s.booted = false) : step s = .next s.boot.settleAll := by
  simp only [step, hh, hb, Bool.false_eq_true, false_and, if_false, and_self, if_true]

theorem step_held {s : State} (hh : s.held = true) (hm : ∀ m, s.nextMove.1 = some m → State.portMove m = false) :
    step s = .fault .heldInReset := by
  refine if_pos ⟨hh, fun h => ?_⟩
  obtain ⟨m, hn, hp⟩ := Option.map_eq_some_iff.mp h
  rw [hm m hn] at hp
  cases hp

end Sys2Proof.Machine

namespace Sys2Proof

open Sys2Proof.Machine State

/-- A group at the head of the agenda issues in the cycle of its path, unless another goes before it. -/
theorem step_issue {s : State} {g : Group} {rest : List Move} (hh : s.held = false) (hb : s.booted = true)
    (ha : s.agenda = .issue g.id :: rest) (hc : s.cur = some g) (hg : g.blocked = false) :
    let u : State := { s.beginMove (.issue g.id) with agenda := rest }
    (s.pathFree g = true → u = { s with issued := (pathKey g, g.id) :: s.issued, agenda := rest }) ∧
    (s.pathFree g = false →
      u = { s.beginCycle with issued := (pathKey g, g.id) :: s.beginCycle.issued, agenda := rest }) ∧
    (u.cur = some g → (u.outranked g || u.lateFor g) = true → step s = finish (.next u)) ∧
    (u.cur = some g → (u.outranked g || u.lateFor g) = false →
      (∀ i, decode (g.words.getD g.idx 0) = .ok i → step s = finish (exec i u)) ∧
      (∀ r, decode (g.words.getD g.idx 0) = .error r → u.frozen g = false → (∀ t ∈ g.members, (u.thread t).errs = []) →
        step s = finish (.next (g.members.foldl (fun v t => v.trap t tcIllegalInsn 0) u)))) := by
  intro u
  have hs : step s = finish (u.runMove (.issue g.id)) := step_agenda hh hb ha
  refine ⟨fun hp => ?_, fun hp => ?_, fun hu ho => ?_, fun hu ho => ⟨fun i hi => ?_, fun r hr hf he => ?_⟩⟩
  · exact congrArg (fun v : State => { v with agenda := rest }) (beginMove_issue_free hc hp)
  · exact congrArg (fun v : State => { v with agenda := rest }) (beginMove_issue_taken hc hp)
  · rw [hs, runMove_outranked hu ho]
  · rw [hs, runMove_issue hu ho, runCurrent_ok hu hg hi]
  · rw [hs, runMove_issue hu ho, runCurrent_error hu hg hr hf he]
    rfl

/-- Settles O57, move by move; the clocks leave memory, threads and the current group. -/
theorem stepRunsDecoded : Obligations.StepRunsDecoded := by
  intro s
  refine ⟨fun hh hb rest => ⟨?_, ?_, ?_⟩, step_default, step_boots, step_held, fun _ => rfl, beginCycle_untimed,
    s.tick_cyc, s.tick_mem, s.tick_threads, s.tick_cur, tick_now⟩
  · exact fun g ha hc hg => step_issue hh hb ha hc hg
  · intro i ha hi
    rw [step_agenda hh hb ha, beginMove_event hi]
    rfl
  · exact fun l ha => step_agenda hh hb ha

end Sys2Proof
end

section
/-!
PROOFS. Launch packets and packet runs (11 R300 to R303, R70, R375): the validator's checks in their order, the registers at
the start of a run, and the end of one that has used its budget.
-/

namespace Sys2Proof.Machine.State

open Sys2Proof

/-! ### A packet that a check refuses (R301) -/

section
variable (s : State) (vd : Nat) (qp : QpRef) (bs : List Byte) (k : Nat)

theorem nakPacket_sent : (s.nakPacket vd qp bs k).sent =
    s.sent ++ [.nak qp (if bs.length < 32 then 2 ^ 32 - 1 else fieldAt bs 4 4) k] := by
  unfold nakPacket
  dsimp only
  split <;> rfl

@[simp] theorem nakPacket_queues : (s.nakPacket vd qp bs k).queues = s.queues := by
  unfold nakPacket
  dsimp only
  split <;> rfl

@[simp] theorem nakPacket_mem : (s.nakPacket vd qp bs k).mem = s.mem := by
  unfold nakPacket
  dsimp only
  split <;> rfl

end

/-- A launch packet refused in a state that differs in none of what its NAK leaves. -/
theorem gives_nak {s u : State} {vd : Nat} {qp : QpRef} {bs : List Byte} {k seq : Nat}
    (h : s.launchPacket vd qp bs = u.nakPacket vd qp bs k) (hs : u.sent = s.sent) (hq : u.queues = s.queues) (hm : u.mem = s.mem)
    (hseq : (if bs.length < 32 then 2 ^ 32 - 1 else fieldAt bs 4 4) = seq) :
    Gives (.launchPacket vd qp bs) s fun t => t.sent = s.sent ++ [.nak qp seq k] ∧ t.queues = s.queues ∧ t.mem = s.mem := by
  refine ⟨_, congrArg Host.Outcome.next h, ?_, ?_, ?_⟩
  · rw [nakPacket_sent, hs, hseq]
  · rw [nakPacket_queues, hq]
  · rw [nakPacket_mem, hm]

/-! ### The checks in their order (R301) -/

theorem packetOk_bounds {bs : List Byte} (h : packetOk bs = true) : 32 ≤ bs.length ∧ fieldAt bs 1 1 < 64 := by
  unfold packetOk at h
  dsimp only at h
  repeat rw [Bool.and_eq_true] at h
  obtain ⟨⟨⟨⟨⟨⟨⟨hlen, -⟩, -⟩, -⟩, -⟩, -⟩, hq⟩, -⟩ := h
  exact ⟨of_decide_eq_true hlen, of_decide_eq_true hq⟩

section
variable {s : State} {vd : Nat} {qp : QpRef} {bs : List Byte}

/-- What keeps a message from arriving: the part, its virtual device or its host port. -/
theorem arrives_guard (hb : s.booted = true) (hv : vd < 64) (hp : s.portShut qp.port = false) :
    (!s.booted || decide (64 ≤ vd) || s.portShut qp.port) = false := by
  simp [hb, hp, hv]

theorem launchPacket_formless (hb : s.booted = true) (hv : vd < 64) (hp : s.portShut qp.port = false)
    (hk : packetOk bs = false) : s.launchPacket vd qp bs = s.nakPacket vd qp bs 1 := by
  simp only [launchPacket, arrives_guard hb hv hp, hk, Bool.not_false, Bool.false_eq_true, if_false, if_true]

/-- What stands once check 5 has taken a token. -/
def tokenTaken (s : State) (tenant : Nat) : State :=
  s.modTenant tenant fun t => { t with tokens := s.tokensNow (s.tenant tenant) - tokenUnits, since := s.now }

theorem takeToken_none {n : Nat} (h : s.tokensNow (s.tenant n) < tokenUnits) : s.takeToken n = none := if_pos h

theorem takeToken_some {n : Nat} (h : tokenUnits ≤ s.tokensNow (s.tenant n)) : s.takeToken n = some (s.tokenTaken n) :=
  if_neg (Nat.not_lt.mpr h)

/-- R301 checks 3 and 4, which come before the token, hold again after it. -/
theorem offerPacket_tokenTaken {n q : Nat} (p : Packet) (hq : q < 64) (hl : (s.queue (queueKey vd q)).loaded = true)
    (ha : s.admits vd q p.ctx = true) : (s.tokenTaken n).offerPacket vd q p =
      if 256 ≤ (s.queue (queueKey vd q)).ring.length then .error 6
      else .ok ((s.tokenTaken n).setQueue (queueKey vd q)
        { s.queue (queueKey vd q) with ring := (s.queue (queueKey vd q)).ring ++ [p] }) := by
  have hthere : (decide (64 ≤ q) || !(s.queue (queueKey vd q)).loaded) = false := by
    simp [hl, hq]
  have hqueue : (s.tokenTaken n).queue (queueKey vd q) = s.queue (queueKey vd q) := rfl
  have hadmits : (s.tokenTaken n).admits vd q p.ctx = s.admits vd q p.ctx := rfl
  simp only [offerPacket, hqueue, hadmits, hthere, ha, Bool.not_true, Bool.false_eq_true, if_false]

/-- R300: the packet of a message. -/
def launchOf (qp : QpRef) (bs : List Byte) : Packet :=
  { ctx := fieldAt bs 2 2, seq := fieldAt bs 4 4, body := bs.drop 32, from_ := some qp }

/-- A packet in its ring. -/
def placed (s : State) (vd : Nat) (qp : QpRef) (bs : List Byte) : State :=
  let x := s.queue (queueKey vd (fieldAt bs 1 1))
  (s.tokenTaken (s.vdTenant vd)).setQueue (queueKey vd (fieldAt bs 1 1)) { x with
    ring := x.ring ++ [launchOf qp bs] }

/-- A message arrives whose virtual device, host port and form stand. -/
structure Arrives (s : State) (vd : Nat) (qp : QpRef) (bs : List Byte) : Prop where
  booted : s.booted = true
  vd_lt : vd < 64
  port : s.portShut qp.port = false
  form : packetOk bs = true

section
variable (h : Arrives s vd qp bs)
include h

theorem Arrives.seq : (if bs.length < 32 then 2 ^ 32 - 1 else fieldAt bs 4 4) = fieldAt bs 4 4 :=
  if_neg (Nat.not_lt.mpr (packetOk_bounds h.form).1)

theorem launchPacket_resetting (h1 : (s.vd vd).word.getLsbD 1 = true) : s.launchPacket vd qp bs = s.nakPacket vd qp bs 2 := by
  simp only [launchPacket, arrives_guard h.booted h.vd_lt h.port, h.form, h1, Bool.not_true, Bool.false_eq_true, if_false, if_true]

theorem launchPacket_disabled (h1 : (s.vd vd).word.getLsbD 1 = false) (h0 : (s.vd vd).word.getLsbD 0 = false) :
    s.launchPacket vd qp bs = s.nakPacket vd qp bs 7 := by
  simp only [launchPacket, arrives_guard h.booted h.vd_lt h.port, h.form, h1, h0, Bool.not_true, Bool.not_false, Bool.false_eq_true,
    if_false, if_true]

variable (h1 : (s.vd vd).word.getLsbD 1 = false) (h0 : (s.vd vd).word.getLsbD 0 = true)
include h1 h0

/-- Of an enabled device that is not being reset, the checks from the third on. -/
theorem launchPacket_enabled : s.launchPacket vd qp bs =
    if (s.queue (queueKey vd (fieldAt bs 1 1))).loaded = false then s.nakPacket vd qp bs 3
    else if s.admits vd (fieldAt bs 1 1) (fieldAt bs 2 2) = false then s.nakPacket vd qp bs 4
    else if s.tokensNow (s.tenant (s.vdTenant vd)) < tokenUnits then s.nakPacket vd qp bs 5
    else if 256 ≤ (s.queue (queueKey vd (fieldAt bs 1 1))).ring.length then
      (s.tokenTaken (s.vdTenant vd)).nakPacket vd qp bs 6
    else s.placed vd qp bs := by
  simp only [launchPacket, arrives_guard h.booted h.vd_lt h.port, h.form, h1, h0, Bool.not_true, Bool.false_eq_true, if_false,
    Bool.not_eq_true']
  split
  · rfl
  split
  · rfl
  rename_i hl ha
  by_cases ht : s.tokensNow (s.tenant (s.vdTenant vd)) < tokenUnits
  · rw [takeToken_none ht, if_pos ht]
  rw [takeToken_some (Nat.not_lt.mp ht), if_neg ht]
  change (match (s.tokenTaken (s.vdTenant vd)).offerPacket vd (fieldAt bs 1 1) (launchOf qp bs) with
    | .ok u => u
    | .error k => (s.tokenTaken (s.vdTenant vd)).nakPacket vd qp bs k) = _
  simp only [offerPacket_tokenTaken (launchOf qp bs) (packetOk_bounds h.form).2 (Bool.eq_true_of_not_eq_false hl)
    (Bool.eq_true_of_not_eq_false ha)]
  by_cases hr : 256 ≤ (s.queue (queueKey vd (fieldAt bs 1 1))).ring.length
  · rw [if_pos hr, if_pos hr]
  · rw [if_neg hr, if_neg hr]
    rfl

end

theorem placed_ring : ((s.placed vd qp bs).queue (queueKey vd (fieldAt bs 1 1))).ring =
    (s.queue (queueKey vd (fieldAt bs 1 1))).ring ++ [launchOf qp bs] := by
  rw [placed, queue_setQueue, if_pos rfl]

theorem placed_tokens : ((s.placed vd qp bs).tenant (s.vdTenant vd)).tokens =
    s.tokensNow (s.tenant (s.vdTenant vd)) - tokenUnits := by
  have h : (s.placed vd qp bs).tenant (s.vdTenant vd) = (s.tokenTaken (s.vdTenant vd)).tenant (s.vdTenant vd) := rfl
  rw [h, tokenTaken, tenant_modTenant, if_pos rfl]

theorem placed_rest : { s.placed vd qp bs with queues := s.queues, tenants := s.tenants } = s := rfl

end

/-! ### The registers at the start of a run (R303) -/

theorem runRegs_rest (q : Nat) (x : Queue) (p : Packet) {n : Fin 128} (h : 7 ≤ n.val) : (runRegs q x p).get n = 0 := by
  have hne : ∀ i < 7, i ≠ n.val := fun i hi => by omega
  simp [runRegs, Vector.get_eq_getElem, hne]

section
variable {s : State} {die key : Nat} {p : Packet} {rest : List Packet}

/-- The next packet of a queue that a command processor may begin. -/
structure MayStart (s : State) (die key : Nat) (p : Packet) (rest : List Packet) : Prop where
  idle : tget s.runs die = none
  next : s.nextQueue die = some key
  ring : (s.queue key).ring = p :: rest

/-- A run as it begins. -/
def newRun (s : State) (key : Nat) (p : Packet) : Run :=
  { vd := key / 64, queue := key % 64, owner := (s.queue key).owner, packet := p, code := (s.queue key).code
    base := (s.queue key).base, size := (s.queue key).size, pos := 0, words := [], fwdTo := none, fwd := [], held := []
    count := 0, last := none, transcript := (s.vd (key / 64)).transcript, checkpoint := (s.vd (key / 64)).checkpoint
    attach := [] }

/-- The thread of a run as it begins. -/
def newThread (s : State) (key : Nat) (p : Packet) : Thread :=
  { Thread.start s.fresh 0 with g := runRegs (key % 64) (s.queue key) p, age := s.cyc }

/-- The state once a run has begun. -/
def begun (s : State) (die key : Nat) (p : Packet) (rest : List Packet) : State :=
  let w : Wg := { noWg with id := s.fresh, core := 256 + die, slot := 0, nflock := 1, ctx := (s.queue key).owner, regs := 128 }
  let u := ((s.newId.2.setQueue key { s.queue key with ring := rest }).setWg s.fresh w).setThread (cpTid die) (s.newThread key p)
  let v := (u.setFlock (tidFlock (cpTid die)) .start).clearL1 (256 + die)
  { v with runs := tput v.runs die (s.newRun key p), served := tput v.served die key }

theorem startRun_eq (h : MayStart s die key p rest) : s.startRun die key = s.begun die key p rest := by
  simp only [startRun, h.idle, h.next, h.ring, Option.isSome_none, ne_eq, not_true_eq_false, decide_false, Bool.or_self,
    Bool.false_eq_true, if_false]
  rfl

theorem begun_mem : (s.begun die key p rest).mem = s.mem := by simp [begun, clearL1, modCore, newId]

theorem begun_ring : ((s.begun die key p rest).queue key).ring = rest := by
  simp [begun, clearL1, modCore, queue, tget_tput]

theorem begun_run : tget (s.begun die key p rest).runs die = some (s.newRun key p) := tget_tput_same ..

theorem begun_thread : (s.begun die key p rest).thread (cpTid die) = s.newThread key p := by
  simp [begun, clearL1, modCore, thread, tget_tput]

theorem begun_reg (n : Fin 128) :
    (s.begun die key p rest).rd (cpTid die) (.g n) = (runRegs (key % 64) (s.queue key) p).get n :=
  congrArg (fun x : Thread => x.g.get n) begun_thread

/-- R303: g2 and g3 hold the window's base, its low word first. -/
theorem begun_base : (s.begun die key p rest).rdN (cpTid die) (.g 2) 2 = (s.queue key).base.toNat := by
  have hlo : (s.begun die key p rest).rd (cpTid die) (.g 2) = (s.queue key).base.extractLsb' 0 32 := begun_reg 2
  have hhi : (s.begun die key p rest).rd (cpTid die) (.g 3) = (s.queue key).base.extractLsb' 32 32 := begun_reg 3
  have hx : (s.begun die key p rest).rdN (cpTid die) (.g 2) 2 =
      0 + ((s.begun die key p rest).rd (cpTid die) (.g 2)).toNat * 2 ^ (32 * 0) +
        ((s.begun die key p rest).rd (cpTid die) (.g 3)).toNat * 2 ^ (32 * 1) := rfl
  have hb := (s.queue key).base.isLt
  rw [hx, hlo, hhi, BitVec.extractLsb'_toNat, BitVec.extractLsb'_toNat, Nat.shiftRight_zero, Nat.shiftRight_eq_div_pow]
  omega

end

/-! ### A run that has used its budget (R70, R303) -/

theorem budgetRun_used {s : State} {die : Nat} {r : Run} (hr : tget s.runs die = some r) (hc : 256 ≤ r.count)
    (hl : r.last ≠ some (s.placeOf (cpTid die))) : s.budgetRun die = s.reject die tcQueueBudget := by
  simp only [budgetRun, hr, hc, hl, ne_eq, not_false_eq_true, decide_true, Bool.and_self, if_true]

theorem endRun_kept (s : State) (die : Nat) :
    (s.endRun die).runs = tdel s.runs die ∧ (s.endRun die).mem = s.mem ∧ (s.endRun die).sent = s.sent := by
  have h := s.leaveGroups_rest (cpTid die)
  have hm := congrArg State.mem h
  have hs := congrArg State.sent h
  exact ⟨congrArg (tdel · die) (s.leaveGroups_runs (cpTid die)), hm, hs⟩

theorem reject_kept {s : State} {die : Nat} {r : Run} (hr : tget s.runs die = some r) (code : Nat) :
    (s.reject die code).runs = tdel s.runs die ∧ (s.reject die code).mem = s.mem ∧
      (s.reject die code).sent = s.sent ++ [.reply r.packet.from_ r.packet.seq [replyWord0 r code true]] := by
  obtain ⟨hruns, hmem, hsent⟩ := s.endRun_kept die
  simp only [reject, hr, hruns, hmem, hsent, and_self]

end Sys2Proof.Machine.State

namespace Sys2Proof

open Sys2Proof.Machine State

/-- Settles O45: the validator check by check, the registers of a run as it begins, and the end of one over its budget. -/
theorem queueEvents : Obligations.QueueEvents := by
  intro s
  refine ⟨fun vd qp bs hb hv hp => ⟨fun hk => ?_, fun hk => ?_⟩, fun die key p rest hi hn hr => ?_, fun die r hr hc hl => ?_⟩
  · exact gives_nak (launchPacket_formless hb hv hp hk) rfl rfl rfl rfl
  · have h : Arrives s vd qp bs := ⟨hb, hv, hp, hk⟩
    refine ⟨fun h1 => ?_, fun h1 h0 => ?_, fun h1 h0 => ?_⟩
    · exact gives_nak (launchPacket_resetting h h1) rfl rfl rfl h.seq
    · exact gives_nak (launchPacket_disabled h h1 h0) rfl rfl rfl h.seq
    have hx := launchPacket_enabled h h1 h0
    refine ⟨fun hl => ?_, fun hl ha => ?_, fun hl ha => ?_⟩
    · exact gives_nak (hx.trans (if_pos hl)) rfl rfl rfl h.seq
    · rw [if_neg (ne_false_of_eq_true hl), if_pos ha] at hx
      exact gives_nak hx rfl rfl rfl h.seq
    rw [if_neg (ne_false_of_eq_true hl), if_neg (ne_false_of_eq_true ha)] at hx
    refine ⟨fun ht => ?_, fun ht hr => ?_, fun ht hr => ?_⟩
    · exact gives_nak (hx.trans (if_pos ht)) rfl rfl rfl h.seq
    · rw [if_neg (Nat.not_lt.mpr ht), if_pos hr] at hx
      exact gives_nak hx rfl rfl rfl h.seq
    · rw [if_neg (Nat.not_lt.mpr ht), if_neg (Nat.not_le.mpr hr)] at hx
      exact ⟨_, congrArg Host.Outcome.next hx, placed_ring, placed_tokens, placed_rest⟩
  · have hx := startRun_eq ⟨hi, hn, hr⟩
    refine ⟨_, congrArg Host.Outcome.next hx, begun_ring, begun_mem, ?_, ?_, begun_reg 0, begun_reg 1, begun_base, begun_reg 4,
      begun_reg 5, begun_reg 6, fun n h7 => (begun_reg n).trans (runRegs_rest _ _ _ h7), ?_⟩
    · exact congrArg Thread.pc begun_thread
    · exact congrArg Thread.st begun_thread
    · exact congrArg (Option.map _) begun_run
  · obtain ⟨hruns, hmem, hsent⟩ := reject_kept hr tcQueueBudget
    exact ⟨_, congrArg Host.Outcome.next (budgetRun_used hr hc hl), hruns, hmem, hsent⟩

end Sys2Proof
end

section
/-!
PROOFS. Clauses, groups and handlers (R44 to R49, R51, R270 to R274, R385, R403): what a fetch keeps of a clause, whom a
breakpoint traps, and what the forming of a group leaves of its members.
-/

namespace Sys2Proof.Machine

open Sys2Proof

/-! ### Lists in order -/

theorem mem_insertBy {α : Type} {le : α → α → Bool} {a x : α} : ∀ {l : List α}, a ∈ insertBy le x l ↔ a = x ∨ a ∈ l
  | [] => by simp [insertBy]
  | y :: l => by
    unfold insertBy
    split
    · exact List.mem_cons
    · rw [List.mem_cons, mem_insertBy, List.mem_cons, or_left_comm]

theorem mem_sortBy {α : Type} {le : α → α → Bool} {a : α} : ∀ {l : List α}, a ∈ sortBy le l ↔ a ∈ l
  | [] => Iff.rfl
  | x :: l => by
    have h : sortBy le (x :: l) = insertBy le x (sortBy le l) := rfl
    rw [h, mem_insertBy, mem_sortBy, List.mem_cons]

namespace State

/-! ### CLAUSE_FETCH (R49, R51, R403) -/

section
variable {s : State} {core c : Nat} {pc : W64} {old : BitVec 17}

theorem fetchClause_free (ht : s.threadsAt core c pc ≠ []) (hb : s.breakAt c pc = none) :
    s.fetchClause core c pc old = s.loadClause core c pc old (s.threadsAt core c pc) := by
  simp only [fetchClause, hb, if_neg ht]

theorem fetchClause_break {n : Nat} (hb : s.breakAt c pc = some n) :
    let v := s.breakThreads n pc (s.threadsAt core c pc)
    s.fetchClause core c pc old =
      if v.threadsAt core c pc = [] then v else v.loadClause core c pc old (v.threadsAt core c pc) := by
  simp only [fetchClause, hb]

theorem breakThreads_one (s : State) (n : Nat) (pc : W64) (t : Nat) : s.breakThreads n pc [t] =
    if (s.thread t).idx = 0 ∧ (s.thread t).st = .ready then s.trapClause t tcBreakpoint pc 0 (0xFFFF - n) 0 else s := by
  by_cases hi : (s.thread t).idx = 0
  · simp [breakThreads, hi]
  · simp [breakThreads, hi]

/-- R51: a word of a line that no earlier fetch answers for is as memory holds it. -/
theorem codeWord_new (s : State) (core c : Nat) (x : W64 × Nat) :
    s.codeWord core c false x = BitVec.ofNat 64 (mnat s.mem x.2 8) := rfl

/-- Of a state, only what a core's instruction cache holds of its lines has changed. -/
structure OnlyCode (core : Nat) (s u : State) : Prop where
  mem : u.mem = s.mem
  threads : u.threads = s.threads
  clauses : (u.core core).clauses = (s.core core).clauses

theorem keepCode_only (s : State) (core c : Nat) (x : (W64 × Nat) × W64) : OnlyCode core s (s.keepCode core c x) := by
  refine ⟨rfl, rfl, ?_⟩
  simp only [keepCode, modCore, core_setCore, if_true]

theorem foldl_keepCode_only (core c : Nat) (l : List ((W64 × Nat) × W64)) :
    ∀ s : State, OnlyCode core s (l.foldl (fun s x => s.keepCode core c x) s) := by
  induction l with
  | nil => exact fun _ => ⟨rfl, rfl, rfl⟩
  | cons x l ih =>
    intro s
    obtain ⟨hm, ht, hc⟩ := s.keepCode_only core c x
    obtain ⟨hm', ht', hc'⟩ := ih (s.keepCode core c x)
    exact ⟨hm'.trans hm, ht'.trans ht, hc'.trans hc⟩

theorem loadClause_headerFault {ts : List Nat} {k : Nat} {va : W64} (h : fetchWords core c [pc] s = .error (some (k, va))) :
    s.loadClause core c pc old ts = s.trapThreads ts k pc va := by
  simp only [loadClause, h]

variable {x : W64 × Nat} {u v : State} {xs : List (W64 × Nat)} {ts : List Nat}

theorem loadClause_wordFault {k : Nat} {va : W64} (h : fetchWords core c [pc] s = .ok ([x], u))
    (hw : fetchWords core c (clauseAddrs pc (hdrN (s.codeWord core c (old.getLsbD 0) x) + 2)) s = .error (some (k, va))) :
    s.loadClause core c pc old ts = s.trapThreads ts k pc va := by
  simp only [loadClause, h, List.map_cons, List.headD_cons, hw]

/-- The words of a clause as its fetch reads them. -/
def readWords (v : State) (core c : Nat) (old : BitVec 17) (xs : List (W64 × Nat)) : List W64 :=
  xs.mapIdx fun i y => v.codeWord core c (old.getLsbD i) y

/-- The lines of a clause's words kept. -/
def keepWords (v : State) (core c : Nat) (old : BitVec 17) (xs : List (W64 × Nat)) : State :=
  (xs.zip (v.readWords core c old xs)).foldl (fun m y => m.keepCode core c y) v

/-- A checked clause, in place of one fetched before at its address. -/
def keepClause (s : State) (core c : Nat) (pc hdr : W64) (words : List W64) : State :=
  s.modCore core fun k => { k with
    clauses := { ctx := c, va := pc, hdr, words } :: k.clauses.filter fun x => !(x.ctx = c && x.va = pc) }

theorem readWords_new (v : State) (core c : Nat) (xs : List (W64 × Nat)) :
    v.readWords core c 0 xs = xs.map fun y => BitVec.ofNat 64 (mnat v.mem y.2 8) := by
  refine List.ext_getElem (by rw [readWords, List.length_mapIdx, List.length_map]) fun i hi _ => ?_
  have hz : (0 : BitVec 17).getLsbD i = false := BitVec.getLsbD_zero
  simp only [readWords, List.getElem_mapIdx, List.getElem_map, hz, codeWord_new]

/-- R49: a clause whose words all may be fetched is checked whole. -/
theorem loadClause_fetched {hdr : W64} {words : List W64} (h : fetchWords core c [pc] s = .ok ([x], u))
    (hw : fetchWords core c (clauseAddrs pc (hdrN (s.codeWord core c (old.getLsbD 0) x) + 2)) s = .ok (xs, v))
    (hr : v.readWords core c old xs = hdr :: words) : s.loadClause core c pc old ts =
      if !clauseOk hdr words then (v.keepWords core c old xs).trapThreads ts tcIllegalClause pc 0
      else (v.keepWords core c old xs).keepClause core c pc hdr words := by
  have hr' : (xs.mapIdx fun i y => v.codeWord core c (old.getLsbD i) y) = hdr :: words := hr
  simp only [loadClause, h, List.map_cons, List.headD_cons, hw, hr', keepWords, hr, keepClause]

theorem keepClause_core (s : State) (core c : Nat) (pc hdr : W64) (words : List W64) :
    (s.keepClause core c pc hdr words).core core = { s.core core with
      clauses := { ctx := c, va := pc, hdr, words } :: (s.core core).clauses.filter fun x => !(x.ctx = c && x.va = pc) } := by
  rw [keepClause, modCore, core_setCore, if_pos rfl]

theorem keepClause_code (s : State) (core c : Nat) (pc hdr : W64) (words : List W64) :
    ((s.keepClause core c pc hdr words).core core).code = (s.core core).code := by
  rw [keepClause_core]

theorem keepClause_clauses (s : State) (core c : Nat) (pc hdr : W64) (words : List W64) :
    ((s.keepClause core c pc hdr words).core core).clauses =
      { ctx := c, va := pc, hdr, words } :: (s.core core).clauses.filter fun x => !(x.ctx = c && x.va = pc) := by
  rw [keepClause_core]

end

/-! ### ISSUE_GROUP (R46, R270 to R274, R284) -/

/-- Threads alone have changed, and of none its registers or predicates. -/
structure Regrouped (s u : State) : Prop where
  rest : { u with threads := s.threads } = s
  regs : ∀ p, (u.thread p).g = (s.thread p).g ∧ (u.thread p).p = (s.thread p).p

theorem Regrouped.refl (s : State) : Regrouped s s := ⟨rfl, fun _ => ⟨rfl, rfl⟩⟩

theorem Regrouped.trans {s u v : State} (a : Regrouped s u) (b : Regrouped u v) : Regrouped s v where
  rest := by
    have h := congrArg (fun x : State => { x with threads := s.threads }) b.rest
    exact h.trans a.rest
  regs p := ⟨(b.regs p).1.trans (a.regs p).1, (b.regs p).2.trans (a.regs p).2⟩

theorem Regrouped.mem {s u : State} (h : Regrouped s u) : u.mem = s.mem := by
  have e := congrArg State.mem h.rest
  exact e

theorem Regrouped.groups {s u : State} (h : Regrouped s u) : u.groups = s.groups := by
  have e := congrArg State.groups h.rest
  exact e

theorem Regrouped.fresh {s u : State} (h : Regrouped s u) : u.fresh = s.fresh := by
  have e := congrArg State.fresh h.rest
  exact e

section
variable {f : Thread → Thread} (hf : ∀ x, (f x).g = x.g ∧ (f x).p = x.p)
include hf

theorem regrouped_modThread (s : State) (t : Nat) : Regrouped s (s.modThread t f) := by
  refine ⟨rfl, fun p => ?_⟩
  rw [modThread, thread_setThread]
  split
  · rename_i e
    subst e
    exact hf _
  · exact ⟨rfl, rfl⟩

theorem regrouped_foldl (l : List Nat) : ∀ s : State, Regrouped s (l.foldl (fun (s : State) t => s.modThread t f) s) := by
  induction l with
  | nil => exact Regrouped.refl
  | cons t l ih => exact fun s => (regrouped_modThread hf s t).trans (ih _)

end

/-- What a change makes of every thread holds of each thread that it was made in. -/
theorem foldl_modThread_thread {f : Thread → Thread} {Q : Thread → Prop} (hf : ∀ x, Q (f x)) {p : Nat} :
    ∀ (l : List Nat) (s : State), p ∈ l ∨ Q (s.thread p) → Q ((l.foldl (fun (s : State) t => s.modThread t f) s).thread p)
  | [], s, h => h.resolve_left List.not_mem_nil
  | t :: l, s, h => by
    refine foldl_modThread_thread hf l (s.modThread t f) ?_
    rw [modThread, thread_setThread]
    by_cases e : p = t
    · rw [if_pos e]
      exact .inr (hf _)
    · rw [if_neg e]
      exact h.imp_left fun hp => (List.mem_cons.mp hp).resolve_left e

/-- R284: a thread whose meeting has gone. -/
def leaveMeeting (x : Thread) : Thread := { x with met := none }

/-- R284: the threads of a meeting are released from it as their group goes. -/
def endMeeting (s : State) (a : Nat) : State :=
  match (s.thread a).met with
  | some m => (s.metThreads m).foldl (fun (s : State) t => s.modThread t leaveMeeting) s
  | none => s

theorem regrouped_endMeeting (s : State) (a : Nat) : Regrouped s (s.endMeeting a) := by
  unfold endMeeting
  split
  · exact regrouped_foldl (f := leaveMeeting) (fun _ => ⟨rfl, rfl⟩) _ s
  · exact Regrouped.refl s

/-- A thread taken into a group runs. -/
def setRunning (x : Thread) : Thread := { x with st := .running, yielded := none }

/-- Threads of which each is taken into a group. -/
def runAll (s : State) (ts : List Nat) : State := ts.foldl (fun (s : State) t => s.modThread t setRunning) s

theorem runAll_regrouped (s : State) (ts : List Nat) : Regrouped s (s.runAll ts) :=
  regrouped_foldl (f := setRunning) (fun _ => ⟨rfl, rfl⟩) ts s

theorem runAll_running (s : State) {ts : List Nat} {p : Nat} (h : p ∈ ts) : ((s.runAll ts).thread p).st = .running :=
  foldl_modThread_thread (f := setRunning) (Q := fun x => x.st = .running) (fun _ => rfl) ts s (.inl h)

/-- The group of ready threads that stand at a clause as `a` does; `u` is the state once their meeting is over. -/
def groupAt (s u : State) (h : W64) (ws : List W64) (a : Nat) (ts : List Nat) : Group :=
  { id := u.fresh, core := tidCore a, wg := (s.thread a).wg, pc := (s.thread a).pc, hdr := h, words := ws, idx := (s.thread a).idx
    members := byLane ts, blocked := false, stalled := false, part := [], yielding := false
    passed := ts.foldl (fun m t => max m (u.newId.2.thread t).yielded) none
    age := ts.foldl (fun m t => min m (u.newId.2.thread t).age) (s.thread a).age }

/-- The state once a group of ready threads is formed. -/
def formed (s : State) (h : W64) (ws : List W64) (a : Nat) (ts : List Nat) : State :=
  let u := s.endMeeting a
  let v := u.newId.2.runAll ts
  { v.markFu (groupAt s u h ws a ts) with groups := v.groups ++ [groupAt s u h ws a ts] }

theorem formGroup_formed {s : State} {a : Nat} {ts : List Nat} {h : W64} {ws : List W64} (hc : s.clauseFor a = some (h, ws))
    (hok : s.groupOk h (a :: ts) = true) (hn : (s.thread a).idx ≤ hdrN h)
    (hb : (s.thread a).idx = 0 → isCp a = false → s.breakAt (s.ctxOf a) (s.thread a).pc = none) :
    s.formGroup (a :: ts) = s.formed h ws a (a :: ts) := by
  have hbreak : (if (decide ((s.thread a).idx = 0) && !isCp a) = true then s.breakAt (s.ctxOf a) (s.thread a).pc
      else none) = none := by
    split
    · rename_i e
      simp only [Bool.and_eq_true, decide_eq_true_eq, Bool.not_eq_true'] at e
      exact hb e.1 e.2
    · rfl
  simp only [formGroup, hc, hok, hbreak, Bool.not_true, Bool.false_eq_true, if_false, if_neg (Nat.not_lt.mpr hn)]
  rfl

theorem markFu_rest (s : State) (g : Group) : { s.markFu g with flocks := s.flocks } = s := by
  unfold markFu
  split
  · split <;> rfl
  · rfl

theorem markFu_mem (s : State) (g : Group) : (s.markFu g).mem = s.mem := by
  have h := congrArg State.mem (s.markFu_rest g)
  exact h

theorem markFu_threads (s : State) (g : Group) : (s.markFu g).threads = s.threads := by
  have h := congrArg State.threads (s.markFu_rest g)
  exact h

section
variable (s : State) (h : W64) (ws : List W64) (a : Nat) (ts : List Nat)

/-- What forming a group leaves of every thread. -/
theorem formed_thread (p : Nat) : (s.formed h ws a ts).thread p = ((s.endMeeting a).newId.2.runAll ts).thread p := by
  have ht : (s.formed h ws a ts).threads = ((s.endMeeting a).newId.2.runAll ts).threads := markFu_threads ..
  simp only [thread, ht]

theorem formed_mem : (s.formed h ws a ts).mem = s.mem :=
  (markFu_mem ..).trans (((s.endMeeting a).newId.2.runAll_regrouped ts).mem.trans (s.regrouped_endMeeting a).mem)

theorem formed_groups : (s.formed h ws a ts).groups = s.groups ++ [groupAt s (s.endMeeting a) h ws a ts] :=
  congrArg (· ++ [groupAt s (s.endMeeting a) h ws a ts])
    (((s.endMeeting a).newId.2.runAll_regrouped ts).groups.trans (s.regrouped_endMeeting a).groups)

theorem formed_regs (p : Nat) :
    ((s.formed h ws a ts).thread p).g = (s.thread p).g ∧ ((s.formed h ws a ts).thread p).p = (s.thread p).p := by
  obtain ⟨hg, hp⟩ := ((s.endMeeting a).newId.2.runAll_regrouped ts).regs p
  obtain ⟨hg', hp'⟩ := (s.regrouped_endMeeting a).regs p
  rw [formed_thread]
  exact ⟨hg.trans hg', hp.trans hp'⟩

theorem mem_groupAt (u : State) {p : Nat} : p ∈ (groupAt s u h ws a ts).members ↔ p ∈ ts := mem_sortBy

end

/-! ### HANDLER_ENTRY (R385) -/

theorem enterIfDue_enters {s : State} {w : Nat} (hd : s.entryDueAt w = true) (hh : (s.ctx (s.wg w).ctx).words.handlerPc ≠ 0) :
    s.enterIfDue w = s.enterHandler w := by
  simp only [enterIfDue, hd, Bool.not_true, Bool.false_eq_true, if_false, if_neg hh]

theorem enterIfDue_kills {s : State} {w : Nat} (hd : s.entryDueAt w = true) (hh : (s.ctx (s.wg w).ctx).words.handlerPc = 0) :
    s.enterIfDue w = s.kill (s.wg w).ctx 2 tcBreakpoint 7 0 0 := by
  simp only [enterIfDue, hd, Bool.not_true, Bool.false_eq_true, if_false, if_pos hh]

end State

end Sys2Proof.Machine

namespace Sys2Proof

open Sys2Proof.Machine State

/-- A clause fetched whole: kept with its lines, or the threads that stand at it trap. -/
theorem fetch_checked {s v : State} {core c : Nat} {pc : W64} {old : BitVec 17} {xs : List (W64 × Nat)} {hdr : W64}
    {words : List W64} (hx : s.fetchClause core c pc old =
      if !clauseOk hdr words then (v.keepWords core c old xs).trapThreads (s.threadsAt core c pc) tcIllegalClause pc 0
      else (v.keepWords core c old xs).keepClause core c pc hdr words) :
    let kept := v.keepWords core c old xs
    (clauseOk hdr words = true → Gives (.clauseFetch core c pc old) s fun t => t.mem = v.mem ∧ t.threads = v.threads ∧
      (t.core core).code = (kept.core core).code ∧
      (t.core core).clauses = { ctx := c, va := pc, hdr, words } ::
        (v.core core).clauses.filter fun k => !(k.ctx = c && k.va = pc)) ∧
    (clauseOk hdr words = false →
      exec (.clauseFetch core c pc old) s = .next (kept.trapThreads (s.threadsAt core c pc) tcIllegalClause pc 0)) := by
  intro kept
  refine ⟨fun hok => ?_, fun hok => ?_⟩
  · obtain ⟨hmem, hthreads, hclauses⟩ := foldl_keepCode_only core c (xs.zip (v.readWords core c old xs)) v
    refine ⟨_, congrArg Host.Outcome.next (hx.trans (if_neg (by simp [hok]))), hmem, hthreads, keepClause_code .., ?_⟩
    have hkept : (kept.core core).clauses = (v.core core).clauses := hclauses
    rw [← hkept]
    exact keepClause_clauses ..
  · exact congrArg Host.Outcome.next (hx.trans (if_pos (by simp [hok])))

/-- A group of ready threads at a clause, once formed. -/
theorem group_formed {s : State} {a : Nat} {ts : List Nat} {h : W64} {ws : List W64} (hc : s.clauseFor a = some (h, ws))
    (hok : s.groupOk h (a :: ts) = true) (hn : (s.thread a).idx ≤ hdrN h)
    (hb : (s.thread a).idx = 0 → isCp a = false → s.breakAt (s.ctxOf a) (s.thread a).pc = none) :
    Gives (.issueGroup (a :: ts)) s fun t => t.mem = s.mem ∧
      (∀ p ∈ a :: ts, (t.thread p).st = .running ∧ (t.thread p).g = (s.thread p).g ∧ (t.thread p).p = (s.thread p).p) ∧
      ∃ g, t.groups = s.groups ++ [g] ∧ g.id = s.fresh ∧ g.core = tidCore a ∧ g.wg = (s.thread a).wg ∧
        g.pc = (s.thread a).pc ∧ g.idx = (s.thread a).idx ∧ g.hdr = h ∧ g.words = ws ∧ g.blocked = false ∧
        g.stalled = false ∧ g.part = [] ∧ g.yielding = false ∧ ∀ p, p ∈ g.members ↔ p ∈ a :: ts := by
  refine ⟨_, congrArg Host.Outcome.next (formGroup_formed hc hok hn hb), formed_mem .., fun p hp => ⟨?_, formed_regs ..⟩,
    _, formed_groups .., (s.regrouped_endMeeting a).fresh, rfl, rfl, rfl, rfl, rfl, rfl, rfl, rfl, rfl, rfl,
    fun p => mem_groupAt ..⟩
  rw [formed_thread]
  exact runAll_running _ hp

/-- Settles O44, event by event. -/
theorem fetchAndIssue : Obligations.FetchAndIssue := by
  intro s core c pc old
  refine ⟨fun hts hb => ?_, fun n hb => congrArg Host.Outcome.next (fetchClause_break hb), fun n t => breakThreads_one s n pc t,
    fun a ts h ws hc hok hn hb => group_formed hc hok hn hb, fun w hd => ⟨fun hh => ?_, fun hh => ?_⟩⟩
  · have hx := fetchClause_free (old := old) hts hb
    refine ⟨fun k va hf => ?_, fun x u hu => ⟨fun k va hf => ?_, fun xs v hv => ⟨fun h0 => ?_, fun hdr words hall => ?_⟩⟩⟩
    · exact congrArg Host.Outcome.next (hx.trans (loadClause_headerFault hf))
    · exact congrArg Host.Outcome.next (hx.trans (loadClause_wordFault hu hf))
    · subst h0
      exact readWords_new ..
    · exact fetch_checked (hx.trans (loadClause_fetched hu hv hall))
  · exact congrArg Host.Outcome.next (enterIfDue_enters hd hh)
  · exact congrArg Host.Outcome.next (enterIfDue_kills hd hh)

end Sys2Proof
end

section
/-!
PROOFS. Floating-point arithmetic (R98, R112): an instruction that delivers one exact result rounded under its modifiers,
and the rounding of an exact zero.
-/

namespace Sys2Proof.Machine

/-! ### The rounding of a zero (R98) -/

/-- No significand bit and nothing dropped below it: no step of the rounding sees the exponent, the modifiers or a flag. -/
@[simp] theorem roundFin_zero (ty : Ty) (rm : Rm) (sat ftz neg : Bool) (e : Int) :
    roundFin ty rm sat ftz neg 0 e false = ((fmtOf ty).signed neg 0, 0) := by
  unfold roundFin
  exact if_pos rfl

@[simp] theorem roundTo_zero (ty : Ty) (rm : Rm) (sat ftz neg : Bool) (e : Int) :
    roundTo ty rm sat ftz (.fin neg 0 e) = ((fmtOf ty).signed neg 0, 0) :=
  roundFin_zero ty rm sat ftz neg e

/-! ### One exact result rounded into a register group (R112) -/

theorem outF_eq (d : Reg) (m : FMod) (v : FVal × BitVec 7) :
    outF d m v = ⟨regsOf d m.ty.words (roundTo m.ty m.rm m.sat m.ftz v.1).1, [],
      (roundTo m.ty m.rm m.sat m.ftz v.1).2 ||| v.2⟩ := rfl

/-- An instruction whose effect is `outF` of an exact result computes that result's rounding and joins the flags of both. -/
theorem computes_outF {s : State} {g : Group} {i : Instr} {f : State → List Nat → Nat → Effect} {d : Reg} {m : FMod}
    {r : Nat → FVal × BitVec 7} (hf : ∀ p, f s (s.participants g i) p = outF d m (r p))
    (hw : (d, m.ty.words) ∈ instrWrites i) (hx : exec i s = aluMeaning i f s) :
    Computes s g i d m.ty.words (fun p => (roundTo m.ty m.rm m.sat m.ftz (r p).1).1)
      (fun p => (roundTo m.ty m.rm m.sat m.ftz (r p).1).2 ||| (r p).2) :=
  State.computes_of (fun p => (hf p).trans (outF_eq d m (r p))) (State.usesWK_of_write hw) hx

end Sys2Proof.Machine

namespace Sys2Proof

open Sys2Proof.Machine

/-- Each instruction's effect is `outF` of the exact result that R112 names. -/
theorem floatResults : FloatResults := by
  intro s g out rd rounds
  refine ⟨fun x => ⟨?fadd, ?fsub, ?fmul, ?fscale⟩, fun x => ?ffma, fun x => ?frnd⟩
  case fadd => exact computes_outF (f := faddEffect x false) (fun _ => rfl) (List.mem_singleton_self _) rfl
  case fsub => exact computes_outF (f := faddEffect x true) (fun _ => rfl) (List.mem_singleton_self _) rfl
  case fmul => exact computes_outF (f := fmulEffect x) (fun _ => rfl) (List.mem_singleton_self _) rfl
  case fscale => exact computes_outF (f := fscaleEffect x) (fun _ => rfl) (List.mem_singleton_self _) rfl
  case ffma => exact computes_outF (f := ffmaEffect x) (fun _ => rfl) (List.mem_singleton_self _) rfl
  case frnd => exact computes_outF (f := frndEffect x) (fun _ => rfl) (List.mem_singleton_self _) rfl

/-- Settles O5: each instruction rounds its exact result by `outF`, and rounding stops at once at a zero. -/
theorem floatArithmetic : Obligations.FloatArithmetic := ⟨floatResults, roundTo_zero⟩

end Sys2Proof
end

section
/-!
PROOFS. Integer instructions (R103 to R107): one lemma for an instruction whose effect is a register group, the ends of
a saturating type, and the bits of a sum of powers of two.
-/

namespace Sys2Proof.Machine

/-! ### Instructions of one register group (R101) -/

/-- An instruction that writes one register group computes what its effect gives of it. -/
theorem computes_reg {s : State} {g : Group} {i : Instr} {f : State → List Nat → Nat → Effect} {d : Reg} {k n : Nat}
    {v : Nat → Nat} {fl : Nat → BitVec 7} (hf : ∀ p, f s (s.participants g i) p = .reg d k (v p) (fl p))
    (hw : instrWrites i = [(d, n)]) (hx : exec i s = aluMeaning i f s) : Computes s g i d k v fl :=
  State.computes_of hf (State.usesWK_of_write (k := n) (hw ▸ List.mem_singleton_self _)) hx

/-- The same where only that some numbers and flags are written is said. -/
theorem computes_some {s : State} {g : Group} {i : Instr} {f : State → List Nat → Nat → Effect} {d : Reg} {k n : Nat}
    (hf : ∀ p, ∃ v fl, f s (s.participants g i) p = .reg d k v fl) (hw : instrWrites i = [(d, n)])
    (hx : exec i s = aluMeaning i f s) : ∃ v fl, Computes s g i d k v fl := by
  obtain ⟨v, fl, h⟩ := State.reg_choose hf
  exact ⟨v, fl, computes_reg h hw hx⟩

/-! ### Saturation (R15, R103) -/

theorem tyLo_le_tyHi (ty : Ty) : tyLo ty ≤ tyHi ty := by
  have hs : (0 : Int) < 2 ^ (tyBits ty - 1) := by positivity
  have hu : (0 : Int) < 2 ^ tyBits ty := by positivity
  unfold tyLo tyHi
  split <;> omega

theorem satInt_below {v lo : Int} (hi : Int) (h : v < lo) : satInt v lo hi = lo := if_pos h

theorem satInt_above {v lo hi : Int} (hl : lo ≤ hi) (h : hi < v) : satInt v lo hi = hi := by
  rw [satInt, if_neg (by omega), if_pos h]

theorem satInt_within {v lo hi : Int} (hl : lo ≤ v) (h : v ≤ hi) : satInt v lo hi = v := by
  rw [satInt, if_neg (by omega), if_neg (by omega)]

theorem narrow_wrap (ty : Ty) (v : Int) : narrow ty false v = (wrapNat v (tyBits ty), 0) := rfl

/-- R103: a result that saturation moves is the end it is moved to, and raises SATURATED. -/
theorem narrow_moved {ty : Ty} {v w : Int} (h : satInt v (tyLo ty) (tyHi ty) = w) (hne : w ≠ v) :
    narrow ty true v = (wrapNat w (tyBits ty), fSaturated) := by
  simp [narrow, h, hne, flagIf]

theorem narrow_kept {ty : Ty} {v : Int} (h : satInt v (tyLo ty) (tyHi ty) = v) :
    narrow ty true v = (wrapNat v (tyBits ty), 0) := by
  simp [narrow, h, flagIf]

/-! ### Bits (R105, R107) -/

/-- The number whose bit i, of the low `n`, is `f i`. -/
def bitSum (f : Nat → Bool) (n : Nat) : Nat := (upTo n).foldl (fun v i => v + (f i).toNat * 2 ^ i) 0

theorem bitSum_succ (f : Nat → Bool) (n : Nat) : bitSum f (n + 1) = 2 ^ n * (f n).toNat + bitSum f n := by
  simp only [bitSum, upTo, List.range_succ, List.foldl_append, List.foldl_cons, List.foldl_nil]
  ring

theorem bitSum_lt (f : Nat → Bool) : ∀ n, bitSum f n < 2 ^ n
  | 0 => Nat.one_pos
  | n + 1 => by
    have hn := bitSum_lt f n
    rw [bitSum_succ, Nat.pow_succ]
    cases f n <;> simp <;> omega

theorem testBit_bitSum (f : Nat → Bool) {i : Nat} : ∀ {n : Nat}, i < n → (bitSum f n).testBit i = f i
  | n + 1, h => by
    rw [bitSum_succ, Nat.testBit_two_pow_mul_add _ (bitSum_lt f n)]
    split
    · exact testBit_bitSum f ‹_›
    · have e : i = n := by omega
      subst e
      cases f i <;> simp

theorem natBits_eq_div (x lo n : Nat) : natBits x lo n = x / 2 ^ lo % 2 ^ n := by
  rw [natBits, Nat.shiftRight_eq_div_pow]

theorem isW_up (d : Reg) (k : Nat) : (Reg.up d k).isW = d.isW := by cases d <;> rfl

end Sys2Proof.Machine

namespace Sys2Proof

open Sys2Proof.Machine

theorem narrowSaturates : NarrowSaturates := by
  intro ty v
  refine ⟨narrow_wrap ty v, fun h => ?below, fun h => ?above, fun hl hh => narrow_kept (satInt_within hl hh)⟩
  case below => exact narrow_moved (satInt_below _ h) (by omega)
  case above => exact narrow_moved (satInt_above (tyLo_le_tyHi ty) h) (by omega)

/-- Each instruction's effect narrows the exact result that R103 names. -/
theorem integerResults : IntegerResults := by
  intro s g
  refine ⟨fun x => ⟨?iadd, ?isub, ?imul⟩, fun x => ⟨?imulh, ?imin, ?imax⟩, fun x => ?imad, fun x => ?iabs⟩
  case iadd => exact computes_reg (f := binSat x (· + ·)) (fun _ => rfl) rfl rfl
  case isub => exact computes_reg (f := binSat x (· - ·)) (fun _ => rfl) rfl rfl
  case imul => exact computes_reg (f := binSat x (· * ·)) (fun _ => rfl) rfl rfl
  case imulh => exact computes_reg (f := binInt x fun a b => a * b / (2 : Int) ^ tyBits x.ty) (fun _ => rfl) rfl rfl
  case imin => exact computes_reg (f := binInt x min) (fun _ => rfl) rfl rfl
  case imax => exact computes_reg (f := binInt x max) (fun _ => rfl) rfl rfl
  case imad => exact computes_reg (f := imadEffect x) (fun _ => rfl) rfl rfl
  case iabs => exact computes_reg (f := iabsEffect x) (fun _ => rfl) rfl rfl

/-- Settles O1: a saturating type's range is not empty, so at most one of its ends is passed. -/
theorem integerArithmetic : Obligations.IntegerArithmetic := ⟨narrowSaturates, integerResults⟩

/-- SHR and ROT take one of two values as their modifier says; the others give theirs outright. -/
theorem logicResults : LogicResults := by
  intro s g
  refine ⟨fun x => ⟨?and, ?or, ?xor, ?shl⟩, fun x => ⟨?shr, ?shrArith, ?rot, ?rotRight⟩, fun x => ?sel⟩
  case and => exact computes_reg (f := bitBin x (· &&& ·)) (fun _ => rfl) rfl rfl
  case or => exact computes_reg (f := bitBin x (· ||| ·)) (fun _ => rfl) rfl rfl
  case xor => exact computes_reg (f := bitBin x (· ^^^ ·)) (fun _ => rfl) rfl rfl
  case shl => exact computes_reg (f := shlEffect x) (fun _ => rfl) rfl rfl
  case shr => exact fun h => computes_reg (f := shrEffect x) (fun _ => by simp only [shrEffect, h]; rfl) rfl rfl
  case shrArith => exact fun h => computes_reg (f := shrEffect x) (fun _ => by simp only [shrEffect, h]; rfl) rfl rfl
  case rot => exact fun h => computes_reg (f := rotEffect x) (fun _ => by simp only [rotEffect, h]; rfl) rfl rfl
  case rotRight => exact fun h => computes_reg (f := rotEffect x) (fun _ => by simp only [rotEffect, h]; rfl) rfl rfl
  case sel => exact computes_reg (f := selEffect x) (fun _ => rfl) rfl rfl

/-- R105: the bits of a LOP3 result. -/
def lop3Bit (s : State) (x : Lop3Args) (p i : Nat) : Bool :=
  tableBit x.tbl (natBit (s.rdN p x.a (wide x.wide)) i) (natBit (s.rdN p x.b (wide x.wide)) i)
    (natBit (s.rdN p x.c (wide x.wide)) i)

theorem lop3Effect_eq (s : State) (x : Lop3Args) (ps : List Nat) (p : Nat) :
    lop3Effect x s ps p = .reg x.d (wide x.wide) (bitSum (lop3Bit s x p) (32 * wide x.wide)) 0 := rfl

theorem threeInputLogic : ThreeInputLogic := by
  intro s g x hc hf
  have hx : Computes s g (.lop3 x) x.d (wide x.wide) (fun p => bitSum (lop3Bit s x p) (32 * wide x.wide)) (fun _ => 0) :=
    computes_reg (lop3Effect_eq s x _) rfl rfl
  obtain ⟨t, ht, hwr⟩ := hx hc hf
  exact ⟨t, _, ht, hwr, fun p i hi => testBit_bitSum (lop3Bit s x p) hi⟩

/-- Settles O2: LOP3's result is the sum of its bits' powers of two, whose bits are those. -/
theorem logicAndShifts : Obligations.LogicAndShifts := ⟨logicResults, threeInputLogic⟩

/-- Settles O3, instruction by instruction; MOVHI writes a w register only where its pair is one. -/
theorem immediates : Obligations.Immediates := by
  intro s g
  refine ⟨fun x => ⟨?iaddi, ?imuli⟩, fun x => ?lopi, fun x => ?movi, fun x => ?movhi⟩
  case iaddi => exact computes_reg (f := immEffect x (· + ·)) (fun _ => rfl) rfl rfl
  case imuli => exact computes_reg (f := immEffect x (· * ·)) (fun _ => rfl) rfl rfl
  case lopi => exact computes_reg (f := lopiEffect x) (fun _ => rfl) rfl rfl
  case movi =>
    exact computes_reg (f := fun _ _ _ => .reg x.d (wide x.wide) (immBits x.wide x.imm) 0) (fun _ => rfl) rfl rfl
  case movhi =>
    have hw : (x.d, 2) ∈ instrWrites (.movhi x) := List.mem_singleton_self _
    exact State.computes_of (f := fun _ _ _ => .reg (Reg.up x.d 1) 1 x.imm.toNat 0) (fun _ => rfl)
      (fun h => State.usesWK_of_write hw (isW_up x.d 1 ▸ h)) rfl

/-- Settles O4: a field's bits are those of the quotient by the power of two below it. -/
theorem bitFieldsAndMoves : Obligations.BitFieldsAndMoves := by
  intro s g
  refine ⟨fun x => ?lea, fun x => ?bfe, fun x => ?bfi, fun x => ⟨?popc, ?clz, ?brev, ?mov⟩⟩
  case lea => exact computes_reg (f := leaEffect x) (fun _ => rfl) rfl rfl
  case bfe =>
    exact computes_reg (f := bfeEffect x) (fun _ => by simp only [bfeEffect, natBits_eq_div]; rfl) rfl rfl
  case bfi =>
    refine computes_reg (f := bfiEffect x) (fun _ => ?_) rfl rfl
    simp only [bfiEffect, natBits_eq_div, Nat.pow_zero, Nat.div_one]
    rfl
  case popc => exact computes_reg (f := unBits x 1 (popCount (tyBits x.ty))) (fun _ => rfl) rfl rfl
  case clz => exact computes_reg (f := unBits x 1 (leadZeros (tyBits x.ty))) (fun _ => rfl) rfl rfl
  case brev => exact computes_reg (f := unBits x x.ty.words (revBits (tyBits x.ty))) (fun _ => rfl) rfl rfl
  case mov => exact computes_reg (f := unBits x x.ty.words id) (fun _ => rfl) rfl rfl

end Sys2Proof
end

section
/-!
PROOFS. Comparisons (R108 to R114): an encoding read and rounded again is that encoding, which FMIN and FMAX rest on, and
the conditions of FSETP.
-/

namespace Sys2Proof.Machine

/-! ### Instructions of one predicate (R101) -/

/-- An instruction that writes one predicate tests what its effect gives of it. -/
theorem tests_pred {s : State} {g : Group} {i : Instr} {f : State → List Nat → Nat → Effect} {pd : Pred}
    {b : Nat → Bool} {fl : Nat → BitVec 7} (hf : ∀ p, f s (s.participants g i) p = .pred pd (b p) (fl p))
    (hx : exec i s = aluMeaning i f s) : Tests s g i pd b fl :=
  State.tests_of hf hx

/-! ### An exact value of a format rounds to its own encoding (R78) -/

theorem roundsUp_exact (rm : Rm) (neg odd : Bool) : roundsUp rm neg odd .lt false = false := by
  cases rm <;> rfl

/-- A multiple of the quantum is its own multiple. -/
theorem quantize_exact (rm : Rm) (neg : Bool) (m : Nat) (e : Int) : quantize rm neg m e false e = (m, false) := by
  simp [quantize, roundsUp_exact]

/-- A magnitude m × 2^e that the format `f` holds: its significand has at most `frac + 1` bits, and all of them but at the
least exponent, and it does not pass the greatest finite magnitude. -/
structure FFmt.Holds (f : FFmt) (m : Nat) (e : Int) : Prop where
  pos : m ≠ 0
  least : f.qmin ≤ e
  width : m < 2 ^ (f.frac + 1)
  full : e = f.qmin ∨ 2 ^ f.frac ≤ m
  max : (e - f.qmin).toNat * 2 ^ f.frac + m ≤ f.maxEnc

namespace FFmt.Holds

variable {f : FFmt} {m : Nat} {e : Int} (h : f.Holds m e)
include h

theorem log2_le : Nat.log2 m ≤ f.frac := Nat.lt_succ_iff.mp ((Nat.log2_lt h.pos).mpr h.width)

/-- The step between two values of the format next to the magnitude is its own exponent. -/
theorem quantum : Max.max ((Nat.log2 m : Int) + e - f.frac) f.qmin = e := by
  have hle := h.log2_le
  have hge := h.least
  rcases h.full with he | hf
  · omega
  · have hlog : f.frac ≤ Nat.log2 m := (Nat.le_log2 h.pos).mpr hf
    omega

theorem exponent_le : e ≤ f.qmin + (f.maxEnc / 2 ^ f.frac : Nat) := by
  have hle : (e - f.qmin).toNat ≤ f.maxEnc / 2 ^ f.frac :=
    (Nat.le_div_iff_mul_le (Nat.two_pow_pos _)).mpr (Nat.le_of_add_right_le h.max)
  omega

end FFmt.Holds

theorem roundFin_exact {ty : Ty} {m : Nat} {e : Int} (h : (fmtOf ty).Holds m e) (rm : Rm) (sat neg : Bool) :
    roundFin ty rm sat false neg m e false =
      ((fmtOf ty).signed neg ((e - (fmtOf ty).qmin).toNat * 2 ^ (fmtOf ty).frac + m), 0) := by
  have hpos := h.pos
  have hlog := h.log2_le
  have hexp := h.exponent_le
  have hleast := h.least
  have hq : (fmtOf ty).qmin = 1 - ((fmtOf ty).bias : Int) - (fmtOf ty).frac := rfl
  have hhi : ¬ ((fmtOf ty).maxEnc / 2 ^ (fmtOf ty).frac : Nat) - ((fmtOf ty).bias : Int) + 4 < (Nat.log2 m : Int) + e := by
    omega
  have hlo : ¬ (Nat.log2 m : Int) + e < (fmtOf ty).qmin - 4 := by omega
  unfold roundFin
  simp only [hpos, decide_false, Bool.false_and, Bool.false_eq_true, if_false, hhi, hlo, h.quantum, quantize_exact,
    if_neg (Nat.not_lt.mpr h.max), flagIf, Bool.and_false]
  rfl

/-! ### Encodings (R72 to R77) -/

/-- An encoding is its sign and its magnitude. -/
theorem mod_eq_signed (f : FFmt) (hw : 0 < f.width) (bits : Nat) :
    bits % 2 ^ f.width = f.signed (natBit bits (f.width - 1)) (bits % 2 ^ (f.width - 1)) := by
  obtain ⟨w, hw⟩ : ∃ w, f.width = w + 1 := ⟨f.width - 1, by omega⟩
  have hbit : bits / 2 ^ w % 2 < 2 := Nat.mod_lt _ Nat.two_pos
  rw [FFmt.signed, hw, Nat.add_sub_cancel, Nat.mod_pow_succ, natBit, Nat.testBit_eq_decide_div_mod_eq]
  rcases (by omega : bits / 2 ^ w % 2 = 0 ∨ bits / 2 ^ w % 2 = 1) with hb | hb <;> simp [hb]

theorem fmtOf_width_pos (ty : Ty) : 0 < (fmtOf ty).width := by cases ty <;> decide

/-- R113: what of an operand is delivered: its encoding, or a zero of its sign when it reads as a zero. -/
def delivered (ty : Ty) (ftz : Bool) (bits : Nat) : Nat :=
  match decodeF ty ftz bits with
  | .fin neg 0 _ => (fmtOf ty).signed neg 0
  | _ => bits % 2 ^ (fmtOf ty).width

theorem delivered_zero {ty : Ty} {ftz neg : Bool} {bits : Nat} {e : Int} (h : decodeF ty ftz bits = .fin neg 0 e) :
    delivered ty ftz bits = (fmtOf ty).signed neg 0 := by
  simp only [delivered, h]

theorem delivered_fin {ty : Ty} {ftz neg : Bool} {bits m : Nat} {e : Int} (h : decodeF ty ftz bits = .fin neg m e)
    (hm : m ≠ 0) : delivered ty ftz bits = bits % 2 ^ (fmtOf ty).width := by
  unfold delivered
  split
  · rename_i h0
    rw [h] at h0
    cases h0
    exact absurd rfl hm
  · rfl

theorem delivered_inf {ty : Ty} {ftz neg : Bool} {bits : Nat} (h : decodeF ty ftz bits = .inf neg) :
    delivered ty ftz bits = bits % 2 ^ (fmtOf ty).width := by
  simp only [delivered, h]

/-- An encoding of an infinity is the one above the greatest finite magnitude. -/
theorem decodeF_inf {ty : Ty} {ftz neg : Bool} {bits : Nat} (h : decodeF ty ftz bits = .inf neg) :
    (fmtOf ty).hasInf = true ∧ neg = natBit bits ((fmtOf ty).width - 1) ∧
      bits % 2 ^ ((fmtOf ty).width - 1) = (fmtOf ty).maxEnc + 1 := by
  unfold decodeF at h
  simp only at h
  split at h
  · split at h
    · split at h
      · exact ⟨‹_›, (FVal.inf.inj h).symm, ‹_›⟩
      · cases h
    · cases h
  · split at h <;> cases h

/-- An encoding of a finite value that is no zero holds its magnitude in the format. -/
theorem decodeF_fin {ty : Ty} {ftz neg : Bool} {bits m : Nat} {e : Int} (h : decodeF ty ftz bits = .fin neg m e)
    (hm : m ≠ 0) : (fmtOf ty).Holds m e ∧ neg = natBit bits ((fmtOf ty).width - 1) ∧
      bits % 2 ^ ((fmtOf ty).width - 1) = (e - (fmtOf ty).qmin).toNat * 2 ^ (fmtOf ty).frac + m := by
  have hfr := Nat.mod_lt (bits % 2 ^ ((fmtOf ty).width - 1)) (Nat.two_pow_pos (fmtOf ty).frac)
  have hdiv := Nat.div_add_mod (bits % 2 ^ ((fmtOf ty).width - 1)) (2 ^ (fmtOf ty).frac)
  unfold decodeF at h
  simp only at h
  generalize bits % 2 ^ ((fmtOf ty).width - 1) = mag at *
  split at h
  · split at h
    · split at h <;> cases h
    · cases h
  next hmax =>
  split at h
  next hz =>
    cases ftz
    · simp only [Bool.false_eq_true, if_false] at h
      obtain ⟨rfl, rfl, rfl⟩ := FVal.fin.inj h
      have hmag : mag = ((fmtOf ty).qmin - (fmtOf ty).qmin).toNat * 2 ^ (fmtOf ty).frac + mag % 2 ^ (fmtOf ty).frac := by
        rw [hz] at hdiv
        simpa using hdiv.symm
      exact ⟨⟨hm, le_rfl, by rw [Nat.pow_succ]; omega, .inl rfl, hmag ▸ Nat.not_lt.mp hmax⟩, rfl, hmag⟩
    · obtain ⟨-, h0, -⟩ := FVal.fin.inj h
      exact absurd h0.symm hm
  next hz =>
    obtain ⟨k, hk⟩ := Nat.exists_eq_succ_of_ne_zero hz
    obtain ⟨rfl, rfl, rfl⟩ := FVal.fin.inj h
    rw [hk] at hdiv ⊢
    have hmag : mag = ((fmtOf ty).qmin + ((k.succ - 1 : Nat) : Int) - (fmtOf ty).qmin).toNat * 2 ^ (fmtOf ty).frac +
        (2 ^ (fmtOf ty).frac + mag % 2 ^ (fmtOf ty).frac) := by
      rw [Nat.succ_sub_one, add_sub_cancel_left, Int.toNat_natCast, ← Nat.add_assoc, ← Nat.succ_mul, Nat.mul_comm]
      exact hdiv.symm
    exact ⟨⟨hm, by omega, by rw [Nat.pow_succ]; omega, .inr (Nat.le_add_right _ _), hmag ▸ Nat.not_lt.mp hmax⟩, rfl,
      hmag⟩

/-- R113: an operand that is no NaN, read and rounded to its own type, is delivered as it stands. -/
theorem roundTo_decodeF {ty : Ty} {ftz : Bool} {bits : Nat} (h : (decodeF ty ftz bits).isNan = false) (rm : Rm) :
    (roundTo ty rm false false (decodeF ty ftz bits)).1 = delivered ty ftz bits := by
  cases hd : decodeF ty ftz bits with
  | nan sig => rw [hd] at h; cases h
  | inf neg =>
    obtain ⟨hinf, hneg, hmag⟩ := decodeF_inf hd
    rw [delivered_inf hd, mod_eq_signed _ (fmtOf_width_pos ty), ← hneg, hmag]
    simp only [roundTo, hinf, Bool.false_eq_true, if_false, if_true]
  | fin neg m e =>
    rcases Nat.eq_zero_or_pos m with rfl | hm
    · rw [roundTo_zero, delivered_zero hd]
    · obtain ⟨hholds, hneg, hmag⟩ := decodeF_fin hd (Nat.ne_of_gt hm)
      rw [delivered_fin hd (Nat.ne_of_gt hm), mod_eq_signed _ (fmtOf_width_pos ty), ← hneg, hmag]
      exact congrArg Prod.fst (roundFin_exact hholds rm false neg)

/-! ### FMIN and FMAX (R113) -/

theorem ltF_eq (a b : FVal) : ltF a b = (decide (cmpF a b = .lt) || (decide (cmpF a b = .eq) && a.neg && !b.neg)) := by
  unfold ltF
  cases cmpF a b <;> simp

end Sys2Proof.Machine

namespace Sys2Proof

open Sys2Proof.Machine

/-- An operand of FMIN or FMAX as a value. -/
def minMaxVal (s : State) (x : FMinMax) (p : Nat) (r : Reg) : FVal := decodeF x.ty x.ftz (s.rdN p r x.ty.words)

/-- What FMIN and FMAX deliver of an operand. -/
def minMaxBits (s : State) (x : FMinMax) (p : Nat) (r : Reg) : Nat := delivered x.ty x.ftz (s.rdN p r x.ty.words)

section
variable {s : State} {x : FMinMax} {mx : Bool} {p : Nat}

theorem picked_nans (ha : (minMaxVal s x p x.a).isNan = true) (hb : (minMaxVal s x p x.b).isNan = true) :
    picked s x mx p = (fmtOf x.ty).nan := by
  simp only [minMaxVal] at ha hb
  simp only [picked, ha, hb]

theorem picked_nanA (ha : (minMaxVal s x p x.a).isNan = true) (hb : (minMaxVal s x p x.b).isNan = false) :
    picked s x mx p = minMaxBits s x p x.b := by
  simp only [minMaxVal] at ha hb
  simp only [picked, ha, hb]
  rfl

theorem picked_nanB (ha : (minMaxVal s x p x.a).isNan = false) (hb : (minMaxVal s x p x.b).isNan = true) :
    picked s x mx p = minMaxBits s x p x.a := by
  simp only [minMaxVal] at ha hb
  simp only [picked, ha, hb]
  rfl

theorem picked_ordered (ha : (minMaxVal s x p x.a).isNan = false) (hb : (minMaxVal s x p x.b).isNan = false) :
    picked s x mx p =
      if (if mx then ltF (minMaxVal s x p x.a) (minMaxVal s x p x.b) else ltF (minMaxVal s x p x.b) (minMaxVal s x p x.a))
      then minMaxBits s x p x.b else minMaxBits s x p x.a := by
  simp only [minMaxVal] at ha hb
  simp only [picked, ha, hb, ltF_eq]
  rfl

/-- The operand that R113 chooses, rounded to its own type, is the encoding that `picked` gives. -/
theorem roundTo_minMaxF :
    (roundTo x.ty .rne false false (minMaxF mx (minMaxVal s x p x.a) (minMaxVal s x p x.b)).1).1 = picked s x mx p := by
  have hbits : ∀ r, (minMaxVal s x p r).isNan = false →
      (roundTo x.ty .rne false false (minMaxVal s x p r)).1 = minMaxBits s x p r := fun r h => roundTo_decodeF h .rne
  cases ha : (minMaxVal s x p x.a).isNan <;> cases hb : (minMaxVal s x p x.b).isNan
  case true.true => rw [picked_nans ha hb]; simp [minMaxF, ha, hb, roundTo]
  case true.false => rw [picked_nanA ha hb, ← hbits _ hb]; simp [minMaxF, ha, hb]
  case false.true => rw [picked_nanB ha hb, ← hbits _ ha]; simp [minMaxF, ha, hb]
  case false.false =>
    rw [picked_ordered ha hb, ← hbits _ ha, ← hbits _ hb, ← apply_ite Prod.fst,
      ← apply_ite (roundTo x.ty .rne false false)]
    simp [minMaxF, ha, hb]

end

theorem minMaxF_flags (mx : Bool) (a b : FVal) : (minMaxF mx a b).2 = a.sigFlag ||| b.sigFlag := by
  unfold minMaxF
  split
  · rfl
  · split <;> rfl

theorem fminmaxEffect_eq (s : State) (x : FMinMax) (mx : Bool) (ps : List Nat) (p : Nat) :
    fminmaxEffect x mx s ps p = .reg x.d x.ty.words (picked s x mx p)
      ((minMaxVal s x p x.a).sigFlag ||| (minMaxVal s x p x.b).sigFlag) := by
  rw [← minMaxF_flags mx, ← roundTo_minMaxF]
  rfl

/-! ### FSETP (R110) -/

/-- R110: a condition on the order `o` of two operands, `nan` when either is a NaN. -/
def fcondOn (c : FCond) (nan : Bool) (o : Ordering) : Bool :=
  match c with
  | .eq => !nan && o = .eq
  | .ne => !nan && o != .eq
  | .lt => !nan && o = .lt
  | .le => !nan && o != .gt
  | .gt => !nan && o = .gt
  | .ge => !nan && o != .lt
  | .num => !nan
  | .nan => nan
  | .equ => nan || o = .eq
  | .neu => nan || o != .eq
  | .ltu => nan || o = .lt
  | .leu => nan || o != .gt
  | .gtu => nan || o = .gt
  | .geu => nan || o != .lt

theorem fcondTest_eq (c : FCond) (nan : Bool) (o : Ordering) :
    fcondTest c (if nan then none else some o) = fcondOn c nan o := by
  cases nan <;> cases c <;> rfl

theorem fsetpEffect_eq (s : State) (x : FsetpArgs) (ps : List Nat) (p : Nat) :
    let a := rdF s p x.ty x.ftz x.a
    let b := rdF s p x.ty x.ftz x.b
    fsetpEffect x s ps p =
      .pred x.d (combine s p (fcondOn x.cond (a.isNan || b.isNan) (cmpF a b)) x.comb) (a.sigFlag ||| b.sigFlag) := by
  intro a b
  rw [← fcondTest_eq]
  rfl

/-! ### ISETP, PSET, FSETP, FMIN, FMAX and FCLASS -/

theorem integerPredicates : IntegerPredicates := by
  intro s g
  refine ⟨fun x => ?isetp, fun x => ?pset⟩
  case isetp => exact tests_pred (f := isetpEffect x) (fun _ => rfl) rfl
  case pset => exact tests_pred (f := psetEffect x) (fun _ => rfl) rfl

theorem floatComparison : FloatComparison := by
  intro s g rd
  refine ⟨fun x _ => ⟨?fmin, ?fmax⟩, fun x => ?fclass, fun x => ?fsetp⟩
  case fmin => exact computes_reg (f := fminmaxEffect x false) (fminmaxEffect_eq s x false _) rfl rfl
  case fmax => exact computes_reg (f := fminmaxEffect x true) (fminmaxEffect_eq s x true _) rfl rfl
  case fclass =>
    refine computes_reg (f := unBits x 1 fun a => 2 ^ classBit x.ty a) (fun p => ?_) rfl rfl
    simp only [unBits, classBit, Bool.and_eq_true, decide_eq_true_eq, rd]
    cases decodeF x.ty false (s.rdN p x.a x.ty.words) <;> rfl
  case fsetp => exact tests_pred (f := fsetpEffect x) (fsetpEffect_eq s x _) rfl

/-- Settles O6: FMIN and FMAX round the chosen operand to its own type, which gives its encoding back. -/
theorem comparisons : Obligations.Comparisons := ⟨integerPredicates, floatComparison⟩

end Sys2Proof
end

section
/-!
PROOFS. Packed halves and dot products (R115, R116).
-/

namespace Sys2Proof.Machine

/-! ### Packed halves (R115) -/

/-- An instruction of two elements computes each element's rounding and joins the flags of both. -/
theorem computes_packed {s : State} {g : Group} {i : Instr} {f : State → List Nat → Nat → Effect} {d : Reg} {m : FMod}
    {r : Nat → Nat → FVal × BitVec 7} (hf : ∀ p, f s (s.participants g i) p = packedEffect d m (r p))
    (hw : instrWrites i = [(d, 1)]) (hx : exec i s = aluMeaning i f s) :
    Computes s g i d 1
      (fun p => (roundTo m.ty m.rm m.sat m.ftz (r p 0).1).1 + (roundTo m.ty m.rm m.sat m.ftz (r p 1).1).1 * 65536)
      (fun p => ((roundTo m.ty m.rm m.sat m.ftz (r p 0).1).2 ||| (r p 0).2) |||
        ((roundTo m.ty m.rm m.sat m.ftz (r p 1).1).2 ||| (r p 1).2)) :=
  computes_reg hf hw hx

theorem rdHalf_eq (s : State) (t : Nat) (m : FMod) (r : Reg) (i : Nat) :
    rdHalf s t m r i = decodeF m.ty m.ftz ((s.rd t r).toNat / 2 ^ (16 * i) % 2 ^ 16) := by
  rw [rdHalf, half, natBits_eq_div]

/-! ### Dot products (R116) -/

/-- Element i of a register that packs elements of `n` bits. -/
def dotPart (s : State) (p : Nat) (r : Reg) (n i : Nat) : Nat := (s.rd p r).toNat / 2 ^ (n * i) % 2 ^ n

theorem packed_eq_dotPart (s : State) (p : Nat) (r : Reg) (n i : Nat) : packed (s.rd p r) n i = dotPart s p r n i :=
  natBits_eq_div ..

/-- The exact sum of a dot product of integers, c read in the type `ty` of 32 bits. -/
def dotSum (x : FTern) (n : Nat) (ty : Ty) (s : State) (p : Nat) : Int :=
  (upTo (32 / n)).foldl (fun v i => v + intOf x.m.ty (dotPart s p x.a n i) * intOf x.m.ty (dotPart s p x.b n i))
    (intOf ty (s.rd p x.c).toNat)

theorem dotInt_eq {x : FTern} {ty : Ty} (h : (if tySigned x.m.ty then Ty.s32 else Ty.z32) = ty) (n : Nat) (s : State)
    (p : Nat) : dotInt x n s p =
      .reg x.d 1 (narrow ty x.m.sat (dotSum x n ty s p)).1 (narrow ty x.m.sat (dotSum x n ty s p)).2 := by
  subst h
  simp only [dotInt, packed_eq_dotPart]
  rfl

/-- The exact products of a dot product of floating elements. -/
def dotProducts (x : FTern) (n : Nat) (ftz : Bool) (s : State) (p : Nat) : List (FVal × BitVec 7) :=
  (upTo (32 / n)).map fun i =>
    mulF (decodeF x.m.ty ftz (dotPart s p x.a n i)) (decodeF x.m.ty ftz (dotPart s p x.b n i))

/-- The exact sum of c and the products, with the flags of both. -/
def dotExact (x : FTern) (n : Nat) (ftz : Bool) (s : State) (p : Nat) : FVal × BitVec 7 :=
  let v := sumF x.m.rm false (decodeF .f32 x.m.ftz (s.rdN p x.c 1) :: (dotProducts x n ftz s p).map (·.1))
  (v.1, (dotProducts x n ftz s p).foldl (fun f y => f ||| y.2) v.2)

theorem dotFloat_eq (x : FTern) (n : Nat) (ftz : Bool) (s : State) (p : Nat) :
    dotFloat x n ftz s p = outF x.d { x.m with ty := .f32 } (dotExact x n ftz s p) := by
  simp only [dotFloat, packed_eq_dotPart]
  rfl

/-- A dot product writes one register, whatever the type of its elements. -/
theorem dotInt_reg (x : FTern) (n : Nat) (s : State) (p : Nat) : ∃ v fl, dotInt x n s p = .reg x.d 1 v fl :=
  ⟨_, _, dotInt_eq rfl n s p⟩

theorem dotFloat_reg (x : FTern) (n : Nat) (ftz : Bool) (s : State) (p : Nat) :
    ∃ v fl, dotFloat x n ftz s p = .reg x.d 1 v fl :=
  ⟨_, _, rfl⟩

section
variable {x : FTern} {s : State} {ps : List Nat} {p : Nat}

theorem dot4Effect_float (h : x.m.ty = .e4m3 ∨ x.m.ty = .e5m2) : dot4Effect x s ps p = dotFloat x 8 false s p := by
  rcases h with h | h <;> simp only [dot4Effect, h]

theorem dot4Effect_int (h : x.m.ty ≠ .e4m3) (h' : x.m.ty ≠ .e5m2) : dot4Effect x s ps p = dotInt x 8 s p := by
  unfold dot4Effect
  split
  · contradiction
  · contradiction
  · rfl

theorem dot2Effect_float (h : x.m.ty = .f16x2 ∨ x.m.ty = .bf16x2) :
    dot2Effect x s ps p = dotFloat x 16 x.m.ftz s p := by
  rcases h with h | h <;> simp only [dot2Effect, h]

theorem dot2Effect_int (h : x.m.ty ≠ .f16x2) (h' : x.m.ty ≠ .bf16x2) : dot2Effect x s ps p = dotInt x 16 s p := by
  unfold dot2Effect
  split
  · contradiction
  · contradiction
  · rfl

theorem dot4Effect_reg : ∃ v fl, dot4Effect x s ps p = .reg x.d 1 v fl := by
  by_cases h : x.m.ty = .e4m3 ∨ x.m.ty = .e5m2
  · rw [dot4Effect_float h]
    exact dotFloat_reg ..
  · obtain ⟨h4, h5⟩ := not_or.mp h
    rw [dot4Effect_int h4 h5]
    exact dotInt_reg ..

theorem dot2Effect_reg : ∃ v fl, dot2Effect x s ps p = .reg x.d 1 v fl := by
  by_cases h : x.m.ty = .f16x2 ∨ x.m.ty = .bf16x2
  · rw [dot2Effect_float h]
    exact dotFloat_reg ..
  · obtain ⟨hf, hb⟩ := not_or.mp h
    rw [dot2Effect_int hf hb]
    exact dotInt_reg ..

end

section
variable {s : State} {g : Group} {i : Instr} {f : State → List Nat → Nat → Effect} {x : FTern} {n : Nat}
  (hw : instrWrites i = [(x.d, 1)]) (hx : exec i s = aluMeaning i f s)
include hw hx

/-- A dot product of integers computes their sum narrowed to the 32-bit type of their sign. -/
theorem computes_dotInt {ty : Ty} (hf : ∀ p, f s (s.participants g i) p = dotInt x n s p)
    (hty : (if tySigned x.m.ty then Ty.s32 else Ty.z32) = ty) :
    Computes s g i x.d 1 (fun p => (narrow ty x.m.sat (dotSum x n ty s p)).1)
      (fun p => (narrow ty x.m.sat (dotSum x n ty s p)).2) :=
  computes_reg (fun p => (hf p).trans (dotInt_eq hty n s p)) hw hx

/-- One of floating elements computes the rounding of their exact sum to FP32. -/
theorem computes_dotFloat {ftz : Bool} (hf : ∀ p, f s (s.participants g i) p = dotFloat x n ftz s p) :
    Computes s g i x.d 1 (fun p => (roundTo .f32 x.m.rm x.m.sat x.m.ftz (dotExact x n ftz s p).1).1)
      (fun p => (roundTo .f32 x.m.rm x.m.sat x.m.ftz (dotExact x n ftz s p).1).2 ||| (dotExact x n ftz s p).2) :=
  computes_reg (fun p => (hf p).trans (dotFloat_eq x n ftz s p)) hw hx

end

end Sys2Proof.Machine

namespace Sys2Proof

open Sys2Proof.Machine

/-- Settles O7: the elements are cut out of their registers alike, and the type chooses the form of a dot product. -/
theorem packedAndDots : Obligations.PackedAndDots := by
  intro s g el pairs
  refine ⟨fun x => ⟨?hadd2, ?hmul2⟩, fun x => ?hfma2, fun x => ⟨fun h => ?dot4Sum, ?dot4Any, ?dot2Any⟩, fun x =>
    ⟨fun h => ?s8, fun h => ?z8, fun h => ?fp8, fun h => ?s16, fun h => ?z16, fun h => ?fp16⟩⟩
  case hadd2 =>
    exact computes_packed (f := hadd2Effect x)
      (r := fun p i => sumF x.m.rm false [el p x.m x.a i, el p x.m x.b (bselElem x.sel i)])
      (fun _ => by simp only [hadd2Effect, rdHalf_eq, el]) rfl rfl
  case hmul2 =>
    exact computes_packed (f := hmul2Effect x)
      (r := fun p i => mulF (el p x.m x.a i) (el p x.m x.b (bselElem x.sel i)))
      (fun _ => by simp only [hmul2Effect, rdHalf_eq, el]) rfl rfl
  case hfma2 =>
    exact computes_packed (f := hfma2Effect x)
      (r := fun p i => fmaF x.m.rm (el p x.m x.a i) (el p x.m x.b (bselElem x.sel i)) (el p x.m x.c i))
      (fun _ => by simp only [hfma2Effect, rdHalf_eq, el]) rfl rfl
  case dot4Sum =>
    refine computes_reg (f := dot4Effect x) (fun p => ?_) rfl rfl
    rw [dot4Effect_int (by simp [h]) (by simp [h]), dotInt_eq (ty := .s32) (by rw [h]; rfl)]
    simp only [dotSum, dotPart, Nat.shiftRight_eq_div_pow, h]
    rfl
  case dot4Any => exact computes_some (f := dot4Effect x) (fun _ => dot4Effect_reg) rfl rfl
  case dot2Any => exact computes_some (f := dot2Effect x) (fun _ => dot2Effect_reg) rfl rfl
  case s8 =>
    exact computes_dotInt (f := dot4Effect x) rfl rfl (fun _ => dot4Effect_int (by simp [h]) (by simp [h])) (by rw [h]; rfl)
  case z8 =>
    exact computes_dotInt (f := dot4Effect x) rfl rfl (fun _ => dot4Effect_int (by simp [h]) (by simp [h])) (by rw [h]; rfl)
  case fp8 => exact computes_dotFloat (f := dot4Effect x) rfl rfl fun _ => dot4Effect_float h
  case s16 =>
    exact computes_dotInt (f := dot2Effect x) rfl rfl (fun _ => dot2Effect_int (by simp [h]) (by simp [h])) (by rw [h]; rfl)
  case z16 =>
    exact computes_dotInt (f := dot2Effect x) rfl rfl (fun _ => dot2Effect_int (by simp [h]) (by simp [h])) (by rw [h]; rfl)
  case fp16 => exact computes_dotFloat (f := dot2Effect x) rfl rfl fun _ => dot2Effect_float h

end Sys2Proof
end

section
/-!
PROOFS. The special functions (R118, R119): what their table says of infinities, zeros and NaNs.
-/

namespace Sys2Proof.Machine

/-- The rounding of a special function's operand, its exact value at infinities and zeros given. -/
def specialOut (x : FUn) (inf zero : Bool → FVal × BitVec 7) (fin : Bool → Nat → Int → Nat × BitVec 7) (a : FVal) :
    Nat × BitVec 7 :=
  let out (v : FVal × BitVec 7) : Nat × BitVec 7 :=
    ((roundTo x.m.ty x.m.rm x.m.sat x.m.ftz v.1).1, (roundTo x.m.ty x.m.rm x.m.sat x.m.ftz v.1).2 ||| v.2)
  match a with
  | .nan sig => ((fmtOf x.m.ty).nan, flagIf sig fInvalid)
  | .inf neg => out (inf neg)
  | .fin neg m e => if m = 0 then out (zero neg) else fin neg m e

theorem specialEffect_eq (x : FUn) (inf zero : Bool → FVal × BitVec 7) (fin : Bool → Nat → Int → Nat × BitVec 7)
    (s : State) (ps : List Nat) (p : Nat) : specialEffect x inf zero fin s ps p =
      .reg x.d x.m.ty.words (specialOut x inf zero fin (rdF s p x.m.ty x.m.ftz x.a)).1
        (specialOut x inf zero fin (rdF s p x.m.ty x.m.ftz x.a)).2 := by
  unfold specialEffect specialOut
  cases rdF s p x.m.ty x.m.ftz x.a <;> rfl

/-- R119: what the table says of a special function: its exact values at infinities and zeros, rounded, and the canonical
NaN of a NaN. -/
def TableRule (s : State) (g : Group) (x : FUn) (i : Instr) (inf zero : Bool → FVal × BitVec 7) : Prop :=
  let a (p : Nat) := decodeF x.m.ty x.m.ftz (s.rdN p x.a x.m.ty.words)
  let out (r : FVal × BitVec 7) : Nat × BitVec 7 :=
    ((roundTo x.m.ty x.m.rm x.m.sat x.m.ftz r.1).1, (roundTo x.m.ty x.m.rm x.m.sat x.m.ftz r.1).2 ||| r.2)
  ∃ v fl, Computes s g i x.d x.m.ty.words v fl ∧ ∀ p,
    (∀ sig, a p = .nan sig → v p = (fmtOf x.m.ty).nan ∧ fl p = if sig then fInvalid else 0) ∧
    (∀ neg, a p = .inf neg → (v p, fl p) = out (inf neg)) ∧
    (∀ neg e, a p = .fin neg 0 e → (v p, fl p) = out (zero neg))

/-- A special function keeps to the table that its effect is given, whatever it does at other operands. -/
theorem tableRule_of {s : State} {g : Group} {x : FUn} {i : Instr} {inf zero : Bool → FVal × BitVec 7}
    {fin : Bool → Nat → Int → Nat × BitVec 7} (hw : instrWrites i = [(x.d, x.m.ty.words)])
    (hx : exec i s = aluMeaning i (specialEffect x inf zero fin) s) : TableRule s g x i inf zero := by
  refine ⟨_, _, computes_reg (specialEffect_eq x inf zero fin s _) hw hx, fun p => ⟨?nan, ?inf, ?zero⟩⟩
  case nan =>
    intro sig (h : rdF s p x.m.ty x.m.ftz x.a = .nan sig)
    rw [h]
    exact ⟨rfl, rfl⟩
  case inf =>
    intro neg (h : rdF s p x.m.ty x.m.ftz x.a = .inf neg)
    rw [h]
    rfl
  case zero =>
    intro neg e (h : rdF s p x.m.ty x.m.ftz x.a = .fin neg 0 e)
    rw [h]
    rfl

end Sys2Proof.Machine

namespace Sys2Proof

open Sys2Proof.Machine

/-- Settles O8: each function's effect is given the row of R119's table that names it. -/
theorem specialFunctions : Obligations.SpecialFunctions := fun s g x =>
  have frcp : TableRule s g x (.frcp x) zeroF divzeroF := tableRule_of rfl rfl
  have frsq : TableRule s g x (.frsq x) (fun neg => if neg then invalidF else zeroF false) divzeroF := tableRule_of rfl rfl
  have fsqrt : TableRule s g x (.fsqrt x) (fun neg => if neg then invalidF else infF false) zeroF := tableRule_of rfl rfl
  have fexp2 : TableRule s g x (.fexp2 x) (fun neg => if neg then zeroF false else infF false) (fun _ => oneF false) :=
    tableRule_of rfl rfl
  have flog2 : TableRule s g x (.flog2 x) (fun neg => if neg then invalidF else infF false) (fun _ => divzeroF true) :=
    tableRule_of rfl rfl
  have fsin : TableRule s g x (.fsin x) (fun _ => invalidF) zeroF := tableRule_of rfl rfl
  have fcos : TableRule s g x (.fcos x) (fun _ => invalidF) (fun _ => oneF false) := tableRule_of rfl rfl
  have ftanh : TableRule s g x (.ftanh x) oneF zeroF := tableRule_of rfl rfl
  ⟨frcp, frsq, fsqrt, fexp2, flog2, fsin, fcos, ftanh⟩

end Sys2Proof
end

section
/-!
PROOFS. The conversions (R117, R120 to R124): each writes one register group on every operand.
-/

namespace Sys2Proof.Machine

section
/-! The reading and the clamping of FXAADD are variables here: to evaluate either, the kernel would count up to 2^127. -/

variable {read : Nat → Int × BitVec 7} {clamp : Int → Int × BitVec 7} (hr : fxaRead = read) (hc : fxaClamp = clamp)
include hr hc

theorem fxaaddEffect_eq (x : FxaaddArgs) (s : State) (ps : List Nat) (p : Nat) :
    let a := read (s.rdN p x.a 4)
    let b := read (s.rdN p x.b 4)
    let r := clamp (if x.sub then a.1 - b.1 else a.1 + b.1)
    fxaaddEffect x s ps p = .reg x.d 4 (wrapNat r.1 128) (a.2 ||| b.2 ||| r.2) := by
  obtain ⟨f, hf⟩ : ∃ f, f = fxaaddEffect := ⟨_, rfl⟩
  rw [← hf]
  delta fxaaddEffect at hf
  rw [hr, hc] at hf
  subst hf
  exact rfl

theorem computes_fxaadd (s : State) (g : Group) (x : FxaaddArgs) :
    let a (p : Nat) := read (s.rdN p x.a 4)
    let b (p : Nat) := read (s.rdN p x.b 4)
    let r (p : Nat) := clamp (if x.sub then (a p).1 - (b p).1 else (a p).1 + (b p).1)
    Computes s g (.fxaadd x) x.d 4 (fun p => wrapNat (r p).1 128) (fun p => (a p).2 ||| (b p).2 ||| (r p).2) :=
  computes_reg (f := fxaaddEffect x) (fxaaddEffect_eq hr hc x s _) rfl rfl

end

section
variable (s : State) (ps : List Nat) (p : Nat)

/-! The pair that an effect takes apart stands for any pair, so that no check evaluates it. -/

theorem cvtEffect_eq (x : CvtArgs) : cvtEffect x s ps p = .reg x.d x.m.ty.words
    (convertTo x.m (if tyFloat x.src then fInvalid else fSaturated) (typedVal s p x.src x.m.ftz x.a)).1
    (convertTo x.m (if tyFloat x.src then fInvalid else fSaturated) (typedVal s p x.src x.m.ftz x.a)).2 := by
  unfold cvtEffect
  generalize convertTo x.m _ _ = r
  rfl

theorem qscaleEffect_eq (x : QscaleArgs) : qscaleEffect x s ps p = .reg x.d 1
    (qscaleOf x.big (rdF s p x.ty false x.a)).1 (qscaleOf x.big (rdF s p x.ty false x.a)).2 := by
  unfold qscaleEffect
  generalize qscaleOf x.big _ = r
  rfl

theorem packEffect_eq (x : PackArgs) : packEffect x s ps p = .reg x.d 6
    (packBlock x.rm ((s.rd p x.b).toNat % 65536) ((upTo 48).map (packSource x s p))).1
    (packBlock x.rm ((s.rd p x.b).toNat % 65536) ((upTo 48).map (packSource x s p))).2 := by
  unfold packEffect
  generalize packBlock x.rm _ _ = r
  rfl

/-- UNPACK writes 16 values of its format. -/
theorem unpackEffect_reg (x : UnpackArgs) : ∃ v fl, unpackEffect x s ps p = .reg x.d ((fmtOf x.m.ty).width / 2) v fl := by
  unfold unpackEffect
  generalize n4xDecode _ _ = r
  exact ⟨_, _, rfl⟩

/-- FXACVT writes a value of its type, or an FXA128 value. -/
theorem fxacvtEffect_reg (x : FxacvtArgs) : ∃ v fl, fxacvtEffect x s ps p =
    .reg x.d (match x.dir with | .out m => m.ty.words | .into _ _ => 4 | .anchor => 4) v fl := by
  unfold fxacvtEffect
  generalize fxaRead (s.rdN p x.a 4) = a
  obtain ⟨a, f⟩ := a
  cases x.dir with
  | out m =>
    dsimp only
    generalize convertTo m _ _ = r
    exact ⟨_, _, rfl⟩
  | into ty ftz =>
    dsimp only
    generalize fxaOf _ _ = r
    exact ⟨_, _, rfl⟩
  | anchor =>
    dsimp only
    generalize fxaOf _ _ = r
    exact ⟨_, _, rfl⟩

end

end Sys2Proof.Machine

namespace Sys2Proof

open Sys2Proof.Machine

/-- Settles O9: each conversion writes its one group; FXACVT's is as wide as its direction says. -/
theorem conversions : Obligations.Conversions := by
  intro s g
  refine ⟨fun x => ?cvt, fun x => ?qscale, fun x => ?pack, fun x => ?unpack, fun x => ?fxaadd, fun x => ?fxacvt⟩
  case cvt => exact computes_reg (f := cvtEffect x) (fun p => cvtEffect_eq s _ p x) rfl rfl
  case qscale => exact computes_reg (f := qscaleEffect x) (fun p => qscaleEffect_eq s _ p x) rfl rfl
  case pack => exact computes_reg (f := packEffect x) (fun p => packEffect_eq s _ p x) rfl rfl
  case unpack => exact computes_some (f := unpackEffect x) (fun _ => unpackEffect_reg ..) rfl rfl
  case fxaadd => exact computes_fxaadd rfl rfl s g x
  case fxacvt =>
    have hw : ∃ n, instrWrites (.fxacvt x) = [(x.d, n)] := by
      obtain ⟨gd, d, a, b, dir⟩ := x
      cases dir <;> exact ⟨_, rfl⟩
    obtain ⟨n, hw⟩ := hw
    exact computes_some (f := fxacvtEffect x) (fun _ => fxacvtEffect_reg ..) hw rfl

end Sys2Proof
end

section
/-!
PROOFS. Lane collectives (R126 to R131): every participant's effect is a function of the state before any is written.
-/

namespace Sys2Proof

open Sys2Proof.Machine

/-! ### SHFL (R126) -/

/-- R126: the participant that a participant takes its value from. -/
def shflSource (s : State) (x : ShflArgs) (ps : List Nat) (p : Nat) : Option Nat :=
  (shflLane x.mode (tidLane p) (s.rd p x.b)).bind (atLane ps)

/-- R126: what SHFL writes: its source's value, or without one the value that C names. -/
def shflValue (s : State) (x : ShflArgs) (ps : List Nat) (p : Nat) : Nat :=
  match shflSource s x ps p, x.c with
  | some u, _ => s.rdN u x.a x.ty.words
  | none, .fallback r => s.rdN p r x.ty.words
  | none, .found _ => s.rdN p x.a x.ty.words

/-- R126: the predicate in C, if C is one. -/
def shflPred : ShflC → Option Pred
  | .found c => some c
  | .fallback _ => none

section
variable {s : State} {x : ShflArgs} {ps : List Nat} {p : Nat}

theorem shflValue_source {u : Nat} (h : shflSource s x ps p = some u) :
    shflValue s x ps p = s.rdN u x.a x.ty.words := by
  simp only [shflValue, h]

theorem shflValue_fallback {r : Reg} (h : shflSource s x ps p = none) (hc : x.c = .fallback r) :
    shflValue s x ps p = s.rdN p r x.ty.words := by
  simp only [shflValue, h, hc]

theorem shflValue_found {c : Pred} (h : shflSource s x ps p = none) (hc : x.c = .found c) :
    shflValue s x ps p = s.rdN p x.a x.ty.words := by
  simp only [shflValue, h, hc]

theorem shflEffect_eq (s : State) (x : ShflArgs) (ps : List Nat) (p : Nat) : shflEffect x s ps p =
    ⟨regsOf x.d x.ty.words (shflValue s x ps p), State.predOf (shflPred x.c) (shflSource s x ps p).isSome, 0⟩ := by
  obtain ⟨gd, d, a, b, c, ty, mode⟩ := x
  cases c <;> rfl

end

theorem shfl_writes {s : State} {g : Group} {x : ShflArgs} (h : Clear s g (.shfl x)) (hf : x.d.fits x.ty.words) :
    let ps := s.participants g (.shfl x)
    ∃ t, exec (.shfl x) s = .next t ∧ Writes s t ps x.d x.ty.words (shflValue s x ps) (shflPred x.c)
      (fun p => (shflSource s x ps p).isSome) (fun _ => 0) :=
  State.exec_alu (f := shflEffect x) h (shflEffect_eq s x _) hf (State.usesWK_of_write (List.mem_singleton_self _))

/-! ### MATCH (R128) -/

/-- R128: MATCH .same writes a mask and a predicate. -/
theorem match_same_writes {s : State} {g : Group} {x : MatchArgs} {c : Pred} (hx : x.form = .same c)
    (h : Clear s g (.matchLanes x)) (hf : x.d.fits 1) :
    let ps := s.participants g (.matchLanes x)
    let peers (p : Nat) := ps.filter fun u => s.rdN u x.a x.ty.words = s.rdN p x.a x.ty.words
    ∃ t, exec (.matchLanes x) s = .next t ∧
      Writes s t ps x.d 1 (fun p => if peers p = ps then laneMask ps else 0) (some c)
        (fun p => decide (peers p = ps)) (fun _ => 0) := by
  intro ps peers
  refine State.exec_alu (f := matchEffect x) h (fun p => ?_) hf (State.usesWK_of_write (List.mem_singleton_self _))
  simp only [matchEffect, hx, decide_eq_true_eq]
  rfl

/-! ### ACTIVE (R130) -/

/-- R130: the lanes that ACTIVE tells of. -/
def activeMask (s : State) (g : Group) (x : ActiveArgs) : Nat :=
  laneMask (if x.part then s.participants g (.active x) else g.members)

/-- ACTIVE's result is of the group, so its issue is opened here. -/
theorem active_computes (s : State) (g : Group) (x : ActiveArgs) :
    Computes s g (.active x) x.d 1 (fun _ => activeMask s g x) (fun _ => 0) := by
  intro h hf
  have hw : (x.d, 1) ∈ instrWrites (.active x) := List.mem_singleton_self _
  refine ⟨_, congrArg Host.Outcome.next (State.issue_clear h _), State.alu_writes (pd := none) (b := fun _ => false)
    (f := fun _ _ _ => .reg x.d 1 (activeMask s g x) 0) (fun _ => rfl) hf h.clean (State.participants_nodup _ h.distinct) ?_⟩
  intro hd p hp q hq
  exact h.flock (h.fu (State.usesWK_of_write hw hd)) p (State.participants_sub hp) q (State.participants_sub hq)

/-- Settles O10: what each participant gets is computed from the operands and the participants alone. -/
theorem laneCollectives : Obligations.LaneCollectives := by
  intro s g
  refine ⟨fun x => ?shfl, fun x => ?vote, fun x => ?matchLanes, fun x => ?redux, active_computes s g, fun x => ?prmt⟩
  case shfl =>
    intro ps src h hf
    obtain ⟨t, ht, hw⟩ := shfl_writes h hf
    refine ⟨t, shflValue s x ps, ht, ?_, fun p => ⟨fun u => shflValue_source, fun r => shflValue_fallback,
      fun c => shflValue_found⟩⟩
    obtain ⟨gd, d, a, b, c, ty, mode⟩ := x
    cases c <;> exact hw
  case vote =>
    obtain ⟨gd, a, form⟩ := x
    refine ⟨fun d h => ?all, fun d h => ?any, fun d h => ?same, fun d h => ?mask, fun d h => ?count, fun d h => ?first⟩ <;>
      obtain rfl := h
    case all => exact tests_pred (f := voteEffect ⟨gd, a, .all d⟩) (fun _ => rfl) rfl
    case any => exact tests_pred (f := voteEffect ⟨gd, a, .any d⟩) (fun _ => rfl) rfl
    case same => exact tests_pred (f := voteEffect ⟨gd, a, .same d⟩) (fun _ => rfl) rfl
    case mask => exact computes_reg (f := voteEffect ⟨gd, a, .mask d⟩) (fun _ => rfl) rfl rfl
    case count => exact computes_reg (f := voteEffect ⟨gd, a, .count d⟩) (fun _ => rfl) rfl rfl
    case first => exact computes_reg (f := voteEffect ⟨gd, a, .first d⟩) (fun _ => rfl) rfl rfl
  case matchLanes =>
    refine ⟨fun h => ?peers, fun h => ?rank, fun c h hc hf => match_same_writes h hc hf⟩
    case peers => exact computes_reg (f := matchEffect x) (fun _ => by simp only [matchEffect, h]) rfl rfl
    case rank => exact computes_reg (f := matchEffect x) (fun _ => by simp only [matchEffect, h]) rfl rfl
  case redux =>
    refine ⟨fun h => ?int, fun h => ?f32⟩
    case int => exact computes_reg (f := reduxEffect x) (fun _ => by simp only [reduxEffect, if_neg h]; rfl) rfl rfl
    case f32 =>
      refine computes_reg (f := reduxEffect x) (n := x.m.ty.words) (fun _ => ?_) rfl rfl
      simp only [reduxEffect, h, if_true]
      rfl
  case prmt => exact computes_reg (f := prmtEffect x) (fun _ => rfl) rfl rfl

end Sys2Proof
end

section
/-!
PROOFS. The state under the matrix engine's operations (05 R143 to R151): what a status and the end of a wait change, what a
change of tiles leaves, and how an entry enters its quad's table and leaves it.
-/

namespace Sys2Proof.Machine.State

open Sys2Proof

/-! ### Lookups of states that agree on a table -/

theorem quad_of_quads {s u : State} (h : u.quads = s.quads) (q : Nat) : u.quad q = s.quad q := by
  simp only [quad, h]

theorem thread_of_threads {s u : State} (h : u.threads = s.threads) (t : Nat) : u.thread t = s.thread t := by
  simp only [thread, h]

theorem bar_of_bars {s u : State} (h : u.bars = s.bars) (k : Nat) : u.bar k = s.bar k := by
  simp only [bar, h]

theorem coreFlags_of_cores {s u : State} (h : u.cores = s.cores) (c x : Nat) : u.coreFlags c x = s.coreFlags c x := by
  simp only [coreFlags, core, h]

theorem rd_of_files {s u : State} (ht : u.threads = s.threads) (hf : u.flocks = s.flocks) (p : Nat) (r : Reg) :
    u.rd p r = s.rd p r := by
  cases r <;> simp only [rd, thread, flock, ht, hf]

theorem bar_setBar (s : State) (k : Nat) (b : BarSt) : (s.setBar k b).bar k = b := by
  simp only [bar, setBar, tget_tput_same, Option.getD_some]

theorem quad_modQuad (s : State) (q : Nat) (f : Quad → Quad) : (s.modQuad q f).quad q = f (s.quad q) := by
  rw [modQuad, quad_setQuad, if_pos rfl]

theorem thread_modThread (s : State) (t : Nat) (f : Thread → Thread) : (s.modThread t f).thread t = f (s.thread t) := by
  rw [modThread, thread_setThread, if_pos rfl]

theorem rd_modThread {f : Thread → Thread} (hf : ∀ x, (f x).g = x.g) (s : State) (a t : Nat) (r : Reg) :
    (s.modThread a f).rd t r = s.rd t r := by
  cases r with
  | zero => rfl
  | w n => rfl
  | g n =>
    simp only [rd, modThread, thread_setThread]
    split
    · rename_i e
      subst e
      rw [hf]
    · rfl

/-! ### What leaves all but threads as it is (R148, R287) -/

/-- Only threads, flocks' registers and poison differ: a status, the end of a wait and a counter change no more. -/
def ThreadsOnly (s u : State) : Prop := { u with threads := s.threads, flocks := s.flocks, poison := s.poison } = s

namespace ThreadsOnly

variable {s u v : State}

theorem refl (s : State) : ThreadsOnly s s := rfl

theorem trans (a : ThreadsOnly s u) (b : ThreadsOnly u v) : ThreadsOnly s v := by
  have h := congrArg (fun x : State => { x with threads := s.threads, flocks := s.flocks, poison := s.poison }) b
  exact h.trans a

theorem mem (h : ThreadsOnly s u) : u.mem = s.mem := by
  have e := congrArg State.mem h
  exact e

theorem cur (h : ThreadsOnly s u) : u.cur = s.cur := by
  have e := congrArg State.cur h
  exact e

theorem cyc (h : ThreadsOnly s u) : u.cyc = s.cyc := by
  have e := congrArg State.cyc h
  exact e

theorem quads (h : ThreadsOnly s u) : u.quads = s.quads := by
  have e := congrArg State.quads h
  exact e

theorem bars (h : ThreadsOnly s u) : u.bars = s.bars := by
  have e := congrArg State.bars h
  exact e

theorem cores (h : ThreadsOnly s u) : u.cores = s.cores := by
  have e := congrArg State.cores h
  exact e

theorem wgs (h : ThreadsOnly s u) : u.wgs = s.wgs := by
  have e := congrArg State.wgs h
  exact e

/-- A fold of operations that each change threads alone. -/
theorem foldl {α : Type} {f : State → α → State} (h : ∀ u a, ThreadsOnly u (f u a)) (l : List α) (s : State) :
    ThreadsOnly s (l.foldl f s) :=
  List.foldlRecOn l f (motive := ThreadsOnly s) (refl s) fun u hu a _ => hu.trans (h u a)

end ThreadsOnly

section
variable (s : State) (t : Nat)

theorem threadsOnly_wr (r : Reg) (v : W32) : ThreadsOnly s (s.wr t r v) := by cases r <;> rfl

theorem threadsOnly_cleanRegs (l : List Grp) : ThreadsOnly s (s.cleanRegs t l) := by
  unfold cleanRegs
  split <;> rfl

theorem threadsOnly_waited : ThreadsOnly s (s.waited t) := by
  unfold waited
  split <;> rfl

@[simp] theorem up_zero (d : Reg) : Reg.up d 0 = d := by
  cases d <;> simp [Reg.up]

/-- A status is one register written. -/
theorem status_eq (d : Reg) (k : Nat) :
    s.status t d k = ((s.waited t).wr t d (BitVec.ofNat 32 k)).cleanRegs t [(d, 1)] := by
  simp [status, wrD, wrN, upTo]

theorem threadsOnly_status (d : Reg) (k : Nat) : ThreadsOnly s (s.status t d k) := by
  rw [status_eq]
  exact ((threadsOnly_waited s t).trans (threadsOnly_wr _ t d _)).trans (threadsOnly_cleanRegs _ t _)

theorem threadsOnly_dropWait : ThreadsOnly s (s.dropWait t) := rfl

theorem threadsOnly_endWait (k : Nat) : ThreadsOnly s (s.endWait t k) := by
  unfold endWait
  split
  · exact (threadsOnly_status s t _ k).trans (threadsOnly_dropWait _ t)
  · rfl

theorem threadsOnly_lowerTl : ThreadsOnly s (s.lowerTl t) := by
  unfold lowerTl
  split <;> rfl

theorem threadsOnly_failSigner (k : Nat) : ThreadsOnly s (s.failSigner t k) :=
  (threadsOnly_endWait s t k).trans (threadsOnly_lowerTl _ t)

/-! ### What a status leaves of a thread -/

theorem thread_wr (r : Reg) (v : W32) (p : Nat) : ∃ g, (s.wr t r v).thread p = { s.thread p with g := g } := by
  cases r with
  | zero => exact ⟨_, rfl⟩
  | w n => exact ⟨_, rfl⟩
  | g n =>
    rw [wr_g, thread_setThread]
    split
    · rename_i e
      subst e
      exact ⟨_, rfl⟩
    · exact ⟨_, rfl⟩

theorem thread_waited (p : Nat) : ∃ c, (s.waited t).thread p = { s.thread p with carry := c } := by
  unfold waited
  split
  · rw [modThread, thread_setThread]
    split
    · rename_i e
      subst e
      exact ⟨_, rfl⟩
    · exact ⟨_, rfl⟩
  · exact ⟨_, rfl⟩

theorem thread_cleanRegs (l : List Grp) (p : Nat) : (s.cleanRegs t l).thread p = s.thread p := by
  unfold cleanRegs
  split <;> rfl

/-- Of a thread, a status changes registers and the cycles a stop had left it. -/
theorem thread_status (d : Reg) (k p : Nat) :
    ∃ g c, (s.status t d k).thread p = { s.thread p with g := g, carry := c } := by
  obtain ⟨c, hc⟩ := thread_waited s t p
  obtain ⟨g, hg⟩ := thread_wr (s.waited t) t d (BitVec.ofNat 32 k) p
  exact ⟨g, c, by rw [status_eq, thread_cleanRegs, hg, hc]⟩

theorem rd_waited (p : Nat) (r : Reg) : (s.waited t).rd p r = s.rd p r := by
  unfold waited
  split
  · refine rd_modThread ?_ s t p r
    exact fun _ => rfl
  · rfl

theorem rd_cleanRegs (l : List Grp) (p : Nat) (r : Reg) : (s.cleanRegs t l).rd p r = s.rd p r := by
  unfold cleanRegs
  split <;> rfl

theorem rd_status (d : Reg) (k p : Nat) (r : Reg) :
    (s.status t d k).rd p r = if r ≠ .zero ∧ regCell p r = regCell t d then BitVec.ofNat 32 k else s.rd p r := by
  rw [status_eq, rd_cleanRegs, rd_wr, rd_waited]

/-- The end of a wait clears it and leaves the thread's counters. -/
theorem thread_endWait {w : Wait} (h : (s.thread t).wait = some w) (k : Nat) :
    ((s.endWait t k).thread t).wait = none ∧ ((s.endWait t k).thread t).tl = (s.thread t).tl := by
  obtain ⟨g, c, e⟩ := thread_status s t w.d k t
  simp only [endWait, h, dropWait, thread_modThread, e, and_self]

theorem thread_lowerTl (h : s.hasThread t = true) : (s.lowerTl t).thread t = (s.thread t).uncount .tl := by
  rw [lowerTl, if_pos h, thread_modThread]

theorem wait_lowerTl (p : Nat) : ((s.lowerTl t).thread p).wait = (s.thread p).wait := by
  unfold lowerTl
  split
  · rw [modThread, thread_setThread]
    split
    · rename_i e
      subst e
      rfl
    · rfl
  · rfl

end

/-! ### Tiles (R146, R171) -/

/-- Only the tile records of workgroups differ. -/
structure TilesOnly (s u : State) : Prop where
  rest : { u with wgs := s.wgs } = s
  wg : ∀ j, { u.wg j with tile := (s.wg j).tile } = s.wg j

namespace TilesOnly

variable {s u v : State}

theorem refl (s : State) : TilesOnly s s := ⟨rfl, fun _ => rfl⟩

theorem trans (a : TilesOnly s u) (b : TilesOnly u v) : TilesOnly s v where
  rest := by
    have h := congrArg (fun x : State => { x with wgs := s.wgs }) b.rest
    exact h.trans a.rest
  wg j := by
    have h := congrArg (fun x : Wg => { x with tile := (s.wg j).tile }) (b.wg j)
    exact h.trans (a.wg j)

theorem mem (h : TilesOnly s u) : u.mem = s.mem := by
  have e := congrArg State.mem h.rest
  exact e

theorem cur (h : TilesOnly s u) : u.cur = s.cur := by
  have e := congrArg State.cur h.rest
  exact e

theorem cyc (h : TilesOnly s u) : u.cyc = s.cyc := by
  have e := congrArg State.cyc h.rest
  exact e

theorem quads (h : TilesOnly s u) : u.quads = s.quads := by
  have e := congrArg State.quads h.rest
  exact e

theorem threads (h : TilesOnly s u) : u.threads = s.threads := by
  have e := congrArg State.threads h.rest
  exact e

theorem flocks (h : TilesOnly s u) : u.flocks = s.flocks := by
  have e := congrArg State.flocks h.rest
  exact e

theorem cores (h : TilesOnly s u) : u.cores = s.cores := by
  have e := congrArg State.cores h.rest
  exact e

theorem scr (h : TilesOnly s u) (j : Nat) : (u.wg j).scr = (s.wg j).scr := by
  have e := congrArg Wg.scr (h.wg j)
  exact e

theorem tiles (h : TilesOnly s u) (j : Nat) : (u.wg j).tiles = (s.wg j).tiles := by
  have e := congrArg Wg.tiles (h.wg j)
  exact e

end TilesOnly

theorem tilesOnly_modTile (s : State) (w t : Nat) (f : TileRec → TileRec) : TilesOnly s (s.modTile w t f) := by
  refine ⟨rfl, fun j => ?_⟩
  rw [modTile, setTile, modWg, wg_setWg]
  split
  · rename_i e
    rw [e]
  · rfl

theorem tilesOnly_foldl (w : Nat) (f : TileRec → TileRec) (l : List Nat) (s : State) :
    TilesOnly s (l.foldl (fun s t => s.modTile w t f) s) :=
  List.foldlRecOn l _ (motive := TilesOnly s) (.refl s) fun u hu t _ => hu.trans (tilesOnly_modTile u w t f)

theorem tileOf_modTile (s : State) (w t : Nat) (f : TileRec → TileRec) (j n : Nat) :
    (s.modTile w t f).tileOf j n = if j = w ∧ n = t then f (s.tileOf w t) else s.tileOf j n := by
  simp only [modTile, setTile, modWg, tileOf, wg_setWg]
  by_cases hj : j = w
  · subst hj
    by_cases hn : n = t
    · subst hn
      simp only [and_self, if_true, tget_tput_same, Option.getD_some]
    · simp only [hn, and_false, if_true, if_false, tget_tput_other _ _ _ _ hn]
  · simp only [hj, false_and, if_false]

/-! ### An entry enters its quad's table (R146, R150) -/

/-- The tiles of a request once it is posted: its sources pinned, its destinations filling. -/
def pinTiles (s : State) (r : EngEnt) : State :=
  r.dsts.foldl (fun s t => s.modTile r.wg t fun x => { x with fill := x.fill + 1 })
    (r.srcs.foldl (fun s t => s.modTile r.wg t fun x => { x with pin := x.pin + 1 }) s)

/-- A collective's signers go on with status 0. -/
def releaseSigners (s : State) (r : EngEnt) : State :=
  if r.collective then r.signers.foldl (fun s t => s.endWait t 0) s else s

/-- What a request is once posted. -/
def entered (s : State) (pass : Nat) (r : EngEnt) : EngEnt :=
  { r with image := s.tileImage r.wg r.srcs, since := s.cyc, readyAt := none, pass }

/-- A quad that a posted entry enters. -/
def takeEntry (e : EngEnt) (x : Quad) : Quad :=
  { x with reqs := x.reqs.filter fun y => y.id ≠ e.id, table := postEntry x.table e }

theorem tilesOnly_pinTiles (s : State) (r : EngEnt) : TilesOnly s (s.pinTiles r) :=
  (tilesOnly_foldl r.wg _ r.srcs s).trans (tilesOnly_foldl r.wg _ r.dsts _)

theorem threadsOnly_releaseSigners (s : State) (r : EngEnt) : ThreadsOnly s (s.releaseSigners r) := by
  unfold releaseSigners
  split
  · exact ThreadsOnly.foldl (fun u t => threadsOnly_endWait u t 0) r.signers s
  · rfl

theorem enter_eq (s : State) (q pass : Nat) (r : EngEnt) :
    s.enter q pass r = ((s.pinTiles r).releaseSigners r).modQuad q (takeEntry (s.entered pass r)) := by
  have hcyc : ((s.pinTiles r).releaseSigners r).cyc = s.cyc :=
    (threadsOnly_releaseSigners _ r).cyc.trans (tilesOnly_pinTiles s r).cyc
  unfold entered
  rw [← hcyc]
  rfl

theorem quad_enter (s : State) (q pass : Nat) (r : EngEnt) :
    (s.enter q pass r).quad q = takeEntry (s.entered pass r) (s.quad q) := by
  rw [enter_eq, quad_modQuad, quad_of_quads (threadsOnly_releaseSigners _ r).quads, quad_of_quads (tilesOnly_pinTiles s r).quads]

theorem mem_enter (s : State) (q pass : Nat) (r : EngEnt) : (s.enter q pass r).mem = s.mem := by
  rw [enter_eq]
  exact (threadsOnly_releaseSigners _ r).mem.trans (tilesOnly_pinTiles s r).mem

end Sys2Proof.Machine.State
end

section
/-!
PROOFS. The matrix engine's completions (05 R138 to R142, R156 to R164): how an entry leaves its quad's table, and what each
operation has done to the engine by then.
-/

namespace Sys2Proof.Machine.State

open Sys2Proof

/-! ### An entry leaves its quad's table (R38, R142, R152) -/

/-- The tiles of an entry that leaves: its sources unpinned, its destinations ready. -/
def unpinTiles (s : State) (e : EngEnt) : State :=
  if (tget s.wgs e.wg).isNone then s
  else e.dsts.foldl (fun s t => s.modTile e.wg t fun x => { x with fill := x.fill - 1, full := true })
    (e.srcs.foldl (fun s t => s.modTile e.wg t fun x => { x with pin := x.pin - 1 }) s)

/-- The flags of an entry on some cores. -/
def raiseOn (s : State) (l : List Nat) (c : Nat) (f : BitVec 7) : State := l.foldl (fun s k => s.raise k c f) s

/-- The TL counters that an entry of an operation lowers. -/
def tlHolders (e : EngEnt) : List Nat :=
  match e.op with
  | .mswp | .mnbr _ _ => []
  | _ => e.signers

def lowerAll (s : State) (l : List Nat) : State := l.foldl (fun s t => s.lowerTl t) s

/-- A quad without an entry of its table. -/
def withoutEntry (id : Nat) (x : Quad) : Quad := { x with table := x.table.filter fun y => y.id ≠ id }

/-- An entry has left its quad's table and its tiles, its flags raised; its signers' counters still stand. -/
def leftEngine (s : State) (q : Nat) (e : EngEnt) (fl : BitVec 7) : State :=
  ((s.modQuad q (withoutEntry e.id)).unpinTiles e).raiseOn (e.signers.map tidCore).eraseDups e.ctx fl

theorem leaveTable_eq (s : State) (q : Nat) (e : EngEnt) (fl : BitVec 7) :
    s.leaveTable q e fl = (s.leftEngine q e fl).lowerAll (tlHolders e) := by
  obtain ⟨_, op, _⟩ := e
  cases op <;> rfl

theorem tilesOnly_unpinTiles (s : State) (e : EngEnt) : TilesOnly s (s.unpinTiles e) := by
  unfold unpinTiles
  split
  · exact .refl s
  · exact (tilesOnly_foldl e.wg _ e.srcs s).trans (tilesOnly_foldl e.wg _ e.dsts _)

theorem raiseOn_rest (l : List Nat) (c : Nat) (f : BitVec 7) (s : State) : { s.raiseOn l c f with cores := s.cores } = s := by
  refine List.foldlRecOn l _ (motive := fun u : State => { u with cores := s.cores } = s) rfl fun u hu k _ => ?_
  unfold raise
  split <;> exact hu

theorem coreFlags_raiseOn (c : Nat) (f : BitVec 7) (k : Nat) (l : List Nat) : ∀ s : State,
    (s.raiseOn l c f).coreFlags k c = if k ∈ l then s.coreFlags k c ||| f else s.coreFlags k c := by
  induction l with
  | nil => exact fun s => rfl
  | cons a l ih =>
    intro s
    rw [show s.raiseOn (a :: l) c f = (s.raise a c f).raiseOn l c f from rfl, ih, coreFlags_raise]
    by_cases ha : a = k
    · simp [ha, BitVec.or_assoc]
    · simp [ha, Ne.symm ha]

theorem threadsOnly_lowerAll (l : List Nat) (s : State) : ThreadsOnly s (s.lowerAll l) :=
  ThreadsOnly.foldl (fun u t => threadsOnly_lowerTl u t) l s

theorem tlHolders_mswp {e : EngEnt} (h : e.op = .mswp) : tlHolders e = [] := by
  simp only [tlHolders, h]

theorem tlHolders_signers {e : EngEnt} (h : e.op ≠ .mswp) (hn : ∀ fw r, e.op ≠ .mnbr fw r) : tlHolders e = e.signers := by
  unfold tlHolders
  split
  · contradiction
  · rename_i hop
    exact absurd hop (hn _ _)
  · rfl

section
variable (s : State) (q : Nat) (e : EngEnt) (fl : BitVec 7)

theorem tilesOnly_leftEngine :
    ∃ u, TilesOnly (s.modQuad q (withoutEntry e.id)) u ∧ { s.leftEngine q e fl with cores := u.cores } = u :=
  ⟨_, tilesOnly_unpinTiles _ e, raiseOn_rest _ _ _ _⟩

theorem leftEngine_mem : (s.leftEngine q e fl).mem = s.mem := by
  obtain ⟨u, hu, hr⟩ := tilesOnly_leftEngine s q e fl
  exact (congrArg State.mem hr).trans hu.mem

theorem leftEngine_threads : (s.leftEngine q e fl).threads = s.threads := by
  obtain ⟨u, hu, hr⟩ := tilesOnly_leftEngine s q e fl
  exact (congrArg State.threads hr).trans hu.threads

theorem leftEngine_quads : (s.leftEngine q e fl).quads = (s.modQuad q (withoutEntry e.id)).quads := by
  obtain ⟨u, hu, hr⟩ := tilesOnly_leftEngine s q e fl
  exact (congrArg State.quads hr).trans hu.quads

theorem leftEngine_scr (j : Nat) : ((s.leftEngine q e fl).wg j).scr = (s.wg j).scr := by
  obtain ⟨u, hu, hr⟩ := tilesOnly_leftEngine s q e fl
  exact (congrArg (fun v : State => (v.wg j).scr) hr).trans (hu.scr j)

theorem mem_leaveTable : (s.leaveTable q e fl).mem = s.mem := by
  rw [leaveTable_eq, (threadsOnly_lowerAll _ _).mem, leftEngine_mem]

theorem quad_leaveTable : (s.leaveTable q e fl).quad q = withoutEntry e.id (s.quad q) := by
  rw [leaveTable_eq, quad_of_quads (threadsOnly_lowerAll _ _).quads, quad_of_quads (leftEngine_quads s q e fl), quad_modQuad]

theorem scr_leaveTable (j : Nat) : ((s.leaveTable q e fl).wg j).scr = (s.wg j).scr := by
  rw [leaveTable_eq, wg, (threadsOnly_lowerAll _ _).wgs]
  exact leftEngine_scr s q e fl j

theorem coreFlags_leaveTable {p : Nat} (hp : p ∈ e.signers) :
    (s.leaveTable q e fl).coreFlags (tidCore p) e.ctx = s.coreFlags (tidCore p) e.ctx ||| fl := by
  have there : tidCore p ∈ (e.signers.map tidCore).eraseDups := List.mem_eraseDups.mpr (List.mem_map_of_mem hp)
  rw [leaveTable_eq, coreFlags_of_cores (threadsOnly_lowerAll _ _).cores, leftEngine, coreFlags_raiseOn, if_pos there,
    coreFlags_of_cores (tilesOnly_unpinTiles _ _).cores]
  rfl

theorem tl_leaveTable {p : Nat} (hp : e.signers = [p]) (ht : s.hasThread p = true) (hn : ∀ fw r, e.op ≠ .mnbr fw r) :
    ((s.leaveTable q e fl).thread p).tl = (s.thread p).tl - (if e.op = .mswp then 0 else 1) := by
  have hth := leftEngine_threads s q e fl
  rw [leaveTable_eq, ← thread_of_threads hth p]
  by_cases h : e.op = .mswp
  · rw [tlHolders_mswp h, if_pos h]
    rfl
  · rw [tlHolders_signers h hn, hp, if_neg h]
    exact congrArg Thread.tl (thread_lowerTl (s.leftEngine q e fl) p (by rw [hasThread, hth]; exact ht))

end

/-! ### A granted entry completes -/

/-- `e` stands granted in its quad's table, and no poison stands: what every clause on ENTRY_COMPLETE asks. -/
structure Granted (s : State) (q : Nat) (e : EngEnt) : Prop where
  find : (s.quad q).table.find? (fun x => x.id = e.id) = some e
  granted : e.granted = true
  clean : s.poison = []

/-- What an operation does to its engine and its tiles leaves memory, the table and the flag sets, and but for MNBR, which
ends chained requests, every thread. -/
structure Worked (s v : State) (q : Nat) (e : EngEnt) : Prop where
  mem : v.mem = s.mem
  table : (v.quad q).table = (s.quad q).table
  cores : v.cores = s.cores
  threads : (∀ fw r, e.op ≠ .mnbr fw r) → v.threads = s.threads

theorem worked_modQuad (s : State) (q : Nat) (e : EngEnt) {f : Quad → Quad} (hf : ∀ x, (f x).table = x.table) :
    Worked s (s.modQuad q f) q e :=
  ⟨rfl, (congrArg Quad.table (quad_modQuad s q f)).trans (hf _), rfl, fun _ => rfl⟩

/-- An operation's work done, its entry leaves as R138, R142 and R151 say. -/
theorem Worked.left {s v : State} {q : Nat} {e : EngEnt} (h : Worked s v q e) (fl : BitVec 7) :
    entryLeft s (v.leaveTable q e fl) q e fl := by
  refine ⟨(mem_leaveTable v q e fl).trans h.mem, ?table, fun p hp => ?flags, fun p hp ht hn => ?tl⟩
  case table => rw [quad_leaveTable, ← h.table]; rfl
  case flags => rw [coreFlags_leaveTable v q e fl hp, coreFlags_of_cores h.cores]
  case tl =>
    rw [tl_leaveTable v q e fl hp (by rw [hasThread, h.threads hn]; exact ht) hn, thread_of_threads (h.threads hn)]

section
variable {s : State} {q : Nat} {e : EngEnt}

theorem gives_left {v : State} {fl : BitVec 7} (hx : s.completeEntry q e.id = v.leaveTable q e fl) (hw : Worked s v q e) :
    Gives (.entryComplete q e.id) s fun t => entryLeft s t q e fl ∧
      t.quad q = withoutEntry e.id (v.quad q) ∧ ∀ j, (t.wg j).scr = (v.wg j).scr :=
  ⟨_, congrArg Host.Outcome.next hx, hw.left fl, quad_leaveTable v q e fl, scr_leaveTable v q e fl⟩

/-- The same of an operation that changes its engine alone. -/
theorem gives_engine {f : Quad → Quad} {fl : BitVec 7} (hx : s.completeEntry q e.id = (s.modQuad q f).leaveTable q e fl)
    (hf : ∀ x, (f x).table = x.table) :
    Gives (.entryComplete q e.id) s fun t => entryLeft s t q e fl ∧ t.quad q = withoutEntry e.id (f (s.quad q)) := by
  obtain ⟨t, ht, hl, hq, -⟩ := gives_left hx (worked_modQuad s q e hf)
  exact ⟨t, ht, hl, by rw [hq, quad_modQuad]⟩

theorem Granted.enginePoisoned (h : Granted s q e) : s.enginePoisoned q = false := by
  rw [State.enginePoisoned, h.clean]
  rfl

theorem tilesPoisoned_clean (h : s.poison = []) (w : Nat) (ts : List Nat) : s.tilesPoisoned w ts = false := by
  simp [tilesPoisoned, h]

theorem Granted.spreadPoison (h : Granted s q e) : s.spreadPoison q e = s := by
  simp [State.spreadPoison, tilesPoisoned_clean h.clean]

theorem complete_mswp (h : Granted s q e) (hop : e.op = .mswp) : s.completeEntry q e.id =
    (s.modQuad q fun x => { x with active := x.shadow, shadow := x.active }).leaveTable q e 0 := by
  simp [completeEntry, h.find, h.granted, hop]

theorem complete_mlds (h : Granted s q e) {fw c : W32} (hop : e.op = .mlds fw c) : s.completeEntry q e.id =
    (s.modQuad q fun x => { x with shadow := loadPlane fw c e.image }).leaveTable q e
      (flagIf (planeBad (loadPlane fw c e.image)) fInformat) := by
  simp [completeEntry, h.find, h.granted, hop, h.spreadPoison]

theorem complete_macz (h : Granted s q e) {c : W32} (hop : e.op = .macz c) : s.completeEntry q e.id =
    (s.modQuad q fun x => { x with acc := accClear x.acc (macAt c) (macRow0 c) (macM c) }).leaveTable q e 0 := by
  simp [completeEntry, h.find, h.granted, hop]

theorem complete_macw (h : Granted s q e) {c : W32} (hop : e.op = .macw c) : s.completeEntry q e.id =
    (s.modQuad q fun x => { x with
      acc := accLoad x.acc (macAt c) (macRow0 c) (macM c) e.image (macTile c) }).leaveTable q e 0 := by
  simp [completeEntry, h.find, h.granted, hop, h.spreadPoison]

theorem complete_macr (h : Granted s q e) {fw c : W32} (hop : e.op = .macr fw c) :
    s.completeEntry q e.id = s.runReadout q e fw c := by
  simp [completeEntry, h.find, h.granted, hop, h.enginePoisoned]

theorem complete_mnbr (h : Granted s q e) {fw r : W32} (hop : e.op = .mnbr fw r) :
    s.completeEntry q e.id = s.runMnbr q e fw r := by
  simp [completeEntry, h.find, h.granted, hop]

/-- R138, R164: one entry of a pass, which reads the engines as the pass finds them in `s`. -/
def passOne (s : State) (mates : List (Nat × EngEnt)) (r : State) (y : Nat × EngEnt) : State :=
  match y.2.op with
  | .mma _ k => r.runPass mates y.1 y.2 k s
  | _ => r

theorem complete_mma (h : Granted s q e) {fw : W32} {c : W64} (hop : e.op = .mma fw c) :
    s.completeEntry q e.id = (s.passEntries q e).foldl (s.passOne (s.passEntries q e)) s := by
  simp only [completeEntry, h.find, h.granted, hop, h.enginePoisoned, tilesPoisoned_clean h.clean, Bool.not_true,
    Bool.or_self, Bool.false_eq_true, if_false]
  rfl

/-! ### What each operation has done before its entry leaves -/

/-- R141: the state once a readout's bytes stand in its tiles, where what poison was there is gone (R398), and its rows are
cleared if it says so. -/
def readoutDone (s : State) (q : Nat) (e : EngEnt) (fw c : W32) (left : List Poison) : State :=
  let v := { s.modWg e.wg fun w => { w with scr := mputs w.scr (macTile c * 4096) (readout fw c (s.quad q).acc).1 } with
    poison := left }
  if macClr c then v.modQuad q fun x => { x with acc := accClear x.acc (macAt c) (macRow0 c) (macM c) } else v

theorem runReadout_eq (hw : (tget s.wgs e.wg).isSome = true) (fw c : W32) : ∃ left,
    s.runReadout q e fw c = (s.readoutDone q e fw c left).leaveTable q e (readout fw c (s.quad q).acc).2 := by
  have there : (tget s.wgs e.wg).isNone = false := by simpa using hw
  simp only [runReadout, there, Bool.false_eq_true, if_false]
  exact ⟨_, rfl⟩

section
variable (fw c : W32) (left : List Poison)

theorem worked_readoutDone : Worked s (s.readoutDone q e fw c left) q e := by
  unfold readoutDone
  dsimp only
  split
  · refine ⟨rfl, ?_, rfl, fun _ => rfl⟩
    rw [quad_modQuad]
    rfl
  · exact ⟨rfl, rfl, rfl, fun _ => rfl⟩

theorem scr_readoutDone : ((s.readoutDone q e fw c left).wg e.wg).scr =
    mputs (s.wg e.wg).scr (macTile c * 4096) (readout fw c (s.quad q).acc).1 := by
  have written (x : Wg) : ((s.setWg e.wg x).wg e.wg).scr = x.scr := by rw [wg_setWg, if_pos rfl]
  unfold readoutDone
  dsimp only
  split <;> exact written _

theorem acc_readoutDone : ((s.readoutDone q e fw c left).quad q).acc =
    if macClr c then accClear (s.quad q).acc (macAt c) (macRow0 c) (macM c) else (s.quad q).acc := by
  unfold readoutDone
  dsimp only
  split
  · rw [quad_modQuad]
    rfl
  · rfl

end

/-- R163: the chained requests of a quad end, and their signers are told so. -/
def dropChained (s : State) (q : Nat) : State :=
  ((s.quad q).reqs.filter (·.chained)).foldl (fun s r => r.signers.foldl (fun s t => s.failSigner t 4) s)
    (s.modQuad q fun x => { x with reqs := x.reqs.filter fun r => !r.chained })

theorem breakChain_eq (s : State) (q : Nat) : s.breakChain q = (s.chainOf q).foldl dropChained s := rfl

theorem dropChained_threads (s : State) (q : Nat) :
    ThreadsOnly (s.modQuad q fun x => { x with reqs := x.reqs.filter fun r => !r.chained }) (s.dropChained q) :=
  ThreadsOnly.foldl (fun v (r : EngEnt) => ThreadsOnly.foldl (fun w t => threadsOnly_failSigner w t 4) r.signers v) _ _

theorem table_dropChained (s : State) (q j : Nat) : ((s.dropChained q).quad j).table = (s.quad j).table := by
  rw [quad_of_quads (dropChained_threads s q).quads, modQuad, quad_setQuad]
  split
  · rename_i e
    rw [e]
  · rfl

/-- R163: a chain that breaks touches no entry of a table. -/
theorem breakChain_keeps (s : State) (q : Nat) :
    (s.breakChain q).mem = s.mem ∧ (s.breakChain q).cores = s.cores ∧ ∀ j, ((s.breakChain q).quad j).table = (s.quad j).table := by
  rw [breakChain_eq]
  refine List.foldlRecOn (s.chainOf q) dropChained
    (motive := fun u : State => u.mem = s.mem ∧ u.cores = s.cores ∧ ∀ j, (u.quad j).table = (s.quad j).table)
    ⟨rfl, rfl, fun _ => rfl⟩ fun u ⟨hm, hc, ht⟩ k _ => ?_
  have told := dropChained_threads u k
  exact ⟨told.mem.trans hm, told.cores.trans hc, fun j => (table_dropChained u k j).trans (ht j)⟩

/-- R162: MNBR's role and format word stand, and what linked the quad is gone. -/
def roleTaken (s : State) (q : Nat) (fw r : W32) : State :=
  (s.breakChain q).modQuad q fun x => { x with role := r.toNat % 16, chainFw := fw }

theorem worked_roleTaken {fw r : W32} (hop : e.op = .mnbr fw r) (fw' r' : W32) : Worked s (s.roleTaken q fw' r') q e := by
  obtain ⟨hm, hc, ht⟩ := breakChain_keeps s q
  unfold roleTaken
  refine ⟨(setQuad_mem ..).trans hm, ?_, (setQuad_cores ..).trans hc, fun h => absurd hop (h fw r)⟩
  rw [quad_modQuad]
  dsimp only
  exact ht q

/-! ### A pass of one quad (R138 to R140) -/

/-- R136: the streamed operand of an MMA of its own. -/
def ownStream (e : EngEnt) (c : W64) : Stream := { image := e.image, ta := mmaTa c, ts := mmaTs c, rows := mmaM c }

section
variable {fw : W32} {c : W64}

theorem complete_alone (h : Granted s q e) (hop : e.op = .mma fw c) (hp : e.pass = 0) :
    s.completeEntry q e.id = s.runPass [(q, e)] q e c s := by
  rw [complete_mma h hop, passEntries, if_pos hp, List.foldl_cons, List.foldl_nil]
  simp only [passOne, hop]

theorem streamOf_own (hop : e.op = .mma fw c) (hp : e.pass = 0) (mates : List (Nat × EngEnt)) :
    s.streamOf q e mates = ownStream e c := by
  simp [streamOf, hop, hp, ownStream]

theorem sumsOf_untagged (hop : e.op = .mma fw c) (ht : tagOk fw (s.quad q).active = false) (mates : List (Nat × EngEnt)) :
    s.sumsOf q e mates = (none, fInformat) := by
  simp [sumsOf, hop, EngOp.fw, ht]

theorem sumsOf_tagged (hop : e.op = .mma fw c) (hp : e.pass = 0) (ht : tagOk fw (s.quad q).active = true)
    (mates : List (Nat × EngEnt)) : s.sumsOf q e mates = (some (passSums fw (s.quad q).active (ownStream e c)).1,
      (passSums fw (s.quad q).active (ownStream e c)).2 ||| flagIf (streamBad fw (ownStream e c)) fInformat) := by
  simp [sumsOf, hop, EngOp.fw, ht, streamOf_own hop hp]

theorem runPass_untagged (hop : e.op = .mma fw c) (ht : tagOk fw (s.quad q).active = false) (mates : List (Nat × EngEnt)) :
    s.runPass mates q e c s = s.leaveTable q e fInformat := by
  simp only [runPass, sumsOf_untagged hop ht]

theorem runPass_tagged (hop : e.op = .mma fw c) (hp : e.pass = 0) (ht : tagOk fw (s.quad q).active = true)
    (mates : List (Nat × EngEnt)) :
    let sums := passSums fw (s.quad q).active (ownStream e c)
    let w := passWrite c (s.quad q).active.fb (s.quad q).acc sums.1 []
    s.runPass mates q e c s = (s.modQuad q fun x => { x with acc := w.1 }).leaveTable q e
      (sums.2 ||| flagIf (streamBad fw (ownStream e c)) fInformat ||| w.2) := by
  simp [runPass, sumsOf_tagged hop hp ht, hp]

end

end

end Sys2Proof.Machine.State

namespace Sys2Proof

open Sys2Proof.Machine State

/-- Settles O41: each operation changes its engine or its tiles as its rule says, and then its entry leaves the table. -/
theorem engineCompletes : Obligations.EngineCompletes := by
  intro s q e hfind hgranted hclean
  have h : Granted s q e := ⟨hfind, hgranted, hclean⟩
  refine ⟨fun hop => ?mswp, fun fw c hop => ?mlds, fun c hop => ?macz, fun c hop => ?macw, fun fw c hop hw => ?macr,
    fun fw r hop => ?mnbr, fun fw c hop hp => ⟨fun ht => ?untagged, fun ht => ?tagged⟩, fun fw c hop _ => ?chained⟩
  case mswp =>
    obtain ⟨t, ht, hl, hq⟩ := gives_engine (complete_mswp h hop) fun _ => rfl
    exact ⟨t, ht, hl, by rw [hq]; rfl, by rw [hq]; rfl, by rw [hq]; rfl⟩
  case mlds =>
    obtain ⟨t, ht, hl, hq⟩ := gives_engine (complete_mlds h hop) fun _ => rfl
    exact ⟨t, ht, hl, by rw [hq]; rfl, by rw [hq]; rfl, by rw [hq]; rfl⟩
  case macz =>
    obtain ⟨t, ht, hl, hq⟩ := gives_engine (complete_macz h hop) fun _ => rfl
    exact ⟨t, ht, hl, by rw [hq]; rfl⟩
  case macw =>
    obtain ⟨t, ht, hl, hq⟩ := gives_engine (complete_macw h hop) fun _ => rfl
    exact ⟨t, ht, hl, by rw [hq]; rfl⟩
  case macr =>
    obtain ⟨left, hx⟩ := runReadout_eq (q := q) hw fw c
    obtain ⟨t, ht, hl, hq, hs⟩ := gives_left ((complete_macr h hop).trans hx) (worked_readoutDone fw c left)
    exact ⟨t, ht, hl, (hs e.wg).trans (scr_readoutDone fw c left), (congrArg Quad.acc hq).trans (acc_readoutDone fw c left)⟩
  case mnbr =>
    obtain ⟨t, ht, hl, hq, -⟩ := gives_left (v := s.roleTaken q fw r) (complete_mnbr h hop) (worked_roleTaken hop fw r)
    rw [roleTaken, quad_modQuad] at hq
    exact ⟨t, ht, hl, by rw [hq]; rfl, by rw [hq]; rfl⟩
  case untagged =>
    obtain ⟨t, ht, hl, hq, -⟩ := gives_left ((complete_alone h hop hp).trans (runPass_untagged hop ht _))
      ⟨rfl, rfl, rfl, fun _ => rfl⟩
    exact ⟨t, ht, hl, by rw [hq]; rfl⟩
  case tagged =>
    obtain ⟨t, ht, hl, hq⟩ := gives_engine ((complete_alone h hop hp).trans (runPass_tagged hop hp ht _)) fun _ => rfl
    exact ⟨t, ht, hl, by rw [hq]; rfl⟩
  case chained =>
    exact congrArg Host.Outcome.next (complete_mma h hop)

end Sys2Proof
end

section
/-!
PROOFS. The matrix engine's requests (05 R143 to R147, R151, R163): how a request is posted, a signature withdrawn at its
timeout, and the arbiter's choice granted.
-/

namespace Sys2Proof.Machine.State

open Sys2Proof

section
variable {s : State} {q : Nat}

/-! ### Posting (R146, R163) -/

theorem tryPost_alone {r : EngEnt} (hf : (s.quad q).reqs.find? (fun x => x.id = r.id) = some r) (hc : r.chained = false)
    (hp : s.postable q r = true) : s.tryPost q r.id = s.enter q 0 r := by
  simp only [tryPost, hf, hc, hp, Bool.not_false, if_true]

/-- R163: the first chained request of every quad of a chain that has one. -/
def chainReqs (s : State) (q : Nat) : List (Nat × EngEnt) :=
  (s.chainOf q).filterMap fun q => (s.firstChained q).map fun r => (q, r)

theorem tryPost_chain {r : EngEnt} (hf : (s.quad q).reqs.find? (fun x => x.id = r.id) = some r) (hc : r.chained = true)
    (hall : (s.chainReqs q).length = (s.chainOf q).length) (hin : ((s.chainReqs q).any fun x => x.2.id = r.id) = true)
    (hp : ((s.chainReqs q).all fun x => s.postable x.1 x.2) = true) : s.tryPost q r.id =
      (s.chainReqs q).foldl (fun u x => u.enter x.1 s.fresh x.2) { s with fresh := s.fresh + 1 } := by
  unfold chainReqs at hall hin hp
  simp only [tryPost, hf, hc, hall, hin, hp, Bool.not_true, Bool.false_eq_true, if_false, decide_true, Bool.and_self, if_true]
  rfl

/-! ### The arbiter's choice (R151) -/

/-- R151: a table with one entry granted. -/
def grantIn (id : Nat) (y : Quad) : Quad :=
  { y with table := y.table.map fun z => if z.id = id then { z with granted := true } else z }

theorem grantEntry_chosen {e : EngEnt} (hf : (s.quad q).table.find? (fun x => x.id = e.id) = some e)
    (hc : s.chosen q e = true) : s.grantEntry q e.id =
      (s.passEntries q e).foldl (fun u x => u.modQuad x.1 (grantIn x.2.id)) s := by
  simp only [grantEntry, hf, hc, Bool.not_true, Bool.false_eq_true, if_false]
  rfl

end

/-! ### A signature's timeout (R147) -/

section
variable {s : State} {t k : Nat} {op : EngOp} {w : Wait}

theorem signBar_of (hw : (s.thread t).wait = some w) (hk : w.kind = .sign k op) : s.signBar t = some k := by
  simp only [signBar, hw, hk]

theorem signTimeout_due {d : Nat} (hw : (s.thread t).wait = some w) (hk : w.kind = .sign k op) (hd : w.deadline = some d)
    (hdue : d ≤ s.cyc) (hh : (s.wgOf t).halted = false) : s.signTimeout t = (s.withdrawSign t).endWait t 1 := by
  simp only [signTimeout, hw, hk, hd, hdue, hh, decide_true, Bool.not_false, Bool.and_self, if_true]

theorem contains_one (t x : Nat) : [t].contains x = decide (x = t) := by simp

theorem filter_contains_one (t : Nat) (l : List Nat) : l.filter [t].contains = l.filter fun x => x = t :=
  List.filter_congr fun x _ => contains_one t x

theorem eraseDups_one (a : Nat) : [a].eraseDups = [a] := by simp [List.eraseDups_cons]

/-- A register without a thread's signature. -/
def withoutSign (b : BarSt) (t : Nat) : BarSt := { b with n := b.n - 1, signers := b.signers.filter fun x => x ≠ t }

/-- One of several signatures leaves a phase. -/
theorem dropSigns_one (hs : ((s.bar k).signers.filter fun x => x = t) = [t]) (hn : 1 < (s.bar k).n) :
    s.dropSigns k [t] = s.setBar k (withoutSign (s.bar k) t) := by
  have hleft : (s.bar k).n - 1 ≠ 0 := by omega
  simp only [dropSigns, filter_contains_one, contains_one, hs, List.length_singleton, Nat.one_ne_zero, if_false, if_neg hleft,
    withoutSign, decide_not]

/-- R147: one of several signatures of a request not yet formed is withdrawn from its register alone. -/
theorem withdrawSign_one (hw : (s.thread t).wait = some w) (hk : w.kind = .sign k op)
    (hs : ((s.bar k).signers.filter fun x => x = t) = [t]) (hn : 1 < (s.bar k).n)
    (hq : ∀ r ∈ (s.quad (coreQuad (tidCore t))).reqs, t ∉ r.signers) :
    s.withdrawSign t = (s.lowerTl t).setBar k (withoutSign (s.bar k) t) := by
  have hl : ThreadsOnly s (s.lowerTl t) := threadsOnly_lowerTl s t
  have hb : (s.lowerTl t).bar k = s.bar k := bar_of_bars hl.bars k
  have hsign : (s.lowerTl t).signBar t = some k := signBar_of ((wait_lowerTl s t t).trans hw) hk
  have hdrop := dropSigns_one (s := s.lowerTl t) (hb.symm ▸ hs) (hb.symm ▸ hn)
  have hnone (b : BarSt) : ((((s.lowerTl t).setBar k b).quad (coreQuad (tidCore t))).reqs.filter fun r =>
      r.signers.any [t].contains) = [] := by
    rw [quad_of_quads (u := (s.lowerTl t).setBar k b) hl.quads, List.filter_eq_nil_iff]
    simpa using hq
  simp only [withdrawSign, withdrawSigns, signBar_of hw hk, Option.isSome_some, List.filter_cons_of_pos, List.filter_nil,
    List.foldl_cons, List.foldl_nil, List.filterMap_cons, hsign, List.filterMap_nil, List.map_cons, List.map_nil,
    eraseDups_one, hdrop, hb, hnone]

/-- R147: what a timeout leaves of the thread and of its register. -/
theorem withdrawn (hw : (s.thread t).wait = some w) (hk : w.kind = .sign k op) (ht : s.hasThread t = true)
    (hs : ((s.bar k).signers.filter fun x => x = t) = [t]) (hn : 1 < (s.bar k).n)
    (hq : ∀ r ∈ (s.quad (coreQuad (tidCore t))).reqs, t ∉ r.signers) :
    let u := (s.withdrawSign t).endWait t 1
    (u.thread t).wait = none ∧ (u.thread t).tl = (s.thread t).tl - 1 ∧ u.bar k = withoutSign (s.bar k) t := by
  intro u
  have hwd := withdrawSign_one hw hk hs hn hq
  have hth : (s.withdrawSign t).thread t = (s.thread t).uncount .tl := by
    rw [hwd]
    exact thread_lowerTl s t ht
  obtain ⟨hwait, htl⟩ := thread_endWait (s.withdrawSign t) t (w := w) (by rw [hth]; exact hw) 1
  refine ⟨hwait, htl.trans (by rw [hth]; rfl), ?_⟩
  rw [bar_of_bars (threadsOnly_endWait (s.withdrawSign t) t 1).bars, hwd, bar_setBar]

end

end Sys2Proof.Machine.State

namespace Sys2Proof

open Sys2Proof.Machine State

/-- Settles O42: a request's posting is its entry's way into the table, a timeout one signature's withdrawal, and a grant a
mark on the chosen entry and on those granted with it. -/
theorem engineEvents : Obligations.EngineEvents := by
  intro s q
  refine ⟨fun r hf hc hp => ?post, fun r hf hc hall hin hp => ?chain, fun t w k op d hw hk hd hdue hh => ⟨?due, ?withdraw⟩,
    fun e hf hc => ⟨fun hp => ?grant, ?grants⟩⟩
  case post =>
    have hq := quad_enter s q 0 r
    exact ⟨_, congrArg Host.Outcome.next (tryPost_alone hf hc hp), s.entered 0 r, by rw [hq]; rfl, rfl, rfl, rfl, rfl, rfl,
      by rw [hq]; rfl, mem_enter s q 0 r⟩
  case chain => exact congrArg Host.Outcome.next (tryPost_chain hf hc hall hin hp)
  case due => exact congrArg Host.Outcome.next (signTimeout_due hw hk hd hdue hh)
  case withdraw =>
    intro ht hs hn hq
    obtain ⟨hwait, htl, hbar⟩ := withdrawn hw hk ht hs hn hq
    exact ⟨hwait, htl, by rw [hbar]; rfl, by rw [hbar]; rfl, by rw [hbar]; rfl⟩
  case grant =>
    have hx := grantEntry_chosen hf hc
    rw [passEntries, if_pos hp, List.foldl_cons, List.foldl_nil] at hx
    exact ⟨_, congrArg Host.Outcome.next hx, by rw [quad_modQuad]; rfl, rfl⟩
  case grants => exact congrArg Host.Outcome.next (grantEntry_chosen hf hc)

end Sys2Proof
end

section
/-!
PROOFS. The matrix engine's instructions (05 R143, R145, R149, R159 to R162): a collective is signed by each participant in
turn, and a request of a participant's own enters its quad's table as soon as there is room.
-/

namespace Sys2Proof.Machine.State

open Sys2Proof

/-! ### Tiles and workgroups that stand but for their pins (R146) -/

/-- Threads are of the same workgroups, whose tiles differ at most in how many operations pin them. -/
structure SameButPins (s u : State) : Prop where
  wg : ∀ t, (u.thread t).wg = (s.thread t).wg
  tiles : ∀ w, (u.wg w).tiles = (s.wg w).tiles
  tile : ∀ w n, { u.tileOf w n with pin := (s.tileOf w n).pin } = s.tileOf w n

namespace SameButPins

variable {s u v : State}

theorem refl (s : State) : SameButPins s s := ⟨fun _ => rfl, fun _ => rfl, fun _ _ => rfl⟩

theorem trans (a : SameButPins s u) (b : SameButPins u v) : SameButPins s v where
  wg t := (b.wg t).trans (a.wg t)
  tiles w := (b.tiles w).trans (a.tiles w)
  tile w n := by
    have h := congrArg (fun x : TileRec => { x with pin := (s.tileOf w n).pin }) (b.tile w n)
    exact h.trans (a.tile w n)

theorem pastTiles (h : SameButPins s u) (w : Nat) (l : List TileSpan) : u.pastTiles w l = s.pastTiles w l := by
  simp only [State.pastTiles, h.tiles]

theorem tileReady (h : SameButPins s u) (w n : Nat) : u.tileReady w n = s.tileReady w n := by
  rw [State.tileReady, State.tileReady, ← h.tile w n]

end SameButPins

theorem tileEmpty_of_ready {s : State} {w n : Nat} (h : s.tileReady w n = true) : s.tileEmpty w n = false := by
  simp only [tileReady, Bool.and_eq_true] at h
  obtain ⟨⟨full, -⟩, -⟩ := h
  simp only [tileEmpty, full, Bool.not_true, Bool.false_and]

theorem sameButPins_pin (s : State) (w t : Nat) : SameButPins s (s.modTile w t fun x => { x with pin := x.pin + 1 }) := by
  have h := tilesOnly_modTile s w t fun x => { x with pin := x.pin + 1 }
  refine ⟨fun p => congrArg Thread.wg (thread_of_threads h.threads p), h.tiles, fun j n => ?_⟩
  rw [tileOf_modTile]
  split
  · rename_i e
    obtain ⟨rfl, rfl⟩ := e
    rfl
  · rfl

theorem sameButPins_status (s : State) (t : Nat) (d : Reg) (k : Nat) : SameButPins s (s.status t d k) := by
  have hw := (threadsOnly_status s t d k).wgs
  refine ⟨fun p => ?_, fun w => by simp only [wg, hw], fun w n => by simp only [tileOf, wg, hw]⟩
  obtain ⟨g, c, e⟩ := thread_status s t d k p
  rw [e]

/-! ### One participant's own request (R149) -/

/-- The request that a participant posts. -/
def ownReq (s : State) (t : Nat) (op : EngOp) : EngEnt :=
  { id := s.fresh, op, ctx := s.ctxOf t, wg := (s.thread t).wg, signers := [t], collective := false, bar := 0
    prio := (s.wg (s.thread t).wg).prio, since := s.cyc, granted := false, readyAt := none, chained := false, pass := 0
    srcs := allTiles op.sources, dsts := [], image := [] }

/-- What it is once posted. -/
def ownEntry (s : State) (t : Nat) (op : EngOp) : EngEnt := { s with fresh := s.fresh + 1 }.entered 0 (s.ownReq t op)

/-- A participant's TL counter, raised if its instruction stands on TL. -/
def countOwn (s : State) (tl : Bool) (t : Nat) : State := if tl then s.modThread t fun x => x.count .tl else s

/-- A participant has posted, and its status is 0. -/
def posted (s : State) (d : Reg) (tl : Bool) (t : Nat) (op : EngOp) : State := ((s.countOwn tl t).postOwn t op).status t d 0

theorem ownOne_post {req : State → State → Nat → OwnReq} {r s : State} {t : Nat} {op : EngOp} (h : req r s t = .post op)
    (hroom : (s.quad (coreQuad (tidCore t))).table.length < 32) (d : Reg) (tl : Bool) :
    ownOne req d tl r s t = (s.posted d tl t op, true) := by
  simp only [ownOne, h, if_neg (Nat.not_le.mpr hroom)]
  rfl

theorem postOwn_eq (s : State) (t : Nat) (op : EngOp) : s.postOwn t op =
    ({ s with fresh := s.fresh + 1 }.pinTiles (s.ownReq t op)).modQuad (coreQuad (tidCore t)) (takeEntry (s.ownEntry t op)) :=
  enter_eq _ _ _ _

section
variable (s : State) (tl : Bool) (t : Nat) (op : EngOp)

theorem threadsOnly_countOwn : ThreadsOnly s (s.countOwn tl t) := by
  unfold countOwn
  split <;> rfl

theorem thread_countOwn (p : Nat) :
    (s.countOwn tl t).thread p = { s.thread p with tl := (s.thread p).tl + if p = t then tl.toNat else 0 } := by
  cases tl with
  | false => simp [countOwn]
  | true =>
    rw [countOwn, if_pos rfl, modThread, thread_setThread]
    by_cases h : p = t
    · rw [if_pos h, if_pos h, h]
      rfl
    · rw [if_neg h, if_neg h]
      rfl

theorem rd_countOwn (p : Nat) (r : Reg) : (s.countOwn tl t).rd p r = s.rd p r := by
  unfold countOwn
  split
  · exact rd_modThread (f := fun x => x.count .tl) (fun _ => rfl) s t p r
  · rfl

theorem tilesOnly_pinOwn : TilesOnly { s with fresh := s.fresh + 1 } ({ s with fresh := s.fresh + 1 }.pinTiles (s.ownReq t op)) :=
  tilesOnly_pinTiles _ _

theorem thread_postOwn (p : Nat) : (s.postOwn t op).thread p = s.thread p := by
  rw [postOwn_eq, modQuad, thread_setQuad]
  exact thread_of_threads (tilesOnly_pinOwn s t op).threads p

theorem quad_postOwn : (s.postOwn t op).quad (coreQuad (tidCore t)) =
    takeEntry (s.ownEntry t op) (s.quad (coreQuad (tidCore t))) :=
  quad_enter _ _ _ _

theorem rd_postOwn (p : Nat) (r : Reg) : (s.postOwn t op).rd p r = s.rd p r := by
  have h := tilesOnly_pinOwn s t op
  rw [postOwn_eq]
  exact rd_of_files h.threads h.flocks p r

theorem sameButPins_postOwn : SameButPins s (s.postOwn t op) := by
  have pinned : SameButPins { s with fresh := s.fresh + 1 } ({ s with fresh := s.fresh + 1 }.pinTiles (s.ownReq t op)) :=
    List.foldlRecOn (allTiles op.sources) _ (motive := SameButPins { s with fresh := s.fresh + 1 }) (.refl _)
      fun u hu n _ => hu.trans (sameButPins_pin u _ n)
  rw [postOwn_eq]
  exact ⟨pinned.wg, pinned.tiles, pinned.tile⟩

theorem cur_postOwn : (s.postOwn t op).cur = s.cur := by
  rw [postOwn_eq]
  exact (tilesOnly_pinOwn s t op).cur

end

/-! ### Participants that post one after another (R149, R150) -/

theorem length_postEntry (l : List EngEnt) (e : EngEnt) : (postEntry l e).length = l.length + 1 := by
  simp only [postEntry, List.length_append, List.length_take, List.length_singleton, List.length_drop]
  omega

/-- The participants `ps` have posted the entries `es` to a quad's table, each counted on TL if `tl`, and written 0 to the
register `dst` of each; tiles stand but for their pins. -/
structure Posted (s u : State) (q : Nat) (ps : List Nat) (op : Nat → EngOp) (dst : Nat → Reg) (tl : Bool) (es : List EngEnt) :
    Prop where
  mem : u.mem = s.mem
  table : (u.quad q).table = es.foldl postEntry (s.quad q).table
  ops : es.map (·.op) = ps.map op
  signers : es.map (·.signers) = ps.map fun p => [p]
  tl : ∀ p, (u.thread p).tl = (s.thread p).tl + if p ∈ ps then tl.toNat else 0
  rd : ∀ p r, u.rd p r = if r ≠ .zero ∧ ∃ a ∈ ps, regCell p r = regCell a (dst a) then 0 else s.rd p r
  pins : SameButPins s u

section
variable {s u v : State} {q t : Nat} {ps : List Nat} {op : Nat → EngOp} {dst : Nat → Reg} {tl : Bool} {e : EngEnt}
  {es : List EngEnt}

theorem Posted.nil (s : State) (q : Nat) (op : Nat → EngOp) (dst : Nat → Reg) (tl : Bool) : Posted s s q [] op dst tl [] :=
  ⟨rfl, rfl, rfl, rfl, fun _ => rfl, fun p r => by simp, .refl s⟩

theorem Posted.cons (a : Posted s u q [t] op dst tl [e]) (b : Posted u v q ps op dst tl es) (ht : t ∉ ps) :
    Posted s v q (t :: ps) op dst tl (e :: es) where
  mem := b.mem.trans a.mem
  table := by rw [b.table, a.table]; rfl
  ops := by rw [List.map_cons, List.map_cons, b.ops, ← (List.cons.inj a.ops).1]
  signers := by rw [List.map_cons, List.map_cons, b.signers]; exact congrArg (· :: _) (List.cons.inj a.signers).1
  tl p := by
    rw [b.tl, a.tl]
    by_cases hp : p = t
    · simp [hp, ht]
    · simp [hp]
  rd p r := by
    rw [b.rd, a.rd]
    by_cases hz : r = .zero
    · simp [hz]
    · by_cases hps : ∃ a ∈ ps, regCell p r = regCell a (dst a)
      · simp [hz, hps]
      · simp [hz, hps]
  pins := a.pins.trans b.pins

/-- A participant that has done its part is noted in the current group (notes/assumptions/63.md). -/
def noted (s : State) (t : Nat) : State := { s with cur := s.cur.map fun g => { g with part := g.part ++ [t] } }

theorem Posted.noted (h : Posted s u q ps op dst tl es) (t : Nat) : Posted s (u.noted t) q ps op dst tl es :=
  ⟨h.mem, h.table, h.ops, h.signers, h.tl, h.rd, ⟨h.pins.wg, h.pins.tiles, h.pins.tile⟩⟩

theorem posted_one (s : State) (tl : Bool) (t : Nat) (op : Nat → EngOp) (dst : Nat → Reg) :
    Posted s (s.posted (dst t) tl t (op t)) (coreQuad (tidCore t)) [t] op dst tl [(s.countOwn tl t).ownEntry t (op t)] := by
  have hc := threadsOnly_countOwn s tl t
  have hs := threadsOnly_status ((s.countOwn tl t).postOwn t (op t)) t (dst t) 0
  refine ⟨?mem, ?table, rfl, rfl, fun p => ?tl, fun p r => ?rd, ?pins⟩
  case mem => exact hs.mem.trans ((mem_enter ..).trans hc.mem)
  case table =>
    rw [posted, quad_of_quads hs.quads, quad_postOwn, quad_of_quads hc.quads]
    rfl
  case tl =>
    obtain ⟨g, c, he⟩ := thread_status ((s.countOwn tl t).postOwn t (op t)) t (dst t) 0 p
    rw [posted, he, thread_postOwn, thread_countOwn]
    simp only [List.mem_singleton]
  case rd =>
    rw [posted, rd_status, rd_postOwn, rd_countOwn]
    simp
  case pins =>
    have counted : SameButPins s (s.countOwn tl t) := by
      refine ⟨fun p => by rw [thread_countOwn], fun w => ?_, fun w n => ?_⟩
      · rw [wg, hc.wgs, ← wg]
      · rw [tileOf, wg, hc.wgs, ← wg, ← tileOf]
    exact (counted.trans (sameButPins_postOwn _ t (op t))).trans (sameButPins_status _ t (dst t) 0)

theorem cur_posted (s : State) (d : Reg) (tl : Bool) (t : Nat) (o : EngOp) : (s.posted d tl t o).cur = s.cur :=
  (threadsOnly_status _ t d 0).cur.trans ((cur_postOwn _ t o).trans (threadsOnly_countOwn s tl t).cur)

/-- Participants of one quad whose requests form whatever the others have posted, and for whom its table has room, all
post. -/
theorem allDone_posted {r : State} {req : State → State → Nat → OwnReq} (ps : List Nat) : ∀ {s : State} {g : Group},
    s.cur = some g → (∀ p ∈ ps, p ∈ g.members ∧ p ∉ g.part) → ps.Nodup → (∀ p ∈ ps, coreQuad (tidCore p) = q) →
    (s.quad q).table.length + ps.length ≤ 32 → (∀ p ∈ ps, ∀ u, SameButPins s u → req r u p = .post (op p)) →
    ∃ u es, AllDone (fun v p => ownOne req (dst p) tl r v p) ps s u ∧ Posted s u q ps op dst tl es := by
  induction ps with
  | nil => exact fun _ _ _ _ _ _ => ⟨_, [], rfl, .nil ..⟩
  | cons t ps ih =>
    intro s g hcur hstand hnodup hquad hroom hreq
    obtain ⟨htps, hnodup⟩ := List.nodup_cons.mp hnodup
    obtain ⟨hmem, hpart⟩ := hstand t (List.mem_cons_self ..)
    have hq : coreQuad (tidCore t) = q := hquad t (List.mem_cons_self ..)
    have hone : Posted s ((s.posted (dst t) tl t (op t)).noted t) q [t] op dst tl [(s.countOwn tl t).ownEntry t (op t)] := by
      have h := (posted_one s tl t op dst).noted t
      rwa [hq] at h
    have hlen : (((s.posted (dst t) tl t (op t)).noted t).quad q).table.length = (s.quad q).table.length + 1 := by
      rw [hone.table]
      exact length_postEntry _ _
    have hcur' : ((s.posted (dst t) tl t (op t)).noted t).cur = some { g with part := g.part ++ [t] } := by
      rw [State.noted, cur_posted, hcur]
      rfl
    have hstand' : ∀ p ∈ ps, p ∈ g.members ∧ p ∉ g.part ++ [t] := fun p hp => by
      obtain ⟨hm, hn⟩ := hstand p (List.mem_cons_of_mem _ hp)
      have hne : p ≠ t := fun e => htps (e ▸ hp)
      exact ⟨hm, by simp [hn, hne]⟩
    rw [List.length_cons] at hroom
    obtain ⟨u, es, hdone, hposted⟩ := ih hcur' hstand' hnodup (fun p hp => hquad p (List.mem_cons_of_mem _ hp)) (by omega)
      (fun p hp v hv => hreq p (List.mem_cons_of_mem _ hp) v (hone.pins.trans hv))
    have hpost := ownOne_post (hreq t (List.mem_cons_self ..) s (.refl s)) (by rw [hq]; omega) (dst t) tl
    exact ⟨u, _, ⟨g, hcur, .inr ⟨hmem, hpart, _, hpost, hdone⟩⟩, hone.cons hposted htps⟩

end

/-! ### The instructions -/

section
variable {s : State} {g : Group} {i : Instr} {req : State → State → Nat → OwnReq} {d : Reg} {tl : Bool}

/-- R149: an instruction that posts for each participant completes once each has had room. -/
theorem own_completes (hx : exec i s = .next (s.issue i fun _ ps s => ownAll req d tl ps s)) :
    EachCompletes s g i fun ps v t => ownOne req (statusReg d ps t) tl s v t := by
  intro u h hd
  rw [hx, issue_clear h]
  exact congrArg Host.Outcome.next (eachOwn_done hd)

/-- R29: each participant's status register reads what is written there: a w register is written by the lowest participant
alone, and all of them share it. -/
theorem statusReg_cell (h : Clear s g i) (hw : d.isW = true → instrUsesWK i = true) {p : Nat} (hp : p ∈ s.participants g i) :
    ∃ a ∈ s.participants g i, regCell p d = regCell a (statusReg d (s.participants g i) a) := by
  cases d with
  | zero => exact ⟨p, hp, by simp [statusReg, dstFor, Reg.isW]⟩
  | g n => exact ⟨p, hp, by simp [statusReg, dstFor, Reg.isW]⟩
  | w n =>
    obtain ⟨a, ps, hps⟩ := List.exists_cons_of_ne_nil (List.ne_nil_of_mem hp)
    have ha : a ∈ s.participants g i := hps ▸ List.mem_cons_self ..
    have same := h.flock (h.fu (hw rfl)) p (participants_sub hp) a (participants_sub ha)
    exact ⟨a, ha, by simp [statusReg, dstFor, hps, regCell, same]⟩

/-- R149, R150: where no request changes what another comes to, all are posted in ascending lane order. -/
theorem postsOwn_of {op : Nat → EngOp} (tl : Bool) (hx : exec i s = .next (s.issue i fun _ ps s => ownAll req d tl ps s))
    (hw : d.isW = true → instrUsesWK i = true)
    (hreq : ∀ p ∈ s.participants g i, ∀ u, SameButPins s u → req s u p = .post (op p)) : PostsOwn s g i d tl.toNat op := by
  intro q h hpart hquad hroom
  obtain ⟨u, es, hdone, hp⟩ := allDone_posted (dst := statusReg d (s.participants g i)) (tl := tl) _ h.cur
    (fun p hp => ⟨participants_sub hp, by rw [hpart]; exact List.not_mem_nil⟩) (participants_nodup i h.distinct) hquad hroom hreq
  have hadv := same_advance u
  have hrest := hadv.kept.rest
  refine ⟨u.advance, es, own_completes hx u h hdone, ?mem, ?table, hp.ops, hp.signers, fun p hps => ⟨?tl, ?rd⟩⟩
  case mem => exact (congrArg State.mem hrest).trans hp.mem
  case table =>
    have hquads := congrArg State.quads hrest
    rw [quad_of_quads (u := u.advance) hquads, hp.table]
  case tl => rw [show (u.advance.thread p).tl = (u.thread p).tl from ctr_kept hadv.kept p .tl, hp.tl, if_pos hps]
  case rd =>
    rw [hadv.rd, hp.rd]
    by_cases hz : d = .zero
    · simp [hz]
    · rw [if_pos ⟨hz, statusReg_cell h hw hps⟩]

/-- R145: a collective of a group of which no member has acted yet is signed by each participant in turn, and where e is 0
withdrawn again (notes/assumptions/20.md). -/
theorem signs_completes {op : State → Nat → EngOp} {bar : Bar} {e : TExp} (hpart : g.part = [])
    (hx : exec i s = .next (s.issue i (signAll op bar d e))) :
    let ps := s.participants g i
    let v := ps.foldl (fun v p => v.signOne (op s p) bar (statusReg d ps p) e p) s
    Completes s g i (if e ≠ 0 then v
      else ps.foldl (fun v p => if (v.thread p).wait.isSome then (v.withdrawSign p).endWait p 1 else v) v).goOn := by
  refine completes_of hx ?_
  have hps : (s.participants g i).filter (fun t => !g.part.contains t) = s.participants g i := by simp [hpart]
  simp only [signAll, hps]
  by_cases he : e = 0
  · simp [he]
  · simp only [ne_eq, he, not_false_eq_true, if_true, Fin.val_eq_zero_iff]

/-! ### What each request comes to (R160, R162) -/

theorem macwReq_post {x : DA} {u : State} {t : Nat} (hu : SameButPins s u) (hr : (EngOp.macw (s.rd t x.a)).rowsOk = true)
    (hp : s.pastTiles (s.thread t).wg (EngOp.macw (s.rd t x.a)).sources = false)
    (hready : (allTiles (EngOp.macw (s.rd t x.a)).sources).all (s.tileReady (s.thread t).wg) = true) :
    macwReq x s u t = .post (.macw (s.rd t x.a)) := by
  have ready : ∀ n ∈ allTiles (EngOp.macw (s.rd t x.a)).sources, u.tileReady (s.thread t).wg n = true := fun n hn =>
    (hu.tileReady _ n).trans (List.all_eq_true.mp hready n hn)
  have full : (allTiles (EngOp.macw (s.rd t x.a)).sources).any (u.tileEmpty (s.thread t).wg) = false :=
    List.any_eq_false.mpr fun n hn => by rw [tileEmpty_of_ready (ready n hn)]; exact Bool.false_ne_true
  simp only [macwReq, hu.wg, hr, hu.pastTiles, hp, full, List.all_eq_true.mpr ready, Bool.not_true, Bool.false_eq_true, if_false]

theorem maczReq_post {x : DA} {u : State} {t : Nat} (hr : (EngOp.macz (s.rd t x.a)).rowsOk = true) :
    maczReq x s u t = .post (.macz (s.rd t x.a)) := by
  simp only [maczReq, hr, if_true]

theorem mnbrReq_post {x : DAB} {u : State} {t : Nat} (hf : fwValid (s.rd t x.b) = true)
    (hr : roleOk (coreQuad (tidCore t)) ((s.rd t x.a).toNat % 16) = true) :
    mnbrReq x s u t = .post (.mnbr (s.rd t x.b) (s.rd t x.a)) := by
  simp only [mnbrReq, hf, hr, Bool.not_true, Bool.false_eq_true, if_false]

end

/-! ### One signature (R143, R145) -/

theorem noteSpill_keeps (s : State) (c : Nat) : (s.noteSpill c).threads = s.threads ∧ (s.noteSpill c).mem = s.mem := ⟨rfl, rfl⟩

/-- R396: making an entry resident changes no thread and no memory. -/
theorem needBar_keeps {s u : State} {k : Nat} (h : s.needBar k = some u) : u.threads = s.threads ∧ u.mem = s.mem := by
  unfold needBar at h
  dsimp only at h
  split at h
  · cases h
    exact ⟨rfl, rfl⟩
  · split at h
    · cases h
      exact ⟨rfl, rfl⟩
    · split at h
      · cases h
      · cases h
        exact noteSpill_keeps _ _

section
variable {s u : State} {t k : Nat} {op : EngOp} {bar : Bar} (d : Reg) (e : TExp)

/-- R145: the state in which a thread waits on its signature, counted on TL. -/
def waitSigned (u : State) (t k : Nat) (op : EngOp) (d : Reg) (e : TExp) : State :=
  (u.startWait t (.sign k op) d e).modThread t fun x => x.count .tl

theorem signOne_reads (hst : s.stands t = true) (hf : fwValid (op.fw.getD 0) = true) (hr : op.rowsOk = true)
    (hp : s.pastTiles (s.thread t).wg (op.sources ++ op.dests) = false) (hu : s.needBar (s.barKey t bar) = some u) :
    s.signOne op bar d e t =
      if (u.bar (s.barKey t bar)).count = 0 || (!(u.bar (s.barKey t bar)).sig && decide (0 < (u.bar (s.barKey t bar)).n))
      then u.status t d 2 else (u.waitSigned t (s.barKey t bar) op d e).addSign (s.barKey t bar) t := by
  simp only [signOne, hst, hf, hr, hp, hu, Bool.not_true, Bool.false_eq_true, if_false]
  rfl

/-- A signature that its phase still lacks others after forms nothing. -/
theorem addSign_more (hn : (u.bar k).n + 1 < (u.bar k).count) : u.addSign k t =
    u.setBar k { u.bar k with n := (u.bar k).n + 1, sig := true, signers := (u.bar k).signers ++ [t] } := by
  have short : ¬ (u.bar k).count ≤ (u.bar k).n + 1 := by omega
  simp only [addSign, settleSigns, bar_setBar, short, and_false, if_false]

theorem waitSigned_thread (u : State) (t k : Nat) (op : EngOp) : ((u.waitSigned t k op d e).thread t).st = .blocked ∧
    ((u.waitSigned t k op d e).thread t).tl = (u.thread t).tl + 1 ∧
    ((u.waitSigned t k op d e).thread t).wait.map (·.kind) = some (.sign k op) := by
  simp only [waitSigned, startWait, thread_modThread, Thread.count, Option.map_some, and_self]

end

end Sys2Proof.Machine.State

namespace Sys2Proof

open Sys2Proof.Machine State

theorem matrixIssue : MatrixIssue := by
  intro s g hpart
  refine ⟨fun x => ⟨?mlds, ?mma, ?macr⟩, fun x => own_completes rfl,
    fun x => ⟨own_completes rfl, own_completes rfl⟩, fun x => own_completes rfl,
    fun x => ?mswp, fun x => ⟨fun hreq => ?macw, fun hreq => ?macz⟩, fun x hreq => ?mnbr, fun x => ⟨?mstat, ?tags⟩⟩
  case mlds => exact signs_completes (op := fun v p => .mlds (v.rd p x.fw) (v.rd p x.ctl)) hpart rfl
  case mma => exact signs_completes (op := fun v p => .mma (v.rd p x.fw) (v.rd64 p x.ctl)) hpart rfl
  case macr => exact signs_completes (op := fun v p => .macr (v.rd p x.fw) (v.rd p x.ctl)) hpart rfl
  case mswp => exact postsOwn_of false rfl (fun h => absurd h Bool.false_ne_true) fun _ _ _ _ => rfl
  case macw =>
    refine postsOwn_of true rfl (usesWK_of_write (List.mem_singleton_self (x.d, 1))) fun p hp u hu => ?_
    obtain ⟨hr, hpast, hready⟩ := hreq p hp
    exact macwReq_post hu hr hpast hready
  case macz =>
    exact postsOwn_of true rfl (usesWK_of_write (List.mem_singleton_self (x.d, 1))) fun p hp u _ => maczReq_post (hreq p hp)
  case mnbr =>
    refine postsOwn_of false rfl (usesWK_of_write (List.mem_singleton_self (x.d, 1))) fun p hp u _ => ?_
    obtain ⟨hf, hr⟩ := hreq p hp
    exact mnbrReq_post hf hr
  case mstat =>
    exact computes_reg (n := 1) (f := fun s _ t => .reg x.d 1 (mstatWord s (coreQuad (tidCore t))) 0) (fun _ => rfl) rfl rfl
  case tags =>
    exact computes_reg (n := 1) (f := fun s _ t => .reg x.d 1 (mstatTags s (coreQuad (tidCore t))) 0) (fun _ => rfl) rfl rfl

theorem engineRequests : EngineRequests := by
  intro s t
  refine ⟨fun op bar d e u hst hf hr hp hu => ⟨fun hno => ?refused, fun hn hsig => ?signed⟩,
    fun r req d tl op hreq hroom => ?post, fun r req d tl k hreq => ?status⟩
  case refused =>
    rw [signOne_reads d e hst hf hr hp hu, if_pos (by simpa using hno)]
  case signed =>
    obtain ⟨hth, hmem⟩ := needBar_keeps hu
    have may : ¬ ((u.bar (s.barKey t bar)).count = 0 ||
        (!(u.bar (s.barKey t bar)).sig && decide (0 < (u.bar (s.barKey t bar)).n))) = true := by
      have : (u.bar (s.barKey t bar)).count ≠ 0 := by omega
      rcases hsig with h | h <;> simp [this, h]
    obtain ⟨hblocked, htl, hkind⟩ := waitSigned_thread d e u t (s.barKey t bar) op
    rw [signOne_reads d e hst hf hr hp hu, if_neg may, addSign_more (u := u.waitSigned t (s.barKey t bar) op d e) hn]
    exact ⟨bar_setBar .., hblocked, htl.trans (by rw [thread_of_threads hth]), hkind, hmem⟩
  case post =>
    have h := posted_one s tl t (fun _ => op) fun _ => d
    exact ⟨_, _, ownOne_post hreq hroom d tl, h.table, rfl, rfl, rfl, rfl, h.mem, by rw [h.tl]; cases tl <;> simp⟩
  case status =>
    simp only [ownOne, hreq]

/-- Settles O27: `MatrixIssue`, by each participant's post in turn, and `EngineRequests`, of one participant. -/
theorem matrixInstructions : Obligations.MatrixInstructions := ⟨matrixIssue, engineRequests⟩

end Sys2Proof
end


section
/-!
PROOFS. What the loss of an access (R199) and a flit's leaving (R240) change: the layer that the memory model's events and
instructions rest on.
-/

namespace Sys2Proof.Machine.State

open Sys2Proof

/-! ### Cores -/

theorem core_of_cores {s u : State} (h : u.cores = s.cores) (c : Nat) : u.core c = s.core c := by
  simp only [core, h]

theorem core_modCore (s : State) (c : Nat) (f : Core → Core) : (s.modCore c f).core c = f (s.core c) := by
  rw [modCore, core_setCore, if_pos rfl]

/-- What a change of one core leaves of every core. -/
theorem core_modCore_keeps {α : Type} {s : State} {c : Nat} {f : Core → Core} {P : Core → α} (hf : ∀ k, P (f k) = P k) (j : Nat) :
    P ((s.modCore c f).core j) = P (s.core j) := by
  rw [modCore, core_setCore]
  split
  · rename_i e
    rw [hf, e]
  · rfl

theorem core_tmap (s : State) {f : Core → Core} (hf : f .idle = .idle) (c : Nat) :
    { s with cores := tmap s.cores f }.core c = f (s.core c) := by
  simp only [core, tget_tmap]
  cases tget s.cores c <;> simp [hf]

/-! ### Counters and registers of a thread -/

theorem threadsOnly_modThread (s : State) (t : Nat) (f : Thread → Thread) : ThreadsOnly s (s.modThread t f) := rfl

theorem threadsOnly_wrD (s : State) (t : Nat) (d : Reg) (k v : Nat) : ThreadsOnly s (s.wrD t d k v) :=
  (ThreadsOnly.foldl (fun u _ => threadsOnly_wr u t _ _) _ s).trans (threadsOnly_cleanRegs _ t _)

theorem rd_wrD (s : State) (t : Nat) (d : Reg) (k v p : Nat) (r : Reg) : (s.wrD t d k v).rd p r = (s.wrGroup t d v k).rd p r := by
  rw [wrD, rd_cleanRegs, wrN_eq_wrGroup]

/-- A destination of a load or a wait holds what was written to it. -/
theorem rdN_wrD {s : State} {d : Reg} {k : Nat} (hd : d ≠ .zero) (hf : d.fits k) (t v : Nat) :
    (s.wrD t d k v).rdN t d k = v % 2 ^ (32 * k) := by
  rw [rdN_congr (rd_wrD s t d k v t), rdN_wrGroup hd hf]

/-- Writing a destination changes no more of a thread than `Kept` lets change. -/
theorem thread_wrD (s : State) (t : Nat) (d : Reg) (k v p : Nat) : (s.wrD t d k v).thread p = (s.wrGroup t d v k).thread p := by
  rw [wrD, thread_cleanRegs, wrN_eq_wrGroup]

theorem ctr_wrD (s : State) (t : Nat) (d : Reg) (k v p : Nat) (c : Ctr) :
    ((s.wrD t d k v).thread p).ctr c = (s.thread p).ctr c := by
  rw [thread_wrD, ctr_kept (kept_wrGroup s t d v k)]

theorem errs_wrD (s : State) (t : Nat) (d : Reg) (k v p : Nat) : ((s.wrD t d k v).thread p).errs = (s.thread p).errs := by
  rw [thread_wrD]
  have e := congrArg Thread.errs ((kept_wrGroup s t d v k).thread p)
  exact e

theorem hasThread_wrD {s : State} {p : Nat} (h : s.hasThread p = true) (t : Nat) (d : Reg) (k v : Nat) :
    (s.wrD t d k v).hasThread p = true := by
  have hc : (s.wrD t d k v).threads = (s.wrGroup t d v k).threads := by
    rw [wrD, wrN_eq_wrGroup]
    unfold cleanRegs
    split <;> rfl
  rw [hasThread, hc]
  exact hasThread_wrGroup h d v k

/-! ### The loss of an access (R199) -/

/-- Nothing changed but threads, flocks' registers, poison, meters, outstanding accesses, L1 lines and the next identity. -/
structure LossOnly (s u : State) : Prop where
  rest : { u with threads := s.threads, flocks := s.flocks, poison := s.poison, meters := s.meters, accs := s.accs
                  cores := s.cores, fresh := s.fresh } = s
  core : ∀ c, { u.core c with l1 := (s.core c).l1 } = s.core c

namespace LossOnly

variable {s u v : State}

theorem refl (s : State) : LossOnly s s := ⟨rfl, fun _ => rfl⟩

theorem trans (a : LossOnly s u) (b : LossOnly u v) : LossOnly s v where
  rest := by
    have h := congrArg (fun x : State =>
      { x with threads := s.threads, flocks := s.flocks, poison := s.poison, meters := s.meters, accs := s.accs
               cores := s.cores, fresh := s.fresh }) b.rest
    exact h.trans a.rest
  core c := by
    have h := congrArg (fun x : Core => { x with l1 := (s.core c).l1 }) (b.core c)
    exact h.trans (a.core c)

theorem of_threadsOnly (h : ThreadsOnly s u) : LossOnly s u where
  rest := by
    have e := congrArg (fun x : State => { x with
      meters := s.meters, accs := s.accs, cores := s.cores, fresh := s.fresh }) h
    exact e
  core c := by rw [core_of_cores h.cores]

theorem foldl {α : Type} {f : State → α → State} (h : ∀ u a, LossOnly u (f u a)) (l : List α) (s : State) :
    LossOnly s (l.foldl f s) :=
  List.foldlRecOn l f (motive := LossOnly s) (refl s) fun u hu a _ => hu.trans (h u a)

theorem mem (h : LossOnly s u) : u.mem = s.mem := by
  have e := congrArg State.mem h.rest
  exact e

theorem ords (h : LossOnly s u) : u.ords = s.ords := by
  have e := congrArg State.ords h.rest
  exact e

theorem vds (h : LossOnly s u) : u.vds = s.vds := by
  have e := congrArg State.vds h.rest
  exact e

theorem wcb (h : LossOnly s u) (c : Nat) : (u.core c).wcb = (s.core c).wcb := by
  have e := congrArg Core.wcb (h.core c)
  exact e

end LossOnly

section
variable (s : State) (a : Access)

theorem threadsOnly_fall : ThreadsOnly s (s.fall a) := by
  unfold fall
  split
  · exact .refl s
  · refine ThreadsOnly.foldl (fun u t => ?_) a.tids s
    split
    · exact threadsOnly_modThread u t _
    · exact .refl u

theorem threadsOnly_deliver (v : Nat) : ThreadsOnly s (s.deliver a v) := by
  unfold deliver
  split
  · exact .refl s
  · split
    · exact threadsOnly_wrD s _ _ _ v
    · exact .refl s

theorem threadsOnly_wakeReply : ThreadsOnly s (s.wakeReply a) := by
  refine ThreadsOnly.foldl (fun u t => ?_) a.tids s
  split
  · split
    · exact threadsOnly_modThread u t _
    · exact .refl u
  · exact .refl u

theorem ctxFault_meters (c code : Nat) : ∃ m, s.ctxFault c code = { s with meters := m } := by
  unfold ctxFault ctxError bump
  exact ⟨_, rfl⟩

theorem lossOnly_ctxFault (c code : Nat) : LossOnly s (s.ctxFault c code) := by
  obtain ⟨m, e⟩ := ctxFault_meters s c code
  rw [e]
  exact ⟨rfl, fun _ => rfl⟩

theorem ctxFault_threads (c code : Nat) : (s.ctxFault c code).threads = s.threads := by
  obtain ⟨m, e⟩ := ctxFault_meters s c code
  rw [e]

theorem lossOnly_dropL1 (c line : Nat) : LossOnly s (s.dropL1 c line) := by
  refine ⟨rfl, fun j => ?_⟩
  rw [dropL1, modCore, core_setCore]
  split
  · rename_i e
    rw [e]
  · rfl

theorem lossOnly_deferAll (code onode oport : Nat) (again : Bool) (op : Option Nat) :
    LossOnly s (s.deferAll a code onode oport again op) := by
  refine LossOnly.foldl (fun u x => ?_) _ s
  dsimp only [newId]
  split <;> exact ⟨rfl, fun _ => rfl⟩

/-- The package once a lost access has left it, its counter has fallen and its loss is counted; its destination and its thread's
deferred error are still to come. -/
def lost (code : Nat) : State :=
  let s := s.withoutAcc a.id
  let s := if a.op.isLoad then s else s.dropL1 a.core (a.pa / 128)
  ((s.fall a).ctxFault a.ctx code).wakeReply a

theorem lossOnly_lost (code : Nat) : LossOnly s (s.lost a code) := by
  have hdrop : LossOnly s (if a.op.isLoad then s.withoutAcc a.id else (s.withoutAcc a.id).dropL1 a.core (a.pa / 128)) := by
    have hacc : LossOnly s (s.withoutAcc a.id) := ⟨rfl, fun _ => rfl⟩
    split
    · exact hacc
    · exact hacc.trans (lossOnly_dropL1 _ _ _)
  exact ((hdrop.trans (.of_threadsOnly (threadsOnly_fall _ a))).trans (lossOnly_ctxFault _ a.ctx code)).trans
    (.of_threadsOnly (threadsOnly_wakeReply _ a))

/-- R199: an STBQ that is lost reports it through its status. -/
theorem failAccess_stbq {z : Size} {d : Nat} (hop : a.op = .stbq z d) (code : Nat) :
    s.failAccess a code = (s.lost a code).deliver a 3 := by
  unfold failAccess
  rw [hop]
  simp only [lost, hop]
  rfl

/-- R199: any other lost access defers an error, and, one that fetches, delivers 0. -/
theorem failAccess_defers (hst : ∀ z d, a.op ≠ .stbq z d) (code : Nat) : s.failAccess a code =
    (if a.op.isLoad then (s.lost a code).deliver a 0 else s.lost a code).deferAll a code 0 0 true none := by
  unfold failAccess
  cases hop : a.op with
  | stbq z d => exact absurd hop (hst z d)
  | load | store | atom | red | cas | penq => simp only [lost, hop]; rfl

theorem lossOnly_failAccess (code : Nat) : LossOnly s (s.failAccess a code) := by
  by_cases hst : ∃ z d, a.op = .stbq z d
  · obtain ⟨z, d, hop⟩ := hst
    rw [failAccess_stbq s a hop]
    exact (lossOnly_lost s a code).trans (.of_threadsOnly (threadsOnly_deliver _ a 3))
  · rw [failAccess_defers s a (fun z d h => hst ⟨z, d, h⟩)]
    refine LossOnly.trans ?_ (lossOnly_deferAll _ a _ _ _ _ _)
    split
    · exact (lossOnly_lost s a code).trans (.of_threadsOnly (threadsOnly_deliver _ a 0))
    · exact lossOnly_lost s a code

theorem lossOnly_failAll (code : Nat) (l : List Access) : LossOnly s (l.foldl (fun s a => s.failAccess a code) s) :=
  LossOnly.foldl (fun u a => lossOnly_failAccess u a code) l s

end

/-! ### What one thread sees of a lost access -/

section
variable {s : State} {a : Access} {p : Nat}

theorem ctr_modThread_keeps {f : Thread → Thread} {c : Ctr} (hf : ∀ x, (f x).ctr c = x.ctr c) (s : State) (t j : Nat) :
    ((s.modThread t f).thread j).ctr c = (s.thread j).ctr c := by
  rw [modThread, thread_setThread]
  split
  · rename_i e
    rw [hf, e]
  · rfl

/-- The end of a wait for a reply changes neither a thread's counters nor its errors. -/
theorem thread_wakeReply (ht : a.tids = [p]) :
    ∃ st w, (s.wakeReply a).thread p = { s.thread p with st := st, wait := w } := by
  rw [wakeReply, ht, List.foldl_cons, List.foldl_nil]
  split
  · split
    · exact ⟨_, _, thread_modThread s p _⟩
    · exact ⟨_, _, rfl⟩
  · exact ⟨_, _, rfl⟩

theorem hasThread_modThread {t : Nat} (h : s.hasThread p = true) (f : Thread → Thread) : (s.modThread t f).hasThread p = true := by
  simp only [hasThread, modThread, setThread_threads, tget_tput]
  split
  · rfl
  · exact h

theorem thread_lost (ht : a.tids = [p]) (hp : s.hasThread p = true) (hcnt : a.op.counted = true) (code : Nat) :
    ∃ st w, (s.lost a code).thread p = { (s.thread p).uncount a.ctr with st := st, wait := w } := by
  have hfall : ∀ u : State, u.threads = s.threads → ((u.fall a).ctxFault a.ctx code).thread p = (s.thread p).uncount a.ctr := by
    intro u hu
    have hp' : u.hasThread p = true := by rw [hasThread, hu]; exact hp
    rw [fall_one ht hp' hcnt, thread_of_threads (ctxFault_threads ..), thread_modThread, thread_of_threads hu]
  unfold lost
  obtain ⟨st, w, e⟩ := thread_wakeReply (s := ((if a.op.isLoad then s.withoutAcc a.id else
    (s.withoutAcc a.id).dropL1 a.core (a.pa / 128)).fall a).ctxFault a.ctx code) ht
  refine ⟨st, w, e.trans ?_⟩
  rw [hfall]
  split <;> rfl

theorem hasThread_lost (ht : a.tids = [p]) (hp : s.hasThread p = true) (hcnt : a.op.counted = true) (code : Nat) :
    (s.lost a code).hasThread p = true := by
  have hfall : ∀ u : State, u.threads = s.threads → ((u.fall a).ctxFault a.ctx code).hasThread p = true := by
    intro u hu
    have hp' : u.hasThread p = true := by rw [hasThread, hu]; exact hp
    rw [fall_one ht hp' hcnt, hasThread, ctxFault_threads]
    exact hasThread_modThread hp' _
  unfold lost wakeReply
  rw [ht, List.foldl_cons, List.foldl_nil]
  have hbase := hfall (if a.op.isLoad then s.withoutAcc a.id else (s.withoutAcc a.id).dropL1 a.core (a.pa / 128))
    (by split <;> rfl)
  split
  · split
    · exact hasThread_modThread hbase _
    · exact hbase
  · exact hbase

theorem deliver_one (ht : a.tids = [p]) (hp : s.hasThread p = true) (v : Nat) : s.deliver a v = s.wrD p a.dst a.grp.2 v := by
  simp only [deliver, ht, hp, if_true]

end

theorem deferAll_one {s : State} {a : Access} {p k : Nat} (ht : a.tids = [p]) (hn : a.nth = [k]) (hp : s.hasThread p = true)
    (hcnt : a.op.counted = true) (code : Nat) :
    ∃ e : DefErr, s.deferAll a code 0 0 true none =
        { s with fresh := s.fresh + 1 }.modThread p (fun t => { t with errs := t.errs ++ [e] }) ∧
      e.code = code ∧ e.addr = a.va ∧ e.apc = a.pc ∧ e.aidx = a.idx ∧ e.nth = k ∧ e.ctr = a.ctr ∧ e.again = some a := by
  have hp' : { s with fresh := s.fresh + 1 }.hasThread p = true := hp
  simp only [deferAll, ht, hn, hcnt, newId, hp', List.zip_cons_cons, List.zip_nil_left, List.foldl_cons, List.foldl_nil,
    Bool.not_true, Bool.false_eq_true, if_false, if_true]
  exact ⟨_, rfl, rfl, rfl, rfl, rfl, rfl, rfl, rfl⟩

/-- R199: what a lost access comes to, for its one thread. -/
theorem failed_failAccess (s : State) (a : Access) (code : Nat) : failed s (s.failAccess a code) a code := by
  refine ⟨(lossOnly_failAccess s a code).mem, fun p k ht hn hp hcnt => ?_⟩
  obtain ⟨st, w, hlost⟩ := thread_lost ht hp hcnt code
  have hlive := hasThread_lost ht hp hcnt code
  have hctr : ((s.lost a code).thread p).ctr a.ctr = (s.thread p).ctr a.ctr - 1 := by
    rw [hlost, ← ctr_uncount]
    cases a.ctr <;> rfl
  have herrs : ((s.lost a code).thread p).errs = (s.thread p).errs := by
    rw [hlost]
    cases a.ctr <;> rfl
  by_cases hst : ∃ z d, a.op = .stbq z d
  · obtain ⟨z, d, hop⟩ := hst
    rw [failAccess_stbq s a hop, deliver_one ht hlive]
    refine ⟨(ctr_wrD ..).trans hctr, fun hd hf _ _ _ => ?_, fun h => absurd hop (h z d)⟩
    have hgrp : a.grp.2 = 1 := by simp only [Access.grp, hop]
    rw [rdN_wrD hd hf, hgrp]
    rfl
  · rw [failAccess_defers s a (fun z d h => hst ⟨z, d, h⟩)]
    have hv : ∃ v, (if a.op.isLoad then (s.lost a code).deliver a 0 else s.lost a code) = v ∧ v.hasThread p = true ∧
        (v.thread p).ctr a.ctr = (s.thread p).ctr a.ctr - 1 ∧ (v.thread p).errs = (s.thread p).errs ∧
        (a.dst ≠ .zero → a.dst.fits a.grp.2 → a.op.isLoad = true → v.rdN p a.dst a.grp.2 = 0) := by
      refine ⟨_, rfl, ?_⟩
      split
      · rw [deliver_one ht hlive]
        refine ⟨hasThread_wrD hlive .., (ctr_wrD ..).trans hctr, (errs_wrD ..).trans herrs, fun hd hf _ => ?_⟩
        rw [rdN_wrD hd hf, Nat.zero_mod]
      · rename_i hl
        exact ⟨hlive, hctr, herrs, fun _ _ h => absurd h hl⟩
    obtain ⟨v, hv, hvlive, hvctr, hverrs, hvdst⟩ := hv
    rw [hv]
    obtain ⟨e, hdefer, he⟩ := deferAll_one ht hn hvlive hcnt code
    rw [hdefer]
    refine ⟨?_, fun _ _ z d h => absurd ⟨z, d, h⟩ hst, fun _ => ⟨fun hd hf hl => ?_, e, ?_, he⟩⟩
    · refine (ctr_modThread_keeps (fun x => ?_) _ _ _).trans hvctr
      cases a.ctr <;> rfl
    · refine (rdN_congr (s := v) (fun r => ?_) _ _).trans (hvdst hd hf hl)
      refine (rd_modThread ?_ _ _ _ r).trans (rd_of_files rfl rfl p r)
      exact fun _ => rfl
    · rw [thread_modThread, ← hverrs]
      rfl

/-- A state that reads like another in memory and threads fails an access alike. -/
theorem failed_of_threads {s u t : State} {a : Access} {code : Nat} (hm : u.mem = s.mem) (ht : u.threads = s.threads)
    (h : failed u t a code) : failed s t a code := by
  simpa only [failed, hm, hasThread, ht, thread_of_threads ht] using h

end Sys2Proof.Machine.State
end

section
/-!
PROOFS. A flit leaves its port or waits there (R228, R240): what of the work it belongs to changes with it.
-/

namespace Sys2Proof.Machine.State

open Sys2Proof

/-! ### A flit leaves, or waits (R240) -/

/-- What a flit with an identity leaves as it is when it goes or waits: memory and registers, and of threads all but the time of
a wait's read, of accesses, ordered operations and buffer entries all but the time at which those with its identity left. -/
structure FlitOnly (id : Nat) (s u : State) : Prop where
  mem : u.mem = s.mem
  flocks : u.flocks = s.flocks
  thread : ∀ t, { u.thread t with wait := (s.thread t).wait } = s.thread t
  accs : u.accs = s.accs ∨ u.accs = s.accs.map fun a => if a.id = id then { a with sent := s.now } else a
  wcb : ∀ c, (u.core c).wcb = (s.core c).wcb ∨
    (u.core c).wcb = (s.core c).wcb.map fun e => if e.id = id then { e with sent := some s.now } else e

/-- The same for a flit of an ordered operation: no access, thread or core changes. -/
structure PacketOnly (id : Nat) (s u : State) : Prop where
  rest : { u with tenants := s.tenants, meters := s.meters, ords := s.ords, outs := s.outs, ports := s.ports, sent := s.sent
                  flitq := s.flitq } = s
  ords : u.ords = s.ords ∨ u.ords = s.ords.map fun o => if o.id = id then { o with left := s.now } else o

theorem sendPacket_rest (s : State) (o : OrdOp) :
    { s.sendPacket o with ords := s.ords, outs := s.outs, ports := s.ports, sent := s.sent } = s := rfl

theorem sendPacket_ords (s : State) (o : OrdOp) :
    (s.sendPacket o).ords = s.ords.map fun x => if x.id = o.id then { x with left := s.now } else x := rfl

section
variable (s : State) (tenant port id : Nat)

theorem packetOnly_flitLeft {o : OrdOp} (h : s.ords.find? (fun o => o.id = id) = some o) : PacketOnly id s (s.flitLeft tenant id) := by
  have hid : o.id = id := by simpa using List.find?_some h
  have e : s.flitLeft tenant id = (s.bump 0 tenant 8 256).sendPacket o := by
    have h' : (s.bump 0 tenant 8 256).ords.find? (fun o => o.id = id) = some o := h
    simp only [flitLeft, h']
  have hrest := congrArg (fun x : State => { x with meters := s.meters }) (sendPacket_rest (s.bump 0 tenant 8 256) o)
  have hords := sendPacket_ords (s.bump 0 tenant 8 256) o
  rw [hid] at hords
  rw [e]
  exact ⟨hrest, .inr hords⟩

/-- A flit of an ordered operation leaves with its packet, or waits. -/
theorem packetOnly_sendFlit {o : OrdOp} (h : s.ords.find? (fun o => o.id = id) = some o) : PacketOnly id s (s.sendFlit tenant port id) := by
  unfold sendFlit
  dsimp only
  split
  · obtain ⟨hrest, hords⟩ := packetOnly_flitLeft (s.modTenant tenant fun t =>
      { t with flits := tput t.flits port ((tget t.flits port).getD 0 - 32), used := tadd t.used port 1 }) tenant id h
    refine ⟨?_, hords⟩
    have e := congrArg (fun x : State => { x with tenants := s.tenants }) hrest
    exact e
  · exact ⟨rfl, .inl rfl⟩

/-- The threads once the read of a thread's wait has left: the time of the wait counts from then. -/
def waitRead : Tbl Thread :=
  match if 2 ^ 32 ≤ id then tget s.threads (id - 2 ^ 32) else none with
  | some x => tput s.threads (id - 2 ^ 32) { x with wait := x.wait.map fun w => { w with sent := s.now } }
  | none => s.threads

theorem thread_waitRead {u : State} (h : u.threads = s.waitRead id) (t : Nat) :
    { u.thread t with wait := (s.thread t).wait } = s.thread t := by
  unfold waitRead at h
  split at h
  · rename_i x hx
    rw [thread, h, tget_tput]
    split
    · rename_i ht
      split at hx
      · rw [thread, ht, hx]
        rfl
      · cases hx
    · rfl
  · rw [thread_of_threads h]

/-- The entries and commands of a core that a flit carries have left. -/
def coreLeft (now : Nat) (k : Core) : Core :=
  { k with
    wcb := k.wcb.map fun e => if e.id = id then { e with sent := some now } else e
    cmds := k.cmds.map fun m => if m.id = id then { m with since := now } else m }

theorem flitLeft_plain (h : s.ords.find? (fun o => o.id = id) = none) :
    (s.flitLeft tenant id).mem = s.mem ∧ (s.flitLeft tenant id).flocks = s.flocks ∧
    (s.flitLeft tenant id).threads = s.waitRead id ∧
    (s.flitLeft tenant id).accs = (s.accs.map fun a => if a.id = id then { a with sent := s.now } else a) ∧
    (s.flitLeft tenant id).cores =
      if s.cores.any fun k => (k.2.wcb.any fun e => e.id = id) || k.2.cmds.any fun m => m.id = id then
        tmap s.cores (coreLeft id s.now)
      else s.cores := by
  have h' : (s.bump 0 tenant 8 256).ords.find? (fun o => o.id = id) = none := h
  unfold flitLeft
  simp only [h']
  exact ⟨rfl, rfl, rfl, rfl, rfl⟩

theorem flitOnly_flitLeft : FlitOnly id s (s.flitLeft tenant id) := by
  cases h : s.ords.find? (fun o => o.id = id) with
  | some o =>
    have hrest := (packetOnly_flitLeft s tenant id h).rest
    have hthreads : (s.flitLeft tenant id).threads = s.threads := by
      have e := congrArg State.threads hrest
      exact e
    have hcores : (s.flitLeft tenant id).cores = s.cores := by
      have e := congrArg State.cores hrest
      exact e
    refine ⟨?_, ?_, fun t => by rw [thread_of_threads hthreads], .inl ?_, fun c => .inl (by rw [core_of_cores hcores])⟩
    · have e := congrArg State.mem hrest
      exact e
    · have e := congrArg State.flocks hrest
      exact e
    · have e := congrArg State.accs hrest
      exact e
  | none =>
    obtain ⟨hmem, hflocks, hthreads, haccs, hcores⟩ := flitLeft_plain s tenant id h
    refine ⟨hmem, hflocks, thread_waitRead s id hthreads, .inr haccs, fun c => ?_⟩
    · split at hcores
      · have e := congrArg Core.wcb (core_tmap s (f := coreLeft id s.now) rfl c)
        exact .inr ((congrArg Core.wcb (core_of_cores (s := { s with cores := tmap s.cores (coreLeft id s.now) }) hcores c)).trans e)
      · exact .inl (by rw [core_of_cores hcores])

theorem flitOnly_sendFlit : FlitOnly id s (s.sendFlit tenant port id) := by
  unfold sendFlit
  dsimp only
  split
  · obtain ⟨hmem, hflocks, hthread, haccs, hwcb⟩ := flitOnly_flitLeft (s.modTenant tenant fun t =>
      { t with flits := tput t.flits port ((tget t.flits port).getD 0 - 32), used := tadd t.used port 1 }) tenant id
    exact ⟨hmem, hflocks, hthread, haccs, hwcb⟩
  · exact ⟨rfl, rfl, fun _ => rfl, .inl rfl, fun _ => .inl rfl⟩

end

/-! ### A buffer entry is sent (R188) -/

/-- What a flit leaves of a thread's counters. -/
theorem FlitOnly.ctr {id : Nat} {s u : State} (h : FlitOnly id s u) (t : Nat) (k : Ctr) : (u.thread t).ctr k = (s.thread t).ctr k := by
  have e := congrArg (fun x : Thread => x.ctr k) (h.thread t)
  cases k <;> exact e

/-- Marking an entry sent twice at one time marks it once. -/
theorem map_sent_idem (l : List WcbEnt) (id now : Nat) :
    (l.map fun x => if x.id = id then { x with sent := some now } else x).map
      (fun x => if x.id = id then { x with sent := some now } else x) =
    l.map fun x => if x.id = id then { x with sent := some now } else x := by
  rw [List.map_map]
  refine List.map_congr_left fun x _ => ?_
  by_cases h : x.id = id <;> simp [h]

/-- What is done to the entries with an identity is gone once they are taken out. -/
theorem filter_map_marked {α : Type} (key : α → Nat) (f : α → α) (hf : ∀ x, key (f x) = key x) (id : Nat) (l : List α) :
    (l.map fun x => if key x = id then f x else x).filter (fun x => key x ≠ id) = l.filter fun x => key x ≠ id := by
  induction l with
  | nil => rfl
  | cons x l ih =>
    rw [List.map_cons]
    by_cases h : key x = id <;> simpa [h, hf] using ih

section
variable {s : State} {core id : Nat} {e : WcbEnt}

/-- R188: an entry leaves by its port, or is lost where the port is closed to its tenant. -/
theorem wcb_sendEntry (he : (s.core core).wcb.find? (fun x => x.id = id) = some e) (hs : e.sent = none) :
    ((s.sendEntry core id).core core).wcb =
      if s.fabricOk (s.ctxTenant e.ctx) (portTo (e.line * 128)) then
        (s.core core).wcb.map fun x => if x.id = id then { x with sent := some s.now } else x
      else (s.core core).wcb.filter fun x => x.id ≠ id := by
  have hid : e.id = id := by simpa using List.find?_some he
  simp only [sendEntry, he, hs, Option.isSome_none, Bool.false_eq_true, if_false]
  split
  · rename_i hok
    have hok' : s.fabricOk (s.ctxTenant e.ctx) (portTo (e.line * 128)) = true := hok
    rw [if_pos hok']
    have hmod := congrArg Core.wcb (core_modCore s core fun k =>
      { k with wcb := k.wcb.map fun x => if x.id = id then { x with sent := some s.now } else x })
    obtain h | h := (flitOnly_sendFlit (s.modCore core fun k =>
      { k with wcb := k.wcb.map fun x => if x.id = id then { x with sent := some s.now } else x })
      (s.ctxTenant e.ctx) (portTo (e.line * 128)) id).wcb core
    · exact h.trans hmod
    · refine h.trans ?_
      rw [hmod]
      exact map_sent_idem _ _ _
  · rename_i hok
    have hok' : ¬ s.fabricOk (s.ctxTenant e.ctx) (portTo (e.line * 128)) = true := hok
    rw [if_neg hok', (lossOnly_failAll _ _ _).wcb, core_modCore, core_modCore]
    exact filter_map_marked WcbEnt.id (fun x => { x with sent := some s.now }) (fun _ => rfl) id _

end

theorem mem_sendEntry (s : State) (core id : Nat) : (s.sendEntry core id).mem = s.mem := by
  unfold sendEntry
  split
  · rfl
  · split
    · rfl
    · dsimp only
      split
      · exact (flitOnly_sendFlit _ _ _ _).mem
      · exact (lossOnly_failAll _ _ _).mem

theorem mem_sendOwn (s : State) (t : Nat) : (s.sendOwn t).mem = s.mem :=
  List.foldlRecOn (motive := fun u : State => u.mem = s.mem) _ _ rfl fun u hu e _ => (mem_sendEntry u _ e.id).trans hu

end Sys2Proof.Machine.State
end

section
/-!
PROOFS. Fences and cache control (07 R181, R208 to R210): what hands lines to the write lane or drops them leaves memory, the
group and every register, so that each participant of a CCTL reads the address it had when the instruction issued.
-/

namespace Sys2Proof.Machine.State

open Sys2Proof

/-- Memory, the current group, threads and flocks stand. -/
structure CacheOnly (s u : State) : Prop where
  mem : u.mem = s.mem
  cur : u.cur = s.cur
  threads : u.threads = s.threads
  flocks : u.flocks = s.flocks

namespace CacheOnly

variable {s u v : State}

theorem refl (s : State) : CacheOnly s s := ⟨rfl, rfl, rfl, rfl⟩

theorem trans (a : CacheOnly s u) (b : CacheOnly u v) : CacheOnly s v :=
  ⟨b.mem.trans a.mem, b.cur.trans a.cur, b.threads.trans a.threads, b.flocks.trans a.flocks⟩

theorem foldl {α : Type} {f : State → α → State} (h : ∀ u a, CacheOnly u (f u a)) (l : List α) (s : State) :
    CacheOnly s (l.foldl f s) :=
  List.foldlRecOn l f (motive := CacheOnly s) (refl s) fun u hu a _ => hu.trans (h u a)

theorem rd (h : CacheOnly s u) (t : Nat) (r : Reg) : u.rd t r = s.rd t r := rd_of_files h.threads h.flocks t r

theorem rd64 (h : CacheOnly s u) (t : Nat) (r : Reg) : u.rd64 t r = s.rd64 t r := by
  rw [State.rd64, State.rd64, rdN_congr (h.rd t)]

theorem stands (h : CacheOnly s u) (t : Nat) : u.stands t = s.stands t := by
  simp only [State.stands, h.cur]

end CacheOnly

section
variable (s : State)

theorem cacheOnly_toLane (line : Nat) : CacheOnly s (s.toLane line) := ⟨rfl, rfl, rfl, rfl⟩

theorem cacheOnly_cctlLine (t : Nat) (va : W64) : CacheOnly s (s.cctlLine t va) := by
  unfold cctlLine
  split
  · dsimp only
    split
    · split
      · exact cacheOnly_toLane s _
      · exact .refl s
    · exact .refl s
  · exact .refl s

theorem cacheOnly_cctlSpan (t : Nat) (base : W64) (len : Nat) : CacheOnly s (s.cctlSpan t base len) := by
  unfold cctlSpan
  dsimp only
  split
  · exact .refl s
  · refine CacheOnly.foldl (fun u p => ?_) _ s
    split
    · refine CacheOnly.foldl (fun v l => ?_) _ u
      split
      · exact cacheOnly_toLane v l
      · exact .refl v
    · exact .refl u

theorem mem_fenceDone (acq rel : Option Scope) (t : Nat) : (s.fenceDone acq rel t).mem = s.mem := by
  have hrel : (s.releaseDone rel t).mem = s.mem := by
    unfold releaseDone
    split
    · split <;> rfl
    · rfl
  unfold fenceDone
  dsimp only
  split
  · unfold acquireBy
    split
    · exact hrel
    · exact hrel
  · exact hrel

end

/-- A CCTL of canonical addresses acts at each participant's address as it stood at issue. -/
theorem cctlBody_canonical {s : State} {ps : List Nat} {base : Reg} {f : State → Nat → W64 → State}
    {act : State → Nat → State} (hf : ∀ u p va, CacheOnly u (f u p va))
    (hact : ∀ u p, CacheOnly s u → f u p (s.rd64 p base) = act u p)
    (hs : ∀ p ∈ ps, s.stands p = true) (hc : ∀ p ∈ ps, canonical (s.rd64 p base) = true) (g : Group) :
    cctlBody base f g ps s = (ps.foldl act s).advance := by
  have hfold : ∀ (l : List Nat) (u : State), CacheOnly s u → (∀ p ∈ l, p ∈ ps) →
      l.foldl (fun s t => if !s.stands t then s else
        if canonical (s.rd64 t base) then f s t (s.rd64 t base) else s.trap t tcPageInvalid (s.rd64 t base)) u = l.foldl act u := by
    intro l
    induction l with
    | nil => exact fun _ _ _ => rfl
    | cons p l ih =>
      intro u hu hl
      have hp : p ∈ ps := hl p (List.mem_cons_self ..)
      have hstep : (if !u.stands p then u else
          if canonical (u.rd64 p base) then f u p (u.rd64 p base) else u.trap p tcPageInvalid (u.rd64 p base)) = act u p := by
        rw [hu.stands, hu.rd64, hs p hp, hc p hp, ← hact u p hu]
        rfl
      rw [List.foldl_cons, List.foldl_cons, hstep]
      refine ih _ (hu.trans ?_) fun q hq => hl q (List.mem_cons_of_mem _ hq)
      rw [← hact u p hu]
      exact hf u p _
  exact congrArg State.advance (hfold ps s (.refl s) fun _ h => h)

theorem stands_participants {s : State} {g : Group} {i : Instr} (h : s.cur = some g) :
    ∀ p ∈ s.participants g i, s.stands p = true := by
  intro p hp
  unfold participants at hp
  split at hp
  · simp only [stands, h, List.contains_eq_mem, (List.mem_filter.mp hp).1, decide_true]
  · cases hp

/-- A CCTL form that names an address completes. -/
theorem cctl_completes {s : State} {g : Group} {i : Instr} {base : Reg} {f : State → Nat → W64 → State} {act : State → Nat → State}
    (hx : exec i s = .next (s.issue i (cctlBody base f))) (hf : ∀ u p va, CacheOnly u (f u p va))
    (hact : ∀ u p, CacheOnly s u → f u p (s.rd64 p base) = act u p)
    (hc : ∀ p ∈ s.participants g i, canonical (s.rd64 p base) = true) :
    Completes s g i ((s.participants g i).foldl act s).advance := fun h =>
  completes_of hx (cctlBody_canonical hf hact (stands_participants h.cur) hc g) h

end Sys2Proof.Machine.State

namespace Sys2Proof

open Sys2Proof.Machine State

theorem fence_completes (s : State) (g : Group) (x : FenceArgs) (hcur : (s.sendAllOwn g.members).cur = some g)
    (hfree : ∀ m ∈ g.members, (s.sendAllOwn g.members).fenced m = false ∧
      (s.sendAllOwn g.members).fenceWaits (syncAcq x.sync) (syncRel x.sync) m = false) :
    Completes s g (.fence x) (g.members.foldl (fun v m => v.fenceDone (syncAcq x.sync) (syncRel x.sync) m)
      (s.sendAllOwn g.members)).advance := by
  refine completes_of rfl ?_
  have hany : (g.members.any fun t => (s.sendAllOwn g.members).fenced t ||
      (s.sendAllOwn g.members).fenceWaits (syncAcq x.sync) (syncRel x.sync) t) = false := by
    rw [List.any_eq_false]
    intro m hm
    obtain ⟨hf, hw⟩ := hfree m hm
    rw [hf, hw]
    exact Bool.false_ne_true
  simp only [hcur, hany, Bool.false_eq_true, if_false]

theorem drain_completes (s : State) (g : Group) (x : StatusWait)
    (hhome : ∀ p ∈ s.participants g (.drain x), s.localStoresOut p = false) :
    Completes s g (.drain x) ((s.participants g (.drain x)).foldl (fun v p =>
      v.pollOr (v.drained (v.ctxOf p) v.fresh) p (State.statusReg x.d (s.participants g (.drain x)) p) x.e
        (.drain v.fresh) id) s).goOn := by
  refine completes_of rfl ?_
  have hany : ((s.participants g (.drain x)).any fun t => s.localStoresOut t) = false := by
    rw [List.any_eq_false]
    intro p hp
    rw [hhome p hp]
    exact Bool.false_ne_true
  simp only [hany, Bool.false_eq_true, if_false]

theorem pollOr_false (s : State) (t : Nat) (d : Reg) (e : TExp) (kind : WaitKind) :
    s.pollOr false t d e kind id = if e = 0 then s.status t d 1 else s.startWait t kind d e := by
  have h : e.val = 0 ↔ e = 0 := ⟨fun h => Fin.ext h, fun h => by rw [h]; rfl⟩
  simp only [pollOr, Bool.false_eq_true, if_false, h]

/-- Settles O22: each form's own effect once its release or its stores are done, and what that effect leaves of memory. -/
theorem cacheControl : Obligations.CacheControl := by
  intro s g
  refine ⟨fun x => ?_, fun x => completes_of rfl rfl, fun x hc => ?_, fun x hc => ?_, fun x => completes_of rfl rfl,
    fun x => completes_of rfl rfl, fun x hc => ?_, drain_completes s g, fun t acq rel => ?_, fun t va => ?_, fun t va n => ?_,
    fun _ => rfl, fun _ _ => rfl, fun c => ⟨?_, rfl⟩, fun t d e kind => ⟨rfl, pollOr_false s t d e kind⟩⟩
  · exact fence_completes s g x
  · exact cctl_completes rfl (fun u p va => cacheOnly_cctlLine u p va) (fun _ _ _ => rfl) hc
  · refine cctl_completes rfl (fun u p va => cacheOnly_cctlSpan u p va _) (fun u p hu => ?_) hc
    rw [hu.rd]
  · refine cctl_completes rfl (fun u p va => ?_) (fun u p _ => ?_) hc
    · cases u.translate (tidCore p) (u.ctxOf p) va false false <;> exact ⟨rfl, rfl, rfl, rfl⟩
    · cases u.translate (tidCore p) (u.ctxOf p) (s.rd64 p x.base) false false <;> rfl
  · exact ⟨mem_sendOwn s t, mem_fenceDone s acq rel t⟩
  · exact (cacheOnly_cctlLine s t va).mem
  · exact (cacheOnly_cctlSpan s t va n).mem
  · rw [clearL1, core_modCore]

end Sys2Proof
end

section
/-!
PROOFS. Scratch (06 R171, R194; 07 R203, R206, R213): an access to it is done in the step that issues it, its counter rising and
falling there.
-/

namespace Sys2Proof.Machine.State

open Sys2Proof

/-- Memory, every counter and every register stand. -/
structure ThreadsStand (s u : State) : Prop where
  mem : u.mem = s.mem
  ctr : ∀ p k, (u.thread p).ctr k = (s.thread p).ctr k
  rd : ∀ p r, u.rd p r = s.rd p r

namespace ThreadsStand

variable {s u v : State}

theorem of_threads (hm : u.mem = s.mem) (ht : u.threads = s.threads) (hf : u.flocks = s.flocks) : ThreadsStand s u :=
  ⟨hm, fun p k => by rw [thread_of_threads ht], rd_of_files ht hf⟩

theorem refl (s : State) : ThreadsStand s s := of_threads rfl rfl rfl

theorem trans (a : ThreadsStand s u) (b : ThreadsStand u v) : ThreadsStand s v :=
  ⟨b.mem.trans a.mem, fun p k => (b.ctr p k).trans (a.ctr p k), fun p r => (b.rd p r).trans (a.rd p r)⟩

theorem of_modThread {f : Thread → Thread} (hc : ∀ x k, (f x).ctr k = x.ctr k) (hg : ∀ x, (f x).g = x.g) (s : State) (t : Nat) :
    ThreadsStand s (s.modThread t f) :=
  ⟨rfl, fun p k => ctr_modThread_keeps (fun x => hc x k) s t p, fun p r => rd_modThread hg s t p r⟩

end ThreadsStand

section
variable (s : State) (t w off : Nat)

theorem threadsStand_commitWg : ThreadsStand s (s.commitWg t) := by
  unfold commitWg
  split
  · exact .refl s
  · exact .of_threads rfl rfl rfl

theorem threadsStand_putScratch (bs : List Byte) : ThreadsStand s (s.putScratch w off bs) := .of_threads rfl rfl rfl

theorem threadsStand_raise (c x : Nat) (f : BitVec 7) : ThreadsStand s (s.raise c x f) := by
  unfold raise
  split
  · exact .refl s
  · exact .of_threads rfl rfl rfl

theorem wgs_raise (c x : Nat) (f : BitVec 7) : (s.raise c x f).wgs = s.wgs := by
  unfold raise
  split <;> rfl

theorem threadsStand_countDone (k : Ctr) : ThreadsStand s (s.countDone t k) :=
  .of_modThread (fun x j => by cases k <;> cases j <;> rfl) (fun x => by cases k <;> rfl) s t

theorem threadsStand_scratchAcquire (acq : Option Scope) : ThreadsStand s (s.scratchAcquire t acq) := by
  cases acq with
  | none => exact .refl s
  | some sc =>
    have hfence : ThreadsStand s (s.modThread t fun x => { x with fence := s.fresh }) := by
      refine .of_modThread (fun _ k => ?_) (fun _ => ?_) s t
      · cases k <;> rfl
      · rfl
    have hfloor : ∀ u : State, ThreadsStand u (u.raiseFloor t 0) := fun u => by
      refine .of_modThread (fun _ k => ?_) (fun _ => ?_) u t
      · cases k <;> rfl
      · rfl
    rw [scratchAcquire, acquireAt, acquireBy]
    split
    · exact hfence
    · exact (hfence.trans (hfloor _)).trans (.of_threads rfl rfl rfl)

theorem wgs_scratchAcquire (acq : Option Scope) : (s.scratchAcquire t acq).wgs = s.wgs := by
  cases acq with
  | none => rfl
  | some sc =>
    rw [scratchAcquire, acquireAt, acquireBy]
    split <;> rfl

theorem wg_of_wgs {s u : State} (h : u.wgs = s.wgs) (w : Nat) : u.wg w = s.wg w := by
  simp only [wg, h]

theorem scr_commitWg : ((s.commitWg t).wg w).scr = (s.wg w).scr := by
  unfold commitWg
  split
  · rfl
  · rw [modWg, wg_setWg]
    split
    · rename_i e
      rw [e]
    · rfl

/-- R170: a write leaves its bytes in scratch. -/
theorem scr_putScratch (bs : List Byte) : ((s.putScratch w off bs).wg w).scr = mputs (s.wg w).scr off bs := by
  simp only [putScratch, setTile, modWg, wg_setWg, if_true]

/-- R170: a written tile is ready. -/
theorem full_putScratch (bs : List Byte) : ((s.putScratch w off bs).tileOf w (off / 4096)).full = true := by
  simp only [putScratch, setTile, tileOf, modWg, wg_setWg, if_true, tget_tput_same, Option.getD_some]

theorem scratchPoisoned_clean (h : s.poison = []) : s.scratchPoisoned w off = false := by
  simp only [scratchPoisoned, h, List.contains_nil]

end

/-- Bytes written stand where they were written, and no other byte changes. -/
theorem mget_mputs_natLe {m : Memory} (hm : m.wf) (off n v : Nat) :
    (∀ a, a < off ∨ off + n ≤ a → mget (mputs m off (natLe n v)) a = mget m a) ∧
      ∀ j, j < n → mget (mputs m off (natLe n v)) (off + j) = (natLe n v).getD j 0 := by
  refine ⟨fun a ha => mget_mputs_other _ _ _ _ (by rwa [natLe_length]), fun j hj => ?_⟩
  have hj' : j < (natLe n v).length := by rwa [natLe_length]
  rw [mget_mputs_in _ _ _ _ hm hj', List.getD_eq_getElem _ _ hj']

section
variable {s : State} (t : Nat)

/-- R203: a value that scratch answers reaches its destination, and only that changes. -/
theorem scratch_delivers (d : Reg) (k v : Nat) (acq : Option Scope) :
    let r := ((s.wrD t d k v).countDone t .ld).scratchAcquire t acq
    r.mem = s.mem ∧ r.wgs = s.wgs ∧ (∀ c, (r.thread t).ctr c = (s.thread t).ctr c) ∧
      (d ≠ .zero → d.fits k → r.rdN t d k = v % 2 ^ (32 * k)) := by
  have hend := (threadsStand_countDone (s.wrD t d k v) t .ld).trans (threadsStand_scratchAcquire _ t acq)
  have hwr := threadsOnly_wrD s t d k v
  refine ⟨hend.mem.trans hwr.mem, (wgs_scratchAcquire _ t acq).trans hwr.wgs, fun c => ?_, fun hd hf => ?_⟩
  · rw [hend.ctr, ctr_wrD]
  · rw [rdN_congr (hend.rd t), rdN_wrD hd hf]

/-- R203, R319: bytes put into scratch, of another workgroup once the thread's own has committed. -/
theorem scratch_put (s : State) (t w off : Nat) (team : Bool) (bs : List Byte) :
    let u := (if team then s.commitWg t else s).putScratch w off bs
    ThreadsStand s u ∧ (u.wg w).scr = mputs (s.wg w).scr off bs := by
  have hcommit : ThreadsStand s (if team then s.commitWg t else s) ∧
      ((if team then s.commitWg t else s).wg w).scr = (s.wg w).scr := by
    split
    · exact ⟨threadsStand_commitWg s t, scr_commitWg s t w⟩
    · exact ⟨.refl s, rfl⟩
  obtain ⟨hstand, hscr⟩ := hcommit
  exact ⟨hstand.trans (threadsStand_putScratch _ w off bs), (scr_putScratch _ w off bs).trans (by rw [hscr])⟩

end

end Sys2Proof.Machine.State

namespace Sys2Proof

open Sys2Proof.Machine State

section
variable {s : State} {w : Nat} (view : State) (g : Group) (live : List Nat) (t off : Nat)

theorem ldsAct_scratch (x : LdsArgs) (hc : s.poison = []) :
    ldsAct x view g s live t (.scratch w off) = ((s.wrD t (State.dstFor x.d live t) x.size.words
      (extendBy x.size (mnat (s.wg w).scr off x.size.bytes))).countDone t .ld).scratchAcquire t x.acq := by
  simp only [ldsAct, scratchPoisoned_clean s w off hc, Bool.false_eq_true, if_false]

theorem ldwAct_scratch (x : LdwArgs) (hc : s.poison = []) (hl : live.head? = some t) :
    ldwAct x view g s live t (.scratch w off) = ((s.wrD t x.d x.size.words
      (extendBy x.size (mnat (s.wg w).scr off x.size.bytes))).countDone t .ld).scratchAcquire t x.acq := by
  simp only [ldwAct, hl, ne_eq, not_true_eq_false, scratchPoisoned_clean s w off hc, Bool.false_eq_true, if_false]

/-- R203: a store to scratch. -/
theorem stsAct_scratch (x : StsArgs) (hw : (s.wg w).scr.wf) :
    let r := stsAct x view g s live t (.scratch w off)
    let bs := natLe x.size.bytes (view.rdN t x.data x.size.words)
    r.mem = s.mem ∧ (r.tileOf w (off / 4096)).full = true ∧ (∀ k, (r.thread t).ctr k = (s.thread t).ctr k) ∧
      (∀ q c, r.rd q c = s.rd q c) ∧
      (∀ a, a < off ∨ off + x.size.bytes ≤ a → mget (r.wg w).scr a = mget (s.wg w).scr a) ∧
      ∀ j, j < x.size.bytes → mget (r.wg w).scr (off + j) = bs.getD j 0 := by
  intro r bs
  obtain ⟨hput, hscr⟩ := scratch_put s t w off x.team bs
  have hend : ThreadsStand s r := hput.trans (threadsStand_countDone _ t .st)
  have hbytes : (r.wg w).scr = mputs (s.wg w).scr off bs := hscr
  rw [hbytes]
  exact ⟨hend.mem, full_putScratch _ w off bs, hend.ctr t, hend.rd, mget_mputs_natLe hw off _ _⟩

theorem atomsAct_eq (x : AtomsArgs) (hc : s.poison = []) : ∃ c y,
    let u := if x.team then s.commitWg t else s
    let old := mnat (u.wg w).scr off x.aty.bytes
    let new := atomNew x.aop x.aty old (view.rdN t x.b x.aty.words)
    atomsAct x view g s live t (.scratch w off) =
      (((((u.putScratch w off (natLe x.aty.bytes new.1)).raise c y new.2).wrD t (State.dstFor x.d live t) x.aty.words
        old).countDone t .ld).scratchAcquire t (syncAcq x.sync)) := by
  unfold atomsAct
  dsimp only
  rw [scratchPoisoned_clean s w off hc, if_neg Bool.false_ne_true]
  exact ⟨_, _, rfl⟩

/-- R213: the new value takes the old one's place, and the old one is delivered. -/
theorem atomsAct_scratch (x : AtomsArgs) (hc : s.poison = []) (hw : (s.wg w).scr.wf) :
    let r := atomsAct x view g s live t (.scratch w off)
    let n := x.aty.bytes
    let old := mnat (s.wg w).scr off n
    let new := atomNew x.aop x.aty old (view.rdN t x.b x.aty.words)
    r.mem = s.mem ∧ (∀ k, (r.thread t).ctr k = (s.thread t).ctr k) ∧
      (State.dstFor x.d live t = x.d → x.d ≠ .zero → x.d.fits x.aty.words →
        r.rdN t x.d x.aty.words = old % 2 ^ (32 * x.aty.words)) ∧
      (∀ a, a < off ∨ off + n ≤ a → mget (r.wg w).scr a = mget (s.wg w).scr a) ∧
      ∀ j, j < n → mget (r.wg w).scr (off + j) = (natLe n new.1).getD j 0 := by
  obtain ⟨c, y, hr⟩ := atomsAct_eq view g live t off x hc (w := w)
  have hold : ((if x.team then s.commitWg t else s).wg w).scr = (s.wg w).scr := by
    split
    · exact scr_commitWg s t w
    · rfl
  dsimp only at hr ⊢
  rw [hold] at hr
  rw [hr]
  generalize mnat (s.wg w).scr off x.aty.bytes = old
  generalize atomNew x.aop x.aty old (view.rdN t x.b x.aty.words) = new
  obtain ⟨hput, hscr⟩ := scratch_put s t w off x.team (natLe x.aty.bytes new.1)
  have hraise := threadsStand_raise ((if x.team then s.commitWg t else s).putScratch w off (natLe x.aty.bytes new.1)) c y new.2
  obtain ⟨hmem, hwgs, hctr, hdst⟩ := scratch_delivers (s := ((if x.team then s.commitWg t else s).putScratch w off
    (natLe x.aty.bytes new.1)).raise c y new.2) t (State.dstFor x.d live t) x.aty.words old (syncAcq x.sync)
  refine ⟨hmem.trans (hraise.mem.trans hput.mem), fun k => (hctr k).trans ((hraise.ctr t k).trans (hput.ctr t k)), fun hd => ?_, ?_⟩
  · rw [hd] at hdst ⊢
    exact hdst
  · rw [wg_of_wgs (hwgs.trans (wgs_raise ..)), hscr]
    exact mget_mputs_natLe hw off _ _

end

/-- Settles O21: each instruction by the one equation that says what it does to scratch. -/
theorem scratchAccesses : Obligations.ScratchAccesses := by
  intro s g
  refine ⟨fun x => mem_completes rfl, fun x => mem_completes rfl, fun x => mem_completes rfl, ?_⟩
  intro view live t w off hc hw
  refine ⟨fun x hl => ?_, fun x => ?_, fun x => stsAct_scratch view g live t off x hw,
    fun x => atomsAct_scratch view g live t off x hc hw⟩
  · rw [ldwAct_scratch view g live t off x hc hl]
    exact scratch_delivers t ..
  · rw [ldsAct_scratch view g live t off x hc]
    obtain ⟨hmem, hwgs, hctr, hdst⟩ := scratch_delivers (s := s) t (State.dstFor x.d live t) x.size.words
      (extendBy x.size (mnat (s.wg w).scr off x.size.bytes)) x.acq
    refine ⟨hmem, hwgs, hctr, fun hd => ?_⟩
    rw [hd] at hdst ⊢
    exact hdst

end Sys2Proof
end

section
/-!
PROOFS. Stores on their way home (06 R184 to R188, R199; 07 R205; 12 R338): what a slice's acceptance of a line leaves, what a
store does when its home takes it, and what becomes of accesses and waits that cannot go on.
-/

namespace Sys2Proof.Machine.State

open Sys2Proof

/-! ### A store at its home (R184, R185) -/

/-- R184 to R186: a slice that accepts a line changes no core. -/
theorem cores_acceptLine {s u : State} {c : Nat} {wb spill : Bool} {line : Nat}
    (h : s.acceptLine c wb spill line = some u) : u.cores = s.cores := by
  have hline : ∀ wb spilled out way, (s.dirtyLine c wb spilled out way line).cores = s.cores := fun _ _ _ _ => rfl
  unfold acceptLine at h
  extract_lets slice held mine full evict at h
  have hevict : evict.cores = s.cores := by
    simp only [evict]
    split
    · split <;> rfl
    · rfl
  clear_value evict mine full held
  generalize s.lineSpace c slice = space at h
  generalize decide (s.spilledCount c (sliceDie slice) < s.spillQuota c) = room at h
  generalize (tget s.dirty line).isSome = dirty at h
  grind [Option.map_eq_some_iff]

theorem mem_homeStore (s : State) (a : Access) : (s.homeStore a).mem = mputs s.mem a.pa (natLe a.op.len a.op.data) := by
  unfold homeStore
  refine (threadsOnly_fall _ a).mem.trans ?_
  split <;> rfl

theorem cores_homeStore (s : State) (a : Access) : (s.homeStore a).cores = s.cores := by
  unfold homeStore
  refine (threadsOnly_fall _ a).cores.trans ?_
  split <;> rfl

/-- R38: a store's counter falls when its home has taken it. -/
theorem stc_homeStore {s : State} {a : Access} {p : Nat} (ht : a.tids = [p]) (hp : s.hasThread p = true)
    (hop : a.op.isStore = true) : ((s.homeStore a).thread p).stc = (s.thread p).stc - 1 := by
  have hkind : a.op.counted = true ∧ a.ctr = .st := by
    unfold AccOp.isStore at hop
    split at hop
    · rename_i e
      rw [e]
      exact ⟨rfl, by simp only [Access.ctr, e]⟩
    · cases hop
  have hfall : ∀ u : State, u.threads = s.threads → ((u.fall a).thread p).stc = (s.thread p).stc - 1 := by
    intro u hu
    have hp' : u.hasThread p = true := by rw [hasThread, hu]; exact hp
    rw [fall_one ht hp' hkind.1, thread_modThread, thread_of_threads hu, hkind.2]
    rfl
  exact hfall _ (by split <;> rfl)

/-- Memory once stores have reached it in turn. -/
def spilledTo (m : Memory) (l : List Access) : Memory := l.foldl (fun m a => mputs m a.pa (natLe a.op.len a.op.data)) m

theorem homeStores (l : List Access) (s : State) :
    (l.foldl (fun s a => s.homeStore a) s).mem = spilledTo s.mem l ∧ (l.foldl (fun s a => s.homeStore a) s).cores = s.cores := by
  induction l generalizing s with
  | nil => exact ⟨rfl, rfl⟩
  | cons a l ih =>
    obtain ⟨hmem, hcores⟩ := ih (s.homeStore a)
    rw [mem_homeStore] at hmem
    rw [cores_homeStore] at hcores
    exact ⟨hmem, hcores⟩

section
variable {s : State} {core : Nat}

theorem storeAtHome_held {a : Access} {rest : List Access} (hsq : (s.core core).sq = a :: rest)
    (howned : s.ownedLine (a.pa / 128) = false) (hcool : s.sliceHot a.pa = false)
    (hfull : s.acceptLine a.ctx a.wb false (a.pa / 128) = none) :
    exec (.storeAtHome core) s = .next (s.modCore core fun k => { k with sqHeld := true }) := by
  refine congrArg Host.Outcome.next ?_
  simp only [headHome, hsq, howned, hcool, hfull, Bool.or_false, Bool.false_eq_true, if_false]

theorem storeAtHome_taken {a : Access} {rest : List Access} {u : State} (hsq : (s.core core).sq = a :: rest)
    (howned : s.ownedLine (a.pa / 128) = false) (hcool : s.sliceHot a.pa = false)
    (hu : s.acceptLine a.ctx a.wb false (a.pa / 128) = some u) : Gives (.storeAtHome core) s fun t =>
      t.mem = mputs s.mem a.pa (natLe a.op.len a.op.data) ∧ (t.core core).sq = rest ∧ (t.core core).sqHeld = false ∧
      ∀ p, a.tids = [p] → s.hasThread p = true → a.op.isStore = true → (t.thread p).stc = (s.thread p).stc - 1 := by
  have hx : headHome s core = (u.modCore core fun k => { k with sq := rest, sqHeld := false }).homeStore a := by
    simp only [headHome, hsq, howned, hcool, hu, Bool.or_false, Bool.false_eq_true, if_false]
  refine ⟨_, congrArg Host.Outcome.next hx, ?_⟩
  have hc := cached_acceptLine hu
  refine ⟨?_, ?_, ?_, fun p ht hp hop => ?_⟩
  · rw [mem_homeStore, ← hc.mem]
    rfl
  · rw [core_of_cores (cores_homeStore _ a), core_modCore]
  · rw [core_of_cores (cores_homeStore _ a), core_modCore]
  · have hp' : (u.modCore core fun k => { k with sq := rest, sqHeld := false }).hasThread p = true := by
      have e : (u.modCore core fun k => { k with sq := rest, sqHeld := false }).threads = s.threads := hc.threads
      rw [hasThread, e]
      exact hp
    rw [stc_homeStore ht hp' hop, ← thread_of_threads hc.threads]
    rfl

/-- R185: the overflow engine takes a line's stores home, and no other. -/
theorem spill_taken {line c : Nat} {u : State} (hheld : (s.core core).sqHeld = true) (htail : s.tailLine core = some (line, c))
    (hu : s.acceptLine c false true line = some u) : Gives (.spill core) s fun t =>
      t.mem = spilledTo s.mem ((s.core core).sq.filter fun a => a.pa / 128 = line) ∧
      (t.core core).sq = ((s.core core).sq.filter fun a => a.pa / 128 ≠ line) ∧ (t.core core).sqHeld = false := by
  have hk : u.core core = s.core core := core_of_cores (cores_acceptLine hu) core
  have hx : spillTail s core = (((s.core core).sq.filter fun a => a.pa / 128 = line).foldl (fun s a => s.homeStore a) u).modCore core
      fun k => { k with sq := k.sq.filter fun a => a.pa / 128 ≠ line, sqHeld := false } := by
    simp only [spillTail, hheld, htail, hu, hk, Bool.not_true, Bool.false_eq_true, if_false]
  refine ⟨_, congrArg Host.Outcome.next hx, ?_⟩
  obtain ⟨hmem, hcores⟩ := homeStores ((s.core core).sq.filter fun a => a.pa / 128 = line) u
  rw [core_modCore, core_of_cores hcores, hk]
  refine ⟨?_, rfl, rfl⟩
  rw [← (cached_acceptLine hu).mem]
  exact hmem

/-- R188: an entry two microseconds old is sent. -/
theorem wcbSend_due {n : Nat} {e : WcbEnt} (hn : (s.core core).wcb[n]? = some e)
    (he : (s.core core).wcb.find? (fun x => x.id = e.id) = some e) (hs : e.sent = none) (hdue : e.since + 8000 ≤ s.now) :
    Gives (.wcbSend core n) s fun t => t.mem = s.mem ∧ (t.core core).wcb =
      if s.fabricOk (s.ctxTenant e.ctx) (State.portTo (e.line * 128)) then
        (s.core core).wcb.map fun x => if x.id = e.id then { x with sent := some s.now } else x
      else (s.core core).wcb.filter fun x => x.id ≠ e.id := by
  refine ⟨s.sendEntry core e.id, congrArg Host.Outcome.next ?_, mem_sendEntry s core e.id, wcb_sendEntry he hs⟩
  simp only [hn, hs, hdue, Option.isNone_none, decide_true, Bool.and_self, if_true]

end

/-! ### A dirty line reaches the array (R184, R338) -/

section
variable {s : State} {line : Nat} {d : Dirty}

theorem dramWrite_eq (hd : tget s.dirty line = some d) (hwb : d.wb = false) (hcool : s.sliceHot (line * 128) = false) :
    exec (.dramWrite line) s = .next (s.carryLine line d) := by
  refine congrArg Host.Outcome.next ?_
  simp only [hd, hwb, hcool, Bool.false_and, Bool.or_false, Bool.false_eq_true, if_false]

/-- R184: a line that nothing holds under WB is dirty no longer. -/
theorem lineInDram_eq (hd : tget s.dirty line = some d) (hwb : d.wb = false) (slots : Bool) :
    s.lineInDram line slots = { s.bump 0 (s.ctxTenant d.ctx) (carriedBy d slots) 128 with dirty := tdel s.dirty line } := by
  simp only [lineInDram, hd, hwb, Bool.false_eq_true, if_false]

/-- R338: a line is carried while its context's bytes of the microsecond last, and not beyond. -/
theorem carryLine_cases (hd : tget s.dirty line = some d) (hwb : d.wb = false) :
    let left (t : Tbl Nat) : Nat := (tget t (sliceDie (s.dirtySlice line) * 256 + d.ctx)).getD 0
    ((d.spilled = true ∨ 128 ≤ left s.market.share ∨ 128 ≤ left s.market.topUp) →
      (s.carryLine line d).dirty = tdel s.dirty line ∧
      { s.carryLine line d with dirty := s.dirty, meters := s.meters, market := s.market } = s ∧
      { (s.carryLine line d).market with share := s.market.share, topUp := s.market.topUp } = s.market) ∧
    (d.spilled = false → left s.market.share < 128 → left s.market.topUp < 128 → s.carryLine line d = s) := by
  intro left
  have hcarried : ∀ (m : Market) (slots : Bool), { m with share := s.market.share, topUp := s.market.topUp } = s.market →
      ({ s with market := m }.lineInDram line slots).dirty = tdel s.dirty line ∧
      { { s with market := m }.lineInDram line slots with dirty := s.dirty, meters := s.meters, market := s.market } = s ∧
      { ({ s with market := m }.lineInDram line slots).market with share := s.market.share, topUp := s.market.topUp } = s.market := by
    intro m slots hm
    rw [lineInDram_eq (s := { s with market := m }) hd hwb]
    exact ⟨rfl, rfl, hm⟩
  refine ⟨fun h => ?_, fun hs h1 h2 => ?_⟩
  · unfold carryLine
    dsimp only
    split
    · exact hcarried s.market false rfl
    · split
      · exact hcarried _ true rfl
      · split
        · exact hcarried _ false rfl
        · rename_i h0 h1 h2
          exact (h.elim h0 fun h => h.elim h1 h2).elim
  · unfold carryLine
    dsimp only
    rw [if_neg (by rw [hs]; exact Bool.false_ne_true), if_neg (Nat.not_le.mpr h1), if_neg (Nat.not_le.mpr h2)]

end

/-! ### What cannot go on (R185, R199, R205, R372) -/

section
variable {s : State} {t : Nat}

theorem storePressure_eq {g : Group} {x : StArgs} {since : Nat} (hg : s.groupOf t = some g) (hi : State.instrAt g = some (.st x))
    (hst : g.stalled = true) (hx : s.guardTrue t x.g = true) (hf : (s.thread t).fullFrom = some since) :
    exec (.storeBackpressure t) s = .next
      (if s.spillTraps (s.ctxOf t) && s.spillUsed (tidCore t) (s.ctxOf t) then
        s.trap t tcSpillQuota (s.addr64 t x.base (x.off.toInt * x.size.bytes))
      else if s.pressureTraps (s.ctxOf t) && decide (s.storeThresh (s.ctxOf t) < s.cyc - since) then
        s.trap t tcBackpressure (s.addr64 t x.base (x.off.toInt * x.size.bytes))
      else s) := by
  refine congrArg Host.Outcome.next ?_
  simp only [storePressure, hg, hi, hf, hst, hx, Bool.and_self, Bool.not_true, Bool.false_eq_true, if_false]

theorem dropFlit_none {id : Nat} (h : s.flitWaits id = false) : s.dropFlit id = s := by
  rw [dropFlit, h, if_neg Bool.false_ne_true]

theorem dropFlit_files (s : State) (id : Nat) : (s.dropFlit id).mem = s.mem ∧ (s.dropFlit id).threads = s.threads := by
  unfold dropFlit
  split <;> exact ⟨rfl, rfl⟩

theorem onLoan_home {f : State → State} (h : s.outSaved = []) : s.onLoan f = f s := by
  rw [onLoan, h]

/-- R199, R372: an access whose loss is due fails at its source. -/
theorem accessLoss_due {a : Access} {refused : Bool} (hsaved : s.outSaved = [])
    (ha : s.accs.find? (fun x => x.id = a.id) = some a) (hid : a.id < 2 ^ 32) (hl : s.isLocal a.pa = false)
    (hhost : refused = true → State.isHost a.pa = false) (hdue : s.lossDue a.id refused a.sent = true) :
    Gives (.accessLoss ⟨a.id, refused⟩) s fun t => failed s t a tcPeerUnreachable := by
  have hr : (refused && State.isHost a.pa) = false := by
    cases refused
    · rfl
    · exact hhost rfl
  have hx : (if 2 ^ 32 ≤ a.id then s.loseWait (a.id - 2 ^ 32) refused else s.onLoan fun s => s.loseById a.id refused) =
      (s.dropFlit a.id).failAccess a tcPeerUnreachable := by
    rw [if_neg (Nat.not_le.mpr hid), onLoan_home hsaved]
    simp only [loseById, ha, hl, hr, hdue, Bool.not_false, Bool.and_self, if_true]
  obtain ⟨hm, hth⟩ := dropFlit_files s a.id
  exact ⟨_, congrArg Host.Outcome.next hx, failed_of_threads hm hth (failed_failAccess _ a _)⟩

/-- R199: a wait on another node's memory finds its home unreachable. -/
theorem waitLost_due {w : Wait} (hw : (s.thread t).wait = some w)
    (hkind : (∃ va r st, w.kind = .wmark va r st ∧ 48 ≤ r) ∨
      ∃ va pa ty b cond acq ext, w.kind = .mem va pa none ty b cond acq ext ∧ s.isLocal pa = false) :
    s.waitLost t = (s.ctxFault (s.ctxOf t) tcPeerUnreachable).endWait t 3 := by
  obtain ⟨va, r, st, hk, hr⟩ | ⟨va, pa, ty, b, cond, acq, ext, hk, hl⟩ := hkind
  · simp only [waitLost, hw, hk, Nat.not_lt.mpr hr, if_false]
  · simp only [waitLost, hw, hk, hl, Bool.false_eq_true, if_false]

theorem waitLoss_due {w : Wait} (hw : (s.thread t).wait = some w) (hsent : w.sent + 512000 ≤ s.now)
    (hflit : s.flitWaits (State.waitFlit t) = false) (hpend : s.flitPending (State.waitFlit t) = false) :
    exec (.accessLoss ⟨2 ^ 32 + t, false⟩) s = .next (s.waitLost t) := by
  have hid : 2 ^ 32 + t - 2 ^ 32 = t := Nat.add_sub_cancel_left ..
  have hx : (if 2 ^ 32 ≤ 2 ^ 32 + t then s.loseWait (2 ^ 32 + t - 2 ^ 32) false
      else s.onLoan fun s => s.loseById (2 ^ 32 + t) false) = s.waitLost t := by
    rw [if_pos (Nat.le_add_right ..), hid]
    simp only [loseWait, hw, lossDue, hpend, hsent, dropFlit_none hflit, Bool.not_false, Bool.false_and, decide_true, Bool.and_self,
      Bool.false_eq_true, if_false, if_true]
  exact congrArg Host.Outcome.next hx

end

end Sys2Proof.Machine.State

namespace Sys2Proof

open Sys2Proof.Machine State

theorem storeBackpressure_outcomes (s : State) (t : Nat) (g : Group) (x : StArgs) (hg : s.groupOf t = some g)
    (hi : State.instrAt g = some (.st x)) (hst : g.stalled = true) (hx : s.guardTrue t x.g = true) :
    let va := s.addr64 t x.base (x.off.toInt * x.size.bytes)
    let c := s.ctxOf t
    let spill := s.spillTraps c && s.spillUsed (tidCore t) c
    ∀ from_, (s.thread t).fullFrom = some from_ →
      (spill = true → exec (.storeBackpressure t) s = .next (s.trap t tcSpillQuota va)) ∧
      (spill = false → s.pressureTraps c = true → s.storeThresh c < s.cyc - from_ →
        exec (.storeBackpressure t) s = .next (s.trap t tcBackpressure va)) ∧
      (spill = false → s.pressureTraps c = false ∨ s.cyc - from_ ≤ s.storeThresh c →
        exec (.storeBackpressure t) s = .next s) := by
  intro va c spill since hf
  have he := storePressure_eq hg hi hst hx hf
  refine ⟨fun h => ?_, fun h hp ht => ?_, fun h hp => ?_⟩
  · rw [he, if_pos h]
  · have hlate : (s.pressureTraps c && decide (s.storeThresh c < s.cyc - since)) = true := by
      rw [hp, decide_eq_true ht, Bool.and_self]
    rw [he, if_neg fun e => Bool.false_ne_true (h.symm.trans e), if_pos hlate]
  · have hwait : (s.pressureTraps c && decide (s.storeThresh c < s.cyc - since)) = false := by
      obtain hp | hp := hp
      · rw [hp, Bool.false_and]
      · rw [decide_eq_false (Nat.not_lt.mpr hp), Bool.and_false]
    rw [he, if_neg fun e => Bool.false_ne_true (h.symm.trans e), if_neg fun e => Bool.false_ne_true (hwait.symm.trans e)]

/-- Settles O37, event by event. -/
theorem storesReachHome : Obligations.StoresReachHome := by
  intro s core spilled
  refine ⟨fun a rest hsq howned hcool => ⟨storeAtHome_held hsq howned hcool, fun u => storeAtHome_taken hsq howned hcool⟩,
    fun line c u hheld htail _ _ hu => spill_taken hheld htail hu, fun line d hd hwb hcool => ?_,
    fun n e hn he hs hdue => wcbSend_due hn he hs hdue,
    fun t g x hg hi hst hx => storeBackpressure_outcomes s t g x hg hi hst hx, fun a refused hsaved ha hid hl hdue => ?_,
    fun t w hw hsent hflit hpend hkind => ?_⟩
  · intro left
    obtain ⟨hcarried, hkept⟩ := carryLine_cases hd hwb
    refine ⟨fun h => ⟨_, dramWrite_eq hd hwb hcool, hcarried h⟩, fun hs h1 h2 => ?_⟩
    rw [dramWrite_eq hd hwb hcool, hkept hs h1 h2]
  · cases refused
    · obtain ⟨hpend, hsent⟩ := hdue
      refine accessLoss_due hsaved ha hid hl (fun h => nomatch h) ?_
      simp only [lossDue, hpend, hsent, Bool.false_eq_true, if_false, Bool.not_false, decide_true, Bool.and_self]
    · obtain ⟨hhost, hflit⟩ := hdue
      refine accessLoss_due hsaved ha hid hl (fun _ => hhost) ?_
      simp only [lossDue, hflit, if_true, Bool.not_false]
  · rw [waitLoss_due hw hsent hflit hpend, waitLost_due hw hkind]

end Sys2Proof
end

section
/-!
PROOFS. Ordered operations (06 R191, R199; 08 R229 to R232, R236): the order in which a receiver takes what it holds, and what
the acknowledgement or the rejection of an operation leaves at its source.
-/

namespace Sys2Proof.Machine.State

open Sys2Proof

/-! ### The lowest rank (R224, R229) -/

theorem stamp_of_rankBefore {a b : Rank} (h : rankBefore a b = true) : a.stamp ≤ b.stamp := by
  unfold rankBefore at h
  split at h
  · exact Nat.le_of_lt (of_decide_eq_true h)
  · omega

theorem stamp_of_not_rankBefore {a b : Rank} (h : rankBefore a b = false) : b.stamp ≤ a.stamp := by
  unfold rankBefore at h
  split at h
  · exact Nat.le_of_not_lt (of_decide_eq_false h)
  · omega

/-- The lower of an operation found so far, if any, and another. -/
def lowerOf (m : Option OrdOp) (o : OrdOp) : Option OrdOp :=
  match m with
  | none => some o
  | some x => if rankBefore o.rank x.rank then some o else some x

/-- The lower of two is one of them, and its stamp is above neither's. -/
theorem lowerOf_some (m : Option OrdOp) (o : OrdOp) : ∃ x, lowerOf m o = some x ∧ (x = o ∨ m = some x) ∧
    x.rank.stamp ≤ o.rank.stamp ∧ ∀ y, m = some y → x.rank.stamp ≤ y.rank.stamp := by
  cases m with
  | none => exact ⟨o, rfl, .inl rfl, Nat.le_refl _, fun y h => nomatch h⟩
  | some y =>
    cases h : rankBefore o.rank y.rank with
    | true =>
      refine ⟨o, by simp only [lowerOf, h, if_true], .inl rfl, Nat.le_refl _, fun z hz => ?_⟩
      rw [← Option.some.inj hz]
      exact stamp_of_rankBefore h
    | false =>
      refine ⟨y, by simp only [lowerOf, h, Bool.false_eq_true, if_false], .inr rfl, stamp_of_not_rankBefore h, fun z hz => ?_⟩
      rw [Option.some.inj hz]

theorem foldl_lowerOf {l : List OrdOp} {m : Option OrdOp} {n : OrdOp} (h : l.foldl lowerOf m = some n) :
    (n ∈ l ∨ m = some n) ∧ (∀ o ∈ l, n.rank.stamp ≤ o.rank.stamp) ∧ ∀ y, m = some y → n.rank.stamp ≤ y.rank.stamp := by
  induction l generalizing m with
  | nil =>
    have hm : m = some n := h
    refine ⟨.inr hm, fun o ho => absurd ho List.not_mem_nil, fun y hy => ?_⟩
    rw [Option.some.inj (hm.symm.trans hy)]
  | cons o l ih =>
    obtain ⟨x, hx, hfrom, hxo, hxm⟩ := lowerOf_some m o
    rw [List.foldl_cons, hx] at h
    obtain ⟨hn, hl, hfirst⟩ := ih h
    have hnx := hfirst x rfl
    refine ⟨?_, fun p hp => ?_, fun y hy => Nat.le_trans hnx (hxm y hy)⟩
    · obtain hn | hn := hn
      · exact .inl (List.mem_cons_of_mem _ hn)
      · obtain e | e := hfrom
        · exact .inl (by rw [← Option.some.inj hn, e]; exact List.mem_cons_self ..)
        · exact .inr (by rw [e, Option.some.inj hn])
    · obtain e | hp := List.mem_cons.mp hp
      · rw [e]
        exact Nat.le_trans hnx hxo
      · exact hl p hp

theorem nextHeld_eq (s : State) (r : Nat) : s.nextHeld r =
    (s.ords.filter fun o => o.recv = r && o.st = .held && decide (o.rank.stamp < s.markOf r)).foldl lowerOf none := rfl

/-- R229: a receiver takes an operation that it holds below its watermark, and of those it holds none of lower stamp. -/
theorem nextHeld_lowest {s : State} {r : Nat} {n : OrdOp} (h : s.nextHeld r = some n) : n ∈ s.ords ∧ n.recv = r ∧ n.st = .held ∧
    n.rank.stamp < s.markOf r ∧ ∀ m ∈ s.ords, m.recv = r → m.st = .held → n.rank.stamp ≤ m.rank.stamp := by
  rw [nextHeld_eq] at h
  obtain ⟨hn, hl, -⟩ := foldl_lowerOf h
  obtain hn | hn := hn
  · obtain ⟨hmem, hcond⟩ := List.mem_filter.mp hn
    simp only [Bool.and_eq_true, decide_eq_true_eq] at hcond
    obtain ⟨⟨hr, hst⟩, hlt⟩ := hcond
    refine ⟨hmem, hr, hst, hlt, fun m hm hmr hms => ?_⟩
    by_cases hmark : m.rank.stamp < s.markOf r
    · refine hl m (List.mem_filter.mpr ⟨hm, ?_⟩)
      simp only [hmr, hms, hmark, decide_true, Bool.and_self]
    · omega
  · cases hn

/-! ### The end of an ordered access (R199, R225, R231) -/

section
variable {s : State} {a : Access} {p : Nat}

/-- What completes an access that acquires nothing changes threads and, of accesses, takes it out. -/
theorem threadsOnly_complete (hacq : a.acq = none) (v stamp : Nat) : ThreadsOnly (s.withoutAcc a.id) (s.complete a v stamp) := by
  have e : s.complete a v stamp = ((s.withoutAcc a.id).deliver a v).fall a := by
    rw [complete, hacq]
    rfl
  rw [e]
  exact (threadsOnly_deliver _ a v).trans (threadsOnly_fall _ a)

/-- R38: an access of one thread that acquires nothing completes. -/
theorem completed_complete (ht : a.tids = [p]) (hp : s.hasThread p = true) (hcnt : a.op.counted = true) (hacq : a.acq = none)
    (v stamp : Nat) : completed s (s.complete a v stamp) a p v := by
  have hp' : (s.withoutAcc a.id).hasThread p = true := hp
  have e : s.complete a v stamp = ((s.withoutAcc a.id).wrD p a.dst a.grp.2 v).modThread p fun x => x.uncount a.ctr := by
    rw [complete, hacq]
    refine (congrArg (fun u : State => u.fall a) (deliver_one ht hp' v)).trans ?_
    exact fall_one ht (hasThread_wrD hp' ..) hcnt
  refine ⟨?_, ?_, fun hd hf => ?_⟩
  · have e := congrArg State.accs (threadsOnly_complete (s := s) hacq v stamp)
    exact e
  · rw [e, thread_modThread, ctr_uncount, ctr_wrD]
    rfl
  · rw [e, rdN_congr (rd_uncount _ _ _ _), rdN_wrD hd hf]

theorem completed_of_threads {u t : State} {v : Nat} (ha : u.accs = s.accs) (hth : u.threads = s.threads) (h : completed u t a p v) :
    completed s t a p v := by
  simpa only [completed, ha, thread_of_threads hth] using h

end

/-- What the acknowledgement of an own access changes before it completes: no thread, access or other operation. -/
theorem ackOrd_access {s : State} {o : OrdOp} {a : Access} (hw : o.work = .access a) (old stamp : Nat) :
    ∃ u, s.ackOrd o old stamp = u.complete a old stamp ∧ Cached (s.dropOrd o.id) u := by
  simp only [ackOrd, hw]
  refine ⟨_, rfl, Cached.trans ?_ (cached_dropL1 _ _ _)⟩
  split
  · exact .refl _
  · exact cached_raise _ _ _ _

theorem cached_ords {s u : State} (h : Cached s u) : u.ords = s.ords := by
  have e := congrArg State.ords h
  exact e

/-- R231: the source of an acknowledged access has its value. -/
theorem ackOrd_completes {s : State} {o : OrdOp} {a : Access} {p : Nat} (hw : o.work = .access a) (ht : a.tids = [p])
    (hp : s.hasThread p = true) (hcnt : a.op.counted = true) (hacq : a.acq = none) (old stamp : Nat) :
    (s.ackOrd o old stamp).mem = s.mem ∧ (s.ackOrd o old stamp).ords = s.ords.filter (fun x => x.id ≠ o.id) ∧
      completed s (s.ackOrd o old stamp) a p old := by
  obtain ⟨u, hu, hc⟩ := ackOrd_access hw old stamp
  have hthreads : u.threads = s.threads := hc.threads
  have hp' : u.hasThread p = true := by rw [hasThread, hthreads]; exact hp
  have hrest := threadsOnly_complete (s := u) hacq old stamp
  rw [hu]
  refine ⟨hrest.mem.trans hc.mem, ?_, completed_of_threads hc.accs hthreads (completed_complete ht hp' hcnt hacq old stamp)⟩
  have e := congrArg State.ords hrest
  exact Eq.trans e (cached_ords hc)

theorem countLate_files (s : State) (o : OrdOp) :
    (s.countLate o).mem = s.mem ∧ (s.countLate o).threads = s.threads ∧ (s.countLate o).ords = s.ords := by
  unfold countLate
  split <;> exact ⟨rfl, rfl, rfl⟩

/-- R199, R232: an own access that is refused as late fails at its source. -/
theorem failOrd_access {s : State} {o : OrdOp} {a : Access} (hw : o.work = .access a) (code : Nat) :
    ((s.countLate o).failOrd o code).ords = s.ords.filter (fun x => x.id ≠ o.id) ∧
      failed s ((s.countLate o).failOrd o code) a code := by
  have e : (s.countLate o).failOrd o code = ((s.countLate o).dropOrd o.id).failAccess a code := by
    simp only [failOrd, hw]
  obtain ⟨hmem, hthreads, hords⟩ := countLate_files s o
  rw [e]
  refine ⟨(lossOnly_failAccess _ a code).ords.trans ?_, failed_of_threads hmem hthreads (failed_failAccess _ a code)⟩
  rw [← hords]
  rfl

/-! ### What comes back while nothing waits to be sent -/

theorem mem_tput {α : Type} {t : Tbl α} {n : Nat} {x : α} {c : Nat × α} (h : c ∈ tput t n x) : c ∈ t ∨ c = (n, x) := by
  induction t with
  | nil => exact .inr (List.mem_singleton.mp h)
  | cons y t ih =>
    unfold tput at h
    grind

theorem mem_of_tget {α : Type} {t : Tbl α} {n : Nat} {x : α} (h : tget t n = some x) : (n, x) ∈ t := by
  induction t with
  | nil => cases h
  | cons y t ih =>
    unfold tget at h
    grind

/-- R263: no flush has a row to send. -/
def NoFlush (s : State) : Prop := ∀ c ∈ s.cores, c.2.flushes = []

theorem pumpFlushes_none {s : State} (h : NoFlush s) : s.pumpFlushes = s :=
  foldl_same _ _ _ fun c hc => by rw [h c hc]; rfl

theorem noFlush_modCore {s : State} (h : NoFlush s) {f : Core → Core} (hf : ∀ k, (f k).flushes = k.flushes) (c : Nat) :
    NoFlush (s.modCore c f) := by
  intro x hx
  obtain hx | rfl := mem_tput hx
  · exact h x hx
  · refine (hf _).trans ?_
    unfold core
    cases e : tget s.cores c with
    | none => rfl
    | some k => exact h _ (mem_of_tget e)

theorem noFlush_of_cores {s u : State} (hc : u.cores = s.cores) (h : NoFlush s) : NoFlush u := by
  unfold NoFlush
  rw [hc]
  exact h

theorem hearFlit_files (s : State) (pa : Nat) :
    (s.hearFlit pa).mem = s.mem ∧ (s.hearFlit pa).threads = s.threads ∧ (s.hearFlit pa).ords = s.ords ∧
      (s.hearFlit pa).cores = s.cores ∧ (s.hearFlit pa).node = s.node := by
  unfold hearFlit
  split
  · exact ⟨rfl, rfl, rfl, rfl, rfl⟩
  · dsimp only
    split <;> exact ⟨rfl, rfl, rfl, rfl, rfl⟩

section
variable {s : State} {id : Nat} {o : OrdOp} {a : Access} {z : Size} {d : Nat}

/-- An operation as its receiver leaves it: applied, with what it read. -/
def appliedAs (old stamp : Nat) (x : OrdOp) : OrdOp := { x with st := .applied old stamp }

/-- R229: a store to another node takes effect in the pod picture. -/
theorem applyOrd_store (hw : o.work = .access a) (hop : a.op = .store z d) (hl : s.isLocal a.pa = false) :
    s.applyOrd o = (s.putMem a.pa (natLe z.bytes d) o.rank.stamp).setOrd o.id
      (appliedAs (mnat s.mem a.pa z.bytes) (s.stampOf a.pa z.bytes)) := by
  unfold appliedAs
  simp only [applyOrd, hw, hop, hl, AccOp.writes, AccOp.len, Bool.and_false, Bool.false_eq_true, if_false]

/-- An operation changed under its identity is found as it now is. -/
theorem find_setOrd (h : s.ords.find? (fun x => x.id = id) = some o) {f : OrdOp → OrdOp} (hf : ∀ x, (f x).id = x.id) :
    (s.setOrd id f).ords.find? (fun x => x.id = id) = some (f o) := by
  have hid : o.id = id := by simpa using List.find?_some h
  have hkey : (fun x : OrdOp => decide (x.id = id)) ∘ (fun x => if x.id = id then f x else x) = fun x => decide (x.id = id) := by
    funext x
    simp only [Function.comp_apply]
    split
    · rw [hf]
    · rfl
  simp only [setOrd, List.find?_map, hkey, h, Option.map_some, hid, if_true]

/-- R191, R236: an acknowledged store of another node's home is performed, with nothing of lower rank before it. -/
theorem ackById_store (h : s.ords.find? (fun x => x.id = id) = some o) (hst : o.st = .sent) (hr : 48 ≤ o.recv)
    (hflit : s.flitWaits id = false) (hbehind : s.rankBehind o = false) (howned : s.ordOwned o = false)
    (hw : o.work = .access a) (hop : a.op = .store z d) (hl : s.isLocal a.pa = false) : ∃ (u : State) (old stamp : Nat),
      s.ackById id none = u.ackOrd (appliedAs old stamp o) old stamp ∧
        u.mem = mputs s.mem a.pa (natLe z.bytes d) ∧ u.threads = s.threads ∧ u.cores = s.cores ∧
        u.ords.filter (fun x => x.id ≠ id) = s.ords.filter fun x => x.id ≠ id := by
  obtain rfl : o.id = id := by simpa using List.find?_some h
  obtain ⟨hmem, hthreads, hords, hcores, hnode⟩ := hearFlit_files s a.pa
  have hl' : (s.hearFlit a.pa).isLocal a.pa = false := by simpa only [isLocal, hnode] using hl
  have hwait : (decide (o.recv < 48) || s.flitWaits o.id || s.rankBehind o || s.ordOwned o) = false := by
    rw [hflit, hbehind, howned, decide_eq_false (Nat.not_lt.mpr hr)]
    rfl
  have happly := applyOrd_store (s := s.hearFlit a.pa) hw hop hl'
  have hfind : ((s.hearFlit a.pa).applyOrd o).ords.find? (fun x => x.id = o.id) =
      some (appliedAs (mnat (s.hearFlit a.pa).mem a.pa z.bytes) ((s.hearFlit a.pa).stampOf a.pa z.bytes) o) := by
    rw [happly]
    exact find_setOrd (s := (s.hearFlit a.pa).putMem a.pa (natLe z.bytes d) o.rank.stamp) (hords.symm ▸ h) fun _ => rfl
  refine ⟨(s.hearFlit a.pa).applyOrd o, mnat (s.hearFlit a.pa).mem a.pa z.bytes, (s.hearFlit a.pa).stampOf a.pa z.bytes,
    ?_, ?_, ?_, ?_, ?_⟩
  · unfold ackById
    simp only [h, hst, hwait, hw, ordPa, learn, penReply, hfind, appliedAs, Bool.false_eq_true, if_false]
  · rw [happly, ← hmem]
    rfl
  · rw [happly]
    exact hthreads
  · rw [happly]
    exact hcores
  · rw [happly, ← hords]
    exact filter_map_marked OrdOp.id (appliedAs _ _) (fun _ => rfl) o.id _

theorem noFlush_ackOrd (hw : o.work = .access a) (hacq : a.acq = none) (h : NoFlush s) (old stamp : Nat) :
    NoFlush (s.ackOrd o old stamp) := by
  have hdone : ∀ u : State, NoFlush u → NoFlush (u.complete a old stamp) := fun u hu =>
    noFlush_of_cores (threadsOnly_complete hacq old stamp).cores hu
  have hraise : ∀ fl, NoFlush ((s.dropOrd o.id).raise a.core a.ctx fl) := fun fl => by
    unfold raise
    split
    · exact h
    · refine noFlush_modCore (s := s.dropOrd o.id) h ?_ _
      exact fun _ => rfl
  simp only [ackOrd, hw]
  refine hdone _ (noFlush_modCore ?_ ?_ _)
  · split
    · exact h
    · exact hraise _
  · exact fun _ => rfl

end

end Sys2Proof.Machine.State

namespace Sys2Proof

open Sys2Proof.Machine State

section
variable {s : State} {id : Nat} {o : OrdOp}

/-- R232: an operation that nothing above its stamp has taken yet fails at its source as late. -/
theorem orderLate_fails (h : s.ords.find? (fun x => x.id = id) = some o) (hsaved : s.outSaved = []) (hst : o.st = .sent)
    (hlate : 48 ≤ o.recv ∨ o.rank.stamp < s.markOf o.recv) (hflit : s.flitWaits id = false) {a : Access}
    (hw : o.work = .access a) : Gives (.orderLate id) s fun t =>
      t.ords = s.ords.filter (fun x => x.id ≠ o.id) ∧ failed s t a tcOrderLate := by
  have hpass : ((decide (o.recv < 48) && decide (s.markOf o.recv ≤ o.rank.stamp)) || s.flitWaits id) = false := by
    rw [hflit, Bool.or_false]
    obtain hr | hr := hlate
    · rw [decide_eq_false (Nat.not_lt.mpr hr), Bool.false_and]
    · rw [decide_eq_false (Nat.not_le.mpr hr), Bool.and_false]
  have hx : (s.onLoan fun s => s.lateById id) = (s.countLate o).failOrd o tcOrderLate := by
    rw [onLoan_home hsaved]
    simp only [lateById, h, hst, hpass, ne_eq, not_true_eq_false, Bool.false_eq_true, if_false]
  exact ⟨_, congrArg Host.Outcome.next hx, failOrd_access hw tcOrderLate⟩

/-- R229: an operation reaches its receiver here: rejected below the watermark, held above. -/
theorem arriveOwn_eq (h : s.ords.find? (fun x => x.id = id) = some o) (hst : o.st = .sent) (hr : o.recv < 48) :
    exec (.orderedPacketArrival (.own id)) s = .next
      (if o.rank.stamp < s.markOf o.recv then s.setOrd id fun x => { x with st := .rejected }
      else ((s.setOrd id fun x => { x with st := .held }).makeRoom o.recv).drainRecvs) := by
  refine congrArg Host.Outcome.next ?_
  simp only [arriveOwn, h, hst, Nat.not_le.mpr hr, ne_eq, not_true_eq_false, decide_false, Bool.or_false, Bool.false_eq_true, if_false]

theorem orderedAck_eq (hsaved : s.outSaved = []) (reply : Option (W128 × Nat)) {u : State} (h : s.ackById id reply = u) :
    exec (.orderedAck ⟨id, reply⟩) s = .next u.pumpFlushes := by
  refine congrArg (fun v : State => Host.Outcome.next v.pumpFlushes) ?_
  rw [onLoan_home hsaved]
  exact h

/-- R191, R236: the acknowledgement of a store to another node. -/
theorem orderedAck_store (h : s.ords.find? (fun x => x.id = id) = some o) (hsaved : s.outSaved = []) (hst : o.st = .sent)
    (hr : 48 ≤ o.recv) (hflit : s.flitWaits id = false) (hbehind : s.rankBehind o = false) (howned : s.ordOwned o = false)
    {a : Access} {z : Size} {d p : Nat} (hw : o.work = .access a) (hop : a.op = .store z d) (hl : s.isLocal a.pa = false)
    (ht : a.tids = [p]) (hp : s.hasThread p = true) (hacq : a.acq = none) (hquiet : NoFlush s) :
    Gives (.orderedAck ⟨id, none⟩) s fun t => t.mem = mputs s.mem a.pa (natLe z.bytes d) ∧
      t.ords = s.ords.filter (fun x => x.id ≠ o.id) ∧ (t.thread p).stc = (s.thread p).stc - 1 := by
  have hid : o.id = id := by simpa using List.find?_some h
  obtain ⟨u, old, stamp, hx, humem, huthreads, hucores, huords⟩ := ackById_store h hst hr hflit hbehind howned hw hop hl
  have hp' : u.hasThread p = true := by rw [hasThread, huthreads]; exact hp
  have hcnt : a.op.counted = true := by rw [hop]; rfl
  have hctr : a.ctr = .st := by simp only [Access.ctr, hop]
  obtain ⟨hmem, hords, -, hcount, -⟩ := ackOrd_completes (o := appliedAs old stamp o) hw ht hp' hcnt hacq old stamp
  have hstill := noFlush_ackOrd (o := appliedAs old stamp o) hw hacq (noFlush_of_cores hucores hquiet) old stamp
  refine ⟨_, orderedAck_eq hsaved none hx, ?_⟩
  rw [pumpFlushes_none hstill]
  refine ⟨hmem.trans humem, ?_, ?_⟩
  · rw [hords]
    exact hid.symm ▸ huords
  · rw [hctr, thread_of_threads huthreads] at hcount
    exact hcount

end

/-- Settles O38, event by event. -/
theorem orderedEvents : Obligations.OrderedEvents := by
  intro s id o h
  refine ⟨fun hsaved hst hlate hflit a hw => orderLate_fails h hsaved hst hlate hflit hw, fun hst hr hlow => ?_,
    fun hst hr hhigh => ?_, fun old stamp reply hsaved hst => ?_, fun old stamp a p hw ht hp hcnt hacq => ?_,
    fun reply hsaved hst => ?_, fun a z d p hsaved hst hr hflit hbehind howned hw hop hl ht hp hacq hquiet => ?_,
    fun reply hsaved hst hbehind => ?_, fun r n => nextHeld_lowest⟩
  · rw [arriveOwn_eq h hst hr, if_pos hlow]
  · rw [arriveOwn_eq h hst hr, if_neg (Nat.not_lt.mpr hhigh)]
  · refine orderedAck_eq hsaved reply ?_
    simp only [ackById, h, hst]
  · exact ackOrd_completes hw ht hp hcnt hacq old stamp
  · refine orderedAck_eq hsaved reply ?_
    simp only [ackById, h, hst]
  · exact orderedAck_store h hsaved hst hr hflit hbehind howned hw hop hl ht hp hacq hquiet
  · refine orderedAck_eq hsaved reply ?_
    simp only [ackById, h, hst, hbehind, Bool.or_true, Bool.true_or, if_true]

end Sys2Proof
end

section
/-!
PROOFS. Stores and shared loads at issue (07 R188, R205, R206): an access is made and counted, and takes its way: into a store
queue or a buffer, on its own, or with a stamp.
-/

namespace Sys2Proof.Machine.State

open Sys2Proof

/-! ### Threads changed one by one -/

theorem rdP_of_threads {s u : State} (h : u.threads = s.threads) (q : Nat) (c : Pred) : u.rdP q c = s.rdP q c := by
  simp only [rdP, thread_of_threads h]

theorem rdP_modThread {f : Thread → Thread} (hf : ∀ x, (f x).p = x.p) (s : State) (t q : Nat) (c : Pred) :
    (s.modThread t f).rdP q c = s.rdP q c := by
  simp only [rdP, modThread, thread_setThread]
  split
  · rfl
  · split
    · rename_i e
      rw [hf, e]
    · rfl

/-- Distinct threads changed in turn are each changed once. -/
theorem thread_modThreads {l : List Nat} (hl : l.Nodup) (f : Thread → Thread) (s : State) (q : Nat) :
    (l.foldl (fun s t => s.modThread t f) s).thread q = if q ∈ l then f (s.thread q) else s.thread q := by
  induction l generalizing s with
  | nil => simp
  | cons t l ih =>
    obtain ⟨ht, hl⟩ := List.nodup_cons.mp hl
    rw [List.foldl_cons, ih hl, modThread, thread_setThread]
    by_cases e : q = t
    · subst e
      simp [ht]
    · simp [e]

/-! ### An access is made (R38) -/

/-- What the making of an access does to each of its threads. -/
def taking (op : AccOp) (acq : Option Scope) (id : Nat) (y : Thread) : Thread :=
  let y := if op.counted then y.count (if op.isLoad then .ld else .st) else y
  if acq.isSome then { y with fence := id } else y

section
variable (op : AccOp) (acq : Option Scope) (id : Nat) (y : Thread)

theorem taking_load (z : Size) : (taking (.load z) acq id y).ld = y.ld + 1 := by
  unfold taking
  dsimp only
  split <;> rfl

theorem taking_store (z : Size) (d : Nat) : (taking (.store z d) acq id y).stc = y.stc + 1 := by
  unfold taking
  dsimp only
  split <;> rfl

/-- Registers, predicates and the workgroup stand. -/
theorem taking_keeps : (taking op acq id y).g = y.g ∧ (taking op acq id y).p = y.p ∧ (taking op acq id y).wg = y.wg := by
  unfold taking
  cases op.isLoad <;> cases op.counted <;> cases acq <;> exact ⟨rfl, rfl, rfl⟩

end

section
variable (s : State) (g : Group) (tids : List Nat) (va : W64) (x : Xlat) (op : AccOp) (dst : Reg) (hint : Retain)
  (acq rel : Option Scope) (ord : Bool)

theorem newAccess_state : (s.newAccess g tids va x op dst hint acq rel ord).2 =
    tids.foldl (fun u t => u.modThread t (taking op acq s.fresh)) { s with fresh := s.fresh + 1 } := rfl

end

/-- Nothing changed but threads, workgroups, cores, marks of retention, dirty lines, replicas and the next identity. -/
def IssueOnly (s u : State) : Prop := { u with threads := s.threads, wgs := s.wgs, cores := s.cores, hints := s.hints
                                               fresh := s.fresh } = s

namespace IssueOnly

variable {s u v : State}

theorem trans (a : IssueOnly s u) (b : IssueOnly u v) : IssueOnly s v := by
  have h := congrArg (fun x : State => { x with
    threads := s.threads, wgs := s.wgs, cores := s.cores, hints := s.hints, fresh := s.fresh }) b
  exact h.trans a

theorem mem (h : IssueOnly s u) : u.mem = s.mem := by
  have e := congrArg State.mem h
  exact e

theorem flocks (h : IssueOnly s u) : u.flocks = s.flocks := by
  have e := congrArg State.flocks h
  exact e

theorem accs (h : IssueOnly s u) : u.accs = s.accs := by
  have e := congrArg State.accs h
  exact e

theorem ords (h : IssueOnly s u) : u.ords = s.ords := by
  have e := congrArg State.ords h
  exact e

theorem isLocal (h : IssueOnly s u) (pa : Nat) : u.isLocal pa = s.isLocal pa := by
  have e := congrArg (fun x : State => x.isLocal pa) h
  exact e

theorem clock (h : IssueOnly s u) (n : Nat) : u.clock n = s.clock n := by
  have e := congrArg (fun x : State => x.clock n) h
  exact e

theorem fabricOk (h : IssueOnly s u) (c port : Nat) : u.fabricOk (u.ctxTenant c) port = s.fabricOk (s.ctxTenant c) port := by
  have e := congrArg (fun x : State => x.fabricOk (x.ctxTenant c) port) h
  exact e

theorem dead (h : IssueOnly s u) (c : Nat) : (u.vd (u.ctxVd c)).dead = (s.vd (s.ctxVd c)).dead := by
  have e := congrArg (fun x : State => (x.vd (x.ctxVd c)).dead) h
  exact e

theorem reaches (h : IssueOnly s u) {c pa : Nat} (hr : Reaches s c pa) : Reaches u c pa := by
  unfold Reaches
  rw [h.isLocal, h.fabricOk, h.dead]
  exact hr

end IssueOnly

theorem issueOnly_newAccess (s : State) (g : Group) (tids : List Nat) (va : W64) (x : Xlat) (op : AccOp) (dst : Reg)
    (hint : Retain) (acq rel : Option Scope) (ord : Bool) :
    IssueOnly s (s.newAccess g tids va x op dst hint acq rel ord).2 ∧
      (s.newAccess g tids va x op dst hint acq rel ord).2.fresh = s.fresh + 1 ∧
      (s.newAccess g tids va x op dst hint acq rel ord).2.wgs = s.wgs := by
  rw [newAccess_state]
  refine List.foldlRecOn (motive := fun u : State => IssueOnly s u ∧ u.fresh = s.fresh + 1 ∧ u.wgs = s.wgs) tids _
    ⟨rfl, rfl, rfl⟩ fun u hu t _ => ?_
  obtain ⟨hrest, hkept⟩ := hu
  exact ⟨hrest.trans rfl, hkept⟩

/-! ### A store is made (R205) -/

/-- What stands when a store of thread `t` has been made: it is counted, its workgroup committed, and its line marked. -/
structure StoreMade (s v : State) (t : Nat) : Prop where
  rest : IssueOnly s v
  fresh : v.fresh = s.fresh + 1
  threads : ∃ f : Thread → Thread, (∀ x, (f x).g = x.g ∧ (f x).p = x.p ∧ (f x).stc = x.stc + 1) ∧
    v.threads = (s.modThread t f).threads
  committed : (v.wg (s.thread t).wg).committed = (!isCp t || (s.wg (s.thread t).wg).committed)
  sq : ∀ c, (v.core c).sq = (s.core c).sq

namespace StoreMade

variable {s v w : State} {t : Nat}

theorem stc (h : StoreMade s v t) : (v.thread t).stc = (s.thread t).stc + 1 := by
  obtain ⟨f, hf, e⟩ := h.threads
  obtain ⟨-, -, hstc⟩ := hf (s.thread t)
  rw [thread_of_threads e, thread_modThread, hstc]

theorem rd (h : StoreMade s v t) (q : Nat) (c : Reg) : v.rd q c = s.rd q c := by
  obtain ⟨f, hf, e⟩ := h.threads
  exact (rd_of_files e h.rest.flocks q c).trans (rd_modThread (fun x => (hf x).1) s t q c)

theorem rdP (h : StoreMade s v t) (q : Nat) (c : Pred) : v.rdP q c = s.rdP q c := by
  obtain ⟨f, hf, e⟩ := h.threads
  exact (rdP_of_threads e q c).trans (rdP_modThread (fun x => (hf x).2.1) s t q c)

/-- Marks in caches leave the store as it was made. -/
theorem marked (h : StoreMade s v t) (hrest : { w with cores := v.cores, hints := v.hints } = v)
    (hsq : ∀ c, (w.core c).sq = (v.core c).sq) : StoreMade s w t where
  rest := by
    have e := congrArg (fun x : State => { x with
      threads := s.threads, wgs := s.wgs, cores := s.cores, hints := s.hints, fresh := s.fresh }) hrest
    exact Eq.trans e h.rest
  fresh := by
    have e := congrArg State.fresh hrest
    exact Eq.trans e h.fresh
  threads := by
    obtain ⟨f, hf, ht⟩ := h.threads
    have e := congrArg State.threads hrest
    exact ⟨f, hf, Eq.trans e ht⟩
  committed := by
    have e := congrArg (fun x : State => (x.wg (s.thread t).wg).committed) hrest
    exact Eq.trans e h.committed
  sq c := (hsq c).trans (h.sq c)

theorem markLine (h : StoreMade s v t) (c line : Nat) (r : Retain) : StoreMade s (v.markLine c line r) t := by
  unfold State.markLine
  extract_lets u
  have hu : StoreMade s u t := by
    simp only [u]
    split
    · refine h.marked rfl fun j => ?_
      exact core_modCore_keeps (P := Core.sq) (fun _ => by rfl) j
    · exact h
  clear_value u
  split
  · exact hu.marked rfl fun _ => rfl
  · exact hu

theorem updateL1 (h : StoreMade s v t) (c pa : Nat) (bs : List Byte) (stamp : Nat) : StoreMade s (v.updateL1 c pa bs stamp) t := by
  unfold State.updateL1
  split
  · exact h
  · refine h.marked rfl fun j => ?_
    exact core_modCore_keeps (P := Core.sq) (fun _ => by rfl) j

end StoreMade

/-- R38, R205: a store that is made is counted, and its workgroup has committed. -/
theorem storeMade_newAccess (s : State) (g : Group) (t : Nat) (va : W64) (x : Xlat) (z : Size) (d : Nat) (dst : Reg) (hint : Retain)
    (rel : Option Scope) (ord : Bool) :
    StoreMade s ((s.newAccess g [t] va x (.store z d) dst hint none rel ord).2.commitWg t) t := by
  obtain ⟨hrest, hfresh, hwgs⟩ := issueOnly_newAccess s g [t] va x (.store z d) dst hint none rel ord
  have hstate := newAccess_state s g [t] va x (.store z d) dst hint none rel ord
  generalize (s.newAccess g [t] va x (.store z d) dst hint none rel ord).2 = u at hrest hfresh hwgs hstate ⊢
  rw [List.foldl_cons, List.foldl_nil] at hstate
  have hthreads : u.threads = (s.modThread t (taking (.store z d) none s.fresh)).threads := by rw [hstate]; rfl
  have hcores : u.cores = s.cores := by rw [hstate]; rfl
  have hwg : (u.thread t).wg = (s.thread t).wg := by
    rw [thread_of_threads hthreads, thread_modThread]
    exact (taking_keeps _ _ _ _).2.2
  have htaking : ∀ x, (taking (.store z d) none s.fresh x).g = x.g ∧ (taking (.store z d) none s.fresh x).p = x.p ∧
      (taking (.store z d) none s.fresh x).stc = x.stc + 1 := fun x =>
    ⟨(taking_keeps _ _ _ x).1, (taking_keeps _ _ _ x).2.1, taking_store _ _ x z d⟩
  cases hcp : isCp t with
  | true =>
    have e : u.commitWg t = u := by rw [commitWg, hcp, if_pos rfl]
    rw [e]
    refine ⟨hrest, hfresh, ⟨_, htaking, hthreads⟩, ?_, fun c => by rw [core_of_cores hcores]⟩
    rw [wg_of_wgs hwgs, hcp]
    rfl
  | false =>
    have e : u.commitWg t = u.modWg (s.thread t).wg fun w => { w with committed := true } := by
      rw [commitWg, hcp, if_neg Bool.false_ne_true, hwg]
    rw [e]
    refine ⟨hrest.trans rfl, hfresh, ⟨_, htaking, hthreads⟩, ?_, fun c => ?_⟩
    · rw [modWg, wg_setWg, if_pos rfl, hcp]
      rfl
    · exact congrArg Core.sq (core_of_cores (u := u.modWg _ _) hcores c)

/-! ### An ordered store leaves (R190, R224) -/

/-- Of a state, what an ordered operation that has entered its source's list leaves as it is. -/
structure Queued (s w : State) (o : OrdOp) : Prop where
  ords : w.ords = s.ords ++ [o]
  mem : w.mem = s.mem
  accs : w.accs = s.accs
  threads : w.threads = s.threads
  flocks : w.flocks = s.flocks

/-- R224: the operation that leaves a source, with its rank. -/
def leaving (s : State) (src pa : Nat) (work : OrdWork) : OrdOp :=
  { id := s.fresh, src, recv := s.recvOf pa, work, st := .sent, left := s.now
    rank := { stamp := s.clock src, pkg := s.node.toNat, idx := src
              seq := (if src < 256 then (s.core src).seq else (tget s.cpSeq (src - 256)).getD 0) % 65536 } }

/-- R190, R224: an ordered operation is on its source's list, and, for another node, its flit goes or waits. -/
theorem sendOrdered_queued (s : State) (src pa ctx : Nat) (work : OrdWork) : ∃ w, Queued s w (s.leaving src pa work) ∧
    s.sendOrdered src pa ctx work = if s.isLocal pa then w else w.sendFlit (s.ctxTenant ctx) (portTo pa) s.fresh := by
  unfold sendOrdered newId leaving
  by_cases h : src < 256
  · simp only [h, if_true]
    refine ⟨_, ?_, rfl⟩
    exact ⟨rfl, rfl, rfl, rfl, rfl⟩
  · simp only [h, if_false]
    refine ⟨_, ?_, rfl⟩
    exact ⟨rfl, rfl, rfl, rfl, rfl⟩

/-- The flit of an operation that ends a list goes or waits with that operation alone. -/
theorem packetOnly_queued {s w : State} {o : OrdOp} (h : Queued s w o) (tenant port : Nat) :
    PacketOnly o.id w (w.sendFlit tenant port o.id) := by
  cases e : w.ords.find? fun x => x.id = o.id with
  | none =>
    have hne := List.find?_eq_none.mp e o (by rw [h.ords]; exact List.mem_append_right _ (List.mem_singleton.mpr rfl))
    exact absurd (decide_eq_true rfl) hne
  | some x => exact packetOnly_sendFlit w tenant port o.id e

/-- A flit that goes leaves an operation of the list with its identity, and the others as they were. -/
theorem PacketOnly.last {s w r : State} {o : OrdOp} (hq : Queued s w o) (h : PacketOnly o.id w r) :
    (∃ x ∈ r.ords, ∃ n, x = { o with left := n }) ∧
      (r.ords.filter fun x => x.id ≠ o.id) = s.ords.filter fun x => x.id ≠ o.id := by
  have hlast : ([o].filter fun x => x.id ≠ o.id) = [] := by simp
  have hfilter : (w.ords.filter fun x => x.id ≠ o.id) = s.ords.filter fun x => x.id ≠ o.id := by
    rw [hq.ords, List.filter_append, hlast, List.append_nil]
  have hmem : o ∈ w.ords := by
    rw [hq.ords]
    exact List.mem_append_right _ (List.mem_singleton.mpr rfl)
  obtain e | e := h.ords
  · rw [e]
    exact ⟨⟨o, hmem, o.left, rfl⟩, hfilter⟩
  · rw [e]
    refine ⟨⟨{ o with left := w.now }, List.mem_map.mpr ⟨o, hmem, if_pos rfl⟩, w.now, rfl⟩, ?_⟩
    rw [← hfilter]
    exact filter_map_marked OrdOp.id (fun x => { x with left := w.now }) (fun _ => rfl) o.id _

/-- R190, R205: an ordered store leaves with its source's time as its stamp. -/
theorem StoreMade.sendsOrdered {s v : State} {t : Nat} {a : Access} {P : Access → Prop} (h : StoreMade s v t) (ht : a.tids = [t])
    (hP : P a) (hr : (v.isLocal a.pa || v.fabricOk (v.ctxTenant a.ctx) (portTo a.pa)) = true) :
    sendsOrdered s (v.sendOrdAccess (ordSource t) a) t .st P := by
  obtain ⟨w, hq, e⟩ := sendOrdered_queued v (ordSource t) a.pa a.ctx (.access a)
  have hpacket : PacketOnly (v.leaving (ordSource t) a.pa (.access a)).id w (v.sendOrdAccess (ordSource t) a) := by
    rw [sendOrdAccess, if_pos hr, e]
    split
    · exact ⟨rfl, .inl rfl⟩
    · exact packetOnly_queued hq _ _
  obtain ⟨⟨x, hx, n, hxo⟩, hfilter⟩ := hpacket.last hq
  have hrest := hpacket.rest
  generalize v.sendOrdAccess (ordSource t) a = r at hrest hx hfilter
  have hthreads : r.threads = v.threads := by
    have e := congrArg State.threads hrest
    exact Eq.trans e hq.threads
  have hflocks : r.flocks = v.flocks := by
    have e := congrArg State.flocks hrest
    exact Eq.trans e hq.flocks
  refine ⟨⟨x, hx, a, ?_⟩, ?_, ?_, ?_, ?_, fun q c => ?_, fun q c => ?_⟩
  · rw [hxo]
    exact ⟨h.fresh, rfl, rfl, rfl, h.rest.clock _, ht, hP⟩
  · rw [← h.fresh, ← h.rest.ords]
    exact hfilter
  · have e := congrArg State.accs hrest
    exact Eq.trans e (hq.accs.trans h.rest.accs)
  · have e := congrArg State.mem hrest
    exact Eq.trans e (hq.mem.trans h.rest.mem)
  · rw [thread_of_threads hthreads]
    exact h.stc
  · rw [rd_of_files hthreads hflocks, h.rd]
  · rw [rdP_of_threads hthreads, h.rdP]

/-! ### An access leaves on its own (R203, R206) -/

theorem isHost_isLocal {s : State} {pa : Nat} (h : isHost pa = true) : s.isLocal pa = false := by
  simp only [isLocal, h, Bool.not_true, Bool.false_and]

/-- The package with one more outstanding access. -/
def withAcc (u : State) (a : Access) : State := { u with accs := u.accs ++ [a] }

theorem pushAccess_eq (u : State) (a : Access) : u.pushAccess a =
    if isHost a.pa then
      if (u.vd (u.ctxVd a.ctx)).dead.contains (a.pa / 2 ^ 48 % 16) then (u.withAcc a).failAccess a tcPeerUnreachable else u.withAcc a
    else if u.isLocal a.pa then u.withAcc a
    else if u.fabricOk (u.ctxTenant a.ctx) (portTo a.pa) then (u.withAcc a).sendFlit (u.ctxTenant a.ctx) (portTo a.pa) a.id
    else (u.withAcc a).failAccess a tcPeerUnreachable := rfl

/-- R375, R408: an access that reaches its home's package is outstanding; its flit, for another node, goes or waits. -/
theorem pushAccess_reaches {u : State} {a : Access} (hr : Reaches u a.ctx a.pa) :
    u.pushAccess a = u.withAcc a ∨ ∃ tenant port, u.pushAccess a = (u.withAcc a).sendFlit tenant port a.id := by
  rw [pushAccess_eq]
  cases hhost : isHost a.pa with
  | true =>
    obtain hl | ⟨h, -⟩ | ⟨-, hdead⟩ := hr
    · exact absurd (hl.symm.trans (isHost_isLocal hhost)) (by decide)
    · exact absurd (hhost.symm.trans h) (by decide)
    · exact .inl (by rw [if_pos rfl, hdead, if_neg Bool.false_ne_true])
  | false =>
    rw [if_neg Bool.false_ne_true]
    cases hl : u.isLocal a.pa with
    | true => exact .inl (if_pos rfl)
    | false =>
      obtain h | ⟨-, hok⟩ | ⟨h, -⟩ := hr
      · exact absurd (h.symm.trans hl) (by decide)
      · exact .inr ⟨_, _, by rw [if_neg Bool.false_ne_true, if_pos hok]⟩
      · exact absurd (h.symm.trans hhost) (by decide)

/-- An access that leaves is outstanding with its identity, and changes no counter. -/
theorem pushAccess_oneMore {s u : State} {a : Access} {P : Access → Prop} (hid : a.id = s.fresh) (haccs : u.accs = s.accs)
    (hP : ∀ n, P { a with sent := n }) (hr : Reaches u a.ctx a.pa) :
    oneMore s (u.pushAccess a) P ∧ (u.pushAccess a).mem = u.mem ∧ ∀ q k, ((u.pushAccess a).thread q).ctr k = (u.thread q).ctr k := by
  have hlast : ([a].filter fun x => x.id ≠ s.fresh) = [] := by simp [hid]
  have hfilter : ((u.accs ++ [a]).filter fun x => x.id ≠ s.fresh) = s.accs.filter fun x => x.id ≠ s.fresh := by
    rw [List.filter_append, hlast, List.append_nil, haccs]
  have hmem : a ∈ u.accs ++ [a] := List.mem_append_right _ (List.mem_singleton.mpr rfl)
  have hstay : oneMore s (u.withAcc a) P :=
    ⟨⟨a, hmem, hid, hP a.sent⟩, hfilter⟩
  obtain e | ⟨tenant, port, e⟩ := pushAccess_reaches hr
  · rw [e]
    exact ⟨hstay, rfl, fun _ _ => rfl⟩
  · rw [e]
    have hflit := flitOnly_sendFlit (u.withAcc a) tenant port a.id
    refine ⟨?_, hflit.mem, hflit.ctr⟩
    obtain e | e := hflit.accs
    · rw [oneMore, e]
      exact hstay
    · rw [oneMore, e]
      refine ⟨⟨{ a with sent := u.now }, List.mem_map.mpr ⟨a, hmem, if_pos rfl⟩, hid, hP u.now⟩, ?_⟩
      rw [← hfilter, ← hid]
      exact filter_map_marked Access.id (fun x => { x with sent := u.now }) (fun _ => rfl) a.id _

/-! ### The ways of a store (R205) -/

theorem StoreMade.made {s v : State} {t : Nat} (h : StoreMade s v t) : v.mem = s.mem ∧ v.accs = s.accs ∧
    (v.thread t).stc = (s.thread t).stc + 1 ∧ (v.wg (s.thread t).wg).committed = (!isCp t || (s.wg (s.thread t).wg).committed) ∧
    (∀ q c, v.rd q c = s.rd q c) ∧ ∀ q c, v.rdP q c = s.rdP q c :=
  ⟨h.rest.mem, h.rest.accs, h.stc, h.committed, h.rd, h.rdP⟩

/-- A store's line marked at its home and in its core's L1. -/
def markedFor (u : State) (t : Nat) (a : Access) : State := (u.commitWg t).markLine a.core (a.pa / 128) a.hint

/-- The L1 holds the store's bytes too. -/
def echoed (u : State) (t : Nat) (a : Access) : State := (u.markedFor t a).updateL1 a.core a.pa (natLe a.op.len a.op.data) 0

theorem routeStore_eq (u : State) (t : Nat) (a : Access) : u.routeStore t a =
    if a.ord then (u.markedFor t a).sendOrdAccess (ordSource t) a
    else if (u.echoed t a).isLocal a.pa then
      if isCp t then (u.echoed t a).storeNow a else (u.echoed t a).modCore a.core fun k => { k with sq := k.sq ++ [a] }
    else if isHost a.pa || a.rel.isSome || isCp t then ((u.echoed t a).sendOwn t).pushAccess a
    else (u.echoed t a).bufferStore a.core a := rfl

end Sys2Proof.Machine.State

namespace Sys2Proof

open Sys2Proof.Machine State

theorem ldw_completes (s : State) (g : Group) (x : LdwArgs) :
    MemCompletes s g (.ldw x) (ldwChk x ((s.participants g (.ldw x)).headD 0)) scratchLoadHold State.anyRoom x.acq none (ldwAct x) := by
  intro u pl h hr
  have hx : exec (.ldw x) s = .next (s.issue (.ldw x) fun g ps s =>
      State.memBody (ldwChk x (ps.headD 0)) scratchLoadHold State.anyRoom x.acq none (ldwAct x) g ps s) := rfl
  rw [hx, issue_clear h]
  refine congrArg Host.Outcome.next (memBody_ready hr fun p hp => ?_)
  unfold participants at hp
  split at hp
  · exact (List.mem_filter.mp hp).1
  · cases hp

section
variable (s r : State) (g : Group) (live : List Nat) (t : Nat) (va : W64) (xl : Xlat)

/-- R206: only the lowest participant's access leaves, and every participant counts it. -/
theorem ldwAct_global (x : LdwArgs) (hlive : live.Nodup) (hlow : live.head? = some t) (hr : Reaches s (s.wg g.wg).ctx xl.pa) :
    let w := ldwAct x r g s live t (.global va xl)
    oneMore s w (fun a => a.tids = live ∧ a.va = va ∧ a.pa = xl.pa ∧ a.op = .load x.size ∧ a.dst = x.d) ∧
      w.mem = s.mem ∧ ∀ q ∈ live, (w.thread q).ld = (s.thread q).ld + 1 := by
  intro w
  have hw : w = (s.newAccess g live va xl (.load x.size) x.d x.hint x.acq none false).2.pushAccess
      (s.newAccess g live va xl (.load x.size) x.d x.hint x.acq none false).1 := by
    simp only [w, ldwAct, hlow, ne_eq, not_true_eq_false, if_false]
  obtain ⟨hrest, -, hwgs⟩ := issueOnly_newAccess s g live va xl (.load x.size) x.d x.hint x.acq none false
  have hstate := newAccess_state s g live va xl (.load x.size) x.d x.hint x.acq none false
  have hctx : (s.newAccess g live va xl (.load x.size) x.d x.hint x.acq none false).1.ctx = (s.wg g.wg).ctx :=
    congrArg Wg.ctx (wg_of_wgs hwgs g.wg)
  obtain ⟨hone, hmem, hctr⟩ := pushAccess_oneMore (s := s)
    (P := fun a => a.tids = live ∧ a.va = va ∧ a.pa = xl.pa ∧ a.op = .load x.size ∧ a.dst = x.d) rfl hrest.accs
    (fun _ => ⟨rfl, rfl, rfl, rfl, rfl⟩) (by rw [hctx]; exact hrest.reaches hr)
  rw [hw]
  refine ⟨hone, hmem.trans hrest.mem, fun q hq => (hctr q .ld).trans ?_⟩
  rw [hstate, thread_modThreads hlive, if_pos hq]
  exact taking_load _ _ _ x.size

/-- R205: the way of a participant's store, by its form and its address. -/
theorem stAct_global (x : StArgs) :
    let w := stAct x r g s live t (.global va xl)
    let mine (a : Access) := a.tids = [t] ∧ a.va = va ∧ a.pa = xl.pa ∧ a.core = g.core ∧
      a.op = .store x.size (r.rdN t x.data x.size.words % 2 ^ (8 * x.size.bytes))
    let made (v : State) := v.mem = s.mem ∧ v.accs = s.accs ∧ (v.thread t).stc = (s.thread t).stc + 1 ∧
      (v.wg (s.thread t).wg).committed = (!isCp t || (s.wg (s.thread t).wg).committed) ∧
      (∀ q c, v.rd q c = s.rd q c) ∧ ∀ q c, v.rdP q c = s.rdP q c
    (x.ord = false → isCp t = false → s.isLocal xl.pa = true →
      ∃ a, (w.core g.core).sq = (s.core g.core).sq ++ [a] ∧ mine a ∧ made w) ∧
    (x.ord = false → isCp t = false → s.isLocal xl.pa = false → State.isHost xl.pa = false → x.rel = none →
      ∃ v a, w = v.bufferStore g.core a ∧ mine a ∧ made v) ∧
    (x.ord = false → s.isLocal xl.pa = false → State.isHost xl.pa = true ∨ x.rel ≠ none ∨ isCp t = true →
      ∃ v a, w = (v.sendOwn t).pushAccess a ∧ mine a ∧ made v) ∧
    (x.ord = false → isCp t = true → s.isLocal xl.pa = true → ∃ v a, w = v.storeNow a ∧ mine a ∧ made v) ∧
    (x.ord = true → State.isHost xl.pa = false → Reaches s (s.wg g.wg).ctx xl.pa → sendsOrdered s w t .st mine) := by
  intro w mine made
  have hmade := (storeMade_newAccess s g t va xl x.size (r.rdN t x.data x.size.words % 2 ^ (8 * x.size.bytes)) .zero x.hint x.rel x.ord)
  obtain ⟨a, u, hw, hmine, hord, hrel, hctx, hmade⟩ : ∃ (a : Access) (u : State), w = u.routeStore t a ∧ mine a ∧ a.ord = x.ord ∧ a.rel = x.rel ∧
      a.ctx = (s.wg g.wg).ctx ∧ StoreMade s (u.commitWg t) t :=
    ⟨_, _, rfl, ⟨rfl, rfl, rfl, rfl, rfl⟩, rfl, rfl, rfl, hmade⟩
  obtain ⟨ht, hva, hpa, hcore, hop⟩ := hmine
  have hmarked : StoreMade s (u.markedFor t a) t := hmade.markLine _ _ _
  have hechoed : StoreMade s (u.echoed t a) t := hmarked.updateL1 _ _ _ _
  have hlocal := hechoed.rest.isLocal xl.pa
  rw [routeStore_eq, hord, hrel, hpa, hlocal] at hw
  refine ⟨fun ho hcp hl => ?_, fun ho hcp hl hh hrl => ?_, fun ho hl hown => ?_, fun ho hcp hl => ?_, fun ho hh hr => ?_⟩
  · rw [ho, hl, hcp, if_neg Bool.false_ne_true, if_pos rfl, if_neg Bool.false_ne_true] at hw
    refine ⟨a, ?_, ⟨ht, hva, hpa, hcore, hop⟩, ?_⟩
    · rw [hw, hcore, core_modCore, hechoed.sq]
    · rw [hw]
      exact hechoed.made
  · rw [ho, hl, hcp, hh, hrl, if_neg Bool.false_ne_true, if_neg Bool.false_ne_true] at hw
    exact ⟨_, a, hw.trans (by rw [hcore]; rfl), ⟨ht, hva, hpa, hcore, hop⟩, hechoed.made⟩
  · have hway : (State.isHost xl.pa || x.rel.isSome || isCp t) = true := by
      obtain h | h | h := hown
      · rw [h, Bool.true_or, Bool.true_or]
      · rw [Option.isSome_iff_ne_none.mpr h, Bool.or_true, Bool.true_or]
      · rw [h, Bool.or_true]
    rw [ho, hl, hway, if_neg Bool.false_ne_true, if_neg Bool.false_ne_true, if_pos rfl] at hw
    exact ⟨_, a, hw, ⟨ht, hva, hpa, hcore, hop⟩, hechoed.made⟩
  · rw [ho, hl, hcp, if_neg Bool.false_ne_true, if_pos rfl, if_pos rfl] at hw
    exact ⟨_, a, hw, ⟨ht, hva, hpa, hcore, hop⟩, hechoed.made⟩
  · rw [ho, if_pos rfl] at hw
    rw [hw]
    refine hmarked.sendsOrdered ht ⟨ht, hva, hpa, hcore, hop⟩ ?_
    rw [hpa, hctx, hmarked.rest.isLocal, hmarked.rest.fabricOk]
    obtain h | ⟨-, h⟩ | ⟨h, -⟩ := hr
    · rw [h, Bool.true_or]
    · rw [h, Bool.or_true]
    · exact absurd (h.symm.trans hh) (by decide)

end

/-- Settles O20: each participant's store by its way, the shared load by its lowest participant. -/
theorem storesAndSharedLoads : Obligations.StoresAndSharedLoads := by
  intro s g
  refine ⟨fun x => mem_completes rfl, ldw_completes s g, fun r live t va xl => ⟨stAct_global s r g live t va xl, fun x hlive => ?_⟩⟩
  exact ⟨fun h => if_pos h, ldwAct_global s r g live t va xl x hlive⟩

end Sys2Proof
end

section
/-!
PROOFS. What hosts and other packages do to a package (13 R372; 15 R408 to R410): the layer under it. No trap, kill, phase or
loss of a copy changes a virtual device, and what a write from outside charges changes no byte.
-/

namespace Sys2Proof.Machine.State

open Sys2Proof

/-! ### Virtual devices stand -/

theorem foldl_keeps {α β : Type} (P : State → β) {f : State → α → State} (h : ∀ u a, P (f u a) = P u) (l : List α) (s : State) :
    P (l.foldl f s) = P s :=
  List.foldlRecOn l f (motive := fun u => P u = P s) rfl fun u hu a _ => (h u a).trans hu

section
variable (s : State)

theorem vds_leaveGroups (t : Nat) : (s.leaveGroups t).vds = s.vds := by
  have e := congrArg State.vds (leaveGroups_rest s t)
  exact e

theorem vds_reject (die code : Nat) : (s.reject die code).vds = s.vds := by
  unfold reject
  split
  · rfl
  · exact vds_leaveGroups s _

theorem vds_haltWg (w : Nat) : (s.haltWg w).vds = s.vds := by
  unfold haltWg
  split <;> rfl

theorem vds_mergeAll (c : Nat) : (s.mergeAll c).vds = s.vds :=
  foldl_keeps State.vds (fun _ _ => by rfl) _ s

theorem vds_dropPoison (tids ids : List Nat) (flock : Nat → Bool) : (s.dropPoison tids ids flock).vds = s.vds := by
  unfold dropPoison
  split <;> rfl

theorem vds_discardCtx (c : Nat) : (s.discardCtx c).vds = s.vds := by
  have hleave : ∀ l : List Nat, (l.foldl (fun u t => u.leaveGroups t) (s.mergeAll c)).vds = s.vds := fun l =>
    (foldl_keeps State.vds (fun u t => vds_leaveGroups u t) l _).trans (vds_mergeAll s c)
  unfold discardCtx
  exact (vds_dropPoison _ _ _ _).trans (hleave _)

theorem vds_ctxError (c : Nat) : (s.ctxError c).vds = s.vds := rfl

theorem vds_sendKill (c : Nat) (rcd : List Byte) : (s.sendKill c rcd).vds = s.vds := by
  unfold sendKill
  dsimp only
  split <;> rfl

theorem vds_kill (c reason tcode struct paddr : Nat) (vaddr : W64) : (s.kill c reason tcode struct paddr vaddr).vds = s.vds := by
  unfold kill
  extract_lets rcd u v w
  have hu : u.vds = s.vds := vds_discardCtx s c
  clear_value u
  have hv : v.vds = u.vds := rfl
  clear_value v
  have hw : w.vds = v.vds := (vds_ctxError _ c).trans (vds_sendKill v c rcd)
  clear_value w
  exact hw.trans (hv.trans hu)

theorem vds_trapWith (t : Nat) (r : TrapRec) : (s.trapWith t r).vds = s.vds := by
  have hpark : ∀ f, ((s.leaveGroups t).modThread t f).vds = s.vds := fun _ => vds_leaveGroups s t
  unfold trapWith
  dsimp only
  split
  · exact vds_leaveGroups s t
  · split
    · exact vds_reject s _ _
    · split
      · exact vds_kill s _ _ _ _ _ _
      · split
        · exact vds_kill s _ _ _ _ _ _
        · split
          · exact vds_kill s _ _ _ _ _ _
          · split
            · exact (vds_haltWg _ _).trans (hpark _)
            · exact hpark _

theorem vds_of_threadsOnly {s u : State} (h : ThreadsOnly s u) : u.vds = s.vds := by
  have e := congrArg State.vds h
  exact e

theorem vds_endWait (t k : Nat) : (s.endWait t k).vds = s.vds := vds_of_threadsOnly (threadsOnly_endWait s t k)

/-! ### A copy that is lost (R249) -/

theorem vds_endPhase (t k : Nat) (p : W32) : (s.endPhase t k p).vds = s.vds := by
  unfold endPhase
  dsimp only
  split
  · exact vds_trapWith _ _ _
  · exact vds_endWait s t 0

theorem vds_wakePhase (k t : Nat) : (s.wakePhase k t).vds = s.vds := by
  unfold wakePhase
  split
  · split
    · split
      · exact vds_endPhase s t k _
      · rfl
    · rfl
  · rfl

theorem vds_settlePhase (k : Nat) : (s.settlePhase k).vds = s.vds := by
  unfold settlePhase
  dsimp only
  split
  · unfold nextPhase
    exact foldl_keeps State.vds (fun u t => vds_wakePhase u k t) _ _
  · rfl

theorem vds_unitArrive (k : Nat) (e : Option DefErr) : (s.unitArrive k e).vds = s.vds := by
  unfold unitArrive
  extract_lets b u
  have hu : u.vds = s.vds := by
    simp only [u]
    split <;> rfl
  clear_value u
  split
  · exact hu
  · exact (vds_settlePhase _ k).trans hu

theorem vds_lowerCp (m : Cmd) : (s.lowerCp m).vds = s.vds := by
  unfold lowerCp
  split
  · split <;> rfl
  · rfl

theorem vds_reportCmd (core : Nat) (m : Cmd) (code : Nat) (va : W64) : (s.reportCmd core m code va).vds = s.vds := by
  unfold reportCmd newId
  dsimp only
  split
  · exact (vds_lowerCp _ m).trans (vds_unitArrive _ _ _)
  · split
    · split <;> rfl
    · exact foldl_keeps State.vds (fun _ _ => by rfl) _ _

theorem vds_releaseTiles (m : Cmd) : (s.releaseTiles m).vds = s.vds := by
  have htile : ∀ (f : TileRec → TileRec) (u : State) (x : Nat × Nat),
      (if (tget u.wgs x.1).isSome then u.modTile x.1 x.2 f else u).vds = u.vds := by
    intro f u x
    split <;> rfl
  unfold releaseTiles
  dsimp only
  exact (foldl_keeps State.vds (htile _) _ _).trans (foldl_keeps State.vds (htile _) _ s)

end

/-! ### Lines charged for a write from outside (R184, R185) -/

/-- Only dirty lines, meters and what the acceptance of a line touches differ. -/
def ChargeOnly (s u : State) : Prop :=
  { u with cores := s.cores, hints := s.hints, replicas := s.replicas, dirty := s.dirty, fresh := s.fresh, meters := s.meters } = s

namespace ChargeOnly

variable {s u v : State}

theorem trans (a : ChargeOnly s u) (b : ChargeOnly u v) : ChargeOnly s v := by
  have h := congrArg (fun x : State => { x with
    cores := s.cores, hints := s.hints, replicas := s.replicas, dirty := s.dirty, fresh := s.fresh, meters := s.meters }) b
  exact h.trans a

theorem of_cached (h : Cached s u) : ChargeOnly s u := by
  have e := congrArg (fun x : State => { x with meters := s.meters }) h
  exact e

theorem mem (h : ChargeOnly s u) : u.mem = s.mem := by
  have e := congrArg State.mem h
  exact e

theorem sent (h : ChargeOnly s u) : u.sent = s.sent := by
  have e := congrArg State.sent h
  exact e

theorem vds (h : ChargeOnly s u) : u.vds = s.vds := by
  have e := congrArg State.vds h
  exact e

theorem sessions (h : ChargeOnly s u) : u.sessions = s.sessions := by
  have e := congrArg State.sessions h
  exact e

theorem foldl {α : Type} {f : State → α → State} (h : ∀ u a, ChargeOnly u (f u a)) (l : List α) (s : State) :
    ChargeOnly s (l.foldl f s) :=
  List.foldlRecOn l f (motive := ChargeOnly s) rfl fun u hu a _ => hu.trans (h u a)

end ChargeOnly

section
variable (s : State)

theorem chargeOnly_lineInDram (line : Nat) (slots : Bool) : ChargeOnly s (s.lineInDram line slots) := by
  unfold lineInDram
  split <;> rfl

theorem chargeOnly_acceptDraining (c : Nat) (wb : Bool) (line : Nat) : ChargeOnly s (s.acceptDraining c wb line) := by
  have hroom : ∀ v : State, ChargeOnly s v → ChargeOnly s ((v.acceptLine c wb false line).getD v) := by
    intro v hv
    cases hu : v.acceptLine c wb false line with
    | none => exact hv
    | some u => exact hv.trans (.of_cached (cached_acceptLine hu))
  unfold acceptDraining
  split
  · rename_i u hu
    exact .of_cached (cached_acceptLine hu)
  · dsimp only
    split
    · exact hroom _ (chargeOnly_lineInDram s _ _)
    · rfl

theorem chargeOnly_chargeLine (c : Nat) (by_ : Option Nat) (line : Nat) : ChargeOnly s (s.chargeLine c by_ line) :=
  (chargeOnly_acceptDraining s c false line).trans rfl

theorem chargeOnly_chargeLines (by_ : Option Nat) (pa n : Nat) : ChargeOnly s (s.chargeLines by_ pa n) := by
  unfold chargeLines
  split
  · exact ChargeOnly.foldl (fun u i => chargeOnly_chargeLine u _ _ _) _ s
  · rfl

theorem vds_writeBytes (m : Cmd) (l : List ByteWrite) : (s.writeBytes m l).vds = s.vds := by
  have hput : ∀ (u : State) (w : ByteWrite), (u.putByte m w.sp w.at_ w.val).vds = u.vds := by
    intro u w
    unfold putByte
    split
    · rfl
    · split <;> rfl
  have hclean : ∀ u : State, (u.cleanWritten m l).vds = u.vds := by
    intro u
    unfold cleanWritten
    dsimp only
    split <;> rfl
  unfold writeBytes
  dsimp only
  refine (foldl_keeps State.vds hput l _).trans ((hclean _).trans ?_)
  exact foldl_keeps State.vds (fun u x => (chargeOnly_chargeLines u _ _ _).vds) _ s

/-- R249: a copy that is lost changes no virtual device. -/
theorem vds_loseCmd (core : Nat) (m : Cmd) (refused : Bool) : (s.loseCmd core m refused).vds = s.vds := by
  unfold loseCmd
  refine (vds_reportCmd _ core m _ _).trans ((lossOnly_ctxFault _ _ _).vds.trans ((vds_releaseTiles _ m).trans ?_))
  unfold abandonBytes
  exact vds_writeBytes _ m _

theorem vds_waitLost (t : Nat) : (s.waitLost t).vds = s.vds := by
  have hlost : ((s.ctxFault (s.ctxOf t) tcPeerUnreachable).endWait t 3).vds = s.vds :=
    (vds_endWait _ t 3).trans (lossOnly_ctxFault s _ _).vds
  unfold waitLost
  dsimp only
  split
  · split
    · split
      · rfl
      · exact hlost
    · split
      · rfl
      · exact hlost
    · rfl
  · rfl

end

end Sys2Proof.Machine.State
end

section
/-!
PROOFS. Accesses of hosts and other packages, and the clock (06 R174; 08 R223; 13 R372; 15 R408 to R410).
-/

namespace Sys2Proof.Machine.State

open Sys2Proof

/-! ### Writes from outside (R174, R409) -/

/-- R174: where no move is under way, a write from outside changes its bytes. -/
theorem writeOutside_plain {s : State} (h : s.sessions = []) (pa : Nat) (bs : List Byte) (stamp : Nat) :
    (s.writeOutside pa bs stamp).mem = mputs s.mem pa bs ∧ (s.writeOutside pa bs stamp).sent = s.sent := by
  have hcharge := chargeOnly_chargeLines s none pa bs.length
  have hsessions : (s.chargeLines none pa bs.length).sessions = [] := hcharge.sessions.trans h
  have hmark : ∀ (u : State), u.sessions = [] → ∀ pa, u.markOutside pa = u := by
    intro u hu pa
    rw [markOutside, hu]
    rfl
  unfold writeOutside
  dsimp only
  have hput : ((s.chargeLines none pa bs.length).putMem pa bs stamp).sessions = [] := hsessions
  rw [hmark _ hput, hmark _ hput, ← hcharge.mem, ← hcharge.sent]
  exact ⟨rfl, rfl⟩

/-- Bytes that stand in one page are written in one piece. -/
theorem onePage {a n : Nat} (hn : 0 < n) (h : a % 65536 + n ≤ 65536) :
    upTo ((a % 65536 + n + 65535) / 65536) = [0] ∧ max a (a - a % 65536 + 0 * 65536) = a ∧
      min (a + n) (a - a % 65536 + (0 + 1) * 65536) = a + n := by
  have hpages : (a % 65536 + n + 65535) / 65536 = 1 := by omega
  refine ⟨by rw [hpages]; rfl, by omega, by omega⟩

theorem slice_all (bs : List Byte) : slice bs 0 bs.length = bs :=
  List.ext_getElem (by simp [slice, upTo]) fun i _ h => by simp [slice, upTo, h]

section
variable {s : State} {x : RdmaArgs}

theorem rdmaWrite_onePage (hb : s.booted = true) (hp : s.portShut x.port = false) {a : Nat}
    (ha : s.rdmaAt x x.data.length true = some a) (hfree : s.spanHeld a x.data.length = false) (hd : x.data ≠ [])
    (hpage : a % 65536 + x.data.length ≤ 65536) :
    s.rdmaWrite x = { s.writeOutside (s.local_ a) x.data 0 with
      sent := (s.writeOutside (s.local_ a) x.data 0).sent ++ [.rdmaAck x.port x.qp] } := by
  obtain ⟨hup, hlo, hhi⟩ := onePage (List.length_pos_iff.mpr hd) hpage
  have hslice : slice x.data (a - a) (a + x.data.length - a) = x.data := by
    rw [Nat.sub_self, Nat.add_sub_cancel_left, slice_all]
  simp only [rdmaWrite, hb, hp, ha, hfree, hup, Bool.not_true, Bool.or_false, Bool.false_eq_true, if_false, List.foldl_cons,
    List.foldl_nil, hlo, hhi, hslice]

end

/-! ### Accesses of other packages (R372) -/

/-- R233: a fabric port has been heard. -/
def heardAt (s : State) (p : Nat) : State :=
  if (tget s.ports p).isSome then s.setPort p { s.port p with heard := s.now } else s

/-- What an access of another package asks of the state does not turn on what a port has heard. -/
structure HeardOnly (s u : State) : Prop where
  mem : u.mem = s.mem
  sessions : u.sessions = s.sessions
  local_ : ∀ off, u.local_ off = s.local_ off
  allowed : ∀ tenant off, u.remoteOkFor tenant off = s.remoteOkFor tenant off
  hot : ∀ pa, u.sliceHot pa = s.sliceHot pa
  owned : ∀ line, u.ownedLine line = s.ownedLine line
  awaits : ∀ pa, u.awaitsCopy pa = s.awaitsCopy pa

theorem HeardOnly.refl (s : State) : HeardOnly s s :=
  ⟨rfl, rfl, fun _ => rfl, fun _ _ => rfl, fun _ => rfl, fun _ => rfl, fun _ => rfl⟩

theorem heardOnly_setPort (s : State) (p : Nat) (y : PortIn) : HeardOnly s (s.setPort p y) :=
  ⟨rfl, rfl, fun _ => rfl, fun _ _ => rfl, fun _ => rfl, fun _ => rfl, fun _ => rfl⟩

theorem heardOnly_heardAt (s : State) (p : Nat) : HeardOnly s (s.heardAt p) := by
  unfold heardAt
  split
  · exact heardOnly_setPort s p _
  · exact HeardOnly.refl s

/-- R372: what an access of another package answers, once its home has made it or refused it. -/
def replyTo (x : IncomingArgs) (r : State × Option Nat) : State :=
  match r.2 with
  | some v =>
      if opReplies x.op then r.1.sendReply x.tenant x.port (.inboundReply x.port v)
      else { r.1 with sent := r.1.sent ++ [.inboundReply x.port v] }
  | none => r.1.refuseInbound x.port

section
variable {s : State} {x : IncomingArgs}

/-- An access of another package that nothing holds is made at its home, or refused. -/
theorem incoming_free (hport : x.port < 24) (hcool : s.sliceHot (s.local_ x.addr) = false)
    (howned : s.ownedLine (s.local_ x.addr / 128) = false) (hawaits : s.awaitsCopy (s.local_ x.addr) = false)
    (hs : s.sessions = []) : s.incoming x =
      replyTo x ((s.heardAt (fabricPort x.port)).homeAccess x.op x.addr x.tenant 0) := by
  have hport' : decide (24 ≤ x.port) = false := decide_eq_false (Nat.not_le.mpr hport)
  have hset := heardOnly_setPort s
  have htaken : ∀ u, HeardOnly s u → ∀ pa t, u.takenBy pa t = none := fun u hu pa t => by
    rw [takenBy, hu.sessions, hs]
    rfl
  cases h : (tget s.ports (fabricPort x.port)).isSome
  case false =>
    simp only [incoming, heardAt, h, Bool.false_eq_true, if_false, hport', hcool, howned, hawaits, Bool.or_self,
      htaken s (HeardOnly.refl s)]
    generalize s.homeAccess x.op x.addr x.tenant 0 = r
    rcases r with ⟨w, _ | v⟩ <;> rfl
  case true =>
    simp only [incoming, heardAt, h, if_true, (hset _ _).hot, (hset _ _).owned, (hset _ _).awaits, hport', hcool, howned,
      hawaits, Bool.or_self, Bool.false_eq_true, if_false, htaken _ (hset _ _)]
    generalize State.homeAccess _ x.op x.addr x.tenant 0 = r
    rcases r with ⟨w, _ | v⟩ <;> rfl

/-- R174, R372: a store that its tenant's ranges allow is made. -/
theorem incoming_store (hin : s.incoming x = replyTo x ((s.heardAt (fabricPort x.port)).homeAccess x.op x.addr x.tenant 0))
    (hs : s.sessions = []) {n d : Nat} (hop : x.op = .store n d) (hfirst : s.remoteOkFor x.tenant x.addr = true)
    (hlast : s.remoteOkFor x.tenant (x.addr + n - 1) = true) :
    (s.incoming x).mem = mputs s.mem (s.local_ x.addr) (natLe n d) := by
  have hheard := heardOnly_heardAt s (fabricPort x.port)
  generalize s.heardAt (fabricPort x.port) = u at hin hheard
  have hmade : u.homeAccess x.op x.addr x.tenant 0 =
      (u.writeOutside (s.local_ x.addr) (natLe n d) 0, some (mnat u.mem (s.local_ x.addr) n)) := by
    simp only [homeAccess, hop, homeLen, homeWrites, hheard.allowed, hheard.local_, hfirst, hlast, Bool.and_self, Bool.not_true,
      Bool.false_eq_true, if_false]
  rw [hin, hmade]
  simp only [replyTo, hop, opReplies, Bool.false_eq_true, if_false]
  rw [← hheard.mem]
  exact (writeOutside_plain (hheard.sessions.trans hs) _ _ _).1

/-- R174, R240: a load that its tenant's ranges allow is answered with what its home holds. -/
theorem incoming_load (hin : s.incoming x = replyTo x ((s.heardAt (fabricPort x.port)).homeAccess x.op x.addr x.tenant 0))
    {n : Nat} (hop : x.op = .load n) (hfirst : s.remoteOkFor x.tenant x.addr = true)
    (hlast : s.remoteOkFor x.tenant (x.addr + n - 1) = true) :
    s.incoming x = (s.heardAt (fabricPort x.port)).sendReply x.tenant x.port
      (.inboundReply x.port (mnat s.mem (s.local_ x.addr) n)) := by
  have hheard := heardOnly_heardAt s (fabricPort x.port)
  generalize s.heardAt (fabricPort x.port) = u at hin hheard ⊢
  have hread : u.homeAccess x.op x.addr x.tenant 0 = (u, some (mnat s.mem (s.local_ x.addr) n)) := by
    simp only [homeAccess, hop, homeLen, homeWrites, hheard.allowed, hheard.local_, hheard.mem, hfirst, hlast, Bool.and_self,
      Bool.not_true, Bool.false_eq_true, if_false]
  rw [hin, hread]
  simp only [replyTo, hop, opReplies, if_true]

/-- R372: its home refuses an access to an address that its tenant's ranges do not allow. -/
theorem homeAccess_refused {u : State} {addr tenant : Nat} (hf : u.remoteOkFor tenant addr = false) (op : HomeOp) (stamp : Nat) :
    u.homeAccess op addr tenant stamp = (u, none) := by
  have hout : ∀ b : Bool, (!(u.remoteOkFor tenant addr && b)) = true := fun b => by rw [hf]; rfl
  delta homeAccess
  generalize @applyPen = pen
  cases op <;> exact if_pos (hout _)

/-- R372: an access to an address that its tenant's ranges do not allow is refused. -/
theorem incoming_refused (hin : s.incoming x = replyTo x ((s.heardAt (fabricPort x.port)).homeAccess x.op x.addr x.tenant 0))
    (hfirst : s.remoteOkFor x.tenant x.addr = false) : s.incoming x = (s.heardAt (fabricPort x.port)).refuseInbound x.port := by
  have hheard := heardOnly_heardAt s (fabricPort x.port)
  generalize s.heardAt (fabricPort x.port) = u at hin hheard ⊢
  rw [hin, homeAccess_refused ((hheard.allowed _ _).trans hfirst)]
  rfl

end

/-! ### A queue pair in error (R199, R408) -/

theorem mem_insertNat (n : Nat) (l : List Nat) : n ∈ insertNat n l := by
  induction l with
  | nil => exact List.mem_singleton.mpr rfl
  | cons m l ih =>
    unfold insertNat
    split
    · exact List.mem_cons_self ..
    · split
      · rename_i e
        rw [e]
        exact List.mem_cons_self ..
      · exact List.mem_cons_of_mem _ ih

/-- R408: what a queue pair's error loses changes no virtual device beyond the mark of the error. -/
theorem vds_qpError (s : State) (v n : Nat) :
    (s.qpError v n).vds = (s.modVd v fun x => { x with dead := insertNat n x.dead }).vds := by
  have hfails : ∀ (l : List Access) (u : State), (l.foldl (fun s a => s.failAccess a tcPeerUnreachable) u).vds = u.vds := fun l u =>
    (lossOnly_failAll u tcPeerUnreachable l).vds
  unfold qpError
  dsimp only
  refine (foldl_keeps State.vds (fun u t => vds_waitLost u t) _ _).trans ?_
  refine (foldl_keeps State.vds (fun u (m : Nat × Cmd) => vds_loseCmd u _ _ _) _ _).trans ?_
  refine (foldl_keeps State.vds (fun (u : State) (e : Nat × WcbEnt) => (hfails e.2.stores (u.modCore e.1 fun k =>
    { k with wcb := k.wcb.filter fun y => y.id ≠ e.2.id })).trans rfl) _ _).trans ?_
  exact hfails _ _

/-! ### Pod time (R223, R410) -/

section
variable (s : State) (port : Nat)

theorem askDelay_keeps : (s.askDelay port).now = s.now ∧ (s.askDelay port).lag = s.lag ∧ (s.askDelay port).mem = s.mem ∧
    (s.askDelay port).ptp.lastSync = s.ptp.lastSync := by
  unfold askDelay
  split <;> exact ⟨rfl, rfl, rfl, rfl⟩

/-- R410: a Delay_Req leaves at the time that it is noted to have left. -/
theorem askDelay_asks (h : s.portShut port = false) : ∃ seq, (s.askDelay port).sent = s.sent ++ [.delayReq port seq] ∧
    (s.askDelay port).ptp.req = some (port, seq, s.now / 4) := by
  rw [askDelay, h, if_neg Bool.false_ne_true]
  exact ⟨_, rfl, rfl⟩

theorem takeTime_keeps (near : Bool) : (s.takeTime near).now = s.now ∧ (s.takeTime near).lag = s.lag ∧
    (s.takeTime near).mem = s.mem ∧ (s.takeTime near).ptp = s.ptp ∧ (s.takeTime near).sent = s.sent := by
  unfold takeTime
  split <;> exact ⟨rfl, rfl, rfl, rfl, rfl⟩

end

/-- R223, R410: the state that the servo's new value leaves, before a Delay_Req is sent: no copy of pod time has gone back. -/
structure Steered (s u : State) (origin rx : Nat) : Prop where
  forward : s.now ≤ u.now
  copies : ∀ n, s.clock n ≤ u.clock n
  mem : u.mem = s.mem
  sent : u.sent = s.sent
  hot : u.hotPorts = s.hotPorts
  sync : u.ptp.lastSync = some (origin, (u.now - (s.now - 4 * rx)) / 4)

theorem follow_steered (s : State) (port origin rx : Nat) : ∃ u near, s.follow port origin rx = (u.askDelay port).takeTime near ∧
    Steered s u origin rx := by
  unfold follow
  extract_lets since v near drawn ptp moved ptp' synced
  have hmoved : s.now ≤ moved.now ∧ (∀ n, s.clock n ≤ moved.clock n) ∧ moved.mem = s.mem ∧ moved.sent = s.sent ∧
      moved.hotPorts = s.hotPorts := by
    simp only [moved]
    split
    · rename_i h
      refine ⟨h, fun n => ?_, rfl, rfl, rfl⟩
      exact Nat.le_trans (Nat.sub_le _ _) h
    · exact ⟨Nat.le_refl _, fun _ => Nat.le_refl _, rfl, rfl, rfl⟩
  obtain ⟨hnow, hclock, hmem, hsent, hhot⟩ := hmoved
  exact ⟨synced, near, rfl, ⟨hnow, hclock, hmem, hsent, hhot, rfl⟩⟩

end Sys2Proof.Machine.State

namespace Sys2Proof

open Sys2Proof.Machine State

/-- R223, R410: what the servo's new value leaves. -/
theorem follow_outcome (s : State) (port origin rx : Nat) :
    let u := s.follow port origin rx
    (∀ n, s.clock n ≤ u.clock n) ∧ s.now ≤ u.now ∧ u.mem = s.mem ∧
      u.ptp.lastSync = some (origin, (u.now - (s.now - 4 * rx)) / 4) ∧
      (s.portShut port = false → ∃ seq, u.sent = s.sent ++ [.delayReq port seq] ∧ u.ptp.req = some (port, seq, u.now / 4)) := by
  obtain ⟨v, near, e, h⟩ := follow_steered s port origin rx
  obtain ⟨hnow, hlag, hmem, hptp, hsent⟩ := takeTime_keeps (v.askDelay port) near
  obtain ⟨hanow, halag, hamem, haptp⟩ := askDelay_keeps v port
  dsimp only
  rw [e]
  generalize (v.askDelay port).takeTime near = u at hnow hlag hmem hptp hsent ⊢
  have hu : u.now = v.now := hnow.trans hanow
  refine ⟨fun n => ?_, ?_, hmem.trans (hamem.trans h.mem), ?_, fun hp => ?_⟩
  · have hc : u.clock n = v.clock n := by simp only [clock, hu, hlag, halag]
    rw [hc]
    exact h.copies n
  · rw [hu]
    exact h.forward
  · rw [hptp, haptp, hu]
    exact h.sync
  · have hv : v.portShut port = false := by rw [portShut, h.hot]; exact hp
    obtain ⟨seq, hs, hr⟩ := askDelay_asks v port hv
    exact ⟨seq, by rw [hsent, hs, h.sent], by rw [hptp, hr, hu]⟩

/-- R408, R409: what an access under a memory key answers, with what it changes. -/
theorem rdma_outcomes (s : State) (x : RdmaArgs) (hb : s.booted = true) (hp : s.portShut x.port = false) :
    (∀ a, s.rdmaAt x x.len false = some a → s.spanHeld a x.len = false → exec (.inboundRdmaRead x) s =
      .next { s with sent := s.sent ++ [.rdmaData x.port x.qp (mbytes s.mem (s.local_ a) x.len)] }) ∧
    (s.rdmaAt x x.len false = none → exec (.inboundRdmaRead x) s = .next (s.nakRdma x)) ∧
    (∀ a, s.rdmaAt x x.len false = some a → s.spanHeld a x.len = true → exec (.inboundRdmaRead x) s = .next s) ∧
    (∀ a, s.rdmaAt x x.data.length true = some a → s.spanHeld a x.data.length = true →
      exec (.inboundRdmaWrite x) s = .next s) ∧
    (∀ a, s.rdmaAt x x.data.length true = some a → s.spanHeld a x.data.length = false → s.sessions = [] → x.data ≠ [] →
      a % 65536 + x.data.length ≤ 65536 →
      Gives (.inboundRdmaWrite x) s fun t => t.mem = mputs s.mem (s.local_ a) x.data ∧
        t.sent = s.sent ++ [.rdmaAck x.port x.qp]) ∧
    (s.rdmaAt x x.data.length true = none → exec (.inboundRdmaWrite x) s = .next (s.nakRdma x)) ∧
    (∀ w, w = (if x.vd < 64 then s.vdError x.vd else s) →
      exec (.inboundAtomic x) s = .next { w with sent := w.sent ++ [.remoteAtomicNak x.port x.qp] }) ∧
    (s.nakRdma x).mem = s.mem ∧ (s.nakRdma x).sent = s.sent ++ [.rdmaNak x.port x.qp] := by
  have hopen : (!s.booted || s.portShut x.port) = false := by rw [hb, hp]; rfl
  have hnak : (s.nakRdma x).mem = s.mem ∧ (s.nakRdma x).sent = s.sent ++ [.rdmaNak x.port x.qp] := by
    unfold nakRdma
    dsimp only
    split <;> exact ⟨rfl, rfl⟩
  refine ⟨fun a ha hf => ?_, fun ha => ?_, fun a ha hf => ?_, fun a ha hf => ?_, fun a ha hf hs hd hpage => ?_, fun ha => ?_,
    fun w hw => ?_, hnak⟩
  · refine congrArg Host.Outcome.next ?_
    simp only [rdmaRead, hopen, ha, hf, Bool.false_eq_true, if_false]
  · refine congrArg Host.Outcome.next ?_
    simp only [rdmaRead, hopen, ha, Bool.false_eq_true, if_false]
  · refine congrArg Host.Outcome.next ?_
    simp only [rdmaRead, hopen, ha, hf, Bool.false_eq_true, if_false, if_true]
  · refine congrArg Host.Outcome.next ?_
    simp only [rdmaWrite, hopen, ha, hf, Bool.false_eq_true, if_false, if_true]
  · obtain ⟨hmem, hsent⟩ := writeOutside_plain hs (s.local_ a) x.data 0
    refine ⟨_, congrArg Host.Outcome.next (rdmaWrite_onePage hb hp ha hf hd hpage), hmem, ?_⟩
    rw [← hsent]
  · refine congrArg Host.Outcome.next ?_
    simp only [rdmaWrite, hopen, ha, Bool.false_eq_true, if_false]
  · refine congrArg Host.Outcome.next ?_
    rw [hw, hopen, if_neg Bool.false_ne_true]

/-- R410: the response to the servo's own Delay_Req, and to no other. -/
theorem delayResp_other (s : State) (port seq rx : Nat) (h : ∀ t3, s.ptp.req ≠ some (port, seq, t3)) :
    exec (.delayResp port seq rx) s = .next s := by
  refine congrArg Host.Outcome.next ?_
  unfold hearDelay
  split
  · rename_i t1 t2 p q t3 _ hr
    have hne : p ≠ port ∨ q ≠ seq := by
      by_contra hc
      obtain ⟨hp, hq⟩ := not_or.mp hc
      exact h t3 (by rw [hr, not_not.mp hp, not_not.mp hq])
    simp only [ne_eq, Bool.or_eq_true, decide_eq_true_eq]
    rw [if_pos hne]
  · rfl

/-- R410: where no other master is better than the first, the best of all is the first. -/
theorem bestOf_cons {m : PtpMaster} {l : List PtpMaster} (h : ∀ x ∈ l, State.betterMaster x m = false) :
    (m :: l).foldl (fun b x => match b with
      | none => some x
      | some y => if State.betterMaster x y then some x else some y) none = some m := by
  rw [List.foldl_cons]
  induction l with
  | nil => rfl
  | cons x l ih =>
    simp only [List.foldl_cons, h x (List.mem_cons_self ..), Bool.false_eq_true, if_false]
    exact ih fun y hy => h y (List.mem_cons_of_mem _ hy)

/-- R410: a master that none known is better than is chosen. -/
theorem announce_best (s : State) (m : PtpMaster) (hp : m.port < 4)
    (hbest : ∀ x ∈ s.ptp.masters, x.port ≠ m.port ∨ x.ident ≠ m.ident → State.betterMaster x m = false) :
    Gives (.announce m) s fun t => t.ptp.best = some m ∧ m ∈ t.ptp.masters ∧ { t with ptp := s.ptp } = s := by
  refine ⟨_, congrArg Host.Outcome.next (if_neg (Nat.not_le.mpr hp)), ?_, List.mem_cons_self .., rfl⟩
  refine bestOf_cons fun x hx => ?_
  obtain ⟨hknown, hother⟩ := List.mem_filter.mp hx
  exact hbest x hknown (by simpa using hother)

/-- Settles O51, part by part. -/
theorem outsideAccesses : Obligations.OutsideAccesses := by
  intro s
  refine ⟨fun x hb hp => rdma_outcomes s x hb hp, fun x => ?_, fun vd n hv hn => ?_, fun m hm => ?_,
    follow_outcome s, fun port seq rx t1 t2 t3 h1 h2 => ?_, delayResp_other s, announce_best s⟩
  · intro pa p heard hport hcool howned hawaits hs
    have hin := incoming_free hport hcool howned hawaits hs
    refine ⟨fun n d hop hfirst hlast => ?_, fun n hop hfirst hlast => ?_, fun hfirst => ?_, rfl⟩
    · exact ⟨_, rfl, incoming_store hin hs hop hfirst hlast⟩
    · exact congrArg Host.Outcome.next (incoming_load hin hop hfirst hlast)
    · exact congrArg Host.Outcome.next (incoming_refused hin hfirst)
  · refine ⟨s.qpError vd n, congrArg Host.Outcome.next (if_pos ⟨hv, hn⟩), ?_⟩
    change n ∈ ((s.qpError vd n).vd vd).dead
    have hdead : ((s.qpError vd n).vd vd).dead = insertNat n (s.vd vd).dead := by
      simp only [State.vd, vds_qpError, modVd, setVd_vds, tget_tput_same, Option.getD_some]
    rw [hdead]
    exact mem_insertNat n _
  · refine ⟨fun h => ?_, fun h => ?_, fun p hp hport hident hseq => ?_⟩
    · refine congrArg Host.Outcome.next ?_
      simp only [hearSync, hm, h, Bool.not_true, Bool.false_eq_true, if_false]
    · refine congrArg Host.Outcome.next ?_
      simp only [hearSync, hm, h, Bool.not_true, Bool.false_eq_true, if_false, if_true]
    · refine congrArg Host.Outcome.next ?_
      simp only [hearFollowUp, hp, hport, hident, hseq, decide_true, Bool.and_self, if_true]
  · refine congrArg Host.Outcome.next ?_
    simp only [hearDelay, h1, h2, ne_eq, not_true_eq_false, decide_false, Bool.or_self, Bool.false_eq_true, if_false]

end Sys2Proof
end

section
/-!
PROOFS. Loads, STBQ and atomics at issue (07 R203, R207, R211, R212): an access is made and counted, and leaves its core, on its
own or with a stamp, with its operands as they stood; registers, predicates and memory wait for its completion.
-/

namespace Sys2Proof.Machine.State

open Sys2Proof

/-! ### Registers and predicates behind a flit (R240) -/

section
variable {id : Nat} {s u : State}

theorem FlitOnly.rd (h : FlitOnly id s u) (q : Nat) (c : Reg) : u.rd q c = s.rd q c := by
  cases c with
  | zero => rfl
  | w n => simp only [State.rd, flock, h.flocks]
  | g n =>
    have e := congrArg (fun x : Thread => x.g.get n) (h.thread q)
    exact e

theorem FlitOnly.rdP (h : FlitOnly id s u) (q : Nat) (c : Pred) : u.rdP q c = s.rdP q c := by
  have e := congrArg Thread.p (h.thread q)
  have hp : (u.thread q).p = (s.thread q).p := e
  simp only [State.rdP, hp]

end

/-- An access that leaves changes no register and no predicate. -/
theorem pushAccess_regs {u : State} {a : Access} (hr : Reaches u a.ctx a.pa) :
    (∀ q c, (u.pushAccess a).rd q c = u.rd q c) ∧ ∀ q c, (u.pushAccess a).rdP q c = u.rdP q c := by
  obtain e | ⟨tenant, port, e⟩ := pushAccess_reaches hr
  · rw [e]
    exact ⟨fun q c => rd_of_files rfl rfl q c, fun q c => rdP_of_threads rfl q c⟩
  · rw [e]
    have hflit := flitOnly_sendFlit (u.withAcc a) tenant port a.id
    exact ⟨fun q c => (hflit.rd q c).trans (rd_of_files rfl rfl q c), fun q c => (hflit.rdP q c).trans (rdP_of_threads rfl q c)⟩

/-! ### An access is made (R38) -/

/-- The counter that an access stands on. -/
def opCtr (op : AccOp) : Ctr := if op.isLoad then .ld else .st

/-- What stands when an access of thread `t` has been made: it is counted once on `k`, and registers and predicates stand. -/
structure Made (s v : State) (t : Nat) (k : Ctr) : Prop where
  rest : IssueOnly s v
  fresh : v.fresh = s.fresh + 1
  ctr : (v.thread t).ctr k = (s.thread t).ctr k + 1
  rd : ∀ q c, v.rd q c = s.rd q c
  rdP : ∀ q c, v.rdP q c = s.rdP q c

theorem taking_ctr {op : AccOp} (h : op.counted = true) (acq : Option Scope) (id : Nat) (y : Thread) :
    (taking op acq id y).ctr (opCtr op) = y.ctr (opCtr op) + 1 := by
  unfold taking opCtr
  rw [if_pos h]
  cases op.isLoad <;> cases acq <;> rfl

theorem made_newAccess (s : State) (g : Group) (t : Nat) (va : W64) (x : Xlat) {op : AccOp} (h : op.counted = true) (dst : Reg)
    (hint : Retain) (acq rel : Option Scope) (ord : Bool) :
    Made s (s.newAccess g [t] va x op dst hint acq rel ord).2 t (opCtr op) := by
  obtain ⟨hrest, hfresh, -⟩ := issueOnly_newAccess s g [t] va x op dst hint acq rel ord
  have hthreads : (s.newAccess g [t] va x op dst hint acq rel ord).2.threads = (s.modThread t (taking op acq s.fresh)).threads := rfl
  refine ⟨hrest, hfresh, ?_, fun q c => ?_, fun q c => ?_⟩
  · rw [thread_of_threads hthreads, thread_modThread, taking_ctr h]
  · exact (rd_of_files hthreads hrest.flocks q c).trans (rd_modThread (fun y => (taking_keeps op acq s.fresh y).1) s t q c)
  · exact (rdP_of_threads hthreads q c).trans (rdP_modThread (fun y => (taking_keeps op acq s.fresh y).2.1) s t q c)

namespace Made

variable {s v w : State} {t : Nat} {k : Ctr} {a : Access} {P : Access → Prop}

/-- Marks in caches and the workgroup's commitment leave an access as it was made. -/
theorem marked (h : Made s v t k) (e : { w with cores := v.cores, hints := v.hints, wgs := v.wgs } = v) : Made s w t k := by
  obtain ⟨hthreads, hflocks, hfresh⟩ : w.threads = v.threads ∧ w.flocks = v.flocks ∧ w.fresh = v.fresh := by
    have e' := congrArg (fun x : State => (x.threads, x.flocks, x.fresh)) e
    simpa using e'
  refine ⟨?_, hfresh.trans h.fresh, by rw [thread_of_threads hthreads, h.ctr], fun q c => ?_, fun q c => ?_⟩
  · have e' := congrArg (fun x : State => { x with
      threads := s.threads, wgs := s.wgs, cores := s.cores, hints := s.hints, fresh := s.fresh }) e
    exact Eq.trans e' h.rest
  · rw [rd_of_files hthreads hflocks, h.rd]
  · rw [rdP_of_threads hthreads, h.rdP]

theorem commitWg (h : Made s v t k) (q : Nat) : Made s (v.commitWg q) t k := by
  unfold State.commitWg
  split
  · exact h
  · exact h.marked rfl

theorem dropL1 (h : Made s v t k) (c line : Nat) : Made s (v.dropL1 c line) t k := h.marked rfl

theorem markLine (h : Made s v t k) (c line : Nat) (r : Retain) : Made s (v.markLine c line r) t k := by
  refine h.marked ?_
  unfold State.markLine
  dsimp only
  split <;> split <;> rfl

/-- R203: an access that is made and leaves is outstanding, and writes nothing yet. -/
theorem sendsAccess (h : Made s v t k) (hid : a.id = s.fresh) (ht : a.tids = [t]) (hP : ∀ n, P { a with sent := n })
    (hr : Reaches s a.ctx a.pa) : sendsAccess s (v.pushAccess a) t k P := by
  obtain ⟨hone, hmem, hctr⟩ := pushAccess_oneMore (P := fun b => b.tids = [t] ∧ P b) hid h.rest.accs (fun n => ⟨ht, hP n⟩)
    (h.rest.reaches hr)
  obtain ⟨hrd, hrdP⟩ := pushAccess_regs (h.rest.reaches hr)
  exact ⟨hone, hmem.trans h.rest.mem, (hctr t k).trans h.ctr, fun q c => (hrd q c).trans (h.rd q c),
    fun q c => (hrdP q c).trans (h.rdP q c)⟩

end Made

/-! ### An ordered access leaves (R190, R224) -/

/-- R224: an ordered access that its port takes is on its source's list with its source's time as its stamp; all but the
operation's way over its port stands. -/
theorem sendOrdAccess_leaves {v : State} {src : Nat} {a : Access}
    (hr : (v.isLocal a.pa || v.fabricOk (v.ctxTenant a.ctx) (portTo a.pa)) = true) :
    let r := v.sendOrdAccess src a
    (∃ o ∈ r.ords, o.id = v.fresh ∧ o.work = .access a ∧ o.st = .sent ∧ o.src = src ∧ o.rank.stamp = v.clock src) ∧
      (r.ords.filter fun b => b.id ≠ v.fresh) = (v.ords.filter fun b => b.id ≠ v.fresh) ∧
      r.accs = v.accs ∧ r.mem = v.mem ∧ r.threads = v.threads ∧ r.flocks = v.flocks := by
  obtain ⟨w, hq, e⟩ := sendOrdered_queued v src a.pa a.ctx (.access a)
  have hpacket : PacketOnly v.fresh w (v.sendOrdAccess src a) := by
    rw [sendOrdAccess, if_pos hr, e]
    split
    · exact ⟨rfl, .inl rfl⟩
    · exact packetOnly_queued hq _ _
  obtain ⟨⟨o, ho, n, e⟩, hfilter⟩ := PacketOnly.last hq hpacket
  have haccs := congrArg State.accs hpacket.rest
  have hmem := congrArg State.mem hpacket.rest
  have hthreads := congrArg State.threads hpacket.rest
  have hflocks := congrArg State.flocks hpacket.rest
  refine ⟨⟨o, ho, ?_⟩, hfilter, Eq.trans haccs hq.accs, Eq.trans hmem hq.mem, Eq.trans hthreads hq.threads,
    Eq.trans hflocks hq.flocks⟩
  rw [e]
  exact ⟨rfl, rfl, rfl, rfl, rfl⟩

/-- What reaches its home in a package passes the port to it. -/
theorem passes_of_reaches {s : State} {c pa : Nat} (hr : Reaches s c pa) (hh : isHost pa = false) :
    (s.isLocal pa || s.fabricOk (s.ctxTenant c) (portTo pa)) = true := by
  obtain h | ⟨-, h⟩ | ⟨h, -⟩ := hr
  · rw [h, Bool.true_or]
  · rw [h, Bool.or_true]
  · exact absurd (h.symm.trans hh) (by decide)

/-- R190, R211: an access that is made and leaves ordered has a stamp, and writes nothing yet. -/
theorem Made.sendsOrdered {s v : State} {t : Nat} {k : Ctr} {a : Access} {P : Access → Prop} (h : Made s v t k)
    (ht : a.tids = [t]) (hP : P a) (hr : Reaches s a.ctx a.pa) (hh : isHost a.pa = false) :
    sendsOrdered s (v.sendOrdAccess (ordSource t) a) t k P := by
  obtain ⟨⟨o, ho, hid, hwork, hst, hsrc, hstamp⟩, hfilter, haccs, hmem, hthreads, hflocks⟩ :=
    sendOrdAccess_leaves (src := ordSource t) (passes_of_reaches (h.rest.reaches hr) hh)
  rw [h.fresh] at hid hfilter
  rw [h.rest.ords] at hfilter
  refine ⟨⟨o, ho, a, hid, hwork, hst, hsrc, hstamp.trans (h.rest.clock _), ht, hP⟩, hfilter, haccs.trans h.rest.accs,
    hmem.trans h.rest.mem, ?_, fun q c => ?_, fun q c => ?_⟩
  · rw [thread_of_threads hthreads, h.ctr]
  · rw [rd_of_files hthreads hflocks, h.rd]
  · rw [rdP_of_threads hthreads, h.rdP]

/-! ### The ways of an atomic (R211 to R215) -/

/-- An access of thread `t` leaves as its form says: ordered, with a stamp, or on its own. -/
def leavesAs (s w : State) (t : Nat) (k : Ctr) (ord : Bool) (pa : Nat) (P : Access → Prop) : Prop :=
  (ord = false → sendsAccess s w t k P) ∧ (isHost pa = false → ord = true → sendsOrdered s w t k P)

/-- The line of an atomic has left its core's L1, and is marked. -/
def atomMarked (u : State) (t : Nat) (a : Access) : State :=
  ((u.commitWg t).dropL1 a.core (a.pa / 128)).markLine a.core (a.pa / 128) a.hint

theorem routeAtom_eq (u : State) (t : Nat) (a : Access) : u.routeAtom t a =
    if a.ord then (u.atomMarked t a).sendOrdAccess (ordSource t) a else (u.atomMarked t a).pushAccess a := rfl

theorem routeAtom_leaves {s u : State} {t : Nat} {k : Ctr} {a : Access} {P : Access → Prop} (h : Made s u t k)
    (hid : a.id = s.fresh) (ht : a.tids = [t]) (hP : ∀ n, P { a with sent := n }) (hr : Reaches s a.ctx a.pa) :
    leavesAs s (u.routeAtom t a) t k a.ord a.pa P := by
  have hmade : Made s (u.atomMarked t a) t k := ((h.commitWg t).dropL1 _ _).markLine _ _ _
  rw [routeAtom_eq]
  refine ⟨fun ho => ?_, fun hh ho => ?_⟩
  · rw [ho, if_neg Bool.false_ne_true]
    exact hmade.sendsAccess hid ht hP hr
  · rw [ho, if_pos rfl]
    exact hmade.sendsOrdered ht (hP a.sent) hr hh

end Sys2Proof.Machine.State

namespace Sys2Proof

open Sys2Proof.Machine State

section
variable (s r : State) (g : Group) (live : List Nat) (t : Nat) (va : W64) (xl : Xlat)

theorem ldAct_leaves (x : LdArgs) (hr : Reaches s (s.wg g.wg).ctx xl.pa) :
    sendsAccess s (ldAct x r g s live t (.global va xl)) t .ld fun a =>
      a.va = va ∧ a.pa = xl.pa ∧ a.op = .load x.size ∧ a.dst = State.dstFor x.d live t ∧ a.acq = x.acq ∧ a.hint = x.hint :=
  (made_newAccess s g t va xl (op := .load x.size) rfl (State.dstFor x.d live t) x.hint x.acq none false).sendsAccess rfl rfl
    (fun _ => ⟨rfl, rfl, rfl, rfl, rfl, rfl⟩) hr

/-- A commitment changes workgroups alone. -/
theorem commitWg_wgs : ∃ ws, s.commitWg t = { s with wgs := ws } := by
  unfold State.commitWg
  split <;> exact ⟨_, rfl⟩

theorem ctx_commitWg (w : Nat) : ((s.commitWg t).wg w).ctx = (s.wg w).ctx := by
  unfold State.commitWg
  split
  · rfl
  · rw [modWg, wg_setWg]
    split
    · rename_i e
      rw [e]
    · rfl

theorem stbqRefused_commitWg (pa : Nat) : (s.commitWg t).stbqRefused t pa = s.stbqRefused t pa := by
  have hctx : (s.commitWg t).ctxOf t = s.ctxOf t := by
    obtain ⟨ws, e⟩ := commitWg_wgs s t
    have hwg : ((s.commitWg t).thread t).wg = (s.thread t).wg := by rw [e]; rfl
    rw [ctxOf, wgOf, hwg, ctx_commitWg]
    rfl
  have hcore : (s.commitWg t).core (tidCore t) = s.core (tidCore t) := by
    obtain ⟨ws, e⟩ := commitWg_wgs s t
    rw [e]
    rfl
  simp only [stbqRefused, hctx, hcore]

/-- The access that an STBQ which is not refused at once makes, and the package then. -/
def stbqMade (x : StbqArgs) : Access × State :=
  (s.commitWg t).newAccess g [t] va xl (.stbq x.size (r.rdN t x.data x.size.words % 2 ^ (8 * x.size.bytes)))
    (State.dstFor x.d live t) x.hint none none false

/-- R207: the two ways of an STBQ. -/
theorem stbqAct_global (x : StbqArgs) : stbqAct x r g s live t (.global va xl) =
    if s.isLocal xl.pa && s.stbqRefused t xl.pa then ((s.commitWg t).countDone t .st).status t (State.dstFor x.d live t) 1
    else
      let m := stbqMade s r g live t va xl x
      (m.2.markLine m.1.core (m.1.pa / 128) m.1.hint).pushAccess m.1 := by
  have hlocal : (s.commitWg t).isLocal xl.pa = s.isLocal xl.pa := by
    obtain ⟨ws, e⟩ := commitWg_wgs s t
    rw [e]
    rfl
  rw [← stbqRefused_commitWg, ← hlocal]
  rfl

theorem stbqAct_refused (x : StbqArgs) (hl : s.isLocal xl.pa = true) (hq : s.stbqRefused t xl.pa = true) :
    stbqAct x r g s live t (.global va xl) = ((s.commitWg t).countDone t .st).status t (State.dstFor x.d live t) 1 := by
  rw [stbqAct_global, hl, hq, Bool.and_self, if_pos rfl]

theorem stbqMade_made (x : StbqArgs) : Made s (stbqMade s r g live t va xl x).2 t .st := by
  have h : Made (s.commitWg t) (stbqMade s r g live t va xl x).2 t .st := made_newAccess (s.commitWg t) g t va xl rfl ..
  generalize (stbqMade s r g live t va xl x).2 = v at h ⊢
  obtain ⟨ws, e⟩ := commitWg_wgs s t
  rw [e] at h
  have hcommit : IssueOnly s { s with wgs := ws } := rfl
  obtain ⟨hrest, hfresh, hctr, hrd, hrdP⟩ := h
  exact ⟨hcommit.trans hrest, hfresh, hctr, fun q c => (hrd q c).trans (rd_of_files rfl rfl q c),
    fun q c => (hrdP q c).trans (rdP_of_threads rfl q c)⟩

theorem stbqAct_leaves (x : StbqArgs) (hq : s.isLocal xl.pa = false ∨ s.stbqRefused t xl.pa = false)
    (hr : Reaches s (s.wg g.wg).ctx xl.pa) :
    sendsAccess s (stbqAct x r g s live t (.global va xl)) t .st fun a =>
      a.va = va ∧ a.pa = xl.pa ∧ a.op = .stbq x.size (r.rdN t x.data x.size.words % 2 ^ (8 * x.size.bytes)) ∧
        a.dst = State.dstFor x.d live t := by
  have hway : (s.isLocal xl.pa && s.stbqRefused t xl.pa) = false := by
    obtain h | h := hq
    · rw [h, Bool.false_and]
    · rw [h, Bool.and_false]
  have hid : (stbqMade s r g live t va xl x).1.id = s.fresh := by
    obtain ⟨ws, e⟩ := commitWg_wgs s t
    have hfresh := congrArg State.fresh e
    exact hfresh
  have hctx : (stbqMade s r g live t va xl x).1.ctx = (s.wg g.wg).ctx := ctx_commitWg s t g.wg
  rw [← hctx] at hr
  rw [stbqAct_global, hway, if_neg Bool.false_ne_true]
  exact ((stbqMade_made s r g live t va xl x).markLine _ _ _).sendsAccess hid rfl (fun _ => ⟨rfl, rfl, rfl, rfl⟩) hr

/-- R211: an ATOM leaves ordered or on its own. -/
theorem atomAct_leaves (x : AtomArgs) (hr : Reaches s (s.wg g.wg).ctx xl.pa) :
    leavesAs s (atomAct x r g s live t (.global va xl)) t .ld x.ord xl.pa fun a =>
      a.va = va ∧ a.pa = xl.pa ∧ a.op = .atom x.aop x.aty (r.rdN t x.b x.aty.words) ∧ a.dst = State.dstFor x.d live t :=
  routeAtom_leaves (made_newAccess s g t va xl (op := .atom x.aop x.aty (r.rdN t x.b x.aty.words)) rfl
    (State.dstFor x.d live t) x.hint (syncAcq x.sync) (syncRel x.sync) x.ord) rfl rfl (fun _ => ⟨rfl, rfl, rfl, rfl⟩) hr

theorem redAct_leaves (x : RedArgs) (hr : Reaches s (s.wg g.wg).ctx xl.pa) :
    leavesAs s (redAct x r g s live t (.global va xl)) t .st x.ord xl.pa fun a =>
      a.va = va ∧ a.pa = xl.pa ∧ a.op = .red x.aop x.aty (r.rdN t x.b x.aty.words) :=
  routeAtom_leaves (made_newAccess s g t va xl (op := .red x.aop x.aty (r.rdN t x.b x.aty.words)) rfl
    .zero x.hint (syncAcq x.sync) (syncRel x.sync) x.ord) rfl rfl (fun _ => ⟨rfl, rfl, rfl⟩) hr

/-- R212: CAS takes its comparand and its new value from one group of registers. -/
theorem casAct_leaves (x : CasArgs) (hr : Reaches s (s.wg g.wg).ctx xl.pa) :
    leavesAs s (casAct x r g s live t (.global va xl)) t .ld x.ord xl.pa fun a =>
      a.va = va ∧ a.pa = xl.pa ∧ a.dst = State.dstFor x.d live t ∧
        a.op = .cas x.aty (r.rdN t x.b x.aty.words) (r.rdN t (Reg.up x.b x.aty.words) x.aty.words) :=
  routeAtom_leaves (made_newAccess s g t va xl
    (op := .cas x.aty (r.rdN t x.b x.aty.words) (r.rdN t (Reg.up x.b x.aty.words) x.aty.words)) rfl
    (State.dstFor x.d live t) x.hint (syncAcq x.sync) (syncRel x.sync) x.ord) rfl rfl (fun _ => ⟨rfl, rfl, rfl, rfl⟩) hr

end

/-- Settles O19: each access is made and counted, and leaves by the way of its form. -/
theorem accessesLeave : Obligations.AccessesLeave := by
  intro s g
  refine ⟨fun x => mem_completes rfl, fun x => mem_completes rfl, fun x => mem_completes rfl, fun x => mem_completes rfl,
    fun x => mem_completes rfl, fun r live t va xl => ⟨stbqAct_refused s r g live t va xl, fun hr => ?_⟩⟩
  have hatom (x : AtomArgs) := atomAct_leaves s r g live t va xl x hr
  have hred (x : RedArgs) := redAct_leaves s r g live t va xl x hr
  have hcas (x : CasArgs) := casAct_leaves s r g live t va xl x hr
  exact ⟨fun x => ldAct_leaves s r g live t va xl x hr, fun x hq => stbqAct_leaves s r g live t va xl x hq hr,
    fun x => (hatom x).1, fun x => (hred x).1, fun x => (hcas x).1,
    fun hh => ⟨fun x => (hatom x).2 hh, fun x => (hred x).2 hh, fun x => (hcas x).2 hh⟩⟩

end Sys2Proof
end

section
/-!
PROOFS. WAIT, PTIME and WMARK at issue (07 R217, R218, R220, R221): a wait's first read and its outcomes, the time of a core, and
the watermark of a receiver.
-/

namespace Sys2Proof.Machine.State

open Sys2Proof

/-! ### A wait's word and its start (R218) -/

/-- Where no poison stands, no wait reads any (R398). -/
theorem watchPoison_clean {s : State} (h : s.poison = []) (t pa : Nat) (w : Option Nat) (ty : Ty) : s.watchPoison t pa w ty = none := by
  cases w with
  | some v => simp only [watchPoison, scratchPoisoned_clean s v pa h, Bool.false_eq_true, if_false]
  | none =>
    simp only [watchPoison, queuedPoison_clean h, poisonAt_clean h, Option.map_none, Bool.false_eq_true, if_false, ite_self]

/-- R287: a thread whose wait starts is blocked in it, and memory stands. -/
theorem startWait_blocks (s : State) (t : Nat) (kind : WaitKind) (d : Reg) (e : TExp) :
    ((s.startWait t kind d e).thread t).st = .blocked ∧ (s.startWait t kind d e).mem = s.mem ∧
      ((s.startWait t kind d e).thread t).wait.map (·.kind) = some kind := by
  rw [startWait, thread_modThread]
  exact ⟨rfl, rfl, rfl⟩

end Sys2Proof.Machine.State

namespace Sys2Proof

open Sys2Proof.Machine State

/-! ### WAIT (R217, R218) -/

/-- The virtual address under which a WAIT's word is read again. -/
def placeVa : Place → W64
  | .global va _ => va
  | .scratch _ off => BitVec.ofNat 64 off

/-- What a participant of a WAIT waits for. -/
def waitKindAt (x : WaitArgs) (r : State) (t : Nat) (p : Place) : WaitKind :=
  .mem (placeVa p) (placeKey p).1 (placeKey p).2.1 x.ty (r.rdN t x.b x.ty.words) x.cond x.acq (x.ext || (placeKey p).2.2)

section
variable {s : State} (x : WaitArgs) (r : State) (g : Group) (live : List Nat) (t : Nat) (p : Place)

/-- R218: a word that another node or a host holds is asked for. -/
theorem waitAct_away (hn : (placeKey p).2.1 = none) (hl : s.isLocal (placeKey p).1 = false) : waitAct x r g s live t p =
    (s.startWait t (waitKindAt x r t p) (State.statusReg x.d live t) x.e).sendRead t (placeKey p).1 := by
  unfold waitAct
  dsimp only
  rw [hn, hl, Option.isNone_none, Bool.not_false, Bool.and_self, if_pos rfl]
  cases p with
  | scratch w off => cases hn
  | global va y => rfl

/-- R218: a word of scratch or of this package's memory is read at once. -/
theorem waitAct_here (hclean : s.poison = []) (hnear : (placeKey p).2.1 ≠ none ∨ s.isLocal (placeKey p).1 = true) :
    waitAct x r g s live t p =
      if waitCond x.cond x.ty (s.watched t (placeKey p).1 (placeKey p).2.1 x.ty) (r.rdN t x.b x.ty.words) then
        ((s.waitAcquire t (placeKey p).1 (placeKey p).2.1 x.ty x.acq).sawWord t (placeKey p).1 (placeKey p).2.1 x.ty).status t
          (State.statusReg x.d live t) 0
      else if x.e = 0 then
        (s.sawWord t (placeKey p).1 (placeKey p).2.1 x.ty).status t (State.statusReg x.d live t) 1
      else s.startWait t (waitKindAt x r t p) (State.statusReg x.d live t) x.e := by
  have haway : ((placeKey p).2.1.isNone && !s.isLocal (placeKey p).1) = false := by
    obtain h | h := hnear
    · rw [Option.isNone_eq_false_iff.mpr (Option.isSome_iff_ne_none.mpr h), Bool.false_and]
    · rw [h, Bool.not_true, Bool.and_false]
  unfold waitAct
  dsimp only
  rw [haway, if_neg Bool.false_ne_true, watchPoison_clean hclean]
  simp only [Fin.val_eq_zero_iff]
  cases p <;> rfl

end

theorem waitOnMemory : WaitOnMemory := by
  intro s g x
  refine ⟨mem_completes rfl, fun r live t p hclean => ?_⟩
  intro k v b d w
  refine ⟨fun hn hl => ⟨placeVa p, x.ext || k.2.2, ?_⟩, fun hnear => ⟨fun hc => ?_, fun hc he => ?_, fun hc he => ?_⟩⟩
  · have hkind : waitKindAt x r t p = .mem (placeVa p) k.1 none x.ty b x.cond x.acq (x.ext || k.2.2) := by
      rw [← hn]
      rfl
    rw [← hkind]
    exact waitAct_away x r g live t p hn hl
  · exact (waitAct_here x r g live t p hclean hnear).trans (if_pos hc)
  · exact (waitAct_here x r g live t p hclean hnear).trans ((if_neg (Bool.eq_false_iff.mp hc)).trans (if_pos he))
  · have hw : w = s.startWait t (waitKindAt x r t p) d x.e :=
      (waitAct_here x r g live t p hclean hnear).trans ((if_neg (Bool.eq_false_iff.mp hc)).trans (if_neg he))
    obtain ⟨hst, hmem, hkind⟩ := startWait_blocks s t (waitKindAt x r t p) d x.e
    rw [hw]
    exact ⟨hst, hmem, placeVa p, x.ext || k.2.2, hkind⟩

/-! ### PTIME and WMARK (R220, R221) -/

/-- R220: PTIME reads the time of its core once nothing of its participants is ahead of it. -/
theorem ptime_computes (s : State) (g : Group) (x : DstArgs)
    (hfree : ∀ p ∈ s.participants g (.ptime x), flushPending s p = false ∧ s.stampAhead (tidCore p) = false) :
    Computes s g (.ptime x) x.d 2 (fun p => s.clock (tidCore p)) (fun _ => 0) := by
  intro h hf
  have hw : (x.d, 2) ∈ instrWrites (.ptime x) := List.mem_singleton_self _
  have hany : ((s.participants g (.ptime x)).any fun t => flushPending s t || s.stampAhead (tidCore t)) = false := by
    rw [List.any_eq_false]
    intro p hp
    obtain ⟨hflush, hstamp⟩ := hfree p hp
    rw [hflush, hstamp]
    exact Bool.false_ne_true
  have hx : exec (.ptime x) s = .next (State.alu (fun s _ t => .reg x.d 2 (s.clock (tidCore t)) 0) g
      (s.participants g (.ptime x)) s) := by
    refine congrArg Host.Outcome.next ((issue_clear h _).trans ?_)
    rw [hany, if_neg Bool.false_ne_true]
  refine ⟨_, hx, alu_writes (pd := none) (b := fun _ => false) (f := fun s _ t => .reg x.d 2 (s.clock (tidCore t)) 0) (fun _ => rfl) hf
    h.clean (participants_nodup _ h.distinct) ?_⟩
  intro hd p hp q hq
  exact h.flock (h.fu (usesWK_of_write hw hd)) p (participants_sub hp) q (participants_sub hq)

section
variable (s r : State) (g : Group) (live : List Nat) (t : Nat) (va : W64) (xl : Xlat) (x : WmarkWaitArgs)

/-- R221: host memory has no receiver, and its watermark has passed every stamp. -/
theorem wmarkWaitAct_host (h : recvKey s xl.pa = none) : wmarkWaitAct x r g s live t (.global va xl) =
    (s.raiseFloor t (r.rd64 t x.b).toNat).status t (State.statusReg x.d live t) 0 := by
  simp only [wmarkWaitAct, h]

/-- R221, R375: a receiver that the fabric shuts out, one that has passed the stamp, and one that has not. -/
theorem wmarkWaitAct_recv {n : Nat} (h : recvKey s xl.pa = some n) : wmarkWaitAct x r g s live t (.global va xl) =
    if s.isLocal xl.pa = false ∧ s.fabricOk (s.ctxTenant (s.ctxOf t)) (State.portTo xl.pa) = false then
      (s.ctxFault (s.ctxOf t) tcPeerUnreachable).status t (State.statusReg x.d live t) 3
    else if s.passed n (r.rd64 t x.b).toNat then
      (s.raiseFloor t (r.rd64 t x.b).toNat).status t (State.statusReg x.d live t) 0
    else if x.e = 0 then s.status t (State.statusReg x.d live t) 1
    else s.startWait t (.wmark va n (r.rd64 t x.b).toNat) (State.statusReg x.d live t) x.e := by
  simp only [wmarkWaitAct, h, Fin.val_eq_zero_iff, Bool.and_eq_true, Bool.not_eq_true']

end

theorem timeAndWatermarks : TimeAndWatermarks := by
  intro s g
  refine ⟨ptime_computes s g, fun x => completes_of rfl rfl, fun x => mem_completes rfl, fun x => mem_completes rfl,
    fun r live t va xl => ⟨fun x => rfl, fun x => ?_⟩⟩
  exact ⟨wmarkWaitAct_host s r g live t va xl x, fun n => wmarkWaitAct_recv s r g live t va xl x⟩

/-- Settles O23: `WaitOnMemory`, by where the word stands, and `TimeAndWatermarks`. -/
theorem waitsAndTime : Obligations.WaitsAndTime := ⟨waitOnMemory, timeAndWatermarks⟩

end Sys2Proof
end

section
/-!
PROOFS. How waits end (07 R218, R220, R221; 10 R287, R297, R298): a time that is up, a word read again, a time or a watermark
reached, and the sheepdog.
-/

namespace Sys2Proof.Machine.State

open Sys2Proof

/-! ### The end of a wait (R287) -/

section
variable {s : State} {t : Nat} {w : Wait} (hw : (s.thread t).wait = some w)
include hw

theorem endWait_eq (code : Nat) : s.endWait t code = (s.status t w.d code).dropWait t := by
  simp only [endWait, hw]

/-- R271: a thread whose wait has ended runs, or stays blocked with the others of its group. -/
theorem st_endWait (code : Nat) : ((s.endWait t code).thread t).st = if s.groupBlocked t then .blocked else .running := by
  have hgroup : (s.status t w.d code).groupBlocked t = s.groupBlocked t := by
    have e := congrArg (fun x : State => x.groupBlocked t) (threadsOnly_status s t w.d code)
    exact e
  rw [endWait_eq hw, dropWait, thread_modThread, hgroup]

/-- R202: the wait's register holds the status of what ended it. -/
theorem rdN_endWait (hd : w.d ≠ .zero) (hf : w.d.fits 1) (code : Nat) : (s.endWait t code).rdN t w.d 1 = code % 2 ^ 32 := by
  have hdrop : ∀ r, ((s.status t w.d code).dropWait t).rd t r = (s.status t w.d code).rd t r := fun r => by
    refine rd_modThread ?_ _ t t r
    exact fun _ => rfl
  rw [endWait_eq hw, rdN_congr hdrop, status, rdN_wrD hd hf]

/-! ### A time that is up (R287) -/

theorem timeUp_due {d : Nat} (hd : w.deadline = some d) (hdue : d ≤ s.cyc) (hfirst : w.first = false)
    (hhalt : (s.wgOf t).halted = false) (hsign : ∀ k op, w.kind ≠ .sign k op) :
    s.timeUp t = ((s.withdraw t).sawWait t).endWait t 1 := by
  have hall : (decide (d ≤ s.cyc) && !w.first && !(s.wgOf t).halted) = true := by
    rw [decide_eq_true hdue, hfirst, hhalt]
    rfl
  cases hk : w.kind with
  | sign k op => exact absurd hk (hsign k op)
  | _ => simp only [timeUp, hw, hk, hd, hall, if_true]

theorem sawWait_other (hmem : ∀ va pa g ty b cond acq ext, w.kind ≠ .mem va pa g ty b cond acq ext) : s.sawWait t = s := by
  cases hk : w.kind with
  | mem va pa g ty b cond acq ext => exact absurd hk (hmem va pa g ty b cond acq ext)
  | _ => simp only [sawWait, hw, hk]

theorem withdraw_other (hmeet : ∀ k, w.kind ≠ .meet k) (hsign : ∀ k op, w.kind ≠ .sign k op) : s.withdraw t = s := by
  cases hk : w.kind with
  | meet k => exact absurd hk (hmeet k)
  | sign k op => exact absurd hk (hsign k op)
  | _ => simp only [withdraw, hw, hk]

/-- A wait of which no read has held the condition yet goes on. -/
theorem waitOn_kept (hfirst : w.first = false) : s.waitOn t = s := by
  simp only [waitOn, hw, hfirst, Bool.not_false, if_true]

/-! ### A word read again (R218) -/

section
variable {va : W64} {pa : Nat} {g : Option Nat} {ty : Ty} {b : Nat} {cond : WCond} {acq : Option Scope} {ext : Bool}
  (hk : w.kind = .mem va pa g ty b cond acq ext)
include hk

theorem rereadWait_gone (hp : s.waitPlace t va pa g = .error true) (reply : Option (W128 × Nat)) :
    s.rereadWait t reply = s.endWait t 2 := by
  simp only [rereadWait, hw, hk, hp, if_true]

theorem rereadWait_absent (hp : s.waitPlace t va pa g = .error false) (reply : Option (W128 × Nat)) : s.rereadWait t reply = s := by
  simp only [rereadWait, hw, hk, hp, Bool.false_eq_true, if_false]

end

end

/-- The wait of a thread whose word has moved goes on at the new place. -/
def movedTo (s : State) (t pa p : Nat) : State := if p = pa then s else s.watchAt t p

/-- What a WAIT's read brings: another node's answer enters the pod picture. -/
def answered (m : State) (p : Nat) (g : Option Nat) (ty : Ty) (reply : Option (W128 × Nat)) : State :=
  if g.isNone then m.learn p (waitLen ty) reply else m

/-- R171, R192, R193: nothing holds a WAIT's read, of scratch at its tile or of memory at its home. -/
def mayRead (m : State) (t p : Nat) (ty : Ty) : Option Nat → Prop
  | none => m.homeServes t p (waitLen ty) = true
  | some v => m.scratchLoadWaits v p = false

theorem poison_movedTo (s : State) (t pa p : Nat) : (s.movedTo t pa p).poison = s.poison := by
  unfold movedTo
  split <;> rfl

/-- What is learnt brings no poison. -/
theorem answered_clean {m : State} (h : m.poison = []) (p : Nat) (g : Option Nat) (ty : Ty) (reply : Option (W128 × Nat)) :
    (m.answered p g ty reply).poison = [] := by
  unfold answered learn
  split
  · split
    · split
      · exact h
      · exact if_pos h
    · exact h
  · exact h

section
variable {s : State} {t : Nat} {w : Wait} (hw : (s.thread t).wait = some w)
  {va : W64} {pa : Nat} {g : Option Nat} {ty : Ty} {b : Nat} {cond : WCond} {acq : Option Scope} {ext : Bool}
  (hk : w.kind = .mem va pa g ty b cond acq ext)
include hw hk

/-- R218: a word that may be read is read where it stands now; the wait ends with its acquire, or goes on. -/
theorem rereadWait_read (hclean : s.poison = []) {p : Nat} (hp : s.waitPlace t va pa g = .ok p)
    (hserve : (s.movedTo t pa p).mayRead t p ty g) (reply : Option (W128 × Nat)) :
    let r := (s.movedTo t pa p).answered p g ty reply
    s.rereadWait t reply =
      if waitCond cond ty (r.watched t p g ty) b then ((r.waitAcquire t p g ty acq).sawWord t p g ty).endWait t 0
      else r.waitOn t := by
  have hpoison := watchPoison_clean (answered_clean ((poison_movedTo s t pa p).trans hclean) p g ty reply) t p g ty
  unfold movedTo answered at *
  simp only [rereadWait, hw, hk, hp]
  generalize (if p = pa then s else s.watchAt t p) = m at *
  rw [hpoison, if_neg]
  unfold mayRead at hserve
  cases g with
  | none => simp only [hserve, Bool.not_true, Bool.false_eq_true, not_false_eq_true]
  | some v => simp only [hserve, Bool.false_eq_true, not_false_eq_true]

/-- R218: a WAIT on scratch or on this package's memory reads again after every step. -/
theorem endIfTrue_here (hnear : g.isSome = true ∨ s.isLocal pa = true) : s.endIfTrue t = s.rereadWait t none := by
  have h : (g.isSome || s.isLocal pa) = true := by simpa using hnear
  simp only [endIfTrue, hw, hk, h, if_true]

section
variable (hg : g = none) (hl : s.isLocal pa = false)
include hg hl

/-- R218: a WAIT on another node's memory whose page is not valid any longer ends at once. -/
theorem endIfTrue_gone (hp : s.waitPlace t va pa g = .error true) : s.endIfTrue t = s.endWait t 2 := by
  subst hg
  simp only [endIfTrue, hw, hk, hl, hp, Option.isSome_none, Bool.or_self, Bool.false_eq_true, if_false]

/-- A WAIT on another node's memory whose read is on its way goes on. -/
theorem endIfTrue_away (hp : s.waitPlace t va pa g ≠ .error true) (hidle : w.idle = false) : s.endIfTrue t = s := by
  subst hg
  simp only [endIfTrue, hw, hk, hl, hidle, Option.isSome_none, Bool.or_self, Bool.false_and, Bool.false_eq_true, if_false]
  split
  · rename_i e
    exact absurd e hp
  · rfl
  · rfl

theorem waitsAway_away : s.waitsAway t = some pa := by
  subst hg
  simp only [waitsAway, hw, hk, hl, Bool.false_eq_true, if_false]

/-- R218: another node's answer has the word read again. -/
theorem wakeAway_answer (hidle : w.idle = false) (hhost : isHost pa = false) (hflit : s.flitWaits (waitFlit t) = false)
    (reply : Option (W128 × Nat)) : s.wakeAway t reply = (s.hearFlit pa).rereadWait t reply := by
  simp only [wakeAway, waitsAway_away hw hk hg hl, hhost, hflit, hw, hidle, Option.any_some, Bool.or_self, Bool.false_eq_true, if_false]

/-- R218: a read of host memory that is due is made and repeated. -/
theorem pollHost_due (hidle : w.idle = false) (hhost : isHost pa = true) (hdue : w.first = true ∨ w.sent + 4000 ≤ s.now)
    (reply : Option (W128 × Nat)) : s.pollHost t reply =
      (s.modThread t fun x => { x with wait := x.wait.map fun y => { y with sent := s.now } }).rereadWait t reply := by
  have hearly : (!w.first && decide (s.now < w.sent + 4000)) = false := by
    obtain h | h := hdue
    · rw [h, Bool.not_true, Bool.false_and]
    · rw [decide_eq_false (Nat.not_lt.mpr h), Bool.and_false]
  simp only [pollHost, waitsAway_away hw hk hg hl, hw, hhost, hidle, hearly, Bool.not_true, Bool.or_self, Bool.false_eq_true, if_false]

end

end

/-! ### The sheepdog (R297, R298) -/

/-- The threads of a context that are held inside it. -/
def heldThreads (s : State) (c : Nat) : List Nat :=
  (s.threads.filter fun x => decide (x.1 < 524288) && s.ctxOf x.1 = c && s.heldInside x.1 x.2).map (·.1)

/-- R298: a thread that still waits has its arrival or signature withdrawn, and traps. -/
def sheepdogOne (u : State) (p : Nat) : State :=
  if (u.thread p).wait.isSome then ((u.withdraw p).dropWait p).trap p tcSheepdog 0 else u

theorem fireSheepdog_due {s : State} {c since : Nat} (hstill : (s.ctx c).still = some since) (hdue : since + 4000000 ≤ s.now)
    (htime : ∀ p ∈ s.heldThreads c, ∀ y d, (s.thread p).wait = some y → y.deadline = some d → s.cyc < d) :
    s.fireSheepdog c =
      (s.heldThreads c).foldl sheepdogOne ((s.modCtx c fun x => { x with still := none }).ctxError c) := by
  have hlate : ((s.heldThreads c).any fun t => match (s.thread t).wait with
      | some w => (match w.deadline with | some d => decide (d ≤ s.cyc) | none => false)
      | none => false) = false := by
    rw [List.any_eq_false]
    intro p hp
    split
    · rename_i y hy
      split
      · rename_i d hd
        simpa using htime p hp y d hy hd
      · exact Bool.false_ne_true
    · exact Bool.false_ne_true
  unfold fireSheepdog
  rw [hstill]
  dsimp only
  rw [if_neg (Nat.not_lt.mpr hdue), if_neg]
  · rfl
  · exact Bool.eq_false_iff.mp hlate

end Sys2Proof.Machine.State

namespace Sys2Proof

open Sys2Proof.Machine State

section
variable {s : State} {t : Nat} {w : Wait}

theorem waitTimeout_outcome (hw : (s.thread t).wait = some w) (d : Nat) (hd : w.deadline = some d) (hdue : d ≤ s.cyc)
    (hfirst : w.first = false) (hhalt : (s.wgOf t).halted = false) (hsign : ∀ k op, w.kind ≠ .sign k op) :
    exec (.waitTimeout t) s = .next (((s.withdraw t).sawWait t).endWait t 1) ∧
      ((∀ va pa g ty b cond acq ext, w.kind ≠ .mem va pa g ty b cond acq ext) → (∀ k, w.kind ≠ .meet k) → s.sawWait t = s) ∧
      ((∀ k, w.kind ≠ .meet k) → s.withdraw t = s) :=
  ⟨congrArg Host.Outcome.next (timeUp_due hw hd hdue hfirst hhalt hsign), fun hmem _ => sawWait_other hw hmem,
    fun hmeet => withdraw_other hw hmeet hsign⟩

theorem ptimeReached_ends (hw : (s.thread t).wait = some w) (n : Nat) (hk : w.kind = .ptime n) (hn : n ≤ s.clock (tidCore t)) :
    exec (.ptimeReached t) s = .next (s.endWait t 0) := by
  refine congrArg Host.Outcome.next ?_
  simp only [hw, hk, hn, if_true]

theorem endIfTrue_passed (hw : (s.thread t).wait = some w) (va : W64) (r st : Nat) (hk : w.kind = .wmark va r st)
    (hp : s.passed r st = true) : s.endIfTrue t = (s.raiseFloor t st).endWait t 0 := by
  simp only [endIfTrue, hw, hk, hp, if_true]

end

/-- Settles O43, event by event. -/
theorem waitsEnd : Obligations.WaitsEnd := by
  intro s
  refine ⟨fun t w hw => ⟨waitTimeout_outcome hw, fun code => ?ended, fun va pa g ty b cond acq ext hk => ?word,
    ptimeReached_ends hw, endIfTrue_passed hw⟩, fun c since hstill hdue => ?sheepdog⟩
  case ended =>
    obtain ⟨hwait, -⟩ := thread_endWait s t hw code
    exact ⟨hwait, st_endWait hw code, (threadsOnly_endWait s t code).mem, fun hd hf => rdN_endWait hw hd hf code⟩
  case word =>
    refine ⟨fun hclean reply => ⟨fun hp => rereadWait_gone hw hk hp reply, fun hp => rereadWait_absent hw hk hp reply,
      fun p hp => ?_⟩, waitOn_kept hw, endIfTrue_here hw hk, fun hg hl => ?_, fun hg hl hidle reply => ?_⟩
    · exact fun hserve => rereadWait_read hw hk hclean hp hserve reply
    · exact ⟨endIfTrue_gone hw hk hg hl, endIfTrue_away hw hk hg hl⟩
    · exact ⟨fun hhost hflit => congrArg Host.Outcome.next (wakeAway_answer hw hk hg hl hidle hhost hflit reply),
        fun hhost hsent => congrArg Host.Outcome.next (pollHost_due hw hk hg hl hidle hhost hsent reply)⟩
  case sheepdog => exact fun htime => congrArg Host.Outcome.next (fireSheepdog_due hstill hdue htime)

end Sys2Proof
end

section
/-!
PROOFS. What the fabric tells a package (08 R226 to R241; 13 R372): beacons and packets of other nodes, stalls and cuts, links
that go down and train, and a port's tokens.
-/

namespace Sys2Proof.Machine.State

open Sys2Proof

/-! ### What changes inputs and receivers alone -/

/-- Nothing changed but the receivers and the inputs. -/
def FabricOnly (s u : State) : Prop := { u with recvs := s.recvs, ports := s.ports } = s

namespace FabricOnly

variable {s u v : State}

theorem refl (s : State) : FabricOnly s s := rfl

theorem trans (a : FabricOnly s u) (b : FabricOnly u v) : FabricOnly s v := by
  have e := congrArg (fun x : State => { x with recvs := s.recvs, ports := s.ports }) b
  exact e.trans a

theorem mem (h : FabricOnly s u) : u.mem = s.mem := by
  have e := congrArg State.mem h
  exact e

theorem now (h : FabricOnly s u) : u.now = s.now := by
  have e := congrArg State.now h
  exact e

theorem ords (h : FabricOnly s u) : u.ords = s.ords := by
  have e := congrArg State.ords h
  exact e

theorem foldl {α : Type} {f : State → α → State} (h : ∀ u a, FabricOnly u (f u a)) (l : List α) (s : State) :
    FabricOnly s (l.foldl f s) :=
  List.foldlRecOn l f (motive := FabricOnly s) (refl s) fun u hu a _ => hu.trans (h u a)

end FabricOnly

section
variable (s : State)

theorem fabricOnly_setPort (p : Nat) (x : PortIn) : FabricOnly s (s.setPort p x) := rfl

theorem fabricOnly_setRecv (r : Nat) (x : Recv) : FabricOnly s (s.setRecv r x) := rfl

theorem fabricOnly_rejoinLink (die : Nat) : FabricOnly s (s.rejoinLink die) := by
  unfold rejoinLink
  dsimp only
  split
  · exact fabricOnly_setPort s _ _
  · exact .refl s

theorem fabricOnly_syncRecvs : FabricOnly s s.syncRecvs :=
  ((fabricOnly_rejoinLink s 0).trans (fabricOnly_rejoinLink _ 1)).trans
    (FabricOnly.foldl (fun u r => fabricOnly_setRecv u r _) _ _)

/-! ### The ends of the die-to-die link (R235, R237) -/

/-- R235: an end of the link, cut and trained again, rejoins above all that has been advertised since. -/
theorem rejoinLink_end (die : Nat) : (s.rejoinLink die).port (linkPort die) = { s.port (linkPort die) with
    cut := (s.port (linkPort die)).cut && !((s.port (linkPort die)).trained &&
      decide (max (s.port (linkPort die)).adv s.meshMark < s.inputMark (1 - die))) } := by
  unfold rejoinLink
  dsimp only
  generalize decide (max (s.port (linkPort die)).adv s.meshMark < s.inputMark (1 - die)) = above
  rw [Bool.and_assoc]
  split
  · rename_i h
    obtain ⟨-, h⟩ := Bool.and_eq_true_iff.mp h
    rw [port_setPort, if_pos rfl, h, Bool.not_true, Bool.and_false]
  · rename_i h
    have hcut : ((s.port (linkPort die)).cut && !((s.port (linkPort die)).trained && above)) = (s.port (linkPort die)).cut := by
      cases hc : (s.port (linkPort die)).cut with
      | false => rfl
      | true =>
        rw [hc, Bool.true_and, Bool.not_eq_true] at h
        rw [h]
        rfl
    rw [hcut]

theorem ne_linkPort {p : Nat} (h : isFabricPort p = true) (die : Nat) : p ≠ linkPort die := by
  simp only [isFabricPort, Bool.and_eq_true, decide_eq_true_eq] at h
  unfold linkPort
  omega

variable {s} {p : Nat}

/-- No end of the link rejoins at a fabric port, or before its link has trained. -/
theorem port_rejoinLink (h : isFabricPort p = true ∨ (s.port p).trained = false) (die : Nat) :
    (s.rejoinLink die).port p = s.port p := by
  by_cases hp : p = linkPort die
  · obtain h | h := h
    · exact absurd hp (ne_linkPort h die)
    · rw [hp] at h ⊢
      rw [rejoinLink_end, h, Bool.false_and, Bool.not_false, Bool.and_true]
  · unfold rejoinLink
    dsimp only
    split
    · rw [port_setPort, if_neg hp]
    · rfl

theorem port_syncRecv (u : State) (r p : Nat) : (u.syncRecv r).port p = u.port p := rfl

theorem port_syncRecvs (h : isFabricPort p = true ∨ (s.port p).trained = false) : s.syncRecvs.port p = s.port p := by
  have h0 := port_rejoinLink h 0
  have h1 := port_rejoinLink (s := s.rejoinLink 0) (by rw [h0]; exact h) 1
  unfold syncRecvs
  rw [foldl_keeps (fun u : State => u.port p) fun u r => port_syncRecv u r p, h1, h0]

/-- Where no receiver holds an operation, none has one to apply. -/
theorem drainRecvs_none (h : ∀ o ∈ s.ords, o.st ≠ .held) : s.drainRecvs = s := by
  have hnone : s.ords.filter (fun o => o.st = .held) = [] :=
    List.filter_eq_nil_iff.mpr fun o ho => by simpa using h o ho
  rw [drainRecvs, hnone]
  rfl

theorem FabricOnly.unheld {u : State} (h : FabricOnly s u) (hs : ∀ o ∈ s.ords, o.st ≠ .held) : ∀ o ∈ u.ords, o.st ≠ .held := by
  rw [h.ords]
  exact hs

end

/-! ### Beacons and packets of other nodes (R228, R232, R235, R237) -/

section
variable {s : State} {port : Nat}

/-- R226, R235: what a beacon leaves of its input, before and after the receivers are brought up to date. -/
theorem port_beacon (hp : isFabricPort port = true) (wm onode oport : Nat) :
    (((s.syncRecvs.rejoinPort port wm).hearPort port wm onode oport).syncRecvs).port port =
      let x := s.port port
      let adv := max x.adv s.syncRecvs.meshMark
      { x with wm := max x.wm wm, onode, oport, heard := s.now, adv := if x.cut then adv else x.adv
               cut := x.cut && decide (wm ≤ adv) } := by
  rw [port_syncRecvs (.inl hp)]
  simp only [hearPort, rejoinPort, port_setPort, if_true, port_syncRecvs (.inl hp), (fabricOnly_syncRecvs s).now]

theorem fabricOnly_beacon (wm onode oport : Nat) :
    FabricOnly s (((s.syncRecvs.rejoinPort port wm).hearPort port wm onode oport).syncRecvs) :=
  ((fabricOnly_syncRecvs s).trans ((fabricOnly_setPort _ _ _).trans (fabricOnly_setPort _ _ _))).trans (fabricOnly_syncRecvs _)

section
variable (v : State) (p : InPacket)

/-- R232: a packet is late, which its input counts and its sender is told. -/
def lateInbound : State :=
  let x := v.port (fabricPort p.port)
  let u := v.setPort (fabricPort p.port) { x with late := x.late + 1 }
  { u with sent := u.sent ++ [.ordRejected p.rank.pkg p.rank.idx p.rank.seq] }

/-- R229, R230: a packet is held by its receiver. -/
def holdInbound : State :=
  makeRoom { v with
    fresh := v.fresh + 1
    ords := v.ords ++ [{ id := v.fresh, rank := p.rank, src := 512 + p.port, recv := v.homeOf p.addr
                         work := .inbound p.op p.addr p.tenant, st := .held, left := v.now }] } (v.homeOf p.addr)

/-- R372: the range check lets a packet's bytes be reached. -/
def inboundOk : Bool := v.remoteOkFor p.tenant p.addr && v.remoteOkFor p.tenant (p.addr + homeLen p.op - 1)

/-- R232, R372: what an input's packet finds at its receiver: it is late, refused by the range check, or held. -/
def takeInbound : State :=
  if p.rank.stamp < (v.recv (v.homeOf p.addr)).w then v.lateInbound p
  else if v.inboundOk p = false then v.refuseInbound p.port
  else v.holdInbound p

end

/-- R232, R237: only once its packet has been taken does its head's watermark count. -/
theorem arriveInbound_eq {p : InPacket} (hp : p.port < 24) :
    s.arriveInbound p = (((takeInbound (s.syncRecvs.rejoinPort (fabricPort p.port) p.wm) p).hearPort
      (fabricPort p.port) p.wm p.onode p.oport).syncRecvs).drainRecvs := by
  rw [arriveInbound, if_neg (Nat.not_le.mpr hp)]
  generalize s.syncRecvs.rejoinPort (fabricPort p.port) p.wm = v
  have htake : (if p.rank.stamp < (v.recv (v.homeOf p.addr)).w then v.lateInbound p
      else if (!v.inboundOk p) = true then v.refuseInbound p.port else v.holdInbound p) = v.takeInbound p := by
    simp only [Bool.not_eq_true', takeInbound]
  rw [← htake]
  rfl

/-! ### Stalls and cuts (R233, R234) -/

/-- R233: a receiver that holds an operation and has stood for 64 µs asks for a cut at the origin of its watermark. -/
theorem stallAt_due {r : Nat} (hheld : ((s.syncRecv r).ords.any fun o => o.recv = r && o.st = .held) = true)
    (hasked : ((s.syncRecv r).recv r).asked = false) (hdue : ((s.syncRecv r).recv r).moved + 256000 ≤ s.now) :
    s.stallAt r = { (s.syncRecv r).setRecv r { (s.syncRecv r).recv r with asked := true } with
      sent := s.sent ++ [.cutAsk ((s.syncRecv r).lowestOrigin (sliceDie r)).1 ((s.syncRecv r).lowestOrigin (sliceDie r)).2] } := by
  have hnow : (s.syncRecv r).now = s.now := rfl
  have hask : (((s.syncRecv r).ords.any fun o => o.recv = r && o.st = .held) && !((s.syncRecv r).recv r).asked &&
      decide (((s.syncRecv r).recv r).moved + 256000 ≤ (s.syncRecv r).now)) = true := by
    rw [hheld, hasked, hnow, decide_eq_true hdue]
    rfl
  unfold stallAt
  dsimp only
  rw [if_pos hask]
  rfl

/-- R233: the answer to a cut request, to a receiver here or to the node that asked. -/
def answerCut (r port : Nat) (u : State) (slow : Bool) : State :=
  if r < 48 then u.hearAnswer r slow else { u with sent := u.sent ++ [.cutAnswer r port slow] }

section
variable {r : Nat} (slow : Bool)

/-- R233: a request for an input of this package is let be where the input takes no part, answered as cut where another has
cut it, refused as slow where it has been heard or is not the fabric's, and granted otherwise. -/
theorem requestCut_here : s.requestCut r s.node.toNat port slow =
    if s.inputUp port = false then
      if (s.port port).cut then ((answerCut r port (s.tellCut r s.node.toNat port) false).syncRecvs).drainRecvs else s
    else if isFabricPort port = false ∨ s.now < (s.port port).heard + 256000 then
      answerCut r port (s.setPort port { s.port port with trained := true, slow := (s.port port).slow + 1 }) true
    else ((answerCut r port ((s.tellCut r s.node.toNat port).cutPort port) false).syncRecvs).drainRecvs := by
  unfold requestCut
  rw [if_neg (not_not_intro rfl)]
  simp only [Bool.not_eq_true', Bool.or_eq_true, decide_eq_true_eq]
  rfl

/-- R233, R241: what lay lost behind a fold's port is forgotten once the far input has been cut. -/
def afterGrant (s : State) (node port : Nat) (slow : Bool) : State :=
  if slow = false ∧ 0x100 ≤ node ∧ port = s.node.toNat then s.forgetLost (node - 0x100) else s

theorem requestCut_answer {node : Nat} (h : node ≠ s.node.toNat) : s.requestCut r node port slow =
    if r < 48 ∧ (s.recv r).asked = false then s.afterGrant node port slow
    else if slow then (s.afterGrant node port slow).hearAnswer r true
    else ((s.afterGrant node port slow).tellCut r node port).hearAnswer r false := by
  have hrecv : (s.afterGrant node port slow).recv r = s.recv r := by
    unfold afterGrant
    split <;> rfl
  have hlost : (if (!slow && decide (0x100 ≤ node) && decide (port = s.node.toNat)) = true then s.forgetLost (node - 0x100) else s) =
      s.afterGrant node port slow := by
    simp only [afterGrant, Bool.and_eq_true, Bool.not_eq_true', decide_eq_true_eq, and_assoc]
  unfold requestCut
  rw [if_pos h]
  dsimp only
  rw [hlost, hrecv]
  cases slow <;> simp

end

/-! ### Links (R233, R235) -/

theorem port_cutPort : (s.cutPort port).port port = { s.port port with cut := true, cuts := (s.port port).cuts + 1, adv := 0 } := by
  rw [cutPort, port_setPort, if_pos rfl]

/-- R233, R241: an input has been cut, and what lay lost behind a fabric port with it. -/
def cutAway (s : State) (port : Nat) : State :=
  if isFabricPort port then (s.cutPort port).forgetLost (port - 0x200) else s.cutPort port

theorem cutAway_files (s : State) (port : Nat) :
    (s.cutAway port).mem = s.mem ∧ (s.cutAway port).ords = s.ords ∧ (s.cutAway port).port port = (s.cutPort port).port port := by
  unfold cutAway
  split <;> exact ⟨rfl, rfl, rfl⟩

theorem linkDown_due (hl : isLinkInput port = true) (hu : s.inputUp port = true) :
    s.linkDown s.node.toNat port = (((s.cutAway port).setPort port
      { (s.cutAway port).port port with trained := false }).syncRecvs).drainRecvs := by
  have hcond : (decide (s.node.toNat = s.node.toNat) && isLinkInput port && s.inputUp port) = true := by
    rw [hl, hu, decide_eq_true rfl]
    rfl
  unfold linkDown
  rw [if_pos hcond]
  rfl

end

/-! ### Token buckets (R240) -/

/-- What a flit leaves as it is when it goes: memory, the tenants' buckets, and when tokens were last handed out. -/
structure BucketsStand (s u : State) : Prop where
  mem : u.mem = s.mem
  tenants : u.tenants = s.tenants
  shared : u.shared = s.shared

namespace BucketsStand

variable {s u v : State}

theorem refl (s : State) : BucketsStand s s := ⟨rfl, rfl, rfl⟩

theorem trans (a : BucketsStand s u) (b : BucketsStand u v) : BucketsStand s v :=
  ⟨b.mem.trans a.mem, b.tenants.trans a.tenants, b.shared.trans a.shared⟩

end BucketsStand

theorem bucketsStand_flitLeft (s : State) (tenant id : Nat) : BucketsStand s (s.flitLeft tenant id) := by
  refine ⟨(flitOnly_flitLeft s tenant id).mem, ?_, ?_⟩
  all_goals
    unfold flitLeft
    dsimp only
    split <;> rfl

theorem bucketsStand_popFlits (port tenant : Nat) : ∀ (n : Nat) (s : State), BucketsStand s (popFlits port tenant n s)
  | 0, s => .refl s
  | n + 1, s => by
    unfold popFlits
    split
    · exact .refl s
    · rename_i f _
      have hleft := bucketsStand_flitLeft { s with flitq := tput s.flitq port ((s.flitsAt port).erase f) } tenant f.id
      exact BucketsStand.trans ⟨hleft.mem, hleft.tenants, hleft.shared⟩ (bucketsStand_popFlits port tenant n _)

/-- What a table holds at a key once each of its values has changed by what its key says. -/
theorem tget_map_keyed {α : Type} (f : Nat × α → α) (t : Tbl α) (i : Nat) :
    tget (t.map fun x => (x.1, f x)) i = (tget t i).map fun x => f (i, x) := by
  induction t with
  | nil => rfl
  | cons p t ih =>
    obtain ⟨k, v⟩ := p
    by_cases h : k = i
    · simp [tget, h]
    · simpa [tget, h] using ih

/-- R240, R375: a tenant with no flit queued at a port, after one µs: its lanes' tokens, bounded by CEIL and by the depth of its
bucket. -/
def refilled (s : State) (port i : Nat) (x : Tenant) : Tenant :=
  let own := s.lanesOf i port * 3125
  let ceil := bitsOf ((tget x.fabric port).getD 0) 1 3 * 3125
  { x with
    flits := tput x.flits port (min ((tget x.flits port).getD 0 + if ceil = 0 then own else min own ceil) (s.portDepth i port))
    used := tput x.used port 0 }

theorem gainOf_unqueued {s : State} {port i : Nat} (h : s.queuedAt i port = 0) (idle spare leases n : Nat) (x : Tenant) :
    s.gainOf i port idle spare x leases n =
      let own := s.lanesOf i port * 3125
      let ceil := bitsOf ((tget x.fabric port).getD 0) 1 3 * 3125
      if ceil = 0 then own else min own ceil := by
  unfold gainOf
  simp only [if_pos h, Nat.pos_iff_ne_zero, ne_eq, ite_not]

/-- The package once every tenant's bucket at a port has been filled and emptied of what its flits take. -/
def bucketsFilled (s : State) (port : Nat) (step : Nat × Tenant → Tenant) : State :=
  { s with tenants := s.tenants.map fun t => (t.1, step t), shared := tput s.shared port s.now }

/-- R240: a µs fills the buckets, and then as many flits leave as each tenant's tokens allow; a tenant with none queued sends
none. -/
theorem redistribute_due {s : State} {port : Nat} (hdue : (tget s.shared port).getD 0 + 4000 ≤ s.now)
    (hcool : s.hotPorts.contains port = false) : ∃ (step : Nat × Tenant → Tenant) (go : Nat × Tenant → Nat),
      s.redistribute port =
        s.tenants.foldl (fun u t => popFlits port t.1 (go t) u) (s.bucketsFilled port step) ∧
      ∀ i x, s.queuedAt i port = 0 → go (i, x) = 0 ∧ step (i, x) = s.refilled port i x := by
  have hskip : ¬ (decide (s.now < (tget s.shared port).getD 0 + 4000) || s.hotPorts.contains port) = true := by
    rw [hcool, decide_eq_false (Nat.not_lt.mpr hdue)]
    exact Bool.false_ne_true
  unfold redistribute
  rw [if_neg hskip]
  refine ⟨_, _, rfl, fun i x hq => ?_⟩
  have hgo : ∀ k, (if s.portSends port then min (s.queuedAt i port) k else 0) = 0 := fun k => by
    rw [hq, Nat.zero_min, ite_self]
  refine ⟨hgo _, ?_⟩
  simp only [hgo, gainOf_unqueued hq, Nat.mul_zero, Nat.sub_zero, refilled]

end Sys2Proof.Machine.State

namespace Sys2Proof

open Sys2Proof.Machine State

section
variable {s : State} {port : Nat}

theorem beacon_own (hp : isFabricPort port = true) (hheld : ∀ o ∈ s.ords, o.st ≠ .held) (wm onode oport : Nat) :
    Gives (.beacon s.node.toNat port wm onode oport) s fun t =>
      (t.port port).wm = max (s.port port).wm wm ∧ (t.port port).onode = onode ∧ (t.port port).oport = oport ∧
      (t.port port).heard = s.now ∧
      (t.port port).cut = ((s.port port).cut && decide (wm ≤ max (s.port port).adv s.syncRecvs.meshMark)) ∧
      FabricOnly s t := by
  have honly := fabricOnly_beacon (s := s) (port := port) wm onode oport
  refine ⟨((s.syncRecvs.rejoinPort port wm).hearPort port wm onode oport).syncRecvs, congrArg Host.Outcome.next ?_, ?_⟩
  · rw [beacon, if_neg (not_not_intro rfl), if_pos hp, drainRecvs_none (honly.unheld hheld)]
  · dsimp only
    rw [port_beacon hp]
    exact ⟨rfl, rfl, rfl, rfl, rfl, honly⟩

/-- R233: a link that goes down takes its input with it; it does not rejoin before it has trained. -/
theorem linkDown_own (hl : isLinkInput port = true) (hu : s.inputUp port = true) (hheld : ∀ o ∈ s.ords, o.st ≠ .held) :
    Gives (.linkDown s.node.toNat port) s fun t =>
      (t.port port).cut = true ∧ (t.port port).trained = false ∧ t.mem = s.mem := by
  obtain ⟨hmem, hords, hport⟩ := cutAway_files s port
  have hdown : ((s.cutAway port).setPort port { (s.cutAway port).port port with trained := false }).port port =
      { s.port port with cut := true, cuts := (s.port port).cuts + 1, adv := 0, trained := false } := by
    rw [port_setPort, if_pos rfl, hport, port_cutPort]
  have honly := (fabricOnly_setPort (s.cutAway port) port { (s.cutAway port).port port with trained := false }).trans
    (fabricOnly_syncRecvs _)
  refine ⟨_, congrArg Host.Outcome.next (linkDown_due hl hu), ?_⟩
  dsimp only
  rw [drainRecvs_none (honly.unheld (hords.symm ▸ hheld)), port_syncRecvs (.inr (by rw [hdown])), hdown]
  exact ⟨rfl, rfl, honly.mem.trans hmem⟩

theorem linkTrained_fabric (hp : isFabricPort port = true) : Gives (.linkTrained s.node.toNat port) s fun t =>
    (t.port port).trained = true ∧ (t.port port).heard = s.now ∧ FabricOnly s t := by
  have hsync := fabricOnly_syncRecvs s
  refine ⟨s.syncRecvs.setPort port { s.syncRecvs.port port with trained := true, heard := s.syncRecvs.now },
    congrArg Host.Outcome.next ?_, ?_⟩
  · rw [linkTrained, if_neg (not_not_intro rfl), if_pos hp]
  · generalize s.syncRecvs = v at hsync
    dsimp only
    rw [port_setPort, if_pos rfl]
    exact ⟨rfl, hsync.now, hsync.trans (fabricOnly_setPort _ _ _)⟩

/-- R240: a µs at a port: its time is noted, and a tenant with no flit queued there has its tokens. -/
theorem tokenRedistribution_due (hdue : (tget s.shared port).getD 0 + 4000 ≤ s.now) (hcool : s.hotPorts.contains port = false) :
    Gives (.tokenRedistribution port) s fun t => tget t.shared port = some s.now ∧ t.mem = s.mem ∧
      ((∀ x ∈ s.tenants, s.queuedAt x.1 port = 0) → { t with tenants := s.tenants, shared := s.shared } = s) ∧
      ∀ i x, tget s.tenants i = some x → s.queuedAt i port = 0 → tget t.tenants i = some (s.refilled port i x) := by
  obtain ⟨step, go, he, hidle⟩ := redistribute_due hdue hcool
  have hstand : BucketsStand (s.bucketsFilled port step)
      (s.tenants.foldl (fun u t => popFlits port t.1 (go t) u) (s.bucketsFilled port step)) :=
    List.foldlRecOn _ _ (motive := BucketsStand _) (.refl _) fun u hu t _ => hu.trans (bucketsStand_popFlits port t.1 _ u)
  refine ⟨_, congrArg Host.Outcome.next he, ?_, hstand.mem, fun hall => ?_, fun i x hx hq => ?_⟩
  · rw [hstand.shared]
    exact tget_tput_same _ _ _
  · rw [foldl_same _ _ _ fun t ht => by rw [(hidle t.1 t.2 (hall t ht)).1]; rfl]
    rfl
  · obtain ⟨-, hstep⟩ := hidle i x hq
    rw [hstand.tenants, ← hstep]
    exact (tget_map_keyed step s.tenants i).trans (congrArg (Option.map fun x => step (i, x)) hx)

end

/-- Settles O39, event by event. -/
theorem fabricEvents : Obligations.FabricEvents := by
  intro s node port
  refine ⟨fun wm onode oport hnode => ?otherBeacon, ?ownBeacon, fun p hp => ?packet, fun r hheld hasked hdue => ?stall,
    fun r slow hsaved hnode => ?request, fun r slow hsaved hnode => ?answer, by rw [port_cutPort], by rw [port_cutPort],
    ?down, ?trained, ?linkEnd, fun die => rejoinLink_end s die, rfl, fun hdue hcool => ?tokens⟩
  case otherBeacon =>
    refine ⟨_, congrArg Host.Outcome.next (if_pos hnode), ?_, fabricOnly_setRecv s _ _⟩
    rw [recv_setRecv, if_pos rfl]
  case ownBeacon =>
    rintro wm onode oport rfl hp hheld
    exact beacon_own hp hheld wm onode oport
  case packet => exact congrArg Host.Outcome.next (arriveInbound_eq hp)
  case stall =>
    refine ⟨_, congrArg Host.Outcome.next (stallAt_due hheld hasked hdue), ?_, rfl, rfl⟩
    exact congrArg Recv.asked ((recv_setRecv _ r r _).trans (if_pos rfl))
  case request =>
    subst hnode
    have he : exec (.cutRequest r s.node.toNat ⟨port, slow⟩) s = .next (s.requestCut r s.node.toNat port slow) :=
      congrArg Host.Outcome.next (onLoan_home hsaved)
    rw [he, requestCut_here]
    refine ⟨fun hup hcut => ?_, fun hup hcut => ?_, fun hup hslow => ?_, fun hup hport hheard => ?_⟩
    · rw [if_pos hup, if_neg (Bool.eq_false_iff.mp hcut)]
    · rw [if_pos hup, if_pos hcut]
      rfl
    · rw [if_neg (ne_false_of_eq_true hup), if_pos hslow]
      rfl
    · have hgrant : ¬ (isFabricPort port = false ∨ s.now < (s.port port).heard + 256000) := by
        rintro (h | h)
        · exact absurd hport (Bool.eq_false_iff.mp h)
        · exact absurd h (Nat.not_lt.mpr hheard)
      rw [if_neg (ne_false_of_eq_true hup), if_neg hgrant]
      rfl
  case answer =>
    exact congrArg Host.Outcome.next ((onLoan_home hsaved).trans (requestCut_answer slow hnode))
  case down =>
    rintro rfl hl hu hheld
    exact linkDown_own hl hu hheld
  case trained =>
    rintro rfl hp
    exact linkTrained_fabric hp
  case linkEnd =>
    rintro rfl hp hl
    have he : s.linkTrained s.node.toNat port = if (tget s.ports port).isSome then ((s.syncRecvs.setPort port
        { s.syncRecvs.port port with trained := true, heard := s.syncRecvs.now }).syncRecvs).drainRecvs else s := by
      simp only [linkTrained, ne_eq, not_true_eq_false, if_false, hp, hl, Bool.false_eq_true, Bool.true_and]
    refine ⟨fun hnone => congrArg Host.Outcome.next ?_, fun hsome => congrArg Host.Outcome.next ?_⟩
    · rw [he, hnone]
      rfl
    · rw [he, if_pos (Option.isSome_iff_ne_none.mpr hsome)]
  case tokens =>
    obtain ⟨t, ht, hshared, hmem, hrest, htenants⟩ := tokenRedistribution_due hdue hcool
    exact ⟨t, ht, hshared, hmem, hrest, fun i x hx hq => ⟨_, htenants i x hx hq, tget_tput_same _ _ _, tget_tput_same _ _ _⟩⟩

end Sys2Proof
end

section
/-!
PROOFS. Participants that act one by one (R149, R242, R259): what the group's place leaves, and a rule for all of them done.
-/

namespace Sys2Proof.Machine.State

open Sys2Proof

/-! ### Moving on does not read who has acted -/

section
variable (s : State) (c : Option Group) (g : Group)

/-- A fold of operations that each leave the current group alone takes it as it comes. -/
theorem foldl_withCur {α : Type} {f : State → α → State} (h : ∀ u a, f { u with cur := c } a = { f u a with cur := c })
    (l : List α) : ∀ s : State, l.foldl f { s with cur := c } = { l.foldl f s with cur := c } := by
  induction l with
  | nil => exact fun _ => rfl
  | cons a l ih =>
    intro s
    rw [List.foldl_cons, h, ih, List.foldl_cons]

theorem clearStall_withCur : { s with cur := c }.clearStall g = { s.clearStall g with cur := c } := by
  unfold clearStall
  split
  · exact foldl_withCur c (fun _ _ => rfl) g.members s
  · rfl

theorem membersAt_withCur (a b : TState) : { s with cur := c }.membersAt g a b = { s.membersAt g a b with cur := c } :=
  foldl_withCur c (fun _ _ => rfl) g.members s

theorem markFu_withCur : { s with cur := c }.markFu g = { s.markFu g with cur := c } := by
  unfold markFu
  split
  · split <;> rfl
  · rfl

theorem clearFu_withCur : { s with cur := c }.clearFu g = { s.clearFu g with cur := c } := by
  unfold clearFu
  split
  · split <;> rfl
  · rfl

theorem endClause_withCur (f : Nat → W64) : { s with cur := c }.endClause g f = { s.endClause g f with cur := c } := by
  unfold endClause
  rw [clearFu_withCur]
  exact foldl_withCur c (fun _ _ => rfl) g.members (s.clearFu g)

theorem advanceGroup_withCur :
    { s with cur := c }.advanceGroup g = ((s.advanceGroup g).1, { (s.advanceGroup g).2 with cur := c }) := by
  have hmembers : (if g.blocked then ({ s with cur := c }.clearStall g).membersAt g .blocked .running
      else { s with cur := c }.clearStall g) =
      { (if g.blocked then (s.clearStall g).membersAt g .blocked .running else s.clearStall g) with cur := c } := by
    rw [clearStall_withCur]
    split
    · exact membersAt_withCur _ c g _ _
    · rfl
  unfold advanceGroup
  dsimp only
  rw [hmembers]
  split
  · rw [markFu_withCur]
  · rw [endClause_withCur]

/-- The note of who has acted is gone once the group moves on. -/
theorem advance_noted (t : Nat) : (s.noted t).advance = s.advance := by
  cases h : s.cur with
  | none => rw [show s.noted t = s by rw [noted, h, Option.map_none, ← h]]
  | some g =>
    have hsame (u : State) : u.advanceGroup { g with part := g.part ++ [t] } = u.advanceGroup g := rfl
    simp only [noted, h, Option.map_some, advance, hsame, advanceGroup_withCur]

end

/-! ### All participants done -/

/-- Participants that have not acted yet all do their part, if each can once those before it have; `I` is what stands when
the given ones have acted. -/
theorem allDone_of {one : State → Nat → State × Bool} {I : List Nat → State → Prop} {ps : List Nat} {s : State} {g : Group}
    (hcur : s.cur = some g) (hps : ∀ p ∈ ps, p ∈ g.members ∧ p ∉ g.part) (hnodup : ps.Nodup) (h0 : I [] s)
    (hone : ∀ done t rest u, ps = done ++ t :: rest → I done u →
      ∃ v, one u t = (v, true) ∧ v.cur = u.cur ∧ I (done ++ [t]) (v.noted t)) :
    ∃ u, AllDone one ps s u ∧ I ps u := by
  suffices h : ∀ rest done u g, ps = done ++ rest → u.cur = some g → (∀ p ∈ rest, p ∈ g.members ∧ p ∉ g.part) →
      rest.Nodup → I done u → ∃ w, AllDone one rest u w ∧ I ps w from h ps [] s g rfl hcur hps hnodup h0
  intro rest
  induction rest with
  | nil =>
    intro done u _ hdone _ _ _ hI
    rw [List.append_nil] at hdone
    exact ⟨u, rfl, hdone ▸ hI⟩
  | cons t rest ih =>
    intro done u g hdone hcur hps hnodup hI
    obtain ⟨htr, hnodup⟩ := List.nodup_cons.mp hnodup
    obtain ⟨hmem, hpart⟩ := hps t (List.mem_cons_self ..)
    obtain ⟨v, hv, hvcur, hI'⟩ := hone done t rest u hdone hI
    have hcur' : (v.noted t).cur = some { g with part := g.part ++ [t] } := by rw [noted, hvcur, hcur]; rfl
    have hps' : ∀ p ∈ rest, p ∈ g.members ∧ p ∉ g.part ++ [t] := fun p hp => by
      obtain ⟨hm, hn⟩ := hps p (List.mem_cons_of_mem _ hp)
      have hne : p ≠ t := fun e => htr (e ▸ hp)
      exact ⟨hm, by simp [hn, hne]⟩
    obtain ⟨w, hw, hIw⟩ := ih (done ++ [t]) _ _ (by rw [hdone]; simp) hcur' hps' hnodup hI'
    exact ⟨w, ⟨g, hcur, .inr ⟨hmem, hpart, v, hv, hw⟩⟩, hIw⟩

/-- The same for the participants of an instruction that nothing stands before, none of whom has acted. -/
theorem allDone_clear {one : State → Nat → State × Bool} {I : List Nat → State → Prop} {s : State} {g : Group} {i : Instr}
    (h : Clear s g i) (hpart : g.part = []) (h0 : I [] s)
    (hone : ∀ done t rest u, s.participants g i = done ++ t :: rest → I done u →
      ∃ v, one u t = (v, true) ∧ v.cur = u.cur ∧ I (done ++ [t]) (v.noted t)) :
    ∃ u, AllDone one (s.participants g i) s u ∧ I (s.participants g i) u :=
  allDone_of h.cur (fun _ hp => ⟨participants_sub hp, by rw [hpart]; exact List.not_mem_nil⟩)
    (participants_nodup i h.distinct) h0 hone

end Sys2Proof.Machine.State
end

section
/-!
PROOFS. Tiles and codebooks (09 R258, R259): runs that participants free, test and fill in turn, and a slot's load.
-/

namespace Sys2Proof.Machine

/-! ### Tables and memories without some keys -/

theorem tget_filter {α : Type} (q : Nat → Bool) (t : Tbl α) (n : Nat) :
    tget (t.filter fun r => q r.1) n = if q n then tget t n else none := by
  induction t with
  | nil => simp [tget]
  | cons r t ih =>
    obtain ⟨k, v⟩ := r
    by_cases hk : k = n
    · subst hk
      cases hq : q k <;> simp [hq, tget, ih]
    · cases hq : q k <;> simp [hq, tget, hk, ih]

theorem mget_filter (q : Nat → Bool) (m : Memory) (a : Nat) :
    mget (m.filter fun c => q c.1) a = if q a then mget m a else 0 := by
  induction m with
  | nil => simp [mget]
  | cons c m ih =>
    obtain ⟨k, v⟩ := c
    by_cases hk : k = a
    · subst hk
      cases hq : q k <;> simp [hq, mget, ih]
    · cases hq : q k <;> simp [hq, mget, hk, ih]

namespace State

open Sys2Proof

/-! ### Tiles freed (R170, R259) -/

theorem tileOf_emptyTiles (s : State) (w : Nat) (ts : List Nat) (j n : Nat) :
    (s.emptyTiles w ts).tileOf j n = if j = w ∧ n ∈ ts then .empty else s.tileOf j n := by
  have hwg : (s.emptyTiles w ts).wg j = (s.modWg w fun x => { x with
    scr := x.scr.filter fun c => !ts.contains (c.1 / 4096)
    tile := x.tile.filter fun r => !ts.contains r.1 }).wg j := rfl
  rw [tileOf, hwg, modWg, wg_setWg]
  by_cases hj : j = w
  · subst hj
    rw [if_pos rfl, tget_filter fun k => !ts.contains k]
    by_cases hn : n ∈ ts
    · simp [hn]
    · simp [hn, tileOf]
  · simp [hj, tileOf]

theorem scr_emptyTiles (s : State) (w : Nat) {ts : List Nat} {n b : Nat} (hn : n ∈ ts) (hb : b < 4096) :
    mget ((s.emptyTiles w ts).wg w).scr (n * 4096 + b) = 0 := by
  have hwg : (s.emptyTiles w ts).wg w = (s.modWg w fun x => { x with
    scr := x.scr.filter fun c => !ts.contains (c.1 / 4096)
    tile := x.tile.filter fun r => !ts.contains r.1 }).wg w := rfl
  have htile : (n * 4096 + b) / 4096 = n := by omega
  rw [hwg, modWg, wg_setWg, if_pos rfl, mget_filter fun k => !ts.contains (k / 4096), htile]
  simp [hn]

/-! ### What a participant's turn leaves for the others' (R259) -/

/-- The group, the workgroups of its threads and their allocations stand, and tiles that were idle are. -/
structure RunKept (s u : State) : Prop where
  cur : u.cur = s.cur
  wg : ∀ p, (u.thread p).wg = (s.thread p).wg
  tiles : ∀ w, (u.wg w).tiles = (s.wg w).tiles
  idle : ∀ w n, s.tileFree w n = true → u.tileFree w n = true

namespace RunKept

variable {s u v : State}

theorem refl (s : State) : RunKept s s := ⟨rfl, fun _ => rfl, fun _ => rfl, fun _ _ h => h⟩

theorem trans (a : RunKept s u) (b : RunKept u v) : RunKept s v where
  cur := b.cur.trans a.cur
  wg p := (b.wg p).trans (a.wg p)
  tiles w := (b.tiles w).trans (a.tiles w)
  idle w n h := b.idle w n (a.idle w n h)

theorem foldl {α : Type} {f : State → α → State} (h : ∀ u a, RunKept u (f u a)) (l : List α) (s : State) :
    RunKept s (l.foldl f s) :=
  List.foldlRecOn l f (motive := RunKept s) (refl s) fun u hu a _ => hu.trans (h u a)

theorem of_threadsOnly (h : ThreadsOnly s u) (hwg : ∀ p, (u.thread p).wg = (s.thread p).wg) : RunKept s u :=
  ⟨h.cur, hwg, fun w => congrArg Wg.tiles (wg_of_wgs h.wgs w), fun w n hf => by
    rwa [tileFree, tileOf, wg_of_wgs h.wgs, ← tileOf, ← tileFree]⟩

theorem runIdle (h : RunKept s u) {w : Nat} {ts : List Nat} (hi : s.runIdle w ts = true) : u.runIdle w ts = true :=
  List.all_eq_true.mpr fun n hn => h.idle w n (List.all_eq_true.mp hi n hn)

theorem runPast (h : RunKept s u) (w : Nat) (t : Tile) (cnt : Fin 256) : u.runPast w t cnt = s.runPast w t cnt := by
  simp only [State.runPast, h.tiles]

theorem stands (h : RunKept s u) (p : Nat) : u.stands p = s.stands p := by
  simp only [State.stands, h.cur]

end RunKept

theorem runMask_of_wgs {s u : State} (h : u.wgs = s.wgs) (w : Nat) (ts : List Nat) : u.runMask w ts = s.runMask w ts := by
  have htile : u.tileOf w = s.tileOf w := funext fun n => by rw [tileOf, wg_of_wgs h, ← tileOf]
  rw [runMask, runMask, htile]

section
variable (s : State) (t : Nat)

theorem wg_modThread {f : Thread → Thread} (hf : ∀ x, (f x).wg = x.wg) (p : Nat) :
    ((s.modThread t f).thread p).wg = (s.thread p).wg := by
  rw [modThread, thread_setThread]
  split
  · rename_i e
    rw [hf, e]
  · rfl

theorem runKept_modThread {f : Thread → Thread} (hf : ∀ x, (f x).wg = x.wg) : RunKept s (s.modThread t f) :=
  .of_threadsOnly (threadsOnly_modThread s t f) (wg_modThread s t hf)

theorem runKept_status (d : Reg) (k : Nat) : RunKept s (s.status t d k) := by
  refine .of_threadsOnly (threadsOnly_status s t d k) fun p => ?_
  obtain ⟨g, c, e⟩ := thread_status s t d k p
  rw [e]

theorem runKept_wrD (d : Reg) (k v : Nat) : RunKept s (s.wrD t d k v) := by
  refine .of_threadsOnly (threadsOnly_wrD s t d k v) fun p => ?_
  rw [thread_wrD]
  have e := congrArg Thread.wg ((kept_wrGroup s t d v k).thread p)
  exact e

theorem runKept_startWait (kind : WaitKind) (d : Reg) (e : TExp) : RunKept s (s.startWait t kind d e) :=
  runKept_modThread s t fun _ => rfl

theorem runKept_endWait (k : Nat) : RunKept s (s.endWait t k) := by
  unfold endWait
  split
  · exact (runKept_status s t _ k).trans (runKept_modThread _ t fun _ => rfl)
  · exact .refl s

theorem runKept_freeTiles (w : Nat) (ts : List Nat) : RunKept s (s.freeTiles w ts) := by
  have hempty : RunKept s (s.emptyTiles w ts) := by
    refine ⟨rfl, fun _ => rfl, fun j => ?_, fun j n h => ?_⟩
    · exact (congrArg Wg.tiles (wg_setWg s w j _)).trans (by split <;> simp [*])
    · rw [tileFree, tileOf_emptyTiles]
      split
      · rfl
      · exact h
  exact hempty.trans (RunKept.foldl (f := fun u (x : Nat × Thread) => u.endWait x.1 2) (fun u x => runKept_endWait u x.1 2) _ _)

theorem runKept_pollOr (ok : Bool) (d : Reg) (e : TExp) (kind : WaitKind) {done : State → State} (h : ∀ u, RunKept u (done u)) :
    RunKept s (s.pollOr ok t d e kind done) := by
  unfold pollOr
  split
  · exact (h s).trans (runKept_status _ t d 0)
  · split
    · exact runKept_status s t d 1
    · exact runKept_startWait s t kind d e

end

/-- R259: a tile instruction on runs within the allocation: every participant acts, and the group goes on. `I` is what the
turns of some participants leave for the others. -/
theorem eachRun_completes {s : State} {g : Group} {i : Instr} {t : Tile} {cnt : Fin 256}
    {act : Group → List Nat → State → Nat → Nat → State} {turn : State → Nat → State} (I : State → Prop)
    (hx : exec i s = .next (s.issue i fun g ps s => eachRun t cnt (act g ps) g ps s))
    (hpast : ∀ p ∈ s.participants g i, s.runPast (s.thread p).wg t cnt = false) (h0 : I s) (hI : ∀ u, I u → RunKept s u)
    (hturn : ∀ u, ∀ p ∈ s.participants g i, I u → act g (s.participants g i) u p (s.thread p).wg = turn u p)
    (hkept : ∀ u p, I u → I (turn u p)) : Completes s g i ((s.participants g i).foldl turn s).goOn := by
  intro h
  refine completes_of hx ?_ h
  have hstands := stands_participants (i := i) h.cur
  have hfold : ∀ (ps : List Nat) (u : State), I u → (∀ p ∈ ps, p ∈ s.participants g i) → ps.foldl (fun v p =>
      if !v.stands p then v
      else if v.runPast (v.thread p).wg t cnt then v.trap p tcScratchBounds 0
      else act g (s.participants g i) v p (v.thread p).wg) u = ps.foldl turn u := by
    intro ps
    induction ps with
    | nil => exact fun _ _ _ => rfl
    | cons p ps ih =>
      intro u hu hps
      have hp := hps p (List.mem_cons_self ..)
      have hkeep := hI u hu
      simp only [List.foldl_cons, hkeep.stands, hstands p hp, hkeep.wg, hkeep.runPast, hpast p hp, hturn u p hp hu,
        Bool.not_true, Bool.false_eq_true, if_false]
      exact ih _ (hkept u p hu) fun q hq => hps q (List.mem_cons_of_mem _ hq)
  exact congrArg goOn (hfold _ s h0 fun _ hp => hp)

/-! ### Tiles that TSET fills (R259) -/

/-- The tiles of a run, each with one more filling. -/
def beginFill (s : State) (w : Nat) (ts : List Nat) : State :=
  ts.foldl (fun s n => s.modTile w n fun r => { r with fill := r.fill + 1 }) s

/-- The fill that one participant's TSET begins. -/
def ownFill (s : State) (x : TileSet) (t : Nat) : TsetOp :=
  { id := s.fresh, wg := (s.thread t).wg, t := x.t.val, cnt := x.cnt.val + 1, pat := s.rd t x.a }

theorem tilesOnly_beginFill (s : State) (w : Nat) (ts : List Nat) : TilesOnly s (s.beginFill w ts) :=
  tilesOnly_foldl w _ ts s

theorem tsetOne_idle {s : State} {x : TileSet} {t : Nat} (hpast : s.runPast (s.thread t).wg x.t x.cnt = false)
    (hidle : s.runIdle (s.thread t).wg (runTiles x.t x.cnt) = true) :
    ∃ r, tsetOne x s t = (r, true) ∧ (r.core (tidCore t)).tsets = (s.core (tidCore t)).tsets ++ [s.ownFill x t] ∧
      r.mem = s.mem ∧ r.cur = s.cur := by
  have hfill := tilesOnly_beginFill s (s.thread t).wg (runTiles x.t x.cnt)
  have hfresh : (s.beginFill (s.thread t).wg (runTiles x.t x.cnt)).fresh = s.fresh := by
    have e := congrArg State.fresh hfill.rest
    exact e
  refine ⟨{ s.beginFill (s.thread t).wg (runTiles x.t x.cnt) with fresh := s.fresh + 1 }.modCore (tidCore t) fun c =>
    { c with tsets := c.tsets ++ [s.ownFill x t] }, ?_, ?_, hfill.mem, hfill.cur⟩
  · simp only [tsetOne, hpast, hidle, Bool.not_true, Bool.false_eq_true, if_false, newId, ownFill]
    rw [← hfresh]
    rfl
  · rw [core_modCore]
    exact congrArg (fun c : Core => c.tsets ++ [s.ownFill x t]) (core_of_cores hfill.cores (tidCore t))

/-! ### A codebook slot (R258) -/

/-- What CBLD leaves in a slot: the workgroup and the bytes of its tile. -/
def slotOf (s : State) (w n : Nat) : Codebook := { tag := some w, data := rebase (s.wg w).scr (n * 4096) 4096 }

/-- R258: the tile of a CBLD holds bytes that nothing is moving, and no accepted command reads the slot. -/
structure MayLoad (s : State) (x : CbldArgs) (w c : Nat) : Prop where
  within : x.t.val < (s.wg w).tiles
  full : s.tileEmpty w x.t.val = false
  fill : (s.tileOf w x.t.val).fill = 0
  drain : (s.tileOf w x.t.val).drain = 0
  clean : s.poison = []
  unread : ((s.core c).cmds.any fun m => m.stage ≠ .issued && kindCb m.kind = some x.slot.val) = false

/-- R258: a load of a slot. -/
def loadSlot (s : State) (x : CbldArgs) (w c : Nat) : State :=
  s.modCore c fun k => { k with cb := tput k.cb x.slot.val (s.slotOf w x.t.val) }

theorem cbldOne_loads {s : State} {x : CbldArgs} {t : Nat} (h : MayLoad s x (s.thread t).wg (tidCore t)) :
    cbldOne x s t = (s.loadSlot x (s.thread t).wg (tidCore t), true) := by
  obtain ⟨hin, hfull, hfill, hdrain, hclean, hunread⟩ := h
  simp only [cbldOne, if_neg (Nat.not_le.mpr hin), hfull, hfill, hdrain, hunread, hclean, Nat.lt_irrefl, decide_false,
    Bool.or_self, Bool.false_eq_true, if_false, List.contains_nil]
  rfl

theorem cb_loadSlot (s : State) (x : CbldArgs) (w c : Nat) :
    tget ((s.loadSlot x w c).core c).cb x.slot.val = some (s.slotOf w x.t.val) := by
  rw [loadSlot, core_modCore, tget_tput_same]

/-- The slot's core alone has changed, and its commands stand. -/
structure SlotOnly (s u : State) (c : Nat) : Prop where
  rest : { u with cores := s.cores, cur := s.cur } = s
  cmds : (u.core c).cmds = (s.core c).cmds

namespace SlotOnly

variable {s u : State} {c : Nat}

theorem mem (h : SlotOnly s u c) : u.mem = s.mem := by
  have e := congrArg State.mem h.rest
  exact e

theorem wgs (h : SlotOnly s u c) : u.wgs = s.wgs := by
  have e := congrArg State.wgs h.rest
  exact e

theorem thread (h : SlotOnly s u c) (p : Nat) : u.thread p = s.thread p := by
  have e := congrArg (fun x : State => x.thread p) h.rest
  exact e

theorem wg (h : SlotOnly s u c) (w : Nat) : u.wg w = s.wg w := wg_of_wgs h.wgs w

theorem mayLoad (h : SlotOnly s u c) {x : CbldArgs} {w : Nat} (hl : MayLoad s x w c) : MayLoad u x w c := by
  have htile : u.tileOf w x.t.val = s.tileOf w x.t.val := by rw [tileOf, h.wg, ← tileOf]
  refine ⟨by rw [h.wg]; exact hl.within, ?_, by rw [htile]; exact hl.fill, by rw [htile]; exact hl.drain, ?_,
    by rw [h.cmds]; exact hl.unread⟩
  · rw [tileEmpty, htile]
    exact hl.full
  · have e := congrArg State.poison h.rest
    exact Eq.trans e hl.clean

theorem loaded (h : SlotOnly s u c) (x : CbldArgs) (w t : Nat) : SlotOnly s ((u.loadSlot x w c).noted t) c where
  rest := h.rest
  cmds := by
    have e := core_modCore u c fun k => { k with cb := tput k.cb x.slot.val (u.slotOf w x.t.val) }
    exact (congrArg Core.cmds e).trans h.cmds

end SlotOnly

/-- R258: participants of one workgroup load a slot one after another, each with the same bytes. -/
theorem cbld_loads {s : State} {g : Group} {x : CbldArgs} {w c : Nat} (h : Clear s g (.cbld x)) (hpart : g.part = [])
    (hps : ∀ p ∈ s.participants g (.cbld x), (s.thread p).wg = w ∧ tidCore p = c) (hl : MayLoad s x w c) :
    ∃ u, AllDone (cbldOne x) (s.participants g (.cbld x)) s u ∧ SlotOnly s u c ∧
      (s.participants g (.cbld x) ≠ [] → tget (u.core c).cb x.slot.val = some (s.slotOf w x.t.val)) := by
  refine allDone_clear (I := fun done u => SlotOnly s u c ∧
    (done ≠ [] → tget (u.core c).cb x.slot.val = some (s.slotOf w x.t.val))) h hpart
    ⟨⟨rfl, rfl⟩, fun hne => absurd rfl hne⟩ fun done t rest u hsplit hu => ?_
  obtain ⟨hu, -⟩ := hu
  obtain ⟨rfl, rfl⟩ := hps t (by rw [hsplit]; simp)
  have hload := cbldOne_loads (s := u) (t := t) (x := x) (by rw [hu.thread]; exact hu.mayLoad hl)
  rw [hu.thread] at hload
  refine ⟨_, hload, rfl, hu.loaded x _ t, fun _ => ?_⟩
  have hslot := cb_loadSlot u x (s.thread t).wg (tidCore t)
  rw [slotOf, hu.wg] at hslot
  exact hslot

end State

end Sys2Proof.Machine

namespace Sys2Proof

open Sys2Proof.Machine State

section
variable (s : State) (g : Group)

theorem talloc_completes (x : TileDE)
    (hpast : ∀ p ∈ s.participants g (.talloc x), s.runPast (s.thread p).wg x.t x.cnt = false) :
    Completes s g (.talloc x) ((s.participants g (.talloc x)).foldl (fun v p =>
      v.pollOr (v.runIdle (s.thread p).wg (runTiles x.t x.cnt)) p (statusReg x.d (s.participants g (.talloc x)) p) x.e
        (.talloc x.t.val (x.cnt.val + 1)) fun v => v.freeTiles (s.thread p).wg (runTiles x.t x.cnt)) s).goOn :=
  eachRun_completes (act := fun _ ps u p w => u.pollOr (u.runIdle w (runTiles x.t x.cnt)) p (statusReg x.d ps p) x.e
      (.talloc x.t.val (x.cnt.val + 1)) fun v => v.freeTiles w (runTiles x.t x.cnt)) (RunKept s) rfl hpast (.refl s)
    (fun _ h => h) (fun _ _ _ _ => rfl) fun u p hu => hu.trans (runKept_pollOr u p _ _ _ _ fun v => runKept_freeTiles v _ _)

/-- R259: what one participant frees leaves the others' runs idle. -/
theorem tfree_completes (x : TileRun) (hps : ∀ p ∈ s.participants g (.tfree x),
      s.runPast (s.thread p).wg x.t x.cnt = false ∧ s.runIdle (s.thread p).wg (runTiles x.t x.cnt) = true) :
    Completes s g (.tfree x) ((s.participants g (.tfree x)).foldl (fun v p =>
      v.freeTiles (s.thread p).wg (runTiles x.t x.cnt)) s).goOn :=
  eachRun_completes (act := fun _ _ u p w => if u.runIdle w (runTiles x.t x.cnt) then u.freeTiles w (runTiles x.t x.cnt)
      else u.trap p tcTileState 0) (RunKept s) rfl (fun p hp => (hps p hp).1) (.refl s) (fun _ h => h)
    (fun _ p hp hu => if_pos (hu.runIdle (hps p hp).2)) fun u _ hu => hu.trans (runKept_freeTiles u _ _)

theorem tstat_completes (x : TileD)
    (hpast : ∀ p ∈ s.participants g (.tstat x), s.runPast (s.thread p).wg x.t x.cnt = false) :
    Completes s g (.tstat x) ((s.participants g (.tstat x)).foldl (fun v p =>
      v.wrD p (statusReg x.d (s.participants g (.tstat x)) p) 1
        (s.runMask (s.thread p).wg (runTiles x.t x.cnt))) s).goOn :=
  eachRun_completes (act := fun _ ps u p w => u.wrD p (statusReg x.d ps p) 1 (u.runMask w (runTiles x.t x.cnt)))
    (fun u => RunKept s u ∧ u.wgs = s.wgs) rfl hpast ⟨.refl s, rfl⟩ (fun _ h => h.1)
    (fun u p _ hu => by rw [runMask_of_wgs hu.2])
    fun u p hu => ⟨hu.1.trans (runKept_wrD u p _ _ _), (threadsOnly_wrD u p _ _ _).wgs.trans hu.2⟩

theorem tstatWait_completes (x : TileDE)
    (hpast : ∀ p ∈ s.participants g (.tstatWait x), s.runPast (s.thread p).wg x.t x.cnt = false) :
    Completes s g (.tstatWait x) ((s.participants g (.tstatWait x)).foldl (fun v p =>
      v.pollOr (v.runQuiet (s.thread p).wg (runTiles x.t x.cnt)) p (statusReg x.d (s.participants g (.tstatWait x)) p) x.e
        (.tstat x.t.val (x.cnt.val + 1)) id) s).goOn :=
  eachRun_completes (act := fun _ ps u p w => u.pollOr (u.runQuiet w (runTiles x.t x.cnt)) p (statusReg x.d ps p) x.e
      (.tstat x.t.val (x.cnt.val + 1)) id) (RunKept s) rfl hpast (.refl s) (fun _ h => h) (fun _ _ _ _ => rfl)
    fun u p hu => hu.trans (runKept_pollOr u p _ _ _ _ .refl)

/-- R259: the TSET of a lone participant begins its fill, and the group goes on. -/
theorem tset_fills (x : TileSet) (p : Nat) (hps : s.participants g (.tset x) = [p]) (hpart : g.part = [])
    (hpast : s.runPast (s.thread p).wg x.t x.cnt = false)
    (hidle : s.runIdle (s.thread p).wg (runTiles x.t x.cnt) = true) :
    Completes s g (.tset x) (tsetOne x s p).1.advance ∧
      (Clear s g (.tset x) → ∃ r o, exec (.tset x) s = .next r ∧ r.mem = s.mem ∧
        (r.core (tidCore p)).tsets = (s.core (tidCore p)).tsets ++ [o] ∧ o.wg = (s.thread p).wg ∧ o.t = x.t.val ∧
        o.cnt = x.cnt.val + 1 ∧ o.pat = s.rd p x.a) := by
  obtain ⟨r, hr, htsets, hmem, -⟩ := tsetOne_idle hpast hidle
  rw [hr]
  have hdone : Completes s g (.tset x) r.advance := by
    intro h
    have hp : p ∈ g.members := participants_sub (i := .tset x) (by rw [hps]; exact List.mem_singleton_self p)
    have hall : AllDone (tsetOne x) (s.participants g (.tset x)) s (r.noted p) := by
      rw [hps]
      exact ⟨g, h.cur, .inr ⟨hp, by rw [hpart]; exact List.not_mem_nil, r, hr, rfl⟩⟩
    rw [each_completes rfl (r.noted p) h hall, advance_noted]
  have hkept := (same_advance r).kept
  refine ⟨hdone, fun h => ⟨r.advance, s.ownFill x p, hdone h, ?mem, ?tsets, rfl, rfl, rfl, rfl⟩⟩
  case mem => exact (congrArg State.mem hkept.rest).trans hmem
  case tsets => exact (congrArg Core.tsets (hkept.core (tidCore p))).trans htsets

/-- R258: after the participants' loads the slot holds their tile. -/
theorem cbld_holds (x : CbldArgs) (w c : Nat) (hne : s.participants g (.cbld x) ≠ []) (hpart : g.part = [])
    (hps : ∀ p ∈ s.participants g (.cbld x), (s.thread p).wg = w ∧ tidCore p = c) (hl : MayLoad s x w c)
    (h : Clear s g (.cbld x)) : ∃ r, exec (.cbld x) s = .next r ∧ r.mem = s.mem ∧ r.wgs = s.wgs ∧
      tget (r.core c).cb x.slot.val = some (s.slotOf w x.t.val) := by
  obtain ⟨u, hall, hu, hslot⟩ := cbld_loads h hpart hps hl
  have hkept := (same_advance u).kept
  refine ⟨u.advance, each_completes rfl u h hall, ?mem, ?wgs, ?slot⟩
  case mem => exact (congrArg State.mem hkept.rest).trans hu.mem
  case wgs => exact (congrArg State.wgs hkept.rest).trans hu.wgs
  case slot => exact (congrArg (fun k : Core => tget k.cb x.slot.val) (hkept.core c)).trans (hslot hne)

end

/-- Settles O24: runs of tiles turn by turn, then one participant's fill and load. -/
theorem tileInstructions : Obligations.TileInstructions := by
  intro s g
  refine ⟨talloc_completes s g, tfree_completes s g, tstat_completes s g, tstatWait_completes s g, fun x => each_completes rfl,
    fun x p hps hpart hpast hidle => tset_fills s g x p hps hpart hpast hidle, fun x => each_completes rfl, ?loads, ?fill, ?load, ?freed⟩
  case loads =>
    intro x w c ps hne hpart hps hin hfull hfill hdrain hunread h
    exact cbld_holds s g x w c hne hpart hps ⟨hin, hfull, hfill, hdrain, h.clean, hunread⟩ h
  case fill =>
    intro x t hpast hidle
    obtain ⟨r, hr, htsets, hmem, -⟩ := tsetOne_idle hpast hidle
    exact ⟨r, _, hr, htsets, rfl, rfl, rfl, rfl, hmem⟩
  case load =>
    intro x t w hin hfull hfill hdrain hclean hunread
    exact ⟨_, cbldOne_loads ⟨hin, hfull, hfill, hdrain, hclean, hunread⟩, rfl, cb_loadSlot s x w (tidCore t)⟩
  case freed =>
    intro w ts n hn
    refine ⟨?_, fun b hb => scr_emptyTiles s w hn hb⟩
    rw [tileOf_emptyTiles, if_pos ⟨rfl, hn⟩]

end Sys2Proof
end

section
/-!
PROOFS. Send lists and pens (09 R262, R263, R266): appends in turn, the flush that SNDF makes, and PENQ's access with the thread
that waits for its reply.
-/

namespace Sys2Proof.Machine.State

open Sys2Proof

/-! ### Appends (R262) -/

section
variable (s : State) (core key : Nat) (e : SndEnt)

theorem appendRow_full (h : 128 ≤ ((tget (s.core core).lists key).getD []).length) :
    s.appendRow core key e = (s, 2 ^ 32 - 1) := by
  simp only [appendRow, if_pos h]

theorem appendRow_room (h : ((tget (s.core core).lists key).getD []).length < 128) :
    s.appendRow core key e = (s.modCore core fun k => { k with
      lists := tput k.lists key ((tget (s.core core).lists key).getD [] ++ [e]) }, ((tget (s.core core).lists key).getD []).length) := by
  simp only [appendRow, if_neg (Nat.not_le.mpr h)]

end

/-- R29: a lone participant writes its own destination. -/
theorem statusReg_lone (d : Reg) (p : Nat) : statusReg d [p] p = d := by
  simp [statusReg, dstFor]

/-! ### A flush (R263) -/

/-- The state in which a thread's workgroup has committed and its flush is counted on CP. -/
def sndfCounted (s : State) (t : Nat) : State := (s.commitWg t).newId.2.modThread t fun y => y.count .cp

/-- The flush of the list's entries that a thread's SNDF makes, in the state in which it is counted. -/
def flushOf (u : State) (g : Group) (t id w : Nat) (va : W64) (ents : List SndEnt) : Flush :=
  { id, tid := t, wg := w, ctx := u.ctxOf t, recVa := va, pc := g.pc, idx := g.idx, ents
    res := ents.map fun _ => .waiting, firsts := [], alts := [], nth := (u.thread t).ncp }

/-- A flush joins its core's, and the list it came from is empty. -/
def addFlush (u : State) (core key : Nat) (f : Flush) : State :=
  u.modCore core fun k => { k with lists := tput k.lists key [], flushes := k.flushes ++ [f] }

theorem sndfOne_eq (x : SndfArgs) (g : Group) (s : State) (t : Nat) (va : W64) :
    let w := (s.thread t).wg
    let l := (tget (s.core (tidCore t)).lists (listKey w x.list.val)).getD []
    let f := (s.sndfCounted t).flushOf g t (s.commitWg t).fresh w va l
    sndfOne x g s t va =
      pumpFirst (tidCore t) f.id (upTo l.length) ((s.sndfCounted t).addFlush (tidCore t) (listKey w x.list.val) f) := rfl

section
variable (s : State) (t : Nat)

theorem sndfCounted_mem : (s.sndfCounted t).mem = s.mem := by
  unfold sndfCounted commitWg
  split <;> rfl

theorem sndfCounted_cores : (s.sndfCounted t).cores = s.cores := by
  unfold sndfCounted commitWg
  split <;> rfl

theorem sndfCounted_cp : ((s.sndfCounted t).thread t).cp = (s.thread t).cp + 1 := by
  unfold sndfCounted
  rw [thread_modThread]
  unfold commitWg
  split <;> rfl

/-- R319: a kernel thread's workgroup commits. -/
theorem sndfCounted_committed (h : isCp t = false) : ((s.sndfCounted t).wg (s.thread t).wg).committed = true := by
  have hwg : (s.sndfCounted t).wg (s.thread t).wg = (s.commitWg t).wg (s.thread t).wg := rfl
  rw [hwg, commitWg, h, if_neg Bool.false_ne_true, modWg, wg_setWg, if_pos rfl]

end

/-! ### A wait behind a flit (R240) -/

section
variable (s : State) (tenant port id : Nat)

/-- A flit that leaves may be the read of a wait, which goes on being the same wait. -/
theorem kind_waitRead {u : State} (h : u.threads = s.waitRead id) (t : Nat) :
    (u.thread t).wait.map (·.kind) = (s.thread t).wait.map (·.kind) := by
  unfold waitRead at h
  split at h
  · rename_i x hx
    rw [thread, h, tget_tput]
    split
    · rename_i ht
      split at hx
      · rw [thread, ht, hx]
        cases hw : x.wait <;> simp [hw]
      · cases hx
    · rfl
  · rw [thread_of_threads h]

theorem kind_flitLeft (t : Nat) :
    ((s.flitLeft tenant id).thread t).wait.map (·.kind) = (s.thread t).wait.map (·.kind) := by
  cases h : s.ords.find? fun o => o.id = id with
  | some o =>
    have e := congrArg State.threads (packetOnly_flitLeft s tenant id h).rest
    rw [thread_of_threads (u := s.flitLeft tenant id) e]
  | none =>
    obtain ⟨-, -, hthreads, -, -⟩ := flitLeft_plain s tenant id h
    exact kind_waitRead s id hthreads t

theorem kind_sendFlit (t : Nat) :
    ((s.sendFlit tenant port id).thread t).wait.map (·.kind) = (s.thread t).wait.map (·.kind) := by
  unfold sendFlit
  dsimp only
  split
  · exact kind_flitLeft (s.modTenant tenant _) tenant id t
  · rfl

end

/-- An access that leaves changes neither the state nor the wait of a thread. -/
theorem pushAccess_waits {u : State} {a : Access} (hr : Reaches u a.ctx a.pa) (t : Nat) :
    ((u.pushAccess a).thread t).st = (u.thread t).st ∧
      ((u.pushAccess a).thread t).wait.map (·.kind) = (u.thread t).wait.map (·.kind) := by
  obtain e | ⟨tenant, port, e⟩ := pushAccess_reaches hr
  · rw [e]
    exact ⟨rfl, rfl⟩
  · rw [e]
    have hst := congrArg Thread.st ((flitOnly_sendFlit (u.withAcc a) tenant port a.id).thread t)
    exact ⟨hst, kind_sendFlit (u.withAcc a) tenant port a.id t⟩

end Sys2Proof.Machine.State

namespace Sys2Proof

open Sys2Proof.Machine State

section
variable (s : State) (g : Group)

theorem snda_completes (x : SndaArgs) : Completes s g (.snda x) (((s.participants g (.snda x)).foldl (fun v p =>
      let r := v.appendRow (tidCore p) (listKey (v.thread p).wg x.list.val) (sndaEntry x s p)
      r.1.wrD p (statusReg x.d (s.participants g (.snda x)) p) 1 r.2) s).advance) :=
  completes_of rfl (congrArg State.advance List.foldl_map)

/-- R262: the append of a lone participant, which writes the index to its own destination. -/
theorem snda_lone (x : SndaArgs) (p : Nat) (hps : s.participants g (.snda x) = [p]) :
    let r := s.appendRow (tidCore p) (listKey (s.thread p).wg x.list.val) (sndaEntry x s p)
    Completes s g (.snda x) (r.1.wrD p x.d 1 r.2).advance := by
  have h := snda_completes s g x
  rw [hps] at h
  simpa only [List.foldl_cons, List.foldl_nil, statusReg_lone] using h

/-- R263: the flush takes the list's entries, the list is empty, and its packets begin to leave. -/
theorem sndfAct_flushes (x : SndfArgs) (r : State) (live : List Nat) (t : Nat) (va : W64) (xl : Xlat)
    (hcp : isCp t = false) :
    let w := (s.thread t).wg
    let core := tidCore t
    let key := listKey w x.list.val
    let l := (tget (s.core core).lists key).getD []
    ∃ (v : State) (f : Flush), sndfAct x r g s live t (.global va xl) = pumpFirst core f.id (upTo l.length) v ∧
      (v.core core).flushes = (s.core core).flushes ++ [f] ∧ f.ents = l ∧ f.res = l.map (fun _ => SndRes.waiting) ∧
      f.recVa = va ∧ f.tid = t ∧ tget (v.core core).lists key = some [] ∧ (v.thread t).cp = (s.thread t).cp + 1 ∧
      (v.wg w).committed = true ∧ v.mem = s.mem := by
  intro w core key l
  have hcore := core_of_cores (sndfCounted_cores s t) core
  refine ⟨_, _, sndfOne_eq x g s t va, ?flushes, rfl, rfl, rfl, rfl, ?list, sndfCounted_cp s t, sndfCounted_committed s t hcp,
    sndfCounted_mem s t⟩
  case flushes => rw [addFlush, core_modCore, hcore]
  case list => rw [addFlush, core_modCore, tget_tput_same]

/-- The commitment of an advancing PENQ's workgroup (R319). -/
def penqCommitted (s : State) (t : Nat) (adv : Option Nat) : State := if adv.isSome then s.commitWg t else s

theorem penqCommitted_kept (t : Nat) (adv : Option Nat) : IssueOnly s (penqCommitted s t adv) ∧
    (penqCommitted s t adv).fresh = s.fresh ∧ ∀ w, ((penqCommitted s t adv).wg w).ctx = (s.wg w).ctx := by
  unfold penqCommitted
  split
  · refine ⟨?_, ?_, fun w => ctx_commitWg s t w⟩ <;> (unfold commitWg; split <;> rfl)
  · exact ⟨rfl, rfl, fun _ => rfl⟩

/-- R266: PENQ's access is outstanding, and its thread waits for the reply. -/
theorem penqAct_leaves (r : State) (d : Reg) (adv : State → Nat → Option Nat) (live : List Nat) (t : Nat) (va : W64) (xl : Xlat)
    (hr : Reaches s (s.wg g.wg).ctx xl.pa) :
    let w := penqAct d adv r g s live t (.global va xl)
    oneMore s w (fun a => a.tids = [t] ∧ a.va = va ∧ a.pa = xl.pa ∧ a.op = .penq (adv r t) ∧ a.dst = dstFor d live t) ∧
      w.mem = s.mem ∧ (w.thread t).st = .blocked ∧ (w.thread t).wait.map (·.kind) = some (.reply s.fresh) := by
  obtain ⟨hcommit, hfresh, hctx⟩ := penqCommitted_kept s t (adv r t)
  obtain ⟨a, v, hw, ha, hid, hactx, hv⟩ : ∃ a v, penqAct d adv r g s live t (.global va xl) =
      (v.startWait t (.reply a.id) .zero 15).pushAccess a ∧ (a.tids = [t] ∧ a.va = va ∧ a.pa = xl.pa ∧
        a.op = .penq (adv r t) ∧ a.dst = dstFor d live t) ∧ a.id = s.fresh ∧ a.ctx = (s.wg g.wg).ctx ∧ IssueOnly s v := by
    obtain ⟨hrest, -, hwgs⟩ := issueOnly_newAccess (penqCommitted s t (adv r t)) g [t] va xl (.penq (adv r t)) (dstFor d live t)
      .dflt (some .pod) (if (adv r t).isSome then some .pod else none) false
    exact ⟨_, _, rfl, ⟨rfl, rfl, rfl, rfl, rfl⟩, hfresh, (congrArg Wg.ctx (wg_of_wgs hwgs g.wg)).trans (hctx g.wg),
      hcommit.trans hrest⟩
  have hwait : IssueOnly s (v.startWait t (.reply a.id) .zero 15) := hv.trans rfl
  obtain ⟨htids, hva, hpa, hop, hdst⟩ := ha
  have hreach : Reaches (v.startWait t (.reply a.id) .zero 15) a.ctx a.pa := by
    rw [hactx, hpa]
    exact hwait.reaches hr
  obtain ⟨hone, hmem, -⟩ := pushAccess_oneMore (P := fun a => a.tids = [t] ∧ a.va = va ∧ a.pa = xl.pa ∧
    a.op = .penq (adv r t) ∧ a.dst = dstFor d live t) hid hwait.accs (fun _ => ⟨htids, hva, hpa, hop, hdst⟩) hreach
  obtain ⟨hst, hkind⟩ := pushAccess_waits hreach t
  obtain ⟨hblocked, -, hreply⟩ := startWait_blocks v t (.reply a.id) .zero 15
  rw [hw, ← hid]
  exact ⟨hid ▸ hone, hmem.trans hwait.mem, hst.trans hblocked, hkind.trans hreply⟩

end

/-- Settles O26: appends in turn, then a flush and an access of one thread. -/
theorem sendLists : Obligations.SendLists := by
  intro s g
  refine ⟨snda_completes s g, fun x p hps => snda_lone s g x p hps,
    fun x r live t va xl _ hcp _ => sndfAct_flushes s g x r live t va xl hcp, ?append,
    fun x => mem_completes rfl, fun x => mem_completes rfl, fun x => mem_completes rfl, penqAct_leaves s g⟩
  intro core key e l r
  refine ⟨fun h => appendRow_full s core key e h, fun h => ?_⟩
  have hr : r = _ := appendRow_room s core key e h
  rw [hr]
  exact ⟨rfl, by rw [core_modCore, tget_tput_same], rfl⟩

end Sys2Proof
end

section
/-!
PROOFS. Copy instructions (09 R242, R250, R252, R260): a command enters its core's unit with its operands as they stood, one for
each participant, and counts on CP.
-/

namespace Sys2Proof.Machine.State

open Sys2Proof

/-! ### The barrier register that a command names (R396) -/

/-- Only barrier registers, the notes of their spills and the next identity differ. -/
def BarsOnly (s u : State) : Prop :=
  { u with bars := s.bars, meters := s.meters, spills := s.spills, fresh := s.fresh } = s

namespace BarsOnly

variable {s u : State} (h : BarsOnly s u)
include h

theorem threads : u.threads = s.threads := by
  have e := congrArg State.threads h
  exact e

theorem flocks : u.flocks = s.flocks := by
  have e := congrArg State.flocks h
  exact e

theorem wgs : u.wgs = s.wgs := by
  have e := congrArg State.wgs h
  exact e

theorem mem : u.mem = s.mem := by
  have e := congrArg State.mem h
  exact e

theorem cores : u.cores = s.cores := by
  have e := congrArg State.cores h
  exact e

theorem cur : u.cur = s.cur := by
  have e := congrArg State.cur h
  exact e

end BarsOnly

theorem BarsOnly.setBar {s u : State} (h : BarsOnly s u) (k : Nat) (b : BarSt) : BarsOnly s (u.setBar k b) := h

theorem BarsOnly.noteSpill {s u : State} (h : BarsOnly s u) (c : Nat) : BarsOnly s (u.noteSpill c) := h

theorem needBar_only {s u : State} {k : Nat} (h : s.needBar k = some u) : BarsOnly s u := by
  have hnew : BarsOnly s s.newId.2 := rfl
  unfold needBar at h
  dsimp only at h
  split at h
  · cases h
    exact hnew.setBar _ _
  · split at h
    · cases h
      exact hnew.setBar _ _
    · split at h
      · cases h
      · cases h
        exact ((hnew.setBar _ _).setBar _ _).noteSpill _

/-- An entry that is resident stays so. -/
theorem needBar_resident {s : State} {k : Nat} (h : (s.bar k).resident = true) :
    ∃ u, s.needBar k = some u ∧ ∀ j, (s.bar j).resident = true → (u.bar j).resident = true := by
  refine ⟨s.newId.2.setBar k { s.bar k with resident := true, touched := s.fresh }, if_pos h, fun j hj => ?_⟩
  simp only [bar, setBar, tget_tput] at hj ⊢
  split
  · rfl
  · exact hj

/-- The state in which a command's barrier register is resident, if it names one. -/
def namedBar (s : State) (bar : Option Bar) (t : Nat) : Option State :=
  bar.elim (some s) fun b => s.needBar (s.barKey t b)

theorem namedBar_only {s u : State} {bar : Option Bar} {t : Nat} (h : s.namedBar bar t = some u) : BarsOnly s u := by
  cases bar with
  | none =>
    cases h
    rfl
  | some b => exact needBar_only h

theorem namedBar_resident {s : State} {bar : Option Bar} {t : Nat}
    (h : ∀ b, bar = some b → (s.bar (s.barKey t b)).resident = true) :
    ∃ u, s.namedBar bar t = some u ∧ ∀ j, (s.bar j).resident = true → (u.bar j).resident = true := by
  cases bar with
  | none => exact ⟨s, rfl, fun _ hj => hj⟩
  | some b => exact needBar_resident (h b rfl)

/-! ### A command enters its unit (R242) -/

/-- The state in which a thread's command is counted on CP, and, if it writes what others see, its workgroup committed. -/
def cmdCounted (u : State) (k : CopyKind) (t : Nat) : State :=
  if kindCommits k then (u.newId.2.modThread t fun x => x.count .cp).commitWg t else u.newId.2.modThread t fun x => x.count .cp

/-- A thread's command, with its operands read. -/
def ownCmd (u : State) (bar : Option Bar) (k : CopyKind) (t : Nat) : Cmd :=
  let v := u.cmdCounted k t
  { id := u.fresh, stage := .issued, tid := some t, entry := 0, wg := (v.thread t).wg, ctx := v.ctxOf t, kind := k
    bad := none, bar := bar.map (v.barKey t), pc := (u.newId.2.placeOf t).1, idx := (u.newId.2.placeOf t).2
    nth := (v.thread t).ncp, fills := [], drains := [], empties := [], pages := [], takes := [], owns := [], since := 0, done := 0 }

/-- A thread's command becomes its unit's youngest. -/
def addCmd (u : State) (bar : Option Bar) (k : CopyKind) (t : Nat) : State :=
  (u.cmdCounted k t).modCore (tidCore t) fun c => { c with cmds := c.cmds ++ [u.ownCmd bar k t] }

theorem issueCmd_named {s u : State} {bar : Option Bar} {t : Nat} (kind : State → Nat → CopyKind)
    (hroom : s.unitRoom (tidCore t) = true) (hu : s.namedBar bar t = some u) :
    issueCmd bar kind s t = (u.addCmd bar (kind u.newId.2 t) t, true) := by
  unfold issueCmd
  cases bar with
  | none =>
    cases hu
    simp only [hroom, Bool.not_true, Bool.false_eq_true, if_false]
    rfl
  | some b =>
    have hb : s.needBar (s.barKey t b) = some u := hu
    simp only [hroom, hb, Bool.not_true, Bool.false_eq_true, if_false]
    rfl

/-! ### Counting a command changes its thread's CP and its workgroup's commitment (R319) -/

theorem wg_commitWg_keeps {α : Type} {P : Wg → α} (hP : ∀ w, P { w with committed := true } = P w) (s : State) (t j : Nat) :
    P ((s.commitWg t).wg j) = P (s.wg j) := by
  unfold commitWg
  split
  · rfl
  · rw [modWg, wg_setWg]
    split
    · rename_i e
      rw [hP, e]
    · rfl

section
variable (u : State) (k : CopyKind) (t : Nat)

theorem cmdCounted_wgs : ∃ ws, u.cmdCounted k t = { u.newId.2.modThread t fun x => x.count .cp with wgs := ws } := by
  unfold cmdCounted
  split
  · exact commitWg_wgs _ _
  · exact ⟨_, rfl⟩

theorem cmdCounted_mem : (u.cmdCounted k t).mem = u.mem := by
  obtain ⟨ws, e⟩ := u.cmdCounted_wgs k t
  rw [e]
  rfl

theorem cmdCounted_cores : (u.cmdCounted k t).cores = u.cores := by
  obtain ⟨ws, e⟩ := u.cmdCounted_wgs k t
  rw [e]
  rfl

theorem cmdCounted_bars : (u.cmdCounted k t).bars = u.bars := by
  obtain ⟨ws, e⟩ := u.cmdCounted_wgs k t
  rw [e]
  rfl

theorem cmdCounted_cur : (u.cmdCounted k t).cur = u.cur := by
  obtain ⟨ws, e⟩ := u.cmdCounted_wgs k t
  rw [e]
  rfl

theorem cmdCounted_threads : (u.cmdCounted k t).threads = (u.modThread t fun x => x.count .cp).threads := by
  obtain ⟨ws, e⟩ := u.cmdCounted_wgs k t
  rw [e]
  rfl

theorem cmdCounted_flocks : (u.cmdCounted k t).flocks = u.flocks := by
  obtain ⟨ws, e⟩ := u.cmdCounted_wgs k t
  rw [e]
  rfl

theorem cmdCounted_cp (p : Nat) : ((u.cmdCounted k t).thread p).cp = (u.thread p).cp + if p = t then 1 else 0 := by
  rw [thread_of_threads (u.cmdCounted_threads k t), modThread, thread_setThread]
  split
  · rename_i e
    rw [e]
    rfl
  · rfl

theorem cmdCounted_rd (q : Nat) (r : Reg) : (u.cmdCounted k t).rd q r = u.rd q r :=
  (rd_of_files (u.cmdCounted_threads k t) (u.cmdCounted_flocks k t) q r).trans
    (rd_modThread (f := fun x => x.count .cp) (fun _ => rfl) u t q r)

theorem cmdCounted_rdP (q : Nat) (c : Pred) : (u.cmdCounted k t).rdP q c = u.rdP q c :=
  (rdP_of_threads (u.cmdCounted_threads k t) q c).trans (rdP_modThread (f := fun x => x.count .cp) (fun _ => rfl) u t q c)

theorem cmdCounted_wg {α : Type} {P : Wg → α} (hP : ∀ w, P { w with committed := true } = P w) (j : Nat) :
    P ((u.cmdCounted k t).wg j) = P (u.wg j) := by
  unfold cmdCounted
  split
  · exact wg_commitWg_keeps hP _ t j
  · rfl

theorem cmdCounted_key (p : Nat) (b : Bar) : (u.cmdCounted k t).barKey p b = u.barKey p b := by
  have hwg : ((u.cmdCounted k t).thread p).wg = (u.thread p).wg := by
    rw [thread_of_threads (u.cmdCounted_threads k t), modThread, thread_setThread]
    split
    · rename_i e
      rw [e]
      rfl
    · rfl
  have hid := u.cmdCounted_wg k t (P := Wg.id) (fun _ => rfl) (u.thread p).wg
  have hteam := u.cmdCounted_wg k t (P := Wg.team) (fun _ => rfl) (u.thread p).wg
  simp only [barKey, wgOf, hwg, hid, hteam]

end

/-- A command's operands are read from registers alone. -/
def ReadsRegs (kind : State → Nat → CopyKind) : Prop := ∀ s u : State, (∀ q r, u.rd q r = s.rd q r) → kind u = kind s

theorem rd64_congr {s u : State} {t : Nat} (h : ∀ r, u.rd t r = s.rd t r) (d : Reg) : u.rd64 t d = s.rd64 t d := by
  rw [rd64, rdN_congr h, ← rd64]

theorem readsRegs_cpy (x : CpyArgs) : ReadsRegs (cpyKind x) := fun s u h => funext fun t => by
  simp only [cpyKind, rdN_congr (h t), rd64_congr (h t)]

theorem readsRegs_cpyt (x : CpytArgs) (st : Bool) : ReadsRegs (cpytKind x st) := fun s u h => funext fun t => by
  simp only [cpytKind, rdN_congr (h t), rd64_congr (h t), h t]

theorem readsRegs_cpyst (x : CpystArgs) : ReadsRegs (cpystKind x) := fun s u h => funext fun t => by
  simp only [cpystKind, rdN_congr (h t), rd64_congr (h t)]

/-- The threads `ps` have issued the commands `ms` to core `c`'s unit, each counted on CP; memory, registers and predicates
stand, barrier registers keep their keys, and those that were resident are. -/
structure CopiesOut (s u : State) (c : Nat) (bar : Option Bar) (kind : State → Nat → CopyKind) (ps : List Nat) (ms : List Cmd) :
    Prop where
  mem : u.mem = s.mem
  cmds : (u.core c).cmds = (s.core c).cmds ++ ms
  tids : ms.map (·.tid) = ps.map some
  kinds : ms.map (·.kind) = ps.map (kind s)
  bars : ms.map (·.bar) = ps.map fun p => bar.map (s.barKey p)
  issued : ∀ m ∈ ms, m.stage = .issued
  cp : ∀ p, (u.thread p).cp = (s.thread p).cp + if p ∈ ps then 1 else 0
  rd : ∀ q r, u.rd q r = s.rd q r
  rdP : ∀ q r, u.rdP q r = s.rdP q r
  key : ∀ p b, u.barKey p b = s.barKey p b

namespace CopiesOut

variable {s u v : State} {c t : Nat} {bar : Option Bar} {kind : State → Nat → CopyKind} {ps : List Nat} {ms : List Cmd} {m : Cmd}

theorem refl (s : State) (c : Nat) (bar : Option Bar) (kind : State → Nat → CopyKind) : CopiesOut s s c bar kind [] [] :=
  ⟨rfl, by rw [List.append_nil], rfl, rfl, rfl, by simp, fun _ => rfl, fun _ _ => rfl, fun _ _ => rfl, fun _ _ => rfl⟩

theorem snoc (hk : ReadsRegs kind) (a : CopiesOut s u c bar kind ps ms) (b : CopiesOut u v c bar kind [t] [m]) (ht : t ∉ ps) :
    CopiesOut s v c bar kind (ps ++ [t]) (ms ++ [m]) where
  mem := b.mem.trans a.mem
  cmds := by rw [b.cmds, a.cmds, List.append_assoc]
  tids := by rw [List.map_append, List.map_append, a.tids, b.tids]
  kinds := by rw [List.map_append, List.map_append, a.kinds, b.kinds, hk s u a.rd]
  bars := by
    have hkey : u.barKey t = s.barKey t := funext (a.key t)
    rw [List.map_append, List.map_append, a.bars, b.bars, List.map_singleton, List.map_singleton, hkey]
  issued x hx := (List.mem_append.mp hx).elim (a.issued x) (b.issued x)
  cp p := by
    rw [b.cp, a.cp]
    by_cases hp : p = t
    · simp [hp, ht]
    · simp [hp]
  rd q r := (b.rd q r).trans (a.rd q r)
  rdP q r := (b.rdP q r).trans (a.rdP q r)
  key p k := (b.key p k).trans (a.key p k)

theorem noted (h : CopiesOut s u c bar kind ps ms) (t : Nat) : CopiesOut s (u.noted t) c bar kind ps ms :=
  ⟨h.mem, h.cmds, h.tids, h.kinds, h.bars, h.issued, h.cp, h.rd, h.rdP, h.key⟩

theorem length (h : CopiesOut s u c bar kind ps ms) : (u.core c).cmds.length = (s.core c).cmds.length + ps.length := by
  have hlen := congrArg List.length h.tids
  rw [List.length_map, List.length_map] at hlen
  rw [h.cmds, List.length_append, hlen]

theorem advance (h : CopiesOut s u c bar kind ps ms) : CopiesOut s u.advance c bar kind ps ms := by
  have hsame := same_advance u
  have hkept := hsame.kept
  have hmem : u.advance.mem = u.mem := by
    have e := congrArg State.mem hkept.rest
    exact e
  have hwgs : u.advance.wgs = u.wgs := by
    have e := congrArg State.wgs hkept.rest
    exact e
  have hcmds : (u.advance.core c).cmds = (u.core c).cmds := by
    have e := congrArg Core.cmds (hkept.core c)
    exact e
  have hwg (p : Nat) : (u.advance.thread p).wg = (u.thread p).wg := by
    have e := congrArg Thread.wg (hkept.thread p)
    exact e
  refine ⟨hmem.trans h.mem, hcmds.trans h.cmds, h.tids, h.kinds, h.bars, h.issued, fun p => (ctr_kept hkept p .cp).trans (h.cp p),
    fun q r => (hsame.rd q r).trans (h.rd q r), fun q r => (hsame.rdP q r).trans (h.rdP q r), fun p b => Eq.trans ?_ (h.key p b)⟩
  simp only [barKey, wgOf, hwg, wg_of_wgs hwgs]

end CopiesOut

/-- A command that is added once the barrier register it names is resident. -/
theorem copiesOut_addCmd {s u : State} {kind : State → Nat → CopyKind} (bar : Option Bar) (t : Nat) (hk : ReadsRegs kind)
    (hu : BarsOnly s u) : CopiesOut s (u.addCmd bar (kind u.newId.2 t) t) (tidCore t) bar kind [t]
      [u.ownCmd bar (kind u.newId.2 t) t] := by
  have hrd := rd_of_files hu.threads hu.flocks
  have hkey (p : Nat) (b : Bar) : u.barKey p b = s.barKey p b := by
    simp only [barKey, wgOf, thread_of_threads hu.threads, wg_of_wgs hu.wgs]
  have hkind : kind u.newId.2 t = kind s t := congrFun (hk s u.newId.2 hrd) t
  rw [hkind]
  have hkeys : (u.cmdCounted (kind s t) t).barKey t = s.barKey t := funext fun b => (u.cmdCounted_key _ t t b).trans (hkey t b)
  refine ⟨(u.cmdCounted_mem _ t).trans hu.mem, ?cmds, rfl, rfl, ?bars, by simp [ownCmd], fun p => ?cp,
    fun q r => (u.cmdCounted_rd _ t q r).trans (hrd q r), fun q c => (u.cmdCounted_rdP _ t q c).trans (rdP_of_threads hu.threads q c),
    fun p b => (u.cmdCounted_key _ t p b).trans (hkey p b)⟩
  case cmds => rw [addCmd, core_modCore, core_of_cores ((u.cmdCounted_cores _ t).trans hu.cores)]
  case bars => rw [List.map_singleton, List.map_singleton, ownCmd, hkeys]
  case cp =>
    have hcp : ((u.addCmd bar (kind s t) t).thread p).cp = _ := u.cmdCounted_cp (kind s t) t p
    rw [thread_of_threads hu.threads] at hcp
    simpa using hcp

end Sys2Proof.Machine.State

namespace Sys2Proof

open Sys2Proof.Machine State

section
variable {s : State} {g : Group} {i : Instr} {bar : Option Bar} {kind : State → Nat → CopyKind}

theorem issuesCopy_of (bar : Option Bar) (hk : ReadsRegs kind) : issuesCopy s bar kind := by
  intro t u hroom hu
  have hnamed : s.namedBar bar t = some u := by
    cases bar <;> exact hu
  have h := copiesOut_addCmd bar t hk (namedBar_only hnamed)
  have hkind := List.singleton_inj.mp h.kinds
  have hbar := List.singleton_inj.mp h.bars
  have hcp := h.cp t
  rw [if_pos (List.mem_singleton_self t)] at hcp
  exact ⟨_, _, issueCmd_named kind hroom hnamed, h.cmds, rfl, rfl, hkind, hbar, hcp, h.mem, h.rd, h.rdP⟩

/-- With room for all the commands, and the barrier registers they name resident, every participant issues its own. -/
theorem allDone_copies (hk : ReadsRegs kind) (h : Clear s g i) (hpart : g.part = []) (hcore : ∀ m ∈ g.members, tidCore m = g.core)
    (hroom : (s.core g.core).cmds.length + (s.participants g i).length ≤ 32)
    (hbar : ∀ b, bar = some b → ∀ p ∈ s.participants g i, (s.bar (s.barKey p b)).resident = true) :
    ∃ u, AllDone (issueCmd bar kind) (s.participants g i) s u ∧
      ((∃ ms, CopiesOut s u g.core bar kind (s.participants g i) ms) ∧
        ∀ j, (s.bar j).resident = true → (u.bar j).resident = true) := by
  refine allDone_clear (I := fun done u => (∃ ms, CopiesOut s u g.core bar kind done ms) ∧
    ∀ j, (s.bar j).resident = true → (u.bar j).resident = true) h hpart ⟨⟨[], .refl s _ bar kind⟩, fun _ hj => hj⟩
    fun done t rest u hsplit hu => ?_
  obtain ⟨⟨ms, hout⟩, hres⟩ := hu
  have ht : t ∈ s.participants g i := by simp [hsplit]
  have hnew : t ∉ done := by
    have hnodup := participants_nodup i h.distinct (s := s)
    rw [hsplit] at hnodup
    exact fun hd => List.disjoint_of_nodup_append hnodup hd (List.mem_cons_self ..)
  have hc : tidCore t = g.core := hcore t (participants_sub ht)
  have hu : u.unitRoom (tidCore t) = true := by
    have hlen := congrArg List.length hsplit
    rw [List.length_append, List.length_cons] at hlen
    rw [unitRoom, decide_eq_true_eq, hc, hout.length]
    omega
  obtain ⟨v, hv, hvres⟩ := namedBar_resident (s := u) (bar := bar) (t := t) fun b hb => by
    rw [hout.key]
    exact hres _ (hbar b hb t ht)
  have hone := copiesOut_addCmd bar t hk (namedBar_only hv)
  rw [hc] at hone
  refine ⟨_, issueCmd_named kind hu hv, ((v.cmdCounted_cur _ t).trans (namedBar_only hv).cur),
    ⟨_, (hout.snoc hk hone hnew).noted t⟩, fun j hj => ?_⟩
  have hbars := bar_of_bars (v.cmdCounted_bars (kind v.newId.2 t) t) j
  exact (congrArg BarSt.resident hbars).trans (hvres j (hres j hj))

theorem copiesIssue_of (hx : exec i s = .next (s.issue i fun _ ps s => eachOwn (issueCmd bar kind) ps s)) (hk : ReadsRegs kind) :
    CopiesIssue s g i bar kind := by
  intro hclear hpart hcore hroom hbar
  obtain ⟨u, hdone, ⟨ms, hout⟩, -⟩ := allDone_copies hk hclear hpart hcore hroom hbar
  have hout := hout.advance
  refine ⟨_, ms, each_completes (one := fun _ => issueCmd bar kind) hx u hclear hdone, hout.mem, hout.cmds, hout.tids, hout.kinds,
    hout.bars, hout.issued, fun p hp => ?_, hout.rd, hout.rdP⟩
  rw [hout.cp, if_pos hp]

end

/-- Settles O25: a participant with room and a resident barrier register issues its command (`issueCmd_named`), which leaves
what the others read as it was, so the commands follow one another (`CopiesOut`); STAGE is its body. -/
theorem copyInstructions : Obligations.CopyInstructions := by
  unfold Obligations.CopyInstructions
  intro s g
  refine ⟨fun x => ⟨?_, ?_, ?_⟩, fun x => ⟨?_, ?_, ?_, ?_, ?_, ?_⟩, fun x => ⟨?_, ?_, ?_⟩, fun x => ⟨?_, ?_⟩⟩
  · exact each_completes rfl
  · exact copiesIssue_of rfl (readsRegs_cpy x)
  · exact issuesCopy_of _ (readsRegs_cpy x)
  · exact each_completes rfl
  · exact each_completes rfl
  · exact copiesIssue_of rfl (readsRegs_cpyt x false)
  · exact copiesIssue_of rfl (readsRegs_cpyt x true)
  · exact issuesCopy_of _ (readsRegs_cpyt x false)
  · exact issuesCopy_of _ (readsRegs_cpyt x true)
  · exact each_completes rfl
  · exact copiesIssue_of rfl (readsRegs_cpyst x)
  · exact issuesCopy_of _ (readsRegs_cpyst x)
  · exact completes_of rfl rfl
  · exact completes_of rfl rfl

end Sys2Proof
end

section
/-!
PROOFS. Events of the copy unit (09 R242 to R249, R259, R260): a fill is written, a command is accepted, and it completes.
-/

namespace Sys2Proof.Machine.State

open Sys2Proof

/-! ### A fill is written (R259) -/

theorem mem_spanTiles {t n k : Nat} : k ∈ spanTiles (t, n) ↔ t ≤ k ∧ k < t + n := by
  simp only [spanTiles, upTo, List.mem_map, List.mem_range]
  constructor
  · rintro ⟨i, hi, rfl⟩
    omega
  · rintro ⟨hlo, hhi⟩
    exact ⟨k - t, by omega, by omega⟩

theorem nodup_spanTiles (x : TileSpan) : (spanTiles x).Nodup :=
  List.nodup_range.map fun _ _ h => Nat.add_left_cancel h

/-- Distinct tiles changed in turn are each changed once. -/
theorem tileOf_modTiles {ts : List Nat} (hts : ts.Nodup) (f : TileRec → TileRec) (s : State) (w n : Nat) :
    (ts.foldl (fun s t => s.modTile w t f) s).tileOf w n = if n ∈ ts then f (s.tileOf w n) else s.tileOf w n := by
  induction ts generalizing s with
  | nil => simp
  | cons t ts ih =>
    obtain ⟨ht, hts⟩ := List.nodup_cons.mp hts
    rw [List.foldl_cons, ih hts, tileOf_modTile]
    by_cases hn : n = t
    · subst hn
      simp [ht]
    · simp [hn]

theorem wg_tsetBytes (s : State) (o : TsetOp) (ts : List Nat) : (s.tsetBytes o ts).wg o.wg = { s.wg o.wg with
    scr := mputs (s.wg o.wg).scr (o.t * 4096) ((upTo (o.cnt * 1024)).flatMap fun _ => natLe 4 o.pat.toNat) } := by
  unfold tsetBytes
  exact (wg_setWg s o.wg o.wg _).trans (if_pos rfl)

theorem tileOf_tsetBytes (s : State) (o : TsetOp) (ts : List Nat) (n : Nat) :
    (s.tsetBytes o ts).tileOf o.wg n = s.tileOf o.wg n := by
  rw [tileOf, wg_tsetBytes, tileOf]

/-- A tile that its fill has written. -/
def filled (r : TileRec) : TileRec := { r with fill := r.fill - 1, full := true }

/-- The state with a fill's bytes written, before its tiles are ready. -/
def tsetWrote (s : State) (core : Nat) (o : TsetOp) : State :=
  (s.modCore core fun c => { c with tsets := c.tsets.filter fun y => y.id ≠ o.id }).tsetBytes o (spanTiles (o.t, o.cnt))

theorem tsetDone_found {s : State} {core n : Nat} {o : TsetOp} (h : (s.core core).tsets[n]? = some o) :
    s.tsetDone core n = (spanTiles (o.t, o.cnt)).foldl (fun s t => s.modTile o.wg t filled) (s.tsetWrote core o) := by
  simp only [tsetDone, h]
  rfl

theorem tsetWritten_gives {s : State} {core n : Nat} {o : TsetOp} (h : (s.core core).tsets[n]? = some o) :
    Gives (.tsetWritten core n) s fun t => t.mem = s.mem ∧
      (t.core core).tsets = ((s.core core).tsets.filter fun y => y.id ≠ o.id) ∧
      (t.wg o.wg).scr = mputs (s.wg o.wg).scr (o.t * 4096) ((upTo (o.cnt * 1024)).flatMap fun _ => natLe 4 o.pat.toNat) ∧
      ∀ k, o.t ≤ k → k < o.t + o.cnt → (t.tileOf o.wg k).full = true ∧ (t.tileOf o.wg k).fill = (s.tileOf o.wg k).fill - 1 := by
  have hx : exec (.tsetWritten core n) s = .next (s.tsetDone core n) := rfl
  have htiles := tilesOnly_foldl o.wg filled (spanTiles (o.t, o.cnt)) (s.tsetWrote core o)
  rw [tsetDone_found h] at hx
  refine ⟨_, hx, htiles.mem, ?tsets, (htiles.scr o.wg).trans (congrArg Wg.scr (wg_tsetBytes _ o _)), fun k hlo hhi => ?tile⟩
  case tsets =>
    rw [core_of_cores htiles.cores core]
    exact congrArg Core.tsets (core_modCore s core fun c => { c with tsets := c.tsets.filter fun y => y.id ≠ o.id })
  case tile =>
    have htile := tileOf_tsetBytes (s.modCore core fun c => { c with tsets := c.tsets.filter fun y => y.id ≠ o.id }) o
      (spanTiles (o.t, o.cnt)) k
    rw [tileOf_modTiles (nodup_spanTiles _), if_pos (mem_spanTiles.mpr ⟨hlo, hhi⟩), tsetWrote, htile]
    exact ⟨rfl, rfl⟩

end Sys2Proof.Machine.State
end

section
/-!
PROOFS. The end of a flush (09 R263, R264): refused entries go to their alternate pens or are dropped, and the record is written.
-/

namespace Sys2Proof.Machine.State

open Sys2Proof

section
variable {s : State} {core id : Nat} {f : Flush}

theorem flush?_modFlush {g : Flush → Flush} (hg : ∀ y, (g y).id = y.id) (h : s.flush? core id = some f) :
    (s.modFlush core id g).flush? core id = some (g f) := by
  have hid : f.id = id := by simpa using List.find?_some h
  have hkey : ((fun y : Flush => decide (y.id = id)) ∘ fun y => if y.id = id then g y else y) = fun y => decide (y.id = id) := by
    funext y
    by_cases hy : y.id = id <;> simp [hy, hg]
  rw [flush?] at h
  rw [flush?, modFlush, core_modCore, List.find?_map, hkey, h, Option.map_some, if_pos hid]

theorem any_zip_upTo {α : Type} (P : α → Bool) (l : List α) : ((l.zip (upTo l.length)).any fun x => P x.1) = l.any P := by
  have hlen : l.length ≤ (upTo l.length).length := Nat.le_of_eq List.length_range.symm
  calc ((l.zip (upTo l.length)).any fun x => P x.1) = ((l.zip (upTo l.length)).map Prod.fst).any P := List.any_map.symm
    _ = l.any P := by rw [List.map_fst_zip hlen]

theorem mem_putMem (v : State) (pa : Nat) (bs : List Byte) (n : Nat) : (v.putMem pa bs n).mem = mputs v.mem pa bs := rfl

theorem cores_putMem (v : State) (pa : Nat) (bs : List Byte) (n : Nat) : (v.putMem pa bs n).cores = v.cores := rfl

theorem threads_putMem (v : State) (pa : Nat) (bs : List Byte) (n : Nat) : (v.putMem pa bs n).threads = v.threads := rfl

/-! ### A flush of which an entry is undecided stands -/

theorem pumpAlt_waits (h : s.flush? core id = some f) (hw : (f.res.any fun r => r = .waiting) = true) (l : List Nat) :
    pumpAlt core id l s = s := by
  cases l with
  | nil => rfl
  | cons i l => simp only [pumpAlt, h, hw, if_true]

theorem completeFlush_waits (h : s.flush? core id = some f) (hw : (f.res.any fun r => r = .waiting) = true) :
    s.completeFlush core id = s := by
  have hopen : (f.res.any fun r => decide (r = .waiting) || decide (r = .refused)) = true := by
    obtain ⟨r, hr, hrw⟩ := List.any_eq_true.mp hw
    exact List.any_eq_true.mpr ⟨r, hr, by rw [hrw, Bool.true_or]⟩
  rw [← any_zip_upTo] at hopen
  simp only [completeFlush, h, hopen, Bool.true_or, if_true]

/-! ### A refused entry (R263) -/

theorem execSndfAlternate_single {e : SndEnt} (h : s.flush? core id = some f) (he : f.ents = [e]) :
    exec (.sndfAlternate core id) s = .next (pumpAlt core id [0] s) := by
  have hx : exec (.sndfAlternate core id) s =
    .next (pumpAlt core id (upTo (((s.flush? core id).map (·.ents.length)).getD 0)) s) := rfl
  rw [hx, h, Option.map_some, he]
  rfl

theorem pumpAlt_drops {e : SndEnt} (h : s.flush? core id = some f) (he : f.ents = [e]) (hr : f.res = [.refused])
    (ha : f.alts = []) (hpen : e.alt = none) :
    pumpAlt core id [0] s = s.modFlush core id fun f => { f with res := f.res.set 0 .dropped } := by
  simp [pumpAlt, h, he, hr, ha, hpen]

theorem pumpAlt_sends {e : SndEnt} {pen : W64} {u : State} (h : s.flush? core id = some f) (he : f.ents = [e])
    (hr : f.res = [.refused]) (ha : f.alts = []) (hpen : e.alt = some pen)
    (hu : (s.modFlush core id fun f => { f with alts := f.alts ++ [0] }).sendRow core f 0 e pen = some u) :
    pumpAlt core id [0] s = u := by
  simp [pumpAlt, h, he, hr, ha, hpen, hu]

/-! ### A decided flush ends (R264) -/

/-- A flush's end once its record stands: it leaves its core, its dropped and invalid entries are counted, and CP falls. -/
def flushEnded (v : State) (core : Nat) (id : Nat) (f : Flush) : State :=
  let v := v.modCore core fun k => { k with flushes := k.flushes.filter fun g => g.id ≠ id }
  let v := (upTo (f.res.filter fun r => r = .dropped || r = .invalid).length).foldl (fun v _ => v.ctxFault f.ctx 0) v
  if v.hasThread f.tid then v.modThread f.tid fun x => x.uncount .cp else v

theorem ctxFaults_keep {β : Type} {P : State → β} (hP : ∀ (u : State) m, P { u with meters := m } = P u) (c : Nat) (l : List Nat)
    (v : State) : P (l.foldl (fun v _ => v.ctxFault c 0) v) = P v :=
  foldl_keeps P (fun u _ => by
    obtain ⟨m, e⟩ := u.ctxFault_meters c 0
    rw [e, hP]) l v

section
variable (v : State)

theorem flushEnded_keeps {β : Type} {P : State → β} (hm : ∀ (u : State) m, P { u with meters := m } = P u)
    (ht : ∀ (u : State) ts, P { u with threads := ts } = P u) : P (v.flushEnded core id f) =
      P (v.modCore core fun k => { k with flushes := k.flushes.filter fun g => g.id ≠ id }) := by
  unfold flushEnded
  dsimp only
  split
  · exact (ht _ _).trans (ctxFaults_keep hm _ _ _)
  · exact ctxFaults_keep hm _ _ _

theorem flushEnded_mem : (v.flushEnded core id f).mem = v.mem :=
  flushEnded_keeps v (P := State.mem) (fun _ _ => rfl) (fun _ _ => rfl)

theorem flushEnded_flushes : ((v.flushEnded core id f).core core).flushes = (v.core core).flushes.filter fun g => g.id ≠ id := by
  have h := flushEnded_keeps (core := core) (id := id) (f := f) v (P := State.cores) (fun _ _ => rfl) (fun _ _ => rfl)
  rw [core_of_cores h, core_modCore]

theorem flushEnded_cp (h : v.hasThread f.tid = true) :
    ((v.flushEnded core id f).thread f.tid).cp = (v.thread f.tid).cp - 1 := by
  have hthreads := ctxFaults_keep (P := State.threads) (fun _ _ => rfl) f.ctx
    (upTo (f.res.filter fun r => r = .dropped || r = .invalid).length)
    (v.modCore core fun k => { k with flushes := k.flushes.filter fun g => g.id ≠ id })
  have hhas : ((upTo (f.res.filter fun r => r = .dropped || r = .invalid).length).foldl (fun v _ => v.ctxFault f.ctx 0)
      (v.modCore core fun k => { k with flushes := k.flushes.filter fun g => g.id ≠ id })).hasThread f.tid = true := by
    rw [hasThread, hthreads]
    exact h
  rw [flushEnded, if_pos hhas, thread_modThread, thread_of_threads hthreads]
  rfl

end

theorem completeFlush_decided {x : Xlat} {u : State} (h : s.flush? core id = some f)
    (hres : ∀ r ∈ f.res, r ≠ .waiting ∧ r ≠ .refused) (hfirsts : f.ents.length ≤ f.firsts.length)
    (hx : s.translate core f.ctx f.recVa true false = .ok x u) (hhot : u.sliceHot x.pa = false) :
    s.completeFlush core id =
      ((if u.isLocal x.pa then u.acceptDraining f.ctx x.wb (x.pa / 128) else u).putMem x.pa (s.sndRecord f) 0).flushEnded
        core id f := by
  have hopen : (f.res.any fun r => decide (r = .waiting) || decide (r = .refused)) = false := by
    refine List.any_eq_false.mpr fun r hr => ?_
    simp [hres r hr]
  rw [← any_zip_upTo] at hopen
  have hlt : ¬ f.firsts.length < f.ents.length := Nat.not_lt.mpr hfirsts
  simp only [completeFlush, h, hopen, hlt, hx, hhot, decide_false, Bool.or_self, Bool.false_eq_true, if_false]
  rfl

theorem cores_acceptDraining (u : State) (c : Nat) (wb : Bool) (line : Nat) : (u.acceptDraining c wb line).cores = u.cores := by
  have hdram (l : Nat) (b : Bool) : (u.lineInDram l b).cores = u.cores := by
    unfold lineInDram
    split <;> rfl
  unfold acceptDraining
  split
  · rename_i v hv
    exact cores_acceptLine hv
  · dsimp only
    split
    · rename_i l _
      cases hv : (u.lineInDram l (decide (0 < u.unitsHeld c (128 + sliceDie (u.dirtySlice line))))).acceptLine c wb false line with
      | none => exact hdram l _
      | some v => exact (cores_acceptLine hv).trans (hdram l _)
    · rfl

theorem threads_acceptDraining (u : State) (c : Nat) (wb : Bool) (line : Nat) :
    (u.acceptDraining c wb line).threads = u.threads := by
  have e := congrArg State.threads (chargeOnly_acceptDraining u c wb line)
  exact e

/-- The line of a record, of this package, is accepted. -/
theorem recordLine_keeps (u : State) (c : Nat) (x : Xlat) :
    ∃ v, (if u.isLocal x.pa then u.acceptDraining c x.wb (x.pa / 128) else u) = v ∧ v.mem = u.mem ∧ v.threads = u.threads ∧
      v.cores = u.cores := by
  by_cases h : u.isLocal x.pa = true
  · exact ⟨_, if_pos h, (chargeOnly_acceptDraining u _ _ _).mem, threads_acceptDraining u _ _ _, cores_acceptDraining u _ _ _⟩
  · exact ⟨_, if_neg h, rfl, rfl, rfl⟩

theorem flushEnded_gives {x : Xlat} {u : State} (h : s.flush? core id = some f)
    (hres : ∀ r ∈ f.res, r ≠ .waiting ∧ r ≠ .refused) (hfirsts : f.ents.length ≤ f.firsts.length)
    (hx : s.translate core f.ctx f.recVa true false = .ok x u) (hhot : u.sliceHot x.pa = false) :
    Gives (.sndfCompletion core id) s fun t =>
      t.mem = mputs u.mem x.pa (s.sndRecord f) ∧
      (t.core core).flushes = ((u.core core).flushes.filter fun y => y.id ≠ id) ∧
      (u.hasThread f.tid = true → (t.thread f.tid).cp = (u.thread f.tid).cp - 1) := by
  have hexec : exec (.sndfCompletion core id) s = .next (s.completeFlush core id) := rfl
  rw [completeFlush_decided h hres hfirsts hx hhot] at hexec
  obtain ⟨v, hv, hmem, hthreads, hcores⟩ := recordLine_keeps u f.ctx x
  rw [hv] at hexec
  refine ⟨_, hexec, ?mem, ?flushes, fun hhas => ?cp⟩
  case mem =>
    rw [flushEnded_mem, mem_putMem, hmem]
  case flushes =>
    have hfilter : ((v.putMem x.pa (s.sndRecord f) 0).core core).flushes = (u.core core).flushes :=
      congrArg Core.flushes (core_of_cores ((cores_putMem _ _ _ _).trans hcores) core)
    rw [flushEnded_flushes, hfilter]
  case cp =>
    have hthreads' := (threads_putMem v x.pa (s.sndRecord f) 0).trans hthreads
    have hhas' : (v.putMem x.pa (s.sndRecord f) 0).hasThread f.tid = true := by
      rw [hasThread, hthreads']
      exact hhas
    rw [flushEnded_cp _ hhas', thread_of_threads hthreads']

end

end Sys2Proof.Machine.State
end

section
/-!
PROOFS. The completion of a command (09 R242, R244, R246): its bytes, its arrival and its counter.
-/

namespace Sys2Proof.Machine.State

open Sys2Proof

theorem cores_chargeLines (s : State) (by_ : Option Nat) (pa n : Nat) : (s.chargeLines by_ pa n).cores = s.cores := by
  unfold chargeLines
  split
  · rename_i c _
    exact foldl_keeps State.cores (f := fun u i => u.chargeLine c by_ (pa / 128 + i))
      (fun u i => cores_acceptDraining u c false (pa / 128 + i)) _ s
  · rfl

section
variable {s : State} {core id : Nat} {m : Cmd}

/-! ### A command completes (R242) -/

/-- The node of every line of a command has been heard from (R241). -/
def cmdHeard (s : State) (m : Cmd) : State := (m.takes ++ m.owns).foldl (fun v l => v.hearFlit (l * 128)) s

theorem poison_hearFlit (s : State) (pa : Nat) : (s.hearFlit pa).poison = s.poison := by
  unfold hearFlit
  split
  · rfl
  · dsimp only
    split <;> rfl

section
variable (s : State) (m : Cmd)

theorem cmdHeard_mem : (s.cmdHeard m).mem = s.mem := foldl_keeps State.mem (fun u l => (hearFlit_files u (l * 128)).1) _ s

theorem cmdHeard_threads : (s.cmdHeard m).threads = s.threads :=
  foldl_keeps State.threads (fun u l => (hearFlit_files u (l * 128)).2.1) _ s

theorem cmdHeard_cores : (s.cmdHeard m).cores = s.cores :=
  foldl_keeps State.cores (fun u l => (hearFlit_files u (l * 128)).2.2.2.1) _ s

theorem cmdHeard_poison : (s.cmdHeard m).poison = s.poison :=
  foldl_keeps State.poison (fun u l => poison_hearFlit u (l * 128)) _ s

end

theorem completeCmd_done (data : List Byte) (h : (s.core core).cmds.find? (fun m => m.id = id && m.stage = .moving) = some m)
    (hbehind : s.cmdBehind core m = false) (hflit : s.flitWaits m.id = false)
    (hhot : ∀ l ∈ m.takes ++ m.owns, s.sliceHot (l * 128) = false) (hpoison : s.poison = []) :
    s.completeCmd core id data =
      (((((s.cmdHeard m).learnBytes m data).moveBytes m core).signalCmd m).releaseTiles m).finishCmd core m := by
  have hclean : s.cmdPoison m = none := if_pos hpoison
  have hcool : ((m.takes ++ m.owns).any fun l => s.sliceHot (l * 128)) = false :=
    List.any_eq_false.mpr fun l hl => by rw [hhot l hl]; decide
  simp only [completeCmd, h, hbehind, hflit, hcool, hclean, Bool.or_self, Bool.false_eq_true, if_false]
  rfl

/-! ### A copy of one byte (R250) -/

section
variable {src dst : Int} (hk : m.kind = .linear src dst 1 1 0 0 .glob .glob none 0)
include hk

theorem cmdMvs_byte : cmdMvs m = [⟨some (.glob, src), [(.glob, dst)], 1, 1, [], false⟩] := by
  simp [cmdMvs, hk, mvsOf, linearMvs, baseAt, multicast, upTo]

theorem cmdWrites_byte (s : State) (core : Nat) : s.cmdWrites m core = [⟨.glob, dst, mget s.mem (cmdPa m src)⟩] := by
  simp [cmdWrites, cmdMvs_byte hk, mvBytes, byteFrom, upTo]

theorem signalCmd_byte (s : State) : s.signalCmd m = s := by
  simp only [signalCmd, hk]

end

/-- This package's lines that a command writes (R185). -/
def ownLines (v : State) (m : Cmd) (l : List ByteWrite) : List Nat :=
  (((l.filter fun w => w.sp = .glob).map fun w => cmdPa m w.at_ / 128).eraseDups).filter fun x => v.isLocal (x * 128)

/-- Lines that a command writes are charged (R184, R185). -/
def charged (v : State) (m : Cmd) (ls : List Nat) : State := ls.foldl (fun s x => s.chargeLines (some m.ctx) (x * 128) 128) v

theorem chargeOnly_charged (v : State) (m : Cmd) (ls : List Nat) : ChargeOnly v (v.charged m ls) :=
  ChargeOnly.foldl (fun u _ => chargeOnly_chargeLines u _ _ _) ls v

theorem charged_cores (v : State) (m : Cmd) (ls : List Nat) : (v.charged m ls).cores = v.cores :=
  foldl_keeps State.cores (fun u _ => cores_chargeLines u _ _ _) ls v

/-- With no poison, byte writes charge their lines and are then made. -/
theorem writeBytes_clean {v : State} (hpoison : v.poison = []) (m : Cmd) (l : List ByteWrite) :
    v.writeBytes m l = l.foldl (fun s w => s.putByte m w.sp w.at_ w.val) (v.charged m (v.ownLines m l)) := by
  have e := congrArg State.poison (chargeOnly_charged v m (v.ownLines m l))
  have hclean : (v.charged m (v.ownLines m l)).cleanWritten m l = v.charged m (v.ownLines m l) := if_pos (e.trans hpoison)
  have hwrite : v.writeBytes m l =
    l.foldl (fun s w => s.putByte m w.sp w.at_ w.val) ((v.charged m (v.ownLines m l)).cleanWritten m l) := rfl
  rw [hwrite, hclean]

theorem mputs_singleton (mem : Memory) (a : Nat) (b : Byte) : mputs mem a [b] = mput mem a b := rfl

/-- One global byte written where there is no poison. -/
theorem writeBytes_byte {v : State} (hpoison : v.poison = []) (m : Cmd) (a : Int) (b : Byte) :
    (v.writeBytes m [⟨.glob, a, b⟩]).mem = mput v.mem (cmdPa m a) b ∧ (v.writeBytes m [⟨.glob, a, b⟩]).threads = v.threads ∧
      (v.writeBytes m [⟨.glob, a, b⟩]).cores = v.cores := by
  have hcharge := chargeOnly_charged v m (v.ownLines m [⟨.glob, a, b⟩])
  have hput : v.writeBytes m [⟨.glob, a, b⟩] = (v.charged m (v.ownLines m [⟨.glob, a, b⟩])).putMem (cmdPa m a) [b] 0 :=
    writeBytes_clean hpoison m _
  have hthreads := congrArg State.threads hcharge
  rw [hput, mem_putMem, mputs_singleton, hcharge.mem, threads_putMem, cores_putMem]
  exact ⟨rfl, hthreads, charged_cores v m _⟩

/-- The end of a thread's command that names no barrier register. -/
theorem finishCmd_lone {v : State} {p : Nat} (hbar : m.bar = none) (htid : m.tid = some p) (hp : v.hasThread p = true) :
    v.finishCmd core m = (v.dropCmd core m.id).modThread p fun x => x.uncount .cp := by
  have hp' : (v.dropCmd core m.id).hasThread p = true := hp
  simp only [finishCmd, hbar, lowerCp, htid, hp', if_true]

theorem copyByte_gives {src dst : Int} {p : Nat} (h : (s.core core).cmds.find? (fun m => m.id = id && m.stage = .moving) = some m)
    (hbehind : s.cmdBehind core m = false) (hflit : s.flitWaits m.id = false)
    (hhot : ∀ l ∈ m.takes ++ m.owns, s.sliceHot (l * 128) = false) (hpoison : s.poison = [])
    (hk : m.kind = .linear src dst 1 1 0 0 .glob .glob none 0) (htid : m.tid = some p) (hp : s.hasThread p = true)
    (hbar : m.bar = none) (hfills : m.fills = []) (hdrains : m.drains = []) (hdone : m.done = 0) :
    Gives (.copyComplete core ⟨id, []⟩) s fun t =>
      t.mem = mput s.mem (cmdPa m dst) (mget s.mem (cmdPa m src)) ∧
      (t.core core).cmds = ((s.core core).cmds.filter fun x => x.id ≠ id) ∧
      (t.thread p).cp = (s.thread p).cp - 1 := by
  have hid : m.id = id := by
    have hm := List.find?_some h
    simp only [Bool.and_eq_true, decide_eq_true_eq] at hm
    exact hm.1
  have hexec : exec (.copyComplete core ⟨id, []⟩) s = .next (s.completeCmd core id []) := rfl
  rw [completeCmd_done [] h hbehind hflit hhot hpoison] at hexec
  have hlearn : (s.cmdHeard m).learnBytes m [] = s.cmdHeard m := by
    rw [learnBytes, List.zip_nil_right, List.foldl_nil]
  have hrelease (v : State) : v.releaseTiles m = v := by
    rw [releaseTiles, hfills, hdrains]
    rfl
  have hmove : (s.cmdHeard m).moveBytes m core = (s.cmdHeard m).writeBytes m [⟨.glob, dst, mget s.mem (cmdPa m src)⟩] := by
    rw [moveBytes, hdone, List.drop_zero, cmdWrites_byte hk, cmdHeard_mem]
  rw [hlearn, hmove, signalCmd_byte hk, hrelease] at hexec
  obtain ⟨hmem, hthreads, hcores⟩ := writeBytes_byte ((s.cmdHeard_poison m).trans hpoison) m dst (mget s.mem (cmdPa m src))
  generalize (s.cmdHeard m).writeBytes m [⟨.glob, dst, mget s.mem (cmdPa m src)⟩] = v at hexec hmem hthreads hcores
  rw [cmdHeard_mem] at hmem
  rw [cmdHeard_threads] at hthreads
  rw [cmdHeard_cores] at hcores
  have hpv : v.hasThread p = true := by
    rw [hasThread, hthreads]
    exact hp
  rw [finishCmd_lone hbar htid hpv, hid] at hexec
  refine ⟨_, hexec, hmem, ?cmds, ?cp⟩
  case cmds =>
    have hdrop : ((v.dropCmd core id).core core).cmds = ((v.core core).cmds.filter fun x => x.id ≠ id) := by
      rw [dropCmd, core_modCore]
    rw [← core_of_cores hcores]
    exact hdrop
  case cp =>
    have hthread : (v.dropCmd core id).thread p = s.thread p := thread_of_threads hthreads p
    rw [thread_modThread, hthread]
    rfl

end

end Sys2Proof.Machine.State
end

section
/-!
PROOFS. The acceptance of a command (09 R242, R243, R247): it goes on waiting, is refused with a report, or begins to move with
its tiles and lines held.
-/

namespace Sys2Proof.Machine.State

open Sys2Proof

/-! ### A command's flits leave (R240) -/

theorem cmds_flitLeft (s : State) (tenant id c : Nat) : ((s.flitLeft tenant id).core c).cmds = (s.core c).cmds ∨
    ((s.flitLeft tenant id).core c).cmds = (s.core c).cmds.map fun m => if m.id = id then { m with since := s.now } else m := by
  cases h : s.ords.find? (fun o => o.id = id) with
  | some o =>
    have e := congrArg State.cores (packetOnly_flitLeft s tenant id h).rest
    exact .inl (congrArg Core.cmds (core_of_cores e c))
  | none =>
    obtain ⟨-, -, -, -, hcores⟩ := flitLeft_plain s tenant id h
    split at hcores
    · have e := congrArg Core.cmds (core_tmap s (f := coreLeft id s.now) rfl c)
      have hcore := core_of_cores (s := { s with cores := tmap s.cores (coreLeft id s.now) }) hcores c
      exact .inr ((congrArg Core.cmds hcore).trans e)
    · exact .inl (by rw [core_of_cores hcores])

theorem cmds_sendFlit (s : State) (tenant port id c : Nat) : ((s.sendFlit tenant port id).core c).cmds = (s.core c).cmds ∨
    ((s.sendFlit tenant port id).core c).cmds =
      (s.core c).cmds.map fun m => if m.id = id then { m with since := s.now } else m := by
  unfold sendFlit
  dsimp only
  split
  · exact cmds_flitLeft (s.modTenant tenant fun t =>
      { t with flits := tput t.flits port ((tget t.flits port).getD 0 - 32), used := tadd t.used port 1 }) tenant id c
  · exact .inl rfl

/-- Command `m` stands in its unit in place of the one with its identity, its flits sent since some cycle; memory stands. -/
def CmdSet (s u : State) (core : Nat) (m : Cmd) : Prop :=
  u.mem = s.mem ∧ ∃ n, (u.core core).cmds = (s.core core).cmds.map fun y => if y.id = m.id then { m with since := n } else y

theorem cmdSet_setCmd (s : State) (core : Nat) (m : Cmd) : CmdSet s (s.setCmd core m) core m :=
  ⟨rfl, m.since, by rw [setCmd, core_modCore]⟩

theorem CmdSet.sendFlit {s u : State} {core : Nat} {m : Cmd} (h : CmdSet s u core m) (tenant port : Nat) :
    CmdSet s (u.sendFlit tenant port m.id) core m := by
  obtain ⟨hmem, n, hcmds⟩ := h
  refine ⟨(flitOnly_sendFlit u tenant port m.id).mem.trans hmem, ?_⟩
  obtain hsame | hsent := cmds_sendFlit u tenant port m.id core
  · exact ⟨n, hsame.trans hcmds⟩
  · refine ⟨u.now, ?_⟩
    rw [hsent, hcmds, List.map_map]
    refine List.map_congr_left fun y _ => ?_
    by_cases hy : y.id = m.id <;> simp [hy]

theorem CmdSet.sendCmd {s u : State} {core : Nat} {m : Cmd} (h : CmdSet s u core m) : CmdSet s (u.sendCmd m) core m :=
  List.foldlRecOn _ _ (motive := fun v => CmdSet s v core m) h fun _ hv x _ => hv.sendFlit _ (portTo (x * 256))

/-! ### What acceptance waits for (R193, R243) -/

section
variable {s : State} {core : Nat} {m : Cmd}

theorem acceptCmd_holds (h : (s.core core).cmds.find? (fun m => m.stage ≠ .moving) = some m) (hst : m.stage = .issued)
    (hwait : s.earlierStores core m = true ∨ (m.wg ∈ (s.core core).loads ∧ kindCb m.kind = some 0)) : s.acceptCmd core = s := by
  have hguard : (s.earlierStores core m || ((s.core core).loads.contains m.wg && decide (kindCb m.kind = some 0))) = true := by
    obtain he | ⟨hl, hb⟩ := hwait
    · rw [he, Bool.true_or]
    · simp [hl, hb]
  have hpaused : ¬ m.stage = .paused := by
    rw [hst]
    decide
  simp only [acceptCmd, h, hpaused, hguard, if_true, if_false]

/-- A command is the next of its unit, and waits for no earlier store and no codebook (R193, R257). -/
structure MayAccept (s : State) (core : Nat) (m : Cmd) : Prop where
  next : (s.core core).cmds.find? (fun m => m.stage ≠ .moving) = some m
  notPaused : ¬ m.stage = .paused
  guard : (s.earlierStores core m || ((s.core core).loads.contains m.wg && decide (kindCb m.kind = some 0))) = false

theorem mayAccept (h : (s.core core).cmds.find? (fun m => m.stage ≠ .moving) = some m) (hst : m.stage = .issued)
    (he : s.earlierStores core m = false) (hl : m.wg ∉ (s.core core).loads ∨ kindCb m.kind ≠ some 0) : MayAccept s core m where
  next := h
  notPaused := by
    rw [hst]
    decide
  guard := by
    rw [he, Bool.false_or]
    obtain hl | hb := hl
    · simp [hl]
    · simp [hb]

theorem acceptCmd_refused (h : MayAccept s core m) {c : Nat} {va : W64} (hchk : s.checkCmd m = .refused c va) :
    s.acceptCmd core = s.reportCmd core m c va := by
  simp only [acceptCmd, h.next, h.notPaused, h.guard, hchk, Bool.false_eq_true, if_false]

theorem acceptCmd_absent (h : MayAccept s core m) (hchk : s.checkCmd m = .absent) : s.acceptCmd core = s := by
  simp only [acceptCmd, h.next, h.notPaused, h.guard, hchk, Bool.false_eq_true, if_false]

/-! ### A command begins to move (R243) -/

/-- A command's work with its descriptor read (R252). -/
def heldKind (d : Nat) : CopyKind → CopyKind
  | .tensor _ _ step box coords team st mc => .tensor d none step box coords team st mc
  | k => k

/-- An accepted command, with what it holds: `u` is the state after its checks. -/
def acceptedCmd (s u : State) (m : Cmd) (d : Nat) (pages : Tbl Nat) : Cmd :=
  let ts := (mvsOf m.kind d).flatMap Mv.touches
  let m1 := { m with pages }
  let rd := u.touchTiles m.wg false ts
  { m1 with
    stage := .moving, fills := u.touchTiles m.wg true ts, drains := rd.filter fun x => (u.tileOf x.1 x.2).full
    owns := (touchLines m1 true ts ++ sigLines m1).eraseDups, takes := touchLines m1 false ts, since := s.now
    empties := rd.filter fun x => !(u.tileOf x.1 x.2).full, kind := heldKind d m.kind }

/-- The tiles of a command begin to fill and to drain. -/
def holdTiles (u : State) (m : Cmd) : State :=
  let v := m.fills.foldl (fun s x => s.modTile x.1 x.2 fun r => { r with fill := r.fill + 1 }) u
  m.drains.foldl (fun s x => s.modTile x.1 x.2 fun r => { r with drain := r.drain + 1 }) v

theorem tilesOnly_pairs (f : TileRec → TileRec) (l : List (Nat × Nat)) (s : State) :
    TilesOnly s (l.foldl (fun s x => s.modTile x.1 x.2 f) s) :=
  List.foldlRecOn l _ (motive := TilesOnly s) (.refl s) fun u hu x _ => hu.trans (tilesOnly_modTile u x.1 x.2 f)

theorem tilesOnly_holdTiles (u : State) (m : Cmd) : TilesOnly u (u.holdTiles m) :=
  (tilesOnly_pairs _ m.fills u).trans (tilesOnly_pairs _ m.drains _)

/-- A command takes its tiles and lines, and its unit has it as moving. -/
def begunCmd (u : State) (core : Nat) (m : Cmd) : State := (u.holdTiles m).setCmd core m

/-- The tiles and lines of a command are free (R171, R244). -/
structure CmdFree (u : State) (m : Cmd) (d : Nat) (pages : Tbl Nat) : Prop where
  reads : ∀ x ∈ u.touchTiles m.wg false ((mvsOf m.kind d).flatMap Mv.touches),
    (u.tileOf x.1 x.2).fill = 0 ∧ (u.tileOf x.1 x.2).drain = 0
  fills : ∀ x ∈ u.touchTiles m.wg true ((mvsOf m.kind d).flatMap Mv.touches), u.tileFree x.1 x.2 = true
  owns : ∀ l ∈ (touchLines { m with pages } true ((mvsOf m.kind d).flatMap Mv.touches) ++ sigLines { m with pages }).eraseDups,
    u.ownedLine l = false

variable {u : State} {d : Nat} {pages : Tbl Nat}

theorem CmdFree.guard (h : CmdFree u m d pages) :
    (!((u.touchTiles m.wg false ((mvsOf m.kind d).flatMap Mv.touches)).all fun x =>
        decide ((u.tileOf x.1 x.2).fill = 0) && decide ((u.tileOf x.1 x.2).drain = 0)) ||
      !((u.touchTiles m.wg true ((mvsOf m.kind d).flatMap Mv.touches)).all fun x => u.tileFree x.1 x.2) ||
      (touchLines { m with pages } true ((mvsOf m.kind d).flatMap Mv.touches) ++ sigLines { m with pages }).eraseDups.any
        u.ownedLine) = false := by
  have hreads : ((u.touchTiles m.wg false ((mvsOf m.kind d).flatMap Mv.touches)).all fun x =>
      decide ((u.tileOf x.1 x.2).fill = 0) && decide ((u.tileOf x.1 x.2).drain = 0)) = true :=
    List.all_eq_true.mpr fun x hx => by simp [h.reads x hx]
  have howns := List.any_eq_false.mpr fun l hl => Bool.not_eq_true _ ▸ h.owns l hl
  rw [hreads, List.all_eq_true.mpr h.fills, howns]
  rfl

theorem acceptCmd_empty (h : MayAccept s core m) (hchk : s.checkCmd m = .ok d pages u) (hfree : CmdFree u m d pages)
    (hts : (mvsOf m.kind d).flatMap Mv.touches = []) (hsig : sigLines { m with pages } = []) :
    s.acceptCmd core = u.finishCmd core m := by
  have hguard := hfree.guard
  rw [hts, hsig] at hguard
  simp only [acceptCmd, h.next, h.notPaused, h.guard, hchk, hts, hsig, hguard, decide_true, Bool.and_self, Bool.false_eq_true,
    if_false, if_true]

theorem acceptCmd_moves (h : MayAccept s core m) (hchk : s.checkCmd m = .ok d pages u) (hfree : CmdFree u m d pages)
    (hts : (mvsOf m.kind d).flatMap Mv.touches ≠ [])
    (hports : (u.begunCmd core (acceptedCmd s u m d pages)).cmdPorts (acceptedCmd s u m d pages) = true) :
    s.acceptCmd core =
      (u.begunCmd core (acceptedCmd s u m d pages)).sendCmd (acceptedCmd s u m d pages) := by
  have hguard := hfree.guard
  simp only [acceptCmd, h.next, h.notPaused, h.guard, hchk, hts, hguard, decide_false, Bool.false_and,
    Bool.false_eq_true, if_false]
  exact if_pos hports

/-- Every line that a command reaches is open to it. -/
theorem cmdPorts_of_reaches (hr : ∀ l ∈ m.takes ++ m.owns, Reaches u m.ctx (l * 128)) : u.cmdPorts m = true := by
  refine List.all_eq_true.mpr fun l hl => ?_
  unfold lineOpen
  obtain hlocal | ⟨hhost, hfabric⟩ | ⟨hhost, hdead⟩ := hr l hl
  · have hhost : isHost (l * 128) = false := by
      cases hh : isHost (l * 128) with
      | false => rfl
      | true => exact absurd (hlocal.symm.trans (isHost_isLocal hh)) (by decide)
    rw [if_neg (by rw [hhost]; decide), hlocal, Bool.true_or]
  · rw [if_neg (by rw [hhost]; decide), hfabric, Bool.or_true]
  · rw [if_pos hhost, hdead]
    rfl

theorem cmdPorts_begunCmd (k : Cmd) : (u.begunCmd core k).cmdPorts k = u.cmdPorts k := by
  have e := congrArg (fun x : State => x.cmdPorts k) (tilesOnly_holdTiles u k).rest
  exact e

theorem copyAccept_moves (h : MayAccept s core m) (hchk : s.checkCmd m = .ok d pages u) (hfree : CmdFree u m d pages)
    (hts : (mvsOf m.kind d).flatMap Mv.touches ≠ [])
    (hr : ∀ l ∈ (acceptedCmd s u m d pages).takes ++ (acceptedCmd s u m d pages).owns, Reaches u m.ctx (l * 128)) :
    Gives (.copyAccept core) s fun t => t.mem = u.mem ∧ ∃ n, (t.core core).cmds =
      (u.core core).cmds.map fun y => if y.id = m.id then { acceptedCmd s u m d pages with since := n } else y := by
  have hexec : exec (.copyAccept core) s = .next (s.acceptCmd core) := rfl
  have hports : u.cmdPorts (acceptedCmd s u m d pages) = true := cmdPorts_of_reaches hr
  rw [acceptCmd_moves h hchk hfree hts ((cmdPorts_begunCmd _).trans hports)] at hexec
  have htiles := tilesOnly_holdTiles u (acceptedCmd s u m d pages)
  obtain ⟨hmem, n, hcmds⟩ := (cmdSet_setCmd (u.holdTiles (acceptedCmd s u m d pages)) core (acceptedCmd s u m d pages)).sendCmd
  rw [core_of_cores htiles.cores] at hcmds
  exact ⟨_, hexec, hmem.trans htiles.mem, n, hcmds⟩

end

end Sys2Proof.Machine.State
end

section
/-!
PROOFS. Copies and flushes from their acceptance to their end (09 R242 to R249, R259, R260, R263, R264).
-/

namespace Sys2Proof

open Sys2Proof.Machine State

/-- Settles O40: each event has the outcome of its definition's branch (`tsetDone_found`, `acceptCmd_moves`,
`completeCmd_done`, `pumpAlt_drops`, `completeFlush_decided`), and what it goes through on the way (tiles, flits, charged lines,
counted faults) leaves memory and the unit's other commands as they were. -/
theorem copyEvents : Obligations.CopyEvents := by
  unfold Obligations.CopyEvents
  intro s core
  have haccept : exec (.copyAccept core) s = .next (s.acceptCmd core) := rfl
  refine ⟨fun n o h => tsetWritten_gives h, fun m h hst hwait => ?waits,
    fun m h hst he hl => ⟨fun c va hchk => ?refused, fun hchk => ?absent, ?accepted⟩,
    fun id m data h hbehind hflit hhot hpoison => ⟨?completes, ?oneByte⟩,
    fun id f h => ⟨fun hw => ⟨?noAlternate, ?noEnd⟩, ?alternate, ?ends⟩⟩
  case waits => rw [haccept, acceptCmd_holds h hst hwait]
  case refused => rw [haccept, acceptCmd_refused (mayAccept h hst he hl) hchk]
  case absent => rw [haccept, acceptCmd_absent (mayAccept h hst he hl) hchk]
  case accepted =>
    intro d pages u hchk ts m1 owns takes fills hreads hfills howns
    have hfree : CmdFree u m d pages := ⟨hreads, hfills, howns⟩
    refine ⟨fun hts hsig => ?_, fun hts hr => ?_⟩
    · rw [haccept, acceptCmd_empty (mayAccept h hst he hl) hchk hfree hts hsig]
    · obtain ⟨t, hexec, hmem, n, hcmds⟩ := copyAccept_moves (mayAccept h hst he hl) hchk hfree hts hr
      exact ⟨t, hexec, hmem, _, hcmds, rfl, rfl, rfl, rfl, rfl, rfl⟩
  case completes =>
    have hexec : exec (.copyComplete core ⟨id, data⟩) s = .next (s.completeCmd core id data) := rfl
    rw [hexec, completeCmd_done data h hbehind hflit hhot hpoison]
    rfl
  case oneByte =>
    intro p src dst hk htid hp hbar hfills hdrains hdone
    exact copyByte_gives h hbehind hflit hhot hpoison hk htid hp hbar hfills hdrains hdone
  case noAlternate => exact congrArg Host.Outcome.next (pumpAlt_waits h hw _)
  case noEnd => exact congrArg Host.Outcome.next (completeFlush_waits h hw)
  case alternate =>
    intro e he hr ha
    refine ⟨fun hpen => ?_, fun pen u hpen hu => ?_⟩
    · refine ⟨_, (execSndfAlternate_single h he).trans (congrArg _ (pumpAlt_drops h he hr ha hpen)), ?_, rfl⟩
      rw [flush?_modFlush (g := fun f => { f with res := f.res.set 0 .dropped }) (fun _ => rfl) h, hr]
      rfl
    · rw [execSndfAlternate_single h he, pumpAlt_sends h he hr ha hpen hu]
  case ends => exact fun hres hfirsts x u hx hhot => flushEnded_gives h hres hfirsts hx hhot

end Sys2Proof
end

section
/-!
PROOFS. Where a group stands after its instruction (10 R271, R276): moving on changes the current group, threads and flocks
alone, and of a thread only its place; and what one turn of a fold brings about.
-/

namespace Sys2Proof.Machine.State

open Sys2Proof

/-- What one turn of a fold brings about, and no turn undoes, holds once that turn has been; `I` stands throughout. -/
theorem foldl_settles {α β : Type} {f : α → β → α} {I R : α → Prop} {p : β} (hI : ∀ u a, I u → I (f u a))
    (hset : ∀ u, I u → R (f u p)) (hkeep : ∀ u a, I u → R u → R (f u a)) :
    ∀ (l : List β) (s : α), I s → p ∈ l ∨ R s → R (l.foldl f s)
  | [], _, _, h => h.resolve_left List.not_mem_nil
  | a :: l, s, hs, h => by
    refine foldl_settles hI hset hkeep l (f s a) (hI s a hs) ?_
    rcases h with h | h
    · rcases List.mem_cons.mp h with e | h
      · exact .inr (e ▸ hset s hs)
      · exact .inl h
    · exact .inr (hkeep s a hs h)

/-! ### What a group's place is made of -/

/-- Only the current group, threads and flocks differ. -/
def PlaceOnly (s u : State) : Prop := { u with cur := s.cur, threads := s.threads, flocks := s.flocks } = s

namespace PlaceOnly

variable {s u v : State}

theorem refl (s : State) : PlaceOnly s s := rfl

theorem trans (a : PlaceOnly s u) (b : PlaceOnly u v) : PlaceOnly s v := by
  have h := congrArg (fun x : State => { x with cur := s.cur, threads := s.threads, flocks := s.flocks }) b
  exact h.trans a

theorem mem (h : PlaceOnly s u) : u.mem = s.mem := by
  have e := congrArg State.mem h
  exact e

theorem cyc (h : PlaceOnly s u) : u.cyc = s.cyc := by
  have e := congrArg State.cyc h
  exact e

theorem foldl {α : Type} {f : State → α → State} (h : ∀ u a, PlaceOnly u (f u a)) (l : List α) (s : State) :
    PlaceOnly s (l.foldl f s) :=
  List.foldlRecOn l f (motive := PlaceOnly s) (refl s) fun u hu a _ => hu.trans (h u a)

end PlaceOnly

section
variable (s : State) (g : Group)

theorem placeOnly_modThread (t : Nat) (f : Thread → Thread) : PlaceOnly s (s.modThread t f) := rfl

theorem placeOnly_clearFu : PlaceOnly s (s.clearFu g) := by
  unfold clearFu
  split
  · split <;> rfl
  · rfl

theorem placeOnly_markFu : PlaceOnly s (s.markFu g) := by
  unfold markFu
  split
  · split <;> rfl
  · rfl

theorem placeOnly_clearStall : PlaceOnly s (s.clearStall g) := by
  unfold clearStall
  split
  · exact PlaceOnly.foldl (fun u t => placeOnly_modThread u t _) _ s
  · rfl

theorem placeOnly_membersAt (a b : TState) : PlaceOnly s (s.membersAt g a b) :=
  PlaceOnly.foldl (fun u t => placeOnly_modThread u t _) _ s

theorem placeOnly_endClause (f : Nat → W64) : PlaceOnly s (s.endClause g f) :=
  (placeOnly_clearFu s g).trans
    (PlaceOnly.foldl (fun u t => (placeOnly_modThread u t _).trans (placeOnly_modThread _ t _)) _ _)

/-- A group that moves on neither holds nor blocks its members any longer. -/
def freed : State := if g.blocked then (s.clearStall g).membersAt g .blocked .running else s.clearStall g

theorem placeOnly_freed : PlaceOnly s (s.freed g) := by
  unfold freed
  split
  · exact (placeOnly_clearStall s g).trans (placeOnly_membersAt _ g _ _)
  · exact placeOnly_clearStall s g

/-- R271: the group at its next index. -/
def nextIndex (g : Group) : Group := { g with idx := g.idx + 1, blocked := false, stalled := false, part := [] }

theorem advanceGroup_within (h : g.idx < hdrN g.hdr) :
    s.advanceGroup g = (some (nextIndex g), (s.freed g).markFu (nextIndex g)) := by
  unfold advanceGroup
  dsimp only
  rw [if_pos h]
  rfl

theorem advanceGroup_last (h : hdrN g.hdr ≤ g.idx) :
    s.advanceGroup g = (none, (s.freed g).endClause g fun _ => nextClause g.pc g.hdr) := by
  unfold advanceGroup
  dsimp only
  rw [if_neg (Nat.not_lt.mpr h)]
  rfl

theorem placeOnly_advance : PlaceOnly s s.advance := by
  unfold advance
  split
  · rfl
  · rename_i g _
    refine PlaceOnly.trans (u := (s.advanceGroup g).2) ?_ rfl
    by_cases h : g.idx < hdrN g.hdr
    · rw [advanceGroup_within s g h]
      exact (placeOnly_freed s g).trans (placeOnly_markFu _ _)
    · rw [advanceGroup_last s g (Nat.not_lt.mp h)]
      exact (placeOnly_freed s g).trans (placeOnly_endClause _ g _)

end

section
variable {s : State} {g : Group} (hc : s.cur = some g)
include hc

theorem advance_within (h : g.idx < hdrN g.hdr) :
    s.advance = { (s.freed g).markFu (nextIndex g) with cur := some (nextIndex g) } := by
  simp only [advance, hc, advanceGroup_within s g h]

theorem advance_last (h : hdrN g.hdr ≤ g.idx) :
    s.advance = { (s.freed g).endClause g (fun _ => nextClause g.pc g.hdr) with cur := none } := by
  simp only [advance, hc, advanceGroup_last s g h]

end

/-! ### Threads at the end of a clause (R271, R276) -/

/-- A thread that has reached a clause in this cycle, which its last clause has left giving way or not. -/
structure Entered (x : Thread) (pc : W64) (now : Nat) (gives : Bool) : Prop where
  pc : x.pc = pc
  idx : x.idx = 0
  st : x.st = .ready
  yielded : x.yielded = if gives then some now else none

theorem thread_endClause (s : State) (g : Group) (f : Nat → W64) {m : Nat} (hm : m ∈ g.members) :
    Entered ((s.endClause g f).thread m) (f m) s.cyc (g.yielding || hdrYld g.hdr) := by
  have hown : ∀ (u : State) (y : Option Nat) (pc : W64), ((u.readyAt m pc 0).modThread m fun x =>
      { x with stepping := false, yielded := y }).thread m = { u.thread m with
        pc := pc, idx := 0, st := .ready, age := u.cyc, stallFrom := none, fullFrom := none, stepping := false, yielded := y } := by
    intro u y pc
    rw [thread_modThread, readyAt, thread_modThread]
  have hother : ∀ (u : State) (a : Nat) (y : Option Nat) (pc : W64), m ≠ a → ((u.readyAt a pc 0).modThread a fun x =>
      { x with stepping := false, yielded := y }).thread m = u.thread m := by
    intro u a y pc hne
    rw [modThread, thread_setThread, if_neg hne, readyAt, modThread, thread_setThread, if_neg hne]
  unfold endClause
  refine foldl_settles (I := fun u : State => u.cyc = s.cyc) (R := fun u : State => Entered (u.thread m) (f m) s.cyc _)
    (fun _ _ h => by exact h) (fun u hu => ?_) (fun u a hu h => ?_) g.members (s.clearFu g) (placeOnly_clearFu s g).cyc (.inl hm)
  · rw [hown, hu]
    exact ⟨rfl, rfl, rfl, rfl⟩
  · by_cases e : m = a
    · subst e
      rw [hown, hu]
      exact ⟨rfl, rfl, rfl, rfl⟩
    · rw [hother u a _ _ e]
      exact h

/-! ### A thread that stands in no group moves nowhere -/

theorem thread_modThread_other {s : State} {p a : Nat} (h : p ≠ a) (f : Thread → Thread) :
    (s.modThread a f).thread p = s.thread p := by
  rw [modThread, thread_setThread, if_neg h]

theorem thread_foldl_out {f : State → Nat → State} {p : Nat} (hf : ∀ u a, p ≠ a → (f u a).thread p = u.thread p) :
    ∀ (l : List Nat) (s : State), p ∉ l → (l.foldl f s).thread p = s.thread p
  | [], _, _ => rfl
  | a :: l, s, h => by
    obtain ⟨hne, hl⟩ := List.ne_and_not_mem_of_not_mem_cons h
    exact (thread_foldl_out hf l (f s a) hl).trans (hf s a hne)

section
variable (s : State) {g : Group} {p : Nat} (hp : p ∉ g.members)
include hp

theorem thread_freed_out : (s.freed g).thread p = s.thread p := by
  have hstall : (s.clearStall g).thread p = s.thread p := by
    unfold clearStall
    split
    · exact thread_foldl_out (fun u a h => thread_modThread_other h _) _ s hp
    · rfl
  unfold freed
  split
  · exact (thread_foldl_out (fun u a h => thread_modThread_other h _) _ _ hp).trans hstall
  · exact hstall

theorem thread_endClause_out (f : Nat → W64) : (s.endClause g f).thread p = s.thread p := by
  refine (thread_foldl_out (fun u a h => ?_) _ (s.clearFu g) hp).trans ?_
  · rw [thread_modThread_other h, readyAt, thread_modThread_other h]
  · have e := congrArg (fun u : State => u.thread p) (clearFu_rest s g)
    exact e

end

theorem thread_advance_out {s : State} {p : Nat} (h : ∀ g, s.cur = some g → p ∉ g.members) :
    s.advance.thread p = s.thread p := by
  cases hc : s.cur with
  | none => simp only [advance, hc]
  | some g =>
    have hp := h g hc
    by_cases hi : g.idx < hdrN g.hdr
    · rw [advance_within hc hi]
      have e : ((s.freed g).markFu (nextIndex g)).thread p = (s.freed g).thread p := by
        simp only [thread, markFu_threads]
      exact e.trans (thread_freed_out s hp)
    · rw [advance_last hc (Nat.not_lt.mp hi)]
      exact (thread_endClause_out (s.freed g) hp _).trans (thread_freed_out s hp)

end Sys2Proof.Machine.State
end

section
/-!
PROOFS. Instructions that only go on (10 R271, R276, R286, R288).
-/

namespace Sys2Proof

open Sys2Proof.Machine State

theorem advanceMovesOn : AdvanceMovesOn := by
  intro s g hc
  refine ⟨(same_advance s).kept, fun h => ?_, fun h => ?_⟩
  · rw [advance_within hc h]
    rfl
  · rw [advance_last hc h]
    refine ⟨rfl, fun m hm => ?_⟩
    obtain ⟨hpc, hidx, hst, hy⟩ := thread_endClause (s.freed g) g (fun _ => nextClause g.pc g.hdr) hm
    rw [(placeOnly_freed s g).cyc] at hy
    exact ⟨hpc, hidx, hst, hy⟩

/-- R276: YIELD's note on its clause. -/
theorem yield_completes (s : State) (g : Group) (x : G) : Completes s g (.yield x)
    (if s.participants g (.yield x) = [] then s.advance else { s with cur := some { g with yielding := true } }.advance) := by
  intro h
  have hx : exec (.yield x) s = .next (s.issue (.yield x) fun _ ps s =>
    (if ps = [] then s else { s with cur := s.cur.map fun g => { g with yielding := true } }).advance) := rfl
  rw [hx, issue_clear h]
  split
  · rfl
  · rw [h.cur]
    rfl

/-- R288: no counter of a participant is above its threshold. -/
theorem waitc_completes {s : State} {g : Group} {x : WaitcArgs} (hmet : ∀ p ∈ s.participants g (.waitc x),
      (x.ld = 63 ∨ (s.thread p).ld ≤ x.ld.toNat) ∧ (x.st = 63 ∨ (s.thread p).stc ≤ x.st.toNat) ∧
      (x.cp = 63 ∨ (s.thread p).cp ≤ x.cp.toNat) ∧ (x.tl = 63 ∨ (s.thread p).tl ≤ x.tl.toNat)) :
    Completes s g (.waitc x) s.advance := by
  have hone : ∀ {n : BitVec 6} {v : Nat}, n = 63 ∨ v ≤ n.toNat → waitcMet n.toNat v = true := by
    rintro n v (rfl | h)
    · rfl
    · simp [waitcMet, h]
  refine completes_of rfl (if_pos (List.all_eq_true.mpr fun p hp => ?_))
  obtain ⟨hld, hst, hcp, htl⟩ := hmet p hp
  simp only [hone hld, hone hst, hone hcp, hone htl, Bool.and_self]

theorem simpleForms : SimpleForms := by
  intro s g
  refine ⟨fun x => completes_of rfl rfl, yield_completes s g, fun x h => waitc_completes h, fun x => ⟨?_, ?_⟩⟩
  · exact computes_of (fun _ => rfl) (usesWK_of_write (k := 1) (by simp [instrWrites])) rfl
  · exact computes_of (fun _ => rfl) (usesWK_of_write (k := 1) (by simp [instrWrites])) rfl

/-- Settles O11: a group stands at its next index or each member at the next clause, and these forms do no more. -/
theorem simpleControl : Obligations.SimpleControl := ⟨advanceMovesOn, simpleForms⟩

end Sys2Proof
end

section
/-!
PROOFS. Lane-mask registers and their meetings (10 R281 to R286): what is done to the waits of others leaves every lane-mask
register alone, and a meeting that is complete ends the wait of each thread in it.
-/

namespace Sys2Proof.Machine.State

open Sys2Proof

/-! ### One lane-mask register -/

theorem kset_setK (s : State) (f : Nat) (k : KReg) (x : KSet) (j : Nat) (i : KReg) :
    (s.setK f k x).kset j i = if j = f ∧ i = k then x else s.kset j i := by
  simp only [kset, setK, modFlock, flock_setFlock]
  by_cases hj : j = f
  · subst hj
    by_cases hi : i = k
    · subst hi
      simp [Vector.get_eq_getElem]
    · have hne : k.val ≠ i.val := fun e => hi (Fin.ext e.symm)
      simp [hi, Vector.get_eq_getElem, hne]
  · simp [hj]

theorem kset_setK_self (s : State) (f : Nat) (k : KReg) (x : KSet) : (s.setK f k x).kset f k = x := by
  rw [kset_setK, if_pos ⟨rfl, rfl⟩]

/-- Memory and every lane-mask register stand. -/
structure KeepsK (s u : State) : Prop where
  mem : u.mem = s.mem
  kset : ∀ f k, u.kset f k = s.kset f k

namespace KeepsK

variable {s u v : State}

theorem refl (s : State) : KeepsK s s := ⟨rfl, fun _ _ => rfl⟩

theorem trans (a : KeepsK s u) (b : KeepsK u v) : KeepsK s v :=
  ⟨b.mem.trans a.mem, fun f k => (b.kset f k).trans (a.kset f k)⟩

theorem of_kept (h : Kept s u) : KeepsK s u := by
  have hmem := congrArg State.mem h.rest
  refine ⟨hmem, fun f k => ?_⟩
  have e := congrArg (fun x : Flock => x.k.get k) (h.flock f)
  exact e

theorem foldl {α : Type} {f : State → α → State} (h : ∀ u a, KeepsK u (f u a)) (l : List α) (s : State) :
    KeepsK s (l.foldl f s) :=
  List.foldlRecOn l f (motive := KeepsK s) (refl s) fun u hu a _ => hu.trans (h u a)

end KeepsK

section
variable (s : State) (t : Nat)

theorem keepsK_modThread (f : Thread → Thread) : KeepsK s (s.modThread t f) := ⟨rfl, fun _ _ => rfl⟩

theorem keepsK_cleanRegs (l : List Grp) : KeepsK s (s.cleanRegs t l) := by
  unfold cleanRegs
  split <;> exact ⟨rfl, fun _ _ => rfl⟩

theorem keepsK_waited : KeepsK s (s.waited t) := by
  unfold waited
  split
  · exact keepsK_modThread s t _
  · exact .refl s

theorem keepsK_status (d : Reg) (c : Nat) : KeepsK s (s.status t d c) := by
  rw [status_eq]
  exact ((keepsK_waited s t).trans (.of_kept (kept_wr _ t d _))).trans (keepsK_cleanRegs _ t _)

theorem keepsK_endWait (c : Nat) : KeepsK s (s.endWait t c) := by
  unfold endWait
  split
  · exact (keepsK_status s t _ c).trans (keepsK_modThread _ t _)
  · exact .refl s

theorem keepsK_advance : KeepsK s s.advance := .of_kept (same_advance s).kept

theorem keepsK_expelWaiters (f : Nat) (k : KReg) (m : W32) : KeepsK s (expelWaiters s f k m) :=
  .foldl (fun u p => keepsK_endWait u p 2) _ s

end

/-! ### A meeting that is complete (R281, R284) -/

/-- R281, R284: one thread of a complete meeting goes on, and is noted as released by it. -/
def release (id : Nat) (clauses : List W64) (s : State) (x : Nat × W64) : State :=
  (s.endWait x.1 0).modThread x.1 fun y => { y with met := some { id, at_ := s.cyc, clause := x.2, n := clauses.count x.2 } }

theorem keepsK_release (id : Nat) (clauses : List W64) (s : State) (x : Nat × W64) : KeepsK s (s.release id clauses x) :=
  (keepsK_endWait s x.1 0).trans (keepsK_modThread _ x.1 _)

section
variable (s : State) (f : Nat) (k : KReg)

theorem meetIfComplete_open (h : ¬((s.kset f k).m ≠ 0 ∧ (s.kset f k).v = (s.kset f k).m)) : s.meetIfComplete f k = s :=
  if_neg h

/-- The threads that a complete meeting releases, with the clauses at which they go on. -/
def released (s : State) (f : Nat) (k : KReg) : List (Nat × W64) :=
  let ts := s.meeters f k (s.kset f k).m
  ts.zip (ts.map ((s.setK f k { s.kset f k with v := 0 }).newId.2).afterMeeting)

theorem mem_released {s : State} {f : Nat} {k : KReg} {t : Nat} (h : t ∈ s.meeters f k (s.kset f k).m) :
    ∃ c, (t, c) ∈ s.released f k := by
  obtain ⟨i, hi, rfl⟩ := List.mem_iff_getElem.mp h
  refine ⟨((s.setK f k { s.kset f k with v := 0 }).newId.2).afterMeeting (s.meeters f k (s.kset f k).m)[i],
    List.mem_iff_getElem.mpr ⟨i, ?_, ?_⟩⟩
  · simpa [released] using hi
  · simp [released]

theorem meetIfComplete_complete (h : (s.kset f k).m ≠ 0 ∧ (s.kset f k).v = (s.kset f k).m) :
    s.meetIfComplete f k = (s.released f k).foldl (release s.fresh ((s.released f k).map (·.2)))
      (s.setK f k { s.kset f k with v := 0 }).newId.2 := by
  have hclauses : (s.released f k).map (·.2) =
      (s.meeters f k (s.kset f k).m).map ((s.setK f k { s.kset f k with v := 0 }).newId.2).afterMeeting :=
    List.map_snd_zip (by simp)
  rw [hclauses]
  exact if_pos h

/-- R281: a complete meeting's V is emptied, and memory stands. -/
theorem meetIfComplete_keeps :
    (s.meetIfComplete f k).mem = s.mem ∧ (s.meetIfComplete f k).kset f k = met (s.kset f k) := by
  by_cases h : (s.kset f k).m ≠ 0 ∧ (s.kset f k).v = (s.kset f k).m
  · have hkeeps := KeepsK.foldl (keepsK_release s.fresh ((s.released f k).map (·.2))) (s.released f k)
      (s.setK f k { s.kset f k with v := 0 }).newId.2
    rw [meetIfComplete_complete s f k h, met, if_pos h]
    exact ⟨hkeeps.mem, (hkeeps.kset f k).trans (kset_setK_self s f k _)⟩
  · rw [meetIfComplete_open s f k h, met, if_neg h]
    exact ⟨rfl, rfl⟩

theorem kset_meetIfComplete : (s.meetIfComplete f k).kset f k = met (s.kset f k) := (meetIfComplete_keeps s f k).2

end

/-- R282: a lane out of a register, and the meeting complete without it. -/
theorem leaveK_keeps (s : State) (t : Nat) (k : KReg) : (s.leaveK t k).mem = s.mem ∧ (s.leaveK t k).kset (tidFlock t) k =
    met ⟨(s.kset (tidFlock t) k).m &&& ~~~laneBit t, (s.kset (tidFlock t) k).v &&& ~~~laneBit t⟩ := by
  refine ⟨(meetIfComplete_keeps _ (tidFlock t) k).1, ?_⟩
  rw [leaveK, kset_meetIfComplete, kset_setK_self]

/-! ### JOIN (R282) -/

/-- R282: one participant's lane enters a register. -/
def joinOne (k : KReg) (s : State) (t : Nat) : State :=
  s.setK (tidFlock t) k { s.kset (tidFlock t) k with m := (s.kset (tidFlock t) k).m ||| laneBit t }

theorem placeOnly_joinOne (k : KReg) (s : State) (t : Nat) : PlaceOnly s (joinOne k s t) := rfl

theorem getLsbD_laneBit (t : Nat) {i : Nat} (hi : i < 32) : (laneBit t).getLsbD i = decide (tidLane t = i) := by
  have hlane : tidLane t < 32 := Nat.mod_lt _ (by decide)
  have hone : ∀ n : Nat, (1#32).getLsbD n = decide (n = 0) := fun n => by simp [BitVec.getLsbD_one]
  rw [laneBit, BitVec.getLsbD_shiftLeft, hone]
  by_cases h : tidLane t = i
  · simp [h, hi]
  · by_cases hlt : i < tidLane t
    · simp [h, hlt]
    · have : i - tidLane t ≠ 0 := by omega
      simp [h, this]

/-- The lanes that participants have entered. -/
theorem foldl_joinOne (x : KReg) (f : Nat) (k : KReg) : ∀ (l : List Nat) (s : State),
    ((l.foldl (joinOne x) s).kset f k).v = (s.kset f k).v ∧
      ∀ i < 32, ((l.foldl (joinOne x) s).kset f k).m.getLsbD i = ((s.kset f k).m.getLsbD i || decide (k = x) &&
        l.any fun p => decide (tidFlock p = f) && decide (tidLane p = i))
  | [], s => ⟨rfl, fun i _ => by simp⟩
  | p :: l, s => by
    obtain ⟨hv, hm⟩ := foldl_joinOne x f k l (joinOne x s p)
    have hone : (joinOne x s p).kset f k = if f = tidFlock p ∧ k = x then
        { s.kset f k with m := (s.kset f k).m ||| laneBit p } else s.kset f k := by
      rw [joinOne, kset_setK]
      split
      · rename_i e
        rw [e.1, e.2]
      · rfl
    rw [List.foldl_cons]
    refine ⟨?_, fun i hi => ?_⟩
    · rw [hv, hone]
      split <;> rfl
    · rw [hm i hi, hone, List.any_cons]
      by_cases hk : k = x
      · by_cases hf : f = tidFlock p
        · rw [if_pos ⟨hf, hk⟩, BitVec.getLsbD_or, getLsbD_laneBit p hi]
          simp [hk, hf, Bool.or_assoc]
        · rw [if_neg fun e => hf e.1]
          simp [hk, Ne.symm hf]
      · rw [if_neg fun e => hk e.2]
        simp [hk]

/-! ### WAITM (R283) -/

theorem goOn_ready {s : State} {g : Group} (hc : s.cur = some g) (h : ∀ m ∈ g.members, (s.thread m).wait = none) :
    s.goOn = s.advance := by
  have hn : (g.members.any fun t => (s.thread t).wait.isSome) = false :=
    List.any_eq_false.mpr fun m hm => by simp [h m hm]
  simp only [goOn, hc, hn, Bool.false_eq_true, if_false]

theorem goOn_waits {s : State} {g : Group} (hc : s.cur = some g) (h : ∃ m ∈ g.members, (s.thread m).wait ≠ none) :
    s.goOn.cur = some { g with blocked := true, stalled := false } := by
  obtain ⟨m, hm, hw⟩ := h
  have hs : (g.members.any fun t => (s.thread t).wait.isSome) = true :=
    List.any_eq_true.mpr ⟨m, hm, by simpa [Option.isSome_iff_ne_none] using hw⟩
  simp only [goOn, hc, hs, if_true, block]

section
variable {s : State} {t : Nat} {id : Nat} {clauses : List W64}

theorem wait_endWait (c : Nat) : ((s.endWait t c).thread t).wait = none := by
  cases h : (s.thread t).wait with
  | none => simp only [endWait, h]
  | some w => exact (thread_endWait s t h c).1

/-- The end of one thread's wait brings no other thread into one. -/
theorem wait_endWait_kept (a c : Nat) (h : (s.thread t).wait = none) : ((s.endWait a c).thread t).wait = none := by
  by_cases e : t = a
  · subst e
    exact wait_endWait c
  · unfold endWait
    split
    · rename_i w _
      obtain ⟨g, y, hs⟩ := thread_status s a w.d c t
      rw [dropWait, thread_modThread_other e, hs]
      exact h
    · exact h

theorem wait_noted (a : Nat) (y : Option Met) : ((s.modThread a fun x => { x with met := y }).thread t).wait = (s.thread t).wait := by
  rw [modThread, thread_setThread]
  split
  · rename_i e
    rw [e]
  · rfl

/-- R281: a thread that waits in a complete meeting waits no longer. -/
theorem wait_meetIfComplete {f : Nat} {k : KReg} (h : (s.kset f k).m ≠ 0 ∧ (s.kset f k).v = (s.kset f k).m)
    (ht : t ∈ s.meeters f k (s.kset f k).m) : ((s.meetIfComplete f k).thread t).wait = none := by
  obtain ⟨c, hc⟩ := mem_released ht
  rw [meetIfComplete_complete s f k h]
  refine foldl_settles (I := fun _ => True) (R := fun u : State => (u.thread t).wait = none) (p := (t, c))
    (fun _ _ _ => trivial) (fun u _ => ?_) (fun u a _ hu => ?_) _ _ trivial (.inl hc)
  · rw [release, wait_noted]
    exact wait_endWait 0
  · rw [release, wait_noted]
    exact wait_endWait_kept a.1 0 hu

end

/-! ### One participant's WAITM -/

section
variable (x : WaitmArgs) (ps : List Nat) (s : State) (t : Nat)

/-- R283: a participant that waits has arrived. -/
def arrived : State :=
  (s.startWait t (.meet x.k.val) (statusReg x.d ps t) x.e).setK (tidFlock t) x.k
    ⟨(s.kset (tidFlock t) x.k).m, (s.kset (tidFlock t) x.k).v ||| laneBit t⟩

theorem kset_arrived : (arrived x ps s t).kset (tidFlock t) x.k =
    ⟨(s.kset (tidFlock t) x.k).m, (s.kset (tidFlock t) x.k).v ||| laneBit t⟩ := kset_setK_self ..

theorem thread_arrived : ((arrived x ps s t).thread t).st = .blocked ∧
    ((arrived x ps s t).thread t).wait.map (·.kind) = some (.meet x.k.val) := by
  obtain ⟨hst, -, hw⟩ := startWait_blocks s t (.meet x.k.val) (statusReg x.d ps t) x.e
  exact ⟨hst, hw⟩

theorem waitmOne_outside (h : (s.kset (tidFlock t) x.k).m &&& laneBit t = 0) :
    waitmOne x ps s t = s.status t (statusReg x.d ps t) 2 := if_pos h

variable {x ps s t} (h : (s.kset (tidFlock t) x.k).m &&& laneBit t ≠ 0)
include h

theorem waitmOne_member : waitmOne x ps s t =
    let u := (arrived x ps s t).meetIfComplete (tidFlock t) x.k
    if x.e.val = 0 && (u.thread t).wait.isSome then (u.withdrawK t x.k).endWait t 1 else u := if_neg h

theorem mem_meeters_arrived : t ∈ (arrived x ps s t).meeters (tidFlock t) x.k (s.kset (tidFlock t) x.k).m := by
  obtain ⟨-, hw⟩ := thread_arrived x ps s t
  have hthere : tget (arrived x ps s t).threads t = some ((arrived x ps s t).thread t) := by
    rw [thread]
    have e : ∃ y, tget (arrived x ps s t).threads t = some y := ⟨_, tget_tput_same ..⟩
    obtain ⟨y, e⟩ := e
    rw [e]
    rfl
  refine List.mem_map.mpr ⟨_, List.mem_filter.mpr ⟨mem_of_tget hthere, ?_⟩, rfl⟩
  obtain ⟨w, hw, hk⟩ := Option.map_eq_some_iff.mp hw
  have hne : (s.kset (tidFlock t) x.k).m &&& laneBit t ≠ 0#32 := h
  simp [hw, hk, hne]

/-- R283: the arrival that completes the meeting. -/
theorem waitmOne_completes (hv : (s.kset (tidFlock t) x.k).v ||| laneBit t = (s.kset (tidFlock t) x.k).m) :
    (waitmOne x ps s t).kset (tidFlock t) x.k = ⟨(s.kset (tidFlock t) x.k).m, 0⟩ ∧
      ((waitmOne x ps s t).thread t).wait = none := by
  have hk := kset_arrived x ps s t
  have hm : (s.kset (tidFlock t) x.k).m ≠ 0 := fun e => h (by rw [e]; exact BitVec.zero_and)
  have hmet : ((arrived x ps s t).kset (tidFlock t) x.k).m ≠ 0 ∧
      ((arrived x ps s t).kset (tidFlock t) x.k).v = ((arrived x ps s t).kset (tidFlock t) x.k).m := by
    rw [hk]
    exact ⟨hm, hv⟩
  have hwait : (((arrived x ps s t).meetIfComplete (tidFlock t) x.k).thread t).wait = none :=
    wait_meetIfComplete hmet (by rw [hk]; exact mem_meeters_arrived h)
  have hone : waitmOne x ps s t = (arrived x ps s t).meetIfComplete (tidFlock t) x.k := by
    rw [waitmOne_member h]
    exact if_neg (by simp [hwait])
  rw [hone]
  refine ⟨?_, hwait⟩
  rw [kset_meetIfComplete, met, if_pos hmet, hk]

section
variable (hv : (s.kset (tidFlock t) x.k).v ||| laneBit t ≠ (s.kset (tidFlock t) x.k).m)
include hv

omit h in
theorem arrived_waits : (arrived x ps s t).meetIfComplete (tidFlock t) x.k = arrived x ps s t := by
  refine meetIfComplete_open _ _ _ fun e => hv ?_
  rw [kset_arrived] at e
  exact e.2

/-- R283: an arrival of exponent 0 that does not complete the meeting. -/
theorem waitmOne_withdrawn (he : x.e = 0) :
    (waitmOne x ps s t).kset (tidFlock t) x.k =
        ⟨(s.kset (tidFlock t) x.k).m, (s.kset (tidFlock t) x.k).v &&& ~~~laneBit t⟩ ∧
      ((waitmOne x ps s t).thread t).wait = none := by
  obtain ⟨w, hw, -⟩ := Option.map_eq_some_iff.mp (thread_arrived x ps s t).2
  have hone : waitmOne x ps s t = ((arrived x ps s t).withdrawK t x.k).endWait t 1 := by
    rw [waitmOne_member h, arrived_waits hv]
    exact if_pos (by simp [he, hw])
  have hbits : ((s.kset (tidFlock t) x.k).v ||| laneBit t) &&& ~~~laneBit t = (s.kset (tidFlock t) x.k).v &&& ~~~laneBit t := by
    ext i hi
    simp only [BitVec.getElem_and, BitVec.getElem_or, BitVec.getElem_not]
    cases (laneBit t)[i] <;> simp
  rw [hone]
  refine ⟨?_, wait_endWait 1⟩
  rw [(keepsK_endWait _ t 1).kset, withdrawK, kset_setK_self, kset_arrived, hbits]

/-- R283: an arrival that waits. -/
theorem waitmOne_blocks (he : x.e ≠ 0) : waitmOne x ps s t = arrived x ps s t := by
  have hne : x.e.val ≠ 0 := fun e => he (Fin.ext e)
  rw [waitmOne_member h, arrived_waits hv]
  exact if_neg (by simp [hne])

end

omit h

theorem waitmOne_mem : (waitmOne x ps s t).mem = s.mem := by
  by_cases h : (s.kset (tidFlock t) x.k).m &&& laneBit t = 0
  · rw [waitmOne_outside x ps s t h]
    exact (keepsK_status s t _ 2).mem
  · have hmem : ((arrived x ps s t).meetIfComplete (tidFlock t) x.k).mem = s.mem := (meetIfComplete_keeps _ _ _).1
    rw [waitmOne_member h]
    dsimp only
    split
    · exact (keepsK_endWait _ t 1).mem.trans hmem
    · exact hmem

end

end Sys2Proof.Machine.State

namespace Sys2Proof

open Sys2Proof.Machine State

/-! ### JOIN, LEAVE, KMOV (R281, R282, R285, R286) -/

theorem join_enters {s : State} {g : Group} {x : KArgs} (h : Clear s g (.join x)) : ∃ t, exec (.join x) s = .next t ∧ t.mem = s.mem ∧
    { t with cur := s.cur, threads := s.threads, flocks := s.flocks } = s ∧
    ∀ f k, (t.kset f k).v = (s.kset f k).v ∧ ∀ i < 32, (t.kset f k).m.getLsbD i =
      ((s.kset f k).m.getLsbD i || decide (k = x.k) &&
        (s.participants g (.join x)).any fun p => decide (tidFlock p = f) && decide (tidLane p = i)) := by
  have hx : exec (.join x) s = .next (s.issue (.join x) fun _ ps s => (ps.foldl (joinOne x.k) s).advance) := rfl
  have hplace : PlaceOnly s ((s.participants g (.join x)).foldl (joinOne x.k) s).advance :=
    (PlaceOnly.foldl (fun u t => placeOnly_joinOne x.k u t) _ s).trans (placeOnly_advance _)
  refine ⟨_, by rw [hx, issue_clear h], hplace.mem, hplace, fun f k => ?_⟩
  rw [(keepsK_advance _).kset]
  exact foldl_joinOne x.k f k _ s

theorem leave_keepsMem {s : State} {g : Group} {x : KArgs} (h : Clear s g (.leave x)) :
    ∃ t, exec (.leave x) s = .next t ∧ t.mem = s.mem := by
  have hx : exec (.leave x) s = .next (s.issue (.leave x) fun _ ps s => (ps.foldl (fun s t => s.leaveK t x.k) s).advance) := rfl
  exact ⟨_, by rw [hx, issue_clear h], (keepsK_advance _).mem.trans
    (foldl_keeps State.mem (fun u t => (leaveK_keeps u t x.k).1) _ s)⟩

theorem kmovSet_sets {s : State} {g : Group} {x : KmovA} {p : Nat} (hp : (s.participants g (.kmovSet x)).head? = some p)
    (h : Clear s g (.kmovSet x)) : ∃ t, exec (.kmovSet x) s = .next t ∧ t.mem = s.mem ∧
      t.kset (tidFlock p) x.k = met ⟨s.rd p x.a, (s.kset (tidFlock p) x.k).v &&& s.rd p x.a⟩ := by
  obtain ⟨rest, hps⟩ := List.head?_eq_some_iff.mp hp
  let v := s.setK (tidFlock p) x.k ⟨s.rd p x.a, (s.kset (tidFlock p) x.k).v &&& s.rd p x.a⟩
  let u := expelWaiters v (tidFlock p) x.k (s.rd p x.a)
  have hx : exec (.kmovSet x) s = .next (u.meetIfComplete (tidFlock p) x.k).advance := completes_of rfl (by rw [hps]) h
  have hu : KeepsK v u := keepsK_expelWaiters v (tidFlock p) x.k (s.rd p x.a)
  refine ⟨_, hx, (keepsK_advance _).mem.trans ((meetIfComplete_keeps u _ _).1.trans hu.mem), ?_⟩
  rw [(keepsK_advance _).kset, kset_meetIfComplete, hu.kset, kset_setK_self]

theorem kmovClr_clears {s : State} {g : Group} {x : KArgs} {p : Nat} (hp : (s.participants g (.kmovClr x)).head? = some p)
    (h : Clear s g (.kmovClr x)) : ∃ t, exec (.kmovClr x) s = .next t ∧ t.mem = s.mem ∧ t.kset (tidFlock p) x.k = ⟨0, 0⟩ := by
  obtain ⟨rest, hps⟩ := List.head?_eq_some_iff.mp hp
  let v := s.setK (tidFlock p) x.k ⟨0, 0⟩
  let u := expelWaiters v (tidFlock p) x.k 0
  have hx : exec (.kmovClr x) s = .next u.advance := completes_of rfl (by rw [hps]) h
  have hu : KeepsK v u := keepsK_expelWaiters v (tidFlock p) x.k 0
  refine ⟨_, hx, (keepsK_advance _).mem.trans hu.mem, ?_⟩
  rw [(keepsK_advance _).kset, hu.kset, kset_setK_self]

theorem laneMaskRegisters : LaneMaskRegisters := by
  intro s g
  exact ⟨fun x h => join_enters h, fun x => completes_of rfl rfl, fun x h => leave_keepsMem h,
    fun x hn => completes_of rfl (by rw [hn]; rfl), fun t k => leaveK_keeps s t k, fun x p hp h => kmovSet_sets hp h,
    fun x hn => completes_of rfl (by rw [hn]), fun x p hp h => kmovClr_clears hp h, fun x hn => completes_of rfl (by rw [hn])⟩

theorem exec_waitm {s : State} {g : Group} (hc : s.cur = some g) (x : WaitmArgs) : exec (.waitm x) s = .next
    (if g.idx ≠ hdrN g.hdr then s.illegal
     else s.issue (.waitm x) fun _ ps s => releaseFlock (ps.foldl (waitmOne x ps) s).goOn) := by
  have hx : exec (.waitm x) s = execWaitm x s := rfl
  rw [hx, execWaitm]
  simp only [hc]

theorem meetings : Meetings := by
  intro s g x
  refine ⟨fun hi h => ?_, fun hc hf hi he => ?_, fun h hc => ⟨goOn_ready hc, goOn_waits hc⟩, fun ps t => ?_⟩
  · rw [exec_waitm h.cur, if_neg (by simp [hi]), issue_clear h]
  · rw [exec_waitm hc, if_pos hi, illegal_eq hc hf he]
  · refine ⟨waitmOne_mem, waitmOne_outside x ps s t, waitmOne_completes, waitmOne_withdrawn, fun h hv he => ?_⟩
    rw [waitmOne_blocks h hv he]
    exact ⟨kset_arrived x ps s t, thread_arrived x ps s t⟩

/-- Settles O12: what ends the waits of others leaves M and V alone, so each holds what its own operation wrote. -/
theorem laneMasksAndMeetings : Obligations.LaneMasksAndMeetings := ⟨laneMaskRegisters, meetings⟩

end Sys2Proof
end

section
/-!
PROOFS. Branches (10 R278 to R280): a branch whose targets are aligned, and which is uniform where it has to be, ends its
group's clause with each member at its next address; a call writes its participants' link pairs first.
-/

namespace Sys2Proof.Machine.State

open Sys2Proof

/-! ### Where the members go (R278, R279) -/

/-- The next address of a member: a participant's target, or else the next clause. -/
def nextAddr (ps : List Nat) (target : Nat → W64) (fall : W64) (m : Nat) : W64 := if m ∈ ps then target m else fall

/-- Every member with its next address. -/
def nextAddrs (g : Group) (ps : List Nat) (target : Nat → W64) (fall : W64) : List (Nat × W64) :=
  g.members.map fun m => (m, nextAddr ps target fall m)

section
variable {g : Group} {ps : List Nat} {target : Nat → W64} {fall : W64}

theorem oneNext_iff : oneNext (nextAddrs g ps target fall) = true ↔
    ∀ a ∈ g.members, ∀ b ∈ g.members, nextAddr ps target fall a = nextAddr ps target fall b := by
  unfold nextAddrs
  cases g.members with
  | nil => simp [oneNext]
  | cons m l =>
    have hone : oneNext ((m :: l).map fun m => (m, nextAddr ps target fall m)) = true ↔
        ∀ b ∈ l, nextAddr ps target fall b = nextAddr ps target fall m := by simp [oneNext]
    rw [hone]
    refine ⟨fun h a ha b hb => ?_, fun h b hb => h b (List.mem_cons_of_mem _ hb) m (List.mem_cons_self ..)⟩
    have hm : ∀ c ∈ m :: l, nextAddr ps target fall c = nextAddr ps target fall m := fun c hc => by
      rcases List.mem_cons.mp hc with rfl | hc
      · rfl
      · exact h c hc
    exact (hm a ha).trans (hm b hb).symm

theorem find_nextAddrs {m : Nat} (hm : m ∈ g.members) :
    (((nextAddrs g ps target fall).find? fun x => x.1 = m).map (·.2)).getD fall = nextAddr ps target fall m := by
  have hf : ∀ l : List Nat, m ∈ l → (l.map fun m => (m, nextAddr ps target fall m)).find? (fun x => x.1 = m) =
      some (m, nextAddr ps target fall m) := by
    intro l
    induction l with
    | nil => exact fun h => absurd h List.not_mem_nil
    | cons a l ih =>
      intro h
      by_cases e : a = m
      · subst e
        simp
      · rw [List.map_cons, List.find?_cons_of_neg (by simpa using e)]
        exact ih ((List.mem_cons.mp h).resolve_left (Ne.symm e))
  rw [nextAddrs, hf _ hm]
  rfl

/-- Every member stands in its group. -/
theorem filter_nextAddrs : (nextAddrs g ps target fall).filter (fun x => g.members.contains x.1) = nextAddrs g ps target fall := by
  refine List.filter_eq_self.mpr fun x hx => ?_
  obtain ⟨m, hm, rfl⟩ := List.mem_map.mp hx
  exact List.contains_iff_mem.mpr hm

end

/-! ### Link pairs (R278) -/

/-- A participant's link pair takes the next clause's address. -/
def linkOne (fall : W64) (s : State) (t : Nat) : State := s.wrD t (linkReg s t) 2 fall.toNat

/-- A call's writes. -/
def linked (link : Bool) (fall : W64) (ps : List Nat) (s : State) : State := if link then ps.foldl (linkOne fall) s else s

theorem linkReg_kept {s u : State} (h : Kept s u) (t : Nat) : linkReg u t = linkReg s t := by
  have hwg := congrArg Thread.wg (h.thread t)
  have hwgs := congrArg State.wgs h.rest
  have e : u.wgOf t = s.wgOf t := by
    have hw : (u.thread t).wg = (s.thread t).wg := hwg
    rw [wgOf, wgOf, hw]
    exact wg_of_wgs hwgs _
  rw [linkReg, linkReg, e]

theorem placeOnly_wrGroup (s : State) (t : Nat) (d : Reg) (v k : Nat) : PlaceOnly s (s.wrGroup t d v k) := by
  refine PlaceOnly.foldl (fun u w => ?_) _ s
  obtain ⟨r, v⟩ := w
  cases r <;> rfl

section
variable {s u : State} {fall : W64} (hp : s.poison = []) (hk : Kept s u)
include hp hk

theorem linkOne_kept (t : Nat) : linkOne fall u t = u.wrGroup t (linkReg s t) fall.toNat 2 := by
  rw [linkOne, linkReg_kept hk, wrD_clean ((poison_kept hk).trans hp)]

theorem kept_linkOne (t : Nat) : Kept s (linkOne fall u t) := by
  rw [linkOne_kept hp hk]
  exact hk.trans (kept_wrGroup ..)

end

/-- What a call's writes leave and write, before the group moves. -/
structure Links (s u : State) (link : Bool) (fall : W64) (ps : List Nat) : Prop where
  place : PlaceOnly s u
  preds : ∀ q c, u.rdP q c = s.rdP q c
  pair : link = true → ∀ p ∈ ps, (linkReg s p).fits 2 → u.rdN p (linkReg s p) 2 = fall.toNat
  other : ∀ q r, (link = true → ∀ p ∈ ps, ∀ j < 2, regCell q r ≠ regCell p (Reg.up (linkReg s p) j)) → u.rd q r = s.rd q r

/-- A link pair is of its own thread: a call writes no register that another thread reads. -/
theorem linkCell_ne {s : State} {p q : Nat} (h : q ≠ p) (r : Reg) (j : Nat) : regCell q r ≠ regCell p (Reg.up (linkReg s p) j) := by
  cases r <;> simp [linkReg, Reg.up, regCell, h]

/-- What a call's writes each keep, they all keep. -/
theorem linked_of {s : State} (hp : s.poison = []) {fall : W64} {ps : List Nat} {P : State → Prop} (h0 : P s)
    (hone : ∀ u, ∀ p ∈ ps, P u → P (u.wrGroup p (linkReg s p) fall.toNat 2)) : P (ps.foldl (linkOne fall) s) := by
  have h : Kept s (ps.foldl (linkOne fall) s) ∧ P (ps.foldl (linkOne fall) s) :=
    List.foldlRecOn ps _ (motive := fun u => Kept s u ∧ P u) ⟨Kept.refl s, h0⟩ fun u ⟨hk, hu⟩ p hm =>
      ⟨kept_linkOne hp hk p, by rw [linkOne_kept hp hk]; exact hone u p hm hu⟩
  exact h.2

/-- R278: each participant's link pair holds the next clause's address after all have been written. -/
theorem rdN_linked {s : State} (hp : s.poison = []) (fall : W64) {ps : List Nat} {p : Nat} (hm : p ∈ ps)
    (hf : (linkReg s p).fits 2) : (ps.foldl (linkOne fall) s).rdN p (linkReg s p) 2 = fall.toNat := by
  have hown : ∀ u, Kept s u → (linkOne fall u p).rdN p (linkReg s p) 2 = fall.toNat := fun u hu => by
    rw [linkOne_kept hp hu, rdN_wrGroup (by simp [linkReg]) hf]
    exact Nat.mod_eq_of_lt fall.isLt
  refine foldl_settles (I := Kept s) (R := fun u : State => u.rdN p (linkReg s p) 2 = fall.toNat)
    (fun u a hu => kept_linkOne hp hu a) hown (fun u a hu h => ?_) ps s (Kept.refl s) (.inl hm)
  by_cases ha : p = a
  · exact ha ▸ hown u hu
  · rw [linkOne_kept hp hu, rdN_congr fun r => wrGroup_other u a _ _ p r 2 fun j _ => linkCell_ne ha r j]
    exact h

theorem links_linked {s : State} (hp : s.poison = []) (link : Bool) (fall : W64) (ps : List Nat) :
    Links s (linked link fall ps s) link fall ps := by
  cases link with
  | false => exact ⟨rfl, fun _ _ => rfl, fun h => absurd h (by decide), fun _ _ _ => rfl⟩
  | true =>
    refine ⟨?_, fun q c => ?_, fun _ p hm hf => rdN_linked hp fall hm hf, fun q r hr => ?_⟩
    · exact linked_of hp (P := PlaceOnly s) rfl fun u p _ h => h.trans (placeOnly_wrGroup ..)
    · exact linked_of hp (P := fun u => u.rdP q c = s.rdP q c) rfl fun u p _ h => (rdP_wrGroup ..).trans h
    · exact linked_of hp (P := fun u => u.rd q r = s.rd q r) rfl fun u p hm h =>
        (wrGroup_other u p _ _ q r 2 (hr rfl p hm)).trans h

/-! ### A branch taken -/

/-- The members that go first (R279). -/
def goesFirst (hint : BrHint) (g : Group) (ps : List Nat) (next : List (Nat × W64)) : List Nat :=
  if oneNext next then g.members else preferred hint (nextClause g.pc g.hdr) (ps.filter g.members.contains) next

/-- The address that a list gives a member. -/
def addrIn (next : List (Nat × W64)) (fall : W64) (m : Nat) : W64 := ((next.find? fun x => x.1 = m).map (·.2)).getD fall

/-- The current group once it has left its clause, each member for its next address, and those that do not go first behind the
others (R279). -/
def branched (g : Group) (next : Nat → W64) (first : List Nat) (s : State) : State :=
  g.members.foldl (fun v t => if first.contains t then v else v.modThread t fun x => { x with age := v.cyc + 1 })
    { (s.clearStall g).endClause g next with cur := none }

section
variable {s : State} {g : Group} {ps : List Nat} {target : Nat → W64} {hint : BrHint} {link : Bool}

theorem nextAddrs_eq (fall : W64) :
    (g.members.map fun t => (t, if ps.contains t then target t else fall)) = nextAddrs g ps target fall := by
  simp [nextAddrs, nextAddr]

theorem branch_uniform (h : hint = .uniform) (hc : s.checkedMode g = true)
    (hn : oneNext (nextAddrs g ps target (nextClause g.pc g.hdr)) = false) :
    s.branch hint link target g ps = g.members.foldl (fun s t => s.trap t tcUniformity 0) s := by
  unfold branch
  dsimp only
  rw [nextAddrs_eq, hn, hc, decide_eq_true h]
  rfl

theorem branch_taken (hcur : s.cur = some g) (hsub : ∀ p ∈ ps, p ∈ g.members) (halign : ∀ p ∈ ps, (target p).toNat % 8 = 0)
    (hn : hint = .uniform → s.checkedMode g = true → oneNext (nextAddrs g ps target (nextClause g.pc g.hdr)) = true) :
    s.branch hint link target g ps =
      let next := nextAddrs g ps target (nextClause g.pc g.hdr)
      branched g (addrIn next (nextClause g.pc g.hdr)) (goesFirst hint g ps next) (linked link (nextClause g.pc g.hdr) ps s) := by
  have hnot : ¬ (decide (hint = .uniform) && s.checkedMode g && !oneNext (nextAddrs g ps target (nextClause g.pc g.hdr))) = true := by
    simp only [Bool.and_eq_true, decide_eq_true_eq, Bool.not_eq_true', not_and]
    exact fun ⟨h, hc⟩ => by simp [hn h hc]
  have hfold : ps.foldl (fun s t => if (target t).toNat % 8 ≠ 0 then s.trap t tcMisaligned 0 else s) s = s :=
    foldl_same _ _ _ fun p hm => if_neg (by simp [halign p hm])
  have hlink : (if link then ps.foldl (fun s t => if g.members.contains t then
      (s.wrN t (linkReg s t) 2 (nextClause g.pc g.hdr).toNat).cleanRegs t [(linkReg s t, 2)] else s) s else s) =
      linked link (nextClause g.pc g.hdr) ps s := by
    unfold linked
    split
    · exact List.foldl_ext _ _ _ fun u p hm => if_pos (List.contains_iff_mem.mpr (hsub p hm))
    · rfl
  unfold branch
  dsimp only
  rw [nextAddrs_eq, if_neg hnot, hfold]
  simp only [hcur, filter_nextAddrs, hlink]
  rfl

end

section
variable (s : State) (g : Group) (next : Nat → W64) (first : List Nat)

/-- What orders the members of a group changes when each became ready, and no more. -/
theorem ordered_of {P : State → Prop} {u : State} (h0 : P u)
    (hone : ∀ v t, P v → P (v.modThread t fun x => { x with age := v.cyc + 1 })) :
    P (g.members.foldl (fun v t => if first.contains t then v else v.modThread t fun x => { x with age := v.cyc + 1 }) u) := by
  refine List.foldlRecOn g.members _ (motive := P) h0 fun v hv t _ => ?_
  split
  · exact hv
  · exact hone v t hv

theorem same_branched : Same s (branched g next first s) := by
  have h0 : Same s { (s.clearStall g).endClause g next with cur := none } :=
    ((same_clearStall s g).trans (same_endClause _ g next)).trans (same_cur _ none)
  exact ordered_of g first (P := Same s) h0 fun v t hv => hv.trans (same_modThread v t _ fun x => ⟨_, _, _, _, _, _, _, _, rfl⟩)

theorem placeOnly_branched : PlaceOnly s (branched g next first s) := by
  have h0 : PlaceOnly s { (s.clearStall g).endClause g next with cur := none } :=
    (placeOnly_clearStall s g).trans (placeOnly_endClause _ g next)
  exact ordered_of g first (P := PlaceOnly s) h0 fun v t hv => hv.trans (placeOnly_modThread v t _)

theorem cur_branched : (branched g next first s).cur = none :=
  ordered_of g first (P := fun u => u.cur = none) rfl fun _ _ h => h

theorem thread_branched {m : Nat} (hm : m ∈ g.members) : ((branched g next first s).thread m).pc = next m ∧
    ((branched g next first s).thread m).idx = 0 ∧ ((branched g next first s).thread m).st = .ready := by
  obtain ⟨hpc, hidx, hst, -⟩ := thread_endClause (s.clearStall g) g next hm
  refine ordered_of g first (P := fun u => (u.thread m).pc = next m ∧ (u.thread m).idx = 0 ∧ (u.thread m).st = .ready)
    ⟨hpc, hidx, hst⟩ fun v t hv => ?_
  by_cases e : m = t
  · subst e
    rw [thread_modThread]
    exact hv
  · rw [thread_modThread_other e]
    exact hv

end

end Sys2Proof.Machine.State

namespace Sys2Proof

open Sys2Proof.Machine State

/-- R278: a branch is one issue of `State.branch` with its targets. -/
theorem exec_branch {s : State} {g : Group} {i : Instr} {hint : BrHint} {link : Bool} {target : Nat → W64}
    (hb : isBranch s g i hint link target) (h : Clear s g i) :
    exec i s = .next (s.branch hint link target g (s.participants g i)) := by
  cases i with
  | bra x | brx x | call x | callx x | ret x =>
    obtain ⟨rfl, rfl, rfl⟩ := hb
    exact completes_of rfl rfl h
  | _ => exact hb.elim

/-- Settles O13: a branch writes its link pairs (`links_linked`) and takes each member to its next address. -/
theorem branches : Obligations.Branches := by
  intro s g i hint link target hb ps fall goes h
  have hone : oneNext (nextAddrs g ps target fall) = true ↔ ∀ a ∈ g.members, ∀ b ∈ g.members, goes a = goes b := oneNext_iff
  rw [exec_branch hb h]
  refine ⟨fun halign huni => ?_, fun hu hc hdiff => ?_⟩
  · have hl : Links s (linked link fall ps s) link fall ps := links_linked h.clean link fall ps
    have htaken := branch_taken (link := link) h.cur (fun p hp => participants_sub hp) halign
      fun hu hc => hone.mpr (huni hu hc)
    let next := nextAddrs g ps target fall
    have hs := same_branched (linked link fall ps s) g (addrIn next fall) (goesFirst hint g ps next)
    refine ⟨_, congrArg Host.Outcome.next htaken, cur_branched .., hl.place.trans (placeOnly_branched ..), fun m hm => ?_,
      fun q c => (hs.rdP q c).trans (hl.preds q c), fun hlink p hp hf => ?_, fun q r hr => (hs.rd q r).trans (hl.other q r hr)⟩
    · obtain ⟨hpc, hidx, hst⟩ := thread_branched (linked link fall ps s) g (addrIn next fall) (goesFirst hint g ps next) hm
      exact ⟨hpc.trans (find_nextAddrs hm), hidx, hst⟩
    · exact (rdN_congr (hs.rd p) _ 2).trans (hl.pair hlink p hp hf)
  · have hne : oneNext (nextAddrs g ps target fall) = false := Bool.eq_false_iff.mpr fun hall => by
      obtain ⟨a, ha, b, hb, hab⟩ := hdiff
      exact hab (hone.mp hall a ha b hb)
    exact congrArg Host.Outcome.next (branch_uniform hu hc hne)

end Sys2Proof
end

section
/-!
PROOFS. The end of a workgroup of a team (01 R21, 06 R168, 10 R294): its threads have all ended, and what it holds stays until
every workgroup of the team has.
-/

namespace Sys2Proof.Machine.State

open Sys2Proof

/-- The group of one thread at the one instruction of its clause. -/
def loneGroup : Group :=
  { id := 0, core := 0, wg := 1, pc := 0, hdr := 0, words := [0], idx := 0, members := [0], blocked := false, stalled := false
    part := [], yielding := false, passed := none, age := 0 }

/-- Workgroup 1, of the one thread 0, in a team with workgroup 2, which has not ended. -/
def lastOfTwo : State :=
  { State.reset with
    cur := some loneGroup
    threads := [(0, { Thread.start 1 0 with st := .running })]
    wgs := [(1, { noWg with id := 1, team := some 0 }), (2, { noWg with id := 2, core := 1, team := some 0 })]
    teams := [(0, { id := 0, quad := 0, launch := 0, unit := 0, wgs := [1, 2], threads := 64 })] }

/-- EXIT under the guard p7, which every thread takes part in. -/
def exitAll : G := ⟨⟨7, false⟩⟩

theorem clear_lastOfTwo : Clear lastOfTwo loneGroup (.exit exitAll) where
  cur := rfl
  distinct := by decide
  flock h := absurd h (by decide)
  moves := by decide
  kernel := by decide
  member t ht := by
    obtain rfl := List.mem_singleton.mp ht
    exact ⟨by decide, by decide, rfl, by decide, by decide⟩
  fu h := absurd h (by decide)
  clean := rfl

/-- The threads of an instruction's next state, by their workgroups. -/
def ownersAfter (i : Instr) (s : State) : List Nat :=
  match exec i s with
  | .next t => t.threads.map fun x => x.2.wg
  | _ => []

theorem ownersAfter_next {i : Instr} {s t : State} (h : exec i s = .next t) : ownersAfter i s = t.threads.map fun x => x.2.wg := by
  rw [ownersAfter, h]

/-- The thread has ended, and still stands in the list of threads. -/
theorem ownersAfter_lastOfTwo : ownersAfter (.exit exitAll) lastOfTwo = [1] := by decide +kernel

end Sys2Proof.Machine.State

namespace Sys2Proof

open Sys2Proof.Machine State

/-- Refutes O14: its clause on a workgroup whose last threads end has them gone, and R168 has a workgroup of a team keep what it
holds until every workgroup of the team has ended. -/
theorem not_threadsEnd : ¬ Obligations.ThreadsEnd := by
  intro h
  obtain ⟨-, h⟩ := h
  obtain ⟨-, -, hexit, -, -⟩ := h lastOfTwo loneGroup exitAll
  obtain ⟨-, hlast⟩ := hexit clear_lastOfTwo rfl (by decide) (by decide)
  obtain ⟨t, hexec, -, hgone⟩ := hlast (by decide) (by decide) rfl (by decide) (.inl ⟨rfl, by decide⟩)
  have howner : 1 ∈ t.threads.map fun x => x.2.wg := by
    rw [← ownersAfter_next hexec, ownersAfter_lastOfTwo]
    exact List.mem_singleton.mpr rfl
  obtain ⟨x, hx, hwg⟩ := List.mem_map.mp howner
  exact hgone x hx hwg

end Sys2Proof
end

section
/-!
PROOFS. How a thread leaves its groups and parks (14 R383, R385, R386), and the traps of BKPT and TRAP (10 R296).
-/

namespace Sys2Proof.Machine.State

open Sys2Proof

/-! ### A thread out of its groups -/

theorem mem_drop {g h : Group} {t q : Nat} (e : Group.drop g t = some h) : q ∈ h.members ↔ q ∈ g.members ∧ q ≠ t := by
  unfold Group.drop at e
  dsimp only at e
  split at e
  · cases e
  · cases e
    simp

/-- A member that stays keeps the group at its place. -/
theorem drop_stays {g : Group} {t q : Nat} (hq : q ∈ g.members) (hne : q ≠ t) :
    Group.drop g t = some { g with members := g.members.filter (· ≠ t) } :=
  if_neg (List.ne_nil_of_mem (List.mem_filter.mpr ⟨hq, decide_eq_true hne⟩))

theorem cur_leaveGroups (s : State) (t : Nat) : (s.leaveGroups t).cur = (s.curWithout t).cur := by
  have h := congrArg State.cur
    (foldl_clearFu_rest ((s.curWithout t).groups.filter fun g => g.members = [t]) (s.curWithout t))
  rw [leaveGroups_eq]
  exact h

theorem groups_leaveGroups (s : State) (t : Nat) :
    (s.leaveGroups t).groups = s.groups.filterMap fun g => if g.members.contains t then Group.drop g t else some g := by
  have h := congrArg State.groups
    (foldl_clearFu_rest ((s.curWithout t).groups.filter fun g => g.members = [t]) (s.curWithout t))
  have h2 := congrArg State.groups (curWithout_rest s t)
  have hg := congrArg (fun l : List Group => l.filterMap fun g => if g.members.contains t then Group.drop g t else some g)
    (h.trans h2)
  rw [leaveGroups_eq]
  exact hg

/-- R201: a thread that has left its groups stands in none. -/
theorem notMem_leaveGroups (s : State) (t : Nat) :
    (∀ g, (s.leaveGroups t).cur = some g → t ∉ g.members) ∧ ∀ g ∈ (s.leaveGroups t).groups, t ∉ g.members := by
  have hdrop : ∀ {g h : Group}, Group.drop g t = some h → t ∉ h.members := fun e hm => ((mem_drop e).mp hm).2 rfl
  refine ⟨fun h hh hm => ?_, fun h hh hm => ?_⟩
  · cases hc : s.cur with
    | none =>
      rw [cur_leaveGroups, curWithout, hc] at hh
      exact absurd (hc.symm.trans hh) (by simp)
    | some g =>
      by_cases ht : t ∈ g.members
      · rw [leaveGroups_cur hc ht] at hh
        exact hdrop hh hm
      · rw [cur_leaveGroups, curWithout, hc] at hh
        simp only [List.contains_iff_mem, ht, if_false] at hh
        rw [hc] at hh
        exact ht (Option.some.inj hh ▸ hm)
  · rw [groups_leaveGroups, List.mem_filterMap] at hh
    obtain ⟨g, -, e⟩ := hh
    split at e
    · exact hdrop e hm
    · rename_i hn
      exact hn (List.contains_iff_mem.mpr (Option.some.inj e ▸ hm))

theorem mem_leaveGroups (s : State) (t : Nat) : (s.leaveGroups t).mem = s.mem := by
  have h := congrArg State.mem (leaveGroups_rest s t)
  exact h

/-! ### A workgroup that a breakpoint halts (R401) -/

/-- What halting a workgroup leaves: of threads all but their waits, of workgroups all but that one is halted, and all the
rest. -/
structure Halted (s u : State) : Prop where
  rest : { u with threads := s.threads, wgs := s.wgs } = s
  thread : ∀ q, ∃ w, u.thread q = { s.thread q with wait := w }
  has : ∀ q, u.hasThread q = s.hasThread q
  wg : ∀ w, ∃ h, u.wg w = { s.wg w with halted := h }

theorem Halted.refl (s : State) : Halted s s :=
  ⟨rfl, fun q => ⟨(s.thread q).wait, rfl⟩, fun _ => rfl, fun w => ⟨(s.wg w).halted, rfl⟩⟩

theorem thread_shiftWaits (s : State) (w : Nat) (f : Nat → Nat) (q : Nat) :
    ∃ x, (s.shiftWaits w f).thread q = { s.thread q with wait := x } := by
  simp only [thread, shiftWaits, tget_tmap]
  cases tget s.threads q with
  | none => exact ⟨none, rfl⟩
  | some y =>
    rw [Option.map_some, Option.getD_some]
    split
    · exact ⟨_, rfl⟩
    · exact ⟨y.wait, rfl⟩

theorem hasThread_shiftWaits (s : State) (w : Nat) (f : Nat → Nat) (q : Nat) :
    (s.shiftWaits w f).hasThread q = s.hasThread q := by
  simp only [hasThread, shiftWaits, tget_tmap, Option.isSome_map]

theorem halted_haltWg (s : State) (w : Nat) : Halted s (s.haltWg w) := by
  unfold haltWg
  split
  · exact Halted.refl s
  · refine ⟨rfl, thread_shiftWaits s w _, hasThread_shiftWaits s w _, fun j => ?_⟩
    rw [modWg, wg_setWg]
    split
    · rename_i e
      exact ⟨true, e ▸ rfl⟩
    · exact ⟨(s.wg j).halted, rfl⟩

/-! ### Taking a trap -/

/-- R383: a thread parked with its record. -/
def park (r : TrapRec) (x : Thread) : Thread :=
  { x with st := .parked, trapped := true, trap := r, wait := none, carry := none, met := none, retry := none, tlbi := none
           pc := r.tpc, idx := r.tidx.toNat % 16, stallFrom := none, fullFrom := none }

/-- A thread out of its groups and parked. -/
def parkedAt (s : State) (t : Nat) (r : TrapRec) : State := (s.leaveGroups t).modThread t (park r)

/-- A kernel thread that is there and traps with no poison. -/
structure Traps (s : State) (t : Nat) (r : TrapRec) : Prop where
  kernel : isCp t = false
  there : s.hasThread t = true
  sound : (r.tcode.extractLsb' 0 8).toNat ≠ tcPoison

section
variable {s : State} {t : Nat} {r : TrapRec} (h : Traps s t r)
include h

theorem trapWith_inHandler (hm : (s.thread t).handler = true) :
    s.trapWith t r = s.kill (s.ctxOf t) 3 (r.tcode.extractLsb' 0 8).toNat 7 0 r.tpc := by
  have hn : (tget s.threads t).isNone = false := by rw [← Option.not_isSome, Bool.not_eq_false']; exact h.there
  simp only [trapWith, hn, h.kernel, hm, if_neg h.sound, Bool.false_eq_true, if_false, if_true]

variable (hm : (s.thread t).handler = false)
include hm

theorem trapWith_noHandler (hh : (s.ctx (s.ctxOf t)).words.handlerPc = 0) :
    s.trapWith t r = s.kill (s.ctxOf t) 2 (r.tcode.extractLsb' 0 8).toNat 7 0 r.tpc := by
  have hn : (tget s.threads t).isNone = false := by rw [← Option.not_isSome, Bool.not_eq_false']; exact h.there
  simp only [trapWith, hn, h.kernel, hm, if_neg h.sound, if_pos hh, Bool.false_eq_true, if_false]

/-- R383: the thread parks; a breakpoint that the debugger takes also halts its workgroup. -/
theorem trapWith_parks (hh : (s.ctx (s.ctxOf t)).words.handlerPc ≠ 0) :
    s.trapWith t r = s.parkedAt t r ∨ s.trapWith t r = (s.parkedAt t r).haltWg (s.thread t).wg := by
  have hn : (tget s.threads t).isNone = false := by rw [← Option.not_isSome, Bool.not_eq_false']; exact h.there
  simp only [trapWith, hn, h.kernel, hm, if_neg h.sound, if_neg hh, Bool.false_eq_true, if_false]
  split
  · exact .inr rfl
  · exact .inl rfl

theorem trapWith_halted (hh : (s.ctx (s.ctxOf t)).words.handlerPc ≠ 0) : Halted (s.parkedAt t r) (s.trapWith t r) := by
  rcases trapWith_parks h hm hh with e | e
  · rw [e]
    exact .refl _
  · rw [e]
    exact halted_haltWg _ _

end

/-- What a thread's parking leaves: its own registers, predicates and mode, and all that another thread's trap looks at. -/
structure Parks (s u : State) (t : Nat) (r : TrapRec) : Prop where
  mem : u.mem = s.mem
  ctxs : u.ctxs = s.ctxs
  own : ∃ w, u.thread t = { park r (s.thread t) with wait := w }
  other : ∀ q, q ≠ t → ∃ w, u.thread q = { s.thread q with wait := w }
  has : ∀ q, s.hasThread q = true → u.hasThread q = true
  wg : ∀ w, ∃ h, u.wg w = { s.wg w with halted := h }
  cur : u.cur = (s.leaveGroups t).cur
  groups : u.groups = (s.leaveGroups t).groups

theorem Halted.parks {s u : State} {t : Nat} {r : TrapRec} (h : Halted (s.parkedAt t r) u) : Parks s u t r := by
  have hthread : ∀ q, (s.leaveGroups t).thread q = s.thread q := thread_of_threads (leaveGroups_threads s t)
  have hmem := congrArg State.mem h.rest
  have hctxs := congrArg State.ctxs h.rest
  have hcur := congrArg State.cur h.rest
  have hgroups := congrArg State.groups h.rest
  refine ⟨hmem.trans (mem_leaveGroups s t), hctxs.trans (leaveGroups_ctxs s t), ?_, fun q hq => ?_, fun q hq => ?_, fun w => ?_,
    hcur, hgroups⟩
  · obtain ⟨w, e⟩ := h.thread t
    exact ⟨w, by rw [e, parkedAt, thread_modThread, hthread]⟩
  · obtain ⟨w, e⟩ := h.thread q
    exact ⟨w, by rw [e, parkedAt, modThread, thread_setThread, if_neg hq, hthread]⟩
  · rw [h.has, parkedAt, modThread, hasThread, setThread_threads, tget_tput, leaveGroups_threads]
    split
    · rfl
    · exact hq
  · have e := h.wg w
    have hw : (s.parkedAt t r).wg w = s.wg w := wg_of_wgs (leaveGroups_wgs s t) w
    rwa [hw] at e

theorem trapWith_parked {s : State} {t : Nat} {r : TrapRec} (h : Traps s t r) (hm : (s.thread t).handler = false)
    (hh : (s.ctx (s.ctxOf t)).words.handlerPc ≠ 0) : Parks s (s.trapWith t r) t r :=
  (trapWith_halted h hm hh).parks

/-! ### The threads of a group trap in turn (R296) -/

/-- A member of the current group, at the place of `g`, whose trap parks it. -/
structure MayTrapAt (s : State) (g : Group) (t : Nat) : Prop where
  kernel : isCp t = false
  there : s.hasThread t = true
  mode : (s.thread t).handler = false
  handled : (s.ctx (s.ctxOf t)).words.handlerPc ≠ 0
  placed : ∃ h, s.cur = some h ∧ t ∈ h.members ∧ h.pc = g.pc ∧ h.idx = g.idx

/-- A thread has parked with a record and stands in the current group no longer. -/
structure TookTrap (s : State) (t : Nat) (r : TrapRec) : Prop where
  st : (s.thread t).st = .parked
  trapped : (s.thread t).trapped = true
  trap : (s.thread t).trap = r
  gone : ∀ h, s.cur = some h → t ∉ h.members

/-- R296, R383: the record of a trap with an immediate. -/
def immRec (code : Nat) (imm : BitVec 16) (pc : W64) (idx : Nat) : TrapRec :=
  { mkRec code pc idx 0 with tcode := BitVec.ofNat 32 (code + imm.toNat * 2 ^ 16) }

theorem immRec_code {code : Nat} (hb : code < 256) (imm : BitVec 16) (pc : W64) (idx : Nat) :
    ((immRec code imm pc idx).tcode.extractLsb' 0 8).toNat = code := by
  simp only [immRec, BitVec.extractLsb'_toNat, BitVec.toNat_ofNat, Nat.shiftRight_zero]
  omega

theorem placeOf_cur {s : State} {h : Group} {t : Nat} (hc : s.cur = some h) (ht : t ∈ h.members) :
    s.placeOf t = (h.pc, h.idx) := by
  simp [placeOf, hc, ht]

section
variable {s : State} {g : Group} {t code : Nat} {imm : BitVec 16} (hb : code < 256) (hp : code ≠ tcPoison)
include hb hp

theorem trapImm_parks (h : MayTrapAt s g t) : Parks s (s.trapImm t code imm) t (immRec code imm g.pc g.idx) := by
  obtain ⟨c, hc, ht, hpc, hidx⟩ := h.placed
  have e : s.trapImm t code imm = s.trapWith t (immRec code imm g.pc g.idx) := by
    simp only [trapImm, placeOf_cur hc ht, hpc, hidx]
    rfl
  rw [e]
  exact trapWith_parked ⟨h.kernel, h.there, by rwa [immRec_code hb]⟩ h.mode h.handled

omit hb hp

theorem Parks.took {u : State} {r : TrapRec} (h : Parks s u t r) : TookTrap u t r := by
  obtain ⟨w, e⟩ := h.own
  refine ⟨by rw [e]; rfl, by rw [e]; rfl, by rw [e]; rfl, fun c hc => ?_⟩
  rw [h.cur] at hc
  exact (notMem_leaveGroups s t).1 c hc

/-- The trap of one thread leaves the others to trap as they stand. -/
theorem Parks.mayTrapAt {u : State} {r : TrapRec} {q : Nat} (h : Parks s u t r) (hq : MayTrapAt s g q) (hne : q ≠ t)
    (ht : MayTrapAt s g t) : MayTrapAt u g q := by
  obtain ⟨w, e⟩ := h.other q hne
  obtain ⟨c, hc, hm, hpc, hidx⟩ := hq.placed
  obtain ⟨c', hc', hm', -⟩ := ht.placed
  obtain rfl : c' = c := Option.some.inj (hc'.symm.trans hc)
  have hctx : u.ctx (u.ctxOf q) = s.ctx (s.ctxOf q) := by
    obtain ⟨x, ew⟩ := h.wg (s.thread q).wg
    simp only [ctx, ctxOf, wgOf, e, ew, h.ctxs]
  refine ⟨hq.kernel, h.has q hq.there, by rw [e]; exact hq.mode, by rw [hctx]; exact hq.handled,
    { c' with members := c'.members.filter (· ≠ t) }, ?_, ?_, hpc, hidx⟩
  · exact h.cur.trans ((leaveGroups_cur hc hm').trans (drop_stays hm hne))
  · exact List.mem_filter.mpr ⟨hm, decide_eq_true hne⟩

theorem Parks.tookTrap {u : State} {r r' : TrapRec} {q : Nat} (h : Parks s u t r) (hq : TookTrap s q r') (hne : q ≠ t)
    (ht : MayTrapAt s g t) : TookTrap u q r' := by
  obtain ⟨w, e⟩ := h.other q hne
  obtain ⟨c, hc, hm, -⟩ := ht.placed
  refine ⟨by rw [e]; exact hq.st, by rw [e]; exact hq.trapped, by rw [e]; exact hq.trap, fun c' hc' hm' => ?_⟩
  rw [h.cur, leaveGroups_cur hc hm] at hc'
  exact hq.gone c hc ((mem_drop hc').mp hm').1

end

/-- Threads of one group that trap in turn have each parked at the group's place, and memory stands. -/
theorem foldl_trapImm {g : Group} {code : Nat} {imm : BitVec 16} (hb : code < 256) (hp : code ≠ tcPoison) :
    ∀ (l : List Nat) (s : State), l.Nodup → (∀ t ∈ l, MayTrapAt s g t) →
      let r := immRec code imm g.pc g.idx
      let u := l.foldl (fun s t => s.trapImm t code imm) s
      u.mem = s.mem ∧ (∀ t ∈ l, TookTrap u t r) ∧ ∀ q, q ∉ l → TookTrap s q r → TookTrap u q r
  | [], s, _, _ => ⟨rfl, fun _ h => absurd h List.not_mem_nil, fun _ _ h => h⟩
  | t :: l, s, hn, h => by
    obtain ⟨htl, hn⟩ := List.nodup_cons.mp hn
    have ht := h t (List.mem_cons_self ..)
    have hpark := trapImm_parks (imm := imm) hb hp ht
    obtain ⟨hmem, hall, hkeep⟩ := foldl_trapImm (imm := imm) hb hp l (s.trapImm t code imm) hn fun q hq =>
      hpark.mayTrapAt (h q (List.mem_cons_of_mem _ hq)) (fun e => htl (e ▸ hq)) ht
    refine ⟨hmem.trans hpark.mem, fun q hq => ?_, fun q hq hs => ?_⟩
    · rcases List.mem_cons.mp hq with rfl | hq
      · exact hkeep q htl hpark.took
      · exact hall q hq
    · obtain ⟨hne, hql⟩ := List.ne_and_not_mem_of_not_mem_cons hq
      exact hkeep q hql (hpark.tookTrap hs hne ht)

end Sys2Proof.Machine.State

namespace Sys2Proof

open Sys2Proof.Machine State

theorem trapParks : TrapParks := by
  intro s t r hk ht code h u hcode
  have htraps : Traps s t r := ⟨hk, ht, hcode⟩
  refine ⟨fun hm => trapWith_inHandler htraps hm, fun hm hh => trapWith_noHandler htraps hm hh, fun hm hh => ?_⟩
  have hp : Parks s u t r := trapWith_parked htraps hm hh
  obtain ⟨w, e⟩ := hp.own
  obtain ⟨hcur, hgroups⟩ := notMem_leaveGroups s t
  refine ⟨by rw [e]; rfl, by rw [e]; rfl, by rw [e]; rfl, by rw [e]; exact hm, by rw [e]; rfl, by rw [e]; rfl, hp.mem,
    fun g hg => hcur g (hp.cur ▸ hg), fun g hg => hgroups g (hp.groups ▸ hg)⟩

/-- An instruction whose participants each trap with its immediate, and then goes on. -/
theorem softwareTrap_parks {s : State} {g : Group} {i : Instr} {code : Nat} {imm : BitVec 16} (hb : code < 256)
    (hp : code ≠ tcPoison) (h : Clear s g i)
    (hx : exec i s = .next (s.issue i fun _ ps s => (ps.foldl (fun s t => s.trapImm t code imm) s).advance))
    (ht : ∀ p ∈ s.participants g i, s.hasThread p = true ∧ (s.thread p).handler = false ∧
      (s.ctx (s.ctxOf p)).words.handlerPc ≠ 0) :
    ∃ t, exec i s = .next t ∧ t.mem = s.mem ∧ ∀ p ∈ s.participants g i, (t.thread p).st = .parked ∧
      (t.thread p).trapped = true ∧ (t.thread p).trap = immRec code imm g.pc g.idx := by
  obtain ⟨hmem, hall, -⟩ := foldl_trapImm (g := g) (imm := imm) hb hp (s.participants g i) s
    (participants_nodup i h.distinct) fun p hm => by
      obtain ⟨hthere, hmode, hhandled⟩ := ht p hm
      have hg := participants_sub hm
      exact ⟨h.kernel p hg, hthere, hmode, hhandled, g, h.cur, hg, rfl, rfl⟩
  refine ⟨_, by rw [hx, issue_clear h], (placeOnly_advance _).mem.trans hmem, fun p hm => ?_⟩
  obtain ⟨hst, htrapped, htrap, hgone⟩ := hall p hm
  rw [thread_advance_out hgone]
  exact ⟨hst, htrapped, htrap⟩

theorem softwareTraps : SoftwareTraps := by
  rintro s g i code imm ⟨x, rfl, ⟨rfl, rfl⟩ | ⟨rfl, rfl⟩⟩ h ht
  · exact softwareTrap_parks (by decide) (by decide) h rfl ht
  · exact softwareTrap_parks (by decide) (by decide) h rfl ht

/-- Settles O15: a trap kills or parks, and the participants of BKPT and TRAP park one after another. -/
theorem trapEntry : Obligations.TrapEntry := ⟨trapParks, softwareTraps⟩

end Sys2Proof
end

section
/-!
PROOFS. Barrier registers (10 R289 to R293): a barrier instruction once its register is resident, and what an arrival and the
end of a phase bring about.
-/

namespace Sys2Proof.Machine.State

open Sys2Proof

/-! ### Barrier instructions -/

theorem withBar_resident {s u : State} {bar : Bar} {ps : List Nat} {p : Nat} (hp : ps.head? = some p)
    (hu : s.needBar (s.barKey p bar) = some u) : s.withBar bar ps = u := by
  obtain ⟨rest, rfl⟩ := List.head?_eq_some_iff.mp hp
  simp only [withBar, hu]

theorem barCompletes_of {s : State} {g : Group} {i : Instr} {bar : Bar} {act : List Nat → State → Nat → Nat → State}
    {body : List Nat → State → State → Nat → Nat → State}
    (hx : exec i s = .next (s.issue i fun g ps r => barBody bar (body ps r) g ps r)) (hbody : ∀ ps, body ps s = act ps) :
    BarCompletes s g i bar act := by
  refine ⟨fun hn => completes_of hx ?_, fun p u hp hu => completes_of hx ?_⟩
  · rw [hn]
    rfl
  · rw [barBody, withBar_resident hp hu, hbody]

/-! ### Phases (R289, R290, R292) -/

section
variable (s : State) (t k : Nat)

theorem settlePhase_eq : s.settlePhase k =
    if 0 < (s.bar k).count ∧ (s.bar k).count ≤ (s.bar k).n ∧ (s.bar k).sig = false then s.nextPhase k else s := rfl

/-- R290: one more arrival, and the phase completes where that is the last it counts. -/
theorem arrive_eq : s.arrive k =
    let u := s.setBar k { s.bar k with n := (s.bar k).n + 1 }
    if 0 < (s.bar k).count ∧ (s.bar k).count ≤ (s.bar k).n + 1 ∧ (s.bar k).sig = false then u.nextPhase k else u := by
  rw [arrive, settlePhase_eq, bar_setBar]

theorem mem_threads_of_wait {w : Wait} (h : (s.thread t).wait = some w) : ∃ x ∈ s.threads, x.2.wait = some w := by
  rw [thread] at h
  cases hx : tget s.threads t with
  | none => rw [hx] at h; exact absurd h (by simp [Thread.start])
  | some x => rw [hx] at h; exact ⟨(t, x), mem_of_tget hx, h⟩

/-- A thread that waits on no phase of a register does not hear of its phases. -/
theorem wakePhase_other (h : ∀ y p, (s.thread t).wait = some y → y.kind ≠ .phase k p) : s.wakePhase k t = s := by
  unfold wakePhase
  split
  · rename_i w hw
    split
    · rename_i k' p hk
      have hne : k' ≠ k := fun e => h w p hw (e ▸ hk)
      simp [hne]
    · rfl
  · rfl

theorem nextPhase_unheard (h : ∀ x ∈ s.threads, ∀ y p, x.2.wait = some y → y.kind ≠ .phase k p) :
    s.nextPhase k = s.setBar k { s.bar k with
      p := (s.bar k).p + 1, n := 0, sig := false, signers := [], held := [], err := (s.bar k).cur, cur := none } := by
  refine foldl_same _ _ _ fun t _ => wakePhase_other _ t k fun y p hw => ?_
  obtain ⟨x, hx, hxw⟩ := mem_threads_of_wait s t hw
  exact h x hx y p hxw

variable {s t k}

theorem phasePassed_iff {b : BarSt} {p : W32} : phasePassed b p = true ↔ 1 ≤ (b.p - p).toNat ∧ (b.p - p).toNat < 2 ^ 31 := by
  simp [phasePassed]

/-- A phase that has completed without an error, or is not the last one that has. -/
theorem endPhase_sound {p : W32} (h : (s.bar k).p ≠ p + 1 ∨ (s.bar k).err = none) : s.endPhase t k p = s.endWait t 0 := by
  have hn : (if (s.bar k).p = p + 1 then (s.bar k).err else none) = none := by
    rcases h with h | h
    · exact if_neg h
    · rw [h, ite_self]
  simp only [endPhase, hn]

theorem endPhase_failed {p : W32} {r : DefErr} (hp : (s.bar k).p = p + 1) (hr : (s.bar k).err = some r) :
    s.endPhase t k p = (s.dropWait t).trapWith t (errRec r (s.placeOf t).1 (s.placeOf t).2 false) := by
  simp only [endPhase, if_pos hp, hr]

section
variable {w : Wait} {p : W32} (hw : (s.thread t).wait = some w) (hk : w.kind = .phase k p)
include hw hk

theorem wakePhase_waits (h : phasePassed (s.bar k) p = false) : s.wakePhase k t = s := by
  simp only [wakePhase, hw, hk, h, Bool.and_false, Bool.false_eq_true, if_false]

theorem wakePhase_passed (h : phasePassed (s.bar k) p = true) : s.wakePhase k t = s.endPhase t k p := by
  simp only [wakePhase, hw, hk, h, decide_true, Bool.and_self, if_true]

end

/-! ### Arrivals and waits of one thread -/

variable {d : Reg} {e : TExp}

theorem mayArrive_iff : s.mayArrive k = true ↔ 0 < (s.bar k).count ∧ ((s.bar k).sig = false ∨ (s.bar k).n = 0) := by
  cases h : (s.bar k).sig <;> simp [mayArrive, h]

theorem baraOne_arrives (h : s.mayArrive k = true) : baraOne s t k d = (s.wrD t d 1 (s.bar k).p.toNat).arrive k := if_pos h

theorem baraOne_refused (h : s.mayArrive k = false) : baraOne s t k d = s.wrD t d 1 (2 ^ 32 - 1) := if_neg (by simp [h])

theorem barawOne_arrives (h : s.mayArrive k = true) : barawOne s t k d e = (s.arrive k).waitPhase t k (s.bar k).p d e := if_pos h

theorem barawOne_refused (h : s.mayArrive k = false) : barawOne s t k d e = s.status t d 2 := if_neg (by simp [h])

theorem waitPhase_ahead {p : W32} (h : phasePassed (s.bar k) p = false) :
    s.waitPhase t k p d e = if e = 0 then s.status t d 1 else s.startWait t (.phase k p) d e := by
  simp only [waitPhase, h, Bool.false_eq_true, if_false, Fin.ext_iff]
  rfl

theorem waitPhase_passed {p : W32} (h : phasePassed (s.bar k) p = true) (he : (s.bar k).p ≠ p + 1 ∨ (s.bar k).err = none) :
    s.waitPhase t k p d e = (s.startWait t (.phase k p) d 15).endWait t 0 := by
  rw [waitPhase, if_pos h]
  exact endPhase_sound he

theorem wait_startWait (s : State) (t : Nat) (kind : WaitKind) (d : Reg) (e : TExp) :
    ∃ w, ((s.startWait t kind d e).thread t).wait = some w ∧ w.kind = kind ∧ w.d = d := by
  rw [startWait, thread_modThread]
  exact ⟨_, rfl, rfl, rfl⟩

/-- R292: a wait on a phase that has passed without an error is over at once, with status 0. -/
theorem waitPhase_over {p : W32} (h : phasePassed (s.bar k) p = true) (he : (s.bar k).p ≠ p + 1 ∨ (s.bar k).err = none) :
    let u := s.waitPhase t k p d e
    (u.thread t).wait = none ∧ u.mem = s.mem ∧ (d ≠ .zero → d.fits 1 → u.rdN t d 1 = 0) := by
  obtain ⟨w, hw, -, rfl⟩ := wait_startWait s t (.phase k p) d 15
  intro u
  have hu : u = (s.startWait t (.phase k p) w.d 15).endWait t 0 := waitPhase_passed h he
  rw [hu]
  exact ⟨(thread_endWait _ t hw 0).1, (threadsOnly_endWait _ t 0).mem, fun hd hf => rdN_endWait hw hd hf 0⟩

end

end Sys2Proof.Machine.State

namespace Sys2Proof

open Sys2Proof.Machine State

theorem barriersAct : BarriersAct := by
  intro s g
  exact ⟨fun x => barCompletes_of rfl fun _ => rfl, fun x => barCompletes_of rfl fun _ => rfl,
    fun x => barCompletes_of rfl fun _ => rfl, fun x => barCompletes_of rfl fun _ => rfl,
    fun x => barCompletes_of rfl fun _ => rfl, fun x => barCompletes_of rfl fun _ => rfl⟩

theorem barrierArrivals : BarrierArrivals := by
  intro s t k d e b next
  refine ⟨fun h => ?_, fun hc hn hs => ?_, rfl, nextPhase_unheard s k, fun y p hw hk => ⟨fun h => ?_, fun h1 h2 => ⟨fun he => ?_,
    fun r hp hr => ?_⟩⟩, fun h => ?_, fun hc h => ?_, fun p h => ?_, fun p h1 h2 he => ?_⟩
  · rw [arrive_eq]
    exact if_neg h
  · rw [arrive_eq]
    exact if_pos ⟨hc, hn, hs⟩
  · exact wakePhase_waits hw hk (Bool.eq_false_iff.mpr fun hp => h (phasePassed_iff.mp hp))
  · rw [wakePhase_passed hw hk (phasePassed_iff.mpr ⟨h1, h2⟩), endPhase_sound he]
  · rw [wakePhase_passed hw hk (phasePassed_iff.mpr ⟨h1, h2⟩), endPhase_failed hp hr]
  · have hm : s.mayArrive k = false := by
      refine Bool.eq_false_iff.mpr fun hm => ?_
      obtain ⟨hc, hs⟩ := mayArrive_iff.mp hm
      rcases h with h | ⟨hsig, hn⟩
      · exact absurd h (Nat.ne_of_gt hc)
      · rcases hs with hs | hs
        · exact absurd (hsig.symm.trans hs) (by decide)
        · exact absurd hs (Nat.ne_of_gt hn)
    exact ⟨baraOne_refused hm, barawOne_refused hm⟩
  · have hm : s.mayArrive k = true := mayArrive_iff.mpr ⟨hc, h⟩
    exact ⟨baraOne_arrives hm, barawOne_arrives hm⟩
  · refine waitPhase_ahead (Bool.eq_false_iff.mpr fun hp => ?_)
    obtain ⟨h1, h2⟩ := phasePassed_iff.mp hp
    rcases h with h | h
    · exact absurd (congrArg BitVec.toNat h) (Nat.ne_of_gt h1)
    · exact absurd h2 (Nat.not_lt.mpr h)
  · exact waitPhase_over (phasePassed_iff.mpr ⟨h1, h2⟩) he

/-- Settles O17: each participant acts on its resident register, and a phase ends with its last arrival. -/
theorem barrierInstructions : Obligations.BarrierInstructions := ⟨barriersAct, barrierArrivals⟩

end Sys2Proof
end

section
/-!
PROOFS. The release of LNCH and FRDN (10 R201, R269; 11 R313, R316): a participant whose release is not over blocks its group, which
holds it until the release is.
-/

namespace Sys2Proof.Machine.State

open Sys2Proof

/-- Thread 0 of `loneGroup` runs, and its load has not come back. -/
def loadOut : State :=
  { State.reset with
    cur := some loneGroup
    threads := [(0, { Thread.start 1 0 with st := .running })]
    wgs := [(1, { noWg with id := 1 })]
    accs := [{ Access.blank 0 0 with tids := [0], op := .load .b32 }] }

theorem loadOut_waits : loadOut.releaseWaits 0 .pkg = true := by decide

/-- R201, R269: the group of a participant whose release is not over is blocked. -/
theorem frdnOne_waits {s : State} {t : Nat} (h : s.releaseWaits t .pkg = true) : frdnOne s t = ((s.sendOwn t).blockHeld, false) :=
  if_pos h

theorem loadOut_blocked : ((loadOut.sendOwn 0).blockHeld.thread 0).st = .blocked := by decide +kernel

theorem loadOut_running : ((loadOut.sendOwn 0).thread 0).st = .running := by decide +kernel

end Sys2Proof.Machine.State

namespace Sys2Proof

open Sys2Proof.Machine State

/-- Refutes O28: its clause on a release that is not over has FRDN only send its thread's stores, where FRDN also blocks the group
(R201, R269), as `loadOut` shows. -/
theorem not_launchInstructions : ¬ Obligations.LaunchInstructions := by
  intro h
  obtain ⟨-, -, -, -, -, -, hwaits, -⟩ := h loadOut loneGroup
  obtain ⟨hfrdn, -⟩ := hwaits 0 loadOut_waits
  have hstate : (loadOut.sendOwn 0).blockHeld = loadOut.sendOwn 0 := congrArg Prod.fst ((frdnOne_waits loadOut_waits).symm.trans hfrdn)
  have hst := loadOut_blocked
  rw [hstate, loadOut_running] at hst
  exact absurd hst (by decide)

end Sys2Proof
end

section
/-!
PROOFS. TLBI (13 R364): the fence of its participants, the drop, and what it then waits for.
-/

namespace Sys2Proof.Machine.State

open Sys2Proof

/-- The release of each participant of a TLBI is over, and no thread of them stands in it any more. -/
def tlbiEnded (s : State) (ps : List Nat) : State :=
  ps.foldl (fun (v : State) t => (v.releaseDone (some .pkg) t).modThread t fun x => { x with tlbi := none }) s

section
variable {named : State → Nat → Nat → Nat → Nat → Bool} {g : Group} {s : State} {ps : List Nat} {p : Nat}

/-- R364: one that has dropped its entries goes on once nothing that used them is still going. -/
theorem tlbiBody_dropped {l : List Nat} (hp : ps.head? = some p) (hl : (s.thread p).tlbi = some (some l)) (hg : s.stillGoing l = false) :
    tlbiBody named g ps s = (s.tlbiEnded ps).advance := by
  obtain ⟨rest, rfl⟩ : ∃ rest, ps = p :: rest := List.head?_eq_some_iff.mp hp
  simp only [tlbiBody, hl, hg, Bool.false_eq_true, if_false]
  rfl

/-- R364: one whose release is over drops its entries, and goes on if nothing that used them is still going. -/
theorem tlbiBody_drops {gone : TlbEnt → Bool} {u : State} (hu : s.sendAllOwn ps = u)
    (hgone : gone = fun e => ps.any fun t => named u t e.ctx e.va e.size)
    (hl : ∀ p, ps.head? = some p → (s.thread p).tlbi = none ∨ (s.thread p).tlbi = some none) (hne : ps ≠ [])
    (hr : ∀ p ∈ ps, u.releaseWaits p .pkg = false)
    (hg : (u.dropTlb fun e => !gone e).stillGoing
      (u.translatedBy gone fun c a => ps.any fun t => named s t c (a.toNat % 2 ^ 56) 1) = false) :
    tlbiBody named g ps s = ((u.dropTlb fun e => !gone e).tlbiEnded ps).advance := by
  subst hu hgone
  obtain ⟨p, rest, rfl⟩ := List.exists_cons_of_ne_nil hne
  have hfree : ((p :: rest).any fun t => (s.sendAllOwn (p :: rest)).releaseWaits t .pkg) = false := by
    simpa [List.any_eq_false] using hr
  rcases hl p rfl with h | h <;>
    simp only [tlbiBody, h, hfree, hg, Bool.false_eq_true, if_false] <;> rfl

end

/-- R364: each core keeps what is not named. -/
theorem core_dropTlb (s : State) (keep : TlbEnt → Bool) (c : Nat) : ((s.dropTlb keep).core c).tlb = (s.core c).tlb.filter keep := by
  simp only [core, dropTlb, tget_tmap]
  cases tget s.cores c <;> rfl

/-- R364: so does each quad. -/
theorem quad_dropTlb (s : State) (keep : TlbEnt → Bool) (q : Nat) : ((s.dropTlb keep).quad q).tlb = (s.quad q).tlb.filter keep := by
  simp only [quad, dropTlb, tget_tmap]
  cases tget s.quads q <;> rfl

end Sys2Proof.Machine.State

namespace Sys2Proof

open Sys2Proof.Machine State

/-- Settles O31: the three ways through a TLBI that is not held, and what a drop leaves in a buffer. -/
theorem translationInvalidation : Obligations.TranslationInvalidation := by
  intro s g i named hi ps u gone dropped used
  have hx : exec i s = .next (s.issue i (tlbiBody named)) := by
    split at hi
    · rw [hi]; rfl
    · rw [hi]; rfl
    · rw [hi]; rfl
    · exact hi.elim
  refine ⟨fun hps => ?none, fun p l hp hl hg => ?waited, fun hl hne hr hg => ?drops,
    fun keep c => ⟨core_dropTlb s keep c, quad_dropTlb s keep c, rfl⟩⟩
  case none => exact completes_of hx (by rw [show s.participants g i = [] from hps]; rfl)
  case waited => exact completes_of hx (tlbiBody_dropped hp hl hg)
  case drops => exact completes_of hx (tlbiBody_drops rfl rfl hl hne hr hg)

end Sys2Proof
end

section
/-!
PROOFS. CRYP (13 R379, R380): an instruction of a management run by its one thread, and what a form leaves of the run's transcript and
attachment.
-/

namespace Sys2Proof.Machine.State

open Sys2Proof

/-! ### The run of a queue program's thread -/

section
variable {s u : State} {t : Nat} {q : Run}

theorem runOf_modRun (h : s.runOf t = some q) (f : Run → Run) : (s.modRun t f).runOf t = some (f q) := by
  simp only [modRun, h]
  exact tget_tput_same ..

theorem runOf_of_threadsOnly (h : ThreadsOnly s u) (t : Nat) : u.runOf t = s.runOf t := by
  rw [runOf, runOf, ← h]

theorem runOf_status (d : Reg) (k : Nat) : (s.status t d k).runOf t = s.runOf t :=
  runOf_of_threadsOnly (threadsOnly_status s t d k) t

end

/-! ### The attachment (R380) -/

section
variable {u : State} {t : Nat} {q : Run} (hq : u.runOf t = some q) {bs : List Byte}
include hq

theorem appendAttach_full (h : attachMax < q.attach.length + bs.length) (d : Reg) (extend : Bool) :
    u.appendAttach t d bs extend = u.status t d 1 := by
  simp only [appendAttach, hq, if_pos h]

theorem runOf_appendAttach (h : q.attach.length + bs.length ≤ attachMax) (d : Reg) (extend : Bool) :
    (u.appendAttach t d bs extend).runOf t = some { q with
      attach := q.attach ++ bs, transcript := if extend then q.transcript ++ bs else q.transcript } := by
  simp only [appendAttach, hq, if_neg (Nat.not_lt.mpr h), runOf_status, runOf_modRun hq]

end

/-! ### A span of the window (R380) -/

section
variable {c : State} {t : Nat} {x : DAB}

theorem crypSpan_long (h : attachMax < (c.rd t x.b).toNat) (emit : Bool) : c.crypSpan x emit t = some (c.status t x.d 2) :=
  if_pos h

theorem crypSpan_read {bs : List Byte} {u : State} (hn : (c.rd t x.b).toNat ≤ attachMax)
    (h : c.readWindow t (c.rd64 t x.a) (c.rd t x.b).toNat = .ok bs u) (emit : Bool) :
    c.crypSpan x emit t = some (if emit then u.appendAttach t x.d bs true
      else (u.modRun t fun r => { r with transcript := r.transcript ++ bs }).status t x.d 0) := by
  simp only [crypSpan, if_neg (Nat.not_lt.mpr hn), h]

end

/-- A management instruction whose one thread can act is over. -/
theorem exec_cryp {s u : State} {g : Group} {i : Instr} {t : Nat} {r : Run} {f : State → Nat → Option State}
    (hx : exec i s = .next (s.issue i (crypBody f))) (hu : f (counted s g t r) t = some u) (h : ClearRun s g i t r)
    (hps : s.participants g i = [t]) : exec i s = .next u.advance := by
  rw [hx, issue_clearRun h, hps]
  simp only [crypBody, hu]

end Sys2Proof.Machine.State

namespace Sys2Proof

open Sys2Proof.Machine State

/-- Settles O34: each form is `crypBody` of one function of the run's thread, and those functions are what the statement lists. -/
theorem securityInstructions : Obligations.SecurityInstructions := by
  intro s g t r c ok
  refine ⟨fun x => ⟨fun u hu => exec_cryp rfl hu, fun u hu => exec_cryp rfl hu, crypSpan_long (c := c), fun bs u hn hr => ?read, ?cert⟩,
    fun x => exec_cryp rfl rfl, fun x => ⟨exec_cryp rfl rfl, ?sign, exec_cryp rfl rfl, exec_cryp rfl rfl, exec_cryp rfl rfl⟩,
    fun u d bs extend q hq => ⟨fun h => appendAttach_full hq h d extend, fun h => runOf_appendAttach hq h d extend⟩⟩
  case read => exact ⟨crypSpan_read (c := c) hn hr false, crypSpan_read (c := c) hn hr true⟩
  case cert =>
    refine exec_cryp rfl ?_
    simp only [Bool.or_eq_true, decide_eq_true_eq]
    rfl
  case sign =>
    refine exec_cryp rfl ?_
    cases h : c.runOf t <;> rfl

end Sys2Proof
end

section
/-!
PROOFS. MIGR (14 R404, R405): the status of a step by the table of R405, and one participant's instruction, of a kernel or of a queue
program.
-/

namespace Sys2Proof.Machine.State

open Sys2Proof

/-! ### The table of R405 -/

/-- R405: a step that may follow the last one of a session, by the table's rows for a session in no step. -/
def mayFollow (last : Option MStep) : MStep → Bool
  | .open | .land => false
  | .round | .stop => last = some .open || last = some .round
  | .abort => last = some .open || last = some .round || last = some .stop
  | .close => last = some .stop

section
variable {s : State} {t c : Nat}

theorem migrStatus_range (h : 256 ≤ c) (step : MStep) : s.migrStatus t c step = 2 := if_pos h

theorem migrStatus_held (hc : c < 256) (h : s.heldStep t c = true) (step : MStep) : s.migrStatus t c step = 1 := by
  simp only [migrStatus, if_neg (Nat.not_le.mpr hc), if_pos h]

variable (hc : c < 256) (hfree : s.heldStep t c = false)
include hc hfree

/-- R405: without a session, a context that runs may be opened, and one that does not may be landed. -/
theorem migrStatus_none (hn : s.sessionOf c = none) : s.migrStatus t c .open = (if s.active c then 0 else 2) ∧
    s.migrStatus t c .land = (if s.active c then 2 else 0) ∧ s.migrStatus t c .round = 2 ∧ s.migrStatus t c .stop = 2 ∧
    s.migrStatus t c .abort = 2 ∧ s.migrStatus t c .close = 2 := by
  simp only [migrStatus, if_neg (Nat.not_le.mpr hc), hfree, hn, Bool.false_eq_true, if_false, and_self]

theorem migrStatus_doing {x : Session} (hx : s.sessionOf c = some x) (hd : x.doing ≠ none) (step : MStep) :
    s.migrStatus t c step = 1 := by
  simp only [migrStatus, if_neg (Nat.not_le.mpr hc), hfree, hx, Option.isSome_iff_ne_none.mpr hd, Bool.false_eq_true, if_false, if_true]

theorem migrStatus_idle {x : Session} (hx : s.sessionOf c = some x) (hd : x.doing = none) (step : MStep) :
    s.migrStatus t c step = if mayFollow x.last step then 0 else 2 := by
  simp only [migrStatus, if_neg (Nat.not_le.mpr hc), hfree, hx, hd, Option.isSome_none, Bool.false_eq_true, if_false]
  cases step <;> cases x.last with
    | none => rfl
    | some last => cases last <;> rfl

end

/-! ### One participant (R304, R405) -/

section
variable {step : MStep} {d a : Reg} {desc : State → Nat → W64} {r s : State} {p c : Nat} (hc : (r.rd p a).toNat = c)
include hc

theorem migrOne_refused (h : s.migrStatus p c step ≠ 0) :
    migrOne step d a desc [p] r s p = s.wrD p d 1 (s.migrStatus p c step) := by
  simp only [migrOne, hc, if_pos h, statusReg_lone]

theorem migrOne_kernel (h : s.migrStatus p c step = 0) (hk : isCp p = false) :
    migrOne step d a desc [p] r s p = (s.beginStep c (s.ctxOf p) step (desc r p)).wrD p d 1 0 := by
  simp only [migrOne, hc, h, hk, statusReg_lone, ne_eq, not_true_eq_false, Bool.false_eq_true, if_false]

theorem migrOne_run (h : s.migrStatus p c step = 0) (hk : isCp p = true) : migrOne step d a desc [p] r s p =
    (s.modRun p fun y => { y with held := y.held ++ [.migr c step (desc r p)] }).wrD p d 1 0 := by
  simp only [migrOne, hc, h, hk, statusReg_lone, ne_eq, not_true_eq_false, if_false, if_true]

end

/-- The three outcomes of a step by one participant: begun by a kernel, refused, or held by a run. -/
theorem migr_begins {s : State} {g : Group} {i : Instr} {step : MStep} {d a : Reg} (desc : State → Nat → W64) {p c : Nat}
    (hx : exec i s = .next (s.issue i (migrBody step d a desc))) (hc : (s.rd p a).toNat = c) :
    (Clear s g i → s.participants g i = [p] → s.migrStatus p c step = 0 →
      exec i s = .next ((s.beginStep c (s.ctxOf p) step (desc s p)).wrD p d 1 0).advance) ∧
    (Clear s g i → s.participants g i = [p] → s.migrStatus p c step ≠ 0 →
      exec i s = .next (s.wrD p d 1 (s.migrStatus p c step)).advance) ∧
    (∀ r, ClearRun s g i p r → s.participants g i = [p] → (counted s g p r).migrStatus p c step = 0 →
      exec i s = .next (((counted s g p r).modRun p fun y =>
        { y with held := y.held ++ [.migr c step (desc (counted s g p r) p)] }).wrD p d 1 0).advance) := by
  refine ⟨fun h hps h0 => ?kernel, fun h hps h0 => ?refused, fun r h hps h0 => ?run⟩
  case kernel =>
    have hk : isCp p = false := h.kernel p (participants_sub (hps ▸ List.mem_singleton_self p))
    rw [hx, issue_clear h, hps, migrBody, List.foldl_cons, List.foldl_nil, migrOne_kernel hc h0 hk]
  case refused => rw [hx, issue_clear h, hps, migrBody, List.foldl_cons, List.foldl_nil, migrOne_refused hc h0]
  case run =>
    have hcount : ((counted s g p r).rd p a).toNat = c := hc
    rw [hx, issue_clearRun h, hps, migrBody, List.foldl_cons, List.foldl_nil, migrOne_run hcount h0 h.isCp]

end Sys2Proof.Machine.State

namespace Sys2Proof

open Sys2Proof.Machine State

/-- Settles O35: each form is one step of `migrBody`, with the status that the table gives. -/
theorem migrationInstructions : Obligations.MigrationInstructions := by
  intro s g done
  refine ⟨fun x => ⟨completes_of rfl rfl, completes_of rfl rfl⟩,
    fun x => ⟨completes_of rfl rfl, completes_of rfl rfl, completes_of rfl rfl, completes_of rfl rfl⟩, ?begins,
    fun t c step h => migrStatus_range h step, fun t c step hc h => migrStatus_held hc h step,
    fun t c hc hfree => ⟨migrStatus_none hc hfree, fun x step hx hd => migrStatus_doing hc hfree hx hd step, fun x hx hd => ?idle⟩⟩
  case begins =>
    intro p begins
    refine ⟨fun x => ?named, fun x => ?plain⟩
    case named => exact ⟨migr_begins (fun v q => v.rd64 q x.b) rfl rfl, migr_begins (fun v q => v.rd64 q x.b) rfl rfl⟩
    case plain =>
      exact ⟨migr_begins (fun _ _ => 0) rfl rfl, migr_begins (fun _ _ => 0) rfl rfl, migr_begins (fun _ _ => 0) rfl rfl,
        migr_begins (fun _ _ => 0) rfl rfl⟩
  case idle =>
    simp only [migrStatus_idle hc hfree hx hd, mayFollow, Bool.or_eq_true, decide_eq_true_eq, or_assoc, Bool.false_eq_true, if_false,
      and_self]

end Sys2Proof
end

section
/-!
PROOFS. The package right after reset (13 R375, R378; 14 R400; 15 R413): each of its tables is empty, so that whatever is looked up in
one is what the model takes for an entry that nothing has set.
-/

namespace Sys2Proof.Machine.State

/-! ### What the empty tables give -/

theorem ctx_reset (c : Nat) : reset.ctx c = .zero := rfl
theorem tenant_reset (i : Nat) : reset.tenant i = .zero := rfl
theorem vd_reset (v : Nat) : reset.vd v = .zero := rfl
theorem range_reset (i : Nat) : reset.range i = .zero := rfl
theorem queue_reset (q : Nat) : reset.queue q = .zero := rfl
theorem quad_reset (q : Nat) : reset.quad q = .idle := rfl

theorem inv_reset : Inv reset := ⟨rfl, fun _ hx => absurd hx List.not_mem_nil⟩

/-- R382: no context is active. -/
theorem active_reset (c : Nat) : reset.active c = false := by
  rw [active, ctl, ctx_reset]
  rfl

end Sys2Proof.Machine.State

namespace Sys2Proof

open Sys2Proof.Machine State

/-- Settles O53: the fields of `State.reset` as they are listed, and what its empty tables give. -/
theorem resetState : Obligations.ResetState := by
  refine ⟨inv_reset, rfl, rfl, rfl, rfl, rfl, rfl, rfl, rfl, rfl, rfl, rfl, rfl, rfl, rfl, rfl, rfl, rfl, rfl,
    fun c => ?context, fun i => ?tenant, fun v => ?device, fun i => ?range, fun q => ?queue, fun q => ?quad⟩
  case context => rw [ctx_reset]; exact ⟨rfl, rfl, rfl, rfl, active_reset c⟩
  case tenant => rw [tenant_reset]; exact ⟨rfl, rfl, rfl⟩
  case device => rw [vd_reset]; exact ⟨rfl, rfl⟩
  case range => rw [range_reset]; rfl
  case queue => rw [queue_reset]; exact ⟨rfl, rfl⟩
  case quad => rw [quad_reset]; exact ⟨rfl, rfl, rfl, rfl⟩

end Sys2Proof
end

section
/-!
PROOFS. Entry into the handler and return from it (14 R385, R387): each parked thread of a workgroup enters once, and the participants
of an ERET leave one by one, each of them standing in the group until its own return.
-/

namespace Sys2Proof.Machine.State

open Sys2Proof

/-! ### Entry (R385) -/

/-- A thread at the start of its handler, with the record of its trap. -/
structure InHandler (h : W64) (r : TrapRec) (x : Thread) : Prop where
  handler : x.handler = true
  st : x.st = .ready
  pc : x.pc = h
  idx : x.idx = 0
  trap : x.trap = r

/-- A key of a table has a value. -/
theorem tget_of_mem_keys {α : Type} {l : Tbl α} {n : Nat} (h : n ∈ l.map (·.1)) : ∃ x, tget l n = some x := by
  induction l with
  | nil => exact absurd h List.not_mem_nil
  | cons p l ih =>
    by_cases e : p.1 = n
    · exact ⟨p.2, if_pos e⟩
    · obtain ⟨x, hx⟩ := ih ((List.mem_cons.mp h).resolve_left fun he => e he.symm)
      exact ⟨x, (if_neg e).trans hx⟩

/-- Threads enter their handler in turn, one that has entered or is still to come standing there at the end. -/
theorem foldl_entersHandler {h : W64} {r : TrapRec} {t : Nat} : ∀ (ts : List Nat) (s : State), (s.thread t).trap = r →
    t ∈ ts ∨ InHandler h r (s.thread t) → InHandler h r ((ts.foldl (fun (s : State) t => s.modThread t fun x =>
      { x with st := .ready, handler := true, pc := h, idx := 0, age := s.cyc }) s).thread t)
  | [], _, _, hin => hin.resolve_left List.not_mem_nil
  | a :: ts, s, hr, hin => by
    refine foldl_entersHandler ts _ ?_ ?_ <;> simp only [modThread, thread_setThread]
    · split
      · rename_i e
        rw [← e]
        exact hr
      · exact hr
    · by_cases e : t = a
      · rw [if_pos e, ← e]
        exact .inr ⟨rfl, rfl, rfl, rfl, hr⟩
      · rw [if_neg e]
        exact hin.imp_left fun hm => (List.mem_cons.mp hm).resolve_left e

theorem enterHandler_parked {s : State} {w t : Nat} (ht : t ∈ s.threads.map (·.1)) (hw : (s.thread t).wg = w)
    (hst : (s.thread t).st = .parked) (htrap : (s.thread t).trapped = true) (hh : (s.thread t).handler = false) :
    InHandler (clauseAddr (s.ctx (s.wg w).ctx).words.handlerPc) (s.thread t).trap ((s.enterHandler w).thread t) := by
  obtain ⟨x, hx⟩ := tget_of_mem_keys ht
  have hthread : s.thread t = x := by rw [thread, hx, Option.getD_some]
  rw [hthread] at hw hst htrap hh
  refine foldl_entersHandler _ s rfl (.inl (List.mem_map.mpr ⟨(t, x), List.mem_filter.mpr ⟨mem_of_tget hx, ?_⟩, rfl⟩))
  simp only [hw, hst, htrap, hh, decide_true, Bool.and_self, Bool.not_false]

/-! ### Return (R387) -/

theorem thread_leaveHandler (s : State) (t : Nat) (pc : W64) (i q : Nat) : (s.leaveHandler t pc i).thread q =
    if q = t then { s.thread t with
      handler := false, trapped := false, st := .ready, pc := clauseAddr pc, idx := i, age := (s.leaveGroups t).cyc }
    else s.thread q := by
  rw [leaveHandler, modThread, thread_setThread, thread_of_threads (leaveGroups_threads s t), thread_of_threads (leaveGroups_threads s t)]

theorem stands_iff {s : State} {q : Nat} : s.stands q = true ↔ ∃ g, s.cur = some g ∧ q ∈ g.members := by
  unfold stands
  cases s.cur with
  | none => simp
  | some g => simp

/-- Another member stays in the group that a thread leaves. -/
theorem stands_leaveHandler {s : State} {t q : Nat} (ht : s.stands t = true) (hq : s.stands q = true) (hne : q ≠ t) (pc : W64) (i : Nat) :
    (s.leaveHandler t pc i).stands q = true := by
  obtain ⟨g, hg, hqm⟩ := stands_iff.mp hq
  obtain ⟨g', hg', htm⟩ := stands_iff.mp ht
  obtain rfl : g' = g := Option.some.inj (hg'.symm.trans hg)
  exact stands_iff.mpr ⟨_, (leaveGroups_cur hg htm).trans (drop_stays hqm hne), List.mem_filter.mpr ⟨hqm, decide_eq_true hne⟩⟩

/-- A participant's return to the point of its own record. -/
def eretLeave (skip : Bool) (u : State) (p : Nat) : State := u.leaveHandler p (u.resumePoint p skip).1 (u.resumePoint p skip).2

/-- R387: a participant in the handler, with no access to issue again. -/
structure MayEret (s : State) (skip : Bool) (p : Nat) : Prop where
  stands : s.stands p = true
  handler : (s.thread p).handler = true
  retry : s.retryOf p skip = none

section
variable {s : State} {skip : Bool} {p q : Nat}

theorem eretOne_returns (h : MayEret s skip p) : eretOne skip s p = (s.eretLeave skip p, true) := by
  simp only [eretOne, h.handler, h.retry, Bool.not_true, Bool.false_eq_true, if_false]
  rfl

theorem MayEret.after (hq : MayEret s skip q) (hp : MayEret s skip p) (hne : q ≠ p) : MayEret (s.eretLeave skip p) skip q := by
  have hthread : (s.eretLeave skip p).thread q = s.thread q := by rw [eretLeave, thread_leaveHandler, if_neg hne]
  refine ⟨stands_leaveHandler hp.stands hq.stands hne _ _, ?_, ?_⟩
  · rw [hthread]
    exact hq.handler
  · rw [retryOf, hthread]
    exact hq.retry

end

/-- Participants that may all return do so in turn, and none is held. -/
theorem foldl_eretOne {skip : Bool} : ∀ {ps : List Nat} {s : State}, ps.Nodup → (∀ p ∈ ps, MayEret s skip p) →
    ps.foldl (fun (r : State × Bool) t => if !r.1.stands t then r else ((eretOne skip r.1 t).1, r.2 || !(eretOne skip r.1 t).2)) (s, false) =
      (ps.foldl (eretLeave skip) s, false)
  | [], _, _, _ => rfl
  | p :: ps, s, hn, h => by
    obtain ⟨hp, hn⟩ := List.nodup_cons.mp hn
    have hself := h p (List.mem_cons_self ..)
    simp only [List.foldl_cons, hself.stands, eretOne_returns hself, Bool.not_true, Bool.false_eq_true, if_false, Bool.or_self]
    exact foldl_eretOne hn fun q hq => (h q (List.mem_cons_of_mem _ hq)).after hself fun e => hp (e ▸ hq)

theorem eretBody_returns {skip : Bool} {g : Group} {ps : List Nat} {s : State} (hn : ps.Nodup) (h : ∀ p ∈ ps, MayEret s skip p) :
    eretBody skip g ps s = (ps.foldl (eretLeave skip) s).advance := by
  have hfold := foldl_eretOne hn h
  simp only [eretBody]
  rw [hfold]
  rfl

/-! ### The point of return (R387) -/

section
variable {s : State} {t : Nat}

theorem resumePoint_here {skip : Bool}
    (h : skip = false ∨ (s.thread t).trap.tcode.getLsbD 9 = true ∨ (s.thread t).trap.tcode.getLsbD 8 = true) :
    s.resumePoint t skip = (clauseAddr (s.thread t).trap.tpc, (s.thread t).trap.tidx.toNat % 16) := by
  refine if_neg ?_
  rcases h with h | h | h <;> simp [h, tcodeDef, tcodeCl]

theorem resumePoint_past {n : Nat} (hdef : (s.thread t).trap.tcode.getLsbD 9 = false) (hcl : (s.thread t).trap.tcode.getLsbD 8 = false)
    (hn : s.headerAt t (clauseAddr (s.thread t).trap.tpc) = some n) : s.resumePoint t true =
      if (s.thread t).trap.tidx.toNat % 16 = n then (clauseAddr (s.thread t).trap.tpc + BitVec.ofNat 64 (8 * (n + 2)), 0)
      else (clauseAddr (s.thread t).trap.tpc, (s.thread t).trap.tidx.toNat % 16 + 1) := by
  simp only [resumePoint, tcodeDef, tcodeCl, hdef, hcl, hn, Bool.not_false, Bool.and_self, if_true]

end

end Sys2Proof.Machine.State

namespace Sys2Proof

open Sys2Proof.Machine State

/-- Settles O16: parked threads enter, participants return in turn, and where to. -/
theorem handlerEntryAndReturn : Obligations.HandlerEntryAndReturn := by
  intro s g
  refine ⟨fun w t ht hw hst htrap hh => ?entry, fun skip x => ?eret, fun t pc i => ?leaves, fun t => ?point⟩
  case entry =>
    obtain ⟨hhandler, hready, hpc, hidx, hrec⟩ := enterHandler_parked ht hw hst htrap hh
    exact ⟨hhandler, hready, hpc, hidx, hrec⟩
  case eret =>
    intro i hret h
    have hx : exec i s = .next (s.issue i (eretBody skip)) := by cases skip <;> rfl
    refine completes_of hx (eretBody_returns (participants_nodup i h.distinct) fun p hp => ?_) h
    obtain ⟨hhandler, hretry⟩ := hret p hp
    exact ⟨stands_participants h.cur p hp, hhandler, hretry⟩
  case leaves =>
    rw [thread_leaveHandler, if_pos rfl]
    exact ⟨rfl, rfl, rfl, rfl, rfl⟩
  case point => exact ⟨resumePoint_here (.inl rfl), fun n hdef hcl hn => resumePoint_past hdef hcl hn, fun h => resumePoint_here (.inr h)⟩

end Sys2Proof
end

section
/-!
PROOFS. HALT (14 R401, R402): how an operation ends, one participant's instruction, and what halting and resuming a workgroup leave.
-/

namespace Sys2Proof.Machine.State

open Sys2Proof

/-! ### The operation (R401, R402) -/

section
variable {s : State} {op : HaltOp} {a : W32} {c w : Nat}

/-- R402: an operation that names no context, or the thread's own workgroup, has status 2. -/
theorem haltOp_refused (h : 256 ≤ c ∨ w ∈ s.namedWgs a c) : s.haltOp op a c (some w) = .done 2 s := by
  refine if_pos ?_
  rcases h with h | h <;> simp [h]

/-- A choice between two ends is an end. -/
theorem ite_done {b : Bool} {x y : HaltRes} (hx : ∃ k u, x = .done k u) (hy : ∃ k u, y = .done k u) :
    ∃ k u, (if b = true then x else y) = .done k u := by
  cases b
  · exact hy
  · exact hx

/-- R402: only .save may have to wait. -/
theorem haltOp_done (h : op ≠ .save) (own : Option Nat) : ∃ k u, s.haltOp op a c own = .done k u := by
  refine ite_done ⟨2, s, rfl⟩ ?_
  cases op with
  | halt => exact ⟨0, _, rfl⟩
  | run => exact ⟨0, _, rfl⟩
  | step => exact ite_done ⟨0, _, rfl⟩ ⟨2, _, rfl⟩
  | save => exact absurd rfl h

end

/-! ### One participant -/

theorem haltOne_done {op : HaltOp} {x : DAB} {ps : List Nat} {r s u : State} {t k : Nat} (hk : isCp t = false)
    (h : s.haltOp op (r.rd t x.a) (r.rd t x.b).toNat (some (s.thread t).wg) = .done k u) (ht : u.hasThread t = true) :
    haltOne op x ps r s t = (u.status t (statusReg x.d ps t) k, true) := by
  simp only [haltOne, hk, h, ht, Bool.false_eq_true, if_false, if_true]

theorem halt_eachCompletes {s : State} {g : Group} {op : HaltOp} {x : DAB} {i : Instr}
    (hx : exec i s = .next (s.issue i fun _ ps s => eachOwn (haltOne op x ps s) ps s)) :
    EachCompletes s g i fun ps => haltOne op x ps s := by
  intro u h hd
  rw [hx, issue_clear h]
  exact congrArg Host.Outcome.next (eachOwn_done hd)

/-- An instruction whose one participant can act is over. -/
theorem eachOwn_lone {one : State → Nat → State × Bool} {s u : State} {g : Group} {p : Nat} (hc : s.cur = some g) (hm : p ∈ g.members)
    (hp : g.part = []) (h : one s p = (u, true)) : eachOwn one [p] s = u.advance := by
  simp only [eachOwn, hc, hp, hm, h, List.contains_eq_mem, List.not_mem_nil, decide_false, decide_true, Bool.not_true, Bool.or_self,
    Bool.false_eq_true, if_false]
  exact advance_noted u p

/-- A form of HALT by its one participant. -/
theorem halt_completes {s u : State} {g : Group} {op : HaltOp} {x : DAB} {i : Instr} {p k : Nat}
    (hx : exec i s = .next (s.issue i fun _ ps s => eachOwn (haltOne op x ps s) ps s)) (hps : s.participants g i = [p])
    (hpart : g.part = []) (h : s.haltOp op (s.rd p x.a) (s.rd p x.b).toNat (some (s.thread p).wg) = .done k u)
    (ht : u.hasThread p = true) : Completes s g i (u.status p x.d k).advance := by
  intro hclear
  have hm : p ∈ g.members := participants_sub (hps ▸ List.mem_singleton_self p)
  have hone : haltOne op x [p] s s p = (u.status p x.d k, true) := by
    rw [haltOne_done (hclear.kernel p hm) h ht, statusReg_lone]
  rw [hx, issue_clear hclear, hps, eachOwn_lone hclear.cur hm hpart hone]

/-! ### A workgroup halted and resumed (R401) -/

theorem haltWg_halted (s : State) (w : Nat) : ((s.haltWg w).wg w).halted = true := by
  unfold haltWg
  split
  · assumption
  · rw [modWg, wg_setWg, if_pos rfl]

theorem resumeWg_running (s : State) (w : Nat) : ((s.resumeWg w).wg w).halted = false := by
  unfold resumeWg
  split
  · rw [modWg, wg_setWg, if_pos rfl]
  · rename_i h
    exact Bool.eq_false_iff.mpr h

theorem haltWg_mem (s : State) (w : Nat) : (s.haltWg w).mem = s.mem := by
  unfold haltWg
  split <;> rfl

/-- R401: the waits of a workgroup that is halted hold the cycles they have left. -/
theorem haltWg_waits {s : State} {w t : Nat} {y : Thread} (h : (s.wg w).halted = false) (ht : tget s.threads t = some y) (hw : y.wg = w) :
    ((s.haltWg w).thread t).wait.map (·.deadline) = y.wait.map fun x => x.deadline.map (· - s.cyc) := by
  have hthread : (s.haltWg w).thread t = ((s.shiftWaits w (· - s.cyc)).thread t) := by
    simp only [haltWg, h, Bool.false_eq_true, if_false]
    rfl
  rw [hthread, thread, shiftWaits, tget_tmap, ht, Option.map_some, Option.getD_some, if_pos hw]
  cases y.wait <;> rfl

end Sys2Proof.Machine.State

namespace Sys2Proof

open Sys2Proof.Machine State

/-- Settles O32: each form is `haltOne` of its operation by every participant, and `haltWg` keeps what a wait has left. -/
theorem halts : Obligations.Halts := by
  intro s g
  refine ⟨fun x => ⟨halt_eachCompletes rfl, halt_eachCompletes rfl, halt_eachCompletes rfl, halt_eachCompletes rfl⟩,
    fun op x ps r t k u hk h ht => haltOne_done hk h ht, fun op x i p k u hi hps hpart h ht => ?lone,
    fun op a c w => ⟨fun h => haltOp_done h _, haltOp_refused⟩,
    fun w => ⟨haltWg_halted s w, resumeWg_running s w, haltWg_mem s w, fun h t y ht hw => haltWg_waits h ht hw⟩⟩
  case lone =>
    refine halt_completes ?_ hps hpart h ht
    rw [hi]
    cases op <;> rfl

end Sys2Proof
end

section
/-!
PROOFS. QPOP and QPUSH (11 R303, R306): what the one thread of a queue program takes from its packet's body and what it holds, and the
predicate that tells.
-/

namespace Sys2Proof.Machine.State

open Sys2Proof

/-! ### The run of a queue program -/

/-- The run with one instruction more, at a group's place (R70, R303). -/
def countedRun (g : Group) (r : Run) : Run := { r with count := r.count + 1, last := some (g.pc, g.idx) }

theorem runOf_counted (s : State) (g : Group) (t : Nat) (r : Run) : (counted s g t r).runOf t = some (countedRun g r) :=
  tget_tput_same ..

/-- R303: the thread takes part in what it executes. -/
theorem participants_run {s : State} {g : Group} {i : Instr} {t : Nat} {r : Run} {e : Guard} (h : ClearRun s g i t r)
    (hi : instrGuard i = some e) (he : s.guardTrue t e = true) : s.participants g i = [t] := by
  simp only [participants, hi, h.one, List.filter_cons, he, if_true, List.filter_nil]

section
variable {s : State} (t : Nat) (f : Run → Run)

theorem modRun_rest : { s.modRun t f with runs := s.runs } = s := by
  unfold modRun
  split <;> rfl

theorem modRun_mem : (s.modRun t f).mem = s.mem := by
  have h := congrArg State.mem (modRun_rest (s := s) t f)
  exact h

theorem modRun_threads : (s.modRun t f).threads = s.threads := by
  have h := congrArg State.threads (modRun_rest (s := s) t f)
  exact h

theorem modRun_flocks : (s.modRun t f).flocks = s.flocks := by
  have h := congrArg State.flocks (modRun_rest (s := s) t f)
  exact h

end

/-- What a group's moving on leaves of the runs. -/
theorem Kept.runs {s t : State} (h : Kept s t) : t.runs = s.runs := by
  have e := congrArg State.runs h.rest
  exact e

theorem Kept.memory {s t : State} (h : Kept s t) : t.mem = s.mem := by
  have e := congrArg State.mem h.rest
  exact e

/-! ### A word held (R306) -/

/-- A predicate written and the group gone on: memory and runs as they stand, and the predicate told. -/
theorem toldAdvance (u : State) (t : Nat) (c : Pred) (b : Bool) : ((u.wrP t c b).advance).mem = u.mem ∧
    (c ≠ 7 → ((u.wrP t c b).advance).rdP t c = b) ∧ ((u.wrP t c b).advance).runOf t = u.runOf t := by
  have hsame := same_advance (u.wrP t c b)
  have hkept := (kept_wrP u t c b).trans hsame.kept
  refine ⟨Kept.memory hkept, fun hc => ?_, by rw [runOf, Kept.runs hkept, runOf]⟩
  rw [hsame.rdP, rdP_wrP]
  simp [hc]

/-- A run changed where there is room, a predicate that says whether, and the group gone on. -/
theorem pushed {c : State} {t : Nat} {q : Run} (hq : c.runOf t = some q) (room : Bool) (f : Run → Run) (p : Pred) :
    let u := (((if room then c.modRun t f else c).wrP t p room).advance)
    u.mem = c.mem ∧ (p ≠ 7 → u.rdP t p = room) ∧ u.runOf t = some (if room then f q else q) := by
  obtain ⟨hmem, htold, hrun⟩ := toldAdvance (if room then c.modRun t f else c) t p room
  refine ⟨hmem.trans ?_, htold, hrun.trans ?_⟩
  · cases room
    · rfl
    · exact modRun_mem t f
  · cases room
    · exact hq
    · exact runOf_modRun hq f

section
variable {s : State} {g : Group} {t : Nat} {r : Run}

theorem pushRep_runs (x : QpushArgs) : pushRep x (counted s g t r) t =
    (if decide (r.words.length < 29) then (counted s g t r).modRun t fun r => { r with words := r.words ++ [s.rd64 t x.a] }
      else counted s g t r).wrP t x.c (decide (r.words.length < 29)) := by
  simp only [pushRep, runOf_counted]
  rfl

theorem pushFwd_runs (x : QpushFwdArgs) {q : Nat} (hq : (s.rd t x.b).toNat = q) {room : Bool}
    (hroom : (decide (q ≤ 63) && (decide (r.fwdTo = none) || decide (r.fwdTo = some q)) && decide (r.fwd.length < 32)) = room) :
    pushFwd x (counted s g t r) t =
      (if room then (counted s g t r).modRun t fun r => { r with fwdTo := some q, fwd := r.fwd ++ [s.rd64 t x.a] }
        else counted s g t r).wrP t x.c room := by
  subst hq hroom
  simp only [pushFwd, runOf_counted]
  rfl

/-! ### A word taken (R306) -/

theorem popWord_counted : popWord (counted s g t r) t =
    if r.pos < r.packet.body.length then some (fieldAt r.packet.body r.pos 8) else none := by
  simp only [popWord, runOf_counted]
  rfl

/-- The effect of QPOP: the word, and whether there was one. -/
def popEffect (x : QpopArgs) (s : State) (_ : List Nat) (t : Nat) : Effect :=
  { Effect.reg x.d 2 ((popWord s t).getD 0) 0 with preds := [(x.c, (popWord s t).isSome)] }

/-- What QPOP does: the effect, and the run's place in the body moved on where there was a word. -/
def popBody (x : QpopArgs) (g : Group) (ps : List Nat) (s : State) : State :=
  (ps.filter fun t => (popWord s t).isSome).foldl (fun v t => v.modRun t fun r => { r with pos := r.pos + 8 }) (alu (popEffect x) g ps s)

theorem exec_qpop (x : QpopArgs) (s : State) : exec (.qpop x) s = .next (s.issue (.qpop x) (popBody x)) := rfl

theorem popped_writes (x : QpopArgs) {c : State} (hc : c.poison = []) (hf : x.d.fits 2) :
    Writes c (alu (popEffect x) g [t] c) [t] x.d 2 (fun p => (popWord c p).getD 0) (some x.c) (fun p => (popWord c p).isSome) (fun _ => 0) :=
  alu_writes (fun _ => rfl) hf hc (List.nodup_singleton t) fun _ p hp q hq => by
    rw [List.mem_singleton.mp hp, List.mem_singleton.mp hq]

/-- One participant's number stands in the register group that it is written to. -/
theorem Writes.lone {s u : State} {t k : Nat} {d : Reg} {v : Nat → Nat} {pd : Option Pred} {b : Nat → Bool} {fl : Nat → BitVec 7}
    (h : Writes s u [t] d k v pd b fl) (hd : d ≠ .zero) : u.rdN t d k = v t % 2 ^ (32 * k) := by
  have ht : t ∈ [t] := List.mem_singleton_self t
  cases d with
  | g n => exact h.g rfl t ht
  | w n => exact h.w rfl t ht t rfl
  | zero => exact absurd rfl hd

end

section
variable {s : State} {g : Group} {t : Nat} {r : Run}

/-- R306: QPOP of a run that may execute it. -/
theorem qpop_pops {x : QpopArgs} (h : ClearRun s g (.qpop x) t r) (hg : s.guardTrue t x.g = true) (hf : x.d.fits 2) :
    let had : Bool := decide (r.pos < r.packet.body.length)
    ∃ u, exec (.qpop x) s = .next u ∧ u.mem = s.mem ∧ (x.c ≠ 7 → u.rdP t x.c = had) ∧
      (x.d ≠ .zero → u.rdN t x.d 2 = if had then fieldAt r.packet.body r.pos 8 % 2 ^ 64 else 0) ∧
      u.runOf t = some { countedRun g r with pos := if had then r.pos + 8 else r.pos } := by
  have hps : s.participants g (.qpop x) = [t] := participants_run h rfl hg
  have hw := popped_writes (g := g) (t := t) x (c := counted s g t r) h.clean hf
  have hx : exec (.qpop x) s = .next (popBody x g [t] (counted s g t r)) := by rw [exec_qpop, issue_clearRun h, hps]
  rw [popBody] at hx
  generalize alu (popEffect x) g [t] (counted s g t r) = v at hw hx
  have hrun : v.runOf t = some (countedRun g r) := by rw [runOf, Kept.runs hw.kept]; exact runOf_counted s g t r
  have hmem : v.mem = s.mem := (Kept.memory hw.kept).trans rfl
  have htold : x.c ≠ 7 → v.rdP t x.c = (popWord (counted s g t r) t).isSome := fun hc => by simp [hw.preds, hc]
  have hword : x.d ≠ .zero → v.rdN t x.d 2 = (popWord (counted s g t r) t).getD 0 % 2 ^ 64 := Writes.lone hw
  rw [popWord_counted] at htold hword
  simp only [List.filter_cons, List.filter_nil, popWord_counted] at hx
  intro had
  by_cases h : r.pos < r.packet.body.length
  · rw [if_pos h] at htold hword hx
    have hyes : had = true := decide_eq_true h
    refine ⟨_, hx, (modRun_mem t _).trans hmem, fun hc => ?_, fun hd => ?_, ?_⟩
    · rw [hyes]
      exact (rdP_of_threads (modRun_threads t _) t x.c).trans (htold hc)
    · rw [hyes]
      exact (rdN_congr (rd_of_files (modRun_threads t _) (modRun_flocks t _) t) x.d 2).trans (hword hd)
    · rw [hyes]
      exact runOf_modRun hrun _
  · rw [if_neg h] at htold hword hx
    have hno : had = false := decide_eq_false h
    refine ⟨_, hx, hmem, fun hc => ?_, fun hd => ?_, ?_⟩
    · rw [hno]
      exact htold hc
    · rw [hno]
      exact hword hd
    · rw [hno]
      exact hrun

end

end Sys2Proof.Machine.State

namespace Sys2Proof

open Sys2Proof.Machine State

/-- Settles O33: one form at a time, each by its own function of the run's thread. -/
theorem queueInstructions : Obligations.QueueInstructions := by
  intro s g t r run n
  refine ⟨fun x h hg hf => qpop_pops h hg hf, fun x h hg => ?rep, fun x h hg => ?fwd, fun h => ?nop⟩
  case rep =>
    intro room
    obtain ⟨hmem, htold, hrun⟩ := pushed (runOf_counted s g t r) room (fun y => { y with words := y.words ++ [s.rd64 t x.a] }) x.c
    refine ⟨_, ?_, hmem, htold, hrun.trans ?_⟩
    · refine congrArg Host.Outcome.next ((issue_clearRun h _).trans ?_)
      rw [participants_run h rfl hg, List.foldl_cons, List.foldl_nil, pushRep_runs]
    · cases room <;> rfl
  case fwd =>
    intro q room
    obtain ⟨hmem, htold, hrun⟩ := pushed (runOf_counted s g t r) room
      (fun y => { y with fwdTo := some q, fwd := y.fwd ++ [s.rd64 t x.a] }) x.c
    refine ⟨_, ?_, hmem, htold, hrun.trans ?_⟩
    · refine congrArg Host.Outcome.next ((issue_clearRun h _).trans ?_)
      rw [participants_run h rfl hg, List.foldl_cons, List.foldl_nil, pushFwd_runs x rfl rfl]
    · cases room <;> rfl
  case nop => exact congrArg Host.Outcome.next (issue_clearRun h _)

end Sys2Proof
end

section
/-!
PROOFS. The market's instructions (12 R346 to R352): the operand that names a pool, one participant's BID, and what PRICE, PURSE and
LEASE read.
-/

namespace Sys2Proof.Machine.State

open Sys2Proof

theorem ThreadsOnly.ctxs {s u : State} (h : ThreadsOnly s u) : u.ctxs = s.ctxs := by
  have e := congrArg State.ctxs h
  exact e

theorem ctx_of_ctxs {s u : State} (h : u.ctxs = s.ctxs) (c : Nat) : u.ctx c = s.ctx c := by rw [ctx, ctx, h]

/-! ### The pool of an operand (R328) -/

theorem poolOf_some {a : W32} (h : a.toNat < 256) (hp : poolUnits a.toNat ≠ 0) : poolOf a = some a.toNat := if_pos ⟨h, hp⟩

theorem poolOf_none {a : W32} (h : 256 ≤ a.toNat ∨ poolUnits a.toNat = 0) : poolOf a = none :=
  if_neg fun ⟨hlt, hp⟩ => h.elim (Nat.not_le.mpr hlt) hp

/-! ### A participant of a kernel (R347) -/

section
variable {s : State} {t : Nat} (h : isCp t = false)
include h

theorem marketCtx_kernel : marketCtx s t = s.ctxOf t := by
  simp only [marketCtx, h, Bool.false_eq_true, if_false]
  split <;> rfl

theorem commitWg_kernel : s.commitWg t = s.modWg (s.thread t).wg fun w => { w with committed := true } := by
  simp only [commitWg, h, Bool.false_eq_true, if_false]

theorem commitWg_committed : ((s.commitWg t).wg (s.thread t).wg).committed = true := by
  rw [commitWg_kernel h, modWg, wg_setWg, if_pos rfl]

variable (x : DABC) (ps : List Nat)

omit h in
/-- A BID that names no pool, or more units than there are, commits the workgroup and has status 2. -/
theorem bidOne_refused
    (hbad : poolOf (s.rd t x.a) = none ∨ ∃ code, poolOf (s.rd t x.a) = some code ∧ poolUnits code < (s.rd t x.c).toNat) :
    bidOne x ps s s t = (s.commitWg t).status t (statusReg x.d ps t) 2 := by
  obtain hnone | ⟨code, hsome, hqty⟩ := hbad
  · simp only [bidOne, hnone]
  · simp only [bidOne, hsome, if_pos hqty]

/-- Any other replaces the bid that stands for the pool. -/
theorem bidOne_stands {code : Nat} (hsome : poolOf (s.rd t x.a) = some code) (hqty : (s.rd t x.c).toNat ≤ poolUnits code) :
    bidOne x ps s s t = ((s.commitWg t).modCtx (s.ctxOf t) fun y =>
      { y with bids := tput y.bids code ((s.rd t x.c).toNat, (s.rd t x.b).toNat) }).status t (statusReg x.d ps t) 0 := by
  simp only [bidOne, hsome, if_neg (Nat.not_lt.mpr hqty), h, Bool.false_eq_true, if_false, marketCtx_kernel h]

/-- What a status after a commitment leaves. -/
theorem status_of_committed {u : State} (hwgs : u.wgs = (s.commitWg t).wgs) (hmem : u.mem = s.mem) (d : Reg) (k : Nat) :
    ((u.status t d k).wg (s.thread t).wg).committed = true ∧ (u.status t d k).mem = s.mem ∧ (u.status t d k).ctxs = u.ctxs := by
  have hto := threadsOnly_status u t d k
  refine ⟨?_, hto.mem.trans hmem, hto.ctxs⟩
  rw [wg_of_wgs (hto.wgs.trans hwgs)]
  exact commitWg_committed h

theorem commitWg_mem : (s.commitWg t).mem = s.mem := by
  rw [commitWg_kernel h]
  rfl

theorem commitWg_ctxs : (s.commitWg t).ctxs = s.ctxs := by
  rw [commitWg_kernel h]
  rfl

/-- R347, R319: one participant's BID. -/
theorem bidOne_kernel : ((bidOne x ps s s t).wg (s.thread t).wg).committed = true ∧ (bidOne x ps s s t).mem = s.mem ∧
    ((s.rd t x.a).toNat < 256 → poolUnits (s.rd t x.a).toNat ≠ 0 → (s.rd t x.c).toNat ≤ poolUnits (s.rd t x.a).toNat →
      tget ((bidOne x ps s s t).ctx (s.ctxOf t)).bids (s.rd t x.a).toNat = some ((s.rd t x.c).toNat, (s.rd t x.b).toNat) ∧
      ∀ j, j ≠ (s.rd t x.a).toNat → tget ((bidOne x ps s s t).ctx (s.ctxOf t)).bids j = tget (s.ctx (s.ctxOf t)).bids j) ∧
    (256 ≤ (s.rd t x.a).toNat ∨ poolUnits (s.rd t x.a).toNat = 0 ∨ poolUnits (s.rd t x.a).toNat < (s.rd t x.c).toNat →
      (bidOne x ps s s t).ctxs = s.ctxs) := by
  by_cases hok : (s.rd t x.a).toNat < 256 ∧ poolUnits (s.rd t x.a).toNat ≠ 0 ∧
      (s.rd t x.c).toNat ≤ poolUnits (s.rd t x.a).toNat
  case pos =>
    obtain ⟨hlt, hp, hqty⟩ := hok
    rw [bidOne_stands h x ps (poolOf_some hlt hp) hqty]
    obtain ⟨hcommitted, hmem, hctxs⟩ := status_of_committed h (u := (s.commitWg t).modCtx (s.ctxOf t) fun y =>
      { y with bids := tput y.bids (s.rd t x.a).toNat ((s.rd t x.c).toNat, (s.rd t x.b).toNat) }) rfl (commitWg_mem h)
      (statusReg x.d ps t) 0
    have hctx : (s.commitWg t).ctx (s.ctxOf t) = s.ctx (s.ctxOf t) := ctx_of_ctxs (commitWg_ctxs h) _
    refine ⟨hcommitted, hmem, fun _ _ _ => ?_, fun hbad => absurd hbad (by omega)⟩
    rw [ctx_of_ctxs hctxs, modCtx, ctx_setCtx, if_pos rfl, hctx]
    exact ⟨tget_tput_same .., fun j hj => tget_tput_other _ _ _ _ hj⟩
  case neg =>
    have hbad : poolOf (s.rd t x.a) = none ∨ ∃ code, poolOf (s.rd t x.a) = some code ∧ poolUnits code < (s.rd t x.c).toNat := by
      by_cases hpool : (s.rd t x.a).toNat < 256 ∧ poolUnits (s.rd t x.a).toNat ≠ 0
      · exact .inr ⟨_, poolOf_some hpool.1 hpool.2, Nat.not_le.mp fun hle => hok ⟨hpool.1, hpool.2, hle⟩⟩
      · exact .inl (if_neg hpool)
    rw [bidOne_refused x ps hbad]
    obtain ⟨hcommitted, hmem, hctxs⟩ := status_of_committed h (u := s.commitWg t) rfl (commitWg_mem h) (statusReg x.d ps t) 2
    exact ⟨hcommitted, hmem, fun hlt hp hqty => absurd ⟨hlt, hp, hqty⟩ hok, fun _ => hctxs.trans (commitWg_ctxs h)⟩

/-! ### PURSE (R349) -/

theorem purseTenant_own {x : PurseArgs} (hx : x.tenant = none) (r : State) :
    purseTenant x r s t = some (s.ctxTenant (s.ctxOf t)) := by simp only [purseTenant, hx, marketCtx_kernel h]

omit h in
theorem purseTenant_range {x : PurseArgs} {q : Reg} (hx : x.tenant = some q) (hbig : 256 ≤ (s.rd t q).toNat) :
    purseTenant x s s t = none := by
  simp only [purseTenant, hx, decide_eq_true hbig, Bool.true_or, if_true]

omit h in
theorem purseTenant_priv {x : PurseArgs} {q : Reg} (hx : x.tenant = some q) (hlt : (s.rd t q).toNat < 256)
    (hpriv : s.fullPriv t = true) : purseTenant x s s t = some (s.rd t q).toNat := by
  simp only [purseTenant, hx, decide_eq_false (Nat.not_le.mpr hlt), hpriv, Bool.not_true, Bool.and_false, Bool.or_false,
    Bool.false_eq_true, if_false]

end

/-! ### PRICE (R348) -/

section
variable {s : State} {a b : W32} (sold : Bool)

theorem priceWord_invalid (h : 256 ≤ a.toNat ∨ poolUnits a.toNat = 0 ∨ 4096 ≤ b.toNat) : priceWord s a b sold = 2 ^ 64 - 1 := by
  by_cases hpool : a.toNat < 256 ∧ poolUnits a.toNat ≠ 0
  · have hb : 4096 ≤ b.toNat := by omega
    simp only [priceWord, poolOf_some hpool.1 hpool.2, if_pos hb]
  · simp only [priceWord, show poolOf a = none from if_neg hpool]

variable (hlt : a.toNat < 256) (hp : poolUnits a.toNat ≠ 0) {p n i : Nat}
include hlt hp

theorem priceWord_own (hb : b.toNat = s.node.toNat) (hc : (s.poolAt a.toNat).clears = some (p, n, i)) :
    priceWord s a b sold = (if sold then n else p) + i % 2 ^ 32 * 2 ^ 32 := by
  have hnode : ¬ 4096 ≤ b.toNat := by
    rw [hb]
    exact Nat.not_le.mpr s.node.isLt
  simp only [priceWord, poolOf_some hlt hp, if_neg hnode, if_pos hb, hc]

theorem priceWord_heard (hnode : b.toNat < 4096) (hb : b.toNat ≠ s.node.toNat)
    (hc : tget s.market.remote (b.toNat * 256 + a.toNat) = some (p, n, i)) :
    priceWord s a b sold = (if sold then n else p) + i % 2 ^ 32 * 2 ^ 32 := by
  simp only [priceWord, poolOf_some hlt hp, if_neg (Nat.not_le.mpr hnode), if_neg hb, hc]

end

end Sys2Proof.Machine.State

namespace Sys2Proof

open Sys2Proof.Machine State

theorem marketIssue : MarketIssue := by
  intro s g done
  exact ⟨fun _ => completes_of rfl rfl, fun _ => ⟨completes_of rfl rfl, completes_of rfl rfl, completes_of rfl rfl⟩,
    fun _ => ⟨completes_of rfl rfl, completes_of rfl rfl, completes_of rfl rfl⟩,
    fun _ => ⟨completes_of rfl rfl, completes_of rfl rfl, completes_of rfl rfl⟩, fun _ => completes_of rfl rfl⟩

theorem marketValues : MarketValues := by
  intro s t h
  refine ⟨fun x ps => bidOne_kernel h x ps, fun a b sold => ⟨priceWord_invalid sold, fun p n i hlt hp hb hc => ?own⟩,
    fun a b sold p n i hlt hp hnode hb hc => priceWord_heard sold hlt hp hnode hb hc, fun x hx => purseTenant_own h hx s,
    fun x r hx => ⟨purseTenant_range hx, purseTenant_priv hx⟩, fun c a hbad => ?lease⟩
  case own => exact priceWord_own sold hlt hp hb hc
  case lease =>
    have hnone : poolOf a = none := poolOf_none hbad
    simp only [leaseWord, leaseTime, hnone, and_self]

/-- Settles O29: each form is `marketBody` of its own function of a participant, whose values are read one by one. -/
theorem marketInstructions : Obligations.MarketInstructions := ⟨marketIssue, marketValues⟩

end Sys2Proof
end

section
/-!
PROOFS. The market's events (12 R329 to R342, R348): the close and its arithmetic, the boundary of an interval whose units stay
where they are, handovers, and the division of a die's slots.
-/

namespace Sys2Proof.Machine.State

open Sys2Proof

/-! ### The arithmetic of a close (R333, R334) -/

/-- R333: what one bid is clamped to is within what the purse still holds. -/
theorem clamped_le (free qty price : Nat) : qty * (if free < qty * price then free / qty else price) ≤ free := by
  split
  · exact Nat.mul_div_le free qty
  · omega

theorem clampOffers_sum (purse : Nat) (l : List Offer) (c : Nat) :
    ((clampOffers purse l c).map fun b => b.qty * b.price).sum ≤ purse - c := by
  induction l generalizing c with
  | nil => exact Nat.zero_le _
  | cons b l ih =>
    simp only [clampOffers, List.map_cons, List.sum_cons]
    have hb := clamped_le (purse - c) b.qty b.price
    generalize (if purse - c < b.qty * b.price then (purse - c) / b.qty else b.price) = p at hb ⊢
    have hrest := ih (c + b.qty * p)
    omega

theorem shareOut_bounds (l : List Rival) (free : Nat) :
    ((shareOut l free).map (·.2)).sum ≤ free ∧ ∀ x ∈ shareOut l free, x.2 ≤ x.1.qty := by
  induction l generalizing free with
  | nil => exact ⟨Nat.zero_le _, by simp [shareOut]⟩
  | cons b l ih =>
    obtain ⟨hsum, hqty⟩ := ih (free - min b.offer.qty free)
    simp only [shareOut, List.map_cons, List.sum_cons, List.forall_mem_cons]
    exact ⟨by omega, Nat.min_le_left _ _, hqty⟩

theorem clearPrice_of_served (reserve : Nat) {l : List (Offer × Nat)} (h : ∀ x ∈ l, x.1.qty ≤ x.2) : clearPrice reserve l = reserve := by
  have hnone : (l.filter fun x => x.2 < x.1.qty) = [] :=
    List.filter_eq_nil_iff.mpr fun x hx => by simpa using h x hx
  simp only [clearPrice, hnone, if_true]

theorem clears_closePool (idx : Nat) (offers : List Offer) (s : State) (code : Nat) :
    ((closePool idx offers s code).poolAt code).clears =
      (let won := shareOut (s.rivals code offers) (s.listedUnits code).length
       let n := (s.assign code (won.filter fun x => x.2 ≠ 0)).length
       some (if n = 0 then (s.poolAt code).reserve else clearPrice (s.poolAt code).reserve won, n, idx % 2 ^ 32)) := by
  simp only [closePool, poolAt, tget_tput_same, Option.getD_some, List.length_eq_zero_iff]

/-! ### Units of the market's table (R329) -/

section
variable (s : State)

theorem mktUnit_setUnit (k j : Nat) (u : MktUnit) : (s.setUnit k u).mktUnit j = if j = k then u else s.mktUnit j := by
  simp only [mktUnit, setUnit, tget_tput]
  split <;> rfl

theorem modUnit_eq (k : Nat) (f : MktUnit → MktUnit) :
    s.modUnit k f = { s with market := { s.market with units := (s.modUnit k f).market.units } } := by
  unfold modUnit
  split <;> rfl

theorem quad_modUnit (k q : Nat) (f : MktUnit → MktUnit) : (s.modUnit k f).quad q = s.quad q := by
  rw [modUnit_eq]
  rfl

theorem tget_modUnit (k : Nat) (f : MktUnit → MktUnit) :
    tget (s.modUnit k f).market.units k = (tget s.market.units k).map f := by
  cases h : tget s.market.units k with
  | none => simp only [modUnit, h, Option.map_none]
  | some u => simp only [modUnit, h, Option.map_some, tget_tput_same]

theorem holder_modUnit {f : MktUnit → MktUnit} (hf : ∀ u, (f u).holder = u.holder) (k : Nat) :
    ((s.modUnit k f).mktUnit k).holder = (s.mktUnit k).holder := by
  simp only [mktUnit, tget_modUnit]
  cases tget s.market.units k with
  | none => rfl
  | some u => exact hf u

/-- A unit that is no longer being taken. -/
theorem leaving_modUnit (k : Nat) : ((s.modUnit k fun u => { u with leaving := none }).mktUnit k).leaving = none := by
  simp only [mktUnit, tget_modUnit]
  cases tget s.market.units k <;> rfl

end

theorem mktUnit_of_units {s u : State} (h : u.market.units = s.market.units) (k : Nat) : u.mktUnit k = s.mktUnit k := by
  rw [mktUnit, mktUnit, h]

/-! ### The close (R339) -/

/-- What a close leaves: memory, the interval's course, and who holds each unit. -/
structure LeasesStand (s u : State) : Prop where
  mem : u.mem = s.mem
  closed : u.market.closed = s.market.closed
  ends : u.market.ends = s.market.ends
  holder : ∀ k, (u.mktUnit k).holder = (s.mktUnit k).holder

namespace LeasesStand

variable {s u v : State}

theorem refl (s : State) : LeasesStand s s := ⟨rfl, rfl, rfl, fun _ => rfl⟩

theorem trans (a : LeasesStand s u) (b : LeasesStand u v) : LeasesStand s v :=
  ⟨b.mem.trans a.mem, b.closed.trans a.closed, b.ends.trans a.ends, fun k => (b.holder k).trans (a.holder k)⟩

theorem of_market (hm : u.mem = s.mem) (hk : u.market = s.market) : LeasesStand s u :=
  ⟨hm, congrArg Market.closed hk, congrArg Market.ends hk,
    fun k => congrArg MktUnit.holder (mktUnit_of_units (congrArg Market.units hk) k)⟩

theorem foldl {α : Type} {f : State → α → State} (h : ∀ u a, LeasesStand u (f u a)) (l : List α) (s : State) :
    LeasesStand s (l.foldl f s) :=
  List.foldlRecOn l f (motive := LeasesStand s) (refl s) fun u hu a _ => hu.trans (h u a)

/-- A unit's record may change in all but its holder. -/
theorem setUnit (s : State) {k : Nat} {x : MktUnit} (h : x.holder = (s.mktUnit k).holder) : LeasesStand s (s.setUnit k x) := by
  refine ⟨rfl, rfl, rfl, fun j => ?_⟩
  rw [mktUnit_setUnit]
  split
  · rename_i e
    rw [h, e]
  · rfl

end LeasesStand

section
variable (s : State)

theorem leasesStand_modTenant (i : Nat) (f : Tenant → Tenant) : LeasesStand s (s.modTenant i f) := .of_market rfl rfl

theorem leasesStand_bump (view subj ctr n : Nat) : LeasesStand s (s.bump view subj ctr n) := .of_market rfl rfl

/-- R335, R336: a unit that is sold, or not, for the coming interval keeps its holder in this one. -/
theorem leasesStand_settled {u : State} (h : LeasesStand s u) (k : Nat) (n p : Option Nat) :
    LeasesStand s (u.setUnit k { s.mktUnit k with next := n, nextPrice := p }) := h.trans (.setUnit u (h.holder k).symm)

theorem leasesStand_settleUnit (code price : Nat) (got : List (Nat × Offer)) (i : Nat) :
    LeasesStand s (settleUnit code price got s i) := by
  unfold settleUnit
  extract_lets k u cls
  split
  · extract_lets v w
    have hv : LeasesStand s v := (leasesStand_modTenant s _ _).trans (leasesStand_modTenant _ _ _)
    have hw : LeasesStand v w := ((leasesStand_bump v _ _ _ _).trans (leasesStand_bump _ _ _ _ _)).trans (leasesStand_bump _ _ _ _ _)
    exact leasesStand_settled s ((hv.trans hw).trans (leasesStand_bump w _ _ _ _)) k _ _
  · split <;> exact leasesStand_settled s (leasesStand_bump s _ _ _ _) k _ _

theorem leasesStand_closePool (idx : Nat) (offers : List Offer) (code : Nat) : LeasesStand s (closePool idx offers s code) := by
  unfold closePool
  extract_lets won price winners got paid u v mkt pool
  have hu : LeasesStand s u := .foldl (fun w i => leasesStand_settleUnit w code paid got i) _ s
  have hv : LeasesStand u v := .foldl (fun w _ => leasesStand_modTenant w _ _) _ u
  exact (hu.trans hv).trans ⟨rfl, rfl, rfl, fun _ => rfl⟩

theorem offerPacket_ok {u : State} {v q : Nat} {p : Packet} (h : s.offerPacket v q p = .ok u) :
    ∃ k x, u = s.setQueue k x := by
  unfold offerPacket at h
  extract_lets x at h
  split at h
  · exact nomatch h
  · split at h
    · exact nomatch h
    · split at h
      · exact nomatch h
      · exact ⟨_, _, (Except.ok.inj h).symm⟩

theorem leasesStand_policyPacket (c : Nat) : LeasesStand s (s.policyPacket c) := by
  unfold policyPacket
  extract_lets w pool d v
  split
  · split
    · exact .refl s
    · split
      · rename_i u hoffer
        obtain ⟨k, x, rfl⟩ := offerPacket_ok v hoffer
        exact .of_market rfl rfl
      · exact .of_market rfl rfl
  · exact .refl s

end

theorem marketClose_due {s : State} (ht : s.timed = true) (hc : s.market.closed = false) (hnow : s.market.ends ≤ s.now + 100000) :
    Gives .marketClose s fun t => t.mem = s.mem ∧ t.market.closed = true ∧ t.market.ends = s.market.ends ∧
      ∀ k, (t.mktUnit k).holder = (s.mktUnit k).holder := by
  have hx : exec .marketClose s = .next s.closeMarket := rfl
  refine ⟨_, hx, ?_⟩
  rw [closeMarket, if_neg (by simp [ht, hc, hnow])]
  extract_lets offers u mkt v
  have hu : LeasesStand s u := .foldl (fun w code => leasesStand_closePool w _ offers code) _ s
  clear_value u
  have hvu : v.mem = u.mem := rfl
  have hends : v.market.ends = u.market.ends := rfl
  have hheld : ∀ k, (v.mktUnit k).holder = (u.mktUnit k).holder := fun _ => rfl
  have hclosed : v.market.closed = true := rfl
  have hv := LeasesStand.foldl leasesStand_policyPacket (v.ctxs.map (·.1)) v
  clear_value v
  exact ⟨(hv.mem.trans hvu).trans hu.mem, hv.closed.trans hclosed, (hv.ends.trans hends).trans hu.ends,
    fun k => ((hv.holder k).trans (hheld k)).trans (hu.holder k)⟩

/-! ### One unit at a boundary (R339 to R341) -/

theorem ThreadsOnly.market {s u : State} (h : ThreadsOnly s u) : u.market = s.market := by
  have e := congrArg State.market h
  exact e

theorem market_dropRole (s : State) (q : Nat) : (s.dropRole q).market = s.market := by
  have hchain : (s.breakChain q).market = s.market := by
    rw [breakChain_eq]
    exact foldl_keeps State.market (fun u k => (dropChained_threads u k).market) _ s
  exact hchain

theorem holder_takeUnit (s : State) (code i : Nat) (old : Option Nat)
    (h : poolClass code = 0 → (s.quad (poolIndex code * 32 + i)).handover = true ∨
      s.wgsOn (poolIndex code * 32 + i) = [] ∧ (s.quad (poolIndex code * 32 + i)).table = []) :
    ((s.takeUnit code i old).mktUnit (unitKey code i)).holder = (s.mktUnit (unitKey code i)).holder := by
  cases old with
  | none => rfl
  | some c =>
    simp only [takeUnit]
    split
    case h_1 hclass =>
      split
      · rfl
      · rename_i hno
        rw [if_pos (by simpa using (h hclass).resolve_left hno)]
        exact congrArg MktUnit.holder (mktUnit_of_units (congrArg Market.units (market_dropRole s _)) _)
    case h_2 =>
      split
      · exact holder_modUnit s (f := fun u => { u with leaving := some c }) (fun _ => rfl) _
      · rfl
    case h_3 => rfl

theorem holder_turnUnit (s : State) (code i : Nat)
    (h : poolClass code = 0 → (s.quad (poolIndex code * 32 + i)).handover = true ∨
      s.wgsOn (poolIndex code * 32 + i) = [] ∧ (s.quad (poolIndex code * 32 + i)).table = []) :
    ((turnUnit code s i).mktUnit (unitKey code i)).holder = (s.mktUnit (unitKey code i)).next := by
  unfold turnUnit
  extract_lets k u v
  have hv : (v.mktUnit k).holder = u.next := by rw [mktUnit_setUnit, if_pos rfl]
  split
  · rename_i hidle
    simp only [Bool.and_eq_true, decide_eq_true_eq] at hidle
    exact hidle.1.1.trans hidle.1.2.symm
  · split
    · exact hv
    · exact (holder_takeUnit v code i u.holder h).trans hv

/-! ### A boundary at which every unit stays (R331, R339) -/

/-- The package with another table of units. -/
def withUnits (s : State) (us : Tbl MktUnit) : State := { s with market := { s.market with units := us } }

/-- A unit whose holder goes on: its record alone changes. -/
theorem turnUnit_stays {s : State} {code i : Nat} (h : (s.mktUnit (unitKey code i)).holder = (s.mktUnit (unitKey code i)).next) :
    ∃ us, turnUnit code s i = s.withUnits us ∧ ∀ j, j ≠ unitKey code i → (s.withUnits us).mktUnit j = s.mktUnit j := by
  unfold turnUnit
  extract_lets k u v
  split
  · exact ⟨s.market.units, rfl, fun _ _ => rfl⟩
  · exact ⟨_, rfl, fun j hj => (mktUnit_setUnit s k j _).trans (if_neg hj)⟩

theorem poolUnits_le (code : Nat) : poolUnits code ≤ 32 := by
  unfold poolUnits
  split
  case h_5 => decide
  all_goals split <;> decide

/-- The units, in the order of a boundary. -/
def unitPlaces : List (Nat × Nat) := poolCodes.flatMap fun code => (upTo (poolUnits code)).map fun i => (code, i)

theorem mem_unitPlaces {p : Nat × Nat} (h : p ∈ unitPlaces) : p.2 < 256 := by
  obtain ⟨code, -, hp⟩ := List.mem_flatMap.mp h
  obtain ⟨i, hi, rfl⟩ := List.mem_map.mp hp
  exact lt_of_lt_of_le (List.mem_range.mp hi) ((poolUnits_le code).trans (by decide))

theorem unitPlaces_nodup : unitPlaces.Nodup := by
  refine List.nodup_flatMap.mpr ⟨fun code _ => ?_, ?_⟩
  · exact List.Nodup.map (fun i j h => congrArg Prod.snd h) List.nodup_range
  · refine List.Pairwise.imp (fun {a b} hne => ?_) (List.nodup_range.filter _ : poolCodes.Nodup)
    refine List.disjoint_left.mpr fun x ha hb => ?_
    obtain ⟨i, -, rfl⟩ := List.mem_map.mp ha
    obtain ⟨j, -, h⟩ := List.mem_map.mp hb
    exact hne (congrArg Prod.fst h).symm

theorem unitKey_inj {p q : Nat × Nat} (hp : p.2 < 256) (hq : q.2 < 256) (h : unitKey p.1 p.2 = unitKey q.1 q.2) : p = q := by
  unfold unitKey at h
  exact Prod.ext (by omega) (by omega)

/-- The turns of some units that all stay change the table of units alone. -/
theorem turns_stay {l : List (Nat × Nat)} (hnodup : l.Nodup) (hlt : ∀ p ∈ l, p.2 < 256) {s : State}
    (h : ∀ p ∈ l, (s.mktUnit (unitKey p.1 p.2)).holder = (s.mktUnit (unitKey p.1 p.2)).next) :
    ∃ us, l.foldl (fun u p => turnUnit p.1 u p.2) s = s.withUnits us := by
  induction l generalizing s with
  | nil => exact ⟨s.market.units, rfl⟩
  | cons p l ih =>
    obtain ⟨hfresh, hnodup⟩ := List.nodup_cons.mp hnodup
    obtain ⟨hp, hl⟩ := List.forall_mem_cons.mp h
    obtain ⟨hplt, hlt⟩ := List.forall_mem_cons.mp hlt
    obtain ⟨us, hus, hother⟩ := turnUnit_stays hp
    have hstand : ∀ q ∈ l, (s.withUnits us).mktUnit (unitKey q.1 q.2) = s.mktUnit (unitKey q.1 q.2) := fun q hq =>
      hother _ fun e => hfresh (unitKey_inj (hlt q hq) hplt e ▸ hq)
    obtain ⟨us', hus'⟩ := ih hnodup hlt (s := s.withUnits us) fun q hq => by rw [hstand q hq]; exact hl q hq
    exact ⟨us', by rw [List.foldl_cons, hus, hus']; rfl⟩

theorem turn_all (s : State) (h : ∀ k, (s.mktUnit k).holder = (s.mktUnit k).next) :
    ∃ us, poolCodes.foldl (fun s code => (upTo (poolUnits code)).foldl (turnUnit code) s) s = s.withUnits us := by
  obtain ⟨us, hus⟩ := turns_stay unitPlaces_nodup (fun _ => mem_unitPlaces) (s := s) fun p _ => h _
  refine ⟨us, Eq.trans ?_ hus⟩
  simp only [unitPlaces, List.foldl_flatMap, List.foldl_map]

/-- What R331 reads of a tenant. -/
def purseOf (x : Tenant) : Nat × Nat × Nat := (x.purse, x.rate, x.cap)

/-- Trimming tokens changes tenants alone, and no purse. -/
theorem trimTokens_keeps (s : State) : ∃ ts, s.trimTokens = { s with tenants := ts } ∧
    ∀ i, (tget ts i).map purseOf = (tget s.tenants i).map purseOf := by
  unfold trimTokens
  extract_lets ports
  refine List.foldlRecOn ports _ (motive := fun u : State => ∃ ts, u = { s with tenants := ts } ∧
    ∀ i, (tget ts i).map purseOf = (tget s.tenants i).map purseOf) ⟨s.tenants, rfl, fun _ => rfl⟩ fun u hu p _ => ?_
  obtain ⟨ts, rfl, hts⟩ := hu
  refine ⟨_, rfl, fun i => ?_⟩
  rw [tget_map_keyed (f := fun t : Nat × Tenant => { t.2 with
    flits := tput t.2.flits p (min ((tget t.2.flits p).getD 0) (portDepth { s with tenants := ts } t.1 p)) }), Option.map_map]
  exact hts i

/-- R331: a purse after its refill. -/
theorem purse_refill (x : Tenant) : (refill x).purse = if x.purse < x.cap then x.purse + min x.rate (x.cap - x.purse) else x.purse := by
  unfold refill
  split <;> rfl

theorem marketBoundary_stays {s : State} (ht : s.timed = true) (hc : s.market.closed = true) (hnow : s.market.ends ≤ s.now)
    (hp : s.market.pending = none) (hstay : ∀ k, (s.mktUnit k).holder = (s.mktUnit k).next) : Gives .marketBoundary s fun t =>
      t.mem = s.mem ∧ t.market.closed = false ∧ t.market.begun = true ∧ t.market.interval = s.market.interval ∧
      t.market.ends = (s.now / s.market.interval + 1) * s.market.interval ∧
      ∀ i x, tget s.tenants i = some x →
        (t.tenant i).purse = if x.purse < x.cap then x.purse + min x.rate (x.cap - x.purse) else x.purse := by
  have hx : exec .marketBoundary s = .next s.turnMarket := rfl
  refine ⟨_, hx, ?_⟩
  obtain ⟨us, hus⟩ := turn_all s hstay
  obtain ⟨ts, hts, hpurse⟩ := trimTokens_keeps (((s.withUnits us).divideSlots 0).divideSlots 1)
  have hpass : (s.withUnits us).passShares = { ((s.withUnits us).divideSlots 0).divideSlots 1 with tenants := ts } := hts
  rw [turnMarket, if_neg (by simp [ht, hc, hnow])]
  simp only [hp, hus, hpass, true_and]
  refine ⟨rfl, rfl, rfl, fun i x hi => ?_⟩
  have hread : (tget ts i).map purseOf = some (purseOf x) := (hpurse i).trans (congrArg (Option.map purseOf) hi)
  obtain ⟨y, hy, hxy⟩ := Option.map_eq_some_iff.mp hread
  obtain ⟨hpurse', hrest⟩ := Prod.mk.inj hxy
  obtain ⟨hrate, hcap⟩ := Prod.mk.inj hrest
  simp only [tenant, tget_tmap, hy, Option.map_some, Option.getD_some, purse_refill, hpurse', hrate, hcap]

/-! ### Handovers (R340, R341) -/

theorem quadHandover_drained {s : State} {q : Nat} (hh : (s.quad q).handover = true) (hd : s.quadDrained q = true) :
    Gives (.quadHandover q) s fun t => (t.quad q).handover = false ∧ (t.quad q).role = 0 ∧ (t.quad q).reqs = [] ∧
      ∀ u, tget t.market.units (unitKey (q / 32) (q % 32)) = some u → u.leaving = none := by
  have hx : exec (.quadHandover q) s = .next (s.handOver q) := rfl
  refine ⟨_, hx, ?_⟩
  rw [handOver, if_neg (by simp [hh, hd])]
  extract_lets ids fills w v
  clear_value w
  have hv : v.quad q = { (w.breakChain q).quad q with role := 0, reqs := [], handover := false } := by
    simp only [v, dropRole, quad_modQuad]
  rw [quad_modUnit, hv]
  refine ⟨rfl, rfl, rfl, fun u hu => ?_⟩
  rw [tget_modUnit] at hu
  obtain ⟨y, -, rfl⟩ := Option.map_eq_some_iff.mp hu
  rfl

/-- The lines of a way go one by one, each counted. -/
theorem linesWrittenBack (c : Nat) (l : List Nat) (s : State) :
    let u := l.foldl (fun (s : State) a => { s.bump 0 (s.ctxTenant c) 7 128 with dirty := tdel s.dirty a }) s
    u.mem = s.mem ∧ u.dirty = l.foldl (fun d a => tdel d a) s.dirty :=
  ⟨foldl_keeps State.mem (fun _ _ => by rfl) l s, (List.foldl_hom State.dirty fun _ _ => rfl).symm⟩

theorem wayHandover_leaving {s : State} {k c : Nat} (h : (s.mktUnit k).leaving = some c) (hk : poolClass (k / 256) = 1) :
    Gives (.wayHandover k) s fun t => t.mem = s.mem ∧
      t.dirty = (s.linesIn c (poolIndex (k / 256)) (k % 256)).foldl (fun d l => tdel d l) s.dirty ∧ (t.mktUnit k).leaving = none := by
  have hx : exec (.wayHandover k) s = .next (s.wayOver k) := rfl
  refine ⟨_, hx, ?_⟩
  simp only [wayOver, h, hk, ne_eq, not_true_eq_false, if_false]
  obtain ⟨hmem, hdirty⟩ := linesWrittenBack c (s.linesIn c (poolIndex (k / 256)) (k % 256)) s
  refine ⟨?_, ?_, leaving_modUnit _ k⟩
  · rw [modUnit_eq]
    exact hmem
  · rw [modUnit_eq]
    exact hdirty

/-! ### Slots of a die (R338) -/

/-- A table that takes a value for each name of a list. -/
theorem tget_foldl_tput {α : Type} (base : Nat) (v : Nat → α) (l : List Nat) (t : Tbl α) (c : Nat) :
    tget (l.foldl (fun r x => tput r (base + x) (v x)) t) (base + c) = if c ∈ l then some (v c) else tget t (base + c) := by
  induction l generalizing t with
  | nil => rfl
  | cons x l ih =>
    rw [List.foldl_cons, ih, tget_tput]
    by_cases hc : c = x
    · simp [hc]
    · simp [hc]

theorem tget_freshShare {s : State} {die c : Nat} (h : c ∈ s.drainers die) (t : Tbl Nat) (f : Nat → Nat) :
    tget (s.freshShare die t f) (die * 256 + c) = some ((tget t (die * 256 + c)).getD 0 % 128 + f c) := by
  rw [freshShare, tget_foldl_tput (die * 256) fun c => (tget t (die * 256 + c)).getD 0 % 128 + f c, if_pos h]

theorem idleSlotShare_due {s : State} {die : Nat} (hdie : die < 2)
    (h : s.timed = true → ∀ n, tget s.market.shareAt die = some n → n + 4000 ≤ s.now) :
    exec (.idleSlotShare die) s = .next (s.divideSlots die) := by
  have hdue : ¬ (decide (2 ≤ die) || (s.timed && (match tget s.market.shareAt die with
      | some t => decide (s.now < t + 4000) | none => false))) = true := by
    cases ht : s.timed with
    | false => simp [hdie]
    | true =>
      cases hn : tget s.market.shareAt die with
      | none => simp [hdie]
      | some n => simp [hdie, h ht n hn]
  exact congrArg Host.Outcome.next (if_neg hdue)

end Sys2Proof.Machine.State

namespace Sys2Proof

open Sys2Proof.Machine State

/-- Settles O47: one event, or one step of its arithmetic, at a time. -/
theorem marketEvents : Obligations.MarketEvents := by
  intro s
  refine ⟨marketClose_due, fun purse l => clampOffers_sum purse l 0, shareOut_bounds, fun reserve l => clearPrice_of_served reserve,
    fun idx offers code => clears_closePool idx offers s code, marketBoundary_stays, holder_turnUnit s,
    fun q => quadHandover_drained, fun k c => wayHandover_leaving, fun p hn hb hp => ?receive, fun t hp => ?table,
    fun die hdie h => ⟨_, idleSlotShare_due hdie h, rfl, tget_tput_same .., fun c hc => ?shares⟩⟩
  case receive =>
    have hok : ¬ (decide (p.node = s.node.toNat) || decide (4096 ≤ p.node) || decide (256 ≤ p.pool)) = true := by simp [hn, hb, hp]
    exact congrArg Host.Outcome.next (if_neg hok)
  case table =>
    have hx : exec (.marketTableWrite t) s = execMarketTableWrite t s := rfl
    rw [hx, execMarketTableWrite]
    simp only [hp]
  case shares => exact ⟨tget_freshShare hc _ _, tget_freshShare hc _ _⟩

end Sys2Proof
end

section
/-!
PROOFS. Walks and page fetches (13 R358 to R368), the bytes of a page that is copied, and ranges that begin zero (R369 to R373).
-/

namespace Sys2Proof.Machine

/-! ### Memories moved and erased -/

theorem mget_unlisted {m : Memory} {a : Nat} (h : a ∉ m.map (·.1)) : mget m a = 0 := by
  induction m with
  | nil => rfl
  | cons c m ih =>
    rw [List.map_cons, List.mem_cons, not_or] at h
    obtain ⟨hne, hrest⟩ := h
    rw [mget, if_neg (Ne.symm hne), ih hrest]

/-- A canonical memory lists its addresses in rising order. -/
theorem wf_rising {m : Memory} (h : m.wf) : m.Pairwise fun c d => c.1 < d.1 := by
  induction m with
  | nil => exact .nil
  | cons c m ih =>
    obtain ⟨-, hhead, hwf⟩ := (mwf_cons c.1 c.2 m).mp h
    have hrest := ih hwf
    refine List.pairwise_cons.mpr ⟨fun d hd => ?_, hrest⟩
    cases m with
    | nil => exact nomatch hd
    | cons e m =>
      have hlt : c.1 < e.1 := hhead e.1 rfl
      obtain rfl | hd := List.mem_cons.mp hd
      · exact hlt
      · exact hlt.trans ((List.pairwise_cons.mp hrest).1 d hd)

theorem mget_merase (m : Memory) (lo hi a : Nat) : mget (merase m lo hi) a = if a < lo ∨ hi ≤ a then mget m a else 0 := by
  rw [merase, mget_filter fun k => decide (k < lo) || decide (hi ≤ k)]
  simp only [Bool.or_eq_true, decide_eq_true_eq]

section
variable (src dst : Nat)

/-- One byte set down at its place in another page. -/
def putMoved (m : Memory) (c : Nat × Byte) : Memory := mput m (c.1 - src + dst) c.2

variable {src}

/-- Bytes that are set down one by one: a place that one of them names holds it. -/
theorem mget_moved {l : Memory} (hl : l.Pairwise fun c d => c.1 < d.1) (hsrc : ∀ c ∈ l, src ≤ c.1) {m : Memory} (hm : m.wf)
    (i : Nat) :
    mget (l.foldl (putMoved src dst) m) (dst + i) = if src + i ∈ l.map (·.1) then mget l (src + i) else mget m (dst + i) := by
  induction l generalizing m with
  | nil => rfl
  | cons c l ih =>
    obtain ⟨hlt, hl⟩ := List.pairwise_cons.mp hl
    obtain ⟨hc, hsrc⟩ := List.forall_mem_cons.mp hsrc
    rw [List.foldl_cons, ih hl hsrc (m := putMoved src dst m c) (mput_wf _ _ _ hm), List.map_cons]
    by_cases h : c.1 = src + i
    · have hgone : src + i ∉ l.map (·.1) := fun hmem => by
        obtain ⟨d, hd, he⟩ := List.mem_map.mp hmem
        exact absurd (hlt d hd) (by omega)
      have hplace : dst + i = c.1 - src + dst := by omega
      rw [if_neg hgone, putMoved, hplace, mget_mput_same _ _ _ hm, if_pos (List.mem_cons.mpr (.inl h.symm)), mget, if_pos h]
    · have hplace : dst + i ≠ c.1 - src + dst := by omega
      simp only [putMoved, mget_mput_other _ _ _ _ hplace, List.mem_cons, Ne.symm h, false_or, mget, h, if_false]

theorem mget_moved_outside {n a : Nat} {l : Memory} (hl : ∀ c ∈ l, src ≤ c.1 ∧ c.1 < src + n) (ha : a < dst ∨ dst + n ≤ a) (m : Memory) :
    mget (l.foldl (putMoved src dst) m) a = mget m a := by
  refine List.foldlRecOn l (putMoved src dst) (motive := fun u => mget u a = mget m a) rfl fun u hu c hc => ?_
  obtain ⟨hlo, hhi⟩ := hl c hc
  exact (mget_mput_other _ _ _ _ (by omega)).trans hu

end

namespace State

open Sys2Proof

/-! ### A page copied (R367, R368) -/

/-- The bytes that a page lists. -/
def pageCells (s : State) (src : Nat) : Memory := s.mem.filter fun c => decide (src ≤ c.1) && decide (c.1 < src + 65536)

section
variable {s : State} {src : Nat}

theorem mem_pageCells {c : Nat × Byte} (h : c ∈ s.pageCells src) : src ≤ c.1 ∧ c.1 < src + 65536 := by
  simpa using (List.mem_filter.mp h).2

theorem pageCells_rising (hwf : s.mem.wf) : (s.pageCells src).Pairwise fun c d => c.1 < d.1 := (wf_rising hwf).filter _

theorem mget_pageCells {i : Nat} (h : i < 65536) : mget (s.pageCells src) (src + i) = mget s.mem (src + i) := by
  rw [pageCells, mget_filter fun k => decide (src ≤ k) && decide (k < src + 65536), if_pos (by simpa using h)]

theorem mem_copyPage (dst : Nat) : (s.copyPage src dst).mem =
    (s.pageCells src).foldl (putMoved src dst) (merase s.mem dst (dst + 65536)) := rfl

theorem mget_copyPage (hwf : s.mem.wf) (dst : Nat) {i : Nat} (h : i < 65536) :
    mget (s.copyPage src dst).mem (dst + i) = mget s.mem (src + i) := by
  rw [mem_copyPage, mget_moved dst (pageCells_rising hwf) (fun c hc => (mem_pageCells hc).1) (merase_wf _ _ _ hwf),
    ← mget_pageCells h]
  split
  · rfl
  · rename_i hnone
    rw [mget_unlisted hnone, mget_merase, if_neg (by omega)]

theorem mget_copyPage_outside {dst a : Nat} (ha : a < dst ∨ dst + 65536 ≤ a) : mget (s.copyPage src dst).mem a = mget s.mem a := by
  rw [mem_copyPage, mget_moved_outside dst (fun c hc => mem_pageCells hc) ha, mget_merase, if_pos ha]

end

/-! ### Walks and fetches (R358, R368) -/

theorem walkDone_asked {s u : State} {core c : Nat} {va : W64} {write : Bool} {x : Xlat} (hva : canonical va = true)
    (hfill : s.walkFill core c va write false = .ok x u)
    (h : (∃ r ∈ s.reachesOf c fun g => g.core = core, r.write = write ∧ samePage r.va va = true) ∨
      (write = false ∧ ∃ y ∈ s.clauseTouches c, tidCore y.1 = core ∧ samePage y.2 va = true)) :
    s.walkDone core c va write = u := by
  have hasks : (((s.reachesOf c fun g => g.core = core).any fun r => r.write = write && samePage r.va va) ||
      (!write && (s.clauseTouches c).any fun x => tidCore x.1 = core && samePage x.2 va)) = true := by
    simp only [Bool.or_eq_true, Bool.and_eq_true, List.any_eq_true, decide_eq_true_eq, Bool.not_eq_true']
    exact h
  simp only [walkDone, hasks, hva, hfill, Bool.not_true, Bool.or_self, Bool.false_eq_true, if_false]

section
variable {s : State} {c : Nat} {va : W64} (hva : canonical va = true) (hask : s.wanted c va = true ∨ s.fetching c va = true)
include hva hask

theorem pageFetch_asked : (!canonical va || !(s.wanted c va || s.fetching c va)) = false := by
  simp only [hva, Bool.or_eq_true_iff.mpr hask, Bool.not_true, Bool.or_self]

theorem pageFetch_present (page : PageAnswer) (h : s.absentLeaf c va = none) : s.pageFetch c va page = s.endFetch c va := by
  simp only [pageFetch, pageFetch_asked hva hask, h, Bool.false_eq_true, if_false]

theorem pageFetch_brought {l : Leaf} (h : s.absentLeaf c va = some l) (hb : s.hasBacking (s.ctxVd c) l.ent = true)
    (data : Option (List Byte)) : s.pageFetch c va ⟨true, data⟩ = s.bringPage c va l data := by
  simp only [pageFetch, pageFetch_asked hva hask, h, hb, Bool.and_self, Bool.false_eq_true, if_false, if_true]

theorem pageFetch_failed {l : Leaf} (h : s.absentLeaf c va = some l) {page : PageAnswer}
    (hno : page.answered = false ∨ s.hasBacking (s.ctxVd c) l.ent = false) :
    s.pageFetch c va page = (s.ctxFault c tcPeerUnreachable).failFetch c va := by
  have hbad : (page.answered && s.hasBacking (s.ctxVd c) l.ent) = false := Bool.and_eq_false_iff.mpr hno
  simp only [pageFetch, pageFetch_asked hva hask, h, hbad, Bool.false_eq_true, if_false]

end

/-! ### Words of a range (R371, R373) -/

/-- The other entries of the range table. -/
def otherRanges (s : State) (i : Nat) : List Range := (s.ranges.filter fun r => r.1 ≠ i).map (·.2)

section
variable {s : State} {i w : Nat} (v : W64) (hi : i < 16) (hw : w < 3)
include hi hw

theorem writeRange_refused (h : rangeForm (setRangeWord (s.range i) w v) = false ∨
    ((setRangeWord (s.range i) w v).valid = true ∧ rangeFits (s.otherRanges i) (setRangeWord (s.range i) w v) = false) ∨
    ((s.range i).scrubbing = true ∧ exceptRemote (setRangeWord (s.range i) w v) ≠ exceptRemote (s.range i))) :
    s.writeRange i w v = (s, 1) := by
  rw [writeRange, if_neg (by simp [hi, hw])]
  refine if_pos ?_
  simpa only [Bool.or_eq_true, Bool.and_eq_true, Bool.not_eq_true', decide_eq_true_eq, or_assoc, otherRanges] using h

/-- A word that is accepted. -/
theorem writeRange_accepted (hform : rangeForm (setRangeWord (s.range i) w v) = true)
    (hfit : (setRangeWord (s.range i) w v).valid = true → rangeFits (s.otherRanges i) (setRangeWord (s.range i) w v) = true)
    (hscrub : (s.range i).scrubbing = false) : (s.writeRange i w v).1 =
      let old := s.range i
      let new := setRangeWord old w v
      if new.valid && (!old.valid || old.vd ≠ new.vd) then
        { s.eraseRange new with ranges := tput s.ranges i { new with
          w3 := BitVec.ofNat 64 (new.base / 128 * 2 ^ 7 + 2 + (if old.epoch then 0 else 1)) } }
      else
        let s := if old.valid && new.valid && exceptRemote new ≠ exceptRemote old then s.moveRange old new else s
        { s with ranges := tput s.ranges i new } := by
  have hok : ¬ (!rangeForm (setRangeWord (s.range i) w v) || ((setRangeWord (s.range i) w v).valid &&
      !rangeFits (s.otherRanges i) (setRangeWord (s.range i) w v)) ||
      ((s.range i).scrubbing && exceptRemote (setRangeWord (s.range i) w v) ≠ exceptRemote (s.range i))) = true := by
    cases hv : (setRangeWord (s.range i) w v).valid with
    | false => simp [hform, hscrub]
    | true => simp [hform, hscrub, hfit hv]
  rw [writeRange, if_neg (by simp [hi, hw])]
  refine (congrArg Prod.fst (if_neg hok)).trans ?_
  dsimp only
  split <;> rfl

end

/-- R373: a range that begins to be scrubbed says so in its fourth word. -/
theorem scrubbing_begun (r : Range) (base : Nat) (epoch : Bool) :
    Range.scrubbing { r with w3 := BitVec.ofNat 64 (base / 128 * 2 ^ 7 + 2 + (if epoch then 0 else 1)) } = true := by
  have hbit : Nat.testBit (base / 128 * 2 ^ 7 + 2 + (if epoch then 0 else 1)) 1 = true := by
    rw [Nat.testBit_eq_decide_div_mod_eq, decide_eq_true_eq]
    cases epoch <;> simp only [Bool.false_eq_true, if_false, if_true] <;> omega
  simp only [Range.scrubbing, BitVec.getLsbD_ofNat, hbit, Nat.reduceLT, decide_true, Bool.and_self]

theorem mget_eraseRange (s : State) (r : Range) (a : Nat) : mget (s.eraseRange r).mem a =
    if a < s.local_ r.base ∨ s.local_ r.limit ≤ a then mget s.mem a else 0 := mget_merase ..

theorem rangeWrite_begins {s : State} {i w : Nat} (v : W64) (hi : i < 16) (hw : w < 3)
    (hform : rangeForm (setRangeWord (s.range i) w v) = true) (hv : (setRangeWord (s.range i) w v).valid = true)
    (hfit : rangeFits (s.otherRanges i) (setRangeWord (s.range i) w v) = true)
    (hnew : (s.range i).valid = false ∨ (s.range i).vd ≠ (setRangeWord (s.range i) w v).vd) (hscrub : (s.range i).scrubbing = false) :
    let new := setRangeWord (s.range i) w v
    Gives (.rangeWrite i w v) s fun t => (t.range i).w0 = new.w0 ∧ (t.range i).w1 = new.w1 ∧ (t.range i).w2 = new.w2 ∧
      (t.range i).scrubbing = true ∧ (∀ a, s.local_ new.base ≤ a → a < s.local_ new.limit → mget t.mem a = 0) ∧
      ∀ a, a < s.local_ new.base ∨ s.local_ new.limit ≤ a → mget t.mem a = mget s.mem a := by
  intro new
  have hx : exec (.rangeWrite i w v) s = .next (s.writeRange i w v).1 := rfl
  refine ⟨_, hx, ?_⟩
  have hbegin : (new.valid && (!(s.range i).valid || (s.range i).vd ≠ new.vd)) = true := by
    simpa only [new, hv, Bool.true_and, Bool.or_eq_true, Bool.not_eq_true', decide_eq_true_eq] using hnew
  rw [writeRange_accepted v hi hw hform (fun _ => hfit) hscrub]
  dsimp only
  rw [if_pos hbegin]
  have hr (x : Range) (u : State) : ({ u with ranges := tput s.ranges i x } : State).range i = x := by
    simp only [range, tget_tput_same, Option.getD_some]
  rw [hr]
  refine ⟨rfl, rfl, rfl, scrubbing_begun _ _ _, fun a hlo hhi => ?_, fun a ha => ?_⟩
  · exact (mget_eraseRange s new a).trans (if_neg (by omega))
  · exact (mget_eraseRange s new a).trans (if_pos ha)

theorem rangeWrite_invalid {s : State} {i w : Nat} (v : W64) (hi : i < 16) (hw : w < 3)
    (hform : rangeForm (setRangeWord (s.range i) w v) = true) (hv : (setRangeWord (s.range i) w v).valid = false)
    (hscrub : (s.range i).scrubbing = false) :
    exec (.rangeWrite i w v) s = .next { s with ranges := tput s.ranges i (setRangeWord (s.range i) w v) } := by
  refine congrArg Host.Outcome.next ((writeRange_accepted v hi hw hform (fun h => absurd h (by simp [hv])) hscrub).trans ?_)
  simp only [hv, Bool.false_and, Bool.and_false, Bool.false_eq_true, if_false]

end State

end Sys2Proof.Machine

namespace Sys2Proof

open Sys2Proof.Machine State

/-- Settles O48: one event at a time; a page copied is followed byte by byte. -/
theorem pagingAndRanges : Obligations.PagingAndRanges := by
  intro s
  refine ⟨fun core c va write x u hva hfill h => congrArg Host.Outcome.next (walkDone_asked hva hfill h), fun c va hva hask => ?fetch,
    fun src dst hwf _ => ⟨fun i hi => mget_copyPage hwf dst hi, fun a ha => mget_copyPage_outside ha⟩, fun i w v hi hw => ?range,
    fun i h => congrArg Host.Outcome.next (if_pos h)⟩
  case fetch =>
    refine ⟨fun page h => congrArg Host.Outcome.next (pageFetch_present hva hask page h),
      fun l hl => ⟨fun data hb => ?_, fun page hno => ?_⟩⟩
    · exact congrArg Host.Outcome.next (pageFetch_brought hva hask hl hb data)
    · exact congrArg Host.Outcome.next (pageFetch_failed hva hask hl hno)
  case range =>
    exact ⟨fun h => congrArg Host.Outcome.next (congrArg Prod.fst (writeRange_refused v hi hw h)),
      fun hform hv hfit hnew hscrub => rangeWrite_begins v hi hw hform hv hfit hnew hscrub,
      fun hform hv hscrub => rangeWrite_invalid v hi hw hform hv hscrub⟩

end Sys2Proof
end

section
/-!
PROOFS. The SPDM responder (13 R381): what a request that is accepted, or refused, is answered, and what each answer leaves of the
device's responder.
-/

namespace Sys2Proof.Machine.State

open Sys2Proof

/-! ### Answers (R305, R381) -/

/-- The package has answered a message: a reply that accepts no launch, and an attachment. -/
def Answered (s t : State) (x : SpdmArgs) (P : Vd → Prop) : Prop := t.mem = s.mem ∧
  (∃ w b, t.sent = s.sent ++ [.reply none x.seq [w], .attachment none x.seq b] ∧ w.toNat % 2 ^ 32 = 0) ∧ P (t.vd x.vd)

section
variable (s : State) (x : SpdmArgs)

/-- R305: the low half of a reply's word, which would name a launch, is zero. -/
theorem replyWord_low (n : Nat) : (BitVec.ofNat 64 (n * 2 ^ 32)).toNat % 2 ^ 32 = 0 := by
  rw [BitVec.toNat_ofNat]
  omega

theorem vd_answer (bytes : List Byte) (f : Vd → Vd) : (s.answer x bytes f).vd x.vd = f (s.vd x.vd) := by
  have h : (s.answer x bytes f).vd x.vd = (s.modVd x.vd f).vd x.vd := rfl
  rw [h, modVd, vd_setVd, if_pos rfl]

theorem answered_answer (bytes : List Byte) (f : Vd → Vd) {P : Vd → Prop} (h : P (f (s.vd x.vd))) :
    Answered s (s.answer x bytes f) x P :=
  ⟨rfl, ⟨_, _, rfl, replyWord_low _⟩, by rwa [vd_answer]⟩

/-- R381: ERROR, and the device's responder as it was. -/
theorem answered_error (k : Nat) : (s.answer x (spdmError k) id).mem = s.mem ∧ (s.answer x (spdmError k) id).vd x.vd = s.vd x.vd ∧
    ∃ w, (s.answer x (spdmError k) id).sent = s.sent ++ [.reply none x.seq [w],
      .attachment none x.seq (natLe 4 4 ++ natLe 4 x.seq ++ spdmHead 0x12 0x7F k 0)] ∧ w.toNat % 2 ^ 32 = 0 :=
  ⟨rfl, vd_answer s x _ id, _, rfl, replyWord_low _⟩

end

namespace Answered

variable {s t : State} {x : SpdmArgs} {P Q : Vd → Prop}

theorem modVd (h : Answered s t x Q) {f : Vd → Vd} (hf : ∀ v, Q v → P (f v)) : Answered s (t.modVd x.vd f) x P := by
  obtain ⟨hmem, hsent, hvd⟩ := h
  refine ⟨hmem, hsent, ?_⟩
  rw [State.modVd, vd_setVd, if_pos rfl]
  exact hf _ hvd

theorem drawn (h : Answered s t x P) : Answered s t.drawn x P := h

end Answered

section
variable (s : State) (x : SpdmArgs)

/-- R381: an answer that extends the transcript, the responder in the same state. -/
theorem answered_plain (bytes : List Byte) : Answered s (s.answerPlain x bytes) x fun u =>
    u.spdm = (s.vd x.vd).spdm ∧ ∃ b, u.transcript = (s.vd x.vd).transcript ++ x.msg ++ b :=
  answered_answer s x bytes _ ⟨rfl, bytes, rfl⟩

/-- R381: a signed answer returns the transcript to its checkpoint. -/
theorem answered_signed (bytes : List Byte) : Answered s (s.answerSigned x bytes) x fun u =>
    u.spdm = (s.vd x.vd).spdm ∧ u.transcript = (s.vd x.vd).checkpoint :=
  answered_answer s x _ _ ⟨rfl, rfl⟩

end

/-! ### Requests (R381) -/

section
variable {s : State} {x : SpdmArgs} (hb : s.booted = true) (hv : x.vd < 64) (hon : (s.vd x.vd).word.getLsbD 0 = true)
  (hreset : (s.vd x.vd).word.getLsbD 1 = false)
include hb hv hon hreset

theorem spdmRequest_listens {code : Nat} (hcode : spdmCode x.msg = code ∨ spdmKnown.contains (spdmCode x.msg) = false)
    (f : State → State) :
    s.spdmRequest code x f = if spdmFault (s.vd x.vd).spdm x.msg ≠ 0 then
      s.answer x (spdmError (spdmFault (s.vd x.vd).spdm x.msg)) id else f s := by
  have hready : ¬ (!s.booted || decide (64 ≤ x.vd) || !(s.vd x.vd).word.getLsbD 0 || (s.vd x.vd).word.getLsbD 1) = true := by
    simp only [hb, hon, hreset, decide_eq_false (Nat.not_le.mpr hv), Bool.not_true, Bool.or_self, Bool.false_eq_true, not_false_eq_true]
  have hmine : ¬ (decide (4 ≤ x.msg.length) && decide (spdmCode x.msg ≠ code) && spdmKnown.contains (spdmCode x.msg)) = true := by
    obtain h | h := hcode
    · simp only [h, ne_eq, not_true_eq_false, decide_false, Bool.and_false, Bool.false_and, Bool.false_eq_true, not_false_eq_true]
    · simp only [h, Bool.and_false, Bool.false_eq_true, not_false_eq_true]
  rw [spdmRequest, if_neg hready, if_neg hmine]

theorem spdmRequest_accepted {code : Nat} (h : spdmCode x.msg = code ∧ spdmFault (s.vd x.vd).spdm x.msg = 0) (f : State → State) :
    s.spdmRequest code x f = f s :=
  (spdmRequest_listens hb hv hon hreset (.inl h.1) f).trans (if_neg fun hne => hne h.2)

theorem spdmRequest_refused {code : Nat} (hcode : spdmCode x.msg = code ∨ spdmKnown.contains (spdmCode x.msg) = false)
    (h : spdmFault (s.vd x.vd).spdm x.msg ≠ 0) (f : State → State) :
    s.spdmRequest code x f = s.answer x (spdmError (spdmFault (s.vd x.vd).spdm x.msg)) id :=
  (spdmRequest_listens hb hv hon hreset hcode f).trans (if_pos h)

/-- The event of a request of the table that is accepted. -/
theorem gives_answer {code : Nat} (h : spdmCode x.msg = code ∧ spdmFault (s.vd x.vd).spdm x.msg = 0) {i : Instr} {f : State → State}
    (hx : exec i s = .next (s.spdmRequest code x f)) {P : Vd → Prop} (ha : Answered s (f s) x P) :
    Gives i s fun t => Answered s t x P :=
  ⟨_, hx, by rwa [spdmRequest_accepted hb hv hon hreset h]⟩

/-- The event of a request that is refused. -/
theorem gives_error {code : Nat} (hcode : spdmCode x.msg = code ∨ spdmKnown.contains (spdmCode x.msg) = false) {k : Nat}
    (hk : spdmFault (s.vd x.vd).spdm x.msg = k) (hne : k ≠ 0) {i : Instr} {f : State → State}
    (hx : exec i s = .next (s.spdmRequest code x f)) :
    Gives i s fun t => t.mem = s.mem ∧ (t.vd x.vd).transcript = (s.vd x.vd).transcript ∧ (t.vd x.vd).spdm = (s.vd x.vd).spdm ∧
      ∃ w, t.sent = s.sent ++ [.reply none x.seq [w],
        .attachment none x.seq (natLe 4 4 ++ natLe 4 x.seq ++ spdmHead 0x12 0x7F k 0)] ∧ w.toNat % 2 ^ 32 = 0 := by
  subst hk
  obtain ⟨hmem, hvd, hsent⟩ := answered_error s x (spdmFault (s.vd x.vd).spdm x.msg)
  refine ⟨_, hx, ?_⟩
  rw [spdmRequest_refused hb hv hon hreset hcode hne]
  exact ⟨hmem, congrArg Vd.transcript hvd, congrArg Vd.spdm hvd, hsent⟩

end

/-! ### Faults in their order (R381) -/

section
variable {st : SpdmSt} {m : List Byte} (hlen : 4 ≤ m.length) (hknown : spdmKnown.contains (spdmCode m) = true)
include hlen hknown

theorem spdmFault_version (h : spdmVersion m ≠ 0x12) : spdmFault st m = 0x41 := by
  rw [spdmFault, if_neg (Nat.not_lt.mpr hlen), if_neg (by rw [hknown]; decide), if_pos h]

theorem spdmFault_form (h : spdmVersion m = 0x12) (hform : spdmForm m = false) : spdmFault st m = 0x01 := by
  rw [spdmFault, if_neg (Nat.not_lt.mpr hlen), if_neg (by rw [hknown]; decide), if_neg (not_not_intro h), if_pos (by simp [hform])]

end

end Sys2Proof.Machine.State

namespace Sys2Proof

open Sys2Proof.Machine State

/-- Settles O52: each request is one `spdmRequest`, whose answer is plain or signed. -/
theorem spdmRequests : Obligations.SpdmRequests := by
  intro s x hb hv hon hreset hlen v fits after extends_
  have answers {code : Nat} {i : Instr} {f : State → State} {P : Vd → Prop} (h : fits code)
      (hx : exec i s = .next (s.spdmRequest code x f)) (ha : Answered s (f s) x P) : after i P :=
    gives_answer hb hv hon hreset h hx ha
  clear_value after
  refine ⟨fun h => answers h rfl (answered_answer s x _ _ ⟨rfl, _, rfl⟩),
    fun h => answers h rfl ((answered_plain s x _).modVd fun u hu => ⟨rfl, hu.2⟩),
    fun h => answers h rfl ((answered_plain s x _).modVd fun u hu => ⟨rfl, hu.2, rfl⟩),
    fun h => answers h rfl (answered_plain s x _),
    fun h => answers h rfl (answered_plain s x _),
    fun hk => ⟨spdmFault_version hlen hk, spdmFault_form hlen hk⟩,
    fun h => answers h rfl (answered_signed s x _).drawn,
    fun h => answers h rfl ?measurements, fun code i hi hcode k hk hne => ?refused⟩
  case measurements =>
    refine Answered.drawn ?_
    by_cases hsign : natBit (spdmP1 x.msg) 0
    · simp only [if_pos hsign]
      exact answered_signed s x _
    · simp only [if_neg hsign]
      exact answered_plain s x _
  case refused =>
    simp only [List.mem_cons, Prod.mk.injEq, List.not_mem_nil, or_false] at hi
    obtain ⟨rfl, rfl⟩ | ⟨rfl, rfl⟩ | ⟨rfl, rfl⟩ | ⟨rfl, rfl⟩ | ⟨rfl, rfl⟩ | ⟨rfl, rfl⟩ | ⟨rfl, rfl⟩ := hi
    all_goals exact gives_error hb hv hon hreset hcode hk hne rfl

end Sys2Proof
end

section
/-!
PROOFS. Resets of a context and of a virtual device (14 R400; 13 R376, R377): what is left of a context whose work is discarded, and
what of a device.
-/

namespace Sys2Proof.Machine.State

open Sys2Proof

/-! ### What a discarded context leaves (R399, R400) -/

/-- What leaves memory, the packets sent, launches, saves, queues and every context's words as they are. -/
structure RecordsStand (s u : State) : Prop where
  mem : u.mem = s.mem
  sent : u.sent = s.sent
  launches : u.launches = s.launches
  saved : u.saved = s.saved
  queues : u.queues = s.queues
  words : ∀ d, (u.ctx d).words = (s.ctx d).words

namespace RecordsStand

variable {s u v : State}

theorem refl (s : State) : RecordsStand s s := ⟨rfl, rfl, rfl, rfl, rfl, fun _ => rfl⟩

theorem trans (a : RecordsStand s u) (b : RecordsStand u v) : RecordsStand s v :=
  ⟨b.mem.trans a.mem, b.sent.trans a.sent, b.launches.trans a.launches, b.saved.trans a.saved, b.queues.trans a.queues,
    fun d => (b.words d).trans (a.words d)⟩

theorem foldl {α : Type} {f : State → α → State} (h : ∀ u a, RecordsStand u (f u a)) (l : List α) (s : State) :
    RecordsStand s (l.foldl f s) :=
  List.foldlRecOn l f (motive := RecordsStand s) (refl s) fun u hu a _ => hu.trans (h u a)

end RecordsStand

section
variable (s : State)

theorem words_modCtx (c : Nat) {f : Ctx → Ctx} (hf : ∀ x, (f x).words = x.words) (d : Nat) :
    ((s.modCtx c f).ctx d).words = (s.ctx d).words := by
  rw [modCtx, ctx_setCtx]
  split
  · rename_i e
    rw [hf, e]
  · rfl

theorem recordsStand_modCtx (c : Nat) {f : Ctx → Ctx} (hf : ∀ x, (f x).words = x.words) : RecordsStand s (s.modCtx c f) :=
  ⟨rfl, rfl, rfl, rfl, rfl, words_modCtx s c hf⟩

/-- A thread that leaves its groups changes groups and flocks alone. -/
theorem leaveGroups_with (t : Nat) : ∃ g gs fs, s.leaveGroups t = { s with cur := g, groups := gs, flocks := fs } :=
  have h := congrArg (fun u : State => { u with
    cur := (s.leaveGroups t).cur, groups := (s.leaveGroups t).groups, flocks := (s.leaveGroups t).flocks }) (leaveGroups_rest s t)
  ⟨_, _, _, h⟩

theorem recordsStand_leaveGroups (t : Nat) : RecordsStand s (s.leaveGroups t) := by
  obtain ⟨g, gs, fs, h⟩ := leaveGroups_with s t
  rw [h]
  exact ⟨rfl, rfl, rfl, rfl, rfl, fun _ => rfl⟩

theorem recordsStand_mergeFlags (k c : Nat) : RecordsStand s (s.mergeFlags k c) :=
  (recordsStand_modCtx s c (f := fun x => { x with fstat := x.fstat ||| s.coreFlags k c }) fun _ => rfl).trans
    ⟨rfl, rfl, rfl, rfl, rfl, fun _ => rfl⟩

theorem recordsStand_mergeAll (c : Nat) : RecordsStand s (s.mergeAll c) :=
  .foldl (fun u k => recordsStand_mergeFlags u k c) _ s

theorem recordsStand_dropPoison (tids ids : List Nat) (flock : Nat → Bool) : RecordsStand s (s.dropPoison tids ids flock) := by
  unfold dropPoison
  split
  · exact .refl s
  · exact ⟨rfl, rfl, rfl, rfl, rfl, fun _ => rfl⟩

/-- What is left of the records once a context's work is gone. -/
structure Discarded (u : State) (c : Nat) : Prop where
  mem : u.mem = s.mem
  sent : u.sent = s.sent
  launches : u.launches = s.launches.filter fun l => l.ctx ≠ c
  saved : u.saved = s.saved.filter fun x => x.ctx ≠ c
  queues : u.queues = s.queues
  words : ∀ d, (u.ctx d).words = (s.ctx d).words

theorem discarded_discardCtx (c : Nat) : Discarded s (s.discardCtx c) c := by
  unfold discardCtx
  extract_lets u gone ids tids v w x
  have hu : RecordsStand s u := recordsStand_mergeAll s c
  have hv : RecordsStand u v := .foldl recordsStand_leaveGroups tids u
  have hw : RecordsStand v w := recordsStand_dropPoison v _ _ _
  have hs := (hu.trans hv).trans hw
  clear_value w
  exact ⟨hs.mem, hs.sent, congrArg (List.filter fun l : Launch => l.ctx ≠ c) hs.launches,
    congrArg (List.filter fun y : SavedQuad => y.ctx ≠ c) hs.saved,
    hs.queues, fun d => (words_modCtx x c (f := fun y => { y with still := none }) (fun _ => rfl) d).trans (hs.words d)⟩

/-- R400: what a reset frees besides is none of these records. -/
theorem discarded_freeCtx (c : Nat) : Discarded s (s.freeCtx c) c := by
  unfold freeCtx
  extract_lets u v w leave mkt x
  have h : Discarded s u c := discarded_discardCtx s c
  clear_value u
  have hx : ∀ d, (x.ctx d).words = (u.ctx d).words := fun _ => rfl
  refine ⟨h.mem, h.sent, h.launches, h.saved, h.queues, fun d => ?_⟩
  rw [words_modCtx x c (f := fun y => { y with fstat := 0, bids := [], halted := false, resetDue := false }) (fun _ => rfl) d, hx d]
  exact h.words d

theorem ctx_freeCtx (c : Nat) : ((s.freeCtx c).ctx c).bids = [] ∧ ((s.freeCtx c).ctx c).fstat = 0 ∧
    ((s.freeCtx c).ctx c).halted = false := by
  unfold freeCtx
  extract_lets u v w leave mkt x
  rw [modCtx, ctx_setCtx, if_pos rfl]
  exact ⟨rfl, rfl, rfl⟩

theorem ctxVd_of_words {s u : State} {c : Nat} (h : (u.ctx c).words = (s.ctx c).words) : u.ctxVd c = s.ctxVd c := by
  rw [ctxVd, ctxVd, ctl, ctl, h]

/-- A kill record is sent, and written in memory alone. -/
theorem sendKill_eq (c : Nat) (rcd : List Byte) : ∃ m, ((s.ctx c).words.krec = 0 → m = s.mem) ∧
    s.sendKill c rcd = { s with mem := m, sent := s.sent ++ [.killRecord (s.ctxVd c) rcd] } := by
  unfold sendKill
  extract_lets k u
  by_cases h : (k = 0 || !s.systemOk k.toNat rcd.length) = true
  · exact ⟨s.mem, fun _ => rfl, by simp only [u, if_pos h]⟩
  · refine ⟨mputs s.mem (s.local_ k.toNat) rcd, fun h0 => absurd h (by simp [k, h0]), by simp only [u, if_neg h]; rfl⟩

/-- R400: a reset of a context that no save holds back. -/
theorem resetCtx_leaves (c : Nat) : let t := s.resetCtx c
    (t.ctx c).words = (s.ctx c).words ∧ (t.ctx c).bids = [] ∧ (t.ctx c).fstat = 0 ∧ (t.ctx c).halted = false ∧
      t.launches = s.launches.filter (fun l => l.ctx ≠ c) ∧ t.saved = s.saved.filter (fun x => x.ctx ≠ c) ∧
      t.sent = s.sent ++ (if (s.ctx c).killedAt = some s.cyc then [] else [.killRecord (s.ctxVd c) (s.killRecord c 0 0 7 0 0)]) ∧
      ((s.ctx c).words.krec = 0 → t.mem = s.mem) := by
  intro t
  have hfree := discarded_freeCtx s c
  obtain ⟨hbids, hfstat, hhalted⟩ := ctx_freeCtx s c
  have ht : t = s.resetCtx c := rfl
  clear_value t
  subst ht
  unfold resetCtx
  extract_lets rcd
  generalize s.freeCtx c = u at hfree hbids hfstat hhalted ⊢
  by_cases hk : (s.ctx c).killedAt = some s.cyc
  · rw [if_pos hk, if_pos hk, List.append_nil]
    exact ⟨hfree.words c, hbids, hfstat, hhalted, hfree.launches, hfree.saved, hfree.sent, fun _ => hfree.mem⟩
  · rw [if_neg hk, if_neg hk]
    obtain ⟨m, hm, he⟩ := sendKill_eq u c rcd
    rw [he, ← ctxVd_of_words (hfree.words c), ← hfree.sent]
    exact ⟨hfree.words c, hbids, hfstat, hhalted, hfree.launches, hfree.saved, rfl,
      fun h0 => (hm ((congrArg CtxWords.krec (hfree.words c)).trans h0)).trans hfree.mem⟩

theorem vds_resetCtx (c : Nat) : (s.resetCtx c).vds = s.vds := by
  have hfree : (s.freeCtx c).vds = s.vds := vds_discardCtx s c
  unfold resetCtx
  extract_lets rcd
  split
  · exact hfree
  · exact (vds_sendKill _ c rcd).trans hfree

theorem queues_sendKill (c : Nat) (rcd : List Byte) : (s.sendKill c rcd).queues = s.queues := by
  obtain ⟨m, -, he⟩ := sendKill_eq s c rcd
  rw [he]

theorem queues_resetCtx (c : Nat) : (s.resetCtx c).queues = s.queues := by
  have hfree := (discarded_freeCtx s c).queues
  unfold resetCtx
  extract_lets rcd
  split
  · exact hfree
  · exact (queues_sendKill _ c rcd).trans hfree

theorem vds_askReset (c : Nat) : (s.askReset c).vds = s.vds := by
  unfold askReset
  split
  · rfl
  · exact vds_resetCtx s c

theorem queues_askReset (c : Nat) : (s.askReset c).queues = s.queues := by
  unfold askReset
  split
  · rfl
  · exact queues_resetCtx s c

end

theorem contextReset_saving {s : State} {c : Nat} (hc : c < 256) (h : s.savingCtx c = true) :
    exec (.contextReset c) s = .next (s.modCtx c fun x => { x with resetDue := true }) :=
  congrArg Host.Outcome.next ((if_pos hc).trans (if_pos h))

theorem contextReset_free {s : State} {c : Nat} (hc : c < 256) (h : s.savingCtx c = false) :
    exec (.contextReset c) s = .next (s.resetCtx c) :=
  congrArg Host.Outcome.next ((if_pos hc).trans (if_neg (by simp [h])))

/-! ### Reset of a virtual device (R376, R377) -/

theorem queues_reject (s : State) (die code : Nat) : (s.reject die code).queues = s.queues := by
  unfold reject
  split
  · rfl
  · exact (recordsStand_leaveGroups s _).queues

/-- What a device's reset does to a queue: the packets of its rings are gone. -/
def emptied (v : Nat) (q : Nat × Queue) : Queue := if q.1 / 64 = v then { q.2 with ring := [] } else q.2

theorem emptied_eq (v : Nat) : (fun q : Nat × Queue => if q.1 / 64 = v then (q.1, { q.2 with ring := [] }) else q) =
    fun q => (q.1, emptied v q) := by
  funext q
  unfold emptied
  split <;> rfl

theorem vdReset_begins {s : State} {v : Nat} (hv : v < 64) (h : s.resetting v = false) : Gives (.vdReset v) s fun t =>
    (t.vd v).word = (s.vd v).word ||| 2 ∧ ∀ q x, tget s.queues q = some x → q / 64 = v → (t.queue q).ring = [] := by
  have hx : exec (.vdReset v) s = .next (s.beginVdReset v) := congrArg Host.Outcome.next (if_neg (by simp [h]))
  refine ⟨_, hx, ?_⟩
  rw [beginVdReset, if_neg (by simp [h, hv])]
  extract_lets mine packets cs launches empty u w y
  have hu : u.queues = s.queues.map fun q => (q.1, emptied v q) := by
    rw [← emptied_eq]
  have hwq : w.queues = u.queues := foldl_keeps State.queues (fun z r => queues_reject z _ _) _ _
  have hwv : (w.vd v).word = (s.vd v).word ||| 2 := by
    have hvds : w.vds = (u.modVd v fun x => { x with
        word := x.word ||| 2, naks := 0, lostPackets := packets, lostLaunches := launches, lostCtxs := cs.length }).vds :=
      foldl_keeps State.vds (fun z r => vds_reject z _ _) _ _
    rw [vd, hvds, ← vd, modVd, vd_setVd, if_pos rfl]
    rfl
  clear_value w
  have hyq : y.queues = w.queues := rfl
  have hyv : y.vd v = w.vd v := rfl
  clear_value y
  have hq : (cs.foldl (fun s c => s.askReset c) y).queues = y.queues := foldl_keeps State.queues queues_askReset cs y
  have hvd : (cs.foldl (fun s c => s.askReset c) y).vds = y.vds := foldl_keeps State.vds vds_askReset cs y
  refine ⟨?_, fun q x hget hdiv => ?_⟩
  · rw [vd, hvd, ← vd, hyv, hwv]
  · rw [queue, hq, hyq, hwq, hu, tget_map_keyed, hget, Option.map_some, Option.getD_some, emptied, if_pos hdiv]

theorem resetRecord_length (s : State) (v : Nat) : (s.resetRecord v).length = 32 := by
  simp only [resetRecord, List.length_append, natLe_length]

theorem vdReset_ends {s : State} {v : Nat} (h : s.resetting v = true) (hdue : ∀ c ∈ s.ctxsOfVd v, (s.ctx c).resetDue = false) :
    Gives (.vdReset v) s fun t => (t.vd v).keys = [] ∧ (t.vd v).windows = [] ∧ (t.vd v).word = (s.vd v).word &&& ~~~2#64 ∧
      t.mem = s.mem ∧ ∃ b, t.sent = s.sent ++ [.resetRecord v b] ∧ b.length = 32 := by
  have hx : exec (.vdReset v) s = .next (s.endVdReset v) := congrArg Host.Outcome.next (if_pos h)
  refine ⟨_, hx, ?_⟩
  have hnone : ¬ ((s.ctxsOfVd v).any fun c => (s.ctx c).resetDue) = true := by
    simpa only [List.any_eq_true, not_exists, not_and, Bool.not_eq_true] using hdue
  rw [endVdReset, if_neg hnone]
  have hwaits : ThreadsOnly s (s.endHostWaits v) := ThreadsOnly.foldl (fun u t => threadsOnly_endWait u t 4) _ s
  generalize s.endHostWaits v = u at hwaits ⊢
  have hsent : u.sent = s.sent := by
    have e := congrArg State.sent hwaits
    exact e
  extract_lets w rcd
  have hw : w.vd v = { u.vd v with keys := [], windows := [], dead := [], word := (u.vd v).word &&& ~~~2#64 } := by
    simp only [w, modVd, vd_setVd, if_true]
  have hwm : w.mem = u.mem := rfl
  have hws : w.sent = u.sent := rfl
  have hlen : rcd.length = 32 := resetRecord_length w v
  clear_value w rcd
  have hvd : (w.modVd v fun x => { x with naks := 0, lostPackets := 0, lostLaunches := 0, lostCtxs := 0 }).vd v =
      { w.vd v with naks := 0, lostPackets := 0, lostLaunches := 0, lostCtxs := 0 } := by rw [modVd, vd_setVd, if_pos rfl]
  have huv : u.vd v = s.vd v := by rw [vd, vd, vds_of_threadsOnly hwaits]
  rw [hw, huv] at hvd
  refine ⟨congrArg Vd.keys hvd, congrArg Vd.windows hvd, congrArg Vd.word hvd, hwm.trans hwaits.mem, rcd, ?_, hlen⟩
  rw [← hsent, ← hws]

end Sys2Proof.Machine.State

/-! ### Reset of the package (R345, R400, R413) -/

namespace Sys2Proof.Machine.State

open Sys2Proof

/-- R379: the responders are loaded into queues alone. -/
theorem managementQueues_eq (code : List W64) (l : List Nat) (s : State) :
    ∃ qs, l.foldl (fun s v => s.managementQueue v code) s = { s with queues := qs } :=
  List.foldlRecOn l _ (motive := fun u : State => ∃ qs, u = { s with queues := qs }) ⟨s.queues, rfl⟩ fun u hu v _ => by
    obtain ⟨qs, rfl⟩ := hu
    exact ⟨_, rfl⟩

/-- R413: a boot gives the part its node number, and runs it exactly when its image verifies. -/
theorem boot_eq (s : State) : ∃ meas image qs sent, s.boot = { s.takeNode with
    sec := { s.sec with meas, image }, queues := qs, sent
    held := !Config.imageVerifies s.sec.flash, booted := Config.imageVerifies s.sec.flash } := by
  have hflash : s.takeNode.sec.flash = s.sec.flash := rfl
  unfold boot
  extract_lets u img part old meas code sec v
  cases h : Config.imageVerifies img with
  | false =>
    have hv : Config.imageVerifies s.sec.flash = false := h
    rw [hv]
    exact ⟨_, _, _, _, rfl⟩
  | true =>
    have hv : Config.imageVerifies s.sec.flash = true := h
    rw [hv]
    obtain ⟨qs, hqs⟩ := managementQueues_eq code (upTo 64) v
    exact ⟨meas, img, qs, u.sent, hqs⟩

theorem packageReset_boots (s : State) : Gives .packageReset s fun t =>
    t.booted = Config.imageVerifies s.sec.flash ∧ t.held = !Config.imageVerifies s.sec.flash ∧
    t.node = BitVec.ofNat 12 (Config.nodeNumber (s.sec.resets + 1) % 128) ∧
    t.threads = [] ∧ t.wgs = [] ∧ t.launches = [] ∧ t.ctxs = [] ∧ t.ranges = [] ∧ t.meters = [] ∧ t.timed = false ∧
    t.sec.flash = s.sec.flash ∧ t.sec.report = s.finalReport ∧
    t.mem = (s.mem.filter fun c => !s.isLocal c.1).filter fun c => !t.isLocal c.1 := by
  have hx : exec .packageReset s = .next (s.clearPart s.finalReport).boot := rfl
  refine ⟨_, hx, ?_⟩
  generalize s.finalReport = report
  obtain ⟨meas, image, qs, sent, hboot⟩ := boot_eq (s.clearPart report)
  rw [hboot]
  exact ⟨rfl, rfl, rfl, rfl, rfl, rfl, rfl, rfl, rfl, rfl, rfl, rfl, rfl⟩

/-! ### Errors (R397, R398) -/

section
variable {s : State} {x : EccArgs}

theorem eccError_parity (hc : x.correctable = true) (hp : eccParity x.what = true) : exec (.eccError x) s = .next s :=
  congrArg Host.Outcome.next (if_pos (by rw [hc, hp]; rfl))

/-- The owner's meter counts an error; a kill counts it itself. -/
def metered (s : State) (x : EccArgs) : State :=
  match s.eccOwner x with
  | some c => if x.what = EccStruct.parityTable then s else s.ctxError c
  | none => s

theorem metered_eq (s : State) (x : EccArgs) : ∃ m, s.metered x = { s with meters := m } := by
  unfold metered
  split
  · split
    · exact ⟨s.meters, rfl⟩
    · exact ⟨_, rfl⟩
  · exact ⟨s.meters, rfl⟩

theorem eccError_corrected (hc : x.correctable = true) (hp : eccParity x.what = false) : Gives (.eccError x) s fun t =>
    t.errc = { s.errc with corrected := s.errc.corrected + 1 } ∧ { t with errc := s.errc, meters := s.meters } = s := by
  have hx : exec (.eccError x) s = .next (s.eccEvent x) := rfl
  have he : s.eccEvent x = { s.metered x with errc := { (s.metered x).errc with corrected := (s.metered x).errc.corrected + 1 } } := by
    rw [eccEvent, if_neg (by simp [hp])]
    exact if_pos hc
  refine ⟨_, hx, ?_⟩
  obtain ⟨m, hm⟩ := metered_eq s x
  rw [he, hm]
  exact ⟨rfl, rfl⟩

theorem eccError_counted (hc : x.correctable = false) : exec (.eccError x) s =
    .next ({ s.metered x with errc := { s.errc with uncorrectable := s.errc.uncorrectable + 1 } }.eccBad x) := by
  have herrc : (s.metered x).errc = s.errc := by
    obtain ⟨m, hm⟩ := metered_eq s x
    rw [hm]
  have he : s.eccEvent x = { s.metered x with
      errc := { (s.metered x).errc with uncorrectable := (s.metered x).errc.uncorrectable + 1 } }.eccBad x := by
    rw [eccEvent, if_neg (by simp [hc])]
    exact if_neg (by simp [hc])
  rw [herrc] at he
  exact congrArg Host.Outcome.next he

end

theorem mem_addPoison (s : State) (p : Poison) : p ∈ (s.addPoison p).poison := by
  unfold addPoison
  split
  · rename_i h
    exact List.contains_iff_mem.mp h
  · exact List.mem_cons_self ..

/-- What marks data as poisoned, or a page as retired, leaves of the package. -/
theorem addPoison_eq (s : State) (p : Poison) : ∃ l, s.addPoison p = { s with poison := l } := by
  unfold addPoison
  split
  · exact ⟨s.poison, rfl⟩
  · exact ⟨_, rfl⟩

theorem retirePage_eq (s : State) (page : Nat) : ∃ l n,
    s.retirePage page = { s with retired := l, errc := { s.errc with retired := n } } := by
  unfold retirePage
  split
  · exact ⟨s.retired, s.errc.retired, rfl⟩
  · split
    · exact ⟨s.retired, s.errc.retired, rfl⟩
    · exact ⟨_, _, rfl⟩

theorem eccError_dram {s : State} {x : EccArgs} (hc : x.correctable = false) (hw : x.what = .dram) (hloc : x.loc < 2 ^ 41) :
    Gives (.eccError x) s fun t => t.errc.uncorrectable = s.errc.uncorrectable + 1 ∧ t.mem = s.mem ∧
      .line (s.local_ (x.loc * 128) / 128) false ∈ t.poison := by
  refine ⟨_, eccError_counted hc, ?_⟩
  obtain ⟨m, hm⟩ := metered_eq s x
  rw [hm]
  generalize hv : ({ s with meters := m, errc := { s.errc with uncorrectable := s.errc.uncorrectable + 1 } } : State) = v
  have hmem : v.mem = s.mem := by rw [← hv]
  have herrc : v.errc.uncorrectable = s.errc.uncorrectable + 1 := by rw [← hv]
  have hlocal : v.local_ (x.loc * 128) = s.local_ (x.loc * 128) := by rw [← hv]; rfl
  have hbad : v.eccBad x = (v.addPoison (.line (s.local_ (x.loc * 128) / 128) false)).retirePage (x.loc * 128 / 65536) := by
    simp only [eccBad, hw, if_neg (Nat.not_le.mpr hloc), hlocal]
  have hline := mem_addPoison v (.line (s.local_ (x.loc * 128) / 128) false)
  obtain ⟨l, hl⟩ := addPoison_eq v (.line (s.local_ (x.loc * 128) / 128) false)
  rw [hl] at hline hbad
  obtain ⟨r, n, hr⟩ := retirePage_eq { v with poison := l } (x.loc * 128 / 65536)
  rw [hbad, hr]
  exact ⟨herrc, hmem, hline⟩

/-! ### Sensors (R414) -/

section
variable (s : State) {n : Nat}

theorem thermal_quad (h : n < 64) (hot : Bool) : let t := s.thermal (.quad n) hot
    (t.quad n).hot = hot ∧ t.sent = s.sent ++ [.thermal (.quad n) hot] ∧ t.mem = s.mem := by
  simp only [thermal, if_pos h]
  refine ⟨?_, rfl, rfl⟩
  have hq : (s.modQuad n fun q => { q with hot }).quad n = { s.quad n with hot } := quad_modQuad ..
  exact congrArg Quad.hot hq

theorem thermal_slice (h : n < 48) (hot : Bool) : let t := s.thermal (.slice n) hot
    (n ∈ t.hotSlices ↔ hot = true) ∧ t.mem = s.mem := by
  cases hot with
  | true => simp [thermal, if_pos h, mem_insertNat]
  | false => simp [thermal, if_pos h]

theorem thermal_port (h : n < 28) (hot : Bool) : let t := s.thermal (.port n) hot
    (n ∈ t.hotPorts ↔ hot = true) ∧ t.mem = s.mem := by
  cases hot with
  | true => simp [thermal, if_pos h, mem_insertNat]
  | false => simp [thermal, if_pos h]

end

/-! ### The Drover (R404 to R407) -/

section
variable {s : State} {c : Nat}

theorem droveStep_absent {x : Session} (hx : s.sessionOf c = some x) (ha : s.sessionAbsent x = true) (answered : Bool) :
    s.droveStep c answered = s := by
  simp only [droveStep, hx, if_pos ha]

theorem takeCopy_refused {addr : Nat} {data : List Byte}
    (h : 65536 < addr % 65536 + data.length ∨ s.rangeOkFor (s.ctxVd c) addr = false) : s.takeCopy c addr data = s :=
  if_pos (by simpa only [Bool.or_eq_true, decide_eq_true_eq, Bool.not_eq_true'] using h)

/-- R174: where no move is under way, a write from outside is charged and made, and no more. -/
theorem awaiting_writeOutside (h : s.sessions = []) (pa : Nat) (bs : List Byte) (stamp : Nat) :
    (s.writeOutside pa bs stamp).awaiting = s.awaiting := by
  have hcharge := chargeOnly_chargeLines s none pa bs.length
  have hsessions : ((s.chargeLines none pa bs.length).putMem pa bs stamp).sessions = [] := hcharge.sessions.trans h
  have hawaiting : (s.chargeLines none pa bs.length).awaiting = s.awaiting := by
    have e := congrArg State.awaiting hcharge
    exact e
  have hmark : ∀ (u : State), u.sessions = [] → ∀ pa, u.markOutside pa = u := by
    intro u hu pa
    rw [markOutside, hu]
    rfl
  have hput : ((s.chargeLines none pa bs.length).putMem pa bs stamp).awaiting = (s.chargeLines none pa bs.length).awaiting := rfl
  unfold writeOutside
  dsimp only
  rw [hmark _ hsessions, hmark _ hsessions, hput, hawaiting]

theorem takeCopy_page {addr : Nat} {data : List Byte} (haddr : addr % 65536 = 0) (hlen : data.length = 65536) (hs : s.sessions = [])
    (hr : s.rangeOkFor (s.ctxVd c) addr = true) : (s.takeCopy c addr data).mem = mputs s.mem (s.local_ addr) data ∧
      (s.takeCopy c addr data).awaiting = s.awaiting.filter (· ≠ addr / 65536) := by
  have hok : ¬ (decide (65536 < addr % 65536 + data.length) || !s.rangeOkFor (s.ctxVd c) addr) = true := by
    rw [haddr, hlen, hr]
    decide
  rw [takeCopy, if_neg hok]
  simp only [if_pos hlen, awaiting_writeOutside hs, and_true]
  exact (writeOutside_plain hs _ _ _).1

section
variable {queue : Nat} {p : MovedPacket} (hq : queue < 64)
include hq

theorem takePackets_discarded (h : (s.queue (queueKey (s.ctxVd c) queue)).loaded = false ∨
    256 ≤ (s.queue (queueKey (s.ctxVd c) queue)).ring.length) : s.takePackets c queue [p] = s.vdError (s.ctxVd c) := by
  have hbad : (decide (64 ≤ queue) || !(s.queue (queueKey (s.ctxVd c) queue)).loaded ||
      decide (256 ≤ (s.queue (queueKey (s.ctxVd c) queue)).ring.length)) = true := by
    simpa only [Bool.or_eq_true, decide_eq_true_eq, Bool.not_eq_true', Nat.not_le.mpr hq, false_or] using h
  simp only [takePackets, List.foldl_cons, List.foldl_nil, if_pos hbad]

theorem takePackets_placed (hl : (s.queue (queueKey (s.ctxVd c) queue)).loaded = true)
    (hr : (s.queue (queueKey (s.ctxVd c) queue)).ring.length < 256) : s.takePackets c queue [p] =
      s.setQueue (queueKey (s.ctxVd c) queue) { s.queue (queueKey (s.ctxVd c) queue) with
        ring := (s.queue (queueKey (s.ctxVd c) queue)).ring ++ [⟨p.ctx, p.seq, p.body, p.from_⟩] } := by
  have hok : ¬ (decide (64 ≤ queue) || !(s.queue (queueKey (s.ctxVd c) queue)).loaded ||
      decide (256 ≤ (s.queue (queueKey (s.ctxVd c) queue)).ring.length)) = true := by
    simp only [Bool.or_eq_true, decide_eq_true_eq, hl, Bool.not_true, Bool.false_eq_true, Nat.not_le.mpr hq, Nat.not_le.mpr hr, or_self,
      not_false_eq_true]
  simp only [takePackets, List.foldl_cons, List.foldl_nil, if_neg hok]

end

end

end Sys2Proof.Machine.State

namespace Sys2Proof

open Sys2Proof.Machine State

/-- Settles O49: one event at a time, each by what it leaves of the state. -/
theorem resetsAndErrors : Obligations.ResetsAndErrors := by
  intro s
  refine ⟨fun c hc => ⟨contextReset_saving hc, fun h => ⟨_, contextReset_free hc h, resetCtx_leaves s c⟩⟩,
    fun v => vdReset_begins, fun v => vdReset_ends, packageReset_boots s,
    fun x hc => ⟨eccError_parity hc, eccError_corrected hc⟩, fun x => eccError_dram, fun x => eccError_counted,
    fun n hn => ⟨⟨_, rfl, thermal_quad s hn true⟩, ⟨_, rfl, thermal_quad s hn false⟩⟩, fun n hn => ?slice, fun n hn => ?port,
    fun c x answered hx ha => congrArg Host.Outcome.next (droveStep_absent hx ha answered), fun c pages => rfl,
    fun c addr data => ⟨fun h => congrArg Host.Outcome.next (takeCopy_refused h),
      fun ha hlen hs hr => ⟨_, rfl, takeCopy_page ha hlen hs hr⟩⟩, fun c queue p hq => ?ring,
    fun c x step answered hx ha hd => ?step⟩
  case slice =>
    obtain ⟨hhot, hmem⟩ := thermal_slice s hn true
    obtain ⟨hcold, hmem'⟩ := thermal_slice s hn false
    exact ⟨⟨_, rfl, hhot.mpr rfl, hmem⟩, ⟨_, rfl, fun h => Bool.false_ne_true (hcold.mp h), hmem'⟩⟩
  case port =>
    obtain ⟨hhot, hmem⟩ := thermal_port s hn true
    obtain ⟨hcold, hmem'⟩ := thermal_port s hn false
    exact ⟨⟨_, rfl, hhot.mpr rfl, hmem⟩, ⟨_, rfl, fun h => Bool.false_ne_true (hcold.mp h), hmem'⟩⟩
  case ring =>
    refine ⟨fun h => congrArg Host.Outcome.next (takePackets_discarded hq h), fun hl hr => ⟨_, congrArg Host.Outcome.next
      (takePackets_placed hq hl hr), rfl, ?_⟩⟩
    rw [queue_setQueue, if_pos rfl]
  case step =>
    have hx' : exec (.droverStepComplete c (.answered answered)) s = .next (s.droveStep c answered) := rfl
    rw [hx', droveStep]
    cases step <;> simp only [hx, ha, hd, Bool.false_eq_true, if_false]

end Sys2Proof
end
